-- ==== Sys2Proof/Word.lean ====
section
/-!
DEFINITION. The words of the machine: a register is 32 bits wide (R11), a byte 8, press time 64 (R44).
-/
namespace Sys2Proof

/-- A register, a general register of a core, a ring word (R11, R48). -/
abbrev Word := BitVec 32

/-- A byte of the system address space (R14). -/
abbrev Byte := BitVec 8

/-- A sparse table: numbered entries, keys rising. -/
abbrev Tab (α : Type) := List (Nat × α)

end Sys2Proof
end

