-- ==== Sys2Proof/Machine/StateStore.lean ====
section
/-!
DEFINITION. The state of the Talosh ports and the storage queue (chapter 09) and of the disk channels (chapter 10).
-/
namespace Sys2Proof.Machine

/-- A Talosh or accord packet (R253). The CRC trailer is a function of the rest and is not stored. -/
structure Pkt where
  type : Nat
  dev : Nat
  len : Nat
  tag : Nat
  seq : Nat
  addr : Nat
  payload : List Byte
  deriving DecidableEq, Repr, Inhabited

/-- A coded block of a serial lane: 128b/130b on an exposure or accord link (R170, R445), 64b/66b on a Talosh port
(R250). The lane, whether it is a control block, its payload bits. -/
structure LaneBlock where
  lane : Nat
  control : Bool
  bits : Nat
  deriving DecidableEq, Repr, Inhabited

/-- A packet that waits for credit or replay room, and the port whose receive buffer holds it if it is forwarded. -/
structure Queued where
  pkt : Pkt
  port : Option Nat
  deriving DecidableEq, Repr, Inhabited

/-- Header and data credits of the three classes P, N, C (R257). -/
structure Credits where
  ph : Nat
  pd : Nat
  nh : Nat
  nd : Nat
  ch : Nat
  cd : Nat
  deriving DecidableEq, Repr, Inhabited

/-- A packet link: one Talosh port, or the accord link (R256, R257, R446). -/
structure LinkSt where
  /-- SEQ of the next packet sent, packets sent and not acknowledged, packets waiting for credit. -/
  txSeq : Nat
  replay : List Pkt
  waiting : List Queued
  /-- Replays of the same oldest packet in a row, and the press time of the last progress or replay. -/
  replays : Nat
  lastAck : Nat
  /-- SEQ expected next, and whether packets are discarded until a replay arrives. -/
  rxSeq : Nat
  naked : Bool
  /-- Packets received since the last ACK sent. -/
  unacked : Nat
  /-- Credits held toward the partner; credits granted to the partner and not used. -/
  credit : Credits
  granted : Credits
  /-- The last link packets sent: ACK or NAK with its SEQ, CREDIT, CAPS. -/
  linkOut : List Pkt
  failedAt : Option Nat
  /-- Press time at which the training step in progress began (R251, R445). -/
  stepAt : Nat
  /-- With GEN = AUTO, the next attempt tries the Talosh 2 rate (R251). -/
  tryT2 : Bool
  /-- Width that LOCK gave the attempt in progress (R251), coded as MAXW. -/
  width : Nat
  /-- The blocks in which the last packet left (R250). -/
  wire : List LaneBlock
  /-- Live packet-error and replay counts (CRCERR, REPLAY of TAL_PORTp_CNT). -/
  crcErr : Nat
  replayCnt : Nat
  deriving DecidableEq, Repr, Inhabited

/-- The Talosh 1 port (R262 to R264): the line being received, slots in use and the line count. -/
structure T1St where
  lineOpen : Bool
  page : Bool
  tLsync : Nat
  slot : Nat
  nextSlot : Nat
  used : Nat
  lines : Nat
  drops : Nat
  deriving DecidableEq, Repr, Inhabited

/-- A storage stream (R267). -/
structure Stream where
  firm : Bool
  notify : Bool
  sq : Nat
  cq : Nat
  hcopy : Nat
  completed : Nat
  deriving DecidableEq, Repr, Inhabited

/-- An offer made for a WRITE (R272): first byte, bytes, bytes still missing, press time of its TR. -/
structure Offer where
  first : Nat
  bytes : Nat
  missing : Nat
  tOffer : Nat
  deriving DecidableEq, Repr, Inhabited

/-- An accepted storage command (R269, R271). -/
structure StqCmd where
  aseq : Nat
  stream : Nat
  opc : Nat
  vol : Nat
  all : Bool
  local_ : Bool
  cid : Nat
  lba : Nat
  nblk : Nat
  addr : Nat
  utag : Nat
  sqCons : Nat
  /-- Accepted, so that it holds a command slot (R271); a range-lock entry is held (R273); work has begun; a READ's
  media accesses are queued. -/
  accepted : Bool
  locked : Bool
  begun : Bool
  queued : Bool
  xtag : Nat
  offered : Nat
  offers : List Offer
  /-- Staging slots of offered blocks not yet staged: (block, slot). -/
  slots : List (Nat × Nat)
  /-- Bytes received so far, as (first, length) runs. -/
  got : List (Nat × Nat)
  /-- READ: blocks delivered; WRITE: blocks staged. -/
  done : Nat
  /-- WRITE in a joined pair: volume blocks staged that the partner has not acknowledged (R272). -/
  unheld : List Nat
  /-- Blocks (index within the command) that ended MEDIA, ECC, UNWRITTEN. -/
  media : List Nat
  ecc : List Nat
  unwritten : List Nat
  /-- Blocks of a READ still to be delivered. -/
  todo : List Nat
  /-- The command has ended with this status and its completion entry is due (R268). -/
  ended : Option (Nat × Nat)
  deriving DecidableEq, Repr, Inhabited

/-- A block held in the write staging area (R272, R277): its volume block, slot of the area, whether its data were lost
to an uncorrectable error, and the ASEQ that staged it. -/
structure Staged where
  vol : Nat
  vblk : Nat
  slot : Nat
  lost : Bool
  aseq : Nat
  deriving DecidableEq, Repr, Inhabited

/-- The storage queue. -/
structure StqSt where
  streams : Tab Stream
  cmds : List StqCmd
  staged : List Staged
  /-- Blocks lost while staged (R274): ASEQ of their WRITE, volume, volume block. -/
  lostBlocks : List (Nat × Nat × Nat)
  nextAseq : Nat
  nextXtag : Nat
  nextStream : Nat
  /-- Transfer tags whose later DATA are discarded silently after XFER (R272). -/
  deadTags : List Nat
  deriving DecidableEq, Repr, Inhabited

/-- Who asked a channel for sectors. -/
inductive DskOrigin where
  | ring
  /-- A storage-queue READ: the command's ASEQ and, per sector, the command's block index. -/
  | stq (aseq : Nat) (idx : List Nat)
  /-- The partner's MREAD (R457): volume, first volume block, count. -/
  | mread (vol blk count deadline : Nat)
  deriving DecidableEq, Repr, Inhabited

/-- A disk request (R299) and how far it has come (R295 to R298). Sectors are numbered within the request. -/
structure DskReq where
  op : Nat
  rsv : Bool
  page : Nat
  entry : Nat
  slot : Nat
  count : Nat
  boff : Nat
  dst : Nat
  tag : Nat
  origin : DskOrigin
  /-- The channel block of each sector; for RSV the reserved block. -/
  blks : List Nat
  /-- The first read (step 0), or the slot, has begun; the last ladder step run; the step to run next and, for a
  two-revolution step, its second revolution; ladder revolutions used. -/
  started : Bool
  step : Nat
  plan : Nat
  half : Bool
  revs : Nat
  /-- Sectors that the revolution in progress serves. -/
  serving : List Nat
  /-- Sectors still to attempt in this pass; read well; failed in this pass; found NODATA. -/
  todo : List Nat
  good : List Nat
  failed : List Nat
  nodata : List Nat
  /-- Waiting for the partner's mirror (R297), until when, and sectors that came from it. -/
  mirror : Bool
  mirrorBy : Nat
  fromMirror : Bool
  /-- End of the slot, once served: nominal until the next index comes (R332). -/
  tEnd : Nat
  /-- Completed: status. A completed-OK STAGE still carries its block (R301). -/
  status : Option Nat
  deriving DecidableEq, Repr, Inhabited

/-- An entry of the write-intent list (R305): the run's first CBLK and count, and its channel blocks not yet written
whole. -/
structure Intent where
  first : Nat
  count : Nat
  left : List Nat
  deriving DecidableEq, Repr, Inhabited

/-- A sector of a write pass: its number on the track, the channel block it carries, and whether a FORMAT writes it. -/
structure WSec where
  sector : Nat
  cblk : Nat
  form : Bool
  deriving DecidableEq, Repr, Inhabited

/-- A sector as recorded (R282, R304): its channel block, its first bit after the index, its channel bits (first bit
lowest), WPC1, WPC2 and the write current. -/
structure Recorded where
  cblk : Nat
  start : Nat
  bits : Nat
  wpc1 : Nat
  wpc2 : Nat
  wcur : Nat
  deriving DecidableEq, Repr, Inhabited

/-- The track that a channel serves in one revolution (R296): cylinder and head, the index at which the revolution
begins, and the one at which it ends. -/
structure DskPass where
  cyl : Nat
  head : Nat
  startAt : Option Nat
  stopAt : Option Nat
  deriving DecidableEq, Repr, Inhabited

/-- From `at_` on: SETTLED, LOCK of the bit clock, and the write gate open (R294, R316, R317). -/
structure DskMark where
  at_ : Nat
  settled : Bool
  lock : Bool
  gate : Bool
  deriving DecidableEq, Repr, Inhabited

/-- One disk channel (chapter 10). -/
structure DskSt where
  reqs : List DskReq
  /-- Write-intent list (R305), in the MRAM calibration store. -/
  intents : List Intent
  sweeping : Bool
  /-- C as APPLY computed it, shown in DSKd_CAP while READY = 1 (R289, R308). -/
  cap : Nat
  /-- Whose turn it is at precedence level 3: 0 reads, 1 writes (R296). -/
  turn : Nat
  rdok : Nat
  rdretry : Nat
  rdfail : Nat
  wrcnt : Nat
  /-- The revolution in progress, the sectors it is still to write, and its conditions, newest first. -/
  pass : Option DskPass
  writing : List WSec
  marks : List DskMark
  /-- Sectors recorded since the last pass was chosen. -/
  wrote : List Recorded
  /-- Bits per revolution to which PL(7+d) is set, and the write current sent to the preamplifier (R286, R304). -/
  tbits : Nat
  wcur : Nat
  deriving DecidableEq, Repr, Inhabited

end Sys2Proof.Machine
end

