-- ==== Sys2Proof/Machine/StateIO.lean ====
section
/-!
DEFINITION. The operands of the commands: who makes an access and how wide it is, a packet as received, a selvage
frame as detected.
-/
namespace Sys2Proof.Machine

/-- Who makes a register or memory access (R11, R15, R410, R421). -/
inductive Requester where
  /-- A Talosh register or memory packet. -/
  | talosh
  | core (n : Fin 24)
  /-- Hardware of the device itself: a timer, a loop slot, a web trigger, a cool-down write. -/
  | unit
  deriving DecidableEq, Repr, Inhabited

/-- Size of an access. -/
inductive AccSize where
  | byte | half | word | dword
  deriving DecidableEq, Repr, Inhabited

/-- Bytes of an access. -/
def AccSize.bytes : AccSize → Nat
  | .byte => 1 | .half => 2 | .word => 4 | .dword => 8

/-- A packet as it arrives: its bytes, header and trailer included (R253). -/
structure PktIn where
  bytes : List Byte
  deriving DecidableEq, Repr, Inhabited

/-- The three packet links: Talosh upstream, Talosh downstream, accord (R253, R446). -/
inductive LinkId where
  | tu | td | acd
  deriving DecidableEq, Repr, Inhabited

/-- Index of a link among `State.links`. -/
def LinkId.idx : LinkId → Nat
  | .tu => 0 | .td => 1 | .acd => 2

/-- What a bus access answered its requester: data, or the error of R15. -/
structure BusResp where
  err : Bool
  data : Nat
  deriving DecidableEq, Repr, Inhabited

/-- A selvage frame as the servo reader gives it (R311): cells 0 to 79 (SYNC, FRAME, CYL), cell 0 lowest, and the
amplitudes of bursts A and B. -/
structure ServoFrame where
  cells : BitVec 80
  a : BitVec 16
  b : BitVec 16
  deriving DecidableEq, Repr, Inhabited

/-- What the detector and decoder of a disk channel give for one sector, run in one way (R291, R292): the equaliser
set, its filter word, taps (none where ADAPT lets the channel choose them) and target; the erased runs of bits, as
first bit and length; the sync position taken, in bits from the predicted one; the decoder iterations of each global
iteration; the 36,864 bits of the codeword as recorded, first bit lowest. -/
structure Detect where
  set : Nat
  filter : BitVec 32
  taps : List (BitVec 32)
  target : BitVec 32
  erased : List (Nat × Nat)
  start : Int
  iters : List Nat
  codeword : Nat
  deriving DecidableEq, Repr, Inhabited

/-- What a disk channel receives of one sector (R293, R295): the 96 bits from 24 before the predicted sync position,
first bit lowest; the stretches whose envelope is below nominal, as first bit, length and percent, in rising order;
what detection gives for each way of running it. -/
structure SectorRead where
  window : BitVec 96
  envelope : List (Nat × Nat × Nat)
  tries : List Detect
  deriving DecidableEq, Repr, Inhabited

/-- An I2C sensor's reply to one transaction (R416): which of address, register pointer and repeated address it
acknowledged, its longest clock stretch in µs, and the two bytes read. -/
structure I2cReply where
  acks : BitVec 3
  stretch : BitVec 16
  first : Byte
  second : Byte
  deriving DecidableEq, Repr, Inhabited

/-- The inputs of a half-bridge as sampled (R340 to R345): the last two samples of GOFF of each switch, HSG high, DSAT_N
of each switch low, and the current-sense input HS in 1/1,024 of full scale. -/
structure HbPins where
  goffH : BitVec 2
  goffL : BitVec 2
  hsg : Bool
  dsatH : Bool
  dsatL : Bool
  hs : BitVec 10
  deriving DecidableEq, Repr, Inhabited

end Sys2Proof.Machine
end

