-- ==== Sys2Proof/Syntax.lean ====
section
/-!
DEFINITION. The commands of the block: one constructor per row of the table of operations and events, with the
operands the rule of the row needs. A register-write row carries the unit and the 32-bit value written; a row of a
core carries the core and the instruction's operands; a row that the outside world causes carries what the device
observes at its pins or links; a row that a timing rule of the spec causes carries the unit alone.
-/
namespace Sys2Proof

open Sys2Proof.Machine

/-- A command. Each constructor's line cites the rule of its row. -/
inductive Instr where
  /-- REGISTER_ACCESS (R488). -/
  | registerAccess (req : Requester) (addr : BitVec 40) (size : AccSize) (write : Bool) (v : Word)
  /-- RC_READ (R42). -/
  | rcRead (off : BitVec 24)
  /-- PTIME_LO_READ (R43). -/
  | ptimeLoRead
  /-- OUTB_LO_READ (R224). -/
  | outbLoRead (e : Fin 8)
  /-- LOCAL_RAM_ACCESS (R54). -/
  | localRamAccess (n : Fin 24) (off : BitVec 17) (size : Fin 7) (write : Bool) (v : BitVec 512)
  /-- ADMIT_REQ (R21). -/
  | admitReq (handle : Word)
  /-- ADMIT_EVALUATION (R22). -/
  | admitEvaluation
  /-- WITHDRAW (R26). -/
  | withdraw (handle : Word)
  /-- SPOIL (R43). -/
  | spoil (handle : Word)
  /-- PAGE_START (R18). -/
  | pageStart (idx : Fin 1024)
  /-- PAGE_DONE (R35). -/
  | pageDone (idx : Fin 1024)
  /-- SNAP_REQ (R39). -/
  | snapReq (v : Word)
  /-- SNAPSHOT_DONE (R39). -/
  | snapshotDone
  /-- SNAPSHOT_TIMEOUT (R40). -/
  | snapshotTimeout (missed : BitVec 24)
  /-- ADD (R60). -/
  | crAdd (n : Fin 24) (rd ra rb : Fin 32)
  /-- SUB (R60). -/
  | crSub (n : Fin 24) (rd ra rb : Fin 32)
  /-- ADC (R60). -/
  | crAdc (n : Fin 24) (rd ra rb : Fin 32)
  /-- SBC (R60). -/
  | crSbc (n : Fin 24) (rd ra rb : Fin 32)
  /-- AND (R60). -/
  | crAnd (n : Fin 24) (rd ra rb : Fin 32)
  /-- OR (R60). -/
  | crOr (n : Fin 24) (rd ra rb : Fin 32)
  /-- XOR (R60). -/
  | crXor (n : Fin 24) (rd ra rb : Fin 32)
  /-- NOR (R60). -/
  | crNor (n : Fin 24) (rd ra rb : Fin 32)
  /-- SLL (R60). -/
  | crSll (n : Fin 24) (rd ra rb : Fin 32)
  /-- SRL (R60). -/
  | crSrl (n : Fin 24) (rd ra rb : Fin 32)
  /-- SRA (R60). -/
  | crSra (n : Fin 24) (rd ra rb : Fin 32)
  /-- ROR (R60). -/
  | crRor (n : Fin 24) (rd ra rb : Fin 32)
  /-- CLT (R60). -/
  | crClt (n : Fin 24) (rd ra rb : Fin 32)
  /-- CLTU (R60). -/
  | crCltu (n : Fin 24) (rd ra rb : Fin 32)
  /-- MIN (R60). -/
  | crMin (n : Fin 24) (rd ra rb : Fin 32)
  /-- MAX (R60). -/
  | crMax (n : Fin 24) (rd ra rb : Fin 32)
  /-- MINU (R60). -/
  | crMinu (n : Fin 24) (rd ra rb : Fin 32)
  /-- MAXU (R60). -/
  | crMaxu (n : Fin 24) (rd ra rb : Fin 32)
  /-- CLZ (R60). -/
  | crClz (n : Fin 24) (rd ra : Fin 32)
  /-- POPC (R60). -/
  | crPopc (n : Fin 24) (rd ra : Fin 32)
  /-- MUL (R60). -/
  | crMul (n : Fin 24) (rd ra rb : Fin 32)
  /-- MULH (R60). -/
  | crMulh (n : Fin 24) (rd ra rb : Fin 32)
  /-- MULHU (R60). -/
  | crMulhu (n : Fin 24) (rd ra rb : Fin 32)
  /-- DIV (R60). -/
  | crDiv (n : Fin 24) (rd ra rb : Fin 32)
  /-- DIVU (R60). -/
  | crDivu (n : Fin 24) (rd ra rb : Fin 32)
  /-- REM (R60). -/
  | crRem (n : Fin 24) (rd ra rb : Fin 32)
  /-- REMU (R60). -/
  | crRemu (n : Fin 24) (rd ra rb : Fin 32)
  /-- ADDI (R61). -/
  | crAddi (n : Fin 24) (rd ra : Fin 32) (imm : BitVec 16)
  /-- ANDI (R61). -/
  | crAndi (n : Fin 24) (rd ra : Fin 32) (imm : BitVec 16)
  /-- ORI (R61). -/
  | crOri (n : Fin 24) (rd ra : Fin 32) (imm : BitVec 16)
  /-- XORI (R61). -/
  | crXori (n : Fin 24) (rd ra : Fin 32) (imm : BitVec 16)
  /-- CLTI (R61). -/
  | crClti (n : Fin 24) (rd ra : Fin 32) (imm : BitVec 16)
  /-- CLTIU (R61). -/
  | crCltiu (n : Fin 24) (rd ra : Fin 32) (imm : BitVec 16)
  /-- SHI (R61). -/
  | crShi (n : Fin 24) (rd ra : Fin 32) (imm : BitVec 16)
  /-- LIH (R61). -/
  | crLih (n : Fin 24) (rd : Fin 32) (imm : BitVec 16)
  /-- LDW (R62). -/
  | crLdw (n : Fin 24) (rd ra : Fin 32) (imm : BitVec 16)
  /-- LDH (R62). -/
  | crLdh (n : Fin 24) (rd ra : Fin 32) (imm : BitVec 16)
  /-- LDHU (R62). -/
  | crLdhu (n : Fin 24) (rd ra : Fin 32) (imm : BitVec 16)
  /-- LDB (R62). -/
  | crLdb (n : Fin 24) (rd ra : Fin 32) (imm : BitVec 16)
  /-- LDBU (R62). -/
  | crLdbu (n : Fin 24) (rd ra : Fin 32) (imm : BitVec 16)
  /-- LDD (R62). -/
  | crLdd (n : Fin 24) (rd ra : Fin 32) (imm : BitVec 16)
  /-- STW (R62). -/
  | crStw (n : Fin 24) (rs ra : Fin 32) (imm : BitVec 16)
  /-- STH (R62). -/
  | crSth (n : Fin 24) (rs ra : Fin 32) (imm : BitVec 16)
  /-- STB (R62). -/
  | crStb (n : Fin 24) (rs ra : Fin 32) (imm : BitVec 16)
  /-- STD (R62). -/
  | crStd (n : Fin 24) (rs ra : Fin 32) (imm : BitVec 16)
  /-- POSTED_STORE_FAIL (R231). -/
  | postedStoreFail (n : Fin 24) (addr : BitVec 40)
  /-- SWAP (R62). -/
  | crSwap (n : Fin 24) (rd ra rb : Fin 32)
  /-- LDADD (R62). -/
  | crLdadd (n : Fin 24) (rd ra rb : Fin 32)
  /-- CAS (R62). -/
  | crCas (n : Fin 24) (rd ra rb : Fin 32)
  /-- BEQ (R63). -/
  | crBeq (n : Fin 24) (ra rb : Fin 32) (off : BitVec 16)
  /-- BNE (R63). -/
  | crBne (n : Fin 24) (ra rb : Fin 32) (off : BitVec 16)
  /-- BLT (R63). -/
  | crBlt (n : Fin 24) (ra rb : Fin 32) (off : BitVec 16)
  /-- BGE (R63). -/
  | crBge (n : Fin 24) (ra rb : Fin 32) (off : BitVec 16)
  /-- BLTU (R63). -/
  | crBltu (n : Fin 24) (ra rb : Fin 32) (off : BitVec 16)
  /-- BGEU (R63). -/
  | crBgeu (n : Fin 24) (ra rb : Fin 32) (off : BitVec 16)
  /-- JMP (R63). -/
  | crJmp (n : Fin 24) (off : BitVec 16)
  /-- CALL (R63). -/
  | crCall (n : Fin 24) (rd : Fin 32) (off : BitVec 16)
  /-- CALLR (R63). -/
  | crCallr (n : Fin 24) (rd ra : Fin 32) (imm : BitVec 16)
  /-- RDC (R64). -/
  | crRdc (n : Fin 24) (rd : Fin 32) (sh : BitVec 5)
  /-- WRC (R64). -/
  | crWrc (n : Fin 24) (ra : Fin 32) (sh : BitVec 5)
  /-- TRAP (R64). -/
  | crTrap (n : Fin 24) (sh : BitVec 5)
  /-- RTE (R64). -/
  | crRte (n : Fin 24)
  /-- FENCE (R65). -/
  | crFence (n : Fin 24)
  /-- CWB (R64). -/
  | crCwb (n : Fin 24) (ra : Fin 32)
  /-- CINV (R64). -/
  | crCinv (n : Fin 24) (ra : Fin 32)
  /-- CWBI (R64). -/
  | crCwbi (n : Fin 24) (ra : Fin 32)
  /-- CWBALL (R64). -/
  | crCwball (n : Fin 24)
  /-- RDTIME (R67). -/
  | crRdtime (n : Fin 24) (rd : Fin 32)
  /-- TADD (R67). -/
  | crTadd (n : Fin 24) (rd ra rb : Fin 32)
  /-- TSUB (R67). -/
  | crTsub (n : Fin 24) (rd ra rb : Fin 32)
  /-- TLT (R67). -/
  | crTlt (n : Fin 24) (rd ra rb : Fin 32)
  /-- AT (R68). -/
  | crAt (n : Fin 24) (ra : Fin 32)
  /-- AT_RELEASE (R68). -/
  | atRelease (n : Fin 24)
  /-- WAIT (R70). -/
  | crWait (n : Fin 24) (rd ra : Fin 32)
  /-- WAIT_WAKE (R70). -/
  | waitWake (n : Fin 24)
  /-- WAIT_DEADLINE (R70). -/
  | waitDeadline (n : Fin 24)
  /-- SIGNAL (R101). -/
  | crSignal (n : Fin 24) (rd ra rb : Fin 32)
  /-- EVSET (R67). -/
  | crEvset (n : Fin 24) (ra : Fin 32)
  /-- EVCLR (R67). -/
  | crEvclr (n : Fin 24) (ra : Fin 32)
  /-- OPEN (R91). -/
  | crOpen (n : Fin 24) (rd ra rb : Fin 32)
  /-- CLOSE (R89). -/
  | crClose (n : Fin 24) (rd ra : Fin 32)
  /-- QUERY (R93). -/
  | crQuery (n : Fin 24) (rd ra rb : Fin 32)
  /-- RPUSH (R74). -/
  | crRpush (n : Fin 24) (rd ra rb : Fin 32)
  /-- RPOP (R74). -/
  | crRpop (n : Fin 24) (rd ra rb : Fin 32)
  /-- MAC (R76). -/
  | crMac (n : Fin 24) (a : Fin 2) (ra rb : Fin 32)
  /-- MSU (R76). -/
  | crMsu (n : Fin 24) (a : Fin 2) (ra rb : Fin 32)
  /-- MACL (R76). -/
  | crMacl (n : Fin 24) (a : Fin 2) (ra rb : Fin 32)
  /-- CLRA (R76). -/
  | crClra (n : Fin 24) (a : Fin 2)
  /-- LDA (R76). -/
  | crLda (n : Fin 24) (a : Fin 2) (ra : Fin 32)
  /-- RDA (R76). -/
  | crRda (n : Fin 24) (rd : Fin 32) (a : Fin 2)
  /-- RDAS (R76). -/
  | crRdas (n : Fin 24) (rd : Fin 32) (a : Fin 2)
  /-- QADD (R76). -/
  | crQadd (n : Fin 24) (rd ra rb : Fin 32)
  /-- QSUB (R76). -/
  | crQsub (n : Fin 24) (rd ra rb : Fin 32)
  /-- QMUL (R76). -/
  | crQmul (n : Fin 24) (rd ra rb : Fin 32)
  /-- CLIP (R76). -/
  | crClip (n : Fin 24) (rd ra rb : Fin 32)
  /-- ABSS (R76). -/
  | crAbss (n : Fin 24) (rd ra : Fin 32)
  /-- INTERRUPT (R78). -/
  | interrupt (n : Fin 24)
  /-- CORE_RUN (R81). -/
  | coreRun (n : Fin 24) (v : Word)
  /-- CORE_STOP (R81). -/
  | coreStop (n : Fin 24) (v : Word)
  /-- CORE_SRESET (R81). -/
  | coreSreset (n : Fin 24) (v : Word)
  /-- EVENT_INJECT (R81). -/
  | eventInject (n : Fin 24) (v : Word)
  /-- CRS_LOCK (R81). -/
  | crsLock (n : Fin 24) (v : Word)
  /-- TIMER_EXPIRY (R100). -/
  | timerExpiry (idx : Fin 256)
  /-- RING_PDB (R105). -/
  | ringPdb (i : Fin 64) (v : Word)
  /-- RING_CDB (R105). -/
  | ringCdb (i : Fin 64) (v : Word)
  /-- STALLED_PUSH_RESUME (R106). -/
  | stalledPushResume (i : Fin 64)
  /-- JOB_START (R95). -/
  | jobStart (handle : Word)
  /-- JOB_STOP (R95). -/
  | jobStop (handle : Word)
  /-- PAGE_READY (R97). -/
  | pageReady (handle : Word)
  /-- DRAIN (R111). -/
  | drain (v : Word)
  /-- DRAIN_DONE (R111). -/
  | drainDone
  /-- OBJ_TABLE_ECC (R113). -/
  | objTableEcc (cls : Fin 16) (idx : Fin 1024)
  /-- BD_PULSE (R119). -/
  | bdPulse (st : Fin 4) (falling : Bool) (width : BitVec 32) (interval : BitVec 32) (fine : BitVec 16)
  /-- FLYWHEEL_FACET (R121). -/
  | flywheelFacet (st : Fin 4)
  /-- FLYOFF (R121). -/
  | flyoff (st : Fin 4) (v : Word)
  /-- POLYGON_INDEX (R124). -/
  | polygonIndex (st : Fin 4)
  /-- FACET_SCAN_END (R131). -/
  | facetScanEnd (st : Fin 4)
  /-- EXP_TONE_WRITE (R133). -/
  | expToneWrite (st : Fin 4) (i : Fin 2) (v : Word)
  /-- EXP_PICOT_WRITE (R134). -/
  | expPicotWrite (st : Fin 4) (v : Word)
  /-- EXP_FIRE_WRITE (R136). -/
  | expFireWrite (st : Fin 4) (b : Fin 128) (c : Fin 16) (v : Word)
  /-- FCTL_COMMIT (R137). -/
  | fctlCommit (st : Fin 4) (v : Word)
  /-- FIRE_LOAD_DONE (R137). -/
  | fireLoadDone (st : Fin 4)
  /-- FCTL_CANCEL (R138). -/
  | fctlCancel (st : Fin 4) (v : Word)
  /-- BLOCK_FORMATION (R162). -/
  | blockFormation (st : Fin 4) (block : BitVec 9)
  /-- DUTY_BUCKET_BOUNDARY (R158). -/
  | dutyBucketBoundary (st : Fin 4)
  /-- DUTY_LIMIT_WRITE (R162). -/
  | dutyLimitWrite (st : Fin 4) (off : BitVec 16) (v : Word)
  /-- FRAME_SEND (R172). -/
  | frameSend (st : Fin 4)
  /-- NEED_POINT (R218). -/
  | needPoint (st : Fin 4)
  /-- LACE_WRITE (R148). -/
  | laceWrite (st : Fin 4) (off : BitVec 16) (v : Word)
  /-- LEGALITY_CHECK_DONE (R148). -/
  | legalityCheckDone (st : Fin 4)
  /-- DEAD_MAP_WRITE (R152). -/
  | deadMapWrite (st : Fin 4) (i : Fin 4) (v : Word)
  /-- TEMP_STALE (R163). -/
  | tempStale (st : Fin 4)
  /-- COOL_DOWN_WRITE (R167). -/
  | coolDownWrite (st : Fin 4)
  /-- HOT_TRIP_CLEAR (R167). -/
  | hotTripClear (st : Fin 4) (v : Word)
  /-- THERMAL_LIMIT_WRITE (R163). -/
  | thermalLimitWrite (st : Fin 4) (off : BitVec 16) (v : Word)
  /-- CTL_RETRY (R175). -/
  | ctlRetry (st : Fin 4) (tag : BitVec 8)
  /-- FACET_RPT (R176). -/
  | facetRpt (st : Fin 4) (crc : BitVec 16) (facet : BitVec 8) (ht credits : BitVec 16) (exec : Bool) (pfirst : BitVec 8) (amps : List (BitVec 8))
  /-- NACK (R177). -/
  | nack (st : Fin 4) (crc : BitVec 16) (seq : BitVec 16)
  /-- CTL_ACK (R176). -/
  | ctlAck (st : Fin 4) (crc : BitVec 16) (tag : BitVec 8) (refused : Bool) (data rtt : BitVec 32)
  /-- ALARM (R176). -/
  | alarm (st : Fin 4) (crc : BitVec 16) (code : BitVec 8)
  /-- IDENT (R178). -/
  | ident (st : Fin 4) (crc : BitVec 16) (model : BitVec 16) (rev : BitVec 8) (portB : Bool)
  /-- CREDIT (R176). -/
  | credit (st : Fin 4) (crc : BitVec 16) (k : BitVec 16)
  /-- ELK_ENABLE (R178). -/
  | elkEnable (st : Fin 4) (v : Word)
  /-- ELK_DISABLE (R180). -/
  | elkDisable (st : Fin 4) (v : Word)
  /-- ELK_RETRAIN (R180). -/
  | elkRetrain (st : Fin 4) (v : Word)
  /-- LINK_TRAIN_STEP (R178). -/
  | linkTrainStep (st : Fin 4)
  /-- LINK_TRAIN_TIMEOUT (R178). -/
  | linkTrainTimeout (st : Fin 4)
  /-- LINK_TRAIN_RETRY (R178). -/
  | linkTrainRetry (st : Fin 4)
  /-- BACK_CHANNEL_LOCK_LOSS (R181). -/
  | backChannelLockLoss (st : Fin 4) (ns : BitVec 32)
  /-- ILK_OPEN (R183). -/
  | ilkOpen (st : Fin 4) (chB : Bool) (openNs : BitVec 40)
  /-- ILK_ARMABLE (R183). -/
  | ilkArmable (st : Fin 4)
  /-- ILK_DISCREP (R184). -/
  | ilkDiscrep (st : Fin 4)
  /-- ILK_ARM (R183). -/
  | ilkArm (v : Word)
  /-- ILK_DISARM (R190). -/
  | ilkDisarm (v : Word)
  /-- PBTN_PRESS (R185). -/
  | pbtnPress (low : BitVec 40)
  /-- PBTN_SHORT (R185). -/
  | pbtnShort
  /-- PBTN_LONG (R185). -/
  | pbtnLong
  /-- MRST (R186). -/
  | mrst (low : BitVec 40)
  /-- KEY_CHANGE (R187). -/
  | keyChange (keys : BitVec 8) (held : BitVec 40)
  /-- CNS_PRESENCE_CHANGE (R188). -/
  | cnsPresenceChange (k : Fin 8) (present : Bool) (held : BitVec 40)
  /-- CNS_READ (R188). -/
  | cnsRead (v : Word)
  /-- CNS_READ_DONE (R188). -/
  | cnsReadDone (ack stuck : Bool) (tid : BitVec 64) (data : List Byte) (check : BitVec 16)
  /-- ATR_DECODE (R206). -/
  | atrDecode (e : Fin 8)
  /-- ATR_ENCODE (R207). -/
  | atrEncode (e : Fin 8)
  /-- ATR_SAVE (R202). -/
  | atrSave (e : Fin 8)
  /-- ATR_LOAD (R202). -/
  | atrLoad (e : Fin 8)
  /-- ATR_CLEAR (R201). -/
  | atrClear (e : Fin 8)
  /-- ATR_JOB_COMPLETE (R210). -/
  | atrJobComplete (e : Fin 8)
  /-- CPL_PARKED_PUSH (R211). -/
  | cplParkedPush (e : Fin 8)
  /-- PAGE_BLOCK_DISPATCH (R217). -/
  | pageBlockDispatch
  /-- PAGE_BLOCK_DECODED (R217). -/
  | pageBlockDecoded (e : Fin 8)
  /-- ATR_ONLINE (R223). -/
  | atrOnline (e : Fin 8) (v : Word)
  /-- ATR_OFFLINE (R222). -/
  | atrOffline (e : Fin 8) (v : Word)
  /-- ATR_TEST (R223). -/
  | atrTest (e : Fin 8) (v : Word)
  /-- ATR_TEST_DONE (R223). -/
  | atrTestDone (e : Fin 8) (pass : Bool)
  /-- CE_WINDOW_END (R232). -/
  | ceWindowEnd
  /-- DRAM_TRAINING_DONE (R233). -/
  | dramTrainingDone (failed : BitVec 4)
  /-- DRAM_FILL_DONE (R233). -/
  | dramFillDone
  /-- SCRUB_UNIT (R234). -/
  | scrubUnit
  /-- MEM_INJ_ARM (R246). -/
  | memInjArm (v : Word)
  /-- MEM_LOCK (R246). -/
  | memLock (v : Word)
  /-- DMA_GO (R244). -/
  | dmaGo (ch : Fin 64) (v : Word)
  /-- DMA_DISABLE (R243). -/
  | dmaDisable (ch : Fin 64) (v : Word)
  /-- DMA_DISABLE_DONE (R243). -/
  | dmaDisableDone (ch : Fin 64)
  /-- DMA_DESC_FETCH (R239). -/
  | dmaDescFetch (ch : Fin 64)
  /-- DMA_COPY (R237). -/
  | dmaCopy (ch : Fin 64)
  /-- DMA_FILL (R237). -/
  | dmaFill (ch : Fin 64)
  /-- DMA_COMPARE (R237). -/
  | dmaCompare (ch : Fin 64)
  /-- DMA_DESC_COMPLETE (R239). -/
  | dmaDescComplete (ch : Fin 64)
  /-- TAL_PORT_TRAIN_STEP (R251). -/
  | talPortTrainStep (p : Fin 2) (lanes : BitVec 4)
  /-- TAL_PORT_TRAIN_TIMEOUT (R251). -/
  | talPortTrainTimeout (p : Fin 2)
  /-- TAL_PORT_TRAIN_RETRY (R251). -/
  | talPortTrainRetry (p : Fin 2)
  /-- TAL_LANE_LOCK_LOSS (R252). -/
  | talLaneLockLoss (p : Fin 2) (ns : BitVec 32)
  /-- TAL_RETRAIN (R278). -/
  | talRetrain (p : Fin 2) (v : Word)
  /-- REG_WR (R254). -/
  | regWr (p : PktIn)
  /-- REG_RD (R254). -/
  | regRd (p : PktIn)
  /-- MEM_WR (R254). -/
  | memWr (p : PktIn)
  /-- MEM_RD (R254). -/
  | memRd (p : PktIn)
  /-- DATA (R272). -/
  | dataPkt (p : PktIn)
  /-- CAPS (R251). -/
  | caps (l : LinkId) (p : PktIn) (gen width : BitVec 2) (c : Credits)
  /-- TAL_CREDIT (R257). -/
  | talCredit (l : LinkId) (p : PktIn) (c : Credits)
  /-- ACK (R256). -/
  | ack (l : LinkId) (p : PktIn)
  /-- NAK (R256). -/
  | nak (l : LinkId) (p : PktIn)
  /-- REPLAY_TIMEOUT (R256). -/
  | replayTimeout (l : LinkId)
  /-- TD_PACKET (R259). -/
  | tdPacket (p : PktIn)
  /-- EVT_TX (R261). -/
  | evtTx (v : Word)
  /-- T1_LINE_START (R262). -/
  | t1LineStart (psync : Bool) (got : List (BitVec 16))
  /-- T1_LINE_COMPLETE (R263). -/
  | t1LineComplete (words : List (BitVec 16))
  /-- T1_REL (R263). -/
  | t1Rel (v : Word)
  /-- TAL_LOCK (R278). -/
  | talLock (v : Word)
  /-- VOL_LOAD (R266). -/
  | volLoad (v : Word)
  /-- VOL_UNLOAD (R266). -/
  | volUnload (v : Word)
  /-- STQ_LOCK (R279). -/
  | stqLock (v : Word)
  /-- STQ_FETCH (R271). -/
  | stqFetch
  /-- STQ_WRITE (R272). -/
  | stqWrite (aseq : Word)
  /-- STQ_READ (R269). -/
  | stqRead (aseq : Word)
  /-- FLUSH (R274). -/
  | flush (aseq : Word)
  /-- IDENTIFY (R271). -/
  | identify (aseq : Word)
  /-- COMMAND_BEGIN (R273). -/
  | commandBegin (aseq : Word)
  /-- XFER_TIMEOUT (R272). -/
  | xferTimeout (aseq : Word)
  /-- STQ_READ_DONE (R275). -/
  | stqReadDone (aseq : Word)
  /-- FLUSH_DONE (R274). -/
  | flushDone (aseq : Word) (partnerDone : Bool)
  /-- STAGE (R301). -/
  | stage (d : Fin 8)
  /-- FREAD (R298). -/
  | fread (d : Fin 8)
  /-- FORMAT (R307). -/
  | format (d : Fin 8)
  /-- DISK_REVOLUTION (R296). -/
  | diskRevolution (d : Fin 8) (reads : List SectorRead)
  /-- DSK_APPLY (R289). -/
  | dskApply (d : Fin 8) (v : Word)
  /-- RECOVERY_SWEEP_DONE (R306). -/
  | recoverySweepDone (d : Fin 8) (reads : List SectorRead)
  /-- DSK_RELEASE (R289). -/
  | dskRelease (d : Fin 8) (v : Word)
  /-- SERVO_FRAME (R312). -/
  | servoFrame (d : Fin 8) (fr : ServoFrame)
  /-- SERVO_SAMPLE (R314). -/
  | servoSample (d : Fin 8)
  /-- VCM_WRITE (R315). -/
  | vcmWrite (d : Fin 8) (v : Word)
  /-- VCM_WATCHDOG (R315). -/
  | vcmWatchdog (d : Fin 8)
  /-- SRV_TRK_WRITE (R316). -/
  | srvTrkWrite (d : Fin 8) (v : Word)
  /-- SHOCK_SAMPLE (R317). -/
  | shockSample (h : Fin 4) (a b : Int)
  /-- PARK (R318). -/
  | park (d : Fin 8) (v : Word)
  /-- PARK_COMPLETE (R318). -/
  | parkComplete (d : Fin 8)
  /-- UNPARK (R318). -/
  | unpark (d : Fin 8) (v : Word)
  /-- SEL_LOST_TIMEOUT (R319). -/
  | selLostTimeout (d : Fin 8)
  /-- HDA_PRES_CHANGE (R320). -/
  | hdaPresChange (h : Fin 4) (present : Bool) (held : BitVec 40)
  /-- BEMF_ZERO_CROSS (R323). -/
  | bemfZeroCross (m : Fin 16) (cmp : BitVec 4)
  /-- COMMUTATION (R323). -/
  | commutation (m : Fin 16)
  /-- HALL_CHANGE (R324). -/
  | hallChange (m : Fin 16) (c0 c1 c2 : BitVec 3)
  /-- ALIGN_DONE (R325). -/
  | alignDone (m : Fin 16)
  /-- RAMP_TIMEOUT (R325). -/
  | rampTimeout (m : Fin 16)
  /-- MOTOR_PWM_PERIOD (R326). -/
  | motorPwmPeriod (m : Fin 16)
  /-- LOCKED_ROTOR (R327). -/
  | lockedRotor (m : Fin 16)
  /-- MOTOR_SPEED_ZERO (R328). -/
  | motorSpeedZero (m : Fin 16)
  /-- MOTOR_START (R329). -/
  | motorStart (m : Fin 16) (v : Word)
  /-- MOTOR_STOP (R328). -/
  | motorStop (m : Fin 16) (v : Word)
  /-- MOTOR_BRAKE (R328). -/
  | motorBrake (m : Fin 16) (v : Word)
  /-- MOTOR_CLR (R328). -/
  | motorClr (m : Fin 16) (v : Word)
  /-- SPINDLE_INDEX (R332). -/
  | spindleIndex (h : Fin 4)
  /-- GATE_TURN_ON (R340). -/
  | gateTurnOn (k : Fin 32) (high : Bool) (pins : HbPins)
  /-- GDR_MAN_WRITE (R341). -/
  | gdrManWrite (k : Fin 32) (v : Word)
  /-- GOFF_TIMEOUT (R342). -/
  | goffTimeout (k : Fin 32) (high goff : Bool)
  /-- HSG_LOSS (R343). -/
  | hsgLoss (k : Fin 32) (hsg : BitVec 100)
  /-- DSAT_BLANK_END (R344). -/
  | dsatBlankEnd (k : Fin 32) (high : Bool)
  /-- DESAT_DETECT (R344). -/
  | desatDetect (k : Fin 32) (high : Bool) (dsatN : BitVec 10)
  /-- HARD_SHORT (R345). -/
  | hardShort (k : Fin 32) (hs : List (BitVec 10))
  /-- GDR_CLR (R349). -/
  | gdrClr (k : Fin 32) (v : Word) (pins : HbPins)
  /-- INV_RUN (R350). -/
  | invRun (j : Fin 2) (v : Word)
  /-- INV_PERIOD (R350). -/
  | invPeriod (j : Fin 2)
  /-- AXIS_TICK (R353). -/
  | axisTick (home index stall : BitVec 16)
  /-- STP_LOAD (R357). -/
  | stpLoad (x : Fin 16) (v : Word)
  /-- STP_MOVE (R358). -/
  | stpMove (x : Fin 16) (v : Word)
  /-- STP_STOP (R359). -/
  | stpStop (x : Fin 16) (v : Word)
  /-- STP_RESUME (R359). -/
  | stpResume (x : Fin 16) (v : Word)
  /-- STP_HOME (R362). -/
  | stpHome (x : Fin 16) (v : Word)
  /-- STP_ENERGISE (R360). -/
  | stpEnergise (x : Fin 16) (v : Word)
  /-- STP_RELEASE (R360). -/
  | stpRelease (x : Fin 16) (v : Word)
  /-- STP_CLR (R360). -/
  | stpClr (x : Fin 16) (v : Word)
  /-- ADC_CONVERSION (R368). -/
  | adcConversion (inputs : List Int)
  /-- LOOP_TICK (R371). -/
  | loopTick
  /-- LOOP_START (R377). -/
  | loopStart (v : Word)
  /-- LOOP_STOP (R377). -/
  | loopStop (v : Word)
  /-- TLOAD (R379). -/
  | tload (v : Word)
  /-- LOOP_TABLE_LOADED (R379). -/
  | loopTableLoaded (i : Fin 64)
  /-- LOOP_SP_WRITE (R374). -/
  | loopSpWrite (i : Fin 64) (v : Word)
  /-- ENCODER_TRANSITION (R380). -/
  | encoderTransition (a b : Bool) (held : BitVec 16)
  /-- WEB_ZERO (R398). -/
  | webZero (v : Word)
  /-- CSI_FRAME_START (R385). -/
  | csiFrameStart (c : Fin 4) (hdr : BitVec 32)
  /-- CSI_LINE_START (R386). -/
  | csiLineStart (c : Fin 4) (hdr : BitVec 32)
  /-- CSI_LONG_PACKET (R385). -/
  | csiLongPacket (c : Fin 4) (hdr : BitVec 32) (body : List Byte)
  /-- CSI_FRAME_END (R385). -/
  | csiFrameEnd (c : Fin 4) (hdr : BitVec 32)
  /-- CAMERA_FRAME_TIMEOUT (R387). -/
  | cameraFrameTimeout (c : Fin 4)
  /-- CAM_LOAD (R389). -/
  | camLoad (c : Fin 4) (v : Word)
  /-- CAM_BYPASS (R395). -/
  | camBypass (c : Fin 4) (v : Word)
  /-- VIN_QUALIFIED (R407). -/
  | vinQualified
  /-- SEQ_STEP_QUALIFIED (R404). -/
  | seqStepQualified (mv : BitVec 16) (high : BitVec 40)
  /-- SEQ_STEP_ABORT (R404). -/
  | seqStepAbort (mv : BitVec 16) (high : BitVec 40)
  /-- RAIL_JUDGEMENT (R405). -/
  | railJudgement (r : Fin 16) (mv : BitVec 16) (good : Bool)
  /-- VIN_JUDGEMENT (R406). -/
  | vinJudgement (mv : BitVec 16)
  /-- BOOT_IMAGE_CHECK (R409). -/
  | bootImageCheck (answered flashOk : Bool) (image : List Byte)
  /-- BOOT_GO (R410). -/
  | bootGo (fromTalosh : Bool) (v : Word)
  /-- PWR_CMD_DRYDOWN (R412). -/
  | pwrCmdDrydown (v : Word)
  /-- DRYDOWN_PARK_DONE (R412). -/
  | drydownParkDone
  /-- DRYDOWN_RAIL_OFF (R412). -/
  | drydownRailOff (good : Bool)
  /-- DRYDOWN_END (R412). -/
  | drydownEnd
  /-- HOLDOFF_END (R413). -/
  | holdoffEnd
  /-- THERMAL_ROUND (R415). -/
  | thermalRound (raw : List (Option Int)) (bus : List I2cReply)
  /-- TSD_ACK (R421). -/
  | tsdAck (fromTalosh : Bool) (v : Word)
  /-- CLK_APPLY (R426). -/
  | clkApply (i : Fin 16) (v : Word)
  /-- CLK_LOCK_ACQUIRED (R426). -/
  | clkLockAcquired (i : Fin 16)
  /-- CLK_LOSS_OF_LOCK (R428). -/
  | clkLossOfLock (i : Fin 16) (err : Int) (held : BitVec 32)
  /-- CLK_OUTPUT_RESTART (R428). -/
  | clkOutputRestart (i : Fin 16)
  /-- REFCLK_LOSS (R429). -/
  | refclkLoss (quiet : BitVec 16) (cycles : BitVec 24)
  /-- REF_SWITCH (R429). -/
  | refSwitch
  /-- REFCLK_RESTORE (R429). -/
  | refclkRestore (valid : BitVec 40)
  /-- HOLDOVER_TIMEOUT (R429). -/
  | holdoverTimeout
  /-- CLK_LOCK_WRITE (R432). -/
  | clkLockWrite (i : Fin 16) (v : Word)
  /-- INCIDENT_ESCALATION (R438). -/
  | incidentEscalation
  /-- INC_CLR (R438). -/
  | incClr (v : Word)
  /-- HEALTHY_SET (R442). -/
  | healthySet (v : Word)
  /-- FLT_KICK (R444). -/
  | fltKick (v : Word)
  /-- FLT_WATCHDOG_EXPIRY (R444). -/
  | fltWatchdogExpiry
  /-- ALIVE_TOGGLE (R443). -/
  | aliveToggle
  /-- ACD_ENABLE (R445). -/
  | acdEnable (v : Word)
  /-- ACCORD_TRAIN_STEP (R445). -/
  | accordTrainStep
  /-- HELLO (R447). -/
  | hello (p : PktIn)
  /-- TIME (R447). -/
  | timePkt (p : PktIn)
  /-- HOST (R448). -/
  | hostPkt (p : PktIn)
  /-- ACD_STAGE (R448). -/
  | acdStage (p : PktIn)
  /-- PAGEQ (R449). -/
  | pageq (p : PktIn)
  /-- PAGEA (R449). -/
  | pagea (p : PktIn)
  /-- GRANT (R449). -/
  | grant (p : PktIn)
  /-- STATE (R449). -/
  | statePkt (p : PktIn)
  /-- STATE_TIMER (R449). -/
  | stateTimer
  /-- MREAD (R457). -/
  | mread (p : PktIn)
  /-- MDATA (R457). -/
  | mdata (p : PktIn)
  /-- TKO (R452). -/
  | tko (p : PktIn)
  /-- FWMSG (R450). -/
  | fwmsg (p : PktIn)
  /-- ACCORD_LINK_LOST (R455). -/
  | accordLinkLost (down : BitVec 40)
  /-- OWN_IN_LOW (R451). -/
  | ownInLow (low : BitVec 40)
  /-- TOKEN_POWERUP_TAKE (R451). -/
  | tokenPowerupTake (low : BitVec 40)
  /-- TOKEN_CONFLICT (R451). -/
  | tokenConflict (both : BitVec 40)
  /-- TOKEN_BACKOFF_END (R451). -/
  | tokenBackoffEnd (low : BitVec 40)
  /-- HANDOVER (R456). -/
  | handover (v : Word)
  /-- CORE_TEST (R459). -/
  | coreTest (v : Word)
  /-- CORE_TEST_DONE (R459). -/
  | coreTestDone (pass : Bool)
  /-- DCSVC_WRITE (R460). -/
  | dcsvcWrite (v : Word)
  /-- SILLAGE_COMMIT (R463). -/
  | sillageCommit
  /-- NVM_APP_CMD (R466). -/
  | nvmAppCmd (v : Word)
  /-- JTAG_BYPASS (R485). -/
  | jtagBypass
  /-- JTAG_IDCODE (R485). -/
  | jtagIdcode
  /-- JTAG_SAMPLE_PRELOAD (R485). -/
  | jtagSamplePreload (bits : List Bool)
  /-- JTAG_EXTEST (R486). -/
  | jtagExtest (bits : List Bool)
  /-- JTAG_CLAMP (R486). -/
  | jtagClamp
  /-- JTAG_HIGHZ (R486). -/
  | jtagHighz
  /-- JTAG_EXTEST_PULSE (R486). -/
  | jtagExtestPulse (bits : List Bool)
  /-- JTAG_EXTEST_TRAIN (R486). -/
  | jtagExtestTrain (bits : List Bool)
  /-- INTERLOCK_CLOSE (R183). -/
  | interlockClose (st : Fin 4) (chB : Bool)
  /-- SEQUENCE_BOUNCE (R404). -/
  | sequenceBounce (low : BitVec 40)
  /-- ACCORD_TRAIN_TIMEOUT (R445). -/
  | accordTrainTimeout
  /-- ACCORD_TRAIN_RETRY (R445). -/
  | accordTrainRetry
  /-- RAMP_FORCED_STEP (R325). -/
  | rampForcedStep (m : Fin 16)
  /-- LPWM_PERIOD (R369). -/
  | lpwmPeriod (k : Fin 8)
  deriving DecidableEq, Repr

end Sys2Proof
end

