-- ==== Sys2Proof/Decode.lean ====
section
/-!
DEFINITION. The reading of a command from bits. The table of operations and events gives no row any bits, so no word
spells a command of the block. The words that the device itself reads are those of a core's instruction RAM: their
layouts (R58), their opcodes (R59 to R64, R67, R73, R76) and the encoder beside the decoder.
-/
namespace Sys2Proof

/-- The command a word of `nbits` bits spells by the table's bits: none, since the table gives no row bits. -/
def decodeTableWord (_nbits _w : Nat) : Option Instr := none

/-! ### The words of the cores' instructions -/

/-- A word of layout R (R58). -/
def wordR (op fn sh rb ra rd : Nat) : Word :=
  BitVec.ofNat 32 (op * 2 ^ 26 + fn * 2 ^ 20 + sh * 2 ^ 15 + rb * 2 ^ 10 + ra * 2 ^ 5 + rd)

/-- A word of layout I, or of layout B with rb in its low field (R58). -/
def wordI (op : Nat) (imm : BitVec 16) (ra rd : Nat) : Word :=
  BitVec.ofNat 32 (op * 2 ^ 26 + imm.toNat * 2 ^ 10 + ra * 2 ^ 5 + rd)

/-- The word of a core's instruction: a field it does not use is 0 (R58). No other command has a word. -/
def encodeCore (i : Instr) : Option Word :=
  match i with
  | .crAdd _ rd ra rb => some (wordR 2 0 0 rb.val ra.val rd.val)
  | .crSub _ rd ra rb => some (wordR 2 1 0 rb.val ra.val rd.val)
  | .crAdc _ rd ra rb => some (wordR 2 2 0 rb.val ra.val rd.val)
  | .crSbc _ rd ra rb => some (wordR 2 3 0 rb.val ra.val rd.val)
  | .crAnd _ rd ra rb => some (wordR 2 4 0 rb.val ra.val rd.val)
  | .crOr _ rd ra rb => some (wordR 2 5 0 rb.val ra.val rd.val)
  | .crXor _ rd ra rb => some (wordR 2 6 0 rb.val ra.val rd.val)
  | .crNor _ rd ra rb => some (wordR 2 7 0 rb.val ra.val rd.val)
  | .crSll _ rd ra rb => some (wordR 2 8 0 rb.val ra.val rd.val)
  | .crSrl _ rd ra rb => some (wordR 2 9 0 rb.val ra.val rd.val)
  | .crSra _ rd ra rb => some (wordR 2 10 0 rb.val ra.val rd.val)
  | .crRor _ rd ra rb => some (wordR 2 11 0 rb.val ra.val rd.val)
  | .crClt _ rd ra rb => some (wordR 2 12 0 rb.val ra.val rd.val)
  | .crCltu _ rd ra rb => some (wordR 2 13 0 rb.val ra.val rd.val)
  | .crMin _ rd ra rb => some (wordR 2 14 0 rb.val ra.val rd.val)
  | .crMax _ rd ra rb => some (wordR 2 15 0 rb.val ra.val rd.val)
  | .crMinu _ rd ra rb => some (wordR 2 16 0 rb.val ra.val rd.val)
  | .crMaxu _ rd ra rb => some (wordR 2 17 0 rb.val ra.val rd.val)
  | .crClz _ rd ra => some (wordR 2 18 0 0 ra.val rd.val)
  | .crPopc _ rd ra => some (wordR 2 19 0 0 ra.val rd.val)
  | .crMul _ rd ra rb => some (wordR 2 24 0 rb.val ra.val rd.val)
  | .crMulh _ rd ra rb => some (wordR 2 25 0 rb.val ra.val rd.val)
  | .crMulhu _ rd ra rb => some (wordR 2 26 0 rb.val ra.val rd.val)
  | .crDiv _ rd ra rb => some (wordR 2 28 0 rb.val ra.val rd.val)
  | .crDivu _ rd ra rb => some (wordR 2 29 0 rb.val ra.val rd.val)
  | .crRem _ rd ra rb => some (wordR 2 30 0 rb.val ra.val rd.val)
  | .crRemu _ rd ra rb => some (wordR 2 31 0 rb.val ra.val rd.val)
  | .crRdc _ rd sh => some (wordR 3 0 sh.toNat 0 0 rd.val)
  | .crWrc _ ra sh => some (wordR 3 1 sh.toNat 0 ra.val 0)
  | .crTrap _ sh => some (wordR 3 2 sh.toNat 0 0 0)
  | .crRte _ => some (wordR 3 3 0 0 0 0)
  | .crFence _ => some (wordR 3 4 0 0 0 0)
  | .crCwb _ ra => some (wordR 3 5 0 0 ra.val 0)
  | .crCinv _ ra => some (wordR 3 6 0 0 ra.val 0)
  | .crCwbi _ ra => some (wordR 3 7 0 0 ra.val 0)
  | .crCwball _ => some (wordR 3 8 0 0 0 0)
  | .crRdtime _ rd => some (wordR 4 0 0 0 0 rd.val)
  | .crTadd _ rd ra rb => some (wordR 4 1 0 rb.val ra.val rd.val)
  | .crTsub _ rd ra rb => some (wordR 4 2 0 rb.val ra.val rd.val)
  | .crTlt _ rd ra rb => some (wordR 4 3 0 rb.val ra.val rd.val)
  | .crAt _ ra => some (wordR 4 8 0 0 ra.val 0)
  | .crWait _ rd ra => some (wordR 4 9 0 0 ra.val rd.val)
  | .crSignal _ rd ra rb => some (wordR 4 10 0 rb.val ra.val rd.val)
  | .crEvset _ ra => some (wordR 4 11 0 0 ra.val 0)
  | .crEvclr _ ra => some (wordR 4 12 0 0 ra.val 0)
  | .crOpen _ rd ra rb => some (wordR 5 0 0 rb.val ra.val rd.val)
  | .crClose _ rd ra => some (wordR 5 1 0 0 ra.val rd.val)
  | .crQuery _ rd ra rb => some (wordR 5 2 0 rb.val ra.val rd.val)
  | .crRpush _ rd ra rb => some (wordR 5 3 0 rb.val ra.val rd.val)
  | .crRpop _ rd ra rb => some (wordR 5 4 0 rb.val ra.val rd.val)
  | .crSwap _ rd ra rb => some (wordR 6 0 0 rb.val ra.val rd.val)
  | .crLdadd _ rd ra rb => some (wordR 6 1 0 rb.val ra.val rd.val)
  | .crCas _ rd ra rb => some (wordR 6 2 0 rb.val ra.val rd.val)
  | .crMac _ acc ra rb => some (wordR 7 0 acc.val rb.val ra.val 0)
  | .crMsu _ acc ra rb => some (wordR 7 1 acc.val rb.val ra.val 0)
  | .crMacl _ acc ra rb => some (wordR 7 2 acc.val rb.val ra.val 0)
  | .crClra _ acc => some (wordR 7 4 acc.val 0 0 0)
  | .crLda _ acc ra => some (wordR 7 5 acc.val 0 ra.val 0)
  | .crRda _ rd acc => some (wordR 7 6 acc.val 0 0 rd.val)
  | .crRdas _ rd acc => some (wordR 7 7 acc.val 0 0 rd.val)
  | .crQadd _ rd ra rb => some (wordR 7 8 0 rb.val ra.val rd.val)
  | .crQsub _ rd ra rb => some (wordR 7 9 0 rb.val ra.val rd.val)
  | .crQmul _ rd ra rb => some (wordR 7 10 0 rb.val ra.val rd.val)
  | .crClip _ rd ra rb => some (wordR 7 11 0 rb.val ra.val rd.val)
  | .crAbss _ rd ra => some (wordR 7 12 0 0 ra.val rd.val)
  | .crAddi _ rd ra imm => some (wordI 16 imm ra.val rd.val)
  | .crAndi _ rd ra imm => some (wordI 17 imm ra.val rd.val)
  | .crOri _ rd ra imm => some (wordI 18 imm ra.val rd.val)
  | .crXori _ rd ra imm => some (wordI 19 imm ra.val rd.val)
  | .crClti _ rd ra imm => some (wordI 20 imm ra.val rd.val)
  | .crCltiu _ rd ra imm => some (wordI 21 imm ra.val rd.val)
  | .crShi _ rd ra imm => some (wordI 22 imm ra.val rd.val)
  | .crLih _ rd imm => some (wordI 23 imm 0 rd.val)
  | .crLdw _ rd ra imm => some (wordI 32 imm ra.val rd.val)
  | .crLdh _ rd ra imm => some (wordI 33 imm ra.val rd.val)
  | .crLdhu _ rd ra imm => some (wordI 34 imm ra.val rd.val)
  | .crLdb _ rd ra imm => some (wordI 35 imm ra.val rd.val)
  | .crLdbu _ rd ra imm => some (wordI 36 imm ra.val rd.val)
  | .crLdd _ rd ra imm => some (wordI 37 imm ra.val rd.val)
  | .crStw _ rs ra imm => some (wordI 40 imm ra.val rs.val)
  | .crSth _ rs ra imm => some (wordI 41 imm ra.val rs.val)
  | .crStb _ rs ra imm => some (wordI 42 imm ra.val rs.val)
  | .crStd _ rs ra imm => some (wordI 43 imm ra.val rs.val)
  | .crBeq _ ra rb imm => some (wordI 48 imm ra.val rb.val)
  | .crBne _ ra rb imm => some (wordI 49 imm ra.val rb.val)
  | .crBlt _ ra rb imm => some (wordI 50 imm ra.val rb.val)
  | .crBge _ ra rb imm => some (wordI 51 imm ra.val rb.val)
  | .crBltu _ ra rb imm => some (wordI 52 imm ra.val rb.val)
  | .crBgeu _ ra rb imm => some (wordI 53 imm ra.val rb.val)
  | .crJmp _ imm => some (wordI 56 imm 0 0)
  | .crCall _ rd imm => some (wordI 57 imm 0 rd.val)
  | .crCallr _ rd ra imm => some (wordI 58 imm ra.val rd.val)
  | _ => none

/-- A register field of a word (R58). -/
def field (w : Word) (lo : Nat) : Fin 32 := Fin.ofNat 32 (w.toNat / 2 ^ lo)

/-- The instruction of core `n` that the op and fn of a word name (R59), its fields read where its layout has them. An op
or fn value not listed names none. -/
def coreOp (n : Fin 24) (w : Word) : Option Instr :=
  match w.toNat / 2 ^ 26 % 64, w.toNat / 2 ^ 20 % 64 with
  | 2, 0 => some (.crAdd n (field w 0) (field w 5) (field w 10))
  | 2, 1 => some (.crSub n (field w 0) (field w 5) (field w 10))
  | 2, 2 => some (.crAdc n (field w 0) (field w 5) (field w 10))
  | 2, 3 => some (.crSbc n (field w 0) (field w 5) (field w 10))
  | 2, 4 => some (.crAnd n (field w 0) (field w 5) (field w 10))
  | 2, 5 => some (.crOr n (field w 0) (field w 5) (field w 10))
  | 2, 6 => some (.crXor n (field w 0) (field w 5) (field w 10))
  | 2, 7 => some (.crNor n (field w 0) (field w 5) (field w 10))
  | 2, 8 => some (.crSll n (field w 0) (field w 5) (field w 10))
  | 2, 9 => some (.crSrl n (field w 0) (field w 5) (field w 10))
  | 2, 10 => some (.crSra n (field w 0) (field w 5) (field w 10))
  | 2, 11 => some (.crRor n (field w 0) (field w 5) (field w 10))
  | 2, 12 => some (.crClt n (field w 0) (field w 5) (field w 10))
  | 2, 13 => some (.crCltu n (field w 0) (field w 5) (field w 10))
  | 2, 14 => some (.crMin n (field w 0) (field w 5) (field w 10))
  | 2, 15 => some (.crMax n (field w 0) (field w 5) (field w 10))
  | 2, 16 => some (.crMinu n (field w 0) (field w 5) (field w 10))
  | 2, 17 => some (.crMaxu n (field w 0) (field w 5) (field w 10))
  | 2, 18 => some (.crClz n (field w 0) (field w 5))
  | 2, 19 => some (.crPopc n (field w 0) (field w 5))
  | 2, 24 => some (.crMul n (field w 0) (field w 5) (field w 10))
  | 2, 25 => some (.crMulh n (field w 0) (field w 5) (field w 10))
  | 2, 26 => some (.crMulhu n (field w 0) (field w 5) (field w 10))
  | 2, 28 => some (.crDiv n (field w 0) (field w 5) (field w 10))
  | 2, 29 => some (.crDivu n (field w 0) (field w 5) (field w 10))
  | 2, 30 => some (.crRem n (field w 0) (field w 5) (field w 10))
  | 2, 31 => some (.crRemu n (field w 0) (field w 5) (field w 10))
  | 3, 0 => some (.crRdc n (field w 0) (BitVec.ofNat 5 (w.toNat / 2 ^ 15)))
  | 3, 1 => some (.crWrc n (field w 5) (BitVec.ofNat 5 (w.toNat / 2 ^ 15)))
  | 3, 2 => some (.crTrap n (BitVec.ofNat 5 (w.toNat / 2 ^ 15)))
  | 3, 3 => some (.crRte n)
  | 3, 4 => some (.crFence n)
  | 3, 5 => some (.crCwb n (field w 5))
  | 3, 6 => some (.crCinv n (field w 5))
  | 3, 7 => some (.crCwbi n (field w 5))
  | 3, 8 => some (.crCwball n)
  | 4, 0 => some (.crRdtime n (field w 0))
  | 4, 1 => some (.crTadd n (field w 0) (field w 5) (field w 10))
  | 4, 2 => some (.crTsub n (field w 0) (field w 5) (field w 10))
  | 4, 3 => some (.crTlt n (field w 0) (field w 5) (field w 10))
  | 4, 8 => some (.crAt n (field w 5))
  | 4, 9 => some (.crWait n (field w 0) (field w 5))
  | 4, 10 => some (.crSignal n (field w 0) (field w 5) (field w 10))
  | 4, 11 => some (.crEvset n (field w 5))
  | 4, 12 => some (.crEvclr n (field w 5))
  | 5, 0 => some (.crOpen n (field w 0) (field w 5) (field w 10))
  | 5, 1 => some (.crClose n (field w 0) (field w 5))
  | 5, 2 => some (.crQuery n (field w 0) (field w 5) (field w 10))
  | 5, 3 => some (.crRpush n (field w 0) (field w 5) (field w 10))
  | 5, 4 => some (.crRpop n (field w 0) (field w 5) (field w 10))
  | 6, 0 => some (.crSwap n (field w 0) (field w 5) (field w 10))
  | 6, 1 => some (.crLdadd n (field w 0) (field w 5) (field w 10))
  | 6, 2 => some (.crCas n (field w 0) (field w 5) (field w 10))
  | 7, 0 => some (.crMac n (Fin.ofNat 2 (w.toNat / 2 ^ 15)) (field w 5) (field w 10))
  | 7, 1 => some (.crMsu n (Fin.ofNat 2 (w.toNat / 2 ^ 15)) (field w 5) (field w 10))
  | 7, 2 => some (.crMacl n (Fin.ofNat 2 (w.toNat / 2 ^ 15)) (field w 5) (field w 10))
  | 7, 4 => some (.crClra n (Fin.ofNat 2 (w.toNat / 2 ^ 15)))
  | 7, 5 => some (.crLda n (Fin.ofNat 2 (w.toNat / 2 ^ 15)) (field w 5))
  | 7, 6 => some (.crRda n (field w 0) (Fin.ofNat 2 (w.toNat / 2 ^ 15)))
  | 7, 7 => some (.crRdas n (field w 0) (Fin.ofNat 2 (w.toNat / 2 ^ 15)))
  | 7, 8 => some (.crQadd n (field w 0) (field w 5) (field w 10))
  | 7, 9 => some (.crQsub n (field w 0) (field w 5) (field w 10))
  | 7, 10 => some (.crQmul n (field w 0) (field w 5) (field w 10))
  | 7, 11 => some (.crClip n (field w 0) (field w 5) (field w 10))
  | 7, 12 => some (.crAbss n (field w 0) (field w 5))
  | 16, _ => some (.crAddi n (field w 0) (field w 5) (BitVec.ofNat 16 (w.toNat / 2 ^ 10)))
  | 17, _ => some (.crAndi n (field w 0) (field w 5) (BitVec.ofNat 16 (w.toNat / 2 ^ 10)))
  | 18, _ => some (.crOri n (field w 0) (field w 5) (BitVec.ofNat 16 (w.toNat / 2 ^ 10)))
  | 19, _ => some (.crXori n (field w 0) (field w 5) (BitVec.ofNat 16 (w.toNat / 2 ^ 10)))
  | 20, _ => some (.crClti n (field w 0) (field w 5) (BitVec.ofNat 16 (w.toNat / 2 ^ 10)))
  | 21, _ => some (.crCltiu n (field w 0) (field w 5) (BitVec.ofNat 16 (w.toNat / 2 ^ 10)))
  | 22, _ => some (.crShi n (field w 0) (field w 5) (BitVec.ofNat 16 (w.toNat / 2 ^ 10)))
  | 23, _ => some (.crLih n (field w 0) (BitVec.ofNat 16 (w.toNat / 2 ^ 10)))
  | 32, _ => some (.crLdw n (field w 0) (field w 5) (BitVec.ofNat 16 (w.toNat / 2 ^ 10)))
  | 33, _ => some (.crLdh n (field w 0) (field w 5) (BitVec.ofNat 16 (w.toNat / 2 ^ 10)))
  | 34, _ => some (.crLdhu n (field w 0) (field w 5) (BitVec.ofNat 16 (w.toNat / 2 ^ 10)))
  | 35, _ => some (.crLdb n (field w 0) (field w 5) (BitVec.ofNat 16 (w.toNat / 2 ^ 10)))
  | 36, _ => some (.crLdbu n (field w 0) (field w 5) (BitVec.ofNat 16 (w.toNat / 2 ^ 10)))
  | 37, _ => some (.crLdd n (field w 0) (field w 5) (BitVec.ofNat 16 (w.toNat / 2 ^ 10)))
  | 40, _ => some (.crStw n (field w 0) (field w 5) (BitVec.ofNat 16 (w.toNat / 2 ^ 10)))
  | 41, _ => some (.crSth n (field w 0) (field w 5) (BitVec.ofNat 16 (w.toNat / 2 ^ 10)))
  | 42, _ => some (.crStb n (field w 0) (field w 5) (BitVec.ofNat 16 (w.toNat / 2 ^ 10)))
  | 43, _ => some (.crStd n (field w 0) (field w 5) (BitVec.ofNat 16 (w.toNat / 2 ^ 10)))
  | 48, _ => some (.crBeq n (field w 5) (field w 0) (BitVec.ofNat 16 (w.toNat / 2 ^ 10)))
  | 49, _ => some (.crBne n (field w 5) (field w 0) (BitVec.ofNat 16 (w.toNat / 2 ^ 10)))
  | 50, _ => some (.crBlt n (field w 5) (field w 0) (BitVec.ofNat 16 (w.toNat / 2 ^ 10)))
  | 51, _ => some (.crBge n (field w 5) (field w 0) (BitVec.ofNat 16 (w.toNat / 2 ^ 10)))
  | 52, _ => some (.crBltu n (field w 5) (field w 0) (BitVec.ofNat 16 (w.toNat / 2 ^ 10)))
  | 53, _ => some (.crBgeu n (field w 5) (field w 0) (BitVec.ofNat 16 (w.toNat / 2 ^ 10)))
  | 56, _ => some (.crJmp n (BitVec.ofNat 16 (w.toNat / 2 ^ 10)))
  | 57, _ => some (.crCall n (field w 0) (BitVec.ofNat 16 (w.toNat / 2 ^ 10)))
  | 58, _ => some (.crCallr n (field w 0) (field w 5) (BitVec.ofNat 16 (w.toNat / 2 ^ 10)))
  | _, _ => none

/-- What a word in the instruction RAM of core `n` spells (R58, R59): the instruction of its op and fn, if the fields that
instruction does not use are 0. Any other word is ILLEGAL. -/
def decodeCore (n : Fin 24) (w : Word) : Option Instr :=
  match coreOp n w with
  | some i => if encodeCore i = some w then some i else none
  | none => none

end Sys2Proof
end

