-- ==== Sys2Proof/Config.lean ====
section
/-!
DEFINITION. Values the spec leaves open. Each is a constant without a body, so that nothing in Lean can see what it
is: a statement that mentions one holds for every value. The step applies `freeWord` to `State.freeCtr`, which it then
advances, so that each use is a fresh value; the others are applied to what they may depend on.
-/
namespace Sys2Proof.Config

/-- A fresh open value: DONE, CUR and MISM of a disabled DMA channel (R243), the back-off factor of R451, a captured
phase error (R432). -/
opaque freeWord : Nat → Word

/-- The way of a data-cache set that a miss replaces (R56 names no policy), by core and set. -/
opaque cacheVictim : Nat → Nat → Nat → Nat

/-- The tokens the encoder chooses (R207 leaves the choice open), as the nibbles of a token stream, by LINE_PX, the
window and the chunk's pixels. -/
opaque encoderTokens : Nat → List Nat → List Nat → List Nat

/-- The line index at which a page block begins when the length of an earlier block of its station is not known, because
that block is still on disk (R22 asks for it and states no value), by page handle and entry. -/
opaque firstLine : Nat → Nat → Nat

/-- Contents of output bytes that a failed job leaves undefined (R209), by use and byte. -/
opaque freeByte : Nat → Nat → Byte

/-- Temperature coefficients from calibration (R432), by synthesizer. -/
opaque clkTc : Nat → Word

/-- What the code makes of a word with four or more inverted bits (R228: uncorrectable, corrected wrongly or not
detected, by the pattern alone), or a local-RAM word with three or more (R57), by the pattern of inverted bits: its
remainder by 3 names the outcome, and the rest the data bits that a wrong correction leaves inverted. -/
opaque eccOutcome : Nat → Nat

/-- Bits of an idle control block of a packet link (0), and those that fill the last block of a packet (1): R250 and R445
give neither. -/
opaque linkFill : Nat → Nat

/-- The 16 check bits stored, inverted, with a data word (R228 gives no code table), by the data. -/
opaque eccCheck : Nat → Nat

/-- A mean that a camera's outputs state (R391, R393): the direction of its rounding, and the mean of no values, by
sum and count. -/
opaque meanOpen : Nat → Nat → Nat

/-- The deviation of a logarithmic density within its accuracy of ±1 (R388), by the linear value. -/
opaque densityError : Nat → Nat

/-- STATE of a query block for a class whose chapter gives no state codes (R93), by class. -/
opaque stateCode : Nat → Nat

end Sys2Proof.Config
end

