-- ==== Sys2Proof/Machine/Bits.lean ====
section
/-!
DEFINITION. Bit-field, sign and saturation helpers, the sparse tables and the indexed update of a fixed set of units.
-/
namespace Sys2Proof.Machine

/-- Bits `lo` and up of `n`, `w` of them. -/
def bits (n lo w : Nat) : Nat := n / 2 ^ lo % 2 ^ w

/-- Bit `i` of `n`. -/
def bit (n i : Nat) : Bool := n / 2 ^ i % 2 == 1

/-- `n` with its field of `w` bits at `lo` replaced by `v` modulo 2^w. -/
def setBits (n lo w v : Nat) : Nat := n - bits n lo w * 2 ^ lo + v % 2 ^ w * 2 ^ lo

/-- `n` with bit `i` set. -/
def setBit (n i : Nat) : Nat := n ||| 2 ^ i

/-- `n` with bit `i` clear. -/
def clrBit (n i : Nat) : Nat := if bit n i then n - 2 ^ i else n

/-- One bit as a number. -/
def b2n (b : Bool) : Nat := if b then 1 else 0

/-- The two's-complement value of the low `w` bits of `n`. -/
def sx (w n : Nat) : Int :=
  if n % 2 ^ w < 2 ^ (w - 1) then (n % 2 ^ w : Int) else (n % 2 ^ w : Int) - 2 ^ w

/-- The `w`-bit two's-complement pattern of `i`. -/
def ux (w : Nat) (i : Int) : Nat := (i % (2 ^ w : Int)).toNat

/-- `i` limited to `lo`..`hi`. -/
def clampInt (lo hi i : Int) : Int := if i < lo then lo else if hi < i then hi else i

/-- Code of an input of `uv` µV over a range of `full` µV: rounded down, and the end of the range where it lies beyond
(R368, R479). -/
def adcCode (full : Nat) (uv : Int) : Nat := (clampInt 0 65535 (uv * 65536 / full)).toNat

/-- `n` limited to at most `hi`. -/
def capNat (hi n : Nat) : Nat := if hi < n then hi else n

/-- Floor division by 2^k of a signed number (an arithmetic shift right). -/
def asr (i : Int) (k : Nat) : Int := i / (2 ^ k : Int)

/-- Division rounded half away from zero. -/
def divRound (a b : Int) : Int :=
  if b = 0 then 0 else if 0 ≤ a then (2 * a + b) / (2 * b) else -((2 * (-a) + b) / (2 * b))

/-- How many bits of the low `w` of `n` are set. -/
def popc : Nat → Nat → Nat
  | 0, _ => 0
  | w + 1, n => n % 2 + popc w (n / 2)

/-- The numbers below `w` whose bit in `n` is set, rising. -/
def setBitsOf (w n : Nat) : List Nat := (List.range w).filter (fun i => bit n i)

/-- The smallest number below `w` whose bit in `n` is set. -/
def lowestBit (w n : Nat) : Option Nat := (List.range w).find? (fun i => bit n i)

/-- Modulo-2^40 forward distance of line numbers (R45). -/
def lineDist (a b : Nat) : Nat := (b + 2 ^ 40 - a % 2 ^ 40) % 2 ^ 40

/-- `a` is at or before `b`, compared modulo 2^40 as R45 asks. -/
def lineLe (a b : Nat) : Bool := lineDist a b < 2 ^ 39

/-- The entry at key `k` of a sparse table. -/
def Tab.get {α : Type} (t : Tab α) (k : Nat) : Option α :=
  match t with
  | [] => none
  | (j, v) :: r => if j = k then some v else Tab.get r k

/-- The table without key `k`. -/
def Tab.del {α : Type} (t : Tab α) (k : Nat) : Tab α := t.filter (fun e => e.1 != k)

/-- `k` inserted in rising order into a table that does not hold it. -/
def Tab.ins {α : Type} (t : Tab α) (k : Nat) (v : α) : Tab α :=
  match t with
  | [] => [(k, v)]
  | (j, w) :: r => if k < j then (k, v) :: (j, w) :: r else (j, w) :: Tab.ins r k v

/-- The table with `v` at key `k`. -/
def Tab.put {α : Type} (t : Tab α) (k : Nat) (v : α) : Tab α := Tab.ins (Tab.del t k) k v

/-- The table with entry `k` changed by `f`, if it is there. -/
def Tab.upd {α : Type} (t : Tab α) (k : Nat) (f : α → α) : Tab α :=
  t.map (fun e => if e.1 = k then (k, f e.2) else e)

/-- Keys strictly rising: the canonical form of a sparse table. -/
def Tab.rising {α : Type} (t : Tab α) : Bool :=
  match t with
  | [] => true
  | [_] => true
  | (j, _) :: (k, w) :: r => decide (j < k) && Tab.rising ((k, w) :: r)

/-- Unit `i` of a fixed set of units; the default past the end. -/
def vget {α : Type} {n : Nat} [Inhabited α] (v : Vector α n) (i : Nat) : α :=
  if h : i < n then v[i] else default

/-- The set of units with unit `i` changed by `f`; unchanged past the end. -/
def vmod {α : Type} {n : Nat} (v : Vector α n) (i : Nat) (f : α → α) : Vector α n :=
  if h : i < n then v.set i (f v[i]) else v

/-- Item `i` of a list of numbers, 0 past the end. -/
def lget (l : List Nat) (i : Nat) : Nat := l.getD i 0

/-- Little-endian bytes of a number. -/
def leBytes : Nat → Nat → List Byte
  | 0, _ => []
  | k + 1, n => BitVec.ofNat 8 n :: leBytes k (n / 256)

/-- The number whose little-endian bytes are given. -/
def ofLe : List Byte → Nat
  | [] => 0
  | b :: r => b.toNat + 256 * ofLe r

/-- CRC-32C, one bit step of the reflected register (R192). -/
def crcBit (c : Nat) : Nat := if c % 2 = 1 then c / 2 ^^^ 0x82F63B78 else c / 2

/-- CRC-32C, one byte. -/
def crcByte (c : Nat) (b : Byte) : Nat :=
  crcBit (crcBit (crcBit (crcBit (crcBit (crcBit (crcBit (crcBit (c ^^^ b.toNat))))))))

/-- CRC-32C of a byte string (R192). -/
def crc32c (l : List Byte) : Nat := l.foldl crcByte 0xFFFFFFFF ^^^ 0xFFFFFFFF

/-- A number out of the bytes of an entry: `n` bytes at `off`. -/
def entLe (l : List Byte) (off n : Nat) : Nat := ofLe ((l.drop off).take n)

end Sys2Proof.Machine
end

