-- ==== Sys2Proof/Machine/Fields.lean ====
section
/-!
DEFINITION. The names of the registers and of their fields, as the spec's register tables name them (the same tables
as Machine/RegTable.lean). `R.<REGISTER>` is a register-space offset; `F.<REGISTER>_<FIELD>` is a field of it. A
register of a block with several instances takes the instance first, an array the index after it.
-/
namespace Sys2Proof.Machine

/-- A field of a register: the register's register-space offset, the field's lowest bit and its width. -/
structure Fld where
  key : Nat
  lo : Nat
  width : Nat
  deriving DecidableEq, Repr

/-- Register SYS_PRESENCE (R8). -/
def R.SYS_PRESENCE : Nat := 0x10
def F.SYS_PRESENCE_STN : Fld := ⟨R.SYS_PRESENCE, 0, 4⟩
def F.SYS_PRESENCE_HDA : Fld := ⟨R.SYS_PRESENCE, 4, 4⟩
def F.SYS_PRESENCE_DCH : Fld := ⟨R.SYS_PRESENCE, 8, 8⟩
def F.SYS_PRESENCE_CAM : Fld := ⟨R.SYS_PRESENCE, 16, 4⟩
def F.SYS_PRESENCE_ACCORD : Fld := ⟨R.SYS_PRESENCE, 20, 1⟩
def F.SYS_PRESENCE_GRADE : Fld := ⟨R.SYS_PRESENCE, 21, 1⟩
def F.SYS_PRESENCE_PKG : Fld := ⟨R.SYS_PRESENCE, 22, 1⟩
def F.SYS_PRESENCE_VARIANT : Fld := ⟨R.SYS_PRESENCE, 24, 5⟩

/-- Register SYS_PTIME_LO (R43). -/
def R.SYS_PTIME_LO : Nat := 0x40
def F.SYS_PTIME_LO_PTIME : Fld := ⟨R.SYS_PTIME_LO, 0, 32⟩

/-- Register SYS_PTIME_HI (R43). -/
def R.SYS_PTIME_HI : Nat := 0x44
def F.SYS_PTIME_HI_PTIME : Fld := ⟨R.SYS_PTIME_HI, 0, 32⟩

/-- Register SYS_ADMIT_REQ (R43). -/
def R.SYS_ADMIT_REQ : Nat := 0x100
def F.SYS_ADMIT_REQ_HANDLE : Fld := ⟨R.SYS_ADMIT_REQ, 0, 32⟩

/-- Register SYS_ADMIT_STATUS (R43). -/
def R.SYS_ADMIT_STATUS : Nat := 0x104
def F.SYS_ADMIT_STATUS_DEPTH : Fld := ⟨R.SYS_ADMIT_STATUS, 0, 5⟩
def F.SYS_ADMIT_STATUS_FULLSEEN : Fld := ⟨R.SYS_ADMIT_STATUS, 5, 1⟩
def F.SYS_ADMIT_STATUS_WD_LATE : Fld := ⟨R.SYS_ADMIT_STATUS, 6, 1⟩

/-- Register SYS_WITHDRAW (R43). -/
def R.SYS_WITHDRAW : Nat := 0x108
def F.SYS_WITHDRAW_HANDLE : Fld := ⟨R.SYS_WITHDRAW, 0, 32⟩

/-- Register SYS_SPOIL (R43). -/
def R.SYS_SPOIL : Nat := 0x10c
def F.SYS_SPOIL_HANDLE : Fld := ⟨R.SYS_SPOIL, 0, 32⟩

/-- Register SYS_SNAP_REQ (R43). -/
def R.SYS_SNAP_REQ : Nat := 0x200
def F.SYS_SNAP_REQ_DOMAINS : Fld := ⟨R.SYS_SNAP_REQ, 0, 24⟩

/-- Register SYS_SNAP_STATUS (R43). -/
def R.SYS_SNAP_STATUS : Nat := 0x204
def F.SYS_SNAP_STATUS_BUSY : Fld := ⟨R.SYS_SNAP_STATUS, 0, 1⟩
def F.SYS_SNAP_STATUS_DONE : Fld := ⟨R.SYS_SNAP_STATUS, 1, 1⟩
def F.SYS_SNAP_STATUS_OVERRUN : Fld := ⟨R.SYS_SNAP_STATUS, 2, 1⟩
def F.SYS_SNAP_STATUS_TIMEOUT : Fld := ⟨R.SYS_SNAP_STATUS, 3, 1⟩

/-- Register SYS_SNAP_MISS (R43). -/
def R.SYS_SNAP_MISS : Nat := 0x208
def F.SYS_SNAP_MISS_DOMAINS : Fld := ⟨R.SYS_SNAP_MISS, 0, 24⟩

/-- Register SYS_SNAP_TIME_LO (R43). -/
def R.SYS_SNAP_TIME_LO : Nat := 0x210
def F.SYS_SNAP_TIME_LO_TIME : Fld := ⟨R.SYS_SNAP_TIME_LO, 0, 32⟩

/-- Register SYS_SNAP_TIME_HI (R43). -/
def R.SYS_SNAP_TIME_HI : Nat := 0x214
def F.SYS_SNAP_TIME_HI_TIME : Fld := ⟨R.SYS_SNAP_TIME_HI, 0, 32⟩

/-- Register CRSn_CTRL (R81). -/
def R.CRS_CTRL (u : Nat) : Nat := 0x80000 + 0x10000 * u
def F.CRS_CTRL_RUN (u : Nat) : Fld := ⟨(R.CRS_CTRL u), 0, 1⟩
def F.CRS_CTRL_SRESET (u : Nat) : Fld := ⟨(R.CRS_CTRL u), 1, 1⟩

/-- Register CRSn_STATUS (R81). -/
def R.CRS_STATUS (u : Nat) : Nat := 0x80004 + 0x10000 * u
def F.CRS_STATUS_STATE (u : Nat) : Fld := ⟨(R.CRS_STATUS u), 0, 3⟩
def F.CRS_STATUS_DSP (u : Nat) : Fld := ⟨(R.CRS_STATUS u), 3, 1⟩
def F.CRS_STATUS_INTRAP (u : Nat) : Fld := ⟨(R.CRS_STATUS u), 4, 1⟩
def F.CRS_STATUS_IW_DENIED (u : Nat) : Fld := ⟨(R.CRS_STATUS u), 5, 1⟩

/-- Register CRSn_ENTRY (R81). -/
def R.CRS_ENTRY (u : Nat) : Nat := 0x80008 + 0x10000 * u
def F.CRS_ENTRY_ENTRY (u : Nat) : Fld := ⟨(R.CRS_ENTRY u), 2, 14⟩

/-- Register CRSn_PC (R81). -/
def R.CRS_PC (u : Nat) : Nat := 0x8000c + 0x10000 * u
def F.CRS_PC_PC (u : Nat) : Fld := ⟨(R.CRS_PC u), 0, 16⟩

/-- Register CRSn_TRAPINFO (R81). -/
def R.CRS_TRAPINFO (u : Nat) : Nat := 0x80010 + 0x10000 * u
def F.CRS_TRAPINFO_DT_CAUSE (u : Nat) : Fld := ⟨(R.CRS_TRAPINFO u), 0, 4⟩
def F.CRS_TRAPINFO_FIRST_CAUSE (u : Nat) : Fld := ⟨(R.CRS_TRAPINFO u), 4, 4⟩
def F.CRS_TRAPINFO_DT_PC (u : Nat) : Fld := ⟨(R.CRS_TRAPINFO u), 8, 14⟩

/-- Register CRSn_ECC_CNT (R81). -/
def R.CRS_ECC_CNT (u : Nat) : Nat := 0x80020 + 0x10000 * u
def F.CRS_ECC_CNT_IRAM (u : Nat) : Fld := ⟨(R.CRS_ECC_CNT u), 0, 16⟩
def F.CRS_ECC_CNT_DRAM_LOCAL (u : Nat) : Fld := ⟨(R.CRS_ECC_CNT u), 16, 16⟩

/-- Register CRSn_ECC_ADDR (R81). -/
def R.CRS_ECC_ADDR (u : Nat) : Nat := 0x80024 + 0x10000 * u
def F.CRS_ECC_ADDR_ADDR (u : Nat) : Fld := ⟨(R.CRS_ECC_ADDR u), 2, 14⟩
def F.CRS_ECC_ADDR_SPACE (u : Nat) : Fld := ⟨(R.CRS_ECC_ADDR u), 16, 1⟩
def F.CRS_ECC_ADDR_VALID (u : Nat) : Fld := ⟨(R.CRS_ECC_ADDR u), 17, 1⟩

/-- Register CRSn_EVINJ (R81). -/
def R.CRS_EVINJ (u : Nat) : Nat := 0x80028 + 0x10000 * u
def F.CRS_EVINJ_EVENTS (u : Nat) : Fld := ⟨(R.CRS_EVINJ u), 0, 31⟩

/-- Register CRSn_LOCK (R81). -/
def R.CRS_LOCK (u : Nat) : Nat := 0x80030 + 0x10000 * u
def F.CRS_LOCK_LOCK (u : Nat) : Fld := ⟨(R.CRS_LOCK u), 0, 1⟩

/-- Register RNGn_CFG (R108). -/
def R.RNG_CFG (i : Nat) : Nat := 0x41000 + 0x20 * i
def F.RNG_CFG_LOG2SIZE (i : Nat) : Fld := ⟨(R.RNG_CFG i), 0, 4⟩
def F.RNG_CFG_ROLE (i : Nat) : Fld := ⟨(R.RNG_CFG i), 4, 2⟩
def F.RNG_CFG_POLICY (i : Nat) : Fld := ⟨(R.RNG_CFG i), 6, 1⟩
def F.RNG_CFG_OPEN (i : Nat) : Fld := ⟨(R.RNG_CFG i), 7, 1⟩
def F.RNG_CFG_ERROR (i : Nat) : Fld := ⟨(R.RNG_CFG i), 8, 1⟩

/-- Register RNGn_PROD (R108). -/
def R.RNG_PROD (i : Nat) : Nat := 0x41004 + 0x20 * i
def F.RNG_PROD_COUNT (i : Nat) : Fld := ⟨(R.RNG_PROD i), 0, 32⟩

/-- Register RNGn_CONS (R108). -/
def R.RNG_CONS (i : Nat) : Nat := 0x41008 + 0x20 * i
def F.RNG_CONS_COUNT (i : Nat) : Fld := ⟨(R.RNG_CONS i), 0, 32⟩

/-- Register RNGn_PDB (R108). -/
def R.RNG_PDB (i : Nat) : Nat := 0x4100c + 0x20 * i
def F.RNG_PDB_VALUE (i : Nat) : Fld := ⟨(R.RNG_PDB i), 0, 32⟩

/-- Register RNGn_CDB (R108). -/
def R.RNG_CDB (i : Nat) : Nat := 0x41010 + 0x20 * i
def F.RNG_CDB_VALUE (i : Nat) : Fld := ⟨(R.RNG_CDB i), 0, 32⟩

/-- Register RNGn_STAT (R108). -/
def R.RNG_STAT (i : Nat) : Nat := 0x41014 + 0x20 * i
def F.RNG_STAT_DROPS (i : Nat) : Fld := ⟨(R.RNG_STAT i), 0, 16⟩
def F.RNG_STAT_DBERR (i : Nat) : Fld := ⟨(R.RNG_STAT i), 16, 1⟩
def F.RNG_STAT_OVF (i : Nat) : Fld := ⟨(R.RNG_STAT i), 17, 1⟩

/-- Register RNGn_BASE_LO (R108). -/
def R.RNG_BASE_LO (i : Nat) : Nat := 0x41018 + 0x20 * i
def F.RNG_BASE_LO_BASE (i : Nat) : Fld := ⟨(R.RNG_BASE_LO i), 0, 32⟩

/-- Register RNGn_BASE_HI (R108). -/
def R.RNG_BASE_HI (i : Nat) : Nat := 0x4101c + 0x20 * i
def F.RNG_BASE_HI_BASE (i : Nat) : Fld := ⟨(R.RNG_BASE_HI i), 0, 8⟩

/-- Register OBJ_STATUS (R112). -/
def R.OBJ_STATUS : Nat := 0x30000
def F.OBJ_STATUS_STALE_SEEN : Fld := ⟨R.OBJ_STATUS, 0, 1⟩
def F.OBJ_STATUS_EXH_SEEN : Fld := ⟨R.OBJ_STATUS, 1, 1⟩
def F.OBJ_STATUS_CMD_REJ : Fld := ⟨R.OBJ_STATUS, 2, 1⟩
def F.OBJ_STATUS_TBL_ECC : Fld := ⟨R.OBJ_STATUS, 3, 1⟩

/-- Register OBJ_PAGE_READY (R112). -/
def R.OBJ_PAGE_READY : Nat := 0x30020
def F.OBJ_PAGE_READY_HANDLE : Fld := ⟨R.OBJ_PAGE_READY, 0, 32⟩

/-- Register OBJ_JOB_START (R112). -/
def R.OBJ_JOB_START : Nat := 0x30024
def F.OBJ_JOB_START_HANDLE : Fld := ⟨R.OBJ_JOB_START, 0, 32⟩

/-- Register OBJ_JOB_STOP (R112). -/
def R.OBJ_JOB_STOP : Nat := 0x30028
def F.OBJ_JOB_STOP_HANDLE : Fld := ⟨R.OBJ_JOB_STOP, 0, 32⟩

/-- Register OBJ_DRAIN (R112). -/
def R.OBJ_DRAIN : Nat := 0x30030
def F.OBJ_DRAIN_SRC : Fld := ⟨R.OBJ_DRAIN, 0, 5⟩
def F.OBJ_DRAIN_DST : Fld := ⟨R.OBJ_DRAIN, 8, 5⟩
def F.OBJ_DRAIN_GO : Fld := ⟨R.OBJ_DRAIN, 16, 1⟩

/-- Register OBJ_DRAIN_STATUS (R112). -/
def R.OBJ_DRAIN_STATUS : Nat := 0x30034
def F.OBJ_DRAIN_STATUS_BUSY : Fld := ⟨R.OBJ_DRAIN_STATUS, 0, 1⟩
def F.OBJ_DRAIN_STATUS_DONE : Fld := ⟨R.OBJ_DRAIN_STATUS, 1, 1⟩
def F.OBJ_DRAIN_STATUS_REFUSED : Fld := ⟨R.OBJ_DRAIN_STATUS, 2, 1⟩
def F.OBJ_DRAIN_STATUS_MOVED : Fld := ⟨R.OBJ_DRAIN_STATUS, 16, 16⟩

/-- Register OBJ_FREE (R112). -/
def R.OBJ_FREE (i : Nat) : Nat := 0x30104 + 0x4 * i
def F.OBJ_FREE_FREE (i : Nat) : Fld := ⟨(R.OBJ_FREE i), 0, 16⟩
def F.OBJ_FREE_LOW (i : Nat) : Fld := ⟨(R.OBJ_FREE i), 16, 16⟩

/-- Register EXPs_SCAN (R141). -/
def R.EXP_SCAN (u : Nat) : Nat := 0x200000 + 0x10000 * u
def F.EXP_SCAN_SOS (u : Nat) : Fld := ⟨(R.EXP_SCAN u), 0, 16⟩
def F.EXP_SCAN_BD_WIN (u : Nat) : Fld := ⟨(R.EXP_SCAN u), 16, 8⟩
def F.EXP_SCAN_BD_POL (u : Nat) : Fld := ⟨(R.EXP_SCAN u), 24, 1⟩
def F.EXP_SCAN_FIDX_EN (u : Nat) : Fld := ⟨(R.EXP_SCAN u), 25, 1⟩
def F.EXP_SCAN_MIRROR (u : Nat) : Fld := ⟨(R.EXP_SCAN u), 26, 1⟩

/-- Register EXPs_FACETPX (R141). -/
def R.EXP_FACETPX (u : Nat) : Nat := 0x200004 + 0x10000 * u
def F.EXP_FACETPX_FACET_PX (u : Nat) : Fld := ⟨(R.EXP_FACETPX u), 0, 16⟩

/-- Register EXPs_BD (R141). -/
def R.EXP_BD (u : Nat) : Nat := 0x200008 + 0x10000 * u
def F.EXP_BD_BD_HOLD (u : Nat) : Fld := ⟨(R.EXP_BD u), 0, 2⟩
def F.EXP_BD_LOCKN (u : Nat) : Fld := ⟨(R.EXP_BD u), 8, 6⟩
def F.EXP_BD_MINW (u : Nat) : Fld := ⟨(R.EXP_BD u), 16, 8⟩

/-- Register EXPs_PICOT (R141). -/
def R.EXP_PICOT (u : Nat) : Nat := 0x20000c + 0x10000 * u
def F.EXP_PICOT_EN (u : Nat) : Fld := ⟨(R.EXP_PICOT u), 0, 1⟩
def F.EXP_PICOT_K (u : Nat) : Fld := ⟨(R.EXP_PICOT u), 2, 2⟩
def F.EXP_PICOT_N (u : Nat) : Fld := ⟨(R.EXP_PICOT u), 4, 4⟩

/-- Register EXPs_TONE_LO (R141). -/
def R.EXP_TONE_LO (u : Nat) : Nat := 0x200010 + 0x10000 * u
def F.EXP_TONE_LO_TONE (u : Nat) : Fld := ⟨(R.EXP_TONE_LO u), 0, 32⟩

/-- Register EXPs_TONE_HI (R141). -/
def R.EXP_TONE_HI (u : Nat) : Nat := 0x200014 + 0x10000 * u
def F.EXP_TONE_HI_TONE (u : Nat) : Fld := ⟨(R.EXP_TONE_HI u), 0, 32⟩

/-- Register EXPs_CTRL (R141). -/
def R.EXP_CTRL (u : Nat) : Nat := 0x200018 + 0x10000 * u
def F.EXP_CTRL_FLYOFF (u : Nat) : Fld := ⟨(R.EXP_CTRL u), 0, 1⟩

/-- Register EXPs_STATUS (R141). -/
def R.EXP_STATUS (u : Nat) : Nat := 0x200020 + 0x10000 * u
def F.EXP_STATUS_BD_LOCK (u : Nat) : Fld := ⟨(R.EXP_STATUS u), 0, 1⟩
def F.EXP_STATUS_FLYING (u : Nat) : Fld := ⟨(R.EXP_STATUS u), 1, 1⟩
def F.EXP_STATUS_FIDX_OK (u : Nat) : Fld := ⟨(R.EXP_STATUS u), 2, 1⟩
def F.EXP_STATUS_FIDX_ERR (u : Nat) : Fld := ⟨(R.EXP_STATUS u), 3, 1⟩
def F.EXP_STATUS_CFG_BUSY (u : Nat) : Fld := ⟨(R.EXP_STATUS u), 4, 1⟩
def F.EXP_STATUS_CFG_ERR (u : Nat) : Fld := ⟨(R.EXP_STATUS u), 5, 1⟩
def F.EXP_STATUS_IN_JOB (u : Nat) : Fld := ⟨(R.EXP_STATUS u), 6, 1⟩

/-- Register EXPs_LINE_LO (R141). -/
def R.EXP_LINE_LO (u : Nat) : Nat := 0x200030 + 0x10000 * u
def F.EXP_LINE_LO_LINE (u : Nat) : Fld := ⟨(R.EXP_LINE_LO u), 0, 32⟩

/-- Register EXPs_LINE_HI (R141). -/
def R.EXP_LINE_HI (u : Nat) : Nat := 0x200034 + 0x10000 * u
def F.EXP_LINE_HI_LINE (u : Nat) : Fld := ⟨(R.EXP_LINE_HI u), 0, 8⟩

/-- Register EXPs_FACETCNT (R141). -/
def R.EXP_FACETCNT (u : Nat) : Nat := 0x200038 + 0x10000 * u
def F.EXP_FACETCNT_FACETS (u : Nat) : Fld := ⟨(R.EXP_FACETCNT u), 0, 32⟩

/-- Register EXPs_BDT_LO (R141). -/
def R.EXP_BDT_LO (u : Nat) : Nat := 0x200040 + 0x10000 * u
def F.EXP_BDT_LO_TIME (u : Nat) : Fld := ⟨(R.EXP_BDT_LO u), 0, 32⟩

/-- Register EXPs_BDT_HI (R141). -/
def R.EXP_BDT_HI (u : Nat) : Nat := 0x200044 + 0x10000 * u
def F.EXP_BDT_HI_TIME (u : Nat) : Fld := ⟨(R.EXP_BDT_HI u), 0, 32⟩

/-- Register EXPs_BDPH (R141). -/
def R.EXP_BDPH (u : Nat) : Nat := 0x200048 + 0x10000 * u
def F.EXP_BDPH_FINE (u : Nat) : Fld := ⟨(R.EXP_BDPH u), 0, 13⟩
def F.EXP_BDPH_PH (u : Nat) : Fld := ⟨(R.EXP_BDPH u), 16, 6⟩
def F.EXP_BDPH_CARRY (u : Nat) : Fld := ⟨(R.EXP_BDPH u), 22, 1⟩

/-- Register EXPs_FPER (R141). -/
def R.EXP_FPER (u : Nat) : Nat := 0x20004c + 0x10000 * u
def F.EXP_FPER_PERIOD (u : Nat) : Fld := ⟨(R.EXP_FPER u), 0, 32⟩

/-- Register EXPs_CNT (R141). -/
def R.EXP_CNT (u : Nat) : Nat := 0x200050 + 0x10000 * u
def F.EXP_CNT_FLYWHEELS (u : Nat) : Fld := ⟨(R.EXP_CNT u), 0, 16⟩
def F.EXP_CNT_SPURIOUS (u : Nat) : Fld := ⟨(R.EXP_CNT u), 16, 16⟩

/-- Register EXPs_FCTL (R141). -/
def R.EXP_FCTL (u : Nat) : Nat := 0x200060 + 0x10000 * u
def F.EXP_FCTL_COMMIT (u : Nat) : Fld := ⟨(R.EXP_FCTL u), 0, 1⟩
def F.EXP_FCTL_MODE (u : Nat) : Fld := ⟨(R.EXP_FCTL u), 1, 1⟩
def F.EXP_FCTL_CANCEL (u : Nat) : Fld := ⟨(R.EXP_FCTL u), 2, 1⟩

/-- Register EXPs_FSTAT (R141). -/
def R.EXP_FSTAT (u : Nat) : Nat := 0x200064 + 0x10000 * u
def F.EXP_FSTAT_STAGE (u : Nat) : Fld := ⟨(R.EXP_FSTAT u), 0, 2⟩
def F.EXP_FSTAT_DIRTY (u : Nat) : Fld := ⟨(R.EXP_FSTAT u), 2, 1⟩
def F.EXP_FSTAT_SWAPPED (u : Nat) : Fld := ⟨(R.EXP_FSTAT u), 3, 1⟩
def F.EXP_FSTAT_LOAD_ERR (u : Nat) : Fld := ⟨(R.EXP_FSTAT u), 4, 1⟩
def F.EXP_FSTAT_FIRE_BUSY (u : Nat) : Fld := ⟨(R.EXP_FSTAT u), 5, 1⟩
def F.EXP_FSTAT_ENT_ERR (u : Nat) : Fld := ⟨(R.EXP_FSTAT u), 6, 1⟩
def F.EXP_FSTAT_PICOT_CLAMP (u : Nat) : Fld := ⟨(R.EXP_FSTAT u), 7, 1⟩

/-- Register EXPs_SWAPL_LO (R141). -/
def R.EXP_SWAPL_LO (u : Nat) : Nat := 0x200068 + 0x10000 * u
def F.EXP_SWAPL_LO_LINE (u : Nat) : Fld := ⟨(R.EXP_SWAPL_LO u), 0, 32⟩

/-- Register EXPs_SWAPL_HI (R141). -/
def R.EXP_SWAPL_HI (u : Nat) : Nat := 0x20006c + 0x10000 * u
def F.EXP_SWAPL_HI_LINE (u : Nat) : Fld := ⟨(R.EXP_SWAPL_HI u), 0, 8⟩

/-- Register EXPs_FCORR (R141). -/
def R.EXP_FCORR (u i : Nat) : Nat := 0x200080 + 0x10000 * u + 0x4 * i
def F.EXP_FCORR_FCORR (u i : Nat) : Fld := ⟨(R.EXP_FCORR u i), 0, 9⟩

/-- Register EXPs_ZONE (R141). -/
def R.EXP_ZONE (u i : Nat) : Nat := 0x200100 + 0x10000 * u + 0x4 * i
def F.EXP_ZONE_Z (u i : Nat) : Fld := ⟨(R.EXP_ZONE u i), 0, 11⟩

/-- Register EXP_DELAY (R141). -/
def R.EXP_DELAY (u i : Nat) : Nat := 0x200400 + 0x10000 * u + 0x4 * i
def F.EXP_DELAY_DELAY (u i : Nat) : Fld := ⟨(R.EXP_DELAY u i), 0, 16⟩

/-- Register EXP_FIRE (R141). -/
def R.EXP_FIRE (u i : Nat) : Nat := 0x204000 + 0x10000 * u + 0x4 * i
def F.EXP_FIRE_POS (u i : Nat) : Fld := ⟨(R.EXP_FIRE u i), 0, 6⟩
def F.EXP_FIRE_WIDTH (u i : Nat) : Fld := ⟨(R.EXP_FIRE u i), 8, 7⟩

/-- Register LACs_STATUS (R168). -/
def R.LAC_STATUS (u : Nat) : Nat := 0x240000 + 0x10000 * u
def F.LAC_STATUS_CHK_BUSY (u : Nat) : Fld := ⟨(R.LAC_STATUS u), 0, 1⟩
def F.LAC_STATUS_OK1 (u : Nat) : Fld := ⟨(R.LAC_STATUS u), 1, 1⟩
def F.LAC_STATUS_OK2 (u : Nat) : Fld := ⟨(R.LAC_STATUS u), 2, 1⟩
def F.LAC_STATUS_OK4 (u : Nat) : Fld := ⟨(R.LAC_STATUS u), 3, 1⟩
def F.LAC_STATUS_DEAD_PEND (u : Nat) : Fld := ⟨(R.LAC_STATUS u), 4, 1⟩
def F.LAC_STATUS_REPLACE (u : Nat) : Fld := ⟨(R.LAC_STATUS u), 5, 1⟩
def F.LAC_STATUS_HOT_TRIP (u : Nat) : Fld := ⟨(R.LAC_STATUS u), 6, 1⟩
def F.LAC_STATUS_TEMP_STALE (u : Nat) : Fld := ⟨(R.LAC_STATUS u), 7, 1⟩
def F.LAC_STATUS_CFG_BUSY (u : Nat) : Fld := ⟨(R.LAC_STATUS u), 8, 1⟩
def F.LAC_STATUS_CFG_ERR (u : Nat) : Fld := ⟨(R.LAC_STATUS u), 9, 1⟩
def F.LAC_STATUS_COOL_PEND (u : Nat) : Fld := ⟨(R.LAC_STATUS u), 10, 1⟩

/-- Register LACs_CHK1 (R168). -/
def R.LAC_CHK1 (u : Nat) : Nat := 0x240004 + 0x10000 * u
def F.LAC_CHK1_RULE (u : Nat) : Fld := ⟨(R.LAC_CHK1 u), 0, 4⟩
def F.LAC_CHK1_INDEX (u : Nat) : Fld := ⟨(R.LAC_CHK1 u), 4, 7⟩
def F.LAC_CHK1_COL (u : Nat) : Fld := ⟨(R.LAC_CHK1 u), 16, 6⟩
def F.LAC_CHK1_PASS (u : Nat) : Fld := ⟨(R.LAC_CHK1 u), 24, 2⟩

/-- Register LACs_CHK2 (R168). -/
def R.LAC_CHK2 (u : Nat) : Nat := 0x240008 + 0x10000 * u
def F.LAC_CHK2_RULE (u : Nat) : Fld := ⟨(R.LAC_CHK2 u), 0, 4⟩
def F.LAC_CHK2_INDEX (u : Nat) : Fld := ⟨(R.LAC_CHK2 u), 4, 7⟩
def F.LAC_CHK2_COL (u : Nat) : Fld := ⟨(R.LAC_CHK2 u), 16, 6⟩
def F.LAC_CHK2_PASS (u : Nat) : Fld := ⟨(R.LAC_CHK2 u), 24, 2⟩

/-- Register LACs_CHK4 (R168). -/
def R.LAC_CHK4 (u : Nat) : Nat := 0x24000c + 0x10000 * u
def F.LAC_CHK4_RULE (u : Nat) : Fld := ⟨(R.LAC_CHK4 u), 0, 4⟩
def F.LAC_CHK4_INDEX (u : Nat) : Fld := ⟨(R.LAC_CHK4 u), 4, 7⟩
def F.LAC_CHK4_COL (u : Nat) : Fld := ⟨(R.LAC_CHK4 u), 16, 6⟩
def F.LAC_CHK4_PASS (u : Nat) : Fld := ⟨(R.LAC_CHK4 u), 24, 2⟩

/-- Register LACs_DUTY (R168). -/
def R.LAC_DUTY (u : Nat) : Nat := 0x240010 + 0x10000 * u
def F.LAC_DUTY_HLIM (u : Nat) : Fld := ⟨(R.LAC_DUTY u), 0, 9⟩
def F.LAC_DUTY_CLIP_PICOT (u : Nat) : Fld := ⟨(R.LAC_DUTY u), 16, 1⟩

/-- Register LACs_PROBE (R168). -/
def R.LAC_PROBE (u : Nat) : Nat := 0x240014 + 0x10000 * u
def F.LAC_PROBE_PROBE_N (u : Nat) : Fld := ⟨(R.LAC_PROBE u), 0, 5⟩
def F.LAC_PROBE_PROBE_Q (u : Nat) : Fld := ⟨(R.LAC_PROBE u), 8, 4⟩
def F.LAC_PROBE_PROBE_MIN (u : Nat) : Fld := ⟨(R.LAC_PROBE u), 16, 8⟩
def F.LAC_PROBE_PROBE_W (u : Nat) : Fld := ⟨(R.LAC_PROBE u), 24, 7⟩

/-- Register LACs_SUB (R168). -/
def R.LAC_SUB (u : Nat) : Nat := 0x240018 + 0x10000 * u
def F.LAC_SUB_LANES (u : Nat) : Fld := ⟨(R.LAC_SUB u), 0, 5⟩
def F.LAC_SUB_DEAD (u : Nat) : Fld := ⟨(R.LAC_SUB u), 8, 8⟩
def F.LAC_SUB_UNSUB (u : Nat) : Fld := ⟨(R.LAC_SUB u), 16, 8⟩
def F.LAC_SUB_CAP (u : Nat) : Fld := ⟨(R.LAC_SUB u), 24, 5⟩

/-- Register LACs_TWARN (R168). -/
def R.LAC_TWARN (u : Nat) : Nat := 0x240020 + 0x10000 * u
def F.LAC_TWARN_TLIM (u : Nat) : Fld := ⟨(R.LAC_TWARN u), 0, 12⟩

/-- Register LACs_TCOMMIT (R168). -/
def R.LAC_TCOMMIT (u : Nat) : Nat := 0x240024 + 0x10000 * u
def F.LAC_TCOMMIT_TLIM (u : Nat) : Fld := ⟨(R.LAC_TCOMMIT u), 0, 12⟩

/-- Register LACs_TABS (R168). -/
def R.LAC_TABS (u : Nat) : Nat := 0x240028 + 0x10000 * u
def F.LAC_TABS_TLIM (u : Nat) : Fld := ⟨(R.LAC_TABS u), 0, 12⟩

/-- Register LACs_THR (R168). -/
def R.LAC_THR (u : Nat) : Nat := 0x24002c + 0x10000 * u
def F.LAC_THR_RATE (u : Nat) : Fld := ⟨(R.LAC_THR u), 0, 8⟩

/-- Register LACs_THERM (R168). -/
def R.LAC_THERM (u : Nat) : Nat := 0x240030 + 0x10000 * u
def F.LAC_THERM_HT (u : Nat) : Fld := ⟨(R.LAC_THERM u), 0, 12⟩
def F.LAC_THERM_SPD_REQ (u : Nat) : Fld := ⟨(R.LAC_THERM u), 16, 10⟩

/-- Register LACs_SPDBND (R168). -/
def R.LAC_SPDBND (u : Nat) : Nat := 0x240034 + 0x10000 * u
def F.LAC_SPDBND_SPD_BND (u : Nat) : Fld := ⟨(R.LAC_SPDBND u), 0, 10⟩

/-- Register LACs_COOL_OFF (R168). -/
def R.LAC_COOL_OFF (u : Nat) : Nat := 0x240038 + 0x10000 * u
def F.LAC_COOL_OFF_VALUE (u : Nat) : Fld := ⟨(R.LAC_COOL_OFF u), 0, 24⟩

/-- Register LACs_COOL_DATA (R168). -/
def R.LAC_COOL_DATA (u : Nat) : Nat := 0x24003c + 0x10000 * u
def F.LAC_COOL_DATA_VALUE (u : Nat) : Fld := ⟨(R.LAC_COOL_DATA u), 0, 32⟩

/-- Register LACs_CLIPCNT (R168). -/
def R.LAC_CLIPCNT (u : Nat) : Nat := 0x240040 + 0x10000 * u
def F.LAC_CLIPCNT_EMIT (u : Nat) : Fld := ⟨(R.LAC_CLIPCNT u), 0, 16⟩
def F.LAC_CLIPCNT_HEAD (u : Nat) : Fld := ⟨(R.LAC_CLIPCNT u), 16, 16⟩

/-- Register LACs_CUTL_LO (R168). -/
def R.LAC_CUTL_LO (u : Nat) : Nat := 0x240048 + 0x10000 * u
def F.LAC_CUTL_LO_LINE (u : Nat) : Fld := ⟨(R.LAC_CUTL_LO u), 0, 32⟩

/-- Register LACs_CUTL_HI (R168). -/
def R.LAC_CUTL_HI (u : Nat) : Nat := 0x24004c + 0x10000 * u
def F.LAC_CUTL_HI_LINE (u : Nat) : Fld := ⟨(R.LAC_CUTL_HI u), 0, 8⟩

/-- Register LACs_DEAD (R168). -/
def R.LAC_DEAD (u i : Nat) : Nat := 0x240050 + 0x10000 * u + 0x4 * i
def F.LAC_DEAD_BEAMS (u i : Nat) : Fld := ⟨(R.LAC_DEAD u i), 0, 32⟩

/-- Register LACs_DEADEFF (R168). -/
def R.LAC_DEADEFF (u i : Nat) : Nat := 0x240060 + 0x10000 * u + 0x4 * i
def F.LAC_DEADEFF_BEAMS (u i : Nat) : Fld := ⟨(R.LAC_DEADEFF u i), 0, 32⟩

/-- Register LACs_UNSUB (R168). -/
def R.LAC_UNSUB (u i : Nat) : Nat := 0x240070 + 0x10000 * u + 0x4 * i
def F.LAC_UNSUB_BEAMS (u i : Nat) : Fld := ⟨(R.LAC_UNSUB u i), 0, 32⟩

/-- Register LACs_PFAIL (R168). -/
def R.LAC_PFAIL (u i : Nat) : Nat := 0x240080 + 0x10000 * u + 0x4 * i
def F.LAC_PFAIL_BEAMS (u i : Nat) : Fld := ⟨(R.LAC_PFAIL u i), 0, 32⟩

/-- Register LAC_MAP (R168). -/
def R.LAC_MAP (u i : Nat) : Nat := 0x240400 + 0x10000 * u + 0x4 * i
def F.LAC_MAP_LOFF (u i : Nat) : Fld := ⟨(R.LAC_MAP u i), 0, 10⟩
def F.LAC_MAP_PASS2 (u i : Nat) : Fld := ⟨(R.LAC_MAP u i), 16, 1⟩
def F.LAC_MAP_PASS4 (u i : Nat) : Fld := ⟨(R.LAC_MAP u i), 18, 2⟩

/-- Register LAC_ELIM (R168). -/
def R.LAC_ELIM (u i : Nat) : Nat := 0x240800 + 0x10000 * u + 0x4 * i
def F.LAC_ELIM_ELIM (u i : Nat) : Fld := ⟨(R.LAC_ELIM u i), 0, 9⟩

/-- Register LAC_MASK (R168). -/
def R.LAC_MASK (u i : Nat) : Nat := 0x241000 + 0x10000 * u + 0x4 * i
def F.LAC_MASK_BITS (u i : Nat) : Fld := ⟨(R.LAC_MASK u i), 0, 32⟩

/-- Register ELKs_CTRL (R189). -/
def R.ELK_CTRL (u : Nat) : Nat := 0x280000 + 0x10000 * u
def F.ELK_CTRL_EN (u : Nat) : Fld := ⟨(R.ELK_CTRL u), 0, 1⟩
def F.ELK_CTRL_RETRAIN (u : Nat) : Fld := ⟨(R.ELK_CTRL u), 1, 1⟩
def F.ELK_CTRL_CLAIM (u : Nat) : Fld := ⟨(R.ELK_CTRL u), 2, 1⟩

/-- Register ELKs_STATUS (R189). -/
def R.ELK_STATUS (u : Nat) : Nat := 0x280004 + 0x10000 * u
def F.ELK_STATUS_STATE (u : Nat) : Fld := ⟨(R.ELK_STATUS u), 0, 3⟩
def F.ELK_STATUS_TRAINED (u : Nat) : Fld := ⟨(R.ELK_STATUS u), 3, 1⟩
def F.ELK_STATUS_FAILSTEP (u : Nat) : Fld := ⟨(R.ELK_STATUS u), 4, 3⟩
def F.ELK_STATUS_LOST (u : Nat) : Fld := ⟨(R.ELK_STATUS u), 7, 1⟩
def F.ELK_STATUS_EXEC (u : Nat) : Fld := ⟨(R.ELK_STATUS u), 8, 1⟩
def F.ELK_STATUS_CONFLICT (u : Nat) : Fld := ⟨(R.ELK_STATUS u), 9, 1⟩
def F.ELK_STATUS_CMD_REJ (u : Nat) : Fld := ⟨(R.ELK_STATUS u), 10, 1⟩
def F.ELK_STATUS_HLOOP (u : Nat) : Fld := ⟨(R.ELK_STATUS u), 11, 1⟩
def F.ELK_STATUS_HOVR (u : Nat) : Fld := ⟨(R.ELK_STATUS u), 12, 1⟩

/-- Register ELKs_LAT (R189). -/
def R.ELK_LAT (u : Nat) : Nat := 0x280008 + 0x10000 * u
def F.ELK_LAT_L (u : Nat) : Fld := ⟨(R.ELK_LAT u), 0, 19⟩

/-- Register ELKs_LATK (R189). -/
def R.ELK_LATK (u : Nat) : Nat := 0x28000c + 0x10000 * u
def F.ELK_LATK_KSUM (u : Nat) : Fld := ⟨(R.ELK_LATK u), 0, 16⟩
def F.ELK_LATK_KFWD (u : Nat) : Fld := ⟨(R.ELK_LATK u), 16, 16⟩

/-- Register ELKs_CNT (R189). -/
def R.ELK_CNT (u : Nat) : Nat := 0x280010 + 0x10000 * u
def F.ELK_CNT_NACKS (u : Nat) : Fld := ⟨(R.ELK_CNT u), 0, 12⟩
def F.ELK_CNT_BCERR (u : Nat) : Fld := ⟨(R.ELK_CNT u), 12, 12⟩
def F.ELK_CNT_ATTEMPTS (u : Nat) : Fld := ⟨(R.ELK_CNT u), 24, 8⟩

/-- Register ELKs_CREDIT (R189). -/
def R.ELK_CREDIT (u : Nat) : Nat := 0x280014 + 0x10000 * u
def F.ELK_CREDIT_CREDITS (u : Nat) : Fld := ⟨(R.ELK_CREDIT u), 0, 13⟩

/-- Register ELKs_HEADID (R189). -/
def R.ELK_HEADID (u : Nat) : Nat := 0x280018 + 0x10000 * u
def F.ELK_HEADID_MODEL (u : Nat) : Fld := ⟨(R.ELK_HEADID u), 0, 16⟩
def F.ELK_HEADID_REV (u : Nat) : Fld := ⟨(R.ELK_HEADID u), 16, 8⟩
def F.ELK_HEADID_PORT (u : Nat) : Fld := ⟨(R.ELK_HEADID u), 24, 1⟩

/-- Register ELKs_LOCK (R189). -/
def R.ELK_LOCK (u : Nat) : Nat := 0x28001c + 0x10000 * u
def F.ELK_LOCK_LOCK (u : Nat) : Fld := ⟨(R.ELK_LOCK u), 0, 1⟩

/-- Register ILK_STATUS (R190). -/
def R.ILK_STATUS : Nat := 0x2c0000
def F.ILK_STATUS_LOOPA : Fld := ⟨R.ILK_STATUS, 0, 4⟩
def F.ILK_STATUS_LOOPB : Fld := ⟨R.ILK_STATUS, 4, 4⟩
def F.ILK_STATUS_LASER : Fld := ⟨R.ILK_STATUS, 8, 4⟩
def F.ILK_STATUS_ARMABLE : Fld := ⟨R.ILK_STATUS, 12, 4⟩
def F.ILK_STATUS_DISCREP : Fld := ⟨R.ILK_STATUS, 16, 4⟩

/-- Register ILK_ARM (R190). -/
def R.ILK_ARM : Nat := 0x2c0004
def F.ILK_ARM_ARM : Fld := ⟨R.ILK_ARM, 0, 4⟩
def F.ILK_ARM_DISARM : Fld := ⟨R.ILK_ARM, 4, 4⟩
def F.ILK_ARM_KEY : Fld := ⟨R.ILK_ARM, 8, 8⟩

/-- Register ILK_PANEL (R190). -/
def R.ILK_PANEL : Nat := 0x2c0010
def F.ILK_PANEL_KEYS : Fld := ⟨R.ILK_PANEL, 0, 8⟩
def F.ILK_PANEL_PBTN : Fld := ⟨R.ILK_PANEL, 8, 1⟩
def F.ILK_PANEL_SHORT : Fld := ⟨R.ILK_PANEL, 9, 1⟩
def F.ILK_PANEL_LONG : Fld := ⟨R.ILK_PANEL, 10, 1⟩

/-- Register ILK_CFG (R190). -/
def R.ILK_CFG : Nat := 0x2c0014
def F.ILK_CFG_KEY_DEB : Fld := ⟨R.ILK_CFG, 0, 6⟩

/-- Register ILK_EVGRP (R190). -/
def R.ILK_EVGRP : Nat := 0x2c0018
def F.ILK_EVGRP_HANDLE : Fld := ⟨R.ILK_EVGRP, 0, 32⟩

/-- Register ILK_LED (R190). -/
def R.ILK_LED : Nat := 0x2c0020
def F.ILK_LED_MODE : Fld := ⟨R.ILK_LED, 0, 16⟩
def F.ILK_LED_REPL_FORCE : Fld := ⟨R.ILK_LED, 16, 1⟩

/-- Register ILK_CNS_STATUS (R190). -/
def R.ILK_CNS_STATUS : Nat := 0x2c0030
def F.ILK_CNS_STATUS_PRESENT : Fld := ⟨R.ILK_CNS_STATUS, 0, 8⟩
def F.ILK_CNS_STATUS_CHANGED : Fld := ⟨R.ILK_CNS_STATUS, 8, 8⟩

/-- Register ILK_CNS_CMD (R190). -/
def R.ILK_CNS_CMD : Nat := 0x2c0034
def F.ILK_CNS_CMD_PORT : Fld := ⟨R.ILK_CNS_CMD, 0, 3⟩
def F.ILK_CNS_CMD_IDONLY : Fld := ⟨R.ILK_CNS_CMD, 3, 1⟩
def F.ILK_CNS_CMD_ADDR : Fld := ⟨R.ILK_CNS_CMD, 8, 8⟩
def F.ILK_CNS_CMD_LEN : Fld := ⟨R.ILK_CNS_CMD, 16, 8⟩
def F.ILK_CNS_CMD_GO : Fld := ⟨R.ILK_CNS_CMD, 31, 1⟩

/-- Register ILK_CNS_RES (R190). -/
def R.ILK_CNS_RES : Nat := 0x2c0038
def F.ILK_CNS_RES_BUSY : Fld := ⟨R.ILK_CNS_RES, 0, 1⟩
def F.ILK_CNS_RES_STATUS : Fld := ⟨R.ILK_CNS_RES, 1, 3⟩
def F.ILK_CNS_RES_PORT : Fld := ⟨R.ILK_CNS_RES, 4, 3⟩

/-- Register ILK_CNS_TID_LO (R190). -/
def R.ILK_CNS_TID_LO : Nat := 0x2c0040
def F.ILK_CNS_TID_LO_TID : Fld := ⟨R.ILK_CNS_TID_LO, 0, 32⟩

/-- Register ILK_CNS_TID_HI (R190). -/
def R.ILK_CNS_TID_HI : Nat := 0x2c0044
def F.ILK_CNS_TID_HI_TID : Fld := ⟨R.ILK_CNS_TID_HI, 0, 32⟩

/-- Register ILK_CNS_BUF (R190). -/
def R.ILK_CNS_BUF (i : Nat) : Nat := 0x2c0100 + 0x4 * i
def F.ILK_CNS_BUF_DATA (i : Nat) : Fld := ⟨(R.ILK_CNS_BUF i), 0, 32⟩

/-- Register ATRe_CTRL (R224). -/
def R.ATR_CTRL (u : Nat) : Nat := 0x300000 + 0x10000 * u
def F.ATR_CTRL_ONLINE (u : Nat) : Fld := ⟨(R.ATR_CTRL u), 0, 1⟩
def F.ATR_CTRL_TEST (u : Nat) : Fld := ⟨(R.ATR_CTRL u), 1, 1⟩

/-- Register ATRe_STATUS (R224). -/
def R.ATR_STATUS (u : Nat) : Nat := 0x300004 + 0x10000 * u
def F.ATR_STATUS_BUSY (u : Nat) : Fld := ⟨(R.ATR_STATUS u), 0, 1⟩
def F.ATR_STATUS_BAND (u : Nat) : Fld := ⟨(R.ATR_STATUS u), 1, 1⟩
def F.ATR_STATUS_CPL_HOLD (u : Nat) : Fld := ⟨(R.ATR_STATUS u), 2, 1⟩
def F.ATR_STATUS_TEST_DONE (u : Nat) : Fld := ⟨(R.ATR_STATUS u), 3, 1⟩
def F.ATR_STATUS_TEST_PASS (u : Nat) : Fld := ⟨(R.ATR_STATUS u), 4, 1⟩
def F.ATR_STATUS_TEST_FAIL (u : Nat) : Fld := ⟨(R.ATR_STATUS u), 5, 1⟩
def F.ATR_STATUS_OFF_REFUSED (u : Nat) : Fld := ⟨(R.ATR_STATUS u), 6, 1⟩
def F.ATR_STATUS_ON_REFUSED (u : Nat) : Fld := ⟨(R.ATR_STATUS u), 7, 1⟩
def F.ATR_STATUS_Q_ERR (u : Nat) : Fld := ⟨(R.ATR_STATUS u), 8, 1⟩
def F.ATR_STATUS_FILL_ERR (u : Nat) : Fld := ⟨(R.ATR_STATUS u), 9, 1⟩

/-- Register ATRe_SQ (R224). -/
def R.ATR_SQ (u : Nat) : Nat := 0x300008 + 0x10000 * u
def F.ATR_SQ_HANDLE (u : Nat) : Fld := ⟨(R.ATR_SQ u), 0, 32⟩

/-- Register ATRe_CQ (R224). -/
def R.ATR_CQ (u : Nat) : Nat := 0x30000c + 0x10000 * u
def F.ATR_CQ_HANDLE (u : Nat) : Fld := ⟨(R.ATR_CQ u), 0, 32⟩

/-- Register ATRe_OUTB_LO (R224). -/
def R.ATR_OUTB_LO (u : Nat) : Nat := 0x300010 + 0x10000 * u
def F.ATR_OUTB_LO_OUTB (u : Nat) : Fld := ⟨(R.ATR_OUTB_LO u), 0, 32⟩

/-- Register ATRe_OUTB_HI (R224). -/
def R.ATR_OUTB_HI (u : Nat) : Nat := 0x300014 + 0x10000 * u
def F.ATR_OUTB_HI_OUTB (u : Nat) : Fld := ⟨(R.ATR_OUTB_HI u), 0, 32⟩

/-- Register ATRe_CNT (R224). -/
def R.ATR_CNT (u : Nat) : Nat := 0x300018 + 0x10000 * u
def F.ATR_CNT_JOBS (u : Nat) : Fld := ⟨(R.ATR_CNT u), 0, 16⟩
def F.ATR_CNT_ERRS (u : Nat) : Fld := ⟨(R.ATR_CNT u), 16, 16⟩

/-- Register ATRe_LAST (R224). -/
def R.ATR_LAST (u : Nat) : Nat := 0x30001c + 0x10000 * u
def F.ATR_LAST_STATUS (u : Nat) : Fld := ⟨(R.ATR_LAST u), 0, 4⟩

/-- Register ATR_RESV (R224). -/
def R.ATR_RESV (u : Nat) : Nat := 0x300100 + 0x10000 * u
def F.ATR_RESV_RESV (u : Nat) : Fld := ⟨(R.ATR_RESV u), 0, 16⟩
def F.ATR_RESV_CAP (u : Nat) : Fld := ⟨(R.ATR_RESV u), 16, 16⟩

/-- Register MEM_CFG (R246). -/
def R.MEM_CFG : Nat := 0x60000
def F.MEM_CFG_RATE : Fld := ⟨R.MEM_CFG, 0, 2⟩
def F.MEM_CFG_DENS : Fld := ⟨R.MEM_CFG, 2, 2⟩
def F.MEM_CFG_SIZE : Fld := ⟨R.MEM_CFG, 8, 8⟩

/-- Register MEM_STATUS (R246). -/
def R.MEM_STATUS : Nat := 0x60004
def F.MEM_STATUS_TRAIN_OK : Fld := ⟨R.MEM_STATUS, 0, 4⟩
def F.MEM_STATUS_FILL_BUSY : Fld := ⟨R.MEM_STATUS, 4, 1⟩
def F.MEM_STATUS_INIT_DONE : Fld := ⟨R.MEM_STATUS, 5, 1⟩
def F.MEM_STATUS_RATE_TRIP : Fld := ⟨R.MEM_STATUS, 6, 1⟩

/-- Register MEM_CE_CNT (R246). -/
def R.MEM_CE_CNT (i : Nat) : Nat := 0x60010 + 0x4 * i
def F.MEM_CE_CNT_ONE (i : Nat) : Fld := ⟨(R.MEM_CE_CNT i), 0, 16⟩
def F.MEM_CE_CNT_TWO (i : Nat) : Fld := ⟨(R.MEM_CE_CNT i), 16, 16⟩

/-- Register MEM_CE_RATE (R246). -/
def R.MEM_CE_RATE : Nat := 0x60020
def F.MEM_CE_RATE_CE_WIN : Fld := ⟨R.MEM_CE_RATE, 0, 11⟩
def F.MEM_CE_RATE_CE_THR : Fld := ⟨R.MEM_CE_RATE, 16, 16⟩

/-- Register MEM_UE_ADDR_LO (R246). -/
def R.MEM_UE_ADDR_LO : Nat := 0x60030
def F.MEM_UE_ADDR_LO_ADDR : Fld := ⟨R.MEM_UE_ADDR_LO, 3, 29⟩

/-- Register MEM_UE_ADDR_HI (R246). -/
def R.MEM_UE_ADDR_HI : Nat := 0x60034
def F.MEM_UE_ADDR_HI_ADDR : Fld := ⟨R.MEM_UE_ADDR_HI, 0, 8⟩

/-- Register MEM_UE_INFO (R246). -/
def R.MEM_UE_INFO : Nat := 0x60038
def F.MEM_UE_INFO_REQ : Fld := ⟨R.MEM_UE_INFO, 0, 4⟩
def F.MEM_UE_INFO_CH : Fld := ⟨R.MEM_UE_INFO, 4, 2⟩
def F.MEM_UE_INFO_VALID : Fld := ⟨R.MEM_UE_INFO, 6, 1⟩
def F.MEM_UE_INFO_COUNT : Fld := ⟨R.MEM_UE_INFO, 16, 16⟩

/-- Register MEM_SCRUB (R246). -/
def R.MEM_SCRUB : Nat := 0x60040
def F.MEM_SCRUB_SCRUB_PERIOD : Fld := ⟨R.MEM_SCRUB, 0, 8⟩
def F.MEM_SCRUB_PASSES : Fld := ⟨R.MEM_SCRUB, 16, 16⟩

/-- Register MEM_SCRUB_POS_LO (R246). -/
def R.MEM_SCRUB_POS_LO : Nat := 0x60044
def F.MEM_SCRUB_POS_LO_POS : Fld := ⟨R.MEM_SCRUB_POS_LO, 6, 26⟩

/-- Register MEM_SCRUB_POS_HI (R246). -/
def R.MEM_SCRUB_POS_HI : Nat := 0x60048
def F.MEM_SCRUB_POS_HI_POS : Fld := ⟨R.MEM_SCRUB_POS_HI, 0, 8⟩

/-- Register MEM_INJ_ADDR_LO (R246). -/
def R.MEM_INJ_ADDR_LO : Nat := 0x60050
def F.MEM_INJ_ADDR_LO_ADDR : Fld := ⟨R.MEM_INJ_ADDR_LO, 3, 29⟩

/-- Register MEM_INJ_ADDR_HI (R246). -/
def R.MEM_INJ_ADDR_HI : Nat := 0x60054
def F.MEM_INJ_ADDR_HI_ADDR : Fld := ⟨R.MEM_INJ_ADDR_HI, 0, 8⟩

/-- Register MEM_INJ_CTRL (R246). -/
def R.MEM_INJ_CTRL : Nat := 0x60058
def F.MEM_INJ_CTRL_NBITS : Fld := ⟨R.MEM_INJ_CTRL, 0, 2⟩
def F.MEM_INJ_CTRL_ARM : Fld := ⟨R.MEM_INJ_CTRL, 2, 1⟩

/-- Register MEM_LOCK (R246). -/
def R.MEM_LOCK : Nat := 0x6007c
def F.MEM_LOCK_LOCK : Fld := ⟨R.MEM_LOCK, 0, 1⟩

/-- Register DMAn_HEAD_LO (R247). -/
def R.DMA_HEAD_LO (i : Nat) : Nat := 0x71000 + 0x20 * i
def F.DMA_HEAD_LO_HEAD (i : Nat) : Fld := ⟨(R.DMA_HEAD_LO i), 0, 32⟩

/-- Register DMAn_HEAD_HI (R247). -/
def R.DMA_HEAD_HI (i : Nat) : Nat := 0x71004 + 0x20 * i
def F.DMA_HEAD_HI_HEAD (i : Nat) : Fld := ⟨(R.DMA_HEAD_HI i), 0, 8⟩

/-- Register DMAn_CTRL (R247). -/
def R.DMA_CTRL (i : Nat) : Nat := 0x71008 + 0x20 * i
def F.DMA_CTRL_GO (i : Nat) : Fld := ⟨(R.DMA_CTRL i), 0, 1⟩
def F.DMA_CTRL_DISABLE (i : Nat) : Fld := ⟨(R.DMA_CTRL i), 1, 1⟩

/-- Register DMAn_STATUS (R247). -/
def R.DMA_STATUS (i : Nat) : Nat := 0x7100c + 0x20 * i
def F.DMA_STATUS_STATE (i : Nat) : Fld := ⟨(R.DMA_STATUS i), 0, 3⟩
def F.DMA_STATUS_CODE (i : Nat) : Fld := ⟨(R.DMA_STATUS i), 4, 4⟩
def F.DMA_STATUS_CMD_REJ (i : Nat) : Fld := ⟨(R.DMA_STATUS i), 8, 1⟩

/-- Register DMAn_DONE (R247). -/
def R.DMA_DONE (i : Nat) : Nat := 0x71010 + 0x20 * i
def F.DMA_DONE_DONE (i : Nat) : Fld := ⟨(R.DMA_DONE i), 0, 32⟩

/-- Register DMAn_CUR_LO (R247). -/
def R.DMA_CUR_LO (i : Nat) : Nat := 0x71014 + 0x20 * i
def F.DMA_CUR_LO_CUR (i : Nat) : Fld := ⟨(R.DMA_CUR_LO i), 0, 32⟩

/-- Register DMAn_CUR_HI (R247). -/
def R.DMA_CUR_HI (i : Nat) : Nat := 0x71018 + 0x20 * i
def F.DMA_CUR_HI_CUR (i : Nat) : Fld := ⟨(R.DMA_CUR_HI i), 0, 8⟩

/-- Register DMAn_MISM (R247). -/
def R.DMA_MISM (i : Nat) : Nat := 0x7101c + 0x20 * i
def F.DMA_MISM_MISM (i : Nat) : Fld := ⟨(R.DMA_MISM i), 0, 32⟩

/-- Register TAL_PORTp_CTRL (R278). -/
def R.TAL_PORT_CTRL (i : Nat) : Nat := 0x380000 + 0x20 * i
def F.TAL_PORT_CTRL_EN (i : Nat) : Fld := ⟨(R.TAL_PORT_CTRL i), 0, 1⟩
def F.TAL_PORT_CTRL_GEN (i : Nat) : Fld := ⟨(R.TAL_PORT_CTRL i), 1, 2⟩
def F.TAL_PORT_CTRL_MAXW (i : Nat) : Fld := ⟨(R.TAL_PORT_CTRL i), 3, 2⟩
def F.TAL_PORT_CTRL_RETRAIN (i : Nat) : Fld := ⟨(R.TAL_PORT_CTRL i), 5, 1⟩

/-- Register TAL_PORTp_STATUS (R278). -/
def R.TAL_PORT_STATUS (i : Nat) : Nat := 0x380004 + 0x20 * i
def F.TAL_PORT_STATUS_STATE (i : Nat) : Fld := ⟨(R.TAL_PORT_STATUS i), 0, 3⟩
def F.TAL_PORT_STATUS_UP (i : Nat) : Fld := ⟨(R.TAL_PORT_STATUS i), 3, 1⟩
def F.TAL_PORT_STATUS_GENUP (i : Nat) : Fld := ⟨(R.TAL_PORT_STATUS i), 4, 2⟩
def F.TAL_PORT_STATUS_WIDTH (i : Nat) : Fld := ⟨(R.TAL_PORT_STATUS i), 6, 2⟩
def F.TAL_PORT_STATUS_NARROW (i : Nat) : Fld := ⟨(R.TAL_PORT_STATUS i), 8, 1⟩
def F.TAL_PORT_STATUS_FAILSTEP (i : Nat) : Fld := ⟨(R.TAL_PORT_STATUS i), 9, 3⟩
def F.TAL_PORT_STATUS_LOST (i : Nat) : Fld := ⟨(R.TAL_PORT_STATUS i), 12, 1⟩
def F.TAL_PORT_STATUS_PROTO (i : Nat) : Fld := ⟨(R.TAL_PORT_STATUS i), 13, 1⟩
def F.TAL_PORT_STATUS_DUP (i : Nat) : Fld := ⟨(R.TAL_PORT_STATUS i), 14, 1⟩

/-- Register TAL_PORTp_CNT (R278). -/
def R.TAL_PORT_CNT (i : Nat) : Nat := 0x380008 + 0x20 * i
def F.TAL_PORT_CNT_CRCERR (i : Nat) : Fld := ⟨(R.TAL_PORT_CNT i), 0, 12⟩
def F.TAL_PORT_CNT_REPLAY (i : Nat) : Fld := ⟨(R.TAL_PORT_CNT i), 12, 12⟩
def F.TAL_PORT_CNT_RETRAINS (i : Nat) : Fld := ⟨(R.TAL_PORT_CNT i), 24, 8⟩

/-- Register TAL_PORTp_DROP (R278). -/
def R.TAL_PORT_DROP (i : Nat) : Nat := 0x38000c + 0x20 * i
def F.TAL_PORT_DROP_UNREACH (i : Nat) : Fld := ⟨(R.TAL_PORT_DROP i), 0, 16⟩
def F.TAL_PORT_DROP_FAILED (i : Nat) : Fld := ⟨(R.TAL_PORT_DROP i), 16, 16⟩

/-- Register TAL_DEVNUM (R278). -/
def R.TAL_DEVNUM : Nat := 0x380040
def F.TAL_DEVNUM_DEV : Fld := ⟨R.TAL_DEVNUM, 0, 6⟩

/-- Register TAL_EVT_TX (R278). -/
def R.TAL_EVT_TX : Nat := 0x380044
def F.TAL_EVT_TX_CODE : Fld := ⟨R.TAL_EVT_TX, 0, 16⟩

/-- Register TAL_EVT_ARG (R278). -/
def R.TAL_EVT_ARG : Nat := 0x380048
def F.TAL_EVT_ARG_ARG : Fld := ⟨R.TAL_EVT_ARG, 0, 32⟩

/-- Register TAL_STATUS (R278). -/
def R.TAL_STATUS : Nat := 0x38004c
def F.TAL_STATUS_CMD_REJ : Fld := ⟨R.TAL_STATUS, 0, 1⟩

/-- Register TAL_T1_CFG (R278). -/
def R.TAL_T1_CFG : Nat := 0x380080
def F.TAL_T1_CFG_WORDS : Fld := ⟨R.TAL_T1_CFG, 0, 13⟩
def F.TAL_T1_CFG_EN : Fld := ⟨R.TAL_T1_CFG, 16, 1⟩

/-- Register TAL_T1_BUF_LO (R278). -/
def R.TAL_T1_BUF_LO : Nat := 0x380084
def F.TAL_T1_BUF_LO_BASE : Fld := ⟨R.TAL_T1_BUF_LO, 0, 32⟩

/-- Register TAL_T1_BUF_HI (R278). -/
def R.TAL_T1_BUF_HI : Nat := 0x380088
def F.TAL_T1_BUF_HI_BASE : Fld := ⟨R.TAL_T1_BUF_HI, 0, 8⟩

/-- Register TAL_T1_SLOTS (R278). -/
def R.TAL_T1_SLOTS : Nat := 0x38008c
def F.TAL_T1_SLOTS_SLOTS : Fld := ⟨R.TAL_T1_SLOTS, 0, 16⟩

/-- Register TAL_T1_RING (R278). -/
def R.TAL_T1_RING : Nat := 0x380090
def F.TAL_T1_RING_RING : Fld := ⟨R.TAL_T1_RING, 0, 32⟩

/-- Register TAL_T1_REL (R278). -/
def R.TAL_T1_REL : Nat := 0x380094
def F.TAL_T1_REL_REL : Fld := ⟨R.TAL_T1_REL, 0, 16⟩

/-- Register TAL_T1_STATUS (R278). -/
def R.TAL_T1_STATUS : Nat := 0x380098
def F.TAL_T1_STATUS_RDY : Fld := ⟨R.TAL_T1_STATUS, 0, 1⟩
def F.TAL_T1_STATUS_OVR : Fld := ⟨R.TAL_T1_STATUS, 1, 1⟩
def F.TAL_T1_STATUS_SHORT : Fld := ⟨R.TAL_T1_STATUS, 2, 1⟩
def F.TAL_T1_STATUS_DROPS : Fld := ⟨R.TAL_T1_STATUS, 16, 16⟩

/-- Register TAL_LOCK (R278). -/
def R.TAL_LOCK : Nat := 0x3800fc
def F.TAL_LOCK_LOCK : Fld := ⟨R.TAL_LOCK, 0, 1⟩

/-- Register STQ_STATUS (R279). -/
def R.STQ_STATUS : Nat := 0x390000
def F.STQ_STATUS_NVOL : Fld := ⟨R.STQ_STATUS, 0, 4⟩
def F.STQ_STATUS_SLOTFULL : Fld := ⟨R.STQ_STATUS, 4, 1⟩
def F.STQ_STATUS_LOCKFULL : Fld := ⟨R.STQ_STATUS, 5, 1⟩

/-- Register STQ_WBUF_LO (R279). -/
def R.STQ_WBUF_LO : Nat := 0x390008
def F.STQ_WBUF_LO_VALUE : Fld := ⟨R.STQ_WBUF_LO, 0, 32⟩

/-- Register STQ_WBUF_HI (R279). -/
def R.STQ_WBUF_HI : Nat := 0x39000c
def F.STQ_WBUF_HI_VALUE : Fld := ⟨R.STQ_WBUF_HI, 0, 8⟩

/-- Register STQ_WBUF_SIZE (R279). -/
def R.STQ_WBUF_SIZE : Nat := 0x390010
def F.STQ_WBUF_SIZE_VALUE : Fld := ⟨R.STQ_WBUF_SIZE, 0, 32⟩

/-- Register STQ_TR (R279). -/
def R.STQ_TR : Nat := 0x390014
def F.STQ_TR_TR_MAX : Fld := ⟨R.STQ_TR, 0, 9⟩
def F.STQ_TR_TR_TMO : Fld := ⟨R.STQ_TR, 16, 10⟩

/-- Register STQ_VOLCMD (R279). -/
def R.STQ_VOLCMD : Nat := 0x390020
def F.STQ_VOLCMD_VOL : Fld := ⟨R.STQ_VOLCMD, 0, 3⟩
def F.STQ_VOLCMD_LOAD : Fld := ⟨R.STQ_VOLCMD, 4, 1⟩
def F.STQ_VOLCMD_UNLOAD : Fld := ⟨R.STQ_VOLCMD, 5, 1⟩

/-- Register STQ_VOLSTAT (R279). -/
def R.STQ_VOLSTAT : Nat := 0x390024
def F.STQ_VOLSTAT_DONE : Fld := ⟨R.STQ_VOLSTAT, 0, 1⟩
def F.STQ_VOLSTAT_REFUSED : Fld := ⟨R.STQ_VOLSTAT, 1, 1⟩
def F.STQ_VOLSTAT_REASON : Fld := ⟨R.STQ_VOLSTAT, 4, 3⟩

/-- Register STQ_USE (R279). -/
def R.STQ_USE : Nat := 0x390030
def F.STQ_USE_LOCKS : Fld := ⟨R.STQ_USE, 0, 9⟩
def F.STQ_USE_CMDS : Fld := ⟨R.STQ_USE, 16, 11⟩

/-- Register STQ_VOLv_CFG (R279). -/
def R.STQ_VOL_CFG (i : Nat) : Nat := 0x390100 + 0x10 * i
def F.STQ_VOL_CFG_DCH (i : Nat) : Fld := ⟨(R.STQ_VOL_CFG i), 0, 8⟩
def F.STQ_VOL_CFG_SU (i : Nat) : Fld := ⟨(R.STQ_VOL_CFG i), 8, 4⟩
def F.STQ_VOL_CFG_LOADED (i : Nat) : Fld := ⟨(R.STQ_VOL_CFG i), 12, 1⟩
def F.STQ_VOL_CFG_OFFLINE (i : Nat) : Fld := ⟨(R.STQ_VOL_CFG i), 13, 1⟩

/-- Register STQ_VOLv_CAP_LO (R279). -/
def R.STQ_VOL_CAP_LO (i : Nat) : Nat := 0x390104 + 0x10 * i
def F.STQ_VOL_CAP_LO_CAP (i : Nat) : Fld := ⟨(R.STQ_VOL_CAP_LO i), 0, 32⟩

/-- Register STQ_VOLv_CAP_HI (R279). -/
def R.STQ_VOL_CAP_HI (i : Nat) : Nat := 0x390108 + 0x10 * i
def F.STQ_VOL_CAP_HI_CAP (i : Nat) : Fld := ⟨(R.STQ_VOL_CAP_HI i), 0, 16⟩

/-- Register STQ_LOCK (R279). -/
def R.STQ_LOCK : Nat := 0x39007c
def F.STQ_LOCK_LOCK : Fld := ⟨R.STQ_LOCK, 0, 1⟩

/-- Register DSKd_CTRL (R308). -/
def R.DSK_CTRL (u : Nat) : Nat := 0x400000 + 0x10000 * u
def F.DSK_CTRL_EN (u : Nat) : Fld := ⟨(R.DSK_CTRL u), 0, 1⟩
def F.DSK_CTRL_APPLY (u : Nat) : Fld := ⟨(R.DSK_CTRL u), 1, 1⟩
def F.DSK_CTRL_RELEASE (u : Nat) : Fld := ⟨(R.DSK_CTRL u), 2, 1⟩
def F.DSK_CTRL_ADAPT (u : Nat) : Fld := ⟨(R.DSK_CTRL u), 3, 1⟩

/-- Register DSKd_STATUS (R308). -/
def R.DSK_STATUS (u : Nat) : Nat := 0x400004 + 0x10000 * u
def F.DSK_STATUS_READY (u : Nat) : Fld := ⟨(R.DSK_STATUS u), 0, 1⟩
def F.DSK_STATUS_OFFLINE (u : Nat) : Fld := ⟨(R.DSK_STATUS u), 1, 1⟩
def F.DSK_STATUS_CFG_ERR (u : Nat) : Fld := ⟨(R.DSK_STATUS u), 2, 1⟩
def F.DSK_STATUS_Q_ERR (u : Nat) : Fld := ⟨(R.DSK_STATUS u), 3, 1⟩
def F.DSK_STATUS_TORN_FULL (u : Nat) : Fld := ⟨(R.DSK_STATUS u), 4, 1⟩
def F.DSK_STATUS_REPLACE (u : Nat) : Fld := ⟨(R.DSK_STATUS u), 5, 1⟩

/-- Register DSKd_SQ (R308). -/
def R.DSK_SQ (u : Nat) : Nat := 0x400008 + 0x10000 * u
def F.DSK_SQ_HANDLE (u : Nat) : Fld := ⟨(R.DSK_SQ u), 0, 32⟩

/-- Register DSKd_CQ (R308). -/
def R.DSK_CQ (u : Nat) : Nat := 0x40000c + 0x10000 * u
def F.DSK_CQ_HANDLE (u : Nat) : Fld := ⟨(R.DSK_CQ u), 0, 32⟩

/-- Register DSKd_GEOM (R308). -/
def R.DSK_GEOM (u : Nat) : Nat := 0x400010 + 0x10000 * u
def F.DSK_GEOM_HEADS (u : Nat) : Fld := ⟨(R.DSK_GEOM u), 0, 8⟩
def F.DSK_GEOM_ZONES (u : Nat) : Fld := ⟨(R.DSK_GEOM u), 8, 6⟩
def F.DSK_GEOM_SPARE_CYL (u : Nat) : Fld := ⟨(R.DSK_GEOM u), 16, 16⟩

/-- Register DSKd_CYLS (R308). -/
def R.DSK_CYLS (u : Nat) : Nat := 0x400014 + 0x10000 * u
def F.DSK_CYLS_CYLS (u : Nat) : Fld := ⟨(R.DSK_CYLS u), 0, 20⟩

/-- Register DSKd_CAP_LO (R308). -/
def R.DSK_CAP_LO (u : Nat) : Nat := 0x400018 + 0x10000 * u
def F.DSK_CAP_LO_CAP (u : Nat) : Fld := ⟨(R.DSK_CAP_LO u), 0, 32⟩

/-- Register DSKd_CAP_HI (R308). -/
def R.DSK_CAP_HI (u : Nat) : Nat := 0x40001c + 0x10000 * u
def F.DSK_CAP_HI_CAP (u : Nat) : Fld := ⟨(R.DSK_CAP_HI u), 0, 16⟩

/-- Register DSKd_RESV (R308). -/
def R.DSK_RESV (u : Nat) : Nat := 0x400020 + 0x10000 * u
def F.DSK_RESV_RES_REV (u : Nat) : Fld := ⟨(R.DSK_RESV u), 0, 4⟩
def F.DSK_RESV_MIR_US (u : Nat) : Fld := ⟨(R.DSK_RESV u), 16, 16⟩

/-- Register DSKd_LADDER (R308). -/
def R.DSK_LADDER (u : Nat) : Nat := 0x400024 + 0x10000 * u
def F.DSK_LADDER_SKIP (u : Nat) : Fld := ⟨(R.DSK_LADDER u), 0, 8⟩

/-- Register DSKd_ITER (R308). -/
def R.DSK_ITER (u : Nat) : Nat := 0x400028 + 0x10000 * u
def F.DSK_ITER_GI_NORM (u : Nat) : Fld := ⟨(R.DSK_ITER u), 0, 3⟩
def F.DSK_ITER_LI_NORM (u : Nat) : Fld := ⟨(R.DSK_ITER u), 4, 4⟩
def F.DSK_ITER_GI_RETRY (u : Nat) : Fld := ⟨(R.DSK_ITER u), 8, 3⟩
def F.DSK_ITER_LI_RETRY (u : Nat) : Fld := ⟨(R.DSK_ITER u), 16, 6⟩

/-- Register DSKd_SYNC (R308). -/
def R.DSK_SYNC (u : Nat) : Nat := 0x40002c + 0x10000 * u
def F.DSK_SYNC_SYNC_TOL (u : Nat) : Fld := ⟨(R.DSK_SYNC u), 0, 4⟩
def F.DSK_SYNC_ERA_THR (u : Nat) : Fld := ⟨(R.DSK_SYNC u), 8, 7⟩

/-- Register DSKd_TARGET (R308). -/
def R.DSK_TARGET (u : Nat) : Nat := 0x400030 + 0x10000 * u
def F.DSK_TARGET_G (u : Nat) : Fld := ⟨(R.DSK_TARGET u), 0, 24⟩

/-- Register DSKd_REMAPCNT (R308). -/
def R.DSK_REMAPCNT (u : Nat) : Nat := 0x400040 + 0x10000 * u
def F.DSK_REMAPCNT_REMAPS (u : Nat) : Fld := ⟨(R.DSK_REMAPCNT u), 0, 13⟩
def F.DSK_REMAPCNT_REMAP_THR (u : Nat) : Fld := ⟨(R.DSK_REMAPCNT u), 16, 13⟩

/-- Register DSKd_TORN (R308). -/
def R.DSK_TORN (u : Nat) : Nat := 0x400044 + 0x10000 * u
def F.DSK_TORN_ENTRIES (u : Nat) : Fld := ⟨(R.DSK_TORN u), 0, 6⟩

/-- Register DSKd_RDOK (R308). -/
def R.DSK_RDOK (u : Nat) : Nat := 0x400050 + 0x10000 * u
def F.DSK_RDOK_COUNT (u : Nat) : Fld := ⟨(R.DSK_RDOK u), 0, 32⟩

/-- Register DSKd_RDRETRY (R308). -/
def R.DSK_RDRETRY (u : Nat) : Nat := 0x400054 + 0x10000 * u
def F.DSK_RDRETRY_COUNT (u : Nat) : Fld := ⟨(R.DSK_RDRETRY u), 0, 32⟩

/-- Register DSKd_RDFAIL (R308). -/
def R.DSK_RDFAIL (u : Nat) : Nat := 0x400058 + 0x10000 * u
def F.DSK_RDFAIL_COUNT (u : Nat) : Fld := ⟨(R.DSK_RDFAIL u), 0, 32⟩

/-- Register DSKd_WRCNT (R308). -/
def R.DSK_WRCNT (u : Nat) : Nat := 0x400060 + 0x10000 * u
def F.DSK_WRCNT_COUNT (u : Nat) : Fld := ⟨(R.DSK_WRCNT u), 0, 32⟩

/-- Register DSKd_SYNCCNT (R308). -/
def R.DSK_SYNCCNT (u : Nat) : Nat := 0x40005c + 0x10000 * u
def F.DSK_SYNCCNT_TIMED (u : Nat) : Fld := ⟨(R.DSK_SYNCCNT u), 0, 16⟩
def F.DSK_SYNCCNT_RESYNC (u : Nat) : Fld := ⟨(R.DSK_SYNCCNT u), 16, 16⟩

/-- Register DSKd_CUTS (R308). -/
def R.DSK_CUTS (u : Nat) : Nat := 0x400064 + 0x10000 * u
def F.DSK_CUTS_CUTS (u : Nat) : Fld := ⟨(R.DSK_CUTS u), 0, 16⟩

/-- Register DSKd_RPM (R308). -/
def R.DSK_RPM (u : Nat) : Nat := 0x400068 + 0x10000 * u
def F.DSK_RPM_RPM_MAX (u : Nat) : Fld := ⟨(R.DSK_RPM u), 0, 16⟩
def F.DSK_RPM_RPM_MIN (u : Nat) : Fld := ⟨(R.DSK_RPM u), 16, 16⟩

/-- Register DSKd_STEPCNT (R308). -/
def R.DSK_STEPCNT (u i : Nat) : Nat := 0x400080 + 0x10000 * u + 0x4 * i
def F.DSK_STEPCNT_RECOVERED (u i : Nat) : Fld := ⟨(R.DSK_STEPCNT u i), 0, 16⟩

/-- Register DSKd_EQ (R308). -/
def R.DSK_EQ (u i : Nat) : Nat := 0x400100 + 0x10000 * u + 0x4 * i
def F.DSK_EQ_VALUE (u i : Nat) : Fld := ⟨(R.DSK_EQ u i), 0, 32⟩

/-- Register DSKd_ZONE (R308). -/
def R.DSK_ZONE (u i : Nat) : Nat := 0x400200 + 0x10000 * u + 0x4 * i
def F.DSK_ZONE_VALUE (u i : Nat) : Fld := ⟨(R.DSK_ZONE u i), 0, 32⟩

/-- Register DSKd_REMAP (R308). -/
def R.DSK_REMAP (u i : Nat) : Nat := 0x408000 + 0x10000 * u + 0x4 * i
def F.DSK_REMAP_ENTRY (u i : Nat) : Fld := ⟨(R.DSK_REMAP u i), 0, 32⟩

/-- Register DSKd_LOCK (R308). -/
def R.DSK_LOCK (u : Nat) : Nat := 0x4000fc + 0x10000 * u
def F.DSK_LOCK_LOCK (u : Nat) : Fld := ⟨(R.DSK_LOCK u), 0, 1⟩

/-- Register SRVh_SPIN (R334). -/
def R.SRV_SPIN (u : Nat) : Nat := 0x480000 + 0x10000 * u
def F.SRV_SPIN_LPR (u : Nat) : Fld := ⟨(R.SRV_SPIN u), 0, 13⟩
def F.SRV_SPIN_LSTN (u : Nat) : Fld := ⟨(R.SRV_SPIN u), 13, 2⟩
def F.SRV_SPIN_RLOCK_EN (u : Nat) : Fld := ⟨(R.SRV_SPIN u), 15, 1⟩
def F.SRV_SPIN_PH_TOL (u : Nat) : Fld := ⟨(R.SRV_SPIN u), 16, 8⟩

/-- Register SRVh_ANCHOR_LO (R334). -/
def R.SRV_ANCHOR_LO (u : Nat) : Nat := 0x480004 + 0x10000 * u
def F.SRV_ANCHOR_LO_LINE (u : Nat) : Fld := ⟨(R.SRV_ANCHOR_LO u), 0, 32⟩

/-- Register SRVh_ANCHOR_HI (R334). -/
def R.SRV_ANCHOR_HI (u : Nat) : Nat := 0x480008 + 0x10000 * u
def F.SRV_ANCHOR_HI_LINE (u : Nat) : Fld := ⟨(R.SRV_ANCHOR_HI u), 0, 8⟩

/-- Register SRVh_SPSTAT (R334). -/
def R.SRV_SPSTAT (u : Nat) : Nat := 0x48000c + 0x10000 * u
def F.SRV_SPSTAT_RLOCK (u : Nat) : Fld := ⟨(R.SRV_SPSTAT u), 0, 1⟩
def F.SRV_SPSTAT_RANGE_ERR (u : Nat) : Fld := ⟨(R.SRV_SPSTAT u), 1, 1⟩
def F.SRV_SPSTAT_PRES (u : Nat) : Fld := ⟨(R.SRV_SPSTAT u), 2, 1⟩
def F.SRV_SPSTAT_PORT_PARKED (u : Nat) : Fld := ⟨(R.SRV_SPSTAT u), 3, 1⟩
def F.SRV_SPSTAT_CFG_BUSY (u : Nat) : Fld := ⟨(R.SRV_SPSTAT u), 4, 1⟩
def F.SRV_SPSTAT_CFG_ERR (u : Nat) : Fld := ⟨(R.SRV_SPSTAT u), 5, 1⟩
def F.SRV_SPSTAT_CMD_REJ (u : Nat) : Fld := ⟨(R.SRV_SPSTAT u), 6, 1⟩
def F.SRV_SPSTAT_REMOVED (u : Nat) : Fld := ⟨(R.SRV_SPSTAT u), 7, 1⟩

/-- Register SRVh_SLOT (R334). -/
def R.SRV_SLOT (u : Nat) : Nat := 0x480010 + 0x10000 * u
def F.SRV_SLOT_SLOT (u : Nat) : Fld := ⟨(R.SRV_SLOT u), 0, 32⟩

/-- Register SRVh_PHERR (R334). -/
def R.SRV_PHERR (u : Nat) : Nat := 0x480014 + 0x10000 * u
def F.SRV_PHERR_PHERR (u : Nat) : Fld := ⟨(R.SRV_PHERR u), 0, 16⟩

/-- Register SRVh_CTRL (R334). -/
def R.SRV_CTRL (u : Nat) : Nat := 0x480018 + 0x10000 * u
def F.SRV_CTRL_PARK (u : Nat) : Fld := ⟨(R.SRV_CTRL u), 0, 2⟩
def F.SRV_CTRL_UNPARK (u : Nat) : Fld := ⟨(R.SRV_CTRL u), 2, 2⟩

/-- Register SRVh_PARKCFG (R334). -/
def R.SRV_PARKCFG (u : Nat) : Nat := 0x48001c + 0x10000 * u
def F.SRV_PARKCFG_PARK_I (u : Nat) : Fld := ⟨(R.SRV_PARKCFG u), 0, 16⟩
def F.SRV_PARKCFG_PARK_MS (u : Nat) : Fld := ⟨(R.SRV_PARKCFG u), 16, 10⟩

/-- Register SRVh_SHK (R334). -/
def R.SRV_SHK (u : Nat) : Nat := 0x480020 + 0x10000 * u
def F.SRV_SHK_SHK_THR (u : Nat) : Fld := ⟨(R.SRV_SHK u), 0, 15⟩

/-- Register SRVh_TGT (R334). -/
def R.SRV_TGT (u i : Nat) : Nat := 0x480100 + 0x10000 * u + 0x40 * i
def F.SRV_TGT_CYL (u i : Nat) : Fld := ⟨(R.SRV_TGT u i), 0, 20⟩
def F.SRV_TGT_HEAD (u i : Nat) : Fld := ⟨(R.SRV_TGT u i), 20, 4⟩
def F.SRV_TGT_OFFSET (u i : Nat) : Fld := ⟨(R.SRV_TGT u i), 24, 8⟩

/-- Register SRVh_TRK (R334). -/
def R.SRV_TRK (u i : Nat) : Nat := 0x480104 + 0x10000 * u + 0x40 * i
def F.SRV_TRK_CYL (u i : Nat) : Fld := ⟨(R.SRV_TRK u i), 0, 20⟩
def F.SRV_TRK_HEAD (u i : Nat) : Fld := ⟨(R.SRV_TRK u i), 20, 4⟩
def F.SRV_TRK_OFFSET (u i : Nat) : Fld := ⟨(R.SRV_TRK u i), 24, 8⟩

/-- Register SRVh_VCM (R334). -/
def R.SRV_VCM (u i : Nat) : Nat := 0x480108 + 0x10000 * u + 0x40 * i
def F.SRV_VCM_VCM (u i : Nat) : Fld := ⟨(R.SRV_VCM u i), 0, 16⟩

/-- Register SRVh_ACFG (R334). -/
def R.SRV_ACFG (u i : Nat) : Nat := 0x48010c + 0x10000 * u + 0x40 * i
def F.SRV_ACFG_WLIM (u i : Nat) : Fld := ⟨(R.SRV_ACFG u i), 0, 7⟩
def F.SRV_ACFG_VCM_WD (u i : Nat) : Fld := ⟨(R.SRV_ACFG u i), 8, 4⟩

/-- Register SRVh_SMPL (R334). -/
def R.SRV_SMPL (u i : Nat) : Nat := 0x480110 + 0x10000 * u + 0x40 * i
def F.SRV_SMPL_VALUE (u i : Nat) : Fld := ⟨(R.SRV_SMPL u i), 0, 16⟩

/-- Register SRVh_EVG (R334). -/
def R.SRV_EVG (u i : Nat) : Nat := 0x480114 + 0x10000 * u + 0x40 * i
def F.SRV_EVG_VALUE (u i : Nat) : Fld := ⟨(R.SRV_EVG u i), 0, 32⟩

/-- Register SRVh_ASTAT (R334). -/
def R.SRV_ASTAT (u i : Nat) : Nat := 0x480118 + 0x10000 * u + 0x40 * i
def F.SRV_ASTAT_SETTLED (u i : Nat) : Fld := ⟨(R.SRV_ASTAT u i), 0, 1⟩
def F.SRV_ASTAT_PARKED (u i : Nat) : Fld := ⟨(R.SRV_ASTAT u i), 1, 1⟩
def F.SRV_ASTAT_SEL_LOST (u i : Nat) : Fld := ⟨(R.SRV_ASTAT u i), 2, 1⟩
def F.SRV_ASTAT_GUARD (u i : Nat) : Fld := ⟨(R.SRV_ASTAT u i), 3, 1⟩
def F.SRV_ASTAT_OFFCYL (u i : Nat) : Fld := ⟨(R.SRV_ASTAT u i), 4, 1⟩
def F.SRV_ASTAT_EPARK (u i : Nat) : Fld := ⟨(R.SRV_ASTAT u i), 5, 1⟩
def F.SRV_ASTAT_WD (u i : Nat) : Fld := ⟨(R.SRV_ASTAT u i), 6, 1⟩
def F.SRV_ASTAT_CMD_REJ (u i : Nat) : Fld := ⟨(R.SRV_ASTAT u i), 7, 1⟩

/-- Register SRVh_ACNT (R334). -/
def R.SRV_ACNT (u i : Nat) : Nat := 0x48011c + 0x10000 * u + 0x40 * i
def F.SRV_ACNT_BADFR (u i : Nat) : Fld := ⟨(R.SRV_ACNT u i), 0, 16⟩
def F.SRV_ACNT_GUARDS (u i : Nat) : Fld := ⟨(R.SRV_ACNT u i), 16, 16⟩

/-- Register SRVh_RDOFF (R334). -/
def R.SRV_RDOFF (u i : Nat) : Nat := 0x480200 + 0x10000 * u + 0x4 * i
def F.SRV_RDOFF_RDOFF (u i : Nat) : Fld := ⟨(R.SRV_RDOFF u i), 0, 16⟩

/-- Register MOTn_CFG (R335). -/
def R.MOT_CFG (u : Nat) : Nat := 0x500000 + 0x10000 * u
def F.MOT_CFG_PWM_KHZ (u : Nat) : Fld := ⟨(R.MOT_CFG u), 0, 7⟩
def F.MOT_CFG_DT (u : Nat) : Fld := ⟨(R.MOT_CFG u), 8, 8⟩
def F.MOT_CFG_ZBLANK (u : Nat) : Fld := ⟨(R.MOT_CFG u), 16, 6⟩
def F.MOT_CFG_ADV (u : Nat) : Fld := ⟨(R.MOT_CFG u), 24, 6⟩

/-- Register MOTn_ALIGN (R335). -/
def R.MOT_ALIGN (u : Nat) : Nat := 0x500004 + 0x10000 * u
def F.MOT_ALIGN_ALIGN_DUTY (u : Nat) : Fld := ⟨(R.MOT_ALIGN u), 0, 10⟩
def F.MOT_ALIGN_ALIGN_MS (u : Nat) : Fld := ⟨(R.MOT_ALIGN u), 16, 16⟩

/-- Register MOTn_RAMP (R335). -/
def R.MOT_RAMP (u : Nat) : Nat := 0x500008 + 0x10000 * u
def F.MOT_RAMP_START_RPM (u : Nat) : Fld := ⟨(R.MOT_RAMP u), 0, 16⟩
def F.MOT_RAMP_HAND_RPM (u : Nat) : Fld := ⟨(R.MOT_RAMP u), 16, 16⟩

/-- Register MOTn_RAMPT (R335). -/
def R.MOT_RAMPT (u : Nat) : Nat := 0x50000c + 0x10000 * u
def F.MOT_RAMPT_RAMP_MS (u : Nat) : Fld := ⟨(R.MOT_RAMPT u), 0, 16⟩
def F.MOT_RAMPT_RAMP_DUTY (u : Nat) : Fld := ⟨(R.MOT_RAMPT u), 16, 10⟩
def F.MOT_RAMPT_HANDN (u : Nat) : Fld := ⟨(R.MOT_RAMPT u), 26, 6⟩

/-- Register MOTn_LOOP (R335). -/
def R.MOT_LOOP (u : Nat) : Nat := 0x500010 + 0x10000 * u
def F.MOT_LOOP_KP (u : Nat) : Fld := ⟨(R.MOT_LOOP u), 0, 16⟩
def F.MOT_LOOP_KI (u : Nat) : Fld := ⟨(R.MOT_LOOP u), 16, 16⟩

/-- Register MOTn_VLIM (R335). -/
def R.MOT_VLIM (u : Nat) : Nat := 0x500014 + 0x10000 * u
def F.MOT_VLIM_VLIM (u : Nat) : Fld := ⟨(R.MOT_VLIM u), 0, 10⟩
def F.MOT_VLIM_TOL (u : Nat) : Fld := ⟨(R.MOT_VLIM u), 16, 10⟩

/-- Register MOTn_TGT (R335). -/
def R.MOT_TGT (u : Nat) : Nat := 0x500018 + 0x10000 * u
def F.MOT_TGT_TGT (u : Nat) : Fld := ⟨(R.MOT_TGT u), 0, 24⟩

/-- Register MOTn_CMD (R335). -/
def R.MOT_CMD (u : Nat) : Nat := 0x50001c + 0x10000 * u
def F.MOT_CMD_START (u : Nat) : Fld := ⟨(R.MOT_CMD u), 0, 1⟩
def F.MOT_CMD_STOP (u : Nat) : Fld := ⟨(R.MOT_CMD u), 1, 1⟩
def F.MOT_CMD_BRAKE (u : Nat) : Fld := ⟨(R.MOT_CMD u), 2, 1⟩
def F.MOT_CMD_CLR (u : Nat) : Fld := ⟨(R.MOT_CMD u), 3, 1⟩

/-- Register MOTn_STATUS (R335). -/
def R.MOT_STATUS (u : Nat) : Nat := 0x500020 + 0x10000 * u
def F.MOT_STATUS_STATE (u : Nat) : Fld := ⟨(R.MOT_STATUS u), 0, 3⟩
def F.MOT_STATUS_VLIMIT (u : Nat) : Fld := ⟨(R.MOT_STATUS u), 3, 1⟩
def F.MOT_STATUS_ATSPEED (u : Nat) : Fld := ⟨(R.MOT_STATUS u), 4, 1⟩
def F.MOT_STATUS_LOCKED (u : Nat) : Fld := ⟨(R.MOT_STATUS u), 5, 1⟩
def F.MOT_STATUS_STARTFAIL (u : Nat) : Fld := ⟨(R.MOT_STATUS u), 6, 1⟩
def F.MOT_STATUS_HALLERR (u : Nat) : Fld := ⟨(R.MOT_STATUS u), 7, 1⟩
def F.MOT_STATUS_CMD_REJ (u : Nat) : Fld := ⟨(R.MOT_STATUS u), 8, 1⟩
def F.MOT_STATUS_CFG_BUSY (u : Nat) : Fld := ⟨(R.MOT_STATUS u), 9, 1⟩

/-- Register MOTn_SPEED (R335). -/
def R.MOT_SPEED (u : Nat) : Nat := 0x500024 + 0x10000 * u
def F.MOT_SPEED_SPEED (u : Nat) : Fld := ⟨(R.MOT_SPEED u), 0, 24⟩

/-- Register MOTn_COMM (R335). -/
def R.MOT_COMM (u : Nat) : Nat := 0x500028 + 0x10000 * u
def F.MOT_COMM_STEP (u : Nat) : Fld := ⟨(R.MOT_COMM u), 0, 3⟩
def F.MOT_COMM_HALL (u : Nat) : Fld := ⟨(R.MOT_COMM u), 3, 3⟩

/-- Register MOTn_STEPS (R335). -/
def R.MOT_STEPS (u : Nat) : Nat := 0x50002c + 0x10000 * u
def F.MOT_STEPS_STEPS (u : Nat) : Fld := ⟨(R.MOT_STEPS u), 0, 32⟩

/-- Register MOTn_HALLMAP (R335). -/
def R.MOT_HALLMAP (u : Nat) : Nat := 0x500030 + 0x10000 * u
def F.MOT_HALLMAP_MAP (u : Nat) : Fld := ⟨(R.MOT_HALLMAP u), 0, 24⟩

/-- Register GDR_HBk_CFG (R351). -/
def R.GDR_HB_CFG (i : Nat) : Nat := 0x600000 + 0x10 * i
def F.GDR_HB_CFG_SRC (i : Nat) : Fld := ⟨(R.GDR_HB_CFG i), 0, 2⟩
def F.GDR_HB_CFG_BUS (i : Nat) : Fld := ⟨(R.GDR_HB_CFG i), 2, 2⟩
def F.GDR_HB_CFG_EN (i : Nat) : Fld := ⟨(R.GDR_HB_CFG i), 4, 1⟩
def F.GDR_HB_CFG_DT (i : Nat) : Fld := ⟨(R.GDR_HB_CFG i), 8, 8⟩
def F.GDR_HB_CFG_BLANK (i : Nat) : Fld := ⟨(R.GDR_HB_CFG i), 16, 6⟩
def F.GDR_HB_CFG_GOFF_TMO (i : Nat) : Fld := ⟨(R.GDR_HB_CFG i), 24, 8⟩

/-- Register GDR_HBk_MAN (R351). -/
def R.GDR_HB_MAN (i : Nat) : Nat := 0x600004 + 0x10 * i
def F.GDR_HB_MAN_HI (i : Nat) : Fld := ⟨(R.GDR_HB_MAN i), 0, 1⟩
def F.GDR_HB_MAN_LO (i : Nat) : Fld := ⟨(R.GDR_HB_MAN i), 1, 1⟩

/-- Register GDR_HBk_STATUS (R351). -/
def R.GDR_HB_STATUS (i : Nat) : Nat := 0x600008 + 0x10 * i
def F.GDR_HB_STATUS_HION (i : Nat) : Fld := ⟨(R.GDR_HB_STATUS i), 0, 1⟩
def F.GDR_HB_STATUS_LOON (i : Nat) : Fld := ⟨(R.GDR_HB_STATUS i), 1, 1⟩
def F.GDR_HB_STATUS_GOFFH (i : Nat) : Fld := ⟨(R.GDR_HB_STATUS i), 2, 1⟩
def F.GDR_HB_STATUS_GOFFL (i : Nat) : Fld := ⟨(R.GDR_HB_STATUS i), 3, 1⟩
def F.GDR_HB_STATUS_HSG (i : Nat) : Fld := ⟨(R.GDR_HB_STATUS i), 4, 1⟩
def F.GDR_HB_STATUS_FAULT (i : Nat) : Fld := ⟨(R.GDR_HB_STATUS i), 5, 1⟩
def F.GDR_HB_STATUS_DESAT_H (i : Nat) : Fld := ⟨(R.GDR_HB_STATUS i), 8, 1⟩
def F.GDR_HB_STATUS_DESAT_L (i : Nat) : Fld := ⟨(R.GDR_HB_STATUS i), 9, 1⟩
def F.GDR_HB_STATUS_HSHORT (i : Nat) : Fld := ⟨(R.GDR_HB_STATUS i), 10, 1⟩
def F.GDR_HB_STATUS_CROSS (i : Nat) : Fld := ⟨(R.GDR_HB_STATUS i), 11, 1⟩
def F.GDR_HB_STATUS_BUS (i : Nat) : Fld := ⟨(R.GDR_HB_STATUS i), 12, 1⟩
def F.GDR_HB_STATUS_STUCK (i : Nat) : Fld := ⟨(R.GDR_HB_STATUS i), 13, 1⟩
def F.GDR_HB_STATUS_HSUV (i : Nat) : Fld := ⟨(R.GDR_HB_STATUS i), 14, 1⟩

/-- Register GDR_HBk_CLR (R351). -/
def R.GDR_HB_CLR (i : Nat) : Nat := 0x60000c + 0x10 * i
def F.GDR_HB_CLR_CLR (i : Nat) : Fld := ⟨(R.GDR_HB_CLR i), 0, 1⟩

/-- Register GDR_STATUS (R351). -/
def R.GDR_STATUS : Nat := 0x600200
def F.GDR_STATUS_BUSF : Fld := ⟨R.GDR_STATUS, 0, 4⟩
def F.GDR_STATUS_CLR_REJ : Fld := ⟨R.GDR_STATUS, 4, 1⟩
def F.GDR_STATUS_CFG_BUSY : Fld := ⟨R.GDR_STATUS, 5, 1⟩
def F.GDR_STATUS_CFG_ERR : Fld := ⟨R.GDR_STATUS, 6, 1⟩

/-- Register GDR_HS (R351). -/
def R.GDR_HS : Nat := 0x600204
def F.GDR_HS_HS_THR : Fld := ⟨R.GDR_HS, 0, 10⟩
def F.GDR_HS_COINC : Fld := ⟨R.GDR_HS, 16, 8⟩

/-- Register GDR_INVj_CTRL (R351). -/
def R.GDR_INV_CTRL (i : Nat) : Nat := 0x600300 + 0x10 * i
def F.GDR_INV_CTRL_RUN (i : Nat) : Fld := ⟨(R.GDR_INV_CTRL i), 0, 1⟩
def F.GDR_INV_CTRL_INV_KHZ (i : Nat) : Fld := ⟨(R.GDR_INV_CTRL i), 8, 7⟩
def F.GDR_INV_CTRL_PHASE (i : Nat) : Fld := ⟨(R.GDR_INV_CTRL i), 16, 9⟩

/-- Register STPn_CFG (R363). -/
def R.STP_CFG (i : Nat) : Nat := 0x610000 + 0x100 * i
def F.STP_CFG_BUSSEL (i : Nat) : Fld := ⟨(R.STP_CFG i), 0, 1⟩
def F.STP_CFG_STOPMODE (i : Nat) : Fld := ⟨(R.STP_CFG i), 1, 1⟩
def F.STP_CFG_DIRINV (i : Nat) : Fld := ⟨(R.STP_CFG i), 2, 1⟩
def F.STP_CFG_HOLD_MS (i : Nat) : Fld := ⟨(R.STP_CFG i), 8, 8⟩
def F.STP_CFG_RCOIL (i : Nat) : Fld := ⟨(R.STP_CFG i), 16, 16⟩

/-- Register STPn_DRIVE (R363). -/
def R.STP_DRIVE (i : Nat) : Nat := 0x610004 + 0x100 * i
def F.STP_DRIVE_IRUN (i : Nat) : Fld := ⟨(R.STP_DRIVE i), 0, 12⟩
def F.STP_DRIVE_IHOLD (i : Nat) : Fld := ⟨(R.STP_DRIVE i), 16, 12⟩

/-- Register STPn_FF (R363). -/
def R.STP_FF (i : Nat) : Nat := 0x610008 + 0x100 * i
def F.STP_FF_KE (i : Nat) : Fld := ⟨(R.STP_FF i), 0, 16⟩
def F.STP_FF_KL (i : Nat) : Fld := ⟨(R.STP_FF i), 16, 16⟩

/-- Register STPn_MSTH0 (R363). -/
def R.STP_MSTH0 (i : Nat) : Nat := 0x610010 + 0x100 * i
def F.STP_MSTH0_THA (i : Nat) : Fld := ⟨(R.STP_MSTH0 i), 0, 16⟩
def F.STP_MSTH0_THB (i : Nat) : Fld := ⟨(R.STP_MSTH0 i), 16, 16⟩

/-- Register STPn_MSTH1 (R363). -/
def R.STP_MSTH1 (i : Nat) : Nat := 0x610014 + 0x100 * i
def F.STP_MSTH1_THA (i : Nat) : Fld := ⟨(R.STP_MSTH1 i), 0, 16⟩
def F.STP_MSTH1_THB (i : Nat) : Fld := ⟨(R.STP_MSTH1 i), 16, 16⟩

/-- Register STPn_MSTH2 (R363). -/
def R.STP_MSTH2 (i : Nat) : Nat := 0x610018 + 0x100 * i
def F.STP_MSTH2_THA (i : Nat) : Fld := ⟨(R.STP_MSTH2 i), 0, 16⟩
def F.STP_MSTH2_THB (i : Nat) : Fld := ⟨(R.STP_MSTH2 i), 16, 16⟩

/-- Register STPn_MSTH3 (R363). -/
def R.STP_MSTH3 (i : Nat) : Nat := 0x61001c + 0x100 * i
def F.STP_MSTH3_THA (i : Nat) : Fld := ⟨(R.STP_MSTH3 i), 0, 16⟩
def F.STP_MSTH3_THB (i : Nat) : Fld := ⟨(R.STP_MSTH3 i), 16, 16⟩

/-- Register STPn_MSCFG (R363). -/
def R.STP_MSCFG (i : Nat) : Nat := 0x610020 + 0x100 * i
def F.STP_MSCFG_HYST (i : Nat) : Fld := ⟨(R.STP_MSCFG i), 0, 8⟩

/-- Register STPn_STOP (R363). -/
def R.STP_STOP (i : Nat) : Nat := 0x610024 + 0x100 * i
def F.STP_STOP_SPEED (i : Nat) : Fld := ⟨(R.STP_STOP i), 0, 16⟩
def F.STP_STOP_ACC (i : Nat) : Fld := ⟨(R.STP_STOP i), 16, 16⟩

/-- Register STPn_RES (R363). -/
def R.STP_RES (i : Nat) : Nat := 0x610028 + 0x100 * i
def F.STP_RES_SPEED (i : Nat) : Fld := ⟨(R.STP_RES i), 0, 16⟩
def F.STP_RES_ACC (i : Nat) : Fld := ⟨(R.STP_RES i), 16, 16⟩

/-- Register STPn_HOME (R363). -/
def R.STP_HOME (i : Nat) : Nat := 0x61002c + 0x100 * i
def F.STP_HOME_HMODE (i : Nat) : Fld := ⟨(R.STP_HOME i), 0, 2⟩
def F.STP_HOME_HDIR (i : Nat) : Fld := ⟨(R.STP_HOME i), 2, 1⟩
def F.STP_HOME_IHOME (i : Nat) : Fld := ⟨(R.STP_HOME i), 4, 12⟩
def F.STP_HOME_HVEL (i : Nat) : Fld := ⟨(R.STP_HOME i), 16, 16⟩

/-- Register STPn_HDIST (R363). -/
def R.STP_HDIST (i : Nat) : Nat := 0x610030 + 0x100 * i
def F.STP_HDIST_VALUE (i : Nat) : Fld := ⟨(R.STP_HDIST i), 0, 32⟩

/-- Register STPn_HOFF (R363). -/
def R.STP_HOFF (i : Nat) : Nat := 0x610034 + 0x100 * i
def F.STP_HOFF_VALUE (i : Nat) : Fld := ⟨(R.STP_HOFF i), 0, 32⟩

/-- Register STPn_HBACK (R363). -/
def R.STP_HBACK (i : Nat) : Nat := 0x610038 + 0x100 * i
def F.STP_HBACK_HBACK (i : Nat) : Fld := ⟨(R.STP_HBACK i), 0, 24⟩
def F.STP_HBACK_STALL_FILT (i : Nat) : Fld := ⟨(R.STP_HBACK i), 24, 8⟩

/-- Register STPn_TBL_LO (R363). -/
def R.STP_TBL_LO (i : Nat) : Nat := 0x610040 + 0x100 * i
def F.STP_TBL_LO_VALUE (i : Nat) : Fld := ⟨(R.STP_TBL_LO i), 0, 32⟩

/-- Register STPn_TBL_HI (R363). -/
def R.STP_TBL_HI (i : Nat) : Nat := 0x610044 + 0x100 * i
def F.STP_TBL_HI_VALUE (i : Nat) : Fld := ⟨(R.STP_TBL_HI i), 0, 8⟩

/-- Register STPn_TBLN (R363). -/
def R.STP_TBLN (i : Nat) : Nat := 0x610048 + 0x100 * i
def F.STP_TBLN_TBLN (i : Nat) : Fld := ⟨(R.STP_TBLN i), 0, 9⟩

/-- Register STPn_CMD (R363). -/
def R.STP_CMD (i : Nat) : Nat := 0x61004c + 0x100 * i
def F.STP_CMD_CMD (i : Nat) : Fld := ⟨(R.STP_CMD i), 0, 8⟩

/-- Register STPn_STATUS (R363). -/
def R.STP_STATUS (i : Nat) : Nat := 0x610050 + 0x100 * i
def F.STP_STATUS_STATE (i : Nat) : Fld := ⟨(R.STP_STATUS i), 0, 3⟩
def F.STP_STATUS_K (i : Nat) : Fld := ⟨(R.STP_STATUS i), 3, 4⟩
def F.STP_STATUS_VSAT (i : Nat) : Fld := ⟨(R.STP_STATUS i), 7, 1⟩
def F.STP_STATUS_POS_UNSURE (i : Nat) : Fld := ⟨(R.STP_STATUS i), 8, 1⟩
def F.STP_STATUS_LOAD_OK (i : Nat) : Fld := ⟨(R.STP_STATUS i), 9, 1⟩
def F.STP_STATUS_LOAD_ERR (i : Nat) : Fld := ⟨(R.STP_STATUS i), 10, 1⟩
def F.STP_STATUS_LERR (i : Nat) : Fld := ⟨(R.STP_STATUS i), 11, 3⟩
def F.STP_STATUS_HOME_OK (i : Nat) : Fld := ⟨(R.STP_STATUS i), 14, 1⟩
def F.STP_STATUS_HOME_FAIL (i : Nat) : Fld := ⟨(R.STP_STATUS i), 15, 1⟩
def F.STP_STATUS_ERRIDX (i : Nat) : Fld := ⟨(R.STP_STATUS i), 16, 8⟩
def F.STP_STATUS_STALL (i : Nat) : Fld := ⟨(R.STP_STATUS i), 24, 1⟩
def F.STP_STATUS_CMD_REJ (i : Nat) : Fld := ⟨(R.STP_STATUS i), 25, 1⟩
def F.STP_STATUS_CFG_BUSY (i : Nat) : Fld := ⟨(R.STP_STATUS i), 26, 1⟩

/-- Register STPn_POS (R363). -/
def R.STP_POS (i : Nat) : Nat := 0x610054 + 0x100 * i
def F.STP_POS_VALUE (i : Nat) : Fld := ⟨(R.STP_POS i), 0, 32⟩

/-- Register STPn_REM (R363). -/
def R.STP_REM (i : Nat) : Nat := 0x610058 + 0x100 * i
def F.STP_REM_VALUE (i : Nat) : Fld := ⟨(R.STP_REM i), 0, 32⟩

/-- Register STPn_VEL (R363). -/
def R.STP_VEL (i : Nat) : Nat := 0x61005c + 0x100 * i
def F.STP_VEL_VALUE (i : Nat) : Fld := ⟨(R.STP_VEL i), 0, 32⟩

/-- Register STP_PWM (R363). -/
def R.STP_PWM : Nat := 0x611000
def F.STP_PWM_STP_PWM_KHZ : Fld := ⟨R.STP_PWM, 0, 7⟩

/-- Register STP_VBUS0 (R363). -/
def R.STP_VBUS0 : Nat := 0x611004
def F.STP_VBUS0_VBUS : Fld := ⟨R.STP_VBUS0, 0, 16⟩

/-- Register STP_VBUS1 (R363). -/
def R.STP_VBUS1 : Nat := 0x611008
def F.STP_VBUS1_VBUS : Fld := ⟨R.STP_VBUS1, 0, 16⟩

/-- Register LOP_CMD (R397). -/
def R.LOP_CMD : Nat := 0x620000
def F.LOP_CMD_SLOT : Fld := ⟨R.LOP_CMD, 0, 6⟩
def F.LOP_CMD_START : Fld := ⟨R.LOP_CMD, 8, 1⟩
def F.LOP_CMD_STOP : Fld := ⟨R.LOP_CMD, 9, 1⟩
def F.LOP_CMD_TLOAD : Fld := ⟨R.LOP_CMD, 10, 1⟩

/-- Register LOP_STATUS (R397). -/
def R.LOP_STATUS : Nat := 0x620004
def F.LOP_STATUS_CMD_REJ : Fld := ⟨R.LOP_STATUS, 0, 1⟩
def F.LOP_STATUS_TLOAD_ERR : Fld := ⟨R.LOP_STATUS, 1, 1⟩

/-- Register LOP_PWMCFG (R397). -/
def R.LOP_PWMCFG : Nat := 0x620008
def F.LOP_PWMCFG_LPWM_KHZ : Fld := ⟨R.LOP_PWMCFG, 0, 7⟩

/-- Register LOP_PWM (R397). -/
def R.LOP_PWM (i : Nat) : Nat := 0x620040 + 0x4 * i
def F.LOP_PWM_DUTY (i : Nat) : Fld := ⟨(R.LOP_PWM i), 0, 16⟩

/-- Register LOP_AIN (R397). -/
def R.LOP_AIN (i : Nat) : Nat := 0x620100 + 0x4 * i
def F.LOP_AIN_VALUE (i : Nat) : Fld := ⟨(R.LOP_AIN i), 0, 16⟩

/-- Register LOP_SP (R397). -/
def R.LOP_SP (i : Nat) : Nat := 0x621000 + 0x20 * i
def F.LOP_SP_SP (i : Nat) : Fld := ⟨(R.LOP_SP i), 0, 32⟩

/-- Register LOP_OUT (R397). -/
def R.LOP_OUT (i : Nat) : Nat := 0x621004 + 0x20 * i
def F.LOP_OUT_U (i : Nat) : Fld := ⟨(R.LOP_OUT i), 0, 32⟩

/-- Register LOP_Y (R397). -/
def R.LOP_Y (i : Nat) : Nat := 0x621008 + 0x20 * i
def F.LOP_Y_Y (i : Nat) : Fld := ⟨(R.LOP_Y i), 0, 32⟩

/-- Register LOP_ST (R397). -/
def R.LOP_ST (i : Nat) : Nat := 0x62100c + 0x20 * i
def F.LOP_ST_STATE (i : Nat) : Fld := ⟨(R.LOP_ST i), 0, 2⟩
def F.LOP_ST_TRIP (i : Nat) : Fld := ⟨(R.LOP_ST i), 2, 1⟩
def F.LOP_ST_STALEF (i : Nat) : Fld := ⟨(R.LOP_ST i), 3, 1⟩

/-- Register LOP_EVALS (R397). -/
def R.LOP_EVALS (i : Nat) : Nat := 0x621010 + 0x20 * i
def F.LOP_EVALS_COUNT (i : Nat) : Fld := ⟨(R.LOP_EVALS i), 0, 32⟩

/-- Register WEB_CFG (R398). -/
def R.WEB_CFG : Nat := 0x630000
def F.WEB_CFG_J : Fld := ⟨R.WEB_CFG, 0, 4⟩
def F.WEB_CFG_DIRINV : Fld := ⟨R.WEB_CFG, 4, 1⟩
def F.WEB_CFG_FILT : Fld := ⟨R.WEB_CFG, 5, 8⟩

/-- Register WEB_SCALE (R398). -/
def R.WEB_SCALE : Nat := 0x630004
def F.WEB_SCALE_SCALE : Fld := ⟨R.WEB_SCALE, 0, 32⟩

/-- Register WEB_STATUS (R398). -/
def R.WEB_STATUS : Nat := 0x630008
def F.WEB_STATUS_REV : Fld := ⟨R.WEB_STATUS, 0, 1⟩
def F.WEB_STATUS_ILLEGAL : Fld := ⟨R.WEB_STATUS, 1, 1⟩
def F.WEB_STATUS_BACK : Fld := ⟨R.WEB_STATUS, 2, 1⟩

/-- Register WEB_RAW_LO (R398). -/
def R.WEB_RAW_LO : Nat := 0x630010
def F.WEB_RAW_LO_RAW : Fld := ⟨R.WEB_RAW_LO, 0, 32⟩

/-- Register WEB_RAW_HI (R398). -/
def R.WEB_RAW_HI : Nat := 0x630014
def F.WEB_RAW_HI_RAW : Fld := ⟨R.WEB_RAW_HI, 0, 16⟩

/-- Register WEB_HW_LO (R398). -/
def R.WEB_HW_LO : Nat := 0x630018
def F.WEB_HW_LO_HW : Fld := ⟨R.WEB_HW_LO, 0, 32⟩

/-- Register WEB_HW_HI (R398). -/
def R.WEB_HW_HI : Nat := 0x63001c
def F.WEB_HW_HI_HW : Fld := ⟨R.WEB_HW_HI, 0, 16⟩

/-- Register WEB_SPEED (R398). -/
def R.WEB_SPEED : Nat := 0x630020
def F.WEB_SPEED_SPEED : Fld := ⟨R.WEB_SPEED, 0, 32⟩

/-- Register WEB_CLR (R398). -/
def R.WEB_CLR : Nat := 0x630024
def F.WEB_CLR_ZERO : Fld := ⟨R.WEB_CLR, 0, 1⟩

/-- Register WEB_EVGRP (R398). -/
def R.WEB_EVGRP : Nat := 0x630028
def F.WEB_EVGRP_HANDLE : Fld := ⟨R.WEB_EVGRP, 0, 32⟩

/-- Register WEB_CMDST (R398). -/
def R.WEB_CMDST : Nat := 0x63002c
def F.WEB_CMDST_CMD_REJ : Fld := ⟨R.WEB_CMDST, 0, 1⟩

/-- Register WEB_TPOS_LO (R398). -/
def R.WEB_TPOS_LO (i : Nat) : Nat := 0x630100 + 0x20 * i
def F.WEB_TPOS_LO_POS (i : Nat) : Fld := ⟨(R.WEB_TPOS_LO i), 0, 32⟩

/-- Register WEB_TPOS_HI (R398). -/
def R.WEB_TPOS_HI (i : Nat) : Nat := 0x630104 + 0x20 * i
def F.WEB_TPOS_HI_POS (i : Nat) : Fld := ⟨(R.WEB_TPOS_HI i), 0, 16⟩

/-- Register WEB_TPER (R398). -/
def R.WEB_TPER (i : Nat) : Nat := 0x630108 + 0x20 * i
def F.WEB_TPER_PERIOD (i : Nat) : Fld := ⟨(R.WEB_TPER i), 0, 32⟩

/-- Register WEB_TCTL (R398). -/
def R.WEB_TCTL (i : Nat) : Nat := 0x63010c + 0x20 * i
def F.WEB_TCTL_OFF (i : Nat) : Fld := ⟨(R.WEB_TCTL i), 0, 24⟩
def F.WEB_TCTL_EN (i : Nat) : Fld := ⟨(R.WEB_TCTL i), 31, 1⟩

/-- Register WEB_TDATA (R398). -/
def R.WEB_TDATA (i : Nat) : Nat := 0x630110 + 0x20 * i
def F.WEB_TDATA_DATA (i : Nat) : Fld := ⟨(R.WEB_TDATA i), 0, 32⟩

/-- Register CAMc_CTRL (R399). -/
def R.CAM_CTRL (u : Nat) : Nat := 0x640000 + 0x10000 * u
def F.CAM_CTRL_EN (u : Nat) : Fld := ⟨(R.CAM_CTRL u), 0, 1⟩
def F.CAM_CTRL_BYPASS (u : Nat) : Fld := ⟨(R.CAM_CTRL u), 1, 1⟩
def F.CAM_CTRL_LOAD (u : Nat) : Fld := ⟨(R.CAM_CTRL u), 2, 1⟩
def F.CAM_CTRL_LANES (u : Nat) : Fld := ⟨(R.CAM_CTRL u), 3, 2⟩

/-- Register CAMc_STATUS (R399). -/
def R.CAM_STATUS (u : Nat) : Nat := 0x640004 + 0x10000 * u
def F.CAM_STATUS_FRAME_OPEN (u : Nat) : Fld := ⟨(R.CAM_STATUS u), 0, 1⟩
def F.CAM_STATUS_CFG_OK (u : Nat) : Fld := ⟨(R.CAM_STATUS u), 1, 1⟩
def F.CAM_STATUS_CFG_ERR (u : Nat) : Fld := ⟨(R.CAM_STATUS u), 2, 1⟩
def F.CAM_STATUS_TIMEOUT (u : Nat) : Fld := ⟨(R.CAM_STATUS u), 3, 1⟩
def F.CAM_STATUS_OVF (u : Nat) : Fld := ⟨(R.CAM_STATUS u), 4, 1⟩
def F.CAM_STATUS_LOAD_PEND (u : Nat) : Fld := ⟨(R.CAM_STATUS u), 5, 1⟩

/-- Register CAMc_CFGA_LO (R399). -/
def R.CAM_CFGA_LO (u : Nat) : Nat := 0x640008 + 0x10000 * u
def F.CAM_CFGA_LO_ADDR (u : Nat) : Fld := ⟨(R.CAM_CFGA_LO u), 0, 32⟩

/-- Register CAMc_CFGA_HI (R399). -/
def R.CAM_CFGA_HI (u : Nat) : Nat := 0x64000c + 0x10000 * u
def F.CAM_CFGA_HI_ADDR (u : Nat) : Fld := ⟨(R.CAM_CFGA_HI u), 0, 8⟩

/-- Register CAMc_SBUF_LO (R399). -/
def R.CAM_SBUF_LO (u : Nat) : Nat := 0x640010 + 0x10000 * u
def F.CAM_SBUF_LO_ADDR (u : Nat) : Fld := ⟨(R.CAM_SBUF_LO u), 0, 32⟩

/-- Register CAMc_SBUF_HI (R399). -/
def R.CAM_SBUF_HI (u : Nat) : Nat := 0x640014 + 0x10000 * u
def F.CAM_SBUF_HI_ADDR (u : Nat) : Fld := ⟨(R.CAM_SBUF_HI u), 0, 8⟩

/-- Register CAMc_SNBLK (R399). -/
def R.CAM_SNBLK (u : Nat) : Nat := 0x640018 + 0x10000 * u
def F.CAM_SNBLK_SNBLK (u : Nat) : Fld := ⟨(R.CAM_SNBLK u), 0, 16⟩

/-- Register CAMc_SRING (R399). -/
def R.CAM_SRING (u : Nat) : Nat := 0x64001c + 0x10000 * u
def F.CAM_SRING_HANDLE (u : Nat) : Fld := ⟨(R.CAM_SRING u), 0, 32⟩

/-- Register CAMc_FTMO (R399). -/
def R.CAM_FTMO (u : Nat) : Nat := 0x640020 + 0x10000 * u
def F.CAM_FTMO_FTMO (u : Nat) : Fld := ⟨(R.CAM_FTMO u), 0, 10⟩
def F.CAM_FTMO_XTRIG (u : Nat) : Fld := ⟨(R.CAM_FTMO u), 16, 3⟩
def F.CAM_FTMO_XEN (u : Nat) : Fld := ⟨(R.CAM_FTMO u), 19, 1⟩

/-- Register CAMc_FRAME (R399). -/
def R.CAM_FRAME (u : Nat) : Nat := 0x640024 + 0x10000 * u
def F.CAM_FRAME_FRAME (u : Nat) : Fld := ⟨(R.CAM_FRAME u), 0, 32⟩

/-- Register CAMc_ERR (R399). -/
def R.CAM_ERR (u : Nat) : Nat := 0x640028 + 0x10000 * u
def F.CAM_ERR_COUNTS (u : Nat) : Fld := ⟨(R.CAM_ERR u), 0, 32⟩

/-- Register CAMc_DROP (R399). -/
def R.CAM_DROP (u : Nat) : Nat := 0x64002c + 0x10000 * u
def F.CAM_DROP_COUNTS (u : Nat) : Fld := ⟨(R.CAM_DROP u), 0, 32⟩

/-- Register PWR_STATUS (R430). -/
def R.PWR_STATUS : Nat := 0x680000
def F.PWR_STATUS_STATE : Fld := ⟨R.PWR_STATUS, 0, 2⟩
def F.PWR_STATUS_SEQSRC : Fld := ⟨R.PWR_STATUS, 2, 2⟩
def F.PWR_STATUS_SLOT : Fld := ⟨R.PWR_STATUS, 4, 2⟩
def F.PWR_STATUS_FAILSTEP : Fld := ⟨R.PWR_STATUS, 6, 4⟩
def F.PWR_STATUS_VINWARN : Fld := ⟨R.PWR_STATUS, 10, 1⟩

/-- Register PWR_CAUSE (R430). -/
def R.PWR_CAUSE : Nat := 0x680004
def F.PWR_CAUSE_CAUSE : Fld := ⟨R.PWR_CAUSE, 0, 4⟩
def F.PWR_CAUSE_MASK : Fld := ⟨R.PWR_CAUSE, 4, 8⟩
def F.PWR_CAUSE_RAIL : Fld := ⟨R.PWR_CAUSE, 12, 4⟩
def F.PWR_CAUSE_BOUNCES : Fld := ⟨R.PWR_CAUSE, 16, 3⟩
def F.PWR_CAUSE_VALID : Fld := ⟨R.PWR_CAUSE, 19, 1⟩

/-- Register PWR_VIN (R430). -/
def R.PWR_VIN : Nat := 0x680008
def F.PWR_VIN_VIN : Fld := ⟨R.PWR_VIN, 0, 16⟩

/-- Register PWR_CMD (R430). -/
def R.PWR_CMD : Nat := 0x680010
def F.PWR_CMD_DRYDOWN : Fld := ⟨R.PWR_CMD, 0, 1⟩
def F.PWR_CMD_STAYOFF : Fld := ⟨R.PWR_CMD, 1, 1⟩
def F.PWR_CMD_KEY : Fld := ⟨R.PWR_CMD, 8, 8⟩

/-- Register PWR_BOOT_CMD (R430). -/
def R.PWR_BOOT_CMD : Nat := 0x680014
def F.PWR_BOOT_CMD_GO : Fld := ⟨R.PWR_BOOT_CMD, 0, 1⟩

/-- Register PWR_BOOT_ADDR_LO (R430). -/
def R.PWR_BOOT_ADDR_LO : Nat := 0x680018
def F.PWR_BOOT_ADDR_LO_ADDR : Fld := ⟨R.PWR_BOOT_ADDR_LO, 0, 32⟩

/-- Register PWR_BOOT_ADDR_HI (R430). -/
def R.PWR_BOOT_ADDR_HI : Nat := 0x68001c
def F.PWR_BOOT_ADDR_HI_ADDR : Fld := ⟨R.PWR_BOOT_ADDR_HI, 0, 8⟩

/-- Register PWR_EVGRP (R430). -/
def R.PWR_EVGRP : Nat := 0x680020
def F.PWR_EVGRP_HANDLE : Fld := ⟨R.PWR_EVGRP, 0, 32⟩

/-- Register PWR_RAIL (R430). -/
def R.PWR_RAIL (i : Nat) : Nat := 0x680100 + 0x4 * i
def F.PWR_RAIL_VALUE (i : Nat) : Fld := ⟨(R.PWR_RAIL i), 0, 16⟩
def F.PWR_RAIL_USED (i : Nat) : Fld := ⟨(R.PWR_RAIL i), 16, 1⟩
def F.PWR_RAIL_ON (i : Nat) : Fld := ⟨(R.PWR_RAIL i), 17, 1⟩
def F.PWR_RAIL_GOOD (i : Nat) : Fld := ⟨(R.PWR_RAIL i), 18, 1⟩
def F.PWR_RAIL_WARN (i : Nat) : Fld := ⟨(R.PWR_RAIL i), 19, 1⟩
def F.PWR_RAIL_FAULT (i : Nat) : Fld := ⟨(R.PWR_RAIL i), 20, 1⟩

/-- Register THM_SPD (R431). -/
def R.THM_SPD : Nat := 0x690000
def F.THM_SPD_SPD_ALL : Fld := ⟨R.THM_SPD, 0, 10⟩
def F.THM_SPD_CH_REQ : Fld := ⟨R.THM_SPD, 16, 10⟩

/-- Register THM_PEAK (R431). -/
def R.THM_PEAK : Nat := 0x690004
def F.THM_PEAK_ACC : Fld := ⟨R.THM_PEAK, 0, 14⟩
def F.THM_PEAK_OVER : Fld := ⟨R.THM_PEAK, 14, 1⟩
def F.THM_PEAK_PEAK_REQ : Fld := ⟨R.THM_PEAK, 16, 9⟩

/-- Register THM_PEAKCFG (R431). -/
def R.THM_PEAKCFG : Nat := 0x690008
def F.THM_PEAKCFG_PEAK_MAX : Fld := ⟨R.THM_PEAKCFG, 0, 14⟩
def F.THM_PEAKCFG_RECOV : Fld := ⟨R.THM_PEAKCFG, 16, 4⟩
def F.THM_PEAKCFG_PEAK_STEP : Fld := ⟨R.THM_PEAKCFG, 24, 8⟩

/-- Register THM_FUSER (R431). -/
def R.THM_FUSER : Nat := 0x69000c
def F.THM_FUSER_PHASE_CAP : Fld := ⟨R.THM_FUSER, 0, 9⟩
def F.THM_FUSER_FRATE : Fld := ⟨R.THM_FUSER, 16, 8⟩
def F.THM_FUSER_PRATE : Fld := ⟨R.THM_FUSER, 24, 8⟩

/-- Register THM_TSD (R431). -/
def R.THM_TSD : Nat := 0x690010
def F.THM_TSD_TSD_LOCK : Fld := ⟨R.THM_TSD, 0, 1⟩
def F.THM_TSD_SEQ : Fld := ⟨R.THM_TSD, 16, 16⟩

/-- Register THM_TSD_ACK (R431). -/
def R.THM_TSD_ACK : Nat := 0x690014
def F.THM_TSD_ACK_SEQ : Fld := ⟨R.THM_TSD_ACK, 0, 16⟩
def F.THM_TSD_ACK_KEY : Fld := ⟨R.THM_TSD_ACK, 16, 8⟩

/-- Register THM_HDA (R431). -/
def R.THM_HDA : Nat := 0x690018
def F.THM_HDA_WIN : Fld := ⟨R.THM_HDA, 0, 4⟩

/-- Register THM_I2C (R431). -/
def R.THM_I2C : Nat := 0x69001c
def F.THM_I2C_SPEED : Fld := ⟨R.THM_I2C, 0, 2⟩

/-- Register THM_TAB0 (R431). -/
def R.THM_TAB0 (i : Nat) : Nat := 0x690800 + 0x4 * i
def F.THM_TAB0_ENG (i : Nat) : Fld := ⟨(R.THM_TAB0 i), 0, 16⟩

/-- Register THM_TAB1 (R431). -/
def R.THM_TAB1 (i : Nat) : Nat := 0x690900 + 0x4 * i
def F.THM_TAB1_ENG (i : Nat) : Fld := ⟨(R.THM_TAB1 i), 0, 16⟩

/-- Register THM_TAB2 (R431). -/
def R.THM_TAB2 (i : Nat) : Nat := 0x690a00 + 0x4 * i
def F.THM_TAB2_ENG (i : Nat) : Fld := ⟨(R.THM_TAB2 i), 0, 16⟩

/-- Register THM_TAB3 (R431). -/
def R.THM_TAB3 (i : Nat) : Nat := 0x690b00 + 0x4 * i
def F.THM_TAB3_ENG (i : Nat) : Fld := ⟨(R.THM_TAB3 i), 0, 16⟩

/-- Register THM_CH_CFG (R431). -/
def R.THM_CH_CFG (i : Nat) : Nat := 0x691000 + 0x20 * i
def F.THM_CH_CFG_CONV (i : Nat) : Fld := ⟨(R.THM_CH_CFG i), 0, 3⟩
def F.THM_CH_CFG_ROLE (i : Nat) : Fld := ⟨(R.THM_CH_CFG i), 3, 4⟩
def F.THM_CH_CFG_UNIT (i : Nat) : Fld := ⟨(R.THM_CH_CFG i), 7, 2⟩
def F.THM_CH_CFG_CEN (i : Nat) : Fld := ⟨(R.THM_CH_CFG i), 9, 1⟩
def F.THM_CH_CFG_SPD (i : Nat) : Fld := ⟨(R.THM_CH_CFG i), 10, 1⟩
def F.THM_CH_CFG_RORSD (i : Nat) : Fld := ⟨(R.THM_CH_CFG i), 11, 1⟩
def F.THM_CH_CFG_ADDR (i : Nat) : Fld := ⟨(R.THM_CH_CFG i), 12, 7⟩
def F.THM_CH_CFG_PTR (i : Nat) : Fld := ⟨(R.THM_CH_CFG i), 24, 8⟩

/-- Register THM_CH_GAIN (R431). -/
def R.THM_CH_GAIN (i : Nat) : Nat := 0x691004 + 0x20 * i
def F.THM_CH_GAIN_GAIN (i : Nat) : Fld := ⟨(R.THM_CH_GAIN i), 0, 16⟩
def F.THM_CH_GAIN_OFS (i : Nat) : Fld := ⟨(R.THM_CH_GAIN i), 16, 16⟩

/-- Register THM_CH_LIM1 (R431). -/
def R.THM_CH_LIM1 (i : Nat) : Nat := 0x691008 + 0x20 * i
def F.THM_CH_LIM1_WARN (i : Nat) : Fld := ⟨(R.THM_CH_LIM1 i), 0, 16⟩
def F.THM_CH_LIM1_COMMIT (i : Nat) : Fld := ⟨(R.THM_CH_LIM1 i), 16, 16⟩

/-- Register THM_CH_LIM2 (R431). -/
def R.THM_CH_LIM2 (i : Nat) : Nat := 0x69100c + 0x20 * i
def F.THM_CH_LIM2_SHUT (i : Nat) : Fld := ⟨(R.THM_CH_LIM2 i), 0, 16⟩
def F.THM_CH_LIM2_ROR (i : Nat) : Fld := ⟨(R.THM_CH_LIM2 i), 16, 16⟩

/-- Register THM_CH_RATE (R431). -/
def R.THM_CH_RATE (i : Nat) : Nat := 0x691010 + 0x20 * i
def F.THM_CH_RATE_RATE (i : Nat) : Fld := ⟨(R.THM_CH_RATE i), 0, 8⟩

/-- Register THM_CH_VAL (R431). -/
def R.THM_CH_VAL (i : Nat) : Nat := 0x691014 + 0x20 * i
def F.THM_CH_VAL_ENG (i : Nat) : Fld := ⟨(R.THM_CH_VAL i), 0, 16⟩
def F.THM_CH_VAL_SLOPE (i : Nat) : Fld := ⟨(R.THM_CH_VAL i), 16, 16⟩

/-- Register THM_CH_ST (R431). -/
def R.THM_CH_ST (i : Nat) : Nat := 0x691018 + 0x20 * i
def F.THM_CH_ST_WARNF (i : Nat) : Fld := ⟨(R.THM_CH_ST i), 0, 1⟩
def F.THM_CH_ST_COMMITF (i : Nat) : Fld := ⟨(R.THM_CH_ST i), 1, 1⟩
def F.THM_CH_ST_SHUTF (i : Nat) : Fld := ⟨(R.THM_CH_ST i), 2, 1⟩
def F.THM_CH_ST_RORF (i : Nat) : Fld := ⟨(R.THM_CH_ST i), 3, 1⟩
def F.THM_CH_ST_STALE (i : Nat) : Fld := ⟨(R.THM_CH_ST i), 4, 1⟩

/-- Register CLKn_CTRL (R432). -/
def R.CLK_CTRL (u : Nat) : Nat := 0x700000 + 0x10000 * u
def F.CLK_CTRL_EN (u : Nat) : Fld := ⟨(R.CLK_CTRL u), 0, 1⟩
def F.CLK_CTRL_REFMUL (u : Nat) : Fld := ⟨(R.CLK_CTRL u), 1, 2⟩
def F.CLK_CTRL_PDIV (u : Nat) : Fld := ⟨(R.CLK_CTRL u), 3, 3⟩
def F.CLK_CTRL_HOLD_EN (u : Nat) : Fld := ⟨(R.CLK_CTRL u), 6, 1⟩
def F.CLK_CTRL_APPLY (u : Nat) : Fld := ⟨(R.CLK_CTRL u), 7, 1⟩
def F.CLK_CTRL_BW (u : Nat) : Fld := ⟨(R.CLK_CTRL u), 16, 8⟩

/-- Register CLKn_NINT (R432). -/
def R.CLK_NINT (u : Nat) : Nat := 0x700004 + 0x10000 * u
def F.CLK_NINT_NINT (u : Nat) : Fld := ⟨(R.CLK_NINT u), 0, 8⟩

/-- Register CLKn_NFRAC (R432). -/
def R.CLK_NFRAC (u : Nat) : Nat := 0x700008 + 0x10000 * u
def F.CLK_NFRAC_NFRAC (u : Nat) : Fld := ⟨(R.CLK_NFRAC u), 0, 24⟩

/-- Register CLKn_NMOD (R432). -/
def R.CLK_NMOD (u : Nat) : Nat := 0x70000c + 0x10000 * u
def F.CLK_NMOD_NMOD (u : Nat) : Fld := ⟨(R.CLK_NMOD u), 0, 24⟩

/-- Register CLKn_OUT (R432). -/
def R.CLK_OUT (u i : Nat) : Nat := 0x700010 + 0x10000 * u + 0x4 * i
def F.CLK_OUT_DIV (u i : Nat) : Fld := ⟨(R.CLK_OUT u i), 0, 9⟩
def F.CLK_OUT_DLY (u i : Nat) : Fld := ⟨(R.CLK_OUT u i), 9, 6⟩
def F.CLK_OUT_OEN (u i : Nat) : Fld := ⟨(R.CLK_OUT u i), 15, 1⟩

/-- Register CLKn_STATUS (R432). -/
def R.CLK_STATUS (u : Nat) : Nat := 0x700020 + 0x10000 * u
def F.CLK_STATUS_LOCK (u : Nat) : Fld := ⟨(R.CLK_STATUS u), 0, 1⟩
def F.CLK_STATUS_LOL (u : Nat) : Fld := ⟨(R.CLK_STATUS u), 1, 1⟩
def F.CLK_STATUS_HOLD (u : Nat) : Fld := ⟨(R.CLK_STATUS u), 2, 1⟩
def F.CLK_STATUS_CFG_BUSY (u : Nat) : Fld := ⟨(R.CLK_STATUS u), 3, 1⟩
def F.CLK_STATUS_CFG_ERR (u : Nat) : Fld := ⟨(R.CLK_STATUS u), 4, 1⟩
def F.CLK_STATUS_PEND (u : Nat) : Fld := ⟨(R.CLK_STATUS u), 5, 1⟩

/-- Register CLKn_TC (R432). -/
def R.CLK_TC (u : Nat) : Nat := 0x700024 + 0x10000 * u
def F.CLK_TC_TC1 (u : Nat) : Fld := ⟨(R.CLK_TC u), 0, 16⟩
def F.CLK_TC_TC2 (u : Nat) : Fld := ⟨(R.CLK_TC u), 16, 16⟩

/-- Register CLKn_PHERR (R432). -/
def R.CLK_PHERR (u : Nat) : Nat := 0x700028 + 0x10000 * u
def F.CLK_PHERR_PHERR (u : Nat) : Fld := ⟨(R.CLK_PHERR u), 0, 16⟩

/-- Register CLK_REF (R432). -/
def R.CLK_REF : Nat := 0x700100
def F.CLK_REF_SRC : Fld := ⟨R.CLK_REF, 0, 1⟩
def F.CLK_REF_REFLOST : Fld := ⟨R.CLK_REF, 1, 1⟩
def F.CLK_REF_REF_SW : Fld := ⟨R.CLK_REF, 8, 8⟩
def F.CLK_REF_HO_MAX : Fld := ⟨R.CLK_REF, 16, 16⟩

/-- Register CLKn_LOCK (R432). -/
def R.CLK_LOCK (u : Nat) : Nat := 0x7000fc + 0x10000 * u
def F.CLK_LOCK_LOCK (u : Nat) : Fld := ⟨(R.CLK_LOCK u), 0, 1⟩

/-- Register FLT_STICKY (R467). -/
def R.FLT_STICKY (i : Nat) : Nat := 0x10000 + 0x4 * i
def F.FLT_STICKY_STICKY (i : Nat) : Fld := ⟨(R.FLT_STICKY i), 0, 32⟩

/-- Register FLT_SEV (R467). -/
def R.FLT_SEV (i : Nat) : Nat := 0x10100 + 0x4 * i
def F.FLT_SEV_SEV (i : Nat) : Fld := ⟨(R.FLT_SEV i), 0, 32⟩

/-- Register FLT_INC (R467). -/
def R.FLT_INC : Nat := 0x10200
def F.FLT_INC_INC_SRC : Fld := ⟨R.FLT_INC, 0, 9⟩
def F.FLT_INC_OPEN : Fld := ⟨R.FLT_INC, 9, 1⟩
def F.FLT_INC_ESCALATED : Fld := ⟨R.FLT_INC, 10, 1⟩
def F.FLT_INC_MERGED : Fld := ⟨R.FLT_INC, 16, 11⟩

/-- Register FLT_INC_T_LO (R467). -/
def R.FLT_INC_T_LO : Nat := 0x10204
def F.FLT_INC_T_LO_TIME : Fld := ⟨R.FLT_INC_T_LO, 0, 32⟩

/-- Register FLT_INC_T_HI (R467). -/
def R.FLT_INC_T_HI : Nat := 0x10208
def F.FLT_INC_T_HI_TIME : Fld := ⟨R.FLT_INC_T_HI, 0, 32⟩

/-- Register FLT_INC_CLR (R467). -/
def R.FLT_INC_CLR : Nat := 0x1020c
def F.FLT_INC_CLR_SRC : Fld := ⟨R.FLT_INC_CLR, 0, 9⟩
def F.FLT_INC_CLR_KEY : Fld := ⟨R.FLT_INC_CLR, 16, 8⟩

/-- Register FLT_FIRST (R467). -/
def R.FLT_FIRST : Nat := 0x10210
def F.FLT_FIRST_SRC : Fld := ⟨R.FLT_FIRST, 0, 9⟩
def F.FLT_FIRST_VALID : Fld := ⟨R.FLT_FIRST, 9, 1⟩

/-- Register FLT_FIRST_T_LO (R467). -/
def R.FLT_FIRST_T_LO : Nat := 0x10214
def F.FLT_FIRST_T_LO_TIME : Fld := ⟨R.FLT_FIRST_T_LO, 0, 32⟩

/-- Register FLT_FIRST_T_HI (R467). -/
def R.FLT_FIRST_T_HI : Nat := 0x10218
def F.FLT_FIRST_T_HI_TIME : Fld := ⟨R.FLT_FIRST_T_HI, 0, 32⟩

/-- Register FLT_ROUTE (R467). -/
def R.FLT_ROUTE : Nat := 0x1021c
def F.FLT_ROUTE_CORES : Fld := ⟨R.FLT_ROUTE, 0, 24⟩

/-- Register FLT_CTRL (R467). -/
def R.FLT_CTRL : Nat := 0x10220
def F.FLT_CTRL_HEALTHY : Fld := ⟨R.FLT_CTRL, 0, 1⟩
def F.FLT_CTRL_ALIVE_EN : Fld := ⟨R.FLT_CTRL, 1, 1⟩
def F.FLT_CTRL_WDOG : Fld := ⟨R.FLT_CTRL, 8, 8⟩

/-- Register FLT_KICK (R467). -/
def R.FLT_KICK : Nat := 0x10224
def F.FLT_KICK_ANY : Fld := ⟨R.FLT_KICK, 0, 32⟩

/-- Register FLT_PINS (R467). -/
def R.FLT_PINS : Nat := 0x10228
def F.FLT_PINS_FLT_A : Fld := ⟨R.FLT_PINS, 0, 1⟩
def F.FLT_PINS_FLT_B : Fld := ⟨R.FLT_PINS, 1, 1⟩
def F.FLT_PINS_ALIVE : Fld := ⟨R.FLT_PINS, 2, 1⟩
def F.FLT_PINS_WDOG_EXP : Fld := ⟨R.FLT_PINS, 3, 1⟩
def F.FLT_PINS_BLANKED : Fld := ⟨R.FLT_PINS, 4, 1⟩

/-- Register FLT_NRING (R467). -/
def R.FLT_NRING : Nat := 0x1022c
def F.FLT_NRING_HANDLE : Fld := ⟨R.FLT_NRING, 0, 32⟩

/-- Register FLT_REACT (R467). -/
def R.FLT_REACT (i : Nat) : Nat := 0x10400 + 0x4 * i
def F.FLT_REACT_REACT (i : Nat) : Fld := ⟨(R.FLT_REACT i), 0, 5⟩
def F.FLT_REACT_ESC (i : Nat) : Fld := ⟨(R.FLT_REACT i), 8, 20⟩

/-- Register SYS_ID0 (R468). -/
def R.SYS_ID0 : Nat := 0x0
def F.SYS_ID0_LOT : Fld := ⟨R.SYS_ID0, 0, 24⟩
def F.SYS_ID0_WAFER : Fld := ⟨R.SYS_ID0, 24, 5⟩

/-- Register SYS_ID1 (R468). -/
def R.SYS_ID1 : Nat := 0x4
def F.SYS_ID1_DIEX : Fld := ⟨R.SYS_ID1, 0, 8⟩
def F.SYS_ID1_DIEY : Fld := ⟨R.SYS_ID1, 8, 8⟩
def F.SYS_ID1_VARIANT : Fld := ⟨R.SYS_ID1, 16, 5⟩
def F.SYS_ID1_STEP : Fld := ⟨R.SYS_ID1, 24, 8⟩

/-- Register SYS_REPLACE (R468). -/
def R.SYS_REPLACE : Nat := 0x300
def F.SYS_REPLACE_HEAD : Fld := ⟨R.SYS_REPLACE, 0, 4⟩
def F.SYS_REPLACE_HDA : Fld := ⟨R.SYS_REPLACE, 4, 8⟩
def F.SYS_REPLACE_DRAM : Fld := ⟨R.SYS_REPLACE, 12, 1⟩
def F.SYS_REPLACE_CORE : Fld := ⟨R.SYS_REPLACE, 13, 1⟩
def F.SYS_REPLACE_REPLACE : Fld := ⟨R.SYS_REPLACE, 14, 1⟩

/-- Register SYS_CTEST (R468). -/
def R.SYS_CTEST : Nat := 0x304
def F.SYS_CTEST_CORE : Fld := ⟨R.SYS_CTEST, 0, 5⟩
def F.SYS_CTEST_GO : Fld := ⟨R.SYS_CTEST, 5, 1⟩

/-- Register SYS_CTSTAT (R468). -/
def R.SYS_CTSTAT : Nat := 0x308
def F.SYS_CTSTAT_CT_BUSY : Fld := ⟨R.SYS_CTSTAT, 0, 1⟩
def F.SYS_CTSTAT_CT_DONE : Fld := ⟨R.SYS_CTSTAT, 1, 1⟩
def F.SYS_CTSTAT_CT_FAIL : Fld := ⟨R.SYS_CTSTAT, 2, 1⟩
def F.SYS_CTSTAT_CT_REFUSED : Fld := ⟨R.SYS_CTSTAT, 3, 1⟩
def F.SYS_CTSTAT_CORE_FAIL : Fld := ⟨R.SYS_CTSTAT, 8, 24⟩

/-- Register SYS_DCSVC (R468). -/
def R.SYS_DCSVC : Nat := 0x310
def F.SYS_DCSVC_SVC : Fld := ⟨R.SYS_DCSVC, 0, 16⟩

/-- Register ACD_CTRL (R469). -/
def R.ACD_CTRL : Nat := 0x3a0000
def F.ACD_CTRL_EN : Fld := ⟨R.ACD_CTRL, 0, 1⟩
def F.ACD_CTRL_HANDOVER : Fld := ⟨R.ACD_CTRL, 1, 1⟩
def F.ACD_CTRL_KEY : Fld := ⟨R.ACD_CTRL, 8, 8⟩

/-- Register ACD_STATUS (R469). -/
def R.ACD_STATUS : Nat := 0x3a0004
def F.ACD_STATUS_STATE : Fld := ⟨R.ACD_STATUS, 0, 3⟩
def F.ACD_STATUS_JOINED : Fld := ⟨R.ACD_STATUS, 3, 1⟩
def F.ACD_STATUS_ROLE : Fld := ⟨R.ACD_STATUS, 4, 1⟩
def F.ACD_STATUS_TOKEN : Fld := ⟨R.ACD_STATUS, 5, 1⟩
def F.ACD_STATUS_OWN_IN : Fld := ⟨R.ACD_STATUS, 6, 1⟩
def F.ACD_STATUS_MIRROR_OK : Fld := ⟨R.ACD_STATUS, 7, 4⟩
def F.ACD_STATUS_LOST : Fld := ⟨R.ACD_STATUS, 11, 1⟩
def F.ACD_STATUS_REFUSED : Fld := ⟨R.ACD_STATUS, 12, 1⟩
def F.ACD_STATUS_REASON : Fld := ⟨R.ACD_STATUS, 13, 3⟩
def F.ACD_STATUS_CONFLICT : Fld := ⟨R.ACD_STATUS, 16, 1⟩
def F.ACD_STATUS_TKO : Fld := ⟨R.ACD_STATUS, 17, 1⟩

/-- Register ACD_CFGSUM (R469). -/
def R.ACD_CFGSUM : Nat := 0x3a0008
def F.ACD_CFGSUM_SUM : Fld := ⟨R.ACD_CFGSUM, 0, 32⟩

/-- Register ACD_PTOFF (R469). -/
def R.ACD_PTOFF : Nat := 0x3a000c
def F.ACD_PTOFF_OFF : Fld := ⟨R.ACD_PTOFF, 0, 16⟩

/-- Register ACD_FWSQ (R469). -/
def R.ACD_FWSQ : Nat := 0x3a0010
def F.ACD_FWSQ_HANDLE : Fld := ⟨R.ACD_FWSQ, 0, 32⟩

/-- Register ACD_FWCQ (R469). -/
def R.ACD_FWCQ : Nat := 0x3a0014
def F.ACD_FWCQ_HANDLE : Fld := ⟨R.ACD_FWCQ, 0, 32⟩

/-- Register NVM_HEAD (R470). -/
def R.NVM_HEAD : Nat := 0x20000
def F.NVM_HEAD_SEQ : Fld := ⟨R.NVM_HEAD, 0, 32⟩

/-- Register NVM_INDEX (R470). -/
def R.NVM_INDEX : Nat := 0x20004
def F.NVM_INDEX_INDEX : Fld := ⟨R.NVM_INDEX, 0, 11⟩

/-- Register NVM_STATUS (R470). -/
def R.NVM_STATUS : Nat := 0x20008
def F.NVM_STATUS_BUSY : Fld := ⟨R.NVM_STATUS, 0, 1⟩
def F.NVM_STATUS_CMD_REJ : Fld := ⟨R.NVM_STATUS, 1, 1⟩
def F.NVM_STATUS_LOST : Fld := ⟨R.NVM_STATUS, 16, 16⟩

/-- Register NVM_BOOTS (R470). -/
def R.NVM_BOOTS : Nat := 0x2000c
def F.NVM_BOOTS_BOOTS : Fld := ⟨R.NVM_BOOTS, 0, 32⟩

/-- Register NVM_APP_LO (R470). -/
def R.NVM_APP_LO : Nat := 0x20010
def F.NVM_APP_LO_ADDR : Fld := ⟨R.NVM_APP_LO, 0, 32⟩

/-- Register NVM_APP_HI (R470). -/
def R.NVM_APP_HI : Nat := 0x20014
def F.NVM_APP_HI_ADDR : Fld := ⟨R.NVM_APP_HI, 0, 8⟩

/-- Register NVM_APP_CMD (R470). -/
def R.NVM_APP_CMD : Nat := 0x20018
def F.NVM_APP_CMD_KIND : Fld := ⟨R.NVM_APP_CMD, 0, 8⟩
def F.NVM_APP_CMD_LEN : Fld := ⟨R.NVM_APP_CMD, 8, 8⟩

end Sys2Proof.Machine
end

