-- ==== Sys2Proof/Machine/RegTable.lean ====
section
/-!
DEFINITION. The register map of the block, taken field by field from the register tables of the spec's chapters
(R8, R43, R81, R108, R112, R141, R168, R189, R190, R224, R246, R247, R278, R279, R308, R334, R335, R351, R363,
R397 to R399, R430 to R432, R467 to R470) under the window map R46: for each window its registers, with the offset,
the stride and count of an array, and each field's place, access code (R12) and reset value.
A reset value the tables give by reference (per owning block, fused, from MRAM) is 0 here and is supplied by
`regSpecial` (Machine/RegReset.lean).
-/
namespace Sys2Proof.Machine

/-- The access codes of R12. -/
inductive Acc where
  | rw | ro | wo | w1c | w1s | rc | wl
  deriving DecidableEq, Repr

/-- One field of a register: lowest bit, width, access code, whether the chapter marks it *snapshot* (R37), reset. -/
structure RegField where
  lo : Nat
  width : Nat
  acc : Acc
  snap : Bool
  rst : Nat
  deriving DecidableEq, Repr

/-- One register, or an array of them: offset of the first, stride and count. -/
structure RegSpec where
  off : Nat
  stride : Nat
  cnt : Nat
  fields : List RegField
  deriving DecidableEq, Repr

/-- Registers of the SYS window. -/
def regsSYS : List RegSpec := [
  -- SYS_PRESENCE: STN, HDA, DCH, CAM, ACCORD, GRADE, PKG, VARIANT
  ⟨0x10, 0x4, 1, [⟨0, 4, .ro, false, 0⟩, ⟨4, 4, .ro, false, 0⟩, ⟨8, 8, .ro, false, 0⟩, ⟨16, 4, .ro, false, 0⟩, ⟨20, 1, .ro, false, 0⟩, ⟨21, 1, .ro, false, 0⟩, ⟨22, 1, .ro, false, 0⟩, ⟨24, 5, .ro, false, 0⟩]⟩,
  -- SYS_PTIME_LO: PTIME
  ⟨0x40, 0x4, 1, [⟨0, 32, .ro, false, 0⟩]⟩,
  -- SYS_PTIME_HI: PTIME
  ⟨0x44, 0x4, 1, [⟨0, 32, .ro, false, 0⟩]⟩,
  -- SYS_ADMIT_REQ: HANDLE
  ⟨0x100, 0x4, 1, [⟨0, 32, .wo, false, 0⟩]⟩,
  -- SYS_ADMIT_STATUS: DEPTH, FULLSEEN, WD_LATE
  ⟨0x104, 0x4, 1, [⟨0, 5, .ro, false, 0⟩, ⟨5, 1, .w1c, false, 0⟩, ⟨6, 1, .w1c, false, 0⟩]⟩,
  -- SYS_WITHDRAW: HANDLE
  ⟨0x108, 0x4, 1, [⟨0, 32, .wo, false, 0⟩]⟩,
  -- SYS_SPOIL: HANDLE
  ⟨0x10c, 0x4, 1, [⟨0, 32, .wo, false, 0⟩]⟩,
  -- SYS_SNAP_REQ: DOMAINS
  ⟨0x200, 0x4, 1, [⟨0, 24, .wo, false, 0⟩]⟩,
  -- SYS_SNAP_STATUS: BUSY, DONE, OVERRUN, TIMEOUT
  ⟨0x204, 0x4, 1, [⟨0, 1, .ro, false, 0⟩, ⟨1, 1, .w1c, false, 0⟩, ⟨2, 1, .w1c, false, 0⟩, ⟨3, 1, .w1c, false, 0⟩]⟩,
  -- SYS_SNAP_MISS: DOMAINS
  ⟨0x208, 0x4, 1, [⟨0, 24, .ro, false, 0⟩]⟩,
  -- SYS_SNAP_TIME_LO: TIME
  ⟨0x210, 0x4, 1, [⟨0, 32, .ro, false, 0⟩]⟩,
  -- SYS_SNAP_TIME_HI: TIME
  ⟨0x214, 0x4, 1, [⟨0, 32, .ro, false, 0⟩]⟩,
  -- SYS_ID0: LOT, WAFER
  ⟨0x0, 0x4, 1, [⟨0, 24, .ro, false, 0⟩, ⟨24, 5, .ro, false, 0⟩]⟩,
  -- SYS_ID1: DIEX, DIEY, VARIANT, STEP
  ⟨0x4, 0x4, 1, [⟨0, 8, .ro, false, 0⟩, ⟨8, 8, .ro, false, 0⟩, ⟨16, 5, .ro, false, 0⟩, ⟨24, 8, .ro, false, 0⟩]⟩,
  -- SYS_REPLACE: HEAD, HDA, DRAM, CORE, REPLACE
  ⟨0x300, 0x4, 1, [⟨0, 4, .ro, false, 0⟩, ⟨4, 8, .ro, false, 0⟩, ⟨12, 1, .ro, false, 0⟩, ⟨13, 1, .ro, false, 0⟩, ⟨14, 1, .ro, false, 0⟩]⟩,
  -- SYS_CTEST: CORE, GO
  ⟨0x304, 0x4, 1, [⟨0, 5, .wo, false, 0⟩, ⟨5, 1, .wo, false, 0⟩]⟩,
  -- SYS_CTSTAT: CT_BUSY, CT_DONE, CT_FAIL, CT_REFUSED, CORE_FAIL
  ⟨0x308, 0x4, 1, [⟨0, 1, .ro, false, 0⟩, ⟨1, 1, .w1c, false, 0⟩, ⟨2, 1, .w1c, false, 0⟩, ⟨3, 1, .w1c, false, 0⟩, ⟨8, 24, .ro, false, 0⟩]⟩,
  -- SYS_DCSVC: SVC
  ⟨0x310, 0x4, 1, [⟨0, 16, .rw, false, 0⟩]⟩]

/-- Registers of the CRS window. -/
def regsCRS : List RegSpec := [
  -- CRSn_CTRL: RUN, SRESET
  ⟨0x0, 0x4, 1, [⟨0, 1, .rw, false, 0⟩, ⟨1, 1, .wo, false, 0⟩]⟩,
  -- CRSn_STATUS: STATE, DSP, INTRAP, IW_DENIED
  ⟨0x4, 0x4, 1, [⟨0, 3, .ro, false, 0⟩, ⟨3, 1, .ro, false, 0⟩, ⟨4, 1, .ro, false, 0⟩, ⟨5, 1, .w1c, false, 0⟩]⟩,
  -- CRSn_ENTRY: ENTRY
  ⟨0x8, 0x4, 1, [⟨2, 14, .wl, false, 0⟩]⟩,
  -- CRSn_PC: PC
  ⟨0xc, 0x4, 1, [⟨0, 16, .ro, false, 0⟩]⟩,
  -- CRSn_TRAPINFO: DT_CAUSE, FIRST_CAUSE, DT_PC
  ⟨0x10, 0x4, 1, [⟨0, 4, .ro, false, 0⟩, ⟨4, 4, .ro, false, 0⟩, ⟨8, 14, .ro, false, 0⟩]⟩,
  -- CRSn_ECC_CNT: IRAM, DRAM_LOCAL
  ⟨0x20, 0x4, 1, [⟨0, 16, .rc, false, 0⟩, ⟨16, 16, .rc, false, 0⟩]⟩,
  -- CRSn_ECC_ADDR: ADDR, SPACE, VALID
  ⟨0x24, 0x4, 1, [⟨2, 14, .ro, false, 0⟩, ⟨16, 1, .ro, false, 0⟩, ⟨17, 1, .w1c, false, 0⟩]⟩,
  -- CRSn_EVINJ: EVENTS
  ⟨0x28, 0x4, 1, [⟨0, 31, .wo, false, 0⟩]⟩,
  -- CRSn_LOCK: LOCK
  ⟨0x30, 0x4, 1, [⟨0, 1, .w1s, false, 0⟩]⟩]

/-- Registers of the RNG window. -/
def regsRNG : List RegSpec := [
  -- RNGn_CFG: LOG2SIZE, ROLE, POLICY, OPEN, ERROR
  ⟨0x1000, 0x20, 64, [⟨0, 4, .ro, false, 0⟩, ⟨4, 2, .ro, false, 0⟩, ⟨6, 1, .ro, false, 0⟩, ⟨7, 1, .ro, false, 0⟩, ⟨8, 1, .ro, false, 0⟩]⟩,
  -- RNGn_PROD: COUNT
  ⟨0x1004, 0x20, 64, [⟨0, 32, .ro, false, 0⟩]⟩,
  -- RNGn_CONS: COUNT
  ⟨0x1008, 0x20, 64, [⟨0, 32, .ro, false, 0⟩]⟩,
  -- RNGn_PDB: VALUE
  ⟨0x100c, 0x20, 64, [⟨0, 32, .wo, false, 0⟩]⟩,
  -- RNGn_CDB: VALUE
  ⟨0x1010, 0x20, 64, [⟨0, 32, .wo, false, 0⟩]⟩,
  -- RNGn_STAT: DROPS, DBERR, OVF
  ⟨0x1014, 0x20, 64, [⟨0, 16, .rc, false, 0⟩, ⟨16, 1, .w1c, false, 0⟩, ⟨17, 1, .w1c, false, 0⟩]⟩,
  -- RNGn_BASE_LO: BASE
  ⟨0x1018, 0x20, 64, [⟨0, 32, .ro, false, 0⟩]⟩,
  -- RNGn_BASE_HI: BASE
  ⟨0x101c, 0x20, 64, [⟨0, 8, .ro, false, 0⟩]⟩]

/-- Registers of the OBJ window. -/
def regsOBJ : List RegSpec := [
  -- OBJ_STATUS: STALE_SEEN, EXH_SEEN, CMD_REJ, TBL_ECC
  ⟨0x0, 0x4, 1, [⟨0, 1, .w1c, false, 0⟩, ⟨1, 1, .w1c, false, 0⟩, ⟨2, 1, .w1c, false, 0⟩, ⟨3, 1, .w1c, false, 0⟩]⟩,
  -- OBJ_PAGE_READY: HANDLE
  ⟨0x20, 0x4, 1, [⟨0, 32, .wo, false, 0⟩]⟩,
  -- OBJ_JOB_START: HANDLE
  ⟨0x24, 0x4, 1, [⟨0, 32, .wo, false, 0⟩]⟩,
  -- OBJ_JOB_STOP: HANDLE
  ⟨0x28, 0x4, 1, [⟨0, 32, .wo, false, 0⟩]⟩,
  -- OBJ_DRAIN: SRC, DST, GO
  ⟨0x30, 0x4, 1, [⟨0, 5, .wo, false, 0⟩, ⟨8, 5, .wo, false, 0⟩, ⟨16, 1, .wo, false, 0⟩]⟩,
  -- OBJ_DRAIN_STATUS: BUSY, DONE, REFUSED, MOVED
  ⟨0x34, 0x4, 1, [⟨0, 1, .ro, false, 0⟩, ⟨1, 1, .w1c, false, 0⟩, ⟨2, 1, .w1c, false, 0⟩, ⟨16, 16, .ro, false, 0⟩]⟩,
  -- OBJ_FREE: FREE, LOW
  ⟨0x104, 0x4, 14, [⟨0, 16, .ro, false, 0⟩, ⟨16, 16, .rc, false, 0⟩]⟩]

/-- Registers of the EXP window. -/
def regsEXP : List RegSpec := [
  -- EXPs_SCAN: SOS, BD_WIN, BD_POL, FIDX_EN, MIRROR
  ⟨0x0, 0x4, 1, [⟨0, 16, .rw, false, 7400⟩, ⟨16, 8, .rw, false, 16⟩, ⟨24, 1, .rw, false, 0⟩, ⟨25, 1, .rw, false, 0⟩, ⟨26, 1, .rw, false, 0⟩]⟩,
  -- EXPs_FACETPX: FACET_PX
  ⟨0x4, 0x4, 1, [⟨0, 16, .rw, false, 39640⟩]⟩,
  -- EXPs_BD: BD_HOLD, LOCKN, MINW
  ⟨0x8, 0x4, 1, [⟨0, 2, .rw, false, 2⟩, ⟨8, 6, .rw, false, 32⟩, ⟨16, 8, .rw, false, 4⟩]⟩,
  -- EXPs_PICOT: EN, K, N
  ⟨0xc, 0x4, 1, [⟨0, 1, .rw, false, 0⟩, ⟨2, 2, .rw, false, 1⟩, ⟨4, 4, .rw, false, 4⟩]⟩,
  -- EXPs_TONE_LO: TONE
  ⟨0x10, 0x4, 1, [⟨0, 32, .rw, false, 0⟩]⟩,
  -- EXPs_TONE_HI: TONE
  ⟨0x14, 0x4, 1, [⟨0, 32, .rw, false, 0⟩]⟩,
  -- EXPs_CTRL: FLYOFF
  ⟨0x18, 0x4, 1, [⟨0, 1, .wo, false, 0⟩]⟩,
  -- EXPs_STATUS: BD_LOCK, FLYING, FIDX_OK, FIDX_ERR, CFG_BUSY, CFG_ERR, IN_JOB
  ⟨0x20, 0x4, 1, [⟨0, 1, .ro, false, 0⟩, ⟨1, 1, .ro, false, 0⟩, ⟨2, 1, .ro, false, 0⟩, ⟨3, 1, .w1c, false, 0⟩, ⟨4, 1, .w1c, false, 0⟩, ⟨5, 1, .w1c, false, 0⟩, ⟨6, 1, .ro, false, 0⟩]⟩,
  -- EXPs_LINE_LO: LINE
  ⟨0x30, 0x4, 1, [⟨0, 32, .ro, true, 0⟩]⟩,
  -- EXPs_LINE_HI: LINE
  ⟨0x34, 0x4, 1, [⟨0, 8, .ro, true, 0⟩]⟩,
  -- EXPs_FACETCNT: FACETS
  ⟨0x38, 0x4, 1, [⟨0, 32, .ro, true, 0⟩]⟩,
  -- EXPs_BDT_LO: TIME
  ⟨0x40, 0x4, 1, [⟨0, 32, .ro, true, 0⟩]⟩,
  -- EXPs_BDT_HI: TIME
  ⟨0x44, 0x4, 1, [⟨0, 32, .ro, true, 0⟩]⟩,
  -- EXPs_BDPH: FINE, PH, CARRY
  ⟨0x48, 0x4, 1, [⟨0, 13, .ro, true, 0⟩, ⟨16, 6, .ro, true, 0⟩, ⟨22, 1, .ro, true, 0⟩]⟩,
  -- EXPs_FPER: PERIOD
  ⟨0x4c, 0x4, 1, [⟨0, 32, .ro, true, 0⟩]⟩,
  -- EXPs_CNT: FLYWHEELS, SPURIOUS
  ⟨0x50, 0x4, 1, [⟨0, 16, .rc, false, 0⟩, ⟨16, 16, .rc, false, 0⟩]⟩,
  -- EXPs_FCTL: COMMIT, MODE, CANCEL
  ⟨0x60, 0x4, 1, [⟨0, 1, .wo, false, 0⟩, ⟨1, 1, .wo, false, 0⟩, ⟨2, 1, .wo, false, 0⟩]⟩,
  -- EXPs_FSTAT: STAGE, DIRTY, SWAPPED, LOAD_ERR, FIRE_BUSY, ENT_ERR, PICOT_CLAMP
  ⟨0x64, 0x4, 1, [⟨0, 2, .ro, false, 0⟩, ⟨2, 1, .ro, false, 0⟩, ⟨3, 1, .w1c, false, 0⟩, ⟨4, 1, .w1c, false, 0⟩, ⟨5, 1, .w1c, false, 0⟩, ⟨6, 1, .w1c, false, 0⟩, ⟨7, 1, .w1c, false, 0⟩]⟩,
  -- EXPs_SWAPL_LO: LINE
  ⟨0x68, 0x4, 1, [⟨0, 32, .ro, true, 0⟩]⟩,
  -- EXPs_SWAPL_HI: LINE
  ⟨0x6c, 0x4, 1, [⟨0, 8, .ro, true, 0⟩]⟩,
  -- EXPs_FCORR: FCORR
  ⟨0x80, 0x4, 10, [⟨0, 9, .rw, false, 0⟩]⟩,
  -- EXPs_ZONE: Z
  ⟨0x100, 0x4, 65, [⟨0, 11, .rw, false, 0⟩]⟩,
  -- EXP_DELAY: DELAY
  ⟨0x400, 0x4, 128, [⟨0, 16, .rw, false, 0⟩]⟩,
  -- EXP_FIRE: POS, WIDTH
  ⟨0x4000, 0x4, 2048, [⟨0, 6, .rw, false, 0⟩, ⟨8, 7, .rw, false, 0⟩]⟩]

/-- Registers of the LAC window. -/
def regsLAC : List RegSpec := [
  -- LACs_STATUS: CHK_BUSY, OK1, OK2, OK4, DEAD_PEND, REPLACE, HOT_TRIP, TEMP_STALE, CFG_BUSY, CFG_ERR, COOL_PEND
  ⟨0x0, 0x4, 1, [⟨0, 1, .ro, false, 0⟩, ⟨1, 1, .ro, false, 1⟩, ⟨2, 1, .ro, false, 1⟩, ⟨3, 1, .ro, false, 1⟩, ⟨4, 1, .ro, false, 0⟩, ⟨5, 1, .ro, false, 0⟩, ⟨6, 1, .w1c, false, 0⟩, ⟨7, 1, .ro, false, 0⟩, ⟨8, 1, .w1c, false, 0⟩, ⟨9, 1, .w1c, false, 0⟩, ⟨10, 1, .ro, false, 0⟩]⟩,
  -- LACs_CHK1: RULE, INDEX, COL, PASS
  ⟨0x4, 0x4, 1, [⟨0, 4, .ro, false, 0⟩, ⟨4, 7, .ro, false, 0⟩, ⟨16, 6, .ro, false, 0⟩, ⟨24, 2, .ro, false, 0⟩]⟩,
  -- LACs_CHK2: RULE, INDEX, COL, PASS
  ⟨0x8, 0x4, 1, [⟨0, 4, .ro, false, 0⟩, ⟨4, 7, .ro, false, 0⟩, ⟨16, 6, .ro, false, 0⟩, ⟨24, 2, .ro, false, 0⟩]⟩,
  -- LACs_CHK4: RULE, INDEX, COL, PASS
  ⟨0xc, 0x4, 1, [⟨0, 4, .ro, false, 0⟩, ⟨4, 7, .ro, false, 0⟩, ⟨16, 6, .ro, false, 0⟩, ⟨24, 2, .ro, false, 0⟩]⟩,
  -- LACs_DUTY: HLIM, CLIP_PICOT
  ⟨0x10, 0x4, 1, [⟨0, 9, .rw, false, 256⟩, ⟨16, 1, .rw, false, 1⟩]⟩,
  -- LACs_PROBE: PROBE_N, PROBE_Q, PROBE_MIN, PROBE_W
  ⟨0x14, 0x4, 1, [⟨0, 5, .rw, false, 4⟩, ⟨8, 4, .rw, false, 3⟩, ⟨16, 8, .rw, false, 64⟩, ⟨24, 7, .rw, false, 16⟩]⟩,
  -- LACs_SUB: LANES, DEAD, UNSUB, CAP
  ⟨0x18, 0x4, 1, [⟨0, 5, .ro, false, 0⟩, ⟨8, 8, .ro, false, 0⟩, ⟨16, 8, .ro, false, 0⟩, ⟨24, 5, .ro, false, 0⟩]⟩,
  -- LACs_TWARN: TLIM
  ⟨0x20, 0x4, 1, [⟨0, 12, .rw, false, 0⟩]⟩,
  -- LACs_TCOMMIT: TLIM
  ⟨0x24, 0x4, 1, [⟨0, 12, .rw, false, 0⟩]⟩,
  -- LACs_TABS: TLIM
  ⟨0x28, 0x4, 1, [⟨0, 12, .rw, false, 0⟩]⟩,
  -- LACs_THR: RATE
  ⟨0x2c, 0x4, 1, [⟨0, 8, .rw, false, 16⟩]⟩,
  -- LACs_THERM: HT, SPD_REQ
  ⟨0x30, 0x4, 1, [⟨0, 12, .ro, false, 0⟩, ⟨16, 10, .ro, false, 0⟩]⟩,
  -- LACs_SPDBND: SPD_BND
  ⟨0x34, 0x4, 1, [⟨0, 10, .ro, false, 0⟩]⟩,
  -- LACs_COOL_OFF: VALUE
  ⟨0x38, 0x4, 1, [⟨0, 24, .rw, false, 0⟩]⟩,
  -- LACs_COOL_DATA: VALUE
  ⟨0x3c, 0x4, 1, [⟨0, 32, .rw, false, 0⟩]⟩,
  -- LACs_CLIPCNT: EMIT, HEAD
  ⟨0x40, 0x4, 1, [⟨0, 16, .rc, false, 0⟩, ⟨16, 16, .rc, false, 0⟩]⟩,
  -- LACs_CUTL_LO: LINE
  ⟨0x48, 0x4, 1, [⟨0, 32, .ro, true, 0⟩]⟩,
  -- LACs_CUTL_HI: LINE
  ⟨0x4c, 0x4, 1, [⟨0, 8, .ro, true, 0⟩]⟩,
  -- LACs_DEAD: BEAMS
  ⟨0x50, 0x4, 4, [⟨0, 32, .rw, false, 0⟩]⟩,
  -- LACs_DEADEFF: BEAMS
  ⟨0x60, 0x4, 4, [⟨0, 32, .ro, false, 0⟩]⟩,
  -- LACs_UNSUB: BEAMS
  ⟨0x70, 0x4, 4, [⟨0, 32, .ro, false, 0⟩]⟩,
  -- LACs_PFAIL: BEAMS
  ⟨0x80, 0x4, 4, [⟨0, 32, .w1c, false, 0⟩]⟩,
  -- LAC_MAP: LOFF, PASS2, PASS4
  ⟨0x400, 0x4, 128, [⟨0, 10, .rw, false, 0⟩, ⟨16, 1, .ro, false, 0⟩, ⟨18, 2, .ro, false, 0⟩]⟩,
  -- LAC_ELIM: ELIM
  ⟨0x800, 0x4, 128, [⟨0, 9, .rw, false, 154⟩]⟩,
  -- LAC_MASK: BITS
  ⟨0x1000, 0x4, 256, [⟨0, 32, .rw, false, 0⟩]⟩]

/-- Registers of the ELK window. -/
def regsELK : List RegSpec := [
  -- ELKs_CTRL: EN, RETRAIN, CLAIM
  ⟨0x0, 0x4, 1, [⟨0, 1, .rw, false, 0⟩, ⟨1, 1, .wo, false, 0⟩, ⟨2, 1, .ro, false, 0⟩]⟩,
  -- ELKs_STATUS: STATE, TRAINED, FAILSTEP, LOST, EXEC, CONFLICT, CMD_REJ, HLOOP, HOVR
  ⟨0x4, 0x4, 1, [⟨0, 3, .ro, false, 0⟩, ⟨3, 1, .ro, false, 0⟩, ⟨4, 3, .ro, false, 0⟩, ⟨7, 1, .w1c, false, 0⟩, ⟨8, 1, .ro, false, 0⟩, ⟨9, 1, .w1c, false, 0⟩, ⟨10, 1, .w1c, false, 0⟩, ⟨11, 1, .w1c, false, 0⟩, ⟨12, 1, .w1c, false, 0⟩]⟩,
  -- ELKs_LAT: L
  ⟨0x8, 0x4, 1, [⟨0, 19, .ro, false, 0⟩]⟩,
  -- ELKs_LATK: KSUM, KFWD
  ⟨0xc, 0x4, 1, [⟨0, 16, .wl, false, 31200⟩, ⟨16, 16, .wl, false, 14800⟩]⟩,
  -- ELKs_CNT: NACKS, BCERR, ATTEMPTS
  ⟨0x10, 0x4, 1, [⟨0, 12, .rc, false, 0⟩, ⟨12, 12, .rc, false, 0⟩, ⟨24, 8, .rc, false, 0⟩]⟩,
  -- ELKs_CREDIT: CREDITS
  ⟨0x14, 0x4, 1, [⟨0, 13, .ro, true, 0⟩]⟩,
  -- ELKs_HEADID: MODEL, REV, PORT
  ⟨0x18, 0x4, 1, [⟨0, 16, .ro, false, 0⟩, ⟨16, 8, .ro, false, 0⟩, ⟨24, 1, .ro, false, 0⟩]⟩,
  -- ELKs_LOCK: LOCK
  ⟨0x1c, 0x4, 1, [⟨0, 1, .w1s, false, 0⟩]⟩]

/-- Registers of the ILK window. -/
def regsILK : List RegSpec := [
  -- ILK_STATUS: LOOPA, LOOPB, LASER, ARMABLE, DISCREP
  ⟨0x0, 0x4, 1, [⟨0, 4, .ro, false, 0⟩, ⟨4, 4, .ro, false, 0⟩, ⟨8, 4, .ro, false, 0⟩, ⟨12, 4, .ro, false, 0⟩, ⟨16, 4, .w1c, false, 0⟩]⟩,
  -- ILK_ARM: ARM, DISARM, KEY
  ⟨0x4, 0x4, 1, [⟨0, 4, .wo, false, 0⟩, ⟨4, 4, .wo, false, 0⟩, ⟨8, 8, .wo, false, 0⟩]⟩,
  -- ILK_PANEL: KEYS, PBTN, SHORT, LONG
  ⟨0x10, 0x4, 1, [⟨0, 8, .ro, false, 0⟩, ⟨8, 1, .ro, false, 0⟩, ⟨9, 1, .w1c, false, 0⟩, ⟨10, 1, .w1c, false, 0⟩]⟩,
  -- ILK_CFG: KEY_DEB
  ⟨0x14, 0x4, 1, [⟨0, 6, .rw, false, 16⟩]⟩,
  -- ILK_EVGRP: HANDLE
  ⟨0x18, 0x4, 1, [⟨0, 32, .rw, false, 0⟩]⟩,
  -- ILK_LED: MODE, REPL_FORCE
  ⟨0x20, 0x4, 1, [⟨0, 16, .rw, false, 0⟩, ⟨16, 1, .rw, false, 0⟩]⟩,
  -- ILK_CNS_STATUS: PRESENT, CHANGED
  ⟨0x30, 0x4, 1, [⟨0, 8, .ro, false, 0⟩, ⟨8, 8, .w1c, false, 0⟩]⟩,
  -- ILK_CNS_CMD: PORT, IDONLY, ADDR, LEN, GO
  ⟨0x34, 0x4, 1, [⟨0, 3, .wo, false, 0⟩, ⟨3, 1, .wo, false, 0⟩, ⟨8, 8, .wo, false, 0⟩, ⟨16, 8, .wo, false, 0⟩, ⟨31, 1, .wo, false, 0⟩]⟩,
  -- ILK_CNS_RES: BUSY, STATUS, PORT
  ⟨0x38, 0x4, 1, [⟨0, 1, .ro, false, 0⟩, ⟨1, 3, .ro, false, 0⟩, ⟨4, 3, .ro, false, 0⟩]⟩,
  -- ILK_CNS_TID_LO: TID
  ⟨0x40, 0x4, 1, [⟨0, 32, .ro, false, 0⟩]⟩,
  -- ILK_CNS_TID_HI: TID
  ⟨0x44, 0x4, 1, [⟨0, 32, .ro, false, 0⟩]⟩,
  -- ILK_CNS_BUF: DATA
  ⟨0x100, 0x4, 64, [⟨0, 32, .ro, false, 0⟩]⟩]

/-- Registers of the ATR window. -/
def regsATR : List RegSpec := [
  -- ATRe_CTRL: ONLINE, TEST
  ⟨0x0, 0x4, 1, [⟨0, 1, .rw, false, 1⟩, ⟨1, 1, .wo, false, 0⟩]⟩,
  -- ATRe_STATUS: BUSY, BAND, CPL_HOLD, TEST_DONE, TEST_PASS, TEST_FAIL, OFF_REFUSED, ON_REFUSED, Q_ERR, FILL_ERR
  ⟨0x4, 0x4, 1, [⟨0, 1, .ro, false, 0⟩, ⟨1, 1, .ro, false, 0⟩, ⟨2, 1, .ro, false, 0⟩, ⟨3, 1, .w1c, false, 0⟩, ⟨4, 1, .ro, false, 0⟩, ⟨5, 1, .ro, false, 0⟩, ⟨6, 1, .w1c, false, 0⟩, ⟨7, 1, .w1c, false, 0⟩, ⟨8, 1, .w1c, false, 0⟩, ⟨9, 1, .w1c, false, 0⟩]⟩,
  -- ATRe_SQ: HANDLE
  ⟨0x8, 0x4, 1, [⟨0, 32, .rw, false, 0⟩]⟩,
  -- ATRe_CQ: HANDLE
  ⟨0xc, 0x4, 1, [⟨0, 32, .rw, false, 0⟩]⟩,
  -- ATRe_OUTB_LO: OUTB
  ⟨0x10, 0x4, 1, [⟨0, 32, .ro, false, 0⟩]⟩,
  -- ATRe_OUTB_HI: OUTB
  ⟨0x14, 0x4, 1, [⟨0, 32, .ro, false, 0⟩]⟩,
  -- ATRe_CNT: JOBS, ERRS
  ⟨0x18, 0x4, 1, [⟨0, 16, .rc, false, 0⟩, ⟨16, 16, .rc, false, 0⟩]⟩,
  -- ATRe_LAST: STATUS
  ⟨0x1c, 0x4, 1, [⟨0, 4, .ro, false, 0⟩]⟩,
  -- ATR_RESV: RESV, CAP
  ⟨0x100, 0x4, 1, [⟨0, 16, .ro, false, 0⟩, ⟨16, 16, .ro, false, 14400⟩]⟩]

/-- Registers of the MEM window. -/
def regsMEM : List RegSpec := [
  -- MEM_CFG: RATE, DENS, SIZE
  ⟨0x0, 0x4, 1, [⟨0, 2, .wl, false, 0⟩, ⟨2, 2, .wl, false, 0⟩, ⟨8, 8, .ro, false, 0⟩]⟩,
  -- MEM_STATUS: TRAIN_OK, FILL_BUSY, INIT_DONE, RATE_TRIP
  ⟨0x4, 0x4, 1, [⟨0, 4, .ro, false, 0⟩, ⟨4, 1, .ro, false, 0⟩, ⟨5, 1, .ro, false, 0⟩, ⟨6, 1, .w1c, false, 0⟩]⟩,
  -- MEM_CE_CNT: ONE, TWO
  ⟨0x10, 0x4, 4, [⟨0, 16, .rc, false, 0⟩, ⟨16, 16, .rc, false, 0⟩]⟩,
  -- MEM_CE_RATE: CE_WIN, CE_THR
  ⟨0x20, 0x4, 1, [⟨0, 11, .rw, false, 60⟩, ⟨16, 16, .rw, false, 64⟩]⟩,
  -- MEM_UE_ADDR_LO: ADDR
  ⟨0x30, 0x4, 1, [⟨3, 29, .ro, false, 0⟩]⟩,
  -- MEM_UE_ADDR_HI: ADDR
  ⟨0x34, 0x4, 1, [⟨0, 8, .ro, false, 0⟩]⟩,
  -- MEM_UE_INFO: REQ, CH, VALID, COUNT
  ⟨0x38, 0x4, 1, [⟨0, 4, .ro, false, 0⟩, ⟨4, 2, .ro, false, 0⟩, ⟨6, 1, .w1c, false, 0⟩, ⟨16, 16, .rc, false, 0⟩]⟩,
  -- MEM_SCRUB: SCRUB_PERIOD, PASSES
  ⟨0x40, 0x4, 1, [⟨0, 8, .rw, false, 24⟩, ⟨16, 16, .rc, false, 0⟩]⟩,
  -- MEM_SCRUB_POS_LO: POS
  ⟨0x44, 0x4, 1, [⟨6, 26, .ro, true, 0⟩]⟩,
  -- MEM_SCRUB_POS_HI: POS
  ⟨0x48, 0x4, 1, [⟨0, 8, .ro, true, 0⟩]⟩,
  -- MEM_INJ_ADDR_LO: ADDR
  ⟨0x50, 0x4, 1, [⟨3, 29, .rw, false, 0⟩]⟩,
  -- MEM_INJ_ADDR_HI: ADDR
  ⟨0x54, 0x4, 1, [⟨0, 8, .rw, false, 0⟩]⟩,
  -- MEM_INJ_CTRL: NBITS, ARM
  ⟨0x58, 0x4, 1, [⟨0, 2, .rw, false, 1⟩, ⟨2, 1, .w1s, false, 0⟩]⟩,
  -- MEM_LOCK: LOCK
  ⟨0x7c, 0x4, 1, [⟨0, 1, .w1s, false, 0⟩]⟩]

/-- Registers of the DMA window. -/
def regsDMA : List RegSpec := [
  -- DMAn_HEAD_LO: HEAD
  ⟨0x1000, 0x20, 64, [⟨0, 32, .rw, false, 0⟩]⟩,
  -- DMAn_HEAD_HI: HEAD
  ⟨0x1004, 0x20, 64, [⟨0, 8, .rw, false, 0⟩]⟩,
  -- DMAn_CTRL: GO, DISABLE
  ⟨0x1008, 0x20, 64, [⟨0, 1, .wo, false, 0⟩, ⟨1, 1, .wo, false, 0⟩]⟩,
  -- DMAn_STATUS: STATE, CODE, CMD_REJ
  ⟨0x100c, 0x20, 64, [⟨0, 3, .ro, false, 0⟩, ⟨4, 4, .ro, false, 0⟩, ⟨8, 1, .w1c, false, 0⟩]⟩,
  -- DMAn_DONE: DONE
  ⟨0x1010, 0x20, 64, [⟨0, 32, .ro, false, 0⟩]⟩,
  -- DMAn_CUR_LO: CUR
  ⟨0x1014, 0x20, 64, [⟨0, 32, .ro, false, 0⟩]⟩,
  -- DMAn_CUR_HI: CUR
  ⟨0x1018, 0x20, 64, [⟨0, 8, .ro, false, 0⟩]⟩,
  -- DMAn_MISM: MISM
  ⟨0x101c, 0x20, 64, [⟨0, 32, .ro, false, 0⟩]⟩]

/-- Registers of the TAL window. -/
def regsTAL : List RegSpec := [
  -- TAL_PORTp_CTRL: EN, GEN, MAXW, RETRAIN
  ⟨0x0, 0x20, 2, [⟨0, 1, .rw, false, 0⟩, ⟨1, 2, .rw, false, 0⟩, ⟨3, 2, .rw, false, 2⟩, ⟨5, 1, .wo, false, 0⟩]⟩,
  -- TAL_PORTp_STATUS: STATE, UP, GENUP, WIDTH, NARROW, FAILSTEP, LOST, PROTO, DUP
  ⟨0x4, 0x20, 2, [⟨0, 3, .ro, false, 0⟩, ⟨3, 1, .ro, false, 0⟩, ⟨4, 2, .ro, false, 0⟩, ⟨6, 2, .ro, false, 0⟩, ⟨8, 1, .ro, false, 0⟩, ⟨9, 3, .ro, false, 0⟩, ⟨12, 1, .w1c, false, 0⟩, ⟨13, 1, .w1c, false, 0⟩, ⟨14, 1, .w1c, false, 0⟩]⟩,
  -- TAL_PORTp_CNT: CRCERR, REPLAY, RETRAINS
  ⟨0x8, 0x20, 2, [⟨0, 12, .rc, true, 0⟩, ⟨12, 12, .rc, true, 0⟩, ⟨24, 8, .rc, false, 0⟩]⟩,
  -- TAL_PORTp_DROP: UNREACH, FAILED
  ⟨0xc, 0x20, 2, [⟨0, 16, .rc, false, 0⟩, ⟨16, 16, .rc, false, 0⟩]⟩,
  -- TAL_DEVNUM: DEV
  ⟨0x40, 0x4, 1, [⟨0, 6, .wl, false, 0⟩]⟩,
  -- TAL_EVT_TX: CODE
  ⟨0x44, 0x4, 1, [⟨0, 16, .wo, false, 0⟩]⟩,
  -- TAL_EVT_ARG: ARG
  ⟨0x48, 0x4, 1, [⟨0, 32, .rw, false, 0⟩]⟩,
  -- TAL_STATUS: CMD_REJ
  ⟨0x4c, 0x4, 1, [⟨0, 1, .w1c, false, 0⟩]⟩,
  -- TAL_T1_CFG: WORDS, EN
  ⟨0x80, 0x4, 1, [⟨0, 13, .rw, false, 6144⟩, ⟨16, 1, .rw, false, 0⟩]⟩,
  -- TAL_T1_BUF_LO: BASE
  ⟨0x84, 0x4, 1, [⟨0, 32, .rw, false, 0⟩]⟩,
  -- TAL_T1_BUF_HI: BASE
  ⟨0x88, 0x4, 1, [⟨0, 8, .rw, false, 0⟩]⟩,
  -- TAL_T1_SLOTS: SLOTS
  ⟨0x8c, 0x4, 1, [⟨0, 16, .rw, false, 0⟩]⟩,
  -- TAL_T1_RING: RING
  ⟨0x90, 0x4, 1, [⟨0, 32, .rw, false, 0⟩]⟩,
  -- TAL_T1_REL: REL
  ⟨0x94, 0x4, 1, [⟨0, 16, .wo, false, 0⟩]⟩,
  -- TAL_T1_STATUS: RDY, OVR, SHORT, DROPS
  ⟨0x98, 0x4, 1, [⟨0, 1, .ro, false, 0⟩, ⟨1, 1, .w1c, false, 0⟩, ⟨2, 1, .w1c, false, 0⟩, ⟨16, 16, .rc, true, 0⟩]⟩,
  -- TAL_LOCK: LOCK
  ⟨0xfc, 0x4, 1, [⟨0, 1, .w1s, false, 0⟩]⟩]

/-- Registers of the STQ window. -/
def regsSTQ : List RegSpec := [
  -- STQ_STATUS: NVOL, SLOTFULL, LOCKFULL
  ⟨0x0, 0x4, 1, [⟨0, 4, .ro, false, 0⟩, ⟨4, 1, .ro, false, 0⟩, ⟨5, 1, .ro, false, 0⟩]⟩,
  -- STQ_WBUF_LO: VALUE
  ⟨0x8, 0x4, 1, [⟨0, 32, .wl, false, 0⟩]⟩,
  -- STQ_WBUF_HI: VALUE
  ⟨0xc, 0x4, 1, [⟨0, 8, .wl, false, 0⟩]⟩,
  -- STQ_WBUF_SIZE: VALUE
  ⟨0x10, 0x4, 1, [⟨0, 32, .wl, false, 0⟩]⟩,
  -- STQ_TR: TR_MAX, TR_TMO
  ⟨0x14, 0x4, 1, [⟨0, 9, .rw, false, 64⟩, ⟨16, 10, .rw, false, 100⟩]⟩,
  -- STQ_VOLCMD: VOL, LOAD, UNLOAD
  ⟨0x20, 0x4, 1, [⟨0, 3, .wo, false, 0⟩, ⟨4, 1, .wo, false, 0⟩, ⟨5, 1, .wo, false, 0⟩]⟩,
  -- STQ_VOLSTAT: DONE, REFUSED, REASON
  ⟨0x24, 0x4, 1, [⟨0, 1, .w1c, false, 0⟩, ⟨1, 1, .w1c, false, 0⟩, ⟨4, 3, .ro, false, 0⟩]⟩,
  -- STQ_USE: LOCKS, CMDS
  ⟨0x30, 0x4, 1, [⟨0, 9, .ro, false, 0⟩, ⟨16, 11, .ro, false, 0⟩]⟩,
  -- STQ_VOLv_CFG: DCH, SU, LOADED, OFFLINE
  ⟨0x100, 0x10, 8, [⟨0, 8, .rw, false, 0⟩, ⟨8, 4, .rw, false, 0⟩, ⟨12, 1, .ro, false, 0⟩, ⟨13, 1, .ro, false, 0⟩]⟩,
  -- STQ_VOLv_CAP_LO: CAP
  ⟨0x104, 0x10, 8, [⟨0, 32, .ro, false, 0⟩]⟩,
  -- STQ_VOLv_CAP_HI: CAP
  ⟨0x108, 0x10, 8, [⟨0, 16, .ro, false, 0⟩]⟩,
  -- STQ_LOCK: LOCK
  ⟨0x7c, 0x4, 1, [⟨0, 1, .w1s, false, 0⟩]⟩]

/-- Registers of the DSK window, part 0. -/
def regsDSK0 : List RegSpec := [
  -- DSKd_CTRL: EN, APPLY, RELEASE, ADAPT
  ⟨0x0, 0x4, 1, [⟨0, 1, .rw, false, 0⟩, ⟨1, 1, .wo, false, 0⟩, ⟨2, 1, .wo, false, 0⟩, ⟨3, 1, .rw, false, 1⟩]⟩,
  -- DSKd_STATUS: READY, OFFLINE, CFG_ERR, Q_ERR, TORN_FULL, REPLACE
  ⟨0x4, 0x4, 1, [⟨0, 1, .ro, false, 0⟩, ⟨1, 1, .ro, false, 0⟩, ⟨2, 1, .w1c, false, 0⟩, ⟨3, 1, .w1c, false, 0⟩, ⟨4, 1, .ro, false, 0⟩, ⟨5, 1, .ro, false, 0⟩]⟩,
  -- DSKd_SQ: HANDLE
  ⟨0x8, 0x4, 1, [⟨0, 32, .rw, false, 0⟩]⟩,
  -- DSKd_CQ: HANDLE
  ⟨0xc, 0x4, 1, [⟨0, 32, .rw, false, 0⟩]⟩,
  -- DSKd_GEOM: HEADS, ZONES, SPARE_CYL
  ⟨0x10, 0x4, 1, [⟨0, 8, .rw, false, 0⟩, ⟨8, 6, .rw, false, 0⟩, ⟨16, 16, .rw, false, 0⟩]⟩,
  -- DSKd_CYLS: CYLS
  ⟨0x14, 0x4, 1, [⟨0, 20, .rw, false, 0⟩]⟩,
  -- DSKd_CAP_LO: CAP
  ⟨0x18, 0x4, 1, [⟨0, 32, .ro, false, 0⟩]⟩,
  -- DSKd_CAP_HI: CAP
  ⟨0x1c, 0x4, 1, [⟨0, 16, .ro, false, 0⟩]⟩,
  -- DSKd_RESV: RES_REV, MIR_US
  ⟨0x20, 0x4, 1, [⟨0, 4, .rw, false, 10⟩, ⟨16, 16, .rw, false, 2000⟩]⟩,
  -- DSKd_LADDER: SKIP
  ⟨0x24, 0x4, 1, [⟨0, 8, .rw, false, 0⟩]⟩,
  -- DSKd_ITER: GI_NORM, LI_NORM, GI_RETRY, LI_RETRY
  ⟨0x28, 0x4, 1, [⟨0, 3, .rw, false, 4⟩, ⟨4, 4, .rw, false, 12⟩, ⟨8, 3, .rw, false, 6⟩, ⟨16, 6, .rw, false, 60⟩]⟩,
  -- DSKd_SYNC: SYNC_TOL, ERA_THR
  ⟨0x2c, 0x4, 1, [⟨0, 4, .rw, false, 6⟩, ⟨8, 7, .rw, false, 40⟩]⟩,
  -- DSKd_TARGET: G
  ⟨0x30, 0x4, 1, [⟨0, 24, .rw, false, 0⟩]⟩,
  -- DSKd_REMAPCNT: REMAPS, REMAP_THR
  ⟨0x40, 0x4, 1, [⟨0, 13, .ro, false, 0⟩, ⟨16, 13, .rw, false, 2048⟩]⟩,
  -- DSKd_TORN: ENTRIES
  ⟨0x44, 0x4, 1, [⟨0, 6, .ro, false, 0⟩]⟩,
  -- DSKd_RDOK: COUNT
  ⟨0x50, 0x4, 1, [⟨0, 32, .ro, true, 0⟩]⟩,
  -- DSKd_RDRETRY: COUNT
  ⟨0x54, 0x4, 1, [⟨0, 32, .ro, true, 0⟩]⟩,
  -- DSKd_RDFAIL: COUNT
  ⟨0x58, 0x4, 1, [⟨0, 32, .ro, true, 0⟩]⟩,
  -- DSKd_WRCNT: COUNT
  ⟨0x60, 0x4, 1, [⟨0, 32, .ro, true, 0⟩]⟩,
  -- DSKd_SYNCCNT: TIMED, RESYNC
  ⟨0x5c, 0x4, 1, [⟨0, 16, .rc, false, 0⟩, ⟨16, 16, .rc, false, 0⟩]⟩,
  -- DSKd_CUTS: CUTS
  ⟨0x64, 0x4, 1, [⟨0, 16, .rc, false, 0⟩]⟩,
  -- DSKd_RPM: RPM_MAX, RPM_MIN
  ⟨0x68, 0x4, 1, [⟨0, 16, .ro, false, 0⟩, ⟨16, 16, .ro, false, 0⟩]⟩,
  -- DSKd_STEPCNT: RECOVERED
  ⟨0x80, 0x4, 8, [⟨0, 16, .rc, false, 0⟩]⟩,
  -- DSKd_EQ[k][0]: FC, BOOST
  ⟨0x100, 0x10, 3, [⟨0, 6, .rw, false, 0⟩, ⟨8, 5, .rw, false, 0⟩]⟩,
  -- DSKd_EQ[k][1]: taps 0 to 3
  ⟨0x104, 0x10, 3, [⟨0, 32, .rw, false, 0⟩]⟩,
  -- DSKd_EQ[k][2]: taps 4 to 7
  ⟨0x108, 0x10, 3, [⟨0, 32, .rw, false, 0⟩]⟩,
  -- DSKd_EQ[k][3]: taps 8 and 9
  ⟨0x10c, 0x10, 3, [⟨0, 16, .rw, false, 0⟩]⟩,
  -- DSKd_ZONE[z][0]: FIRST_CYL, SPT
  ⟨0x200, 0x10, 32, [⟨0, 20, .rw, false, 0⟩, ⟨20, 12, .rw, false, 0⟩]⟩,
  -- DSKd_ZONE[z][1]: TBITS
  ⟨0x204, 0x10, 32, [⟨0, 27, .rw, false, 0⟩]⟩,
  -- DSKd_ZONE[z][2]: WPC1, WPC2, WCUR
  ⟨0x208, 0x10, 32, [⟨0, 4, .rw, false, 0⟩, ⟨4, 4, .rw, false, 0⟩, ⟨8, 5, .rw, false, 0⟩]⟩,
  -- DSKd_ZONE[z][3]: reserved
  ⟨0x20c, 0x10, 32, []⟩]

/-- Registers of the DSK window, part 1. -/
def regsDSK1 : List RegSpec := [
  -- DSKd_REMAP: ENTRY
  ⟨0x8000, 0x4, 8192, [⟨0, 32, .rw, false, 0⟩]⟩,
  -- DSKd_LOCK: LOCK
  ⟨0xfc, 0x4, 1, [⟨0, 1, .w1s, false, 0⟩]⟩]

/-- Registers of the DSK window. -/
def regsDSK : List RegSpec := regsDSK0 ++ regsDSK1

/-- Registers of the SRV window. -/
def regsSRV : List RegSpec := [
  -- SRVh_SPIN: LPR, LSTN, RLOCK_EN, PH_TOL
  ⟨0x0, 0x4, 1, [⟨0, 13, .rw, false, 1000⟩, ⟨13, 2, .rw, false, 0⟩, ⟨15, 1, .rw, false, 0⟩, ⟨16, 8, .rw, false, 20⟩]⟩,
  -- SRVh_ANCHOR_LO: LINE
  ⟨0x4, 0x4, 1, [⟨0, 32, .rw, false, 0⟩]⟩,
  -- SRVh_ANCHOR_HI: LINE
  ⟨0x8, 0x4, 1, [⟨0, 8, .rw, false, 0⟩]⟩,
  -- SRVh_SPSTAT: RLOCK, RANGE_ERR, PRES, PORT_PARKED, CFG_BUSY, CFG_ERR, CMD_REJ, REMOVED
  ⟨0xc, 0x4, 1, [⟨0, 1, .ro, false, 0⟩, ⟨1, 1, .ro, false, 0⟩, ⟨2, 1, .ro, false, 0⟩, ⟨3, 1, .ro, false, 1⟩, ⟨4, 1, .w1c, false, 0⟩, ⟨5, 1, .w1c, false, 0⟩, ⟨6, 1, .w1c, false, 0⟩, ⟨7, 1, .w1c, false, 0⟩]⟩,
  -- SRVh_SLOT: SLOT
  ⟨0x10, 0x4, 1, [⟨0, 32, .ro, false, 0⟩]⟩,
  -- SRVh_PHERR: PHERR
  ⟨0x14, 0x4, 1, [⟨0, 16, .ro, false, 0⟩]⟩,
  -- SRVh_CTRL: PARK, UNPARK
  ⟨0x18, 0x4, 1, [⟨0, 2, .wo, false, 0⟩, ⟨2, 2, .wo, false, 0⟩]⟩,
  -- SRVh_PARKCFG: PARK_I, PARK_MS
  ⟨0x1c, 0x4, 1, [⟨0, 16, .rw, false, 57344⟩, ⟨16, 10, .rw, false, 200⟩]⟩,
  -- SRVh_SHK: SHK_THR
  ⟨0x20, 0x4, 1, [⟨0, 15, .rw, false, 16384⟩]⟩,
  -- SRVh_TGT: CYL, HEAD, OFFSET
  ⟨0x100, 0x40, 2, [⟨0, 20, .ro, false, 0⟩, ⟨20, 4, .ro, false, 0⟩, ⟨24, 8, .ro, false, 0⟩]⟩,
  -- SRVh_TRK: CYL, HEAD, OFFSET
  ⟨0x104, 0x40, 2, [⟨0, 20, .rw, false, 0⟩, ⟨20, 4, .rw, false, 0⟩, ⟨24, 8, .rw, false, 0⟩]⟩,
  -- SRVh_VCM: VCM
  ⟨0x108, 0x40, 2, [⟨0, 16, .wo, false, 0⟩]⟩,
  -- SRVh_ACFG: WLIM, VCM_WD
  ⟨0x10c, 0x40, 2, [⟨0, 7, .rw, false, 31⟩, ⟨8, 4, .rw, false, 4⟩]⟩,
  -- SRVh_SMPL: SMPL_BASE
  ⟨0x110, 0x40, 2, [⟨0, 16, .rw, false, 0⟩]⟩,
  -- SRVh_EVG: VALUE
  ⟨0x114, 0x40, 2, [⟨0, 32, .rw, false, 0⟩]⟩,
  -- SRVh_ASTAT: SETTLED, PARKED, SEL_LOST, GUARD, OFFCYL, EPARK, WD, CMD_REJ
  ⟨0x118, 0x40, 2, [⟨0, 1, .ro, false, 0⟩, ⟨1, 1, .ro, false, 1⟩, ⟨2, 1, .ro, false, 0⟩, ⟨3, 1, .ro, false, 1⟩, ⟨4, 1, .w1c, false, 0⟩, ⟨5, 1, .w1c, false, 0⟩, ⟨6, 1, .w1c, false, 0⟩, ⟨7, 1, .w1c, false, 0⟩]⟩,
  -- SRVh_ACNT: BADFR, GUARDS
  ⟨0x11c, 0x40, 2, [⟨0, 16, .rc, false, 0⟩, ⟨16, 16, .rc, false, 0⟩]⟩,
  -- SRVh_RDOFF: RDOFF
  ⟨0x200, 0x4, 32, [⟨0, 16, .rw, false, 0⟩]⟩]

/-- Registers of the MOT window. -/
def regsMOT : List RegSpec := [
  -- MOTn_CFG: PWM_KHZ, DT, ZBLANK, ADV
  ⟨0x0, 0x4, 1, [⟨0, 7, .rw, false, 40⟩, ⟨8, 8, .rw, false, 20⟩, ⟨16, 6, .rw, false, 16⟩, ⟨24, 6, .rw, false, 32⟩]⟩,
  -- MOTn_ALIGN: ALIGN_DUTY, ALIGN_MS
  ⟨0x4, 0x4, 1, [⟨0, 10, .rw, false, 100⟩, ⟨16, 16, .rw, false, 200⟩]⟩,
  -- MOTn_RAMP: START_RPM, HAND_RPM
  ⟨0x8, 0x4, 1, [⟨0, 16, .rw, false, 300⟩, ⟨16, 16, .rw, false, 1500⟩]⟩,
  -- MOTn_RAMPT: RAMP_MS, RAMP_DUTY, HANDN
  ⟨0xc, 0x4, 1, [⟨0, 16, .rw, false, 2000⟩, ⟨16, 10, .rw, false, 200⟩, ⟨26, 6, .rw, false, 24⟩]⟩,
  -- MOTn_LOOP: KP, KI
  ⟨0x10, 0x4, 1, [⟨0, 16, .rw, false, 64⟩, ⟨16, 16, .rw, false, 16⟩]⟩,
  -- MOTn_VLIM: VLIM, TOL
  ⟨0x14, 0x4, 1, [⟨0, 10, .rw, false, 1000⟩, ⟨16, 10, .rw, false, 10⟩]⟩,
  -- MOTn_TGT: TGT
  ⟨0x18, 0x4, 1, [⟨0, 24, .rw, false, 0⟩]⟩,
  -- MOTn_CMD: START, STOP, BRAKE, CLR
  ⟨0x1c, 0x4, 1, [⟨0, 1, .wo, false, 0⟩, ⟨1, 1, .wo, false, 0⟩, ⟨2, 1, .wo, false, 0⟩, ⟨3, 1, .wo, false, 0⟩]⟩,
  -- MOTn_STATUS: STATE, VLIMIT, ATSPEED, LOCKED, STARTFAIL, HALLERR, CMD_REJ, CFG_BUSY
  ⟨0x20, 0x4, 1, [⟨0, 3, .ro, true, 0⟩, ⟨3, 1, .ro, false, 0⟩, ⟨4, 1, .ro, false, 0⟩, ⟨5, 1, .w1c, false, 0⟩, ⟨6, 1, .w1c, false, 0⟩, ⟨7, 1, .w1c, false, 0⟩, ⟨8, 1, .w1c, false, 0⟩, ⟨9, 1, .w1c, false, 0⟩]⟩,
  -- MOTn_SPEED: SPEED
  ⟨0x24, 0x4, 1, [⟨0, 24, .ro, true, 0⟩]⟩,
  -- MOTn_COMM: STEP, HALL
  ⟨0x28, 0x4, 1, [⟨0, 3, .ro, true, 0⟩, ⟨3, 3, .ro, true, 0⟩]⟩,
  -- MOTn_STEPS: STEPS
  ⟨0x2c, 0x4, 1, [⟨0, 32, .ro, true, 0⟩]⟩,
  -- MOTn_HALLMAP: MAP
  ⟨0x30, 0x4, 1, [⟨0, 24, .rw, false, 830256⟩]⟩]

/-- Registers of the GDR window. -/
def regsGDR : List RegSpec := [
  -- GDR_HBk_CFG: SRC, BUS, EN, DT, BLANK, GOFF_TMO
  ⟨0x0, 0x10, 32, [⟨0, 2, .rw, false, 0⟩, ⟨2, 2, .rw, false, 0⟩, ⟨4, 1, .rw, false, 0⟩, ⟨8, 8, .rw, false, 20⟩, ⟨16, 6, .rw, false, 20⟩, ⟨24, 8, .rw, false, 10⟩]⟩,
  -- GDR_HBk_MAN: HI, LO
  ⟨0x4, 0x10, 32, [⟨0, 1, .rw, false, 0⟩, ⟨1, 1, .rw, false, 0⟩]⟩,
  -- GDR_HBk_STATUS: HION, LOON, GOFFH, GOFFL, HSG, FAULT, DESAT_H, DESAT_L, HSHORT, CROSS, BUS, STUCK, HSUV
  ⟨0x8, 0x10, 32, [⟨0, 1, .ro, false, 0⟩, ⟨1, 1, .ro, false, 0⟩, ⟨2, 1, .ro, false, 0⟩, ⟨3, 1, .ro, false, 0⟩, ⟨4, 1, .ro, false, 0⟩, ⟨5, 1, .ro, false, 0⟩, ⟨8, 1, .ro, false, 0⟩, ⟨9, 1, .ro, false, 0⟩, ⟨10, 1, .ro, false, 0⟩, ⟨11, 1, .ro, false, 0⟩, ⟨12, 1, .ro, false, 0⟩, ⟨13, 1, .ro, false, 0⟩, ⟨14, 1, .ro, false, 0⟩]⟩,
  -- GDR_HBk_CLR: CLR
  ⟨0xc, 0x10, 32, [⟨0, 1, .wo, false, 0⟩]⟩,
  -- GDR_STATUS: BUSF, CLR_REJ, CFG_BUSY, CFG_ERR
  ⟨0x200, 0x4, 1, [⟨0, 4, .ro, false, 0⟩, ⟨4, 1, .w1c, false, 0⟩, ⟨5, 1, .w1c, false, 0⟩, ⟨6, 1, .w1c, false, 0⟩]⟩,
  -- GDR_HS: HS_THR, COINC
  ⟨0x204, 0x4, 1, [⟨0, 10, .rw, false, 900⟩, ⟨16, 8, .rw, false, 10⟩]⟩,
  -- GDR_INVj_CTRL: RUN, INV_KHZ, PHASE
  ⟨0x300, 0x10, 2, [⟨0, 1, .rw, false, 0⟩, ⟨8, 7, .rw, false, 40⟩, ⟨16, 9, .rw, false, 0⟩]⟩]

/-- Registers of the STP window. -/
def regsSTP : List RegSpec := [
  -- STPn_CFG: BUSSEL, STOPMODE, DIRINV, HOLD_MS, RCOIL
  ⟨0x0, 0x100, 16, [⟨0, 1, .rw, false, 0⟩, ⟨1, 1, .rw, false, 0⟩, ⟨2, 1, .rw, false, 0⟩, ⟨8, 8, .rw, false, 100⟩, ⟨16, 16, .rw, false, 0⟩]⟩,
  -- STPn_DRIVE: IRUN, IHOLD
  ⟨0x4, 0x100, 16, [⟨0, 12, .rw, false, 0⟩, ⟨16, 12, .rw, false, 0⟩]⟩,
  -- STPn_FF: KE, KL
  ⟨0x8, 0x100, 16, [⟨0, 16, .rw, false, 0⟩, ⟨16, 16, .rw, false, 0⟩]⟩,
  -- STPn_MSTH0: THA, THB
  ⟨0x10, 0x100, 16, [⟨0, 16, .rw, false, 0⟩, ⟨16, 16, .rw, false, 0⟩]⟩,
  -- STPn_MSTH1: THA, THB
  ⟨0x14, 0x100, 16, [⟨0, 16, .rw, false, 0⟩, ⟨16, 16, .rw, false, 0⟩]⟩,
  -- STPn_MSTH2: THA, THB
  ⟨0x18, 0x100, 16, [⟨0, 16, .rw, false, 0⟩, ⟨16, 16, .rw, false, 0⟩]⟩,
  -- STPn_MSTH3: THA, THB
  ⟨0x1c, 0x100, 16, [⟨0, 16, .rw, false, 0⟩, ⟨16, 16, .rw, false, 0⟩]⟩,
  -- STPn_MSCFG: HYST
  ⟨0x20, 0x100, 16, [⟨0, 8, .rw, false, 26⟩]⟩,
  -- STPn_STOP: SPEED, ACC
  ⟨0x24, 0x100, 16, [⟨0, 16, .rw, false, 200⟩, ⟨16, 16, .rw, false, 100⟩]⟩,
  -- STPn_RES: SPEED, ACC
  ⟨0x28, 0x100, 16, [⟨0, 16, .rw, false, 200⟩, ⟨16, 16, .rw, false, 100⟩]⟩,
  -- STPn_HOME: HMODE, HDIR, IHOME, HVEL
  ⟨0x2c, 0x100, 16, [⟨0, 2, .rw, false, 0⟩, ⟨2, 1, .rw, false, 0⟩, ⟨4, 12, .rw, false, 0⟩, ⟨16, 16, .rw, false, 100⟩]⟩,
  -- STPn_HDIST: VALUE
  ⟨0x30, 0x100, 16, [⟨0, 32, .rw, false, 16777216⟩]⟩,
  -- STPn_HOFF: VALUE
  ⟨0x34, 0x100, 16, [⟨0, 32, .rw, false, 0⟩]⟩,
  -- STPn_HBACK: HBACK, STALL_FILT
  ⟨0x38, 0x100, 16, [⟨0, 24, .rw, false, 512⟩, ⟨24, 8, .rw, false, 3⟩]⟩,
  -- STPn_TBL_LO: VALUE
  ⟨0x40, 0x100, 16, [⟨0, 32, .rw, false, 0⟩]⟩,
  -- STPn_TBL_HI: VALUE
  ⟨0x44, 0x100, 16, [⟨0, 8, .rw, false, 0⟩]⟩,
  -- STPn_TBLN: TBLN
  ⟨0x48, 0x100, 16, [⟨0, 9, .rw, false, 0⟩]⟩,
  -- STPn_CMD: CMD
  ⟨0x4c, 0x100, 16, [⟨0, 8, .wo, false, 0⟩]⟩,
  -- STPn_STATUS: STATE, K, VSAT, POS_UNSURE, LOAD_OK, LOAD_ERR, LERR, HOME_OK, HOME_FAIL, ERRIDX, STALL, CMD_REJ, CFG_BUSY
  ⟨0x50, 0x100, 16, [⟨0, 3, .ro, true, 0⟩, ⟨3, 4, .ro, true, 0⟩, ⟨7, 1, .ro, false, 0⟩, ⟨8, 1, .ro, false, 0⟩, ⟨9, 1, .w1c, false, 0⟩, ⟨10, 1, .w1c, false, 0⟩, ⟨11, 3, .ro, false, 0⟩, ⟨14, 1, .w1c, false, 0⟩, ⟨15, 1, .w1c, false, 0⟩, ⟨16, 8, .ro, false, 0⟩, ⟨24, 1, .w1c, false, 0⟩, ⟨25, 1, .w1c, false, 0⟩, ⟨26, 1, .w1c, false, 0⟩]⟩,
  -- STPn_POS: VALUE
  ⟨0x54, 0x100, 16, [⟨0, 32, .ro, true, 0⟩]⟩,
  -- STPn_REM: VALUE
  ⟨0x58, 0x100, 16, [⟨0, 32, .ro, true, 0⟩]⟩,
  -- STPn_VEL: VALUE
  ⟨0x5c, 0x100, 16, [⟨0, 32, .ro, true, 0⟩]⟩,
  -- STP_PWM: STP_PWM_KHZ
  ⟨0x1000, 0x4, 1, [⟨0, 7, .rw, false, 40⟩]⟩,
  -- STP_VBUS0: VBUS
  ⟨0x1004, 0x4, 1, [⟨0, 16, .rw, false, 24000⟩]⟩,
  -- STP_VBUS1: VBUS
  ⟨0x1008, 0x4, 1, [⟨0, 16, .rw, false, 24000⟩]⟩]

/-- Registers of the LOP window. -/
def regsLOP : List RegSpec := [
  -- LOP_CMD: SLOT, START, STOP, TLOAD
  ⟨0x0, 0x4, 1, [⟨0, 6, .wo, false, 0⟩, ⟨8, 1, .wo, false, 0⟩, ⟨9, 1, .wo, false, 0⟩, ⟨10, 1, .wo, false, 0⟩]⟩,
  -- LOP_STATUS: CMD_REJ, TLOAD_ERR
  ⟨0x4, 0x4, 1, [⟨0, 1, .w1c, false, 0⟩, ⟨1, 1, .w1c, false, 0⟩]⟩,
  -- LOP_PWMCFG: LPWM_KHZ
  ⟨0x8, 0x4, 1, [⟨0, 7, .rw, false, 20⟩]⟩,
  -- LOP_PWM: DUTY
  ⟨0x40, 0x4, 8, [⟨0, 16, .rw, false, 0⟩]⟩,
  -- LOP_AIN: VALUE
  ⟨0x100, 0x4, 16, [⟨0, 16, .ro, true, 0⟩]⟩,
  -- LOP_SP: SP
  ⟨0x1000, 0x20, 64, [⟨0, 32, .rw, false, 0⟩]⟩,
  -- LOP_OUT: U
  ⟨0x1004, 0x20, 64, [⟨0, 32, .ro, false, 0⟩]⟩,
  -- LOP_Y: Y
  ⟨0x1008, 0x20, 64, [⟨0, 32, .ro, false, 0⟩]⟩,
  -- LOP_ST: STATE, TRIP, STALEF
  ⟨0x100c, 0x20, 64, [⟨0, 2, .ro, false, 0⟩, ⟨2, 1, .w1c, false, 0⟩, ⟨3, 1, .ro, false, 0⟩]⟩,
  -- LOP_EVALS: COUNT
  ⟨0x1010, 0x20, 64, [⟨0, 32, .ro, false, 0⟩]⟩]

/-- Registers of the WEB window. -/
def regsWEB : List RegSpec := [
  -- WEB_CFG: J, DIRINV, FILT
  ⟨0x0, 0x4, 1, [⟨0, 4, .rw, false, 2⟩, ⟨4, 1, .rw, false, 0⟩, ⟨5, 8, .rw, false, 5⟩]⟩,
  -- WEB_SCALE: SCALE
  ⟨0x4, 0x4, 1, [⟨0, 32, .rw, false, 65536⟩]⟩,
  -- WEB_STATUS: REV, ILLEGAL, BACK
  ⟨0x8, 0x4, 1, [⟨0, 1, .w1c, false, 0⟩, ⟨1, 1, .w1c, false, 0⟩, ⟨2, 1, .ro, false, 0⟩]⟩,
  -- WEB_RAW_LO: RAW
  ⟨0x10, 0x4, 1, [⟨0, 32, .ro, true, 0⟩]⟩,
  -- WEB_RAW_HI: RAW
  ⟨0x14, 0x4, 1, [⟨0, 16, .ro, true, 0⟩]⟩,
  -- WEB_HW_LO: HW
  ⟨0x18, 0x4, 1, [⟨0, 32, .ro, true, 0⟩]⟩,
  -- WEB_HW_HI: HW
  ⟨0x1c, 0x4, 1, [⟨0, 16, .ro, true, 0⟩]⟩,
  -- WEB_SPEED: SPEED
  ⟨0x20, 0x4, 1, [⟨0, 32, .ro, true, 0⟩]⟩,
  -- WEB_CLR: ZERO
  ⟨0x24, 0x4, 1, [⟨0, 1, .wo, false, 0⟩]⟩,
  -- WEB_EVGRP: HANDLE
  ⟨0x28, 0x4, 1, [⟨0, 32, .rw, false, 0⟩]⟩,
  -- WEB_CMDST: CMD_REJ
  ⟨0x2c, 0x4, 1, [⟨0, 1, .w1c, false, 0⟩]⟩,
  -- WEB_TPOS_LO: POS
  ⟨0x100, 0x20, 8, [⟨0, 32, .rw, false, 0⟩]⟩,
  -- WEB_TPOS_HI: POS
  ⟨0x104, 0x20, 8, [⟨0, 16, .rw, false, 0⟩]⟩,
  -- WEB_TPER: PERIOD
  ⟨0x108, 0x20, 8, [⟨0, 32, .rw, false, 0⟩]⟩,
  -- WEB_TCTL: OFF, EN
  ⟨0x10c, 0x20, 8, [⟨0, 24, .rw, false, 0⟩, ⟨31, 1, .rw, false, 0⟩]⟩,
  -- WEB_TDATA: DATA
  ⟨0x110, 0x20, 8, [⟨0, 32, .rw, false, 0⟩]⟩]

/-- Registers of the CAM window. -/
def regsCAM : List RegSpec := [
  -- CAMc_CTRL: EN, BYPASS, LOAD, LANES
  ⟨0x0, 0x4, 1, [⟨0, 1, .rw, false, 0⟩, ⟨1, 1, .rw, false, 0⟩, ⟨2, 1, .wo, false, 0⟩, ⟨3, 2, .rw, false, 2⟩]⟩,
  -- CAMc_STATUS: FRAME_OPEN, CFG_OK, CFG_ERR, TIMEOUT, OVF, LOAD_PEND
  ⟨0x4, 0x4, 1, [⟨0, 1, .ro, false, 0⟩, ⟨1, 1, .ro, false, 0⟩, ⟨2, 1, .w1c, false, 0⟩, ⟨3, 1, .w1c, false, 0⟩, ⟨4, 1, .w1c, false, 0⟩, ⟨5, 1, .ro, false, 0⟩]⟩,
  -- CAMc_CFGA_LO: ADDR
  ⟨0x8, 0x4, 1, [⟨0, 32, .rw, false, 0⟩]⟩,
  -- CAMc_CFGA_HI: ADDR
  ⟨0xc, 0x4, 1, [⟨0, 8, .rw, false, 0⟩]⟩,
  -- CAMc_SBUF_LO: ADDR
  ⟨0x10, 0x4, 1, [⟨0, 32, .rw, false, 0⟩]⟩,
  -- CAMc_SBUF_HI: ADDR
  ⟨0x14, 0x4, 1, [⟨0, 8, .rw, false, 0⟩]⟩,
  -- CAMc_SNBLK: SNBLK
  ⟨0x18, 0x4, 1, [⟨0, 16, .rw, false, 2⟩]⟩,
  -- CAMc_SRING: HANDLE
  ⟨0x1c, 0x4, 1, [⟨0, 32, .rw, false, 0⟩]⟩,
  -- CAMc_FTMO: FTMO, XTRIG, XEN
  ⟨0x20, 0x4, 1, [⟨0, 10, .rw, false, 250⟩, ⟨16, 3, .rw, false, 0⟩, ⟨19, 1, .rw, false, 0⟩]⟩,
  -- CAMc_FRAME: FRAME
  ⟨0x24, 0x4, 1, [⟨0, 32, .ro, true, 0⟩]⟩,
  -- CAMc_ERR: COUNTS
  ⟨0x28, 0x4, 1, [⟨0, 32, .ro, true, 0⟩]⟩,
  -- CAMc_DROP: COUNTS
  ⟨0x2c, 0x4, 1, [⟨0, 32, .ro, true, 0⟩]⟩]

/-- Registers of the PWR window. -/
def regsPWR : List RegSpec := [
  -- PWR_STATUS: STATE, SEQSRC, SLOT, FAILSTEP, VINWARN
  ⟨0x0, 0x4, 1, [⟨0, 2, .ro, false, 0⟩, ⟨2, 2, .ro, false, 0⟩, ⟨4, 2, .ro, false, 3⟩, ⟨6, 4, .ro, false, 0⟩, ⟨10, 1, .ro, false, 0⟩]⟩,
  -- PWR_CAUSE: CAUSE, MASK, RAIL, BOUNCES, VALID
  ⟨0x4, 0x4, 1, [⟨0, 4, .ro, false, 0⟩, ⟨4, 8, .ro, false, 0⟩, ⟨12, 4, .ro, false, 0⟩, ⟨16, 3, .ro, false, 0⟩, ⟨19, 1, .w1c, false, 0⟩]⟩,
  -- PWR_VIN: VIN
  ⟨0x8, 0x4, 1, [⟨0, 16, .ro, true, 0⟩]⟩,
  -- PWR_CMD: DRYDOWN, STAYOFF, KEY
  ⟨0x10, 0x4, 1, [⟨0, 1, .wo, false, 0⟩, ⟨1, 1, .wo, false, 0⟩, ⟨8, 8, .wo, false, 0⟩]⟩,
  -- PWR_BOOT_CMD: GO
  ⟨0x14, 0x4, 1, [⟨0, 1, .wo, false, 0⟩]⟩,
  -- PWR_BOOT_ADDR_LO: ADDR
  ⟨0x18, 0x4, 1, [⟨0, 32, .rw, false, 0⟩]⟩,
  -- PWR_BOOT_ADDR_HI: ADDR
  ⟨0x1c, 0x4, 1, [⟨0, 8, .rw, false, 0⟩]⟩,
  -- PWR_EVGRP: HANDLE
  ⟨0x20, 0x4, 1, [⟨0, 32, .rw, false, 0⟩]⟩,
  -- PWR_RAIL: VALUE, USED, ON, GOOD, WARN, FAULT
  ⟨0x100, 0x4, 16, [⟨0, 16, .ro, true, 0⟩, ⟨16, 1, .ro, false, 0⟩, ⟨17, 1, .ro, false, 0⟩, ⟨18, 1, .ro, false, 0⟩, ⟨19, 1, .w1c, false, 0⟩, ⟨20, 1, .w1c, false, 0⟩]⟩]

/-- Registers of the THM window. -/
def regsTHM : List RegSpec := [
  -- THM_SPD: SPD_ALL, CH_REQ
  ⟨0x0, 0x4, 1, [⟨0, 10, .ro, false, 0⟩, ⟨16, 10, .ro, false, 0⟩]⟩,
  -- THM_PEAK: ACC, OVER, PEAK_REQ
  ⟨0x4, 0x4, 1, [⟨0, 14, .ro, true, 0⟩, ⟨14, 1, .ro, false, 0⟩, ⟨16, 9, .ro, false, 0⟩]⟩,
  -- THM_PEAKCFG: PEAK_MAX, RECOV, PEAK_STEP
  ⟨0x8, 0x4, 1, [⟨0, 14, .rw, false, 9000⟩, ⟨16, 4, .rw, false, 10⟩, ⟨24, 8, .rw, false, 32⟩]⟩,
  -- THM_FUSER: PHASE_CAP, FRATE, PRATE
  ⟨0xc, 0x4, 1, [⟨0, 9, .ro, false, 256⟩, ⟨16, 8, .rw, false, 128⟩, ⟨24, 8, .rw, false, 16⟩]⟩,
  -- THM_TSD: TSD_LOCK, SEQ
  ⟨0x10, 0x4, 1, [⟨0, 1, .ro, false, 0⟩, ⟨16, 16, .ro, false, 0⟩]⟩,
  -- THM_TSD_ACK: SEQ, KEY
  ⟨0x14, 0x4, 1, [⟨0, 16, .wo, false, 0⟩, ⟨16, 8, .wo, false, 0⟩]⟩,
  -- THM_HDA: WIN
  ⟨0x18, 0x4, 1, [⟨0, 4, .ro, false, 0⟩]⟩,
  -- THM_I2C: SPEED
  ⟨0x1c, 0x4, 1, [⟨0, 2, .rw, false, 1⟩]⟩,
  -- THM_TAB0: ENG
  ⟨0x800, 0x4, 33, [⟨0, 16, .rw, false, 0⟩]⟩,
  -- THM_TAB1: ENG
  ⟨0x900, 0x4, 33, [⟨0, 16, .rw, false, 0⟩]⟩,
  -- THM_TAB2: ENG
  ⟨0xa00, 0x4, 33, [⟨0, 16, .rw, false, 0⟩]⟩,
  -- THM_TAB3: ENG
  ⟨0xb00, 0x4, 33, [⟨0, 16, .rw, false, 0⟩]⟩,
  -- THM_CH_CFG: CONV, ROLE, UNIT, CEN, SPD, RORSD, ADDR, PTR
  ⟨0x1000, 0x20, 64, [⟨0, 3, .rw, false, 0⟩, ⟨3, 4, .rw, false, 0⟩, ⟨7, 2, .rw, false, 0⟩, ⟨9, 1, .rw, false, 0⟩, ⟨10, 1, .rw, false, 0⟩, ⟨11, 1, .rw, false, 0⟩, ⟨12, 7, .rw, false, 0⟩, ⟨24, 8, .rw, false, 0⟩]⟩,
  -- THM_CH_GAIN: GAIN, OFS
  ⟨0x1004, 0x20, 64, [⟨0, 16, .rw, false, 0⟩, ⟨16, 16, .rw, false, 0⟩]⟩,
  -- THM_CH_LIM1: WARN, COMMIT
  ⟨0x1008, 0x20, 64, [⟨0, 16, .rw, false, 0⟩, ⟨16, 16, .rw, false, 0⟩]⟩,
  -- THM_CH_LIM2: SHUT, ROR
  ⟨0x100c, 0x20, 64, [⟨0, 16, .rw, false, 0⟩, ⟨16, 16, .rw, false, 32767⟩]⟩,
  -- THM_CH_RATE: RATE
  ⟨0x1010, 0x20, 64, [⟨0, 8, .rw, false, 16⟩]⟩,
  -- THM_CH_VAL: ENG, SLOPE
  ⟨0x1014, 0x20, 64, [⟨0, 16, .ro, true, 0⟩, ⟨16, 16, .ro, true, 0⟩]⟩,
  -- THM_CH_ST: WARNF, COMMITF, SHUTF, RORF, STALE
  ⟨0x1018, 0x20, 64, [⟨0, 1, .ro, false, 0⟩, ⟨1, 1, .ro, false, 0⟩, ⟨2, 1, .ro, false, 0⟩, ⟨3, 1, .w1c, false, 0⟩, ⟨4, 1, .ro, false, 0⟩]⟩]

/-- Registers of the CLK window. -/
def regsCLK : List RegSpec := [
  -- CLKn_CTRL: EN, REFMUL, PDIV, HOLD_EN, APPLY, BW
  ⟨0x0, 0x4, 1, [⟨0, 1, .rw, false, 0⟩, ⟨1, 2, .rw, false, 0⟩, ⟨3, 3, .rw, false, 0⟩, ⟨6, 1, .rw, false, 0⟩, ⟨7, 1, .wo, false, 0⟩, ⟨16, 8, .rw, false, 50⟩]⟩,
  -- CLKn_NINT: NINT
  ⟨0x4, 0x4, 1, [⟨0, 8, .rw, false, 60⟩]⟩,
  -- CLKn_NFRAC: NFRAC
  ⟨0x8, 0x4, 1, [⟨0, 24, .rw, false, 0⟩]⟩,
  -- CLKn_NMOD: NMOD
  ⟨0xc, 0x4, 1, [⟨0, 24, .rw, false, 1⟩]⟩,
  -- CLKn_OUT: DIV, DLY, OEN
  ⟨0x10, 0x4, 4, [⟨0, 9, .rw, false, 32⟩, ⟨9, 6, .rw, false, 0⟩, ⟨15, 1, .rw, false, 0⟩]⟩,
  -- CLKn_STATUS: LOCK, LOL, HOLD, CFG_BUSY, CFG_ERR, PEND
  ⟨0x20, 0x4, 1, [⟨0, 1, .ro, false, 0⟩, ⟨1, 1, .w1c, false, 0⟩, ⟨2, 1, .ro, false, 0⟩, ⟨3, 1, .w1c, false, 0⟩, ⟨4, 1, .w1c, false, 0⟩, ⟨5, 1, .ro, false, 0⟩]⟩,
  -- CLKn_TC: TC1, TC2
  ⟨0x24, 0x4, 1, [⟨0, 16, .wl, false, 0⟩, ⟨16, 16, .wl, false, 0⟩]⟩,
  -- CLKn_PHERR: PHERR
  ⟨0x28, 0x4, 1, [⟨0, 16, .ro, true, 0⟩]⟩,
  -- CLK_REF: SRC, REFLOST, REF_SW, HO_MAX
  ⟨0x100, 0x4, 1, [⟨0, 1, .ro, false, 0⟩, ⟨1, 1, .w1c, false, 0⟩, ⟨8, 8, .rw, false, 10⟩, ⟨16, 16, .rw, false, 60⟩]⟩,
  -- CLKn_LOCK: LOCK
  ⟨0xfc, 0x4, 1, [⟨0, 1, .w1s, false, 0⟩]⟩]

/-- Registers of the FLT window. -/
def regsFLT : List RegSpec := [
  -- FLT_STICKY: STICKY
  ⟨0x0, 0x4, 12, [⟨0, 32, .w1c, false, 0⟩]⟩,
  -- FLT_SEV: SEV
  ⟨0x100, 0x4, 24, [⟨0, 32, .rw, false, 0⟩]⟩,
  -- FLT_INC: INC_SRC, OPEN, ESCALATED, MERGED
  ⟨0x200, 0x4, 1, [⟨0, 9, .ro, false, 0⟩, ⟨9, 1, .ro, false, 0⟩, ⟨10, 1, .w1c, false, 0⟩, ⟨16, 11, .ro, false, 0⟩]⟩,
  -- FLT_INC_T_LO: TIME
  ⟨0x204, 0x4, 1, [⟨0, 32, .ro, false, 0⟩]⟩,
  -- FLT_INC_T_HI: TIME
  ⟨0x208, 0x4, 1, [⟨0, 32, .ro, false, 0⟩]⟩,
  -- FLT_INC_CLR: SRC, KEY
  ⟨0x20c, 0x4, 1, [⟨0, 9, .wo, false, 0⟩, ⟨16, 8, .wo, false, 0⟩]⟩,
  -- FLT_FIRST: SRC, VALID
  ⟨0x210, 0x4, 1, [⟨0, 9, .ro, false, 0⟩, ⟨9, 1, .w1c, false, 0⟩]⟩,
  -- FLT_FIRST_T_LO: TIME
  ⟨0x214, 0x4, 1, [⟨0, 32, .ro, false, 0⟩]⟩,
  -- FLT_FIRST_T_HI: TIME
  ⟨0x218, 0x4, 1, [⟨0, 32, .ro, false, 0⟩]⟩,
  -- FLT_ROUTE: CORES
  ⟨0x21c, 0x4, 1, [⟨0, 24, .rw, false, 1⟩]⟩,
  -- FLT_CTRL: HEALTHY, ALIVE_EN, WDOG
  ⟨0x220, 0x4, 1, [⟨0, 1, .w1s, false, 0⟩, ⟨1, 1, .rw, false, 1⟩, ⟨8, 8, .rw, false, 0⟩]⟩,
  -- FLT_KICK: ANY
  ⟨0x224, 0x4, 1, [⟨0, 32, .wo, false, 0⟩]⟩,
  -- FLT_PINS: FLT_A, FLT_B, ALIVE, WDOG_EXP, BLANKED
  ⟨0x228, 0x4, 1, [⟨0, 1, .ro, false, 0⟩, ⟨1, 1, .ro, false, 1⟩, ⟨2, 1, .ro, false, 0⟩, ⟨3, 1, .w1c, false, 0⟩, ⟨4, 1, .ro, false, 0⟩]⟩,
  -- FLT_NRING: HANDLE
  ⟨0x22c, 0x4, 1, [⟨0, 32, .rw, false, 0⟩]⟩,
  -- FLT_REACT: REACT, ESC
  ⟨0x400, 0x4, 384, [⟨0, 5, .rw, false, 0⟩, ⟨8, 20, .rw, false, 10000⟩]⟩]

/-- Registers of the ACD window. -/
def regsACD : List RegSpec := [
  -- ACD_CTRL: EN, HANDOVER, KEY
  ⟨0x0, 0x4, 1, [⟨0, 1, .rw, false, 0⟩, ⟨1, 1, .wo, false, 0⟩, ⟨8, 8, .wo, false, 0⟩]⟩,
  -- ACD_STATUS: STATE, JOINED, ROLE, TOKEN, OWN_IN, MIRROR_OK, LOST, REFUSED, REASON, CONFLICT, TKO
  ⟨0x4, 0x4, 1, [⟨0, 3, .ro, false, 0⟩, ⟨3, 1, .ro, false, 0⟩, ⟨4, 1, .ro, false, 0⟩, ⟨5, 1, .ro, false, 0⟩, ⟨6, 1, .ro, false, 0⟩, ⟨7, 4, .ro, false, 0⟩, ⟨11, 1, .w1c, false, 0⟩, ⟨12, 1, .w1c, false, 0⟩, ⟨13, 3, .ro, false, 0⟩, ⟨16, 1, .w1c, false, 0⟩, ⟨17, 1, .w1c, false, 0⟩]⟩,
  -- ACD_CFGSUM: SUM
  ⟨0x8, 0x4, 1, [⟨0, 32, .rw, false, 0⟩]⟩,
  -- ACD_PTOFF: OFF
  ⟨0xc, 0x4, 1, [⟨0, 16, .ro, false, 0⟩]⟩,
  -- ACD_FWSQ: HANDLE
  ⟨0x10, 0x4, 1, [⟨0, 32, .rw, false, 0⟩]⟩,
  -- ACD_FWCQ: HANDLE
  ⟨0x14, 0x4, 1, [⟨0, 32, .rw, false, 0⟩]⟩]

/-- Registers of the NVM window. -/
def regsNVM : List RegSpec := [
  -- NVM_HEAD: SEQ
  ⟨0x0, 0x4, 1, [⟨0, 32, .ro, false, 0⟩]⟩,
  -- NVM_INDEX: INDEX
  ⟨0x4, 0x4, 1, [⟨0, 11, .ro, false, 0⟩]⟩,
  -- NVM_STATUS: BUSY, CMD_REJ, LOST
  ⟨0x8, 0x4, 1, [⟨0, 1, .ro, false, 0⟩, ⟨1, 1, .w1c, false, 0⟩, ⟨16, 16, .rc, false, 0⟩]⟩,
  -- NVM_BOOTS: BOOTS
  ⟨0xc, 0x4, 1, [⟨0, 32, .ro, false, 0⟩]⟩,
  -- NVM_APP_LO: ADDR
  ⟨0x10, 0x4, 1, [⟨0, 32, .rw, false, 0⟩]⟩,
  -- NVM_APP_HI: ADDR
  ⟨0x14, 0x4, 1, [⟨0, 8, .rw, false, 0⟩]⟩,
  -- NVM_APP_CMD: KIND, LEN
  ⟨0x18, 0x4, 1, [⟨0, 8, .wo, false, 0⟩, ⟨8, 8, .wo, false, 0⟩]⟩]

/-- The registers of window `w` (R46); an unmapped window has none. -/
def windowRegs (w : Nat) : List RegSpec :=
  if 0x0 ≤ w ∧ w < 0x1 then regsSYS else
  if 0x1 ≤ w ∧ w < 0x2 then regsFLT else
  if 0x2 ≤ w ∧ w < 0x3 then regsNVM else
  if 0x3 ≤ w ∧ w < 0x4 then regsOBJ else
  if 0x4 ≤ w ∧ w < 0x5 then regsRNG else
  if 0x6 ≤ w ∧ w < 0x7 then regsMEM else
  if 0x7 ≤ w ∧ w < 0x8 then regsDMA else
  if 0x8 ≤ w ∧ w < 0x20 then regsCRS else
  if 0x20 ≤ w ∧ w < 0x24 then regsEXP else
  if 0x24 ≤ w ∧ w < 0x28 then regsLAC else
  if 0x28 ≤ w ∧ w < 0x2c then regsELK else
  if 0x2c ≤ w ∧ w < 0x2d then regsILK else
  if w = 0x30 then regsATR else
  if 0x31 ≤ w ∧ w < 0x38 then regsATR.filter (fun r => r.off != 0x100) else
  if 0x38 ≤ w ∧ w < 0x39 then regsTAL else
  if 0x39 ≤ w ∧ w < 0x3a then regsSTQ else
  if 0x3a ≤ w ∧ w < 0x3b then regsACD else
  if 0x40 ≤ w ∧ w < 0x48 then regsDSK else
  if 0x48 ≤ w ∧ w < 0x4c then regsSRV else
  if 0x50 ≤ w ∧ w < 0x60 then regsMOT else
  if 0x60 ≤ w ∧ w < 0x61 then regsGDR else
  if 0x61 ≤ w ∧ w < 0x62 then regsSTP else
  if 0x62 ≤ w ∧ w < 0x63 then regsLOP else
  if 0x63 ≤ w ∧ w < 0x64 then regsWEB else
  if 0x64 ≤ w ∧ w < 0x68 then regsCAM else
  if 0x68 ≤ w ∧ w < 0x69 then regsPWR else
  if 0x69 ≤ w ∧ w < 0x6a then regsTHM else
  if w = 0x70 then regsCLK else
  if 0x71 ≤ w ∧ w < 0x80 then regsCLK.filter (fun r => r.off != 0x100) else []

/-- The register listed at offset `off` of window `w`, if any. -/
def findReg (w off : Nat) : Option RegSpec :=
  (windowRegs w).find? (fun r => decide (r.off ≤ off) && decide ((off - r.off) % r.stride = 0)
    && decide ((off - r.off) / r.stride < r.cnt))

end Sys2Proof.Machine
end

