-- ==== Sys2Proof/Machine/StateObj.lean ====
section
/-!
DEFINITION. The state behind objects, jobs, pages, timers, event groups, rings and mailboxes (chapters 01 and 03),
and the fused identity of the device (R1, R462).
-/
namespace Sys2Proof.Machine

/-- The twelve variants of R1. -/
inductive Variant where
  | px44ac | px44nc | px44ae | px42ac | px42nc | px40ac | px40nc | px24ac | px22nc | px20nc | px12nc | px10nc
  deriving DecidableEq, Repr

/-- Variant code (R1). -/
def Variant.code : Variant → Nat
  | .px44ac => 1 | .px44nc => 2 | .px44ae => 3 | .px42ac => 4 | .px42nc => 5 | .px40ac => 6
  | .px40nc => 7 | .px24ac => 8 | .px22nc => 9 | .px20nc => 10 | .px12nc => 11 | .px10nc => 12

/-- Stations present (R1). -/
def Variant.stations : Variant → Nat
  | .px44ac | .px44nc | .px44ae | .px42ac | .px42nc | .px40ac | .px40nc => 4
  | .px24ac | .px22nc | .px20nc => 2
  | .px12nc | .px10nc => 1

/-- HDA ports present (R1); each serves two disk channels (R2). -/
def Variant.hdas : Variant → Nat
  | .px44ac | .px44nc | .px44ae | .px24ac => 4
  | .px42ac | .px42nc | .px22nc | .px12nc => 2
  | .px40ac | .px40nc | .px20nc | .px10nc => 0

/-- Cameras present (R1). -/
def Variant.cameras : Variant → Nat
  | .px44ac | .px44nc | .px44ae | .px42ac | .px42nc | .px40ac | .px40nc => 4
  | .px24ac | .px22nc | .px20nc | .px12nc | .px10nc => 2

/-- Accord link present (R1). -/
def Variant.accord : Variant → Bool
  | .px44ac | .px44ae | .px42ac | .px40ac | .px24ac => true
  | _ => false

/-- Grade E (R1). -/
def Variant.gradeE : Variant → Bool
  | .px44ae => true
  | _ => false

/-- The 1,521-ball package (R1). -/
def Variant.smallPkg : Variant → Bool
  | .px24ac | .px22nc | .px20nc | .px12nc | .px10nc => true
  | _ => false

/-- The fused identity (R462), the variant, and the fuses by which the boot ROM accepts an image (R409). -/
structure Fuses where
  variant : Variant
  lot : Nat
  wafer : Nat
  diex : Nat
  diey : Nat
  step : Nat
  keyHash : Nat
  svnMin : Nat
  /-- Levels of the balls TAL_ID[5:0] (R258). -/
  talId : Nat
  deriving DecidableEq, Repr

/-- What every open object holds (R83, R91 to R93). -/
structure ObjHdr where
  gen : Nat
  owner : Nat
  tOpen : Nat
  evgrp : Nat
  deriving DecidableEq, Repr, Inhabited

/-- Job states (R95). -/
inductive JobState where
  | setup | running | stopping
  deriving DecidableEq, Repr, Inhabited

/-- A job's settings (R16, R94) and its run state (R95, R96). Lists of four are indexed by station. -/
structure Job where
  cring : Nat
  stn : Nat
  passes : Nat
  facets : Nat
  waste : Bool
  wasteStn : Nat
  gap : Nat
  wasteCol : Nat
  pixclk : List Nat
  offset : List Nat
  band : List Nat
  tgtRate : Nat
  state : JobState
  completed : Nat
  /-- Handle and last reference-station line of the pages granted, the latest first (R24): those that can
  still be withdrawn, and the one before them. -/
  ends : List (Nat × Nat)
  deriving DecidableEq, Repr, Inhabited

/-- Page states (R18). -/
inductive PageState where
  | building | ready | queued | admitted | printing | done
  deriving DecidableEq, Repr, Inhabited

/-- The fields of the page record (R35) as they build up. A line field is `none` until its cause occurs. -/
structure PageRec where
  tFirst : Nat
  tLast : Nat
  waste : Bool
  tko : Bool
  accSkip : Bool
  spoilCause : Nat
  spoilStn : Nat
  spoilMask : Nat
  spoilLine : Option Nat
  spoilIdx : Option Nat
  /-- Reference-station line count when the recorded spoil cause occurred (R31, same line period). -/
  spoilAt : Option Nat
  degMask : Nat
  degStn : Nat
  degLine : Option Nat
  degIdx : Option Nat
  clips : Nat
  deriving DecidableEq, Repr, Inhabited

/-- A page (R17, R97, R98). -/
structure Page where
  job : Nat
  length : Nat
  blist : Nat
  nblk : Nat
  state : PageState
  /-- Admission result, as the codes of R23. -/
  result : Nat
  /-- ADMIT_FAIL mask (R22). -/
  failMask : Nat
  startLine : Nat
  /-- Each station's own line count at the page's first line, fixed at the grant. -/
  firstLine : List Nat
  /-- Decompression rate reserved for the page in bytes/s (R22, R220). -/
  reserved : Nat
  /-- First line index each station exposes blank after a spoil (R30). -/
  blankFrom : List (Option Nat)
  /-- The shadow's raster-availability answer for this page (R449). -/
  pagea : Option Bool
  /-- The page record as it builds up (R35). -/
  record : PageRec
  deriving DecidableEq, Repr, Inhabited

/-- A timer (R99, R100). -/
structure Timer where
  next : Nat
  period : Nat
  bits : Nat
  woff : Nat
  wdata : Nat
  expiries : Nat
  skipped : Nat
  late : Bool
  armed : Bool
  deriving DecidableEq, Repr, Inhabited

/-- An event group (R101). -/
structure EvGroup where
  pending : Nat
  cores : Nat
  evbit : Nat
  deriving DecidableEq, Repr, Inhabited

/-- A mailbox (R109, R110). -/
structure Mailbox where
  ring : Nat
  dest : Nat
  sender : Nat
  seq : Nat
  deriving DecidableEq, Repr, Inhabited

/-- An open ring (R102, R103). -/
structure Ring where
  size : Nat
  base : Nat
  drop : Bool
  nebit : Nat
  prod : Nat
  cons : Nat
  error : Bool
  deriving DecidableEq, Repr, Inhabited

/-- Who waits on a full ring of POLICY STALL (R106). -/
inductive Producer where
  | attar (e : Nat)
  | dma (n : Nat)
  | disk (d : Nat)
  | storage
  | t1
  | camera (c : Nat)
  | fwmsg
  | loop
  deriving DecidableEq, Repr, Inhabited

/-- One entry held back by a full STALL ring. -/
structure StalledPush where
  ring : Nat
  producer : Producer
  entry : List Byte
  deriving DecidableEq, Repr, Inhabited

/-- A snapshot under way (R39): the domains named, the instant T, and the snapshot fields of those domains as they
stood at T, by register. -/
structure Snap where
  domains : Nat
  time : Nat
  latched : Tab Nat
  deriving DecidableEq, Repr, Inhabited

end Sys2Proof.Machine
end

