-- ==== Sys2Proof/Machine/RegReset.lean ====
section
/-!
DEFINITION. The reset value of every register: the table's own (Machine/RegTable.lean), and by hand those the tables
give by reference: fused fields, severities and reaction sets (R440), class capacities (R89), tables with a rule for
their entries (R133, R136, R143, R363, R431).
-/
namespace Sys2Proof.Machine

/-- Severity of fault source `i` at reset (R440): the lists of R82, R114, R142, R169, R191, R225, R248, R280, R309,
R336, R367, R400, R433 and R471. -/
def sevReset (i : Nat) : Nat :=
  if i < 32 then
    if i = 5 ∨ i = 6 ∨ i = 16 ∨ i = 17 ∨ i = 25 ∨ i = 26 then 1
    else if i = 7 ∨ i = 8 ∨ i = 24 then 2 else 0
  else if i < 80 then 2
  else if i < 96 then
    if i = 80 ∨ i = 84 then 2 else if i = 81 ∨ i = 82 ∨ i = 83 then 1 else 0
  else if i < 112 then (if (i - 96) % 4 = 1 then 1 else 2)
  else if i < 144 then (if (i - 112) % 8 < 5 then 1 else 2)
  else if i < 160 then (if (i - 144) % 4 = 1 then 1 else 2)
  else if i < 164 then 1
  else if i < 168 then 2
  else if i < 170 then 1
  else if i < 176 then 0
  else if i < 192 then (if i % 2 = 0 then 1 else 2)
  else if i < 196 then 2
  else if i = 196 then 1
  else if i < 201 then 0
  else if i < 204 then 2
  else if i = 204 then 1
  else if i = 208 then 2
  else if i = 209 ∨ i = 210 then 1
  else if i < 216 then 0
  else if i = 216 ∨ i = 218 ∨ i = 219 ∨ i = 225 ∨ i = 226 then 2
  else if i = 217 ∨ i = 220 ∨ i = 221 ∨ i = 222 ∨ i = 224 ∨ i = 227 ∨ i = 228 ∨ i = 229 then 1
  else if i < 232 then 0
  else if i < 264 then (if i % 2 = 0 then 2 else 1)
  else if i < 280 then (if i % 2 = 0 then 2 else 1)
  else if i < 288 then 2
  else if i < 320 then (if i % 2 = 1 then 1 else if i < 304 then 2 else 3)
  else if i = 320 ∨ i = 324 then 3
  else if i = 321 ∨ i = 323 ∨ i = 328 then 2
  else if i = 322 ∨ i = 325 ∨ i = 329 ∨ i = 330 ∨ i = 331 ∨ i = 332 then 1
  else if i < 336 then 0
  else if i = 336 ∨ i = 340 then 2
  else if i = 337 ∨ i = 341 then 1
  else if i < 344 then 0
  else if i < 352 then 1
  else if i = 353 ∨ i = 357 ∨ i = 363 ∨ i = 368 then 3
  else if i = 352 ∨ i = 354 ∨ i = 356 ∨ i = 360 ∨ i = 362 ∨ i = 364 ∨ i = 365 ∨ i = 366 ∨ i = 371
    ∨ i = 377 ∨ i = 379 ∨ i = 381 then 1
  else if i = 355 ∨ i = 358 ∨ i = 361 ∨ i = 367 ∨ i = 369 ∨ i = 370 ∨ i = 372 ∨ i = 373 ∨ i = 374
    ∨ i = 376 ∨ i = 378 ∨ i = 380 then 2
  else 0

/-- Reaction set of fault source `i` at reset (R440; the bits are those of R439). -/
def reactReset (i : Nat) : Nat :=
  if 304 ≤ i ∧ i < 320 ∧ i % 2 = 0 then 6
  else if i = 320 ∨ i = 324 then 6
  else if i = 321 then 2
  else if i = 353 ∨ i = 357 ∨ i = 363 then 8
  else if i = 368 then 24
  else 0

/-- FLT_SEV[k] at reset: severities of sources 16k to 16k + 15. -/
def sevWord (k : Nat) : Nat := (List.range 16).foldl (fun a j => a + sevReset (16 * k + j) * 4 ^ j) 0

/-- SYS_PRESENCE (R8): the units present are the lowest-numbered ones (R2). -/
def presenceWord (v : Variant) : Nat :=
  (2 ^ v.stations - 1) + (2 ^ v.hdas - 1) * 2 ^ 4 + (2 ^ (2 * v.hdas) - 1) * 2 ^ 8 + (2 ^ v.cameras - 1) * 2 ^ 16
    + b2n v.accord * 2 ^ 20 + b2n v.gradeE * 2 ^ 21 + b2n v.smallPkg * 2 ^ 22 + v.code * 2 ^ 24

/-- Capacity of an object class (R89); 0 for a code outside the class table. -/
def classCap (c : Nat) : Nat := lget [0, 64, 64, 256, 64, 256, 64, 16, 16, 16, 256, 1024, 16, 128, 64] c

/-- Staged and active firing entry at reset (R136): POS and WIDTH of code `c`. -/
def fireReset (c : Nat) : Nat × Nat := if c = 0 then (0, 0) else if c = 1 then (0, 4) else (32 - 2 * c, 4 * c)

/-- THM_CH_LIM1 and LIM2 of channel `i` at reset (R431). -/
def thmLimit (gradeE : Bool) (i : Nat) : Nat × Nat × Nat :=
  if i < 8 then (if gradeE then (1840, 1920, 2080) else (1520, 1600, 1760)) else (0x7FFF, 0x7FFF, 0x7FFF)

/-- Reset values the register tables give by reference; `none` where the table's own number holds. -/
def regSpecial (fu : Fuses) (k : Nat) : Option Nat :=
  let w := k / 0x10000
  let o := k % 0x10000
  if w = 0 then
    if o = 0x10 then some (presenceWord fu.variant)
    else if o = 0 then some (fu.lot % 2 ^ 24 + fu.wafer % 2 ^ 5 * 2 ^ 24)
    else if o = 4 then
      some (fu.diex % 2 ^ 8 + fu.diey % 2 ^ 8 * 2 ^ 8 + fu.variant.code * 2 ^ 16 + fu.step % 2 ^ 8 * 2 ^ 24)
    else none
  else if w = 1 then
    if 0x100 ≤ o ∧ o < 0x160 ∧ o % 4 = 0 then some (sevWord ((o - 0x100) / 4))
    else if 0x400 ≤ o ∧ o < 0xA00 ∧ o % 4 = 0 then some (reactReset ((o - 0x400) / 4) + 10000 * 2 ^ 8)
    else none
  else if w = 3 then
    if 0x104 ≤ o ∧ o < 0x13C ∧ o % 4 = 0 then some (classCap ((o - 0x100) / 4) * 0x10000) else none
  else if w = 4 then
    if 0x1000 ≤ o ∧ o < 0x1800 ∧ o % 32 = 0 then some ((o - 0x1000) / 32 / 16 * 2 ^ 4) else none
  else if 0x18 ≤ w ∧ w < 0x20 then (if o = 4 then some 8 else none)
  else if 0x20 ≤ w ∧ w < 0x24 then
    if o = R.EXP_TONE_LO (w - 0x20) % 0x10000 then some 0x76543220
    else if o = R.EXP_TONE_HI (w - 0x20) % 0x10000 then some 0xFEDCBA98
    else if 0x4000 ≤ o ∧ o < 0x6000 ∧ o % 4 = 0 then
      some ((fireReset ((o - 0x4000) / 4 % 16)).1 + (fireReset ((o - 0x4000) / 4 % 16)).2 * 2 ^ 8)
    else none
  else if 0x24 ≤ w ∧ w < 0x28 then
    if 0x400 ≤ o ∧ o < 0x600 ∧ o % 4 = 0 then
      let b := (o - 0x400) / 4
      some (b + (if b < 64 then 1 else 0) * 2 ^ 16 + (3 - b / 32) * 2 ^ 18)
    else if 0x1000 ≤ o ∧ o < 0x1100 ∧ o % 4 = 0 then some 0xFFFFFFFF
    else if o = 0x20 then some 1120
    else if o = 0x24 then some 1248
    else if o = 0x28 then some 1360
    else none
  else if 0x28 ≤ w ∧ w < 0x2C then
    if o = R.ELK_CTRL (w - 0x28) % 0x10000 then
      some (b2n (!fu.variant.accord) * 2 ^ (F.ELK_CTRL_CLAIM (w - 0x28)).lo)
    else none
  else if w = 0x38 then
    if o = R.TAL_PORT_CTRL 0 % 0x10000 then some (2 ^ (F.TAL_PORT_CTRL_EN 0).lo)
    else if o = R.TAL_DEVNUM % 0x10000 then some (fu.talId % 2 ^ 6) else none
  else if 0x40 ≤ w ∧ w < 0x48 then
    if o = R.DSK_TARGET (w - 0x40) % 0x10000 then some (16 + 32 * 2 ^ 8 + 16 * 2 ^ 16) else none
  else if w = 0x61 then
    if o % 0x100 = 0x30 ∧ o < 0x1000 then some 0x01000000
    else if 0x10 ≤ o % 0x100 ∧ o % 0x100 < 0x20 ∧ o % 4 = 0 ∧ o < 0x1000 then
      let j := (o % 0x100 - 0x10) / 4
      some (100 * 2 ^ (2 * j) + 100 * 2 ^ (2 * j + 1) * 2 ^ 16)
    else none
  else if w = 0x69 then
    if 0x1000 ≤ o ∧ o < 0x1800 then
      let i := (o - 0x1000) / 32
      let l := thmLimit fu.variant.gradeE i
      if o % 32 = 0 then some (b2n (decide (24 ≤ i)) + (if i < 8 then 2 ^ 3 + 2 ^ 9 else 0))
      else if o % 32 = 8 then some (l.1 + l.2.1 * 2 ^ 16)
      else if o % 32 = 12 then some (l.2.2 + 0x7FFF * 2 ^ 16)
      else none
    else none
  else if 0x70 ≤ w ∧ w < 0x80 then
    if o = 0 then
      some ((if w ≤ 0x72 ∨ w = 0x7F then 2 ^ 0 + 2 ^ 6 else 0) + 50 * 2 ^ 16)
    else if o = 0x24 then some (Config.clkTc (w - 0x70)).toNat
    else none
  else none

/-- The table's own reset value of a register: its fields' values in place; 0 for an offset no table lists. -/
def regTableReset (k : Nat) : Nat :=
  match findReg (k / 0x10000) (k % 0x10000) with
  | some r => r.fields.foldl (fun a f => a + f.rst % 2 ^ f.width * 2 ^ f.lo) 0
  | none => 0

/-- The value a register holds after reset. -/
def regReset (fu : Fuses) (k : Nat) : Word :=
  BitVec.ofNat 32 ((regSpecial fu k).getD (regTableReset k))

end Sys2Proof.Machine
end

