-- ==== Sys2Proof/Machine/StateCore.lean ====
section
/-!
DEFINITION. The state of one Crisal or servo core (chapter 02).
-/
namespace Sys2Proof.Machine

/-- What a core is doing (STATE of CRSn_STATUS, R81). -/
inductive RunState where
  | stopped
  | running
  /-- In WAIT: the mask and the register that receives the result (R70). -/
  | waiting (mask : Nat) (rd : Nat)
  /-- In AT, until press time `t` (R68). -/
  | atWait (t : Nat)
  /-- Halted by a double trap (R80). -/
  | halted
  deriving DecidableEq, Repr, Inhabited

/-- One line of a core's data cache (R56): its 64-byte line number in system space, data and dirtiness. The set is
the line number modulo 128 (32 KiB, 4 ways, 64-byte lines). -/
structure CacheLine where
  line : Nat
  dirty : Bool
  data : List Byte
  deriving DecidableEq, Repr, Inhabited

/-- One core: general registers g0 to g31 (R48), control registers (R49), accumulators (R76), data cache (R56),
posted stores that their target will drop (R65, R231) and the run state. -/
structure Core where
  g : Vector Word 32
  pc : Nat
  flags : Nat
  status : Nat
  epc : Word
  ecause : Word
  ebad : Word
  vbase : Nat
  evp : Nat
  imask : Word
  ap0 : Nat
  ap1 : Nat
  ost : Nat
  wdl : Nat
  scr0 : Word
  scr1 : Word
  acc0 : Int
  acc1 : Int
  run : RunState
  /-- An AT has released and the next instruction issues with it (R69). -/
  atPair : Bool
  cache : List CacheLine
  /-- RUN was written 0 between an AT's release and the next instruction, which issues first (R69). -/
  stopping : Bool
  /-- Address of the instruction issued last (CRSn_PC while the core runs, R81). -/
  lastPc : Nat
  /-- Words a posted partial store found uncorrectable: the store is dropped, and its error is not captured yet (R65,
  R231). -/
  failing : List Nat
  /-- Words of the core's instruction RAM that its own stores replaced since its last FENCE: address, the word as it was,
  and its inverted bits. A fetch may still return them (R55). -/
  stale : List (Nat × Word × Nat)
  deriving DecidableEq, Repr, Inhabited

/-- The core's reset values (R49). R48 gives the general registers none; the model takes 0. -/
def Core.reset : Core where
  g := Vector.replicate 32 0
  pc := 0
  flags := 0
  status := 0
  epc := 0
  ecause := 0
  ebad := 0
  vbase := 0
  evp := 0
  imask := 0
  ap0 := 0
  ap1 := 0x048
  ost := 0
  wdl := 0
  scr0 := 0
  scr1 := 0
  acc0 := 0
  acc1 := 0
  run := .stopped
  atPair := false
  cache := []
  stopping := false
  lastPc := 0
  failing := []
  stale := []

end Sys2Proof.Machine
end

