-- ==== Sys2Proof/Machine/StateExp.lean ====
section
/-!
DEFINITION. The state of a station: scan timing and firing (chapter 04), lace and exposure protection (chapter 05),
exposure link (chapter 06), and the interlock and operator side (chapter 06). What a register shows is held in the
register file; here stands what no register shows.
-/
namespace Sys2Proof.Machine

/-- Scan timing of one station (chapter 04). -/
structure ExpSt where
  /-- Line counter, modulo 2^40 (R45, R131). -/
  line : Nat
  /-- Facets since reset, accepted and flywheeled, modulo 2^32 (EXPs_FACETCNT). -/
  facets : Nat
  /-- Ordinal of the facet in progress: facets begun since power-up, by which cutovers are told apart (R152). -/
  ord : Nat
  /-- Facet number (R124), and whether a facet has been numbered since reset: the first is facet 0. -/
  facet : Nat
  numbered : Bool
  /-- An index has arrived and the next accepted BD takes facet number 0 (R124). -/
  idxSeen : Bool
  /-- A disagreeing index has been kept for a later page-free facet (R124). -/
  idxFix : Bool
  /-- An accepted pulse has been seen, so that an interval can be measured (R119). -/
  bdSeen : Bool
  /-- Counted intervals in a row while acquiring (R119). -/
  acq : Nat
  /-- Flywheel facets in a row (R121). -/
  fly : Nat
  /-- Facets run: a first lock has been reached and FLYOFF has not stopped them (R121). -/
  facetsRun : Bool
  /-- A facet is between its origin and its scan end (R131). -/
  inScan : Bool
  /-- Press time of the current facet's origin, and its line count C_f. -/
  origin : Nat
  cf : Nat
  /-- Press time of the last accepted BD under lock, and the timing units by which the flywheel facets since then have
  moved the origin on from it (R121). -/
  base : Nat
  fromBd : Nat
  /-- Press time and line count of a facet origin from which a station whose facets stopped is still to be counted, so
  that its pages end when they would have (R28). -/
  haltAt : Option (Nat × Nat)
  /-- Probes named by the mark sent for this facet: PFIRST, PN and PW (R150, R174); PN 0 where no mark was sent. -/
  probes : Nat × Nat × Nat
  /-- Pages whose blanking waits for the end of the facet in progress (R166). -/
  tripKeep : List Nat
  /-- The station exposes blank in this facet (R121, R166, R439). -/
  blank : Bool
  /-- Passes of the station's last RUNNING or STOPPING job; 1 if none since reset (R131, R157). -/
  lastP : Nat
  /-- Facet count n of the most recently opened job naming the station (R124). -/
  lastN : Nat
  /-- Active firing table: index 16b + c, entries POS + 2^8 × WIDTH; an unlisted entry is the reset entry (R136). -/
  fire : Tab Nat
  /-- MODE of the commit in progress (R137). -/
  mode : Nat
  /-- Live values of the snapshot fields BDT, FINE, PH, CARRY, PERIOD, SWAPL (R141). -/
  bdt : Nat
  fine : Nat
  ph : Nat
  carry : Bool
  fper : Nat
  swapl : Nat
  /-- Need points judged for this facet: the lines of the facet with origin count `needAt` have been tested (R218). -/
  needAt : Option Nat
  /-- Facet origins of the last 2^32 ns and the one before, newest first: press time and C_f; and the changes of BD_LOCK
  in that time: press time and the value from then on (R386). -/
  origins : List (Nat × Nat)
  locks : List (Nat × Bool)
  deriving DecidableEq, Repr, Inhabited

/-- Codes of one block formed and not yet framed (R162, R171): block number, and per beam its 64 codes. -/
structure FormedBlock where
  facet : Nat
  block : Nat
  codes : List (List Nat)
  deriving DecidableEq, Repr, Inhabited

/-- A cutover, or a new assignment of lanes: the ordinal of its facet, the dead map and the lanes from it on (R152,
R154). -/
structure Cutover where
  facet : Nat
  dead : Nat
  lanes : List Nat
  deriving DecidableEq, Repr, Inhabited

/-- A pulse whose firing code has been decided (R158 to R161): emitter, scan pixel, code as fired, turn-on at which its
dot was tested, turn-on and width as fired, all in timing units after the facet's origin, and how it was clipped: 0 not,
1 per emitter, 2 per head. -/
structure Dot where
  beam : Nat
  x : Nat
  code : Nat
  tested : Int
  on : Int
  width : Nat
  clip : Nat
  deriving DecidableEq, Repr, Inhabited

/-- Lace and exposure protection of one station (chapter 05). Beams are bits of a 128-bit map. -/
structure LacSt where
  /-- Dead map in effect, and the cutovers so far, newest first (R152). -/
  deadEff : Nat
  cutovers : List Cutover
  /-- Dead maps written and not yet in effect, newest first: press time of the write and the map (R152). -/
  pend : List (Nat × Nat)
  cutl : Nat
  /-- Emitters that hold substitution lanes, in the order they were given them (R154), and the passes they were
  assigned for. -/
  lanes : List Nat
  lanesP : Nat
  /-- Emitter probed next (R150) and failures in a row per emitter (R151). -/
  pfirst : Nat
  fails : Tab Nat
  /-- Facets that have ended on a trained link since the last head report (R163). -/
  noReport : Nat
  /-- On-time per emitter, and of the head, of the facets that have ended: (bucket, units), newest first (R158). -/
  emitWin : Tab (List (Nat × Nat))
  headWin : List (Nat × Nat)
  /-- Pulses decided in the facet in progress (R159). -/
  dots : List Dot
  /-- Limits in force from the last bucket boundary (R162): ELIM per emitter where it is not 154, HLIM, CLIP_PICOT. -/
  elim : Tab Nat
  hlim : Nat
  clipPicot : Bool
  /-- Blocks of the current facet formed so far, in ascending order (R172), and those not yet sent. -/
  done : Nat
  formed : List FormedBlock
  deriving DecidableEq, Repr, Inhabited

/-- After reset: nothing dead, HLIM 256 and CLIP_PICOT 1 in force (R168). -/
def LacSt.reset : LacSt := { (default : LacSt) with hlim := 256, clipPicot := true }

/-- A control command (R175). A WR_FIRE entry is POS + 2^6 × WIDTH. -/
inductive CtlCmd where
  | wrFire (beam first : Nat) (entries : List Nat)
  | setUnit (unit : Nat)
  | dropBank
  | echo
  | rdStat
  deriving DecidableEq, Repr, Inhabited

/-- A command sent and not yet acknowledged (R175). -/
structure CtlOut where
  tag : Nat
  cmd : CtlCmd
  repeats : Nat
  sentAt : Nat
  deriving DecidableEq, Repr, Inhabited

/-- A firing-code frame sent (R171), kept while it may be named by a NACK. -/
structure Frame where
  seq : Nat
  facet : Nat
  group : Nat
  block : Nat
  offsets : List Int
  codes : List (List Nat)
  /-- Press time of the facet's origin and its line count, for the judgement of R177. -/
  origin : Nat
  cf : Nat
  deriving DecidableEq, Repr, Inhabited

/-- A facet-start mark (R174). -/
structure Fsm where
  facet : Nat
  lead : Nat
  pfirst : Nat
  pn : Nat
  pw : Nat
  bank : Bool
  claim : Bool
  deriving DecidableEq, Repr, Inhabited

/-- Exposure link of one station (chapter 06). -/
structure ElkSt where
  /-- Press time at which the training step in progress began (R178). -/
  stepAt : Nat
  /-- The PX holds comma lock on the back channel (R176, R178). -/
  comma : Bool
  /-- Number of the next block of the link, and the last 64 blocks sent, newest first (R170). -/
  blockNo : Nat
  wire : List LaneBlock
  credits : Nat
  seq : Nat
  tag : Nat
  queue : List CtlCmd
  out : List CtlOut
  frames : List Frame
  resend : List Nat
  /-- Frames NACKed in a row, and the SEQ of the last (R181). -/
  nackRun : Nat
  nackLast : Nat
  /-- Echo round trips so far in this training, in 10 ps units (R179). -/
  echoes : List Nat
  failedAt : Option Nat
  fsm : Option Fsm
  bank : Bool
  /-- The table load of step TABLE has been queued (R139, R178). -/
  tableQueued : Bool
  headStat : Nat
  /-- The next frame to send of the facet being sent: block, group (R172). -/
  nextBlock : Nat
  nextGroup : Nat
  deriving DecidableEq, Repr, Inhabited

/-- One station's interlock (R183, R184): when each condition began. -/
structure LoopSt where
  closedSince : Option Nat
  mismatchSince : Option Nat
  bothOpenSeen : Bool
  armed : Bool
  deriving DecidableEq, Repr, Inhabited

/-- A consumable read in progress (R188). -/
structure CnsRead where
  port : Nat
  idOnly : Bool
  addr : Nat
  len : Nat
  deriving DecidableEq, Repr, Inhabited

/-- Operator side (R185 to R188): press start of the button, whether the press has already forced a drydown or has
powered the device up, the read in progress, and the bits that the PX has put on CNSk_IO in the last read, in the order
sent. -/
structure PanelSt where
  pressAt : Option Nat
  longDone : Bool
  quiet : Bool
  cns : Option CnsRead
  cnsOut : List Bool
  deriving DecidableEq, Repr, Inhabited

end Sys2Proof.Machine
end

