-- ==== Sys2Proof/Machine/StateMem.lean ====
section
/-!
DEFINITION. The state of the attar engines and band buffers (chapter 07) and of memory, DMA and error correction
(chapter 08).
-/
namespace Sys2Proof.Machine

/-- An attar context (R199 to R203). Pixels are 4-bit numbers, the window oldest first. -/
structure AtrCtx where
  long : Bool
  encode : Bool
  linePx : Nat
  blksz : Nat
  /-- A stream is open: STATE HELD (R201). -/
  openS : Bool
  window : List Nat
  pos : Nat
  blocks : Nat
  /-- Engine whose job uses the context: STATE ACTIVE. -/
  active : Option Nat
  deriving DecidableEq, Repr, Inhabited

/-- A general job on an engine (R205) with its progress at a block boundary (R209). -/
structure AtrJob where
  op : Nat
  flush : Bool
  last : Bool
  ctx : Nat
  src : Nat
  srcLen : Nat
  dstLen : Nat
  dst : Nat
  tag : Nat
  inUsed : Nat
  outMade : Nat
  blocks : Nat
  tStart : Nat
  /-- Status the job has ended with, not yet reported, and its ERR_OFF. -/
  ended : Option (Nat × Nat)
  deriving DecidableEq, Repr, Inhabited

/-- A page block taken by an engine (R217): page index, entry of its block list, station, and where its output lies
in the station's raster as the header states it. -/
structure BandJob where
  page : Nat
  entry : Nat
  stn : Nat
  ctx : Nat
  off : Nat
  outLen : Nat
  deriving DecidableEq, Repr, Inhabited

/-- One attar engine. -/
structure AtrSt where
  job : Option AtrJob
  band : Option BandJob
  /-- Parked completion (R211). -/
  parked : Option (List Byte)
  testing : Bool
  outb : Nat
  outbHi : Word
  deriving DecidableEq, Repr, Inhabited

/-- A band buffer (R214) and what the filler has written (R217). -/
structure Band where
  lines : Nat
  base : Nat
  /-- Station line after the last filled line. -/
  fill : Nat
  failures : Nat
  deriving DecidableEq, Repr, Inhabited

/-- The filler's progress on one page and station (R217 to R219): the entry to look at next, bytes of raster the
dispatched blocks cover, and per decoded block its bytes and how it ended: 0 filled, 1 failed, 2 failed by an
uncorrectable DRAM error. `halted` says that a block without a readable header leaves the rest unplaced, and whether
an uncorrectable error was the reason. -/
structure Fill where
  page : Nat
  stn : Nat
  next : Nat
  bytes : Nat
  runs : List (Nat × Nat × Nat)
  halted : Option Bool
  deriving DecidableEq, Repr, Inhabited

/-- DMA channel states (R235). -/
inductive DmaState where
  | idle | running | stopped | halted | disabling
  deriving DecidableEq, Repr, Inhabited

/-- A DMA descriptor (R236). -/
structure DmaDesc where
  op : Nat
  sw : Nat
  sfix : Bool
  dw : Nat
  dfix : Bool
  stop : Bool
  irq : Bool
  cpl : Bool
  len : Nat
  src : Nat
  dst : Nat
  next : Nat
  deriving DecidableEq, Repr, Inhabited

/-- A DMA channel (R235 to R245). -/
structure DmaCh where
  cring : Nat
  prio : Nat
  state : DmaState
  code : Nat
  doneB : Nat
  cur : Nat
  mism : Nat
  descs : Nat
  head : Nat
  /-- The descriptor in progress, and whether its data have been moved. -/
  desc : Option DmaDesc
  moved : Bool
  /-- Address of the descriptor to fetch next. -/
  fetch : Option Nat
  cmdRej : Bool
  deriving DecidableEq, Repr, Inhabited

/-- Memory controller state (chapter 08). -/
structure MemSt where
  /-- Start of the correction window and its length in minutes (R232), corrections counted in it, tripped already. -/
  winStart : Nat
  winLen : Nat
  winCount : Nat
  winTripped : Bool
  /-- Next unit to scrub (R234); the pass period in force. -/
  scrub : Nat
  scrubPeriod : Nat
  scrubStopped : Bool
  deriving DecidableEq, Repr, Inhabited

end Sys2Proof.Machine
end

