-- ==== Sys2Proof/Machine/StateMotion.lean ====
section
/-!
DEFINITION. The state of the servo, the spindles and the motors (chapter 11), the gate drive and the stepper axes
(chapter 12), the loop engine, the web encoder and the cameras (chapter 13).
-/
namespace Sys2Proof.Machine

/-- One actuator (R312 to R319). -/
structure ActSt where
  /-- Invalid frames in a row (R312); valid frames in a row without a guard condition (R317). -/
  badRun : Nat
  okRun : Nat
  /-- The latest valid frame: PES, cylinder, frame number, end time; one has come since the last sample. -/
  pes : Int
  cyl : Nat
  frame : Nat
  tFrame : Nat
  fresh : Bool
  /-- A guard condition held in this sample interval (GUARD of the record, R314). -/
  guardSeen : Bool
  shkA : Int
  shkB : Int
  /-- Sample count, and sample intervals since the last VCM write (R315). -/
  samples : Nat
  sinceVcm : Nat
  /-- Press time of the last sample record (R314). -/
  sampleAt : Option Nat
  /-- VCM command driven, park in progress since, SEL_LOST since while not PARKED (R318, R319). -/
  vcm : Int
  parkAt : Option Nat
  selLostAt : Option Nat
  deriving DecidableEq, Repr, Inhabited

/-- One HDA port: spindle lock and hot-plug (R320, R331 to R333). -/
structure PortSt where
  act : Vector ActSt 2
  /-- Revolutions in a row inside, and outside, PH_TOL (R332). -/
  inTol : Nat
  outTol : Nat
  /-- Press time of the last index, which started the current slot; a slot is running. -/
  lastIndex : Nat
  slotOn : Bool
  retract : Bool
  deriving DecidableEq, Repr, Inhabited

/-- Motor states (R329). -/
inductive MotState where
  | off | align | ramp | run | brake | fault
  deriving DecidableEq, Repr, Inhabited

/-- The two outputs of a motor phase: commanded on by the step, and when each was last turned off (R321). -/
structure PhaseOut where
  hi : Bool
  lo : Bool
  hiOff : Nat
  loOff : Nat
  deriving DecidableEq, Repr, Inhabited

/-- One motor (R321 to R329). Speeds in 1/16 rpm. -/
structure MotSt where
  state : MotState
  mode : Nat
  hallSense : Bool
  dir : Bool
  poles : Nat
  accel : Nat
  rpmMax : Nat
  step : Nat
  hall : Nat
  steps : Nat
  speed : Nat
  /-- The last six step periods in ns, newest first. -/
  periods : List Nat
  lastComm : Nat
  /-- Commutation due: a qualified zero-cross waits for its advance (R323). -/
  zcAt : Option Nat
  startAt : Nat
  /-- Qualified zero-crosses in a row at or above HAND_RPM during RAMP (R325). -/
  hand : Nat
  /-- PI integral in 1/1,048,576 of 1/1,024 duty, duty in 1/1,024, and the slewed target in 10^-6 of 1/16 rpm (R326). -/
  integ : Int
  duty : Nat
  target : Nat
  /-- Press times of the last commutation and of the start of the PWM period in progress; the outputs of U, V, W. -/
  stepAt : Nat
  pwmAt : Nat
  outs : Vector PhaseOut 3
  /-- Since when the commanded speed has been above 0 in RUN; the declaration of a locked rotor (R327). -/
  cmdSince : Option Nat
  lockedAt : Option Nat
  deriving DecidableEq, Repr, Inhabited

/-- One half-bridge (R340 to R349): commanded and qualified state of its two switches. -/
structure HbSt where
  cmdHi : Bool
  cmdLo : Bool
  /-- Press time of the last turn-off of each switch and of the last turn-on. -/
  offHi : Nat
  offLo : Nat
  onHi : Nat
  onLo : Nat
  watchHi : Bool
  watchLo : Bool
  /-- DSAT_N of each switch low and HSk above HS_THR, as last sampled. -/
  dsatH : Bool
  dsatL : Bool
  hsOver : Bool
  /-- Press time at which HSHORT or a DESAT latched, for the coincidence of R347. -/
  shortAt : Option Nat
  /-- Press time at which the last cause was latched (R349). -/
  latchAt : Option Nat
  deriving DecidableEq, Repr, Inhabited

/-- One inverter bridge (R350). -/
structure InvSt where
  running : Bool
  /-- Press time at which the period of leg 1 in progress began. -/
  since : Nat
  khz : Nat
  phase : Nat
  deriving DecidableEq, Repr, Inhabited

/-- Axis states (R352). -/
inductive AxState where
  | off | hold | moving | stopping | homing | fault
  deriving DecidableEq, Repr, Inhabited

/-- What a homing sequence is doing (R362). -/
inductive HomePhase where
  /-- Moving toward HDIR until the switch, or the stall. -/
  | seek
  /-- Decelerating after the switch became active. -/
  | slow
  /-- Moving back at HVEL / 8 until the switch is inactive, then to the index. -/
  | back
  | toIndex
  /-- Moving HBACK away from the stop (STALL mode). -/
  | away
  deriving DecidableEq, Repr, Inhabited

/-- One stepper axis (R352 to R362). Positions are in microsteps; `pFrac` is the position in units of 10^-8
microstep and `vMilli` the velocity in 1/1,000 microstep/s. -/
structure Axis where
  state : AxState
  pFrac : Int
  vMilli : Int
  /-- The loaded profile: per segment T, P, V (R356). -/
  table : Option (List (Nat × Int × Int))
  /-- Position at MOVE, and time since it in µs. -/
  p0 : Int
  tMove : Nat
  rem : Int
  /-- A stop in the DROP manner is due in the next 10 µs step (R359). -/
  halt : Bool
  /-- Commands of this 10 µs step are ignored: a stall or a safe-stop fell in it (R360). -/
  blocked : Bool
  /-- The stop is a drydown's, after which the outputs go low (R359). -/
  drydown : Bool
  /-- RESUME is running, or was stopped: the target of its trapezoid. -/
  resume : Option Int
  k : Nat
  /-- The exponent that takes effect at the next full-step boundary. -/
  kNext : Nat
  phase : HomePhase
  /-- Distance travelled since HOME, in units of 10^-8 microstep. -/
  travel : Nat
  /-- INDEXn_N was active at the last sample. -/
  idxWas : Bool
  stallRun : Nat
  /-- 10 µs steps for which IRUN still applies after motion (HOLD_MS). -/
  holdTicks : Nat
  /-- Windings: the duty of A is min(1, U/VBUS) × sin(2π·angle/1,024), of B the same with cos (R353). -/
  ampU : Nat
  ampBus : Nat
  angle : Nat
  driven : Bool
  deriving DecidableEq, Repr, Inhabited

/-- Loop slot states (R377). -/
inductive LoopState where
  | stopped | running | frozen | openloop
  deriving DecidableEq, Repr, Inhabited

/-- A loop slot: its class words (R370) and its run state (R373 to R379). -/
structure Loop where
  ikind : Nat
  event : Bool
  degStn : Nat
  isel : Nat
  ifield : Nat
  per : Nat
  stale : Nat
  kp : Int
  ki : Int
  kd : Int
  shift : Nat
  ff0 : Int
  kff : Int
  omin : Int
  omax : Int
  oslew : Nat
  slew : Nat
  doff : Nat
  dlsb : Nat
  dwidth : Nat
  dbase : Nat
  oscWin : Nat
  oscN : Nat
  oscAmp : Nat
  taddr : Nat
  toff : Nat
  tshift : Nat
  state : LoopState
  i : Int
  spr : Int
  /-- The next evaluation sets the ramped set-point to the measured y (R374). -/
  restart : Bool
  /-- The next evaluation is the first after START: y_prev and u_prev are taken from it (R373). -/
  first : Bool
  yPrev : Int
  uPrev : Int
  evals : Nat
  /-- Detector sign (R376): positive, negative or none, and the evaluation counts of the last crossings, newest first. -/
  sign : Option Bool
  crossings : List Nat
  /-- A new measurement waits (R372), and the tick of the last one. -/
  fresh : Bool
  lastMeas : Nat
  /-- Table store, and a copy under way: `some none` for a copy that failed. -/
  table : List Int
  loading : Option (Option (List Int))
  /-- START is waiting for its table copy. -/
  startAfter : Bool
  deriving DecidableEq, Repr, Inhabited

/-- The web encoder (R380 to R383). RAW and HW are 48-bit signed counts. -/
structure WebSt where
  raw : Int
  hw : Int
  lastA : Bool
  lastB : Bool
  /-- Press times of the rises of HW in the last millisecond, newest first (WEB_SPEED). -/
  rises : List Nat
  /-- The web is reversed: HW − RAW exceeds J, or has since (one spoil per reversal). -/
  rev : Bool
  deriving DecidableEq, Repr, Inhabited

/-- A mark window of the configuration block (R389). -/
structure MarkWin where
  x0 : Nat
  plane : Nat
  en : Bool
  mthr : Nat
  mmin : Nat
  mrefX : Int
  mpitch : Nat
  mrefY : Nat
  deriving DecidableEq, Repr, Inhabited

/-- A camera's configuration block in force (R389), with the flat-field table it named. -/
structure CamCfg where
  nexp : Nat
  fmt : Nat
  rgb : Bool
  width : Nat
  black : List Nat
  gain : List Nat
  sat : Nat
  mat : List (List Int)
  ff : List Nat
  collog : Nat
  dx0 : Nat
  dx1 : Nat
  cstn : Nat
  offl : Nat
  latNs : Nat
  marks : List MarkWin
  lin : List (List Nat)
  deriving DecidableEq, Repr, Inhabited

/-- A line of the open frame after the pipeline (R388): its four density planes, tag and whether it was bad. -/
structure CamLine where
  tag : Nat
  tagv : Bool
  bad : Bool
  planes : List (List Nat)
  deriving DecidableEq, Repr, Inhabited

/-- The result of a mark window (R392). -/
structure MarkRes where
  valid : Bool
  partialMark : Bool
  x : Int
  ex : Int
  ey : Int
  y : Nat
  sumW : Nat
  deriving DecidableEq, Repr, Inhabited

/-- The frame being received (R385 to R394). -/
structure CamFrame where
  number : Nat
  tFs : Nat
  /-- Long packets so far on each of VC0 to VC2, and the payloads of lines not yet complete: (line, VC, payload good,
  samples). -/
  counts : List Nat
  waiting : List (Nat × Nat × Bool × List Nat)
  /-- Tag of a line whose LS, or header, has arrived: (line, tag, valid). -/
  tags : List (Nat × Nat × Bool)
  lines : List CamLine
  badLines : Nat
  trunc : Bool
  dropped : Bool
  /-- Line at which each mark window has opened its mark (R392). -/
  markAt : Tab Nat
  /-- Output so far of each stream, by KIND: bytes written, TRUNC, LOST (R391). -/
  outs : Tab (Nat × Bool × Bool)
  deriving DecidableEq, Repr, Inhabited

/-- A camera stream (R390). -/
structure CamStream where
  host : Bool
  planes : Nat
  base : Nat
  slotBytes : Nat
  slots : Nat
  ring : Nat
  deriving DecidableEq, Repr, Inhabited

/-- One camera port (chapter 13). -/
structure CamSt where
  cfg : Option CamCfg
  frame : Option CamFrame
  frames : Nat
  hdrErr : Nat
  crcErr : Nat
  dtErr : Nat
  lenErr : Nat
  vc3 : Nat
  noFrame : Nat
  /-- Streams by KIND. -/
  streams : Tab CamStream
  /-- Latest valid mark of each window (EX, EY); the difference of two windows (8·w + w2) in the latest frame that had
  both; the latest densities of a complete frame (R372). -/
  lastMark : Tab (Int × Int)
  lastDiff : Tab (Int × Int)
  lastDens : List Nat
  /-- Lines in the pipeline's input buffer while its writes are held back (R394). -/
  buffered : Nat
  xtrigAt : Option Nat
  deriving DecidableEq, Repr, Inhabited

end Sys2Proof.Machine
end

