-- ==== Sys2Proof/Machine/StatePower.lean ====
section
/-!
DEFINITION. The state of power, thermal management and clocks (chapter 14), of the fault collector, the accord link,
the sillage log and service (chapter 15), and of boundary scan (chapter 16).
-/
namespace Sys2Proof.Machine

/-- Where the power-up or the drydown stands (R404 to R413). -/
inductive PwrPhase where
  /-- Off: VIN has not qualified, or the device stays off. -/
  | off
  /-- Running step `i` of the rail sequence (R404). -/
  | seq (i : Nat)
  /-- Sequence done: DRAM training and fill, then the boot image (R407). -/
  | training
  | filling
  | booting
  | running
  | bootfail
  /-- Drydown: parks running, then rails being withdrawn (the step whose rail is off next), then the hold-off. -/
  | drydown
  | withdraw (i : Nat)
  | holdoff
  deriving DecidableEq, Repr, Inhabited

/-- Step operations of the sequence table (R402). -/
inductive SeqOp where
  | on | wait | delay
  deriving DecidableEq, Repr, Inhabited

/-- One step of the rail sequence (R402). -/
structure SeqStep where
  rail : Nat
  op : SeqOp
  qual : Nat
  tmo : Nat
  deriving DecidableEq, Repr, Inhabited

/-- Rail limits (R402). -/
structure RailLim where
  nom : Nat
  use : Bool
  wlo : Nat
  whi : Nat
  flo : Nat
  fhi : Nat
  wfilt : Nat
  ffilt : Nat
  deriving DecidableEq, Repr, Inhabited

/-- The sequence table in force (R402, R403). -/
structure SeqTable where
  vinOn : Nat
  vinWarn : Nat
  vinFault : Nat
  vinFilt : Nat
  rails : List RailLim
  steps : List SeqStep
  deriving DecidableEq, Repr, Inhabited

/-- Since when a monitored value has been outside a band (R405, R406). -/
structure Judge where
  warnSince : Option Nat
  faultSince : Option Nat
  lowSince : Option Nat
  /-- In warning, and in fault, at the last judgement. -/
  warned : Bool
  faulted : Bool
  /-- Press time of the last judgement: the next is due 10 µs later (R405). -/
  last : Option Nat
  deriving DecidableEq, Repr, Inhabited

/-- Power and boot (R401 to R414). -/
structure PwrSt where
  phase : PwrPhase
  table : SeqTable
  bounces : Nat
  /-- Press time of the last bounce of the current step, or of its start (R404). -/
  window : Nat
  /-- Press time at which the current step, the drydown or the hold-off began. -/
  since : Nat
  /-- Live monitor values in mV, by rail; VIN. -/
  rails : Tab Nat
  vin : Nat
  /-- Since when VIN has been at or above VIN_ON (R407). -/
  vinOkSince : Option Nat
  judges : Tab Judge
  vinJudge : Judge
  /-- Sequence aborts in a row (R404). -/
  aborts : Nat
  stayOff : Bool
  /-- A qualified button press kept through a drydown or its hold-off (R413). -/
  pressKept : Bool
  /-- The device is off until a press or a VIN cycle (R404, R413). -/
  waitPress : Bool
  /-- The boot ROM has gone over to slot B (R409). -/
  slotB : Bool
  /-- A core has been released since power-up (R486). -/
  released : Bool
  deriving DecidableEq, Repr, Inhabited

/-- One thermal channel: conversions failed in a row, latest value, the hundred values before it (newest first),
the rise per second. -/
structure ThmCh where
  eng : Int
  fails : Nat
  hist : List Int
  slope : Int
  /-- SLOPE exceeded ROR at the last round. -/
  ror : Bool
  deriving DecidableEq, Repr, Inhabited

/-- The thermal round's own state (R415 to R423). -/
structure ThmSt where
  chans : Vector ThmCh 64
  /-- Peak account, and rounds since it last fell (R422). -/
  acc : Nat
  recov : Nat
  /-- Thermal shutdown lock as MRAM holds it, and the SEQ of its record (R421). -/
  tsd : Bool
  tsdSeq : Nat
  /-- Press time of the last round (R415). -/
  roundAt : Option Nat
  deriving DecidableEq, Repr, Inhabited

/-- Settings of a synthesizer (R425, R426). -/
structure PllSet where
  refmul : Nat
  pdiv : Nat
  bw : Nat
  nint : Nat
  nfrac : Nat
  nmod : Nat
  outs : List Nat
  deriving DecidableEq, Repr, Inhabited

/-- Settings of every synthesizer before any are applied (R432). -/
def PllSet.reset : PllSet := ⟨0, 0, 50, 60, 0, 1, [32, 32, 32, 32]⟩

/-- One synthesizer (R424 to R429). -/
structure PllSt where
  /-- Settings in force. -/
  force : PllSet
  gated : Bool
  /-- Gated by a loss of lock or reference, so that the outputs restart only after LOCK has held (R428, R429). -/
  lossGated : Bool
  /-- LOCK has been regained at this time after such a loss. -/
  relockAt : Option Nat
  /-- Settings have been applied and not locked yet: SET_UNIT is due at lock (R426). -/
  fromApply : Bool
  /-- Gated because REFCLK was lost with HOLD_EN = 0, until the reference changes (R429). -/
  refGated : Bool
  holdSince : Option Nat
  /-- FS374 has been set for this holdover (R429). -/
  holdLong : Bool
  /-- The reference has changed, but the synthesizer stays in holdover for its station's pages (R429). -/
  switchWait : Bool
  /-- DCO correction in 1/65,536 ppb from the holdover law. -/
  corr : Int
  deriving DecidableEq, Repr, Inhabited

/-- A synthesizer after reset: not running. -/
def PllSt.reset : PllSt := { (default : PllSt) with force := PllSet.reset, gated := true }

/-- The reference (R429): lost at present, and since when a change to the crystal path is due. -/
structure RefSt where
  lost : Bool
  switchDue : Option Nat
  deriving DecidableEq, Repr, Inhabited

/-- The fault collector (R434 to R444). -/
structure FltSt where
  /-- Sources whose event has been raised and not yet taken by the collector. -/
  raised : List Nat
  /-- Accumulated reaction set of the open incident, and its deadline (R437, R438). -/
  incReact : Nat
  incDeadline : Nat
  nseq : Nat
  /-- Press time of the last kick, or of HEALTHY (R444). -/
  kickAt : Nat
  /-- The ALIVE pin. -/
  alive : Bool
  /-- Press time of the last toggle point. -/
  aliveAt : Option Nat
  deriving DecidableEq, Repr, Inhabited

/-- A record waiting in the sillage queue (R463): KIND and payload, with the press time and ACC of its cause. -/
structure NvmRec where
  kind : Nat
  time : Nat
  acc : Nat
  payload : List Byte
  deriving DecidableEq, Repr, Inhabited

/-- The sillage log (R463 to R466). -/
structure NvmSt where
  queue : List NvmRec
  seq : Nat
  index : Nat
  boots : Nat
  /-- The queued record that is firmware's append (BUSY). -/
  append : Bool
  deriving DecidableEq, Repr, Inhabited

/-- The accord pair (R445 to R457). Its packet link stands beside the Talosh ports. -/
structure AcdSt where
  /-- Press time at which a training attempt failed, and its step. -/
  failedAt : Option Nat
  failStep : Nat
  helloSent : Bool
  /-- Press time since which the link has been down after being up (R455). -/
  downSince : Option Nat
  /-- Join accepted as shadow: the press time has still to be stepped, and the first STATE to be applied (R447). -/
  joining : Bool
  stepped : Bool
  /-- The received press time to be echoed next, and the DCO trim of PL0 in ppm (R446, R447). -/
  lastTimeRx : Nat
  trim : Int
  /-- Stations whose line counter and facet number the shadow takes over at their next facet origin, with the values
  (R447). -/
  copyStn : Nat
  copyLine : List Nat
  copyFacet : List Nat
  /-- STATE is due at a facet origin (R449). -/
  stateDue : Bool
  /-- Press time at which STATE was last sent. -/
  stateAt : Nat
  /-- Page whose PAGEQ has been sent and not answered. -/
  asked : Option Nat
  /-- HANDOVER waits for a facet origin; the origin has come (R456). -/
  handover : Bool
  handoverDue : Bool
  /-- When the token was taken, and the end of a back-off (R451). -/
  tokenAt : Nat
  backoffUntil : Option Nat
  deriving DecidableEq, Repr, Inhabited

/-- A core self-test under way (R459). -/
structure SvcSt where
  testing : Option Nat
  /-- REPLACE has been 1 since (R461). -/
  replaced : Bool
  deriving DecidableEq, Repr, Inhabited

/-- Boundary-scan instructions (R485, R486). -/
inductive JtagInstr where
  | bypass | idcode | samplePreload | extest | clamp | highz | extestPulse | extestTrain
  deriving DecidableEq, Repr, Inhabited

/-- The test access port: the instruction in force, what its data register captured (open for the boundary register,
whose order and length the spec does not give), the update latch, and whether it holds the pins. -/
structure JtagSt where
  instr : JtagInstr
  dr : Nat
  latch : List Bool
  pins : Bool
  deriving DecidableEq, Repr, Inhabited

end Sys2Proof.Machine
end

