-- ==== Sys2Proof/Machine/State.lean ====
section
/-!
DEFINITION. The state of the block as plain data, the reasons a step can stop, and the state after reset.
-/
namespace Sys2Proof.Machine

/-- The machine stops with a fault. The spec gives every command an effect, so no meaning raises one today; the one
reason stands for a step on a state that its own invariant rules out. -/
inductive Fault where
  /-- Raised by no meaning; safe. -/
  | brokenInvariant
  deriving DecidableEq, Repr

/-- A command without meaning. -/
inductive Refusal where
  /-- Raised only by an arm of `exec` that has no meaning yet; safe. -/
  | notModelled (mnemonic : String)
  deriving DecidableEq, Repr

/-- The machine. A register's bits that firmware or hardware set stand in `regs`, keyed by register-space offset
(window × 0x1_0000 + offset), where an unlisted register holds its reset value; everything else the spec gives the
device stands in the fields beside it. -/
structure State where
  /-- Commands waiting, the next one first. -/
  pending : List Instr
  fuses : Fuses
  /-- Press time (R44). -/
  ptime : BitVec 64
  /-- Answer of the last register or memory access to its requester (R11, R15). -/
  bus : BusResp
  /-- Counts the free values taken: the model's own field. -/
  freeCtr : Nat
  /-- Registers that differ from their reset value. For a snapshot field this is the captured copy (R38). -/
  regs : Tab Word
  /-- Bytes of DRAM, MRAM and the cores' local RAMs by system address (R14); an unlisted byte reads 0. -/
  mem : List Host.Cell
  /-- Bits inverted in a stored word, by address of the word (R57, R228): how many. -/
  upsets : Tab Nat
  cores : Vector Core 24
  /-- Objects by class × 65,536 + index (R83), slot generations (default 1), slots withdrawn (R113), and per class the
  free slots in the order they were freed, once that differs from ascending order (R86). -/
  objs : Tab ObjHdr
  gens : Tab Nat
  withdrawn : List Nat
  freeList : Tab (List Nat)
  jobs : Tab Job
  pages : Tab Page
  timers : Tab Timer
  evgs : Tab EvGroup
  mboxes : Tab Mailbox
  rings : Tab Ring
  dmas : Tab DmaCh
  actxs : Tab AtrCtx
  bands : Tab Band
  loops : Tab Loop
  stalled : List StalledPush
  /-- Pages waiting for admission, oldest first (R20). -/
  admitQ : List Nat
  snap : Option Snap
  /-- The drain in progress: cores SRC and DST (R111). -/
  drain : Option (Nat × Nat)
  exp : Vector ExpSt 4
  lac : Vector LacSt 4
  elk : Vector ElkSt 4
  ilk : Vector LoopSt 4
  panel : PanelSt
  atr : Vector AtrSt 8
  fills : List Fill
  memst : MemSt
  links : Vector LinkSt 3
  t1 : T1St
  stq : StqSt
  dsk : Vector DskSt 8
  ports : Vector PortSt 4
  mots : Vector MotSt 16
  hbs : Vector HbSt 32
  invs : Vector InvSt 4
  axes : Vector Axis 16
  /-- The last 128 conversions of each fast input, newest first (R368, R372). -/
  ain : List (List Nat)
  /-- Press time of the last conversion, and of the last loop tick taken (R368, R371). -/
  adcAt : Option Nat
  tickAt : Option Nat
  /-- LPWM duty in force, and the press time at which the period began (R369). -/
  lpwm : List Nat
  lpwmAt : List Nat
  web : WebSt
  cams : Vector CamSt 4
  pwr : PwrSt
  thm : ThmSt
  plls : Vector PllSt 16
  ref : RefSt
  flt : FltSt
  nvm : NvmSt
  acd : AcdSt
  svc : SvcSt
  jtag : JtagSt
  deriving DecidableEq, Repr

/-- The machine right after power-on reset. -/
def State.reset : State where
  pending := []
  fuses := ⟨.px44ac, 0, 0, 0, 0, 0, 0, 0, 0⟩
  ptime := 0
  bus := ⟨false, 0⟩
  freeCtr := 0
  regs := []
  mem := []
  upsets := []
  cores := Vector.replicate 24 Core.reset
  objs := []
  gens := []
  withdrawn := []
  freeList := []
  jobs := []
  pages := []
  timers := []
  evgs := []
  mboxes := []
  rings := []
  dmas := []
  actxs := []
  bands := []
  loops := []
  stalled := []
  admitQ := []
  snap := none
  drain := none
  exp := Vector.replicate 4 default
  lac := Vector.replicate 4 LacSt.reset
  elk := Vector.replicate 4 default
  ilk := Vector.replicate 4 default
  panel := default
  atr := Vector.replicate 8 default
  fills := []
  memst := default
  links := Vector.replicate 3 default
  t1 := default
  stq := default
  dsk := Vector.replicate 8 default
  ports := Vector.replicate 4 default
  mots := Vector.replicate 16 default
  hbs := Vector.replicate 32 default
  invs := Vector.replicate 4 default
  axes := Vector.replicate 16 default
  ain := []
  adcAt := none
  tickAt := none
  lpwm := []
  lpwmAt := []
  web := default
  cams := Vector.replicate 4 default
  pwr := default
  thm := default
  plls := Vector.replicate 16 PllSt.reset
  ref := default
  flt := default
  nvm := { (default : NvmSt) with seq := 1 }
  acd := default
  svc := default
  jtag := default

end Sys2Proof.Machine
end

