-- ==== Sys2Proof/Machine/Ops.lean ====
section
/-!
DEFINITION. The named operations every meaning is written in: registers and their fields, bytes of memory, presence of
units (R1 to R3), fault events (R435), event bits (R66, R101), objects and handles (R83 to R93), free values.
-/
namespace Sys2Proof.Machine

/-! ### Sparse stores with a default -/

/-- The entry at `k`, or the value an unlisted key reads as. -/
def Tab.getD {α : Type} (t : Tab α) (k : Nat) (d : α) : α := (Tab.get t k).getD d

/-- Writing the value an unlisted key reads as removes the entry, so that equal contents are equal tables. -/
def Tab.setD {α : Type} [DecidableEq α] (t : Tab α) (k : Nat) (v d : α) : Tab α :=
  if v = d then Tab.del t k else Tab.put t k v

/-! ### Registers -/

/-- The register at register-space offset `k`: its stored bits. -/
def State.reg (s : State) (k : Nat) : Word := Tab.getD s.regs k (regReset s.fuses k)

/-- The state with register `k` holding `v`. -/
def State.setReg (s : State) (k : Nat) (v : Word) : State :=
  { s with regs := Tab.setD s.regs k v (regReset s.fuses k) }

/-- A field of a register, as a number. -/
def State.fld (s : State) (f : Fld) : Nat := bits (s.reg f.key).toNat f.lo f.width

/-- A one-bit field. -/
def State.flag (s : State) (f : Fld) : Bool := bit (s.reg f.key).toNat f.lo

/-- The state with field `f` holding `v` modulo its width. -/
def State.setFld (s : State) (f : Fld) (v : Nat) : State :=
  s.setReg f.key (BitVec.ofNat 32 (setBits (s.reg f.key).toNat f.lo f.width v))

/-- The state with one-bit field `f` set. -/
def State.setFlag (s : State) (f : Fld) : State := s.setFld f 1

/-- The state with field `f` cleared. -/
def State.clrFlag (s : State) (f : Fld) : State := s.setFld f 0

/-- The state with one-bit field `f` equal to `b`. -/
def State.putFlag (s : State) (f : Fld) (b : Bool) : State := s.setFld f (b2n b)

/-- A count field raised by `n`, saturating at its width. -/
def State.addSat (s : State) (f : Fld) (n : Nat) : State :=
  s.setFld f (capNat (2 ^ f.width - 1) (s.fld f + n))

/-- A count field raised by `n`, modulo its width. -/
def State.addMod (s : State) (f : Fld) (n : Nat) : State := s.setFld f (s.fld f + n)

/-- The field's bits of a written word. -/
def Fld.of (f : Fld) (v : Word) : Nat := bits v.toNat f.lo f.width

/-- Field `f` as two's complement. -/
def State.sfld (s : State) (f : Fld) : Int := sx f.width (s.fld f)

/-- A 40-bit address held in a LO and a HI register, laid out as DMAn_HEAD (R247). -/
def State.addr40 (s : State) (lo hi : Nat) : Nat := (s.reg lo).toNat + bits (s.reg hi).toNat 0 8 * 2 ^ 32

/-- A LO and HI register pair as one number. -/
def State.reg64 (s : State) (lo hi : Nat) : Nat := (s.reg lo).toNat + (s.reg hi).toNat * 2 ^ 32

/-- The state with a number in a LO and HI register pair. -/
def State.setReg64 (s : State) (lo hi n : Nat) : State :=
  (s.setReg lo (BitVec.ofNat 32 n)).setReg hi (BitVec.ofNat 32 (n / 2 ^ 32))

/-- The state with a 40-bit number in a LO and HI register pair. -/
def State.setReg40 (s : State) (lo hi n : Nat) : State :=
  (s.setReg lo (BitVec.ofNat 32 n)).setReg hi (BitVec.ofNat 32 (n / 2 ^ 32 % 2 ^ 8))

/-- Press time as a number (R44). -/
def State.now (s : State) : Nat := s.ptime.toNat

/-! ### Bytes of memory -/

/-- One byte at a system address; a byte nothing has written reads 0. -/
def State.rd8 (s : State) (a : Nat) : Byte := Tab.getD s.mem a 0

/-- The state with one byte written. -/
def State.wr8 (s : State) (a : Nat) (b : Byte) : State := { s with mem := Tab.setD s.mem a b 0 }

/-- `n` bytes from address `a` up. -/
def State.rdBytes (s : State) (a n : Nat) : List Byte := (List.range n).map (fun i => s.rd8 (a + i))

/-- The state with a byte string written from address `a` up. -/
def State.wrBytes (s : State) (a : Nat) (l : List Byte) : State :=
  match l with
  | [] => s
  | b :: r => (s.wr8 a b).wrBytes (a + 1) r

/-- The little-endian number of `n` bytes at `a`. -/
def State.rdLe (s : State) (a n : Nat) : Nat := ofLe (s.rdBytes a n)

/-- The state with the little-endian bytes of a number written at `a`. -/
def State.wrLe (s : State) (a n v : Nat) : State := s.wrBytes a (leBytes n v)

/-! ### Faults, events, free values -/

/-- A fault source's condition has arisen (R435): the event waits for the collector. -/
def State.raise (s : State) (src : Nat) : State := { s with flt := { s.flt with raised := s.flt.raised ++ [src] } }

/-- Raise when the condition holds. -/
def State.raiseIf (s : State) (c : Bool) (src : Nat) : State := if c then s.raise src else s

/-- A fresh open value. -/
def State.freeWord (s : State) : Word := Config.freeWord s.freeCtr

/-- The state after a free value has been taken. -/
def State.tookFree (s : State) : State := { s with freeCtr := s.freeCtr + 1 }

/-- The state with core `n` changed. -/
def State.modCore (s : State) (n : Nat) (f : Core → Core) : State := { s with cores := vmod s.cores n f }

/-- Core `n`. -/
def State.core (s : State) (n : Nat) : Core := vget s.cores n

/-- EVP bits of core `n` set (R66); bit 31 is never set. -/
def State.setEvp (s : State) (n : Nat) (m : Nat) : State :=
  s.modCore n (fun c => { c with evp := c.evp ||| m % 2 ^ 31 })

/-! ### Presence (R1 to R3) -/

def State.variant (s : State) : Variant := s.fuses.variant

/-- Station Ss is present. -/
def State.hasStn (s : State) (i : Nat) : Bool := decide (i < s.variant.stations)

/-- HDA port Hh is present. -/
def State.hasHda (s : State) (h : Nat) : Bool := decide (h < s.variant.hdas)

/-- Disk channel DCd is present (R2). -/
def State.hasDch (s : State) (d : Nat) : Bool := decide (d < 2 * s.variant.hdas)

/-- Camera port CPc is present. -/
def State.hasCam (s : State) (c : Nat) : Bool := decide (c < s.variant.cameras)

/-- The accord link and the ACD block are present. -/
def State.hasAccord (s : State) : Bool := s.variant.accord

/-- Core n is present: a servo core is absent with its HDA port (R3). -/
def State.hasCore (s : State) (n : Nat) : Bool :=
  decide (n < 16) || (decide (n < 24) && s.hasDch (n - 16))

/-- Motor n is present: polygon motors go with their station, spindle motors with their port (R3). -/
def State.hasMot (s : State) (n : Nat) : Bool :=
  if n < 4 then s.hasStn n else if n < 8 then s.hasHda (n - 4) else decide (n < 16)

/-- Synthesizer PLn is present (R424, R3). -/
def State.hasPll (s : State) (n : Nat) : Bool :=
  if n < 3 then true else if n < 7 then s.hasStn (n - 3) else if n < 15 then s.hasDch (n - 7)
  else decide (n = 15)

/-- Window `w` of register space is mapped (R46). -/
def windowMapped (w : Nat) : Bool :=
  decide (w ≤ 0x04) || decide (w = 0x06) || (decide (0x07 ≤ w) && decide (w ≤ 0x2C))
    || (decide (0x30 ≤ w) && decide (w ≤ 0x3A)) || (decide (0x40 ≤ w) && decide (w ≤ 0x4B))
    || (decide (0x50 ≤ w) && decide (w ≤ 0x69)) || (decide (0x70 ≤ w) && decide (w ≤ 0x7F))

/-- The unit of window `w` is present (R3). -/
def State.windowPresent (s : State) (w : Nat) : Bool :=
  if 0x08 ≤ w ∧ w < 0x20 then s.hasCore (w - 0x08)
  else if 0x20 ≤ w ∧ w < 0x2C then s.hasStn ((w - 0x20) % 4)
  else if w = 0x3A then s.hasAccord
  else if 0x40 ≤ w ∧ w < 0x48 then s.hasDch (w - 0x40)
  else if 0x48 ≤ w ∧ w < 0x4C then s.hasHda (w - 0x48)
  else if 0x50 ≤ w ∧ w < 0x60 then s.hasMot (w - 0x50)
  else if 0x64 ≤ w ∧ w < 0x68 then s.hasCam (w - 0x64)
  else if 0x70 ≤ w ∧ w < 0x80 then s.hasPll (w - 0x70)
  else windowMapped w

/-- A write to a register of window `w`: performed if the unit is present, else ignored with FS5 (R5). -/
def State.onWindow (s : State) (w : Nat) (f : State → State) : State :=
  if s.windowPresent w then f s else s.raise 5

/-! ### Handles and objects (R83 to R93) -/

/-- The status codes of OST (R73). -/
inductive Ost where
  | ok | stale | absent | exhausted | busy | empty | full | cls | param | invalid
  deriving DecidableEq, Repr, Inhabited

/-- Code of a status (R73). -/
def Ost.code : Ost → Nat
  | .ok => 0 | .stale => 1 | .absent => 2 | .exhausted => 3 | .busy => 4 | .empty => 5
  | .full => 6 | .cls => 7 | .param => 8 | .invalid => 9

/-- CLASS of a handle (R83). -/
def hClass (h : Nat) : Nat := h / 2 ^ 26 % 64

/-- GEN of a handle (R83). -/
def hGen (h : Nat) : Nat := h / 2 ^ 16 % 1024

/-- INDEX of a handle (R83). -/
def hIdx (h : Nat) : Nat := h % 2 ^ 16

/-- Key of an object slot. -/
def okey (c i : Nat) : Nat := c * 65536 + i

/-- The handle of a slot at generation `g` (R83). -/
def mkHandle (c g i : Nat) : Nat := c * 2 ^ 26 + g * 2 ^ 16 + i

/-- The generation of a slot; 1 after reset (R84). -/
def State.genOf (s : State) (c i : Nat) : Nat := Tab.getD s.gens (okey c i) 1

/-- The object in a slot. -/
def State.obj (s : State) (c i : Nat) : Option ObjHdr := Tab.get s.objs (okey c i)

/-- The slot holds an open object. -/
def State.isOpen (s : State) (c i : Nat) : Bool := (s.obj c i).isSome

/-- The slot has been withdrawn by a table error (R113). -/
def State.isWithdrawn (s : State) (c i : Nat) : Bool := s.withdrawn.contains (okey c i)

/-- The handle of the object in a slot; 0 if the slot is free. -/
def State.handleOf (s : State) (c i : Nat) : Nat :=
  match s.obj c i with
  | some o => mkHandle c o.gen i
  | none => 0

/-- Check of a handle (R85), up to the object's own state: the first status that applies, or the slot. `fits` says
which classes the instruction accepts. -/
def State.checkHandle (s : State) (h : Nat) (fits : Nat → Bool) : Except Ost Nat :=
  if h = 0 ∨ hGen h = 0 then .error .invalid
  else if classCap (hClass h) = 0 ∨ fits (hClass h) = false then .error .cls
  else if classCap (hClass h) ≤ hIdx h then .error .invalid
  else if s.isWithdrawn (hClass h) (hIdx h) then .error .stale
  else match s.obj (hClass h) (hIdx h) with
    | none => .error .stale
    | some o => if o.gen = hGen h then .ok (hIdx h) else .error .stale

/-- The handle names an open object of class `c`: its index. -/
def State.live (s : State) (h c : Nat) : Option Nat :=
  match s.checkHandle h (fun k => k == c) with
  | .ok i => some i
  | .error _ => none

/-- EVGRP of the object in a slot; 0 if none. -/
def State.evgrpOf (s : State) (c i : Nat) : Nat :=
  match s.obj c i with
  | some o => o.evgrp
  | none => 0

/-- Bits raised in an event group (R101): ORed into PENDING, and the group's EVP bit set in every target core that is
present. Raising no bits, or naming no open group, does nothing. -/
def State.raiseEv (s : State) (h bits : Nat) : State :=
  if bits % 2 ^ 32 = 0 then s
  else match s.live h 0x0D with
    | none => s
    | some i =>
      match Tab.get s.evgs i with
      | none => s
      | some g =>
        (setBitsOf 24 g.cores).foldl (fun t n => if t.hasCore n then t.setEvp n (2 ^ g.evbit) else t)
          { s with evgs := Tab.put s.evgs i { g with pending := g.pending ||| bits % 2 ^ 32 } }

/-- Bits raised in the event group of an object. -/
def State.notify (s : State) (c i bits : Nat) : State := s.raiseEv (s.evgrpOf c i) bits

/-- Free slots of a class, those withdrawn left out. -/
def State.freeCount (s : State) (c : Nat) : Nat :=
  (classCap c) - ((List.range (classCap c)).filter (fun i => s.isOpen c i || s.isWithdrawn c i)).length

/-! ### Changing one unit of a set -/

def State.modExp (s : State) (i : Nat) (f : ExpSt → ExpSt) : State := { s with exp := vmod s.exp i f }
def State.modLac (s : State) (i : Nat) (f : LacSt → LacSt) : State := { s with lac := vmod s.lac i f }
def State.modElk (s : State) (i : Nat) (f : ElkSt → ElkSt) : State := { s with elk := vmod s.elk i f }
def State.modIlk (s : State) (i : Nat) (f : LoopSt → LoopSt) : State := { s with ilk := vmod s.ilk i f }
def State.modAtr (s : State) (i : Nat) (f : AtrSt → AtrSt) : State := { s with atr := vmod s.atr i f }
def State.modLink (s : State) (i : Nat) (f : LinkSt → LinkSt) : State := { s with links := vmod s.links i f }
def State.modDsk (s : State) (i : Nat) (f : DskSt → DskSt) : State := { s with dsk := vmod s.dsk i f }
def State.modPort (s : State) (i : Nat) (f : PortSt → PortSt) : State := { s with ports := vmod s.ports i f }
def State.modMot (s : State) (i : Nat) (f : MotSt → MotSt) : State := { s with mots := vmod s.mots i f }
def State.modHb (s : State) (i : Nat) (f : HbSt → HbSt) : State := { s with hbs := vmod s.hbs i f }
def State.modInv (s : State) (i : Nat) (f : InvSt → InvSt) : State := { s with invs := vmod s.invs i f }
def State.modAxis (s : State) (i : Nat) (f : Axis → Axis) : State := { s with axes := vmod s.axes i f }
def State.modCam (s : State) (i : Nat) (f : CamSt → CamSt) : State := { s with cams := vmod s.cams i f }
def State.modPll (s : State) (i : Nat) (f : PllSt → PllSt) : State := { s with plls := vmod s.plls i f }

/-- Actuator of disk channel `d` (R2: DC = 2·port + actuator). -/
def State.act (s : State) (d : Nat) : ActSt := vget (vget s.ports (d / 2)).act (d % 2)

def State.modAct (s : State) (d : Nat) (f : ActSt → ActSt) : State :=
  s.modPort (d / 2) (fun p => { p with act := vmod p.act (d % 2) f })

def State.modJob (s : State) (i : Nat) (f : Job → Job) : State := { s with jobs := Tab.upd s.jobs i f }
def State.modPage (s : State) (i : Nat) (f : Page → Page) : State := { s with pages := Tab.upd s.pages i f }
def State.modRing (s : State) (i : Nat) (f : Ring → Ring) : State := { s with rings := Tab.upd s.rings i f }
def State.modLoop (s : State) (i : Nat) (f : Loop → Loop) : State := { s with loops := Tab.upd s.loops i f }
def State.modDma (s : State) (i : Nat) (f : DmaCh → DmaCh) : State := { s with dmas := Tab.upd s.dmas i f }
def State.modFlt (s : State) (f : FltSt → FltSt) : State := { s with flt := f s.flt }
def State.modPwr (s : State) (f : PwrSt → PwrSt) : State := { s with pwr := f s.pwr }
def State.modThm (s : State) (f : ThmSt → ThmSt) : State := { s with thm := f s.thm }
def State.modNvm (s : State) (f : NvmSt → NvmSt) : State := { s with nvm := f s.nvm }
def State.modAcd (s : State) (f : AcdSt → AcdSt) : State := { s with acd := f s.acd }
def State.modStq (s : State) (f : StqSt → StqSt) : State := { s with stq := f s.stq }
def State.modWeb (s : State) (f : WebSt → WebSt) : State := { s with web := f s.web }

/-- Repeat an effect for each item of a list. -/
def State.each {α : Type} (s : State) (l : List α) (f : State → α → State) : State := l.foldl f s

/-- An effect under a condition. -/
def State.when (s : State) (c : Bool) (f : State → State) : State := if c then f s else s

/-- An effect of what is there, if anything is. -/
def State.withSome {α : Type} (s : State) (o : Option α) (f : α → State) : State :=
  match o with
  | none => s
  | some x => f x

end Sys2Proof.Machine
end

