-- ==== Sys2Proof/Machine/MemOps.lean ====
section
/-!
DEFINITION. The system address space (R14, R15), the error-correcting codes (R57, R228 to R232) and the accesses of
hardware requesters to memory.
-/
namespace Sys2Proof.Machine

/-- Bytes of populated DRAM (R226). -/
def State.dramSize (s : State) : Nat := s.fld F.MEM_CFG_SIZE * 2 ^ 30

/-- Bytes of DRAM that a requester reaches: none before INIT_DONE (R233). -/
def State.dramTop (s : State) : Nat := if s.flag F.MEM_STATUS_INIT_DONE then s.dramSize else 0

/-- What a system address reaches (R14, R54). -/
inductive Region where
  | dram | mram
  | iram (n : Nat)
  | dataRam (n : Nat)
  | regs
  | unmapped
  deriving DecidableEq, Repr

/-- Start of MRAM, of the local RAMs and of register space. -/
def mramBase : Nat := 0x1000000000
def ramBase : Nat := 0x1100000000
def regBase : Nat := 0x1200000000

/-- The region of a system address. -/
def State.region (s : State) (a : Nat) : Region :=
  if a < mramBase then (if a < s.dramTop then .dram else .unmapped)
  else if a < mramBase + 0x80000 then .mram
  else if a < ramBase then .unmapped
  else if a < ramBase + 24 * 0x20000 then
    (if (a - ramBase) % 0x20000 < 0x10000 then .iram ((a - ramBase) / 0x20000) else .dataRam ((a - ramBase) / 0x20000))
  else if a < regBase then .unmapped
  else if a < regBase + 0x1000000 then .regs
  else .unmapped

/-- System address of core `n`'s instruction RAM and data RAM (R54). -/
def iramBase (n : Nat) : Nat := ramBase + n * 0x20000
def dramBaseOf (n : Nat) : Nat := ramBase + n * 0x20000 + 0x10000

/-- Every byte of the range lies in populated DRAM. -/
def State.inDram (s : State) (a n : Nat) : Bool := decide (a + n ≤ s.dramTop)

/-- Every byte of the range lies in mapped memory of one region, register space left out. -/
def State.inMemory (s : State) (a n : Nat) : Bool :=
  match s.region a with
  | .regs => false
  | .unmapped => false
  | r => decide (n = 0) || decide (s.region (a + n - 1) = r)

/-- Who reads memory, as the REQ codes of R230. -/
def reqCacheFill : Nat := 0
def reqCore : Nat := 1
def reqDma : Nat := 2
def reqAttar : Nat := 3
def reqPageBlock : Nat := 4
def reqBandRead : Nat := 5
def reqRing : Nat := 6
def reqTalosh : Nat := 7
def reqStorage : Nat := 8
def reqCamera : Nat := 9
def reqScrub : Nat := 10

/-- How the code of a word reads a pattern of inverted bits. -/
inductive EccRead where
  | good
  /-- Corrected: how many bits. -/
  | corrected (k : Nat)
  /-- Delivered with these data bits inverted, seen as corrected (`some`) or not seen at all. -/
  | wrong (flip : Nat) (seen : Bool)
  | uncorrectable
  deriving DecidableEq, Repr

/-- A pattern beyond what the code promises: which outcome is open, and depends on the pattern alone (R228). A wrong
correction leaves open data bits inverted; an error not detected delivers the `width` data bits as they stand. -/
def eccOpen (width pattern : Nat) : EccRead :=
  match Config.eccOutcome pattern % 3 with
  | 0 => .uncorrectable
  | 1 => .wrong (Config.eccOutcome pattern / 3 % 2 ^ 64) true
  | _ => .wrong (pattern % 2 ^ width) false

/-- The word reads as all 0 or all 1 in its 80 bits (R228). -/
def eccStuck (data pattern : Nat) : Bool :=
  let word := (data % 2 ^ 64 + Config.eccCheck data % 2 ^ 16 * 2 ^ 64) ^^^ (pattern % 2 ^ 80)
  word == 0 || word == 2 ^ 80 - 1

/-- The 80-bit code (R228): one or two bits corrected, three detected; a word that reads as all 0 or all 1 is
uncorrectable; any other pattern of four or more bits is open. -/
def eccDram (data pattern : Nat) : EccRead :=
  match popc 80 pattern with
  | 0 => .good
  | 1 => .corrected 1
  | 2 => .corrected 2
  | 3 => .uncorrectable
  | _ => if eccStuck data pattern then .uncorrectable else eccOpen 64 pattern

/-- The local-RAM code (R57): one bit corrected, two detected. -/
def eccLocal (pattern : Nat) : EccRead :=
  match popc 39 pattern with
  | 0 => .good
  | 1 => .corrected 1
  | 2 => .uncorrectable
  | _ => eccOpen 32 pattern

/-- Bytes of one ECC word at this address: four in a local RAM, eight elsewhere. -/
def eccWordBytes (a : Nat) : Nat := if ramBase ≤ a then 4 else 8

/-- The first uncorrectable DRAM error since VALID was cleared is captured; every one counts and sets FS201 (R230).
FS203 as well when the scrubber met it (R234). -/
def State.dramUe (s : State) (req a : Nat) : State :=
  let s1 := s.addSat F.MEM_UE_INFO_COUNT 1
  let s2 := if s1.flag F.MEM_UE_INFO_VALID then s1
    else (((s1.setReg40 R.MEM_UE_ADDR_LO R.MEM_UE_ADDR_HI (a / 8 * 8)).setFld F.MEM_UE_INFO_REQ req).setFld
      F.MEM_UE_INFO_CH (bits a 8 2)).setFlag F.MEM_UE_INFO_VALID
  (s2.raise 201).raiseIf (req == reqScrub) 203

/-- CE_THR; 0 acts as 1 (R246). -/
def State.ceThr (s : State) : Nat := max 1 (s.fld F.MEM_CE_RATE_CE_THR)

/-- Length of a correction window in minutes: CE_WIN, 0 acting as 1 and values above 1,440 as 1,440 (R246). -/
def State.ceWin (s : State) : Nat := min 1440 (max 1 (s.fld F.MEM_CE_RATE_CE_WIN))

/-- The correction count of the window, judged against CE_THR: RATE_TRIP and FS202 once a window (R232). -/
def State.rateCheck (s : State) : State :=
  if s.memst.winTripped then s
  else if s.ceThr < s.memst.winCount then
    ({ s with memst := { s.memst with winTripped := true } }.setFlag F.MEM_STATUS_RATE_TRIP).raise 202
  else s

/-- A correctable DRAM error (R229): counted for the channel, FS200, counted in the window. -/
def State.dramCe (s : State) (a k : Nat) : State :=
  let s1 := s.addSat (if k = 1 then F.MEM_CE_CNT_ONE (bits a 8 2) else F.MEM_CE_CNT_TWO (bits a 8 2)) 1
  let s2 := s1.raise 200
  { s2 with memst := { s2.memst with winCount := s2.memst.winCount + 1 } }.rateCheck

/-- An uncorrectable error in a local RAM of core `n`: captured, and FS(32+2n) (R57). -/
def State.localUe (s : State) (n off : Nat) (dataRam : Bool) : State :=
  let s1 := if s.flag (F.CRS_ECC_ADDR_VALID n) then s
    else ((s.setFld (F.CRS_ECC_ADDR_ADDR n) (off / 4)).putFlag (F.CRS_ECC_ADDR_SPACE n) dataRam).setFlag
      (F.CRS_ECC_ADDR_VALID n)
  s1.raise (32 + 2 * n)

/-- An uncorrectable word at an address has been met by a requester: captured and raised as its memory has it. -/
def State.ueAt (s : State) (req a : Nat) : State :=
  match s.region a with
  | .dram => s.dramUe req a
  | .mram => s.raise 24
  | .iram n => s.localUe n ((a - ramBase) % 0x10000) false
  | .dataRam n => s.localUe n ((a - ramBase) % 0x10000) true
  | _ => s

/-- One ECC word met by a read: the state after correction or capture, and whether it is uncorrectable. -/
def State.eccMeet (s : State) (req : Nat) (a pattern : Nat) : State × Bool :=
  let clean : State := { s with upsets := Tab.del s.upsets a }
  let miss (t : State) (flip n : Nat) : State :=
    t.wrLe a n (t.rdLe a n ^^^ (flip % 2 ^ (8 * n)))
  match s.region a with
  | .dram =>
    match eccDram (s.rdLe a 8) pattern with
    | .good => (clean, false)
    | .corrected k => (clean.dramCe a k, false)
    | .wrong flip seen => (if seen then ((miss clean flip 8).dramCe a 2, false) else (miss clean flip 8, false))
    | .uncorrectable => (s.dramUe req a, true)
  | .mram =>
    match eccDram (s.rdLe a 8) pattern with
    | .uncorrectable => (s.raise 24, true)
    | .wrong flip _ => (miss clean flip 8, false)
    | _ => (clean, false)
  | .iram n =>
    match eccLocal pattern with
    | .good => (clean, false)
    | .corrected _ => (clean.addSat (F.CRS_ECC_CNT_IRAM n) 1, false)
    | .wrong flip _ => (miss clean flip 4, false)
    | .uncorrectable => (s.localUe n ((a - ramBase) % 0x10000) false, true)
  | .dataRam n =>
    match eccLocal pattern with
    | .good => (clean, false)
    | .corrected _ => (clean.addSat (F.CRS_ECC_CNT_DRAM_LOCAL n) 1, false)
    | .wrong flip _ => (miss clean flip 4, false)
    | .uncorrectable => (s.localUe n ((a - ramBase) % 0x10000) true, true)
  | _ => (s, false)

/-- The words with inverted bits that a range touches. -/
def State.upsetsIn (s : State) (a n : Nat) : Tab Nat :=
  s.upsets.filter (fun e => decide (e.1 < a + n) && decide (a < e.1 + eccWordBytes e.1))

/-- A read meets the words of its range: the address of the first uncorrectable one, if any. -/
def State.eccRange (s : State) (req a n : Nat) : State × Option Nat :=
  (s.upsetsIn a n).foldl
    (fun r e => match r.1.eccMeet req e.1 e.2 with
      | (t, bad) => (t, if bad then (match r.2 with | none => some e.1 | some x => some x) else r.2))
    (s, none)

/-- What a memory read gives its requester. -/
inductive MemRead where
  | data (l : List Byte)
  | unmapped
  /-- Uncorrectable at this word. -/
  | ecc (at_ : Nat)
  deriving DecidableEq, Repr

/-- A requester's read of `n` bytes of memory (not of registers). -/
def State.memRead (s : State) (req a n : Nat) : State × MemRead :=
  if s.inMemory a n = false then (s, .unmapped)
  else match s.eccRange req a n with
    | (t, none) => (t, .data (t.rdBytes a n))
    | (t, some x) => (t, .ecc x)

/-- The sillage region of MRAM (R463). -/
def inSillage (a : Nat) : Bool := decide (mramBase ≤ a) && decide (a < mramBase + 0x40000)

/-- The word that MEM_INJ_ADDR names (R246). -/
def State.injAddr (s : State) : Nat := s.addr40 R.MEM_INJ_ADDR_LO R.MEM_INJ_ADDR_HI / 8 * 8

/-- Bits inverted by an injection of NBITS (R246): the first NBITS of data bits 0, 21 and 42. -/
def injPattern (nbits : Nat) : Nat :=
  if nbits ≤ 1 then 2 ^ 0 else if nbits = 2 then 2 ^ 0 + 2 ^ 21 else 2 ^ 0 + 2 ^ 21 + 2 ^ 42

/-- A full-word write replaces data and check bits (R231); an armed injection inverts bits of the word it names. -/
def State.wordWritten (s : State) (a : Nat) : State :=
  let s1 : State := { s with upsets := Tab.del s.upsets a }
  if s1.region a = .dram ∧ s1.flag F.MEM_INJ_CTRL_ARM = true ∧ s1.injAddr = a then
    { s1 with upsets := Tab.put s1.upsets a (injPattern (s1.fld F.MEM_INJ_CTRL_NBITS)) }.clrFlag F.MEM_INJ_CTRL_ARM
  else s1

/-- One ECC word of a write (R231): whole words are written without a read; a partial word whose read is
uncorrectable keeps its value. The flag says that such a word was dropped. -/
def State.writeWord (s : State) (req a : Nat) (l : List Byte) : State × Bool :=
  let w := eccWordBytes a
  let base := a / w * w
  if l.length = w then ((s.wrBytes a l).wordWritten base, false)
  else match Tab.get s.upsets base with
    | none => (s.wrBytes a l, false)
    | some p =>
      match s.eccMeet req base p with
      | (t, true) => (t, true)
      | (t, false) => (t.wrBytes a l, false)

/-- The bytes of a write split at ECC-word boundaries: address and bytes of each piece. -/
def splitWords (fuel a : Nat) (l : List Byte) : List (Nat × List Byte) :=
  match fuel with
  | 0 => []
  | fuel + 1 =>
    if l.isEmpty then []
    else
      let w := eccWordBytes a
      let k := w - a % w
      (a, l.take k) :: splitWords fuel (a + k) (l.drop k)

/-- A write of bytes into mapped memory, word by word: whether a partial word was dropped. -/
def State.memWriteWords (s : State) (req a : Nat) (l : List Byte) : State × Bool :=
  (splitWords (l.length + 1) a l).foldl
    (fun r e => match r.1.writeWord req e.1 e.2 with | (t, bad) => (t, r.2 || bad)) (s, false)

/-- What a memory write did. -/
inductive MemWrite where
  | done | unmapped
  /-- A partial word's read was uncorrectable (R231). -/
  | ecc
  deriving DecidableEq, Repr

/-- A requester's write to memory: the sillage region refuses it with FS25 (R463), a running core's instruction RAM
with IW_DENIED (R54), an absent servo core's local RAM with FS5 (R5). -/
def State.memWrite (s : State) (req a : Nat) (l : List Byte) : State × MemWrite :=
  if s.inMemory a l.length = false then (s, .unmapped)
  else if inSillage a then (s.raise 25, .done)
  else match s.region a with
    | .iram n =>
      if s.hasCore n = false then (s.raise 5, .done)
      else if s.flag (F.CRS_CTRL_RUN n) then (s.setFlag (F.CRS_STATUS_IW_DENIED n), .done)
      else match s.memWriteWords req a l with
        | (t, bad) => (t, if bad then .ecc else .done)
    | .dataRam n =>
      if s.hasCore n = false then (s.raise 5, .done)
      else match s.memWriteWords req a l with
        | (t, bad) => (t, if bad then .ecc else .done)
    | _ => match s.memWriteWords req a l with
      | (t, bad) => (t, if bad then .ecc else .done)

/-- A write reaches this address: mapped memory but the sillage region, the instruction RAM of a running core and the
local RAM of an absent one. -/
def State.writable (s : State) (a : Nat) : Bool :=
  match s.region a with
  | .dram => true
  | .mram => !inSillage a
  | .iram n => s.hasCore n && !s.flag (F.CRS_CTRL_RUN n)
  | .dataRam n => s.hasCore n
  | _ => false

/-- Bytes of a destination whose contents the spec leaves undefined take free values, the words with an error left as
they are. -/
def State.freeRange (s : State) (a n : Nat) : State :=
  ((splitWords (n + 1) a ((List.range n).map (Config.freeByte s.freeCtr))).foldl
    (fun t e => if s.writable e.1 && (Tab.get s.upsets (e.1 / eccWordBytes e.1 * eccWordBytes e.1)).isNone then
      t.wrBytes e.1 e.2 else t) s).tookFree

/-- A read of memory by system requesters that honours absent servo cores: their RAM reads 0 (R5). -/
def State.sysMemRead (s : State) (req a n : Nat) : State × MemRead :=
  match s.region a with
  | .iram k | .dataRam k =>
    if s.hasCore k then s.memRead req a n
    else if s.inMemory a n then (s, .data (List.replicate n 0)) else (s, .unmapped)
  | _ => s.memRead req a n

end Sys2Proof.Machine
end

