-- ==== Sys2Proof/Machine/TalCode.lean ====
section
/-!
DEFINITION. Packets as they travel: their bytes (R253), and the coded blocks in which they go out on the lanes of a
Talosh port (R250) or of the accord link (R445).
-/
namespace Sys2Proof.Machine

/-- Credit class of a packet on a link (R253, R446): 0 P, 1 N, 2 C, 3 link packets. -/
def pktClass (l : Nat) (type : Nat) : Nat :=
  if 0x30 ≤ type then 3
  else if l = 2 then (if type = 0x09 then 1 else if type = 0x0A then 2 else 0)
  else if type = 0x02 ∨ type = 0x05 then 1
  else if type = 0x03 ∨ type = 0x06 then 2
  else 0

/-- The bytes of a packet (R253): header, payload, CRC-32C. -/
def Pkt.bytes (p : Pkt) : List Byte :=
  let l := leBytes 4 (p.type % 64 + p.dev % 64 * 2 ^ 6 + p.len % 2 ^ 13 * 2 ^ 16)
    ++ leBytes 4 (p.tag % 2 ^ 16 + p.seq % 2 ^ 12 * 2 ^ 16) ++ leBytes 8 p.addr ++ p.payload
  l ++ leBytes 4 (crc32c l)

/-- The packet that bytes spell. -/
def Pkt.ofBytes (l : List Byte) : Pkt :=
  let w := entLe l 0 4
  let x := entLe l 4 4
  ⟨w % 64, bits w 6 6, bits w 16 13, x % 2 ^ 16, bits x 16 12, entLe l 8 8, (l.drop 16).take (l.length - 20)⟩

/-- The packet received. -/
def PktIn.pkt (p : PktIn) : Pkt := Pkt.ofBytes p.bytes

/-- Payload bytes that follow a header: REG_RD and MEM_RD ask for LEN bytes and carry none (R253). -/
def Pkt.carried (p : Pkt) (l : Nat) : Nat := if l < 2 ∧ (p.type = 0x02 ∨ p.type = 0x05) then 0 else p.len

/-- The trailer stands where LEN puts it and is the CRC-32C of header and payload (R253). -/
def PktIn.crcOk (p : PktIn) (l : Nat) : Bool :=
  p.bytes.length == 20 + p.pkt.carried l
    && entLe p.bytes (p.bytes.length - 4) 4 == crc32c (p.bytes.take (p.bytes.length - 4))

/-- A reserved field of the header is not 0 (R253). -/
def PktIn.reserved (p : PktIn) : Bool :=
  bits (entLe p.bytes 0 4) 12 4 != 0 || bits (entLe p.bytes 0 4) 29 3 != 0 || bits (entLe p.bytes 4 4) 28 4 != 0

/-! ### Blocks on the lanes -/

/-- Bytes of payload of a block on link `l`: 64b/66b on a Talosh port, 128b/130b on the accord link. -/
def blockBytes (l : Nat) : Nat := if l < 2 then 8 else 16

/-- Lanes of a width coded as MAXW. -/
def laneCount (width : Nat) : Nat := 2 ^ width

/-- Byte groups of a packet, the last one filled up. -/
def blockGroups (size : Nat) (l : List Byte) : List Nat :=
  (List.range ((l.length + size - 1) / size)).map (fun i =>
    let g := (l.drop (size * i)).take size
    ofLe g + Config.linkFill 1 % 2 ^ (8 * (size - g.length)) * 2 ^ (8 * g.length))

/-- The blocks of a packet (R250): group `i` on lane `i` mod `lanes`, from lane 0; idle control blocks fill the lanes
behind it, since a packet begins on lane 0. -/
def laneBlocks (size lanes : Nat) (l : List Byte) : List LaneBlock :=
  let g := blockGroups size l
  let idle := (lanes - g.length % lanes) % lanes
  (List.range g.length).map (fun i => ⟨i % lanes, false, g.getD i 0⟩)
    ++ (List.range idle).map (fun i => ⟨(g.length + i) % lanes, true, Config.linkFill 0 % 2 ^ (8 * size)⟩)

/-- Sync header of a block: 0b01 data, 0b10 control (R170, R250). -/
def LaneBlock.sync (b : LaneBlock) : Nat := if b.control then 2 else 1

/-- The blocks in which a packet leaves on link `l` at a width: the accord link has two lanes (R445). -/
def Pkt.blocks (p : Pkt) (l width : Nat) : List LaneBlock :=
  laneBlocks (blockBytes l) (if l < 2 then laneCount width else 2) p.bytes

end Sys2Proof.Machine
end

