-- ==== Sys2Proof/Machine/Effects.lean ====
section
/-!
DEFINITION. Effects that many commands share: pushing an entry to a ring (R102 to R106), sending a packet (R253 to
R261), the sillage queue (R463), time and line positions of a station (R131, R332), spoiling, degrading, withdrawing
and finishing a page (R26, R28 to R36).
-/
namespace Sys2Proof.Machine

/-! ### Rings -/

/-- Entries in a ring (R102). -/
def Ring.count (r : Ring) : Nat := (r.prod + 2 ^ 32 - r.cons) % 2 ^ 32

/-- Address of entry `k` (R102). -/
def Ring.entryAddr (r : Ring) (k : Nat) : Nat := r.base + 64 * (k % r.size)

/-- Role of ring number `n` (R103): 0 HSUB, 1 HCPL, 2 WORK, 3 MBOX. -/
def ringRole (n : Nat) : Nat := n / 16

/-- An entry appended to ring `n`, which has room: written, PROD advanced, NEBIT raised (R102, R103). -/
def State.ringAppend (s : State) (n : Nat) (r : Ring) (entry : List Byte) : State :=
  let s1 := (s.memWriteWords reqRing (r.entryAddr r.prod) entry).1
  let s2 : State := { s1 with rings := Tab.put s1.rings n { r with prod := (r.prod + 1) % 2 ^ 32 } }
  s2.notify 0x04 n (2 ^ r.nebit)

/-- An entry dropped (R106): DROPS, OVF and FS83. -/
def State.ringDrop (s : State) (n : Nat) : State :=
  ((s.addSat (F.RNG_STAT_DROPS n) 1).setFlag (F.RNG_STAT_OVF n)).raise 83

/-- What a hardware push did. -/
inductive PushRes where
  | pushed | dropped | stalled | unusable
  deriving DecidableEq, Repr

/-- The open ring of role `role` a handle names, not in ERROR (R107). -/
def State.usableRing (s : State) (h role : Nat) : Option (Nat × Ring) :=
  match s.live h 0x04 with
  | none => none
  | some n =>
    match Tab.get s.rings n with
    | none => none
    | some r => if ringRole n = role ∧ r.error = false then some (n, r) else none

/-- A hardware producer's push (R106). `always` marks the three producers that drop whatever POLICY says. -/
def State.hwPush (s : State) (who : Producer) (always : Bool) (h role : Nat) (entry : List Byte) : State × PushRes :=
  match s.usableRing h role with
  | none => (s, .unusable)
  | some (n, r) =>
    if decide (r.count < r.size) && (always || !s.stalled.any (fun e => e.ring == n)) then (s.ringAppend n r entry, .pushed)
    else if always || r.drop then (s.ringDrop n, .dropped)
    else ({ s with stalled := s.stalled ++ [⟨n, who, entry⟩] }, .stalled)

/-- What popping an entry gave. -/
inductive PopRes where
  | entry (l : List Byte)
  | empty
  /-- Uncorrectable: the entry is lost and the ring is in ERROR (R107). -/
  | lost
  deriving DecidableEq, Repr

/-- The oldest entry of open ring `n` removed (R102); an uncorrectable one is consumed and puts the ring into ERROR
with FS84 (R107). -/
def State.ringPop (s : State) (n : Nat) (r : Ring) : State × PopRes :=
  if r.count = 0 then (s, .empty)
  else
    let r1 : Ring := { r with cons := (r.cons + 1) % 2 ^ 32 }
    match s.memRead reqRing (r.entryAddr r.cons) 64 with
    | (t, .data l) => ({ t with rings := Tab.put t.rings n r1 }, .entry l)
    | (t, _) => ({ t with rings := Tab.put t.rings n { r1 with error := true } }.raise 84, .lost)

/-- A hardware unit finds the ring its handle names: none for handle 0, and whether the ring is unusable. -/
def State.unitRing (s : State) (h role : Nat) : Option (Nat × Ring) := s.usableRing h role

/-- The 64 bytes of an entry, given as (offset, bytes, value) fields; everything else 0. -/
def entryOf (size : Nat) (fields : List (Nat × Nat × Nat)) : List Byte :=
  leBytes size (fields.foldl (fun a f => a + f.2.2 % 2 ^ (8 * f.2.1) * 2 ^ (8 * f.1)) 0)

/-! ### Packets -/

/-- Header and data credits a packet costs (R257). -/
def pktCost (p : Pkt) : Nat × Nat := (1, (p.payload.length + 63) / 64)

/-- Credits offered at NEGOTIATE (R257). -/
def Credits.offer : Credits := ⟨64, 1024, 32, 0, 64, 1024⟩

/-- Header and data credits held in a class. -/
def Credits.of (c : Credits) (cls : Nat) : Nat × Nat :=
  if cls = 0 then (c.ph, c.pd) else if cls = 1 then (c.nh, c.nd) else (c.ch, c.cd)

/-- Credits of a class raised. -/
def Credits.add (c : Credits) (cls h d : Nat) : Credits :=
  if cls = 0 then { c with ph := c.ph + h, pd := c.pd + d }
  else if cls = 1 then { c with nh := c.nh + h, nd := c.nd + d }
  else { c with ch := c.ch + h, cd := c.cd + d }

/-- Credits of a class lowered. -/
def Credits.sub (c : Credits) (cls h d : Nat) : Credits :=
  if cls = 0 then { c with ph := c.ph - h, pd := c.pd - d }
  else if cls = 1 then { c with nh := c.nh - h, nd := c.nd - d }
  else { c with ch := c.ch - h, cd := c.cd - d }

/-- The packet's credits are held. -/
def Credits.covers (c : Credits) (cls : Nat) (cost : Nat × Nat) : Bool :=
  decide (cost.1 ≤ (c.of cls).1) && decide (cost.2 ≤ (c.of cls).2)

/-- Bytes of the replay buffer in use (R256). -/
def replayBytes (l : List Pkt) : Nat := (l.map (fun p => 20 + p.payload.length)).sum

/-- The sender takes a packet that has its credits and fits the replay buffer: it gets the next SEQ and leaves on the
lanes (R250, R256, R257). -/
def LinkSt.take (k : LinkSt) (l : Nat) (p : Pkt) (now : Nat) : LinkSt :=
  { k with
    wire := { p with seq := k.txSeq }.blocks l k.width
    replay := k.replay ++ [{ p with seq := k.txSeq }]
    txSeq := (k.txSeq + 1) % 4096
    credit := k.credit.sub (pktClass l p.type) (pktCost p).1 (pktCost p).2
    lastAck := if k.replay.isEmpty then now else k.lastAck }

/-- A packet may go now: credits held and room in the 64 KiB replay buffer (R256, R257). -/
def LinkSt.canSend (k : LinkSt) (l : Nat) (p : Pkt) : Bool :=
  k.credit.covers (pktClass l p.type) (pktCost p) && decide (replayBytes k.replay + 20 + p.payload.length ≤ 65536)

/-- Packets leave in the order they were issued (R255): a packet waits behind those that wait. -/
def LinkSt.send (k : LinkSt) (l : Nat) (p : Pkt) (now : Nat) (port : Option Nat := none) : LinkSt :=
  if k.waiting.isEmpty && k.canSend l p then k.take l p now else { k with waiting := k.waiting ++ [⟨p, port⟩] }

/-- Waiting packets that can go now. -/
def LinkSt.drain (k : LinkSt) (l now : Nat) : Nat → LinkSt
  | 0 => k
  | n + 1 =>
    match k.waiting with
    | [] => k
    | p :: r => if k.canSend l p.pkt then ({ k with waiting := r }.take l p.pkt now).drain l now n else k

/-- Link `l` carries packets: TU or TD is UP, or the accord link is (R251, R445). -/
def State.linkUp (s : State) (l : Nat) : Bool :=
  if l < 2 then s.flag (F.TAL_PORT_STATUS_UP l) else s.fld F.ACD_STATUS_STATE == 4

/-- A packet issued on link `l`; discarded while the link is not up (R252). -/
def State.sendPkt (s : State) (l : Nat) (p : Pkt) : State :=
  if s.linkUp l then s.modLink l (fun k => k.send l p s.now) else s

/-- Credits of a received packet go back to its sender with a CREDIT packet as its buffer drains (R257). -/
def State.giveCredit (s : State) (l : Nat) (p : Pkt) : State :=
  let cls := pktClass l p.type
  let cost := pktCost p
  s.modLink l (fun k => { k with
    granted := k.granted.add cls cost.1 cost.2
    linkOut := k.linkOut ++ [⟨0x31, 0, 0, 0, 0, cls + cost.1 * 2 ^ 8 + cost.2 * 2 ^ 16, []⟩] })

/-- Packets whose receive buffers are free now. -/
def State.giveCredits (s : State) (l : List Queued) : State :=
  s.each l (fun t q => match q.port with | some o => t.giveCredit o q.pkt | none => t)

/-- Waiting packets of link `l` that can go now leave, and those forwarded free the buffers they came from. -/
def State.drainLink (s : State) (l : Nat) : State :=
  let k := vget s.links l
  let k2 := k.drain l s.now (k.waiting.length + 1)
  (s.modLink l (fun _ => k2)).giveCredits (k.waiting.take (k.waiting.length - k2.waiting.length))

/-- A packet received on port `o` is forwarded on link `l`, where it may have to wait in its buffer (R257, R259). -/
def State.forward (s : State) (o l : Nat) (p : Pkt) : State :=
  if s.linkUp l = false then s.giveCredit o p
  else
    let k2 := (vget s.links l).send l p s.now (some o)
    (s.modLink l (fun _ => k2)).when (decide (k2.waiting.length ≤ (vget s.links l).waiting.length)) (·.giveCredit o p)

/-- The device number (R258). -/
def State.devNum (s : State) : Nat := s.fld F.TAL_DEVNUM_DEV

/-- The pair is joined. -/
def State.joined (s : State) : Bool := s.hasAccord && s.flag F.ACD_STATUS_JOINED

/-- The device is the shadow of a joined pair. -/
def State.isShadow (s : State) : Bool := s.joined && !s.flag F.ACD_STATUS_ROLE

/-- The device is the active of a joined pair. -/
def State.isActive (s : State) : Bool := s.joined && s.flag F.ACD_STATUS_ROLE

/-- The device holds the ownership token; without accord it always does (R339). -/
def State.holdsToken (s : State) : Bool := !s.hasAccord || s.flag F.ACD_STATUS_TOKEN

/-- A packet toward the host for this device's number: the shadow of a joined pair sends none (R260). -/
def State.sendHost (s : State) (type tag addr : Nat) (payload : List Byte) : State :=
  if s.isShadow then s else s.sendPkt 0 ⟨type, s.devNum, payload.length, tag, 0, addr, payload⟩

/-- An EVT packet (R261). -/
def State.sendEvt (s : State) (code arg : Nat) : State :=
  s.sendHost 0x0A 0 0 (leBytes 4 (code % 2 ^ 16) ++ leBytes 4 arg)

/-- An accord packet (R446). -/
def State.sendAcd (s : State) (type addr : Nat) (payload : List Byte) : State :=
  s.sendPkt 2 ⟨type, 0, payload.length, 0, 0, addr, payload⟩

/-! ### The sillage queue -/

/-- ACC of a record: joined, active, token. -/
def State.accBits (s : State) : Nat :=
  b2n s.joined + b2n s.isActive * 2 + b2n s.holdsToken * 4

/-- A record joins the 8-entry sillage queue; one that finds it full is lost with LOST and FS26, but for a drydown
record, which is always queued (R463). -/
def State.sillage (s : State) (kind : Nat) (payload : List Byte) : State :=
  if s.nvm.queue.length < 8 || kind == 0x02 then
    s.modNvm (fun n => { n with queue := n.queue ++ [⟨kind, s.now, s.accBits, payload⟩] })
  else (s.addSat F.NVM_STATUS_LOST 1).raise 26

/-! ### Stations: jobs, time and lines -/

/-- Station `i` is one of the job's. -/
def Job.names (j : Job) (i : Nat) : Bool := bit j.stn i

/-- The job's reference station: its lowest-numbered one (R16). -/
def Job.ref (j : Job) : Nat := (lowestBit 4 j.stn).getD 0

/-- The job's last station in line order: the one whose offset is largest. -/
def Job.maxOffset (j : Job) : Nat := (setBitsOf 4 j.stn).foldl (fun a i => max a (lget j.offset i)) 0

/-- Passes per line as a number (R94). -/
def Job.p (j : Job) : Nat := 2 ^ j.passes

/-- Facet count n (R94). -/
def Job.n (j : Job) : Nat := if j.facets = 0 then 8 else 10

/-- RUNNING or STOPPING. -/
def Job.active (j : Job) : Bool := j.state == .running || j.state == .stopping

/-- The job that is RUNNING or STOPPING on a station (at most one, R95). -/
def State.jobOn (s : State) (i : Nat) : Option (Nat × Job) :=
  s.jobs.find? (fun e => e.2.active && e.2.names i)

/-- An open job names the station (IN_JOB, R141). -/
def State.inJob (s : State) (i : Nat) : Bool := s.jobs.any (fun e => e.2.names i)

/-- Passes in force on a station (R131). -/
def State.passesOn (s : State) (i : Nat) : Nat :=
  match s.jobOn i with
  | some e => e.2.p
  | none => max 1 (vget s.exp i).lastP

/-- Facets in force on a station (R124); 8 while no job has ever named it. -/
def State.facetsOn (s : State) (i : Nat) : Nat :=
  match s.jobOn i with
  | some e => e.2.n
  | none => if (vget s.exp i).lastN = 0 then 8 else (vget s.exp i).lastN

/-- f_dco in Hz, as a fraction (R425). -/
def pllDco (n : Nat) (p : PllSet) : Nat × Nat :=
  let fref := if n = 15 then 25000000 else 100000000
  let mul := if p.refmul = 1 then 4 else if p.refmul = 2 then 1 else 2
  (fref * mul * (p.nint * p.nmod + p.nfrac), 2 * (p.pdiv + 1) * p.nmod)

/-- Frequency of output `k` of a synthesizer with settings `p`, exactly, as a fraction in Hz (R425, R489). -/
def pllFreq (n : Nat) (p : PllSet) (k : Nat) : Nat × Nat := ((pllDco n p).1, (pllDco n p).2 * bits (lget p.outs k) 0 9)

/-- Delay of output `k` in seconds, as a fraction (R425): DLY / 64 of its period. -/
def pllDelay (n : Nat) (p : PllSet) (k : Nat) : Nat × Nat :=
  (bits (lget p.outs k) 9 6 * (pllFreq n p k).2, 64 * (pllFreq n p k).1)

/-- Pixel clock of a station in force, as a fraction in Hz. -/
def State.pixHz (s : State) (i : Nat) : Nat × Nat := pllFreq (3 + i) (vget s.plls (3 + i)).force 0

/-- Facet period of a station in ns, as a fraction (R115). -/
def State.facetNs (s : State) (i : Nat) : Nat × Nat :=
  (s.fld (F.EXP_FACETPX_FACET_PX i) * 1000000000 * (s.pixHz i).2, (s.pixHz i).1)

/-- Lines completed per facet (R115). -/
def State.linesPerFacet (s : State) (i : Nat) : Nat := 128 / s.passesOn i

/-- Λ of a station at press time `t`, in 1/16 line, modulo 2^44 (R332, R386): interpolated from the origin and line
count of the current facet; the line counter itself while no facet has run. -/
def State.lambda16 (s : State) (i t : Nat) : Nat :=
  let e := vget s.exp i
  let p := s.facetNs i
  if e.facetsRun = false ∨ p.1 = 0 ∨ p.2 = 0 then 16 * e.line
  else (16 * e.cf + 16 * s.linesPerFacet i * (t - e.origin) * p.2 / p.1) % 2 ^ 44

/-- The line a station is writing at this instant: floor of Λ, held within the facet's lines (R30). -/
def State.lineNow (s : State) (i : Nat) : Nat :=
  let e := vget s.exp i
  let l := s.lambda16 i s.now / 16
  if e.facetsRun then
    (if lineDist e.cf l < s.linesPerFacet i then l else (e.cf + s.linesPerFacet i - 1) % 2 ^ 40)
  else e.line

/-- A job's own line rate in lines/s as a fraction (R115), from its reference station. -/
def State.jobLineRate (s : State) (j : Job) : Nat × Nat :=
  (lget j.pixclk j.ref * 1000 * 128, s.fld (F.EXP_FACETPX_FACET_PX j.ref) * j.p)

/-! ### Pages -/

/-- The page's job. -/
def State.jobOf (s : State) (p : Page) : Option Job := Tab.get s.jobs (hIdx p.job)

/-- The page's handle. -/
def State.pageHandle (s : State) (i : Nat) : Nat := s.handleOf 0x0B i

/-- Index within the page of the line a station is writing: 0 before the page's first line there. -/
def State.pageLine (s : State) (p : Page) (i : Nat) : Nat :=
  let d := lineDist (lget p.firstLine i) (s.lineNow i)
  if d < 2 ^ 39 then d else 0

/-- The station has begun the page's lines. -/
def State.begun (s : State) (p : Page) (i : Nat) : Bool := lineDist (lget p.firstLine i) (s.lineNow i) < 2 ^ 39

/-- The page has lines still to expose on the station. -/
def State.toExpose (s : State) (p : Page) (i : Nat) : Bool := decide (s.pageLine p i < p.length)

/-- The first line index a station exposes blank once it has completed the line it is writing (R30). -/
def State.blankPoint (s : State) (p : Page) (i : Nat) : Nat := if s.begun p i then s.pageLine p i + 1 else 0

/-- The waste-mark station cannot expose because of the cause (R30; the causes are read as those that stop this
station's own light). -/
def wasteBlocked (j : Job) (stn cause : Nat) (blank : Bool) : Bool :=
  cause == 8 || (cause == 5 && blank)
    || (stn == j.wasteStn && (cause == 1 || cause == 2 || cause == 3 || cause == 4 || cause == 0xC))

/-- The record of a page with a spoil cause entered (R30, R31): a later cause only sets its mask bit, but for one of
the same reference line period that R31 puts first. `stops` says that the cause keeps the waste-mark station from
exposing a mark that is not complete: then no mark counts as printed (log entry 43). -/
def PageRec.spoil (r : PageRec) (stn cause line idx at_ : Nat) (waste stops : Bool) : PageRec :=
  let masked := { r with spoilMask := setBit r.spoilMask (cause - 1), waste := r.waste && !stops }
  let first := { masked with
    spoilCause := cause, spoilStn := stn, spoilLine := some line, spoilIdx := some idx, spoilAt := some at_ }
  if r.spoilCause = 0 then { first with waste := waste && !stops }
  else if r.spoilAt = some at_ ∧ (stn < r.spoilStn ∨ (stn = r.spoilStn ∧ cause < r.spoilCause)) then first
  else masked

/-- A spoil cause on a page (R30, R31): `lost` is the index of the first spoiled line on the causing station. Every
station blanks after the line it is writing. -/
def State.spoilPage (s : State) (i stn cause lost : Nat) (blank : Bool := false) : State :=
  match Tab.get s.pages i with
  | none => s
  | some p =>
    match s.jobOf p with
    | none => s
    | some j =>
      let from_ := (List.range 4).map (fun k =>
        if j.names k then
          (match p.blankFrom.getD k none with
            | some b => some b
            | none => some (if k = stn then max lost (s.blankPoint p k) else s.blankPoint p k))
        else none)
      let first := (from_.getD j.wasteStn none).getD p.length
      let mark := j.waste && decide (first + 1 < p.length)
      let stops := wasteBlocked j stn cause blank && decide (s.pageLine p j.wasteStn < min (first + 1201) p.length)
      s.modPage i (fun q => { q with
        blankFrom := from_
        record := q.record.spoil stn cause ((lget q.firstLine stn + lost) % 2 ^ 40) lost (s.lineNow j.ref) mark stops })

/-- A degradation cause on a page at a line index of a station (R32): none once that line is blank after a spoil. -/
def State.degradePage (s : State) (i stn bitNo idx : Nat) : State :=
  s.modPage i (fun p =>
    if (match p.blankFrom.getD stn none with | some b => decide (b ≤ idx) | none => false) then p
    else { p with record :=
      if p.record.degMask = 0 then
        { p.record with
          degMask := setBit p.record.degMask bitNo, degStn := stn
          degLine := some ((lget p.firstLine stn + idx) % 2 ^ 40), degIdx := some idx }
      else { p.record with degMask := setBit p.record.degMask bitNo } })

/-- Indexes of the pages in a state, of jobs naming a station. -/
def State.pagesOn (s : State) (st : PageState) (i : Nat) : List Nat :=
  (s.pages.filter (fun e => e.2.state == st
    && (match s.jobOf e.2 with | some j => j.names i | none => false))).map (·.1)

/-- Indexes of the pages in a state. -/
def State.pagesIn (s : State) (st : PageState) : List Nat := (s.pages.filter (fun e => e.2.state == st)).map (·.1)

/-- ADMIT_DONE in the job's event group (R23, R96). -/
def State.admitDone (s : State) (p : Page) : State := s.notify 0x0A (hIdx p.job) 1

/-- START_LINE has not begun (R26). -/
def State.beforeStart (s : State) (p : Page) : Bool :=
  match s.jobOf p with
  | some j => !lineLe p.startLine (s.lineNow j.ref)
  | none => false

/-- Pages of jobs naming a station that have begun: PRINTING, or ADMITTED with START_LINE begun. -/
def State.begunOn (s : State) (stn : Nat) : List Nat :=
  s.pagesOn .printing stn ++ (s.pagesOn .admitted stn).filter (fun i => match Tab.get s.pages i with
    | some p => !s.beforeStart p
    | none => false)

/-- ADMITTED pages of jobs naming a station whose START_LINE has not begun. -/
def State.notBegunOn (s : State) (stn : Nat) : List Nat :=
  (s.pagesOn .admitted stn).filter (fun i => match Tab.get s.pages i with
    | some p => s.beforeStart p
    | none => false)

/-- Spoil every page that has begun and has lines still to expose on a station; the first spoiled line is the one the
station is completing (R30). -/
def State.spoilStation (s : State) (stn cause : Nat) : State :=
  s.each (s.begunOn stn) (fun t i =>
    match Tab.get t.pages i with
    | some p => if t.toExpose p stn then t.spoilPage i stn cause (t.pageLine p stn) else t
    | none => t)

/-- What the band filler had of a page is given up. -/
def State.dropFills (s : State) (i : Nat) : State := { s with fills := s.fills.filter (fun f => f.page != i) }

/-- A job in STOPPING with no page QUEUED, ADMITTED or PRINTING goes to SETUP (R95). -/
def State.settleJob (s : State) (ji : Nat) : State :=
  match Tab.get s.jobs ji with
  | none => s
  | some j =>
    if j.state = .stopping ∧ s.pages.all (fun e => hIdx e.2.job != ji
        || !(e.2.state == .queued || e.2.state == .admitted || e.2.state == .printing)) = true
    then s.modJob ji (fun k => { k with state := .setup }) else s

/-- An ADMITTED page returned to READY with result WITHDRAWN, its reservations released (R26); `mask` is ORed into
ADMIT_FAIL. -/
def State.withdrawPage (s : State) (i : Nat) (mask : Nat := 0) : State :=
  match Tab.get s.pages i with
  | some p =>
    if p.state = .admitted ∧ s.beforeStart p = true then
      (((s.modPage i (fun q => { q with
        state := .ready, result := 11, failMask := mask, startLine := 0, reserved := 0
        blankFrom := [], record := default, pagea := none })).modJob (hIdx p.job) (fun j => { j with
          ends := j.ends.filter (fun e => e.1 != s.pageHandle i) })).admitDone p |>.dropFills i).settleJob (hIdx p.job)
    else s
  | none => s

/-- Withdraw every ADMITTED page of jobs naming a station whose START_LINE has not begun. -/
def State.withdrawStation (s : State) (stn : Nat) : State :=
  s.each (s.pagesOn .admitted stn) (fun t i => t.withdrawPage i)

/-- OUTCOME of a record (R29): spoiled before degraded. -/
def PageRec.outcome (r : PageRec) : Nat := if r.spoilCause ≠ 0 then 2 else if r.degMask ≠ 0 then 1 else 0

/-- A 40-bit line and 17-bit index packed as the record has them; all ones if none (R35). -/
def packLine (l idx : Option Nat) : Nat :=
  (l.getD 0xFFFFFFFFFF) % 2 ^ 40 + (idx.getD 0x1FFFF) % 2 ^ 17 * 2 ^ 40

/-- The page record of R35. -/
def State.pageRecord (s : State) (i : Nat) (p : Page) : List Byte :=
  let r := p.record
  let stn := match s.jobOf p with | some j => j.stn | none => 0
  entryOf 64 [
    (0x00, 4, s.pageHandle i), (0x04, 4, p.job), (0x08, 8, r.tFirst), (0x10, 8, r.tLast),
    (0x18, 8, p.startLine % 2 ^ 40 + stn % 16 * 2 ^ 40 + r.outcome * 2 ^ 44 + b2n r.waste * 2 ^ 46
      + b2n r.tko * 2 ^ 47 + b2n r.accSkip * 2 ^ 48),
    (0x20, 4, p.length), (0x24, 4, r.spoilCause + r.spoilStn * 2 ^ 8 + r.spoilMask * 2 ^ 10),
    (0x28, 8, packLine r.spoilLine r.spoilIdx), (0x30, 4, r.degMask + r.degStn * 2 ^ 16),
    (0x34, 4, r.clips), (0x38, 8, packLine r.degLine r.degIdx)]

/-- A page reaches DONE at a press time: its record is pushed to the completion ring, a spoiled page leaves a sillage
record, PAGE_DONE and PAGE_SPOILED are raised (R28, R35, R36, R96). -/
def State.finishPage (s : State) (i t : Nat) : State :=
  match Tab.get s.pages i with
  | none => s
  | some p0 =>
    let p : Page := { p0 with state := .done, reserved := 0, record := { p0.record with tLast := t } }
    let s1 : State := { s with pages := Tab.put s.pages i p, fills := s.fills.filter (fun f => f.page != i) }
    let rec_ := s1.pageRecord i p
    let spoiled := p.record.outcome == 2
    let s2 := match s1.jobOf p with
      | some j => (s1.hwPush .storage true j.cring 2 rec_).1
      | none => s1
    let s3 := if spoiled then s2.sillage 0x01 rec_ else s2
    let s4 := s3.modJob (hIdx p.job) (fun j => { j with completed := (j.completed + 1) % 2 ^ 32 })
    (s4.notify 0x0A (hIdx p.job) (if spoiled then 6 else 2)).settleJob (hIdx p.job)

end Sys2Proof.Machine
end

