-- ==== Sys2Proof/Machine/RegPlain.lean ====
section
/-!
DEFINITION. What a register write and a register read do by access code alone (R12, R13); what a write does beyond
that stands with its unit.
-/
namespace Sys2Proof.Machine

/-- The LOCK register of a window that has WL fields or a lock (R12). -/
def lockKey (w : Nat) : Option Nat :=
  if 0x08 ≤ w ∧ w < 0x20 then some (R.CRS_LOCK (w - 0x08))
  else if 0x28 ≤ w ∧ w < 0x2C then some (R.ELK_LOCK (w - 0x28))
  else if w = 0x06 then some R.MEM_LOCK
  else if w = 0x38 then some R.TAL_LOCK
  else if w = 0x39 then some R.STQ_LOCK
  else if 0x40 ≤ w ∧ w < 0x48 then some (R.DSK_LOCK (w - 0x40))
  else if 0x70 ≤ w ∧ w < 0x80 then some (R.CLK_LOCK (w - 0x70))
  else none

/-- The window's LOCK bit is set. -/
def State.locked (s : State) (w : Nat) : Bool :=
  match lockKey w with
  | some k => bit (s.reg k).toNat 0
  | none => false

/-- One field of a written register by its access code (R12). -/
def RegField.write (f : RegField) (locked : Bool) (old v : Nat) : Nat :=
  let o := bits old f.lo f.width
  let w := bits v f.lo f.width
  match f.acc with
  | .rw => setBits old f.lo f.width w
  | .wl => if locked then old else setBits old f.lo f.width w
  | .w1c => setBits old f.lo f.width (o - (o &&& w))
  | .w1s => setBits old f.lo f.width (o ||| w)
  | .ro | .wo | .rc => old

/-- A write by access codes alone; an offset no table lists ignores it (R12, R488). -/
def State.plainWrite (s : State) (k : Nat) (v : Word) : State :=
  match findReg (k / 0x10000) (k % 0x10000) with
  | none => s
  | some r =>
    s.setReg k (BitVec.ofNat 32
      (r.fields.foldl (fun a f => f.write (s.locked (k / 0x10000)) a v.toNat) (s.reg k).toNat))

/-- The stored bits of a register that a read returns: write-only fields read 0 (R12). -/
def readMask (k : Nat) : Nat :=
  match findReg (k / 0x10000) (k % 0x10000) with
  | none => 0
  | some r => r.fields.foldl (fun a f => match f.acc with
      | .wo => a
      | _ => a + (2 ^ f.width - 1) * 2 ^ f.lo) 0

/-- The bits of the fields that a read clears (R12). -/
def rcMask (k : Nat) : Nat :=
  match findReg (k / 0x10000) (k % 0x10000) with
  | none => 0
  | some r => r.fields.foldl (fun a f => match f.acc with
      | .rc => a + (2 ^ f.width - 1) * 2 ^ f.lo
      | _ => a) 0

/-- Of those, the bits marked *snapshot* (R42). -/
def snapRcMask (k : Nat) : Nat :=
  match findReg (k / 0x10000) (k % 0x10000) with
  | none => 0
  | some r => r.fields.foldl (fun a f => match f.acc with
      | .rc => if f.snap then a + (2 ^ f.width - 1) * 2 ^ f.lo else a
      | _ => a) 0

/-- A value lies in a range. -/
def inRange (lo hi n : Nat) : Bool := decide (lo ≤ n) && decide (n ≤ hi)

end Sys2Proof.Machine
end

