-- ==== Sys2Proof/Machine/Axes.lean ====
section
/-!
DEFINITION. The stepper axes (R352 to R366): drive law, resolution, profiles, stops, homing, commands and registers.
-/
namespace Sys2Proof.Machine

/-- Axis `n`. -/
def State.axis (s : State) (n : Nat) : Axis := vget s.axes n

/-- One microstep in units of `pFrac`. -/
def microUnit : Int := 100000000

/-- A speed in full steps/s in the unit of `vMilli`. -/
def fullSpeed (n : Nat) : Int := (n * 256000 : Nat)

/-- Change of `vMilli` in 10 µs at an acceleration in 100 full steps/s²; 0 acts as 1 (R363). -/
def accStep (acc : Nat) : Int := (max 1 acc * 256 : Nat)

/-- The position p in microsteps. -/
def Axis.pos (x : Axis) : Int := divRound x.pFrac microUnit

/-- Its velocity in microsteps/s. -/
def Axis.vel (x : Axis) : Int := divRound x.vMilli 1000

/-- STATE codes (R352). -/
def AxState.code : AxState → Nat
  | .off => 0 | .hold => 1 | .moving => 2 | .stopping => 3 | .homing => 4 | .fault => 5

/-- States 2 to 4. -/
def AxState.busy : AxState → Bool
  | .moving | .stopping | .homing => true
  | _ => false

/-- States in which the outputs are driven. -/
def AxState.drives : AxState → Bool
  | .off | .fault => false
  | _ => true

/-- P of the last segment. -/
def Axis.lastP (x : Axis) : Int :=
  match x.table with
  | some l => (l.getLast?.map (fun e => e.2.1)).getD 0
  | none => 0

/-- Final position of the motion in progress: of the table, or of a RESUME. -/
def Axis.final (x : Axis) : Int :=
  match x.resume with
  | some t => t
  | none => x.p0 + x.lastP

/-! ### Resolution and drive (R353 to R355) -/

/-- TH[j], j from 1 to 8. -/
def State.axTh (s : State) (n j : Nat) : Nat :=
  bits (s.reg (R.STP_MSTH0 n + 4 * ((j - 1) / 2))).toNat (16 * ((j - 1) % 2)) 16

/-- The exponent k after the rules of R355 at speed |v|. -/
def State.axK (s : State) (n : Nat) (v : Nat) : Nat → Nat → Nat
  | 0, k => k
  | fuel + 1, k =>
    if k < 8 ∧ s.axTh n (k + 1) * 256000 ≤ v then s.axK n v fuel (k + 1)
    else if 0 < k ∧ v * 256 < s.axTh n k * (256 - s.fld (F.STP_MSCFG_HYST n)) * 256000 then s.axK n v fuel (k - 1)
    else k

/-- I of R353 in mA. -/
def State.axCurrent (s : State) (n : Nat) (x : Axis) : Nat :=
  if x.state = .homing ∧ s.fld (F.STP_HOME_HMODE n) = 2 then s.fld (F.STP_HOME_IHOME n)
  else if x.state.busy || decide (0 < x.holdTicks) then s.fld (F.STP_DRIVE_IRUN n)
  else s.fld (F.STP_DRIVE_IHOLD n)

/-- VBUS of the axis; 0 acts as 1. -/
def State.axBus (s : State) (n : Nat) : Nat :=
  max 1 (if s.fld (F.STP_CFG_BUSSEL n) = 0 then s.fld F.STP_VBUS0_VBUS else s.fld F.STP_VBUS1_VBUS)

/-- φ of R353 in microsteps. -/
def State.axPhi (s : State) (n : Nat) (v : Int) : Int :=
  let m : Int := (min 256 (s.fld (F.STP_FF_KL n) * v.natAbs / (256000 * 65536)) : Nat)
  if v < 0 then -m else if v = 0 then 0 else m

/-- The quantised angle θq (R355); DIRINV reverses the sign of p (R354). -/
def quantAngle (p : Int) (k : Nat) : Nat := 2 ^ k * ((p % 1024).toNat / 2 ^ k) + 2 ^ k / 2

/-- The winding voltages set from position and velocity (R353): a rise of VSAT sets FS332. -/
def State.axDrive (s : State) (n : Nat) : State :=
  let x := s.axis n
  if x.state.drives = false then
    (s.modAxis n (fun y => { y with driven := false, ampU := 0 })).clrFlag (F.STP_STATUS_VSAT n)
  else
    let u := (s.axCurrent n x * s.fld (F.STP_CFG_RCOIL n) * 256000 + s.fld (F.STP_FF_KE n) * x.vMilli.natAbs) / 256000000
    let p := if s.flag (F.STP_CFG_DIRINV n) then -x.pos else x.pos
    let a := ((quantAngle p x.k : Int) + s.axPhi n x.vMilli) % 1024
    let sat := decide (s.axBus n < u)
    ((s.raiseIf (sat && !s.flag (F.STP_STATUS_VSAT n)) 332).putFlag (F.STP_STATUS_VSAT n) sat).modAxis n (fun y => { y with
      ampU := u, ampBus := s.axBus n, angle := a.toNat, driven := true })

/-- cos and sin of 2π / 1,024, times 2^96. -/
def cosStep : Int := 79226671066494975824533590135
def sinStep : Int := 486134866151990591466405862

/-- cos and sin of 2πa / 1,024, times 2^96, by `a` rotations. -/
def cosSin : Nat → Int × Int
  | 0 => (2 ^ 96, 0)
  | a + 1 =>
    let c := cosSin a
    ((c.1 * cosStep - c.2 * sinStep) / 2 ^ 96, (c.2 * cosStep + c.1 * sinStep) / 2 ^ 96)

/-- sin of 2πa / 1,024, times 2^96, by quadrants. -/
def sin1024 (a : Nat) : Int :=
  let x := a % 256
  if a % 1024 / 256 = 0 then (cosSin x).2 else if a % 1024 / 256 = 1 then (cosSin x).1
  else if a % 1024 / 256 = 2 then -(cosSin x).2 else -(cosSin x).1

/-- The duties of windings A and B, times 2^96: D × sin and D × cos with D = min(1, U / VBUS) (R353). -/
def Axis.duties (x : Axis) : Int × Int :=
  let d : Int := min x.ampU x.ampBus
  let b : Int := max 1 x.ampBus
  (d * sin1024 x.angle / b, d * sin1024 (x.angle + 256) / b)

/-- Outputs A1, A2, B1, B2 of an axis at this press time (R354, R365): a positive duty modulates the first output of its
winding at STP_PWM_KHZ, a negative one the second; all low when not driven or without the token. -/
def State.stpPins (s : State) (n : Nat) : List Bool :=
  let x := s.axis n
  let part := s.now * s.fld F.STP_PWM_STP_PWM_KHZ % 1000000
  let on (d : Int) : Bool := x.driven && s.holdsToken && decide ((part * 2 ^ 96 : Int) < d * 1000000)
  [on x.duties.1, on (-x.duties.1), on x.duties.2, on (-x.duties.2)]

/-! ### Profiles (R358) -/

/-- The segment that holds time `t` µs: its start knot, its entry and the time into it. None past the end. -/
def segmentAt (l : List (Nat × Int × Int)) (t : Nat) (p0 v0 : Int) : Option (Nat × Nat × Int × Int × Int × Int) :=
  match l with
  | [] => none
  | (tt, p, v) :: r => if t < tt then some (t, tt, p0, v0, p, v) else segmentAt r (t - tt) p v

/-- Position relative to the move's start, in microsteps, halves away from it (R358). -/
def hermiteP (t tt : Nat) (p0 v0 p1 v1 : Int) : Int :=
  let a : Int := t
  let b : Int := tt
  divRound (1000000 * ((2 * a ^ 3 - 3 * a ^ 2 * b + b ^ 3) * p0 + (3 * a ^ 2 * b - 2 * a ^ 3) * p1)
    + b * ((a ^ 3 - 2 * a ^ 2 * b + a * b ^ 2) * v0 + (a ^ 3 - a ^ 2 * b) * v1)) (1000000 * b ^ 3)

/-- Velocity at that time, in 1/1,000 microstep/s. -/
def hermiteV (t tt : Nat) (p0 v0 p1 v1 : Int) : Int :=
  let a : Int := t
  let b : Int := tt
  divRound (1000 * (1000000 * (6 * a ^ 2 - 6 * a * b) * (p0 - p1)
    + b * ((3 * a ^ 2 - 4 * a * b + b ^ 2) * v0 + (3 * a ^ 2 - 2 * a * b) * v1))) (b ^ 3)

/-! ### Ends of motion -/

/-- HOLD_MS in steps of 10 µs. -/
def State.axHoldTicks (s : State) (n : Nat) : Nat := s.fld (F.STP_CFG_HOLD_MS n) * 100

/-- The axis comes to rest in HOLD, or with its outputs low after a drydown's stop (R359); `bits` are its event. -/
def State.axRest (s : State) (n : Nat) (rem : Int) (bits : Nat) : State :=
  (s.modAxis n (fun x => { x with
    state := if x.drydown then .off else .hold, vMilli := 0, rem := rem, halt := false, drydown := false
    holdTicks := s.axHoldTicks n })).notify 0x07 n bits

/-- A stop in the DROP manner (R359). -/
def State.axDrop (s : State) (n : Nat) (bits : Nat) : State :=
  let fast := decide (fullSpeed (s.fld (F.STP_STOP_SPEED n)) < ((s.axis n).vMilli.natAbs : Int))
  let s1 := if fast then (s.setFlag (F.STP_STATUS_POS_UNSURE n)).raise 330 else s
  s1.axRest n 0 bits

/-- Homing ends without a zero point: HOME_FAIL, and FS329 for a travel failure (R362). -/
def State.homeFail (s : State) (n : Nat) : State :=
  ((s.setFlag (F.STP_STATUS_HOME_FAIL n)).raise 329).axRest n 0 4

/-- Homing succeeds (R362). -/
def State.homeOk (s : State) (n : Nat) : State :=
  ((s.setFlag (F.STP_STATUS_HOME_OK n)).clrFlag (F.STP_STATUS_POS_UNSURE n)).axRest n 0 4

/-- FAULT by a stall in MOVING or RESUME (R361). -/
def State.axStall (s : State) (n : Nat) : State :=
  let s1 := ((s.setFlag (F.STP_STATUS_STALL n)).setFlag (F.STP_STATUS_POS_UNSURE n)).raise 328
  (s1.modAxis n (fun x => { x with state := .fault, vMilli := 0, halt := false, drydown := false, blocked := true })).notify
    0x07 n 8

/-- A stop (R359): DROP takes effect in the next 10 µs step, KEEP decelerates; homing always ends in the DROP manner;
OFF, HOLD and FAULT see nothing. -/
def State.axStop (s : State) (n : Nat) (dry : Bool) : State :=
  let x := s.axis n
  match x.state with
  | .moving =>
    if s.flag (F.STP_CFG_STOPMODE n) then s.modAxis n (fun y => { y with state := .stopping, drydown := y.drydown || dry })
    else s.modAxis n (fun y => { y with halt := true, drydown := y.drydown || dry })
  | .homing => s.modAxis n (fun y => { y with halt := true, drydown := y.drydown || dry })
  | .stopping => s.modAxis n (fun y => { y with drydown := y.drydown || dry })
  | .hold => if dry then s.modAxis n (fun y => { y with state := .off }) else s
  | _ => s

/-- The base reaction "safe-stop motors", or a drydown, stops an axis; commands of the same step are ignored (R360). -/
def State.axSafeStop (s : State) (n : Nat) (dry : Bool) : State :=
  (s.axStop n dry).modAxis n (fun x => { x with blocked := true })

/-! ### One step of 10 µs -/

/-- `v` moved toward `target` by at most `dv`. -/
def slewTo (v target dv : Int) : Int :=
  if v < target then min target (v + dv) else max target (v - dv)

/-- Speed of a trapezoid with `d` to go: decelerate once the stopping distance reaches `d`. -/
def trapSpeed (v d dv vmax : Int) : Int := if 2 * dv * d ≤ v * v then max dv (v - dv) else min vmax (v + dv)

/-- One step of a trapezoid toward `target`: the axis after it and whether it has arrived. -/
def Axis.trapStep (x : Axis) (target dv vmax : Int) : Axis × Bool :=
  let d := target * microUnit - x.pFrac
  let v := trapSpeed (x.vMilli.natAbs : Int) (d.natAbs : Int) dv (max 1 vmax)
  if (d.natAbs : Int) ≤ v then ({ x with pFrac := target * microUnit, vMilli := 0 }, true)
  else
    let w := if d < 0 then -v else v
    ({ x with pFrac := x.pFrac + w, vMilli := w }, false)

/-- MOVING for 10 µs (R358), or RESUME (R359). -/
def State.axMove (s : State) (n : Nat) : State :=
  let x := s.axis n
  match x.resume with
  | some target =>
    match x.trapStep target (accStep (s.fld (F.STP_RES_ACC n))) (fullSpeed (s.fld (F.STP_RES_SPEED n))) with
    | (y, true) => (s.modAxis n (fun _ => y)).axRest n 0 1
    | (y, false) => s.modAxis n (fun _ => { y with rem := target - y.pos })
  | none =>
    match segmentAt (x.table.getD []) (x.tMove + 10) 0 0 with
    | none => (s.modAxis n (fun y => { y with pFrac := y.final * microUnit })).axRest n 0 1
    | some (t, tt, p0, v0, p1, v1) =>
      s.modAxis n (fun y => { y with
        tMove := y.tMove + 10
        pFrac := (y.p0 + hermiteP t tt p0 v0 p1 v1) * microUnit
        vMilli := hermiteV t tt p0 v0 p1 v1
        rem := y.final - (y.p0 + hermiteP t tt p0 v0 p1 v1) })

/-- STOPPING for 10 µs (R359): linear deceleration at DEC; at standstill REM is what is left. -/
def State.axSlow (s : State) (n : Nat) : State :=
  let x := s.axis n
  let v := slewTo x.vMilli 0 (accStep (s.fld (F.STP_STOP_ACC n)))
  let s1 := s.modAxis n (fun y => { y with pFrac := y.pFrac + v, vMilli := v })
  let y := s1.axis n
  if v = 0 then s1.axRest n (y.final - y.pos) 2
  else s1.modAxis n (fun z => { z with rem := z.final - z.pos })

/-- Zero point reached: p becomes HOFF (R362). -/
def State.axZero (s : State) (n : Nat) : State :=
  s.modAxis n (fun x => { x with pFrac := sx 32 (s.fld (F.STP_HOFF_VALUE n)) * microUnit, vMilli := 0 })

/-- HOMING for 10 µs (R362), with the switch, the index edge and a qualified stall as sampled. -/
def State.axHome (s : State) (n : Nat) (home edge stall : Bool) : State :=
  let x := s.axis n
  let mode := s.fld (F.STP_HOME_HMODE n)
  let dir : Int := if s.flag (F.STP_HOME_HDIR n) then 1 else -1
  let dv := accStep (s.fld (F.STP_RES_ACC n))
  let vm := fullSpeed (s.fld (F.STP_HOME_HVEL n))
  let go (target : Int) (f : Axis → Axis) : State :=
    s.modAxis n (fun y =>
      let v := slewTo y.vMilli target dv
      f { y with pFrac := y.pFrac + v, vMilli := v, travel := y.travel + v.natAbs })
  if x.phase = .away then
    match x.trapStep (sx 32 (s.fld (F.STP_HOFF_VALUE n)) - dir * (s.fld (F.STP_HBACK_HBACK n) : Nat)) dv vm with
    | (y, true) => (s.modAxis n (fun _ => y)).homeOk n
    | (y, false) => s.modAxis n (fun _ => y)
  else if stall && mode == 2 then (s.axZero n).modAxis n (fun y => { y with phase := .away })
  else if stall then s.homeFail n
  else if s.fld (F.STP_HDIST_VALUE n) * 100000000 < x.travel then s.homeFail n
  else match x.phase with
    | .seek => if mode != 2 && home then go 0 (fun y => { y with phase := .slow }) else go (dir * vm) id
    | .slow => if x.vMilli = 0 then go (-dir * vm / 8) (fun y => { y with phase := .back }) else go 0 id
    | .back =>
      if home then go (-dir * vm / 8) id
      else if mode = 0 then (s.axZero n).homeOk n
      else go (-dir * vm / 8) (fun y => { y with phase := .toIndex })
    | .toIndex => if edge then (s.axZero n).homeOk n else go (-dir * vm / 8) id
    | .away => s

/-- One axis for 10 µs (R353 to R362). -/
def State.axisStep (s : State) (n : Nat) (home index stall : Bool) : State :=
  let x := s.axis n
  let edge := index && !x.idxWas
  let s1 := s.modAxis n (fun y => { y with
    idxWas := index, stallRun := if stall then y.stallRun + 1 else 0, blocked := false
    holdTicks := if y.state.busy then y.holdTicks else y.holdTicks - 1 })
  let qual := decide (max 1 (s.fld (F.STP_HBACK_STALL_FILT n)) ≤ (s1.axis n).stallRun)
  let s2 :=
    match x.state with
    | .moving => if qual then s1.axStall n else if x.halt then s1.axDrop n 2 else s1.axMove n
    | .stopping => if qual then (s1.axDrop n 2).modAxis n (fun y => { y with blocked := true }) else s1.axSlow n
    | .homing =>
      if x.halt then (s1.setFlag (F.STP_STATUS_HOME_FAIL n)).axDrop n 6 else s1.axHome n home edge qual
    | _ => s1
  let y := s2.axis n
  let crossed := decide (x.pos / 256 ≠ y.pos / 256)
  let s3 := s2.modAxis n (fun z => { z with
    k := if crossed then z.kNext else z.k, kNext := s2.axK n z.vMilli.natAbs 8 z.kNext })
  s3.axDrive n

/-- AXIS_TICK: every axis for 10 µs; the operands say which inputs are active (R361). -/
def effAxisTick (home index stall : BitVec 16) (s : State) : State :=
  s.each (List.range 16) (fun t n => t.axisStep n (home.getLsbD n) (index.getLsbD n) (stall.getLsbD n))

/-! ### Commands (R357 to R362) -/

/-- CMD_REJ. -/
def State.axReject (s : State) (n : Nat) : State := s.setFlag (F.STP_STATUS_CMD_REJ n)

/-- A refused load (R357). -/
def State.loadRefused (s : State) (n lerr idx : Nat) : State :=
  ((((s.setFlag (F.STP_STATUS_LOAD_ERR n)).setFld (F.STP_STATUS_LERR n) lerr).setFld (F.STP_STATUS_ERRIDX n) idx).raise
    331).modAxis n (fun x => { x with table := none })

/-- An entry's LERR, 0 if it is good (R357); the lowest reason that applies. -/
def entryErr (l : List Byte) (last : Bool) : Nat :=
  let v := sx 32 (entLe l 8 4)
  if entLe l 0 3 = 0 then 1
  else if v < -8388607 ∨ 8388607 < v then 2
  else if last ∧ v ≠ 0 then 3
  else if entLe l 3 1 ≠ 0 ∨ entLe l 12 4 ≠ 0 then 4
  else 0

/-- The table read and checked entry by entry (R356, R357): the table, or LERR and ERRIDX. -/
def State.loadTable (s : State) (addr count : Nat) : Nat → List (Nat × Int × Int) →
    State × Except (Nat × Nat) (List (Nat × Int × Int))
  | 0, acc => (s, .ok acc.reverse)
  | left + 1, acc =>
    let i := count - (left + 1)
    match s.memRead reqDma (addr + 16 * i) 16 with
    | (t, .data l) =>
      let e := entryErr l (left == 0)
      if e ≠ 0 then (t, .error (e, i))
      else t.loadTable addr count left ((entLe l 0 3, sx 32 (entLe l 4 4), sx 32 (entLe l 8 4)) :: acc)
    | (t, _) => (t, .error (6, i))

/-- LOAD (R357). -/
def State.axLoad (s : State) (n : Nat) : State :=
  let c := s.fld (F.STP_TBLN_TBLN n)
  if (s.axis n).state.busy then s.axReject n
  else if c = 0 ∨ 256 < c then s.loadRefused n 5 0
  else match s.loadTable (s.addr40 (R.STP_TBL_LO n) (R.STP_TBL_HI n) / 16 * 16) c c [] with
    | (t, .ok l) => (t.modAxis n (fun x => { x with table := some l })).setFlag (F.STP_STATUS_LOAD_OK n)
    | (t, .error e) => t.loadRefused n e.1 e.2

/-- MOVE (R358). -/
def State.axMoveCmd (s : State) (n : Nat) : State :=
  if (s.axis n).state = .hold ∧ (s.axis n).table.isSome = true then
    s.modAxis n (fun x => { x with state := .moving, p0 := x.pos, tMove := 0, resume := none, rem := x.lastP, halt := false })
  else s.axReject n

/-- RESUME (R359). -/
def State.axResume (s : State) (n : Nat) : State :=
  if (s.axis n).state = .hold ∧ (s.axis n).rem ≠ 0 then
    s.modAxis n (fun x => { x with state := .moving, resume := some (x.pos + x.rem), halt := false })
  else s.axReject n

/-- HOME (R362). -/
def State.axHomeCmd (s : State) (n : Nat) : State :=
  if (s.axis n).state = .hold then
    s.modAxis n (fun x => { x with state := .homing, phase := .seek, travel := 0, halt := false })
  else s.axReject n

/-- A change between two standing states, else CMD_REJ (R360). -/
def State.axGo (s : State) (n : Nat) (a b : AxState) : State :=
  if (s.axis n).state = a then s.modAxis n (fun x => { x with state := b }) else s.axReject n

/-- A write to STPn_CMD (R352, R360, R363): one bit only; only while the object is open. -/
def effStpCmd (n : Nat) (v : Word) (s : State) : State :=
  let c := (F.STP_CMD_CMD n).of v
  let x := s.axis n
  if c = 0 then s
  else if 1 < popc 8 c ∨ s.isOpen 0x07 n = false then s.axReject n
  else if x.blocked then s
  else match lowestBit 8 c with
    | some 0 => s.axLoad n
    | some 1 => s.axMoveCmd n
    | some 2 => if x.state = .fault then s.axReject n else s.axStop n false
    | some 3 => s.axResume n
    | some 4 => s.axHomeCmd n
    | some 5 => s.axGo n .off .hold
    | some 6 => s.axGo n .hold .off
    | some 7 => s.axGo n .fault .off
    | _ => s

/-! ### Register writes (R363, R364) -/

/-- The eight thresholds after a write of `v` to MSTH`j` rise. -/
def State.thRise (s : State) (n j : Nat) (v : Word) : Bool :=
  let th (i : Nat) : Nat := if (i - 1) / 2 = j then bits v.toNat (16 * ((i - 1) % 2)) 16 else s.axTh n i
  (List.range 7).all (fun i => decide (th (i + 1) < th (i + 2)))

/-- A write to a register of axis `n`. -/
def State.stpWrite (s : State) (n r : Nat) (v : Word) : State :=
  let k := 0x610000 + 0x100 * n + r
  if r = 0x4C then effStpCmd n v s
  else if (s.axis n).state.busy ∧ (r = 0 ∨ r = 4 ∨ r = 8 ∨ (0x10 ≤ r ∧ r < 0x20) ∨ r = 0x2C) then
    s.setFlag (F.STP_STATUS_CFG_BUSY n)
  else if 0x10 ≤ r ∧ r < 0x20 ∧ s.thRise n ((r - 0x10) / 4) v = false then s.axReject n
  else if r = 0x2C ∧ (F.STP_HOME_HMODE n).of v = 3 then s.axReject n
  else s.plainWrite k v

/-- A write to a register of the STP window (R363). -/
def wrStp (off : Nat) (v : Word) (s : State) : State :=
  if off < 0x1000 then s.stpWrite (off / 0x100) (off % 0x100) v
  else if off = 0x1000 ∧ inRange 20 100 (F.STP_PWM_STP_PWM_KHZ.of v) = false then s
  else s.plainWrite (0x610000 + off) v

end Sys2Proof.Machine
end

