-- ==== Sys2Proof/Machine/Sector.lean ====
section
/-!
DEFINITION. The sector on the media (R282 to R285): information vector, LDPC code, scrambler and channel bits. A
string of bits is a number whose bit 0 comes first.
-/
namespace Sys2Proof.Machine

/-- The 16 metadata bytes of a sector (R283). -/
def sectorMeta (cblk : Nat) (nodata : Bool) (user : List Byte) : List Byte :=
  leBytes 8 (cblk % 2 ^ 48 + b2n nodata * 2 ^ 48 + 0x01 * 2 ^ 56) ++ leBytes 4 (crc32c user) ++ leBytes 4 0

/-- The information vector, 32,896 bits (R283): user bytes, then metadata, each least significant bit first. -/
def sectorInfo (cblk : Nat) (nodata : Bool) (user : List Byte) : Nat := ofLe (user ++ sectorMeta cblk nodata user)

/-- A 128-bit number times the circulant P^s of R284: row x has its 1 in column (x + s) mod 128. -/
def circ (s x : Nat) : Nat := (x / 2 ^ s + x * 2 ^ (128 - s)) % 2 ^ 128

/-- Item `i` of a list XORed with `v`. -/
def xorAt (l : List Nat) (i v : Nat) : List Nat := l.modify i (· ^^^ v)

/-- The 31 products of the block rows' information part with u (λ of R284). -/
def ldpcRows (u : Nat) : List Nat :=
  (List.range 257).foldl (fun acc j =>
    let col := bits u (128 * j) 128
    (List.range 3).foldl (fun a k => xorAt a ((j + 11 * k) % 31) (circ ((37 * k + j * (2 * k + 1)) % 128) col)) acc)
    (List.replicate 31 0)

/-- Parity by accumulation (R284): p₀ = λ₀, p_r = λ_r ⊕ p_(r−1). -/
def ldpcParity (rows : List Nat) (prev : Nat) : List Nat :=
  match rows with
  | [] => []
  | x :: r => (x ^^^ prev) :: ldpcParity r (x ^^^ prev)

/-- Numbers of 128 bits in a row, the first lowest. -/
def pack128 : List Nat → Nat
  | [] => 0
  | x :: r => x + 2 ^ 128 * pack128 r

/-- The codeword c = [u, p], 36,864 bits (R284). -/
def ldpcEncode (u : Nat) : Nat := u % 2 ^ 32896 + pack128 (ldpcParity (ldpcRows u) 0) * 2 ^ 32896

/-- The syndrome of a codeword is zero (R292). -/
def syndromeZero (c : Nat) : Bool :=
  decide (c / 2 ^ 32896 % 2 ^ 3968 = pack128 (ldpcParity (ldpcRows (c % 2 ^ 32896)) 0))

/-- One step of the scrambler x^16 + x^14 + x^13 + x^11 + 1 (R285; DEDUCED: shifted right, its lowest bit the
output). -/
def lfsrStep (r : Nat) : Nat :=
  r / 2 + (r % 2 + r / 4 % 2 + r / 8 % 2 + r / 32 % 2) % 2 * 2 ^ 15

/-- `n` output bits of the scrambler from register `r`, first bit lowest. -/
def lfsrBits : Nat → Nat → Nat
  | 0, _ => 0
  | n + 1, r => r % 2 + 2 * lfsrBits n (lfsrStep r)

/-- A codeword XORed with the scrambler seeded for its channel block (R285). -/
def scramble (cblk c : Nat) : Nat := c ^^^ lfsrBits 36864 (cblk % 65535 + 1)

/-- `n` bits of the pattern 1100 repeated (R282). -/
def pattern1100 (n : Nat) : Nat := 3 * ((2 ^ n - 1) / 15)

/-- The sync mark, most significant bit first (R282). -/
def syncMark : Nat := (List.range 48).foldl (fun a i => a + bits 0xA35CF0961DE7 (47 - i) 1 * 2 ^ i) 0

/-- The 37,104 channel bits of a sector (R282). -/
def sectorBits (cblk : Nat) (nodata : Bool) (user : List Byte) : Nat :=
  pattern1100 128 + syncMark * 2 ^ 128 + scramble cblk (ldpcEncode (sectorInfo cblk nodata user)) * 2 ^ 176
    + pattern1100 64 * 2 ^ 37040

/-- What reading a sector gives (R292): failed, or recovered with its user bytes and NODATA. -/
inductive Decoded where
  | failed
  | user (l : List Byte) (nodata : Bool)
  deriving DecidableEq, Repr

/-- The tests of R292 on the decoder's codeword for a requested block: syndrome, VER, CBLK and CRC. -/
def sectorDecode (cblk codeword : Nat) : Decoded :=
  let c := scramble cblk codeword
  if syndromeZero c = false then .failed
  else
    let bytes := leBytes 4112 (c % 2 ^ 32896)
    let user := bytes.take 4096
    let m := ofLe ((bytes.drop 4096).take 8)
    if m / 2 ^ 56 % 2 ^ 8 = 0x01 ∧ m % 2 ^ 48 = cblk % 2 ^ 48 ∧ ofLe ((bytes.drop 4104).take 4) = crc32c user then
      .user user (bit m 48)
    else .failed

end Sys2Proof.Machine
end

