-- ==== Sys2Proof/Machine/Blocks.lean ====
section
/-!
DEFINITION. Entries of a page's block list (R212, R213) and of attar block headers (R195).
-/
namespace Sys2Proof.Machine

/-- An entry of a block list (R212). -/
structure BlkEntry where
  stn : Nat
  onDisk : Bool
  ctx : Nat
  addr : Nat
  lba : Nat
  vol : Nat
  blen : Nat
  /-- Its reserved fields are 0. -/
  clean : Bool
  deriving DecidableEq, Repr

/-- The 32 bytes of an entry read as its fields (R212). -/
def BlkEntry.ofBytes (l : List Byte) : BlkEntry where
  stn := entLe l 0 4 % 4
  onDisk := bit (entLe l 0 4) 2
  ctx := entLe l 4 4
  addr := entLe l 8 8 % 2 ^ 40
  lba := entLe l 0x10 8 % 2 ^ 48
  vol := bits (entLe l 0x10 8) 48 3
  blen := entLe l 0x18 4 % 2 ^ 17
  clean := decide (entLe l 0 4 / 8 = 0) && decide (entLe l 8 8 / 2 ^ 40 = 0)
    && decide (entLe l 0x10 8 / 2 ^ 51 = 0) && decide (entLe l 0x18 4 / 2 ^ 17 = 0) && decide (entLe l 0x1C 4 = 0)

/-- Entry `k` of a page's block list, read from DRAM; none if it cannot be read. -/
def State.blkEntry (s : State) (p : Page) (k : Nat) : State × Option BlkEntry :=
  match s.memRead reqPageBlock (p.blist + 32 * k) 32 with
  | (t, .data l) => (t, some (BlkEntry.ofBytes l))
  | (t, _) => (t, none)

/-- An entry's fields as they stand in DRAM, for a test that leaves no trace in the machine. -/
def State.blkPeek (s : State) (p : Page) (k : Nat) : BlkEntry := BlkEntry.ofBytes (s.rdBytes (p.blist + 32 * k) 32)

/-- The page names station `i`'s job and the entry is well formed (R213). -/
def State.blkWellFormed (s : State) (j : Job) (b : BlkEntry) : Bool :=
  b.clean && j.names b.stn && decide (16 ≤ b.blen) && decide (b.blen ≤ 65552)
    && (b.ctx == 0 || (match s.live b.ctx 0x02 with
      | some c => (match Tab.get s.actxs c with
        | some x => x.long && !x.encode && x.linePx == 24576
        | none => false)
      | none => false))

/-- The page that a live page handle names. -/
def State.pageOf (s : State) (h : Nat) : Option (Nat × Page) :=
  match s.live h 0x0B with
  | none => none
  | some i => (Tab.get s.pages i).map (fun p => (i, p))

/-- A page in use (QUEUED, ADMITTED or PRINTING) names the context in its block list (R221). -/
def State.ctxInUse (s : State) (h : Nat) : Bool :=
  s.pages.any (fun e => (e.2.state == .queued || e.2.state == .admitted || e.2.state == .printing)
    && (List.range e.2.nblk).any (fun k => (s.blkPeek e.2 k).ctx == h))

end Sys2Proof.Machine
end

