-- ==== Sys2Proof/Machine/Storage.lean ====
section
/-!
DEFINITION. Volumes (R265, R266), storage streams and the storage queue (R267 to R277), up to what a disk channel
delivers. Operations only; the commands that use them stand in Machine/StorageCmds.lean.
-/
namespace Sys2Proof.Machine

/-! ### Volumes -/

/-- Volume `v` is loaded (R266). -/
def State.volLoaded (s : State) (v : Nat) : Bool := s.flag (F.STQ_VOL_CFG_LOADED v)

/-- The channels of a volume in ascending order (R265). -/
def State.volChans (s : State) (v : Nat) : List Nat := setBitsOf 8 (s.fld (F.STQ_VOL_CFG_DCH v))

/-- The stripe unit in blocks (R265). -/
def State.volUnit (s : State) (v : Nat) : Nat := 2 ^ s.fld (F.STQ_VOL_CFG_SU v)

/-- User-block capacity of a channel, DSKd_CAP (R287). -/
def State.chanCap (s : State) (d : Nat) : Nat :=
  (s.reg (R.DSK_CAP_LO d)).toNat + s.fld (F.DSK_CAP_HI_CAP d) * 2 ^ 32

/-- The smallest number of a list; 0 of none. -/
def listMin (l : List Nat) : Nat :=
  match l with
  | [] => 0
  | x :: r => r.foldl min x

/-- The capacity a definition gives: n × floor(C / U) × U (R265). -/
def State.volCapOf (s : State) (chans : List Nat) (u : Nat) : Nat :=
  chans.length * (listMin (chans.map s.chanCap) / u) * u

/-- The capacity of a loaded volume, as its registers hold it. -/
def State.volCap (s : State) (v : Nat) : Nat :=
  (s.reg (R.STQ_VOL_CAP_LO v)).toNat + s.fld (F.STQ_VOL_CAP_HI_CAP v) * 2 ^ 32

/-- Where volume block `b` is held: channel and channel block (R265). -/
def State.volMap (s : State) (v b : Nat) : Nat × Nat :=
  let cs := s.volChans v
  let u := s.volUnit v
  let k := b / u
  (lget cs (k % cs.length), k / cs.length * u + b % u)

/-- The volume block that channel `d` holds as channel block `c` (the inverse of R265's map). -/
def State.volBlockOf (s : State) (v d c : Nat) : Nat :=
  let cs := s.volChans v
  let u := s.volUnit v
  (c / u * cs.length + (cs.idxOf d)) * u + c % u

/-- The loaded volume that names a channel. -/
def State.volOfChan (s : State) (d : Nat) : Option Nat :=
  (List.range 8).find? (fun v => s.volLoaded v && (s.volChans v).contains d)

/-- The loaded volumes. -/
def State.loadedVols (s : State) : List Nat := (List.range 8).filter s.volLoaded

/-- A channel is taken offline (R320, R460). -/
def State.chanOffline (s : State) (d : Nat) : Bool := s.flag (F.DSK_STATUS_OFFLINE d)

/-- Service state of a channel in SYS_DCSVC: 0 ONLINE, 1 OFFLINE, 2 REBUILD (R460). -/
def State.dcsvc (s : State) (d : Nat) : Nat := bits (s.fld F.SYS_DCSVC_SVC) (2 * d) 2

/-- The volume is OFFLINE: a channel of it is taken offline (R266). -/
def State.volOffline (s : State) (v : Nat) : Bool := (s.volChans v).any s.chanOffline

/-- The volume refuses a stream's commands as OFFLINE; a FIRM stream passes channels in REBUILD (R271, R460). -/
def State.volRefuses (s : State) (v : Nat) (firm : Bool) : Bool :=
  (s.volChans v).any (fun d => s.chanOffline d && !(firm && s.dcsvc d == 2))

/-- The OFFLINE bits of the loaded volumes follow their channels. -/
def State.volRefresh (s : State) : State :=
  s.each (List.range 8) (fun t v => t.putFlag (F.STQ_VOL_CFG_OFFLINE v) (t.volLoaded v && t.volOffline v))

/-- The HDA port of a channel is inside its write temperature window (R423). -/
def State.inWindow (s : State) (d : Nat) : Bool := bit (s.fld F.THM_HDA_WIN) (d / 2)

/-- Every HDA of a volume is inside the window (R271). -/
def State.volInWindow (s : State) (v : Nat) : Bool := (s.volChans v).all s.inWindow

/-- A drydown is running: parks, withdrawal or hold-off. -/
def State.drying (s : State) : Bool :=
  match s.pwr.phase with
  | .drydown | .withdraw _ | .holdoff => true
  | _ => false

/-! ### The staging area (R277) -/

/-- Base and size in blocks of the staging area. -/
def State.wbufBase (s : State) : Nat := s.addr40 R.STQ_WBUF_LO R.STQ_WBUF_HI
def State.wbufSlots (s : State) : Nat := s.fld F.STQ_WBUF_SIZE_VALUE / 4

/-- Slots in use: staged blocks and blocks on offer. -/
def State.wbufUsed (s : State) : List Nat :=
  s.stq.staged.map (·.slot) ++ s.stq.cmds.flatMap (fun c => c.slots.map (·.2))

/-- The free slots, lowest first, at most `n` of them. -/
def State.wbufFree (s : State) (n : Nat) : List Nat :=
  let used := s.wbufUsed
  ((List.range s.wbufSlots).filter (fun k => !used.contains k)).take n

/-- Address of a staging slot. -/
def State.slotAddr (s : State) (k : Nat) : Nat := s.wbufBase + 4096 * k

/-- The newest staged copy of a volume block. -/
def State.stagedOf (s : State) (v b : Nat) : Option Staged :=
  (s.stq.staged.filter (fun e => e.vol == v && e.vblk == b)).getLast?

/-- A block joins the staging area; the active of a joined pair sends it to the partner, which then has to hold it too
(R272, R448). A loss of the same volume block is over (DESIGN CHOICE). -/
def State.stageBlock (s : State) (v b slot aseq : Nat) : State :=
  let s1 := s.modStq (fun q => { q with
    staged := q.staged ++ [⟨v, b, slot, false, aseq⟩], lostBlocks := q.lostBlocks.filter (fun e => e.2 != (v, b)) })
  if s1.isActive then
    (s1.modStq (fun q => { q with cmds := q.cmds.map (fun c =>
      if c.accepted && c.aseq == aseq then { c with unheld := c.unheld ++ [b] } else c) })).sendAcd 0x04 (v * 2 ^ 48 + b)
      (s1.rdBytes (s1.slotAddr slot) 4096)
  else s1

/-! ### Commands -/

/-- The stream's rings: role of SQ and of CQ (R267). -/
def Stream.sqRole (t : Stream) : Nat := if t.firm then 2 else 0
def Stream.cqRole (t : Stream) : Nat := if t.firm then 2 else 1

/-- The command with an acceptance number. -/
def State.stqCmd (s : State) (aseq : Nat) : Option StqCmd :=
  s.stq.cmds.find? (fun c => c.accepted && c.aseq == aseq && c.ended == none)

/-- The state with that command changed. -/
def State.modCmd (s : State) (aseq : Nat) (f : StqCmd → StqCmd) : State :=
  s.modStq (fun q => { q with cmds := q.cmds.map (fun c => if c.accepted && c.aseq == aseq then f c else c) })

/-- Command slots and range-lock entries in use (R271). -/
def State.cmdsUsed (s : State) : Nat := (s.stq.cmds.filter (·.accepted)).length
def State.locksUsed (s : State) : Nat := (s.stq.cmds.filter (·.locked)).length

/-- Commands outstanding on a stream (R267). -/
def State.streamOut (s : State) (i : Nat) : Nat := (s.stq.cmds.filter (fun c => c.stream == i)).length

/-- The completion entry of R270. -/
def cplEntry (c : StqCmd) (status bad now : Nat) : List Byte :=
  entryOf 64 [(0x00, 4, c.cid + c.stream * 2 ^ 16), (0x04, 4, status + c.opc * 2 ^ 8), (0x08, 4, c.done),
    (0x0C, 4, bad), (0x10, 4, c.sqCons), (0x18, 8, now), (0x20, 8, c.utag)]

/-- The fault source of a completion status (R270). -/
def cplFault (status : Nat) : Option Nat :=
  if status = 5 then some 225 else if status = 6 then some 224 else if status = 7 then some 227
  else if status = 10 then some 226 else none

/-- One ended command's completion entry pushed, if its CQ has room: copied to the host and notified, its lock and
slot released (R268, R271). A full or unusable CQ holds it (R106). -/
def State.pushCpl (s : State) (c : StqCmd) : State :=
  match c.ended, Tab.get s.stq.streams c.stream with
  | some (status, bad), some t =>
    match s.usableRing t.cq t.cqRole with
    | none => s
    | some (n, r) =>
      if r.count < r.size ∧ s.stalled.all (fun k => k.ring != n) = true then
        let e := cplEntry c status bad s.now
        let s1 := s.ringAppend n r e
        let s2 := if t.hcopy = 0 then s1 else s1.sendHost 0x04 0 (t.hcopy + 64 * (r.prod % r.size)) e
        let s3 := if t.notify && !t.firm then s2.sendEvt 0x0001 c.stream else s2
        let s4 := match cplFault status with | some f => s3.raise f | none => s3
        s4.modStq (fun q => { q with
          cmds := q.cmds.erase c
          streams := Tab.upd q.streams c.stream (fun k => { k with completed := (k.completed + 1) % 2 ^ 32 }) })
      else s
  | _, _ => s

/-- Every ended command's completion, in acceptance order (R268, R276). -/
def State.pushCpls (s : State) : State :=
  s.each (s.stq.cmds.filter (fun c => c.ended != none)) (fun t c => t.pushCpl c)

/-- A command ends with a status; its completion entry falls due (R268). -/
def State.endCmd (s : State) (aseq status bad : Nat) : State :=
  (s.modCmd aseq (fun c => { c with ended := some (status, bad), slots := [] })).pushCpls

/-- All ones: no first bad block. -/
def noBad : Nat := 0xFFFFFFFF

/-! ### WRITE: offers and staging (R272) -/

/-- Bytes of a command's block that have arrived. -/
def StqCmd.arrived (c : StqCmd) (blk : Nat) : Nat :=
  (c.got.map (fun r => min (r.1 + r.2) (4096 * (blk + 1)) - max r.1 (4096 * blk))).sum

/-- TR_TMO in ns; 0 acts as 1 ms (R279). -/
def State.trTmo (s : State) : Nat := max 1 (s.fld F.STQ_TR_TR_TMO) * 1000000

/-- A further offer of a WRITE when one is due and staging has room (R272): a TR packet with a 16-byte payload. -/
def State.stqOffer (s : State) (aseq : Nat) : State :=
  match s.stqCmd aseq with
  | none => s
  | some c =>
    let out := c.offered - c.done
    let trmax := s.fld F.STQ_TR_TR_MAX
    if c.opc = 1 ∧ c.local_ = false ∧ c.begun = true ∧ c.offered < c.nblk ∧ (c.offered = 0 ∨ out ≤ trmax / 2) then
      let free := s.wbufFree (min (trmax - out) (c.nblk - c.offered))
      let n := free.length
      if n = 0 then s
      else
        let first := 4096 * c.offered
        let s1 := s.modCmd aseq (fun k => { k with
          offered := k.offered + n
          slots := k.slots ++ (List.range n).map (fun i => (k.offered + i, lget free i))
          offers := k.offers ++ [⟨first, 4096 * n, 4096 * n, s.now⟩] })
        s1.sendHost 0x08 c.xtag 0
          (leBytes 4 (c.cid + c.stream * 2 ^ 16) ++ leBytes 4 0 ++ leBytes 4 first ++ leBytes 4 (4096 * n))
    else s

/-- Every block of the WRITE is staged, and in a joined pair held by the partner too (R272). -/
def State.writeStaged (s : State) (c : StqCmd) : Bool :=
  c.done == c.nblk && (!s.isActive || c.unheld.isEmpty)

/-- The WRITE completes when its blocks are staged (R272). -/
def State.checkWrite (s : State) (aseq : Nat) : State :=
  match s.stqCmd aseq with
  | some c => if c.opc = 1 ∧ c.begun = true ∧ s.writeStaged c = true then s.endCmd aseq 0 noBad else s
  | none => s

/-- Every WRITE that waits only for its blocks to be held. -/
def State.checkWrites (s : State) : State :=
  s.each (s.stq.cmds.map (·.aseq)) (fun t a => t.checkWrite a)

/-- Blocks of a command whose every byte has arrived are staged (R272). -/
def State.stageArrived (s : State) (aseq : Nat) : State :=
  match s.stqCmd aseq with
  | none => s
  | some c =>
    s.each (c.slots.filter (fun e => c.arrived e.1 == 4096)) (fun t e =>
      (t.modCmd aseq (fun k => { k with slots := k.slots.erase e, done := k.done + 1 })).stageBlock
        c.vol (c.lba + e.1) e.2 aseq)

/-- Bytes of a DATA packet written to the staging slots of their blocks. -/
def State.dataToSlots (s : State) (c : StqCmd) (off : Nat) (l : List Byte) : State :=
  s.each c.slots (fun t e =>
    let lo := max off (4096 * e.1)
    let hi := min (off + l.length) (4096 * (e.1 + 1))
    if lo < hi then (t.memWriteWords reqStorage (t.slotAddr e.2 + (lo - 4096 * e.1)) ((l.drop (lo - off)).take (hi - lo))).1
    else t)

/-- What one run of bytes takes off the missing counts of a command's offers. -/
def Offer.receive (off len : Nat) (o : Offer) : Offer :=
  { o with missing := o.missing - (min (off + len) (o.first + o.bytes) - max off o.first) }

/-- A WRITE ends with XFER: its later DATA are discarded silently (R272). -/
def State.xferEnd (s : State) (c : StqCmd) : State :=
  (s.modStq (fun q => { q with deadTags := q.deadTags ++ [c.xtag] })).endCmd c.aseq 6 noBad

/-- A DATA packet's bytes (R272). -/
def State.stqData (s : State) (xtag off : Nat) (l : List Byte) : State :=
  match s.stq.cmds.find? (fun c => c.accepted && c.opc == 1 && !c.local_ && c.ended == none && c.xtag == xtag) with
  | none => if s.stq.deadTags.contains xtag then s else s.raise 229
  | some c =>
    if l.isEmpty then s
    else if 4096 * c.offered < off + l.length
        ∨ c.got.any (fun r => decide (r.1 < off + l.length) && decide (off < r.1 + r.2)) = true then s.xferEnd c
    else
      let s1 := s.dataToSlots c off l
      let s2 := s1.modCmd c.aseq (fun k => { k with
        got := k.got ++ [(off, l.length)], offers := k.offers.map (Offer.receive off l.length) })
      ((s2.stageArrived c.aseq).stqOffer c.aseq).checkWrite c.aseq

/-- A WRITE with LOCAL stages its blocks from DRAM while staging has room (R269, R272). -/
def State.localWrite (s : State) (aseq : Nat) : State :=
  match s.stqCmd aseq with
  | none => s
  | some c =>
    s.each (((List.range c.nblk).drop c.done).zip (s.wbufFree (c.nblk - c.done))) (fun t e =>
      if t.stqCmd aseq = none then t
      else match t.memRead reqStorage (c.addr + 4096 * e.1) 4096 with
        | (u, .data l) =>
          ((u.memWriteWords reqStorage (u.slotAddr e.2) l).1.modCmd aseq (fun k => { k with done := k.done + 1 })).stageBlock
            c.vol (c.lba + e.1) e.2 aseq
        | (u, _) => u.endCmd aseq 10 e.1)

/-! ### READ (R269, R275) -/

/-- A block of data toward a READ's or IDENTIFY's destination (R269). -/
def State.toDest (s : State) (c : StqCmd) (i : Nat) (l : List Byte) : State :=
  if c.local_ then (s.memWriteWords reqStorage (c.addr + 4096 * i) l).1
  else s.sendHost 0x04 0 ((c.addr + 4096 * i) % 2 ^ 64) l

/-- Block `i` of a READ delivered; `unw` marks one that holds no data (R275). -/
def State.stqDeliver (s : State) (aseq i : Nat) (l : List Byte) (unw : Bool) : State :=
  match s.stqCmd aseq with
  | none => s
  | some c =>
    (s.toDest c i l).modCmd aseq (fun k => { k with
      done := k.done + 1, todo := k.todo.erase i, unwritten := if unw then k.unwritten ++ [i] else k.unwritten })

/-- Block `i` of a READ that no copy could give (R275). -/
def State.stqMedia (s : State) (aseq i : Nat) : State :=
  s.modCmd aseq (fun k => { k with todo := k.todo.erase i, media := k.media ++ [i] })

/-- A block of a READ served from staging (R272); an uncorrectable error gives status ECC (R277). -/
def State.serveStaged (s : State) (aseq i : Nat) (e : Staged) : State :=
  match s.memRead reqStorage (s.slotAddr e.slot) 4096 with
  | (t, .data l) => t.stqDeliver aseq i l false
  | (t, _) => t.modCmd aseq (fun k => { k with todo := k.todo.erase i, ecc := k.ecc ++ [i] })

/-- The first applicable status of a READ and its first block (R275). -/
def StqCmd.readStatus (c : StqCmd) : Nat × Nat :=
  if c.media ≠ [] then (5, listMin c.media)
  else if c.ecc ≠ [] then (10, listMin c.ecc)
  else if c.unwritten ≠ [] then (4, listMin c.unwritten)
  else (0, noBad)

/-- Ranges of two commands on one volume overlap (R273). -/
def StqCmd.overlaps (a b : StqCmd) : Bool :=
  a.vol == b.vol && decide (a.lba < b.lba + b.nblk) && decide (b.lba < a.lba + a.nblk)

/-- No command accepted before holds an overlapping range (R273). -/
def State.rangeClear (s : State) (c : StqCmd) : Bool :=
  (s.stq.cmds.takeWhile (fun k => !(k.accepted && k.aseq == c.aseq))).all (fun k => !(k.locked && k.overlaps c))

/-! ### FLUSH (R274) -/

/-- The FLUSH covers a volume. -/
def StqCmd.covers (c : StqCmd) (v : Nat) : Bool := c.all || c.vol == v

/-- Commands accepted before a FLUSH on the volumes it covers, still to complete. -/
def State.flushWaits (s : State) (c : StqCmd) : Bool :=
  (s.stq.cmds.takeWhile (fun k => !(k.accepted && k.aseq == c.aseq))).any (fun k =>
    k.accepted && k.opc != 4 && (c.covers k.vol || k.all))

/-- Acceptance order: `a` was accepted before `b`, counting modulo 2^32. -/
def aseqBefore (a b : Nat) : Bool := a != b && decide ((b + 2 ^ 32 - a) % 2 ^ 32 < 2 ^ 31)

/-- Staged blocks a FLUSH covers and waits for. -/
def State.flushLeft (s : State) (c : StqCmd) : List Staged :=
  s.stq.staged.filter (fun e => c.covers e.vol && aseqBefore e.aseq c.aseq)

/-! ### Fetching (R269, R271) -/

/-- A submission entry read as a command (R269). -/
def parseCmd (stream : Nat) (l : List Byte) : StqCmd :=
  let w0 := entLe l 0 4
  { (default : StqCmd) with
    stream := stream, opc := w0 % 256, vol := bits w0 8 3, all := bit w0 11, local_ := bit w0 12
    cid := entLe l 4 2, lba := entLe l 8 8 % 2 ^ 48, nblk := entLe l 0x10 4 % 2 ^ 17, addr := entLe l 0x18 8
    utag := entLe l 0x20 8 }

/-- Reserved fields of a submission entry that must be 0. -/
def subReserved (l : List Byte) : Bool :=
  entLe l 0 4 / 2 ^ 13 != 0 || entLe l 6 2 != 0 || entLe l 0x0E 2 != 0 || entLe l 0x10 4 / 2 ^ 17 != 0
    || entLe l 0x14 4 != 0 || entLe l 0x28 8 != 0 || entLe l 0x30 8 != 0 || entLe l 0x38 8 != 0

/-- Bytes a command moves at its destination or source. -/
def StqCmd.span (c : StqCmd) : Nat := if c.opc = 4 then 4096 else 4096 * c.nblk

/-- The entry is malformed, its OPC unknown, or LOCAL stands on a HOST stream (R270, R271). -/
def State.cmdMalformed (s : State) (t : Stream) (c : StqCmd) (l : List Byte) : Bool :=
  subReserved l || !(decide (1 ≤ c.opc) && decide (c.opc ≤ 4)) || (c.local_ && !t.firm) || decide (65536 < c.nblk)
    || (c.opc == 1 && !c.local_ && c.addr != 0)
    || (c.local_ && c.opc != 3 && (c.addr % 4096 != 0 || !s.inDram c.addr c.span))

/-- The status a checked entry completes with at once, or none if it is accepted (R271). -/
def State.cmdStatus (s : State) (t : Stream) (c : StqCmd) (l : List Byte) : Option Nat :=
  let rw := c.opc == 1 || c.opc == 2
  if s.cmdMalformed t c l then some 3
  else if (c.opc == 3 && c.all && s.loadedVols == []) || (c.opc != 4 && !(c.opc == 3 && c.all) && !s.volLoaded c.vol) then
    some 1
  else if rw && c.nblk == 0 then some 0
  else if rw && decide (s.volCap c.vol < c.lba + c.nblk) then some 2
  else if (rw || (c.opc == 3 && !c.all)) && s.volRefuses c.vol t.firm then some 8
  else if c.opc == 1 && !s.volInWindow c.vol then some 7
  else none

/-- The next stream in rotation by INDEX whose SQ holds an entry (R271). -/
def State.stqNext (s : State) : Option (Nat × Stream × Nat × Ring) :=
  let cand := s.stq.streams.filterMap (fun e =>
    match s.usableRing e.2.sq e.2.sqRole with
    | some (n, r) => if r.count = 0 then none else some (e.1, e.2, n, r)
    | none => none)
  match cand.find? (fun e => decide (s.stq.nextStream ≤ e.1)) with
  | some e => some e
  | none => cand.head?

/-- The volume table of IDENTIFY and the rest of its 4,096 bytes (R271). -/
def State.identifyData (s : State) : List Byte :=
  entryOf 4096 ([(0x000, 4, 0x4944 + 1 * 2 ^ 16 + s.devNum * 2 ^ 24), (0x004, 4, (s.reg R.SYS_PRESENCE).toNat),
      (0x008, 4, s.loadedVols.length + 4096 * 2 ^ 16)]
    ++ (List.range 8).flatMap (fun v => [
      (0x040 + 32 * v, 4, b2n (s.volLoaded v) + b2n (s.volLoaded v && s.volOffline v) * 2
        + s.fld (F.STQ_VOL_CFG_DCH v) * 2 ^ 8 + s.fld (F.STQ_VOL_CFG_SU v) * 2 ^ 16),
      (0x040 + 32 * v + 8, 8, s.volCap v)]))

/-- A checked command completed at once with a status, or accepted: it gets the next ASEQ, a command slot and, for READ
and WRITE, a range-lock entry (R271). -/
def State.stqTake (s : State) (c : StqCmd) : Option Nat → State
  | some st => (s.modStq (fun q => { q with cmds := q.cmds ++ [{ c with ended := some (st, noBad) }] })).pushCpls
  | none => s.modStq (fun q => { q with
      cmds := q.cmds ++ [{ c with
        aseq := q.nextAseq, accepted := true, locked := c.opc == 1 || c.opc == 2, xtag := q.nextXtag
        todo := if c.opc = 2 then List.range c.nblk else [] }]
      nextAseq := (q.nextAseq + 1) % 2 ^ 32
      nextXtag := if c.opc = 1 then (q.nextXtag + 1) % 2 ^ 16 else q.nextXtag
      deadTags := if c.opc = 1 then q.deadTags.filter (· != q.nextXtag) else q.deadTags })

/-- An entry of stream `i` popped, where it could be read. -/
def State.stqPopped (i : Nat) (t : Stream) (r : Ring) : State × PopRes → State
  | (s, .entry l) =>
    let c : StqCmd := { parseCmd i l with sqCons := (r.cons + 1) % 2 ^ 32 }
    s.stqTake c (s.cmdStatus t c l)
  | (s, _) => s

/-- An ABORTED completion has not been pushed yet (R276). -/
def State.aborting (s : State) : Bool :=
  s.stq.cmds.any (fun c => match c.ended with | some (st, _) => st == 9 | none => false)

/-- One submission entry fetched, checked and accepted, or completed at once (R271). No stream is served while either
pool is empty, nor before the completions of aborted commands have been pushed (R276). -/
def State.stqFetch (s : State) : State :=
  if 1024 ≤ s.cmdsUsed ∨ 256 ≤ s.locksUsed ∨ s.aborting = true then s
  else match s.stqNext with
    | none => s
    | some (i, t, n, r) =>
      State.stqPopped i t r ((s.modStq (fun q => { q with nextStream := (i + 1) % 256 })).ringPop n r)

end Sys2Proof.Machine
end

