-- ==== Sys2Proof/Machine/Disk.lean ====
section
/-!
DEFINITION. The disk channels (chapter 10): geometry, revolution slots, taking and completing requests.
-/
namespace Sys2Proof.Machine

/-! ### Geometry (R286 to R290) -/

/-- One zone as DSKd_ZONE gives it. -/
structure Zone where
  first : Nat
  spt : Nat
  tbits : Nat
  /-- The zone's cylinders end here. -/
  stop : Nat
  deriving DecidableEq, Repr

def State.zoneFirst (s : State) (d z : Nat) : Nat := bits (s.reg (R.DSK_ZONE d (4 * z))).toNat 0 20
def State.zoneSpt (s : State) (d z : Nat) : Nat := bits (s.reg (R.DSK_ZONE d (4 * z))).toNat 20 12
def State.zoneTbits (s : State) (d z : Nat) : Nat := bits (s.reg (R.DSK_ZONE d (4 * z + 1))).toNat 0 27

def State.dskHeads (s : State) (d : Nat) : Nat := s.fld (F.DSK_GEOM_HEADS d)
def State.dskZones (s : State) (d : Nat) : Nat := s.fld (F.DSK_GEOM_ZONES d)
def State.dskCyls (s : State) (d : Nat) : Nat := s.fld (F.DSK_CYLS_CYLS d)
def State.dskSpare (s : State) (d : Nat) : Nat := s.fld (F.DSK_GEOM_SPARE_CYL d)

/-- The zones of a channel in order. -/
def State.zones (s : State) (d : Nat) : List Zone :=
  (List.range (s.dskZones d)).map (fun z =>
    ⟨s.zoneFirst d z, s.zoneSpt d z, s.zoneTbits d z,
      if z + 1 < s.dskZones d then s.zoneFirst d (z + 1) else s.dskCyls d - s.dskSpare d⟩)

/-- User blocks of a zone (R287). -/
def Zone.blocks (z : Zone) (heads : Nat) : Nat := (z.stop - z.first) * heads * z.spt

/-- User-block capacity (R287). -/
def State.geomCap (s : State) (d : Nat) : Nat := ((s.zones d).map (fun z => z.blocks (s.dskHeads d))).sum

/-- A place on the media: cylinder, head, sector. -/
structure Place where
  cyl : Nat
  head : Nat
  sector : Nat
  deriving DecidableEq, Repr

/-- Home location of index `i` counted over zones (R287). -/
def homePlace (heads : Nat) : List Zone → Nat → Option Place
  | [], _ => none
  | z :: r, i =>
    if i < z.blocks heads then
      some ⟨z.first + i / z.spt / heads, i / z.spt % heads, i % z.spt⟩
    else homePlace heads r (i - z.blocks heads)

/-- Valid remap entries in index order: entry index, channel block, spare index (R290). -/
def State.remaps (s : State) (d : Nat) : List (Nat × Nat × Nat) :=
  let lo := R.DSK_REMAP d 0
  (s.regs.filter (fun e => decide (lo ≤ e.1) && decide (e.1 < lo + 8 * 4096) && decide ((e.1 - lo) % 8 = 4)
      && bit e.2.toNat 31)).map
    (fun e => ((e.1 - lo) / 8,
      (s.reg (e.1 - 4)).toNat + bits e.2.toNat 0 16 * 2 ^ 32, bits e.2.toNat 16 15))

/-- Where a channel block lies: its spare if a valid entry names it, else its home (R287, R290). -/
def State.place (s : State) (d cblk : Nat) : Option Place :=
  match (s.remaps d).find? (fun e => e.2.1 == cblk) with
  | some (_, _, sp) =>
    match (s.zones d).getLast? with
    | none => none
    | some z => some ⟨s.dskCyls d - s.dskSpare d + sp / z.spt / s.dskHeads d, sp / z.spt % s.dskHeads d, sp % z.spt⟩
  | none => homePlace (s.dskHeads d) (s.zones d) cblk

/-- Where reserved block `r` lies (R287). -/
def reservedPlace (r : Nat) : Place := ⟨r / 256, 0, r % 256⟩

/-- The CBLK a sector carries for a reserved block (R283). -/
def reservedCblk (r : Nat) : Nat := 0xFFFF * 2 ^ 32 + r

/-- The place of sector `k` of a request. -/
def State.reqPlace (s : State) (d : Nat) (q : DskReq) (k : Nat) : Option Place :=
  if q.rsv then some (reservedPlace (lget q.blks k)) else s.place d (lget q.blks k)

/-- The CBLK sector `k` of a request must carry. -/
def DskReq.cblkOf (q : DskReq) (k : Nat) : Nat := if q.rsv then reservedCblk (lget q.blks k) else lget q.blks k

/-- A track: cylinder and head. -/
def Place.track (p : Place) : Nat × Nat := (p.cyl, p.head)

/-- The track of sector `k` of a request. -/
def State.reqTrack (s : State) (d : Nat) (q : DskReq) (k : Nat) : Option (Nat × Nat) := (s.reqPlace d q k).map Place.track

/-- The zone of a cylinder; none in the reserved area. A spare cylinder belongs to the last zone (R287). -/
def State.zoneOf (s : State) (d cyl : Nat) : Option Nat :=
  ((List.range (s.dskZones d)).filter (fun z => decide (s.zoneFirst d z ≤ cyl))).getLast?

/-- Channel bits in a revolution on a cylinder (R286, R287). -/
def State.trackBits (s : State) (d cyl : Nat) : Nat :=
  match s.zoneOf d cyl with
  | some z => s.zoneTbits d z
  | none => 9499648

/-- WPC1, WPC2 and WCUR of a zone (R304, R308). -/
def State.zoneWrite (s : State) (d z : Nat) : Nat × Nat × Nat :=
  let w := (s.reg (R.DSK_ZONE d (4 * z + 2))).toNat
  (bits w 0 4, bits w 4 4, bits w 8 5)

/-- The geometry passes the checks of APPLY (R289). -/
def State.geomOk (s : State) (d : Nat) : Bool :=
  let zs := s.zones d
  decide (1 ≤ s.dskZones d) && decide (s.dskZones d ≤ 32) && decide (1 ≤ s.dskHeads d) && decide (s.dskHeads d ≤ 16)
    && decide (s.zoneFirst d 0 = 16) && (zs.zip zs.tail).all (fun e => decide (e.1.first < e.2.first))
    && decide (s.zoneFirst d (s.dskZones d - 1) + s.dskSpare d < s.dskCyls d)
    && zs.all (fun z => decide (1 ≤ z.spt) && decide (37104 * z.spt + 1024 ≤ z.tbits))

/-- RPM_MAX and RPM_MIN: every zone and the reserved area within 0.5 to 4.8 Gb/s, limited to 3,600 to 10,800
(R308). -/
def State.geomRpm (s : State) (d : Nat) : Nat × Nat :=
  let tb := 9499648 :: (s.zones d).map (·.tbits)
  let hi := tb.foldl max 1
  let lo := listMin tb
  (max 3600 (min 10800 (60 * 4800000000 / hi)), max 3600 (min 10800 ((60 * 500000000 + lo - 1) / max 1 lo)))

/-! ### Spindle slots (R331, R332) -/

/-- The reference station of a port's rate lock. -/
def State.lstn (s : State) (h : Nat) : Nat := s.fld (F.SRV_SPIN_LSTN h)

def State.anchor (s : State) (h : Nat) : Nat := s.addr40 (R.SRV_ANCHOR_LO h) (R.SRV_ANCHOR_HI h)

def State.rlock (s : State) (h : Nat) : Bool := s.flag (F.SRV_SPSTAT_RLOCK h)

/-- The slot in progress. -/
def State.slotNow (s : State) (h : Nat) : Nat := s.fld (F.SRV_SLOT_SLOT h)

/-- A distance in 1/16 line of a station as ns, rounded toward 0. -/
def State.line16Ns (s : State) (i : Nat) (d16 : Int) : Int :=
  let p := s.facetNs i
  if p.2 * s.linesPerFacet i = 0 then 0 else d16 * p.1 / ((16 * s.linesPerFacet i * p.2 : Nat) : Int)

/-- Nominal start of slot `n` relative to now, in ns (R332). -/
def State.slotStart (s : State) (h n : Nat) : Int :=
  let i := s.lstn h
  let target := 16 * ((s.anchor h + n * s.fld (F.SRV_SPIN_LPR h)) % 2 ^ 40)
  s.line16Ns i (sx 44 (target + 2 ^ 44 - s.lambda16 i s.now))

/-- The revolution period in ns: the slot length under rate lock, else from the measured speed (R310, R331). -/
def State.revNs (s : State) (h : Nat) : Nat :=
  if s.rlock h then (s.line16Ns (s.lstn h) (16 * s.fld (F.SRV_SPIN_LPR h))).toNat
  else 960000000000 / max 1 (vget s.mots (4 + h)).speed

/-- The retry reserve in ns: RES_REV × T_rev, and MIR_US in a joined pair (R297). -/
def State.retryReserve (s : State) (d : Nat) : Nat :=
  s.fld (F.DSK_RESV_RES_REV d) * s.revNs (d / 2) + (if s.joined then 1000 * s.fld (F.DSK_RESV_MIR_US d) else 0)

/-! ### Completing requests (R302, R303) -/

/-- The state with request `k` of channel `d` changed. -/
def State.modReq (s : State) (d k : Nat) (f : DskReq → DskReq) : State :=
  s.modDsk d (fun c => { c with reqs := c.reqs.modify k f })

/-- Request `k` of channel `d`. -/
def State.dreq (s : State) (d k : Nat) : Option DskReq := (vget s.dsk d).reqs[k]?

/-- The completion entry of R303. -/
def dskEntry (d : Nat) (q : DskReq) (status now : Nat) : List Byte :=
  entryOf 64 [(0x00, 8, q.tag),
    (0x08, 4, status + q.op * 2 ^ 4 + d * 2 ^ 8 + q.step * 2 ^ 16 + b2n q.fromMirror * 2 ^ 20),
    (0x0C, 4, q.good.length % 2 ^ 16 + (if q.failed ++ q.nodata = [] then 0xFFFF else listMin (q.failed ++ q.nodata)) * 2 ^ 16),
    (0x10, 4, capNat 0xFF q.revs), (0x18, 8, now)]

/-- A booking that ended with FAIL, STALE, MISSED or CONFLICT stops carrying its block: an ADMITTED page is withdrawn
with bit 0 of ADMIT_FAIL (R302). -/
def State.bookingLost (s : State) (d : Nat) (q : DskReq) : State :=
  let s1 := s.raise (232 + 4 * d)
  match s1.pageOf q.page with
  | some (i, p) => if p.state = .admitted then s1.withdrawPage i 1 else s1
  | none => s1

/-- A request completes with a status: its entry is pushed to DSKd_CQ, a lost booking acts on its page (R302, R303).
Only a STAGE that completed with OK stays, since it carries its block. -/
def State.dskComplete (s : State) (d k status : Nat) : State :=
  match s.dreq d k with
  | none => s
  | some q =>
    let s1 := s.modReq d k (fun r => { r with status := some status, todo := [], serving := [] })
    match q.origin with
    | .ring =>
      let cq := (s1.reg (R.DSK_CQ d)).toNat
      let s2 := match s1.hwPush (.disk d) false cq 2 (dskEntry d q status s1.now) with
        | (t, .unusable) => if cq = 0 then t else t.setFlag (F.DSK_STATUS_Q_ERR d)
        | (t, _) => t
      if q.op = 0 ∧ (status = 1 ∨ status = 3 ∨ status = 4 ∨ status = 6) then s2.bookingLost d q else s2
    | _ => s1

/-- Completed requests that carry nothing leave the channel. -/
def State.dropDone (s : State) (d : Nat) : State :=
  s.modDsk d (fun c => { c with reqs := c.reqs.filter (fun q =>
    q.status == none || (q.op == 0 && q.status == some 0 && q.origin == .ring)) })

/-- A STAGE booking still pending. -/
def DskReq.booked (q : DskReq) : Bool := q.op == 0 && q.status == none && q.origin == .ring

/-- Every pending request of a channel completes with a status (R320, R460). Storage-queue reads end with OFFLINE;
the partner's reads are answered MEDIA. -/
def State.dskDropAll (s : State) (d status : Nat) : State :=
  (s.each (List.range (vget s.dsk d).reqs.length) (fun t k =>
    match t.dreq d k with
    | some q =>
      if q.status = none then
        match q.origin with
        | .ring => t.dskComplete d k status
        | .stq a _ => (t.dskComplete d k status).endCmd a 8 noBad
        | .mread v b n _ => (t.dskComplete d k status).each (List.range n) (fun u i =>
            u.sendAcd 0x0A (v * 2 ^ 48 + b + i) (leBytes 4 5))
      else t
    | none => t)).dropDone d

/-- Pending STAGE bookings whose slot has not begun complete with MISSED; FS(284+h) if there were any (R333). -/
def State.missBookings (s : State) (h : Nat) : State :=
  let pend (t : State) (d : Nat) : List Nat :=
    (List.range (vget t.dsk d).reqs.length).filter (fun k =>
      match t.dreq d k with | some q => q.booked && !q.started | none => false)
  let any_ := !(pend s (2 * h)).isEmpty || !(pend s (2 * h + 1)).isEmpty
  let s1 := s.each [2 * h, 2 * h + 1] (fun t d => (t.each (pend t d) (fun u k => u.dskComplete d k 3)).dropDone d)
  s1.raiseIf any_ (284 + h)

/-! ### Popping requests (R299, R300) -/

/-- A request entry read as a request (R299). -/
def parseReq (l : List Byte) : DskReq :=
  let count := entLe l 0x18 2
  let cblk := entLe l 0x10 8 % 2 ^ 48
  { (default : DskReq) with
    op := entLe l 0 4 % 16, rsv := bit (entLe l 0 4) 4, page := entLe l 4 4, entry := entLe l 8 2
    slot := entLe l 0x0C 4, count := count, boff := entLe l 0x1C 4 % 2 ^ 17, dst := entLe l 0x20 8 % 2 ^ 40
    tag := entLe l 0x28 8, origin := .ring, blks := (List.range count).map (cblk + ·), todo := List.range count }

/-- Reserved fields of a request that must be 0. -/
def reqReserved (l : List Byte) : Bool :=
  entLe l 0 4 / 2 ^ 5 != 0 || entLe l 0x0A 2 != 0 || entLe l 0x16 2 != 0 || entLe l 0x1A 2 != 0
    || entLe l 0x1C 4 / 2 ^ 17 != 0 || entLe l 0x25 3 != 0 || entLe l 0x30 8 != 0 || entLe l 0x38 8 != 0

/-- Bytes of a STAGE's block that its sectors cover: BLEN less BOFF, at most its sectors. -/
def State.stageBytes (s : State) (q : DskReq) : Nat :=
  match s.pageOf q.page with
  | some (_, p) => min (4096 * q.count) ((s.blkPeek p q.entry).blen - q.boff)
  | none => 4096 * q.count

/-- The request is malformed (R299, R300). A PAGE of the wrong class, or an ENTRY past the page's list, is. -/
def State.reqMalformed (s : State) (q : DskReq) (l : List Byte) : Bool :=
  reqReserved l || decide (2 < q.op) || (q.rsv && q.op != 1) || (q.op != 0 && q.page != 0)
    || q.count == 0 || (q.op == 0 && decide (17 < q.count)) || (q.op == 1 && decide (1024 < q.count))
    || (q.rsv && decide (4096 < lget q.blks 0 + q.count))
    || (q.op == 0 && q.boff % 4096 != 0)
    || (q.op != 2 && (q.dst % 64 != 0 || !s.inDram q.dst (if q.op = 0 then s.stageBytes q else 4096 * q.count)))
    || (q.op == 0 && (match s.checkHandle q.page (· == 0x0B) with
        | .ok i => (match Tab.get s.pages i with | some p => decide (p.nblk ≤ q.entry) | none => true)
        | .error .stale => false
        | .error _ => true))

/-- All sectors of a request lie on one track. -/
def State.oneTrack (s : State) (d : Nat) (q : DskReq) : Bool :=
  (List.range q.count).all (fun k => s.reqTrack d q k == s.reqTrack d q 0)

/-- The status a popped request completes with at once, or none (R300). -/
def State.reqStatus (s : State) (d : Nat) (q : DskReq) (l : List Byte) : Option Nat :=
  if s.reqMalformed q l then some 5
  else if s.chanOffline d then some 7
  else if !q.rsv && (!s.flag (F.DSK_STATUS_READY d) || decide (s.chanCap d < lget q.blks 0 + q.count)) then some 8
  else if q.op = 0 ∧ (s.rlock (d / 2) = false ∨ s.slotStart (d / 2) q.slot < 20000) then some 3
  else if q.op = 0 ∧ (s.oneTrack d q = false ∨ (vget s.dsk d).reqs.any (fun r =>
      r.booked && !r.started && r.slot == q.slot && s.reqTrack d r 0 != s.reqTrack d q 0) = true) then some 4
  else none

/-- Requests pending on a channel. -/
def State.dskPending (s : State) (d : Nat) : Nat :=
  ((vget s.dsk d).reqs.filter (fun q => q.status == none)).length

/-- Of them, those that came from DSKd_SQ, which its room for 1,024 holds (R299). -/
def State.dskHeld (s : State) (d : Nat) : Nat :=
  ((vget s.dsk d).reqs.filter (fun q => q.status == none && q.origin == .ring)).length

/-- A popped entry checked and held, or completed at once (R300). -/
def State.dskTake (d : Nat) : State × PopRes → State
  | (t, .entry l) =>
    let q := parseReq l
    let t1 := t.modDsk d (fun c => { c with reqs := c.reqs ++ [q] })
    match t.reqStatus d q l with
    | some st => (t1.dskComplete d (vget t.dsk d).reqs.length st).dropDone d
    | none => t1
  | (t, _) => t.setFlag (F.DSK_STATUS_Q_ERR d)

/-- The next request of DSKd_SQ popped, if its OP is of the kind asked for (R299, R300). -/
def State.dskPop (s : State) (d : Nat) (fits : Nat → Bool) : State :=
  let sq := (s.reg (R.DSK_SQ d)).toNat
  if s.hasDch d = false ∨ s.flag (F.DSK_CTRL_EN d) = false ∨ sq = 0 ∨ 1024 ≤ s.dskHeld d ∨ s.drying = true then s
  else match s.usableRing sq 2 with
    | none => s.setFlag (F.DSK_STATUS_Q_ERR d)
    | some (n, r) =>
      if r.count = 0 ∨ fits (s.rdLe (r.entryAddr r.cons) 4 % 16) = false then s
      else State.dskTake d (s.ringPop n r)

end Sys2Proof.Machine
end

