-- ==== Sys2Proof/Machine/Gate.lean ====
section
/-!
DEFINITION. The track under the heads of a disk channel: where its sectors pass in time, which written sectors have
become whole, the write guard that cuts them, and the servo target (R286, R294, R304, R305, R316, R317).
-/
namespace Sys2Proof.Machine

/-! ### Time on the track -/

def State.settled (s : State) (d : Nat) : Bool := s.flag (F.SRV_ASTAT_SETTLED (d / 2) (d % 2))

/-- The bit clock of a channel is locked. -/
def State.dskLock (s : State) (d : Nat) : Bool := s.flag (F.CLK_STATUS_LOCK (7 + d))

/-- The event group of an actuator raised with a bit. -/
def State.srvEvent (s : State) (d b : Nat) : State := s.raiseEv (s.reg (R.SRV_EVG (d / 2) (d % 2))).toNat (2 ^ b)

/-- Length of a pass's revolution in ns: measured once its second index has come. -/
def State.passRev (s : State) (d : Nat) (p : DskPass) : Nat :=
  match p.startAt, p.stopAt with
  | some a, some b => b - a
  | _, _ => s.revNs (d / 2)

/-- Press time at which bit `x` after the index of a pass is under the head (R286); none before its index. -/
def State.bitTime (s : State) (d : Nat) (p : DskPass) (x : Nat) : Option Nat :=
  p.startAt.map (fun a => a + x * s.passRev d p / max 1 (s.trackBits d p.cyl))

/-- Press times at which sector `k` of a pass begins and ends (R286). -/
def State.sectorTimes (s : State) (d : Nat) (p : DskPass) (k : Nat) : Option (Nat × Nat) :=
  match s.bitTime d p (37104 * k), s.bitTime d p (37104 * (k + 1)) with
  | some a, some b => some (a, b)
  | _, _ => none

/-- The conditions of a channel as they are now. -/
def State.markNow (s : State) (d : Nat) : DskMark :=
  ⟨s.now, s.settled d, s.dskLock d, !s.flag (F.SRV_ASTAT_GUARD (d / 2) (d % 2))⟩

/-- The newest conditions put before the others, if they differ from the last ones. -/
def addMark (m : DskMark) : List DskMark → List DskMark
  | x :: r => if x.settled = m.settled ∧ x.lock = m.lock ∧ x.gate = m.gate then x :: r else m :: x :: r
  | [] => [m]

/-- The conditions of a channel are noted where they have changed; without a pass only the last ones are kept. -/
def State.noteDisk (s : State) (d : Nat) : State :=
  s.modDsk d (fun c => { c with marks := if c.pass = none then [s.markNow d] else addMark (s.markNow d) c.marks })

/-- The mark in force at a press time. -/
def markAt (l : List DskMark) (t : Nat) : Option DskMark := l.find? (fun m => decide (m.at_ ≤ t))

/-- A condition held at `a` and until `b`. -/
def heldOver (l : List DskMark) (f : DskMark → Bool) (a b : Nat) : Bool :=
  (markAt l a).any f && l.all (fun m => f m || decide (m.at_ ≤ a) || decide (b ≤ m.at_))

/-- A read sector may begin, and a written one (R294, R316, R317). -/
def DskMark.readable (m : DskMark) : Bool := m.settled && m.lock
def DskMark.writable (m : DskMark) : Bool := m.settled && m.lock && m.gate

/-- Sectors of the track that the pass in progress reads. -/
def State.readsNow (s : State) (d : Nat) : List Nat :=
  (vget s.dsk d).reqs.flatMap (fun q => if q.op = 2 then [] else q.serving.filterMap (fun k => (s.reqPlace d q k).map (·.sector)))

/-- A sector that began under condition `f` is under the head now. -/
def State.inSector (s : State) (d : Nat) (f : DskMark → Bool) (k : Nat) : Bool :=
  match (vget s.dsk d).pass with
  | none => false
  | some p => match s.sectorTimes d p k with
    | none => false
    | some (a, b) => decide (a ≤ s.now) && decide (s.now < b) && (markAt (vget s.dsk d).marks a).any f

/-- A sector is being read or written (R294). -/
def State.sectorBusy (s : State) (d : Nat) : Bool :=
  (s.readsNow d).any (s.inSector d DskMark.readable)
    || (vget s.dsk d).writing.any (fun w => s.inSector d DskMark.writable w.sector)

/-! ### Sectors written (R282, R304, R305, R307) -/

/-- In how many 1/64 of a bit the transition at bit `i` of a recorded sector is advanced (R304); none where there is no
transition. -/
def Recorded.advance (r : Recorded) (i : Nat) : Option Nat :=
  let tr (j : Nat) : Bool := decide (0 < j) && bit r.bits j != bit r.bits (j - 1)
  if tr i = false then none
  else if tr (i - 1) = false then some 0
  else if tr (i - 2) then some r.wpc2 else some r.wpc1

/-- One whole sector recorded under the settings of its zone: WRCNT counts it (R282, R304, R308). -/
def State.writeSector (s : State) (d sector cyl cblk : Nat) (nodata : Bool) (l : List Byte) : State :=
  let w := match s.zoneOf d cyl with | some z => s.zoneWrite d z | none => (0, 0, (vget s.dsk d).wcur)
  s.modDsk d (fun c => { c with
    wrote := c.wrote ++ [⟨cblk, 37104 * sector, sectorBits cblk nodata l, w.1, w.2.1, w.2.2⟩]
    wrcnt := (c.wrcnt + 1) % 2 ^ 32 })

/-- TORN_FULL and ENTRIES follow the write-intent list; FS(235+4d) when TORN_FULL becomes 1 (R305, R309). -/
def State.tornRefresh (s : State) (d : Nat) : State :=
  let n := (vget s.dsk d).intents.length
  let full := decide (32 ≤ n)
  ((s.setFld (F.DSK_TORN_ENTRIES d) n).putFlag (F.DSK_STATUS_TORN_FULL d) full).raiseIf
    (full && !s.flag (F.DSK_STATUS_TORN_FULL d)) (235 + 4 * d)

/-- A channel block has been written whole: an entry all of whose sectors are whole leaves the list (R305). -/
def State.intentDone (s : State) (d cblk : Nat) : State :=
  (s.modDsk d (fun c => { c with
    intents := (c.intents.map (fun e => { e with left := e.left.erase cblk })).filter (fun e => e.left != []) })).tornRefresh d

/-- A staged copy, as read, is written and taken from staging; a copy that cannot be read is recorded as holding no data,
with FS226 (R274, R277). -/
def State.writeCopy (r : State × MemRead) (e : Staged) (d sector cyl cblk : Nat) : State :=
  let gone (t : State) : State := t.modStq (fun q => { q with staged := q.staged.erase e })
  match r with
  | (t, .data l) => gone (t.writeSector d sector cyl cblk false l)
  | (t, _) =>
    (gone ((t.writeSector d sector cyl cblk true (List.replicate 4096 0)).modStq (fun q => { q with
      lostBlocks := q.lostBlocks ++ [(e.aseq, e.vol, e.vblk)] }))).raise 226

/-- The oldest staged copy of a channel's block, written and taken from staging (R274). -/
def State.writeStaged1 (s : State) (d sector cyl cblk : Nat) : State :=
  match s.stq.staged.find? (fun e => s.volLoaded e.vol && s.volMap e.vol e.vblk == (d, cblk)) with
  | none => s
  | some e => State.writeCopy (s.memRead reqStorage (s.slotAddr e.slot) 4096) e d sector cyl cblk

/-- A FORMAT that is being served has a sector less to write. -/
def DskReq.wroteForm (q : DskReq) (cblk : Nat) : DskReq :=
  match q.serving.find? (fun k => lget q.blks k == cblk) with
  | some k => if q.op = 2 then { q with todo := q.todo.erase k, good := q.good ++ [k] } else q
  | none => q

/-- A sector of a FORMAT written: NODATA = 1 and zero user bytes (R307). -/
def State.writeForm1 (s : State) (d sector cyl cblk : Nat) : State :=
  (s.writeSector d sector cyl cblk true (List.replicate 4096 0)).modDsk d (fun c => { c with
    reqs := c.reqs.map (fun q => q.wroteForm cblk) })

/-- Sectors of the write pass that have ended are judged: whole if the gate was open and the bit clock locked
throughout, else left for a later revolution (R304, R305, R316). -/
def State.resolveWrites (s : State) (d : Nat) : State :=
  match (vget s.dsk d).pass with
  | none => s
  | some p => s.each (vget s.dsk d).writing (fun t w =>
    match t.sectorTimes d p w.sector with
    | none => t
    | some (a, b) =>
      if t.now < b then t
      else
        let t1 := t.modDsk d (fun c => { c with writing := c.writing.erase w })
        if heldOver (vget t.dsk d).marks DskMark.writable a b then
          (if w.form then t1.writeForm1 d w.sector p.cyl w.cblk else t1.writeStaged1 d w.sector p.cyl w.cblk).intentDone d w.cblk
        else t1)

/-- The sector being written is cut, or abandoned: counted, and left to be rewritten (R294, R304, R317). -/
def State.cutSector (s : State) (d : Nat) : State :=
  let s1 := s.resolveWrites d
  match (vget s1.dsk d).writing.find? (fun w => s1.inSector d DskMark.writable w.sector) with
  | none => s1
  | some w => (s1.modDsk d (fun c => { c with writing := c.writing.erase w })).addSat (F.DSK_CUTS_CUTS d) 1

/-- A drydown begins: the sector in progress is finished and no further sector is begun (R305). -/
def State.lastSector (s : State) (d : Nat) : State :=
  let s1 := s.resolveWrites d
  s1.modDsk d (fun c => { c with writing := c.writing.filter (fun w => s1.inSector d DskMark.writable w.sector) })

/-- The pass in progress is given up: the channel is taken away (R320, R460). -/
def State.stopPass (s : State) (d : Nat) : State :=
  (s.cutSector d).modDsk d (fun c => { c with
    pass := none, writing := [], reqs := c.reqs.map (fun q => { q with serving := [] }) })

/-! ### The write guard (R317) -/

/-- A guard condition holds for the actuator of channel `d`. -/
def State.guardCond (s : State) (d : Nat) : Bool :=
  let a := s.act d
  let h := d / 2
  let thr : Int := s.fld (F.SRV_SHK_SHK_THR h)
  decide ((s.fld (F.SRV_ACFG_WLIM h (d % 2)) : Int) < a.pes.natAbs) || decide (thr < a.shkA.natAbs)
    || decide (thr < a.shkB.natAbs) || !s.settled d || s.flag (F.SRV_ASTAT_SEL_LOST h (d % 2))
    || !s.dskLock d || s.flag (F.SRV_ASTAT_PARKED h (d % 2))

/-- The guard closes the gate: counted, FS(265+2d), and any sector being written is cut. A gate already closed stays
so. -/
def State.guardClose (s : State) (d : Nat) : State :=
  let s1 := s.modAct d (fun a => { a with okRun := 0, guardSeen := true })
  if s.flag (F.SRV_ASTAT_GUARD (d / 2) (d % 2)) then s1.noteDisk d
  else
    (((((s1.cutSector d).setFlag (F.SRV_ASTAT_GUARD (d / 2) (d % 2))).addSat (F.SRV_ACNT_GUARDS (d / 2) (d % 2)) 1).raise
      (265 + 2 * d))).noteDisk d

/-- The guard is judged: a condition closes the gate. -/
def State.guardJudge (s : State) (d : Nat) : State := if s.guardCond d then s.guardClose d else s.noteDisk d

/-- The guard is judged at a valid frame: 8 in a row without a condition let the gate reopen. -/
def State.guardFrame (s : State) (d : Nat) : State :=
  if s.guardCond d then s.guardClose d
  else
    let n := (s.act d).okRun + 1
    let s1 := s.modAct d (fun a => { a with okRun := n })
    (if 8 ≤ n then s1.clrFlag (F.SRV_ASTAT_GUARD (d / 2) (d % 2)) else s1).noteDisk d

/-- SETTLED returns to 0, which closes the gate (R316, R317). -/
def State.unsettle (s : State) (d : Nat) : State :=
  (s.clrFlag (F.SRV_ASTAT_SETTLED (d / 2) (d % 2))).guardJudge d

/-- SETTLED becomes 1 (R316). -/
def State.settleOn (s : State) (d : Nat) : State :=
  (s.setFlag (F.SRV_ASTAT_SETTLED (d / 2) (d % 2))).noteDisk d

/-! ### Servo target (R316) -/

/-- The actuator's target: cylinder, head, offset pattern. -/
def State.tgtOf (s : State) (d : Nat) : Nat × Nat × Nat :=
  (s.fld (F.SRV_TGT_CYL (d / 2) (d % 2)), s.fld (F.SRV_TGT_HEAD (d / 2) (d % 2)), s.fld (F.SRV_TGT_OFFSET (d / 2) (d % 2)))

/-- PL(7+d) is set to the bit rate of a cylinder's zone, and its write current is sent (R286, R304). -/
def State.setZone (s : State) (d cyl : Nat) : State :=
  s.modDsk d (fun c => { c with
    tbits := s.trackBits d cyl, wcur := match s.zoneOf d cyl with | some z => (s.zoneWrite d z).2.2 | none => c.wcur })

/-- A new target: written, SETTLED cleared, bit 1 raised, the zone set; nothing if the channel stays on its track
(R316). -/
def State.retarget (s : State) (d : Nat) (track : Nat × Nat) (off : Int) : State :=
  if s.tgtOf d = (track.1, track.2, ux 8 off) then s.setZone d track.1
  else
    (((((s.setFld (F.SRV_TGT_CYL (d / 2) (d % 2)) track.1).setFld (F.SRV_TGT_HEAD (d / 2) (d % 2)) track.2).setFld
      (F.SRV_TGT_OFFSET (d / 2) (d % 2)) (ux 8 off)).unsettle d).srvEvent d 1).setZone d track.1

end Sys2Proof.Machine
end

