-- ==== Sys2Proof/Machine/DiskRead.lean ====
section
/-!
DEFINITION. The read channel (R291 to R295): sync candidates, the order in which they are decoded, and the settings
under which the detector runs.
-/
namespace Sys2Proof.Machine

/-! ### Sync (R293) -/

/-- Offsets from the predicted position, −24 to +24, where the 48 received bits lie within `tol` bits of the sync mark,
each with its distance. -/
def syncHits (tol : Nat) (window : BitVec 96) : List (Int × Nat) :=
  (List.range 49).filterMap (fun i =>
    let dist := popc 48 (bits window.toNat i 48 ^^^ syncMark)
    if dist ≤ tol then some ((i : Int) - 24, dist) else none)

/-- Rank of sync candidates: by distance, then by nearness to the prediction; of two equally near, the earlier
first. -/
def syncOrder (a b : Int × Nat) : Bool :=
  decide (a.2 < b.2) || (a.2 == b.2 && (decide (a.1.natAbs < b.1.natAbs) || (a.1.natAbs == b.1.natAbs && decide (a.1 ≤ b.1))))

/-- The candidates kept, in rank order: at most 4. -/
def syncKept (tol : Nat) (window : BitVec 96) : List Int := (((syncHits tol window).mergeSort syncOrder).take 4).map (·.1)

/-- The earliest of a list of positions. -/
def earliestOf : List Int → Option Int
  | [] => none
  | x :: r => some (r.foldl min x)

/-- Where a step decodes, in order; a timed position is marked. Step 7 tries every candidate in rank order, then the
timed position; the others take the earliest candidate, or the timed position where there is none (R293, R295). -/
def decodeOrder (step : Nat) (kept : List Int) : List (Int × Bool) :=
  if step = 7 then kept.map (fun x => (x, false)) ++ [(0, true)]
  else match earliestOf kept with
    | some x => [(x, false)]
    | none => [(0, true)]

/-! ### Settings (R291, R292, R295) -/

/-- The equaliser set of a ladder step. -/
def stepSet (step : Nat) : Nat := if step = 4 then 1 else if step = 5 then 2 else 0

/-- GI and LI of a ladder step. -/
def State.stepLimits (s : State) (d step : Nat) : Nat × Nat :=
  if 6 ≤ step then (s.fld (F.DSK_ITER_GI_RETRY d), s.fld (F.DSK_ITER_LI_RETRY d))
  else (s.fld (F.DSK_ITER_GI_NORM d), s.fld (F.DSK_ITER_LI_NORM d))

/-- Stretches of bits that follow one another joined into runs. -/
def joinRuns : List (Nat × Nat) → List (Nat × Nat)
  | [] => []
  | (a, n) :: r =>
    match joinRuns r with
    | (b, m) :: t => if a + n = b then (a, n + m) :: t else (a, n) :: (b, m) :: t
    | [] => [(a, n)]

/-- The runs that enter the decoder as erasures: in step 8, those of 8 bits or more below ERA_THR. -/
def erasures (step thr : Nat) (env : List (Nat × Nat × Nat)) : List (Nat × Nat) :=
  if step = 8 then
    (joinRuns ((env.filter (fun e => decide (e.2.2 < thr))).map (fun e => (e.1, e.2.1)))).filter (fun r => decide (8 ≤ r.2))
  else []

/-- The detector ran under the settings in force for a step: the set's filter and taps, the target, the erasures and
the iteration limits. The taps of set 0 are the channel's own while ADAPT = 1. -/
def State.detectFits (s : State) (d step : Nat) (rd : SectorRead) (x : Detect) : Bool :=
  let k := stepSet step
  let lim := s.stepLimits d step
  let taps := if k = 0 ∧ s.flag (F.DSK_CTRL_ADAPT d) = true then []
    else [s.reg (R.DSK_EQ d (4 * k + 1)), s.reg (R.DSK_EQ d (4 * k + 2)), s.reg (R.DSK_EQ d (4 * k + 3))]
  x.set == k && x.filter == s.reg (R.DSK_EQ d (4 * k)) && x.taps == taps && x.target == s.reg (R.DSK_TARGET d)
    && x.erased == erasures step (s.fld (F.DSK_SYNC_ERA_THR d)) rd.envelope
    && decide (x.iters.length ≤ lim.1) && x.iters.all (fun n => decide (n ≤ lim.2))

/-! ### Decoding -/

/-- What a step makes of a sector: the outcome, how many timed syncs it used, and whether a candidate that is not the
earliest gave it. -/
structure ReadOut where
  result : Decoded
  timed : Nat
  later : Bool
  deriving DecidableEq, Repr

/-- The codeword that detection gives at a position, put to the tests of R292. -/
def State.decodeAt (s : State) (d step cblk : Nat) (rd : SectorRead) (pos : Int) : Decoded :=
  match rd.tries.find? (fun x => x.start == pos && s.detectFits d step rd x) with
  | some x => sectorDecode cblk x.codeword
  | none => .failed

/-- Positions decoded in order until one recovers the sector. -/
def State.decodeFirst (s : State) (d step cblk : Nat) (rd : SectorRead) (early : Option Int) :
    List (Int × Bool) → Nat → ReadOut
  | [], n => ⟨.failed, n, false⟩
  | (pos, timed) :: r, n =>
    let m := if timed then n + 1 else n
    match s.decodeAt d step cblk rd pos with
    | .failed => s.decodeFirst d step cblk rd early r m
    | x => ⟨x, m, !timed && early != some pos⟩

/-- One sector detected and decoded in a step of the ladder (R292, R293, R295). -/
def State.detect (s : State) (d step cblk : Nat) (rd : SectorRead) : ReadOut :=
  let kept := syncKept (s.fld (F.DSK_SYNC_SYNC_TOL d)) rd.window
  s.decodeFirst d step cblk rd (earliestOf kept) (decodeOrder step kept) 0

/-- ADAPT = 1: the taps of set 0 move after a sector that was decoded (R291). By how much is not stated: free values. -/
def State.adaptTaps (s : State) (d : Nat) : State :=
  if s.flag (F.DSK_CTRL_ADAPT d) then
    s.each [1, 2, 3] (fun t w =>
      (t.setReg (R.DSK_EQ d w) (BitVec.ofNat 32 (t.freeWord.toNat % 2 ^ (if w = 3 then 16 else 32)))).tookFree)
  else s

/-- A sector read in a step is counted: RDOK at step 0, STEPCNT and RDRETRY later; TIMED and RESYNC (R308). -/
def State.countRead (s : State) (d step : Nat) (r : ReadOut) : State :=
  let s1 := s.addSat (F.DSK_SYNCCNT_TIMED d) r.timed
  if r.result = .failed then s1
  else
    let s2 := (if r.later then s1.addSat (F.DSK_SYNCCNT_RESYNC d) 1 else s1).adaptTaps d
    if step = 0 then s2.modDsk d (fun c => { c with rdok := (c.rdok + 1) % 2 ^ 32 })
    else (s2.modDsk d (fun c => { c with rdretry := (c.rdretry + 1) % 2 ^ 32 })).addSat
      (F.DSK_STEPCNT_RECOVERED d (step - 1)) 1

end Sys2Proof.Machine
end

