-- ==== Sys2Proof/Machine/DiskPass.lean ====
section
/-!
DEFINITION. Revolutions of a disk channel (R292 to R307): what each serves, reading and the retry ladder, the mirror,
and the passes that write.
-/
namespace Sys2Proof.Machine

/-! ### The ladder (R295 to R298) -/

/-- The head offset of a ladder step, by its first or second revolution (R295, R313). -/
def stepOffset (step : Nat) (half : Bool) : Int :=
  if step = 2 then (if half then -15 else 15) else if step = 3 then (if half then -31 else 31) else 0

/-- Revolutions a ladder step costs (R295). -/
def stepCost (step : Nat) : Nat := if step = 2 ∨ step = 3 then 2 else 1

/-- The next step after `k` that SKIP does not pass over. -/
def State.nextStep (s : State) (d k : Nat) : Option Nat :=
  (List.range 9).find? (fun j => decide (k < j) && !bit (s.fld (F.DSK_LADDER_SKIP d)) (j - 1))

/-- A sector's data delivered to its destination: STAGE writes only the bytes below BLEN (R301). -/
def State.deliver (s : State) (q : DskReq) (k : Nat) (l : List Byte) (nodata : Bool) : State :=
  match q.origin with
  | .ring =>
    let n := if q.op = 0 then min 4096 (s.stageBytes q - 4096 * k) else 4096
    (s.memWriteWords reqStorage (q.dst + 4096 * k) (l.take n)).1
  | .stq a idx => s.stqDeliver a (lget idx k) (if nodata then List.replicate 4096 0 else l) nodata
  | .mread v b _ _ => s.sendAcd 0x0A (v * 2 ^ 48 + (b + (lget q.blks k - lget q.blks 0))) (leBytes 4 0 ++ l)

/-- A sector of the request failed in the pass. -/
def State.failSector (s : State) (d k sec : Nat) : State :=
  s.modReq d k (fun x => { x with todo := x.todo.erase sec, failed := x.failed ++ [sec] })

/-- One sector of a pass: recovered, found NODATA, or failed. A STAGE's NODATA sector counts as failed and goes to the
mirror without the ladder (R303). -/
def State.readSector (s : State) (d k sec : Nat) (rd : SectorRead) : State :=
  match s.dreq d k with
  | none => s
  | some q =>
    let r := s.detect d q.plan (q.cblkOf sec) rd
    let s1 := s.countRead d q.plan r
    match r.result with
    | .failed => s1.failSector d k sec
    | .user l nodata =>
      if nodata && (match q.origin with | .stq _ _ => false | _ => true) then
        s1.modReq d k (fun x => { x with todo := x.todo.erase sec, nodata := x.nodata ++ [sec] })
      else
        (s1.deliver q sec l nodata).modReq d k (fun x => { x with todo := x.todo.erase sec, good := x.good ++ [sec] })

/-- The sectors of a request still to attempt that lie on a track. -/
def State.onTrack (s : State) (d : Nat) (q : DskReq) (track : Nat × Nat) : List Nat :=
  q.todo.filter (fun k => s.reqTrack d q k == some track)

/-- A request runs against a deadline (R296, R457). -/
def DskReq.timed (q : DskReq) : Bool :=
  match q.origin with
  | .mread _ _ _ _ => true
  | .ring => q.op == 0
  | .stq _ _ => false

/-- Failed sectors requested from the partner's mirror of the volume (R297, R298, R457); a STAGE's NODATA sectors too.
`todo` then lists those not answered yet. -/
def State.askMirror (s : State) (d k : Nat) : State :=
  match s.dreq d k, s.volOfChan d with
  | some q, some v =>
    let by_ := if q.timed then q.tEnd + s.retryReserve d else 2 ^ 64 - 1
    let ask := q.failed ++ (if q.op = 0 then q.nodata else [])
    (s.each ask (fun t sec =>
      t.sendAcd 0x09 (v * 2 ^ 48 + t.volBlockOf v d (lget q.blks sec))
        (leBytes 4 v ++ leBytes 4 1 ++ leBytes 8 (t.volBlockOf v d (lget q.blks sec)) ++ leBytes 8 by_))).modReq d k
      (fun x => { x with mirror := true, mirrorBy := by_, todo := ask })
  | _, _ => s

/-- The final status of a request (R297, R298, R303): a STAGE's NODATA sector that the mirror has not answered counts
as failed. -/
def DskReq.finalStatus (q : DskReq) : Nat :=
  if q.failed ≠ [] ∨ (q.mirror && q.nodata.any q.todo.contains) = true then 1 else if q.nodata ≠ [] then 2 else 0

/-- A request whose every sector is settled completes; a storage-queue READ's failed blocks are reported (R275). -/
def State.finishReq (s : State) (d k : Nat) : State :=
  match s.dreq d k with
  | none => s
  | some q =>
    match q.origin with
    | .ring => s.dskComplete d k q.finalStatus
    | .stq a idx => (s.each q.failed (fun t sec => t.stqMedia a (lget idx sec))).dskComplete d k q.finalStatus
    | .mread v b _ _ =>
      (s.each ((q.failed ++ q.nodata).map (fun x => (x, 5))) (fun t e =>
        t.sendAcd 0x0A (v * 2 ^ 48 + (b + (lget q.blks e.1 - lget q.blks 0))) (leBytes 4 e.2))).dskComplete d k q.finalStatus

/-- A ladder has ended: in a joined pair the mirror is asked for what failed, else the request completes (R297,
R298). A FREAD of reserved blocks, and the partner's own read, never use the mirror. -/
def State.ladderEnd (s : State) (d k : Nat) : State :=
  match s.dreq d k with
  | none => s
  | some q =>
    let s1 := s.modDsk d (fun c => { c with rdfail := (c.rdfail + q.failed.length) % 2 ^ 32 })
    let ask := q.failed ++ (if q.op = 0 then q.nodata else [])
    let may := s1.joined && !q.rsv && (s1.volOfChan d).isSome && ask != []
      && (match q.origin with | .mread _ _ _ _ => false | _ => true)
    if may then s1.askMirror d k else s1.finishReq d k

/-- Of the `n` revolutions from that of slot `c` on, those not booked for staging (R296). -/
def State.freeRevs (s : State) (d c n : Nat) : Nat :=
  if s.rlock (d / 2) then
    n - ((List.range n).filter (fun i =>
      (vget s.dsk d).reqs.any (fun r => r.booked && !r.started && r.slot == (c + i) % 2 ^ 32))).length
  else n

/-- Free revolutions that remain to a ladder before its deadline, from that of slot `c` on (R296, R457). -/
def State.ladderLeft (s : State) (d c : Nat) (q : DskReq) : Nat :=
  let h := d / 2
  match q.origin with
  | .mread _ _ _ deadline => s.freeRevs d c ((deadline - s.now) / max 1 (s.revNs h))
  | _ =>
    if s.rlock h then
      let ahead := (q.slot + s.fld (F.DSK_RESV_RES_REV d) + 1 + 2 ^ 32 - c) % 2 ^ 32
      if 2 ^ 31 ≤ ahead then 0 else s.freeRevs d c ahead
    else (q.tEnd + s.fld (F.DSK_RESV_RES_REV d) * s.revNs h - s.now) / max 1 (s.revNs h)

/-- A ladder that runs against a deadline waits for its next pass. -/
def DskReq.laddering (q : DskReq) : Bool :=
  q.timed && q.status == none && !q.mirror && q.todo != []
    && (q.started || (match q.origin with | .mread _ _ _ _ => true | _ => false))

/-- A ladder with fewer free revolutions left than its next step costs ends (R296). -/
def State.endSpent (s : State) (d c k : Nat) : State :=
  match s.dreq d k with
  | none => s
  | some q =>
    if q.laddering && decide (s.ladderLeft d c q < (if q.half then 1 else stepCost q.plan)) then
      (s.modReq d k (fun x => { x with failed := x.failed ++ x.todo, todo := [] })).ladderEnd d k
    else s

/-- A request whose pass is over completes, goes to its next step, or ends its ladder (R295). One that waits for the
mirror ends when its time is over, or, without a deadline, when the link is lost (R297, R298); a booking whose slot
lies before slot `c` is missed (R303). -/
def State.advanceReq (s : State) (d c k : Nat) : State :=
  match s.dreq d k with
  | none => s
  | some q =>
    if q.status ≠ none then s
    else if q.mirror then
      (if q.mirrorBy < s.now ∨ (q.timed = false ∧ s.linkUp 2 = false) then s.finishReq d k else s)
    else if q.started = false then
      (if q.booked && s.rlock (d / 2) && decide ((c + 2 ^ 32 - 1 - q.slot) % 2 ^ 32 < 2 ^ 31) && q.serving == [] then s.dskComplete d k 3 else s)
    else if q.todo ≠ [] then s
    else if q.op = 2 then s.dskComplete d k 0
    else if q.failed = [] then s.ladderEnd d k
    else if (q.plan = 2 ∨ q.plan = 3) ∧ q.half = false then
      s.modReq d k (fun x => { x with half := true, todo := x.failed, failed := [] })
    else match s.nextStep d q.plan with
      | none => s.ladderEnd d k
      | some j => s.modReq d k (fun x => { x with plan := j, half := false, todo := x.failed, failed := [] })

/-! ### The end of a pass -/

/-- The sectors that a request was served in the pass: each with its own reception, read if SETTLED was 1 at its start
and the bit clock locked throughout, else failed (R294, R316). What is left of `reads` is returned. -/
def State.readServed (s : State) (d k : Nat) (p : DskPass) (reads : List SectorRead) : State × List SectorRead :=
  match s.dreq d k with
  | none => (s, reads)
  | some q =>
    if q.serving = [] ∨ q.op = 2 then (s, reads)
    else
      let marks := (vget s.dsk d).marks
      let r := q.serving.foldl (fun (a : State × List SectorRead) sec =>
        let fit := match (s.reqPlace d q sec).bind (fun pl => s.sectorTimes d p pl.sector) with
          | some (t0, t1) => (markAt marks t0).any (·.settled) && heldOver marks (·.lock) t0 t1
          | none => false
        match a.2, fit with
        | rd :: rest, true => (a.1.readSector d k sec rd, rest)
        | l, _ => (a.1.failSector d k sec, l.tail)) (s, reads)
      (r.1.modReq d k (fun x => { x with
        serving := [], step := x.plan, revs := if x.plan = 0 then x.revs else x.revs + 1
        tEnd := if x.plan = 0 then p.startAt.getD s.now + s.passRev d p else x.tEnd }), r.2)

/-- The pass in progress ends: its sectors are written or read. -/
def State.endPass (s : State) (d : Nat) (p : DskPass) (reads : List SectorRead) : State :=
  let s1 := s.resolveWrites d
  let s2 := ((List.range (vget s1.dsk d).reqs.length).foldl (fun a k => a.1.readServed d k p a.2) (s1, reads)).1
  s2.modDsk d (fun c => { c with
    pass := none, writing := [], reqs := c.reqs.map (fun q => { q with serving := [] }) })

/-- The last sector that a pass serves has gone by, or its revolution is over. -/
def State.passOver (s : State) (d : Nat) (p : DskPass) : Bool :=
  p.stopAt.isSome || (p.startAt.isSome
    && (s.readsNow d ++ (vget s.dsk d).writing.map (·.sector)).all (fun k =>
      (s.sectorTimes d p k).any (fun e => decide (e.2 ≤ s.now))))

/-! ### Choosing what a revolution serves (R296) -/

/-- Indexes of the requests of a channel that satisfy a test. -/
def State.reqsWhere (s : State) (d : Nat) (f : DskReq → Bool) : List Nat :=
  (List.range (vget s.dsk d).reqs.length).filter (fun k => match s.dreq d k with | some q => f q | none => false)

/-- When a request's ladder deadline falls, for the order of ladders (R296, R457). -/
def State.deadlineOf (s : State) (d k : Nat) : Nat :=
  match s.dreq d k with
  | some q => match q.origin with
    | .mread _ _ _ t => t
    | _ => q.tEnd + s.fld (F.DSK_RESV_RES_REV d) * s.revNs (d / 2)
  | none => 0

/-- The request with the earliest deadline. -/
def State.earliest (s : State) (d : Nat) (l : List Nat) : Option Nat :=
  match l with
  | [] => none
  | x :: r => some (r.foldl (fun a b => if s.deadlineOf d b < s.deadlineOf d a then b else a) x)

/-- Channel blocks of staged data waiting for a channel, oldest first. -/
def State.stagedFor (s : State) (d : Nat) : List Nat :=
  ((s.stq.staged.filter (fun e => s.volLoaded e.vol && (s.volMap e.vol e.vblk).1 == d)).map
    (fun e => (s.volMap e.vol e.vblk).2)).eraseDups

/-- The media may be written: temperature window, READY, no drydown (R304, R305). -/
def State.mayWrite (s : State) (d : Nat) : Bool := s.inWindow d && s.flag (F.DSK_STATUS_READY d) && !s.drying

/-- A channel block that may be written now: its run is in the write-intent list already, or there is room for it
(R305). -/
def State.mayIntend (s : State) (d cblk : Nat) : Bool :=
  decide ((vget s.dsk d).intents.length < 32) || (vget s.dsk d).intents.any (fun e => e.left.contains cblk)

/-- What a channel's next revolution serves. -/
inductive RevWork where
  | idle
  | booked
  | ladder (k : Nat)
  | read (k : Nat)
  | staged (cblk : Nat)
  | format (k : Nat)
  deriving DecidableEq, Repr

/-- The write that a channel would do next. -/
def State.writeWork (s : State) (d : Nat) : RevWork :=
  if s.mayWrite d = false then .idle
  else match (s.stagedFor d).find? (s.mayIntend d) with
    | some b => .staged b
    | none => match s.reqsWhere d (fun q => q.op == 2 && q.status == none && q.todo.any (fun i => s.mayIntend d (lget q.blks i))) with
      | k :: _ => .format k
      | [] => .idle

/-- What the revolution of slot `c` serves, in the order of precedence of R296. -/
def State.revWork (s : State) (d c : Nat) : RevWork :=
  if s.rlock (d / 2) && !(s.reqsWhere d (fun q => q.booked && !q.started && q.slot == c)).isEmpty then .booked
  else match s.earliest d (s.reqsWhere d DskReq.laddering) with
    | some k => .ladder k
    | none =>
      match s.reqsWhere d (fun q => !q.timed && q.op != 2 && q.status == none && !q.mirror && q.todo != []) with
      | [] => s.writeWork d
      | k :: _ => if (vget s.dsk d).turn = 1 ∧ s.writeWork d ≠ .idle then s.writeWork d else .read k

/-- A pass over a track is set up, its index still to come. -/
def State.openPass (s : State) (d : Nat) (track : Nat × Nat) (off : Int) : State :=
  let s1 := s.retarget d track off
  s1.modDsk d (fun c => { c with
    pass := some ⟨track.1, track.2, none, none⟩, marks := [s1.markNow d], wrote := [] })

/-- A request's sectors on the track of its first one to attempt are served; a sector that lies nowhere fails. -/
def State.serveReq (s : State) (d k : Nat) : State :=
  match s.dreq d k with
  | none => s
  | some q =>
    match q.todo with
    | [] => s
    | first :: _ => match s.reqTrack d q first with
      | none => s.modReq d k (fun x => { x with failed := x.failed ++ x.todo, todo := [], started := true })
      | some track =>
        (s.openPass d track (stepOffset q.plan q.half)).modReq d k (fun x => { x with serving := s.onTrack d q track })

/-- Runs of consecutive sectors with consecutive channel blocks, among sectors in order (R305). -/
def writeRuns : List (Nat × Nat) → List (List (Nat × Nat))
  | [] => []
  | x :: r =>
    match writeRuns r with
    | (y :: t) :: rest => if x.1 + 1 = y.1 ∧ x.2 + 1 = y.2 then (x :: y :: t) :: rest else [x] :: (y :: t) :: rest
    | rest => [x] :: rest

/-- A write pass over sectors of one track, given with their channel blocks: the runs are recorded in the write-intent
list before the gate opens, as many as it has room for; a sector whose run is there already needs no entry (R305). -/
def State.openWrites (s : State) (d : Nat) (track : Nat × Nat) (form : Bool) (secs : List (Nat × Nat)) : State :=
  let ints := (vget s.dsk d).intents
  let held (e : Nat × Nat) : Bool := ints.any (fun i => i.left.contains e.2)
  let sorted := secs.mergeSort (fun a b => decide (a.1 ≤ b.1))
  let runs := (writeRuns (sorted.filter (fun e => !held e))).take (32 - ints.length)
  let go := (sorted.filter held ++ runs.flatten).mergeSort (fun a b => decide (a.1 ≤ b.1))
  ((s.openPass d track 0).modDsk d (fun c => { c with
    intents := c.intents ++ runs.map (fun r => ⟨lget (r.map (·.2)) 0, r.length, r.map (·.2)⟩)
    writing := go.map (fun e => ⟨e.1, e.2, form⟩) })).tornRefresh d

/-- A pass that writes staged data on the track of a channel block. -/
def State.serveWrites (s : State) (d cblk : Nat) : State :=
  match s.place d cblk with
  | none => s
  | some p =>
    s.openWrites d p.track false ((s.stagedFor d).filterMap (fun b =>
      (s.place d b).bind (fun x => if x.track = p.track then some (x.sector, b) else none)))

/-- A pass of a FORMAT over the track of its first sector left (R307). -/
def State.serveForm (s : State) (d k : Nat) : State :=
  match s.dreq d k with
  | none => s
  | some q =>
    match (q.todo.head?).bind (s.reqTrack d q) with
    | none => s
    | some track =>
      let on := s.onTrack d q track
      (s.openWrites d track true (on.filterMap (fun i => (s.reqPlace d q i).map (fun x => (x.sector, lget q.blks i))))).modReq d k
        (fun x => { x with serving := on, started := true })

/-- A FORMAT that meets the temperature window before its first sector completes with TEMP (R307). -/
def State.formTemp (s : State) (d k : Nat) : State :=
  match s.dreq d k with
  | some q => if q.op = 2 ∧ q.status = none ∧ q.started = false ∧ s.inWindow d = false then s.dskComplete d k 9 else s
  | none => s

/-- The earliest booking still to come. -/
def State.nextBooking (s : State) (d c : Nat) : Option Nat :=
  match s.reqsWhere d (fun q => q.booked && !q.started) with
  | [] => none
  | k :: r => some (r.foldl (fun a b =>
      match s.dreq d a, s.dreq d b with
      | some x, some y => if (y.slot + 2 ^ 32 - c) % 2 ^ 32 < (x.slot + 2 ^ 32 - c) % 2 ^ 32 then b else a
      | _, _ => a) k)

/-- The heads wait on the track of a booking (R316). -/
def State.aimAt (s : State) (d k : Nat) : State :=
  match (s.dreq d k).bind (fun q => s.reqTrack d q 0) with
  | some tr => s.retarget d tr 0
  | none => s

/-- What the revolution of slot `c` serves is chosen, and its target written (R296, R316). -/
def State.choose (s : State) (d c : Nat) : State :=
  match s.revWork d c with
  | .booked => s.each (s.reqsWhere d (fun q => q.booked && !q.started && q.slot == c)) (fun t k => t.serveReq d k)
  | .ladder k => s.serveReq d k
  | .read k => (s.serveReq d k).modDsk d (fun x => { x with turn := 1 })
  | .staged b => (s.serveWrites d b).modDsk d (fun x => { x with turn := 0 })
  | .format k => (s.serveForm d k).modDsk d (fun x => { x with turn := 0 })
  | .idle => match s.nextBooking d c with
    | some k => s.aimAt d k
    | none => s

/-- Ladders advance, and the next revolution is chosen. -/
def State.planPass (s : State) (d c : Nat) : State :=
  let all (t : State) : List Nat := List.range (vget t.dsk d).reqs.length
  let s1 := s.each (all s) (fun t k => t.advanceReq d c k)
  let s2 := s1.each (all s1) (fun t k => (t.endSpent d c k).formTemp d k)
  (s2.dropDone d).choose d c

/-- DISK_REVOLUTION (R296, R316): once the last sector that the revolution serves has gone by, its results are taken and
the next one is chosen. -/
def State.revolution (s : State) (d : Nat) (reads : List SectorRead) : State :=
  let c := (s.slotNow (d / 2) + 1) % 2 ^ 32
  match (vget s.dsk d).pass with
  | some p => if s.passOver d p then (s.endPass d p reads).planPass d c else s
  | none => s.planPass d c

/-- A booking whose slot begins: STALE if its page has been closed by then; not this slot's after a change of numbering
(R300, R332). -/
def State.beginBooked (s : State) (d k : Nat) : State :=
  match s.dreq d k with
  | some q =>
    if q.booked && !q.started && q.serving != [] then
      (if q.slot ≠ s.slotNow (d / 2) then s.modReq d k (fun x => { x with serving := [] })
       else if s.pageOf q.page = none then s.dskComplete d k 6 else s)
    else s
  | none => s

/-- The choice made for the coming revolution no longer stands: a booking of its slot has come since (R296). -/
def State.dropPlan (s : State) (d : Nat) : State :=
  match (vget s.dsk d).pass with
  | some p =>
    if p.startAt = none ∧ s.rlock (d / 2) = true
        ∧ s.reqsWhere d (fun q => q.booked && !q.started && q.slot == s.slotNow (d / 2) && q.serving == []) ≠ [] then
      s.modDsk d (fun c => { c with pass := none, writing := [], reqs := c.reqs.map (fun q => { q with serving := [] }) })
    else s
  | none => s

/-- The selvage index comes: the pass chosen for the revolution begins, or the one in progress is over; `c0` is the slot
that ends here (R286, R332). -/
def State.indexPass (s : State) (d c0 : Nat) : State :=
  let s0 := (s.modDsk d (fun c => { c with reqs := c.reqs.map (fun q =>
    if q.booked && q.started && q.slot == c0 && !q.mirror then { q with tEnd := s.now } else q) })).dropPlan d
  let s1 := if (vget s0.dsk d).pass = none then s0.planPass d (s0.slotNow (d / 2)) else s0
  match (vget s1.dsk d).pass with
  | none => s1
  | some p =>
    if p.startAt.isSome then s1.modDsk d (fun c => { c with pass := some { p with stopAt := some (p.stopAt.getD s.now) } })
    else
      let s2 := (s1.each (List.range (vget s1.dsk d).reqs.length) (fun t k => t.beginBooked d k)).modDsk d (fun c => { c with
        pass := some { p with startAt := some s.now }
        reqs := c.reqs.map (fun q => if q.serving = [] then q else { q with started := true }) })
      s2.dropDone d

end Sys2Proof.Machine
end

