-- ==== Sys2Proof/Machine/StorageCmds.lean ====
section
/-!
DEFINITION. The effects of the storage queue's and the disk channels' commands (chapters 09 and 10) and of writes to
their registers.
-/
namespace Sys2Proof.Machine

/-! ### Volumes (R266) -/

/-- The lowest-numbered reason that refuses a LOAD; 0 for none. -/
def State.loadReason (s : State) (v : Nat) : Nat :=
  let cs := s.volChans v
  if s.variant.hdas = 0 ∨ cs.any (fun d => !s.hasDch d) = true then 1
  else if s.loadedVols.any (fun u => u != v && (s.volChans u).any (fun d => cs.contains d)) then 2
  else if cs = [] then 3
  else if s.volLoaded v then 4
  else if 8 < s.fld (F.STQ_VOL_CFG_SU v) then 5
  else 0

/-- A volume command refused: REFUSED, REASON, FS228. -/
def State.volRefuse (s : State) (reason : Nat) : State :=
  (((s.setFlag F.STQ_VOLSTAT_REFUSED).clrFlag F.STQ_VOLSTAT_DONE).setFld F.STQ_VOLSTAT_REASON reason).raise 228

/-- A volume command done. -/
def State.volDone (s : State) : State :=
  let s1 := ((s.setFlag F.STQ_VOLSTAT_DONE).clrFlag F.STQ_VOLSTAT_REFUSED).setFld F.STQ_VOLSTAT_REASON 0
  s1.setFld F.STQ_STATUS_NVOL s1.loadedVols.length

/-- LOAD: volume `v` is loaded and ONLINE, its capacity computed (R265, R266). -/
def State.volLoad (s : State) (v : Nat) : State :=
  let r := s.loadReason v
  if r ≠ 0 then s.volRefuse r
  else
    let cap := s.volCapOf (s.volChans v) (s.volUnit v)
    ((((s.setFlag (F.STQ_VOL_CFG_LOADED v)).setReg (R.STQ_VOL_CAP_LO v) (BitVec.ofNat 32 cap)).setFld
      (F.STQ_VOL_CAP_HI_CAP v) (cap / 2 ^ 32)).volRefresh).volDone

/-- Work remains on a volume: commands outstanding, or data still in staging (reason 6 of R266). -/
def State.volBusy (s : State) (v : Nat) : Bool :=
  s.stq.cmds.any (fun c => c.accepted && c.opc != 4 && (c.all || c.vol == v)) || s.stq.staged.any (fun e => e.vol == v)

/-- UNLOAD: back to the unloaded state unless work remains (R266). A volume that is not loaded stays so. -/
def State.volUnload (s : State) (v : Nat) : State :=
  if s.volLoaded v = false then s
  else if s.volBusy v then s.volRefuse 6
  else
    (((s.clrFlag (F.STQ_VOL_CFG_LOADED v)).clrFlag (F.STQ_VOL_CFG_OFFLINE v)).setReg40 (R.STQ_VOL_CAP_LO v)
      (R.STQ_VOL_CAP_HI v) 0).volDone

/-- A write to STQ_VOLCMD; with both command bits set it is ignored (R279). -/
def effVolcmd (v : Word) (s : State) : State :=
  let vol := F.STQ_VOLCMD_VOL.of v
  let load := F.STQ_VOLCMD_LOAD.of v = 1
  let unload := F.STQ_VOLCMD_UNLOAD.of v = 1
  if load ∧ unload then s else if load then s.volLoad vol else if unload then s.volUnload vol else s

/-- A write to STQ_LOCK (R279). -/
def effStqLock (v : Word) (s : State) : State := s.plainWrite R.STQ_LOCK v

/-! ### The storage queue's steps -/

/-- WRITE (R272): blocks staged from DRAM under LOCAL, else a further offer; completes when all are staged. -/
def effStqWrite (aseq : Nat) (s : State) : State :=
  match s.stqCmd aseq with
  | some c =>
    if c.opc = 1 ∧ c.begun = true then
      (if c.local_ then (s.localWrite aseq).checkWrite aseq else (s.stqOffer aseq).checkWrite aseq)
    else s
  | none => s

/-- Requests queued on the channels for the blocks of a READ that are not in staging: one request per channel. -/
def State.queueReads (s : State) (c : StqCmd) (blocks : List Nat) : State :=
  s.each (s.volChans c.vol) (fun t d =>
    let mine := blocks.filter (fun i => (t.volMap c.vol (c.lba + i)).1 == d)
    if mine.isEmpty then t
    else t.modDsk d (fun k => { k with reqs := k.reqs ++ [{ (default : DskReq) with
      op := 1, count := mine.length, origin := .stq c.aseq mine
      blks := mine.map (fun i => (t.volMap c.vol (c.lba + i)).2), todo := List.range mine.length }] }))

/-- READ (R269, R272): blocks in staging are served from it, the others are queued on their channels. -/
def effStqRead (aseq : Nat) (s : State) : State :=
  match s.stqCmd aseq with
  | some c =>
    if c.opc = 2 ∧ c.begun = true ∧ c.queued = false then
      let isStaged (i : Nat) : Bool := (s.stagedOf c.vol (c.lba + i)).isSome
      let s1 := s.each (c.todo.filter isStaged) (fun t i =>
        match t.stagedOf c.vol (c.lba + i) with | some e => t.serveStaged aseq i e | none => t)
      (s1.queueReads c (c.todo.filter (fun i => !isStaged i))).modCmd aseq (fun k => { k with queued := true })
    else s
  | none => s

/-- FLUSH begins to wait for what it covers (R274). -/
def effFlush (aseq : Nat) (s : State) : State :=
  match s.stqCmd aseq with
  | some c => if c.opc = 3 then s.modCmd aseq (fun k => { k with begun := true }) else s
  | none => s

/-- IDENTIFY writes its 4,096 bytes and completes with SUCCESS (R271). -/
def effIdentify (aseq : Nat) (s : State) : State :=
  match s.stqCmd aseq with
  | some c => if c.opc = 4 then (s.toDest c 0 s.identifyData).endCmd aseq 0 noBad else s
  | none => s

/-- A READ or WRITE begins once its range is clear; a host WRITE makes its first offer (R272, R273). -/
def effCommandBegin (aseq : Nat) (s : State) : State :=
  match s.stqCmd aseq with
  | some c =>
    if c.locked = true ∧ c.begun = false ∧ s.rangeClear c = true then
      (s.modCmd aseq (fun k => { k with begun := true })).stqOffer aseq
    else s
  | none => s

/-- An offer whose bytes have not all arrived within TR_TMO ends the WRITE with XFER (R272). -/
def effXferTimeout (aseq : Nat) (s : State) : State :=
  match s.stqCmd aseq with
  | some c => if c.offers.any (fun o => decide (0 < o.missing) && decide (o.tOffer + s.trTmo ≤ s.now)) then s.xferEnd c else s
  | none => s

/-- A READ whose every block has been delivered or has failed completes (R275). -/
def effStqReadDone (aseq : Nat) (s : State) : State :=
  match s.stqCmd aseq with
  | some c =>
    if c.opc = 2 ∧ c.queued = true ∧ c.todo = [] then s.endCmd aseq c.readStatus.1 c.readStatus.2 else s
  | none => s

/-- A FLUSH completes (R274) once all that is left of what it covers waits for a write window, and in a joined pair the
partner has done its part too (`partnerDone`): with TEMP if something is left, with ECC if a covered block was lost,
else with SUCCESS. -/
def effFlushDone (aseq : Nat) (partnerDone : Bool) (s : State) : State :=
  match s.stqCmd aseq with
  | some c =>
    let left := s.flushLeft c
    if c.opc = 3 ∧ c.begun = true ∧ s.flushWaits c = false ∧ (s.isActive = true → partnerDone = true)
        ∧ left.all (fun e => !s.inWindow (s.volMap e.vol e.vblk).1) = true then
      s.endCmd aseq
        (if left ≠ [] then 7
         else if s.stq.lostBlocks.any (fun e => c.covers e.2.1 && aseqBefore e.1 c.aseq) then 10 else 0) noBad
    else s
  | none => s

/-- At a takeover every command held and not completed ends with ABORTED, in ASEQ order (R276). Its queued media
reads are dropped. -/
def State.abortCmds (s : State) : State :=
  let s1 := s.modStq (fun q => { q with cmds := q.cmds.map (fun c =>
    if c.accepted && c.ended == none then { c with ended := some (9, noBad), slots := [] } else c) })
  (s1.each (List.range 8) (fun t d => t.modDsk d (fun k => { k with
    reqs := k.reqs.filter (fun q => match q.origin with | .stq _ _ => false | _ => true) }))).pushCpls

/-! ### Disk channels -/

/-- A channel that serves nothing moves to the track of its earliest booking, when its requests have changed
(R316). -/
def State.reaim (s : State) (d : Nat) : State :=
  if (vget s.dsk d).pass ≠ none then s
  else match s.nextBooking d ((s.slotNow (d / 2) + 1) % 2 ^ 32) with
    | some k => s.aimAt d k
    | none => s

/-- A STAGE request popped and booked (R299, R300). Values of OP outside the table are popped here, with PARAM. -/
def effStage (d : Nat) (s : State) : State := (s.dskPop d (fun op => op == 0 || decide (2 < op))).reaim d

/-- An FREAD request popped (R299, R300). -/
def effFread (d : Nat) (s : State) : State := (s.dskPop d (· == 1)).reaim d

/-- A FORMAT request popped (R299, R300, R307). -/
def effFormat (d : Nat) (s : State) : State := (s.dskPop d (· == 2)).reaim d

/-- One revolution of a present channel (R296). -/
def effDiskRevolution (d : Nat) (reads : List SectorRead) (s : State) : State :=
  if s.hasDch d then s.revolution d reads else s

/-- APPLY (R289): the checks, then capacity and speeds, and the recovery sweep starts. -/
def effDskApply (d : Nat) (s : State) : State :=
  if s.flag (F.DSK_STATUS_READY d) ∨ (vget s.dsk d).sweeping = true then s
  else if s.geomOk d then
    let cap := s.geomCap d
    let rpm := s.geomRpm d
    ((s.setFld (F.DSK_RPM_RPM_MAX d) rpm.1).setFld (F.DSK_RPM_RPM_MIN d) rpm.2).modDsk d (fun c => { c with
      sweeping := true, cap := cap })
  else s.setFlag (F.DSK_STATUS_CFG_ERR d)

/-- The sectors named in the write-intent list (R306). -/
def State.intentSectors (s : State) (d : Nat) : List Nat :=
  (vget s.dsk d).intents.flatMap (fun e => (List.range e.count).map (e.first + ·))

/-- One listed sector read in the sweep, through step 0 only: nothing if it is recovered, else rewritten with
NODATA = 1 (R306). -/
def State.sweepSector (s : State) (d cblk : Nat) (rd : SectorRead) : State :=
  let r := s.detect d 0 cblk rd
  let s1 := s.countRead d 0 r
  if r.result = .failed then
    match s1.place d cblk with
    | some p => s1.writeSector d p.sector p.cyl cblk true (List.replicate 4096 0)
    | none => s1
  else s1

/-- A sector that would have to be rewritten waits for the write window (R304). -/
def State.sweepWaits (s : State) (d : Nat) (reads : List SectorRead) : Bool :=
  !s.inWindow d && (s.intentSectors d).zipIdx.any (fun e => (s.detect d 0 e.1 (reads.getD e.2 default)).result == .failed)

/-- The recovery sweep ends (R306): each listed sector that does not decode is rewritten with NODATA, the list is
cleared, and READY is set with the capacity that APPLY computed (R289, R308). -/
def effRecoverySweepDone (d : Nat) (reads : List SectorRead) (s : State) : State :=
  if (vget s.dsk d).sweeping = false ∨ s.sweepWaits d reads = true then s
  else
    let s1 := s.modDsk d (fun c => { c with wrote := [] })
    let s2 := s1.each (s.intentSectors d).zipIdx (fun t e => t.sweepSector d e.1 (reads.getD e.2 default))
    let cap := (vget s.dsk d).cap
    ((((s2.modDsk d (fun c => { c with intents := [], sweeping := false })).tornRefresh d).setReg (R.DSK_CAP_LO d)
      (BitVec.ofNat 32 cap)).setFld (F.DSK_CAP_HI_CAP d) (cap / 2 ^ 32)).setFlag (F.DSK_STATUS_READY d)

/-- READY falls: C reads 0 and a sweep in progress is given up (R289, R308, R320). -/
def State.dskUnready (s : State) (d : Nat) : State :=
  (((s.clrFlag (F.DSK_STATUS_READY d)).setReg (R.DSK_CAP_LO d) 0).setFld (F.DSK_CAP_HI_CAP d) 0).modDsk d (fun c => { c with
    sweeping := false })

/-- RELEASE (R289): READY is cleared unless a loaded volume, a request or a booking uses the channel. -/
def effDskRelease (d : Nat) (s : State) : State :=
  if (s.volOfChan d).isSome ∨ s.dskPending d ≠ 0 then s
  else s.dskUnready d

/-- A write to DSKd_CTRL. -/
def effDskCtrl (d : Nat) (v : Word) (s : State) : State :=
  let s1 := s.plainWrite (R.DSK_CTRL d) v
  let s2 := s1.when (F.DSK_CTRL_APPLY d |>.of v |> (· == 1)) (effDskApply d)
  s2.when (F.DSK_CTRL_RELEASE d |>.of v |> (· == 1)) (effDskRelease d)

/-- REMAPS and REPLACE follow the remap table; FS(234+4d) when REPLACE becomes 1 (R290). -/
def State.remapRefresh (s : State) (d : Nat) : State :=
  let n := (s.remaps d).length
  let rep := decide (s.fld (F.DSK_REMAPCNT_REMAP_THR d) < n)
  ((s.setFld (F.DSK_REMAPCNT_REMAPS d) n).putFlag (F.DSK_STATUS_REPLACE d) rep).raiseIf
    (rep && !s.flag (F.DSK_STATUS_REPLACE d)) (234 + 4 * d)

/-- A write with an out-of-range value is ignored and sets CFG_ERR (R308). -/
def State.dskChecked (s : State) (d k : Nat) (ok : Bool) (v : Word) : State :=
  if ok then s.plainWrite k v else s.setFlag (F.DSK_STATUS_CFG_ERR d)

/-- A write to a register of window DSKd (R289, R290, R308). -/
def wrDsk (d off : Nat) (v : Word) (s : State) : State :=
  let k := (0x40 + d) * 0x10000 + off
  let n := v.toNat
  if off = 0 then effDskCtrl d v s
  else if off = 0x10 ∨ off = 0x14 ∨ (0x200 ≤ off ∧ off < 0x400) then
    (if s.flag (F.DSK_STATUS_READY d) then s else s.plainWrite k v)
  else if off = 0x28 then
    s.dskChecked d k (inRange 1 4 (bits n 0 3) && inRange 1 12 (bits n 4 4) && inRange 1 6 (bits n 8 3)
      && inRange 1 60 (bits n 16 6)) v
  else if off = 0x2C then s.dskChecked d k (inRange 0 12 (bits n 0 4) && inRange 0 100 (bits n 8 7)) v
  else if off = 0x40 then
    (if bits n 16 13 ≤ 4096 then (s.plainWrite k v).remapRefresh d else s.setFlag (F.DSK_STATUS_CFG_ERR d))
  else if 0x100 ≤ off ∧ off < 0x130 ∧ off % 0x10 = 0 then
    s.dskChecked d k (inRange 19 58 (bits n 0 6) && inRange 0 24 (bits n 8 5)) v
  else if 0x8000 ≤ off then (s.plainWrite k v).remapRefresh d
  else s.plainWrite k v

/-- A write to a register of the STQ window (R266, R279). -/
def wrStq (off : Nat) (v : Word) (s : State) : State :=
  let k := 0x39 * 0x10000 + off
  let n := v.toNat
  if off = 0x20 then effVolcmd v s
  else if off = 0x14 then (if inRange 2 256 (bits n 0 9) && bits n 0 1 == 0 then s.plainWrite k v else s)
  else if 0x100 ≤ off ∧ off < 0x180 ∧ off % 0x10 = 0 then
    let vol := (off - 0x100) / 0x10
    let dch := s.fld (F.STQ_VOL_CFG_DCH vol)
    let s1 := s.plainWrite k v
    if s.volLoaded vol then s1.setFld (F.STQ_VOL_CFG_DCH vol) dch else s1
  else s.plainWrite k v

end Sys2Proof.Machine
end

