-- ==== Sys2Proof/Machine/Servo.lean ====
section
/-!
DEFINITION. Actuators: selvage frames, the write guard, parking and retract (R310 to R319), and the loss of a port's
rate lock (R333).
-/
namespace Sys2Proof.Machine

/-! ### Parking (R318, R319) -/

/-- A park of an actuator starts; one in progress is not restarted. -/
def State.park (s : State) (d : Nat) : State :=
  if (s.act d).parkAt ≠ none then s
  else s.modAct d (fun a => { a with parkAt := some s.now, vcm := s.sfld (F.SRV_PARKCFG_PARK_I (d / 2)) })

/-- An emergency park: EPARK, FS(264+2d), bit 2, RETRACT_N low, and a park. -/
def State.emergencyPark (s : State) (d : Nat) : State :=
  if s.hasDch d = false then s
  else
    ((((s.setFlag (F.SRV_ASTAT_EPARK (d / 2) (d % 2))).raise (264 + 2 * d)).srvEvent d 2).modPort (d / 2)
      (fun p => { p with retract := true })).park d

/-- Both actuators of a port parked and its spindle OFF (R320). -/
def State.portParked (s : State) (h : Nat) : Bool :=
  s.flag (F.SRV_ASTAT_PARKED h 0) && s.flag (F.SRV_ASTAT_PARKED h 1) && (vget s.mots (4 + h)).state == .off

/-- RLOCK falls (R333): bit 3 of the spindle's event group, and pending bookings whose slot has not begun are
missed. -/
def State.rlockFall (s : State) (h : Nat) : State :=
  if s.rlock h then
    (((s.clrFlag (F.SRV_SPSTAT_RLOCK h)).modPort h (fun p => { p with inTol := 0, outTol := 0, slotOn := false })).notify
      0x08 (4 + h) 8).missBookings h
  else s

/-- Every port locked to a station whose BD lock, or whose rate, is lost. -/
def State.rlockFallOn (s : State) (stn : Nat) : State :=
  s.each (List.range 4) (fun t h => if t.lstn h = stn then t.rlockFall h else t)

/-! ### The selvage frame (R311, R312) -/

/-- Cells `lo` to `lo + n − 1` of a frame as a number, the first cell highest. -/
def cellsOf (cells : BitVec 80) (lo n : Nat) : Nat := (List.range n).foldl (fun a i => 2 * a + bits cells.toNat (lo + i) 1) 0

/-- A dibit-coded field of `n` bits from cell `lo` on: 1 as 10, 0 as 01, most significant bit first; none where a dibit
is neither. -/
def dibits (cells : BitVec 80) (lo : Nat) : Nat → Option Nat
  | 0 => some 0
  | n + 1 =>
    match dibits cells lo n, cellsOf cells (lo + 2 * n) 2 with
    | some a, 2 => some (2 * a + 1)
    | some a, 1 => some (2 * a)
    | _, _ => none

/-- A Gray-coded number of `n` bits. -/
def ofGray (n g : Nat) : Nat := (List.range n).foldl (fun a i => a ^^^ (g / 2 ^ i)) 0

/-- Frame number and cylinder of a valid frame: SYNC within 2 cells of 0xE4D1, every dibit 10 or 01. -/
def ServoFrame.decode (fr : ServoFrame) : Option (Nat × Nat) :=
  if 2 < popc 16 (cellsOf fr.cells 0 16 ^^^ 0xE4D1) then none
  else match dibits fr.cells 16 12, dibits fr.cells 40 20 with
    | some n, some c => some (ofGray 12 n, ofGray 20 c)
    | _, _ => none

/-! ### Frames, samples and commands -/

/-- An invalid frame: counted in BADFR; 8 in a row set SEL_LOST (R312). -/
def State.badFrame (s : State) (d : Nat) : State :=
  let h := d / 2
  let a := d % 2
  let s1 := (s.addSat (F.SRV_ACNT_BADFR h a) 1).modAct d (fun k => { k with badRun := k.badRun + 1, okRun := 0 })
  if 8 ≤ (s1.act d).badRun ∧ s1.flag (F.SRV_ASTAT_SEL_LOST h a) = false then
    ((s1.setFlag (F.SRV_ASTAT_SEL_LOST h a)).modAct d (fun k => { k with
      selLostAt := if s.flag (F.SRV_ASTAT_PARKED h a) then none else some s.now })).unsettle d
  else s1

/-- One selvage frame (R312, R313, R316). The offset x of two bursts that are both 0 is open: a free value. -/
def effServoFrame (d : Nat) (fr : ServoFrame) (s : State) : State :=
  let h := d / 2
  let a := d % 2
  if s.hasDch d = false then s
  else match fr.decode with
  | none => s.badFrame d
  | some (frame, cyl) =>
    let sum : Int := fr.a.toNat + fr.b.toNat
    let x : Int := if sum = 0 then sx 8 s.freeWord.toNat
      else clampInt (-128) 127 (divRound (128 * ((fr.a.toNat : Int) - fr.b.toNat)) sum)
    let s0 := if sum = 0 then s.tookFree else s
    let t := s.tgtOf d
    let measured : Int := 256 * cyl + x - s.sfld (F.SRV_RDOFF_RDOFF h (16 * a + t.2.1))
    let pes := clampInt (-32767) 32767 (measured - (256 * t.1 + sx 8 t.2.2))
    let s1 := (s0.clrFlag (F.SRV_ASTAT_SEL_LOST h a)).modAct d (fun k => { k with
      badRun := 0, selLostAt := none, pes := pes, cyl := cyl, frame := frame, tFrame := s.now, fresh := true })
    let s2 := if s1.settled d ∧ cyl ≠ t.1 then
        (s1.setFlag (F.SRV_ASTAT_OFFCYL h a)).clrFlag (F.SRV_ASTAT_SETTLED h a) else s1
    s2.guardFrame d

/-- The 32-byte sample record of R314. -/
def State.sampleRecord (s : State) (d : Nat) : List Byte :=
  let a := s.act d
  entryOf 32 [(0x00, 4, ux 16 a.pes + a.samples % 2 ^ 16 * 2 ^ 16),
    (0x04, 4, a.cyl % 2 ^ 20 + (s.tgtOf d).2.1 * 2 ^ 20 + b2n a.fresh * 2 ^ 24
      + b2n (a.guardSeen || s.flag (F.SRV_ASTAT_GUARD (d / 2) (d % 2))) * 2 ^ 25 + b2n (s.settled d) * 2 ^ 26
      + b2n (s.flag (F.SRV_ASTAT_SEL_LOST (d / 2) (d % 2))) * 2 ^ 27),
    (0x08, 4, a.frame % 2 ^ 12), (0x0C, 4, ux 16 a.shkA + ux 16 a.shkB * 2 ^ 16), (0x10, 8, a.tFrame)]

/-- A sample (R314), at a multiple of 5,000 ns of press time and once at each: the record to the servo core's data RAM,
bit 0; one more interval since the last VCM write. -/
def effServoSample (d : Nat) (s : State) : State :=
  if s.hasDch d = false ∨ s.now % 5000 ≠ 0 ∨ (s.act d).sampleAt = some s.now then s
  else
    let base := bits (s.reg (R.SRV_SMPL (d / 2) (d % 2))).toNat 0 16
    let k := (s.act d).samples
    ((s.memWriteWords reqCore (dramBaseOf (16 + d) + base + 32 * (k % 16)) (s.sampleRecord d)).1.modAct d (fun a => { a with
      samples := a.samples + 1, sampleAt := some s.now, fresh := false, guardSeen := false, sinceVcm := a.sinceVcm + 1 })).srvEvent d 0

/-- A write to SRVh_VCM (R315): ignored while PARKED. While a park drives the amplifier only the watchdog restarts. -/
def effVcmWrite (d : Nat) (v : Word) (s : State) : State :=
  if s.flag (F.SRV_ASTAT_PARKED (d / 2) (d % 2)) then s
  else s.modAct d (fun a => { a with
    sinceVcm := 0, vcm := if a.parkAt = none then sx 16 v.toNat else a.vcm })

/-- The watchdog of R315: VCM_WD sample intervals without a write while not PARKED. -/
def effVcmWatchdog (d : Nat) (s : State) : State :=
  if s.hasDch d = false ∨ s.flag (F.SRV_ASTAT_PARKED (d / 2) (d % 2)) = true
      ∨ (s.act d).sinceVcm < max 1 (s.fld (F.SRV_ACFG_VCM_WD (d / 2) (d % 2))) then s
  else
    ((s.setFlag (F.SRV_ASTAT_WD (d / 2) (d % 2))).modAct d (fun a => { a with sinceVcm := 0 })).emergencyPark d

/-- A write to SRVh_TRK (R316): equal to the target it sets SETTLED, else it is ignored with CMD_REJ. -/
def effSrvTrkWrite (d : Nat) (v : Word) (s : State) : State :=
  if v = s.reg (R.SRV_TGT (d / 2) (d % 2)) then
    (s.setReg (R.SRV_TRK (d / 2) (d % 2)) v).settleOn d
  else s.setFlag (F.SRV_ASTAT_CMD_REJ (d / 2) (d % 2))

/-- Code of a shock input of `uv` µV (R479). DEDUCED (log entry 142): rounded down, as the codes beside it are. -/
def shkCode (uv : Int) : Int := clampInt (-32767) 32767 ((uv - 900000) * 32767 / 900000)

/-- One 1 MHz sample of a port's shock inputs, in µV (R317). -/
def effShockSample (h : Nat) (a b : Int) (s : State) : State :=
  if s.hasHda h = false then s
  else s.each [2 * h, 2 * h + 1] (fun t d =>
    (t.modAct d (fun k => { k with shkA := shkCode a, shkB := shkCode b })).guardJudge d)

/-- UNPARK of an actuator (R318): refused with CMD_REJ unless the spindle is in RUN. RETRACT_N is released. -/
def State.unpark (s : State) (d : Nat) : State :=
  if (vget s.mots (4 + d / 2)).state ≠ .run then
    (s.setFlag (F.SRV_ASTAT_CMD_REJ (d / 2) (d % 2))).setFlag (F.SRV_SPSTAT_CMD_REJ (d / 2))
  else
    ((s.clrFlag (F.SRV_ASTAT_PARKED (d / 2) (d % 2))).modAct d (fun a => { a with
      sinceVcm := 0
      selLostAt := if s.flag (F.SRV_ASTAT_SEL_LOST (d / 2) (d % 2)) then some (a.selLostAt.getD s.now) else none })).modPort
      (d / 2) (fun p => { p with retract := false })

/-- A write to SRVh_CTRL: UNPARK bits, then PARK bits (R318, R334). -/
def effSrvCtrl (h : Nat) (v : Word) (s : State) : State :=
  let s1 := s.each (setBitsOf 2 (F.SRV_CTRL_UNPARK h |>.of v)) (fun t a => t.unpark (2 * h + a))
  s1.each (setBitsOf 2 (F.SRV_CTRL_PARK h |>.of v)) (fun t a => t.park (2 * h + a))

/-- A park ends after PARK_MS (R318). -/
def effParkComplete (d : Nat) (s : State) : State :=
  match (s.act d).parkAt with
  | none => s
  | some t =>
    if t + 1000000 * s.fld (F.SRV_PARKCFG_PARK_MS (d / 2)) ≤ s.now then
      ((s.setFlag (F.SRV_ASTAT_PARKED (d / 2) (d % 2))).modAct d (fun a => { a with
        parkAt := none, vcm := 0, selLostAt := none })).unsettle d
    else s

/-- SEL_LOST held for 1 ms while not PARKED (R319). -/
def effSelLostTimeout (d : Nat) (s : State) : State :=
  match (s.act d).selLostAt with
  | none => s
  | some t =>
    if t + 1000000 ≤ s.now ∧ s.flag (F.SRV_ASTAT_PARKED (d / 2) (d % 2)) = false then
      (s.modAct d (fun a => { a with selLostAt := none })).emergencyPark d
    else s

end Sys2Proof.Machine
end

