-- ==== Sys2Proof/Machine/Drive.lean ====
section
/-!
DEFINITION. Motors (R321 to R333) and half-bridges (R337 to R351): states, speeds, the commutation engine's switch
commands, the interlock, protection, and what a gate fault does to its source.
-/
namespace Sys2Proof.Machine

/-! ### Speeds -/

/-- The motor's object is open. -/
def State.motOpen (s : State) (n : Nat) : Bool := s.isOpen 0x08 n

/-- A fraction times a number, floored; 0 for a zero divisor. -/
def fracMul (a : Nat × Nat) (k : Nat) : Nat := if a.2 = 0 then 0 else a.1 * k / a.2

/-- The measured facet period of a station in ns: from FPER while a pulse interval has been measured, else nominal. -/
def State.facetMeasured (s : State) (i : Nat) : Nat × Nat :=
  let f := (vget s.exp i).fper
  if f = 0 then s.facetNs i else (f * 1000000000 * (s.pixHz i).2, 64 * (s.pixHz i).1)

/-- The polygon speed of the job on a station in 1/16 rpm (R115, R330). -/
def State.polyTarget (s : State) (i : Nat) : Nat :=
  let p := s.facetNs i
  if p.1 = 0 then 0 else 960 * 1000000000 * p.2 / (p.1 * s.facetsOn i)

/-- The rate-lock target of a port in 1/16 rpm: L × 60 / LPR (R331). -/
def State.spinTarget (s : State) (h : Nat) : Nat :=
  let i := s.lstn h
  let p := s.facetMeasured i
  if p.1 = 0 ∨ s.fld (F.SRV_SPIN_LPR h) = 0 then 0
  else 960 * 1000000000 * s.linesPerFacet i * p.2 / (p.1 * s.fld (F.SRV_SPIN_LPR h))

/-- The allowed range of a port's spindle in 1/16 rpm (R331). -/
def State.spinRange (s : State) (h : Nat) : Nat × Nat :=
  let ready := [2 * h, 2 * h + 1].filter (fun d => s.flag (F.DSK_STATUS_READY d))
  (16 * ready.foldl (fun a d => max a (s.fld (F.DSK_RPM_RPM_MIN d))) 3600,
   16 * ready.foldl (fun a d => min a (s.fld (F.DSK_RPM_RPM_MAX d))) (min 10800 (vget s.mots (4 + h)).rpmMax))

/-- The motor runs under rate lock. -/
def State.rateLocked (s : State) (n : Nat) : Bool :=
  decide (4 ≤ n) && decide (n < 8) && (vget s.mots n).mode == 2 && s.flag (F.SRV_SPIN_RLOCK_EN (n - 4))

/-- The commanded speed in 1/16 rpm (R329 to R331), limited to RPM_MAX. -/
def State.cmdSpeed (s : State) (n : Nat) : Nat :=
  let m := vget s.mots n
  let raw :=
    if n < 4 ∧ m.mode = 1 ∧ (s.jobOn n).isSome = true then s.polyTarget n
    else if s.rateLocked n then
      let r := s.spinRange (n - 4)
      max r.1 (min r.2 (s.spinTarget (n - 4)))
    else s.fld (F.MOT_TGT_TGT n)
  min raw (16 * m.rpmMax)

/-- The measured speed in 1/16 rpm (R326); a polygon's from FPER while BD_LOCK = 1 (R330). -/
def State.measSpeed (s : State) (n : Nat) : Nat :=
  if n < 4 ∧ (vget s.mots n).mode = 1 ∧ s.flag (F.EXP_STATUS_BD_LOCK n) = true ∧ (vget s.exp n).fper ≠ 0 then
    s.polyTarget n * (64 * s.fld (F.EXP_FACETPX_FACET_PX n)) / (vget s.exp n).fper
  else (vget s.mots n).speed

/-- RANGE_ERR follows the target of a port's rate lock; RLOCK falls when it becomes 1 (R331, R332). -/
def State.rangeRefresh (s : State) (h : Nat) : State :=
  let r := s.spinRange h
  let t := s.spinTarget h
  let bad := s.rateLocked (4 + h) && (decide (t < r.1) || decide (r.2 < t))
  let s1 := s.putFlag (F.SRV_SPSTAT_RANGE_ERR h) bad
  if bad then s1.rlockFall h else s1

/-! ### What the commutation engine commands (R321, R322, R338) -/

/-- High and low phase of a step: 0 U, 1 V, 2 W (R322). -/
def stepPhases (k : Nat) : Nat × Nat :=
  if k = 1 then (0, 1) else if k = 2 then (0, 2) else if k = 3 then (1, 2) else if k = 4 then (1, 0)
  else if k = 5 then (2, 0) else (2, 1)

/-- The step after `k`: 1 to 6 upward, or downward with DIR = 1. -/
def nextMotStep (dir : Bool) (k : Nat) : Nat :=
  if dir then (if k ≤ 1 then 6 else k - 1) else (if 6 ≤ k then 1 else k + 1)

/-- The floating phase of step `k` crosses the star point rising: the even steps with DIR = 0, the odd ones with
DIR = 1 (R322). -/
def zcRising (dir : Bool) (k : Nat) : Bool := (k % 2 == 0) != dir

/-- The outputs that the step of a motor commands for a phase: high, low (R321, R328). The high side is modulated
besides. -/
def MotSt.phaseCmd (m : MotSt) (phase : Nat) : Bool × Bool :=
  match m.state with
  | .align | .ramp | .run =>
    if m.step = 0 then (false, false)
    else (decide ((stepPhases m.step).1 = phase), decide ((stepPhases m.step).2 = phase))
  | .brake => (false, true)
  | .off | .fault => (false, false)

/-- The modulation of a motor's high side at this press time: on for duty D of each PWM period (R321). -/
def State.pwmHigh (s : State) (n : Nat) : Bool :=
  let m := vget s.mots n
  decide ((s.now - m.pwmAt) * s.fld (F.MOT_CFG_PWM_KHZ n) % 1000000 * 1024 < m.duty * 1000000)

/-- What a motor commands of a phase at this press time: high, low. -/
def State.motCmd (s : State) (n phase : Nat) : Bool × Bool :=
  let c := (vget s.mots n).phaseCmd phase
  (c.1 && s.pwmHigh n, c.2)

/-- Outputs MOTn_xH and MOTn_xL of MC0 to MC7 (R321): each goes high no sooner than DT after the other was turned
off. -/
def State.motPins (s : State) (n phase : Nat) : Bool × Bool :=
  let c := s.motCmd n phase
  let o := vget (vget s.mots n).outs phase
  let dt := 10 * s.fld (F.MOT_CFG_DT n)
  (c.1 && !o.lo && decide (o.loOff + dt ≤ s.now), c.2 && !o.hi && decide (o.hiOff + dt ≤ s.now))

/-- A phase's outputs follow its command; a turn-off is timed. -/
def PhaseOut.follow (o : PhaseOut) (c : Bool × Bool) (now : Nat) : PhaseOut :=
  ⟨c.1, c.2, if o.hi && !c.1 then now else o.hiOff, if o.lo && !c.2 then now else o.loOff⟩

/-! ### Half-bridges -/

def State.hbSrc (s : State) (k : Nat) : Nat := s.fld (F.GDR_HB_CFG_SRC k)
def State.hbEn (s : State) (k : Nat) : Bool := s.flag (F.GDR_HB_CFG_EN k)
def State.hbFault (s : State) (k : Nat) : Bool := s.flag (F.GDR_HB_STATUS_FAULT k)

/-- The square waves of an inverter bridge at this press time: leg 1 high for the first half of its period, leg 2 later by
PHASE / 256 of a half-period (R350). In units of 1/512 period, times 1,000,000. -/
def State.invHigh (s : State) (j leg : Nat) : Bool :=
  let v := vget s.invs j
  let x := (s.now - v.since) * v.khz * 512
  decide ((x + (if leg = 0 then 0 else 512000000 - v.phase * 1000000)) % 512000000 < 256000000)

/-- What a half-bridge's source commands: high, low (R337, R338, R350). -/
def State.srcCmd (s : State) (k : Nat) : Bool × Bool :=
  match s.hbSrc k with
  | 1 => s.motCmd (8 + k / 3) (k % 3)
  | 2 =>
    if (vget s.invs ((k - 24) / 2)).running then
      (s.invHigh ((k - 24) / 2) (k % 2), !s.invHigh ((k - 24) / 2) (k % 2))
    else (false, false)
  | 3 => (s.flag (F.GDR_HB_MAN_HI k), s.flag (F.GDR_HB_MAN_LO k))
  | _ => (false, false)

/-- One switch off: its output falls and the instant is kept for DT and the off-confirmation (R340, R342). -/
def State.switchOff (s : State) (k : Nat) (high : Bool) : State :=
  if high then (s.clrFlag (F.GDR_HB_STATUS_HION k)).modHb k (fun b => { b with cmdHi := false, offHi := s.now, watchHi := false })
  else (s.clrFlag (F.GDR_HB_STATUS_LOON k)).modHb k (fun b => { b with cmdLo := false, offLo := s.now, watchLo := false })

/-- Both switches off. -/
def State.hbOff (s : State) (k : Nat) : State := (s.switchOff k true).switchOff k false

/-- The source's commands reach a half-bridge: a withdrawn command turns its switch off at once, a new one waits for
the interlock (R340). -/
def State.hbApply (s : State) (k : Nat) : State :=
  let c := s.srcCmd k
  let b := vget s.hbs k
  let s1 := if b.cmdHi && !c.1 then s.switchOff k true else s
  let s2 := if b.cmdLo && !c.2 then s1.switchOff k false else s1
  s2.modHb k (fun x => { x with cmdHi := c.1, cmdLo := c.2 })

/-- The half-bridges of motor n (R321). -/
def motHbs (n : Nat) : List Nat := if 8 ≤ n ∧ n < 16 then [3 * (n - 8), 3 * (n - 8) + 1, 3 * (n - 8) + 2] else []

/-- A motor's outputs, or the half-bridges it drives, follow its state. -/
def State.motSync (s : State) (n : Nat) : State :=
  (s.modMot n (fun m => { m with outs := Vector.ofFn (fun i : Fin 3 => m.outs[i].follow (m.phaseCmd i) s.now) })).each ((motHbs n).filter (fun k => s.hbSrc k == 1)) (fun t k => t.hbApply k)

/-- A motor enters a state; a spindle leaving RUN loses its rate lock and parks its port's heads (R319, R332). -/
def State.motState (s : State) (n : Nat) (st : MotState) (f : MotSt → MotSt) : State :=
  let was := (vget s.mots n).state
  let s1 := (s.modMot n (fun m => f { m with state := st, cmdSince := none })).motSync n
  let s2 := if st = .run then s1 else (s1.clrFlag (F.MOT_STATUS_VLIMIT n)).clrFlag (F.MOT_STATUS_ATSPEED n)
  if was = .run ∧ st ≠ .run ∧ 4 ≤ n ∧ n < 8 then
    (((s2.rlockFall (n - 4)).emergencyPark (2 * (n - 4))).emergencyPark (2 * (n - 4) + 1))
  else s2

/-- Every output of a motor off. -/
def State.motOff (s : State) (n : Nat) : State :=
  s.motState n .off (fun m => { m with step := 0, duty := 0, zcAt := none })

/-- A motor into FAULT: outputs off, event bit 1 (R325, R327, R348). -/
def State.motFault (s : State) (n : Nat) : State :=
  (s.motState n .fault (fun m => { m with step := 0, duty := 0, zcAt := none })).notify 0x08 n 2

/-- A motor into BRAKE: every low side on (R328). -/
def State.motBrake (s : State) (n : Nat) : State :=
  s.motState n .brake (fun m => { m with step := 0, duty := 0, zcAt := none })

/-- A motor is energised in ALIGN, RAMP or RUN. -/
def MotSt.driven (m : MotSt) : Bool := m.state == .align || m.state == .ramp || m.state == .run

/-- The base reaction "safe-stop motors", and a drydown: every motor in ALIGN, RAMP or RUN brakes (R328). -/
def State.brakeAll (s : State) : State :=
  s.each (List.range 16) (fun t n => if (vget t.mots n).driven then t.motBrake n else t)

/-! ### Gate faults (R346 to R348) -/

/-- The causes a half-bridge latches. -/
inductive HbCause where
  | desatH | desatL | hshort | cross | bus | stuck | hsuv
  deriving DecidableEq, Repr

/-- The cause's bit in GDR_HBk_STATUS. -/
def HbCause.fld (c : HbCause) (k : Nat) : Fld :=
  match c with
  | .desatH => F.GDR_HB_STATUS_DESAT_H k
  | .desatL => F.GDR_HB_STATUS_DESAT_L k
  | .hshort => F.GDR_HB_STATUS_HSHORT k
  | .cross => F.GDR_HB_STATUS_CROSS k
  | .bus => F.GDR_HB_STATUS_BUS k
  | .stuck => F.GDR_HB_STATUS_STUCK k
  | .hsuv => F.GDR_HB_STATUS_HSUV k

/-- The fault sources of a cause on a half-bridge (R367). -/
def hbSources (k : Nat) (c : HbCause) : List Nat :=
  (if k < 24 then (match c with | .cross | .bus => [] | _ => [320]) else if k < 28 then [321] else [322])
    ++ (if c = .cross then [323] else [])

/-- An inverter bridge stops: RUN = 0, both legs off at once (R350). -/
def State.invStop (s : State) (j : Nat) : State :=
  let s1 := (s.clrFlag (F.GDR_INV_CTRL_RUN j)).modInv j (fun v => { v with running := false })
  s1.each [24 + 2 * j, 25 + 2 * j] (fun t k => if t.hbSrc k = 2 then t.hbApply k else t)

/-- What a gate fault does to its source (R348). -/
def State.srcFault (s : State) (k : Nat) : State :=
  match s.hbSrc k with
  | 1 => if k < 24 then (if (vget s.mots (8 + k / 3)).state = .fault then s else s.motFault (8 + k / 3)) else s
  | 2 => s.invStop ((k - 24) / 2)
  | _ => s

/-- A cause is latched (R346): the first sets FAULT, turns both switches off and raises its sources; later ones only
set their bits. A half-bridge with EN = 0, or without the ownership token, raises no fault (R337, R339). -/
def State.hbLatch1 (s : State) (k : Nat) (c : HbCause) : State :=
  if s.hbEn k = false ∨ s.holdsToken = false then s
  else if s.hbFault k then (s.setFlag (c.fld k)).modHb k (fun b => { b with latchAt := some s.now })
  else
    (((((s.modHb k (fun b => { b with latchAt := some s.now })).setFlag (c.fld k)).setFlag (F.GDR_HB_STATUS_FAULT k)).hbOff k).srcFault k).each (hbSources k c) State.raise

/-- COINC in ns; 0 acts as 1 (R351). -/
def State.coinc (s : State) : Nat := 100 * max 1 (s.fld F.GDR_HS_COINC)

/-- A short on a half-bridge (DESAT or HSHORT): a bus fault if another of its bus shorted within COINC (R347). -/
def State.hbShort (s : State) (k : Nat) (c : HbCause) : State :=
  let fresh := s.hbEn k && s.holdsToken && !s.hbFault k
  let s1 := s.hbLatch1 k c
  if fresh = false then s1
  else
    let s2 := s1.modHb k (fun b => { b with shortAt := some s.now })
    let bus := s.fld (F.GDR_HB_CFG_BUS k)
    let same := (List.range 32).filter (fun j => s2.hbEn j && s2.fld (F.GDR_HB_CFG_BUS j) == bus)
    let matched := same.any (fun j => j != k && s2.hbFault j && (match (vget s2.hbs j).shortAt with
      | some t => decide (s2.now ≤ t + s2.coinc)
      | none => false))
    if matched && !bit (s2.fld F.GDR_STATUS_BUSF) bus then
      ((s2.setFld F.GDR_STATUS_BUSF (setBit (s2.fld F.GDR_STATUS_BUSF) bus)).raise 324).each same (fun t j => t.hbLatch1 j .bus)
    else s2

/-- A half-bridge follows its source, and latches CROSS if both switches are commanded on (R341). -/
def State.hbSync (s : State) (k : Nat) : State :=
  let c := s.srcCmd k
  if c.1 && c.2 then
    (if s.hbEn k ∧ s.holdsToken = true then s.hbLatch1 k .cross else s.hbOff k)
  else s.hbApply k

/-- Without the ownership token every gate output is low; the command state is kept (R339). -/
def State.gatesLow (s : State) : State :=
  s.each (List.range 32) (fun t k => (t.clrFlag (F.GDR_HB_STATUS_HION k)).clrFlag (F.GDR_HB_STATUS_LOON k))

end Sys2Proof.Machine
end

