-- ==== Sys2Proof/Machine/Lace.lean ====
section
/-!
DEFINITION. Lace maps and masks (R143 to R148), dead maps, cutovers and substitution (R152 to R157).
-/
namespace Sys2Proof.Machine

/-- Lace and protection state of station `i`. -/
def State.lc (s : State) (i : Nat) : LacSt := vget s.lac i

/-- Scan state of station `i`. -/
def State.ex (s : State) (i : Nat) : ExpSt := vget s.exp i

/-! ### Map and masks (R143 to R146) -/

/-- LOFF of beam `b`. -/
def State.loff (s : State) (i b : Nat) : Nat := s.fld (F.LAC_MAP_LOFF i b)

/-- The writers of a class in a `p`-pass job, in pass order: decreasing LOFF (R143, R144). -/
def State.writers (s : State) (i p cls : Nat) : List Nat :=
  let w := (List.range 128).filter (fun b => s.loff i b % (128 / p) == cls)
  w.mergeSort (fun a b => decide (s.loff i b ≤ s.loff i a))

/-- Span of the map: the largest LOFF plus 1 (R144). -/
def State.span (s : State) (i : Nat) : Nat := (List.range 128).foldl (fun a b => max a (s.loff i b + 1)) 0

/-- Bit of pass `q`'s mask at row `t`, column `j` (R145). -/
def State.maskBit (s : State) (i q t j : Nat) : Bool :=
  bit (s.fld (F.LAC_MASK_BITS i (64 * q + 2 * t + j / 32))) (j % 32)

/-- Row `t` of pass `q`, 64 columns. -/
def State.maskRow (s : State) (i q t : Nat) : Nat :=
  s.fld (F.LAC_MASK_BITS i (64 * q + 2 * t)) + s.fld (F.LAC_MASK_BITS i (64 * q + 2 * t + 1)) * 2 ^ 32

/-! ### The legality check (R147, R148) -/

/-- The first failing rule: RULE, INDEX, COL, PASS. -/
structure LaceFail where
  rule : Nat
  index : Nat
  col : Nat
  pass : Nat
  deriving DecidableEq, Repr

/-- Bits set in two or more of the rows, and in one or more. -/
def overlapOf (rows : List Nat) : Nat × Nat :=
  rows.foldl (fun a r => (a.1 ||| (a.2 &&& r), a.2 ||| r)) (0, 0)

/-- Rules 4 and 5 at row `t`, rule 4 before rule 5 over the whole tile. -/
def State.rowOverlap (s : State) (i p t : Nat) : Option LaceFail :=
  match lowestBit 64 (overlapOf ((List.range p).map (fun q => s.maskRow i q t))).1 with
  | none => none
  | some j => some ⟨4, t, j, ((List.range p).filter (fun q => s.maskBit i q t j)).getD 1 0⟩

def State.rowGap (s : State) (i p t : Nat) : Option LaceFail :=
  (lowestBit 64 (2 ^ 64 - 1 - (overlapOf ((List.range p).map (fun q => s.maskRow i q t))).2)).map
    (fun j => ⟨5, t, j, 0⟩)

def State.rowExtra (s : State) (i p t : Nat) : Option LaceFail :=
  (((List.range 4).filter (fun q => decide (p ≤ q))).find? (fun q => s.maskRow i q t != 0)).map (fun q => ⟨6, t, 0, q⟩)

/-- The first rule of R147 that fails for `p` passes. -/
def State.laceCheck (s : State) (i p : Nat) : Option LaceFail :=
  let m := 128 / p
  let cls (r : Nat) : List Nat := ((List.range 128).map (fun b => s.loff i b)).filter (fun l => l % m == r)
  match (List.range m).find? (fun r => (cls r).length != p) with
  | some r => some ⟨1, r, 0, 0⟩
  | none =>
    match (List.range 128).find? (fun b => (List.range b).any (fun a => s.loff i a == s.loff i b)) with
    | some b => some ⟨2, b, 0, 0⟩
    | none =>
      match (List.range m).find? (fun r => (cls r).all (fun l => l != r)) with
      | some r => some ⟨3, r, 0, 0⟩
      | none =>
        match (List.range 32).findSome? (s.rowOverlap i p) with
        | some f => some f
        | none =>
          match (List.range 32).findSome? (s.rowGap i p) with
          | some f => some f
          | none => (List.range 32).findSome? (s.rowExtra i p)

/-- A result as LACs_CHKp shows it. -/
def LaceFail.word : Option LaceFail → Word
  | none => 0
  | some f => BitVec.ofNat 32 (f.rule + f.index % 128 * 2 ^ 4 + f.col * 2 ^ 16 + f.pass * 2 ^ 24)

/-- The pass of beam `b` in a `p`-pass job: how many writers of its class have a larger LOFF (R144). -/
def State.passOf (s : State) (i p b : Nat) : Nat :=
  ((List.range 128).filter (fun c => s.loff i c % (128 / p) == s.loff i b % (128 / p)
    && decide (s.loff i b < s.loff i c))).length

/-- LEGALITY_CHECK_DONE (R148): the three results, and PASS2 and PASS4 of a legal map. -/
def effLegalityCheckDone (i : Nat) (s : State) : State :=
  if s.flag (F.LAC_STATUS_CHK_BUSY i) = false then s
  else
    let c1 := s.laceCheck i 1
    let c2 := s.laceCheck i 2
    let c4 := s.laceCheck i 4
    let s1 := (((s.setReg (R.LAC_CHK1 i) (LaceFail.word c1)).setReg (R.LAC_CHK2 i) (LaceFail.word c2)).setReg
      (R.LAC_CHK4 i) (LaceFail.word c4)).clrFlag (F.LAC_STATUS_CHK_BUSY i)
    let s2 := ((s1.putFlag (F.LAC_STATUS_OK1 i) c1.isNone).putFlag (F.LAC_STATUS_OK2 i) c2.isNone).putFlag
      (F.LAC_STATUS_OK4 i) c4.isNone
    let s3 := if c2.isNone then s2.each (List.range 128) (fun t b => t.setFld (F.LAC_MAP_PASS2 i b) (s.passOf i 2 b)) else s2
    if c4.isNone then s3.each (List.range 128) (fun t b => t.setFld (F.LAC_MAP_PASS4 i b) (s.passOf i 4 b)) else s3

/-- A write to LAC_MAP or LAC_MASK (R148, R149): locked while a job names the station, else the check runs again. -/
def effLaceWrite (i off : Nat) (v : Word) (s : State) : State :=
  if s.inJob i then s.setFlag (F.LAC_STATUS_CFG_BUSY i)
  else (s.plainWrite (0x240000 + 0x10000 * i + off) v).setFlag (F.LAC_STATUS_CHK_BUSY i)

/-! ### Dead maps (R152 to R157) -/

/-- The requested dead map, LACs_DEAD. -/
def State.deadReq (s : State) (i : Nat) : Nat :=
  (List.range 4).foldl (fun a k => a + s.fld (F.LAC_DEAD_BEAMS i k) * 2 ^ (32 * k)) 0

/-- A 128-bit map shown in four registers. -/
def State.showMap (s : State) (k : Nat → Nat) (m : Nat) : State :=
  s.each (List.range 4) (fun t j => t.setReg (k j) (BitVec.ofNat 32 (m / 2 ^ (32 * j))))

/-- The cutover whose dead map and lanes hold for a line: the newest not later than the facet in which the line's pass
p0 is written (R152, R153). Beam `b` writes the line in the facet in progress; p0's beam, whose LOFF is the class's
largest, wrote it (LOFF_p0 − LOFF_b) / M facets before. Before the first cutover nothing is dead. -/
def State.cutFor (s : State) (i p b : Nat) : Cutover :=
  let lead := match (s.writers i p (s.loff i b % (128 / p))).head? with | some w => s.loff i w | none => s.loff i b
  let back := (lead - s.loff i b) / (128 / p)
  ((s.lc i).cutovers.find? (fun x => decide (x.facet + back ≤ (s.ex i).ord))).getD ⟨0, 0, []⟩

/-- Substitution capacity of a pass count (R154). -/
def subCap (p : Nat) : Nat := if p = 2 then 8 else if p = 4 then 24 else 0

/-- Lanes one dead emitter takes (R154). -/
def lanesPer (p : Nat) : Nat := if p = 2 then 3 else 1

/-- A dead emitter can be substituted: some writer of its class is alive (R154). -/
def State.substitutable (s : State) (i p dead b : Nat) : Bool :=
  decide (1 < p) && (s.writers i p (s.loff i b % (128 / p))).any (fun w => !bit dead w)

/-- Lanes assigned at a cutover (R154): holders keep theirs, newly dead emitters follow in ascending order, then, from
the lanes that were free before, dead emitters without one. At the first facet of a job with another pass count all are
assigned anew in ascending order. -/
def State.assignLanes (s : State) (i p dead old : Nat) : List Nat :=
  let held := (s.lc i).lanes
  let cand (f : Nat → Bool) : List Nat := (setBitsOf 128 dead).filter (fun b => f b && s.substitutable i p dead b)
  if (s.lc i).lanesP ≠ p then (cand (fun _ => true)).take (subCap p)
  else
    let keep := held.filter (fun b => bit dead b && s.substitutable i p dead b)
    let new := (cand (fun b => !bit old b && !keep.contains b)).take (subCap p - keep.length)
    let spare := subCap p - held.length - new.length
    keep ++ new ++ (cand (fun b => bit old b && !keep.contains b)).take (min spare (subCap p - keep.length - new.length))

/-- REPLACE and the capacity, which follow the pass count in force (R157): FS(118+8s) when REPLACE rises. -/
def State.lacReplace (s : State) (i : Nat) : State :=
  let p := s.passesOn i
  let rep := decide (subCap p < 2 * popc 128 (s.lc i).deadEff)
  ((s.setFld (F.LAC_SUB_CAP i) (subCap p)).raiseIf (rep && !s.flag (F.LAC_STATUS_REPLACE i)) (118 + 8 * i)).putFlag
    (F.LAC_STATUS_REPLACE i) rep

/-- What the LAC shows of the dead map in effect and its lanes (R154 to R157): DEADEFF, SUB, UNSUB and REPLACE, with
FS(118+8s) when an emitter becomes unsubstituted or REPLACE rises. -/
def State.lacShow (s : State) (i : Nat) : State :=
  let c := s.lc i
  let unsub := (setBitsOf 128 c.deadEff).filter (fun b => !c.lanes.contains b)
  let um := unsub.foldl (fun a b => a + 2 ^ b) 0
  let old := (List.range 4).foldl (fun a k => a + s.fld (F.LAC_UNSUB_BEAMS i k) * 2 ^ (32 * k)) 0
  let s1 := (s.showMap (R.LAC_DEADEFF i) c.deadEff).showMap (R.LAC_UNSUB i) um
  let s2 := ((s1.setFld (F.LAC_SUB_LANES i) (c.lanes.length * lanesPer c.lanesP)).setFld
    (F.LAC_SUB_DEAD i) (popc 128 c.deadEff)).setFld (F.LAC_SUB_UNSUB i) unsub.length
  (s2.raiseIf (unsub.any (fun b => !bit old b)) (118 + 8 * i)).lacReplace i

/-- A dead map and its lanes come into effect at the facet in progress. -/
def State.takeMap (s : State) (i dead : Nat) : State :=
  let p := s.passesOn i
  let lanes := s.assignLanes i p dead (s.lc i).deadEff
  (s.modLac i (fun x => { x with
    deadEff := dead, lanes := lanes, lanesP := p
    cutovers := (Cutover.mk (s.ex i).ord dead lanes :: x.cutovers).take 64 })).lacShow i

/-- The first facet of a job with another pass count: lanes are assigned anew (R154). -/
def State.lanesForPass (s : State) (i : Nat) : State :=
  if (s.lc i).lanesP = s.passesOn i then s else s.takeMap i (s.lc i).deadEff

/-- The cutover at a facet origin (R152): the newest map written at least 20 µs before it takes effect. -/
def State.cutover (s : State) (i : Nat) : State :=
  let c := s.lc i
  let e := s.ex i
  match c.pend.find? (fun w => decide (w.1 + 20000 ≤ e.origin)) with
  | none => s
  | some w =>
    let left := c.pend.filter (fun x => decide (e.origin < x.1 + 20000))
    ((s.modLac i (fun x => { x with pend := left, cutl := e.cf })).putFlag (F.LAC_STATUS_DEAD_PEND i) (!left.isEmpty)).takeMap
      i w.2

/-- A write to LACs_DEAD (R152). -/
def effDeadMapWrite (i k : Nat) (v : Word) (s : State) : State :=
  let s1 := s.setReg (R.LAC_DEAD i k) v
  if s1.deadReq i = s.deadReq i then s1
  else (s1.modLac i (fun c => { c with pend := (s.now, s1.deadReq i) :: c.pend })).setFlag (F.LAC_STATUS_DEAD_PEND i)

/-- Whether the beam's pass fires a dot of line `l` at column `col` (R145, R153), given the pass count and the cutover
that holds for the line: fired, and whether a dot this beam owns is lost. -/
def State.dotFires (s : State) (i p b l col : Nat) (cut : Cutover) : Bool × Bool :=
  let w := s.writers i p (s.loff i b % (128 / p))
  let owner := ((List.range p).find? (fun q => s.maskBit i q (l % 32) (col % 64))).getD 0
  let me := s.passOf i p b
  let ow := w.getD owner b
  let dead (x : Nat) : Bool := bit cut.dead x
  let subst (x : Nat) : Bool := cut.lanes.contains x && w.any (fun y => !dead y)
  if dead b then (false, owner == me && !(subst b))
  else if !dead ow then (owner == me, false)
  else if subst ow then
    let alive := (List.range p).filter (fun q => !dead (w.getD q 0))
    (alive.getD (col % alive.length) p == me, false)
  else (false, false)

end Sys2Proof.Machine
end

