-- ==== Sys2Proof/Machine/HeadCode.lean ====
section
/-!
DEFINITION. What travels on an exposure link: the 128b/130b blocks of the forward lanes (R170), firing-code frames
(R171), facet-start marks (R174), control commands (R175), and the packets of the back channel (R176).
-/
namespace Sys2Proof.Machine

/-! ### Forward blocks (R170) -/

/-- The 130 bits of a block, the header first. -/
def LaneBlock.wire130 (b : LaneBlock) : Nat := b.sync + b.bits * 4

/-- The control types. -/
inductive BlockType where
  | idle | fsm | ctl | trn | frh
  deriving DecidableEq, Repr

def BlockType.code : BlockType → Nat
  | .idle => 0x1E | .fsm => 0x2D | .ctl => 0x33 | .trn => 0x4B | .frh => 0x78

/-- What the head makes of a block: a data block, a control block of a known type, or discarded and counted. -/
def headBlock (sync bits : Nat) : Option (Option BlockType) :=
  if sync = 1 then some none
  else if sync = 2 then
    ([BlockType.idle, .fsm, .ctl, .trn, .frh].find? (fun t => t.code == bits % 256)).map some
  else none

/-- Blocks put on the link: block i goes to lane i mod 4. -/
def ElkSt.put (k : ElkSt) (l : List (Bool × Nat)) : ElkSt :=
  l.foldl (fun x b => { x with
    blockNo := x.blockNo + 1, wire := (LaneBlock.mk (x.blockNo % 4) b.1 (b.2 % 2 ^ 128) :: x.wire).take 64 }) k

/-- A number placed at a bit position with a width. -/
def fieldAt (lo width v : Nat) : Nat := v % 2 ^ width * 2 ^ lo

/-- Facet-start mark (R174). -/
def Fsm.bits (f : Fsm) : Nat :=
  BlockType.fsm.code + fieldAt 8 4 f.facet + fieldAt 16 24 f.lead + fieldAt 40 7 f.pfirst + fieldAt 47 5 f.pn
    + fieldAt 52 7 f.pw + fieldAt 59 1 (b2n f.bank) + fieldAt 60 1 (b2n f.claim)

/-- Command code and arguments of a control command (R175). -/
def CtlCmd.args : CtlCmd → Nat × Nat
  | .wrFire beam first entries =>
    (0x01, fieldAt 24 7 beam + fieldAt 31 4 first + fieldAt 35 3 entries.length
      + ((List.range entries.length).map (fun i => fieldAt (38 + 13 * i) 13 (lget entries i))).sum)
  | .setUnit unit => (0x02, fieldAt 24 32 unit)
  | .dropBank => (0x03, 0)
  | .echo => (0x04, 0)
  | .rdStat => (0x05, 0)

/-- CTL block (R175). -/
def CtlCmd.bits (c : CtlCmd) (tag : Nat) : Nat :=
  BlockType.ctl.code + fieldAt 8 8 c.args.1 + fieldAt 16 8 tag + c.args.2

/-- Offset `j` of a frame in 20-bit two's complement, at a bit position (R171). -/
def Frame.off (f : Frame) (j lo : Nat) : Nat := fieldAt lo 20 (ux 20 (f.offsets.getD j 0))

/-- Every code of a frame is 0 (R171). -/
def Frame.zero (f : Frame) : Bool := f.codes.all (fun l => l.all (fun c => c == 0))

/-- The blocks of a frame before its trailer (R171): FRH, and unless it is a zero frame O0, O1 and C0 to C31. -/
def Frame.body (f : Frame) : List (Bool × Nat) :=
  let z := f.zero
  let o (first n lo : Nat) : Nat :=
    ((List.range n).map (fun j => if z then 0 else f.off (first + j) (lo + 20 * j))).sum
  let frh := BlockType.frh.code + fieldAt 8 4 f.facet + fieldAt 12 3 f.group + fieldAt 15 1 (b2n z) + fieldAt 16 9 f.block
    + fieldAt 32 16 f.seq + o 0 4 48
  (true, frh) :: (if z then []
    else (false, o 4 6 0) :: (false, o 10 6 0) :: (List.range 32).map (fun h =>
      (false, ((List.range 32).map (fun k => fieldAt (4 * k) 4 (lget (f.codes.getD (h / 2) []) (32 * (h % 2) + k)))).sum)))

/-- A whole frame (R171): the trailer's CRC-32C covers the 128 bits of every block before it, taken lowest byte first
(log entry 101). -/
def Frame.blocks (f : Frame) : List (Bool × Nat) :=
  let crc := crc32c (f.body.map (fun b => leBytes 16 b.2)).flatten
  f.body ++ [(false, fieldAt 0 32 crc + fieldAt 32 16 f.seq)]

/-! ### Back-channel packets (R176) -/

/-- CRC-16 with polynomial 0x1021 and initial value 0xFFFF, not reflected (R176, R188). -/
def crc16Bit (c : Nat) : Nat := if 0x8000 ≤ c then (c * 2 ^^^ 0x1021) % 65536 else c * 2

def crc16Byte (c : Nat) (b : Byte) : Nat :=
  crc16Bit (crc16Bit (crc16Bit (crc16Bit (crc16Bit (crc16Bit (crc16Bit (crc16Bit (c ^^^ b.toNat * 256))))))))

def crc16 (l : List Byte) : Nat := l.foldl crc16Byte 0xFFFF

/-- The symbols of a packet: whether a symbol is a control character, and its byte: K27.7, TYPE, LEN, payload, CRC low
byte first, K29.7. -/
def headSymbols (type : Nat) (payload : List Byte) (crc : Nat) : List (Bool × Byte) :=
  (true, 0xFB#8) :: ((BitVec.ofNat 8 type :: BitVec.ofNat 8 payload.length :: payload) ++ leBytes 2 crc).map
    (fun b => (false, b)) ++ [(true, 0xFD#8)]

/-- The CRC that TYPE, LEN and payload of a packet must carry. -/
def headCrc (type : Nat) (payload : List Byte) : Nat :=
  crc16 (BitVec.ofNat 8 type :: BitVec.ofNat 8 payload.length :: payload)

/-- A packet taken from its symbols: TYPE and payload, if framed, of a length that LEN gives and at most 60, and with
the right CRC. -/
def headPacket (sym : List (Bool × Byte)) : Option (Nat × List Byte) :=
  let inner := (sym.drop 1).dropLast
  let l := inner.map (·.2)
  let n := (l.getD 1 0).toNat
  let payload := (l.drop 2).take n
  if sym.head? = some (true, 0xFB#8) ∧ sym.getLast? = some (true, 0xFD#8) ∧ inner.all (fun b => !b.1) = true
      ∧ n ≤ 60 ∧ l.length = n + 4 ∧ ofLe (l.drop (n + 2)) = headCrc (l.getD 0 0).toNat payload
  then some ((l.getD 0 0).toNat, payload) else none

end Sys2Proof.Machine
end

