-- ==== Sys2Proof/Machine/HeadLink.lean ====
section
/-!
DEFINITION. The exposure link (R170 to R182): firing tables (R136 to R139), control commands (R175), training (R178,
R179) and loss (R180, R181).
-/
namespace Sys2Proof.Machine

/-- Link state of station `i`. -/
def State.lk (s : State) (i : Nat) : ElkSt := vget s.elk i

/-- Training step of ELs (R178); 7 is TRAINED. -/
def State.elkState (s : State) (i : Nat) : Nat := s.fld (F.ELK_STATUS_STATE i)

/-- The link is trained. -/
def State.elkTrained (s : State) (i : Nat) : Bool := s.elkState i == 7

/-- STATE and TRAINED. -/
def State.setElkState (s : State) (i st : Nat) : State :=
  ((s.setFld (F.ELK_STATUS_STATE i) st).putFlag (F.ELK_STATUS_TRAINED i) (st == 7)).modElk i (fun k => { k with stepAt := s.now })

/-- Limit of a training step in ns (R178). -/
def elkLimit (st : Nat) : Nat :=
  match st with
  | 2 | 4 => 100000
  | 3 | 5 => 1000000
  | _ => 2000000

/-- The training step in progress has exceeded its limit. -/
def State.elkLate (s : State) (i : Nat) : Bool := decide ((s.lk i).stepAt + elkLimit (s.elkState i) < s.now)

/-- Output `k` of a synthesizer runs: it is locked, enabled and not gated (R424 to R428). -/
def State.pllOut (s : State) (n k : Nat) : Bool :=
  s.flag (F.CLK_STATUS_LOCK n) && bit (lget (vget s.plls n).force.outs k) 15 && !(vget s.plls n).gated

/-- PL(3+s) is locked with output 0 running. -/
def State.pixelRuns (s : State) (i : Nat) : Bool := s.pllOut (3 + i) 0

/-! ### Firing tables (R136 to R139) -/

/-- The active entry of beam `b`, code `c`, keyed 16b + c: POS + 2^8 × WIDTH. -/
def State.fireAct (s : State) (i k : Nat) : Nat :=
  Tab.getD (s.ex i).fire k ((fireReset (k % 16)).1 + (fireReset (k % 16)).2 * 2 ^ 8)

/-- The staged entry. -/
def State.fireStaged (s : State) (i k : Nat) : Nat := (s.reg (R.EXP_FIRE i k)).toNat

/-- Keys at which an entry may differ from its reset value, staged or active. -/
def State.fireKeys (s : State) (i : Nat) : List Nat :=
  let st := (s.regs.filter (fun e => decide (R.EXP_FIRE i 0 ≤ e.1) && decide (e.1 < R.EXP_FIRE i 2048))).map
    (fun e => (e.1 - R.EXP_FIRE i 0) / 4)
  st ++ ((s.ex i).fire.map (·.1)).filter (fun k => !st.contains k)

/-- Staged entries that differ from the active table. -/
def State.dirtyKeys (s : State) (i : Nat) : List Nat :=
  ((s.fireKeys i).filter (fun k => s.fireStaged i k != s.fireAct i k)).mergeSort (fun a b => decide (a ≤ b))

/-- DIRTY follows the tables. -/
def State.fireDirty (s : State) (i : Nat) : State := s.putFlag (F.EXP_FSTAT_DIRTY i) (!(s.dirtyKeys i).isEmpty)

/-- The active table takes every staged entry: a swap (R137, R139). SWAPL records the line count. -/
def State.fireSwap (s : State) (i line : Nat) : State :=
  let s1 := s.modExp i (fun e => { e with
    swapl := line
    fire := (s.dirtyKeys i).foldl (fun a k =>
      Tab.setD a k (s.fireStaged i k) ((fireReset (k % 16)).1 + (fireReset (k % 16)).2 * 2 ^ 8)) e.fire })
  ((s1.setFlag (F.EXP_FSTAT_SWAPPED i)).setFld (F.EXP_FSTAT_STAGE i) 0).fireDirty i

/-- A run of consecutive codes of one beam cut into WR_FIRE commands of at most six entries (R175). -/
def fireCmds (val : Nat → Nat) : Nat → List Nat → List CtlCmd
  | 0, _ => []
  | _, [] => []
  | fuel + 1, k :: r =>
    let run := (List.range 6).filter (fun j => (List.range (j + 1)).all (fun m => m == 0 || (k :: r).getD m 0 == k + m)
      && (k + j) / 16 == k / 16)
    let ent := run.map (fun j => bits (val (k + j)) 0 6 + bits (val (k + j)) 8 7 * 2 ^ 6)
    .wrFire (k / 16) (k % 16) ent :: fireCmds val fuel ((k :: r).drop run.length)

/-- Every entry that can be written: codes 1 to 15 of the 128 beams. -/
def allFireKeys : List Nat := (List.range 2048).filter (fun k => k % 16 != 0)

/-! ### Control commands (R175) -/

/-- Commands go out while fewer than 16 are unacknowledged. -/
def ElkSt.pump (k : ElkSt) (now : Nat) : Nat → ElkSt
  | 0 => k
  | fuel + 1 =>
    match k.queue with
    | [] => k
    | c :: r =>
      if k.out.length < 16 then
        ElkSt.pump ({ k with queue := r, out := k.out ++ [CtlOut.mk k.tag c 0 now], tag := (k.tag + 1) % 256 }.put
          [(true, c.bits k.tag)]) now fuel
      else k

/-- Commands queued for the head. -/
def State.ctlQueue (s : State) (i : Nat) (l : List CtlCmd) : State :=
  s.modElk i (fun k => { k with queue := k.queue ++ l }.pump s.now 17)

/-- SET_UNIT's argument: the timing unit in 2^-16 ps (R175). -/
def State.unitArg (s : State) (i : Nat) : Nat :=
  let f := s.pixHz i
  (2 * 1024000000000000 * f.2 + f.1) / (2 * f.1)

/-- SET_UNIT sent to a head whose link carries commands, as after every application of PL(3+s) settings. -/
def State.setUnit (s : State) (i : Nat) : State :=
  if 6 ≤ s.elkState i then s.ctlQueue i [.setUnit (s.unitArg i)] else s

/-! ### Loss and training (R178 to R181) -/

/-- A commit in progress is abandoned (R139). -/
def State.abandonCommit (s : State) (i : Nat) : State :=
  if s.fld (F.EXP_FSTAT_STAGE i) = 0 then s
  else ((s.setFlag (F.EXP_FSTAT_LOAD_ERR i)).setFld (F.EXP_FSTAT_STAGE i) 0).raise (98 + 4 * i)

/-- The link returns to DOWN: commands, frames and credits of the old connection are gone. -/
def State.elkDown (s : State) (i : Nat) (failed : Option Nat) : State :=
  (((s.setElkState i 0).modElk i (fun k => { k with
    credits := 0, queue := [], out := [], frames := [], resend := [], nackRun := 0, echoes := []
    fsm := none, tableQueued := false, seq := 0, nextBlock := 0, nextGroup := 0, failedAt := failed })).modLac i (fun c =>
      { c with formed := [] })).abandonCommit i

/-- A training attempt starts at step LOCK. -/
def State.elkStart (s : State) (i : Nat) : State := (s.setElkState i 1).addSat (F.ELK_CNT_ATTEMPTS i) 1

/-- Pages of the station when its link goes: those with lines to expose are spoiled with cause 0x03 from the line in
progress, those ADMITTED at their first line (R25, R181). -/
def State.elkPages (s : State) (i : Nat) : State :=
  (s.each (s.notBegunOn i) (fun t p => t.spoilPage p i 3 0)).spoilStation i 3

/-- A step fails (R178): FAILSTEP, FS(146+4s), DOWN. -/
def State.elkFail (s : State) (i : Nat) : State :=
  ((s.setFld (F.ELK_STATUS_FAILSTEP i) (s.elkState i)).raise (146 + 4 * i)).elkDown i (some s.now)

/-- A trained link is lost, or during training the step fails (R181). -/
def State.elkLose (s : State) (i : Nat) : State :=
  if s.elkTrained i then
    (((s.setFlag (F.ELK_STATUS_LOST i)).raise (144 + 4 * i)).elkPages i).elkDown i (some s.now)
  else if s.elkState i = 0 then s
  else s.elkFail i

/-- A page naming the station is ADMITTED or PRINTING. -/
def State.pageActive (s : State) (i : Nat) : Bool :=
  !(s.pagesOn .admitted i).isEmpty || !(s.pagesOn .printing i).isEmpty

/-- A write to ELKs_CTRL (R178, R180). RETRAIN = 1 with EN = 1 is ignored whole while a page is active. DESIGN CHOICE
(log entry 102): with EN = 0 and RETRAIN = 1 in one write the EN = 0 effects take place and RETRAIN is dropped. -/
def effElkCtrl (i : Nat) (v : Word) (s : State) : State :=
  let was := s.flag (F.ELK_CTRL_EN i)
  let s1 := s.putFlag (F.ELK_CTRL_EN i) ((F.ELK_CTRL_EN i).of v == 1)
  if (F.ELK_CTRL_EN i).of v = 0 then
    (if was then (s1.elkPages i).elkDown i (if s.elkState i = 0 then (s.lk i).failedAt else some s.now) else s1)
  else if (F.ELK_CTRL_RETRAIN i).of v = 1 then
    (if s.pageActive i then s.setFlag (F.ELK_STATUS_CMD_REJ i) else (s1.elkDown i none).elkStart i)
  else if s.elkState i = 0 ∧ (s.lk i).failedAt = none then s1.elkStart i
  else s1

/-- LINK_TRAIN_RETRY: 10 ms after the last attempt a new one starts (R178). -/
def effLinkTrainRetry (i : Nat) (s : State) : State :=
  match (s.lk i).failedAt with
  | some t =>
    if s.elkState i = 0 ∧ s.flag (F.ELK_CTRL_EN i) = true ∧ t + 10000000 ≤ s.now then
      (s.elkDown i none).elkStart i
    else s
  | none => if s.elkState i = 0 ∧ s.flag (F.ELK_CTRL_EN i) = true then s.elkStart i else s

/-- LINK_TRAIN_TIMEOUT (R178): the limit of the step in progress has passed. -/
def effLinkTrainTimeout (i : Nat) (s : State) : State :=
  if s.elkState i = 0 ∨ s.elkTrained i = true ∨ s.now < (s.lk i).stepAt + elkLimit (s.elkState i) then s else s.elkFail i

/-- Four times L in 10 ps units, from the middle two of the 64 round trips (R179). -/
def latency4 (kfwd ksum : Nat) (echoes : List Nat) : Int :=
  let l := echoes.mergeSort (fun a b => decide (a ≤ b))
  4 * (kfwd : Int) + (lget l 31 : Int) + (lget l 32 : Int) - 2 * (ksum : Int)

/-- Step TABLE begins: SET_UNIT if the pixel clock runs, and the whole active table (R139, R175). -/
def State.elkTable (s : State) (i : Nat) : State :=
  s.ctlQueue i ((if s.pixelRuns i then [.setUnit (s.unitArg i)] else []) ++ fireCmds (s.fireAct i) 2048 allFireKeys)

/-- LINK_TRAIN_STEP (R178): the step in progress completes; BACK finds comma lock held, LATENCY needs its 64 echoes,
TABLE its acknowledgements; IDENT is the packet's. The table loaded in TABLE stands in the standby bank (R175), so the
next mark names that bank (DEDUCED, log entry 103). -/
def effLinkTrainStep (i : Nat) (s : State) : State :=
  let k := s.lk i
  if s.elkState i ≠ 0 ∧ s.elkTrained i = false ∧ s.elkLate i = true then s.elkFail i else
  match s.elkState i with
  | 1 => s.setElkState i 2
  | 2 => s.setElkState i 3
  | 3 => (s.setElkState i 4).modElk i (fun x => { x with comma := true })
  | 5 =>
    if k.echoes.length < 64 then s
    else
      let l4 := latency4 (s.fld (F.ELK_LATK_KFWD i)) (s.fld (F.ELK_LATK_KSUM i)) k.echoes
      if l4 < 0 ∨ 1600000 < l4 then s.elkFail i
      else ((s.setFld (F.ELK_LAT_L i) (l4 / 4).toNat).setElkState i 6).elkTable i
  | 6 =>
    if k.queue.isEmpty && k.out.isEmpty then (s.setElkState i 7).modElk i (fun x => { x with credits := 4096, bank := !x.bank })
    else s
  | _ => s

/-! ### Back channel (R176) -/

/-- The PX hears the back channel: it holds comma lock (R176, R178). -/
def State.elkHears (s : State) (i : Nat) : Bool := (s.lk i).comma

/-- A packet from the head, whose CRC field is `crc`: one that is not well formed is discarded and counted. -/
def State.fromHead (s : State) (i type : Nat) (payload : List Byte) (crc : Nat) (f : State → State) : State :=
  if s.elkHears i = false then s
  else match headPacket (headSymbols type payload crc) with
    | none => s.addSat (F.ELK_CNT_BCERR i) 1
    | some _ => f s

/-- IDENT (R178): step IDENT completes for MODEL 0x0128 and starts the echoes; any other model is refused. -/
def effIdent (i crc model rev : Nat) (portB : Bool) (s : State) : State :=
  s.fromHead i 5 (leBytes 2 model ++ leBytes 1 rev ++ leBytes 1 (b2n portB)) crc (fun s =>
    let s1 := ((s.setFld (F.ELK_HEADID_MODEL i) model).setFld (F.ELK_HEADID_REV i) rev).putFlag (F.ELK_HEADID_PORT i) portB
    if s.elkState i ≠ 4 then s1
    else if model = 0x0128 ∧ s.elkLate i = false then
      ((s1.setElkState i 5).modElk i (fun k => { k with echoes := [] })).ctlQueue i (List.replicate 64 .echo)
    else s1.elkFail i)

/-- CTL_ACK (R175): the command of that tag is done. `rtt` is the round trip that the PX measured, in 10 ps units, of
which an ECHO makes use (R179); the answer to RD_STAT is kept. -/
def effCtlAck (i crc tag : Nat) (refused : Bool) (data rtt : Nat) (s : State) : State :=
  s.fromHead i 3 (leBytes 1 tag ++ leBytes 1 (b2n refused) ++ leBytes 4 data) crc (fun s =>
    match (s.lk i).out.find? (fun o => o.tag == tag) with
    | none => s
    | some o =>
      s.modElk i (fun k => { k with
        out := k.out.filter (fun x => x.tag != tag)
        echoes := if o.cmd = CtlCmd.echo then k.echoes ++ [rtt] else k.echoes
        headStat := if o.cmd = CtlCmd.rdStat then data else k.headStat }.pump s.now 17))

/-- CTL_RETRY (R175): no acknowledgement within 20 µs: repeated, and after three repeats the link is lost. -/
def effCtlRetry (i tag : Nat) (s : State) : State :=
  match (s.lk i).out.find? (fun o => o.tag == tag && decide (o.sentAt + 20000 ≤ s.now)) with
  | none => s
  | some o =>
    if o.repeats < 3 then
      s.modElk i (fun k =>
        let again (x : CtlOut) : CtlOut := if x.tag = tag then { x with repeats := x.repeats + 1, sentAt := s.now } else x
        { k with out := k.out.map again }.put [(true, o.cmd.bits tag)])
    else s.elkLose i

/-- Frame slots returned by the head. -/
def State.addCredit (s : State) (i n : Nat) : State :=
  s.modElk i (fun k => { k with credits := min 4096 (k.credits + n) })

/-- CREDIT (R176). -/
def effCredit (i crc n : Nat) (s : State) : State :=
  s.fromHead i 6 (leBytes 2 n) crc (fun s => s.addCredit i n)

/-- ALARM (R176): by its code. -/
def effAlarm (i crc code : Nat) (s : State) : State :=
  s.fromHead i 4 (leBytes 1 code) crc (fun s =>
    if code = 1 then s.elkLose i
    else if code = 2 then s.setFlag (F.ELK_STATUS_HLOOP i)
    else if code = 3 then (s.setFlag (F.ELK_STATUS_CONFLICT i)).raise (147 + 4 * i)
    else if code = 4 then s.setFlag (F.ELK_STATUS_HOVR i)
    else s)

/-- BACK_CHANNEL_LOCK_LOSS (R181). -/
def effBackChannelLockLoss (i ns : Nat) (s : State) : State :=
  if s.elkHears i && decide (1000 < ns) then (s.elkLose i).modElk i (fun k => { k with comma := false }) else s

/-! ### Firing-table registers (R136 to R138) -/

/-- A write to EXP_FIRE (R136, R138). -/
def effExpFire (i b c : Nat) (v : Word) (s : State) : State :=
  let k := 16 * b + c
  let pos := (F.EXP_FIRE_POS i k).of v
  let w := (F.EXP_FIRE_WIDTH i k).of v
  if s.fld (F.EXP_FSTAT_STAGE i) ≠ 0 then s.setFlag (F.EXP_FSTAT_FIRE_BUSY i)
  else if c = 0 then s
  else if 64 < w ∨ 96 < pos + w then s.setFlag (F.EXP_FSTAT_ENT_ERR i)
  else if c = 1 ∧ 7 < w then
    ((s.setReg (R.EXP_FIRE i k) (BitVec.ofNat 32 (pos + 7 * 2 ^ 8))).setFlag (F.EXP_FSTAT_PICOT_CLAMP i)).fireDirty i
  else (s.setReg (R.EXP_FIRE i k) (BitVec.ofNat 32 (pos + w * 2 ^ 8))).fireDirty i

/-- A commit completed at once while the link is not trained (R139). In step TABLE, whose load is under way with the old
entries, the entries it changes are loaded after them, so that the head ends with the active table. -/
def State.swapUntrained (s : State) (i : Nat) : State :=
  let keys := s.dirtyKeys i
  let t := s.fireSwap i (s.ex i).line
  if s.elkState i = 6 then t.ctlQueue i (fireCmds (t.fireAct i) 2048 keys) else t

/-- A write to EXPs_FCTL (R137 to R139): CANCEL ends a commit; COMMIT starts one, or completes it at once while the
link is not trained. -/
def effFctl (i : Nat) (v : Word) (s : State) : State :=
  let stage := s.fld (F.EXP_FSTAT_STAGE i)
  if (F.EXP_FCTL_CANCEL i).of v = 1 then
    (if stage = 0 then s
     else
      ((s.setFld (F.EXP_FSTAT_STAGE i) 0).modElk i (fun k => { k with
        queue := k.queue.filter (fun c => match c with | .wrFire _ _ _ => false | _ => true) })).ctlQueue i [.dropBank]
      |>.fireDirty i)
  else if (F.EXP_FCTL_COMMIT i).of v = 0 ∨ stage ≠ 0 ∨ (s.dirtyKeys i).isEmpty = true then s
  else if s.elkTrained i then
    ((s.setFld (F.EXP_FSTAT_STAGE i) 1).modExp i (fun e => { e with mode := (F.EXP_FCTL_MODE i).of v })).ctlQueue i
      (fireCmds (s.fireStaged i) 2048 (s.dirtyKeys i))
  else s.swapUntrained i

/-- No WR_FIRE is queued or unacknowledged. -/
def ElkSt.fireQuiet (k : ElkSt) : Bool :=
  (k.queue ++ k.out.map (·.cmd)).all (fun c => match c with | .wrFire _ _ _ => false | _ => true)

/-- FIRE_LOAD_DONE (R137): the second bank holds every changed entry, and the swap point is awaited. -/
def effFireLoadDone (i : Nat) (s : State) : State :=
  if s.fld (F.EXP_FSTAT_STAGE i) = 1 ∧ (s.lk i).fireQuiet = true then s.setFld (F.EXP_FSTAT_STAGE i) 2 else s

/-- A write to a register of window ELKs (R189). -/
def wrElk (i off : Nat) (v : Word) (s : State) : State :=
  if off = 0 then effElkCtrl i v s else s.plainWrite (0x280000 + 0x10000 * i + off) v

end Sys2Proof.Machine
end

