-- ==== Sys2Proof/Machine/Duty.lean ====
section
/-!
DEFINITION. On-time of the emitters in the facet in progress: the union of pulses (R129) and the duty windows (R158 to
R160).
-/
namespace Sys2Proof.Machine

/-- Window limits in timing units for a pixel clock in kHz (R158). -/
def emitLimit (elim khz : Nat) : Nat := elim * khz * 1000 * 256 / 1000000
def headLimit (hlim khz : Nat) : Nat := hlim * khz * 1000 * 2048 / 1000000

/-- Sum of a window (R158). -/
def winSum (l : List (Nat × Nat)) (bucket span : Nat) : Nat :=
  (l.filter (fun e => decide (bucket < e.1 + span) && decide (e.1 ≤ bucket))).foldl (fun a e => a + e.2) 0

/-- What is left of an interval outside another. -/
def outside (lit q : Int × Int) : List (Int × Int) :=
  [(q.1, min q.2 lit.1), (max q.1 lit.2, q.2)].filter (fun r => decide (r.1 < r.2))

/-- The parts of a pulse in which its emitter is not on already (R129). -/
def unlit (lit : List (Int × Int)) (on : Int) (width : Nat) : List (Int × Int) :=
  lit.foldl (fun l iv => l.flatMap (outside iv)) [(on, on + width)]

/-- The windows while the pulses of a facet pass in order of turn-on: on-time by bucket per emitter and of the head, the
intervals in which each emitter is on, and the bucket in which each emitter, or the head, is clipped (R158, R159). -/
structure Duty where
  emit : Tab (List (Nat × Nat))
  head : List (Nat × Nat)
  lit : Tab (List (Int × Int))
  clipEmit : Tab Nat
  clipHead : Option Nat
  deriving DecidableEq, Repr, Inhabited

/-- The windows at the start of a facet. -/
def LacSt.duty (c : LacSt) : Duty := ⟨c.emitWin, c.headWin, [], [], none⟩

/-- On-time added to the windows of an emitter and of the head. -/
def Duty.account (d : Duty) (b bucket units : Nat) : Duty :=
  { d with
    emit := Tab.put d.emit b
      ((bucket, units) :: (Tab.getD d.emit b []).filter (fun e => decide (bucket < e.1 + 1024)))
    head := (bucket, units) :: d.head.filter (fun e => decide (bucket < e.1 + 64)) }

/-- On-time that a pulse adds to the union (R129, R159). -/
def Duty.added (d : Duty) (b : Nat) (on : Int) (width : Nat) : Nat :=
  ((unlit (Tab.getD d.lit b []) on width).map (fun r => (r.2 - r.1).toNat)).sum

/-- A decided pulse passes: its clip stands to the end of its bucket, and what was fired counts (R158, R159). -/
def Duty.pass (bucket : Int → Nat) (d : Duty) (q : Dot) : Duty :=
  let d1 : Duty := if q.clip = 1 then { d with clipEmit := Tab.put d.clipEmit q.beam (bucket q.tested) }
    else if q.clip = 2 then { d with clipHead := some (bucket q.tested) } else d
  if q.code = 0 then d1
  else
    { d1.account q.beam (bucket q.on) (d1.added q.beam q.on q.width) with
      lit := Tab.put d1.lit q.beam (unlit (Tab.getD d1.lit q.beam []) q.on q.width ++ Tab.getD d1.lit q.beam []) }

/-- How a dot of `width` units is judged at its turn-on (R159): 0 fires, 1 clipped for its emitter, 2 for the head. -/
def Duty.verdict (d : Duty) (elim hlim khz bucket b : Nat) (on : Int) (width : Nat) : Nat :=
  let w := d.added b on width
  if Tab.get d.clipEmit b = some bucket ∨ elim = 0 ∨ emitLimit elim khz < winSum (Tab.getD d.emit b []) bucket 1024 + w then 1
  else if d.clipHead = some bucket ∨ headLimit hlim khz < winSum d.head bucket 64 + w then 2
  else 0

/-- Dots in order of turn-on, then of beam (R159). -/
def dotOrder (a b : Dot) : Bool := decide (a.tested < b.tested) || (a.tested == b.tested && decide (a.beam ≤ b.beam))

/-- The windows after every pulse decided so far in the facet. -/
def LacSt.dutyNow (c : LacSt) (bucket : Int → Nat) : Duty := (c.dots.mergeSort dotOrder).foldl (Duty.pass bucket) c.duty

end Sys2Proof.Machine
end

