-- ==== Sys2Proof/Machine/Frames.lean ====
section
/-!
DEFINITION. The lines that the beams of a facet write, block offsets (R127), frames and the time by which they must
arrive (R130, R171, R177).
-/
namespace Sys2Proof.Machine

/-- A line of a station belongs to the page: its index. -/
def Page.indexOf (p : Page) (i l : Nat) : Option Nat :=
  let d := lineDist (lget p.firstLine i) l
  if d < p.length then some d else none

/-- Pages ADMITTED or PRINTING of jobs naming a station. -/
def State.livePages (s : State) (i : Nat) : List Nat := s.pagesOn .admitted i ++ s.pagesOn .printing i

/-- A line of the page is exposed blank on a station after a spoil (R30). -/
def Page.blankAt (p : Page) (i idx : Nat) : Bool :=
  match p.blankFrom.getD i none with | some b => decide (b ≤ idx) | none => false

/-- The line that a beam writes in a facet with origin count `cf` (R143). -/
def State.lineOf (s : State) (i cf b : Nat) : Nat := (cf + s.loff i b) % 2 ^ 40

/-- ZONE at block `k` (R127): interpolated, halves toward +∞. -/
def State.zoneAt (s : State) (i k : Nat) : Int :=
  let j := k * 64 / 384
  let z0 := s.sfld (F.EXP_ZONE_Z i j)
  let z1 := s.sfld (F.EXP_ZONE_Z i (j + 1))
  z0 + (2 * (z1 - z0) * ((k * 64 - 384 * j : Nat) : Int) + 384) / 768

/-- The offset of a beam in a block: DELAY + FCORR + ZONE (R127); FCORR counts only with FIDX_EN (R124). -/
def State.beamOffset (s : State) (i b block : Nat) : Int :=
  (s.fld (F.EXP_DELAY_DELAY i b) : Int)
    + (if s.flag (F.EXP_SCAN_FIDX_EN i) then s.sfld (F.EXP_FCORR_FCORR i (s.ex i).facet) else 0) + s.zoneAt i block

/-- The frame of group `g` of a formed block (R171). -/
def State.frameOf (s : State) (i seq : Nat) (f : FormedBlock) (g : Nat) : Frame :=
  let codes := (f.codes.drop (16 * g)).take 16
  let zero := codes.all (fun l => l.all (fun c => c == 0))
  { seq := seq, facet := f.facet, group := g, block := f.block, codes := codes
    offsets := if zero then List.replicate 16 0 else (List.range 16).map (fun j => s.beamOffset i (16 * g + j) f.block)
    origin := (s.ex i).origin, cf := (s.ex i).cf }

/-- The time of a frame's block in 10 ps after the facet's origin, less the 1 µs it must lead by (R177). -/
def State.frameLimit (s : State) (i : Nat) (f : Frame) : Int :=
  let px := s.pixHz i
  let m := f.offsets.foldl min (f.offsets.headD 0)
  ((64 * (s.fld (F.EXP_SCAN_SOS i) + 64 * f.block) : Nat) + m) * 100000000000 * px.2 / (64 * px.1) - 100000

/-- Sent from this moment, a frame would still arrive in time (R177): its own 58.5 ns and the latency L count. -/
def State.frameInTime (s : State) (i : Nat) (f : Frame) : Bool :=
  decide (((s.now - f.origin : Nat) : Int) * 100 + 5850 + (s.fld (F.ELK_LAT_L i) : Int) ≤ s.frameLimit i f)

/-- Indexes within a page of the lines that a frame covers and that are not blank there. -/
def State.frameLines (s : State) (i : Nat) (f : Frame) (p : Page) : List Nat :=
  (List.range 16).filterMap (fun j => match p.indexOf i (s.lineOf i f.cf (16 * f.group + j)) with
    | some idx => if p.blankAt i idx then none else some idx
    | none => none)

/-- What a frame that cannot arrive in time does to page `k`: spoiled from its first line of those the frame carries. -/
def State.frameMissed (s : State) (i : Nat) (f : Frame) (k : Nat) : State :=
  s.withSome (Tab.get s.pages k) (fun p => s.withSome (s.frameLines i f p).min? (fun first => s.spoilPage k i 6 first))

/-- A frame that cannot arrive in time spoils the page it belongs to, on the facet's first line that it covers (R130,
R177). -/
def State.frameLate (s : State) (i : Nat) (f : Frame) : State := s.each (s.livePages i) (fun t k => t.frameMissed i f k)

/-- Frames of the facet in progress whose blocks are formed and that have not been sent, and those named by a NACK and
not resent. -/
def State.unsent (s : State) (i : Nat) : List Frame :=
  let k := s.lk i
  let new := match (s.lc i).formed with
    | [] => []
    | f :: r => ((List.range 8).drop k.nextGroup).map (s.frameOf i k.seq f)
        ++ r.flatMap (fun f => (List.range 8).map (s.frameOf i k.seq f))
  k.frames.filter (fun f => k.resend.contains f.seq) ++ new

/-- At the scan end no frame of the facet can arrive in time any more (R130). -/
def State.dropUnsent (s : State) (i : Nat) : State :=
  ((s.each (s.unsent i) (fun t f => t.frameLate i f)).modLac i (fun c => { c with formed := [] })).modElk i (fun k =>
    { k with resend := [], nextBlock := 0, nextGroup := 0 })

end Sys2Proof.Machine
end

