-- ==== Sys2Proof/Machine/Scan.lean ====
section
/-!
DEFINITION. Beam detect, facets and line counting (R118 to R131), facet-start marks and probes (R150, R174), head
temperature (R163 to R167).
-/
namespace Sys2Proof.Machine

/-- BD lock is held. -/
def State.bdLock (s : State) (i : Nat) : Bool := s.flag (F.EXP_STATUS_BD_LOCK i)

/-- FACET_PX and BD_WIN (0 acts as 1) in timing units. -/
def State.facetUnits (s : State) (i : Nat) : Nat := 64 * s.fld (F.EXP_FACETPX_FACET_PX i)
def State.winUnits (s : State) (i : Nat) : Nat := 64 * max 1 (s.fld (F.EXP_SCAN_BD_WIN i))

/-- Line count at the origin of the next facet. -/
def State.nextCf (s : State) (i : Nat) : Nat :=
  let e := s.ex i
  if e.inScan then (e.cf + s.linesPerFacet i) % 2 ^ 40 else e.line

/-- No line that the lace map gives the beams in a facet with origin count `cf` belongs to a page (R124). -/
def State.pageFree (s : State) (i cf : Nat) : Bool :=
  (s.livePages i).all (fun k => match Tab.get s.pages k with
    | none => true
    | some p => (List.range 128).all (fun b => (p.indexOf i (s.lineOf i cf b)).isNone))

/-! ### Scan end and line counting (R131) -/

/-- Turn-on of probe `j` after the facet's origin, in timing units (R150). -/
def State.probeAt (s : State) (i j : Nat) : Nat := 64 * (s.fld (F.EXP_SCAN_SOS i) + 25624 + 64 + 128 * j)

/-- The bucket of an instant `u` timing units after the facet's origin (R158). -/
def State.bucketAt (s : State) (i u : Nat) : Nat :=
  let f := s.pixHz i
  ((s.ex i).origin + u * 1000000000 * f.2 / (64 * f.1)) / 1000

/-- Emitters to probe in a facet that begins now (R150, R151). -/
def State.probeN (s : State) (i : Nat) : Nat :=
  if s.flag (F.LAC_STATUS_HOT_TRIP i) then 0 else s.fld (F.LAC_PROBE_PROBE_N i)

/-- The on-time of the facet in progress enters the windows: its pulses, and the probes that its mark named (R150,
R158); the turn of the probes moves on past them. -/
def State.settleDuty (s : State) (i : Nat) : State :=
  let pr := (s.ex i).probes
  let d := (List.range pr.2.1).foldl (fun (a : Duty) j =>
    a.account ((pr.1 + j) % 128) (s.bucketAt i (s.probeAt i j)) pr.2.2) ((s.lc i).dutyNow (fun u => s.bucketAt i u.toNat))
  s.modLac i (fun c => { c with emitWin := d.emit, headWin := d.head, dots := [], pfirst := (c.pfirst + pr.2.1) % 128 })

/-- The scan end of the facet in progress: the line counter advances by 128/P (R131), the facet's on-time is settled,
and frames not sent by then spoil the page they belong to (R130). -/
def State.scanEnd (s : State) (i : Nat) : State :=
  if (s.ex i).inScan = false then s
  else ((s.dropUnsent i).settleDuty i).modExp i (fun x => { x with
    inScan := false, line := (x.cf + s.linesPerFacet i) % 2 ^ 40, tripKeep := [] })

/-- FACET_SCAN_END. -/
def effFacetScanEnd (i : Nat) (s : State) : State := s.scanEnd i

/-! ### Facet start -/

/-- A line that is lost degrades the page it belongs to, if that is page `k` (R156). -/
def State.deadLine (s : State) (i line k : Nat) : State :=
  s.withSome (Tab.get s.pages k) (fun p => s.withSome (p.indexOf i line) (fun idx => s.degradePage k i 2 idx))

/-- A 1-pass job's lines in this facet whose writer is dead degrade their page, in ascending line order (R156). -/
def State.deadLines (s : State) (i : Nat) : State :=
  if s.passesOn i ≠ 1 then s
  else
    let cf := (s.ex i).cf
    s.each ((setBitsOf 128 (s.lc i).deadEff).mergeSort (fun a b => decide (s.loff i a ≤ s.loff i b))) (fun t b =>
      t.each (t.livePages i) (fun u k => u.deadLine i (u.lineOf i cf b) k))

/-- A page whose first line begins while LASER_EN is low is spoiled (R184). -/
def State.laserCheck (s : State) (i : Nat) : State :=
  if bit (s.fld F.ILK_STATUS_LASER) i then s
  else
    let cf := (s.ex i).cf
    s.each (s.livePages i) (fun t k => match Tab.get t.pages k with
      | none => t
      | some p => if lineDist cf (lget p.firstLine i) < t.linesPerFacet i then t.spoilPage k i 4 0 else t)

/-- The facet-start mark (R174). LEAD follows from the instant the mark leaves, which the spec leaves open within 1 µs
of the BD edge: a free value. -/
def State.sendFsm (s : State) (i : Nat) : State :=
  if s.elkTrained i = false then s
  else
    let f := s.pixHz i
    let tx := s.freeWord.toNat % 100001
    let num : Int := (s.fld (F.EXP_SCAN_SOS i) : Int) * 64 * 100000000000 * f.2
      - ((tx : Int) + s.fld (F.ELK_LAT_L i)) * 64 * f.1
    let lead := (2 * num + 100000000000 * f.2) / (2 * (100000000000 * f.2 : Int))
    let mark : Fsm := ⟨(s.ex i).facet, ux 24 lead, (s.lc i).pfirst, s.probeN i, s.fld (F.LAC_PROBE_PROBE_W i), (s.lk i).bank,
      s.holdsToken⟩
    ((s.modElk i (fun k => { k with fsm := some mark }.put [(true, mark.bits)])).modExp i (fun e => { e with
      probes := (mark.pfirst, mark.pn, mark.pw) })).tookFree

/-- The table swap at a facet origin (R137): in FACET mode at once, in GAP mode in a page-free facet. -/
def State.swapPoint (s : State) (i : Nat) : State :=
  let e := s.ex i
  if s.fld (F.EXP_FSTAT_STAGE i) = 2 ∧ (e.mode = 1 ∨ s.pageFree i e.cf = true) then
    (s.fireSwap i e.cf).modElk i (fun k => { k with bank := !k.bank })
  else s

/-- The lowest-numbered station with BD lock. -/
def State.lowestLocked (s : State) : Option Nat := (List.range 4).find? (fun i => s.hasStn i && s.bdLock i)

/-- At the first facet origin after a join the shadow takes over the active's line counter and facet number (R447). The
facet number stored is the one before the origin's. -/
def State.copyActive (s : State) (i : Nat) : State :=
  if bit s.acd.copyStn i then
    (s.modExp i (fun e => { e with line := lget s.acd.copyLine i, facet := lget s.acd.copyFacet i, numbered := true })).modAcd
      (fun a => { a with copyStn := clrBit a.copyStn i })
  else s

/-- What a list of dated entries, newest first, still has to say of the last 2^32 ns (R386). -/
def keepBack {α : Type} (now : Nat) : List (Nat × α) → List (Nat × α)
  | [] => []
  | e :: r => if e.1 + 2 ^ 32 ≤ now then [e] else e :: keepBack now r

/-- BD_LOCK changes at this instant. -/
def State.setLock (s : State) (i : Nat) (b : Bool) : State :=
  (s.putFlag (F.EXP_STATUS_BD_LOCK i) b).modExp i (fun e => { e with locks := (s.now, b) :: keepBack s.now e.locks })

/-- Pages of a station of which a halt of its facets still counts (R28). -/
def State.haltCounts (s : State) (i : Nat) : Bool := !(s.begunOn i).isEmpty

/-- A facet begins at `origin` (R121, R124, R125, R137, R152, R156, R163, R174, R456). DESIGN CHOICE (log entry 104): a
facet that this one cuts off before its scan end, as the pulse that completes the lock cuts off a flywheel facet
(R119), ends its scan here and advances the line counter. -/
def State.facetStart (s : State) (i origin : Nat) (accepted : Bool) : State :=
  let s0 := (s.scanEnd i).copyActive i
  let en := s0.flag (F.EXP_SCAN_FIDX_EN i)
  let zero := en && accepted && (s0.ex i).idxSeen
  let told := (s0.lk i).fsm.isSome
  let s1 := s0.modExp i (fun e => { e with
    facets := (e.facets + 1) % 2 ^ 32, ord := e.ord + 1
    facet := if zero || !e.numbered then 0 else (e.facet + 1) % s0.facetsOn i
    numbered := true
    idxSeen := if zero then false else e.idxSeen
    facetsRun := true, inScan := true, origin := origin, cf := e.line, probes := (0, 0, 0)
    origins := (origin, e.line) :: keepBack origin e.origins
    haltAt := if s0.haltCounts i then e.haltAt else none
    blank := s0.flag F.FLT_PINS_BLANKED || !s0.bdLock i || s0.flag (F.LAC_STATUS_HOT_TRIP i) })
  let s2 := (s1.putFlag (F.EXP_STATUS_FIDX_OK i) (en && (zero || s1.flag (F.EXP_STATUS_FIDX_OK i)))).putFlag
    (F.EXP_STATUS_FLYING i) (!accepted)
  let s3 := (s2.modLac i (fun c => { c with
    dots := [], done := 0, formed := []
    noReport := if s2.elkTrained i then (if told then c.noReport + 1 else c.noReport) else 0 })).modElk i (fun k =>
      { k with fsm := none })
  let s4 := ((((s3.swapPoint i).cutover i).lanesForPass i).sendFsm i).deadLines i
  let s5 := s4.laserCheck i
  if s5.lowestLocked == some i then
    s5.modAcd (fun a => { a with stateDue := true, handoverDue := a.handoverDue || a.handover })
  else s5

/-- The phase of an origin (R118, R125): units after the preceding clock edge, from the stamp in 10 ps units; 64 is a
carry to the next edge. -/
def State.originUnits (s : State) (i fine : Nat) : Nat :=
  let f := s.pixHz i
  (2 * fine * 640 * f.1 + 1000000000000 * f.2) / (2 * 1000000000000 * f.2)

/-- An accepted BD under lock (R120, R125): the facet starts, EVP bit 24+s is set in every core, the BD registers are
captured. -/
def State.bdAccept (s : State) (i interval fine : Nat) : State :=
  let u := s.originUnits i fine
  let s1 := (s.facetStart i s.now true).modExp i (fun e => { e with
    fly := 0, base := s.now, fromBd := 0, acq := 0, bdSeen := true, bdt := s.now, fine := fine % 8192, ph := u % 64, carry := decide (64 ≤ u)
    fper := interval })
  s1.each (List.range 24) (fun t n => if t.hasCore n then t.setEvp n (2 ^ (24 + i)) else t)

/-- Timing units between the origin of the facet in progress and this instant: from the interval since the last accepted
BD under lock, else from press time. -/
def State.sinceOrigin (s : State) (i interval : Nat) : Nat :=
  let e := s.ex i
  let f := s.pixHz i
  if s.bdLock i then interval - e.fromBd else (s.now - e.origin) * 64 * f.1 / (1000000000 * f.2)

/-- A pulse falls in the probe interval of the facet in progress (R150). -/
def State.inProbes (s : State) (i interval : Nat) : Bool :=
  let pr := (s.ex i).probes
  let rel := s.sinceOrigin i interval
  decide (0 < pr.2.1) && decide (s.probeAt i 0 ≤ rel) && decide (rel ≤ s.probeAt i (pr.2.1 - 1) + pr.2.2)

/-- An interval lies within ±BD_WIN of a number of timing units. -/
def State.nearUnits (s : State) (i units interval : Nat) : Bool :=
  decide (units ≤ interval + s.winUnits i) && decide (interval ≤ units + s.winUnits i)

/-- BD_PULSE (R118 to R120): an edge, falling or rising, of a pulse of `width` ns, `interval` timing units after the last
accepted one, stamped `fine` × 10 ps after the preceding clock edge. Only the edge that BD_POL selects is recognised. -/
def effBdPulse (i : Nat) (falling : Bool) (width interval fine : Nat) (s : State) : State :=
  let e := s.ex i
  if falling ≠ s.flag (F.EXP_SCAN_BD_POL i) ∨ width < s.fld (F.EXP_BD_MINW i) ∨ s.pixelRuns i = false then s
  else if (e.facetsRun && s.inProbes i interval) = true then s
  else if s.bdLock i then
    (if s.nearUnits i (e.fromBd + s.facetUnits i) interval then s.bdAccept i interval fine
     else s.addSat (F.EXP_CNT_SPURIOUS i) 1)
  else
    let acq := if e.bdSeen && s.nearUnits i (s.facetUnits i) interval then e.acq + 1 else 0
    if max 1 (s.fld (F.EXP_BD_LOCKN i)) ≤ acq then (s.setLock i true).bdAccept i interval fine
    else s.modExp i (fun x => { x with bdSeen := true, acq := acq })

/-- Every page that has begun and has lines still to expose on a station is spoiled, from a line of the station on (R122,
R166). -/
def State.spoilFrom (s : State) (i cause line : Nat) : State :=
  s.each (s.begunOn i) (fun t k => match Tab.get t.pages k with
    | none => t
    | some p =>
      let d := lineDist (lget p.firstLine i) line
      let idx := if d < 2 ^ 39 then d else 0
      if idx < p.length then t.spoilPage k i cause idx else t)

/-- BD lock is lost after BD_HOLD flywheel facets (R121, R122): the first spoiled line is that of the predicted BD, at
which the facet in progress began. -/
def State.bdLost (s : State) (i : Nat) : State :=
  (((((s.setLock i false).modExp i (fun e => { e with bdSeen := false, acq := 0 })).raise (96 + 4 * i)
    ).spoilFrom i 0xC (s.ex i).cf).withdrawStation i)

/-- FLYWHEEL_FACET (R121): the window closed without an accepted pulse. The origin moves on by 64 × FACET_PX timing units
from the last, which are summed exactly from the last accepted BD. -/
def effFlywheelFacet (i : Nat) (s : State) : State :=
  let e := s.ex i
  if e.facetsRun = false ∨ s.pixelRuns i = false then s
  else
    let u := e.fromBd + s.facetUnits i
    let f := s.pixHz i
    let s1 := (((s.facetStart i (e.base + u * 1000000000 * f.2 / (64 * f.1)) false).modExp i (fun x => { x with
      fly := e.fly + 1, fromBd := u })).addSat (F.EXP_CNT_FLYWHEELS i) 1).raise (97 + 4 * i)
    if s.bdLock i ∧ s.fld (F.EXP_BD_BD_HOLD i) < e.fly + 1 then s1.bdLost i else s1

/-- A station's facets stop at this instant: from the origin of the last facet on its lines are still counted for the
pages in progress (R28). -/
def State.facetsStop (s : State) (i : Nat) : State :=
  (s.clrFlag (F.EXP_STATUS_FLYING i)).modExp i (fun e => { e with
    facetsRun := false, inScan := false, haltAt := if e.facetsRun && e.haltAt.isNone then some (e.origin, e.cf) else e.haltAt })

/-- FLYOFF (R121): no facet runs until BD lock is regained; without effect under lock. DESIGN CHOICE (log entry 105): a
flywheel facet in progress ends at the write and still advances the line counter. -/
def effFlyoff (i : Nat) (v : Word) (s : State) : State :=
  if (F.EXP_CTRL_FLYOFF i).of v = 1 ∧ s.bdLock i = false then (s.scanEnd i).facetsStop i else s

/-- POLYGON_INDEX (R124). A count set to 0 at once makes the next facet facet 0 (DEDUCED), as a count that agrees
does. DESIGN CHOICE (log entry 106): an index seen while no BD lock is held, however long before the lock, makes the
lock's first facet facet 0. -/
def effPolygonIndex (i : Nat) (s : State) : State :=
  let e := s.ex i
  if s.flag (F.EXP_SCAN_FIDX_EN i) = false then s
  else if s.flag (F.EXP_STATUS_FIDX_OK i) = false then s.modExp i (fun x => { x with idxSeen := true })
  else
    let free := s.pageFree i e.cf
    let good := (e.facet + 1) % s.facetsOn i == 0
    let s1 := if good then s else (s.setFlag (F.EXP_STATUS_FIDX_ERR i)).raise (99 + 4 * i)
    if free && (!good || e.idxFix) then s1.modExp i (fun x => { x with facet := s.facetsOn i - 1, idxFix := false })
    else if good then s1
    else s1.modExp i (fun x => { x with idxFix := true })

/-- The pixel clock stops (R428): BD lock falls without FS(96+4s), and the line counter holds. -/
def State.pixelStop (s : State) (i : Nat) : State :=
  ((s.setLock i false).facetsStop i).modExp i (fun e => { e with bdSeen := false, acq := 0, fly := 0, fromBd := 0 })

/-! ### Head temperature (R163 to R167) and probe results (R151) -/

/-- Head temperature and limits, signed (R163). -/
def State.headT (s : State) (i : Nat) : Int := s.sfld (F.LAC_THERM_HT i)

/-- SPD_REQ for a temperature (R164). -/
def State.spdReq (s : State) (i : Nat) (ht : Int) : Nat :=
  let w := s.sfld (F.LAC_TWARN_TLIM i)
  if ht < w then 0 else min 800 ((ht - w).toNat * s.fld (F.LAC_THR_RATE i) / 16)

/-- SPD_REQ follows HT, TWARN and RATE (R164). -/
def State.spdRefresh (s : State) (i : Nat) : State := s.setFld (F.LAC_THERM_SPD_REQ i) (s.spdReq i (s.headT i))

/-- The absolute limit is reached (R166): the station's pages are spoiled from the first blank facet, its admitted
pages withdrawn, and the cool-down write is pending. The facet in progress completes, so the blanking of the pages
spoiled here waits for its end. -/
def State.hotTrip (s : State) (i : Nat) : State :=
  let s1 := ((s.setFlag (F.LAC_STATUS_HOT_TRIP i)).raise (112 + 8 * i)).setFlag (F.LAC_STATUS_COOL_PEND i)
  let keep := if (s.ex i).inScan then (s.begunOn i).filter (fun k => match Tab.get s.pages k with
      | some p => (p.blankFrom.getD i none).isNone
      | none => false)
    else []
  ((s1.spoilFrom i 1 (s.nextCf i)).modExp i (fun e => { e with tripKeep := keep })).withdrawStation i

/-- One probe result (R151). DESIGN CHOICE (log entry 107): FS(117+8s) is set when the emitter's PFAIL bit rises, and not
again while the bit stands. -/
def State.probeResult (s : State) (i b amp : Nat) : State :=
  if s.fld (F.LAC_PROBE_PROBE_MIN i) ≤ amp then s.modLac i (fun c => { c with fails := Tab.del c.fails b })
  else
    let n := Tab.getD (s.lc i).fails b 0 + 1
    let s1 := s.modLac i (fun c => { c with fails := Tab.put c.fails b n })
    if max 1 (s.fld (F.LAC_PROBE_PROBE_Q i)) ≤ n then
      let f := F.LAC_PFAIL_BEAMS i (b / 32)
      (s1.setFld f (setBit (s1.fld f) (b % 32))).raiseIf (!bit (s1.fld f) (b % 32)) (117 + 8 * i)
    else s1

/-- FACET_RPT (R163, R164, R166, R176). -/
def effFacetRpt (i crc facet ht credits : Nat) (exec : Bool) (pfirst : Nat) (amps : List Nat) (s : State) : State :=
  s.fromHead i 1 (leBytes 1 facet ++ leBytes 2 ht ++ leBytes 2 credits ++ leBytes 1 (b2n exec) ++ leBytes 1 pfirst
      ++ leBytes 1 amps.length ++ amps.flatMap (leBytes 1)) crc (fun s =>
    let t := sx 12 ht
    let s1 := (((s.setFld (F.LAC_THERM_HT i) ht).spdRefresh i).putFlag (F.ELK_STATUS_EXEC i) exec).addCredit i credits
    let s2 := (s1.modLac i (fun c => { c with noReport := 0 })).clrFlag (F.LAC_STATUS_TEMP_STALE i)
    let s3 := s2.each (List.range amps.length) (fun u j => u.probeResult i ((pfirst + j) % 128) (lget amps j))
    if s.sfld (F.LAC_TABS_TLIM i) ≤ t ∧ s.flag (F.LAC_STATUS_HOT_TRIP i) = false then s3.hotTrip i else s3)

/-- TEMP_STALE (R163): eight facets without a report while the link is trained. -/
def effTempStale (i : Nat) (s : State) : State :=
  if 8 ≤ (s.lc i).noReport ∧ s.elkTrained i = true then
    (s.setFlag (F.LAC_STATUS_TEMP_STALE i)).raiseIf (!s.flag (F.LAC_STATUS_TEMP_STALE i)) (119 + 8 * i)
  else s

/-- A write to LACs_STATUS (R167): HOT_TRIP clears only below TCOMMIT with no cool-down write pending. -/
def effLacStatus (i : Nat) (v : Word) (s : State) : State :=
  let s1 := s.plainWrite (R.LAC_STATUS i) v
  if (F.LAC_STATUS_HOT_TRIP i).of v = 1 ∧ s.flag (F.LAC_STATUS_HOT_TRIP i) = true ∧
      ¬ (s.headT i < s.sfld (F.LAC_TCOMMIT_TLIM i) ∧ s.flag (F.LAC_STATUS_COOL_PEND i) = false) then
    s1.setFlag (F.LAC_STATUS_HOT_TRIP i)
  else s1

/-- A write to TWARN, TCOMMIT or TABS (R163): the order TWARN ≤ TCOMMIT < TABS is kept. -/
def effThermalLimitWrite (i off : Nat) (v : Word) (s : State) : State :=
  let t := s.plainWrite (0x240000 + 0x10000 * i + off) v
  if t.sfld (F.LAC_TWARN_TLIM i) ≤ t.sfld (F.LAC_TCOMMIT_TLIM i) ∧
      t.sfld (F.LAC_TCOMMIT_TLIM i) < t.sfld (F.LAC_TABS_TLIM i) then t.spdRefresh i
  else s.setFlag (F.LAC_STATUS_CFG_ERR i)

/-- A write to LAC_ELIM or LACs_DUTY (R162): a limit above 256 is ignored with CFG_ERR. -/
def effDutyLimitWrite (i off : Nat) (v : Word) (s : State) : State :=
  if 256 < v.toNat % 512 then s.setFlag (F.LAC_STATUS_CFG_ERR i)
  else s.plainWrite (0x240000 + 0x10000 * i + off) v

/-- DUTY_BUCKET_BOUNDARY (R162): the limits as written come into force. -/
def effDutyBucketBoundary (i : Nat) (s : State) : State :=
  let set := (s.regs.filter (fun e => decide (R.LAC_ELIM i 0 ≤ e.1) && decide (e.1 < R.LAC_ELIM i 128))).map
    (fun e => ((e.1 - R.LAC_ELIM i 0) / 4, e.2.toNat % 512))
  s.modLac i (fun c => { c with
    elim := set, hlim := s.fld (F.LAC_DUTY_HLIM i), clipPicot := s.flag (F.LAC_DUTY_CLIP_PICOT i) })

/-- A write to a register of window LACs (R149, R162, R163, R168). -/
def wrLac (i off : Nat) (v : Word) (s : State) : State :=
  if off = 0 then effLacStatus i v s
  else if off = 0x10 ∨ (0x800 ≤ off ∧ off < 0xA00) then effDutyLimitWrite i off v s
  else if off = 0x14 then
    (if 16 < (F.LAC_PROBE_PROBE_N i).of v ∨ inRange 1 64 ((F.LAC_PROBE_PROBE_W i).of v) = false then
      s.setFlag (F.LAC_STATUS_CFG_ERR i)
    else s.plainWrite (R.LAC_PROBE i) v)
  else if off = 0x20 ∨ off = 0x24 ∨ off = 0x28 then effThermalLimitWrite i off v s
  else if off = 0x2C then (s.plainWrite (R.LAC_THR i) v).spdRefresh i
  else if 0x50 ≤ off ∧ off < 0x60 then effDeadMapWrite i ((off - 0x50) / 4) v s
  else if (0x400 ≤ off ∧ off < 0x600) ∨ (0x1000 ≤ off ∧ off < 0x1400) then effLaceWrite i off v s
  else s.plainWrite (0x240000 + 0x10000 * i + off) v

/-! ### EXP register writes (R117, R133, R134, R141) -/

/-- A write to a register that a job locks (R117). -/
def State.expLocked (s : State) (i : Nat) (f : State → State) : State :=
  if s.inJob i then s.setFlag (F.EXP_STATUS_CFG_BUSY i) else f s

/-- CFG_ERR. -/
def State.expErr (s : State) (i : Nat) : State := s.setFlag (F.EXP_STATUS_CFG_ERR i)

/-- A write to EXPs_TONE_LO (`hi` 0) or EXPs_TONE_HI (1) (R133): code 1 in any entry refuses it. -/
def effExpTone (i hi : Nat) (v : Word) (s : State) : State :=
  s.expLocked i (fun s =>
    let w := if hi = 0 then v.toNat / 16 * 16 else v.toNat
    if (List.range 8).any (fun j => bits w (4 * j) 4 == 1) then s.expErr i
    else s.setReg (if hi = 0 then R.EXP_TONE_LO i else R.EXP_TONE_HI i) (BitVec.ofNat 32 w))

/-- A write to EXPs_PICOT (R134). -/
def effExpPicot (i : Nat) (v : Word) (s : State) : State :=
  s.expLocked i (fun s =>
    let k := (F.EXP_PICOT_K i).of v
    let n := (F.EXP_PICOT_N i).of v
    if k = 0 ∨ n = 0 ∨ n < k then s.expErr i else s.plainWrite (R.EXP_PICOT i) v)

/-- A write to a register of window EXPs (R141). -/
def wrExp (i off : Nat) (v : Word) (s : State) : State :=
  let k := 0x200000 + 0x10000 * i + off
  if off = 0 then s.expLocked i (fun t =>
    let u := t.plainWrite k v
    if u.flag (F.EXP_SCAN_FIDX_EN i) then u
    else (u.clrFlag (F.EXP_STATUS_FIDX_OK i)).modExp i (fun e => { e with idxSeen := false, idxFix := false }))
  else if off = 4 ∨ off = 8 ∨ (0x400 ≤ off ∧ off < 0x600) then s.expLocked i (fun t => t.plainWrite k v)
  else if off = 0xC then effExpPicot i v s
  else if off = 0x10 then effExpTone i 0 v s
  else if off = 0x14 then effExpTone i 1 v s
  else if off = 0x18 then effFlyoff i v s
  else if off = 0x60 then effFctl i v s
  else if 0x80 ≤ off ∧ off < 0xA8 then
    s.expLocked i (fun t => if v.toNat % 512 = 256 then t.expErr i else t.plainWrite k v)
  else if 0x100 ≤ off ∧ off < 0x204 then
    s.expLocked i (fun t => if v.toNat % 2048 = 1024 then t.expErr i else t.plainWrite k v)
  else if 0x4000 ≤ off ∧ off < 0x6000 then effExpFire i ((off - 0x4000) / 64) ((off - 0x4000) / 4 % 16) v s
  else s.plainWrite k v

end Sys2Proof.Machine
end

