-- ==== Sys2Proof/Machine/Drydown.lean ====
section
/-!
DEFINITION. The start of a drydown (R412) and what it and the base reactions stop at once: loop slots, DMA channels,
motors, axes, inverters, laser enables; the fault outputs (R442).
-/
namespace Sys2Proof.Machine

/-! ### Laser enable (R183) -/

/-- Both channels of a station's loop are closed. -/
def State.loopClosed (s : State) (i : Nat) : Bool :=
  bit (s.fld F.ILK_STATUS_LOOPA) i && bit (s.fld F.ILK_STATUS_LOOPB) i

/-- LASER_ENs follows its three conditions (R183). -/
def State.laserUpdate (s : State) (i : Nat) : State :=
  let on := s.loopClosed i && (vget s.ilk i).armed && !s.drying
  s.setFld F.ILK_STATUS_LASER
    (if on then setBit (s.fld F.ILK_STATUS_LASER) i else clrBit (s.fld F.ILK_STATUS_LASER) i)

/-! ### Units -/

/-- STOP of a loop slot (R377). -/
def State.loopStop (s : State) (i : Nat) : State := s.modLoop i (fun l => { l with state := .stopped, startAfter := false })

/-- DISABLE of a DMA channel (R243): only a RUNNING one is affected, and drops its work at once. -/
def State.dmaDisable (s : State) (i : Nat) : State :=
  match Tab.get s.dmas i with
  | none => s
  | some d =>
    if d.state = .running then
      s.modDma i (fun c => { c with state := .disabling, fetch := none })
    else s

/-- SAFESTOP (R439): motors brake, axes stop, inverters stop. -/
def State.safeStop (s : State) : State :=
  (s.brakeAll.each (List.range 16) (fun t n => t.axSafeStop n false)).each [0, 1] State.invStop

/-- HEALTHY is cleared by hardware (R442): FLT_A and FLT_B follow it, and the alive signal stops (R443). -/
def State.unhealthy (s : State) : State := s.clrFlag F.FLT_CTRL_HEALTHY

/-! ### Drydown -/

/-- Severity of a fault source (R435). -/
def State.sev (s : State) (src : Nat) : Nat := bits (s.reg (R.FLT_SEV (src / 16))).toNat (2 * (src % 16)) 2

/-- FLT_STICKY[k] with the events that the collector has not taken yet (R436). -/
def State.stickyNow (s : State) (k : Nat) : Nat :=
  s.flt.raised.foldl (fun a src =>
    if src / 32 = k ∧ s.sev src ≠ 0 then setBit a (src % 32) else a)
    (s.reg (R.FLT_STICKY k)).toNat

/-- FLT_FIRST likewise: the lowest-numbered of the events of this instant, if no capture is held. -/
def State.firstNow (s : State) : Nat :=
  if s.flag F.FLT_FIRST_VALID then (s.reg R.FLT_FIRST).toNat
  else match (List.range 384).find? (fun src =>
      s.flt.raised.contains src && s.sev src != 0) with
    | some src => src + 2 ^ 9
    | none => (s.reg R.FLT_FIRST).toNat

/-- The drydown record (R464). -/
def State.drydownRecord (s : State) : List Byte :=
  leBytes 4 (s.reg R.PWR_CAUSE).toNat ++ ((List.range 12).map (fun k => leBytes 4 (s.stickyNow k))).flatten
    ++ leBytes 4 s.firstNow

/-- The station on which a page-wide cause is recorded: the job's reference station, or, once that station has ended
the page, the lowest-numbered one with lines still to expose. -/
def State.causeStn (s : State) (p : Page) (j : Job) : Nat :=
  if s.toExpose p j.ref then j.ref
  else ((List.range 4).find? (fun k => j.names k && s.toExpose p k)).getD j.ref

/-- Spoil one page for a page-wide cause on the line that station is completing (R30, R412, R439); a page past the last
line of its last station takes none (R34). -/
def State.spoilWhole (s : State) (i cause : Nat) (blank : Bool := false) : State :=
  match Tab.get s.pages i with
  | none => s
  | some p =>
    match s.jobOf p with
    | none => s
    | some j =>
      if s.toExpose p (s.causeStn p j) then s.spoilPage i (s.causeStn p j) cause (s.pageLine p (s.causeStn p j)) blank else s

/-- The device is powered and no drydown runs, so that one can start. -/
def PwrPhase.canDry : PwrPhase → Bool
  | .off | .drydown | .withdraw _ | .holdoff => false
  | _ => true

/-- The drydown runs (R412): until its last rail is off. -/
def PwrPhase.dryRuns : PwrPhase → Bool
  | .drydown | .withdraw _ => true
  | _ => false

/-- Bit of a cause in MASK. -/
def causeBit (cause : Nat) : Nat := 2 ^ (cause - 1)

/-- What stops at the start of a drydown (R412). -/
def State.dryStop (s : State) : State :=
  let s1 := s.each (List.range 4) State.laserUpdate
  let s2 := s1.each [0, 1] State.invStop
  let s3 := s2.each (s2.loops.map (·.1)) State.loopStop
  let s4 := s3.each (s3.dmas.map (·.1)) State.dmaDisable
  let s5 := (s4.each (List.range 8) State.lastSector).brakeAll.each (List.range 16) (fun t n => t.axSafeStop n true)
  s5.each (List.range 8) State.emergencyPark

/-- A drydown cause (R412, R28): the first starts the drydown, a later one only sets its bit. `keep` leaves the pages
alone: those of a device that has just let a takeover happen (R452). -/
def State.drydown (s : State) (cause : Nat) (rail bounces : Nat := 0) (keep : Bool := false) : State :=
  if s.pwr.phase.dryRuns then s.setFld F.PWR_CAUSE_MASK (s.fld F.PWR_CAUSE_MASK ||| causeBit cause)
  else if s.pwr.phase.canDry = false then s
  else
    let s1 := s.setReg R.PWR_CAUSE (BitVec.ofNat 32
      (cause + causeBit cause * 2 ^ 4 + rail % 16 * 2 ^ 12 + bounces % 8 * 2 ^ 16 + 2 ^ 19))
    let s2 := (s1.setFld F.PWR_STATUS_STATE 2).modPwr (fun p => { p with phase := .drydown, since := s.now })
    let s3 := s2.raiseEv (s2.fld F.PWR_EVGRP_HANDLE) 1
    let live := if keep then [] else s3.pagesIn .admitted ++ s3.pagesIn .printing
    let s4 := s3.each live (fun t i => (t.spoilWhole i 8).finishPage i s.now)
    let s5 := s4.dryStop.unhealthy
    s5.sillage 0x02 s5.drydownRecord

end Sys2Proof.Machine
end

