-- ==== Sys2Proof/Machine/Packets.lean ====
section
/-!
DEFINITION. The packet links: training of a Talosh port (R251, R252), reception, acknowledgement and replay (R256),
credits and protocol errors (R257). The accord link follows the same rules with its own training (R445, R446).
-/
namespace Sys2Proof.Machine

/-- Packet link `l`. -/
def State.pl (s : State) (l : Nat) : LinkSt := vget s.links l

/-- A link without packets, replay or credits: as it stands while it is not trained. Counts are kept. -/
def LinkSt.cleared (k : LinkSt) : LinkSt := { (default : LinkSt) with crcErr := k.crcErr, replayCnt := k.replayCnt, failedAt := k.failedAt }

/-! ### Training (R251, R252) -/

/-- Training step of a Talosh port. -/
def State.talState (s : State) (p : Nat) : Nat := s.fld (F.TAL_PORT_STATUS_STATE p)

/-- STATE and UP; a port that is not UP shows no generation or width. -/
def State.setTalState (s : State) (p st : Nat) : State :=
  let s1 := (s.setFld (F.TAL_PORT_STATUS_STATE p) st).putFlag (F.TAL_PORT_STATUS_UP p) (st == 4)
  if st = 4 then s1
  else ((s1.setFld (F.TAL_PORT_STATUS_GENUP p) 0).setFld (F.TAL_PORT_STATUS_WIDTH p) 0).clrFlag (F.TAL_PORT_STATUS_NARROW p)

/-- The port returns to DOWN: packets held for it are discarded, which frees the buffers of those it was to forward
(R252, R257). -/
def State.talDown (s : State) (p : Nat) (failed : Option Nat) : State :=
  ((s.setTalState p 0).modLink p (fun k => { k.cleared with failedAt := failed })).giveCredits
    ((s.pl p).waiting.filter (fun q => q.port != some p))

/-- An attempt starts at LOCK, counted in RETRAINS. -/
def State.talStart (s : State) (p : Nat) : State :=
  ((s.setTalState p 1).addSat (F.TAL_PORT_CNT_RETRAINS p) 1).modLink p (fun k => { k with
    failedAt := none, tryT2 := false, stepAt := s.now })

/-- Limit in ns of a training step of a Talosh port or of the accord link: LOCK, DESKEW, NEGOTIATE or HELLO (R251,
R445). -/
def stepLimit (st : Nat) : Nat :=
  match st with
  | 1 => 2000000
  | 2 => 100000
  | _ => 1000000

/-- Link `l`'s training step `st` has exceeded its limit. -/
def State.stepLate (s : State) (l st : Nat) : Bool := decide ((s.pl l).stepAt + stepLimit st < s.now)

/-- The limit of link `l`'s training step `st` has passed. -/
def State.stepOut (s : State) (l st : Nat) : Bool := decide ((s.pl l).stepAt + stepLimit st ≤ s.now)

/-- A failed step (R251). -/
def State.talFail (s : State) (p : Nat) : State :=
  ((s.setFld (F.TAL_PORT_STATUS_FAILSTEP p) (s.talState p)).raise (216 + p)).talDown p (some s.now)

/-- A port is lost (R252). -/
def State.talLose (s : State) (p : Nat) : State :=
  ((s.setFlag (F.TAL_PORT_STATUS_LOST p)).raise (216 + p)).talDown p (some s.now)

/-- TAL_PORT_TRAIN_RETRY: EN = 1 and 10 ms have passed since the last attempt. -/
def effTalRetry (p : Nat) (s : State) : State :=
  if s.talState p = 0 ∧ s.flag (F.TAL_PORT_CTRL_EN p) = true
      ∧ (match (s.pl p).failedAt with | none => true | some t => decide (t + 10000000 ≤ s.now)) = true
  then s.talStart p else s

/-- TAL_PORT_TRAIN_TIMEOUT: with GEN = AUTO a LOCK that failed at the Talosh 3 rate is tried at the Talosh 2 rate. -/
def effTalTimeout (p : Nat) (s : State) : State :=
  if s.stepOut p (s.talState p) = false then s
  else if s.talState p = 1 ∧ s.fld (F.TAL_PORT_CTRL_GEN p) = 0 ∧ (s.pl p).tryT2 = false then
    s.modLink p (fun k => { k with tryT2 := true, stepAt := s.now })
  else if 1 ≤ s.talState p ∧ s.talState p ≤ 3 then s.talFail p
  else s

/-- The width, coded as MAXW, that a LOCK on these lanes gives: none without lane 0 (R251). -/
def lockWidth (lanes : Nat) : Option Nat :=
  if lanes % 16 = 15 then some 2 else if lanes % 4 = 3 then some 1 else if lanes % 2 = 1 then some 0 else none

/-- TAL_PORT_TRAIN_STEP: LOCK completes on the lanes of the mask, DESKEW on those of the width found; NEGOTIATE
completes with CAPS. -/
def effTalStep (p lanes : Nat) (s : State) : State :=
  if (s.talState p = 1 ∨ s.talState p = 2) ∧ s.stepLate p (s.talState p) = true then effTalTimeout p s
  else if s.talState p = 1 then
    match lockWidth lanes with
    | some w => (s.setTalState p 2).modLink p (fun k => { k with width := w, stepAt := s.now })
    | none => s
  else if s.talState p = 2 then
    (s.setTalState p 3).modLink p (fun k => { k.cleared with
      granted := Credits.offer, tryT2 := k.tryT2, width := k.width, stepAt := s.now, linkOut := [⟨0x30, 0, 0, 0, 0, 0, []⟩] })
  else s

/-- The generation this end offers: 1 Talosh 2, 2 Talosh 3. -/
def State.talGen (s : State) (p : Nat) : Nat :=
  if s.fld (F.TAL_PORT_CTRL_GEN p) = 0 then (if (s.pl p).tryT2 then 1 else 2) else s.fld (F.TAL_PORT_CTRL_GEN p)

/-- NEGOTIATE completes (R251, R257): the lower generation and width of the two offers, a width no larger than LOCK
gave, the partner's credits. -/
def State.talUp (s : State) (p gen width : Nat) (c : Credits) : State :=
  let g := min gen (s.talGen p)
  let w := if g = 1 then 0 else min (min width (s.pl p).width) (s.fld (F.TAL_PORT_CTRL_MAXW p))
  ((((s.setTalState p 4).setFld (F.TAL_PORT_STATUS_GENUP p) g).setFld (F.TAL_PORT_STATUS_WIDTH p) w).putFlag
    (F.TAL_PORT_STATUS_NARROW p) (decide (w < s.fld (F.TAL_PORT_CTRL_MAXW p)))).modLink p
    (fun k => { k with credit := c, granted := Credits.offer, width := w })

/-- TAL_LANE_LOCK_LOSS (R252): block lock has been lost on a lane for `ns`: past 1 µs a trained port is lost; during
training the step fails. -/
def effTalLaneLoss (p ns : Nat) (s : State) : State :=
  if s.talState p = 4 then (if 1000 < ns then s.talLose p else s)
  else if s.talState p = 0 then s else s.talFail p

/-- A write to TAL_PORTp_CTRL (R251, R278): GEN 3 and MAXW 3 are refused. -/
def effTalCtrl (p : Nat) (v : Word) (s : State) : State :=
  if (F.TAL_PORT_CTRL_GEN p).of v = 3 ∨ (F.TAL_PORT_CTRL_MAXW p).of v = 3 then s
  else
    let s1 := s.plainWrite (R.TAL_PORT_CTRL p) v
    if (F.TAL_PORT_CTRL_EN p).of v = 0 then (if s.talState p = 0 then s1 else s1.talDown p (some s.now))
    else if (F.TAL_PORT_CTRL_RETRAIN p).of v = 1 then (s1.talDown p none).talStart p
    else if s.talState p = 0 ∧ (s.pl p).failedAt = none then s1.talStart p
    else s1

/-! ### The accord link's states (R445) -/

/-- STATE of ACD_STATUS. -/
def State.acdState (s : State) : Nat := s.fld F.ACD_STATUS_STATE

/-- The accord link goes down. -/
def State.acdDown (s : State) (failed : Option Nat) : State :=
  if s.hasAccord = false ∨ s.acdState = 0 then s
  else ((s.setFld F.ACD_STATUS_STATE 0).modLink 2 (fun k => { k.cleared with failedAt := failed })).modAcd (fun a => { a with
    failedAt := failed, failStep := s.acdState, helloSent := false
    downSince := if s.acdState = 4 then some s.now else a.downSince })

/-- Link `l` is lost (R252, R178). -/
def State.linkLose (s : State) (l : Nat) : State := if l < 2 then s.talLose l else s.acdDown (some s.now)

/-- Link `l` takes packets: it is up, or it is the accord link in its HELLO step. -/
def State.linkHears (s : State) (l : Nat) : Bool := if l < 2 then s.linkUp l else s.linkUp l || s.acdState == 3

/-! ### Reception (R256, R257) -/

/-- A protocol error (R257): PROTO and FS218 on a Talosh port; the link is lost. -/
def State.protoError (s : State) (l : Nat) : State :=
  if l < 2 then ((s.setFlag (F.TAL_PORT_STATUS_PROTO l)).raise 218).talLose l else s.linkLose l

/-- A packet discarded for CRC or SEQ (R256): counted, and the first of a run answered with NAK. -/
def State.discardPkt (s : State) (l : Nat) : State :=
  s.modLink l (fun k => { k with
    crcErr := capNat 0xFFF (k.crcErr + 1), naked := true
    linkOut := if k.naked then k.linkOut else [⟨0x33, 0, 0, 0, 0, (k.rxSeq + 4095) % 4096, []⟩] })

/-- Known types of packets that carry a SEQ (R253, R446). -/
def typeKnown (l type : Nat) : Bool :=
  if l = 2 then decide (1 ≤ type ∧ type ≤ 0x0C)
  else [0x01, 0x02, 0x03, 0x04, 0x05, 0x06, 0x08, 0x09, 0x0A].contains type

/-- A packet arrives in sequence: acknowledged, its credits used, then performed; `perform` gives the credits back. -/
def State.recvPkt (s : State) (l : Nat) (p : PktIn) (perform : State → State) : State :=
  if s.linkHears l = false then s
  else if p.crcOk l = false ∨ p.pkt.seq % 4096 ≠ (s.pl l).rxSeq then s.discardPkt l
  else if p.reserved ∨ typeKnown l p.pkt.type = false
      ∨ (s.pl l).granted.covers (pktClass l p.pkt.type) (pktCost p.pkt) = false then s.protoError l
  else
    perform (s.modLink l (fun k => { k with
      rxSeq := (k.rxSeq + 1) % 4096, naked := false, unacked := 0, linkOut := [⟨0x32, 0, 0, 0, 0, k.rxSeq, []⟩]
      granted := k.granted.sub (pktClass l p.pkt.type) (pktCost p.pkt).1 (pktCost p.pkt).2 }))

/-- A link packet arrives: CAPS, CREDIT, ACK or NAK. -/
def State.recvLink (s : State) (l : Nat) (p : PktIn) (perform : State → State) : State :=
  if p.crcOk l = false then s.discardPkt l
  else if p.reserved then s.protoError l
  else perform s

/-! ### Acknowledgement and replay -/

/-- Packets of the replay buffer up to a SEQ, and those after it. -/
def splitAcked (l : List Pkt) (seq : Nat) : List Pkt × List Pkt :=
  if l.any (fun q => q.seq == seq) then
    (match l.span (fun q => q.seq != seq) with
      | (a, b :: r) => (a ++ [b], r)
      | (a, []) => (a, []))
  else ([], l)

/-- STAGE packets the partner has taken: their blocks are held there too (R272, R448). -/
def State.stageAcked (s : State) (l : List Pkt) : State :=
  let blocks := (l.filter (fun q => q.type == 4)).map (fun q => (q.addr / 2 ^ 48, q.addr % 2 ^ 48))
  if blocks.isEmpty then s
  else (s.modStq (fun q => { q with cmds := q.cmds.map (fun c =>
    { c with unheld := c.unheld.filter (fun b => !blocks.contains (c.vol, b)) }) })).checkWrites

/-- Everything up to `seq` has been received in order (R256). -/
def State.ackUpTo (s : State) (l seq : Nat) : State :=
  let k := s.pl l
  let r := splitAcked k.replay seq
  if r.1.isEmpty then s
  else
    let s1 := (s.modLink l (fun x => { x with replay := r.2, replays := 0, lastAck := s.now })).drainLink l
    if l = 2 then s1.stageAcked r.1 else s1

/-- Everything still in the replay buffer is sent again, in order; four replays without progress lose the link (R252,
R256). -/
def State.replayAll (s : State) (l : Nat) : State :=
  let k := s.pl l
  if k.replay.isEmpty then s
  else if 4 ≤ k.replays then s.linkLose l
  else s.modLink l (fun x => { x with
    wire := x.replay.flatMap (fun p => p.blocks l x.width)
    replays := x.replays + 1, lastAck := s.now, replayCnt := capNat 0xFFF (x.replayCnt + 1) })

/-- ACK. -/
def effAck (l : Nat) (p : PktIn) (s : State) : State :=
  if s.linkHears l = false then s else s.recvLink l p (fun t => t.ackUpTo l (p.pkt.addr % 4096))

/-- NAK. -/
def effNak (l : Nat) (p : PktIn) (s : State) : State :=
  if s.linkHears l = false then s else s.recvLink l p (fun t => (t.ackUpTo l (p.pkt.addr % 4096)).replayAll l)

/-- REPLAY_TIMEOUT: no ACK within 100 µs. -/
def effReplayTimeout (l : Nat) (s : State) : State :=
  if s.linkHears l ∧ (s.pl l).lastAck + 100000 ≤ s.now then s.replayAll l else s

/-- CREDIT (R257): credits come back, and packets that waited for them go. -/
def effTalCredit (l : Nat) (p : PktIn) (c : Credits) (s : State) : State :=
  if s.linkHears l = false then s
  else s.recvLink l p (fun t => (t.modLink l (fun k =>
    { k with credit := ((k.credit.add 0 c.ph c.pd).add 1 c.nh c.nd).add 2 c.ch c.cd })).drainLink l)

/-- CAPS: completes NEGOTIATE of a Talosh port; on the accord link it only states the partner's credits. -/
def effCaps (l : Nat) (p : PktIn) (gen width : Nat) (c : Credits) (s : State) : State :=
  if l < 2 then
    (if s.talState l = 3 ∨ s.linkUp l = true then
      s.recvLink l p (fun t => if t.talState l = 3 then t.talUp l gen width c else t)
    else s)
  else if s.acdState = 3 then s.recvLink l p (fun t => t.modLink l (fun k => { k with credit := c })) else s

end Sys2Proof.Machine
end

