-- ==== Sys2Proof/Machine/Thermal.lean ====
section
/-!
DEFINITION. The thermal round (R415 to R423), its part of admission (R418, R165), the latches of a page boundary
(R164, R420, R422) and the acknowledgement of a thermal shutdown (R421).
-/
namespace Sys2Proof.Machine

/-! ### Conversion -/

def State.thm64 (s : State) (i : Nat) : ThmCh := vget s.thm.chans i
def State.modThmCh (s : State) (i : Nat) (f : ThmCh → ThmCh) : State :=
  s.modThm (fun t => { t with chans := vmod t.chans i f })

/-- A value kept in 16 signed bits; the spec states no result outside them: a free value. -/
def State.narrow16 (s : State) (i : Int) : State × Int :=
  if -32768 ≤ i ∧ i ≤ 32767 then (s, i) else (s.tookFree, sx 16 s.freeWord.toNat)

/-- Table point `i` of table `t` (R431). -/
def State.thmTab (s : State) (t i : Nat) : Int := sx 16 (s.reg (R.THM_TAB0 i + 0x100 * t)).toNat

/-- Interpolation in a table (R415). The spec states no rounding: a value between two integers is either of them, by
a free value. -/
def State.thmInterp (s : State) (t raw : Nat) : State × Int :=
  let i := raw / 2048
  let num := (s.thmTab t (i + 1) - s.thmTab t i) * ((raw % 2048 : Nat) : Int)
  if num % 2048 = 0 then (s, s.thmTab t i + num / 2048)
  else (s.tookFree, s.thmTab t i + num / 2048 + (s.freeWord.toNat % 2 : Nat))

/-- ENG of a good conversion (R415, R416). CONV 0, 6 and 7 of a housekeeping channel have no conversion: a free
value. -/
def State.convert (s : State) (i raw : Nat) : State × Int :=
  let gain := s.fld (F.THM_CH_GAIN_GAIN i)
  let ofs := s.sfld (F.THM_CH_GAIN_OFS i)
  if i = 15 then (s, 0)
  else if i < 24 then (s, sx 16 raw)
  else if i < 56 then
    let conv := s.fld (F.THM_CH_CFG_CONV i)
    if conv = 1 then s.narrow16 ((raw % 65536 * gain / 65536 : Nat) + ofs)
    else if 2 ≤ conv ∧ conv ≤ 5 then s.thmInterp (conv - 2) (raw % 65536)
    else (s.tookFree, sx 16 s.freeWord.toNat)
  else s.narrow16 (asr (sx 16 raw * gain) 16 + ofs)

/-- A level flag (R417): rises at its limit, falls 16 below it; 0x7FFF disables the limit. -/
def levelFlag (lim eng : Int) (was : Bool) : Bool :=
  lim != 0x7FFF && (decide (lim ≤ eng) || (was && decide (lim - 16 < eng)))

/-- WARN, COMMIT, SHUT and ROR of a channel, signed. -/
def State.thmWarn (s : State) (i : Nat) : Int := s.sfld (F.THM_CH_LIM1_WARN i)
def State.thmCommit (s : State) (i : Nat) : Int := s.sfld (F.THM_CH_LIM1_COMMIT i)
def State.thmShut (s : State) (i : Nat) : Int := s.sfld (F.THM_CH_LIM2_SHUT i)
def State.thmRor (s : State) (i : Nat) : Int := s.sfld (F.THM_CH_LIM2_ROR i)

/-- A thermal shutdown (R421): FS363, its sillage record, TSD_LOCK and its MRAM copy, and a drydown with cause 5. -/
def State.thermalShutdown (s : State) (i : Nat) : State :=
  let c := s.thm64 i
  let seq := s.nvm.seq + s.nvm.queue.length
  let s1 := (s.raise 363).sillage 0x03 (leBytes 2 i ++ leBytes 2 (ux 16 c.eng) ++ leBytes 2 (ux 16 c.slope))
  let s2 := (s1.modThm (fun t => { t with tsd := true, tsdSeq := seq })).setFlag F.THM_TSD_TSD_LOCK
  (s2.setFld F.THM_TSD_SEQ seq).drydown 5

/-- One channel of the round: conversion, staleness, slope, flags (R415, R417). -/
def State.thmChannel (s : State) (i : Nat) (raw : Option Nat) : State :=
  let c := s.thm64 i
  let conv : State × Int := match raw with
    | some r => s.convert i r
    | none => (s, c.eng)
  let fails := if raw.isSome then 0 else c.fails + 1
  let s1 := conv.1
  let s2 := if raw.isSome then s1.clrFlag (F.THM_CH_ST_STALE i)
    else if 3 ≤ fails ∧ s1.flag (F.THM_CH_ST_STALE i) = false then (s1.setFlag (F.THM_CH_ST_STALE i)).raise 367 else s1
  let hist := (c.eng :: c.hist).take 100
  let slope := s2.narrow16 (conv.2 - hist.getD 99 0)
  let ror := s.thmRor i != 0x7FFF && decide (s.thmRor i < slope.2)
  let rise := ror && !c.ror
  let s3 := slope.1.modThmCh i (fun _ => ⟨conv.2, fails, hist, slope.2, ror⟩)
  let warn := levelFlag (s.thmWarn i) conv.2 (s.flag (F.THM_CH_ST_WARNF i))
  let com := levelFlag (s.thmCommit i) conv.2 (s.flag (F.THM_CH_ST_COMMITF i))
  let shut := levelFlag (s.thmShut i) conv.2 (s.flag (F.THM_CH_ST_SHUTF i))
  let s4 := ((s3.putFlag (F.THM_CH_ST_WARNF i) warn).putFlag (F.THM_CH_ST_COMMITF i) com).putFlag (F.THM_CH_ST_SHUTF i) shut
  let s5 := s4.raiseIf (warn && !s.flag (F.THM_CH_ST_WARNF i)) 360
  let s6 := if rise then (s5.setFlag (F.THM_CH_ST_RORF i)).raise 361 else s5
  if (shut && !s.flag (F.THM_CH_ST_SHUTF i)) || (rise && s.flag (F.THM_CH_CFG_RORSD i)) then s6.thermalShutdown i else s6

/-! ### Throttles (R419, R420, R422) -/

/-- The largest excess over WARN among channels of some roles; 0 if there is none (R419, R422). -/
def State.thmExcess (s : State) (roles : List Nat) : Nat :=
  (List.range 64).foldl (fun a i =>
    if roles.contains (s.fld (F.THM_CH_CFG_ROLE i)) ∧ s.thmWarn i ≠ 0x7FFF then max a ((s.thm64 i).eng - s.thmWarn i).toNat
    else a) 0

/-- CH_REQ (R420). -/
def State.chReq (s : State) : Nat :=
  (List.range 64).foldl (fun a i =>
    if s.flag (F.THM_CH_CFG_SPD i) = true ∧ s.thmWarn i ≠ 0x7FFF ∧ s.thmWarn i ≤ (s.thm64 i).eng then
      max a (min 800 (((s.thm64 i).eng - s.thmWarn i).toNat * s.fld (F.THM_CH_RATE_RATE i) / 16))
    else a) 0

/-- A job in RUNNING or STOPPING runs above 120,012 lines/s (R422). -/
def State.peakJob (s : State) : Bool :=
  s.jobs.any (fun e => e.2.active && (let r := s.jobLineRate e.2; decide (120012 * r.2 < r.1)))

/-- The peak account at a round (R422). -/
def State.peakRound (s : State) : State :=
  let mx := s.fld F.THM_PEAKCFG_PEAK_MAX
  let rec_ := max 1 (s.fld F.THM_PEAKCFG_RECOV)
  let a := s.thm.acc
  if s.peakJob then
    let b := if a < mx then a + 1 else a
    let s1 := s.modThm (fun t => { t with acc := b, recov := 0 })
    if mx ≤ b ∧ s.flag F.THM_PEAK_OVER = false then (s1.setFlag F.THM_PEAK_OVER).raise 364 else s1
  else if s.thm.recov + 1 < rec_ then s.modThm (fun t => { t with recov := t.recov + 1 })
  else
    let s1 := s.modThm (fun t => { t with acc := a - 1, recov := 0 })
    if a - 1 = 0 then (s1.clrFlag F.THM_PEAK_OVER).setFld F.THM_PEAK_PEAK_REQ 0 else s1

/-- The write window of an HDA port (R423). -/
def State.hdaWindow (s : State) (h : Nat) : State :=
  if s.hasHda h = false then s
  else
    let was := bit (s.fld F.THM_HDA_WIN) h
    let now := match (List.range 64).find? (fun i => s.fld (F.THM_CH_CFG_ROLE i) == 4 && s.fld (F.THM_CH_CFG_UNIT i) == h) with
      | none => false
      | some i =>
        let e := (s.thm64 i).eng
        !s.flag (F.THM_CH_ST_STALE i) && (decide (96 ≤ e ∧ e ≤ 944) || (was && decide (80 ≤ e ∧ e ≤ 960)))
    let s1 := s.setFld F.THM_HDA_WIN (if now then setBit (s.fld F.THM_HDA_WIN) h else clrBit (s.fld F.THM_HDA_WIN) h)
    s1.raiseIf (was && !now) 365

/-- The holdover correction of a synthesizer (R429): TC1 × (T − 25) + TC2 × (T − 25)², T of die sensor floor(n / 2). -/
def State.holdCorr (s : State) (n : Nat) : State :=
  if s.flag (F.CLK_STATUS_HOLD n) then
    let d := (s.thm64 (n / 2)).eng - 400
    s.modPll n (fun p => { p with corr := s.sfld (F.CLK_TC_TC1 n) * 4096 * d + s.sfld (F.CLK_TC_TC2 n) * d * d })
  else s

/-- The bytes the I2C port writes for channel `i` (R416): address with write, register pointer, and, after a repeated
start, address with read. -/
def State.i2cSent (s : State) (i : Nat) : List Nat :=
  let a := s.fld (F.THM_CH_CFG_ADDR i) * 2
  [a, s.fld (F.THM_CH_CFG_PTR i), a + 1]

/-- Clock of the I2C port in kHz (R416, R431). -/
def State.i2cKhz (s : State) : Nat := match s.fld F.THM_I2C_SPEED with | 0 => 100 | 1 => 400 | _ => 1000

/-- The value of an I2C conversion (R416): two bytes, most significant first; a NACK or a stretch of more than 1 ms
fails it. -/
def I2cReply.value (r : I2cReply) : Option Nat :=
  if r.acks = 7 ∧ r.stretch.toNat ≤ 1000 then some (256 * r.first.toNat + r.second.toNat) else none

/-- The code of a converter channel (R415, R479): a die sensor in 1/16 °C as it stands; VIN and the sensed rails, in mV,
the latter over 4 V, in 10 mV; XMONk, in µV over 1.2 V, as 40 times its voltage in 10 mV; HKk, in µV over 1.8 V. -/
def thmCode (i : Nat) (x : Int) : Nat :=
  if i < 8 then ux 16 x
  else if i < 15 then (clampInt 0 (if i = 8 then 655350 else 4000) x / 10).toNat
  else if i < 24 then (clampInt 0 1200000 x / 250).toNat
  else adcCode 1800000 x

/-- The thermal round (R415), at press-time multiples of 10,000,000 ns, once each: the conversions of channels 0 to 55 in
order, `none` for one that fails, and the replies of the sensors of channels 56 to 63. -/
def effThermalRound (raw : List (Option Int)) (bus : List I2cReply) (s0 : State) : State :=
  if s0.now % 10000000 ≠ 0 ∨ s0.thm.roundAt = some s0.now then s0 else
  let s := s0.modThm (fun t => { t with roundAt := some s0.now })
  let s1 := s.each (List.range 64) (fun t i => t.thmChannel i
    (if i < 56 then (raw.getD i none).map (thmCode i) else (bus.getD (i - 56) default).value))
  let s2 := s1.setFld F.THM_FUSER_PHASE_CAP (256 - s1.thmExcess [2] * s1.fld F.THM_FUSER_FRATE / 16)
  let s3 := (s2.setFld F.THM_SPD_CH_REQ s2.chReq).peakRound
  (s3.each (List.range 4) State.hdaWindow).each (List.range 16) State.holdCorr

/-! ### Admission and page boundaries -/

/-- Condition bit 2 of R22 (R418, R165) for a page of `len` lines of job `j`: whether a channel holds it, and the
heads that hold it. -/
def State.thermalHold (s : State) (j : Job) (len : Nat) : Bool × List Nat :=
  let r := s.jobLineRate j
  let lines : Int := (256 + len + j.maxOffset : Nat)
  let ch := (List.range 64).any (fun i =>
    s.flag (F.THM_CH_CFG_CEN i) && (s.flag (F.THM_CH_ST_STALE i)
      || (s.thmCommit i != 0x7FFF && decide ((s.thmCommit i - (s.thm64 i).eng) * r.1 ≤ max 0 (s.thm64 i).slope * lines * r.2))))
  let heads := (setBitsOf 4 j.stn).filter (fun i =>
    let ht := if s.flag (F.LAC_STATUS_HOT_TRIP i) || s.flag (F.LAC_STATUS_TEMP_STALE i) then s.sfld (F.LAC_TABS_TLIM i)
      else s.headT i
    decide (s.sfld (F.LAC_TCOMMIT_TLIM i) ≤ ht))
  (ch, heads)

/-- The latches of a page boundary of a job (R164, R420, R422). -/
def State.pageBoundary (s : State) (j : Job) : State :=
  let s1 := s.each (setBitsOf 4 j.stn) (fun t i =>
    (t.setFld (F.LAC_SPDBND_SPD_BND i) (t.fld (F.LAC_THERM_SPD_REQ i))).raiseIf
      (t.fld (F.LAC_THERM_SPD_REQ i) != 0) (114 + 8 * i))
  let s2 := if s1.flag F.THM_PEAK_OVER then
      s1.setFld F.THM_PEAK_PEAK_REQ (min 267 (s1.fld F.THM_PEAK_PEAK_REQ + s1.fld F.THM_PEAKCFG_PEAK_STEP
        + s1.thmExcess [2, 3] * s1.fld F.THM_FUSER_PRATE / 16))
    else s1
  let all := (List.range 4).foldl (fun a i => if s2.hasStn i then max a (s2.fld (F.LAC_THERM_SPD_REQ i)) else a)
    (max (s2.fld F.THM_SPD_CH_REQ) (s2.fld F.THM_PEAK_PEAK_REQ))
  (s2.setFld F.THM_SPD_SPD_ALL all).raiseIf (all != 0) 366

/-! ### Registers -/

/-- THM_TSD_ACK (R421): only a Talosh register packet with the key and the record's SEQ clears the lock. -/
def effTsdAck (fromTalosh : Bool) (v : Word) (s : State) : State :=
  if fromTalosh ∧ F.THM_TSD_ACK_KEY.of v = 0xA5 ∧ s.flag F.THM_TSD_TSD_LOCK = true
      ∧ F.THM_TSD_ACK_SEQ.of v = s.fld F.THM_TSD_SEQ then
    (s.clrFlag F.THM_TSD_TSD_LOCK).modThm (fun t => { t with tsd := false })
  else s

/-- What a write to the THM window stores (R431): SPEED 3 is refused, CONV of channels 0 to 23 is read-only. -/
def State.thmStore (off : Nat) (v : Word) (s : State) : State :=
  let k := 0x690000 + off
  if k = R.THM_I2C then (if F.THM_I2C_SPEED.of v = 3 then s else s.plainWrite k v)
  else if 0x1000 ≤ off ∧ off < 0x1000 + 24 * 0x20 ∧ off % 0x20 = 0 then
    s.plainWrite k (BitVec.ofNat 32 (setBits v.toNat 0 3 (bits (s.reg k).toNat 0 3)))
  else s.plainWrite k v

/-- A write to the THM window: CH_REQ and the write windows follow what it sets (R420, R423). -/
def wrThm (off : Nat) (v : Word) (s : State) : State :=
  let t := s.thmStore off v
  (t.setFld F.THM_SPD_CH_REQ t.chReq).each (List.range 4) State.hdaWindow

end Sys2Proof.Machine
end

