-- ==== Sys2Proof/Machine/Clocks.lean ====
section
/-!
DEFINITION. The synthesizers and the reference (R424 to R429, R432, R489).
-/
namespace Sys2Proof.Machine

/-- A synthesizer's own state. -/
def State.pll (s : State) (n : Nat) : PllSt := vget s.plls n

/-- PLn is a pixel synthesizer. -/
def isPixel (n : Nat) : Bool := decide (3 ≤ n) && decide (n ≤ 6)

/-- The settings its registers hold: staged ones for a pixel synthesizer (R426). -/
def State.staged (s : State) (n : Nat) : PllSet where
  refmul := s.fld (F.CLK_CTRL_REFMUL n)
  pdiv := s.fld (F.CLK_CTRL_PDIV n)
  bw := s.fld (F.CLK_CTRL_BW n)
  nint := s.fld (F.CLK_NINT_NINT n)
  nfrac := s.fld (F.CLK_NFRAC_NFRAC n)
  nmod := s.fld (F.CLK_NMOD_NMOD n)
  outs := (List.range 4).map (fun k => (s.reg (R.CLK_OUT n k)).toNat % 2 ^ 16)

/-- The limits of R425. -/
def pllLimits (n : Nat) (p : PllSet) : Bool :=
  let fref := if n = 15 then 25000000 else 100000000
  let mul := if p.refmul = 1 then 4 else if p.refmul = 2 then 1 else 2
  let pfd := fref * mul
  let pdiv := 2 * (p.pdiv + 1)
  let dco := pfd * (p.nint * p.nmod + p.nfrac)
  decide (10000000 * pdiv ≤ pfd) && decide (pfd ≤ 200000000 * pdiv)
    && inRange 16 255 p.nint && inRange 1 16777215 p.nmod && decide (p.nfrac < p.nmod)
    && decide (4000000000 * (pdiv * p.nmod) ≤ dco) && decide (dco ≤ 6000000000 * (pdiv * p.nmod))
    && p.outs.all (fun o => decide (1 ≤ o % 512))

/-- The clock test of a job (R427). -/
def State.jobClocks (s : State) (stn : Nat) (pixclk : List Nat) : Bool :=
  (setBitsOf 4 stn).all (fun i =>
    let p := s.staged (3 + i)
    let f := pllFreq (3 + i) p 0
    pllLimits (3 + i) p && bit (lget p.outs 0) 15 && decide (f.1 = lget pixclk i * 1000 * f.2))

/-- PEND follows the staged settings (R426). -/
def State.pendRefresh (s : State) (n : Nat) : State :=
  s.putFlag (F.CLK_STATUS_PEND n) (isPixel n && decide (s.staged n ≠ (s.pll n).force))

/-- What the loss of a pixel clock does to its station's pages: those with lines to expose are spoiled with cause
0x02 from the line in progress, those ADMITTED at their first line (R428, R25). -/
def State.pixelPages (s : State) (i : Nat) : State :=
  (s.each (s.notBegunOn i) (fun t p => t.spoilPage p i 2 0)).spoilStation i 2

/-- A pixel synthesizer loses its clock with pages possibly in progress: FS370 (R428). -/
def State.pixelLost (s : State) (i : Nat) : State := ((s.raise 370).pixelPages i).pixelStop i

/-- Settings applied (R426): outputs gated off, settings loaded, relocking. -/
def State.applyPll (s : State) (n : Nat) : State :=
  let s1 := ((s.clrFlag (F.CLK_STATUS_LOCK n)).modPll n (fun p => { p with
    force := s.staged n, gated := true, lossGated := false, relockAt := none, fromApply := true })).pendRefresh n
  if isPixel n then s1.pixelStop (n - 3) else s1

/-- CFG_BUSY. -/
def State.clkBusy (s : State) (n : Nat) : State := s.setFlag (F.CLK_STATUS_CFG_BUSY n)

/-- A write to CLKn_CTRL (R424, R426, R432). -/
def effClkApply (n : Nat) (v : Word) (s : State) : State :=
  if isPixel n = false then s.clkBusy n
  else if (F.CLK_CTRL_REFMUL n).of v = 3 then s.setFlag (F.CLK_STATUS_CFG_ERR n)
  else
    let was := s.flag (F.CLK_CTRL_EN n)
    let s1 := (s.plainWrite (R.CLK_CTRL n) v).pendRefresh n
    let s2 := if was && (F.CLK_CTRL_EN n).of v == 0 then
        ((s1.pixelLost (n - 3)).clrFlag (F.CLK_STATUS_LOCK n)).modPll n (fun p => { p with gated := true, lossGated := false })
      else s1
    if (F.CLK_CTRL_APPLY n).of v = 0 then s2
    else if (s2.jobOn (n - 3)).isSome then s2.clkBusy n
    else if pllLimits n (s2.staged n) = false then s2.setFlag (F.CLK_STATUS_CFG_ERR n)
    else s2.applyPll n

/-- PLn may lock: it runs and has a reference. -/
def State.pllRuns (s : State) (n : Nat) : Bool :=
  s.hasPll n && (s.flag (F.CLK_CTRL_EN n) || (decide (7 ≤ n) && decide (n ≤ 14))) && !(s.pll n).refGated

/-- The synthesizer reaches lock (R426, R428). After an application its outputs start; after a loss they wait 100 µs. -/
def effClkLockAcquired (n : Nat) (s : State) : State :=
  if s.pllRuns n = false ∨ s.flag (F.CLK_STATUS_LOCK n) = true then s
  else
    let p := s.pll n
    let s1 := s.setFlag (F.CLK_STATUS_LOCK n)
    let s2 := if p.lossGated then s1.modPll n (fun q => { q with relockAt := some s.now, fromApply := false })
      else s1.modPll n (fun q => { q with gated := false, fromApply := false })
    let s3 := if 7 ≤ n ∧ n ≤ 14 then s2.noteDisk (n - 7) else s2
    if p.fromApply && isPixel n then s3.setUnit (n - 3) else s3

/-- What a synthesizer without LOCK does to what it clocks (R428). -/
def State.lockEffects (s : State) (n : Nat) : State :=
  if n < 2 then s.raise 368
  else if n = 2 then (((s.raise 369).each (List.range 4) State.elkLose).acdDown (some s.now))
  else if n ≤ 6 then s.pixelLost (n - 3)
  else if n ≤ 14 then
    let d := n - 7
    ((s.raise 371).raiseIf (s.sectorBusy d) (235 + 4 * d)).guardClose d
  else s.raise 372

/-- Loss of lock or of reference: LOCK falls, LOL is set, the outputs are gated off. -/
def State.unlock (s : State) (n : Nat) (ref : Bool) : State :=
  (((s.clrFlag (F.CLK_STATUS_LOCK n)).setFlag (F.CLK_STATUS_LOL n)).modPll n (fun p => { p with
    gated := true, lossGated := true, relockAt := none, fromApply := false, refGated := ref })).lockEffects n

/-- A phase error, in fs, exceeds 1/8 of the DCO period (R425, R428). -/
def State.phaseFar (s : State) (n : Nat) (err : Int) : Bool :=
  let f := pllDco n (s.pll n).force
  decide (1000000000000000 * f.2 < err.natAbs * 8 * f.1)

/-- LOCK falls when the phase error exceeds 1/8 of the DCO period for 1 µs (R428). -/
def effClkLossOfLock (n : Nat) (err : Int) (heldNs : Nat) (s : State) : State :=
  if s.flag (F.CLK_STATUS_LOCK n) = true ∧ s.phaseFar n err = true ∧ 1000 ≤ heldNs then s.unlock n false else s

/-- The gated outputs restart after LOCK has held for 100 µs (R428). -/
def effClkOutputRestart (n : Nat) (s : State) : State :=
  match (s.pll n).relockAt with
  | some t =>
    if s.flag (F.CLK_STATUS_LOCK n) = true ∧ t + 100000 ≤ s.now then
      s.modPll n (fun p => { p with gated := false, lossGated := false, relockAt := none })
    else s
  | none => s

/-! ### The reference (R429) -/

/-- REFCLK is lost (R429): no edge for 100 ns, or its cycles in 1 ms of the crystal differ from 100,000 by more than
500 ppm. -/
def refclkGone (quiet cycles : Nat) : Bool := decide (100 ≤ quiet) || decide (cycles < 99950) || decide (100050 < cycles)

/-- REFCLK is lost: holding synthesizers freeze, a pixel synthesizer with HOLD_EN = 0 is gated off. On the crystal path
nothing else changes. -/
def effRefclkLoss (quiet cycles : Nat) (s : State) : State :=
  if s.ref.lost = true ∨ refclkGone quiet cycles = false then s
  else
    let s1 := (s.setFlag F.CLK_REF_REFLOST).raise 373
    if s.flag F.CLK_REF_SRC then { s1 with ref := { s1.ref with lost := true } }
    else
      ({ s1 with ref := ⟨true, some s.now⟩ }).each (List.range 7) (fun t n =>
        if t.pllRuns n = false ∨ t.flag (F.CLK_STATUS_LOCK n) = false then t
        else if t.flag (F.CLK_CTRL_HOLD_EN n) then
          (t.setFlag (F.CLK_STATUS_HOLD n)).modPll n (fun p => { p with holdSince := some s.now, holdLong := false, switchWait := false })
        else t.unlock n true)

/-- A synthesizer leaves holdover. -/
def State.unhold (s : State) (n : Nat) : State :=
  (s.clrFlag (F.CLK_STATUS_HOLD n)).modPll n (fun p => { p with holdSince := none, switchWait := false, corr := 0 })

/-- The reference changes path: holding synthesizers relock slewed, a pixel synthesizer only once no page of its
station is ADMITTED or PRINTING; one gated off for its reference may lock again. -/
def State.refChange (s : State) (crystal : Bool) : State :=
  (s.putFlag F.CLK_REF_SRC crystal).each (List.range 7) (fun t n =>
    let u := t.modPll n (fun p => { p with refGated := false })
    if u.flag (F.CLK_STATUS_HOLD n) = false then u
    else if isPixel n && u.pageActive (n - 3) then u.modPll n (fun p => { p with switchWait := true })
    else u.unhold n)

/-- A page of the station has ended: its synthesizer leaves holdover if it waited for that (R429). -/
def State.holdRelease (s : State) (i : Nat) : State :=
  if (s.pll (3 + i)).switchWait && !s.pageActive i then s.unhold (3 + i) else s

/-- REF_SW in ms; 0 acts as 1. -/
def State.refSw (s : State) : Nat := max 1 (s.fld F.CLK_REF_REF_SW) * 1000000

/-- REF_SW ms after the loss the reference changes to the crystal path. -/
def effRefSwitch (s : State) : State :=
  match s.ref.switchDue with
  | some t => if t + s.refSw ≤ s.now then { s.refChange true with ref := { s.ref with switchDue := none } } else s
  | none => s

/-- A REFCLK that has been valid for 100 ms without interruption is taken back. -/
def effRefclkRestore (validNs : Nat) (s : State) : State :=
  if validNs < 100000000 then s else
  let s1 : State := { s with ref := { s.ref with lost := false } }
  if s.flag F.CLK_REF_SRC then s1.refChange false else s1

/-- The holdover of a synthesizer has lasted longer than HO_MAX, which has not been told yet. -/
def State.holdOver (s : State) (n : Nat) : Bool :=
  match (s.pll n).holdSince with
  | some t => decide (t + max 1 (s.fld F.CLK_REF_HO_MAX) * 1000000000 < s.now) && !(s.pll n).holdLong
  | none => false

/-- HOLDOVER_TIMEOUT: holdover that lasts longer than HO_MAX sets FS374, once. -/
def effHoldoverTimeout (s : State) : State :=
  (s.raiseIf ((List.range 7).any s.holdOver) 374).each ((List.range 7).filter s.holdOver) (fun t n =>
    t.modPll n (fun p => { p with holdLong := true }))

/-! ### Boot settings and register writes -/

/-- One synthesizer programmed by the boot ROM (R489): NINT and the divider of each listed output. -/
def State.bootPll (s : State) (n nint : Nat) (divs : List Nat) : State :=
  let s1 := s.setFld (F.CLK_NINT_NINT n) nint
  let s2 := s1.each (List.range divs.length) (fun t k => t.setReg (R.CLK_OUT n k) (BitVec.ofNat 32 (lget divs k + 2 ^ 15)))
  (s2.setFlag (F.CLK_STATUS_LOCK n)).modPll n (fun p => { p with
    force := s2.staged n, gated := false, lossGated := false, relockAt := none })

/-- PL1 by the data rate of MEM_CFG (R489). -/
def State.bootPl1 (s : State) (rate : Nat) : State :=
  s.bootPll 1 (if rate = 1 then 56 else 48) [if rate = 0 then 3 else 4]

/-- A write to CLKn_LOCK (R432). -/
def effClkLockWrite (n : Nat) (v : Word) (s : State) : State := s.plainWrite (R.CLK_LOCK n) v

/-- A write to a CLK window (R424, R432). -/
def wrClk (n off : Nat) (v : Word) (s : State) : State :=
  let k := 0x700000 + 0x10000 * n + off
  if off = 0 then effClkApply n v s
  else if 4 ≤ off ∧ off < 0x20 then (if isPixel n then (s.plainWrite k v).pendRefresh n else s.clkBusy n)
  else s.plainWrite k v

end Sys2Proof.Machine
end

