-- ==== Sys2Proof/Machine/Codec.lean ====
section
/-!
DEFINITION. The attar codec (R192 to R198): block header, token stream, decoding, and the blocks an encoder may emit.
Pixels and nibbles are numbers below 16.
-/
namespace Sys2Proof.Machine

/-- The nibbles of a byte string, bits [3:0] first (R193). -/
def nibblesOf (l : List Byte) : List Nat :=
  match l with
  | [] => []
  | b :: r => b.toNat % 16 :: b.toNat / 16 :: nibblesOf r

/-- Nibbles packed into bytes (R193); an odd last one is paired with PAD (R197). -/
def packNibbles : List Nat → List Byte
  | [] => []
  | [a] => [BitVec.ofNat 8 (a % 16 + 0xF0)]
  | a :: b :: r => BitVec.ofNat 8 (a % 16 + b % 16 * 16) :: packNibbles r

/-- A block header (R192). -/
structure BlkHdr where
  magic : Nat
  raw : Bool
  last : Bool
  hist : Bool
  flush : Bool
  rsvd : Nat
  ver : Nat
  inLen : Nat
  outLen : Nat
  crc : Nat
  deriving DecidableEq, Repr

/-- The header in the first 16 bytes (R192). -/
def BlkHdr.ofBytes (l : List Byte) : BlkHdr :=
  let n (i k : Nat) : Nat := ofLe ((l.drop i).take k)
  { magic := n 0 1, raw := bit (n 1 1) 0, last := bit (n 1 1) 1, hist := bit (n 1 1) 2, flush := bit (n 1 1) 3
    rsvd := n 1 1 / 16 + n 3 1, ver := n 2 1, inLen := n 4 4, outLen := n 8 4, crc := n 12 4 }

/-- The header passes R195. -/
def BlkHdr.ok (h : BlkHdr) : Bool :=
  h.magic == 0xA7 && h.ver == 1 && h.rsvd == 0 && decide (h.inLen ≤ 65536) && decide (h.outLen ≤ 65536)
    && (!h.raw || h.inLen == h.outLen)

/-- The 16 bytes of a header (R192). -/
def BlkHdr.bytes (raw last hist flush : Bool) (inLen outLen crc : Nat) : List Byte :=
  leBytes 4 (0xA7 + (b2n raw + 2 * b2n last + 4 * b2n hist + 8 * b2n flush) * 2 ^ 8 + 2 ^ 16)
    ++ leBytes 4 inLen ++ leBytes 4 outLen ++ leBytes 4 crc

/-- A VAR (R196): at most `fuel` nibbles; its value and the rest. -/
def takeVar (fuel scale : Nat) (l : List Nat) : Option (Nat × List Nat) :=
  match fuel, l with
  | 0, _ => none
  | _, [] => none
  | f + 1, n :: r =>
    if n < 8 then some (n * scale, r)
    else (takeVar f (scale * 8) r).map (fun e => ((n - 8) * scale + e.1, e.2))

/-- `n` pixels copied one at a time from `d` back, newest first (R198). -/
def copyBack (d : Nat) : Nat → List Nat → List Nat
  | 0, acc => acc
  | n + 1, acc => copyBack d n (acc.getD (d - 1) 0 :: acc)

/-- What one token does to the output (newest pixel first): how many pixels, the output after it, the rest of the
input; none for a TOKEN error (R197, R198). -/
def tokenStep (linePx : Nat) (acc l : List Nat) : Option (Nat × List Nat × List Nat) :=
  let lit (n : Nat) (r : List Nat) : Option (Nat × List Nat × List Nat) :=
    if r.length < n then none else some (n, (r.take n).reverse ++ acc, r.drop n)
  let copy (n d : Nat) (r : List Nat) : Option (Nat × List Nat × List Nat) :=
    if acc.length < d then none else some (n, copyBack d n acc, r)
  match l with
  | [] => none
  | 0 :: r => lit 1 r
  | 1 :: r => lit 2 r
  | 2 :: r => lit 3 r
  | 3 :: r => lit 4 r
  | 4 :: r => match takeVar 7 1 r with
    | none => none
    | some (n, r2) => lit (n + 5) r2
  | 5 :: v :: r => match takeVar 7 1 r with
    | none => none
    | some (n, r2) => some (n + 3, List.replicate (n + 3) v ++ acc, r2)
  | 6 :: r => match takeVar 7 1 r with
    | none => none
    | some (n, r2) => copy (n + 1) linePx r2
  | 7 :: r => match takeVar 7 1 r with
    | none => none
    | some (n, r2) => match takeVar 7 1 r2 with
      | none => none
      | some (d, r3) => copy (n + 4) (d + 1) r3
  | _ => none

/-- The token stream decoded until `left` pixels are made: the output newest first on top of `acc`; none for a TOKEN
error. Nothing but one PAD may remain (R197, R198). -/
def decodeTokens (linePx : Nat) : Nat → Nat → List Nat → List Nat → Option (List Nat)
  | 0, _, _, _ => none
  | fuel + 1, left, acc, l =>
    if left = 0 then (if l = [] ∨ l = [0xF] then some acc else none)
    else match tokenStep linePx acc l with
      | none => none
      | some (n, acc2, r) => if left < n then none else decodeTokens linePx fuel (left - n) acc2 r

/-- How a block's decoding ends. -/
inductive BlkOut where
  /-- The output pixels, oldest first. -/
  | pixels (l : List Nat)
  | token
  | crc
  deriving DecidableEq, Repr

/-- A block decoded (R194, R198): `hist` is the history, newest first. -/
def decodeBlock (h : BlkHdr) (linePx : Nat) (hist : List Nat) (payload : List Byte) : BlkOut :=
  let nibs := nibblesOf payload
  let out : Option (List Nat) :=
    if h.raw then some nibs
    else (decodeTokens linePx (nibs.length + 1) (2 * h.outLen) hist nibs).map
      (fun acc => (acc.take (2 * h.outLen)).reverse)
  match out with
  | none => .token
  | some px => if crc32c (packNibbles px) = h.crc then .pixels px else .crc

/-- The block an encoder emits for a chunk (R207): the tokens the silicon chooses if they are a stream of these pixels
and strictly shorter than the chunk, else the chunk stored raw. A block of no chunk is its header alone, with RAW = 0:
R207 stores only chunks raw (DEDUCED). -/
def encodeBlock (linePx : Nat) (window : List Nat) (chunk : List Byte) (last hist flush : Bool) : List Byte :=
  let px := nibblesOf chunk
  let toks := Config.encoderTokens linePx window px
  let body := packNibbles toks
  let good := decide ((decodeTokens linePx (2 * body.length + 1) px.length window.reverse (nibblesOf body)).map
    (fun acc => (acc.take px.length).reverse) = some px)
  if chunk = [] then BlkHdr.bytes false last hist flush 0 0 (crc32c [])
  else if good && decide (body.length < chunk.length) then
    BlkHdr.bytes false last hist flush body.length chunk.length (crc32c chunk) ++ body
  else BlkHdr.bytes true last hist flush chunk.length chunk.length (crc32c chunk) ++ chunk

end Sys2Proof.Machine
end

