-- ==== Sys2Proof/Machine/Attar.lean ====
section
/-!
DEFINITION. The attar engines' general jobs (R199 to R211), contexts, online state and test (R220 to R224).
-/
namespace Sys2Proof.Machine

/-- Pixels a long-history context keeps (R201). -/
def windowMax : Nat := 2097152

/-- Engine `e`. -/
def State.eng (s : State) (e : Nat) : AtrSt := vget s.atr e

/-- A context changed. -/
def State.modCtx (s : State) (i : Nat) (f : AtrCtx → AtrCtx) : State := { s with actxs := Tab.upd s.actxs i f }

/-- BUSY and BAND follow what the engine is doing. -/
def State.atrSync (s : State) (e : Nat) : State :=
  let a := s.eng e
  (s.putFlag (F.ATR_STATUS_BUSY e) (a.job.isSome || a.band.isSome || a.testing)).putFlag (F.ATR_STATUS_BAND e) a.band.isSome

/-- The context a live handle names. -/
def State.ctxOf (s : State) (h : Nat) : Option (Nat × AtrCtx) :=
  match s.live h 0x02 with
  | none => none
  | some i => (Tab.get s.actxs i).map (fun c => (i, c))

/-! ### Reading and writing for an engine -/

/-- An engine's output write: none if it was done, else the status it gives (R209). -/
def State.engWrite (s : State) (a : Nat) (l : List Byte) : State × Option Nat :=
  if l = [] then (s, none)
  else match s.memWrite reqAttar a l with
    | (t, .done) => (t, none)
    | (t, .unmapped) => (t, some 11)
    | (t, .ecc) => (t, some 7)

/-- An engine's input read, or the status it gives (R209). -/
def State.engRead (s : State) (a n : Nat) : State × Except Nat (List Byte) :=
  if n = 0 then (s, .ok [])
  else match s.sysMemRead reqAttar a n with
    | (t, .data l) => (t, .ok l)
    | (t, .unmapped) => (t, .error 11)
    | (t, .ecc _) => (t, .error 7)

/-! ### Decoding into a context -/

/-- A complete block enters the context (R201): `fresh` starts a new stream, `last` empties the window. -/
def AtrCtx.enter (c : AtrCtx) (px : List Nat) (fresh last : Bool) : AtrCtx :=
  let w := (if fresh then px else c.window ++ px)
  { c with
    blocks := (c.blocks + 1) % 2 ^ 32
    pos := if c.long then (if fresh then 0 else c.pos) + px.length else c.pos
    openS := c.long && !last
    window := if c.long && !last then w.drop (w.length - windowMax) else [] }

/-- One block decoded on a context (R195 to R201): its pixels, or a status. -/
def AtrCtx.decode (c : AtrCtx) (h : BlkHdr) (payload : List Byte) : Except Nat (List Nat) :=
  if h.hist && !(c.long && c.openS) then .error 6
  else match decodeBlock h c.linePx (if h.hist then c.window.reverse else []) payload with
    | .pixels px => .ok px
    | .token => .error 4
    | .crc => .error 5

/-! ### Jobs -/

/-- Bytes past OUT_MADE that a job ending with this status may have written: one block (of 65,552 bytes at most) of a
DECODE or ENCODE, the image of a SAVE whose write failed (R209). -/
def AtrJob.spill (j : AtrJob) (status errOff : Nat) : Nat :=
  if status ≠ 0 ∧ j.op ≤ 1 ∧ errOff ≠ 0xFFFFFFFF then min (j.dstLen - j.outMade) 65552
  else if j.op = 2 ∧ (status = 7 ∨ status = 11) then 1048832
  else 0

/-- A job ended with a status and its ERR_OFF; what it left of its output is undefined unless it is OK (R209). ERR_OFF
of a job that ended OK is 0xFFFF_FFFF (DESIGN CHOICE: R209 gives it for jobs that failed). -/
def State.jobEnd (s : State) (e : Nat) (j : AtrJob) (status errOff : Nat) : State :=
  let s1 := s.modAtr e (fun a => { a with job := some { j with ended := some (status, errOff) } })
  if j.spill status errOff = 0 then s1 else s1.freeRange (j.dst + j.outMade) (j.spill status errOff)

/-- DECODE, block after block (R206, R209): the room for a block's payload and output is judged before its header. -/
def State.runDecode (s : State) (e ci : Nat) : Nat → AtrJob → State
  | 0, j => s.jobEnd e j 0 0xFFFFFFFF
  | fuel + 1, j =>
    match Tab.get s.actxs ci with
    | none => s.jobEnd e j 0 0xFFFFFFFF
    | some c =>
      if j.srcLen ≤ j.inUsed then s.jobEnd e j 0 0xFFFFFFFF
      else if j.srcLen < j.inUsed + 16 then s.jobEnd e j 2 j.inUsed
      else match s.engRead (j.src + j.inUsed) 16 with
        | (t, .error st) => t.jobEnd e j st j.inUsed
        | (t, .ok hb) =>
          let h := BlkHdr.ofBytes hb
          if j.srcLen < j.inUsed + 16 + h.inLen then t.jobEnd e j 2 j.inUsed
          else if j.dstLen < j.outMade + h.outLen then t.jobEnd e j 1 j.inUsed
          else if h.ok = false then t.jobEnd e j 3 j.inUsed
          else match t.engRead (j.src + j.inUsed + 16) h.inLen with
            | (u, .error st) => u.jobEnd e j st j.inUsed
            | (u, .ok body) =>
              match c.decode h body with
              | .error st => u.jobEnd e j st j.inUsed
              | .ok px =>
                match u.engWrite (j.dst + j.outMade) (packNibbles px) with
                | (w, some st) => w.jobEnd e j st j.inUsed
                | (w, none) =>
                  ((w.modCtx ci (fun x => x.enter px (!h.hist) h.last)).modAtr e
                    (fun a => { a with outb := (a.outb + h.outLen) % 2 ^ 64 })).runDecode e ci fuel
                    { j with inUsed := j.inUsed + 16 + h.inLen, outMade := j.outMade + h.outLen, blocks := j.blocks + 1 }

/-- The next chunk an ENCODE emits (R207): its length, and the LAST and FLUSH flags of its block; none when the job
has emitted all it will. -/
def AtrJob.nextChunk (j : AtrJob) (blksz : Nat) : Option (Nat × Bool × Bool) :=
  let left := j.srcLen - j.inUsed
  if blksz ≤ left ∧ 0 < left then some (blksz, j.last && left == blksz, false)
  else if 0 < left then (if j.flush || j.last then some (left, j.last, j.flush) else none)
  else if j.last && j.srcLen == 0 && j.blocks == 0 then some (0, true, false)
  else none

/-- ENCODE, chunk after chunk (R207, R209). -/
def State.runEncode (s : State) (e ci : Nat) : Nat → AtrJob → State
  | 0, j => s.jobEnd e j 0 0xFFFFFFFF
  | fuel + 1, j =>
    match Tab.get s.actxs ci with
    | none => s.jobEnd e j 0 0xFFFFFFFF
    | some c =>
      match j.nextChunk c.blksz with
      | none => s.jobEnd e j 0 0xFFFFFFFF
      | some (len, last, flush) =>
        match s.engRead (j.src + j.inUsed) len with
        | (t, .error st) => t.jobEnd e j st j.inUsed
        | (t, .ok chunk) =>
          let hist := c.long && c.openS
          let blk := encodeBlock c.linePx (if hist then c.window else []) chunk last hist flush
          if j.dstLen < j.outMade + blk.length then t.jobEnd e j 1 j.inUsed
          else match t.engWrite (j.dst + j.outMade) blk with
            | (w, some st) => w.jobEnd e j st j.inUsed
            | (w, none) =>
              ((w.modCtx ci (fun x => x.enter (nibblesOf chunk) (!hist) last)).modAtr e
                (fun a => { a with outb := (a.outb + blk.length) % 2 ^ 64 })).runEncode e ci fuel
                { j with inUsed := j.inUsed + len, outMade := j.outMade + blk.length, blocks := j.blocks + 1 }

/-- Bytes of a save image (R202). -/
def imageBytes : Nat := 1048832

/-- The save image of a context (R202): a 256-byte record and the window, its unused leading bytes 0. -/
def AtrCtx.image (c : AtrCtx) : List Byte :=
  let px := if c.openS then c.window else []
  let win := List.replicate (1048576 - px.length / 2) 0 ++ packNibbles px
  let head := leBytes 4 (0x53A7 + 2 ^ 16 + (b2n c.encode + 2 * b2n c.openS) * 2 ^ 24) ++ leBytes 4 c.linePx
    ++ leBytes 4 px.length ++ leBytes 4 c.blksz ++ leBytes 8 c.pos ++ leBytes 4 (crc32c win)
  head ++ leBytes 4 (crc32c head) ++ List.replicate 224 0 ++ win

/-- SAVE (R202). -/
def State.runSave (s : State) (e : Nat) (c : AtrCtx) (j : AtrJob) : State :=
  if j.dstLen < imageBytes then s.jobEnd e j 1 0xFFFFFFFF
  else match s.engWrite j.dst c.image with
    | (t, some st) => t.jobEnd e j st 0xFFFFFFFF
    | (t, none) =>
      (t.modAtr e (fun a => { a with outb := (a.outb + imageBytes) % 2 ^ 64 })).jobEnd e
        { j with outMade := imageBytes } 0 0xFFFFFFFF

/-- The image passes R203 for this context. -/
def AtrCtx.imageFits (c : AtrCtx) (l : List Byte) : Bool :=
  entLe l 0 2 == 0x53A7 && entLe l 2 1 == 1 && entLe l 0x1C 4 == crc32c (l.take 0x1C)
    && entLe l 0x18 4 == crc32c (l.drop 256) && entLe l 8 4 % 2 == 0 && decide (entLe l 8 4 ≤ windowMax)
    && (bit (entLe l 3 1) 1 || entLe l 8 4 == 0) && bit (entLe l 3 1) 0 == c.encode && entLe l 4 4 == c.linePx

/-- LOAD (R202, R203). -/
def State.runLoad (s : State) (e ci : Nat) (c : AtrCtx) (j : AtrJob) : State :=
  if j.srcLen < imageBytes then s.jobEnd e j 2 0xFFFFFFFF
  else match s.engRead j.src imageBytes with
    | (t, .error st) => t.jobEnd e j st 0xFFFFFFFF
    | (t, .ok l) =>
      if c.imageFits l = false then
        (t.modCtx ci (fun x => { x with window := [], openS := false })).jobEnd e j 8 0xFFFFFFFF
      else
        let px := (nibblesOf (l.drop 256)).drop (windowMax - entLe l 8 4)
        (t.modCtx ci (fun x => { x with window := px, openS := bit (entLe l 3 1) 1, pos := entLe l 0x10 8 })).jobEnd e
          { j with inUsed := imageBytes } 0 0xFFFFFFFF

/-- A descriptor read as a job (R205). -/
def AtrJob.ofEntry (l : List Byte) (now : Nat) : AtrJob where
  op := bits (entLe l 0 4) 0 4
  flush := bit (entLe l 0 4) 4
  last := bit (entLe l 0 4) 5
  ctx := entLe l 4 4
  src := entLe l 8 5
  srcLen := entLe l 0x10 4
  dstLen := entLe l 0x14 4
  dst := entLe l 0x18 5
  tag := entLe l 0x20 8
  inUsed := 0
  outMade := 0
  blocks := 0
  tStart := now
  ended := none

/-- A reserved field of the descriptor is not 0 (R205). -/
def jobRsvd (l : List Byte) : Bool :=
  entLe l 0 4 / 64 != 0 || entLe l 0xD 3 != 0 || entLe l 0x1D 3 != 0 || entLe l 0x28 24 != 0

/-- The checks of R205, in order: the status the descriptor completes with at once. -/
def State.jobCheck (s : State) (j : AtrJob) (rsvd : Bool) : Option Nat :=
  if 5 ≤ j.op ∨ rsvd = true ∨ ((j.flush || j.last) && j.op != 1) = true then some 12
  else match s.ctxOf j.ctx with
    | none => some 10
    | some (_, c) =>
      if (j.op = 2 ∨ j.op = 3) ∧ c.long = false then some 10
      else if (j.op = 0 ∧ c.encode = true) ∨ (j.op = 1 ∧ c.encode = false) then some 12
      else if s.ctxInUse j.ctx then some 9
      else none

/-- The engine runs a job it has taken (R205 to R209). -/
def State.runJob (s : State) (e : Nat) (l : List Byte) : State :=
  let j := AtrJob.ofEntry l s.now
  match s.jobCheck j (jobRsvd l) with
  | some st => s.jobEnd e j st 0xFFFFFFFF
  | none =>
    match s.ctxOf j.ctx with
    | none => s.jobEnd e j 10 0xFFFFFFFF
    | some (ci, c) =>
      let s1 := s.modCtx ci (fun x => { x with active := some e })
      if j.op = 0 then s1.runDecode e ci (j.srcLen / 16 + 2) j
      else if j.op = 1 then s1.runEncode e ci (j.srcLen / 256 + 3) j
      else if j.op = 2 then s1.runSave e c j
      else if j.op = 3 then s1.runLoad e ci c j
      else (s1.modCtx ci (fun x => { x with window := [], openS := false })).jobEnd e j 0 0xFFFFFFFF

/-- The rings of an engine: the two it may use, or whether it must set Q_ERR (R211). -/
def State.atrRings (s : State) (e : Nat) : Option (Nat × Ring) × Bool :=
  let sq := s.fld (F.ATR_SQ_HANDLE e)
  let cq := s.fld (F.ATR_CQ_HANDLE e)
  if sq = 0 ∨ cq = 0 then (none, false)
  else match s.unitRing sq 2, s.unitRing cq 2 with
    | some r, some _ => (some r, false)
    | _, _ => (none, true)

/-- The context of the entry is ACTIVE on another engine, so that the job waits (R204). -/
def State.ctxBusy (s : State) (h : Nat) : Bool :=
  match s.ctxOf h with
  | some (_, c) => c.active.isSome
  | none => false

/-- An idle online engine takes the job at the head of its submission ring when it is one of the row's (`op`; an
unlisted OP counts as DECODE): a ring that is unusable sets Q_ERR (R204, R211, R222). -/
def effAtrJob (e op : Nat) (s : State) : State :=
  let a := s.eng e
  if s.flag (F.ATR_CTRL_ONLINE e) = false ∨ (a.job.isSome || a.band.isSome || a.testing || a.parked.isSome) = true then s
  else match s.atrRings e with
    | (_, true) => s.setFlag (F.ATR_STATUS_Q_ERR e)
    | (none, false) => s
    | (some (n, r), false) =>
      let peek := s.rdBytes (r.entryAddr r.cons) 64
      let o := bits (entLe peek 0 4) 0 4
      if r.count = 0 ∨ (if 5 ≤ o then 0 else o) ≠ op ∨ s.ctxBusy (entLe peek 4 4) = true then s
      else match s.ringPop n r with
        | (t, .entry l) => (t.runJob e l).atrSync e
        | (t, _) => t.setFlag (F.ATR_STATUS_Q_ERR e)

/-- The completion entry of R210. -/
def AtrJob.completion (j : AtrJob) (e status errOff now : Nat) : List Byte :=
  entryOf 64 [(0, 8, j.tag), (8, 2, status + j.op * 2 ^ 4 + e * 2 ^ 8), (0xA, 2, min j.blocks 0xFFFF), (0xC, 4, j.ctx),
    (0x10, 4, j.inUsed), (0x14, 4, j.outMade), (0x18, 4, errOff), (0x20, 8, j.tStart), (0x28, 8, now)]

/-- The completion ring has room: the entry is pushed; else it is parked with CPL_HOLD, and an unusable ring sets
Q_ERR (R211). -/
def State.cplPush (s : State) (e : Nat) (entry : List Byte) : State :=
  let h := s.fld (F.ATR_CQ_HANDLE e)
  let park (t : State) : State :=
    (t.modAtr e (fun a => { a with parked := some entry })).setFlag (F.ATR_STATUS_CPL_HOLD e)
  match s.unitRing h 2 with
  | some (n, r) =>
    if r.count < r.size then
      ((s.ringAppend n r entry).modAtr e (fun a => { a with parked := none })).clrFlag (F.ATR_STATUS_CPL_HOLD e)
    else park s
  | none => park (if h = 0 then s else s.setFlag (F.ATR_STATUS_Q_ERR e))

/-- A job or page block ended with this status: counts, LAST and FS(176+2e) (R210, R224). -/
def State.engFailed (s : State) (e status : Nat) : State :=
  if status = 0 then s
  else ((s.addSat (F.ATR_CNT_ERRS e) 1).setFld (F.ATR_LAST_STATUS e) status).raiseIf (decide (3 ≤ status)) (176 + 2 * e)

/-- ATR_JOB_COMPLETE (R210, R211). -/
def effAtrJobComplete (e : Nat) (s : State) : State :=
  match (s.eng e).job with
  | none => s
  | some j =>
    match j.ended with
    | none => s
    | some (st, off) =>
      let s1 := s.modAtr e (fun a => { a with job := none })
      let s2 : State := { s1 with actxs := s1.actxs.map (fun x => (x.1, if x.2.active = some e then { x.2 with active := none } else x.2)) }
      (((s2.addSat (F.ATR_CNT_JOBS e) 1).engFailed e st).cplPush e (j.completion e st off s.now)).atrSync e

/-- CPL_PARKED_PUSH (R211). -/
def effCplParkedPush (e : Nat) (s : State) : State :=
  match (s.eng e).parked with
  | some entry => s.cplPush e entry
  | none => s

/-! ### Online state and test (R222, R223) -/

/-- Online engines. -/
def State.engOnline (s : State) : Nat := ((List.range 8).filter (fun e => s.flag (F.ATR_CTRL_ONLINE e))).length

/-- Reservations in force, bytes/s (R220). -/
def State.reservations (s : State) : Nat := s.pages.foldl (fun a e => a + e.2.reserved) 0

/-- A write to ATRe_CTRL (R222, R223): TEST runs on an offline idle engine; ONLINE = 0 may be refused by the
reservations, ONLINE = 1 by TEST_FAIL. A write that sets both ONLINE and TEST on an offline engine does both: TEST is
judged on ONLINE as it stood before the write (DESIGN CHOICE: R223 does not say). -/
def effAtrCtrl (e : Nat) (v : Word) (s : State) : State :=
  let on := (F.ATR_CTRL_ONLINE e).of v = 1
  let was := s.flag (F.ATR_CTRL_ONLINE e)
  let s1 :=
    if (F.ATR_CTRL_TEST e).of v = 1 ∧ was = false ∧ s.flag (F.ATR_STATUS_BUSY e) = false then
      (s.modAtr e (fun a => { a with testing := true })).atrSync e
    else s
  if on ∧ was = false then
    (if s.flag (F.ATR_STATUS_TEST_FAIL e) then s1.setFlag (F.ATR_STATUS_ON_REFUSED e) else s1.setFlag (F.ATR_CTRL_ONLINE e))
  else if ¬ on ∧ was = true then
    (if 1800000000 * (s.engOnline - 1) < s.reservations then s1.setFlag (F.ATR_STATUS_OFF_REFUSED e)
     else s1.clrFlag (F.ATR_CTRL_ONLINE e))
  else s1

/-- ATR_TEST_DONE (R223). -/
def effAtrTestDone (e : Nat) (pass : Bool) (s : State) : State :=
  if (s.eng e).testing = false then s
  else
    let s1 := (s.modAtr e (fun a => { a with testing := false })).atrSync e
    let s2 := ((s1.setFlag (F.ATR_STATUS_TEST_DONE e)).putFlag (F.ATR_STATUS_TEST_PASS e) pass).putFlag
      (F.ATR_STATUS_TEST_FAIL e) (!pass)
    s2.raiseIf (!pass) (177 + 2 * e)

/-- A write to a register of window ATRe (R224). -/
def wrAtr (e off : Nat) (v : Word) (s : State) : State :=
  if off = 0 then effAtrCtrl e v s else s.plainWrite (0x300000 + 0x10000 * e + off) v

/-- OUTB_LO_READ (R224): the value, and HI latched. -/
def State.outbLatch (s : State) (e : Nat) : State :=
  s.modAtr e (fun a => { a with outbHi := BitVec.ofNat 32 (a.outb / 2 ^ 32) })

end Sys2Proof.Machine
end

