-- ==== Sys2Proof/Machine/Forming.lean ====
section
/-!
DEFINITION. From tone to firing code: R126 to R135, substitution (R153, R155), the duty windows (R158 to R162), frames
and their resending (R171, R172, R177), need points (R218).
-/
namespace Sys2Proof.Machine

/-- The band buffer that a job uses on a station. -/
def State.bandOf (s : State) (j : Job) (i : Nat) : Option (Nat × Band) :=
  match s.live (lget j.band i) 0x0C with
  | none => none
  | some k => (Tab.get s.bands k).map (fun b => (k, b))

/-- What a beam writes in the facet in progress: its line, the page and index it belongs to, the cutover whose dead map
and lanes hold for the line. -/
structure BeamLine where
  beam : Nat
  line : Nat
  page : Option (Nat × Nat)
  cut : Cutover
  deriving DecidableEq, Repr, Inhabited

/-- The beam's line in this facet (R143). -/
def State.beamLine (s : State) (i p b : Nat) : BeamLine :=
  let l := s.lineOf i (s.ex i).cf b
  { beam := b, line := l, cut := s.cutFor i p b
    page := (s.livePages i).findSome? (fun k => match Tab.get s.pages k with
      | none => none
      | some q => (q.indexOf i l).map (fun idx => (k, idx))) }

/-- TONE[t] (R133). -/
def State.toneCode (s : State) (i t : Nat) : Nat :=
  if t < 8 then bits (s.reg (R.EXP_TONE_LO i)).toNat (4 * t) 4 else bits (s.reg (R.EXP_TONE_HI i)).toNat (4 * (t - 8)) 4

/-- Raster tone of a line at a column, from its band slot (R216). -/
def State.bandTone (s : State) (j : Job) (i l col : Nat) : Nat :=
  match s.bandOf j i with
  | none => 0
  | some (_, b) =>
    let byte := (s.rd8 (b.base + 12288 * (l % b.lines) + col / 2)).toNat
    if col % 2 = 0 then byte % 16 else byte / 16

/-- The code a line asks for at a raster column before masking: its tone's, 0 where it is blank, 15 in the waste mark
(R27, R30, R132). A page that HOT_TRIP has just spoiled is written to the end of the facet (R166). -/
def State.wantCode (s : State) (i : Nat) (w : BeamLine) (col : Nat) : Nat :=
  if (s.ex i).blank then 0
  else match w.page with
    | none => 0
    | some (k, idx) =>
      match Tab.get s.pages k with
      | none => 0
      | some p =>
        match s.jobOf p with
        | none => 0
        | some j =>
          match p.blankFrom.getD i none with
          | some b =>
            if idx < b ∨ (s.ex i).tripKeep.contains k = true then s.toneCode i (s.bandTone j i w.line col)
            else if p.record.waste && i == j.wasteStn && decide (b < idx) && decide (idx ≤ b + 1200)
                && decide (j.wasteCol ≤ col) && decide (col < j.wasteCol + 96) then 15
            else 0
          | none => s.toneCode i (s.bandTone j i w.line col)

/-- Raster column of scan pixel `x` (R128). -/
def State.columnOf (s : State) (i x : Nat) : Nat := if s.flag (F.EXP_SCAN_MIRROR i) then 24575 - x else x

/-- Code of a beam at scan pixel `x` after mask and substitution, and whether a dot of its own is lost (R145, R153). -/
def State.passCode (s : State) (i p : Nat) (w : BeamLine) (x : Nat) : Nat × Bool :=
  let col := s.columnOf i x
  let c := s.wantCode i w col
  if c = 0 then (0, false)
  else
    let f := s.dotFires i p w.beam w.line col w.cut
    (if f.1 then c else 0, f.2)

/-- A picot stands at scan pixel `x` (R134): K pixels on a dot follows at least N off pixels. -/
def State.picotAt (s : State) (i p : Nat) (w : BeamLine) (x : Nat) : Bool :=
  let k := s.fld (F.EXP_PICOT_K i)
  let n := s.fld (F.EXP_PICOT_N i)
  s.flag (F.EXP_PICOT_EN i) && decide (x + k < 24576) && (s.passCode i p w (x + k)).1 != 0
    && (List.range n).all (fun j => decide (x + k < j + 1) || (s.passCode i p w (x + k - (j + 1))).1 == 0)

/-- One pulse to be placed: emitter, pixel, code, turn-on in timing units after the facet's origin (R126). -/
structure Pulse where
  beam : Nat
  x : Nat
  code : Nat
  on : Int
  width : Nat
  deriving DecidableEq, Repr, Inhabited

/-- The pulses of one beam in one block, in scan order, picots among them; a beam on no page line has none. -/
def State.beamPulses (s : State) (i p block : Nat) (w : BeamLine) : List Pulse :=
  if w.page.isNone then []
  else
    let off := s.beamOffset i w.beam block
    (List.range 64).filterMap (fun j =>
      let x := 64 * block + j
      let c := (s.passCode i p w x).1
      let code := if c ≠ 0 then c else if s.picotAt i p w x then 1 else 0
      if code = 0 then none
      else
        let e := s.fireAct i (16 * w.beam + code)
        some ⟨w.beam, x, code, (64 * (s.fld (F.EXP_SCAN_SOS i) + x) : Nat) + off + (bits e 0 6 : Nat), bits e 8 7⟩)

/-- One pulse judged against the windows as they stand at its turn-on (R159, R160). -/
def State.judge (s : State) (i khz : Nat) (d : Duty) (q : Pulse) : Dot :=
  let c := s.lc i
  let elim := Tab.getD c.elim q.beam 154
  let picot := s.fireAct i (16 * q.beam + 1)
  let dot (code : Nat) (on : Int) (width clip : Nat) : Dot := ⟨q.beam, q.x, code, q.on, on, width, clip⟩
  if q.code = 1 then (if elim = 0 then dot 0 q.on 0 0 else dot 1 q.on q.width 0)
  else
    match d.verdict elim c.hlim khz (s.bucketAt i q.on.toNat) q.beam q.on q.width with
    | 0 => dot q.code q.on q.width 0
    | clip =>
      if elim = 0 ∨ c.clipPicot = false then dot 0 q.on 0 clip
      else dot 1 (q.on - (bits (s.fireAct i (16 * q.beam + q.code)) 0 6 : Nat) + (bits picot 0 6 : Nat)) (bits picot 8 7) clip

/-- A pulse of the facet as the windows meet it: decided already, or still to be judged. -/
abbrev DutyItem := Dot ⊕ Pulse

/-- Order of turn-on, then of beam (R159). -/
def DutyItem.key : DutyItem → Int × Nat
  | .inl d => (d.tested, d.beam)
  | .inr q => (q.on, q.beam)

/-- The facet's pulses in order of turn-on against the windows: those decided pass as decided, the others are judged,
and of these the dots of `block` are kept. -/
def State.dutyPass (s : State) (i khz block : Nat) (l : List DutyItem) : List Dot :=
  let bucket (u : Int) : Nat := s.bucketAt i u.toNat
  (l.foldl (fun (a : Duty × List Dot) q => match q with
    | .inl d => (a.1.pass bucket d, a.2)
    | .inr p =>
      let d := s.judge i khz a.1 p
      (a.1.pass bucket d, if d.x / 64 = block then d :: a.2 else a.2)) ((s.lc i).duty, [])).2.reverse

/-- Blocks ahead whose pulses can turn on before one of a block: DELAY, ZONE and POS shift a pulse by at most 67,644
timing units against another, less than 17 blocks. -/
def dutyAhead : Nat := 17

/-- The dots of a block, decided in order of turn-on among all pulses of the facet that can turn on before them (R159).
Pulses of later blocks are judged provisionally under the limits now in force (log entry 108). -/
def State.blockDots (s : State) (i block : Nat) (ws : List BeamLine) : List Dot :=
  let p := s.passesOn i
  let khz := match s.jobOn i with | some j => lget j.2.pixclk i | none => 0
  let ahead := (List.range (dutyAhead + 1)).filterMap (fun k => if block + k < 384 then some (block + k) else none)
  let items : List DutyItem := (s.lc i).dots.map .inl
    ++ (ahead.flatMap (fun b => ws.flatMap (s.beamPulses i p b))).map .inr
  s.dutyPass i khz block (items.mergeSort (fun a b =>
    decide (a.key.1 < b.key.1) || (a.key.1 == b.key.1 && decide (a.key.2 ≤ b.key.2))))

/-- A clipped or lost dot counted (R155, R161): CLIPCNT, the page's CLIPS and degradation, FS(115+8s) or FS(116+8s). -/
def State.countClip (s : State) (i : Nat) (page : Option (Nat × Nat)) (head : Bool) : State :=
  let s1 := s.addSat (if head then F.LAC_CLIPCNT_HEAD i else F.LAC_CLIPCNT_EMIT i) 1
  match page with
  | none => s1
  | some (k, idx) =>
    ((s1.modPage k (fun p => { p with record := { p.record with clips := min 0xFFFFFFFF (p.record.clips + 1) } })
      ).degradePage k i (b2n head) idx).raise ((if head then 116 else 115) + 8 * i)

/-- Codes of a block as frames carry them: per beam its 64 codes. -/
def blockCodes (l : List Dot) (block : Nat) : List (List Nat) :=
  (List.range 128).map (fun b => (List.range 64).map (fun j =>
    match l.find? (fun d => d.beam == b && d.x == 64 * block + j) with
    | some d => d.code
    | none => 0))

/-- Dots of a block whose owner is dead and not substituted, by the page line they are lost from (R155). -/
def State.lostDots (s : State) (i block : Nat) (ws : List BeamLine) : List (Option (Nat × Nat)) :=
  let p := s.passesOn i
  ws.flatMap (fun w => if p = 1 ∨ bit w.cut.dead w.beam = false then []
    else (List.range 64).filterMap (fun j => if (s.passCode i p w (64 * block + j)).2 then some w.page else none))

/-- BLOCK_FORMATION (R132, R162): the firing codes of one 64-pixel block of the facet in progress; blocks are formed in
ascending order (R172), and frames of theirs wait only while the link is trained. -/
def effBlockFormation (i block : Nat) (s : State) : State :=
  let e := s.ex i
  if e.inScan = false ∨ 384 ≤ block ∨ block ≠ (s.lc i).done then s
  else
    let ws := (List.range 128).map (s.beamLine i (s.passesOn i))
    let dots := s.blockDots i block ws
    let clips := (dots.filter (fun d => d.clip != 0)).map (fun d =>
      ((ws.find? (fun w => w.beam == d.beam)).bind (·.page), d.clip == 2))
    let s1 := s.modLac i (fun c => { c with
      dots := c.dots ++ dots, done := block + 1
      formed := if s.elkTrained i then c.formed ++ [⟨e.facet, block, blockCodes dots block⟩] else c.formed })
    s1.each (clips ++ (s.lostDots i block ws).map (fun w => (w, false))) (fun t c => t.countClip i c.1 c.2)

/-! ### Frames (R171, R172, R177) -/

/-- A frame leaves for the head: its blocks go onto the lanes and a credit is used (R170 to R172). -/
def State.sendFrame (s : State) (i : Nat) (f : Frame) : State :=
  s.modElk i (fun k => { k with credits := k.credits - 1 }.put f.blocks)

/-- The next frame taken from the formed blocks, in block and group order (R172). -/
def State.nextFrame (s : State) (i : Nat) (fr : Frame) (rest : List FormedBlock) : State :=
  let s1 := s.modElk i (fun x => { x with
    frames := (fr :: x.frames).take 4096, seq := (x.seq + 1) % 2 ^ 16
    nextBlock := fr.block, nextGroup := (x.nextGroup + 1) % 8 })
  if fr.group = 7 then s1.modLac i (fun c => { c with formed := rest }) else s1

/-- FRAME_SEND (R172): with a credit, the frames named by a NACK go first, else the next frame in block and group
order. One that can no longer arrive 1 µs before its block spoils its page (R130) and still goes out, so that SEQ runs
on; the head has no pulse left to fire of it (DESIGN CHOICE, log entry 109). -/
def effFrameSend (i : Nat) (s : State) : State :=
  let k := s.lk i
  if s.elkTrained i = false ∨ k.credits = 0 then s
  else
    let out (t : State) (f : Frame) : State := (if t.frameInTime i f then t else t.frameLate i f).sendFrame i f
    match k.resend with
    | q :: r =>
      let t := s.modElk i (fun x => { x with resend := r.filter (fun y => y != q) })
      (match k.frames.find? (fun f => f.seq == q) with
        | some f => out t f
        | none => t)
    | [] =>
      match (s.lc i).formed with
      | [] => s
      | f :: r =>
        let fr := s.frameOf i k.seq f k.nextGroup
        out (s.nextFrame i fr r) fr

/-- NACK (R177, R181): the named frame is resent if it would still arrive 1 µs before its block; eight consecutive
frames NACKed lose the link. -/
def effNack (i crc seq : Nat) (s : State) : State :=
  s.fromHead i 2 (leBytes 2 seq) crc (fun s =>
    let k := s.lk i
    let s1 := s.addSat (F.ELK_CNT_NACKS i) 1
    let run := if 0 < k.nackRun ∧ seq = (k.nackLast + 1) % 2 ^ 16 then k.nackRun + 1 else 1
    let s2 := s1.modElk i (fun x => { x with nackRun := run, nackLast := seq })
    if 8 ≤ run then s2.elkLose i
    else match k.frames.find? (fun f => f.seq == seq) with
      | none => s2
      | some f =>
        if s.frameInTime i f then
          (s2.modElk i (fun x => { x with resend := x.resend ++ [seq] })).raise (145 + 4 * i)
        else s2.frameLate i f)

/-! ### Need points (R218) -/

/-- How the filler stands with a byte range of a page's raster: covered by decoded blocks, or the failure. -/
def Fill.covers (f : Fill) (a n : Nat) : Bool :=
  decide (a + n ≤ (List.range f.runs.length).foldl (fun x _ => f.runs.foldl (fun y r =>
    if r.2.2 = 0 ∧ r.1 ≤ y ∧ y < r.1 + r.2.1 then r.1 + r.2.1 else y) x) a)

/-- A line of a page on a station: filled and readable (none), else whether an uncorrectable error is the reason. -/
def State.lineBad (s : State) (k : Nat) (p : Page) (i idx : Nat) : State × Option Bool :=
  match s.fills.find? (fun f => f.page == k && f.stn == i) with
  | none => (s, some false)
  | some f =>
    if f.covers (12288 * idx) 12288 = false then
      (s, some (f.halted == some true || f.runs.any (fun r => r.2.2 == 2 && decide (r.1 < 12288 * (idx + 1))
        && decide (12288 * idx < r.1 + r.2.1))))
    else match s.jobOf p with
      | none => (s, none)
      | some j =>
        match s.bandOf j i with
        | none => (s, some false)
        | some (_, b) =>
          match s.eccRange reqBandRead (b.base + 12288 * (((lget p.firstLine i + idx) % 2 ^ 40) % b.lines)) 12288 with
          | (t, none) => (t, none)
          | (t, some _) => (t, some true)

/-- The lines of a page that a facet with origin count `cf` writes and that are not blank. -/
def State.neededLines (s : State) (p : Page) (i cf : Nat) : List Nat :=
  (List.range 128).filterMap (fun b => match p.indexOf i (s.lineOf i cf b) with
    | none => none
    | some idx => if p.blankAt i idx then none else some idx)

/-- One page at the need point of a facet: spoiled if a line is not filled and readable, with cause 0x06 before 0x07
where both fail in the facet (R31). -/
def State.needPage (s : State) (i cf k : Nat) : State :=
  match Tab.get s.pages k with
  | none => s
  | some p =>
    let r := (s.neededLines p i cf).foldl (fun (a : State × List Bool) idx => match a.1.lineBad k p i idx with
      | (t, none) => (t, a.2)
      | (t, some ecc) => (t, ecc :: a.2)) (s, [])
    match r with
    | (t, []) => t
    | (t, bad) =>
      let d := lineDist (lget p.firstLine i) cf
      let t0 := t.when (bad.contains false) (fun u => u.spoilPage k i 6 (if d < 2 ^ 39 then d else 0))
      let t1 := t0.when (bad.contains true) (fun u => u.spoilPage k i 7 (if d < 2 ^ 39 then d else 0))
      let t2 := t1.modPage k (fun q => { q with blankFrom := q.blankFrom.set i (some (if d < 2 ^ 39 then d else 0)) })
      let t3 := match s.jobOf p with
        | none => t2
        | some j => match s.bandOf j i with
          | none => t2
          | some (x, _) => { t2 with bands := Tab.upd t2.bands x (fun b => { b with failures := min 0xFFFF (b.failures + 1) }) }
      t3.raise (192 + i)

/-- NEED_POINT (R218): 20 µs before the predicted origin of the next facet. -/
def effNeedPoint (i : Nat) (s : State) : State :=
  let e := s.ex i
  let cf := s.nextCf i
  if e.facetsRun = false ∨ e.needAt = some cf then s
  else (s.each (s.livePages i) (fun t k => t.needPage i cf k)).modExp i (fun x => { x with needAt := some cf })

end Sys2Proof.Machine
end

