-- ==== Sys2Proof/Machine/Filler.lean ====
section
/-!
DEFINITION. The band filler (R217, R219): dispatching page blocks to engines and writing what they decode.
-/
namespace Sys2Proof.Machine

/-- The sectors of a booking on channel `d` are the volume blocks that R265 maps, for those it takes below BLEN
(R301). -/
def State.bookingMaps (s : State) (d : Nat) (r : DskReq) (b : BlkEntry) : Bool :=
  s.volLoaded b.vol && (List.range r.count).all (fun j =>
    decide (b.blen ≤ r.boff + 4096 * j)
      || s.volMap b.vol (b.lba + r.boff / 4096 + j) == (d, lget r.blks j))

/-- STAGE bookings of a page's block: channel and request, with DST = ADDR + BOFF, of the block's volume blocks
(R301). -/
def State.coverOf (s : State) (page entry : Nat) (b : BlkEntry) (okOnly : Bool) : List (Nat × DskReq) :=
  (List.range 8).flatMap (fun d => ((vget s.dsk d).reqs.filter (fun r =>
    r.op == 0 && r.origin == .ring && r.page == s.pageHandle page && r.entry == entry && r.dst == b.addr + r.boff
      && s.bookingMaps d r b && (r.status == some 0 || (!okOnly && r.status == none)))).map (fun r => (d, r)))

/-- Bookings cover byte offsets 0 to BLEN − 1 of a block (R301). -/
def covers (l : List (Nat × DskReq)) (blen : Nat) : Bool :=
  decide (blen ≤ (List.range l.length).foldl (fun x _ => l.foldl (fun y e =>
    if e.2.boff ≤ y ∧ y < e.2.boff + 4096 * e.2.count then e.2.boff + 4096 * e.2.count else y) x) 0)

/-- A SRC = 1 block has been staged at its address: every covering booking completed with OK (R217, R301). -/
def State.blockStaged (s : State) (page entry : Nat) (b : BlkEntry) : Bool := covers (s.coverOf page entry b true) b.blen

/-- Press time, relative to now in ns, at which a line of a station must be filled: the need point of the facet that
writes its pass p0 (R143, R144, R218). -/
def State.needTime (s : State) (i p l : Nat) : Int :=
  let lead := match (s.writers i p (lineDist (s.ex i).cf l % (128 / p))).head? with | some b => s.loff i b | none => 0
  s.line16Ns i (sx 44 (16 * ((l + 2 ^ 40 - lead) % 2 ^ 40) + 2 ^ 44 - s.lambda16 i s.now)) - 20000

/-- The first entry from `k` on that carries a station's raster. -/
def State.nextEntry (s : State) (p : Page) (stn k : Nat) : Option Nat :=
  (List.range (p.nblk - k)).findSome? (fun j => if (s.blkPeek p (k + j)).stn = stn then some (k + j) else none)

/-- A context named by a page block is free: no engine decodes a block of it, and every earlier entry of the page that
names it has been dispatched (R213). -/
def State.ctxFree (s : State) (p : Page) (page entry ctx : Nat) : Bool :=
  ctx == 0 || ((List.range 8).all (fun e => match (s.eng e).band with | some b => b.ctx != ctx | none => true)
    && !(s.ctxBusy ctx)
    && (List.range entry).all (fun k => let b := s.blkPeek p k
        b.ctx != ctx || s.fills.all (fun f => f.page != page || f.stn != b.stn || f.halted.isSome || decide (k < f.next))))

/-- The block a fill would dispatch next, when it may: the job it makes and the distance of its first line from the
need point, in ns. -/
def State.fillNext (s : State) (f : Fill) : Option (BandJob × Int) :=
  match Tab.get s.pages f.page with
  | none => none
  | some p =>
    if f.halted.isSome || p.record.spoilCause != 0 then none
    else match s.nextEntry p f.stn f.next with
      | none => none
      | some k =>
        let b := s.blkPeek p k
        let h := BlkHdr.ofBytes (s.rdBytes b.addr 16)
        let first := (lget p.firstLine f.stn + f.bytes / 12288) % 2 ^ 40
        let last := (lget p.firstLine f.stn + (f.bytes + h.outLen - 1) / 12288) % 2 ^ 40
        let room := match s.jobOf p with
          | none => false
          | some j => match s.bandOf j f.stn with
            | none => false
            | some (_, bd) => lineDist ((s.ex f.stn).line) last < bd.lines || decide (p.length ≤ f.bytes / 12288)
        if (b.onDisk && !s.blockStaged f.page k b) || !room || !s.ctxFree p f.page k b.ctx then none
        else some (⟨f.page, k, f.stn, b.ctx, f.bytes, if h.ok then h.outLen else 0⟩,
          s.needTime f.stn (s.passesOn f.stn) first)

/-- The engine that takes the next page block: online, not testing, without a page block; one without a general job
first (R217). -/
def State.nextEngine (s : State) : Option Nat :=
  let ok (e : Nat) : Bool := s.flag (F.ATR_CTRL_ONLINE e) && !(s.eng e).testing && (s.eng e).band.isNone
  match (List.range 8).find? (fun e => ok e && (s.eng e).job.isNone) with
  | some e => some e
  | none => (List.range 8).find? ok

/-- PAGE_BLOCK_DISPATCH (R217): the block with the earliest need point goes to the next free online engine. -/
def effPageBlockDispatch (s : State) : State :=
  let best := (s.fills.filterMap s.fillNext).foldl
    (fun (a : Option (BandJob × Int)) x => match a with
      | none => some x
      | some y => if x.2 < y.2 then some x else some y) none
  match best, s.nextEngine with
  | some (b, _), some e =>
    let t : State := { s with fills := s.fills.map (fun f =>
      if f.page = b.page ∧ f.stn = b.stn then { f with next := b.entry + 1, bytes := f.bytes + b.outLen } else f) }
    (t.modAtr e (fun a => { a with band := some b })).atrSync e
  | _, _ => s

/-- A block's run recorded in its fill. -/
def State.fillRun (s : State) (b : BandJob) (len kind : Nat) (halt : Option Bool) : State :=
  { s with fills := s.fills.map (fun f =>
    if f.page = b.page ∧ f.stn = b.stn then
      { f with runs := f.runs ++ [(b.off, len, kind)], halted := match halt with | some x => some x | none => f.halted }
    else f) }

/-- Bytes of a page's raster filled without a gap from its start. -/
def Fill.prefixLen (f : Fill) : Nat :=
  (List.range f.runs.length).foldl (fun x _ => f.runs.foldl (fun y r =>
    if r.2.2 = 0 ∧ r.1 ≤ y ∧ y < r.1 + r.2.1 then r.1 + r.2.1 else y) x) 0

/-- Raster bytes written into the band's line slots, from byte `off` of the page's raster on (R216); whether a partial
word could not be read, after which no further line is written (R231). -/
def State.bandWrite (s : State) (bd : Band) (first off : Nat) (l : List Byte) : State × Bool :=
  let lines := (List.range (l.length / 12288 + 2)).map (fun k => off / 12288 + k)
  lines.foldl (fun (a : State × Bool) n =>
    let a0 := max off (12288 * n)
    let a1 := min (off + l.length) (12288 * (n + 1))
    if a1 ≤ a0 ∨ a.2 = true then a
    else
      let part := (l.drop (a0 - off)).take (a1 - a0)
      match a.1.memWrite reqPageBlock (bd.base + 12288 * (((first + n) % 2 ^ 40) % bd.lines) + (a0 - 12288 * n)) part with
      | (t, .ecc) => (t, true)
      | (t, _) => (t, a.2)) (s, false)

/-- FILL of the band (R214). -/
def State.bandFill (s : State) (b : BandJob) (x first : Nat) : State :=
  match s.fills.find? (fun f => f.page == b.page && f.stn == b.stn) with
  | none => s
  | some f => { s with bands := Tab.upd s.bands x (fun bd => { bd with fill := (first + f.prefixLen / 12288) % 2 ^ 40 }) }

/-- A page block that did not decode, or whose output could not be written: its lines stay unfilled (R218). -/
def State.blockFailed (s : State) (e : Nat) (b : BandJob) (status : Nat) (noHeader : Bool) : State :=
  let ecc := status == 7
  (s.fillRun b b.outLen (if ecc then 2 else 1) (if noHeader then some ecc else none)).engFailed e status

/-- The page block's output goes to the band: what lies beyond the page's last line is discarded with FILL_ERR and
FS196 (R219). A block whose output has been written is complete: it is counted in OUTB and `done` takes its effect on
the context (R209). -/
def State.fillOutput (s : State) (e : Nat) (b : BandJob) (p : Page) (out : List Byte) (done : State → State) : State :=
  match s.jobOf p with
  | none => s
  | some j =>
    match s.bandOf j b.stn with
    | none => s.fillRun b b.outLen 1 none
    | some (x, bd) =>
      let room := 12288 * p.length - b.off
      let first := lget p.firstLine b.stn
      let s1 := if room < out.length then (s.setFlag (F.ATR_STATUS_FILL_ERR e)).raise 196 else s
      match s1.bandWrite bd first b.off (out.take room) with
      | (t, true) => t.blockFailed e b 7 false
      | (t, false) =>
        done (((t.fillRun b (min room out.length) 0 none).bandFill b x first).modAtr e
          (fun a => { a with outb := (a.outb + out.length) % 2 ^ 64 }))

/-- The block of an entry decoded (R213): stateless with CTX 0, else on its context. -/
def State.decodePageBlock (s : State) (e : Nat) (b : BandJob) (p : Page) (en : BlkEntry) : State :=
  match s.memRead reqPageBlock en.addr en.blen with
  | (t, .unmapped) => t.blockFailed e b 11 true
  | (t, .ecc _) => t.blockFailed e b 7 (b.outLen == 0)
  | (t, .data l) =>
    let h := BlkHdr.ofBytes (l.take 16)
    if h.ok = false then t.blockFailed e b 3 true
    else if l.length < 16 + h.inLen then t.blockFailed e b 2 false
    else
      let body := (l.drop 16).take h.inLen
      let stateless : AtrCtx := { (default : AtrCtx) with linePx := 24576 }
      match t.ctxOf en.ctx with
      | none =>
        (match stateless.decode h body with
        | .error st => t.blockFailed e b st false
        | .ok px => t.fillOutput e b p (packNibbles px) id)
      | some (ci, c) =>
        (match c.decode h body with
        | .error st => t.blockFailed e b st false
        | .ok px => t.fillOutput e b p (packNibbles px) (fun u => u.modCtx ci (fun x => x.enter px (!h.hist) h.last)))

/-- PAGE_BLOCK_DECODED (R217 to R219). -/
def effPageBlockDecoded (e : Nat) (s : State) : State :=
  match (s.eng e).band with
  | none => s
  | some b =>
    let s1 := s.modAtr e (fun a => { a with band := none })
    let s2 := match Tab.get s1.pages b.page with
      | none => s1
      | some p =>
        if p.record.spoilCause ≠ 0 then s1
        else match s1.blkEntry p b.entry with
          | (t, none) => t.blockFailed e b 7 false
          | (t, some en) => t.decodePageBlock e b p en
    s2.atrSync e

/-- The fills a grant starts: one per station of the page's job (R217). -/
def State.startFills (s : State) (i : Nat) (j : Job) : State :=
  { s with fills := s.fills ++ (setBitsOf 4 j.stn).map (fun k => ⟨i, k, 0, 0, [], none⟩) }

end Sys2Proof.Machine
end

