-- ==== Sys2Proof/Machine/Pages.lean ====
section
/-!
DEFINITION. Pages from request to record (R18 to R36) and jobs' states (R95).
-/
namespace Sys2Proof.Machine

/-! ### Requests (R20, R21) -/

/-- The result of an admission request, with ADMIT_DONE but for BUSY and STALE (R23, R96). -/
def State.admitResult (s : State) (i r : Nat) : State :=
  let s1 := s.modPage i (fun p => { p with result := r })
  if r = 8 ∨ r = 10 then s1
  else match Tab.get s1.pages i with | some p => s1.admitDone p | none => s1

/-- ADMIT_REQ: the queue's fullness is tested first, then the handle, then the page's state. A stale handle names no
page that could hold its result. -/
def effAdmitReq (handle : Nat) (s : State) : State :=
  if 16 ≤ s.admitQ.length then
    let s1 := s.setFlag F.SYS_ADMIT_STATUS_FULLSEEN
    match s.pageOf handle with | some (i, _) => s1.admitResult i 8 | none => s1
  else match s.pageOf handle with
    | none => s
    | some (i, p) =>
      if p.state = .ready then
        { s.modPage i (fun q => { q with state := .queued, pagea := none }) with admitQ := s.admitQ ++ [i] }
      else s.admitResult i 9

/-! ### The conditions of R22 -/

/-- Raster bytes of the entries of a station before entry `k`, when every one's header can be read. -/
def State.bytesBefore (s : State) (p : Page) (page stn k : Nat) : Option Nat :=
  (List.range k).foldl (fun a j => match a with
    | none => none
    | some n =>
      let b := s.blkPeek p j
      if b.stn ≠ stn then some n
      else if b.onDisk && !s.blockStaged page j b then none
      else some (n + (BlkHdr.ofBytes (s.rdBytes b.addr 16)).outLen)) (some 0)

/-- Condition bit 0 for one entry (R213, R301). `start` is the reference line the page would begin at. -/
def State.entryOk (s : State) (j : Job) (p : Page) (page k start : Nat) : State × Bool :=
  match s.blkEntry p k with
  | (t, none) => (t, false)
  | (t, some b) =>
    if t.blkWellFormed j b = false then (t, false)
    else if b.onDisk then
      if t.blockStaged page k b then (t, true)
      else
        let l := t.coverOf page k b false
        let first := (start + lget j.offset b.stn) % 2 ^ 40
        let idx := match t.bytesBefore p page b.stn k with
          | some n => n / 12288
          | none => Config.firstLine (t.pageHandle page) k
        let need := t.needTime b.stn j.p ((first + idx) % 2 ^ 40)
        (t, covers l b.blen && l.all (fun e =>
          decide (t.slotStart (e.1 / 2) ((e.2.slot + 1) % 2 ^ 32) + (t.retryReserve e.1 : Int) < need)))
    else match t.memRead reqPageBlock b.addr 16 with
      | (u, .data l) =>
        let h := BlkHdr.ofBytes l
        (u, h.ok && decide (b.blen = 16 + h.inLen) && (b.ctx != 0 || !h.hist))
      | (u, _) => (u, false)

/-- Condition bit 0: raster availability. -/
def State.rasterOk (s : State) (j : Job) (p : Page) (page start : Nat) : State × Bool :=
  (List.range p.nblk).foldl (fun a k => match a.1.entryOk j p page k start with
    | (t, ok) => (t, a.2 && ok)) (s, true)

/-- START_LINE (R24). -/
def State.startLine (s : State) (j : Job) : Nat :=
  let a := ((s.ex j.ref).line + 256) % 2 ^ 40
  match j.ends with
  | [] => a
  | e :: _ =>
    let b := (e.2 + j.gap + 1) % 2 ^ 40
    if lineLe b a then a else b

/-- The decompression rate a page needs, in bytes/s rounded up (R22, R220). -/
def State.pageRate (s : State) (j : Job) : Nat :=
  let r := s.jobLineRate j
  if r.2 = 0 then 0 else ((popc 4 j.stn * 12288 * r.1) + r.2 - 1) / r.2

/-- Condition bit 1: band space and decompression rate. -/
def State.bandOk (s : State) (j : Job) (start : Nat) : Bool :=
  ((setBitsOf 4 j.stn).all (fun i => match s.bandOf j i with
    | none => false
    | some (_, b) =>
      decide (sx 40 ((start + lget j.offset i) % 2 ^ 40 + 2 ^ 40 - (s.ex i).line) + 256 ≤ (b.lines : Int))))
    && decide (s.reservations + s.pageRate j ≤ 1800000000 * s.engOnline)

/-- Condition bit 3: clocks. -/
def State.clocksOk (s : State) (j : Job) (page : Nat) : Bool :=
  [0, 1, 2, 15].all (fun n => s.flag (F.CLK_STATUS_LOCK n))
    && (setBitsOf 4 j.stn).all (fun i => s.flag (F.CLK_STATUS_LOCK (3 + i)))
    && (List.range 8).all (fun d => s.flag (F.CLK_STATUS_LOCK (7 + d))
      || !((vget s.dsk d).reqs.any (fun r => r.booked && r.page == s.pageHandle page)))

/-- Condition bit 4: links. -/
def State.linksOk (s : State) (j : Job) : Bool := (setBitsOf 4 j.stn).all s.elkTrained

/-- CRC-32C of a page's block list as it stands in DRAM (R446). -/
def State.listCrc (s : State) (p : Page) : Nat := crc32c (s.rdBytes p.blist (32 * p.nblk))

/-- What names a page to the accord partner (R446): block-list CRC, LENGTH, reference station. -/
def State.pageName (s : State) (p : Page) (j : Job) : List Byte :=
  leBytes 4 (s.listCrc p) ++ leBytes 4 p.length ++ leBytes 4 j.ref

/-! ### Evaluation (R21 to R24) -/

/-- The page of an end line can still be withdrawn (R26), so that an earlier page's end may count again (R24). -/
def State.withdrawable (s : State) (e : Nat × Nat) : Bool :=
  match s.pageOf e.1 with
  | some (_, q) => q.state == .admitted
  | none => false

/-- The grant (R24): START_LINE fixed, reservations taken, band filling begun; the active tells the shadow. -/
def State.grantPage (s : State) (i : Nat) (p : Page) (j : Job) (start : Nat) (skip : Bool) : State :=
  let h := s.pageHandle i
  let open_ := j.ends.takeWhile s.withdrawable
  let live := open_ ++ (j.ends.drop open_.length).take 1
  let s1 := s.modPage i (fun q => { q with
    state := .admitted, result := 1, failMask := 0, startLine := start
    firstLine := (List.range 4).map (fun k => (start + lget j.offset k) % 2 ^ 40)
    reserved := s.pageRate j, blankFrom := List.replicate 4 none
    record := { (default : PageRec) with accSkip := skip } })
  let s2 := (s1.modJob (hIdx p.job) (fun x => { x with ends := (h, (start + p.length - 1) % 2 ^ 40) :: live })).startFills i j
  let s3 := if s2.isActive then s2.sendAcd 0x07 0 (leBytes 8 start ++ s2.pageName p j) else s2
  s3.admitResult i 1

/-- A request leaves the queue and its page returns to READY with a result. -/
def State.admitRefuse (s : State) (i result mask : Nat) : State :=
  (s.modPage i (fun q => { q with state := .ready, failMask := mask, pagea := none })).admitResult i result

/-- The head of the queue evaluated: every condition, then the grant or the refusal (R22). -/
def State.admitJudge (s : State) (i : Nat) (p : Page) (j : Job) : State :=
  let start := s.startLine j
  let r := s.rasterOk j p i start
  let s1 := r.1
  let th := s1.thermalHold j p.length
  let s2 := (s1.raiseIf th.1 362).each th.2 (fun t k => t.raise (113 + 8 * k))
  let acc := !s2.joined || p.pagea == some true
  let mask := b2n (!r.2) + 2 * b2n (!s2.bandOk j start) + 4 * b2n (th.1 || !th.2.isEmpty) + 8 * b2n (!s2.clocksOk j i)
    + 16 * b2n (!s2.linksOk j) + 32 * b2n (!acc)
  if mask = 0 then s2.grantPage i p j start (!s2.joined)
  else s2.admitRefuse i (2 + (lowestBit 6 mask).getD 0) mask

/-- ADMIT_EVALUATION: the request at the head of the queue. In a joined pair the active first asks the shadow, and the
shadow's own pages wait for GRANT (R446, R449). -/
def effAdmitEvaluation (s : State) : State :=
  match s.admitQ with
  | [] => s
  | i :: rest =>
    let pop : State := { s with admitQ := rest }
    match Tab.get s.pages i with
    | none => pop
    | some p =>
      match p.state, s.jobOf p with
      | .queued, some j =>
        if j.state ≠ .running then (pop.admitRefuse i 9 p.failMask).settleJob (hIdx p.job)
        else if s.isShadow then s
        else if s.isActive && p.pagea.isNone then
          (if s.acd.asked = some i then s
          else (s.sendAcd 0x05 0 (s.pageName p j)).modAcd (fun a => { a with asked := some i }))
        else pop.admitJudge i p j
      | _, _ => pop

/-! ### Withdrawal, spoiling, printing -/

/-- WITHDRAW (R26). -/
def effWithdraw (handle : Nat) (s : State) : State :=
  match s.pageOf handle with
  | none => s
  | some (i, p) =>
    if p.state = .admitted ∧ s.beforeStart p = true then s.withdrawPage i
    else if p.state = .admitted ∨ p.state = .printing ∨ p.state = .done then s.setFlag F.SYS_ADMIT_STATUS_WD_LATE
    else s

/-- SPOIL (R43): a PRINTING page from its next line, with cause 0x0A on its reference station, or on the lowest-numbered
station that still has a next line. -/
def effSpoil (handle : Nat) (s : State) : State :=
  match s.pageOf handle with
  | none => s
  | some (i, p) =>
    if p.state ≠ .printing then s
    else match s.jobOf p with
      | none => s
      | some j =>
        match (j.ref :: List.range 4).find? (fun k => j.names k && decide (s.blankPoint p k < p.length)) with
        | some k => s.spoilPage i k 0x0A (s.blankPoint p k)
        | none => s

/-- PAGE_START (R18): the reference station begins the page's first line. -/
def effPageStart (i : Nat) (s : State) : State :=
  match Tab.get s.pages i with
  | none => s
  | some p =>
    if p.state = .admitted ∧ s.beforeStart p = false then
      s.modPage i (fun q => { q with state := .printing, record := { q.record with tFirst := s.now } })
    else s

/-- The line that a station whose facets stopped would be at by now, had they gone on (R28): from the facet origin and
line count at which they stopped. -/
def State.haltLine (s : State) (k : Nat) : Option Nat :=
  (s.ex k).haltAt.map (fun h =>
    let p := s.facetNs k
    (h.2 + s.linesPerFacet k * (s.now - h.1) * p.2 / p.1) % 2 ^ 40)

/-- The station has passed the page's last line, or would have but for a stop of its facets, which moves no page's end
(R28). -/
def State.endedOn (s : State) (p : Page) (k : Nat) : Bool :=
  let e := (lget p.firstLine k + p.length) % 2 ^ 40
  lineLe e (s.lambda16 k s.now / 16) || lineLe e (s.ex k).line
    || (match s.haltLine k with | some l => lineLe e l | none => false)

/-- PAGE_DONE (R18, R28): the last station has ended the last line; this is also a page boundary. -/
def effPageDone (i : Nat) (s : State) : State :=
  match Tab.get s.pages i with
  | none => s
  | some p =>
    match s.jobOf p with
    | none => s
    | some j =>
      if p.state = .printing ∧ (setBitsOf 4 j.stn).all (s.endedOn p) = true then
        ((s.finishPage i s.now).pageBoundary j).each (setBitsOf 4 j.stn) State.holdRelease
      else s

/-! ### Jobs (R95) -/

/-- CMD_REJ of OBJ_STATUS. -/
def State.objRej (s : State) : State := s.setFlag F.OBJ_STATUS_CMD_REJ

/-- JOB_START (R95, R426, R427). -/
def effJobStart (handle : Nat) (s : State) : State :=
  match s.live handle 0x0A with
  | none => s.objRej
  | some i =>
    match Tab.get s.jobs i with
    | none => s.objRej
    | some j =>
      if j.state ≠ .setup ∨ s.jobs.any (fun e => e.2.active && e.2.stn &&& j.stn != 0) = true
          ∨ s.jobClocks j.stn j.pixclk = false then s.objRej
      else
        (s.modJob i (fun x => { x with state := .running })).each (setBitsOf 4 j.stn) (fun t k =>
          let u := (t.modExp k (fun e => { e with lastP := j.p })).lacReplace k
          if u.flag (F.CLK_STATUS_PEND (3 + k)) then u.applyPll (3 + k) else u)

/-- JOB_STOP (R95). -/
def effJobStop (handle : Nat) (s : State) : State :=
  match s.live handle 0x0A with
  | none => s.objRej
  | some i =>
    match Tab.get s.jobs i with
    | none => s.objRej
    | some j => if j.state = .running then (s.modJob i (fun x => { x with state := .stopping })).settleJob i else s.objRej

/-- PAGE_READY (R97). -/
def effPageReady (handle : Nat) (s : State) : State :=
  match s.pageOf handle with
  | none => s.objRej
  | some (i, p) => if p.state = .building then s.modPage i (fun q => { q with state := .ready }) else s.objRej

end Sys2Proof.Machine
end

