-- ==== Sys2Proof/Machine/Accord.lean ====
section
/-!
DEFINITION. The accord pair (R445 to R457): joining, mirroring, the ownership token, takeover. What the spec leaves open
about the packets' payloads is fixed here (log entries 60 to 62).
-/
namespace Sys2Proof.Machine

/-! ### Training (R445) -/

/-- The step to HELLO: a fresh link with the offered credits, and HELLO sent (R446). Beside the fields that R446 lists
the payload carries the device number and whether a job, page or timer is open, which R447 compares. -/
def State.acdHello (s : State) : State :=
  let busy := !s.jobs.isEmpty || !s.pages.isEmpty || !s.timers.isEmpty
  let body := leBytes 4 (s.reg R.SYS_ID0).toNat ++ leBytes 4 (s.reg R.SYS_ID1).toNat
    ++ leBytes 4 (s.reg R.SYS_PRESENCE).toNat ++ leBytes 4 (s.reg R.ACD_CFGSUM).toNat
    ++ leBytes 4 (b2n (s.flag F.ACD_STATUS_ROLE)) ++ leBytes 4 (b2n (s.flag F.ACD_STATUS_TOKEN))
    ++ leBytes 4 s.devNum ++ leBytes 4 (b2n busy)
  ((s.setFld F.ACD_STATUS_STATE 3).modLink 2 (fun k =>
    { k.cleared with credit := Credits.offer, granted := Credits.offer, stepAt := s.now }.send 2 ⟨1, 0, body.length, 0, 0, 0, body⟩ s.now)).modAcd
    (fun a => { a with helloSent := true })

/-- An attempt starts at LOCK. -/
def State.acdStart (s : State) : State :=
  ((s.setFld F.ACD_STATUS_STATE 1).modAcd (fun a => { a with failedAt := none })).modLink 2 (fun k => { k with stepAt := s.now })

/-- ACCORD_TRAIN_STEP: LOCK and DESKEW complete, within their limits. -/
def effAccordTrainStep (s : State) : State :=
  if s.hasAccord = false then s
  else if (s.acdState = 1 ∨ s.acdState = 2) ∧ s.stepLate 2 s.acdState = true then s.acdDown (some s.now)
  else if s.acdState = 1 then (s.setFld F.ACD_STATUS_STATE 2).modLink 2 (fun k => { k with stepAt := s.now })
  else if s.acdState = 2 then s.acdHello
  else s

/-- ACCORD_TRAIN_TIMEOUT: the limit of a step has passed; the next attempt comes 10 ms later (R178). -/
def effAccordTrainTimeout (s : State) : State :=
  if 1 ≤ s.acdState ∧ s.acdState ≤ 3 ∧ s.stepOut 2 s.acdState = true then s.acdDown (some s.now) else s

/-- ACCORD_TRAIN_RETRY. -/
def effAccordTrainRetry (s : State) : State :=
  if s.hasAccord ∧ s.acdState = 0 ∧ s.flag F.ACD_CTRL_EN = true
      ∧ (match s.acd.failedAt with | none => true | some t => decide (t + 10000000 ≤ s.now)) = true
  then s.acdStart else s

/-! ### The token and its outputs (R337, R339, R451) -/

/-- MIRROR_OK; FS378 when a bit falls (R449). -/
def State.setMirror (s : State) (m : Nat) : State :=
  (s.setFld F.ACD_STATUS_MIRROR_OK m).raiseIf ((List.range 4).any (fun i => bit (s.fld F.ACD_STATUS_MIRROR_OK) i && !bit m i)) 378

/-- Every half-bridge follows its command state, as its source commands it now. -/
def State.gatesFollow (s : State) : State :=
  s.each (List.range 32) (fun t k => if t.hbEn k && !t.hbFault k then t.hbSync k else t)

/-- The token is taken: OWN_OUT high, gates follow. -/
def State.takeToken (s : State) : State :=
  ((s.setFlag F.ACD_STATUS_TOKEN).modAcd (fun a => { a with tokenAt := s.now, backoffUntil := none })).gatesFollow

/-- The token is released: OWN_OUT and gate outputs low; stepper and LPWM outputs are low without the token
(`State.stpPins`, `State.lpwmPin`). -/
def State.dropToken (s : State) : State := (s.clrFlag F.ACD_STATUS_TOKEN).gatesLow

/-- R451: OWN_IN reads low, the device is joined as shadow or has no partner, no drydown runs. -/
def State.mayTake (s : State) : Bool :=
  s.hasAccord && !s.flag F.ACD_STATUS_TOKEN && !s.flag F.ACD_STATUS_OWN_IN && (s.isShadow || !s.joined) && !s.pwr.phase.dryRuns

/-- OWN_IN as it has been found for `lowNs`: low, or, at 0, high. -/
def State.ownIn (s : State) (lowNs : Nat) : State := if s.hasAccord then s.putFlag F.ACD_STATUS_OWN_IN (lowNs == 0) else s

/-- TOKEN_POWERUP_TAKE: OWN_IN has been low for `lowNs`, 10 ms or more, after power-up. -/
def effTokenPowerupTake (lowNs : Nat) (s0 : State) : State :=
  let s := s0.ownIn lowNs
  if s.mayTake && !s.joined && decide (10000000 ≤ lowNs) then s.takeToken else s

/-- TOKEN_CONFLICT: both high for 1 µs. A device that took the token within the last millisecond releases it and waits
its back-off; one that has held it longer keeps it. -/
def effTokenConflict (bothNs : Nat) (s : State) : State :=
  if s.hasAccord = false ∨ s.flag F.ACD_STATUS_TOKEN = false ∨ bothNs < 1000 then s
  else
    let s1 := ((s.setFlag F.ACD_STATUS_CONFLICT).setFlag F.ACD_STATUS_OWN_IN).raise 380
    if s.now ≤ s.acd.tokenAt + 1000000 then
      (s1.dropToken.modAcd (fun a => { a with backoffUntil := some (s.now + 50000 * (s.freeWord.toNat % 64 + 1)) })).tookFree
    else s1

/-- TOKEN_BACKOFF_END: the token is taken only if OWN_IN has read low for 200 ns. -/
def effTokenBackoffEnd (lowNs : Nat) (s : State) : State :=
  match s.acd.backoffUntil with
  | none => s
  | some t =>
    if s.now < t then s
    else
      let s1 := (s.ownIn lowNs).modAcd (fun a => { a with backoffUntil := none })
      if s1.mayTake && decide (200 ≤ lowNs) then s1.takeToken else s1

/-! ### Takeover (R452 to R454, R456) -/

/-- The takeover record (R464). -/
def State.takeoverRecord (s : State) (role : Nat) : State :=
  s.sillage 0x06 (leBytes 1 role ++ ((List.range 4).map (fun i => leBytes 5 (s.ex i).line)).flatten)

/-- A takeover occurs during every PRINTING page: its TKO flag (R33, R35, R454). -/
def State.pagesTko (s : State) : State :=
  s.each (s.pagesIn .printing) (fun t i => t.modPage i (fun p => { p with record := { p.record with tko := true } }))

/-- The active lets go: token released, TKO sent, it becomes shadow; its pages belong to the new active. -/
def State.giveUp (s : State) : State :=
  let s1 := (s.pagesTko.sendAcd 0x0B 0 []).dropToken
  ((s1.clrFlag F.ACD_STATUS_ROLE).modAcd (fun a => { a with handover := false, handoverDue := false })).takeoverRecord 0

/-- The shadow becomes active. -/
def State.takeOver (s : State) : State :=
  let mirror := s.fld F.ACD_STATUS_MIRROR_OK
  let s1 := (((s.takeToken.setFlag F.ACD_STATUS_ROLE).setFlag F.ACD_STATUS_TKO).raise 379).takeoverRecord 1
  let s2 := s1.pagesTko
  let s3 := s2.each ((List.range 4).filter (fun i => !bit mirror i)) (fun t i => t.spoilStation i 0x0B)
  s3.abortCmds.sendEvt 0x0002 0

/-- TAKEOVER of a reaction set (R439, R452): only on the active of a joined pair. -/
def State.reactTakeover (s : State) : State := if s.isActive then s.giveUp else s

/-- A write to ACD_CTRL (R445, R456, R469). -/
def effAcdCtrl (v : Word) (s : State) : State :=
  let s1 := s.putFlag F.ACD_CTRL_EN (F.ACD_CTRL_EN.of v == 1)
  let s2 := if F.ACD_CTRL_EN.of v = 0 then s1.acdDown none
    else if s1.acdState = 0 ∧ s1.acd.failedAt = none then s1.acdStart
    else s1
  if F.ACD_CTRL_HANDOVER.of v = 1 ∧ F.ACD_CTRL_KEY.of v = 0x5A ∧ s2.isActive = true ∧ s2.fld F.ACD_STATUS_MIRROR_OK = 15 then
    (if s2.lowestLocked.isNone then s2.giveUp else s2.modAcd (fun a => { a with handover := true }))
  else s2

/-- OWN_IN has read low for 200 ns: a joined shadow takes over. -/
def effOwnInLow (lowNs : Nat) (s : State) : State :=
  let s1 := s.ownIn lowNs
  if s1.isShadow && s1.mayTake && decide (200 ≤ lowNs) then s1.takeOver else s1

/-- TKO received by the shadow. The token is not taken while a drydown runs (R451). -/
def State.rxTko (s : State) : State :=
  let s1 := s.ownIn 1
  if s1.isShadow && s1.mayTake then s1.takeOver else s

/-- ACCORD_LINK_LOST: the link has been down for `downNs`. Past 1 ms LOST and FS376 are set, and JOINED, MIRROR_OK and
the shadow role end (R455). -/
def effAccordLinkLost (downNs : Nat) (s : State) : State :=
  if s.hasAccord = false ∨ (s.acdState ≠ 4 ∧ s.acd.downSince = none) then s
  else
    let since := s.acd.downSince.getD (s.now - downNs)
    let s1 := (s.acdDown (some s.now)).modAcd (fun a => { a with downSince := some since })
    if s.now ≤ since + 1000000 then s1
    else
      let s2 := (s1.setFlag F.ACD_STATUS_LOST).raise 376
      let s3 := (s2.clrFlag F.ACD_STATUS_JOINED).setMirror 0
      (s3.modStq (fun q => { q with cmds := q.cmds.map (fun c => { c with unheld := [] }) })).checkWrites.modAcd (fun a =>
        { a with
          downSince := none, joining := false, stepped := false, handover := false, handoverDue := false, asked := none })

/-! ### Joining (R447) -/

/-- TIME (R446). -/
def State.sendTime (s : State) : State := s.sendAcd 0x02 0 (leBytes 8 s.now ++ leBytes 8 s.acd.lastTimeRx)

/-- The reason why a join is refused, from what the partner's HELLO says; the lowest-numbered. -/
def State.joinReason (s : State) (l : List Byte) : Option Nat :=
  let mine := s.flag F.ACD_STATUS_TOKEN
  let theirs := entLe l 20 4 == 1
  let busy := if mine then entLe l 28 4 == 1 else !s.jobs.isEmpty || !s.pages.isEmpty || !s.timers.isEmpty
  if mine == theirs then some 1
  else if entLe l 12 4 ≠ (s.reg R.ACD_CFGSUM).toNat then some 2
  else if (entLe l 8 4 &&& 0xFF0FF) ≠ ((s.reg R.SYS_PRESENCE).toNat &&& 0xFF0FF) then some 3
  else if busy then some 4
  else if entLe l 24 4 ≠ s.devNum then some 5
  else none

/-- HELLO received: the link is UP, and the pair joins or refuses. -/
def State.rxHello (s : State) (l : List Byte) : State :=
  if s.acdState ≠ 3 then s
  else
    let s1 := ((s.setFld F.ACD_STATUS_STATE 4).modAcd (fun a => { a with downSince := none })).putFlag F.ACD_STATUS_OWN_IN
      (entLe l 20 4 == 1)
    if s1.joined then s1
    else match s1.joinReason l with
      | some r => (((s1.setFlag F.ACD_STATUS_REFUSED).setFld F.ACD_STATUS_REASON r).raise 377)
      | none =>
        if s1.flag F.ACD_STATUS_TOKEN then ((s1.setFlag F.ACD_STATUS_ROLE).setFlag F.ACD_STATUS_JOINED).setMirror 15
        else ((s1.clrFlag F.ACD_STATUS_ROLE).modAcd (fun a => { a with joining := true, stepped := false })).sendTime

/-- TIME received (R446, R447): the active answers; the joining shadow steps its press time by half the round trip, and
later only trims. -/
def State.rxTime (s : State) (l : List Byte) : State :=
  let tx := entLe l 0 8
  let echo := entLe l 8 8
  let s1 := s.modAcd (fun a => { a with lastTimeRx := tx })
  if s.isActive then s1.sendTime
  else if echo = 0 then s1
  else
    let half := (s.now - echo) / 2
    if s.acd.joining ∧ s.acd.stepped = false then
      { s1.modAcd (fun a => { a with stepped := true }) with ptime := BitVec.ofNat 64 (tx + half) }
    else
      let off : Int := (s.now : Int) - ((tx + half : Nat) : Int)
      (s1.modAcd (fun a => { a with trim := clampInt (-100) 100 (-off) })).setFld F.ACD_PTOFF_OFF (ux 16 off)

/-! ### STATE (R449) -/

/-- Pages in PRINTING as STATE names them: START_LINE and the page's name. -/
def State.statePages (s : State) : List (List Byte) :=
  ((s.pages.filter (fun e => e.2.state == .printing)).take 64).filterMap (fun e =>
    (s.jobOf e.2).map (fun j => leBytes 8 e.2.startLine ++ s.pageName e.2 j))

/-- The payload of STATE: per station the line count and the facet number before its next origin, loop slots, motors,
axes, web, PRINTING pages. -/
def State.stateBody (s : State) : List Byte :=
  let stns := ((List.range 4).map (fun i =>
    let e := s.ex i
    leBytes 8 ((e.line + (if e.inScan then s.linesPerFacet i else 0)) % 2 ^ 40) ++ leBytes 8 e.line ++ leBytes 8 e.facet)).flatten
  let loops := ((List.range 64).map (fun n => match Tab.get s.loops n with
    | some l => leBytes 8 (ux 64 l.i) ++ leBytes 4 (ux 32 l.spr) ++ leBytes 4 (ux 32 l.uPrev)
    | none => leBytes 16 0)).flatten
  let mots := ((List.range 16).map (fun n => leBytes 8 (ux 64 (vget s.mots n).integ) ++ leBytes 8 (vget s.mots n).target)).flatten
  let axes := ((List.range 16).map (fun n => leBytes 8 (ux 64 (s.axis n).pFrac) ++ leBytes 8 (ux 64 (s.axis n).vMilli))).flatten
  stns ++ loops ++ mots ++ axes ++ leBytes 8 (ux 64 s.web.raw) ++ leBytes 8 (ux 64 s.web.hw)
    ++ leBytes 4 s.statePages.length ++ s.statePages.flatten

/-- The active sends STATE. -/
def State.sendState (s : State) : State :=
  if s.isActive then (s.sendAcd 0x08 0 s.stateBody).modAcd (fun a => { a with stateAt := s.now }) else s

/-- STATE_TIMER: every 1 ms while no station has lock. -/
def effStateTimer (s : State) : State :=
  if s.lowestLocked.isNone && decide (s.acd.stateAt + 1000000 ≤ s.now) then s.sendState else s

/-- The matching page of the shadow: same list, LENGTH and reference station, in a state. -/
def State.matching (s : State) (st : PageState) (name : List Byte) : Option (Nat × Page) :=
  s.pages.find? (fun e => e.2.state == st && (match s.jobOf e.2 with
    | some j => s.pageName e.2 j == name
    | none => false))

/-- A page is mirrored: PRINTING here with the same START_LINE, and no band failure. -/
def State.mirrors (s : State) (rec_ : List Byte) : Bool :=
  s.pages.any (fun e => e.2.state == .printing && decide (e.2.startLine = entLe rec_ 0 8)
    && !bit e.2.record.spoilMask 5 && (match s.jobOf e.2 with
      | some j => s.pageName e.2 j == (rec_.drop 8).take 12
      | none => false))

/-- The stations of a page named in STATE: those of the matching page, or of every page on its reference station. -/
def State.recStations (s : State) (rec_ : List Byte) : Nat :=
  match s.pages.find? (fun e => match s.jobOf e.2 with
    | some j => s.pageName e.2 j == (rec_.drop 8).take 12
    | none => false) with
  | some e => (match s.jobOf e.2 with | some j => j.stn | none => 15)
  | none => 15

/-- STATE received by a shadow (R447, R449): tracked values overwritten, line counters compared, MIRROR_OK judged and
reported back; at a join the line counters are to be taken over and JOINED is set. -/
def State.rxState (s : State) (l : List Byte) : State :=
  if s.isActive then s.setMirror (entLe l 0 4)
  else if s.isShadow = false ∧ s.acd.joining = false then s
  else
    let next (i : Nat) : Nat := entLe l (24 * i) 8
    let line (i : Nat) : Nat := entLe l (24 * i + 8) 8
    let facet (i : Nat) : Nat := entLe l (24 * i + 16) 8
    let lo := 96
    let mo := lo + 1024
    let ao := mo + 256
    let wo := ao + 256
    let s1 : State := { s with
      loops := s.loops.map (fun e => (e.1, { e.2 with
        i := sx 64 (entLe l (lo + 16 * e.1) 8), spr := sx 32 (entLe l (lo + 16 * e.1 + 8) 4)
        uPrev := sx 32 (entLe l (lo + 16 * e.1 + 12) 4) }))
      mots := Vector.ofFn (fun (n : Fin 16) => { s.mots[n] with
        integ := sx 64 (entLe l (mo + 16 * n.val) 8), target := entLe l (mo + 16 * n.val + 8) 8 })
      axes := Vector.ofFn (fun (n : Fin 16) => { s.axes[n] with
        pFrac := sx 64 (entLe l (ao + 16 * n.val) 8), vMilli := sx 64 (entLe l (ao + 16 * n.val + 8) 8) })
      web := { s.web with raw := sx 64 (entLe l wo 8), hw := sx 64 (entLe l (wo + 8) 8) } }
    let s2 := if s1.acd.joining then
        ((s1.setFlag F.ACD_STATUS_JOINED).modAcd (fun a => { a with
          joining := false, copyStn := 15, copyLine := (List.range 4).map next, copyFacet := (List.range 4).map facet }))
      else s1.each (List.range 4) (fun t i => t.modExp i (fun e => { e with facet := facet i }))
    let recs := (List.range (min 64 (entLe l (wo + 16) 4))).map (fun k => (l.drop (wo + 20 + 20 * k)).take 20)
    let bad := recs.foldl (fun a r => if s2.mirrors r then a else a ||| s2.recStations r) 0
    let ok := (List.range 4).foldl (fun a i =>
      if !bit bad i && (bit s2.acd.copyStn i || !s2.hasStn i || (s2.ex i).line == line i) then a + 2 ^ i else a) 0
    let s3 := ((s2.setFlag F.ACD_STATUS_OWN_IN).setMirror ok).sendAcd 0x08 0 (leBytes 4 ok)
    s3.sendTime

/-! ### Pages of the pair (R446, R449) -/

/-- PAGEQ received by the shadow: its own raster-availability test of the matching QUEUED page. -/
def State.rxPageq (s : State) (l : List Byte) : State :=
  if s.isShadow = false then s
  else match s.matching .queued (l.take 12) with
    | none => s.sendAcd 0x06 0 (leBytes 4 0 ++ l.take 12)
    | some (i, p) =>
      match s.jobOf p with
      | none => s
      | some j =>
        let r := s.rasterOk j p i (s.startLine j)
        r.1.sendAcd 0x06 0 (leBytes 4 (b2n r.2) ++ l.take 12)

/-- PAGEA received by the active: the answer for the page that was asked about. -/
def State.rxPagea (s : State) (l : List Byte) : State :=
  match s.acd.asked with
  | none => s
  | some i =>
    match Tab.get s.pages i with
    | none => s.modAcd (fun a => { a with asked := none })
    | some p =>
      match s.jobOf p with
      | none => s
      | some j =>
        if s.isActive ∧ p.state = .queued ∧ s.pageName p j = (l.drop 4).take 12 then
          (s.modPage i (fun q => { q with pagea := some (entLe l 0 4 == 1) })).modAcd (fun a => { a with asked := none })
        else s

/-- GRANT received by the shadow: the matching QUEUED page is granted with the active's START_LINE. -/
def State.rxGrant (s : State) (l : List Byte) : State :=
  if s.isShadow = false then s
  else match s.matching .queued ((l.drop 8).take 12) with
    | none => s
    | some (i, p) =>
      match s.jobOf p with
      | none => s
      | some j => { s with admitQ := s.admitQ.filter (· != i) }.grantPage i p j (entLe l 0 8 % 2 ^ 40) false

/-- STAGE received by the shadow (R448): the block joins its staging area, or replaces the copy staged there. -/
def State.rxStage (s : State) (addr : Nat) (l : List Byte) : State :=
  let v := addr / 2 ^ 48 % 8
  let b := addr % 2 ^ 48
  if s.isShadow = false then s
  else match s.stagedOf v b with
    | some e => (s.memWriteWords reqStorage (s.slotAddr e.slot) l).1
    | none =>
      match s.wbufFree 1 with
      | [] => s
      | k :: _ => ((s.memWriteWords reqStorage (s.slotAddr k) l).1).stageBlock v b k 0

/-! ### Mirror reads (R297, R298, R457) -/

/-- MREAD received: the blocks are read with a deadline; a volume that is not loaded or is offline answers MEDIA. -/
def State.rxMread (s : State) (l : List Byte) : State :=
  let v := entLe l 0 4 % 8
  let n := entLe l 4 4
  let b := entLe l 8 8
  s.each (List.range n) (fun t i =>
    if t.volLoaded v = false ∨ t.volOffline v = true ∨ t.volCap v ≤ b + i then
      t.sendAcd 0x0A (v * 2 ^ 48 + (b + i)) (leBytes 4 5)
    else
      let m := t.volMap v (b + i)
      t.modDsk m.1 (fun k => { k with reqs := k.reqs ++ [{ (default : DskReq) with
        op := 1, count := 1, origin := .mread v (b + i) 1 (entLe l 16 8), blks := [m.2], todo := [0] }] }))

/-- MDATA received: the block goes to the request that waits for it, if it is in time; MEDIA sets FS381. -/
def State.rxMdata (s : State) (addr : Nat) (l : List Byte) : State :=
  let v := addr / 2 ^ 48 % 8
  let m := s.volMap v (addr % 2 ^ 48)
  let d := m.1
  let s1 := s.raiseIf (entLe l 0 4 != 0) 381
  match (s1.reqsWhere d (fun q => q.mirror && q.status == none && q.todo.any (fun k => lget q.blks k == m.2))).head? with
  | none => s1
  | some k =>
    match s1.dreq d k with
    | none => s1
    | some q =>
      match q.todo.find? (fun x => lget q.blks x == m.2) with
      | none => s1
      | some sec =>
        let s2 := if entLe l 0 4 = 0 ∧ s1.now ≤ q.mirrorBy then
            ((s1.deliver q sec (l.drop 4) false).modReq d k (fun x => { x with
              todo := x.todo.erase sec, failed := x.failed.erase sec, nodata := x.nodata.erase sec
              good := x.good ++ [sec], fromMirror := true })).raise (233 + 4 * d)
          else s1.modReq d k (fun x =>
            if entLe l 0 4 = 0 ∧ x.nodata.contains sec then
              { x with todo := x.todo.erase sec, nodata := x.nodata.erase sec, failed := x.failed ++ [sec] }
            else { x with todo := x.todo.erase sec })
        match s2.dreq d k with
        | some q2 => if q2.todo = [] then (s2.finishReq d k).dropDone d else s2
        | none => s2

/-! ### Firmware messages (R450) -/

/-- FWMSG received: pushed to ACD_FWCQ under that ring's POLICY. -/
def State.rxFwmsg (s : State) (l : List Byte) : State :=
  (s.hwPush .fwmsg false (s.reg R.ACD_FWCQ).toNat 2 (l.take 64)).1

/-- The oldest entry of ACD_FWSQ sent, while the link is up; the flag says that one was sent. -/
def State.fwsqSend (s : State) : State × Bool :=
  if s.linkUp 2 = false then (s, false)
  else match s.unitRing (s.reg R.ACD_FWSQ).toNat 2 with
    | none => (s, false)
    | some (k, r) =>
      match s.ringPop k r with
      | (t, .entry l) => (t.sendAcd 0x0C 0 l, true)
      | (_, .empty) => (s, false)
      | (t, .lost) => (t, false)

/-- Entries of ACD_FWSQ sent while the link is up. -/
def State.drainFwsq (s : State) : Nat → State
  | 0 => s
  | n + 1 => if s.fwsqSend.2 then s.fwsqSend.1.drainFwsq n else s.fwsqSend.1

/-- An accord packet received and performed. -/
def effAcdPkt (p : PktIn) (perform : State → State) (s : State) : State :=
  if s.hasAccord = false then s else s.recvPkt 2 p (fun t => (perform t).giveCredit 2 p.pkt)

end Sys2Proof.Machine
end

