-- ==== Sys2Proof/Machine/Crisal.lean ====
section
/-!
DEFINITION. The Crisal cores (chapter 02) but for what reaches memory and objects: registers, traps, issue, the
integer, system, time, event and DSP instructions, and the run control of a core. The command names the instruction
that issues; the core's program counter, its traps and its boundaries are the spec's.
-/
namespace Sys2Proof.Machine

/-! ### Registers -/

/-- General register `r`; g0 reads 0 (R48). -/
def Core.gr (c : Core) (r : Nat) : Nat := if r = 0 then 0 else (vget c.g r).toNat

/-- General register `r` as two's complement. -/
def Core.sgr (c : Core) (r : Nat) : Int := sx 32 (c.gr r)

/-- The core with `v` in register `r`; a write to g0 is discarded (R48). -/
def Core.setG (c : Core) (r v : Nat) : Core :=
  if r = 0 then c else { c with g := vmod c.g r (fun _ => BitVec.ofNat 32 v) }

/-- A register pair as one number (R48). -/
def Core.pair (c : Core) (r : Nat) : Nat := c.gr r + c.gr (r + 1) * 2 ^ 32

/-- The core with a number in a register pair. -/
def Core.setPair (c : Core) (r v : Nat) : Core := (c.setG r v).setG (r + 1) (v / 2 ^ 32)

/-- The register can name a pair: an odd number or g0 is ILLEGAL (R48). -/
def pairOk (r : Nat) : Bool := decide (r ≠ 0) && decide (r % 2 = 0)

/-- `n` with bit `i` equal to `b`. -/
def putBit (n i : Nat) (b : Bool) : Nat := if b then setBit n i else clrBit n i

/-- Flag bits of R50. -/
def flagC : Nat := 0
def flagV : Nat := 1
def flagLate : Nat := 2
def flagTmo : Nat := 3
def flagSat : Nat := 4

/-- The core with a flag bit. -/
def Core.putFlag (c : Core) (i : Nat) (b : Bool) : Core := { c with flags := putBit c.flags i b }

/-- The next instruction's address (R52: 16 bits). -/
def Core.next (c : Core) : Core := { c with pc := (c.pc + 4) % 65536 }

/-- IE, INTRAP and DLE of STATUS (R51). -/
def Core.ie (c : Core) : Bool := bit c.status 0
def Core.inTrap (c : Core) : Bool := bit c.status 2
def Core.dle (c : Core) : Bool := bit c.status 3

/-- Core `n` is a servo core (R47). -/
def servoCore (n : Nat) : Bool := decide (16 ≤ n)

/-! ### Traps (R77 to R80) -/

/-- Trap causes (R77). -/
def tIllegal : Nat := 1
def tAlign : Nat := 2
def tBuserr : Nat := 3
def tFetchEcc : Nat := 4
def tDataEcc : Nat := 5
def tTrap : Nat := 6
def tInterrupt : Nat := 7

/-- A double trap (R80): the core halts, TRAPINFO records both causes and the program counter, FS(33+2n). -/
def State.doubleTrap (s : State) (n cause : Nat) : State :=
  ((s.setReg (R.CRS_TRAPINFO n) (BitVec.ofNat 32
      (cause + bits (s.core n).ecause.toNat 0 4 * 2 ^ 4 + bits (s.core n).pc 2 14 * 2 ^ 8))).modCore n
    (fun c => { c with run := .halted, atPair := false })).raise (33 + 2 * n)

/-- Trap entry (R78): EPC, ECAUSE and EBAD written, PIE ← IE, IE ← 0, INTRAP ← 1, fetch continues at the vector. -/
def Core.enter (c : Core) (cause epc ebad code : Nat) : Core :=
  { c with
    epc := BitVec.ofNat 32 epc
    ecause := BitVec.ofNat 32 (cause + code % 32 * 2 ^ 8)
    ebad := BitVec.ofNat 32 ebad
    status := putBit (putBit (setBit c.status 2) 1 c.ie) 0 false
    pc := (c.vbase + 16 * cause) % 65536
    run := .running
    atPair := false }

/-- A trap of core `n` (R77 to R80): entered, or a double trap if it is synchronous and a handler runs. -/
def State.trap (s : State) (n cause epc ebad : Nat) (code : Nat := 0) : State :=
  if (s.core n).inTrap && cause != tInterrupt then s.doubleTrap n cause
  else s.modCore n (fun c => c.enter cause epc ebad code)

/-- ILLEGAL on the instruction at the program counter. -/
def State.illegal (s : State) (n : Nat) : State := s.trap n tIllegal (s.core n).pc 0

/-- An interrupt is due at a boundary (R78), the bits `except_` left out (R71). -/
def Core.intDue (c : Core) (except_ : Nat := 0) : Bool :=
  c.ie && !c.inTrap && (c.evp &&& c.imask.toNat) != ((c.evp &&& c.imask.toNat) &&& except_)

/-! ### Issue -/

/-- Core `n` can issue an instruction: present, running, no interrupt first (R78) unless it is the second of an AT
pair (R69). -/
def State.canIssue (s : State) (n : Nat) : Bool :=
  s.hasCore n && (s.core n).run == .running && ((s.core n).atPair || !(s.core n).intDue)

/-- The word of the program counter is a vector (R77). -/
def Core.atVector (c : Core) : Bool := (List.range 8).any (fun k => k != 0 && (c.vbase + 16 * k) % 65536 == c.pc)

/-- The core stops at the boundary it stands on (R81). -/
def Core.stop (c : Core) : Core :=
  if c.run = .halted then { c with stopping := false } else { c with run := .stopped, atPair := false, stopping := false }

/-- The core as an instruction at its program counter issues: the second of an AT pair is one no longer (R69), and
CRSn_PC keeps its address (R81). -/
def Core.issuing (c : Core) : Core := { c with atPair := false, lastPc := c.pc }

/-- An instruction of core `n` issues: `f` is its effect, the program counter still on it. If it is the second of an AT
pair and RUN has been written 0 since the AT released, the core stops after it (R69). -/
def State.issue (s : State) (n : Nat) (f : State → State) : State :=
  if s.canIssue n then
    let t := f (s.modCore n Core.issuing)
    if (s.core n).stopping then t.modCore n Core.stop else t
  else s

/-- The word at the program counter in instruction RAM (R52). -/
def State.pcWord (s : State) (n : Nat) : Word := BitVec.ofNat 32 (s.rdLe (iramBase n + (s.core n).pc) 4)

/-- A fetch delivers no word: FETCH_ECC, which on a vector is a double trap (R57, R80). -/
def State.fetchEcc (s : State) (n : Nat) : State :=
  s.issue n (fun t =>
    let c := t.core n
    if c.atVector then t.doubleTrap n tFetchEcc else t.trap n tFetchEcc c.pc c.pc)

/-- The fetch at the program counter: the word, or none where it is uncorrectable; a correctable one is corrected and
counted (R57). Of a word that the core itself replaced since its last FENCE, which of its words the fetch returns is open
(R55): a free value. -/
def State.fetch (s : State) (n : Nat) : State × Option Word :=
  let c := s.core n
  let a := iramBase n + c.pc
  let olds := c.stale.filter (fun e => e.1 == a)
  let k := if olds.isEmpty then 0 else s.freeWord.toNat % (olds.length + 1)
  let s1 := if olds.isEmpty then s else s.tookFree
  match olds[k]? with
  | some (_, w, p) =>
    if p = 0 then (s1, some w)
    else (match eccLocal p with
      | .uncorrectable => (s1.localUe n c.pc false, none)
      | .corrected _ => (s1.addSat (F.CRS_ECC_CNT_IRAM n) 1, some w)
      | .wrong flip _ => (s1, some (w ^^^ BitVec.ofNat 32 flip))
      | .good => (s1, some w))
  | none =>
    match Tab.get s1.upsets a with
    | none => (s1, some (s1.pcWord n))
    | some p =>
      match s1.eccMeet reqCore a p with
      | (t, false) => (t, some (t.pcWord n))
      | (t, true) => (t, none)

/-- Core `n` fetches the word at its program counter and issues instruction `i` if that is what the word spells, with the
effect `f`. A word that spells no instruction takes ILLEGAL (R59). One that spells another instruction is not `i`'s: then
`i` does not issue, and nothing changes (log entry 29). -/
def State.fetched (s : State) (n : Nat) (i : Instr) (f : State → State) : State :=
  if s.canIssue n then
    match s.fetch n with
    | (t, none) => t.fetchEcc n
    | (t, some w) =>
      if encodeCore i = some w then f t
      else if (decodeCore (Fin.ofNat 24 n) w).isNone then t.issue n (fun u => u.illegal n)
      else s
  else s

/-- An instruction that works on the core alone and goes on to the next one. -/
def State.issueCore (s : State) (n : Nat) (f : Core → Core) : State :=
  s.issue n (fun t => t.modCore n (fun c => (f c).next))

/-- An instruction that is ILLEGAL unless `ok` holds. -/
def State.issueIf (s : State) (n : Nat) (ok : Bool) (f : Core → Core) : State :=
  s.issue n (fun t => if ok then t.modCore n (fun c => (f c).next) else t.illegal n)

/-- A DSP instruction: ILLEGAL on a Crisal core (R47). -/
def State.issueDsp (s : State) (n : Nat) (f : Core → Core) : State := s.issueIf n (servoCore n) f

/-! ### Integer instructions (R60, R61) -/

/-- Sum of two words and a carry with its flags (R50): C on carry out, V on signed overflow. -/
def Core.addFlags (c : Core) (rd a b cin : Nat) : Core :=
  let v := sx 32 a + sx 32 b + cin
  ((c.setG rd (a + b + cin)).putFlag flagC (decide (2 ^ 32 ≤ a + b + cin))).putFlag flagV
    (decide (v < -(2 ^ 31 : Int)) || decide ((2 ^ 31 : Int) ≤ v))

/-- Difference of two words and a borrow with its flags (R50): C when there is no borrow. -/
def Core.subFlags (c : Core) (rd a b bin : Nat) : Core :=
  let v := sx 32 a - sx 32 b - bin
  ((c.setG rd (a + 2 ^ 33 - b - bin)).putFlag flagC (decide (b + bin ≤ a))).putFlag flagV
    (decide (v < -(2 ^ 31 : Int)) || decide ((2 ^ 31 : Int) ≤ v))

/-- The carry flag as a number. -/
def Core.cin (c : Core) : Nat := b2n (bit c.flags flagC)

/-- Shifts and the rotate (R60). -/
def sll32 (a k : Nat) : Nat := a * 2 ^ (k % 32) % 2 ^ 32
def srl32 (a k : Nat) : Nat := a / 2 ^ (k % 32)
def sra32 (a k : Nat) : Nat := ux 32 (asr (sx 32 a) (k % 32))
def ror32 (a k : Nat) : Nat := (a / 2 ^ (k % 32) + a * 2 ^ (32 - k % 32)) % 2 ^ 32

/-- Leading zeros of the low `w` bits. -/
def clz : Nat → Nat → Nat
  | 0, _ => 0
  | w + 1, n => if bit n w then 0 else clz w n + 1

/-- Signed quotient and remainder (R60): rounded toward zero, never trapping. -/
def divS (a b : Nat) : Nat := if b = 0 then 0xFFFFFFFF else ux 32 (Int.tdiv (sx 32 a) (sx 32 b))
def remS (a b : Nat) : Nat := if b = 0 then a else ux 32 (Int.tmod (sx 32 a) (sx 32 b))
def divU (a b : Nat) : Nat := if b = 0 then 0xFFFFFFFF else a / b
def remU (a b : Nat) : Nat := if b = 0 then a else a % b

/-- A three-register instruction without flags. -/
def State.op3 (s : State) (n rd ra rb : Nat) (f : Nat → Nat → Nat) : State :=
  s.issueCore n (fun c => c.setG rd (f (c.gr ra) (c.gr rb)))

/-- An instruction of one register and a number. -/
def State.op2 (s : State) (n rd ra : Nat) (f : Nat → Nat) : State := s.issueCore n (fun c => c.setG rd (f (c.gr ra)))

/-- Sign extension of a 16-bit immediate as a word. -/
def sext16 (imm : Nat) : Nat := ux 32 (sx 16 imm)

/-- SHI (R61): amount in [4:0], kind in [6:5]; [15:7] must be 0. -/
def State.effShi (s : State) (n rd ra imm : Nat) : State :=
  s.issueIf n (decide (imm < 128)) (fun c => c.setG rd
    (match imm / 32 with
     | 0 => sll32 (c.gr ra) imm
     | 1 => srl32 (c.gr ra) imm
     | 2 => sra32 (c.gr ra) imm
     | _ => ror32 (c.gr ra) imm))

/-! ### Branches and jumps (R63) -/

/-- Target at a signed word offset from the instruction. -/
def Core.target (c : Core) (off : Nat) : Nat := ux 16 ((c.pc : Int) + 4 * sx 16 off)

/-- A branch on a condition of two registers. -/
def State.branch (s : State) (n ra rb off : Nat) (f : Nat → Nat → Bool) : State :=
  s.issue n (fun t => t.modCore n (fun c => if f (c.gr ra) (c.gr rb) then { c with pc := c.target off } else c.next))

/-- CALL, and JMP as the CALL to g0. -/
def State.effCall (s : State) (n rd off : Nat) : State :=
  s.issue n (fun t => t.modCore n (fun c => { c.setG rd (c.pc + 4) with pc := c.target off }))

/-- CALLR: reads ra before it writes rd. -/
def State.effCallr (s : State) (n rd ra imm : Nat) : State :=
  s.issue n (fun t => t.modCore n (fun c =>
    { c.setG rd (c.pc + 4) with pc := (c.gr ra + sext16 imm) / 4 * 4 % 65536 }))

/-! ### Control registers (R49 to R51, R64) -/

/-- Accumulator `a` (R76). -/
def Core.acc (c : Core) (a : Nat) : Int := if a = 0 then c.acc0 else c.acc1

def Core.putAcc (c : Core) (a : Nat) (v : Int) : Core := if a = 0 then { c with acc0 := v } else { c with acc1 := v }

/-- Value of a control register of core `n`; none where the number is ILLEGAL (R49). -/
def Core.rdc (c : Core) (n k : Nat) : Option Nat :=
  match k with
  | 0 => some c.flags
  | 1 => some (c.status + b2n (servoCore n) * 2 ^ 4)
  | 2 => some c.epc.toNat
  | 3 => some c.ecause.toNat
  | 4 => some c.ebad.toNat
  | 5 => some c.vbase
  | 6 => some c.evp
  | 7 => some c.imask.toNat
  | 8 => some c.ap0
  | 9 => some c.ap1
  | 10 => some (n + b2n (servoCore n) * 2 ^ 8)
  | 11 => some c.ost
  | 12 => some (c.wdl % 2 ^ 32)
  | 13 => some (c.wdl / 2 ^ 32)
  | 14 => some c.scr0.toNat
  | 15 => some c.scr1.toNat
  | 16 => if servoCore n then some (ux 32 c.acc0) else none
  | 17 => if servoCore n then some (ux 32 (asr c.acc0 32)) else none
  | 18 => if servoCore n then some (ux 32 c.acc1) else none
  | 19 => if servoCore n then some (ux 32 (asr c.acc1 32)) else none
  | _ => none

/-- A word written to the low or high part of an accumulator (R49). -/
def accLo (a : Int) (v : Nat) : Int := asr a 32 * 2 ^ 32 + v
def accHi (a : Int) (v : Nat) : Int := sx 8 v * 2 ^ 32 + (ux 32 a : Int)

/-- The core after a control register is written; none where it is ILLEGAL (R49). -/
def Core.wrc (c : Core) (n k v : Nat) : Option Core :=
  match k with
  | 0 => some { c with flags := bits v 0 5 }
  | 1 => some { c with status := bits v 0 4 }
  | 2 => some { c with epc := BitVec.ofNat 32 v }
  | 3 => some { c with ecause := BitVec.ofNat 32 (bits v 0 4 + bits v 8 5 * 2 ^ 8) }
  | 4 => some { c with ebad := BitVec.ofNat 32 v }
  | 5 => some { c with vbase := bits v 7 9 * 2 ^ 7 }
  | 7 => some { c with imask := BitVec.ofNat 32 v }
  | 8 => some { c with ap0 := bits v 0 10 }
  | 9 => some { c with ap1 := bits v 0 10 }
  | 12 => some { c with wdl := c.wdl / 2 ^ 32 * 2 ^ 32 + v }
  | 13 => some { c with wdl := c.wdl % 2 ^ 32 + v * 2 ^ 32 }
  | 14 => some { c with scr0 := BitVec.ofNat 32 v }
  | 15 => some { c with scr1 := BitVec.ofNat 32 v }
  | 16 => if servoCore n then some { c with acc0 := accLo c.acc0 v } else none
  | 17 => if servoCore n then some { c with acc0 := accHi c.acc0 v } else none
  | 18 => if servoCore n then some { c with acc1 := accLo c.acc1 v } else none
  | 19 => if servoCore n then some { c with acc1 := accHi c.acc1 v } else none
  | _ => none

def State.effRdc (s : State) (n rd k : Nat) : State :=
  s.issue n (fun t =>
    match (t.core n).rdc n k with
    | some v => t.modCore n (fun c => (c.setG rd v).next)
    | none => t.illegal n)

def State.effWrc (s : State) (n ra k : Nat) : State :=
  s.issue n (fun t =>
    match (t.core n).wrc n k ((t.core n).gr ra) with
    | some c => t.modCore n (fun _ => c.next)
    | none => t.illegal n)

/-- TRAP (R64): EPC is the next instruction; the code goes to ECAUSE (R77). -/
def State.effTrap (s : State) (n code : Nat) : State :=
  s.issue n (fun t => t.trap n tTrap (((t.core n).pc + 4) % 65536) 0 code)

/-- RTE: PC ← EPC, IE ← PIE, INTRAP ← 0 (R64). DESIGN CHOICE (log entry 97): EPC holds 32 bits and the program counter is
16 bits and word-aligned; bits [1:0] and [31:16] of EPC are dropped. -/
def State.effRte (s : State) (n : Nat) : State :=
  s.issue n (fun t => t.modCore n (fun c =>
    { c with
      pc := c.epc.toNat / 4 * 4 % 65536
      status := putBit (putBit c.status 2 false) 0 (bit c.status 1) }))

/-- The capture of a posted store that its target dropped (R65, R231). -/
def State.capture (s : State) (n a : Nat) : State :=
  (s.modCore n (fun c => { c with failing := c.failing.erase a })).ueAt reqCore a

/-- What FENCE waits for has happened (R65): every posted store has reached its target, and the core's own stores to its
instruction RAM are visible to fetch (R55). -/
def State.fenced (s : State) (n : Nat) : State :=
  (s.each (s.core n).failing (fun t a => t.capture n a)).modCore n (fun c => { c with stale := [] })

def State.effFence (s : State) (n : Nat) : State :=
  s.issue n (fun t => (t.fenced n).modCore n (fun c => c.next))

/-- A posted store's error comes to light at its target (R65, R231). -/
def State.effPostedStoreFail (s : State) (n a : Nat) : State :=
  if (s.core n).failing.contains (a / eccWordBytes a * eccWordBytes a) then
    s.capture n (a / eccWordBytes a * eccWordBytes a)
  else s

/-! ### Time and events (R66 to R72) -/

def State.effRdtime (s : State) (n rd : Nat) : State :=
  s.issueIf n (pairOk rd) (fun c => c.setPair rd s.now)

/-- A 64-bit operation on pairs. -/
def State.pairOp (s : State) (n rd ra rb : Nat) (f : Nat → Nat → Nat) : State :=
  s.issueIf n (pairOk rd && pairOk ra && pairOk rb) (fun c => c.setPair rd (f (c.pair ra) (c.pair rb)))

def State.effTlt (s : State) (n rd ra rb : Nat) : State :=
  s.issueIf n (pairOk ra && pairOk rb) (fun c => c.setG rd (b2n (decide (c.pair ra < c.pair rb))))

/-- AT (R68): late, the next instruction issues at once; else the core stalls on it. -/
def State.effAt (s : State) (n ra : Nat) : State :=
  s.issue n (fun t =>
    if pairOk ra = false then t.illegal n
    else t.modCore n (fun c =>
      if c.pair ra < s.now then { (c.putFlag flagLate true).next with atPair := true }
      else { c.putFlag flagLate false with run := .atWait (c.pair ra) }))

/-- The stall of an AT ends: its time has come (R68). -/
def State.effAtRelease (s : State) (n : Nat) : State :=
  match (s.core n).run with
  | .atWait t =>
    if s.hasCore n && decide (t ≤ s.now) then
      s.modCore n (fun c => { c.next with run := .running, atPair := true, lastPc := c.pc })
    else s
  | _ => s

/-- WAIT completes with its masked events (R70). -/
def Core.waitDone (c : Core) (rd mask : Nat) : Core :=
  { (({ c with evp := c.evp - (c.evp &&& mask) }.setG rd (c.evp &&& mask)).putFlag flagTmo false).next with run := .running }

/-- WAIT ends on its deadline (R70). -/
def Core.waitLate (c : Core) (rd : Nat) : Core :=
  { ((c.setG rd 0).putFlag flagTmo true).next with run := .running }

/-- WAIT (R70). -/
def State.effWait (s : State) (n rd ra : Nat) : State :=
  s.issue n (fun t =>
    let m := (t.core n).gr ra
    if m = 0 ∧ (t.core n).dle = false then t.illegal n
    else t.modCore n (fun c =>
      if c.evp &&& m ≠ 0 then c.waitDone rd m
      else if c.dle && decide (c.wdl ≤ s.now) then c.waitLate rd
      else { c with run := .waiting m rd }))

/-- A stalled WAIT finds a masked event (R70). -/
def State.effWaitWake (s : State) (n : Nat) : State :=
  match (s.core n).run with
  | .waiting m rd =>
    if s.hasCore n && (s.core n).evp &&& m != 0 then s.modCore n (fun c => c.waitDone rd m) else s
  | _ => s

/-- A stalled WAIT reaches its deadline; a masked event that is pending takes priority (R70). -/
def State.effWaitDeadline (s : State) (n : Nat) : State :=
  match (s.core n).run with
  | .waiting m rd =>
    if s.hasCore n = false then s
    else if (s.core n).evp &&& m ≠ 0 then s.modCore n (fun c => c.waitDone rd m)
    else if (s.core n).dle && decide ((s.core n).wdl ≤ s.now) then s.modCore n (fun c => c.waitLate rd)
    else s
  | _ => s

/-- INTERRUPT at a boundary, or during the stall of an AT or a WAIT (R69, R71, R78). DESIGN CHOICE (log entry 98): an
instruction that follows a released AT and stalls itself, an AT or a WAIT, takes an interrupt in its own stall. -/
def State.effInterrupt (s : State) (n : Nat) : State :=
  if s.hasCore n = false then s
  else match (s.core n).run with
    | .running =>
      if (s.core n).intDue && !(s.core n).atPair then s.trap n tInterrupt (s.core n).pc 0 else s
    | .atWait _ => if (s.core n).intDue then s.trap n tInterrupt (s.core n).pc 0 else s
    | .waiting m rd =>
      if (s.core n).evp &&& m ≠ 0 then
        (let t := s.modCore n (fun c => c.waitDone rd m)
         if (t.core n).intDue then t.trap n tInterrupt (t.core n).pc 0 else t)
      else if (s.core n).intDue m then s.trap n tInterrupt (s.core n).pc 0
      else s
    | _ => s

def State.effEvset (s : State) (n ra : Nat) : State :=
  s.issueCore n (fun c => { c with evp := c.evp ||| c.gr ra % 2 ^ 31 })

def State.effEvclr (s : State) (n ra : Nat) : State :=
  s.issueCore n (fun c => { c with evp := c.evp - (c.evp &&& c.gr ra) })

/-! ### DSP extension (R76) -/

/-- A value limited to `w` bits, with SAT if it was out of range. -/
def Core.satTo (c : Core) (w : Nat) (v : Int) : Core × Int :=
  let lim := clampInt (-(2 ^ (w - 1) : Int)) (2 ^ (w - 1) - 1) v
  (if lim = v then c else c.putFlag flagSat true, lim)

/-- A value to an accumulator. -/
def Core.toAcc (c : Core) (a : Nat) (v : Int) : Core := (c.satTo 40 v).1.putAcc a (c.satTo 40 v).2

/-- A value to a register, saturated to 16 bits and sign-extended. -/
def Core.toQ15 (c : Core) (rd : Nat) (v : Int) : Core := (c.satTo 16 v).1.setG rd (ux 32 (c.satTo 16 v).2)

/-- Q15 operand of a register. -/
def Core.q15 (c : Core) (r : Nat) : Int := sx 16 (c.gr r)

/-- Division by 32,768 rounded half up. -/
def round15 (v : Int) : Int := asr (v + 16384) 15

/-- CLIP: limited to ±rb[30:0]. -/
def Core.clip (c : Core) (ra rb : Nat) : Int :=
  clampInt (-(bits (c.gr rb) 0 31 : Int)) (bits (c.gr rb) 0 31) (c.sgr ra)

/-! ### Run control (R81, R54) -/

/-- SRESET (R81). Posted stores that are on their way and the words a fetch may still return are not the core's to take
back (R55, R65). -/
def State.coreReset (s : State) (n : Nat) : State :=
  (s.clrFlag (F.CRS_CTRL_RUN n)).modCore n (fun c =>
    { Core.reset with
      g := c.g, pc := s.fld (F.CRS_ENTRY_ENTRY n) * 4, failing := c.failing, stale := c.stale })

/-- The core runs on from its program counter; one that failed its self-test does not (R459), and none does before
INIT_DONE (R233). -/
def State.coreStart (s : State) (n : Nat) : State :=
  if (s.core n).run = .halted ∨ bit (s.fld F.SYS_CTSTAT_CORE_FAIL) n = true
      ∨ s.flag F.MEM_STATUS_INIT_DONE = false then s
  else ((s.setFlag (F.CRS_CTRL_RUN n)).modPwr (fun p => { p with released := true })).modCore n (fun c =>
    if c.run = .stopped then { c with run := .running, lastPc := c.pc } else { c with stopping := false })

/-- RUN written 0: the core stops at the boundary it stands on, a stalled WAIT or AT being abandoned; between an AT's
release and the next instruction it stops after that instruction (R69). -/
def State.coreStop (s : State) (n : Nat) : State :=
  (s.clrFlag (F.CRS_CTRL_RUN n)).modCore n (fun c =>
    if c.atPair && c.run == .running then { c with stopping := true } else c.stop)

/-- A write of CRSn_CTRL (R81). -/
def State.effCrsCtrl (s : State) (n : Nat) (v : Word) : State :=
  if bit v.toNat 1 then s.coreReset n
  else if bit v.toNat 0 then s.coreStart n
  else s.coreStop n

/-- A write of the CRS window (R81). -/
def State.wrCrs (s : State) (n off : Nat) (v : Word) : State :=
  match off with
  | 0x00 => s.effCrsCtrl n v
  | 0x28 => s.setEvp n v.toNat
  | _ => s.plainWrite (0x10000 * (0x08 + n) + off) v

end Sys2Proof.Machine
end

