-- ==== Sys2Proof/Machine/Crypto.lean ====
section
/-!
DEFINITION. The two standard functions by which the boot ROM accepts an image (R408, R409): the SHA-384 digest and
the verification of an ECDSA signature on the curve P-384. The spec names them and does not write them out; they are
taken from their published standards (log entry 70).
-/
namespace Sys2Proof.Machine

/-! ### SHA-384 -/

/-- Round constants. -/
def shaK : List (BitVec 64) :=
  [
    0x428a2f98d728ae22, 0x7137449123ef65cd, 0xb5c0fbcfec4d3b2f, 0xe9b5dba58189dbbc, 0x3956c25bf348b538,
    0x59f111f1b605d019, 0x923f82a4af194f9b, 0xab1c5ed5da6d8118, 0xd807aa98a3030242, 0x12835b0145706fbe,
    0x243185be4ee4b28c, 0x550c7dc3d5ffb4e2, 0x72be5d74f27b896f, 0x80deb1fe3b1696b1, 0x9bdc06a725c71235,
    0xc19bf174cf692694, 0xe49b69c19ef14ad2, 0xefbe4786384f25e3, 0x0fc19dc68b8cd5b5, 0x240ca1cc77ac9c65]
  ++ [
    0x2de92c6f592b0275, 0x4a7484aa6ea6e483, 0x5cb0a9dcbd41fbd4, 0x76f988da831153b5, 0x983e5152ee66dfab,
    0xa831c66d2db43210, 0xb00327c898fb213f, 0xbf597fc7beef0ee4, 0xc6e00bf33da88fc2, 0xd5a79147930aa725,
    0x06ca6351e003826f, 0x142929670a0e6e70, 0x27b70a8546d22ffc, 0x2e1b21385c26c926, 0x4d2c6dfc5ac42aed,
    0x53380d139d95b3df, 0x650a73548baf63de, 0x766a0abb3c77b2a8, 0x81c2c92e47edaee6, 0x92722c851482353b]
  ++ [
    0xa2bfe8a14cf10364, 0xa81a664bbc423001, 0xc24b8b70d0f89791, 0xc76c51a30654be30, 0xd192e819d6ef5218,
    0xd69906245565a910, 0xf40e35855771202a, 0x106aa07032bbd1b8, 0x19a4c116b8d2d0c8, 0x1e376c085141ab53,
    0x2748774cdf8eeb99, 0x34b0bcb5e19b48a8, 0x391c0cb3c5c95a63, 0x4ed8aa4ae3418acb, 0x5b9cca4f7763e373,
    0x682e6ff3d6b2b8a3, 0x748f82ee5defb2fc, 0x78a5636f43172f60, 0x84c87814a1f0ab72, 0x8cc702081a6439ec]
  ++ [
    0x90befffa23631e28, 0xa4506cebde82bde9, 0xbef9a3f7b2c67915, 0xc67178f2e372532b, 0xca273eceea26619c,
    0xd186b8c721c0c207, 0xeada7dd6cde0eb1e, 0xf57d4f7fee6ed178, 0x06f067aa72176fba, 0x0a637dc5a2c898a6,
    0x113f9804bef90dae, 0x1b710b35131c471b, 0x28db77f523047d84, 0x32caab7b40c72493, 0x3c9ebe0a15c9bebc,
    0x431d67c49c100d4c, 0x4cc5d4becb3e42b6, 0x597f299cfc657e2a, 0x5fcb6fab3ad6faec, 0x6c44198c4a475817]

/-- Initial hash value of SHA-384. -/
def shaInit : List (BitVec 64) := [
    0xcbbb9d5dc1059ed8, 0x629a292a367cd507, 0x9159015a3070dd17, 0x152fecd8f70e5939, 0x67332667ffc00b31,
    0x8eb44a8768581511, 0xdb0c2e0d64f98fa7, 0x47b5481dbefa4fa4]

def shaSmall0 (x : BitVec 64) : BitVec 64 := x.rotateRight 1 ^^^ x.rotateRight 8 ^^^ x >>> 7
def shaSmall1 (x : BitVec 64) : BitVec 64 := x.rotateRight 19 ^^^ x.rotateRight 61 ^^^ x >>> 6
def shaBig0 (x : BitVec 64) : BitVec 64 := x.rotateRight 28 ^^^ x.rotateRight 34 ^^^ x.rotateRight 39
def shaBig1 (x : BitVec 64) : BitVec 64 := x.rotateRight 14 ^^^ x.rotateRight 18 ^^^ x.rotateRight 41

/-- One round on the eight working words, with the round's constant and message word. -/
def shaRound (h : List (BitVec 64)) (k w : BitVec 64) : List (BitVec 64) :=
  match h with
  | [a, b, c, d, e, f, g, hh] =>
    let t1 := hh + shaBig1 e + ((e &&& f) ^^^ (~~~e &&& g)) + k + w
    let t2 := shaBig0 a + ((a &&& b) ^^^ (a &&& c) ^^^ (b &&& c))
    [t1 + t2, a, b, c, d + t1, e, f, g]
  | l => l

/-- The rounds of one block: `w` are the sixteen message words in use, oldest first. -/
def shaRounds (h w : List (BitVec 64)) : List (BitVec 64) → List (BitVec 64)
  | [] => h
  | k :: ks =>
    match w with
    | w0 :: r =>
      shaRounds (shaRound h k w0)
        (r ++ [w0 + shaSmall0 (r.getD 0 0) + r.getD 8 0 + shaSmall1 (r.getD 13 0)]) ks
    | [] => h

/-- The big-endian number of a byte string. -/
def ofBe (l : List Byte) : Nat := l.foldl (fun a b => a * 256 + b.toNat) 0

/-- The sixteen words of a block. -/
def shaWords (b : List Byte) : List (BitVec 64) :=
  (List.range 16).map (fun i => BitVec.ofNat 64 (ofBe ((b.drop (8 * i)).take 8)))

/-- The digest's state after `n` blocks of a padded message. -/
def shaBlocks (h : List (BitVec 64)) (l : List Byte) : Nat → List (BitVec 64)
  | 0 => h
  | n + 1 => shaBlocks (List.zipWith (· + ·) h (shaRounds h (shaWords (l.take 128)) shaK)) (l.drop 128) n

/-- The message with its padding and its length in bits. -/
def shaPad (l : List Byte) : List Byte :=
  l ++ [0x80#8] ++ List.replicate ((239 - l.length % 128) % 128) 0#8 ++ (leBytes 16 (8 * l.length)).reverse

/-- SHA-384 of a byte string, as the big-endian number of its 48 bytes. -/
def sha384 (l : List Byte) : Nat :=
  ((shaBlocks shaInit (shaPad l) ((l.length + 144) / 128)).take 6).foldl (fun a w => a * 2 ^ 64 + w.toNat) 0

/-! ### P-384 -/

def p384p : Nat := 0xfffffffffffffffffffffffffffffffffffffffffffffffffffffffffffffffeffffffff0000000000000000ffffffff
def p384b : Nat := 0xb3312fa7e23ee7e4988e056be3f82d19181d9c6efe8141120314088f5013875ac656398d8a2ed19d2a85c8edd3ec2aef
def p384n : Nat := 0xffffffffffffffffffffffffffffffffffffffffffffffffc7634d81f4372ddf581a0db248b0a77aecec196accc52973
def p384gx : Nat := 0xaa87ca22be8b05378eb1c71ef320ad746e1d3b628ba79b9859f741e082542a385502f25dbf55296c3a545e3872760ab7
def p384gy : Nat := 0x3617de4a96262c6f5d9e98bf9292dc29f8f41dbd289a147ce9da3113b5f0b8c00a60b1ce1d7e819d7a431d7c90ea0e5f

/-- `b ^ e` modulo `m`, over the low `k` bits of `e`. -/
def powMod (m b e : Nat) : Nat → Nat
  | 0 => 1 % m
  | k + 1 =>
    let r := powMod m (b * b % m) (e / 2) k
    if e % 2 = 1 then b * r % m else r

/-- Inverse modulo a 384-bit prime. -/
def invMod (m a : Nat) : Nat := powMod m (a % m) (m - 2) 384

/-- A point of the curve; `none` is the point at infinity. -/
abbrev EcPt := Option (Nat × Nat)

/-- The third point of the line of slope `l` through two points, reflected. -/
def ecThird (l x1 y1 x2 : Nat) : EcPt :=
  let x := (l * l + 2 * p384p - x1 - x2) % p384p
  some (x, (l * (x1 + p384p - x) + p384p - y1) % p384p)

/-- Sum of two points. -/
def ecAdd : EcPt → EcPt → EcPt
  | none, q => q
  | p, none => p
  | some (x1, y1), some (x2, y2) =>
    if x1 = x2 then
      (if (y1 + y2) % p384p = 0 then none
       else ecThird ((3 * x1 * x1 + p384p - 3) * invMod p384p (2 * y1) % p384p) x1 y1 x2)
    else ecThird ((y2 + p384p - y1) * invMod p384p (x2 + p384p - x1) % p384p) x1 y1 x2

/-- `e` times a point, over the low `k` bits of `e`. -/
def ecMul (e : Nat) (p : EcPt) : Nat → EcPt
  | 0 => none
  | k + 1 => if e % 2 = 1 then ecAdd p (ecMul (e / 2) (ecAdd p p) k) else ecMul (e / 2) (ecAdd p p) k

/-- The point lies on P-384. -/
def onP384 (x y : Nat) : Bool :=
  decide (x < p384p) && decide (y < p384p)
    && decide (y * y % p384p = (x * x * x + (p384p - 3) * x + p384b) % p384p)

/-- An ECDSA signature (r, s) over a 384-bit digest verifies under a public key. -/
def ecdsaVerify (qx qy digest r s : Nat) : Bool :=
  onP384 qx qy && decide (0 < r) && decide (r < p384n) && decide (0 < s) && decide (s < p384n) &&
    (let w := invMod p384n s
     match ecAdd (ecMul (digest * w % p384n) (some (p384gx, p384gy)) 384) (ecMul (r * w % p384n) (some (qx, qy)) 384) with
     | none => false
     | some (x, _) => x % p384n == r)

end Sys2Proof.Machine
end

