-- ==== Sys2Proof/Machine/Power.lean ====
section
/-!
DEFINITION. Rails, start-up, the boot image and the course of a drydown (R401 to R414), the sillage scan (R465) and
the memory fill (R233).
-/
namespace Sys2Proof.Machine

/-! ### The sequence table (R402, R403) -/

/-- Address of copy A of the sequence table; copy B follows 4 KiB above. -/
def seqBase : Nat := 0x1000040000

/-- The built-in rail limits (R403). -/
def builtinRail (nom : Nat) : RailLim := ⟨nom, true, 15, 15, 20, 20, 100, 20⟩

/-- The built-in sequence (R403): VAUX, VIO, VANA, VPHY, VCORE, VDDQ. -/
def builtinTable : SeqTable :=
  { vinOn := 4500, vinWarn := 4300, vinFault := 4100, vinFilt := 100
    rails := [750, 1100, 900, 1800, 1800, 3300].map builtinRail
    steps := [4, 5, 3, 2, 0, 1].map (fun r => ⟨r, .on, 5, 50⟩) }

/-- The record of rail `r` in a copy. -/
def seqRail (b : List Byte) (r : Nat) : RailLim :=
  let o := 0x10 + 16 * r
  ⟨entLe b o 2, bit (entLe b (o + 2) 1) 0, entLe b (o + 4) 1, entLe b (o + 5) 1, entLe b (o + 6) 1, entLe b (o + 7) 1,
    entLe b (o + 8) 2, entLe b (o + 10) 2⟩

/-- The OP code of step `i`. -/
def seqOpCode (b : List Byte) (i : Nat) : Nat := entLe b (0x110 + 8 * i) 1 / 16

/-- Step `i` of a copy. -/
def seqStep (b : List Byte) (i : Nat) : SeqStep :=
  let o := 0x110 + 8 * i
  ⟨entLe b o 1 % 16, if seqOpCode b i = 1 then .on else if seqOpCode b i = 2 then .wait else .delay,
    entLe b (o + 1) 1, entLe b (o + 2) 2⟩

/-- The table that a copy spells. -/
def seqTable (b : List Byte) : SeqTable :=
  { vinOn := entLe b 4 2, vinWarn := entLe b 6 2, vinFault := entLe b 8 2, vinFilt := entLe b 10 2
    rails := (List.range 16).map (seqRail b)
    steps := (List.range (entLe b 3 1)).map (seqStep b) }

/-- The fields of a rail in use lie in their ranges (R402). -/
def RailLim.ok (l : RailLim) : Bool :=
  !l.use || (inRange 1 255 l.wlo && inRange 1 255 l.whi && inRange 1 255 l.flo && inRange 1 255 l.fhi
    && decide (l.wlo ≤ l.flo) && decide (l.whi ≤ l.fhi) && inRange 10 65535 l.wfilt && inRange 10 65535 l.ffilt)

/-- Limits of rail `r`; an external rail the table does not list is not in use. -/
def SeqTable.rail (t : SeqTable) (r : Nat) : RailLim := t.rails.getD r default

/-- How often a rail stands in steps of an operation. -/
def SeqTable.count (t : SeqTable) (r : Nat) (p : SeqOp → Bool) : Nat :=
  (t.steps.filter (fun x => x.rail == r && p x.op)).length

/-- The bytes that R402 names no field for are 0. -/
def seqGaps (b : List Byte) : Bool :=
  ((b.drop 0x0C).take 4).all (· == 0)
    && (List.range 16).all (fun r => decide (entLe b (0x12 + 16 * r) 2 < 2) && entLe b (0x1C + 16 * r) 4 == 0)
    && ((b.drop 0x70).take 32).all (· == 0)
    && (List.range (entLe b 3 1)).all (fun i => entLe b (0x114 + 8 * i) 4 == 0)
    && ((b.drop (0x110 + 8 * entLe b 3 1)).take (0xFFC - (0x110 + 8 * entLe b 3 1))).all (· == 0)

/-- A copy is valid (R403). -/
def seqValid (b : List Byte) : Bool :=
  let t := seqTable b
  entLe b 0 2 == 0x5153 && entLe b 2 1 == 1 && entLe b 0xFFC 4 == crc32c (b.take 0xFFC)
    && inRange 1 32 (entLe b 3 1) && seqGaps b
    && decide (t.vinFault < t.vinWarn) && decide (t.vinWarn < t.vinOn) && decide (4000 ≤ t.vinFault)
    && decide (t.vinOn ≤ 18000) && inRange 10 65535 t.vinFilt
    && t.rails.all RailLim.ok
    && (List.range t.steps.length).all (fun i => inRange 1 3 (seqOpCode b i))
    && t.steps.all (fun x => inRange 1 100 x.qual && decide (1 ≤ x.tmo) && (x.op == .delay || (t.rail x.rail).use)
      && (x.op != .wait || decide (8 ≤ x.rail)))
    && (List.range 6).all (fun r => t.count r (· == .on) == 1)
    && (List.range 16).all (fun r => decide (r < 8) || !(t.rail r).use || t.count r (· != .delay) == 1)

/-- One copy as the always-on domain reads it. -/
def State.seqCopy (s : State) (k : Nat) : Option SeqTable :=
  if (s.upsetsIn (seqBase + 0x1000 * k) 0x1000).any (fun e => eccDram (s.rdLe e.1 8) e.2 == .uncorrectable) then none
  else if seqValid (s.rdBytes (seqBase + 0x1000 * k) 0x1000) then
    some (seqTable (s.rdBytes (seqBase + 0x1000 * k) 0x1000))
  else none

/-! ### The sillage scan (R465) -/

/-- A stored record is valid: MAGIC, VER and CRC match and no word of it is uncorrectable. -/
def State.recValid (s : State) (a : Nat) : Bool :=
  s.rd8 a == 0x5A && s.rd8 (a + 3) == 0x01 && s.rdLe (a + 0x7C) 4 == crc32c (s.rdBytes a 0x7C)
    && (s.upsetsIn a 128).all (fun e => eccDram (s.rdLe e.1 8) e.2 != .uncorrectable)

/-- Records of the log whose first byte can be MAGIC. -/
def State.recAddrs (s : State) : List Nat :=
  (s.mem.filter (fun c => inSillage c.1 && c.1 % 128 == 0 && c.2 == 0x5A)).map (·.1)

/-- The valid record with the highest SEQ: its SEQ and address. -/
def State.lastRec (s : State) : Option (Nat × Nat) :=
  s.recAddrs.foldl (fun best a =>
    if s.recValid a then
      match best with
      | some (q, _) => if q < s.rdLe (a + 4) 4 then some (s.rdLe (a + 4) 4, a) else best
      | none => some (s.rdLe (a + 4) 4, a)
    else best) none

/-! ### Power-up (R407) -/

/-- Registers that show an input pin, or that R430 and R185 keep while the always-on domain is supplied. -/
def keptFlds : List Fld :=
  [F.PWR_CAUSE_CAUSE, F.PWR_CAUSE_MASK, F.PWR_CAUSE_RAIL, F.PWR_CAUSE_BOUNCES, F.PWR_CAUSE_VALID,
    F.ILK_STATUS_LOOPA, F.ILK_STATUS_LOOPB, F.ILK_PANEL_KEYS, F.ILK_PANEL_PBTN, F.ILK_PANEL_LONG,
    F.ILK_CNS_STATUS_PRESENT, F.ACD_STATUS_OWN_IN]
  ++ (List.range 4).map F.SRV_SPSTAT_PRES

/-- The device at power-up: everything as after reset but the fuses, MRAM with the write-intent lists, the always-on
domain's records and what pins show. No sector of a listed run counts as whole any more (R305, R306). -/
def State.fresh (s : State) : State :=
  let t : State := { State.reset with
    fuses := s.fuses
    pending := s.pending
    freeCtr := s.freeCtr
    mem := s.mem.filter (fun c => decide (mramBase ≤ c.1) && decide (c.1 < ramBase))
    upsets := s.upsets.filter (fun e => decide (mramBase ≤ e.1) && decide (e.1 < ramBase))
    ilk := s.ilk.map (fun l => { l with armed := false, bothOpenSeen := false })
    panel := { s.panel with cns := none }
    thm := { State.reset.thm with tsd := s.thm.tsd, tsdSeq := s.thm.tsdSeq }
    nvm := { s.nvm with append := false }
    dsk := s.dsk.map (fun c => { (default : DskSt) with intents := c.intents.map (fun e => { e with
      left := (List.range e.count).map (e.first + ·) }) })
    pwr := { State.reset.pwr with vin := s.pwr.vin, vinOkSince := s.pwr.vinOkSince.map (fun _ => 0), aborts := s.pwr.aborts } }
  (t.each keptFlds (fun u f => u.setFld f (s.fld f))).each (List.range 8) State.tornRefresh

/-- The scan of the log: the place and SEQ of the next record, BOOTS (R465). -/
def State.scanLog (s : State) : State :=
  match s.eccRange reqScrub mramBase 0x40000 with
  | (t, _) => t.modNvm (fun n =>
    match s.lastRec with
    | some (q, a) => { n with seq := q + 1, index := ((a - mramBase) / 128 + 1) % 2048, boots := (n.boots + 1) % 2 ^ 32 }
    | none => { n with seq := 1, index := 0, boots := (n.boots + 1) % 2 ^ 32 })

/-- The sequence table and its source: copy A, else copy B, else the built-in one (R403). -/
def State.pickTable (s : State) : SeqTable × Nat :=
  match s.seqCopy 0 with
  | some t => (t, 0)
  | none =>
    match s.seqCopy 1 with
    | some t => (t, 1)
    | none => (builtinTable, 2)

/-- The table is chosen for this power-up; copy B and the built-in sequence set FS358 (R403, R433). -/
def State.chooseTable (s : State) : State :=
  let t := s.pickTable
  (((s.setFld F.PWR_STATUS_SEQSRC t.2).modPwr (fun p => { p with table := t.1 })).each (List.range 16)
    (fun u r => u.putFlag (F.PWR_RAIL_USED r) (t.1.rail r).use)).raiseIf (t.2 != 0) 358

/-- Step `i` of the sequence begins: an ON step enables its rail. -/
def State.beginStep (s : State) (i : Nat) : State :=
  let t := s.modPwr (fun p => { p with phase := .seq i, bounces := 0, since := s.now, window := s.now })
  match s.pwr.table.steps[i]? with
  | some x => if x.op = .on then t.setFlag (F.PWR_RAIL_ON x.rail) else t
  | none => t

/-- A cold power-up begins (R407): the log is scanned, TSD_LOCK restored (R421), the sequence chosen and begun.
The device number is at its reset value, which its balls give (R258). -/
def State.powerUp (s : State) : State :=
  let t := s.fresh.scanLog
  let t1 := (t.putFlag F.THM_TSD_TSD_LOCK t.thm.tsd).setFld F.THM_TSD_SEQ t.thm.tsdSeq
  t1.chooseTable.beginStep 0

/-- Since when a condition holds. -/
def sinceWhen (c : Bool) (old : Option Nat) (now : Nat) : Option Nat :=
  if c then some (old.getD now) else none

/-- A condition has held for a filter time in µs. -/
def heldFor (since : Option Nat) (now filt : Nat) : Bool :=
  match since with
  | some t => decide (t + filt * 1000 ≤ now)
  | none => false

/-- VIN has stayed at or above VIN_ON for VIN_FILT, as the table says that this power-up would use (R403, R407). -/
def State.vinGood (s : State) : Bool := heldFor s.pwr.vinOkSince s.now s.pickTable.1.vinFilt

/-- VIN_QUALIFIED (R407). A device that stays off waits for VIN to have gone below VIN_ON first (R404, R413). -/
def effVinQualified (s : State) : State :=
  if s.pwr.phase = .off ∧ s.pwr.waitPress = false ∧ s.vinGood = true then s.powerUp else s

/-! ### The sequence (R404) -/

/-- The step in progress. -/
def State.step? (s : State) : Option (Nat × SeqStep) :=
  match s.pwr.phase with
  | .seq i => s.pwr.table.steps[i]?.map (fun x => (i, x))
  | _ => none

/-- A monitor value within a band of `lo` and `hi` tenths of a percent of nominal. -/
def RailLim.within (l : RailLim) (lo hi mv : Nat) : Bool :=
  decide (l.nom * 1000 ≤ mv * 1000 + l.nom * lo) && decide (mv * 1000 ≤ l.nom * 1000 + l.nom * hi)

/-- The sequence aborts: a drydown with cause 8, the rail and the bounces. -/
def State.seqAbort (s : State) (x : SeqStep) : State :=
  (s.modPwr (fun p => { p with aborts := p.aborts + 1 })).drydown 8 x.rail s.pwr.bounces

/-- The last step is qualified: PL0, PL2 and PL15 lock, TU begins training, then the boot image's header (R407). -/
def State.seqDone (s : State) : State :=
  let t := (((s.modPwr (fun p => { p with phase := .training, aborts := 0 })).bootPll 0 48 [4, 8]).bootPll 2 50 [16]).bootPll
    15 200 [10]
  t.when (t.talState 0 == 0 && t.flag (F.TAL_PORT_CTRL_EN 0)) (·.talStart 0)

/-- The value of a rail lies within its fault band. -/
def SeqTable.inBand (t : SeqTable) (r mv : Nat) : Bool := (t.rail r).within (t.rail r).flo (t.rail r).fhi mv

/-- The qualify window of a step is over: its good input has read high for `high` ns, without a bounce since QUAL ms. -/
def State.windowOver (s : State) (x : SeqStep) (high : Nat) : Bool :=
  decide (x.qual * 1000000 ≤ high) && decide (s.pwr.window + x.qual * 1000000 ≤ s.now)

/-- The step's timeout has passed; of a DELAY, the delay is over. -/
def State.stepOver (s : State) (x : SeqStep) : Bool := decide (s.pwr.since + x.tmo * 1000000 ≤ s.now)

/-- A step is done: the next begins, or the sequence is complete. -/
def State.stepDone (s : State) (i : Nat) : State :=
  if i + 1 < s.pwr.table.steps.length then s.beginStep (i + 1) else s.seqDone

/-- SEQ_STEP_QUALIFIED: the good input has been high for `high` ns and the monitor reads `mv`, or the delay is over. At
the end of the window the value is judged; past the timeout nothing qualifies any more (R404). -/
def effSeqStepQualified (mv high : Nat) (s : State) : State :=
  match s.step? with
  | none => s
  | some (i, x) =>
    if x.op = .delay then (if s.stepOver x then s.stepDone i else s)
    else if s.windowOver x high = false ∧ s.stepOver x = false then s
    else
      let t := (s.modPwr (fun p => { p with rails := Tab.put p.rails x.rail mv })).setFlag (F.PWR_RAIL_GOOD x.rail)
      if s.windowOver x high && t.pwr.table.inBand x.rail mv then (t.setFlag (F.PWR_RAIL_ON x.rail)).stepDone i
      else t.seqAbort x

/-- SEQ_STEP_ABORT: the timeout has passed, or the value lies outside the fault band at the end of the window. -/
def effSeqStepAbort (mv high : Nat) (s : State) : State :=
  match s.step? with
  | none => s
  | some (_, x) =>
    if x.op = .delay then s
    else if s.stepOver x || (s.windowOver x high && !s.pwr.table.inBand x.rail mv) then
      (s.modPwr (fun p => { p with rails := Tab.put p.rails x.rail mv })).seqAbort x
    else s

/-- SEQUENCE_BOUNCE: the good input has fallen for `low` ns. From 1 µs on it is a bounce and restarts the window; the
fourth in one step aborts. -/
def effSequenceBounce (low : Nat) (s : State) : State :=
  match s.step? with
  | none => s
  | some (_, x) =>
    if x.op = .delay ∨ low < 1000 then s
    else
      let t := s.modPwr (fun p => { p with bounces := p.bounces + 1, window := s.now })
      if 4 ≤ t.pwr.bounces then t.seqAbort x else t

/-- Outputs are driven: VIO has been qualified by the sequencer (R477). Before that every output is high-impedance. -/
def State.padsDriven (s : State) : Bool := s.flag (F.PWR_RAIL_ON 5) && s.flag (F.PWR_RAIL_GOOD 5)

/-- The enable output of a rail (R401): EN_rail, or XENk driven: high where a step of the sequence enables the rail. -/
def State.railEnable (s : State) (r : Nat) : Bool :=
  s.flag (F.PWR_RAIL_ON r) && s.pwr.table.steps.any (fun x => x.rail == r && x.op == .on)

/-! ### Judgement while running (R405, R406) -/

/-- The sequence is complete and no drydown runs. -/
def PwrPhase.judged : PwrPhase → Bool
  | .training | .filling | .booting | .running | .bootfail => true
  | _ => false

/-- One judgement of a value against its bands, and of a good input. -/
def Judge.next (j : Judge) (outW outF low : Bool) (wfilt ffilt now : Nat) : Judge :=
  let w := sinceWhen outW j.warnSince now
  let f := sinceWhen outF j.faultSince now
  let l := sinceWhen low j.lowSince now
  { warnSince := w, faultSince := f, lowSince := l, last := some now
    warned := heldFor w now wfilt, faulted := heldFor f now ffilt || heldFor l now ffilt }

/-- A judgement is due: 10 µs have passed since the last (R405). -/
def Judge.due (j : Judge) (now : Nat) : Bool :=
  match j.last with
  | some t => decide (t + 10000 ≤ now)
  | none => true

/-- What a rail's judgement `j` becoming `k` does (R405). -/
def State.railReact (s : State) (r : Nat) (j k : Judge) : State :=
  let s2 := s.when (k.warned && !j.warned) (fun t =>
    ((t.setFlag (F.PWR_RAIL_WARN r)).raise (if r < 8 then 352 else 354)).raiseEv (t.fld F.PWR_EVGRP_HANDLE) 2)
  s2.when (k.faulted && !j.faulted) (fun t =>
    let u := t.setFlag (F.PWR_RAIL_FAULT r)
    if r < 8 then (u.raise 353).drydown 2 r else u.raise 355)

/-- RAIL_JUDGEMENT (R405). -/
def effRailJudgement (r mv : Nat) (good : Bool) (s : State) : State :=
  let l := s.pwr.table.rail r
  let j := Tab.getD s.pwr.judges r default
  if s.pwr.phase.judged = false ∨ l.use = false ∨ j.due s.now = false then s
  else
    let k := j.next (!l.within l.wlo l.whi mv) (!l.within l.flo l.fhi mv) (!good) l.wfilt l.ffilt s.now
    ((s.modPwr (fun p => { p with rails := Tab.put p.rails r mv, judges := Tab.put p.judges r k })).putFlag
      (F.PWR_RAIL_GOOD r) good).railReact r j k

/-- What VIN's judgement `j` becoming `k` does (R406). -/
def State.vinReact (s : State) (j k : Judge) : State :=
  let s2 := s.when (k.warned && !j.warned) (fun u => (u.raise 356).raiseEv (u.fld F.PWR_EVGRP_HANDLE) 4)
  s2.when (k.faulted && !j.faulted) (fun u => (u.raise 357).drydown 1)

/-- VIN_JUDGEMENT (R406). The input is measured in every state; it is judged once the sequence is complete. -/
def effVinJudgement (mv : Nat) (s : State) : State :=
  if s.pwr.vinJudge.due s.now = false then s
  else
    let on := s.pickTable.1.vinOn
    let s0 := s.modPwr (fun p => { p with
      vin := mv, vinOkSince := sinceWhen (decide (on ≤ mv)) p.vinOkSince s.now
      vinJudge := { p.vinJudge with last := some s.now }
      waitPress := p.waitPress && !(p.phase == .off && decide (mv < on)) })
    if s.pwr.phase.judged = false then s0
    else
      let t := s.pwr.table
      let k := s.pwr.vinJudge.next (decide (mv < t.vinWarn)) (decide (mv < t.vinFault)) false t.vinFilt t.vinFilt s.now
      ((s0.modPwr (fun p => { p with vinJudge := k })).putFlag F.PWR_STATUS_VINWARN k.warned).vinReact s.pwr.vinJudge k

/-- RETRACT_N of a port is low: since an emergency park, and while VIN is below its fault level (R319). -/
def State.retractLow (s : State) (h : Nat) : Bool :=
  (vget s.ports h).retract || decide (s.pwr.vin < s.pwr.table.vinFault)

/-! ### Memory training and fill (R233) -/

/-- A write of MEM_CFG (R226, R246): refused for a reserved rate or density, else SIZE follows. -/
def State.setMemCfg (s : State) (v : Nat) : State :=
  if bits v 0 2 = 3 ∨ bits v 2 2 = 3 then s
  else ((s.setFld F.MEM_CFG_RATE (bits v 0 2)).setFld F.MEM_CFG_DENS (bits v 2 2)).setFld F.MEM_CFG_SIZE
    (16 * 2 ^ bits v 2 2)

/-- A failed start (R410). -/
def State.bootFail (s : State) : State :=
  let t := ((s.setFld F.PWR_STATUS_STATE 3).modPwr (fun p => { p with phase := .bootfail })).unhealthy
  (t.modFlt (fun f => { f with alive := false })).sillage 0x07 (leBytes 4 (t.reg R.PWR_STATUS).toNat)

/-- DRAM_TRAINING_DONE: bit c of `failed` names a channel that failed. With all four trained the fills begin; that of
the local RAMs, which ends far before DRAM's and has no event of its own, is taken as done (R233, DESIGN CHOICE). -/
def effDramTrainingDone (failed : Nat) (s : State) : State :=
  if s.pwr.phase ≠ .training ∨ s.flag F.MEM_LOCK_LOCK = false then s
  else
    let t := s.setFld F.MEM_STATUS_TRAIN_OK (15 - failed % 16)
    if failed % 16 = 0 then
      { (t.setFlag F.MEM_STATUS_FILL_BUSY).modPwr (fun p => { p with phase := .filling }) with
        mem := s.mem.filter (fun c => decide (c.1 < ramBase))
        upsets := s.upsets.filter (fun e => decide (e.1 < ramBase)) }
    else (t.raise 204).bootFail

/-- DRAM_FILL_DONE: DRAM holds 0 with valid check bits; the correction window and the scrubber
start (R232, R234). -/
def effDramFillDone (s : State) : State :=
  if s.pwr.phase ≠ .filling then s
  else
    let t := (s.clrFlag F.MEM_STATUS_FILL_BUSY).setFlag F.MEM_STATUS_INIT_DONE
    { t with
      mem := s.mem.filter (fun c => decide (mramBase ≤ c.1))
      upsets := s.upsets.filter (fun e => decide (mramBase ≤ e.1))
      memst := { s.memst with
        winStart := s.now, winLen := s.ceWin, winCount := 0, winTripped := false
        scrub := 0, scrubPeriod := s.fld F.MEM_SCRUB_SCRUB_PERIOD
        scrubStopped := s.fld F.MEM_SCRUB_SCRUB_PERIOD == 0 }
      pwr := { s.pwr with phase := .booting } }

/-! ### The boot image (R408, R409, R411) -/

/-- A section: destination, offset in the image, bytes. -/
structure BootSec where
  dest : Nat
  off : Nat
  len : Nat
  deriving DecidableEq, Repr, Inhabited

/-- Sections, image length and released cores of an image. -/
def imgNsec (l : List Byte) : Nat := entLe l 5 1
def imgLen (l : List Byte) : Nat := entLe l 8 4
def imgSvn (l : List Byte) : Nat := entLe l 12 2
def imgMem (l : List Byte) : Nat := entLe l 16 1
def imgRun (l : List Byte) : Nat := entLe l 20 3
def imgEntry (l : List Byte) (n : Nat) : Nat := entLe l (0x20 + 2 * n) 2
def imgSecs (l : List Byte) : List BootSec :=
  (List.range (imgNsec l)).map (fun j =>
    ⟨entLe l (0x100 + 16 * j) 8, entLe l (0x108 + 16 * j) 4, entLe l (0x10C + 16 * j) 4⟩)

/-- Check 2: IMAGIC, VER, HCRC and the reserved header fields are correct, and XMODE is not 3. -/
def hdrOk (l : List Byte) : Bool :=
  decide (256 ≤ l.length) && entLe l 0 4 == 0x4D535850 && entLe l 4 1 == 1 && entLe l 0xFC 4 == crc32c (l.take 0xFC)
    && entLe l 6 2 == 0 && entLe l 14 2 == 0 && decide (entLe l 16 4 < 16) && entLe l 23 1 == 0
    && decide (entLe l 24 4 < 3) && entLe l 28 4 == 0 && ((l.drop 0x50).take 0xAC).all (· == 0)

/-- Check 3: MEMCFG is valid, and equal to what is locked already. -/
def State.memCfgOk (s : State) (l : List Byte) : Bool :=
  decide (bits (imgMem l) 0 2 ≠ 3) && decide (bits (imgMem l) 2 2 ≠ 3)
    && (!s.flag F.MEM_LOCK_LOCK || imgMem l % 16 == bits (s.reg R.MEM_CFG).toNat 0 4)

/-- Two ranges of bytes do not meet. -/
def disjoint (a n b m : Nat) : Bool := decide (a + n ≤ b) || decide (b + m ≤ a)

/-- A section lies wholly in populated DRAM or in the local RAM of a present core. -/
def State.secHome (s : State) (x : BootSec) : Bool :=
  decide (x.dest + x.len ≤ s.dramTop)
    || (decide (ramBase ≤ x.dest) && decide ((x.dest - ramBase) % 0x20000 + x.len ≤ 0x20000)
      && decide ((x.dest - ramBase) / 0x20000 < 24) && s.hasCore ((x.dest - ramBase) / 0x20000))

/-- The sections are in the ranges of R408 and do not overlap, in the image or at their destinations. -/
def State.secsOk (s : State) (l : List Byte) (clear : Option Nat) : Bool :=
  let xs := imgSecs l
  inRange 1 64 (imgNsec l) && decide (imgLen l % 256 = 0) && decide (imgLen l ≤ 0x800000)
    && decide (imgLen l ≤ l.length) && decide (0x100 + 16 * imgNsec l + 256 ≤ imgLen l)
    && xs.all (fun x => s.secHome x && x.dest % 4 == 0 && x.off % 4 == 0 && x.len % 4 == 0 && inRange 4 0x800000 x.len
      && decide (0x100 + 16 * imgNsec l ≤ x.off) && decide (x.off + x.len ≤ imgLen l - 256)
      && (match clear with | some a => disjoint x.dest x.len a (imgLen l) | none => true))
    && (List.range xs.length).all (fun j => (List.range j).all (fun k =>
      let x := xs.getD j default
      let y := xs.getD k default
      disjoint x.dest x.len y.dest y.len && disjoint x.off x.len y.off y.len))

/-- Check 6: the digest of the key equals the KEYHASH fuses. -/
def State.keyOk (s : State) (l : List Byte) : Bool :=
  sha384 ((l.drop (imgLen l - 256)).take 97) == s.fuses.keyHash

/-- Check 7: the signature verifies over everything before its block. -/
def sigOk (l : List Byte) : Bool :=
  let b := l.drop (imgLen l - 256)
  b.getD 0 0 == 0x04
    && ecdsaVerify (ofBe ((b.drop 1).take 48)) (ofBe ((b.drop 49).take 48)) (sha384 (l.take (imgLen l - 256)))
      (entLe b 128 48) (entLe b 176 48)

/-- The contents of the sections are written to their destinations. -/
def State.loadSecs (s : State) (l : List Byte) : State :=
  s.each (imgSecs l) (fun t x => (t.memWriteWords reqCore x.dest ((l.drop x.off).take x.len)).1)

/-- Checks 4 to 8: the state after the sections have been loaded, and the check that failed, if any. -/
def State.bootChecks (s : State) (l : List Byte) (readsOk : Bool) (clear : Option Nat) : State × Option Nat :=
  if s.secsOk l clear = false then (s, some 4)
  else if readsOk = false then (s, some 5)
  else
    let t := s.loadSecs l
    if t.keyOk l = false then (t, some 6)
    else if sigOk l = false then (t, some 7)
    else if imgSvn l < t.fuses.svnMin then (t, some 8)
    else (t, none)

/-- Core release (R411): every present core gets its ENTRY, those of RUNMASK run, all at once. -/
def State.release (s : State) (l : List Byte) (slot : Nat) : State :=
  let t := s.each (List.range 24) (fun u n =>
    if u.hasCore n then
      let v := (u.setFld (F.CRS_ENTRY_ENTRY n) (imgEntry l n / 4)).modCore n (fun c => { c with pc := imgEntry l n / 4 * 4 })
      if bit (imgRun l) n then v.coreStart n else v
    else u)
  let t1 := ((t.setFld F.PWR_STATUS_STATE 1).setFld F.PWR_STATUS_SLOT slot).modPwr (fun p =>
    { p with phase := .running, released := true })
  t1.sillage 0x07 (leBytes 4 (t1.reg R.PWR_STATUS).toNat)

/-- A check of the attempt on a slot fails: slot B is next, or the start has failed. -/
def State.slotFail (s : State) (step : Nat) : State :=
  let t := s.setFld F.PWR_STATUS_FAILSTEP step
  if s.pwr.slotB then t.bootFail else t.modPwr (fun p => { p with slotB := true })

/-- BOOT_IMAGE_CHECK: the header while memory is not yet trained, the whole image once it is filled. -/
def effBootImageCheck (answered flashOk : Bool) (l : List Byte) (s : State) : State :=
  if s.pwr.phase = .training ∧ s.flag F.MEM_LOCK_LOCK = false then
    if answered = false then s.slotFail 1
    else if hdrOk l = false then s.slotFail 2
    else if s.memCfgOk l = false then s.slotFail 3
    else ((s.setMemCfg (imgMem l)).setFlag F.MEM_LOCK_LOCK).bootPl1 (bits (imgMem l) 0 2)
  else if s.pwr.phase = .booting then
    if answered = false then s.slotFail 1
    else if hdrOk l = false then s.slotFail 2
    else if s.memCfgOk l = false then s.slotFail 3
    else match s.bootChecks l flashOk none with
      | (t, some k) => t.slotFail k
      | (t, none) => (t.raiseIf t.pwr.slotB 358).release l (b2n t.pwr.slotB)
  else s

/-- BOOT_GO: a recovery image in DRAM (R410). -/
def effBootGo (fromTalosh : Bool) (v : Word) (s : State) : State :=
  if fromTalosh = false ∨ bit v.toNat 0 = false ∨ s.pwr.phase ≠ .bootfail ∨ s.flag F.MEM_STATUS_INIT_DONE = false then s
  else
    let a := s.addr40 R.PWR_BOOT_ADDR_LO R.PWR_BOOT_ADDR_HI / 256 * 256
    match s.memRead reqTalosh a 256 with
    | (t, .data h) =>
      (match t.memRead reqTalosh a (min (imgLen h) 0x800000) with
       | (u, .data l) =>
         (match u.bootChecks l true (some a) with
          | (w, some k) => w.setFld F.PWR_STATUS_FAILSTEP k
          | (w, none) => w.release l 2)
       | (u, .ecc _) => u.setFld F.PWR_STATUS_FAILSTEP (if u.secsOk h (some a) then 5 else 4)
       | (u, .unmapped) => u.setFld F.PWR_STATUS_FAILSTEP 4)
    | (t, .ecc _) => t.setFld F.PWR_STATUS_FAILSTEP 5
    | (t, .unmapped) => t.setFld F.PWR_STATUS_FAILSTEP 4

/-! ### The course of a drydown (R412, R413) -/

/-- A write of PWR_CMD. -/
def effPwrCmd (v : Word) (s : State) : State :=
  if F.PWR_CMD_KEY.of v ≠ 0x5A ∨ F.PWR_CMD_DRYDOWN.of v = 0 then s
  else
    let t := s.drydown 7
    if s.pwr.phase.canDry || s.pwr.phase.dryRuns then
      t.modPwr (fun p => { p with stayOff := p.stayOff || F.PWR_CMD_STAYOFF.of v == 1 })
    else t

/-- Time from the start of a drydown to the end of its parks, in ms. -/
def State.parkMs (s : State) : Nat :=
  (List.range 4).foldl (fun a h =>
    if s.hasHda h then max a (s.fld (F.SRV_PARKCFG_PARK_MS h)) else a) 2

/-- The enable of a rail is withdrawn; the cores stop with VCORE. -/
def State.withdrawRail (s : State) (r : Nat) : State :=
  let t := s.clrFlag (F.PWR_RAIL_ON r)
  if r = 0 then t.each (List.range 24) State.coreStop else t

/-- The last step before step `i` that enabled a rail still on: its enable is withdrawn now. -/
def State.withdrawBelow (s : State) (i : Nat) : State :=
  match (List.range i).reverse.find? (fun j =>
      match s.pwr.table.steps[j]? with
      | some x => x.op == .on && s.flag (F.PWR_RAIL_ON x.rail)
      | none => false) with
  | some j =>
    (s.withdrawRail ((s.pwr.table.steps.getD j default).rail)).modPwr (fun p => { p with phase := .withdraw (j + 1), since := s.now })
  | none => s.modPwr (fun p => { p with phase := .withdraw 0 })

def effDrydownParkDone (s : State) : State :=
  if s.pwr.phase = .drydown ∧ s.pwr.since + s.parkMs * 1000000 ≤ s.now then
    s.withdrawBelow s.pwr.table.steps.length
  else s

/-- DRYDOWN_RAIL_OFF: the good input of the rail being withdrawn has fallen, or 10 ms have passed: the next follows. -/
def effDrydownRailOff (good : Bool) (s : State) : State :=
  match s.pwr.phase with
  | .withdraw (i + 1) =>
    if good ∧ s.now < s.pwr.since + 10000000 then s
    else (s.putFlag (F.PWR_RAIL_GOOD ((s.pwr.table.steps.getD i default).rail)) good).withdrawBelow i
  | _ => s

/-- Every object is closed (R88). -/
def State.closeAll (s : State) : State :=
  { s with
    objs := [], jobs := [], pages := [], timers := [], evgs := [], mboxes := [], rings := [], dmas := [], actxs := []
    bands := [], loops := [], stalled := [], admitQ := [], drain := none, fills := [] }

/-- DRYDOWN_END: the last rail is off; the drydown has closed all objects (R88), and the hold-off begins. -/
def effDrydownEnd (s : State) : State :=
  if s.pwr.phase = .withdraw 0 then (s.each (List.range 8) State.stopPass).closeAll.modPwr (fun p => { p with phase := .holdoff, since := s.now }) else s

/-- The device stays off after this drydown (R413). -/
def State.staysOff (s : State) : Bool :=
  bit (s.fld F.PWR_CAUSE_MASK) 2 || s.pwr.stayOff || (s.fld F.PWR_CAUSE_CAUSE == 8 && decide (2 ≤ s.pwr.aborts))

def effHoldoffEnd (s : State) : State :=
  if s.pwr.phase ≠ .holdoff ∨ s.now < s.pwr.since + 250000000 then s
  else if s.staysOff ∧ s.pwr.pressKept = false then
    s.modPwr (fun p => { p with phase := .off, stayOff := false, waitPress := true })
  else if s.vinGood then s.powerUp
  else s.modPwr (fun p => { p with phase := .off, stayOff := false })

/-- A write of the PWR window by the requester given (R430). -/
def wrPwr (fromTalosh : Bool) (off : Nat) (v : Word) (s : State) : State :=
  match off with
  | 0x10 => effPwrCmd v s
  | 0x14 => effBootGo fromTalosh v s
  | _ => s.plainWrite (0x680000 + off) v

end Sys2Proof.Machine
end

