-- ==== Sys2Proof/Machine/Memory.lean ====
section
/-!
DEFINITION. The memory controller's own commands (R232, R234, R246) and the control of the DMA channels (R235 to R245);
what a channel moves stands in Machine/DmaMove.lean.
-/
namespace Sys2Proof.Machine

/-! ### Correction window, scrubber, injection -/

/-- CE_WINDOW_END: the window has run its length; the next one starts with CE_WIN as it stands (R232). -/
def effCeWindowEnd (s : State) : State :=
  let m := s.memst
  if s.flag F.MEM_STATUS_INIT_DONE = true ∧ m.winStart + m.winLen * 60000000000 ≤ s.now then
    { s with memst := { m with
      winStart := m.winStart + m.winLen * 60000000000, winLen := s.ceWin, winCount := 0, winTripped := false } }
  else s

/-- SCRUB_UNIT: the next 64-byte unit is read; at the end of DRAM a pass is counted and the next begins (R234). -/
def effScrubUnit (s : State) : State :=
  let m := s.memst
  if s.flag F.MEM_STATUS_INIT_DONE = false ∨ m.scrubStopped = true then s
  else
    match s.eccRange reqScrub m.scrub 64 with
    | (t, _) =>
      if m.scrub + 64 < t.dramTop then { t with memst := { t.memst with scrub := m.scrub + 64 } }
      else
        { t.addSat F.MEM_SCRUB_PASSES 1 with
          memst := { t.memst with scrub := 0, scrubPeriod := t.fld F.MEM_SCRUB_SCRUB_PERIOD } }

/-- A write of MEM_SCRUB: 0 stops the scrubber, a later non-zero period starts a new pass (R234). -/
def State.setScrub (s : State) (v : Word) : State :=
  let t := s.plainWrite R.MEM_SCRUB v
  if F.MEM_SCRUB_SCRUB_PERIOD.of v = 0 then { t with memst := { t.memst with scrubStopped := true } }
  else if s.memst.scrubStopped then
    { t with memst := { t.memst with scrubStopped := false, scrub := 0, scrubPeriod := F.MEM_SCRUB_SCRUB_PERIOD.of v } }
  else t

/-- A write of the MEM window (R246). A CE_THR applies at once (R232). -/
def wrMem (off : Nat) (v : Word) (s : State) : State :=
  match off with
  | 0x00 => if s.flag F.MEM_LOCK_LOCK then s else s.setMemCfg v.toNat
  | 0x20 => (s.plainWrite R.MEM_CE_RATE v).rateCheck
  | 0x40 => s.setScrub v
  | _ => s.plainWrite (0x60000 + off) v

/-! ### DMA channels -/

/-- Key of the register at `off` within channel `n`'s registers (R247). -/
def dmaReg (n off : Nat) : Nat := 0x70000 + 0x1000 + 0x20 * n + off

/-- The channel's event group bits: 0 descriptor, 1 stopped, 2 halted. -/
def State.dmaEvent (s : State) (n m : Nat) : State := s.notify 0x01 n m

/-- A completion entry (R245). -/
def State.dmaEntry (s : State) (n : Nat) (c : DmaCh) : List Byte :=
  entryOf 64 [(0x00, 8, c.cur), (0x08, 4, s.handleOf 0x01 n), (0x0C, 4, c.code), (0x10, 4, c.doneB), (0x14, 4, c.mism),
    (0x18, 8, s.now)]

/-- The entry pushed to CRING, if there is one. -/
def State.dmaPush (s : State) (n : Nat) (c : DmaCh) : State :=
  if c.cring = 0 then s else (s.hwPush (.dma n) false c.cring 2 (s.dmaEntry n c)).1

/-- The channel's push waits for room in its ring (R106, R245). -/
def State.dmaStalled (s : State) (n : Nat) : Bool := s.stalled.any (fun p => p.producer == .dma n)

/-- A halt (R241): CODE and DONE are set, MISM by a mismatch alone (R237), bit 2 raised, an entry pushed, FS208 or FS209 set. -/
def State.dmaHalt (s : State) (n code done mism : Nat) : State :=
  let t := s.modDma n (fun c => { c with
    state := .halted, code := code, doneB := done, mism := if code = 7 then mism else c.mism, desc := none, moved := false, fetch := none })
  let u := (t.dmaEvent n 4).raiseIf (inRange 1 3 code) 208 |>.raiseIf (inRange 4 6 code) 209
  match Tab.get u.dmas n with
  | some c => u.dmaPush n c
  | none => u

/-- A width code in bytes (R236). -/
def dmaWidth (c : Nat) : Nat := 2 ^ c

/-- The descriptor in 32 bytes. -/
def dmaDescOf (l : List Byte) : DmaDesc :=
  let w := entLe l 0 4
  { op := bits w 0 2, sw := bits w 4 3, sfix := bit w 7, dw := bits w 8 3, dfix := bit w 11, stop := bit w 12
    irq := bit w 13, cpl := bit w 14, len := entLe l 4 4, src := entLe l 8 8, dst := entLe l 16 8, next := entLe l 24 8 }

/-- The larger of the widths in use: FILL has no source width, COMPARE no destination width (R237). -/
def DmaDesc.wide (d : DmaDesc) : Nat :=
  if d.op = 1 then dmaWidth d.dw else if d.op = 2 then dmaWidth d.sw else max (dmaWidth d.sw) (dmaWidth d.dw)

/-- The descriptor is malformed (R236, R240). -/
def dmaMalformed (l : List Byte) : Bool :=
  let w := entLe l 0 4
  let d := dmaDescOf l
  d.op == 3 || bits w 2 2 != 0 || bits w 15 17 != 0
    || (d.op != 1 && decide (4 < d.sw)) || (d.op != 2 && decide (4 < d.dw))
    || decide (0xFFFFFFF0 < d.len) || decide (d.len % d.wide ≠ 0)
    || (d.op != 1 && decide (2 ^ 40 ≤ d.src)) || decide (2 ^ 40 ≤ d.dst) || decide (2 ^ 40 ≤ d.next)

/-- Register space meets a range. -/
def meetsRegs (a n : Nat) : Bool := decide (a < regBase + 0x1000000) && decide (regBase < a + n)

/-- Bytes a side of the descriptor covers. -/
def dmaSpan (fixed : Bool) (w len : Nat) : Nat := if fixed then w else len

/-- Width of the second side: COMPARE reads both operands with SW. -/
def DmaDesc.w2 (d : DmaDesc) : Nat := if d.op = 2 then dmaWidth d.sw else dmaWidth d.dw

/-- A width rule of R237 is broken: alignment to the own width, and width 4 in register space. -/
def DmaDesc.widthBad (d : DmaDesc) : Bool :=
  d.len != 0
    && ((d.op != 1 && (decide (d.src % dmaWidth d.sw ≠ 0)
          || (meetsRegs d.src (dmaSpan d.sfix (dmaWidth d.sw) d.len) && d.sw != 2)))
      || decide (d.dst % d.w2 ≠ 0) || (meetsRegs d.dst (dmaSpan d.dfix d.w2 d.len) && d.w2 != 4))

/-- DMA_DESC_FETCH (R236, R239, R241). -/
def effDmaDescFetch (n : Nat) (s : State) : State :=
  match Tab.get s.dmas n with
  | none => s
  | some c =>
    match c.fetch with
    | none => s
    | some a =>
      if c.state ≠ .running ∨ c.desc.isSome ∨ s.dmaStalled n = true then s
      else
        let s1 := s.modDma n (fun k => { k with cur := a, doneB := 0, fetch := none })
        if a % 32 ≠ 0 then s1.dmaHalt n 5 0 0
        else match s1.sysMemRead reqDma a 32 with
          | (t, .unmapped) => t.dmaHalt n 4 0 0
          | (t, .ecc _) => t.dmaHalt n 2 0 0
          | (t, .data l) =>
            if dmaMalformed l then t.dmaHalt n 5 0 0
            else if (dmaDescOf l).widthBad then t.dmaHalt n 6 0 0
            else t.modDma n (fun k => { k with desc := some (dmaDescOf l), moved := (dmaDescOf l).len == 0 })

/-- DMA_DESC_COMPLETE (R239, R244, R245): counted, its event bit and entry made; the chain stops or goes on. -/
def effDmaDescComplete (n : Nat) (s : State) : State :=
  match Tab.get s.dmas n with
  | none => s
  | some c =>
    match c.desc with
    | none => s
    | some d =>
      if c.state ≠ .running ∨ c.moved = false then s
      else
        let c1 : DmaCh := { c with
          descs := (c.descs + 1) % 2 ^ 32, desc := none, moved := false, doneB := d.len
          mism := if d.op = 2 then 0xFFFFFFFF else c.mism
          fetch := if d.stop then none else some d.next, state := if d.stop then .stopped else .running }
        let s1 : State := { s with dmas := Tab.put s.dmas n c1 }
        let s2 := if d.cpl then s1.dmaPush n c1 else s1
        (s2.when d.irq (fun t => t.dmaEvent n 1)).when d.stop (fun t => t.dmaEvent n 2)

/-- A write of DMAn_CTRL (R243, R244): GO is refused with CMD_REJ while the channel runs or drains; DISABLE is judged on
the state before the write (DESIGN CHOICE). -/
def effDmaCtrl (n : Nat) (v : Word) (s : State) : State :=
  match Tab.get s.dmas n with
  | none => s
  | some c =>
    let busy := c.state == .running || c.state == .disabling
    let s1 := if bit v.toNat 0 then
        s.modDma n (fun k => if busy then { k with cmdRej := true }
          else { k with state := .running, code := 0, doneB := 0, mism := 0, desc := none, moved := false, fetch := some k.head })
      else s
    if bit v.toNat 1 && c.state == .running then s1.dmaDisable n else s1

/-- DMA_DISABLE_DONE (R243): STATE IDLE, CODE DISABLED, FS210; DONE, CUR, MISM and the destination range of the
abandoned descriptor hold free values. -/
def effDmaDisableDone (n : Nat) (s : State) : State :=
  match Tab.get s.dmas n with
  | none => s
  | some c =>
    if c.state ≠ .disabling then s
    else
      let s1 := match c.desc with
        | some d => if d.op = 2 then s else s.freeRange d.dst (dmaSpan d.dfix (dmaWidth d.dw) d.len)
        | none => s
      let f (k : Nat) : Nat := (Config.freeWord (s1.freeCtr + k)).toNat
      ({ s1 with
        freeCtr := s1.freeCtr + 4
        dmas := Tab.put s1.dmas n { c with
          state := .idle, code := 8, desc := none, moved := false, fetch := none
          doneB := f 0, cur := f 1 + f 2 % 2 ^ 8 * 2 ^ 32, mism := f 3 } }).raise 210

/-- A write of a DMA channel's registers (R247). -/
def wrDma (off : Nat) (v : Word) (s : State) : State :=
  let n := (off - 0x1000) / 0x20
  if off < 0x1000 ∨ 64 ≤ n ∨ s.isOpen 0x01 n = false then s
  else match off % 0x20 with
    | 0x00 => s.modDma n (fun c => { c with head := c.head / 2 ^ 32 * 2 ^ 32 + v.toNat })
    | 0x04 => s.modDma n (fun c => { c with head := c.head % 2 ^ 32 + v.toNat % 2 ^ 8 * 2 ^ 32 })
    | 0x08 => effDmaCtrl n v s
    | 0x0C => s.modDma n (fun c => { c with cmdRej := c.cmdRej && !bit v.toNat 8 })
    | _ => s

end Sys2Proof.Machine
end

