-- ==== Sys2Proof/Machine/Loops.lean ====
section
/-!
DEFINITION. The fast inputs and PWM outputs (R368, R369), the commands of the loop slots (R377, R379), their entry into
OPENLOOP (R378), and the web encoder's count (R380 to R382). What a tick evaluates stands in Machine/Ticks.lean.
-/
namespace Sys2Proof.Machine

/-! ### Fast inputs and LPWM -/

/-- ADC_CONVERSION (R368): all sixteen channels at once, at a press-time multiple of 5,000 ns, one conversion each, of
inputs in µV over 2.5 V. -/
def effAdcConversion (inputs : List Int) (s : State) : State :=
  if s.now % 5000 ≠ 0 ∨ s.adcAt = some s.now then s
  else
    { s with
      adcAt := some s.now
      ain := (List.range 16).map (fun i => (adcCode 2500000 (inputs.getD i 0) :: s.ain.getD i []).take 128) }

/-- LPWM_KHZ: 0 acts as 1 (R397). -/
def State.lpwmKhz (s : State) : Nat := max 1 (s.fld F.LOP_PWMCFG_LPWM_KHZ)

/-- LPWM_PERIOD (R369): once the period in progress has run its time, the next begins with the duty written. -/
def effLpwmPeriod (k : Nat) (s : State) : State :=
  if (s.now - lget s.lpwmAt k) * s.lpwmKhz < 1000000 then s
  else
    { s with
      lpwm := (List.range 8).map (fun i => if i = k then s.fld (F.LOP_PWM_DUTY k) else lget s.lpwm i)
      lpwmAt := (List.range 8).map (fun i => if i = k then s.now else lget s.lpwmAt i) }

/-- Output LPWMk at this press time (R369): high for DUTY / 65,536 of the period, all of it at 65,535, from its start
(DESIGN CHOICE, log entry 137); low while the device does not hold the token. -/
def State.lpwmPin (s : State) (k : Nat) : Bool :=
  s.holdsToken && (lget s.lpwm k == 65535
    || decide ((s.now - lget s.lpwmAt k) * s.lpwmKhz * 65536 < lget s.lpwm k * 1000000))

/-! ### Slots -/

/-- A table of 1,024 signed entries read from memory (R379): none if the copy fails. -/
def State.readTable (s : State) (a : Nat) : State × Option (List Int) :=
  match s.memRead reqDma a 2048 with
  | (t, .data l) => (t, some ((List.range 1024).map (fun i => sx 16 (entLe l (2 * i) 2))))
  | (t, _) => (t, none)

/-- The slot starts at its next evaluation (R374, R377). -/
def Loop.begin (l : Loop) (tick : Nat) : Loop :=
  { l with
    state := .running, i := 0, restart := true, first := true, sign := none, crossings := []
    fresh := false, lastMeas := tick, startAfter := false }

/-- The number of the tick at or before this instant (R371). -/
def State.tick (s : State) : Nat := s.now / 20000

/-- The slot's table copy begins. -/
def State.copyTable (s : State) (n : Nat) (l : Loop) : State :=
  match s.readTable l.taddr with
  | (t, tab) => t.modLoop n (fun k => { k with loading := some tab })

/-- START (R377). -/
def State.loopStart (s : State) (n : Nat) (l : Loop) : State :=
  if l.state = .running ∨ l.state = .openloop then s.setFlag F.LOP_STATUS_CMD_REJ
  else if l.taddr = 0 then s.modLoop n (fun k => k.begin s.tick)
  else (s.copyTable n l).modLoop n (fun k => { k with startAfter := true })

/-- A write of LOP_CMD (R397). -/
def effLopCmd (v : Word) (s : State) : State :=
  let n := F.LOP_CMD_SLOT.of v
  match Tab.get s.loops n with
  | none => s.setFlag F.LOP_STATUS_CMD_REJ
  | some l =>
    if 1 < popc 3 (bits v.toNat 8 3) then s.setFlag F.LOP_STATUS_CMD_REJ
    else if F.LOP_CMD_START.of v = 1 then s.loopStart n l
    else if F.LOP_CMD_STOP.of v = 1 then s.loopStop n
    else if F.LOP_CMD_TLOAD.of v = 1 then (if l.taddr = 0 then s else s.copyTable n l)
    else s

/-- LOOP_TABLE_LOADED (R379): the copy takes effect, or leaves the old table with TLOAD_ERR; a START goes on. -/
def effLoopTableLoaded (n : Nat) (s : State) : State :=
  match Tab.get s.loops n with
  | none => s
  | some l =>
    match l.loading with
    | none => s
    | some r =>
      let s1 := if r.isNone then s.setFlag F.LOP_STATUS_TLOAD_ERR else s
      s1.modLoop n (fun k =>
        let k1 := { k with table := r.getD k.table, loading := none }
        if k1.startAfter then k1.begin s.tick else k1)

/-- A write of LOP_SP[n]: the ramp restarts (R374); ignored while the object is not open. -/
def effLoopSpWrite (n : Nat) (v : Word) (s : State) : State :=
  if s.isOpen 0x06 n then (s.setReg (R.LOP_SP n) v).modLoop n (fun l => { l with restart := true }) else s

/-- The camera a slot is fed by (R372). -/
def Loop.camera (l : Loop) : Option Nat := if inRange 2 4 l.ikind then some (bits l.isel 0 2) else none

/-- Pages degraded while the slot is OPENLOOP (R378): every PRINTING page of a job naming a station of DEGSTN, at the
line that the lowest such station with lines still to expose is completing (R34). -/
def State.degradeOpen (s : State) (l : Loop) : State :=
  s.each (s.pagesIn .printing) (fun t i =>
    match Tab.get t.pages i with
    | none => t
    | some p =>
      match t.jobOf p with
      | none => t
      | some j =>
        match (List.range 4).find? (fun k => bit l.degStn k && j.names k && t.toExpose p k) with
        | some k => t.degradePage i k 3 (t.pageLine p k)
        | none => t)

/-- Every slot in OPENLOOP degrades its pages. -/
def State.loopDegrade (s : State) : State :=
  s.each (s.loops.filter (fun e => e.2.state == .openloop && e.2.degStn != 0)) (fun t e => t.degradeOpen e.2)

/-- Entry into OPENLOOP (R378): FS337 and bit 2. -/
def State.openLoop (s : State) (n : Nat) : State :=
  match Tab.get s.loops n with
  | some l =>
    if l.state = .running then
      (((s.modLoop n (fun k => { k with state := .openloop })).raise 337).notify 0x06 n 4).degradeOpen l
    else s
  | none => s

/-- A new measurement for a slot (R372, R377). -/
def State.measured (s : State) (n : Nat) : State :=
  s.modLoop n (fun l => { l with
    fresh := true, lastMeas := s.tick, state := if l.state = .openloop then .running else l.state })

/-- A write of the LOP window (R397). -/
def wrLop (off : Nat) (v : Word) (s : State) : State :=
  if off = 0 then effLopCmd v s
  else if off < 0x1000 then s.plainWrite (0x620000 + off) v
  else
    let n := (off - 0x1000) / 0x20
    if 64 ≤ n then s
    else match off % 0x20 with
      | 0x00 => effLoopSpWrite n v s
      | _ => s.plainWrite (0x620000 + off) v

/-! ### Web encoder -/

/-- J (R398): 0 acts as 1. -/
def State.webJ (s : State) : Nat := max 1 (s.fld F.WEB_CFG_J)

/-- Position of the two inputs in the quadrature cycle. -/
def quadPos (a b : Bool) : Nat := if a then (if b then 2 else 1) else (if b then 3 else 0)

/-- One count (R381): RAW moves, HW follows it upward; a reversal spoils every PRINTING page. -/
def State.webCount (s : State) (up : Bool) : State :=
  let w := s.web
  let raw := sx 48 (ux 48 (w.raw + (if up then 1 else -1)))
  if w.hw < raw then
    s.modWeb (fun k => { k with
      raw := raw, hw := raw, rev := false
      rises := s.now :: k.rises.filter (fun t => decide (s.now < t + 1000000)) })
  else
    let s1 := s.modWeb (fun k => { k with raw := raw })
    if (s.webJ : Int) < w.hw - raw ∧ w.rev = false then
      ((s1.modWeb (fun k => { k with rev := true })).setFlag F.WEB_STATUS_REV).raise 340 |>.each (s.pagesIn .printing)
        (fun t i => t.spoilWhole i 9)
    else s1

/-- Web line position, in 2^−16 lines (R382). -/
def State.webLine (s : State) : Int := s.web.hw * (s.reg R.WEB_SCALE).toNat

/-- ENCODER_TRANSITION (R380): levels of WEBA and WEBB that held for so many 10 ns. What FILT takes for a glitch changes
nothing. -/
def effEncoderTransition (a b : Bool) (held : Nat) (s : State) : State :=
  if held < s.fld F.WEB_CFG_FILT then s else
  let d := (quadPos a b + 4 - quadPos s.web.lastA s.web.lastB) % 4
  let s1 := s.modWeb (fun k => { k with lastA := a, lastB := b })
  match d with
  | 0 => s1
  | 2 => (s1.setFlag F.WEB_STATUS_ILLEGAL).raise 341
  | 1 => s1.webCount (!s.flag F.WEB_CFG_DIRINV)
  | _ => s1.webCount (s.flag F.WEB_CFG_DIRINV)

/-- WEB_SPEED now (R382): counts of HW over the last millisecond, per second. -/
def State.webSpeed (s : State) : Nat :=
  (s.web.rises.filter (fun t => decide (s.now < t + 1000000))).length * 1000

/-- A write of WEB_CLR (R398). -/
def effWebZero (v : Word) (s : State) : State :=
  if F.WEB_CLR_ZERO.of v = 0 then s
  else if (s.pagesIn .printing).isEmpty then s.modWeb (fun k => { k with raw := 0, hw := 0, rev := false })
  else s.setFlag F.WEB_CMDST_CMD_REJ

/-- A write of the WEB window (R398). -/
def wrWeb (off : Nat) (v : Word) (s : State) : State :=
  match off with
  | 0x24 => effWebZero v s
  | _ => s.plainWrite (0x630000 + off) v

end Sys2Proof.Machine
end

