-- ==== Sys2Proof/Machine/Cameras.lean ====
section
/-!
DEFINITION. The inspection cameras (R384 to R396): reception of a frame, the pipeline, streams, statistics, bypass.
-/
namespace Sys2Proof.Machine

/-! ### The configuration block (R389) -/

/-- Every byte of a range is 0. -/
def zeroBytes (b : List Byte) (off n : Nat) : Bool := ((b.drop off).take n).all (· == 0)

/-- Mark window `w` of a block. -/
def markOf (b : List Byte) (w : Nat) : MarkWin :=
  let o := 0x100 + 32 * w
  { x0 := bits (entLe b o 4) 0 14, plane := bits (entLe b o 4) 16 2, en := bit (entLe b o 4) 18
    mthr := entLe b (o + 4) 2, mmin := entLe b (o + 6) 1, mrefX := sx 32 (entLe b (o + 8) 4)
    mpitch := entLe b (o + 12) 4, mrefY := entLe b (o + 16) 4 }

/-- The block without its flat-field table. -/
def camCfgOf (b : List Byte) : CamCfg :=
  { nexp := bits (entLe b 0 4) 0 2, fmt := bits (entLe b 0 4) 2 2, rgb := bit (entLe b 0 4) 4
    width := bits (entLe b 4 4) 0 14
    black := [entLe b 8 2, entLe b 10 2, entLe b 12 2]
    gain := [entLe b 16 2, entLe b 18 2, entLe b 20 2], sat := entLe b 22 2
    mat := (List.range 4).map (fun k => (List.range 4).map (fun j => sx 16 (entLe b (0x18 + 8 * k + 2 * j) 2)))
    ff := [], collog := bits (entLe b 0x48 4) 0 3
    dx0 := bits (entLe b 0x4C 4) 0 14, dx1 := bits (entLe b 0x4C 4) 16 14
    cstn := bits (entLe b 0x50 4) 0 2, offl := entLe b 0x54 4, latNs := entLe b 0x58 4
    marks := (List.range 8).map (markOf b)
    lin := (List.range 3).map (fun e => (List.range 257).map (fun i => entLe b (0x200 + 0x210 * e + 2 * i) 2)) }

/-- Samples per position. -/
def CamCfg.spp (c : CamCfg) : Nat := if c.rgb then 3 else 1

/-- Positions of a column group. -/
def CamCfg.group (c : CamCfg) : Nat := 2 ^ (c.collog + 3)

/-- Reserved bits and bytes of a block are 0. -/
def camReserved (b : List Byte) : Bool :=
  decide (entLe b 0 4 < 32) && decide (entLe b 4 4 < 2 ^ 14) && zeroBytes b 14 2 && zeroBytes b 0x38 8
    && decide (entLe b 0x40 8 < 2 ^ 40) && decide (entLe b 0x48 4 < 8)
    && bits (entLe b 0x4C 4) 14 2 == 0 && bits (entLe b 0x4C 4) 30 2 == 0
    && decide (entLe b 0x50 4 < 4) && zeroBytes b 0x5C 0xA4
    && (List.range 8).all (fun w =>
      let o := 0x100 + 32 * w
      bits (entLe b o 4) 14 2 == 0 && bits (entLe b o 4) 19 13 == 0 && zeroBytes b (o + 7) 1 && zeroBytes b (o + 20) 12)
    && (List.range 3).all (fun e => zeroBytes b (0x200 + 0x210 * e + 0x202) 14)
    && zeroBytes b 0x830 0x7D0

/-- The checks of R389 but for the flat-field table. -/
def State.camCfgOk (s : State) (b : List Byte) : Bool :=
  let c := camCfgOf b
  camReserved b && inRange 1 3 c.nexp && decide (c.fmt ≠ 3) && inRange 64 8192 c.width && decide (c.width % 64 = 0)
    && c.black.all (fun x => decide (x ≤ 16383)) && lget c.gain 0 == 256
    && decide (entLe b 0x40 8 % 64 = 0) && decide (c.width / c.group ≤ 1024)
    && decide (c.dx0 < c.dx1) && decide (c.dx1 ≤ c.width) && s.hasStn c.cstn
    && c.marks.all (fun m => !m.en || (decide (m.x0 + 64 ≤ c.width) && inRange 1 65535 m.mpitch
      && decide (m.mrefY < 16 * m.mpitch)))

/-- 16-bit numbers of a byte string. -/
def halves : List Byte → List Nat
  | a :: b :: r => (a.toNat + 256 * b.toNat) :: halves r
  | _ => []

/-- The pending block is read, checked and taken, or refused with CFG_ERR (R389). -/
def State.takeCfg (s : State) (c : Nat) : State :=
  let s0 := s.clrFlag (F.CAM_STATUS_LOAD_PEND c)
  match s0.memRead reqCamera (s.addr40 (R.CAM_CFGA_LO c) (R.CAM_CFGA_HI c) / 4096 * 4096) 4096 with
  | (t, .data b) =>
    if t.camCfgOk b = false ∨ t.inDram (entLe b 0x40 8) (2 * (camCfgOf b).width * (camCfgOf b).spp) = false then
      t.setFlag (F.CAM_STATUS_CFG_ERR c)
    else
      (match t.memRead reqCamera (entLe b 0x40 8) (2 * (camCfgOf b).width * (camCfgOf b).spp) with
       | (u, .data l) =>
         (u.setFlag (F.CAM_STATUS_CFG_OK c)).modCam c (fun k => { k with cfg := some { camCfgOf b with ff := halves l } })
       | (u, _) => u.setFlag (F.CAM_STATUS_CFG_ERR c))
  | (t, _) => t.setFlag (F.CAM_STATUS_CFG_ERR c)

/-! ### The pipeline (R388) -/

/-- Samples of a RAW10 payload. -/
def unpack10 : List Byte → List Nat
  | a :: b :: c :: d :: e :: r =>
    (a.toNat * 4 + bits e.toNat 0 2) :: (b.toNat * 4 + bits e.toNat 2 2) :: (c.toNat * 4 + bits e.toNat 4 2)
      :: (d.toNat * 4 + bits e.toNat 6 2) :: unpack10 r
  | _ => []

/-- Samples of a RAW12 payload. -/
def unpack12 : List Byte → List Nat
  | a :: b :: c :: r => (a.toNat * 16 + bits c.toNat 0 4) :: (b.toNat * 16 + bits c.toNat 4 4) :: unpack12 r
  | _ => []

/-- Samples of a RAW14 payload. -/
def unpack14 : List Byte → List Nat
  | a :: b :: c :: d :: e :: f :: g :: r =>
    let w := e.toNat + 256 * f.toNat + 65536 * g.toNat
    (a.toNat * 64 + bits w 0 6) :: (b.toNat * 64 + bits w 6 6) :: (c.toNat * 64 + bits w 12 6)
      :: (d.toNat * 64 + bits w 18 6) :: unpack14 r
  | _ => []

/-- Bits of a sample. -/
def CamCfg.depth (c : CamCfg) : Nat := if c.fmt = 0 then 10 else if c.fmt = 1 then 12 else 14

/-- Samples of a payload, normalised to 14 bits. -/
def CamCfg.samples (c : CamCfg) (l : List Byte) : List Nat :=
  if c.fmt = 0 then (unpack10 l).map (· * 16) else if c.fmt = 1 then (unpack12 l).map (· * 4) else unpack14 l

/-- Black level and linearisation of exposure `e`. -/
def CamCfg.linear (c : CamCfg) (e raw : Nat) : Nat :=
  let b := raw - lget c.black e
  let t := c.lin.getD e []
  ((lget t (b / 64) : Int) + (((lget t (b / 64 + 1) : Int) - lget t (b / 64)) * (b % 64 : Nat)) / 64).toNat

/-- The exposure used for a sample: the first below SAT, else the last. -/
def CamCfg.exposure (c : CamCfg) (raws : List Nat) : Nat :=
  ((List.range c.nexp).find? (fun e => decide (lget raws e < c.sat))).getD (c.nexp - 1)

/-- Merge and flat field of sample `x`: r. -/
def CamCfg.flat (c : CamCfg) (x : Nat) (raws : List Nat) : Nat :=
  let e := if c.nexp = 1 then 0 else c.exposure raws
  let g := if c.nexp = 1 then 256 else lget c.gain e
  min 65535 (c.linear e (lget raws e) * g * lget c.ff x / (256 * 4096))

/-- The largest n below 2^k + `lo` with 10^(2n−1) · r^8,192 ≤ 65,535^8,192: the nearest integer to
−4,096·log10(r/65,535). -/
def logSearch (r lo : Nat) : Nat → Nat
  | 0 => lo
  | k + 1 =>
    let n := lo + 2 ^ k
    if 10 ^ (2 * n - 1) * r ^ 8192 ≤ 65535 ^ 8192 then logSearch r n k else logSearch r lo k

/-- Density of a linear value (R388), within its accuracy of ±1. -/
def density (r : Nat) : Nat :=
  min 65535 (logSearch (max r 1) 0 15 + Config.densityError r % 3 - 1)

/-- A density plane of a position from its three logarithmic densities. -/
def CamCfg.planeOf (c : CamCfg) (k : Nat) (ld : Nat → Nat) : Nat :=
  let m := c.mat.getD k []
  (clampInt 0 65535 (asr (m.getD 0 0 * ld 0 + m.getD 1 0 * ld 1 + m.getD 2 0 * ld 2 + 2048) 12 + m.getD 3 0)).toNat

/-- The four planes of a line from the samples of its exposures. -/
def CamCfg.planes (c : CamCfg) (es : List (List Nat)) : List (List Nat) :=
  let lds := (List.range (c.width * c.spp)).map (fun x => density (c.flat x (es.map (fun l => lget l x))))
  (List.range 4).map (fun k => (List.range c.width).map (fun p =>
    c.planeOf k (fun j => if c.rgb then lget lds (3 * p + j) else lget lds p)))

/-- The planes of a bad line. -/
def CamCfg.blank (c : CamCfg) : List (List Nat) := List.replicate 4 (List.replicate c.width 0)

/-- A stated mean of `n` values of sum `sum`. -/
def camMean (sum n : Nat) : Nat :=
  if n = 0 then Config.meanOpen sum 0 % 65536
  else sum / n + (if sum % n = 0 then 0 else Config.meanOpen sum n % 2)

/-- Sum of positions `a` to `b` − 1. -/
def sumRange (l : List Nat) (a b : Nat) : Nat := ((l.drop a).take (b - a)).sum

/-! ### Streams (R390, R391) -/

/-- Density byte: 1/16 density. -/
def densByte (p : Nat) : Byte := BitVec.ofNat 8 (min 255 (p / 256))

/-- A byte string cut into pieces of at most 4,096 bytes, with their offsets. -/
def pieces (off : Nat) (l : List Byte) : Nat → List (Nat × List Byte)
  | 0 => []
  | k + 1 => if l.isEmpty then [] else (off, l.take 4096) :: pieces (off + 4096) (l.drop 4096) k

/-- Output of a stream at an offset of its slot: what does not fit is discarded with TRUNC; a host stream sends
MEM_WR packets, or loses the output. -/
def State.camOut (s : State) (c kind off : Nat) (l : List Byte) : State :=
  let k := vget s.cams c
  match k.frame, Tab.get k.streams kind with
  | some f, some st =>
    let fit := l.take (st.slotBytes - off)
    let at_ := st.base + st.slotBytes * (f.number % st.slots) + off
    let lost := st.host && (!s.linkUp 0 || s.isShadow)
    let o := Tab.getD f.outs kind (0, false, false)
    let o1 := (o.1 + (if lost then 0 else fit.length), o.2.1 || decide (fit.length < l.length), o.2.2 || lost)
    let s1 := s.modCam c (fun k => { k with frame := some { f with outs := Tab.put f.outs kind o1 } })
    if lost then s1
    else if st.host then s1.each (pieces at_ fit (fit.length / 4096 + 1)) (fun t e => t.sendHost 0x04 0 e.1 e.2)
    else (s1.memWrite reqCamera at_ fit).1
  | _, _ => s

/-- Bytes of a line of the DEFECT kind. -/
def defectBytes (st : CamStream) (x : CamLine) : List Byte :=
  ((setBitsOf 4 st.planes).map (fun k => (x.planes.getD k []).map densByte)).flatten

/-- The sixteen bytes of a line of the DENSITY kind. -/
def CamCfg.densityLine (c : CamCfg) (x : CamLine) : List Byte :=
  leBytes 8 (x.tag % 2 ^ 48 + b2n x.tagv * 2 ^ 48 + b2n x.bad * 2 ^ 49)
    ++ (x.planes.map (fun p => leBytes 2 (camMean (sumRange p c.dx0 c.dx1) (c.dx1 - c.dx0)))).flatten

/-- An output line of the PREVIEW kind from the lines of one block. -/
def CamCfg.previewLine (c : CamCfg) (xs : List CamLine) : List Byte :=
  ((List.range 4).map (fun k => (List.range (c.width / 8)).map (fun g =>
    densByte (camMean (xs.map (fun x => sumRange (x.planes.getD k []) (8 * g) (8 * g + 8))).sum (8 * xs.length))))).flatten

/-- A mark opens in window `m` at this line (R392). -/
def MarkWin.opens (m : MarkWin) (x : CamLine) : Bool :=
  m.en && decide (m.mmin ≤ ((((x.planes.getD m.plane []).drop m.x0).take 64).filter (fun d => decide (m.mthr < d))).length)

/-- A line has passed the pipeline: it joins the frame and goes to the streams. -/
def State.camLine (s : State) (c : Nat) (g : CamCfg) (x : CamLine) : State :=
  match (vget s.cams c).frame with
  | none => s
  | some f =>
    let l := f.lines.length
    let marks := (List.range 8).foldl (fun t w =>
      if (Tab.get t w).isNone && ((g.marks.getD w default).opens x) then Tab.put t w l else t) f.markAt
    let f1 := { f with lines := f.lines ++ [x], markAt := marks, badLines := f.badLines + b2n x.bad }
    let s1 := s.modCam c (fun k => { k with frame := some f1 })
    let s2 := match Tab.get (vget s.cams c).streams 0 with
      | some st => s1.camOut c 0 (l * g.width * popc 4 st.planes) (defectBytes st x)
      | none => s1
    let s3 := s2.each (List.range 8) (fun t w =>
      match Tab.get marks w with
      | some a =>
        if l < a + 64 then
          t.camOut c 1 (8192 * w + 128 * (l - a))
            ((((x.planes.getD (g.marks.getD w default).plane []).drop (g.marks.getD w default).x0).take 64).map
              (fun d => leBytes 2 d)).flatten
        else t
      | none => t)
    let s4 := s3.camOut c 2 (16 * l) (g.densityLine x)
    if l % 8 = 7 then s4.camOut c 3 (l / 8 * (g.width / 8) * 4) (g.previewLine (f1.lines.drop (l / 8 * 8))) else s4

/-! ### Marks and statistics (R392, R393) -/

/-- Rounded quotient of signed numbers, halves up. -/
def roundDiv (a : Int) (b : Nat) : Int := (2 * a + b) / (2 * b)

/-- Result of window `w` at the close of a frame. -/
def CamFrame.mark (f : CamFrame) (g : CamCfg) (free : Nat) (w : Nat) : MarkRes :=
  let m := g.marks.getD w default
  match Tab.get f.markAt w with
  | none => ⟨false, false, 0, 0, 0, 0, 0⟩
  | some a =>
    let xs := (f.lines.drop a).take 64
    let ws := xs.map (fun x => (x.tag, ((List.range 64).map (fun j =>
      (m.x0 + j, lget (x.planes.getD m.plane []) (m.x0 + j) - m.mthr)))))
    let sw := (ws.map (fun e => (e.2.map (·.2)).sum)).sum
    let sx_ := (ws.map (fun e => (e.2.map (fun p => p.1 * p.2)).sum)).sum
    let sy := (ws.map (fun e => e.1 * (e.2.map (·.2)).sum)).sum
    let x : Int := if sw = 0 then sx 32 (Config.freeWord free).toNat else roundDiv (16 * sx_) sw
    let y : Nat := if sw = 0 then (Config.freeWord (free + 1)).toNat else (roundDiv sy sw).toNat
    let per : Int := 16 * m.mpitch
    let ey := if per = 0 then 0 else ((y : Int) - m.mrefY + 8 * m.mpitch) % per - 8 * m.mpitch
    { valid := xs.length == 64 && xs.all (fun l => !l.bad && l.tagv), partialMark := decide (xs.length < 64)
      x := x, ex := x - m.mrefX, ey := ey, y := y, sumW := sw }

/-- The 32 bytes of a window's result. -/
def MarkRes.bytes (r : MarkRes) : List Byte :=
  leBytes 4 (b2n r.valid + b2n r.partialMark * 2) ++ leBytes 4 (ux 32 r.x) ++ leBytes 4 (ux 32 r.ex)
    ++ leBytes 4 (ux 32 r.ey) ++ leBytes 8 (r.y % 2 ^ 48) ++ leBytes 4 r.sumW ++ leBytes 4 0

/-- Counts of a histogram over all received lines. -/
def histo (ps : List (List Nat)) : List Nat :=
  let all := ps.flatten.map (fun d => min 255 (d / 64))
  (List.range 256).map (fun b => (all.filter (· == b)).length)

/-- The statistics block of a frame (R393). -/
def CamFrame.stats (f : CamFrame) (g : CamCfg) (marks : List MarkRes) : List Byte :=
  let good := f.lines.filter (fun x => !x.bad)
  let hist := ((List.range 4).map (fun k => ((histo (f.lines.map (fun x => x.planes.getD k []))).map (leBytes 4)).flatten)).flatten
  let cols := ((List.range (g.width / g.group)).map (fun j => ((List.range 4).map (fun k =>
    leBytes 2 (camMean (good.map (fun x => sumRange (x.planes.getD k []) (j * g.group) ((j + 1) * g.group))).sum
      (good.length * g.group)))).flatten)).flatten
  hist ++ cols ++ List.replicate (0x2000 - cols.length) 0#8 ++ (marks.map MarkRes.bytes).flatten
    ++ List.replicate (0x1000 - 256) 0#8

/-- The bins of the DENSITY kind. -/
def CamFrame.bins (f : CamFrame) (g : CamCfg) : List Byte :=
  ((List.range 128).map (fun j =>
    let xs := f.lines.filter (fun x => x.tagv && !x.bad && x.tag / 16 % 128 == j)
    ((List.range 4).map (fun k => leBytes 2 (camMean (xs.map (fun x => sumRange (x.planes.getD k []) g.dx0 g.dx1)).sum
      (xs.length * (g.dx1 - g.dx0))))).flatten ++ leBytes 4 xs.length ++ leBytes 4 0)).flatten

/-- Mean densities of a complete frame over its density window (R372). -/
def CamFrame.dens (f : CamFrame) (g : CamCfg) : List Nat :=
  let good := f.lines.filter (fun x => !x.bad)
  (List.range 4).map (fun k => camMean (good.map (fun x => sumRange (x.planes.getD k []) g.dx0 g.dx1)).sum
    (good.length * (g.dx1 - g.dx0)))

/-! ### The close of a frame -/

/-- What closes a frame. -/
structure CamClose where
  timeout : Bool
  bypassed : Bool
  deriving DecidableEq, Repr, Inhabited

/-- The measurements of a closed frame reach the slots that wait for them (R372). -/
def State.camDeliver (s : State) (c : Nat) (complete : Bool) (marks : List MarkRes) : State :=
  let ok (w : Nat) : Bool := (marks.getD w ⟨false, false, 0, 0, 0, 0, 0⟩).valid
  s.each s.loops (fun t e =>
    let l := e.2
    if l.camera ≠ some c then t
    else if (l.ikind = 2 ∧ ok (bits l.isel 2 3) = true)
        ∨ (l.ikind = 3 ∧ ok (bits l.isel 2 3) = true ∧ ok (bits l.isel 6 3) = true) ∨ (l.ikind = 4 ∧ complete = true) then
      t.measured e.1
    else t)

/-- The record a stream pushes for a frame (R391). -/
def streamRecord (c kind : Nat) (f : CamFrame) (st : CamStream) (incomplete : Bool) : List Byte :=
  let o := Tab.getD f.outs kind (0, false, false)
  let first := f.lines.getD 0 ⟨0, false, false, []⟩
  entryOf 64 [(0x00, 4, f.number),
    (0x04, 1, c + kind * 4 + b2n (o.2.1 || f.trunc) * 16 + b2n incomplete * 32 + b2n o.2.2 * 64 + b2n first.tagv * 128),
    (0x08, 4, f.number % st.slots + f.lines.length * 2 ^ 16), (0x0C, 4, o.1), (0x10, 8, first.tag % 2 ^ 48),
    (0x18, 8, f.tFs)]

/-- The frame closes (R385, R391 to R393): last blocks and bins, statistics, records, measurements. -/
def State.camClose (s : State) (c : Nat) (w : CamClose) : State :=
  match (vget s.cams c).frame, (vget s.cams c).cfg with
  | some f, some g =>
    let incomplete := w.timeout || f.dropped || w.bypassed
    let n := f.lines.length
    let s1 := if n % 8 ≠ 0 then s.camOut c 3 (n / 8 * (g.width / 8) * 4) (g.previewLine (f.lines.drop (n / 8 * 8))) else s
    let s2 := s1.camOut c 2 0x10000 (f.bins g)
    let marks := (List.range 8).map (fun k => f.mark g (s2.freeCtr + 2 * k) k)
    let s3 : State := { s2 with freeCtr := s2.freeCtr + 16 }
    let blk := s.addr40 (R.CAM_SBUF_LO c) (R.CAM_SBUF_HI c) / 4096 * 4096
      + 16384 * (f.number % max 2 (s.fld (F.CAM_SNBLK_SNBLK c)))
    let s4 := (s3.memWrite reqCamera blk (f.stats g marks)).1
    let first := f.lines.getD 0 ⟨0, false, false, []⟩
    let valid := (List.range 8).foldl (fun a k => if (marks.getD k ⟨false, false, 0, 0, 0, 0, 0⟩).valid then setBit a k else a) 0
    let rec_ := entryOf 64 [(0x00, 4, f.number),
      (0x04, 4, n + b2n w.timeout * 2 ^ 13 + b2n f.dropped * 2 ^ 14 + b2n incomplete * 2 ^ 15 + b2n f.trunc * 2 ^ 16
        + b2n first.tagv * 2 ^ 17 + b2n w.bypassed * 2 ^ 18 + c * 2 ^ 19),
      (0x08, 8, first.tag % 2 ^ 48), (0x10, 2, f.badLines), (0x14, 1, valid), (0x18, 8, f.tFs), (0x20, 8, blk), (0x28, 8, s.now)]
    let s5 := (s4.hwPush (.camera c) true (s.fld (F.CAM_SRING_HANDLE c)) 2 rec_).1
    let f1 := ((vget s5.cams c).frame).getD f
    let s6 := s5.each (vget s5.cams c).streams (fun t e =>
      (t.hwPush (.camera c) false e.2.ring 2 (streamRecord c e.1 f1 e.2 incomplete)).1.notify 0x09 (4 * c + e.1) 1)
    let pairs := (setBitsOf 8 valid).foldl (fun t a => (setBitsOf 8 valid).foldl (fun u b =>
      let x := marks.getD a default
      let y := marks.getD b default
      Tab.put u (8 * a + b) (x.ex - y.ex, x.ey - y.ey)) t) (vget s6.cams c).lastDiff
    let s7 := (s6.clrFlag (F.CAM_STATUS_FRAME_OPEN c)).modCam c (fun k => { k with
      frame := none
      lastMark := (setBitsOf 8 valid).foldl (fun t a => Tab.put t a ((marks.getD a default).ex, (marks.getD a default).ey)) k.lastMark
      lastDiff := pairs
      lastDens := if incomplete then k.lastDens else f.dens g })
    s7.camDeliver c (!incomplete) marks
  | _, _ => s

/-- A frame closed as a timeout (R387). -/
def State.camTimeout (s : State) (c : Nat) : State :=
  ((s.camClose c ⟨true, false⟩).setFlag (F.CAM_STATUS_TIMEOUT c)).raise (344 + 2 * c)

/-! ### Reception (R384 to R387, R394) -/

/-- The port receives: present and enabled, and PL15 clocks its pipeline (R428). -/
def State.camOn (s : State) (c : Nat) : Bool := s.hasCam c && s.flag (F.CAM_CTRL_EN c) && !(vget s.plls 15).gated

/-- What each header bit contributes to the error-correction code (PRESUMED, log entry 138: R384 names MIPI CSI-2 and
does not restate its code). -/
def csiBits : List Nat :=
  [0x07, 0x0B, 0x0D, 0x0E, 0x13, 0x15, 0x16, 0x19, 0x1A, 0x1C, 0x23, 0x25,
   0x26, 0x29, 0x2A, 0x2C, 0x31, 0x32, 0x34, 0x38, 0x1F, 0x2F, 0x37, 0x3B]

/-- The six code bits of a header's 24 bits. -/
def csiEcc (d : Nat) : Nat :=
  (List.range 24).foldl (fun a i => if bit d i then a ^^^ lget csiBits i else a) 0

/-- The header of a packet: virtual channel, data type and word count, from its four bytes (data identifier, word count,
code), with a single wrong bit put right (R384); none where more are wrong. -/
def csiHeader (h : BitVec 32) : Option (Nat × Nat × Nat) :=
  let d := bits h.toNat 0 24
  let syn := csiEcc d ^^^ bits h.toNat 24 6
  let read (d : Nat) : Nat × Nat × Nat := (bits d 6 2, bits d 0 6, bits d 8 16)
  if syn = 0 ∨ popc 6 syn = 1 then some (read d)
  else if csiBits.contains syn then some (read (d ^^^ 2 ^ csiBits.idxOf syn))
  else none

/-- One bit of CRC-16, least significant first, polynomial x^16 + x^12 + x^5 + 1. -/
def csiCrcBit (c : Nat) : Nat := if c % 2 = 1 then c / 2 ^^^ 0x8408 else c / 2

/-- CRC-16 of a payload (PRESUMED, log entry 138). -/
def csiCrc (l : List Byte) : Nat :=
  l.foldl (fun c b => csiCrcBit (csiCrcBit (csiCrcBit (csiCrcBit (csiCrcBit (csiCrcBit (csiCrcBit (csiCrcBit (c ^^^ b.toNat))))))))
    ) 0xFFFF

/-- A packet's header is received (R384, R385): an uncorrectable one is counted in HDRERR, a packet on VC3 as such, and
both are discarded. Any other goes on with its channel, data type and word count. -/
def State.csiTake (s : State) (c : Nat) (h : BitVec 32) (f : Nat → Nat → Nat → State → State) : State :=
  if s.camOn c = false then s
  else match csiHeader h with
    | none => s.modCam c (fun k => { k with hdrErr := (k.hdrErr + 1) % 256 })
    | some p =>
      if p.1 = 3 then s.modCam c (fun k => { k with vc3 := (k.vc3 + 1) % 65536 }) else f p.1 p.2.1 p.2.2 s

/-- A short packet of data type `t` on VC0; one of another channel or type has no effect here. -/
def State.csiShort (s : State) (c : Nat) (h : BitVec 32) (t : Nat) (f : State → State) : State :=
  s.csiTake c h (fun vc dt _ s => if vc = 0 ∧ dt = t then f s else s)

/-- A packet discarded with no frame open. -/
def State.camDiscard (s : State) (c : Nat) : State :=
  s.modCam c (fun k => { k with noFrame := (k.noFrame + 1) % 65536 })

/-- FS on VC0 (R385, R389, R395). -/
def State.camOpen (c : Nat) (s : State) : State :=
  if s.flag (F.CAM_CTRL_BYPASS c) then s.camDiscard c
  else
    let s1 := if (vget s.cams c).frame.isSome then s.camTimeout c else s
    let s2 := if s1.flag (F.CAM_STATUS_LOAD_PEND c) then s1.takeCfg c else s1
    if (vget s2.cams c).cfg.isNone then s2.camDiscard c
    else (s2.setFlag (F.CAM_STATUS_FRAME_OPEN c)).modCam c (fun k => { k with
      frames := (k.frames + 1) % 2 ^ 32
      frame := some { (default : CamFrame) with
        number := (k.frames + 1) % 2 ^ 32, tFs := s.now, counts := [0, 0, 0] } })

/-- CSI_FRAME_START: a short packet of type FS. -/
def effCsiFrameStart (c : Nat) (hdr : BitVec 32) (s : State) : State := s.csiShort c hdr 0x00 (State.camOpen c)

/-- Λ of a station at a press time that has passed, in 1/16 line (R332, R386): interpolated from the newest origin not
after it. Before the first origin, and once the facets have stopped, it is the line counter. -/
def State.lambdaAt (s : State) (i : Nat) (t : Int) : Int :=
  let e := vget s.exp i
  let p := s.facetNs i
  match e.origins.find? (fun o => decide ((o.1 : Int) ≤ t)) with
  | none => 16 * ((e.origins.getLast?.map (·.2)).getD e.line : Nat)
  | some o =>
    if (e.facetsRun = false ∧ e.origins.head? = some o) ∨ p.1 = 0 ∨ p.2 = 0 then 16 * (e.line : Int)
    else (16 * o.2 : Nat) + (16 * s.linesPerFacet i * p.2 : Nat) * (t - o.1) / (p.1 : Nat)

/-- BD_LOCK of a station at a press time that has passed. -/
def State.lockAt (s : State) (i : Nat) (t : Int) : Bool :=
  match (vget s.exp i).locks.find? (fun o => decide ((o.1 : Int) ≤ t)) with
  | none => false
  | some o => o.2

/-- Tag of a line that arrives now (R386): Λ and the lock LAT_NS before. -/
def State.camTag (s : State) (g : CamCfg) : Nat × Bool :=
  let t := (s.now : Int) - g.latNs
  (ux 44 (s.lambdaAt g.cstn t - 16 * g.offl), s.lockAt g.cstn t)

/-- LS on VC0 tags the next line. -/
def State.camLineStart (c : Nat) (s : State) : State :=
  match (vget s.cams c).frame, (vget s.cams c).cfg with
    | some f, some g =>
      if f.dropped then s
      else
        s.modCam c (fun k => { k with frame := some { f with
          tags := (lget f.counts 0, s.camTag g) :: f.tags.filter (fun e => e.1 != lget f.counts 0) } })
    | _, _ => s.camDiscard c

/-- CSI_LINE_START: a short packet of type LS. -/
def effCsiLineStart (c : Nat) (hdr : BitVec 32) (s : State) : State := s.csiShort c hdr 0x02 (State.camLineStart c)

/-- The exposures of line `l` that have arrived: (VC, payload good, samples). -/
def CamFrame.exposures (f : CamFrame) (l : Nat) : List (Nat × Bool × List Nat) :=
  (f.waiting.filter (fun e => e.1 == l)).map (fun e => e.2)

/-- Line `l` leaves reception: bad if an exposure is missing or failed its checks. -/
def State.camComplete (s : State) (c : Nat) (g : CamCfg) (l : Nat) : State :=
  match (vget s.cams c).frame with
  | none => s
  | some f =>
    let es := f.exposures l
    let bad := decide (es.length < g.nexp) || es.any (fun e => !e.2.1)
    let tag := ((f.tags.find? (fun e => e.1 == l)).map (·.2)).getD (0, false)
    let held := s.stalled.any (fun p => p.producer == .camera c)
    let k := vget s.cams c
    if held && decide (64 ≤ k.buffered) then
      ((s.modCam c (fun k => { k with frame := some { f with dropped := true, waiting := [] } })).setFlag
        (F.CAM_STATUS_OVF c)).raise (345 + 2 * c)
    else
      let s1 := s.modCam c (fun k => { k with
        buffered := if held then k.buffered + 1 else 0
        frame := some { f with waiting := f.waiting.filter (fun e => e.1 != l), tags := f.tags.filter (fun e => e.1 != l) } })
      s1.camLine c g ⟨tag.1, tag.2, bad,
        if bad then g.blank else g.planes ((List.range g.nexp).map (fun e =>
          ((es.find? (fun x => x.1 == e)).map (fun x => x.2.2)).getD []))⟩

/-- One exposure of a line (R385): its data type, whether the CRC agrees, and its payload. -/
def State.camLong (c vc dt : Nat) (crcOk : Bool) (payload : List Byte) (s : State) : State :=
  match (vget s.cams c).frame, (vget s.cams c).cfg with
    | some f, some g =>
      if f.dropped then s
      else if inRange 0x2B 0x2D dt = false then s.modCam c (fun k => { k with dtErr := (k.dtErr + 1) % 256 })
      else if g.nexp ≤ vc then s
      else
        let l := lget f.counts vc
        if 4096 ≤ l then s.modCam c (fun k => { k with frame := some { f with trunc := true } })
        else
          let lenOk := payload.length * 8 == g.width * g.spp * g.depth && dt == 0x2B + g.fmt
          let f1 : CamFrame := { f with
            counts := (List.range 3).map (fun v => if v = vc then l + 1 else lget f.counts v)
            tags := if vc = 0 ∧ f.tags.all (fun e => e.1 != l) = true then (l, s.camTag g) :: f.tags else f.tags
            waiting := f.waiting ++ [(l, vc, crcOk && lenOk, if crcOk && lenOk then g.samples payload else [])] }
          let s1 := s.modCam c (fun k => { k with
            frame := some f1
            crcErr := (k.crcErr + b2n (!crcOk)) % 256, lenErr := (k.lenErr + b2n (!lenOk)) % 256 })
          if (f1.exposures l).length < g.nexp then s1 else s1.camComplete c g l
    | _, _ => s.camDiscard c

/-- CSI_LONG_PACKET (R384, R385): header, then as many payload bytes as its word count says, then their CRC-16. -/
def effCsiLongPacket (c : Nat) (hdr : BitVec 32) (body : List Byte) (s : State) : State :=
  s.csiTake c hdr (fun vc dt wc => State.camLong c vc dt
    (decide (wc + 2 ≤ body.length) && entLe body wc 2 == csiCrc (body.take wc)) (body.take wc))

/-- FE on VC0: lines with an exposure missing are bad; then the frame closes. -/
def State.camEnd (c : Nat) (s : State) : State :=
  match (vget s.cams c).frame, (vget s.cams c).cfg with
    | some f, some g =>
      let last := f.counts.foldl max 0
      (s.each ((List.range last).filter (fun l => decide (f.lines.length ≤ l) && !f.dropped))
        (fun t l => t.camComplete c g l)).camClose c ⟨false, false⟩
    | _, _ => s.camDiscard c

/-- CSI_FRAME_END: a short packet of type FE. -/
def effCsiFrameEnd (c : Nat) (hdr : BitVec 32) (s : State) : State := s.csiShort c hdr 0x01 (State.camEnd c)

/-- CAMERA_FRAME_TIMEOUT (R387). -/
def effCameraFrameTimeout (c : Nat) (s : State) : State :=
  match (vget s.cams c).frame with
  | some f =>
    if f.tFs + max 1 (s.fld (F.CAM_FTMO_FTMO c)) * 1000000 ≤ s.now then s.camTimeout c else s
  | none => s

/-- A write of CAMc_CTRL (R389, R395, R399). -/
def effCamCtrl (c : Nat) (v : Word) (s : State) : State :=
  let lanes := (F.CAM_CTRL_LANES c).of v
  let s1 := if s.flag (F.CAM_CTRL_EN c) || lanes == 3 then s else s.setFld (F.CAM_CTRL_LANES c) lanes
  let s2 := (s1.setFld (F.CAM_CTRL_EN c) ((F.CAM_CTRL_EN c).of v)).setFld (F.CAM_CTRL_BYPASS c) ((F.CAM_CTRL_BYPASS c).of v)
  let s3 := if (F.CAM_CTRL_LOAD c).of v = 1 then s2.setFlag (F.CAM_STATUS_LOAD_PEND c) else s2
  if (F.CAM_CTRL_BYPASS c).of v = 1 then
    ((s3.camClose c ⟨false, true⟩).each s3.loops (fun t e => if e.2.camera = some c then t.openLoop e.1 else t))
  else s3

/-- A write of a CAM window (R399). -/
def wrCam (c off : Nat) (v : Word) (s : State) : State :=
  match off with
  | 0x00 => effCamCtrl c v s
  | _ => s.plainWrite (0x640000 + 0x10000 * c + off) v

end Sys2Proof.Machine
end

