-- ==== Sys2Proof/Machine/Service.lean ====
section
/-!
DEFINITION. Core self-test, the service state of disk channels (R459, R460), the sillage log's commits and firmware
records (R463 to R466), and boundary scan (R485, R486).
-/
namespace Sys2Proof.Machine

/-! ### Core self-test (R459) -/

/-- GO of SYS_CTEST: refused if the core runs or owns an object, or while a test runs. -/
def effCoreTest (v : Word) (s : State) : State :=
  let n := F.SYS_CTEST_CORE.of v
  if F.SYS_CTEST_GO.of v = 0 then s
  else if s.hasCore n = false then s.raise 5
  else if s.flag (F.CRS_CTRL_RUN n) || s.svc.testing.isSome || s.objs.any (fun e => e.2.owner == n) then
    s.setFlag F.SYS_CTSTAT_CT_REFUSED
  else { s with svc := { s.svc with testing := some n } }.setFlag F.SYS_CTSTAT_CT_BUSY

/-- Memory in a range of addresses all 0, with valid check bits. -/
def State.zeroRange (s : State) (a n : Nat) : State :=
  { s with
    mem := s.mem.filter (fun c => decide (c.1 < a) || decide (a + n ≤ c.1))
    upsets := s.upsets.filter (fun c => decide (c.1 < a) || decide (a + n ≤ c.1)) }

/-- The test ends: both local RAMs hold 0, and the result is kept in CORE_FAIL. -/
def effCoreTestDone (pass : Bool) (s : State) : State :=
  match s.svc.testing with
  | none => s
  | some n =>
    let s1 := (({ s with svc := { s.svc with testing := none } }.zeroRange (iramBase n) 0x20000).clrFlag
      F.SYS_CTSTAT_CT_BUSY).setFlag F.SYS_CTSTAT_CT_DONE
    let failed := s1.fld F.SYS_CTSTAT_CORE_FAIL
    if pass then s1.setFld F.SYS_CTSTAT_CORE_FAIL (clrBit failed n)
    else ((s1.setFld F.SYS_CTSTAT_CORE_FAIL (setBit failed n)).setFlag F.SYS_CTSTAT_CT_FAIL).raise 8

/-! ### Service state of a disk channel (R460) -/

/-- The service state of one channel: an absent one answers as R5 says, 3 is refused. -/
def State.setSvc (s : State) (d v : Nat) : State :=
  let old := s.dcsvc d
  if s.hasDch d = false then s.raiseIf (v != 0) 5
  else if v = 3 ∨ v = old then s
  else
    let s1 := s.setFld ⟨R.SYS_DCSVC, 2 * d, 2⟩ v
    if v = 0 then (s1.clrFlag (F.DSK_STATUS_OFFLINE d)).volRefresh
    else if old = 0 then ((((s1.setFlag (F.DSK_STATUS_OFFLINE d)).volRefresh).stopPass d).dskDropAll d 7).park d
    else s1

/-- A write of SYS_DCSVC. -/
def effDcsvcWrite (v : Word) (s : State) : State :=
  s.each (List.range 8) (fun t d => t.setSvc d (bits v.toNat (2 * d) 2))

/-! ### The sillage log (R463 to R466) -/

/-- The first 124 bytes of a record (R464). -/
def State.recordBody (s : State) (r : NvmRec) : List Byte :=
  [0x5A, BitVec.ofNat 8 r.kind, BitVec.ofNat 8 r.payload.length, 0x01] ++ leBytes 4 s.nvm.seq ++ leBytes 8 r.time
    ++ leBytes 4 (s.reg R.SYS_ID0).toNat ++ leBytes 4 (s.reg R.SYS_ID1).toNat ++ leBytes 4 s.nvm.boots
    ++ leBytes 4 r.acc ++ r.payload ++ List.replicate (92 - r.payload.length) 0

/-- The record at the front of the queue is committed to its slot (R463, R464). -/
def effSillageCommit (s : State) : State :=
  match s.nvm.queue with
  | [] => s
  | r :: rest =>
    let body := s.recordBody r
    let a := mramBase + 128 * (s.nvm.index % 2048)
    let s1 := (s.zeroRange a 128).wrBytes a (body ++ leBytes 4 (crc32c body))
    s1.modNvm (fun n => { n with
      queue := rest, seq := (n.seq + 1) % 2 ^ 32, index := (n.index + 1) % 2048
      append := if 0x80 ≤ r.kind then false else n.append })

/-- A write of NVM_APP_CMD (R466). A payload byte that memory does not give is open. -/
def effNvmAppCmd (v : Word) (s : State) : State :=
  let kind := F.NVM_APP_CMD_KIND.of v
  let len := F.NVM_APP_CMD_LEN.of v
  if kind < 0x80 ∨ 92 < len ∨ s.nvm.append = true then s.setFlag F.NVM_STATUS_CMD_REJ
  else
    let r := s.memRead reqStorage (s.addr40 R.NVM_APP_LO R.NVM_APP_HI) len
    let s1 := match r.2 with
      | .data l => r.1.sillage kind l
      | _ => (r.1.tookFree).sillage kind ((List.range len).map (Config.freeByte r.1.freeCtr))
    s1.modNvm (fun n => { n with append := n.queue.any (fun q => decide (0x80 ≤ q.kind)) })

/-- A write to a register of the NVM window (R470). -/
def wrNvm (off : Nat) (v : Word) (s : State) : State :=
  if off = 0x18 then effNvmAppCmd v s else s.plainWrite (0x20000 + off) v

/-! ### Boundary scan (R485, R486) -/

/-- The instructions that take the pins are honoured (R486). -/
def State.scanTakesPins (s : State) : Bool :=
  (s.fld F.PWR_STATUS_STATE == 0 || s.fld F.PWR_STATUS_STATE == 3) && !s.pwr.released

/-- The identification code (R485). -/
def State.idcode (s : State) : Nat := s.fuses.step / 16 % 16 * 2 ^ 28 + 0x5058 * 2 ^ 12 + 0x1D3 * 2 + 1

/-- BYPASS: one bit, captured 0. -/
def State.jtagBypass (s : State) : State :=
  { s with jtag := { s.jtag with instr := .bypass, dr := 0, pins := false } }

/-- IDCODE. -/
def State.jtagId (s : State) : State :=
  { s with jtag := { s.jtag with instr := .idcode, dr := s.idcode, pins := false } }

/-- An instruction that shifts the boundary register: the pins captured are open. -/
def State.jtagScan (s : State) (i : JtagInstr) (pins : Bool) (l : List Bool) : State :=
  { s with jtag := ⟨i, s.freeWord.toNat, l, pins⟩ }.tookFree

/-- An instruction that takes the pins: acts as BYPASS where it is not honoured. -/
def State.jtagTake (s : State) (f : State → State) : State := if s.scanTakesPins then f s else s.jtagBypass

/-- CLAMP and HIGHZ: the pins are held and the bypass register is selected. -/
def State.jtagHold (s : State) (i : JtagInstr) : State :=
  { s with jtag := { s.jtag with instr := i, dr := 0, pins := true } }

/-- Pins that boundary scan held are given back when R486 no longer allows it. -/
def State.jtagCheck (s : State) : State := if s.jtag.pins && !s.scanTakesPins then s.jtagBypass else s

end Sys2Proof.Machine
end

