-- ==== Sys2Proof/Machine/Collector.lean ====
section
/-!
DEFINITION. The fault collector: severities, incidents, reaction sets, notices and the fault outputs (R435 to R444).
-/
namespace Sys2Proof.Machine

/-- Reaction set of a source (R439). -/
def State.reaction (s : State) (src : Nat) : Nat := s.fld (F.FLT_REACT_REACT src)

/-- A fault notice (R441): always-drop, counted in NSEQ also when it is dropped. -/
def State.notice (s : State) (src kind react merged : Nat) : State :=
  let h := (s.reg R.FLT_NRING).toNat
  if (s.usableRing h 2).isNone then s
  else
    let l := entryOf 64 [(0x00, 4, src + s.sev src * 2 ^ 9 + kind * 2 ^ 11 + react * 2 ^ 14), (0x04, 4, s.flt.nseq),
      (0x08, 8, s.now), (0x10, 4, merged)]
    (s.hwPush .storage true h 2 l).1.modFlt (fun f => { f with nseq := (f.nseq + 1) % 2 ^ 32 })

/-- SPOIL of a reaction set. -/
def State.reactSpoil (s : State) (blank : Bool) : State :=
  let s1 := s.each (s.pagesIn .printing) (fun t i => t.spoilWhole i 5 blank)
  s1.each (s1.pagesIn .admitted) (fun t i => match Tab.get t.pages i with
    | some p => if t.beforeStart p then t.withdrawPage i else t.spoilWhole i 5 blank
    | none => t)

/-- A reaction set applied (R439): bit order, but TAKEOVER first in a joined pair, and then no page is spoiled
(R452). -/
def State.react (s : State) (set : Nat) : State :=
  let tko := bit set 4 && s.isActive
  let s0 := s.when tko State.reactTakeover
  let s1 := s0.when (bit set 0) (·.setFlag F.FLT_PINS_BLANKED)
  let s2 := s1.when ((bit set 0 || bit set 1) && !tko) (·.reactSpoil (bit set 0))
  let s3 := s2.when (bit set 2) State.safeStop
  s3.when (bit set 3) (fun t => t.drydown 6 0 0 tko)

/-- The sticky bit of a source is set (R435). -/
def State.stick (s : State) (src : Nat) : State :=
  s.setReg (R.FLT_STICKY (src / 32)) (s.reg (R.FLT_STICKY (src / 32)) ||| BitVec.ofNat 32 (2 ^ (src % 32)))

/-- The first event since VALID was last cleared is captured (R436). -/
def State.captureFirst (s : State) (src : Nat) : State :=
  if s.flag F.FLT_FIRST_VALID then s
  else ((s.setFld F.FLT_FIRST_SRC src).setFlag F.FLT_FIRST_VALID).setReg64 R.FLT_FIRST_T_LO R.FLT_FIRST_T_HI s.now

/-- Escalation time of a source in ns (R437, R467). -/
def State.escNs (s : State) (src : Nat) : Nat := 1000 * min 1000000 (max 1 (s.fld (F.FLT_REACT_ESC src)))

/-- A heart event opens an incident (R437). -/
def State.openIncident (s : State) (src : Nat) : State :=
  let s1 := (((s.setFld F.FLT_INC_INC_SRC src).setFlag F.FLT_INC_OPEN).setFld F.FLT_INC_MERGED 0).setReg64
    R.FLT_INC_T_LO R.FLT_INC_T_HI s.now
  let s2 := s1.modFlt (fun f => { f with incReact := s.reaction src, incDeadline := s.now + s.escNs src })
  let s3 := s2.each (setBitsOf 24 (s2.fld F.FLT_ROUTE_CORES)) (fun t n => if t.hasCore n then t.setEvp n (2 ^ 28) else t)
  s3.notice src 0 0 0

/-- A heart event while an incident is open (R437). -/
def State.mergeIncident (s : State) (src : Nat) : State :=
  let s1 := (s.addSat F.FLT_INC_MERGED 1).modFlt (fun f => { f with incReact := f.incReact ||| s.reaction src })
  s1.notice src 1 0 (s1.fld F.FLT_INC_MERGED)

/-- A base event (R435, R439, R442). -/
def State.baseEvent (s : State) (src : Nat) : State :=
  let set := s.reaction src
  let s1 := (s.notice src 2 set 0).unhealthy
  (s1.sillage 0x04 (leBytes 2 src ++ leBytes 1 set)).react set

/-- One event taken by the collector (R435). -/
def State.takeEvent (s : State) (src : Nat) : State :=
  let was := bit (s.reg (R.FLT_STICKY (src / 32))).toNat (src % 32)
  match s.sev src with
  | 0 => s
  | 1 => (s.captureFirst src).stick src
  | 2 =>
    let s1 := (s.captureFirst src).stick src
    if s1.flag F.FLT_INC_OPEN then s1.mergeIncident src
    else if was then s1 else s1.openIncident src
  | _ => ((s.captureFirst src).stick src).baseEvent src

/-- The criteria of REPLACE (R461) as they stand. -/
def State.replaceBits (s : State) : Nat :=
  let head := (List.range 4).foldl (fun a i => a + b2n (s.flag (F.LAC_STATUS_REPLACE i)) * 2 ^ i) 0
  let hda := (List.range 8).foldl (fun a d => a + b2n (s.flag (F.DSK_STATUS_REPLACE d)) * 2 ^ d) 0
  head + hda * 2 ^ 4 + b2n (s.flag F.MEM_STATUS_RATE_TRIP) * 2 ^ 12 + b2n (s.fld F.SYS_CTSTAT_CORE_FAIL != 0) * 2 ^ 13

/-- SYS_REPLACE (R468). -/
def State.replaceWord (s : State) : Nat := s.replaceBits + b2n (s.replaceBits != 0) * 2 ^ 14

/-- What an LED output does (R187, R190). -/
inductive LedOut where
  | off | on
  | blink (hz : Nat)
  deriving DecidableEq, Repr

/-- Output LEDk, from its MODE. -/
def State.led (s : State) (k : Nat) : LedOut :=
  match bits (s.fld F.ILK_LED_MODE) (2 * k) 2 with
  | 0 => .off
  | 1 => .on
  | 2 => .blink 1
  | _ => .blink 4

/-- Output LED_REPL: lit while the device's REPLACE status is 1, or forced on (R187). -/
def State.ledRepl (s : State) : Bool := s.replaceBits != 0 || s.flag F.ILK_LED_REPL_FORCE

/-- REPLACE follows its criteria; when it becomes 1, FS7 and EVT code 3 (R461). -/
def State.replaceUpdate (s : State) : State :=
  let now := s.replaceBits != 0
  if now = s.svc.replaced then s
  else
    let s1 : State := { s with svc := { s.svc with replaced := now } }
    if now then (s1.raise 7).sendEvt 0x0003 s1.replaceWord else s1

/-- The events waiting, taken in ascending order of source (R436, R437); what they raise in turn is taken after
them. -/
def State.settleN (s : State) : Nat → State
  | 0 => s
  | n + 1 =>
    match s.flt.raised with
    | [] => s
    | l =>
      let order := (List.range 384).flatMap (fun k => l.filter (· == k))
      ((s.modFlt (fun f => { f with raised := [] })).each order State.takeEvent).settleN n

/-- The collector at the end of a command. -/
def State.settle (s : State) : State := s.replaceUpdate.settleN 4

/-! ### Commands on the collector -/

/-- The escalation timer expires (R438). -/
def effIncidentEscalation (s : State) : State :=
  if s.flag F.FLT_INC_OPEN = false ∨ s.now < s.flt.incDeadline then s
  else
    let src := s.fld F.FLT_INC_INC_SRC
    let set := s.flt.incReact
    let merged := s.fld F.FLT_INC_MERGED
    let s1 := (((s.clrFlag F.FLT_INC_OPEN).setFlag F.FLT_INC_ESCALATED).raise 16).unhealthy
    ((s1.notice src 3 set merged).sillage 0x05 (leBytes 2 src ++ leBytes 1 set ++ leBytes 2 merged)).react set

/-- A write of FLT_INC_CLR (R438): an incident whose time is up escalates instead. -/
def effIncClr (v : Word) (s : State) : State :=
  let src := s.fld F.FLT_INC_INC_SRC
  if s.flag F.FLT_INC_OPEN = false ∨ F.FLT_INC_CLR_SRC.of v ≠ src ∨ F.FLT_INC_CLR_KEY.of v ≠ 0x5A then s
  else if s.flt.incDeadline ≤ s.now then effIncidentEscalation s
  else (s.clrFlag F.FLT_INC_OPEN).notice src 4 0 (s.fld F.FLT_INC_MERGED)

/-- A write of FLT_CTRL (R442, R444): HEALTHY is set, which ends BLANK and starts the watchdog; a write that ends a
WDOG of 0 starts it too (DEDUCED, log entry 141). -/
def effFltCtrl (v : Word) (s : State) : State :=
  let s0 := s.plainWrite R.FLT_CTRL v
  let s1 := if s.fld F.FLT_CTRL_WDOG = 0 then s0.modFlt (fun f => { f with kickAt := s.now }) else s0
  if F.FLT_CTRL_HEALTHY.of v = 1 then
    let s2 := s1.clrFlag F.FLT_PINS_BLANKED
    if s.flag F.FLT_CTRL_HEALTHY then s2 else s2.modFlt (fun f => { f with kickAt := s.now })
  else s1

/-- A write of FLT_KICK (R444). -/
def effFltKick (s : State) : State := s.modFlt (fun f => { f with kickAt := s.now })

/-- The watchdog has run out (R444). -/
def effFltWatchdogExpiry (s : State) : State :=
  let w := s.fld F.FLT_CTRL_WDOG
  if w = 0 ∨ s.flag F.FLT_CTRL_HEALTHY = false ∨ s.now < s.flt.kickAt + w * 1000000 then s
  else ((s.setFlag F.FLT_PINS_WDOG_EXP).raise 17).unhealthy

/-- A toggle point of ALIVE, once each (R443). -/
def effAliveToggle (s : State) : State :=
  if s.now % 500000 ≠ 0 ∨ s.flt.aliveAt = some s.now then s
  else s.modFlt (fun f => { f with aliveAt := some s.now, alive := s.flag F.FLT_CTRL_HEALTHY && s.flag F.FLT_CTRL_ALIVE_EN && !f.alive })

/-- A write to a register of the FLT window (R467). -/
def wrFlt (off : Nat) (v : Word) (s : State) : State :=
  if off = 0x20C then effIncClr v s
  else if off = 0x220 then effFltCtrl v s
  else if off = 0x224 then effFltKick s
  else s.plainWrite (0x10000 + off) v

end Sys2Proof.Machine
end

