-- ==== Sys2Proof/Machine/DriveCmds.lean ====
section
/-!
DEFINITION. The effects of the commands of motors, spindles, half-bridges and the fuser inverter (chapters 11 and 12),
and of writes to the SRV, MOT and GDR registers.
-/
namespace Sys2Proof.Machine

/-! ### Motor events -/

/-- A commutation event's time enters the record of step periods; the speed over the last six of them (R326). -/
def MotSt.event (m : MotSt) (now : Nat) : MotSt :=
  let ps := if m.lastComm = 0 ∨ m.lastComm = now then m.periods else ((now - m.lastComm) :: m.periods).take 6
  let total := ps.sum
  { m with
    lastComm := now, periods := ps
    speed := if total = 0 ∨ m.poles = 0 then m.speed else 960000000000 * ps.length / (total * 6 * m.poles) }

/-- The motor commutates to a step. -/
def State.commutate (s : State) (n step : Nat) : State :=
  (s.modMot n (fun m => { m with step := step, steps := (m.steps + 1) % 2 ^ 32, zcAt := none, stepAt := s.now })).motSync n

/-- A zero-cross is qualified (R323): of four comparisons with the star point, 100 ns apart and the oldest in bit 3, the
first is on one side and the three since on the other, in the direction that the step expects, and the change lies
after the blanking interval. -/
def State.zcQualified (s : State) (n : Nat) (cmp : BitVec 4) : Bool :=
  let m := vget s.mots n
  (cmp == if zcRising m.dir m.step then 0b0111#4 else 0b1000#4)
    && decide (m.stepAt + s.fld (F.MOT_CFG_ZBLANK n) * m.periods.headD 0 / 64 + 200 ≤ s.now)

/-- A zero-cross (R323, R325): a qualified one in RUN starts the wait for the next commutation; in RAMP it is counted,
and HANDN of them in a row at or above HAND_RPM hand the motor over to RUN. -/
def effBemfZeroCross (n : Nat) (cmp : BitVec 4) (s : State) : State :=
  let m0 := vget s.mots n
  if m0.hallSense = true ∨ s.zcQualified n cmp = false then s
  else
    let m := m0.event s.now
    match m0.state with
    | .run =>
      let period := m.periods.headD 0
      s.modMot n (fun _ => { m with zcAt := some (s.now + s.fld (F.MOT_CFG_ADV n) * period / 64) })
    | .ramp =>
      let hand := if 16 * s.fld (F.MOT_RAMP_HAND_RPM n) ≤ m.speed then m.hand + 1 else 0
      let s1 := s.modMot n (fun _ => { m with hand := hand })
      if max 1 (s.fld (F.MOT_RAMPT_HANDN n)) ≤ hand then
        s1.motState n .run (fun k => { k with
          target := 1000000 * k.speed, integ := (k.duty * 1048576 : Nat), zcAt := none })
      else s1
    | _ => s

/-- The commutation after a zero-cross, once its advance has passed (R323). -/
def effCommutation (n : Nat) (s : State) : State :=
  let m := vget s.mots n
  match m.zcAt with
  | some t => if m.state = .run ∧ t ≤ s.now then s.commutate n (nextMotStep m.dir m.step) else s
  | none => s

/-- The step HALLMAP gives a code; 0 marks an invalid code (R324, R335). -/
def State.hallStep (s : State) (n code : Nat) : Nat :=
  let k := bits (s.fld (F.MOT_HALLMAP_MAP n)) (3 * code) 3
  if k = 7 then 0 else k

/-- An invalid Hall code: HALLERR, FS(289+2n) (R324). -/
def State.hallErr (s : State) (n : Nat) : State := (s.setFlag (F.MOT_STATUS_HALLERR n)).raise (289 + 2 * n)

/-- Three samples of the Hall inputs (R324): equal ones give the debounced code. A change to a code that maps to a step
commutates a running motor to it; one that maps to 0 is an error, and the step is kept. -/
def effHallChange (n : Nat) (c0 c1 c2 : Nat) (s : State) : State :=
  let m := vget s.mots n
  if c0 ≠ c1 ∨ c1 ≠ c2 ∨ c2 = m.hall then s
  else
    let s1 := s.modMot n (fun m => { m with hall := c2 })
    if m.hallSense = false then s1
    else if s1.hallStep n c2 = 0 then s1.hallErr n
    else if m.state = .run then (s1.modMot n (fun k => k.event s1.now)).commutate n (s1.hallStep n c2)
    else s1

/-- ALIGN ends after ALIGN_MS and the forced ramp starts (R325). -/
def effAlignDone (n : Nat) (s : State) : State :=
  let m := vget s.mots n
  if m.state = .align ∧ m.startAt + 1000000 * s.fld (F.MOT_ALIGN_ALIGN_MS n) ≤ s.now then
    s.motState n .ramp (fun k => { k with
      startAt := s.now, hand := 0, duty := s.fld (F.MOT_RAMPT_RAMP_DUTY n) })
  else s

/-- A forced step is due (R325): since the last one the ramp's rate, which rises linearly from START_RPM to HAND_RPM over
RAMP_MS, has made one step. -/
def State.forcedDue (s : State) (n : Nat) : Bool :=
  let m := vget s.mots n
  let lo := s.fld (F.MOT_RAMP_START_RPM n)
  let ms := 1000000 * s.fld (F.MOT_RAMPT_RAMP_MS n)
  let rate := lo * ms + (s.fld (F.MOT_RAMP_HAND_RPM n) - lo) * (s.now - m.startAt)
  decide (60000000000 * ms ≤ (s.now - m.stepAt) * rate * 6 * m.poles)

/-- A forced step of the ramp, once it is due (R325). -/
def effRampForcedStep (n : Nat) (s : State) : State :=
  let m := vget s.mots n
  if m.state = .ramp ∧ s.forcedDue n = true then s.commutate n (nextMotStep m.dir m.step) else s

/-- RAMP_MS without hand-over: off, STARTFAIL, FAULT and FS(288+2n) (R325). -/
def effRampTimeout (n : Nat) (s : State) : State :=
  let m := vget s.mots n
  if m.state = .ramp ∧ m.startAt + 1000000 * s.fld (F.MOT_RAMPT_RAMP_MS n) ≤ s.now then
    ((s.motFault n).setFlag (F.MOT_STATUS_STARTFAIL n)).raise (288 + 2 * n)
  else s

/-- The locked-rotor timeout in ns (R327). -/
def lockedTimeout (cmd16 poles : Nat) : Nat := max 100000000 (4 * 960000000000 / (cmd16 * 6 * poles))

/-- In RUN, with the commanded speed above 0 since a press time, no commutation event has come within the timeout
(R327). -/
def State.lockedDue (s : State) (n : Nat) : Bool :=
  let m := vget s.mots n
  m.state == .run && (match m.cmdSince with
    | some t => decide (0 < s.cmdSpeed n)
        && decide (max t (max m.lastComm m.startAt) + lockedTimeout (s.cmdSpeed n) (max 1 m.poles) ≤ s.now)
    | none => false)

/-- A locked rotor is declared: the motor coasts with LOCKED, FAULT and FS(288+2n) (R327). -/
def effLockedRotor (n : Nat) (s : State) : State :=
  if s.lockedDue n then
    (((s.motFault n).setFlag (F.MOT_STATUS_LOCKED n)).modMot n (fun m => { m with lockedAt := some s.now })).raise (288 + 2 * n)
  else s

/-- Since when a running motor has been commanded above 0 (R327). -/
def State.cmdFollow (s : State) (n : Nat) : State :=
  if (vget s.mots n).state ≠ .run then s
  else if s.cmdSpeed n = 0 then s.modMot n (fun m => { m with cmdSince := none })
  else s.modMot n (fun m => { m with cmdSince := some (m.cmdSince.getD s.now) })

/-- 100 ms without a commutation event: the measured speed reads 0 (R328). -/
def effMotorSpeedZero (n : Nat) (s : State) : State :=
  if (vget s.mots n).lastComm + 100000000 ≤ s.now then s.modMot n (fun m => { m with speed := 0, periods := [] }) else s

/-- The target slewed by one PWM period toward the command, in 10^-6 of 1/16 rpm (R326). -/
def slewTarget (now goal step : Nat) : Nat :=
  if now ≤ goal then min goal (now + step) else max goal (now - step)

/-- A PWM period in RUN (R326): the target slews, the PI loop sets the duty, VLIMIT and ATSPEED follow. -/
def State.motPwm (s : State) (n : Nat) : State :=
  let m := vget s.mots n
  if m.state ≠ .run then s
  else
    let cmd := s.cmdSpeed n
    let khz := max 1 (s.fld (F.MOT_CFG_PWM_KHZ n))
    let target := slewTarget m.target (1000000 * cmd) (m.accel * 16000 / khz)
    let meas := s.measSpeed n
    let err : Int := (target / 1000000 : Nat) - (meas : Int)
    let integ := m.integ + s.fld (F.MOT_LOOP_KI n) * err
    let want := (s.fld (F.MOT_LOOP_KP n) * err * 256 + integ) / 1048576
    let vlim : Int := s.fld (F.MOT_VLIM_VLIM n)
    let held := decide (vlim < want)
    let s1 := (s.modMot n (fun k => { k with
      target := target, duty := (clampInt 0 vlim want).toNat, integ := if held then m.integ else integ })).motSync n
    let s2 := if held ∧ s1.flag (F.MOT_STATUS_VLIMIT n) = false then (s1.raise (289 + 2 * n)).notify 0x08 n 4 else s1
    let at_ := decide (((meas : Int) - cmd).natAbs * 10000 ≤ s.fld (F.MOT_VLIM_TOL n) * cmd)
    let s3 := if at_ ∧ s2.flag (F.MOT_STATUS_ATSPEED n) = false then s2.notify 0x08 n 1 else s2
    (s3.putFlag (F.MOT_STATUS_VLIMIT n) held).putFlag (F.MOT_STATUS_ATSPEED n) at_

/-- A PWM period of a motor (R326, R331). -/
def effMotorPwmPeriod (n : Nat) (s : State) : State :=
  let s1 := s.modMot n (fun m => { m with pwmAt := s.now })
  ((if s1.rateLocked n then s1.rangeRefresh (n - 4) else s1).motPwm n).motSync n

/-! ### Motor commands (R324, R325, R328, R329, R348) -/

/-- A half-bridge of the motor has FAULT = 1. -/
def State.motHbFault (s : State) (n : Nat) : Bool := (motHbs n).any s.hbFault

/-- A motor command was ignored. -/
def State.motRej (s : State) (n : Nat) : State := s.setFlag (F.MOT_STATUS_CMD_REJ n)

/-- START from OFF: a BEMF motor aligns, a Hall motor runs at the step its code gives (R324, R325). Refused for a
spindle without its HDA (R320) and while a half-bridge of the motor is faulted (R348). -/
def State.motStart (s : State) (n : Nat) : State :=
  let m := vget s.mots n
  if m.state ≠ .off ∨ (4 ≤ n ∧ n < 8 ∧ s.flag (F.SRV_SPSTAT_PRES (n - 4)) = false) ∨ s.motHbFault n = true then s.motRej n
  else if m.hallSense then
    let k := s.hallStep n m.hall
    let s1 := s.motState n .run (fun x => { x with
      step := if k = 0 then x.step else k, startAt := s.now, stepAt := s.now, lastComm := 0, periods := [], integ := 0, target := 0, duty := 0 })
    if k = 0 then s1.hallErr n else s1
  else s.motState n .align (fun x => { x with
    step := 1, startAt := s.now, stepAt := s.now, lastComm := 0, periods := [], duty := s.fld (F.MOT_ALIGN_ALIGN_DUTY n), hand := 0
    integ := 0 })

/-- A write to MOTn_CMD (R328, R329, R335); one at the time of a locked rotor's declaration is ignored (R327). -/
def effMotCmd (n : Nat) (v : Word) (s : State) : State :=
  let c := bits v.toNat 0 4
  let m := vget s.mots n
  if c = 0 ∨ m.lockedAt = some s.now then s
  else if s.lockedDue n then effLockedRotor n s
  else if s.motOpen n = false ∨ !(c == 1 || c == 2 || c == 4 || c == 8) then s.motRej n
  else if c = 8 then (if m.state = .fault then s.motOff n else s.motRej n)
  else if c = 4 then s.motBrake n
  else if m.state = .fault then s.motRej n
  else if c = 2 then s.motOff n
  else s.motStart n

/-- A write to a register of window MOTn (R335). Values outside a field's stated range are ignored. -/
def wrMot (n off : Nat) (v : Word) (s : State) : State :=
  let k := (0x50 + n) * 0x10000 + off
  let w := v.toNat
  let st := (vget s.mots n).state
  let busy := !(st == .off || st == .fault)
  let cfg (ok : Bool) : State :=
    if busy then s.setFlag (F.MOT_STATUS_CFG_BUSY n) else if ok then s.plainWrite k v else s
  if off = 0 then cfg (inRange 20 100 (bits w 0 7) && inRange 1 255 (bits w 8 8) && inRange 4 48 (bits w 16 6)
    && inRange 0 48 (bits w 24 6))
  else if off = 4 then cfg (inRange 1 65535 (bits w 16 16))
  else if off = 8 then cfg (decide (bits w 0 16 ≤ bits w 16 16))
  else if off = 0xC then cfg (inRange 1 65535 (bits w 0 16))
  else if off = 0x30 then cfg true
  else if off = 0x14 then (if inRange 1 1023 (bits w 0 10) && inRange 1 1000 (bits w 16 10) then s.plainWrite k v else s)
  else if off = 0x1C then effMotCmd n v s
  else s.plainWrite k v

/-! ### Spindles -/

/-- One selvage index (R332): with the rate lock enabled, the phase error against the nearest slot start is measured,
the slot advances and RLOCK follows. -/
def State.spindleIndex (s0 : State) (h : Nat) : State :=
    let s := s0.rangeRefresh h
    let s1 := s.modPort h (fun p => { p with lastIndex := s.now })
    if s.rateLocked (4 + h) = false ∨ (vget s.mots (4 + h)).state ≠ .run then s1
    else
      let lpr := s.fld (F.SRV_SPIN_LPR h)
      let d16 := (s.lambda16 (s.lstn h) s.now + 2 ^ 44 - 16 * s.anchor h % 2 ^ 44) % 2 ^ 44
      let n := if 2 ^ 44 - 8 * lpr ≤ d16 then 0 else (d16 + 8 * lpr) / max 1 (16 * lpr)
      let err := -(s.slotStart h (n % 2 ^ 32))
      let tol : Int := 1000 * max 1 (s.fld (F.SRV_SPIN_PH_TOL h))
      let ok := decide (-tol ≤ err) && decide (err ≤ tol)
      let s2 := (s1.setFld (F.SRV_PHERR_PHERR h) (ux 16 (clampInt (-32768) 32767 (err / 100)))).setFld
        (F.SRV_SLOT_SLOT h) n
      let s3 := s2.modPort h (fun p => { p with
        inTol := if ok then p.inTol + 1 else 0, outTol := if ok then 0 else p.outTol + 1, slotOn := true })
      let p := vget s3.ports h
      if s3.rlock h then (if 4 ≤ p.outTol then s3.rlockFall h else s3)
      else if 16 ≤ p.inTol ∧ s3.flag (F.EXP_STATUS_BD_LOCK (s.lstn h)) = true
          ∧ s3.flag (F.SRV_SPSTAT_RANGE_ERR h) = false then
        (s3.setFlag (F.SRV_SPSTAT_RLOCK h)).notify 0x08 (4 + h) 8
      else s3

/-- A selvage index of a port's spindle: its slot and rate lock, and the revolutions of its two channels (R286, R332). -/
def effSpindleIndex (h : Nat) (s : State) : State :=
  if s.hasHda h = false then s
  else
    let c := s.slotNow h
    ((s.spindleIndex h).indexPass (2 * h) c).indexPass (2 * h + 1) c

/-- A debounced change of HDAh_PRES_N (R320). -/
def effHdaPresChange (h : Nat) (present : Bool) (heldNs : Nat) (s : State) : State :=
  if s.hasHda h = false ∨ s.flag (F.SRV_SPSTAT_PRES h) = present ∨ heldNs < 500000000 then s
  else
    let s1 := s.putFlag (F.SRV_SPSTAT_PRES h) present
    let ds := [2 * h, 2 * h + 1]
    if present then
      (s1.each ds (fun t d => if t.dcsvc d = 0 then t.clrFlag (F.DSK_STATUS_OFFLINE d) else t)).volRefresh
    else
      let parked := s.portParked h
      let s2 := (s1.setFlag (F.SRV_SPSTAT_REMOVED h)).each ds (fun t d =>
        (((t.stopPass d).dskUnready d).setFlag (F.DSK_STATUS_OFFLINE d)).dskDropAll d 3)
      let s3 := s2.volRefresh
      if parked then s3
      else (((s3.motOff (4 + h)).emergencyPark (2 * h)).emergencyPark (2 * h + 1)).raise (280 + h)

/-- A write to a register of window SRVh (R315, R316, R318, R331, R334). -/
def wrSrv (h off : Nat) (v : Word) (s : State) : State :=
  let k := (0x48 + h) * 0x10000 + off
  let w := v.toNat
  let err := s.setFlag (F.SRV_SPSTAT_CFG_ERR h)
  let on := s.flag (F.SRV_SPIN_RLOCK_EN h)
  if off = 0 then
    if !(inRange 256 8191 (bits w 0 13)) || !s.hasStn (bits w 13 2) then err
    else
      let moved := on && (bits w 0 13 != s.fld (F.SRV_SPIN_LPR h) || bits w 13 2 != s.fld (F.SRV_SPIN_LSTN h))
      let v' : Word := if moved then
          BitVec.ofNat 32 (setBits (setBits w 0 13 (s.fld (F.SRV_SPIN_LPR h))) 13 2 (s.fld (F.SRV_SPIN_LSTN h))) else v
      let s1 := (s.plainWrite k v').when moved (fun t => t.setFlag (F.SRV_SPSTAT_CFG_BUSY h))
      let s2 := if on ∧ bit w 15 = false then s1.rlockFall h else s1
      s2.rangeRefresh h
  else if off = 4 ∨ off = 8 then (if on then s.setFlag (F.SRV_SPSTAT_CFG_BUSY h) else s.plainWrite k v)
  else if off = 0x18 then effSrvCtrl h v s
  else if off = 0x1C then (if inRange 1 1000 (bits w 16 10) then s.plainWrite k v else err)
  else if 0x100 ≤ off ∧ off < 0x180 then
    let a := (off - 0x100) / 0x40
    let o := (off - 0x100) % 0x40
    if o = 4 then effSrvTrkWrite (2 * h + a) v s
    else if o = 8 then effVcmWrite (2 * h + a) v s
    else if o = 0xC then (if inRange 1 127 (bits w 0 7) then s.plainWrite k v else err)
    else if o = 0x10 then (if bits w 0 5 = 0 ∧ bits w 0 16 ≤ 0xFE00 then s.plainWrite k v else err)
    else s.plainWrite k v
  else s.plainWrite k v

/-! ### Half-bridges -/

/-- The inputs of a half-bridge as sampled: its status bits show them (R351). -/
def State.hbSample (s : State) (k : Nat) (p : HbPins) : State :=
  (((s.putFlag (F.GDR_HB_STATUS_GOFFH k) (p.goffH.getLsbD 0)).putFlag (F.GDR_HB_STATUS_GOFFL k) (p.goffL.getLsbD 0)).putFlag
    (F.GDR_HB_STATUS_HSG k) p.hsg).modHb k (fun b => { b with
      dsatH := p.dsatH, dsatL := p.dsatL, hsOver := decide (s.fld F.GDR_HS_HS_THR < p.hs.toNat) })

/-- Dead time of a half-bridge in ns; 0 and 1 act as 2 (R351). -/
def State.hbDt (s : State) (k : Nat) : Nat := 10 * max 2 (s.fld (F.GDR_HB_CFG_DT k))

/-- A commanded turn-on is carried out (R340): DT after the opposite switch was last commanded off and with its GOFF
input high in two samples; for the high side with HSG high (R343); never with FAULT, EN = 0, a STUCK opposite switch, or without the
token (R337, R339, R342, R346). -/
def effGateTurnOn (k : Nat) (high : Bool) (pins : HbPins) (s0 : State) : State :=
  let s := s0.hbSample k pins
  let b := vget s.hbs k
  let cmd := if high then b.cmdHi && !b.cmdLo else b.cmdLo && !b.cmdHi
  let goff := (if high then pins.goffL else pins.goffH) == 3#2
  let off := if high then b.offLo else b.offHi
  if cmd && s.hbEn k && !s.hbFault k && s.holdsToken && goff && decide (off + s.hbDt k ≤ s.now) && (!high || pins.hsg)
  then
    if high then (s.setFlag (F.GDR_HB_STATUS_HION k)).modHb k (fun x => { x with onHi := s.now, watchHi := false })
    else (s.setFlag (F.GDR_HB_STATUS_LOON k)).modHb k (fun x => { x with onLo := s.now, watchLo := false })
  else s

/-- A write to GDR_HBk_MAN (R337, R341). -/
def effGdrManWrite (k : Nat) (v : Word) (s : State) : State :=
  let s1 := s.plainWrite (R.GDR_HB_MAN k) v
  if s1.hbSrc k = 3 then s1.hbSync k else s1

/-- A switch commanded off whose GOFF input, sampled as `goff`, has not read high within GOFF_TMO latches STUCK
(R342). -/
def effGoffTimeout (k : Nat) (high goff : Bool) (s0 : State) : State :=
  let s := s0.putFlag (if high then F.GDR_HB_STATUS_GOFFH k else F.GDR_HB_STATUS_GOFFL k) goff
  let b := vget s.hbs k
  let tmo := 100 * max 1 (s.fld (F.GDR_HB_CFG_GOFF_TMO k))
  let on := if high then s.flag (F.GDR_HB_STATUS_HION k) else s.flag (F.GDR_HB_STATUS_LOON k)
  let off := if high then b.offHi else b.offLo
  if on = false ∧ goff = false ∧ off + tmo ≤ s.now then s.hbLatch1 k .stuck else s

/-- HSG low in 100 samples in a row: the high side goes off and HSUV latches (R343). -/
def effHsgLoss (k : Nat) (hsg : BitVec 100) (s : State) : State :=
  if hsg = 0#100 then ((s.clrFlag (F.GDR_HB_STATUS_HSG k)).switchOff k true).hbLatch1 k .hsuv
  else s.putFlag (F.GDR_HB_STATUS_HSG k) (hsg.getLsbD 0)

/-- BLANK after a turn-on the switch's DSAT input is watched (R344). -/
def effDsatBlankEnd (k : Nat) (high : Bool) (s : State) : State :=
  let b := vget s.hbs k
  let blank := 100 * s.fld (F.GDR_HB_CFG_BLANK k)
  if high then
    (if s.flag (F.GDR_HB_STATUS_HION k) ∧ b.onHi + blank ≤ s.now then s.modHb k (fun x => { x with watchHi := true }) else s)
  else
    (if s.flag (F.GDR_HB_STATUS_LOON k) ∧ b.onLo + blank ≤ s.now then s.modHb k (fun x => { x with watchLo := true }) else s)

/-- DSAT_N of a switch low in 10 samples in a row after its blanking (R344). -/
def effDesatDetect (k : Nat) (high : Bool) (dsatN : BitVec 10) (s : State) : State :=
  let b := vget s.hbs k
  let since := (if high then b.onHi else b.onLo) + 100 * s.fld (F.GDR_HB_CFG_BLANK k) + 100
  if dsatN ≠ 0#10 ∨ s.now < since then s
  else if high then
    (if b.watchHi then (s.modHb k (fun x => { x with dsatH := true })).hbShort k .desatH else s)
  else
    (if b.watchLo then (s.modHb k (fun x => { x with dsatL := true })).hbShort k .desatL else s)

/-- HSk above HS_THR in 5 samples in a row (R345). -/
def effHardShort (k : Nat) (hs : List (BitVec 10)) (s : State) : State :=
  if 5 ≤ hs.length ∧ hs.all (fun x => decide (s.fld F.GDR_HS_HS_THR < x.toNat)) = true then
    (s.modHb k (fun x => { x with hsOver := true })).hbShort k .hshort
  else s

/-- The source commands, or may command, either switch on, so that a clear is refused (R349). -/
def State.hbSourceActive (s : State) (k : Nat) : Bool :=
  match s.hbSrc k with
  | 1 => !((vget s.mots (8 + k / 3)).state == .off || (vget s.mots (8 + k / 3)).state == .fault)
  | 2 => (vget s.invs ((k - 24) / 2)).running
  | 3 => s.fld (F.GDR_HB_MAN_HI k) != 0 || s.fld (F.GDR_HB_MAN_LO k) != 0
  | _ => false

/-- A clear is refused in this sample of 10 ns (R349). -/
def State.clrRefused (s : State) (k : Nat) : Bool :=
  let b := vget s.hbs k
  b.latchAt.any (fun t => t / 10 == s.now / 10) || b.dsatH || b.dsatL || b.hsOver || !s.flag (F.GDR_HB_STATUS_HSG k) || !s.flag (F.GDR_HB_STATUS_GOFFH k)
    || !s.flag (F.GDR_HB_STATUS_GOFFL k) || s.hbSourceActive k

/-- CLR written to a half-bridge (R349): refused with CLR_REJ and FS325, or every cause bit and FAULT cleared together;
BUSF clears with the last fault of its bus (R347). -/
def State.hbClear (s : State) (k : Nat) : State :=
  if s.clrRefused k then (s.setFlag F.GDR_STATUS_CLR_REJ).raise 325
  else
    let st := (s.reg (R.GDR_HB_STATUS k)).toNat
    let s1 := (s.setReg (R.GDR_HB_STATUS k) (BitVec.ofNat 32 (st % 2 ^ 5))).modHb k (fun b => { b with shortAt := none })
    let bus := s1.fld (F.GDR_HB_CFG_BUS k)
    if (List.range 32).any (fun j => s1.fld (F.GDR_HB_CFG_BUS j) == bus && s1.hbFault j) then s1
    else s1.setFld F.GDR_STATUS_BUSF (clrBit (s1.fld F.GDR_STATUS_BUSF) bus)

/-- A write to GDR_HBk_CLR. -/
def effGdrClr (k : Nat) (v : Word) (s : State) : State := if (F.GDR_HB_CLR_CLR k).of v = 1 then s.hbClear k else s

/-- A write to GDR_HBk_CFG (R337, R351): refused for a source not allowed, or BLANK outside 5 to 40, with CFG_ERR; held
off with CFG_BUSY while a switch is on or commanded on. -/
def State.hbCfgWrite (s : State) (k : Nat) (v : Word) : State :=
  let src := (F.GDR_HB_CFG_SRC k).of v
  let c := s.srcCmd k
  let allowed := src == 0 || src == 3 || (src == 1 && decide (k < 24)) || (src == 2 && decide (24 ≤ k) && decide (k < 28))
  if s.flag (F.GDR_HB_STATUS_HION k) || s.flag (F.GDR_HB_STATUS_LOON k) || c.1 || c.2 then s.setFlag F.GDR_STATUS_CFG_BUSY
  else if !allowed || !(inRange 5 40 ((F.GDR_HB_CFG_BLANK k).of v)) then s.setFlag F.GDR_STATUS_CFG_ERR
  else (s.plainWrite (R.GDR_HB_CFG k) v).hbSync k

/-! ### The fuser inverter (R350) -/

/-- At the start of a period of leg 1 the settings take effect, PHASE capped by PHASE_CAP, and the legs follow. -/
def effInvPeriod (j : Nat) (s : State) : State :=
  if s.flag (F.GDR_INV_CTRL_RUN j) = false ∨ (vget s.invs j).running = false then s
  else
    let s1 := s.modInv j (fun v => { v with
      since := s.now, khz := s.fld (F.GDR_INV_CTRL_INV_KHZ j)
      phase := min (s.fld (F.GDR_INV_CTRL_PHASE j)) (s.fld F.THM_FUSER_PHASE_CAP) })
    s1.each [24 + 2 * j, 25 + 2 * j] (fun t k => if t.hbSrc k = 2 then t.hbApply k else t)

/-- A write to GDR_INVj_CTRL (R350, R421): RUN = 0 turns both legs off at once; RUN = 1 is ignored while TSD_LOCK = 1;
a start begins a full period. INV_KHZ outside 20 to 100, or PHASE above 256, is refused with CFG_ERR. -/
def effInvRun (j : Nat) (v : Word) (s : State) : State :=
  let run := (F.GDR_INV_CTRL_RUN j).of v = 1
  if !(inRange 20 100 ((F.GDR_INV_CTRL_INV_KHZ j).of v)) || decide (256 < (F.GDR_INV_CTRL_PHASE j).of v) then
    s.setFlag F.GDR_STATUS_CFG_ERR
  else
    let was := s.flag (F.GDR_INV_CTRL_RUN j)
    let s1 := s.plainWrite (R.GDR_INV_CTRL j) v
    if run ∧ was = false ∧ s.flag F.THM_TSD_TSD_LOCK = true then s1.clrFlag (F.GDR_INV_CTRL_RUN j)
    else if run ∧ was = false then
      effInvPeriod j (s1.modInv j (fun x => { x with running := true }))
    else if run then s1
    else s1.invStop j

/-- A write to a register of the GDR window (R351). -/
def wrGdr (off : Nat) (v : Word) (s : State) : State :=
  let kk := off / 0x10
  if off < 0x200 then
    if off % 0x10 = 0 then s.hbCfgWrite kk v
    else if off % 0x10 = 4 then effGdrManWrite kk v s
    else if off % 0x10 = 0xC then effGdrClr kk v s
    else s
  else if off = 0x300 then effInvRun 0 v s
  else if off = 0x310 then effInvRun 1 v s
  else s.plainWrite (0x600000 + off) v

end Sys2Proof.Machine
end

