-- ==== Sys2Proof/Machine/Panel.lean ====
section
/-!
DEFINITION. Interlocks and laser enable (R183, R184), the push-button, reset input, keys and consumable ports (R185 to
R188), the ILK window (R190).
-/
namespace Sys2Proof.Machine

/-- Bits raised in ILK_EVGRP (R190): 0 key, 1 short press, 2 consumable, 3 loop open, 4 ID read done. -/
def State.ilkEvent (s : State) (m : Nat) : State := s.raiseEv (s.fld F.ILK_EVGRP_HANDLE) m

/-- One bit of a field that holds one bit per unit. -/
def State.putBitOf (s : State) (f : Fld) (i : Nat) (b : Bool) : State := s.setFld f (putBit (s.fld f) i b)

/-! ### Interlocks -/

/-- The field of a channel's LOOP bits. -/
def loopFld (chB : Bool) : Fld := if chB then F.ILK_STATUS_LOOPB else F.ILK_STATUS_LOOPA

/-- What follows from the levels of a station's two channels (R183, R184). -/
def State.loopFollow (s : State) (i : Nat) : State :=
  let a := bit (s.fld F.ILK_STATUS_LOOPA) i
  let b := bit (s.fld F.ILK_STATUS_LOOPB) i
  s.modIlk i (fun l => { l with
    closedSince := if a && b then some s.now else none
    mismatchSince := if a != b then some s.now else none
    bothOpenSeen := l.bothOpenSeen || (!a && !b) })

/-- ILK_OPEN (R183): a channel has been open for `openNs`. Less than 250 ns is ignored; a qualified opening disarms the station, sets FS(160+s), spoils with cause 0x04
and raises bit 3. -/
def effIlkOpen (i : Nat) (chB : Bool) (openNs : Nat) (s : State) : State :=
  if s.hasStn i = false ∨ bit (s.fld (loopFld chB)) i = false ∨ openNs < 250 then s
  else
    let t := ((s.putBitOf (loopFld chB) i false).loopFollow i).modIlk i (fun l => { l with armed := false })
    ((((t.putBitOf F.ILK_STATUS_ARMABLE i false).laserUpdate i).raise (160 + i)).spoilStation i 4).ilkEvent 8

/-- INTERLOCK_CLOSE: a channel closes. -/
def effInterlockClose (i : Nat) (chB : Bool) (s : State) : State :=
  if s.hasStn i = false ∨ bit (s.fld (loopFld chB)) i = true then s
  else (s.putBitOf (loopFld chB) i true).loopFollow i

/-- ILK_ARMABLE: both channels have been closed for 200 ms, and DISCREP is 0. -/
def effIlkArmable (i : Nat) (s : State) : State :=
  match (vget s.ilk i).closedSince with
  | some t =>
    if s.hasStn i && decide (t + 200000000 ≤ s.now) && !bit (s.fld F.ILK_STATUS_DISCREP) i then
      s.putBitOf F.ILK_STATUS_ARMABLE i true
    else s
  | none => s

/-- ILK_DISCREP (R184): the channels have differed for more than 50 ms. -/
def effIlkDiscrep (i : Nat) (s : State) : State :=
  match (vget s.ilk i).mismatchSince with
  | some t =>
    if s.hasStn i && decide (t + 50000000 < s.now) then
      (((s.putBitOf F.ILK_STATUS_DISCREP i true).putBitOf F.ILK_STATUS_ARMABLE i false).modIlk i
        (fun l => { l with mismatchSince := none, bothOpenSeen := false })).raise (164 + i)
    else s
  | none => s

/-- A write of ILK_ARM (R183, R190, R412, R421): arming is refused unless ARMABLE, in a drydown and under TSD_LOCK. -/
def effIlkArm (v : Word) (s : State) : State :=
  if F.ILK_ARM_KEY.of v ≠ 0x5A then s
  else
    let s1 := s.each (setBitsOf 4 (F.ILK_ARM_ARM.of v)) (fun t i =>
      if t.hasStn i && bit (t.fld F.ILK_STATUS_ARMABLE) i && !t.drying && !t.flag F.THM_TSD_TSD_LOCK then
        (t.modIlk i (fun l => { l with armed := true })).laserUpdate i
      else t)
    s1.each (setBitsOf 4 (F.ILK_ARM_DISARM.of v)) (fun t i =>
      if t.hasStn i then (t.modIlk i (fun l => { l with armed := false })).laserUpdate i else t)

/-- A write of ILK_STATUS: DISCREP is cleared only once both channels have been open together (R184). -/
def State.clearDiscrep (s : State) (v : Word) : State :=
  s.each (setBitsOf 4 (F.ILK_STATUS_DISCREP.of v)) (fun t i =>
    if (vget t.ilk i).bothOpenSeen then t.putBitOf F.ILK_STATUS_DISCREP i false else t)

/-! ### Push-button and reset (R185, R186) -/

/-- PBTN_PRESS: PBTN_N has been low for `lowNs`; it is qualified 20 ms after the falling edge. An off device powers up; a
press in a drydown or its hold-off is kept (R413). -/
def effPbtnPress (lowNs : Nat) (s : State) : State :=
  if s.panel.pressAt.isSome ∨ lowNs < 20000000 then s
  else
    let off := s.pwr.phase == .off && s.vinGood
    let s1 := if off then s.powerUp
      else if s.pwr.phase.dryRuns || s.pwr.phase == .holdoff then s.modPwr (fun p => { p with pressKept := true })
      else s
    { s1.setFlag F.ILK_PANEL_PBTN with
      panel := { s1.panel with pressAt := some (s1.now - lowNs), longDone := false, quiet := off } }

/-- PBTN_LONG: held for 8 s. -/
def effPbtnLong (s : State) : State :=
  match s.panel.pressAt with
  | some t =>
    if t + 8000000000 ≤ s.now ∧ s.panel.longDone = false then
      ({ s.setFlag F.ILK_PANEL_LONG with panel := { s.panel with longDone := true } }.raise 168).drydown 3
    else s
  | none => s

/-- PBTN_SHORT: the release; SHORT and bit 1 unless the press powered the device up or was long. A release 8 s or more
after the falling edge finds the forced drydown begun. -/
def effPbtnShort (s : State) : State :=
  if s.panel.pressAt.isNone then s
  else
    let s0 := effPbtnLong s
    let s1 : State := { s0.clrFlag F.ILK_PANEL_PBTN with panel := { s0.panel with pressAt := none } }
    if s0.panel.longDone || s0.panel.quiet then s1 else (s1.setFlag F.ILK_PANEL_SHORT).ilkEvent 2

/-- MRST: MRST_N has been low for `lowNs`; a pulse below 1 ms is ignored (R186). -/
def effMrst (lowNs : Nat) (s : State) : State := if lowNs < 1000000 then s else s.drydown 4

/-! ### Keys and consumables (R187, R188) -/

/-- KEY_CHANGE: the keys, set where pressed, have held for `heldNs`; KEY_DEB ms debounce them (R187). -/
def effKeyChange (keys heldNs : Nat) (s : State) : State :=
  if keys % 256 = s.fld F.ILK_PANEL_KEYS ∨ heldNs < s.fld F.ILK_CFG_KEY_DEB * 1000000 then s
  else (s.setFld F.ILK_PANEL_KEYS keys).ilkEvent 1

/-- The read in progress ends with a status: FS169 for 1, 2, 4 and 5; bit 4. -/
def State.cnsEnd (s : State) (status : Nat) : State :=
  ((({ s with panel := { s.panel with cns := none } }.clrFlag F.ILK_CNS_RES_BUSY).setFld F.ILK_CNS_RES_STATUS
    status).raiseIf (status == 1 || status == 2 || status == 4 || status == 5) 169).ilkEvent 16

/-- The buffer is undefined: free values. -/
def State.cnsLost (s : State) : State :=
  s.each (List.range 64) (fun t k => (t.setReg (R.ILK_CNS_BUF k) t.freeWord).tookFree)

/-- Bytes stored in ILK_CNS_BUF from its start; the rest of the buffer stays. -/
def State.cnsStore (s : State) (l : List Byte) : State :=
  s.each (List.range l.length) (fun t k =>
    t.setReg (R.ILK_CNS_BUF (k / 4)) (BitVec.ofNat 32
      (setBits (t.reg (R.ILK_CNS_BUF (k / 4))).toNat (8 * (k % 4)) 8 (l.getD k 0).toNat)))

/-- CNS_PRESENCE_CHANGE: the presence input has held for `heldNs`, 50 ms or more. A read of a removed consumable ends with status 3 and an undefined buffer. -/
def effCnsPresenceChange (k : Nat) (present : Bool) (heldNs : Nat) (s : State) : State :=
  if bit (s.fld F.ILK_CNS_STATUS_PRESENT) k = present ∨ heldNs < 50000000 then s
  else
    let t := (((s.putBitOf F.ILK_CNS_STATUS_PRESENT k present).putBitOf F.ILK_CNS_STATUS_CHANGED k true)).ilkEvent 4
    match s.panel.cns with
    | some r => if r.port = k ∧ present = false then t.cnsLost.cnsEnd 3 else t
    | none => t

/-- The bytes that the PX sends to the tag (R188): READ_TID, or READ_MEM with ADDR and LEN − 1. -/
def CnsRead.sends (r : CnsRead) : List Byte :=
  if r.idOnly then [0x5C#8] else [0x6A#8, BitVec.ofNat 8 r.addr, BitVec.ofNat 8 (r.len - 1)]

/-- Bits of bytes sent most significant bit first (R188). -/
def msbFirst (l : List Byte) : List Bool := l.flatMap (fun b => (List.range 8).map (fun k => b.getLsbD (7 - k)))

/-- A write of ILK_CNS_CMD: GO starts a read unless one runs. -/
def effCnsRead (v : Word) (s : State) : State :=
  if F.ILK_CNS_CMD_GO.of v = 0 ∨ s.flag F.ILK_CNS_RES_BUSY = true then s
  else
    { (s.setFlag F.ILK_CNS_RES_BUSY).setFld F.ILK_CNS_RES_PORT (F.ILK_CNS_CMD_PORT.of v) with
      panel := { s.panel with cns := some ⟨F.ILK_CNS_CMD_PORT.of v, F.ILK_CNS_CMD_IDONLY.of v == 1,
        F.ILK_CNS_CMD_ADDR.of v, F.ILK_CNS_CMD_LEN.of v + 1⟩, cnsOut := [] } }

/-- CNS_READ_DONE: what the tag answered: acknowledge, line stuck low, its identity (byte 0 lowest), the memory bytes
and their check. Once the tag has acknowledged, the command has gone out. A byte the tag did not send reads as released
line, 0xFF. -/
def effCnsReadDone (ack stuck : Bool) (tid : BitVec 64) (data : List Byte) (check : Nat) (s : State) : State :=
  match s.panel.cns with
  | none => s
  | some r =>
    let id := leBytes 8 tid.toNat
    if stuck then s.cnsEnd 4
    else if ack = false then s.cnsEnd 1
    else
      let s : State := { s with panel := { s.panel with cnsOut := msbFirst r.sends } }
      if crc16 (id.take 6) ≠ (id.getD 6 0).toNat * 256 + (id.getD 7 0).toNat then s.cnsEnd 2
      else
      let t := s.setReg64 R.ILK_CNS_TID_LO R.ILK_CNS_TID_HI tid.toNat
      let l := (List.range r.len).map (fun k => data.getD k 0xFF#8)
      if r.idOnly then t.cnsEnd 0
      else if crc16 (r.sends ++ l) ≠ check then t.cnsLost.cnsEnd 5
      else (t.cnsStore l).cnsEnd 0

/-- A write of the ILK window (R190). -/
def wrIlk (off : Nat) (v : Word) (s : State) : State :=
  match off with
  | 0x00 => s.clearDiscrep v
  | 0x04 => effIlkArm v s
  | 0x34 => effCnsRead v s
  | _ => s.plainWrite (0x2C0000 + off) v

end Sys2Proof.Machine
end

