-- ==== Sys2Proof/Machine/Objects.lean ====
section
/-!
DEFINITION. OPEN of every class (R89 to R92 and the class words of each chapter): the checks, the slot, the object made.
A parameter block is given by its words.
-/
namespace Sys2Proof.Machine

/-- A 64-bit field in words `k` and `k + 1`. -/
def word64 (w : List Nat) (k : Nat) : Nat := lget w k + lget w (k + 1) * 2 ^ 32

/-- Minimum length of a class's parameter block in words. -/
def classMin (c : Nat) : Nat := lget [0, 4, 5, 7, 7, 8, 23, 3, 5, 8, 17, 7, 6, 4, 4] c

/-- The handle names an open ring of a role. -/
def State.ringOf (s : State) (h role : Nat) : Bool :=
  match s.live h 0x04 with
  | some n => ringRole n == role
  | none => false

/-- The same, or 0 for none. -/
def State.ringOr0 (s : State) (h role : Nat) : Bool := h == 0 || s.ringOf h role

/-! ### What each class asks of its words: PARAM unless it holds -/

/-- R235. -/
def State.okDma (s : State) (w : List Nat) : Bool := s.ringOr0 (lget w 2) 2 && decide (lget w 3 < 4)

/-- R199. -/
def okCtx (w : List Nat) : Bool :=
  decide (lget w 2 < 4) && inRange 1 24576 (lget w 3) && decide (lget w 4 < 2 ^ 17)
    && (!bit (lget w 2) 1 || (inRange 256 65536 (lget w 4) && lget w 4 % 256 == 0))

/-- A stream names a ring that another stream already names. -/
def State.ringTaken (s : State) (h : Nat) : Bool := s.stq.streams.any (fun e => e.2.sq == h || e.2.cq == h)

/-- R267. -/
def State.okStream (s : State) (w : List Nat) : Bool :=
  let firm := bit (lget w 2) 0
  let sq := lget w 3
  let cq := lget w 4
  let ring (h : Nat) : Ring := ((s.live h 0x04).bind (Tab.get s.rings)).getD default
  decide (lget w 2 < 4) && s.flag F.STQ_LOCK_LOCK
    && s.ringOf sq (if firm then 2 else 0) && s.ringOf cq (if firm then 2 else 1) && sq != cq
    && decide ((ring sq).size ≤ 256) && !(ring cq).drop && !s.ringTaken sq && !s.ringTaken cq
    && (if firm then word64 w 5 == 0 else word64 w 5 % 64 == 0)

/-- R103. -/
def State.okRing (s : State) (w : List Nat) : Bool :=
  decide (lget w 2 < 8) && inRange 16 4096 (lget w 3) && popc 32 (lget w 3) == 1 && word64 w 4 % 64 == 0
    && s.inDram (word64 w 4) (64 * lget w 3) && decide (lget w 6 < 32)

/-- R99. -/
def okTimer (w : List Nat) : Bool :=
  (lget w 4 == 0 || decide (1000 ≤ lget w 4)) && decide (lget w 6 < 2 ^ 24) && lget w 6 % 4 == 0

/-- R370. -/
def State.okLoop (s : State) (w : List Nat) : Bool :=
  let kind := bits (lget w 2) 6 3
  decide (kind < 6) && (!bit (lget w 2) 9 || inRange 2 4 kind) && decide (lget w 2 < 2 ^ 14)
    && (kind != 1 || lget w 3 % 4 == 0) && decide (lget w 4 < 2 ^ 11) && (kind == 1 || lget w 4 == 0)
    && decide (1 ≤ bits (lget w 5) 0 16) && decide (lget w 7 < 2 ^ 21)
    && decide (sx 32 (lget w 10) ≤ sx 32 (lget w 11)) && decide (lget w 14 < 2 ^ 24) && lget w 14 % 4 == 0
    && decide (lget w 15 < 2 ^ 10) && inRange 2 15 (lget w 17 / 2 ^ 16) && decide (lget w 18 < 2 ^ 31)
    && word64 w 19 % 64 == 0 && (word64 w 19 == 0 || s.inDram (word64 w 19) 2048) && decide (lget w 21 < 2 ^ 29)

/-- R352. -/
def okAxis (w : List Nat) : Bool := decide (lget w 2 < 16)

/-- R329. -/
def okMotor (w : List Nat) : Bool :=
  let n := bits (lget w 2) 0 4
  let mode := bits (lget w 2) 4 2
  decide (lget w 2 < 2 ^ 12) && (mode == 0 || (mode == 1 && decide (n < 4)) || (mode == 2 && inRange 4 7 n))
    && decide (1 ≤ bits (lget w 2) 8 4) && inRange 1 65535 (lget w 3) && inRange 100 30000 (lget w 4)

/-- Smallest SLOTBYTES of a stream kind (R391). -/
def minSlot (kind : Nat) : Nat := lget [4096, 65536, 69632, 4096] kind

/-- R390. HOST and PLANES apply to DEFECT only. -/
def State.okCamera (s : State) (w : List Nat) : Bool :=
  let kind := bits (lget w 2) 2 2
  let host := kind == 0 && bit (lget w 2) 4
  decide (lget w 2 < 2 ^ 9) && (kind != 0 || bits (lget w 2) 5 4 != 0) && word64 w 3 % 4096 == 0
    && lget w 5 % 4096 == 0 && decide (minSlot kind ≤ lget w 5) && inRange 2 65535 (lget w 6)
    && (host || s.inDram (word64 w 3) (lget w 5 * lget w 6)) && s.ringOr0 (lget w 7) 2

/-- R214. -/
def State.okBand (s : State) (w : List Nat) : Bool :=
  decide (lget w 2 < 16) && inRange 512 65536 (lget w 3) && lget w 3 % 256 == 0 && word64 w 4 % 4096 == 0
    && s.inDram (word64 w 4) (12288 * lget w 3)

/-- R101. -/
def okGroup (w : List Nat) : Bool := lget w 1 == 0 && decide (lget w 2 < 2 ^ 24) && decide (lget w 3 < 24)

/-- R109. -/
def State.okMailbox (s : State) (w : List Nat) : Bool :=
  s.ringOf (lget w 2) 3 && decide (lget w 3 < 2 ^ 13) && bits (lget w 3) 5 3 == 0
    && decide (bits (lget w 3) 0 5 < 24) && decide (bits (lget w 3) 8 5 < 24)

/-- R97. -/
def State.okPage (s : State) (w : List Nat) : Bool :=
  (s.live (lget w 2) 0x0A).isSome && inRange 1 70866 (lget w 3) && word64 w 4 % 64 == 0
    && s.inDram (word64 w 4) (32 * bits (lget w 6) 0 16) && decide (1 ≤ bits (lget w 6) 0 16)
    && bits (lget w 6) 16 15 == 0

/-- The line rate, polygon and lead checks of R116 and R173 and the lace and band checks of R148 and R215 for one
station of a job with P passes, n facets and pixel clock `clk` in kHz. -/
def State.jobStnOk (s : State) (i p n clk band : Nat) : Bool :=
  let fp := s.fld (F.EXP_FACETPX_FACET_PX i)
  let sos := s.fld (F.EXP_SCAN_SOS i)
  let d : Int := 468 * clk - 64 * 1000000
  decide (6000 * fp * n ≤ 60 * clk * 1000) && decide (60 * clk * 1000 ≤ 30000 * fp * n)
    && decide (clk * 1000 * 128 ≤ 144000 * fp * p) && decide (clk * 8 ≤ sos * 1000)
    && decide (sos + 25624 + 2048 + max 1 (s.fld (F.EXP_SCAN_BD_WIN i)) ≤ fp)
    && decide (383 * max 0 d - 14500 * (clk : Int) ≤ sos * 1000000)
    && !s.flag (F.LAC_STATUS_CHK_BUSY i)
    && s.flag (if p = 1 then F.LAC_STATUS_OK1 i else if p = 2 then F.LAC_STATUS_OK2 i else F.LAC_STATUS_OK4 i)
    && (match s.live band 0x0C with
        | some k => k / 4 == i && decide (s.span i + 128 / p + 256 ≤ ((Tab.get s.bands k).getD default).lines)
        | none => false)

/-- R94, R116, R173, R148, R215, R427. That a station is absent is judged after everything else (R91); what R116, R148 and
R215 ask of a station's own registers is asked of the present ones. -/
def State.okJob (s : State) (w : List Nat) : Bool :=
  let stn := bits (lget w 3) 0 4
  let ref := (lowestBit 4 stn).getD 0
  let here := (setBitsOf 4 stn).filter s.hasStn
  let clk := (w.drop 5).take 4
  let fp (i : Nat) := s.fld (F.EXP_FACETPX_FACET_PX i)
  s.ringOf (lget w 2) 2 && stn != 0 && bits (lget w 3) 4 2 != 3 && decide (lget w 3 < 2 ^ 10)
    && bit stn (bits (lget w 3) 8 2) && decide (lget w 4 < 2 ^ 31) && decide (bits (lget w 4) 16 15 ≤ 24480)
    && lget w (9 + ref) == 0
    && (List.range 4).all (fun i => bit stn i || lget w (13 + i) == 0)
    && decide (lget w 17 ≤ 144000)
    && (setBitsOf 4 stn).all (fun i => inRange 20000 200000 (lget clk i) && (s.live (lget w (13 + i)) 0x0C).isSome)
    && here.all (fun i => lget clk i * fp ref == lget clk ref * fp i || !s.hasStn ref)
    && here.all (fun i => s.jobStnOk i (2 ^ bits (lget w 3) 4 2) (if bit (lget w 3) 6 then 10 else 8)
        (lget clk i) (lget w (13 + i)))
    && s.jobClocks (here.foldl (fun a i => a + 2 ^ i) 0) clk

/-- The class words are in order. -/
def State.wordsOk (s : State) (c : Nat) (w : List Nat) : Bool :=
  match c with
  | 0x01 => s.okDma w | 0x02 => okCtx w | 0x03 => s.okStream w | 0x04 => s.okRing w | 0x05 => okTimer w
  | 0x06 => s.okLoop w | 0x07 => okAxis w | 0x08 => okMotor w | 0x09 => s.okCamera w | 0x0A => s.okJob w
  | 0x0B => s.okPage w | 0x0C => s.okBand w | 0x0D => okGroup w | 0x0E => s.okMailbox w
  | _ => false

/-- The block is well formed (R91, R92). -/
def State.blockOk (s : State) (c : Nat) (w : List Nat) : Bool :=
  let evgrp := lget w 1
  decide (lget w 0 ≤ 32) && decide (max 2 (classMin c) ≤ lget w 0)
    && (c == 0x0D || evgrp == 0 || (s.live evgrp 0x0D).isSome) && s.wordsOk c w

/-! ### The unit named and the slot (R90, R91) -/

/-- Every unit the block names is present. -/
def State.unitsPresent (s : State) (c : Nat) (w : List Nat) : Bool :=
  match c with
  | 0x06 => (!inRange 2 4 (bits (lget w 2) 6 3) || s.hasCam (bits (lget w 3) 0 2))
      && (setBitsOf 4 (bits (lget w 2) 10 4)).all s.hasStn
  | 0x08 => s.hasMot (bits (lget w 2) 0 4)
  | 0x09 => s.hasCam (bits (lget w 2) 0 2)
  | 0x0A => (setBitsOf 4 (bits (lget w 3) 0 4)).all s.hasStn
  | 0x0C => s.hasStn (bits (lget w 2) 0 2)
  | 0x0E => s.hasCore (bits (lget w 3) 0 5) && s.hasCore (bits (lget w 3) 8 5)
  | _ => true

/-- INDEX of the unit a unit-bound class names. -/
def unitIdx (c : Nat) (w : List Nat) : Option Nat :=
  match c with
  | 0x06 => some (bits (lget w 2) 0 6)
  | 0x07 => some (bits (lget w 2) 0 4)
  | 0x08 => some (bits (lget w 2) 0 4)
  | 0x09 => some (4 * bits (lget w 2) 0 2 + bits (lget w 2) 2 2)
  | 0x0C => some (4 * bits (lget w 2) 0 2 + bits (lget w 2) 2 2)
  | _ => none

/-- The free list of a class, least recently freed first (R86). DESIGN CHOICE (log entry 99): slots that have never been
freed come first, in ascending order of INDEX. -/
def State.freeSlots (s : State) (c : Nat) : List Nat := Tab.getD s.freeList c (List.range (classCap c))

/-- Slots a pooled OPEN may take. -/
def slotFits (c : Nat) (w : List Nat) (i : Nat) : Bool :=
  match c with
  | 0x02 => bit (lget w 2) 0 == decide (i < 8)
  | 0x04 => ringRole i == bits (lget w 2) 0 2
  | _ => true

/-- A mailbox on the ring names another DEST (R109). -/
def State.destClash (s : State) (w : List Nat) : Bool :=
  s.mboxes.any (fun e => e.2.ring == lget w 2 && e.2.dest != bits (lget w 3) 0 5)

/-- The slot an OPEN takes. A ring is the lowest free one of its role; other pools take the least recently freed. -/
def State.slotFor (s : State) (c : Nat) (w : List Nat) : Except Ost Nat :=
  match unitIdx c w with
  | some i => if s.isOpen c i then .error .busy else if s.isWithdrawn c i then .error .exhausted else .ok i
  | none =>
    if c = 0x0E ∧ s.destClash w = true then .error .busy
    else
      let free := (if c = 0x04 then List.range 64 else s.freeSlots c).filter (fun i =>
        slotFits c w i && !s.isOpen c i && !s.isWithdrawn c i)
      match free with
      | [] => .error .exhausted
      | i :: _ => .ok i

/-! ### The object made -/

def mkJob (w : List Nat) : Job where
  cring := lget w 2
  stn := bits (lget w 3) 0 4
  passes := bits (lget w 3) 4 2
  facets := bits (lget w 3) 6 1
  waste := bit (lget w 3) 7
  wasteStn := bits (lget w 3) 8 2
  gap := bits (lget w 4) 0 16
  wasteCol := bits (lget w 4) 16 15
  pixclk := (w.drop 5).take 4
  offset := (w.drop 9).take 4
  band := (w.drop 13).take 4
  tgtRate := lget w 17
  state := .setup
  completed := 0
  ends := []

def mkPage (w : List Nat) : Page :=
  { (default : Page) with
    job := lget w 2, length := lget w 3, blist := word64 w 4, nblk := bits (lget w 6) 0 16
    state := if bit (lget w 6) 31 then .ready else .building }

def mkLoop (w : List Nat) : Loop :=
  { (default : Loop) with
    ikind := bits (lget w 2) 6 3, event := bit (lget w 2) 9, degStn := bits (lget w 2) 10 4
    isel := lget w 3, ifield := lget w 4, per := bits (lget w 5) 0 16, stale := bits (lget w 5) 16 16
    kp := sx 16 (lget w 6), ki := sx 16 (lget w 6 / 2 ^ 16), kd := sx 16 (lget w 7), shift := bits (lget w 7) 16 5
    ff0 := sx 32 (lget w 8), kff := sx 16 (lget w 9), omin := sx 32 (lget w 10), omax := sx 32 (lget w 11)
    oslew := lget w 12, slew := lget w 13, doff := lget w 14
    dlsb := bits (lget w 15) 0 5, dwidth := bits (lget w 15) 5 5 + 1, dbase := lget w 16
    oscWin := bits (lget w 17) 0 16, oscN := bits (lget w 17) 16 4, oscAmp := lget w 18
    taddr := word64 w 19, toff := bits (lget w 21) 0 24, tshift := bits (lget w 21) 24 5 }

/-- The class's own record of a new object. -/
def State.makeObj (s : State) (c i : Nat) (w : List Nat) : State :=
  match c with
  | 0x01 => { s with dmas := Tab.put s.dmas i { (default : DmaCh) with cring := lget w 2, prio := lget w 3, state := .idle } }
  | 0x02 => { s with actxs := Tab.put s.actxs i { (default : AtrCtx) with
      long := bit (lget w 2) 0, encode := bit (lget w 2) 1, linePx := lget w 3, blksz := lget w 4 } }
  | 0x03 => s.modStq (fun q => { q with
      streams := Tab.put q.streams i ⟨bit (lget w 2) 0, bit (lget w 2) 1 && !bit (lget w 2) 0, lget w 3, lget w 4, word64 w 5, 0⟩ })
  | 0x04 => { s.setReg (R.RNG_STAT i) 0 with
      rings := Tab.put s.rings i ⟨lget w 3, word64 w 4, bit (lget w 2) 2, lget w 6, 0, 0, false⟩ }
  | 0x05 => { s with
      timers := Tab.put s.timers i ⟨word64 w 2, lget w 4, lget w 5, lget w 6, lget w 7, 0, 0, decide (word64 w 2 < s.now), true⟩ }
  | 0x06 => { (s.setReg (R.LOP_SP i) (BitVec.ofNat 32 (lget w 22))) with loops := Tab.put s.loops i (mkLoop w) }
  | 0x08 => s.modMot i (fun m => { m with
      mode := bits (lget w 2) 4 2, hallSense := bit (lget w 2) 6, dir := bit (lget w 2) 7
      poles := bits (lget w 2) 8 4, accel := lget w 3, rpmMax := lget w 4 })
  | 0x09 => s.modCam (i / 4) (fun k => { k with
      streams := Tab.put k.streams (i % 4) ⟨bit (lget w 2) 4 && i % 4 == 0, bits (lget w 2) 5 4, word64 w 3, lget w 5, lget w 6, lget w 7⟩ })
  | 0x0A =>
    let j := mkJob w
    { s with jobs := Tab.put s.jobs i j }.each (setBitsOf 4 j.stn) (fun t k => t.modExp k (fun e => { e with lastN := j.n }))
  | 0x0B => { s with pages := Tab.put s.pages i (mkPage w) }
  | 0x0C => { s with bands := Tab.put s.bands i ⟨lget w 3, word64 w 4, (vget s.exp (i / 4)).line, 0⟩ }
  | 0x0D => { s with evgs := Tab.put s.evgs i ⟨0, lget w 2, lget w 3⟩ }
  | 0x0E => { s with mboxes := Tab.put s.mboxes i ⟨lget w 2, bits (lget w 3) 0 5, bits (lget w 3) 8 5, 0⟩ }
  | _ => s

/-- FREE has changed: LOW follows it down (R112). -/
def State.freeChanged (s : State) (c : Nat) : State :=
  s.setFld (F.OBJ_FREE_LOW (c - 1)) (min (s.fld (F.OBJ_FREE_LOW (c - 1))) (s.freeCount c))

/-- OPEN succeeds: the object is made in slot `i` for a core. -/
def State.openAt (s : State) (owner c i : Nat) (w : List Nat) : State :=
  let s1 : State := { s with
    objs := Tab.put s.objs (okey c i) ⟨s.genOf c i, owner, s.now, if c = 0x0D then 0 else lget w 1⟩
    freeList := if (unitIdx c w).isSome || c == 0x04 then s.freeList
      else Tab.put s.freeList c ((s.freeSlots c).filter (· != i)) }
  (s1.makeObj c i w).freeChanged c

/-- OPEN by a core (R91): the handle, or the status it fails with. -/
def State.openObj (s : State) (owner cls : Nat) (w : List Nat) : State × Except Ost Nat :=
  if 64 ≤ cls ∨ classCap cls = 0 then (s, .error .cls)
  else if s.blockOk cls w = false then (s, .error .param)
  else if s.unitsPresent cls w = false then (s.raise 5, .error .absent)
  else match s.slotFor cls w with
    | .error .exhausted => ((s.raise 81).setFlag F.OBJ_STATUS_EXH_SEEN, .error .exhausted)
    | .error e => (s, .error e)
    | .ok i => (s.openAt owner cls i w, .ok (mkHandle cls (s.genOf cls i) i))

end Sys2Proof.Machine
end

