-- ==== Sys2Proof/Machine/ObjOps.lean ====
section
/-!
DEFINITION. CLOSE and QUERY, ring pushes and pops, doorbells, drains and table errors (R85 to R114).
-/
namespace Sys2Proof.Machine

/-! ### CLOSE (R84, R86, R89) -/

/-- Another open object names the ring. -/
def State.ringNamed (s : State) (h : Nat) : Bool :=
  s.jobs.any (fun e => e.2.cring == h) || s.dmas.any (fun e => e.2.cring == h) || s.ringTaken h
    || (List.range 4).any (fun c => (vget s.cams c).streams.any (fun e => e.2.ring == h))
    || s.mboxes.any (fun e => e.2.ring == h)

/-- The object's state forbids CLOSE. -/
def State.closeBusy (s : State) (c i : Nat) : Bool :=
  match c with
  | 0x01 => (match Tab.get s.dmas i with | some d => d.state == .running || d.state == .disabling | none => false)
  | 0x02 => (match Tab.get s.actxs i with | some x => x.active.isSome | none => false)
      || s.ctxInUse (s.handleOf 0x02 i)
  | 0x03 => decide (0 < s.streamOut i)
  | 0x04 => s.ringNamed (s.handleOf 0x04 i)
  | 0x06 => (match Tab.get s.loops i with | some l => l.state != .stopped | none => false)
  | 0x07 => (s.axis i).state.busy
  | 0x08 => (match (vget s.mots i).state with | .align | .ramp | .run | .brake => true | _ => false)
  | 0x09 => (vget s.cams (i / 4)).frame.isSome
  | 0x0A => (match Tab.get s.jobs i with | some j => j.state != .setup | none => false)
      || s.pages.any (fun e => e.2.job == s.handleOf 0x0A i)
  | 0x0B => (match Tab.get s.pages i with
      | some p => p.state == .queued || p.state == .admitted || p.state == .printing | none => false)
  | 0x0C => s.jobs.any (fun e => e.2.active && e.2.band.contains (s.handleOf 0x0C i))
  | 0x0D => s.objs.any (fun e => e.2.evgrp == s.handleOf 0x0D i)
  | _ => false

/-- Entries that wait for a ring are given up, as for a ring that is not usable (R107). -/
def State.dropStalled (s : State) (n : Nat) : State :=
  let mine := s.stalled.filter (fun e => e.ring == n)
  ({ s with stalled := s.stalled.filter (fun e => e.ring != n) }).each mine (fun t e =>
    match e.producer with
    | .disk d => t.setFlag (F.DSK_STATUS_Q_ERR d)
    | _ => t)

/-- What the class keeps of an object goes. -/
def State.dropObj (s : State) (c i : Nat) : State :=
  match c with
  | 0x01 => { s with dmas := Tab.del s.dmas i }
  | 0x02 => { s with actxs := Tab.del s.actxs i }
  | 0x03 => s.modStq (fun q => { q with streams := Tab.del q.streams i, cmds := q.cmds.filter (fun k => k.stream != i) })
  | 0x04 => ({ (s.dropStalled i).setReg (R.RNG_STAT i) 0 with rings := Tab.del s.rings i })
  | 0x05 => { s with timers := Tab.del s.timers i }
  | 0x06 => { s with loops := Tab.del s.loops i }
  | 0x07 => s.modAxis i (fun x => { x with
      state := .off, vMilli := 0, halt := false, resume := none, drydown := false, driven := false, ampU := 0 })
  | 0x09 => s.modCam (i / 4) (fun k => { k with streams := Tab.del k.streams (i % 4) })
  | 0x0A => { s with jobs := Tab.del s.jobs i }
  | 0x0B =>
    let h := s.handleOf 0x0B i
    { s with
      pages := Tab.del s.pages i, admitQ := s.admitQ.filter (· != i), fills := s.fills.filter (fun f => f.page != i)
      dsk := s.dsk.map (fun d => { d with reqs := d.reqs.filter (fun q =>
        !(q.page == h && q.op == 0 && q.status == some 0)) }) }
  | 0x0C => { s with bands := Tab.del s.bands i }
  | 0x0D => { s with evgs := Tab.del s.evgs i }
  | 0x0E => { s with mboxes := Tab.del s.mboxes i }
  | _ => s

/-- The slot is freed: its generation advances and it joins the end of the free list (R84, R86). -/
def State.freeSlot (s : State) (c i : Nat) : State :=
  { s with
    objs := Tab.del s.objs (okey c i)
    gens := Tab.setD s.gens (okey c i) (s.genOf c i % 1023 + 1) 1
    freeList := if c = 0x04 ∨ (unitIdx c []).isSome then s.freeList
      else Tab.put s.freeList c ((s.freeSlots c).filter (· != i) ++ [i]) }

/-- A handle check of an instruction: STALE is remembered in STALE_SEEN (R112). -/
def State.seen (s : State) (e : Ost) : State := if e = .stale then s.setFlag F.OBJ_STATUS_STALE_SEEN else s

/-- CLOSE (R85, R89). -/
def State.closeObj (s : State) (h : Nat) : State × Ost :=
  match s.checkHandle h (fun _ => true) with
  | .error e => (s.seen e, e)
  | .ok i =>
    if s.closeBusy (hClass h) i then (s, .busy)
    else ((s.dropObj (hClass h) i).freeSlot (hClass h) i, .ok)

/-! ### QUERY (R93) -/

/-- Length of a class's query block in words. -/
def queryLen (c : Nat) : Nat := lget [0, 10, 8, 6, 8, 7, 4, 7, 7, 4, 7, 24, 8, 6, 7] c

/-- STATE of a query block. -/
def State.queryState (s : State) (c i : Nat) : Nat :=
  match c with
  | 0x01 => (match Tab.get s.dmas i with
      | some d => (match d.state with | .idle => 0 | .running => 1 | .stopped => 2 | .halted => 3 | .disabling => 4)
      | none => 0)
  | 0x02 => (match Tab.get s.actxs i with
      | some x => if x.active.isSome then 2 else if x.openS then 1 else 0
      | none => 0)
  | 0x03 => b2n (decide (0 < s.streamOut i))
  | 0x05 => (match Tab.get s.timers i with | some t => b2n (!t.armed) | none => 0)
  | 0x06 => (match Tab.get s.loops i with
      | some l => (match l.state with | .stopped => 0 | .running => 1 | .frozen => 2 | .openloop => 3)
      | none => 0)
  | 0x07 => (s.axis i).state.code
  | 0x08 => (match (vget s.mots i).state with
      | .off => 0 | .align => 1 | .ramp => 2 | .run => 3 | .brake => 4 | .fault => 5)
  | 0x0A => (match Tab.get s.jobs i with
      | some j => (match j.state with | .setup => 0 | .running => 1 | .stopping => 2)
      | none => 0)
  | 0x0B => (match Tab.get s.pages i with
      | some p => (match p.state with
        | .building => 0 | .ready => 1 | .queued => 2 | .admitted => 3 | .printing => 4 | .done => 5)
      | none => 0)
  | _ => Config.stateCode c % 16

/-- The target line rate of a job (R94, R96, R115); the rounding of a fraction is open. -/
def State.jobTarget (s : State) (j : Job) : Nat :=
  if j.tgtRate ≠ 0 then j.tgtRate
  else
    let r := s.jobLineRate j
    if r.2 = 0 then 0 else r.1 / r.2 + (if r.1 % r.2 = 0 then 0 else Config.meanOpen r.1 r.2 % 2)

/-- Class words of a query block from word 4 (R96, R98, R100, R101, R108, R109, R199, R214, R235, R267, R329, R352). -/
def State.queryWord (s : State) (c i k : Nat) : Nat :=
  match c with
  | 0x01 => (match Tab.get s.dmas i with
      | some d => lget [d.code, d.doneB, d.cur, d.cur / 2 ^ 32, d.mism, d.descs] (k - 4)
      | none => 0)
  | 0x02 => (match Tab.get s.actxs i with
      | some x => lget [x.window.length, x.blocks, x.pos, x.pos / 2 ^ 32] (k - 4)
      | none => 0)
  | 0x03 => (match Tab.get s.stq.streams i with
      | some t => if k = 4 then s.streamOut i else t.completed
      | none => 0)
  | 0x04 => (match Tab.get s.rings i with
      | some r => lget [i, r.count, s.fld (F.RNG_STAT_DROPS i), b2n r.error] (k - 4)
      | none => 0)
  | 0x05 => (match Tab.get s.timers i with
      | some t => lget [t.expiries, t.skipped, b2n t.late] (k - 4)
      | none => 0)
  | 0x07 =>
    let x := s.axis i
    lget [ux 32 x.pos, ux 32 x.rem,
      b2n (s.flag (F.STP_STATUS_POS_UNSURE i)) + b2n (s.flag (F.STP_STATUS_VSAT i)) * 2 + x.k * 16] (k - 4)
  | 0x08 =>
    let m := vget s.mots i
    lget [m.speed, m.steps,
      b2n (s.flag (F.MOT_STATUS_VLIMIT i)) + b2n (s.flag (F.MOT_STATUS_ATSPEED i)) * 2
        + b2n (s.flag (F.MOT_STATUS_LOCKED i)) * 4 + b2n (s.flag (F.MOT_STATUS_STARTFAIL i)) * 8
        + b2n (inRange 4 7 i && s.flag (F.SRV_SPSTAT_RLOCK (i - 4))) * 16] (k - 4)
  | 0x0A => (match Tab.get s.jobs i with
      | some j => lget [(s.pages.filter (fun e => e.2.job == s.handleOf 0x0A i)).length, j.completed, s.jobTarget j] (k - 4)
      | none => 0)
  | 0x0B => (match Tab.get s.pages i with
      | some p =>
        if k = 4 then p.result + p.failMask * 2 ^ 8
        else if k = 5 ∨ k = 6 then
          (match p.state with
            | .admitted | .printing | .done => p.startLine / 2 ^ (32 * (k - 5)) % 2 ^ 32
            | _ => 0)
        else if 8 ≤ k ∧ p.state = .done then entLe (s.pageRecord i p) (4 * (k - 8)) 4
        else 0
      | none => 0)
  | 0x0C => (match Tab.get s.bands i with
      | some b =>
        let ahead := (sx 40 (b.fill + 2 ^ 40 - (vget s.exp (i / 4)).line)).toNat
        lget [b.fill, b.fill / 2 ^ 32, b.lines - ahead, capNat 0xFFFF b.failures] (k - 4)
      | none => 0)
  | 0x0D => (match Tab.get s.evgs i with | some g => g.pending | none => 0)
  | 0x0E => (match Tab.get s.mboxes i with
      | some m => lget [m.ring, m.dest + m.sender * 2 ^ 8, m.seq] (k - 4)
      | none => 0)
  | _ => 0

/-- QUERY (R93): the word, or the status it fails with. -/
def State.queryObj (s : State) (h k : Nat) : State × Except Ost Nat :=
  match s.checkHandle h (fun _ => true) with
  | .error e => (s.seen e, .error e)
  | .ok i =>
    let c := hClass h
    if queryLen c ≤ k then (s, .error .param)
    else
      match s.obj c i with
      | none => (s, .error .stale)
      | some o =>
        let v := if k = 0 then h else if k = 1 then s.queryState c i % 16 + o.owner * 2 ^ 4
          else if k = 2 then o.tOpen else if k = 3 then o.tOpen / 2 ^ 32 else s.queryWord c i k
        let s1 : State := if c = 0x0D ∧ k = 5 then { s with evgs := Tab.upd s.evgs i (fun g => { g with pending := 0 }) } else s
        (s1, .ok (v % 2 ^ 32))

/-! ### Rings by instruction (R74, R104, R107, R110) -/

/-- The ring an RPUSH or RPOP names, or the status. DESIGN CHOICE (log entry 100): of several statuses that apply, STALE
comes before the CLASS of a role that uses doorbells (R104), and that CLASS before the BUSY of ERROR (R107). -/
def State.instrRing (s : State) (h : Nat) : State × Except Ost (Nat × Ring) :=
  match s.checkHandle h (fun c => c == 0x04) with
  | .error e => (s.seen e, .error e)
  | .ok n =>
    match Tab.get s.rings n with
    | none => (s, .error .stale)
    | some r => if ringRole n < 2 then (s, .error .cls) else if r.error then (s, .error .busy) else (s, .ok (n, r))

/-- The mailbox by which a core sends on a ring (R110). -/
def State.mailboxOf (s : State) (ring core : Nat) : Option (Nat × Mailbox) :=
  s.mboxes.find? (fun e => e.2.ring == ring && e.2.sender == core)

/-- The header of a mailbox message (R110). -/
def State.mailHeader (s : State) (i : Nat) (m : Mailbox) : List Byte :=
  leBytes 4 (m.seq + i * 2 ^ 16 + m.sender * 2 ^ 24) ++ leBytes 4 0 ++ leBytes 8 s.now

/-- RPUSH of an entry by a core (R74, R104, R107, R110). -/
def State.pushBy (s : State) (core h : Nat) (entry : List Byte) : State × Ost :=
  match s.instrRing h with
  | (t, .error e) => (t, e)
  | (t, .ok (n, r)) =>
    if ringRole n = 3 then
      match t.mailboxOf h core with
      | none => (t, .busy)
      | some (i, m) =>
        if r.count = r.size then (t, .full)
        else
          let t1 := t.ringAppend n r (t.mailHeader i m ++ entry.drop 16)
          let t2 : State := { t1 with mboxes := Tab.upd t1.mboxes i (fun x => { x with seq := (x.seq + 1) % 2 ^ 16 }) }
          (t2.setEvp m.dest (2 ^ 30), .ok)
    else if r.count = r.size then (t, .full)
    else (t.ringAppend n r entry, .ok)

/-- RPOP by a core (R74, R104, R107): the entry, or the status. -/
def State.popBy (s : State) (h : Nat) : State × Except Ost (List Byte) :=
  match s.instrRing h with
  | (t, .error e) => (t, .error e)
  | (t, .ok (n, r)) =>
    match t.ringPop n r with
    | (u, .entry l) => (u, .ok l)
    | (u, .empty) => (u, .error .empty)
    | (u, .lost) => (u, .error .busy)

/-! ### Doorbells (R105) -/

/-- A doorbell write that is ignored. -/
def State.doorbellErr (s : State) (n : Nat) : State := (s.setFlag (F.RNG_STAT_DBERR n)).raise 82

/-- A producer doorbell (R105): entries published raise NEBIT as every push does (R103). -/
def effRingPdb (n : Nat) (v : Word) (s : State) : State :=
  match Tab.get s.rings n with
  | none => s.doorbellErr n
  | some r =>
    if ringRole n ≠ 0 ∨ r.error = true ∨ r.size - r.count < (v.toNat + 2 ^ 32 - r.prod) % 2 ^ 32 then s.doorbellErr n
    else
      let t : State := { s with rings := Tab.put s.rings n { r with prod := v.toNat } }
      if v.toNat = r.prod then t else t.notify 0x04 n (2 ^ r.nebit)

/-- A consumer doorbell (R105). -/
def effRingCdb (n : Nat) (v : Word) (s : State) : State :=
  match Tab.get s.rings n with
  | none => s.doorbellErr n
  | some r =>
    if ringRole n ≠ 1 ∨ r.error = true ∨ r.count < (v.toNat + 2 ^ 32 - r.cons) % 2 ^ 32 then s.doorbellErr n
    else { s with rings := Tab.put s.rings n { r with cons := v.toNat } }

/-- A write to a register of the RNG window (R108): everything but doorbells is ignored while the ring is not open. -/
def wrRng (off : Nat) (v : Word) (s : State) : State :=
  let n := (off - 0x1000) / 0x20
  if off < 0x1000 ∨ 64 ≤ n then s
  else if off % 0x20 = 0x0C then effRingPdb n v s
  else if off % 0x20 = 0x10 then effRingCdb n v s
  else if s.isOpen 0x04 n then s.plainWrite (0x40000 + off) v
  else s

/-- The first entry held back by a full ring enters it (R106); completions of the storage queue that wait for room are
pushed too (R271). -/
def effStalledPushResume (n : Nat) (s : State) : State :=
  match s.stalled.find? (fun e => e.ring == n), Tab.get s.rings n with
  | some e, some r =>
    if r.error then s.dropStalled n
    else if r.count < r.size then
      let t := ({ s with stalled := s.stalled.erase e }).ringAppend n r e.entry
      if e.producer = .storage then t.pushCpls else t
    else s
  | none, _ => s.pushCpls
  | _, _ => s

/-! ### Draining a core (R111) -/

/-- A write of OBJ_DRAIN. -/
def effDrain (v : Word) (s : State) : State :=
  let src := F.OBJ_DRAIN_SRC.of v
  let dst := F.OBJ_DRAIN_DST.of v
  if F.OBJ_DRAIN_GO.of v = 0 then s
  else if s.hasCore src = false ∨ s.hasCore dst = false ∨ src = dst ∨ s.flag (F.CRS_CTRL_RUN src) = true
      ∨ servoCore src ≠ servoCore dst ∨ s.drain.isSome = true then s.setFlag F.OBJ_DRAIN_STATUS_REFUSED
  else { s with drain := some (src, dst) }

/-- A core number after a move of duties. -/
def movedTo (src dst n : Nat) : Nat := if n = src then dst else n

/-- EVP bits that a drain moves. -/
def drainBits : Nat := 2 ^ 24 - 1 + 2 ^ 30

/-- The drain completes: every owner, route and mailbox moves. -/
def effDrainDone (s : State) : State :=
  match s.drain with
  | none => s
  | some (src, dst) =>
    let moved := (s.objs.filter (fun e => e.2.owner == src)).length
    let evp := (s.core src).evp &&& drainBits
    let s1 : State := { s with
      drain := none
      objs := s.objs.map (fun e => (e.1, { e.2 with owner := movedTo src dst e.2.owner }))
      evgs := s.evgs.map (fun e => (e.1, { e.2 with
        cores := if bit e.2.cores src then setBit (clrBit e.2.cores src) dst else e.2.cores }))
      mboxes := s.mboxes.map (fun e => (e.1, { e.2 with
        dest := movedTo src dst e.2.dest, sender := movedTo src dst e.2.sender })) }
    let s2 := (s1.modCore src (fun c => { c with evp := c.evp - (c.evp &&& drainBits) })).setEvp dst evp
    (s2.setFlag F.OBJ_DRAIN_STATUS_DONE).setFld F.OBJ_DRAIN_STATUS_MOVED moved

/-! ### Errors of the object table (R113) -/

/-- The unit of an object whose table entry is lost stops. -/
def State.stopUnit (s : State) (c i : Nat) : State :=
  match c with
  | 0x08 => s.motOff i
  | _ => s

/-- An uncorrectable error in an entry: the slot is withdrawn until power-on reset. -/
def effObjTableEcc (c i : Nat) (s : State) : State :=
  if classCap c ≤ i ∨ s.isWithdrawn c i = true then s
  else
    let s1 := (s.setFlag F.OBJ_STATUS_TBL_ECC).raise 80
    let s2 := if s1.isOpen c i then ((s1.stopUnit c i).dropObj c i) else s1
    ({ s2 with
      objs := Tab.del s2.objs (okey c i)
      withdrawn := okey c i :: s2.withdrawn }).freeChanged c

/-- A write to a register of the OBJ window (R112). -/
def wrObj (off : Nat) (v : Word) (s : State) : State :=
  if off = 0x20 then effPageReady v.toNat s
  else if off = 0x24 then effJobStart v.toNat s
  else if off = 0x28 then effJobStop v.toNat s
  else if off = 0x30 then effDrain v s
  else s.plainWrite (0x30000 + off) v

end Sys2Proof.Machine
end

