-- ==== Sys2Proof/Machine/T1.lean ====
section
/-!
DEFINITION. Events sent by firmware (R261), the Talosh 1 port (R262 to R264) and the TAL window (R278).
-/
namespace Sys2Proof.Machine

/-- A write of TAL_EVT_TX (R261). -/
def effEvtTx (v : Word) (s : State) : State :=
  let code := F.TAL_EVT_TX_CODE.of v
  if code < 0x8000 then s.setFlag F.TAL_STATUS_CMD_REJ else s.sendEvt code (s.reg R.TAL_EVT_ARG).toNat

/-! ### Capture (R262 to R264) -/

def State.t1Words (s : State) : Nat := s.fld F.TAL_T1_CFG_WORDS
def State.t1Slots (s : State) : Nat := s.fld F.TAL_T1_SLOTS_SLOTS

/-- Slots free. -/
def State.t1Free (s : State) : Nat := s.t1Slots - s.t1.used

/-- T1_RDY (R264). -/
def State.t1Rdy (s : State) : Bool := decide (2 ≤ s.t1Free)

/-- Bytes of a line: the words received, the missing pixels 0. -/
def t1Line (n : Nat) (words : List (BitVec 16)) : List Byte :=
  ((List.range n).map (fun i => leBytes 2 ((words.getD i 0).toNat))).flatten

/-- The line in progress is complete: written to its slot, recorded, its record pushed (R263). -/
def State.t1Finish (s : State) (words : List (BitVec 16)) : State :=
  let n := s.t1Words
  let short := decide (words.length < n)
  let base := s.addr40 R.TAL_T1_BUF_LO R.TAL_T1_BUF_HI
  let s1 := (s.memWrite reqTalosh (base + 2 * n * s.t1.slot) (t1Line n words)).1
  let s2 := if short then (s1.setFlag F.TAL_T1_STATUS_SHORT).raise 222 else s1
  let rec_ := entryOf 64 [(0x00, 4, s.t1.lines), (0x04, 4, s.t1.slot + b2n s.t1.page * 2 ^ 16 + b2n short * 2 ^ 17),
    (0x08, 8, s.t1.tLsync)]
  let s3 := (s2.hwPush .t1 false (s2.reg R.TAL_T1_RING).toNat 2 rec_).1
  { s3 with t1 := { s3.t1 with lineOpen := false, lines := (s3.t1.lines + 1) % 2 ^ 32 } }

/-- T1_LSYNC_N is low at an edge of T1_CLK: a line begins, ending one that is still short, of which the words `got` have
been received (R262, R264). -/
def effT1LineStart (psync : Bool) (got : List (BitVec 16)) (s : State) : State :=
  if s.flag F.TAL_T1_CFG_EN = false then s
  else
    let s1 := if s.t1.lineOpen then s.t1Finish (got.take (s.t1Words - 1)) else s
    if s1.t1Free = 0 then
      ({ s1 with t1 := { s1.t1 with drops := capNat 0xFFFF (s1.t1.drops + 1) } }.setFlag F.TAL_T1_STATUS_OVR).raise 221
    else
      { s1 with t1 := { s1.t1 with
        lineOpen := true, page := psync, tLsync := s1.now, slot := s1.t1.nextSlot
        nextSlot := (s1.t1.nextSlot + 1) % s1.t1Slots, used := s1.t1.used + 1 } }

/-- The line's last word, or the end of a short line. -/
def effT1LineComplete (words : List (BitVec 16)) (s : State) : State :=
  if s.t1.lineOpen then s.t1Finish (words.take s.t1Words) else s

/-- A write of TAL_T1_REL. -/
def effT1Rel (v : Word) (s : State) : State :=
  { s with t1 := { s.t1 with used := s.t1.used - F.TAL_T1_REL_REL.of v } }

/-- A write of TAL_T1_CFG: WORDS counts only while EN = 0; EN going to 1 starts the capture afresh. -/
def effT1Cfg (v : Word) (s : State) : State :=
  let en := F.TAL_T1_CFG_EN.of v == 1
  if s.flag F.TAL_T1_CFG_EN then
    let s1 := s.putFlag F.TAL_T1_CFG_EN en
    if en then s1 else { s1 with t1 := { s1.t1 with lineOpen := false } }
  else if inRange 1 6144 (F.TAL_T1_CFG_WORDS.of v) = false then s
  else
    let s1 := s.plainWrite R.TAL_T1_CFG v
    if en then { s1 with t1 := { (default : T1St) with drops := s1.t1.drops } } else s1

/-- A write to a register of the TAL window (R278). -/
def wrTal (off : Nat) (v : Word) (s : State) : State :=
  let k := 0x380000 + off
  if off = 0x00 ∨ off = 0x20 then effTalCtrl (off / 0x20) v s
  else if off = 0x44 then effEvtTx v s
  else if off = 0x80 then effT1Cfg v s
  else if off = 0x84 ∨ off = 0x88 ∨ off = 0x8C ∨ off = 0x90 then
    (if s.flag F.TAL_T1_CFG_EN then s else s.plainWrite k v)
  else if off = 0x94 then effT1Rel v s
  else s.plainWrite k v

end Sys2Proof.Machine
end

