-- ==== Sys2Proof/Machine/Snapshot.lean ====
section
/-!
DEFINITION. The snapshot rule (R37 to R42): which register bits are snapshot fields, their live values, and a
snapshot from request to completion.
-/
namespace Sys2Proof.Machine

/-! ### Live values -/

/-- MOTn_STATUS.STATE (R329). -/
def MotState.code : MotState → Nat
  | .off => 0 | .align => 1 | .ramp => 2 | .run => 3 | .brake => 4 | .fault => 5

/-- Snapshot bits of a station's EXP, LAC and ELK registers: register, mask, live value (R141, R168, R189). -/
def State.snapStn (s : State) (i : Nat) : List (Nat × Nat × Nat) :=
  let e := vget s.exp i
  let c := (vget s.lac i).cutl
  [(R.EXP_LINE_LO i, 0xFFFFFFFF, e.line), (R.EXP_LINE_HI i, 0xFF, e.line / 2 ^ 32),
   (R.EXP_FACETCNT i, 0xFFFFFFFF, e.facets), (R.EXP_BDT_LO i, 0xFFFFFFFF, e.bdt), (R.EXP_BDT_HI i, 0xFFFFFFFF, e.bdt / 2 ^ 32),
   (R.EXP_BDPH i, 0x7F1FFF, e.fine % 8192 + e.ph % 64 * 2 ^ 16 + b2n e.carry * 2 ^ 22),
   (R.EXP_FPER i, 0xFFFFFFFF, e.fper), (R.EXP_SWAPL_LO i, 0xFFFFFFFF, e.swapl), (R.EXP_SWAPL_HI i, 0xFF, e.swapl / 2 ^ 32),
   (R.LAC_CUTL_LO i, 0xFFFFFFFF, c), (R.LAC_CUTL_HI i, 0xFF, c / 2 ^ 32)]

/-- Of a disk channel (R308). -/
def State.snapDsk (s : State) (d : Nat) : List (Nat × Nat × Nat) :=
  let k := vget s.dsk d
  [(R.DSK_RDOK d, 0xFFFFFFFF, k.rdok), (R.DSK_RDRETRY d, 0xFFFFFFFF, k.rdretry), (R.DSK_RDFAIL d, 0xFFFFFFFF, k.rdfail),
   (R.DSK_WRCNT d, 0xFFFFFFFF, k.wrcnt)]

/-- Of a camera (R399). -/
def State.snapCam (s : State) (c : Nat) : List (Nat × Nat × Nat) :=
  let k := vget s.cams c
  [(R.CAM_FRAME c, 0xFFFFFFFF, k.frames),
   (R.CAM_ERR c, 0xFFFFFFFF, k.hdrErr % 256 + k.crcErr % 256 * 2 ^ 8 + k.dtErr % 256 * 2 ^ 16 + k.lenErr % 256 * 2 ^ 24),
   (R.CAM_DROP c, 0xFFFFFFFF, k.vc3 % 65536 + k.noFrame % 65536 * 2 ^ 16)]

/-- Of motors and axes (R335, R363). -/
def State.snapMotion (s : State) : List (Nat × Nat × Nat) :=
  ((List.range 16).map (fun n =>
    let m := vget s.mots n
    [(R.MOT_STATUS n, 0x7, m.state.code), (R.MOT_SPEED n, 0xFFFFFF, m.speed),
     (R.MOT_COMM n, 0x3F, m.step % 8 + m.hall % 8 * 8), (R.MOT_STEPS n, 0xFFFFFFFF, m.steps)])).flatten
  ++ ((List.range 16).map (fun n =>
    let x := s.axis n
    [(R.STP_STATUS n, 0x7F, x.state.code + x.k % 16 * 8), (R.STP_POS n, 0xFFFFFFFF, ux 32 x.pos),
     (R.STP_REM n, 0xFFFFFFFF, ux 32 x.rem), (R.STP_VEL n, 0xFFFFFFFF, ux 32 x.vel)])).flatten

/-- Of the rest of domain 24 (R397, R398, R430, R431). -/
def State.snapHouse (s : State) : List (Nat × Nat × Nat) :=
  (List.range 16).map (fun i => (R.LOP_AIN i, 0xFFFF, lget (s.ain.getD i []) 0))
  ++ [(R.WEB_RAW_LO, 0xFFFFFFFF, ux 48 s.web.raw), (R.WEB_RAW_HI, 0xFFFF, ux 48 s.web.raw / 2 ^ 32),
    (R.WEB_HW_LO, 0xFFFFFFFF, ux 48 s.web.hw), (R.WEB_HW_HI, 0xFFFF, ux 48 s.web.hw / 2 ^ 32),
    (R.WEB_SPEED, 0xFFFFFFFF, s.webSpeed), (R.PWR_VIN, 0xFFFF, s.pwr.vin), (R.THM_PEAK, 0x3FFF, s.thm.acc)]
  ++ (List.range 16).map (fun r => (R.PWR_RAIL r, 0xFFFF, (Tab.get s.pwr.rails r).getD 0))
  ++ (List.range 64).map (fun i =>
    let c := vget s.thm.chans i
    (R.THM_CH_VAL i, 0xFFFFFFFF, ux 16 c.eng + ux 16 c.slope * 2 ^ 16))

/-- The domain of a synthesizer's output 0 (R432, R37). DESIGN CHOICE (log entry 96): PL0 clocks domain 1, whose bit of
SYS_SNAP_REQ has no effect, so PHERR of PL0 is never captured and reads 0. -/
def phaseDomain (n : Nat) : Nat := if n = 0 then 1 else if n = 1 then 2 else if n = 2 then 7 else if n < 7 then n else if n < 15 then n + 1 else 24

/-- Phase errors captured in a domain: open values. -/
def State.snapPhase (s : State) (d : Nat) : List (Nat × Nat × Nat) :=
  ((List.range 16).filter (fun n => phaseDomain n == d)).map (fun n =>
    (R.CLK_PHERR n, 0xFFFF, (Config.freeWord (s.freeCtr + n)).toNat % 65536))

/-- The snapshot bits that a domain owns (R37). -/
def State.snapFields (s : State) (d : Nat) : List (Nat × Nat × Nat) :=
  s.snapPhase d ++
  (if d = 2 then [(R.MEM_SCRUB_POS_LO, 0xFFFFFFFF, s.memst.scrub), (R.MEM_SCRUB_POS_HI, 0xFF, s.memst.scrub / 2 ^ 32)]
  else if 3 ≤ d ∧ d ≤ 6 then s.snapStn (d - 3)
  else if d = 7 then (List.range 4).map (fun i => (R.ELK_CREDIT i, 0x1FFF, (vget s.elk i).credits))
  else if 8 ≤ d ∧ d ≤ 15 then s.snapDsk (d - 8)
  else if 16 ≤ d ∧ d ≤ 19 then s.snapCam (d - 16)
  else if d = 20 ∨ d = 21 then
    [(R.TAL_PORT_CNT (d - 20), 0xFFFFFF, (vget s.links (d - 20)).crcErr + (vget s.links (d - 20)).replayCnt * 2 ^ 12)]
  else if d = 22 then [(R.TAL_T1_STATUS, 0xFFFF0000, s.t1.drops * 2 ^ 16)]
  else if d = 24 then s.snapMotion ++ s.snapHouse
  else [])

/-! ### Capture (R39 to R41) -/

/-- A domain whose clock the machine knows to be stopped misses (R39). -/
def State.domainStopped (s : State) (d : Nat) : Bool :=
  if d = 2 then (vget s.plls 1).gated
  else if 3 ≤ d ∧ d ≤ 6 then !s.hasStn (d - 3) || (vget s.plls d).gated
  else if d = 7 then (vget s.plls 2).gated
  else if 8 ≤ d ∧ d ≤ 15 then !s.hasDch (d - 8) || (vget s.plls (d - 1)).gated
  else if 16 ≤ d ∧ d ≤ 19 then !s.hasCam (d - 16)
  else if d = 20 ∨ d = 21 then !s.linkUp (d - 20)
  else if d = 23 then !s.linkUp 2
  else false

/-- The domains of a mask, domain 1 left out. -/
def maskDomains (m : Nat) : List Nat := (setBitsOf 24 m).filterMap (fun b => if b = 0 then none else some (b + 1))

/-- A write of SYS_SNAP_REQ (R39, R41). -/
def effSnapReq (v : Word) (s : State) : State :=
  if s.snap.isSome then s.setFlag F.SYS_SNAP_STATUS_OVERRUN
  else
    let m := F.SYS_SNAP_REQ_DOMAINS.of v
    let l : List (Nat × Nat × Nat) := ((maskDomains m).map s.snapFields).flatten
    let q : Tab Nat := l.foldl (fun (t : Tab Nat) (e : Nat × Nat × Nat) => Tab.put t e.1 (e.2.2 &&& e.2.1)) []
    { s with
      snap := some ⟨m, s.now, q⟩
      freeCtr := s.freeCtr + 16 }.setReg64 R.SYS_SNAP_TIME_LO R.SYS_SNAP_TIME_HI s.now

/-- The copies of a domain are put in place. -/
def State.snapCopy (s : State) (q : Snap) (d : Nat) : State :=
  s.each (s.snapFields d) (fun t e =>
    let old := (t.reg e.1).toNat
    t.setReg e.1 (BitVec.ofNat 32 (old - (old &&& e.2.1) + ((Tab.get q.latched e.1).getD 0))))

/-- A snapshot ends: every named domain that did not miss has its copies, DONE is set, and EVP bit 29 in every core if
DONE was 0 (R39, R66). -/
def State.snapEnd (s : State) (q : Snap) (missed : Nat) : State :=
  let s1 := (s.each ((maskDomains q.domains).filter (fun d => !bit missed (d - 1))) (fun t d => t.snapCopy q d)).setFld
    F.SYS_SNAP_MISS_DOMAINS missed
  let s2 : State := { s1.setFlag F.SYS_SNAP_STATUS_DONE with snap := none }
  if s.flag F.SYS_SNAP_STATUS_DONE then s2
  else s2.each (List.range 24) (fun t n => if t.hasCore n then t.setEvp n (2 ^ 29) else t)

/-- Every named domain has been captured. -/
def effSnapshotDone (s : State) : State :=
  match s.snap with
  | none => s
  | some q => if (maskDomains q.domains).any s.domainStopped then s else s.snapEnd q 0

/-- 10 µs have passed: the domains that missed are listed, with TIMEOUT (R40). -/
def effSnapshotTimeout (missed : Nat) (s : State) : State :=
  match s.snap with
  | none => s
  | some q =>
    let gone := (maskDomains q.domains).filter (fun d => bit missed (d - 1) || s.domainStopped d)
    if gone = [] ∨ s.now < q.time + 10000 then s
    else (s.snapEnd q (gone.foldl (fun a d => a + 2 ^ (d - 1)) 0)).setFlag F.SYS_SNAP_STATUS_TIMEOUT

end Sys2Proof.Machine
end

