-- ==== Sys2Proof/Machine/RegSpace.lean ====
section
/-!
DEFINITION. Register space (R11 to R15, R46, R488): what a register reads as, the effects of a read (R12, R42, R43),
and the write of each window.
-/
namespace Sys2Proof.Machine

/-! ### Fields whose value stands in the unit's own state -/

/-- STATE of CRSn_STATUS (R81). -/
def RunState.code : RunState → Nat
  | .stopped => 0 | .running => 1 | .waiting _ _ => 2 | .atWait _ => 3 | .halted => 4

/-- Of a ring (R108): everything but ROLE reads its reset value while the ring is not open. -/
def State.readRing (s : State) (n off : Nat) : Nat × Nat :=
  match Tab.get s.rings n with
  | none => (0, 0)
  | some r =>
    match off with
    | 0x00 => (0x1CF, Nat.log2 r.size + b2n r.drop * 2 ^ 6 + 2 ^ 7 + b2n r.error * 2 ^ 8)
    | 0x04 => (0xFFFFFFFF, r.prod)
    | 0x08 => (0xFFFFFFFF, r.cons)
    | 0x18 => (0xFFFFFFFF, r.base % 2 ^ 32)
    | 0x1C => (0xFF, r.base / 2 ^ 32)
    | _ => (0, 0)

/-- Of a DMA channel (R247). -/
def State.readDma (s : State) (n off : Nat) : Nat × Nat :=
  match Tab.get s.dmas n with
  | none => (0, 0)
  | some c =>
    match off with
    | 0x00 => (0xFFFFFFFF, c.head % 2 ^ 32)
    | 0x04 => (0xFF, c.head / 2 ^ 32)
    | 0x0C => (0x1F7, s.queryState 0x01 n + c.code * 2 ^ 4 + b2n c.cmdRej * 2 ^ 8)
    | 0x10 => (0xFFFFFFFF, c.doneB)
    | 0x14 => (0xFFFFFFFF, c.cur % 2 ^ 32)
    | 0x18 => (0xFF, c.cur / 2 ^ 32)
    | 0x1C => (0xFFFFFFFF, c.mism)
    | _ => (0, 0)

/-- Of a loop slot (R397). -/
def State.readLoop (s : State) (n off : Nat) : Nat × Nat :=
  match Tab.get s.loops n with
  | none => (0, 0)
  | some l =>
    match off with
    | 0x04 => (0xFFFFFFFF, ux 32 l.uPrev)
    | 0x08 => (0xFFFFFFFF, ux 32 l.yPrev)
    | 0x0C => (2 ^ (F.LOP_ST_STALEF n).lo + 3, s.queryState 0x06 n + b2n (l.state == .openloop) * 2 ^ (F.LOP_ST_STALEF n).lo)
    | 0x10 => (0xFFFFFFFF, l.evals)
    | _ => (0, 0)

/-- Of the STQ window (R279). -/
def State.readStq (s : State) (off : Nat) : Nat × Nat :=
  match off with
  | 0x00 => (0x30, b2n (decide (1024 ≤ s.cmdsUsed)) * 2 ^ 4 + b2n (decide (256 ≤ s.locksUsed)) * 2 ^ 5)
  | 0x30 => (0x7FF01FF, s.locksUsed + s.cmdsUsed * 2 ^ 16)
  | _ => (0, 0)

/-- Of the FLT and NVM windows (R467, R470). -/
def State.readFlt (s : State) (off : Nat) : Nat × Nat :=
  if off = 0x228 then
    let h := s.flag F.FLT_CTRL_HEALTHY
    (7, b2n h + b2n (!h) * 2 + b2n s.flt.alive * 4)
  else (0, 0)

def State.readNvm (s : State) (off : Nat) : Nat × Nat :=
  match off with
  | 0x00 => (0xFFFFFFFF, s.nvm.seq)
  | 0x04 => (0x7FF, s.nvm.index)
  | 0x08 => (1, b2n s.nvm.append)
  | 0x0C => (0xFFFFFFFF, s.nvm.boots)
  | _ => (0, 0)

/-- Of the SYS window (R43, R468). -/
def State.readSys (s : State) (off : Nat) : Nat × Nat :=
  match off with
  | 0x40 => (0xFFFFFFFF, s.now)
  | 0x104 => (0x1F, s.admitQ.length)
  | 0x204 => (1, b2n s.snap.isSome)
  | 0x300 => (0x7FFF, s.replaceWord)
  | _ => (0, 0)

/-- Of a core (R81). -/
def State.readCrs (s : State) (n off : Nat) : Nat × Nat :=
  match off with
  | 0x04 => (0x1F, (s.core n).run.code + b2n (servoCore n) * 2 ^ 3 + b2n (s.core n).inTrap * 2 ^ 4)
  | 0x0C => (0xFFFF, if (s.core n).run = .running then (s.core n).lastPc else (s.core n).pc)
  | _ => (0, 0)

/-- Of an attar engine (R222, R224). -/
def State.readAtr (s : State) (e off : Nat) : Nat × Nat :=
  match off with
  | 0x10 => (0xFFFFFFFF, (vget s.atr e).outb)
  | 0x14 => (0xFFFFFFFF, (vget s.atr e).outbHi.toNat)
  | 0x100 =>
    if e = 0 then (0xFFFFFFFF, (s.reservations + 999999) / 1000000 % 2 ^ 16 + 1800 * s.engOnline * 2 ^ 16) else (0, 0)
  | _ => (0, 0)

/-- Of one-bit fields of other windows: IN_JOB (R141), CLAIM (R189), PORT_PARKED (R320), BACK (R398), RDY (R264), and
the fields of OBJ (R112). -/
def State.readBits (s : State) (k : Nat) : Nat × Nat :=
  let one (f : Fld) (b : Bool) : Nat × Nat := if k = f.key then (2 ^ f.lo, b2n b * 2 ^ f.lo) else (0, 0)
  let w := k / 0x10000
  if 0x20 ≤ w ∧ w < 0x24 then one (F.EXP_STATUS_IN_JOB (w - 0x20)) (s.inJob (w - 0x20))
  else if 0x28 ≤ w ∧ w < 0x2C then one (F.ELK_CTRL_CLAIM (w - 0x28)) s.holdsToken
  else if 0x48 ≤ w ∧ w < 0x4C then one (F.SRV_SPSTAT_PORT_PARKED (w - 0x48)) (s.portParked (w - 0x48))
  else if w = 0x63 then one F.WEB_STATUS_BACK (decide (s.web.raw < s.web.hw))
  else if w = 0x38 then one F.TAL_T1_STATUS_RDY s.t1Rdy
  else if w = 0x03 then
    if k = R.OBJ_DRAIN_STATUS then (1, b2n s.drain.isSome)
    else if 0x30104 ≤ k ∧ k < 0x3013C then (0xFFFF, s.freeCount ((k - 0x30100) / 4))
    else (0, 0)
  else (0, 0)

/-- Bits of register `k` that stand outside `regs`: which, and their value now. -/
def State.readOverlay (s : State) (k : Nat) : Nat × Nat :=
  let w := k / 0x10000
  let off := k % 0x10000
  if w = 0 then s.readSys off
  else if w = 0x01 then s.readFlt off
  else if w = 0x02 then s.readNvm off
  else if w = 0x04 then (if 0x1000 ≤ off then s.readRing ((off - 0x1000) / 0x20) (off % 0x20) else (0, 0))
  else if w = 0x07 then (if 0x1000 ≤ off then s.readDma ((off - 0x1000) / 0x20) (off % 0x20) else (0, 0))
  else if 0x08 ≤ w ∧ w < 0x20 then s.readCrs (w - 0x08) off
  else if 0x30 ≤ w ∧ w < 0x38 then s.readAtr (w - 0x30) off
  else if w = 0x39 then s.readStq off
  else if w = 0x62 then (if 0x1000 ≤ off then s.readLoop ((off - 0x1000) / 0x20) (off % 0x20) else (0, 0))
  else s.readBits k

/-- The value a read of register `k` returns: snapshot fields from their captured copies (R38). -/
def State.regWord (s : State) (k : Nat) : Nat :=
  let o := s.readOverlay k
  let st := (s.reg k).toNat &&& readMask k
  st - (st &&& o.1) + (o.2 &&& o.1)

/-- The domain that owns the snapshot bits of a register (R37). -/
def snapDomain (k : Nat) : Nat :=
  let w := k / 0x10000
  if w = 0x06 then 2
  else if 0x20 ≤ w ∧ w < 0x28 then 3 + w % 4
  else if 0x28 ≤ w ∧ w < 0x2C then 7
  else if w = 0x38 then (if k % 0x10000 < 0x20 then 20 else if k % 0x10000 < 0x40 then 21 else 22)
  else if 0x40 ≤ w ∧ w < 0x48 then 8 + (w - 0x40)
  else if 0x64 ≤ w ∧ w < 0x68 then 16 + (w - 0x64)
  else if 0x70 ≤ w ∧ w < 0x80 then phaseDomain (w - 0x70)
  else 24

/-- The live value of register `k`, as the loop engine reads it (R42). -/
def State.regLive (s : State) (k : Nat) : Nat :=
  match (s.snapFields (snapDomain k)).find? (fun e => e.1 == k) with
  | some e => s.regWord k - (s.regWord k &&& e.2.1) + (e.2.2 &&& e.2.1)
  | none => s.regWord k

/-! ### Reads -/

/-- The live counts of a snapshot RC register go down by what a read returned; a saturated count goes to 0 (R42). -/
def State.takeCounts (s : State) (k v : Nat) : State :=
  let less (max live got : Nat) : Nat := if got = max then 0 else live - got
  let s1 : State := { s with snap := s.snap.map (fun q => { q with latched := Tab.upd q.latched k (fun x => x - v) }) }
  if k = R.TAL_PORT_CNT 0 ∨ k = R.TAL_PORT_CNT 1 then
    s1.modLink (if k = R.TAL_PORT_CNT 0 then 0 else 1) (fun l => { l with
      crcErr := less 0xFFF l.crcErr (bits v 0 12), replayCnt := less 0xFFF l.replayCnt (bits v 12 12) })
  else if k = R.TAL_T1_STATUS then
    { s1 with t1 := { s1.t1 with drops := less 0xFFFF s1.t1.drops (bits v 16 16) } }
  else s1

/-- What a read of register `k` does besides returning a value: RC fields clear, LO reads latch HI (R12, R42, R43). -/
def State.readEffect (s : State) (k v : Nat) : State :=
  let s1 := if rcMask k = 0 then s else
    s.setReg k (BitVec.ofNat 32 ((s.reg k).toNat - ((s.reg k).toNat &&& rcMask k)))
  if k = R.SYS_PTIME_LO then s1.setReg R.SYS_PTIME_HI (BitVec.ofNat 32 (s.now / 2 ^ 32))
  else if 0x300000 ≤ k ∧ k < 0x380000 ∧ k % 0x10000 = 0x10 then s1.outbLatch ((k - 0x300000) / 0x10000)
  else if 0x30104 ≤ k ∧ k < 0x3013C then
    s1.setFld (F.OBJ_FREE_LOW ((k - 0x30104) / 4)) (s1.freeCount ((k - 0x30100) / 4))
  else if k / 0x10000 = 0x38 then s1.takeCounts k (v &&& snapRcMask k)
  else s1

/-- A read of a listed or unlisted register of a present unit. -/
def State.regRead (s : State) (k : Nat) : State × Nat := (s.readEffect k (s.regWord k), s.regWord k)

/-! ### Writes -/

/-- A write to a register of the SYS window. -/
def wrSys (off : Nat) (v : Word) (s : State) : State :=
  match off with
  | 0x100 => effAdmitReq v.toNat s
  | 0x108 => effWithdraw v.toNat s
  | 0x10C => effSpoil v.toNat s
  | 0x200 => effSnapReq v s
  | 0x304 => effCoreTest v s
  | 0x310 => effDcsvcWrite v s
  | _ => s.plainWrite off v

/-- A 32-bit write to register `k` of a present unit. `fromTalosh` says that a Talosh register packet makes it (R410,
R421). -/
def State.wrWindow (s : State) (fromTalosh : Bool) (k : Nat) (v : Word) : State :=
  let w := k / 0x10000
  let off := k % 0x10000
  if w = 0 then wrSys off v s
  else if w = 0x01 then wrFlt off v s
  else if w = 0x02 then wrNvm off v s
  else if w = 0x03 then wrObj off v s
  else if w = 0x04 then wrRng off v s
  else if w = 0x06 then wrMem off v s
  else if w = 0x07 then wrDma off v s
  else if w < 0x20 then s.wrCrs (w - 0x08) off v
  else if w < 0x24 then wrExp (w - 0x20) off v s
  else if w < 0x28 then wrLac (w - 0x24) off v s
  else if w < 0x2C then wrElk (w - 0x28) off v s
  else if w = 0x2C then wrIlk off v s
  else if w < 0x38 then wrAtr (w - 0x30) off v s
  else if w = 0x38 then wrTal off v s
  else if w = 0x39 then wrStq off v s
  else if w = 0x3A then (if off = 0 then effAcdCtrl v s else s.plainWrite k v)
  else if w < 0x48 then wrDsk (w - 0x40) off v s
  else if w < 0x4C then wrSrv (w - 0x48) off v s
  else if w < 0x60 then wrMot (w - 0x50) off v s
  else if w = 0x60 then wrGdr off v s
  else if w = 0x61 then wrStp off v s
  else if w = 0x62 then wrLop off v s
  else if w = 0x63 then wrWeb off v s
  else if w < 0x68 then wrCam (w - 0x64) off v s
  else if w = 0x68 then wrPwr fromTalosh off v s
  else if w = 0x69 then (if k = R.THM_TSD_ACK then effTsdAck fromTalosh v s else wrThm off v s)
  else wrClk (w - 0x70) off v s

/-- A 32-bit write at register-space offset `k` by the requester, judged in the order of R488: an unmapped window takes
none, an absent unit answers as R5 says, a misaligned offset as R11 says. -/
def State.regWrite (s : State) (fromTalosh : Bool) (k : Nat) (v : Word) : State :=
  if windowMapped (k / 0x10000) = false then s
  else if s.windowPresent (k / 0x10000) = false then s.raise 5
  else if k % 4 ≠ 0 then s.raise 6
  else s.wrWindow fromTalosh k v

/-! ### An access (R488) -/

/-- An access at register-space offset `k`: the error of R15, or the data read. -/
def State.regAccess (s : State) (fromTalosh : Bool) (k bytes : Nat) (write : Bool) (v : Word) : State × Option Nat :=
  if windowMapped (k / 0x10000) = false then (s, none)
  else if s.windowPresent (k / 0x10000) = false then (if write then (s.raise 5, some 0) else (s, some 0))
  else if bytes ≠ 4 ∨ k % 4 ≠ 0 then (s.raise 6, some 0)
  else if write then (s.wrWindow fromTalosh k v, some 0)
  else ((s.regRead k).1, some (s.regRead k).2)

/-! ### Timers (R99, R100) -/

/-- A timer expires: the timed write, the bits, and the next expiry; expiries that are past by then are skipped and
counted. -/
def effTimerExpiry (n : Nat) (s : State) : State :=
  match Tab.get s.timers n with
  | none => s
  | some t =>
    if t.armed = false ∨ s.now < t.next then s
    else
      let past := if t.period = 0 ∨ s.now = t.next then 0 else (s.now - t.next - 1) / t.period
      let t1 : Timer := { t with
        expiries := (t.expiries + 1) % 2 ^ 32
        skipped := (t.skipped + past) % 2 ^ 32
        armed := t.period != 0
        next := if t.period = 0 then t.next else t.next + (past + 1) * t.period }
      let s1 : State := { s with timers := Tab.put s.timers n t1 }
      (if t.woff = 0 then s1 else s1.regWrite false t.woff (BitVec.ofNat 32 t.wdata)).notify 0x05 n t.bits

/-- A timer that has just been opened with T0 already past expires at once (R100). -/
def State.expireAtOpen (s : State) (h : Nat) : State :=
  match s.live h 0x05 with
  | none => s
  | some n =>
    match Tab.get s.timers n with
    | some t => if t.late then effTimerExpiry n s else s
    | none => s

end Sys2Proof.Machine
end

