-- ==== Sys2Proof/Machine/Ticks.lean ====
section
/-!
DEFINITION. What happens at an instant of press time: loop ticks (R371 to R376), web triggers (R383),
the cool-down write (R167).
-/
namespace Sys2Proof.Machine

/-! ### Loop ticks (R371 to R376) -/

/-- An arithmetic shift right, rounded half up (R373). -/
def shrRound (v : Int) (k : Nat) : Int := if k = 0 then v else asr (v + 2 ^ (k - 1)) k

/-- A field of a 32-bit value, sign-extended if asked. -/
def pickField (v lsb width : Nat) (signed : Bool) : Int :=
  if signed then sx width (bits v lsb width) else bits v lsb width

/-- The mean of the last `n` conversions, rounded down; of fewer while there are fewer. -/
def meanOf (l : List Nat) (n : Nat) : Nat := (l.take n).sum / max 1 (l.take n).length

/-- The live value of the register at a register-space offset as a slot reads it (R5, R372, R373): 0 at an absent unit or
a misaligned offset, which raises FS6 (R11), and where no register is mapped. -/
def State.loopReg (s : State) (k : Nat) : State × Nat :=
  if windowMapped (k / 0x10000) = false ∨ s.windowPresent (k / 0x10000) = false then (s, 0)
  else if k % 4 ≠ 0 then (s.raise 6, 0)
  else (s, s.regLive k)

/-- The input y of a slot (R372). -/
def State.loopInput (s : State) (l : Loop) : Int :=
  let cam := vget s.cams (bits l.isel 0 2)
  match l.ikind with
  | 0 => meanOf (s.ain.getD (bits l.isel 0 4) []) (2 ^ bits l.isel 4 3)
  | 1 =>
    pickField (s.loopReg (bits l.isel 0 24)).2 (bits l.ifield 0 5) (bits l.ifield 5 5 + 1) (bit l.ifield 10)
  | 2 =>
    (match Tab.get cam.lastMark (bits l.isel 2 3) with
      | some e => if bit l.isel 5 then e.2 else e.1
      | none => 0)
  | 3 =>
    (match Tab.get cam.lastDiff (8 * bits l.isel 2 3 + bits l.isel 6 3) with
      | some e => if bit l.isel 5 then e.2 else e.1
      | none => 0)
  | 4 => lget cam.lastDens (bits l.isel 2 2)
  | _ =>
    (match Tab.get s.loops (bits l.isel 0 6) with
      | some m => m.uPrev
      | none => 0)

/-- A signed number limited to `w` bits. -/
def satW (w : Nat) (v : Int) : Int := clampInt (-(2 ^ (w - 1) : Int)) (2 ^ (w - 1) - 1) v

/-- The ramped set-point of this evaluation (R374). -/
def Loop.ramp (l : Loop) (sp y : Int) : Int :=
  if l.restart then y
  else if l.slew = 0 then sp
  else clampInt (l.spr - l.slew) (l.spr + l.slew) sp

/-- The table's term (R373, R379). -/
def Loop.tableTerm (l : Loop) (pos : Nat) : Int :=
  if l.taddr = 0 then 0 else l.table.getD ((shrRound (sx 32 pos) l.tshift) % 1024).toNat 0

/-- One evaluation (R373) with set-point, input and position: spr, i, u, y_prev and u_prev. -/
def Loop.evaluate (l : Loop) (sp y : Int) (pos : Nat) : Loop × Int :=
  let spr := l.ramp sp y
  let e := satW 32 (spr - y)
  let yPrev := if l.first then y else l.yPrev
  let held := (l.uPrev == l.omax && decide (0 < e)) || (l.uPrev == l.omin && decide (e < 0))
  let i := if l.state = .running ∧ (l.first = true ∨ held = false) then satW 48 (l.i + l.ki * e) else l.i
  let pid := if l.state = .running then shrRound (l.kp * e + i + l.kd * (yPrev - y)) l.shift else shrRound i l.shift
  let ff := l.ff0 + shrRound (l.kff * spr) 8 + l.tableTerm pos
  let u0 := clampInt l.omin l.omax (pid + ff)
  let u := if l.oslew = 0 ∨ l.first = true then u0 else clampInt (l.uPrev - l.oslew) (l.uPrev + l.oslew) u0
  ({ l with spr := spr, i := i, yPrev := y, uPrev := u, restart := false, first := false, fresh := false
            evals := (l.evals + 1) % 2 ^ 32 }, e)

/-- The oscillation detector (R376) after an evaluation with error `e`: the slot, and whether it trips. -/
def Loop.detect (l : Loop) (e : Int) : Loop × Bool :=
  if l.oscWin = 0 then (l, false)
  else
    let s' := if (l.oscAmp : Int) < e then some true else if e < -(l.oscAmp : Int) then some false else l.sign
    if l.sign ≠ none ∧ s' ≠ l.sign then
      let c := (l.evals :: l.crossings).take 15
      let trips := match (c.drop (l.oscN - 1)).head? with
        | some old => decide ((l.evals + 2 ^ 32 - old) % 2 ^ 32 < l.oscWin)
        | none => false
      ({ l with sign := s', crossings := c }, trips)
    else ({ l with sign := s' }, false)

/-- Mask of the output field (R375). -/
def Loop.outMask (l : Loop) : Nat := (2 ^ l.dwidth - 1) * 2 ^ l.dlsb % 2 ^ 32

/-- The value of the output write (R375). -/
def Loop.outWord (l : Loop) : Nat :=
  (l.dbase - (l.dbase &&& l.outMask)) + (ux 32 l.uPrev * 2 ^ l.dlsb % 2 ^ 32 &&& l.outMask)

/-- The slot is evaluated: a trip freezes it, else its output is written. -/
def State.loopEval (s0 : State) (n : Nat) (l : Loop) : State :=
  let sp := sx 32 (s0.reg (R.LOP_SP n)).toNat
  let s := if l.taddr = 0 then s0 else (s0.loopReg l.toff).1
  let pos := if l.taddr = 0 then 0 else (s0.loopReg l.toff).2
  let r := l.evaluate sp (s0.loopInput l) pos
  let d := r.1.detect r.2
  if d.2 then
    let s1 : State := { s with loops := Tab.put s.loops n { d.1 with state := .frozen } }
    ((s1.setFlag (F.LOP_ST_TRIP n)).raise 336).notify 0x06 n 2
  else
    let s1 : State := { s with loops := Tab.put s.loops n d.1 }
    if l.doff = 0 then s1 else s1.regWrite false l.doff (BitVec.ofNat 32 d.1.outWord)

/-- The measurement of a camera slot is stale, or its camera bypassed (R378). -/
def State.loopStale (s : State) (l : Loop) : Bool :=
  match l.camera with
  | some c => s.flag (F.CAM_CTRL_BYPASS c)
      || (decide (l.stale ≠ 0) && decide (l.lastMeas + l.stale * l.per ≤ s.tick))
  | none => false

/-- One slot at a tick. -/
def State.loopSlot (s : State) (n : Nat) : State :=
  match Tab.get s.loops n with
  | none => s
  | some l =>
    let s1 := if l.state == .running && s.loopStale l then s.openLoop n else s
    match Tab.get s1.loops n with
    | none => s1
    | some m =>
      if m.state ≠ .running ∧ m.state ≠ .openloop then s1
      else if (if m.event then m.fresh else decide (s.tick % max 1 m.per = 0)) then s1.loopEval n m
      else s1

/-- LOOP_TICK: at a multiple of 20,000 ns, once each, the slots are taken in ascending order. -/
def effLoopTick (s : State) : State :=
  if s.now % 20000 ≠ 0 ∨ s.tickAt = some s.now then s
  else ({ s with tickAt := some s.now }).each (List.range 64) State.loopSlot

/-! ### Web triggers (R383) -/

/-- POS of a trigger, 48 bits laid out as RAW. -/
def State.webPos (s : State) (i : Nat) : Int :=
  sx 48 ((s.reg (R.WEB_TPOS_LO i)).toNat + bits (s.reg (R.WEB_TPOS_HI i)).toNat 0 16 * 2 ^ 32)

/-- Trigger `i` is due. -/
def State.webDue (s : State) (i : Nat) : Bool := s.flag (F.WEB_TCTL_EN i) && decide (s.webPos i ≤ s.web.hw)

/-- One firing of trigger `i`: POS advances by PERIOD or EN clears, its bit is raised, its write made, and the cameras
that name it pulse XTRIG (R383, R399). -/
def State.webFire (s : State) (i : Nat) : State :=
  let per := (s.reg (R.WEB_TPER i)).toNat
  let pos := ux 48 (s.webPos i + per)
  let s1 := if per = 0 then s.clrFlag (F.WEB_TCTL_EN i)
    else (s.setReg (R.WEB_TPOS_LO i) (BitVec.ofNat 32 pos)).setReg (R.WEB_TPOS_HI i) (BitVec.ofNat 32 (pos / 2 ^ 32))
  let s2 := s1.each (List.range 4) (fun t c =>
    if t.hasCam c && t.flag (F.CAM_FTMO_XEN c) && t.fld (F.CAM_FTMO_XTRIG c) == i then
      t.modCam c (fun k => { k with xtrigAt := some t.now })
    else t)
  let s3 := s2.raiseEv (s2.reg R.WEB_EVGRP).toNat (2 ^ i)
  if s.fld (F.WEB_TCTL_OFF i) = 0 then s3 else s3.regWrite false (s.fld (F.WEB_TCTL_OFF i)) (s.reg (R.WEB_TDATA i))

/-- A trigger fires once for each period HW has passed. -/
def State.webRun (s : State) (i : Nat) : Nat → State
  | 0 => s
  | n + 1 => if s.webDue i then (s.webFire i).webRun i n else s

/-- Every trigger that is due fires. -/
def State.webTriggers (s : State) : State :=
  s.each (List.range 8) (fun t i => if t.webDue i then t.webRun i ((t.web.hw - t.webPos i).toNat + 1) else t)

/-- CAMc_XTRIG at this press time: high for 1 µs from the trigger's firing (R399). -/
def State.xtrigPin (s : State) (c : Nat) : Bool :=
  match (vget s.cams c).xtrigAt with
  | some t => decide (s.now < t + 1000)
  | none => false

/-! ### The cool-down write (R167) -/

/-- COOL_DOWN_WRITE: after a trip of station `i`, once no page is PRINTING. -/
def effCoolDown (i : Nat) (s : State) : State :=
  if s.flag (F.LAC_STATUS_COOL_PEND i) = false ∨ (s.pagesIn .printing).isEmpty = false then s
  else
    let s1 := s.clrFlag (F.LAC_STATUS_COOL_PEND i)
    if bits (s.reg (R.LAC_COOL_OFF i)).toNat 0 24 = 0 then s1
    else s1.regWrite false (bits (s.reg (R.LAC_COOL_OFF i)).toNat 0 24) (s.reg (R.LAC_COOL_DATA i))

end Sys2Proof.Machine
end

