-- ==== Sys2Proof/Machine/Finish.lean ====
section
/-!
DEFINITION. What follows a command at the same instant: conditions that hold from then on and have no row of their own,
and then the fault collector.
-/
namespace Sys2Proof.Machine

/-- RLOCK falls in every port locked to a station without BD lock (R333). -/
def State.followLock (s : State) : State :=
  s.each (List.range 4) (fun t h => if t.rlock h && !t.bdLock (t.lstn h) then t.rlockFall h else t)

/-- What a facet origin made due: STATE from the active, and a HANDOVER (R449, R456). -/
def State.followAccord (s : State) : State :=
  let s1 := if s.acd.stateDue then (s.modAcd (fun a => { a with stateDue := false })).sendState else s
  if s1.acd.handoverDue then s1.giveUp else s1

/-- Entries of ACD_FWSQ leave while the link is up (R450). -/
def State.followFwsq (s : State) : State := if s.linkUp 2 then s.drainFwsq 4096 else s

/-- Running motors: since when each is commanded above 0 (R327). -/
def State.followMot (s : State) : State := s.each (List.range 16) State.cmdFollow

/-- Everything that follows a command, before the collector. -/
def State.follow (s : State) : State :=
  s.webTriggers.followLock.followAccord.followFwsq.loopDegrade.followMot

/-- LASER_ENs of the four stations as their three conditions say (R183). -/
def State.laserWord (s : State) : Nat :=
  (List.range 4).foldl (fun a i => a + b2n (s.loopClosed i && (vget s.ilk i).armed && !s.drying) * 2 ^ i) 0

/-- Outputs that hardware derives without a command: the laser enables (R183), and the pins that boundary scan holds,
given back where R486 no longer allows it. -/
def State.outputs (s : State) : State :=
  (if s.fld F.ILK_STATUS_LASER = s.laserWord then s else s.setFld F.ILK_STATUS_LASER s.laserWord).jtagCheck

/-- The end of a command that acts on a core alone: its events are taken by the collector (R435). -/
def State.collect (s : State) : State := (s.settleN 4).outputs

/-- The end of a command that may act on the whole device. -/
def State.finish (s : State) : State := s.follow.settle.outputs

/-- An event at a unit of this variant (R3): an absent unit has none. -/
def State.onUnit (s : State) (present : Bool) (f : State → State) : State := if present then f s else s

/-- An aligned 32-bit write at an offset of a window. -/
def State.windowWrite (s : State) (base off : Nat) (v : Word) : State := (s.regAccess false (base + off) 4 true v).1

end Sys2Proof.Machine
end

