-- ==== Sys2Proof/Machine/AttarRows.lean ====
section
/-!
DEFINITION. The meanings of the rows of the attar engines (chapter 07).
-/
namespace Sys2Proof.Machine

/-- ATR_DECODE (R206). -/
def execAtrDecode (e : Fin 8) (s : State) : Host.Outcome State Fault Refusal :=
  .next ((effAtrJob e.val 0 s).finish)

/-- ATR_ENCODE (R207). -/
def execAtrEncode (e : Fin 8) (s : State) : Host.Outcome State Fault Refusal :=
  .next ((effAtrJob e.val 1 s).finish)

/-- ATR_SAVE (R202). -/
def execAtrSave (e : Fin 8) (s : State) : Host.Outcome State Fault Refusal :=
  .next ((effAtrJob e.val 2 s).finish)

/-- ATR_LOAD (R202). -/
def execAtrLoad (e : Fin 8) (s : State) : Host.Outcome State Fault Refusal :=
  .next ((effAtrJob e.val 3 s).finish)

/-- ATR_CLEAR (R201). -/
def execAtrClear (e : Fin 8) (s : State) : Host.Outcome State Fault Refusal :=
  .next ((effAtrJob e.val 4 s).finish)

/-- ATR_JOB_COMPLETE (R210). -/
def execAtrJobComplete (e : Fin 8) (s : State) : Host.Outcome State Fault Refusal :=
  .next ((effAtrJobComplete e.val s).finish)

/-- CPL_PARKED_PUSH (R211). -/
def execCplParkedPush (e : Fin 8) (s : State) : Host.Outcome State Fault Refusal :=
  .next ((effCplParkedPush e.val s).finish)

/-- PAGE_BLOCK_DISPATCH (R217). -/
def execPageBlockDispatch (s : State) : Host.Outcome State Fault Refusal :=
  .next ((effPageBlockDispatch s).finish)

/-- PAGE_BLOCK_DECODED (R217). -/
def execPageBlockDecoded (e : Fin 8) (s : State) : Host.Outcome State Fault Refusal :=
  .next ((effPageBlockDecoded e.val s).finish)

/-- ATR_ONLINE (R223). -/
def execAtrOnline (e : Fin 8) (v : Word) (s : State) : Host.Outcome State Fault Refusal :=
  .next ((effAtrCtrl e.val v s).finish)

/-- ATR_OFFLINE (R222). -/
def execAtrOffline (e : Fin 8) (v : Word) (s : State) : Host.Outcome State Fault Refusal :=
  .next ((effAtrCtrl e.val v s).finish)

/-- ATR_TEST (R223). -/
def execAtrTest (e : Fin 8) (v : Word) (s : State) : Host.Outcome State Fault Refusal :=
  .next ((effAtrCtrl e.val v s).finish)

/-- ATR_TEST_DONE (R223). -/
def execAtrTestDone (e : Fin 8) (pass : Bool) (s : State) : Host.Outcome State Fault Refusal :=
  .next ((effAtrTestDone e.val pass s).finish)

end Sys2Proof.Machine
end

