-- ==== Sys2Proof/Machine/CoreMem.lean ====
section
/-!
DEFINITION. What a core's instructions do to memory, registers and objects: effective addresses (R52, R53), the data
cache (R56, R64), loads and stores (R57, R62, R65), atomics, and the handle and ring group (R73, R74).
-/
namespace Sys2Proof.Machine

/-! ### Effective addresses (R52) -/

/-- Where an effective address leads; the system address in each case. -/
inductive EaTarget where
  | dataRam (a : Nat)
  | iram (a : Nat)
  | ap0 (a : Nat)
  | ap1 (a : Nat)
  | none
  deriving DecidableEq, Repr

/-- R52. -/
def Core.ea (c : Core) (n ea : Nat) : EaTarget :=
  if ea < 0x10000 then .dataRam (dramBaseOf n + ea)
  else if ea < 0x20000 then .iram (iramBase n + (ea - 0x10000))
  else if ea < 0x80000000 then .none
  else if ea < 0xC0000000 then .ap0 (c.ap0 * 2 ^ 30 + (ea - 0x80000000))
  else .ap1 (c.ap1 * 2 ^ 30 + (ea - 0xC0000000))

/-- The address lies in the local-RAM window of an absent servo core (R5, R54). -/
def State.absentRam (s : State) (a : Nat) : Bool :=
  match s.region a with
  | .iram k => !s.hasCore k
  | .dataRam k => !s.hasCore k
  | _ => false

/-! ### The data cache (R56) -/

/-- The line of core `n` that holds a system address. -/
def State.cacheLine (s : State) (n a : Nat) : Option CacheLine := (s.core n).cache.find? (fun l => l.line == a / 64)

/-- A dirty line is written back whole (R231) and is clean then. -/
def State.lineBack (s : State) (n : Nat) (l : CacheLine) : State :=
  if l.dirty then
    ((s.memWrite reqCacheFill (l.line * 64) l.data).1).modCore n (fun c =>
      { c with cache := c.cache.map (fun k => if k.line = l.line then { k with dirty := false } else k) })
  else s

/-- A line leaves the cache, without write-back. -/
def State.lineDrop (s : State) (n line : Nat) : State :=
  s.modCore n (fun c => { c with cache := c.cache.filter (fun k => k.line != line) })

/-- CWB of the line that holds a system address. -/
def State.cacheBack (s : State) (n a : Nat) : State :=
  match s.cacheLine n a with
  | some l => s.lineBack n l
  | none => s

/-- CWBI of the line that holds a system address. -/
def State.cacheBackDrop (s : State) (n a : Nat) : State := (s.cacheBack n a).lineDrop n (a / 64)

/-- Room for a line in its set: a full set of four loses one line, which one is open, written back if dirty. -/
def State.makeRoom (s : State) (n line : Nat) : State :=
  let ways := (s.core n).cache.filter (fun l => l.line % 128 == line % 128)
  if ways.length < 4 then s
  else match (ways.drop (Config.cacheVictim n (line % 128) s.freeCtr % 4)).head? with
    | some l => (((s.tookFree).lineBack n l)).lineDrop n l.line
    | none => s

/-- The line that holds a system address, filled if need be; none where the fill meets an uncorrectable error, and then
the line is not installed (R57). -/
def State.cacheFill (s : State) (n a : Nat) : State × Bool :=
  match s.cacheLine n a with
  | some _ => (s, true)
  | none =>
    match s.memRead reqCacheFill (a / 64 * 64) 64 with
    | (t, .data l) =>
      ((t.makeRoom n (a / 64)).modCore n (fun c => { c with cache := c.cache ++ [⟨a / 64, false, l⟩] }), true)
    | (t, _) => (t, false)

/-- Bytes of the line that holds a system address. -/
def State.cacheBytes (s : State) (n a k : Nat) : List Byte :=
  match s.cacheLine n a with
  | some l => (l.data.drop (a % 64)).take k
  | none => []

/-- Bytes written into a line that is present, which becomes dirty. -/
def CacheLine.write (l : CacheLine) (off : Nat) (b : List Byte) : CacheLine :=
  { l with dirty := true, data := l.data.take off ++ b ++ l.data.drop (off + b.length) }

/-! ### Loads (R53, R57, R62) -/

/-- What a load or an atomic got: its value, or the trap it takes. -/
inductive Loaded where
  | value (v : Nat)
  | trap (cause : Nat)
  deriving DecidableEq, Repr

/-- The answer of a memory read as a load sees it. -/
def MemRead.loaded : MemRead → Loaded
  | .data l => .value (ofLe l)
  | .unmapped => .trap tBuserr
  | .ecc _ => .trap tDataEcc

/-- An uncached read of system space by a core. -/
def State.sysLoad (s : State) (a k : Nat) : State × Loaded :=
  match s.region a with
  | .regs =>
    (match s.regAccess false (a - regBase) k false 0 with
      | (t, some v) => (t, .value v)
      | (t, none) => (t, .trap tBuserr))
  | .unmapped => (s, .trap tBuserr)
  | _ => (match s.sysMemRead reqCore a k with | (t, r) => (t, r.loaded))

/-- A load of `k` bytes at an effective address. -/
def State.load (s : State) (n ea k : Nat) : State × Loaded :=
  if ea % k ≠ 0 then (s, .trap tAlign)
  else match (s.core n).ea n ea with
    | .dataRam a => (match s.memRead reqCore a k with | (t, r) => (t, r.loaded))
    | .iram a => (match s.memRead reqCore a k with | (t, r) => (t, r.loaded))
    | .ap1 a => s.sysLoad a k
    | .ap0 a =>
      if s.region a = .regs ∨ s.absentRam a = true then s.sysLoad a k
      else if s.region a = .unmapped then (s, .trap tBuserr)
      else (match s.cacheFill n a with
        | (t, true) => (t, .value (ofLe (t.cacheBytes n a k)))
        | (t, false) => (t, .trap tDataEcc))
    | .none => (s, .trap tBuserr)

/-- Effective address ra + sext(imm16) (R62). -/
def Core.offsetEa (c : Core) (ra imm : Nat) : Nat := (c.gr ra + sext16 imm) % 2 ^ 32

/-- A load instruction: `f` puts the value into the core. -/
def State.loadInstr (s : State) (n ra imm k : Nat) (ok : Bool) (f : Core → Nat → Core) : State :=
  s.issue n (fun t =>
    if ok = false then t.illegal n
    else
      let ea := (t.core n).offsetEa ra imm
      match t.load n ea k with
      | (u, .value v) => u.modCore n (fun c => (f c v).next)
      | (u, .trap cause) => u.trap n cause (u.core n).pc ea)

/-! ### Stores (R53, R54, R57, R62, R65) -/

/-- A store's write to a target that is neither register space nor cached. -/
inductive Stored where
  | done
  | trap (cause : Nat)
  deriving DecidableEq, Repr

/-- A store to the core's own RAM: performed at once, DATA_ECC where a sub-word store must merge with a bad word. -/
def State.ownStore (s : State) (a : Nat) (l : List Byte) : State × Stored :=
  match s.memWriteWords reqCore a l with
  | (t, true) => (t, .trap tDataEcc)
  | (t, false) => (t, .done)

/-- The words of instruction RAM under `k` bytes at `a`, as a fetch may still return them until a FENCE (R55). -/
def State.wordsAt (s : State) (a k : Nat) : List (Nat × Word × Nat) :=
  (List.range ((a % 4 + k + 3) / 4)).map (fun i =>
    let b := a / 4 * 4 + 4 * i
    (b, BitVec.ofNat 32 (s.rdLe b 4), Tab.getD s.upsets b 0))

/-- A store to the core's own instruction RAM: as one to its data RAM, with the words it replaced remembered (R55). -/
def State.ownCodeStore (s : State) (n a : Nat) (l : List Byte) : State × Stored :=
  match s.ownStore a l with
  | (t, .done) => (t.modCore n (fun c => { c with stale := c.stale ++ s.wordsAt a l.length }), .done)
  | r => r

/-- The write covers part of one ECC word whose read is uncorrectable (R231). -/
def State.partialBad (s : State) (a : Nat) (l : List Byte) : Bool :=
  decide (l.length < eccWordBytes a) &&
    (match Tab.get s.upsets (a / eccWordBytes a * eccWordBytes a) with
      | some p => (s.eccMeet reqCore (a / eccWordBytes a * eccWordBytes a) p).2
      | none => false)

/-- The address lies in the instruction RAM of a present core whose RUN is 1 (R54). -/
def State.runningIram (s : State) (a : Nat) : Bool :=
  match s.region a with
  | .iram k => s.hasCore k && s.flag (F.CRS_CTRL_RUN k)
  | _ => false

/-- A posted store to memory in system space: one that its target will drop is not written, and its error comes to
light later (R65, R231). A write that the target ignores reads nothing (R5, R54, R463). -/
def State.postedStore (s : State) (n a : Nat) (l : List Byte) : State :=
  if s.absentRam a = false && !s.runningIram a && !inSillage a && s.partialBad a l then
    s.modCore n (fun c => { c with failing := c.failing ++ [a / eccWordBytes a * eccWordBytes a] })
  else (s.memWrite reqCore a l).1

/-- A store to system space: judged against the map first (R65), then made; `none` where it takes BUSERR. The program
counter has moved on by then, so that a register write that acts on the core acts after the store. -/
def State.sysStore (s : State) (n a : Nat) (l : List Byte) : Option (State → State) :=
  match s.region a with
  | .regs =>
    if windowMapped ((a - regBase) / 0x10000) = false then none
    else some (fun t => (t.regAccess false (a - regBase) l.length true (BitVec.ofNat 32 (ofLe l))).1)
  | .unmapped => none
  | _ => some (fun t => t.postedStore n a l)

/-- A store of bytes at an effective address: the state with the instruction completed, or the trap. -/
def State.store (s : State) (n ea : Nat) (l : List Byte) : State × Stored :=
  if ea % l.length ≠ 0 then (s, .trap tAlign)
  else
    let own (r : State × Stored) : State × Stored :=
      match r with
      | (t, .done) => (t.modCore n Core.next, .done)
      | r => r
    let sys (a : Nat) : State × Stored :=
      match s.sysStore n a l with
      | some f => (f (s.modCore n Core.next), .done)
      | none => (s, .trap tBuserr)
    match (s.core n).ea n ea with
    | .dataRam a => own (s.ownStore a l)
    | .iram a => own (s.ownCodeStore n a l)
    | .ap1 a => sys a
    | .ap0 a =>
      if s.region a = .regs ∨ s.absentRam a = true ∨ s.region a = .unmapped then sys a
      else (match s.cacheFill n a with
        | (t, true) => (t.modCore n (fun c => { c.next with
            cache := c.cache.map (fun k => if k.line = a / 64 then k.write (a % 64) l else k) }), .done)
        | (t, false) => (t, .trap tDataEcc))
    | .none => (s, .trap tBuserr)

/-- A store instruction of `k` bytes. -/
def State.storeInstr (s : State) (n ra imm k : Nat) (ok : Bool) (data : Core → Nat) : State :=
  s.issue n (fun t =>
    if ok = false then t.illegal n
    else
      let ea := (t.core n).offsetEa ra imm
      match t.store n ea (leBytes k (data (t.core n))) with
      | (u, .done) => u
      | (u, .trap cause) => u.trap n cause (u.core n).pc ea)

/-! ### Atomics (R62) -/

/-- The word an atomic acts on at its target: read there, and written there when `f` gives a value. -/
def State.atomicAt (s : State) (a : Nat) (f : Nat → Option Nat) : State × Loaded :=
  match s.sysMemRead reqCore a 4 with
  | (t, .data l) =>
    (match f (ofLe l) with
      | some v => ((t.memWrite reqCore a (leBytes 4 v)).1, .value (ofLe l))
      | none => (t, .value (ofLe l)))
  | (t, r) => (t, r.loaded)

/-- The word an atomic acts on in the core's own data RAM. -/
def State.atomicOwn (s : State) (a : Nat) (f : Nat → Option Nat) : State × Loaded :=
  match s.memRead reqCore a 4 with
  | (t, .data l) =>
    (match f (ofLe l) with
      | some v => ((t.memWriteWords reqCore a (leBytes 4 v)).1, .value (ofLe l))
      | none => (t, .value (ofLe l)))
  | (t, r) => (t, r.loaded)

/-- An atomic at an effective address: in the cache never; a line that is present is first written back and
invalidated (R56). -/
def State.atomic (s : State) (n ea : Nat) (f : Nat → Option Nat) : State × Loaded :=
  if ea % 4 ≠ 0 then (s, .trap tAlign)
  else match (s.core n).ea n ea with
    | .dataRam a => s.atomicOwn a f
    | .iram _ => (s, .trap tBuserr)
    | .ap1 a => if s.region a = .regs ∨ s.region a = .unmapped then (s, .trap tBuserr) else s.atomicAt a f
    | .ap0 a =>
      if s.region a = .regs ∨ s.region a = .unmapped then (s, .trap tBuserr)
      else (s.cacheBackDrop n a).atomicAt a f
    | .none => (s, .trap tBuserr)

/-- An atomic instruction: `f` of the core and the word read gives the word to write. -/
def State.atomicInstr (s : State) (n rd ra : Nat) (f : Core → Nat → Option Nat) : State :=
  s.issue n (fun t =>
    let c0 := t.core n
    match t.atomic n (c0.gr ra) (f c0) with
    | (u, .value v) => u.modCore n (fun c => (c.setG rd v).next)
    | (u, .trap cause) => u.trap n cause (u.core n).pc (c0.gr ra))

/-! ### Cache instructions (R64) -/

/-- The system address a cache instruction acts on: none outside aperture 0 and in register space. -/
def State.cacheEa (s : State) (n ea : Nat) : Option Nat :=
  match (s.core n).ea n ea with
  | .ap0 a => if s.region a = .regs then none else some a
  | _ => none

/-- CWB, CINV, CWBI. -/
def State.cacheInstr (s : State) (n ra : Nat) (f : State → Nat → State) : State :=
  s.issue n (fun t =>
    (match t.cacheEa n ((t.core n).gr ra) with
      | some a => f t a
      | none => t).modCore n Core.next)

/-- CWBALL: every line written back if dirty and invalidated. -/
def State.cacheAll (s : State) (n : Nat) : State :=
  (s.each (s.core n).cache (fun t l => t.lineBack n l)).modCore n (fun c => { c with cache := [] })

def State.effCwball (s : State) (n : Nat) : State :=
  s.issue n (fun t => (t.cacheAll n).modCore n Core.next)

/-! ### Handles and rings (R73, R74) -/

/-- A pointer operand into the core's own data RAM: the system address, or the trap. -/
def dataPtr (n ea align len : Nat) : Except Nat Nat :=
  if ea % align ≠ 0 then .error tAlign
  else if 0x10000 < ea + len then .error tBuserr
  else .ok (dramBaseOf n + ea)

/-- OST, rd and the next instruction. -/
def State.groupDone (s : State) (n rd : Nat) (e : Ost) (v : Nat) : State :=
  s.modCore n (fun c => ({ c with ost := e.code }.setG rd v).next)

/-- The words of a parameter block (R92): WORDS of them, 32 at most; or the trap its address or its memory takes. -/
def State.paramBlock (s : State) (n ea : Nat) : State × Except Nat (List Nat) :=
  match dataPtr n ea 8 4 with
  | .error cause => (s, .error cause)
  | .ok a =>
    match s.memRead reqCore a 4 with
    | (t, .data l0) =>
      let k := min 32 (max 1 (ofLe l0 % 64))
      if 0x10000 < ea + 4 * k then (t, .error tBuserr)
      else (match t.memRead reqCore a (4 * k) with
        | (u, .data l) => (u, .ok ((List.range k).map (fun i => entLe l (4 * i) 4)))
        | (u, _) => (u, .error tDataEcc))
    | (t, _) => (t, .error tDataEcc)

/-- OPEN (R73, R91). -/
def State.effOpen (s : State) (n rd ra rb : Nat) : State :=
  s.issue n (fun t =>
    match t.paramBlock n ((t.core n).gr rb) with
    | (u, .error cause) => u.trap n cause (u.core n).pc ((u.core n).gr rb)
    | (u, .ok w) =>
      match (u.fenced n).openObj n ((u.core n).gr ra) w with
      | (x, .ok h) => (x.groupDone n rd .ok h).expireAtOpen h
      | (x, .error e) => x.groupDone n rd e 0)

/-- CLOSE (R73). -/
def State.effClose (s : State) (n rd ra : Nat) : State :=
  s.issue n (fun t =>
    let h := (t.core n).gr ra
    match (t.fenced n).closeObj h with
    | (u, e) => u.groupDone n rd e e.code)

/-- QUERY (R73, R93). -/
def State.effQuery (s : State) (n rd ra rb : Nat) : State :=
  s.issue n (fun t =>
    match t.queryObj ((t.core n).gr ra) ((t.core n).gr rb) with
    | (u, .ok v) => u.groupDone n rd .ok v
    | (u, .error e) => u.groupDone n rd e 0)

/-- RPUSH (R73, R74). -/
def State.effRpush (s : State) (n rd ra rb : Nat) : State :=
  s.issue n (fun t =>
    let h := (t.core n).gr ra
    let ea := (t.core n).gr rb
    match dataPtr n ea 64 64 with
    | .error cause => t.trap n cause (t.core n).pc ea
    | .ok a =>
      match (t.fenced n).memRead reqCore a 64 with
      | (u, .data l) => (match u.pushBy n h l with | (w, e) => w.groupDone n rd e e.code)
      | (u, _) => u.trap n tDataEcc (u.core n).pc ea)

/-- RPOP (R73, R74). -/
def State.effRpop (s : State) (n rd ra rb : Nat) : State :=
  s.issue n (fun t =>
    let h := (t.core n).gr ra
    let ea := (t.core n).gr rb
    match dataPtr n ea 64 64 with
    | .error cause => t.trap n cause (t.core n).pc ea
    | .ok a =>
      match t.popBy h with
      | (u, .ok l) => ((u.memWriteWords reqCore a l).1).groupDone n rd .ok Ost.ok.code
      | (u, .error e) => u.groupDone n rd e e.code)

/-- SIGNAL (R67, R101). -/
def State.effSignal (s : State) (n rd ra rb : Nat) : State :=
  s.issue n (fun t =>
    let h := (t.core n).gr ra
    let t1 := t.fenced n
    match t1.checkHandle h (fun c => c == 0x0D) with
    | .ok _ => (t1.raiseEv h ((t1.core n).gr rb)).groupDone n rd .ok Ost.ok.code
    | .error e => (t1.seen e).groupDone n rd e e.code)

/-! ### Another requester at a local RAM (R54) -/

/-- LOCAL_RAM_ACCESS: a naturally aligned access of 1 to 64 bytes at an offset of core `n`'s window. -/
def effLocalRam (n off k : Nat) (write : Bool) (v : Nat) (s : State) : State :=
  let a := iramBase n + off
  let answer (t : State) (err : Bool) (d : Nat) : State := { t with bus := ⟨err, d⟩ }
  if s.absentRam a then (if write then answer (s.raise 5) false 0 else answer s false 0)
  else if a % k ≠ 0 then answer s true 0
  else if write then
    (match s.memWrite reqCore a (leBytes k v) with
      | (t, .done) => answer t false 0
      | (t, _) => answer t true 0)
  else (match s.sysMemRead reqCore a k with
      | (t, .data l) => answer t false (ofLe l)
      | (t, _) => answer t true 0)

end Sys2Proof.Machine
end

