-- ==== Sys2Proof/Machine/CoreRows.lean ====
section
/-!
DEFINITION. The meanings of the rows of the Crisal and servo cores (chapter 02).
-/
namespace Sys2Proof.Machine

/-- ADD (R60). -/
def execCrAdd (n : Fin 24) (rd ra rb : Fin 32) (s : State) : Host.Outcome State Fault Refusal :=
  .next ((s.fetched n.val (.crAdd n rd ra rb) (fun s => s.issueCore n.val (fun c => c.addFlags rd.val (c.gr ra.val) (c.gr rb.val) 0))).collect)

/-- SUB (R60). -/
def execCrSub (n : Fin 24) (rd ra rb : Fin 32) (s : State) : Host.Outcome State Fault Refusal :=
  .next ((s.fetched n.val (.crSub n rd ra rb) (fun s => s.issueCore n.val (fun c => c.subFlags rd.val (c.gr ra.val) (c.gr rb.val) 0))).collect)

/-- ADC (R60). -/
def execCrAdc (n : Fin 24) (rd ra rb : Fin 32) (s : State) : Host.Outcome State Fault Refusal :=
  .next ((s.fetched n.val (.crAdc n rd ra rb) (fun s => s.issueCore n.val (fun c => c.addFlags rd.val (c.gr ra.val) (c.gr rb.val) c.cin))).collect)

/-- SBC (R60). -/
def execCrSbc (n : Fin 24) (rd ra rb : Fin 32) (s : State) : Host.Outcome State Fault Refusal :=
  .next ((s.fetched n.val (.crSbc n rd ra rb) (fun s => s.issueCore n.val (fun c => c.subFlags rd.val (c.gr ra.val) (c.gr rb.val) (1 - c.cin)))).collect)

/-- AND (R60). -/
def execCrAnd (n : Fin 24) (rd ra rb : Fin 32) (s : State) : Host.Outcome State Fault Refusal :=
  .next ((s.fetched n.val (.crAnd n rd ra rb) (fun s => s.op3 n.val rd.val ra.val rb.val (fun a b => a &&& b))).collect)

/-- OR (R60). -/
def execCrOr (n : Fin 24) (rd ra rb : Fin 32) (s : State) : Host.Outcome State Fault Refusal :=
  .next ((s.fetched n.val (.crOr n rd ra rb) (fun s => s.op3 n.val rd.val ra.val rb.val (fun a b => a ||| b))).collect)

/-- XOR (R60). -/
def execCrXor (n : Fin 24) (rd ra rb : Fin 32) (s : State) : Host.Outcome State Fault Refusal :=
  .next ((s.fetched n.val (.crXor n rd ra rb) (fun s => s.op3 n.val rd.val ra.val rb.val (fun a b => a ^^^ b))).collect)

/-- NOR (R60). -/
def execCrNor (n : Fin 24) (rd ra rb : Fin 32) (s : State) : Host.Outcome State Fault Refusal :=
  .next ((s.fetched n.val (.crNor n rd ra rb) (fun s => s.op3 n.val rd.val ra.val rb.val (fun a b => 2 ^ 32 - 1 - (a ||| b)))).collect)

/-- SLL (R60). -/
def execCrSll (n : Fin 24) (rd ra rb : Fin 32) (s : State) : Host.Outcome State Fault Refusal :=
  .next ((s.fetched n.val (.crSll n rd ra rb) (fun s => s.op3 n.val rd.val ra.val rb.val (fun a b => sll32 a b))).collect)

/-- SRL (R60). -/
def execCrSrl (n : Fin 24) (rd ra rb : Fin 32) (s : State) : Host.Outcome State Fault Refusal :=
  .next ((s.fetched n.val (.crSrl n rd ra rb) (fun s => s.op3 n.val rd.val ra.val rb.val (fun a b => srl32 a b))).collect)

/-- SRA (R60). -/
def execCrSra (n : Fin 24) (rd ra rb : Fin 32) (s : State) : Host.Outcome State Fault Refusal :=
  .next ((s.fetched n.val (.crSra n rd ra rb) (fun s => s.op3 n.val rd.val ra.val rb.val (fun a b => sra32 a b))).collect)

/-- ROR (R60). -/
def execCrRor (n : Fin 24) (rd ra rb : Fin 32) (s : State) : Host.Outcome State Fault Refusal :=
  .next ((s.fetched n.val (.crRor n rd ra rb) (fun s => s.op3 n.val rd.val ra.val rb.val (fun a b => ror32 a b))).collect)

/-- CLT (R60). -/
def execCrClt (n : Fin 24) (rd ra rb : Fin 32) (s : State) : Host.Outcome State Fault Refusal :=
  .next ((s.fetched n.val (.crClt n rd ra rb) (fun s => s.op3 n.val rd.val ra.val rb.val (fun a b => b2n (decide (sx 32 a < sx 32 b))))).collect)

/-- CLTU (R60). -/
def execCrCltu (n : Fin 24) (rd ra rb : Fin 32) (s : State) : Host.Outcome State Fault Refusal :=
  .next ((s.fetched n.val (.crCltu n rd ra rb) (fun s => s.op3 n.val rd.val ra.val rb.val (fun a b => b2n (decide (a < b))))).collect)

/-- MIN (R60). -/
def execCrMin (n : Fin 24) (rd ra rb : Fin 32) (s : State) : Host.Outcome State Fault Refusal :=
  .next ((s.fetched n.val (.crMin n rd ra rb) (fun s => s.op3 n.val rd.val ra.val rb.val (fun a b => if sx 32 a < sx 32 b then a else b))).collect)

/-- MAX (R60). -/
def execCrMax (n : Fin 24) (rd ra rb : Fin 32) (s : State) : Host.Outcome State Fault Refusal :=
  .next ((s.fetched n.val (.crMax n rd ra rb) (fun s => s.op3 n.val rd.val ra.val rb.val (fun a b => if sx 32 a < sx 32 b then b else a))).collect)

/-- MINU (R60). -/
def execCrMinu (n : Fin 24) (rd ra rb : Fin 32) (s : State) : Host.Outcome State Fault Refusal :=
  .next ((s.fetched n.val (.crMinu n rd ra rb) (fun s => s.op3 n.val rd.val ra.val rb.val (fun a b => if a < b then a else b))).collect)

/-- MAXU (R60). -/
def execCrMaxu (n : Fin 24) (rd ra rb : Fin 32) (s : State) : Host.Outcome State Fault Refusal :=
  .next ((s.fetched n.val (.crMaxu n rd ra rb) (fun s => s.op3 n.val rd.val ra.val rb.val (fun a b => if a < b then b else a))).collect)

/-- CLZ (R60). -/
def execCrClz (n : Fin 24) (rd ra : Fin 32) (s : State) : Host.Outcome State Fault Refusal :=
  .next ((s.fetched n.val (.crClz n rd ra) (fun s => s.op2 n.val rd.val ra.val (clz 32))).collect)

/-- POPC (R60). -/
def execCrPopc (n : Fin 24) (rd ra : Fin 32) (s : State) : Host.Outcome State Fault Refusal :=
  .next ((s.fetched n.val (.crPopc n rd ra) (fun s => s.op2 n.val rd.val ra.val (popc 32))).collect)

/-- MUL (R60). -/
def execCrMul (n : Fin 24) (rd ra rb : Fin 32) (s : State) : Host.Outcome State Fault Refusal :=
  .next ((s.fetched n.val (.crMul n rd ra rb) (fun s => s.op3 n.val rd.val ra.val rb.val (fun a b => a * b))).collect)

/-- MULH (R60). -/
def execCrMulh (n : Fin 24) (rd ra rb : Fin 32) (s : State) : Host.Outcome State Fault Refusal :=
  .next ((s.fetched n.val (.crMulh n rd ra rb) (fun s => s.op3 n.val rd.val ra.val rb.val (fun a b => ux 32 (asr (sx 32 a * sx 32 b) 32)))).collect)

/-- MULHU (R60). -/
def execCrMulhu (n : Fin 24) (rd ra rb : Fin 32) (s : State) : Host.Outcome State Fault Refusal :=
  .next ((s.fetched n.val (.crMulhu n rd ra rb) (fun s => s.op3 n.val rd.val ra.val rb.val (fun a b => a * b / 2 ^ 32))).collect)

/-- DIV (R60). -/
def execCrDiv (n : Fin 24) (rd ra rb : Fin 32) (s : State) : Host.Outcome State Fault Refusal :=
  .next ((s.fetched n.val (.crDiv n rd ra rb) (fun s => s.op3 n.val rd.val ra.val rb.val (fun a b => divS a b))).collect)

/-- DIVU (R60). -/
def execCrDivu (n : Fin 24) (rd ra rb : Fin 32) (s : State) : Host.Outcome State Fault Refusal :=
  .next ((s.fetched n.val (.crDivu n rd ra rb) (fun s => s.op3 n.val rd.val ra.val rb.val (fun a b => divU a b))).collect)

/-- REM (R60). -/
def execCrRem (n : Fin 24) (rd ra rb : Fin 32) (s : State) : Host.Outcome State Fault Refusal :=
  .next ((s.fetched n.val (.crRem n rd ra rb) (fun s => s.op3 n.val rd.val ra.val rb.val (fun a b => remS a b))).collect)

/-- REMU (R60). -/
def execCrRemu (n : Fin 24) (rd ra rb : Fin 32) (s : State) : Host.Outcome State Fault Refusal :=
  .next ((s.fetched n.val (.crRemu n rd ra rb) (fun s => s.op3 n.val rd.val ra.val rb.val (fun a b => remU a b))).collect)

/-- ADDI (R61). -/
def execCrAddi (n : Fin 24) (rd ra : Fin 32) (imm : BitVec 16) (s : State) : Host.Outcome State Fault Refusal :=
  .next ((s.fetched n.val (.crAddi n rd ra imm) (fun s => s.issueCore n.val (fun c => c.addFlags rd.val (c.gr ra.val) (sext16 imm.toNat) 0))).collect)

/-- ANDI (R61). -/
def execCrAndi (n : Fin 24) (rd ra : Fin 32) (imm : BitVec 16) (s : State) : Host.Outcome State Fault Refusal :=
  .next ((s.fetched n.val (.crAndi n rd ra imm) (fun s => s.op2 n.val rd.val ra.val (fun a => a &&& imm.toNat))).collect)

/-- ORI (R61). -/
def execCrOri (n : Fin 24) (rd ra : Fin 32) (imm : BitVec 16) (s : State) : Host.Outcome State Fault Refusal :=
  .next ((s.fetched n.val (.crOri n rd ra imm) (fun s => s.op2 n.val rd.val ra.val (fun a => a ||| imm.toNat))).collect)

/-- XORI (R61). -/
def execCrXori (n : Fin 24) (rd ra : Fin 32) (imm : BitVec 16) (s : State) : Host.Outcome State Fault Refusal :=
  .next ((s.fetched n.val (.crXori n rd ra imm) (fun s => s.op2 n.val rd.val ra.val (fun a => a ^^^ imm.toNat))).collect)

/-- CLTI (R61). -/
def execCrClti (n : Fin 24) (rd ra : Fin 32) (imm : BitVec 16) (s : State) : Host.Outcome State Fault Refusal :=
  .next ((s.fetched n.val (.crClti n rd ra imm) (fun s => s.op2 n.val rd.val ra.val (fun a => b2n (decide (sx 32 a < sx 16 imm.toNat))))).collect)

/-- CLTIU (R61). -/
def execCrCltiu (n : Fin 24) (rd ra : Fin 32) (imm : BitVec 16) (s : State) : Host.Outcome State Fault Refusal :=
  .next ((s.fetched n.val (.crCltiu n rd ra imm) (fun s => s.op2 n.val rd.val ra.val (fun a => b2n (decide (a < sext16 imm.toNat))))).collect)

/-- SHI (R61). -/
def execCrShi (n : Fin 24) (rd ra : Fin 32) (imm : BitVec 16) (s : State) : Host.Outcome State Fault Refusal :=
  .next ((s.fetched n.val (.crShi n rd ra imm) (fun s => s.effShi n.val rd.val ra.val imm.toNat)).collect)

/-- LIH (R61). -/
def execCrLih (n : Fin 24) (rd : Fin 32) (imm : BitVec 16) (s : State) : Host.Outcome State Fault Refusal :=
  .next ((s.fetched n.val (.crLih n rd imm) (fun s => s.issueCore n.val (fun c => c.setG rd.val (imm.toNat * 2 ^ 16)))).collect)

/-- LDW (R62). -/
def execCrLdw (n : Fin 24) (rd ra : Fin 32) (imm : BitVec 16) (s : State) : Host.Outcome State Fault Refusal :=
  .next ((s.fetched n.val (.crLdw n rd ra imm) (fun s => s.loadInstr n.val ra.val imm.toNat 4 true (fun c v => c.setG rd.val v))).finish)

/-- LDH (R62). -/
def execCrLdh (n : Fin 24) (rd ra : Fin 32) (imm : BitVec 16) (s : State) : Host.Outcome State Fault Refusal :=
  .next ((s.fetched n.val (.crLdh n rd ra imm) (fun s => s.loadInstr n.val ra.val imm.toNat 2 true (fun c v => c.setG rd.val (ux 32 (sx 16 v))))).finish)

/-- LDHU (R62). -/
def execCrLdhu (n : Fin 24) (rd ra : Fin 32) (imm : BitVec 16) (s : State) : Host.Outcome State Fault Refusal :=
  .next ((s.fetched n.val (.crLdhu n rd ra imm) (fun s => s.loadInstr n.val ra.val imm.toNat 2 true (fun c v => c.setG rd.val v))).finish)

/-- LDB (R62). -/
def execCrLdb (n : Fin 24) (rd ra : Fin 32) (imm : BitVec 16) (s : State) : Host.Outcome State Fault Refusal :=
  .next ((s.fetched n.val (.crLdb n rd ra imm) (fun s => s.loadInstr n.val ra.val imm.toNat 1 true (fun c v => c.setG rd.val (ux 32 (sx 8 v))))).finish)

/-- LDBU (R62). -/
def execCrLdbu (n : Fin 24) (rd ra : Fin 32) (imm : BitVec 16) (s : State) : Host.Outcome State Fault Refusal :=
  .next ((s.fetched n.val (.crLdbu n rd ra imm) (fun s => s.loadInstr n.val ra.val imm.toNat 1 true (fun c v => c.setG rd.val v))).finish)

/-- LDD (R62). -/
def execCrLdd (n : Fin 24) (rd ra : Fin 32) (imm : BitVec 16) (s : State) : Host.Outcome State Fault Refusal :=
  .next ((s.fetched n.val (.crLdd n rd ra imm) (fun s => s.loadInstr n.val ra.val imm.toNat 8 (pairOk rd.val) (fun c v => c.setPair rd.val v))).finish)

/-- STW (R62). -/
def execCrStw (n : Fin 24) (rs ra : Fin 32) (imm : BitVec 16) (s : State) : Host.Outcome State Fault Refusal :=
  .next ((s.fetched n.val (.crStw n rs ra imm) (fun s => s.storeInstr n.val ra.val imm.toNat 4 true (fun c => c.gr rs.val))).finish)

/-- STH (R62). -/
def execCrSth (n : Fin 24) (rs ra : Fin 32) (imm : BitVec 16) (s : State) : Host.Outcome State Fault Refusal :=
  .next ((s.fetched n.val (.crSth n rs ra imm) (fun s => s.storeInstr n.val ra.val imm.toNat 2 true (fun c => c.gr rs.val))).finish)

/-- STB (R62). -/
def execCrStb (n : Fin 24) (rs ra : Fin 32) (imm : BitVec 16) (s : State) : Host.Outcome State Fault Refusal :=
  .next ((s.fetched n.val (.crStb n rs ra imm) (fun s => s.storeInstr n.val ra.val imm.toNat 1 true (fun c => c.gr rs.val))).finish)

/-- STD (R62). -/
def execCrStd (n : Fin 24) (rs ra : Fin 32) (imm : BitVec 16) (s : State) : Host.Outcome State Fault Refusal :=
  .next ((s.fetched n.val (.crStd n rs ra imm) (fun s => s.storeInstr n.val ra.val imm.toNat 8 (pairOk rs.val) (fun c => c.pair rs.val))).finish)

/-- POSTED_STORE_FAIL (R231). -/
def execPostedStoreFail (n : Fin 24) (addr : BitVec 40) (s : State) : Host.Outcome State Fault Refusal :=
  .next ((s.effPostedStoreFail n.val addr.toNat).finish)

/-- SWAP (R62). -/
def execCrSwap (n : Fin 24) (rd ra rb : Fin 32) (s : State) : Host.Outcome State Fault Refusal :=
  .next ((s.fetched n.val (.crSwap n rd ra rb) (fun s => s.atomicInstr n.val rd.val ra.val (fun c _ => some (c.gr rb.val)))).finish)

/-- LDADD (R62). -/
def execCrLdadd (n : Fin 24) (rd ra rb : Fin 32) (s : State) : Host.Outcome State Fault Refusal :=
  .next ((s.fetched n.val (.crLdadd n rd ra rb) (fun s => s.atomicInstr n.val rd.val ra.val (fun c t => some ((t + c.gr rb.val) % 2 ^ 32)))).finish)

/-- CAS (R62). -/
def execCrCas (n : Fin 24) (rd ra rb : Fin 32) (s : State) : Host.Outcome State Fault Refusal :=
  .next ((s.fetched n.val (.crCas n rd ra rb) (fun s => s.atomicInstr n.val rd.val ra.val (fun c t => if t = c.gr rd.val then some (c.gr rb.val) else none))).finish)

/-- BEQ (R63). -/
def execCrBeq (n : Fin 24) (ra rb : Fin 32) (off : BitVec 16) (s : State) : Host.Outcome State Fault Refusal :=
  .next ((s.fetched n.val (.crBeq n ra rb off) (fun s => s.branch n.val ra.val rb.val off.toNat (fun a b => a == b))).collect)

/-- BNE (R63). -/
def execCrBne (n : Fin 24) (ra rb : Fin 32) (off : BitVec 16) (s : State) : Host.Outcome State Fault Refusal :=
  .next ((s.fetched n.val (.crBne n ra rb off) (fun s => s.branch n.val ra.val rb.val off.toNat (fun a b => a != b))).collect)

/-- BLT (R63). -/
def execCrBlt (n : Fin 24) (ra rb : Fin 32) (off : BitVec 16) (s : State) : Host.Outcome State Fault Refusal :=
  .next ((s.fetched n.val (.crBlt n ra rb off) (fun s => s.branch n.val ra.val rb.val off.toNat (fun a b => decide (sx 32 a < sx 32 b)))).collect)

/-- BGE (R63). -/
def execCrBge (n : Fin 24) (ra rb : Fin 32) (off : BitVec 16) (s : State) : Host.Outcome State Fault Refusal :=
  .next ((s.fetched n.val (.crBge n ra rb off) (fun s => s.branch n.val ra.val rb.val off.toNat (fun a b => decide (sx 32 b ≤ sx 32 a)))).collect)

/-- BLTU (R63). -/
def execCrBltu (n : Fin 24) (ra rb : Fin 32) (off : BitVec 16) (s : State) : Host.Outcome State Fault Refusal :=
  .next ((s.fetched n.val (.crBltu n ra rb off) (fun s => s.branch n.val ra.val rb.val off.toNat (fun a b => decide (a < b)))).collect)

/-- BGEU (R63). -/
def execCrBgeu (n : Fin 24) (ra rb : Fin 32) (off : BitVec 16) (s : State) : Host.Outcome State Fault Refusal :=
  .next ((s.fetched n.val (.crBgeu n ra rb off) (fun s => s.branch n.val ra.val rb.val off.toNat (fun a b => decide (b ≤ a)))).collect)

/-- JMP (R63). -/
def execCrJmp (n : Fin 24) (off : BitVec 16) (s : State) : Host.Outcome State Fault Refusal :=
  .next ((s.fetched n.val (.crJmp n off) (fun s => s.effCall n.val 0 off.toNat)).collect)

/-- CALL (R63). -/
def execCrCall (n : Fin 24) (rd : Fin 32) (off : BitVec 16) (s : State) : Host.Outcome State Fault Refusal :=
  .next ((s.fetched n.val (.crCall n rd off) (fun s => s.effCall n.val rd.val off.toNat)).collect)

/-- CALLR (R63). -/
def execCrCallr (n : Fin 24) (rd ra : Fin 32) (imm : BitVec 16) (s : State) : Host.Outcome State Fault Refusal :=
  .next ((s.fetched n.val (.crCallr n rd ra imm) (fun s => s.effCallr n.val rd.val ra.val imm.toNat)).collect)

/-- RDC (R64). -/
def execCrRdc (n : Fin 24) (rd : Fin 32) (sh : BitVec 5) (s : State) : Host.Outcome State Fault Refusal :=
  .next ((s.fetched n.val (.crRdc n rd sh) (fun s => s.effRdc n.val rd.val sh.toNat)).collect)

/-- WRC (R64). -/
def execCrWrc (n : Fin 24) (ra : Fin 32) (sh : BitVec 5) (s : State) : Host.Outcome State Fault Refusal :=
  .next ((s.fetched n.val (.crWrc n ra sh) (fun s => s.effWrc n.val ra.val sh.toNat)).collect)

/-- TRAP (R64). -/
def execCrTrap (n : Fin 24) (sh : BitVec 5) (s : State) : Host.Outcome State Fault Refusal :=
  .next ((s.fetched n.val (.crTrap n sh) (fun s => s.effTrap n.val sh.toNat)).collect)

/-- RTE (R64). -/
def execCrRte (n : Fin 24) (s : State) : Host.Outcome State Fault Refusal :=
  .next ((s.fetched n.val (.crRte n) (fun s => s.effRte n.val)).collect)

/-- FENCE (R65). -/
def execCrFence (n : Fin 24) (s : State) : Host.Outcome State Fault Refusal :=
  .next ((s.fetched n.val (.crFence n) (fun s => s.effFence n.val)).finish)

/-- CWB (R64). -/
def execCrCwb (n : Fin 24) (ra : Fin 32) (s : State) : Host.Outcome State Fault Refusal :=
  .next ((s.fetched n.val (.crCwb n ra) (fun s => s.cacheInstr n.val ra.val (fun t a => t.cacheBack n.val a))).finish)

/-- CINV (R64). -/
def execCrCinv (n : Fin 24) (ra : Fin 32) (s : State) : Host.Outcome State Fault Refusal :=
  .next ((s.fetched n.val (.crCinv n ra) (fun s => s.cacheInstr n.val ra.val (fun t a => t.lineDrop n.val (a / 64)))).finish)

/-- CWBI (R64). -/
def execCrCwbi (n : Fin 24) (ra : Fin 32) (s : State) : Host.Outcome State Fault Refusal :=
  .next ((s.fetched n.val (.crCwbi n ra) (fun s => s.cacheInstr n.val ra.val (fun t a => t.cacheBackDrop n.val a))).finish)

/-- CWBALL (R64). -/
def execCrCwball (n : Fin 24) (s : State) : Host.Outcome State Fault Refusal :=
  .next ((s.fetched n.val (.crCwball n) (fun s => s.effCwball n.val)).finish)

/-- RDTIME (R67). -/
def execCrRdtime (n : Fin 24) (rd : Fin 32) (s : State) : Host.Outcome State Fault Refusal :=
  .next ((s.fetched n.val (.crRdtime n rd) (fun s => s.effRdtime n.val rd.val)).collect)

/-- TADD (R67). -/
def execCrTadd (n : Fin 24) (rd ra rb : Fin 32) (s : State) : Host.Outcome State Fault Refusal :=
  .next ((s.fetched n.val (.crTadd n rd ra rb) (fun s => s.pairOp n.val rd.val ra.val rb.val (fun a b => a + b))).collect)

/-- TSUB (R67). -/
def execCrTsub (n : Fin 24) (rd ra rb : Fin 32) (s : State) : Host.Outcome State Fault Refusal :=
  .next ((s.fetched n.val (.crTsub n rd ra rb) (fun s => s.pairOp n.val rd.val ra.val rb.val (fun a b => a + 2 ^ 64 - b))).collect)

/-- TLT (R67). -/
def execCrTlt (n : Fin 24) (rd ra rb : Fin 32) (s : State) : Host.Outcome State Fault Refusal :=
  .next ((s.fetched n.val (.crTlt n rd ra rb) (fun s => s.effTlt n.val rd.val ra.val rb.val)).collect)

/-- AT (R68). -/
def execCrAt (n : Fin 24) (ra : Fin 32) (s : State) : Host.Outcome State Fault Refusal :=
  .next ((s.fetched n.val (.crAt n ra) (fun s => s.effAt n.val ra.val)).collect)

/-- AT_RELEASE (R68). -/
def execAtRelease (n : Fin 24) (s : State) : Host.Outcome State Fault Refusal :=
  .next ((s.effAtRelease n.val).collect)

/-- WAIT (R70). -/
def execCrWait (n : Fin 24) (rd ra : Fin 32) (s : State) : Host.Outcome State Fault Refusal :=
  .next ((s.fetched n.val (.crWait n rd ra) (fun s => s.effWait n.val rd.val ra.val)).collect)

/-- WAIT_WAKE (R70). -/
def execWaitWake (n : Fin 24) (s : State) : Host.Outcome State Fault Refusal :=
  .next ((s.effWaitWake n.val).collect)

/-- WAIT_DEADLINE (R70). -/
def execWaitDeadline (n : Fin 24) (s : State) : Host.Outcome State Fault Refusal :=
  .next ((s.effWaitDeadline n.val).collect)

/-- SIGNAL (R101). -/
def execCrSignal (n : Fin 24) (rd ra rb : Fin 32) (s : State) : Host.Outcome State Fault Refusal :=
  .next ((s.fetched n.val (.crSignal n rd ra rb) (fun s => s.effSignal n.val rd.val ra.val rb.val)).finish)

/-- EVSET (R67). -/
def execCrEvset (n : Fin 24) (ra : Fin 32) (s : State) : Host.Outcome State Fault Refusal :=
  .next ((s.fetched n.val (.crEvset n ra) (fun s => s.effEvset n.val ra.val)).collect)

/-- EVCLR (R67). -/
def execCrEvclr (n : Fin 24) (ra : Fin 32) (s : State) : Host.Outcome State Fault Refusal :=
  .next ((s.fetched n.val (.crEvclr n ra) (fun s => s.effEvclr n.val ra.val)).collect)

/-- OPEN (R91). -/
def execCrOpen (n : Fin 24) (rd ra rb : Fin 32) (s : State) : Host.Outcome State Fault Refusal :=
  .next ((s.fetched n.val (.crOpen n rd ra rb) (fun s => s.effOpen n.val rd.val ra.val rb.val)).finish)

/-- CLOSE (R89). -/
def execCrClose (n : Fin 24) (rd ra : Fin 32) (s : State) : Host.Outcome State Fault Refusal :=
  .next ((s.fetched n.val (.crClose n rd ra) (fun s => s.effClose n.val rd.val ra.val)).finish)

/-- QUERY (R93). -/
def execCrQuery (n : Fin 24) (rd ra rb : Fin 32) (s : State) : Host.Outcome State Fault Refusal :=
  .next ((s.fetched n.val (.crQuery n rd ra rb) (fun s => s.effQuery n.val rd.val ra.val rb.val)).finish)

/-- RPUSH (R74). -/
def execCrRpush (n : Fin 24) (rd ra rb : Fin 32) (s : State) : Host.Outcome State Fault Refusal :=
  .next ((s.fetched n.val (.crRpush n rd ra rb) (fun s => s.effRpush n.val rd.val ra.val rb.val)).finish)

/-- RPOP (R74). -/
def execCrRpop (n : Fin 24) (rd ra rb : Fin 32) (s : State) : Host.Outcome State Fault Refusal :=
  .next ((s.fetched n.val (.crRpop n rd ra rb) (fun s => s.effRpop n.val rd.val ra.val rb.val)).finish)

/-- MAC (R76). -/
def execCrMac (n : Fin 24) (a : Fin 2) (ra rb : Fin 32) (s : State) : Host.Outcome State Fault Refusal :=
  .next ((s.fetched n.val (.crMac n a ra rb) (fun s => s.issueDsp n.val (fun c => c.toAcc a.val (c.acc a.val + c.q15 ra.val * c.q15 rb.val)))).collect)

/-- MSU (R76). -/
def execCrMsu (n : Fin 24) (a : Fin 2) (ra rb : Fin 32) (s : State) : Host.Outcome State Fault Refusal :=
  .next ((s.fetched n.val (.crMsu n a ra rb) (fun s => s.issueDsp n.val (fun c => c.toAcc a.val (c.acc a.val - c.q15 ra.val * c.q15 rb.val)))).collect)

/-- MACL (R76). -/
def execCrMacl (n : Fin 24) (a : Fin 2) (ra rb : Fin 32) (s : State) : Host.Outcome State Fault Refusal :=
  .next ((s.fetched n.val (.crMacl n a ra rb) (fun s => s.issueDsp n.val (fun c => c.toAcc a.val (c.acc a.val + asr (c.sgr ra.val * c.q15 rb.val) 15)))).collect)

/-- CLRA (R76). -/
def execCrClra (n : Fin 24) (a : Fin 2) (s : State) : Host.Outcome State Fault Refusal :=
  .next ((s.fetched n.val (.crClra n a) (fun s => s.issueDsp n.val (fun c => c.putAcc a.val 0))).collect)

/-- LDA (R76). -/
def execCrLda (n : Fin 24) (a : Fin 2) (ra : Fin 32) (s : State) : Host.Outcome State Fault Refusal :=
  .next ((s.fetched n.val (.crLda n a ra) (fun s => s.issueDsp n.val (fun c => c.toAcc a.val (c.sgr ra.val * 32768)))).collect)

/-- RDA (R76). -/
def execCrRda (n : Fin 24) (rd : Fin 32) (a : Fin 2) (s : State) : Host.Outcome State Fault Refusal :=
  .next ((s.fetched n.val (.crRda n rd a) (fun s => s.issueDsp n.val (fun c => c.setG rd.val (ux 32 (c.acc a.val))))).collect)

/-- RDAS (R76). -/
def execCrRdas (n : Fin 24) (rd : Fin 32) (a : Fin 2) (s : State) : Host.Outcome State Fault Refusal :=
  .next ((s.fetched n.val (.crRdas n rd a) (fun s => s.issueDsp n.val (fun c => c.toQ15 rd.val (round15 (c.acc a.val))))).collect)

/-- QADD (R76). -/
def execCrQadd (n : Fin 24) (rd ra rb : Fin 32) (s : State) : Host.Outcome State Fault Refusal :=
  .next ((s.fetched n.val (.crQadd n rd ra rb) (fun s => s.issueDsp n.val (fun c => c.toQ15 rd.val (c.q15 ra.val + c.q15 rb.val)))).collect)

/-- QSUB (R76). -/
def execCrQsub (n : Fin 24) (rd ra rb : Fin 32) (s : State) : Host.Outcome State Fault Refusal :=
  .next ((s.fetched n.val (.crQsub n rd ra rb) (fun s => s.issueDsp n.val (fun c => c.toQ15 rd.val (c.q15 ra.val - c.q15 rb.val)))).collect)

/-- QMUL (R76). -/
def execCrQmul (n : Fin 24) (rd ra rb : Fin 32) (s : State) : Host.Outcome State Fault Refusal :=
  .next ((s.fetched n.val (.crQmul n rd ra rb) (fun s => s.issueDsp n.val (fun c => c.toQ15 rd.val (round15 (c.q15 ra.val * c.q15 rb.val))))).collect)

/-- CLIP (R76). -/
def execCrClip (n : Fin 24) (rd ra rb : Fin 32) (s : State) : Host.Outcome State Fault Refusal :=
  .next ((s.fetched n.val (.crClip n rd ra rb) (fun s => s.issueDsp n.val (fun c => c.setG rd.val (ux 32 (c.clip ra.val rb.val))))).collect)

/-- ABSS (R76). -/
def execCrAbss (n : Fin 24) (rd ra : Fin 32) (s : State) : Host.Outcome State Fault Refusal :=
  .next ((s.fetched n.val (.crAbss n rd ra) (fun s => s.issueDsp n.val (fun c => (c.satTo 32 (c.sgr ra.val).natAbs).1.setG rd.val (ux 32 (c.satTo 32 (c.sgr ra.val).natAbs).2)))).collect)

/-- INTERRUPT (R78). -/
def execInterrupt (n : Fin 24) (s : State) : Host.Outcome State Fault Refusal :=
  .next ((s.effInterrupt n.val).collect)

/-- CORE_RUN (R81). -/
def execCoreRun (n : Fin 24) (v : Word) (s : State) : Host.Outcome State Fault Refusal :=
  .next ((s.onWindow (0x08 + n.val) (fun t => t.effCrsCtrl n.val v)).finish)

/-- CORE_STOP (R81). -/
def execCoreStop (n : Fin 24) (v : Word) (s : State) : Host.Outcome State Fault Refusal :=
  .next ((s.onWindow (0x08 + n.val) (fun t => t.effCrsCtrl n.val v)).finish)

/-- CORE_SRESET (R81). -/
def execCoreSreset (n : Fin 24) (v : Word) (s : State) : Host.Outcome State Fault Refusal :=
  .next ((s.onWindow (0x08 + n.val) (fun t => t.effCrsCtrl n.val v)).finish)

/-- EVENT_INJECT (R81). -/
def execEventInject (n : Fin 24) (v : Word) (s : State) : Host.Outcome State Fault Refusal :=
  .next ((s.onWindow (0x08 + n.val) (fun t => t.wrCrs n.val 0x28 v)).finish)

/-- CRS_LOCK (R81). -/
def execCrsLock (n : Fin 24) (v : Word) (s : State) : Host.Outcome State Fault Refusal :=
  .next ((s.onWindow (0x08 + n.val) (fun t => t.wrCrs n.val 0x30 v)).finish)

end Sys2Proof.Machine
end

