-- ==== Sys2Proof/Machine/DiskRows.lean ====
section
/-!
DEFINITION. The meanings of the rows of disk channels and servos (chapters 10 and 11).
-/
namespace Sys2Proof.Machine

/-- STAGE (R301). -/
def execStage (d : Fin 8) (s : State) : Host.Outcome State Fault Refusal :=
  .next ((s.onUnit (s.hasDch d.val) (fun t => effStage d.val t)).finish)

/-- FREAD (R298). -/
def execFread (d : Fin 8) (s : State) : Host.Outcome State Fault Refusal :=
  .next ((s.onUnit (s.hasDch d.val) (fun t => effFread d.val t)).finish)

/-- FORMAT (R307). -/
def execFormat (d : Fin 8) (s : State) : Host.Outcome State Fault Refusal :=
  .next ((s.onUnit (s.hasDch d.val) (fun t => effFormat d.val t)).finish)

/-- DISK_REVOLUTION (R296). -/
def execDiskRevolution (d : Fin 8) (reads : List SectorRead) (s : State) : Host.Outcome State Fault Refusal :=
  .next ((s.onUnit (s.hasDch d.val) (fun t => effDiskRevolution d.val reads t)).finish)

/-- DSK_APPLY (R289). -/
def execDskApply (d : Fin 8) (v : Word) (s : State) : Host.Outcome State Fault Refusal :=
  .next ((s.onWindow (0x40 + d.val) (fun t => effDskCtrl d.val v t)).finish)

/-- RECOVERY_SWEEP_DONE (R306). -/
def execRecoverySweepDone (d : Fin 8) (reads : List SectorRead) (s : State) : Host.Outcome State Fault Refusal :=
  .next ((s.onUnit (s.hasDch d.val) (fun t => effRecoverySweepDone d.val reads t)).finish)

/-- DSK_RELEASE (R289). -/
def execDskRelease (d : Fin 8) (v : Word) (s : State) : Host.Outcome State Fault Refusal :=
  .next ((s.onWindow (0x40 + d.val) (fun t => effDskCtrl d.val v t)).finish)

/-- SERVO_FRAME (R312). -/
def execServoFrame (d : Fin 8) (fr : ServoFrame) (s : State) : Host.Outcome State Fault Refusal :=
  .next ((s.onUnit (s.hasDch d.val) (fun t => effServoFrame d.val fr t)).finish)

/-- SERVO_SAMPLE (R314). -/
def execServoSample (d : Fin 8) (s : State) : Host.Outcome State Fault Refusal :=
  .next ((s.onUnit (s.hasDch d.val) (fun t => effServoSample d.val t)).finish)

/-- VCM_WRITE (R315). -/
def execVcmWrite (d : Fin 8) (v : Word) (s : State) : Host.Outcome State Fault Refusal :=
  .next ((s.onWindow (0x48 + d.val / 2) (fun t => effVcmWrite d.val v t)).finish)

/-- VCM_WATCHDOG (R315). -/
def execVcmWatchdog (d : Fin 8) (s : State) : Host.Outcome State Fault Refusal :=
  .next ((s.onUnit (s.hasDch d.val) (fun t => effVcmWatchdog d.val t)).finish)

/-- SRV_TRK_WRITE (R316). -/
def execSrvTrkWrite (d : Fin 8) (v : Word) (s : State) : Host.Outcome State Fault Refusal :=
  .next ((s.onWindow (0x48 + d.val / 2) (fun t => effSrvTrkWrite d.val v t)).finish)

/-- SHOCK_SAMPLE (R317). -/
def execShockSample (h : Fin 4) (a b : Int) (s : State) : Host.Outcome State Fault Refusal :=
  .next ((s.onUnit (s.hasHda h.val) (fun t => effShockSample h.val a b t)).finish)

/-- PARK (R318). -/
def execPark (d : Fin 8) (v : Word) (s : State) : Host.Outcome State Fault Refusal :=
  .next ((s.onWindow (0x48 + d.val / 2) (fun t => effSrvCtrl (d.val / 2) v t)).finish)

/-- PARK_COMPLETE (R318). -/
def execParkComplete (d : Fin 8) (s : State) : Host.Outcome State Fault Refusal :=
  .next ((s.onUnit (s.hasDch d.val) (fun t => effParkComplete d.val t)).finish)

/-- UNPARK (R318). -/
def execUnpark (d : Fin 8) (v : Word) (s : State) : Host.Outcome State Fault Refusal :=
  .next ((s.onWindow (0x48 + d.val / 2) (fun t => effSrvCtrl (d.val / 2) v t)).finish)

/-- SEL_LOST_TIMEOUT (R319). -/
def execSelLostTimeout (d : Fin 8) (s : State) : Host.Outcome State Fault Refusal :=
  .next ((s.onUnit (s.hasDch d.val) (fun t => effSelLostTimeout d.val t)).finish)

/-- HDA_PRES_CHANGE (R320). -/
def execHdaPresChange (h : Fin 4) (present : Bool) (held : BitVec 40) (s : State) : Host.Outcome State Fault Refusal :=
  .next ((effHdaPresChange h.val present held.toNat s).finish)

end Sys2Proof.Machine
end

