-- ==== Sys2Proof/Machine/DriveRows.lean ====
section
/-!
DEFINITION. The meanings of the rows of motors, gate drive and steppers (chapters 11 and 12).
-/
namespace Sys2Proof.Machine

/-- BEMF_ZERO_CROSS (R323). -/
def execBemfZeroCross (m : Fin 16) (cmp : BitVec 4) (s : State) : Host.Outcome State Fault Refusal :=
  .next ((s.onUnit (s.hasMot m.val) (fun t => effBemfZeroCross m.val cmp t)).finish)

/-- COMMUTATION (R323). -/
def execCommutation (m : Fin 16) (s : State) : Host.Outcome State Fault Refusal :=
  .next ((s.onUnit (s.hasMot m.val) (fun t => effCommutation m.val t)).finish)

/-- HALL_CHANGE (R324). -/
def execHallChange (m : Fin 16) (c0 c1 c2 : BitVec 3) (s : State) : Host.Outcome State Fault Refusal :=
  .next ((s.onUnit (s.hasMot m.val) (fun t => effHallChange m.val c0.toNat c1.toNat c2.toNat t)).finish)

/-- ALIGN_DONE (R325). -/
def execAlignDone (m : Fin 16) (s : State) : Host.Outcome State Fault Refusal :=
  .next ((s.onUnit (s.hasMot m.val) (fun t => effAlignDone m.val t)).finish)

/-- RAMP_TIMEOUT (R325). -/
def execRampTimeout (m : Fin 16) (s : State) : Host.Outcome State Fault Refusal :=
  .next ((s.onUnit (s.hasMot m.val) (fun t => effRampTimeout m.val t)).finish)

/-- MOTOR_PWM_PERIOD (R326). -/
def execMotorPwmPeriod (m : Fin 16) (s : State) : Host.Outcome State Fault Refusal :=
  .next ((s.onUnit (s.hasMot m.val) (fun t => effMotorPwmPeriod m.val t)).finish)

/-- LOCKED_ROTOR (R327). -/
def execLockedRotor (m : Fin 16) (s : State) : Host.Outcome State Fault Refusal :=
  .next ((s.onUnit (s.hasMot m.val) (fun t => effLockedRotor m.val t)).finish)

/-- MOTOR_SPEED_ZERO (R328). -/
def execMotorSpeedZero (m : Fin 16) (s : State) : Host.Outcome State Fault Refusal :=
  .next ((s.onUnit (s.hasMot m.val) (fun t => effMotorSpeedZero m.val t)).finish)

/-- MOTOR_START (R329). -/
def execMotorStart (m : Fin 16) (v : Word) (s : State) : Host.Outcome State Fault Refusal :=
  .next ((s.onWindow (0x50 + m.val) (fun t => effMotCmd m.val v t)).finish)

/-- MOTOR_STOP (R328). -/
def execMotorStop (m : Fin 16) (v : Word) (s : State) : Host.Outcome State Fault Refusal :=
  .next ((s.onWindow (0x50 + m.val) (fun t => effMotCmd m.val v t)).finish)

/-- MOTOR_BRAKE (R328). -/
def execMotorBrake (m : Fin 16) (v : Word) (s : State) : Host.Outcome State Fault Refusal :=
  .next ((s.onWindow (0x50 + m.val) (fun t => effMotCmd m.val v t)).finish)

/-- MOTOR_CLR (R328). -/
def execMotorClr (m : Fin 16) (v : Word) (s : State) : Host.Outcome State Fault Refusal :=
  .next ((s.onWindow (0x50 + m.val) (fun t => effMotCmd m.val v t)).finish)

/-- SPINDLE_INDEX (R332). -/
def execSpindleIndex (h : Fin 4) (s : State) : Host.Outcome State Fault Refusal :=
  .next ((effSpindleIndex h.val s).finish)

/-- GATE_TURN_ON (R340). -/
def execGateTurnOn (k : Fin 32) (high : Bool) (pins : HbPins) (s : State) : Host.Outcome State Fault Refusal :=
  .next ((effGateTurnOn k.val high pins s).finish)

/-- GDR_MAN_WRITE (R341). -/
def execGdrManWrite (k : Fin 32) (v : Word) (s : State) : Host.Outcome State Fault Refusal :=
  .next ((effGdrManWrite k.val v s).finish)

/-- GOFF_TIMEOUT (R342). -/
def execGoffTimeout (k : Fin 32) (high goff : Bool) (s : State) : Host.Outcome State Fault Refusal :=
  .next ((effGoffTimeout k.val high goff s).finish)

/-- HSG_LOSS (R343). -/
def execHsgLoss (k : Fin 32) (hsg : BitVec 100) (s : State) : Host.Outcome State Fault Refusal :=
  .next ((effHsgLoss k.val hsg s).finish)

/-- DSAT_BLANK_END (R344). -/
def execDsatBlankEnd (k : Fin 32) (high : Bool) (s : State) : Host.Outcome State Fault Refusal :=
  .next ((effDsatBlankEnd k.val high s).finish)

/-- DESAT_DETECT (R344). -/
def execDesatDetect (k : Fin 32) (high : Bool) (dsatN : BitVec 10) (s : State) : Host.Outcome State Fault Refusal :=
  .next ((effDesatDetect k.val high dsatN s).finish)

/-- HARD_SHORT (R345). -/
def execHardShort (k : Fin 32) (hs : List (BitVec 10)) (s : State) : Host.Outcome State Fault Refusal :=
  .next ((effHardShort k.val hs s).finish)

/-- GDR_CLR (R349). -/
def execGdrClr (k : Fin 32) (v : Word) (pins : HbPins) (s : State) : Host.Outcome State Fault Refusal :=
  .next ((effGdrClr k.val v (s.hbSample k.val pins)).finish)

/-- INV_RUN (R350). -/
def execInvRun (j : Fin 2) (v : Word) (s : State) : Host.Outcome State Fault Refusal :=
  .next ((effInvRun j.val v s).finish)

/-- INV_PERIOD (R350). -/
def execInvPeriod (j : Fin 2) (s : State) : Host.Outcome State Fault Refusal :=
  .next ((effInvPeriod j.val s).finish)

/-- AXIS_TICK (R353). -/
def execAxisTick (home index stall : BitVec 16) (s : State) : Host.Outcome State Fault Refusal :=
  .next ((effAxisTick home index stall s).finish)

/-- STP_LOAD (R357). -/
def execStpLoad (x : Fin 16) (v : Word) (s : State) : Host.Outcome State Fault Refusal :=
  .next ((effStpCmd x.val v s).finish)

/-- STP_MOVE (R358). -/
def execStpMove (x : Fin 16) (v : Word) (s : State) : Host.Outcome State Fault Refusal :=
  .next ((effStpCmd x.val v s).finish)

/-- STP_STOP (R359). -/
def execStpStop (x : Fin 16) (v : Word) (s : State) : Host.Outcome State Fault Refusal :=
  .next ((effStpCmd x.val v s).finish)

/-- STP_RESUME (R359). -/
def execStpResume (x : Fin 16) (v : Word) (s : State) : Host.Outcome State Fault Refusal :=
  .next ((effStpCmd x.val v s).finish)

/-- STP_HOME (R362). -/
def execStpHome (x : Fin 16) (v : Word) (s : State) : Host.Outcome State Fault Refusal :=
  .next ((effStpCmd x.val v s).finish)

/-- STP_ENERGISE (R360). -/
def execStpEnergise (x : Fin 16) (v : Word) (s : State) : Host.Outcome State Fault Refusal :=
  .next ((effStpCmd x.val v s).finish)

/-- STP_RELEASE (R360). -/
def execStpRelease (x : Fin 16) (v : Word) (s : State) : Host.Outcome State Fault Refusal :=
  .next ((effStpCmd x.val v s).finish)

/-- STP_CLR (R360). -/
def execStpClr (x : Fin 16) (v : Word) (s : State) : Host.Outcome State Fault Refusal :=
  .next ((effStpCmd x.val v s).finish)

end Sys2Proof.Machine
end

