-- ==== Sys2Proof/Machine/Talosh.lean ====
section
/-!
DEFINITION. Talosh packets (R253 to R255, R259, R260) and their copies in a joined pair (R448).
-/
namespace Sys2Proof.Machine

/-- A posted write that failed a check (R254). -/
def State.pktFailed (s : State) (port : Nat) : State := s.addSat (F.TAL_PORT_DROP_FAILED port) 1

/-- A completion toward the host, unless the request came as a copy (R260). -/
def State.complete (s : State) (answer : Bool) (type tag status : Nat) (l : List Byte) : State :=
  if answer then s.sendHost type tag status l else s

/-- Length of a register packet: 1 to 64 registers (R253). -/
def regLenOk (n : Nat) : Bool := n % 4 == 0 && inRange 4 256 n

/-- Every byte of the range lies in a mapped register window; its 256 bytes at most reach into two. -/
def regsMapped (a n : Nat) : Bool :=
  decide (regBase ≤ a) && decide (a + n ≤ regBase + 0x1000000)
    && windowMapped ((a - regBase) / 0x10000) && windowMapped ((a + n - 1 - regBase) / 0x10000)

/-- A register packet whose address is misaligned: no register access of it is aligned (FS6, R11), and a rule of
alignment is broken (R254). -/
def State.regMisaligned (s : State) : State := s.raise 6

/-- REG_WR: consecutive registers, each access judged as R11 and R5 say. -/
def State.doRegWr (s : State) (port : Nat) (p : Pkt) : State :=
  if regLenOk p.payload.length = false then s.pktFailed port
  else if regsMapped p.addr p.payload.length = false then s.pktFailed port
  else if p.addr % 4 ≠ 0 then s.regMisaligned.pktFailed port
  else s.each (List.range (p.payload.length / 4)) (fun t i =>
    (t.regAccess true (p.addr - regBase + 4 * i) 4 true (BitVec.ofNat 32 (entLe p.payload (4 * i) 4))).1)

/-- Consecutive registers read. -/
def State.readRegs (s : State) (k n : Nat) : State × List Byte :=
  (List.range n).foldl (fun (r : State × List Byte) i =>
    match r.1.regAccess true (k + 4 * i) 4 false 0 with
    | (t, some v) => (t, r.2 ++ leBytes 4 v)
    | (t, none) => (t, r.2 ++ leBytes 4 0)) (s, [])

/-- REG_RD. -/
def State.doRegRd (s : State) (answer : Bool) (p : Pkt) : State :=
  if regLenOk p.len = false then s.complete answer 0x03 p.tag 3 []
  else if regsMapped p.addr p.len = false then s.complete answer 0x03 p.tag 1 []
  else if p.addr % 4 ≠ 0 then s.regMisaligned.complete answer 0x03 p.tag 3 []
  else match s.readRegs (p.addr - regBase) (p.len / 4) with
    | (t, l) => t.complete answer 0x03 p.tag 0 l

/-- MEM_WR: populated DRAM only. -/
def State.doMemWr (s : State) (port : Nat) (p : Pkt) : State :=
  if p.payload.length % 4 ≠ 0 ∨ 4096 < p.payload.length ∨ s.inDram p.addr p.payload.length = false then s.pktFailed port
  else match s.memWriteWords reqTalosh p.addr p.payload with
    | (t, true) => t.pktFailed port
    | (t, false) => t

/-- MEM_RD: populated DRAM or MRAM, 4 to 4,096 bytes aligned to 4 within 4 KiB. -/
def State.doMemRd (s : State) (answer : Bool) (p : Pkt) : State :=
  if p.len % 4 ≠ 0 ∨ p.addr % 4 ≠ 0 ∨ inRange 4 4096 p.len = false ∨ 4096 < p.addr % 4096 + p.len then
    s.complete answer 0x06 p.tag 3 []
  else if s.region p.addr ≠ .dram ∧ s.region p.addr ≠ .mram then s.complete answer 0x06 p.tag 1 []
  else match s.memRead reqTalosh p.addr p.len with
    | (t, .data l) => t.complete answer 0x06 p.tag 0 l
    | (t, .unmapped) => t.complete answer 0x06 p.tag 1 []
    | (t, .ecc _) => t.complete answer 0x06 p.tag 2 []

/-- A packet addressed to this device is performed; `answer` says that completions leave (R260). -/
def State.perform (s : State) (port : Nat) (answer : Bool) (p : Pkt) : State :=
  match p.type with
  | 0x01 => s.doRegWr port p
  | 0x02 => s.doRegRd answer p
  | 0x04 => s.doMemWr port p
  | 0x05 => s.doMemRd answer p
  | 0x09 => s.stqData p.tag p.addr p.payload
  | _ => s

/-- No route to the addressed device (R259). -/
def State.unreach (s : State) (p : Pkt) : State :=
  if p.type = 0x02 then (s.sendPkt 0 ⟨0x03, p.dev, 0, p.tag, 0, 4, []⟩).raise 220
  else if p.type = 0x05 then (s.sendPkt 0 ⟨0x06, p.dev, 0, p.tag, 0, 4, []⟩).raise 220
  else (s.addSat (F.TAL_PORT_DROP_UNREACH 0) 1).raise 220

/-- A packet that arrived on TU (R259, R260, R448): the active of a joined pair copies it to the shadow first; the
shadow ignores packets for the pair on its own TU. -/
def State.routeTu (s : State) (p : Pkt) : State :=
  if p.dev = s.devNum then
    (if s.isShadow then s
     else if s.isActive then (s.sendAcd 0x03 0 p.bytes).perform 0 true p
     else s.perform 0 true p).giveCredit 0 p
  else if s.linkUp 1 then s.forward 0 1 p
  else (s.unreach p).giveCredit 0 p

/-- The types of packets that have a row of their own on TU. -/
def tuRows : List Nat := [0x01, 0x02, 0x04, 0x05, 0x09]

/-- The packet belongs to the row of type `type`: a packet of a type that no row names belongs to DATA's. -/
def tuRow (type : Nat) (p : Pkt) : Bool := p.type == type || (type == 0x09 && !tuRows.contains p.type)

/-- A packet of type `type` arrives on TU. -/
def effTuPacket (type : Nat) (p : PktIn) (s : State) : State :=
  if tuRow type p.pkt then s.recvPkt 0 p (fun t => t.routeTu p.pkt) else s

/-- A packet arrives on TD: forwarded on TU; its own number means a duplicate (R259). -/
def effTdPacket (p : PktIn) (s : State) : State :=
  s.recvPkt 1 p (fun t =>
    (if p.pkt.dev = t.devNum then (t.setFlag (F.TAL_PORT_STATUS_DUP 1)).raise 219 else t).forward 1 0 p.pkt)

/-- A HOST copy received by the shadow: performed without answering (R260, R448). -/
def State.rxHost (s : State) (l : List Byte) : State :=
  if s.isShadow then s.perform 0 false (Pkt.ofBytes l) else s

end Sys2Proof.Machine
end

