-- ==== Sys2Proof/Machine/FaultRows.lean ====
section
/-!
DEFINITION. The meanings of the rows of faults, accord, service and boundary scan (chapter 15).
-/
namespace Sys2Proof.Machine

/-- An accord packet of type `type` arrives (R446). -/
def State.accordRow (s : State) (type : Nat) (p : PktIn) (f : State → State) : State :=
  if p.pkt.type = type then effAcdPkt p f s else s


/-- INCIDENT_ESCALATION (R438). -/
def execIncidentEscalation (s : State) : Host.Outcome State Fault Refusal :=
  .next ((effIncidentEscalation s).finish)

/-- INC_CLR (R438). -/
def execIncClr (v : Word) (s : State) : Host.Outcome State Fault Refusal :=
  .next ((effIncClr v s).finish)

/-- HEALTHY_SET (R442). -/
def execHealthySet (v : Word) (s : State) : Host.Outcome State Fault Refusal :=
  .next ((effFltCtrl v s).finish)

/-- FLT_KICK (R444). -/
def execFltKick (v : Word) (s : State) : Host.Outcome State Fault Refusal :=
  .next ((wrFlt 0x224 v s).finish)

/-- FLT_WATCHDOG_EXPIRY (R444). -/
def execFltWatchdogExpiry (s : State) : Host.Outcome State Fault Refusal :=
  .next ((effFltWatchdogExpiry s).finish)

/-- ALIVE_TOGGLE (R443). -/
def execAliveToggle (s : State) : Host.Outcome State Fault Refusal :=
  .next ((effAliveToggle s).finish)

/-- ACD_ENABLE (R445). -/
def execAcdEnable (v : Word) (s : State) : Host.Outcome State Fault Refusal :=
  .next ((s.onWindow 0x3A (fun t => effAcdCtrl v t)).finish)

/-- ACCORD_TRAIN_STEP (R445). -/
def execAccordTrainStep (s : State) : Host.Outcome State Fault Refusal :=
  .next ((s.onUnit s.hasAccord (fun t => effAccordTrainStep t)).finish)

/-- HELLO (R447). -/
def execHello (p : PktIn) (s : State) : Host.Outcome State Fault Refusal :=
  .next ((s.accordRow 1 p (fun t => t.rxHello p.pkt.payload)).finish)

/-- TIME (R447). -/
def execTimePkt (p : PktIn) (s : State) : Host.Outcome State Fault Refusal :=
  .next ((s.accordRow 2 p (fun t => t.rxTime p.pkt.payload)).finish)

/-- HOST (R448). -/
def execHostPkt (p : PktIn) (s : State) : Host.Outcome State Fault Refusal :=
  .next ((s.accordRow 3 p (fun t => t.rxHost p.pkt.payload)).finish)

/-- ACD_STAGE (R448). -/
def execAcdStage (p : PktIn) (s : State) : Host.Outcome State Fault Refusal :=
  .next ((s.accordRow 4 p (fun t => t.rxStage p.pkt.addr p.pkt.payload)).finish)

/-- PAGEQ (R449). -/
def execPageq (p : PktIn) (s : State) : Host.Outcome State Fault Refusal :=
  .next ((s.accordRow 5 p (fun t => t.rxPageq p.pkt.payload)).finish)

/-- PAGEA (R449). -/
def execPagea (p : PktIn) (s : State) : Host.Outcome State Fault Refusal :=
  .next ((s.accordRow 6 p (fun t => t.rxPagea p.pkt.payload)).finish)

/-- GRANT (R449). -/
def execGrant (p : PktIn) (s : State) : Host.Outcome State Fault Refusal :=
  .next ((s.accordRow 7 p (fun t => t.rxGrant p.pkt.payload)).finish)

/-- STATE (R449). -/
def execStatePkt (p : PktIn) (s : State) : Host.Outcome State Fault Refusal :=
  .next ((s.accordRow 8 p (fun t => t.rxState p.pkt.payload)).finish)

/-- STATE_TIMER (R449). -/
def execStateTimer (s : State) : Host.Outcome State Fault Refusal :=
  .next ((s.onUnit s.hasAccord (fun t => effStateTimer t)).finish)

/-- MREAD (R457). -/
def execMread (p : PktIn) (s : State) : Host.Outcome State Fault Refusal :=
  .next ((s.accordRow 9 p (fun t => t.rxMread p.pkt.payload)).finish)

/-- MDATA (R457). -/
def execMdata (p : PktIn) (s : State) : Host.Outcome State Fault Refusal :=
  .next ((s.accordRow 10 p (fun t => t.rxMdata p.pkt.addr p.pkt.payload)).finish)

/-- TKO (R452). -/
def execTko (p : PktIn) (s : State) : Host.Outcome State Fault Refusal :=
  .next ((s.accordRow 11 p (fun t => t.rxTko)).finish)

/-- FWMSG (R450). -/
def execFwmsg (p : PktIn) (s : State) : Host.Outcome State Fault Refusal :=
  .next ((s.accordRow 12 p (fun t => t.rxFwmsg p.pkt.payload)).finish)

/-- ACCORD_LINK_LOST (R455). -/
def execAccordLinkLost (down : BitVec 40) (s : State) : Host.Outcome State Fault Refusal :=
  .next ((s.onUnit s.hasAccord (fun t => effAccordLinkLost down.toNat t)).finish)

/-- OWN_IN_LOW (R451). -/
def execOwnInLow (low : BitVec 40) (s : State) : Host.Outcome State Fault Refusal :=
  .next ((s.onUnit s.hasAccord (fun t => effOwnInLow low.toNat t)).finish)

/-- TOKEN_POWERUP_TAKE (R451). -/
def execTokenPowerupTake (low : BitVec 40) (s : State) : Host.Outcome State Fault Refusal :=
  .next ((s.onUnit s.hasAccord (fun t => effTokenPowerupTake low.toNat t)).finish)

/-- TOKEN_CONFLICT (R451). -/
def execTokenConflict (both : BitVec 40) (s : State) : Host.Outcome State Fault Refusal :=
  .next ((s.onUnit s.hasAccord (fun t => effTokenConflict both.toNat t)).finish)

/-- TOKEN_BACKOFF_END (R451). -/
def execTokenBackoffEnd (low : BitVec 40) (s : State) : Host.Outcome State Fault Refusal :=
  .next ((s.onUnit s.hasAccord (fun t => effTokenBackoffEnd low.toNat t)).finish)

/-- HANDOVER (R456). -/
def execHandover (v : Word) (s : State) : Host.Outcome State Fault Refusal :=
  .next ((s.onWindow 0x3A (fun t => effAcdCtrl v t)).finish)

/-- CORE_TEST (R459). -/
def execCoreTest (v : Word) (s : State) : Host.Outcome State Fault Refusal :=
  .next ((effCoreTest v s).finish)

/-- CORE_TEST_DONE (R459). -/
def execCoreTestDone (pass : Bool) (s : State) : Host.Outcome State Fault Refusal :=
  .next ((effCoreTestDone pass s).finish)

/-- DCSVC_WRITE (R460). -/
def execDcsvcWrite (v : Word) (s : State) : Host.Outcome State Fault Refusal :=
  .next ((effDcsvcWrite v s).finish)

/-- SILLAGE_COMMIT (R463). -/
def execSillageCommit (s : State) : Host.Outcome State Fault Refusal :=
  .next ((effSillageCommit s).finish)

/-- NVM_APP_CMD (R466). -/
def execNvmAppCmd (v : Word) (s : State) : Host.Outcome State Fault Refusal :=
  .next ((effNvmAppCmd v s).finish)

/-- JTAG_BYPASS (R485). -/
def execJtagBypass (s : State) : Host.Outcome State Fault Refusal :=
  .next (s.jtagBypass.finish)

/-- JTAG_IDCODE (R485). -/
def execJtagIdcode (s : State) : Host.Outcome State Fault Refusal :=
  .next (s.jtagId.finish)

/-- JTAG_SAMPLE_PRELOAD (R485). -/
def execJtagSamplePreload (bits : List Bool) (s : State) : Host.Outcome State Fault Refusal :=
  .next ((s.jtagScan .samplePreload false bits).finish)

/-- JTAG_EXTEST (R486). -/
def execJtagExtest (bits : List Bool) (s : State) : Host.Outcome State Fault Refusal :=
  .next ((s.jtagTake (fun t => t.jtagScan .extest true bits)).finish)

/-- JTAG_CLAMP (R486). -/
def execJtagClamp (s : State) : Host.Outcome State Fault Refusal :=
  .next ((s.jtagTake (fun t => t.jtagHold .clamp)).finish)

/-- JTAG_HIGHZ (R486). -/
def execJtagHighz (s : State) : Host.Outcome State Fault Refusal :=
  .next ((s.jtagTake (fun t => t.jtagHold .highz)).finish)

/-- JTAG_EXTEST_PULSE (R486). -/
def execJtagExtestPulse (bits : List Bool) (s : State) : Host.Outcome State Fault Refusal :=
  .next ((s.jtagTake (fun t => t.jtagScan .extestPulse true bits)).finish)

/-- JTAG_EXTEST_TRAIN (R486). -/
def execJtagExtestTrain (bits : List Bool) (s : State) : Host.Outcome State Fault Refusal :=
  .next ((s.jtagTake (fun t => t.jtagScan .extestTrain true bits)).finish)

end Sys2Proof.Machine
end

