-- ==== Sys2Proof/Machine/HeadRows.lean ====
section
/-!
DEFINITION. The meanings of the rows of exposure links, interlocks and the panel (chapters 05 and 06).
-/
namespace Sys2Proof.Machine

/-- THERMAL_LIMIT_WRITE (R163). -/
def execThermalLimitWrite (st : Fin 4) (off : BitVec 16) (v : Word) (s : State) : Host.Outcome State Fault Refusal :=
  .next ((s.windowWrite (0x240000 + 0x10000 * st.val) off.toNat v).finish)

/-- CTL_RETRY (R175). -/
def execCtlRetry (st : Fin 4) (tag : BitVec 8) (s : State) : Host.Outcome State Fault Refusal :=
  .next ((s.onUnit (s.hasStn st.val) (fun t => effCtlRetry st.val tag.toNat t)).finish)

/-- FACET_RPT (R176). -/
def execFacetRpt (st : Fin 4) (crc : BitVec 16) (facet : BitVec 8) (ht credits : BitVec 16) (exec : Bool) (pfirst : BitVec 8) (amps : List (BitVec 8)) (s : State) : Host.Outcome State Fault Refusal :=
  .next ((s.onUnit (s.hasStn st.val) (fun t => effFacetRpt st.val crc.toNat facet.toNat ht.toNat credits.toNat exec pfirst.toNat (amps.map BitVec.toNat) t)).finish)

/-- NACK (R177). -/
def execNack (st : Fin 4) (crc : BitVec 16) (seq : BitVec 16) (s : State) : Host.Outcome State Fault Refusal :=
  .next ((s.onUnit (s.hasStn st.val) (fun t => effNack st.val crc.toNat seq.toNat t)).finish)

/-- CTL_ACK (R176). -/
def execCtlAck (st : Fin 4) (crc : BitVec 16) (tag : BitVec 8) (refused : Bool) (data rtt : BitVec 32) (s : State) : Host.Outcome State Fault Refusal :=
  .next ((s.onUnit (s.hasStn st.val) (fun t => effCtlAck st.val crc.toNat tag.toNat refused data.toNat rtt.toNat t)).finish)

/-- ALARM (R176). -/
def execAlarm (st : Fin 4) (crc : BitVec 16) (code : BitVec 8) (s : State) : Host.Outcome State Fault Refusal :=
  .next ((s.onUnit (s.hasStn st.val) (fun t => effAlarm st.val crc.toNat code.toNat t)).finish)

/-- IDENT (R178). -/
def execIdent (st : Fin 4) (crc : BitVec 16) (model : BitVec 16) (rev : BitVec 8) (portB : Bool) (s : State) : Host.Outcome State Fault Refusal :=
  .next ((s.onUnit (s.hasStn st.val) (fun t => effIdent st.val crc.toNat model.toNat rev.toNat portB t)).finish)

/-- CREDIT (R176). -/
def execCredit (st : Fin 4) (crc : BitVec 16) (k : BitVec 16) (s : State) : Host.Outcome State Fault Refusal :=
  .next ((s.onUnit (s.hasStn st.val) (fun t => effCredit st.val crc.toNat k.toNat t)).finish)

/-- ELK_ENABLE (R178). -/
def execElkEnable (st : Fin 4) (v : Word) (s : State) : Host.Outcome State Fault Refusal :=
  .next ((s.onWindow (0x28 + st.val) (fun t => effElkCtrl st.val v t)).finish)

/-- ELK_DISABLE (R180). -/
def execElkDisable (st : Fin 4) (v : Word) (s : State) : Host.Outcome State Fault Refusal :=
  .next ((s.onWindow (0x28 + st.val) (fun t => effElkCtrl st.val v t)).finish)

/-- ELK_RETRAIN (R180). -/
def execElkRetrain (st : Fin 4) (v : Word) (s : State) : Host.Outcome State Fault Refusal :=
  .next ((s.onWindow (0x28 + st.val) (fun t => effElkCtrl st.val v t)).finish)

/-- LINK_TRAIN_STEP (R178). -/
def execLinkTrainStep (st : Fin 4) (s : State) : Host.Outcome State Fault Refusal :=
  .next ((s.onUnit (s.hasStn st.val) (fun t => effLinkTrainStep st.val t)).finish)

/-- LINK_TRAIN_TIMEOUT (R178). -/
def execLinkTrainTimeout (st : Fin 4) (s : State) : Host.Outcome State Fault Refusal :=
  .next ((s.onUnit (s.hasStn st.val) (fun t => effLinkTrainTimeout st.val t)).finish)

/-- LINK_TRAIN_RETRY (R178). -/
def execLinkTrainRetry (st : Fin 4) (s : State) : Host.Outcome State Fault Refusal :=
  .next ((s.onUnit (s.hasStn st.val) (fun t => effLinkTrainRetry st.val t)).finish)

/-- BACK_CHANNEL_LOCK_LOSS (R181). -/
def execBackChannelLockLoss (st : Fin 4) (ns : BitVec 32) (s : State) : Host.Outcome State Fault Refusal :=
  .next ((s.onUnit (s.hasStn st.val) (fun t => effBackChannelLockLoss st.val ns.toNat t)).finish)

/-- ILK_OPEN (R183). -/
def execIlkOpen (st : Fin 4) (chB : Bool) (openNs : BitVec 40) (s : State) : Host.Outcome State Fault Refusal :=
  .next ((s.onUnit (s.hasStn st.val) (fun t => effIlkOpen st.val chB openNs.toNat t)).finish)

/-- ILK_ARMABLE (R183). -/
def execIlkArmable (st : Fin 4) (s : State) : Host.Outcome State Fault Refusal :=
  .next ((s.onUnit (s.hasStn st.val) (fun t => effIlkArmable st.val t)).finish)

/-- ILK_DISCREP (R184). -/
def execIlkDiscrep (st : Fin 4) (s : State) : Host.Outcome State Fault Refusal :=
  .next ((s.onUnit (s.hasStn st.val) (fun t => effIlkDiscrep st.val t)).finish)

/-- ILK_ARM (R183). -/
def execIlkArm (v : Word) (s : State) : Host.Outcome State Fault Refusal :=
  .next ((effIlkArm v s).finish)

/-- ILK_DISARM (R190). -/
def execIlkDisarm (v : Word) (s : State) : Host.Outcome State Fault Refusal :=
  .next ((effIlkArm v s).finish)

/-- PBTN_PRESS (R185). -/
def execPbtnPress (low : BitVec 40) (s : State) : Host.Outcome State Fault Refusal :=
  .next ((effPbtnPress low.toNat s).finish)

/-- PBTN_SHORT (R185). -/
def execPbtnShort (s : State) : Host.Outcome State Fault Refusal :=
  .next ((effPbtnShort s).finish)

/-- PBTN_LONG (R185). -/
def execPbtnLong (s : State) : Host.Outcome State Fault Refusal :=
  .next ((effPbtnLong s).finish)

/-- MRST (R186). -/
def execMrst (low : BitVec 40) (s : State) : Host.Outcome State Fault Refusal :=
  .next ((effMrst low.toNat s).finish)

/-- KEY_CHANGE (R187). -/
def execKeyChange (keys : BitVec 8) (held : BitVec 40) (s : State) : Host.Outcome State Fault Refusal :=
  .next ((effKeyChange keys.toNat held.toNat s).finish)

/-- CNS_PRESENCE_CHANGE (R188). -/
def execCnsPresenceChange (k : Fin 8) (present : Bool) (held : BitVec 40) (s : State) : Host.Outcome State Fault Refusal :=
  .next ((effCnsPresenceChange k.val present held.toNat s).finish)

/-- CNS_READ (R188). -/
def execCnsRead (v : Word) (s : State) : Host.Outcome State Fault Refusal :=
  .next ((effCnsRead v s).finish)

/-- CNS_READ_DONE (R188). -/
def execCnsReadDone (ack stuck : Bool) (tid : BitVec 64) (data : List Byte) (check : BitVec 16) (s : State) : Host.Outcome State Fault Refusal :=
  .next ((effCnsReadDone ack stuck tid data check.toNat s).finish)

end Sys2Proof.Machine
end

