-- ==== Sys2Proof/Machine/LateRows.lean ====
section
/-!
DEFINITION. The meanings of the rows of the rows that stand at the end of the table.
-/
namespace Sys2Proof.Machine

/-- INTERLOCK_CLOSE (R183). -/
def execInterlockClose (st : Fin 4) (chB : Bool) (s : State) : Host.Outcome State Fault Refusal :=
  .next ((s.onUnit (s.hasStn st.val) (fun t => effInterlockClose st.val chB t)).finish)

/-- SEQUENCE_BOUNCE (R404). -/
def execSequenceBounce (low : BitVec 40) (s : State) : Host.Outcome State Fault Refusal :=
  .next ((effSequenceBounce low.toNat s).finish)

/-- ACCORD_TRAIN_TIMEOUT (R445). -/
def execAccordTrainTimeout (s : State) : Host.Outcome State Fault Refusal :=
  .next ((s.onUnit s.hasAccord (fun t => effAccordTrainTimeout t)).finish)

/-- ACCORD_TRAIN_RETRY (R445). -/
def execAccordTrainRetry (s : State) : Host.Outcome State Fault Refusal :=
  .next ((s.onUnit s.hasAccord (fun t => effAccordTrainRetry t)).finish)

/-- RAMP_FORCED_STEP (R325). -/
def execRampForcedStep (m : Fin 16) (s : State) : Host.Outcome State Fault Refusal :=
  .next ((s.onUnit (s.hasMot m.val) (fun t => effRampForcedStep m.val t)).finish)

/-- LPWM_PERIOD (R369). -/
def execLpwmPeriod (k : Fin 8) (s : State) : Host.Outcome State Fault Refusal :=
  .next ((effLpwmPeriod k.val s).finish)

end Sys2Proof.Machine
end

