-- ==== Sys2Proof/Machine/LoopRows.lean ====
section
/-!
DEFINITION. The meanings of the rows of the loop engine and the cameras (chapter 13).
-/
namespace Sys2Proof.Machine

/-- ADC_CONVERSION (R368). -/
def execAdcConversion (inputs : List Int) (s : State) : Host.Outcome State Fault Refusal :=
  .next ((effAdcConversion inputs s).finish)

/-- LOOP_TICK (R371). -/
def execLoopTick (s : State) : Host.Outcome State Fault Refusal :=
  .next ((effLoopTick s).finish)

/-- LOOP_START (R377). -/
def execLoopStart (v : Word) (s : State) : Host.Outcome State Fault Refusal :=
  .next ((effLopCmd v s).finish)

/-- LOOP_STOP (R377). -/
def execLoopStop (v : Word) (s : State) : Host.Outcome State Fault Refusal :=
  .next ((effLopCmd v s).finish)

/-- TLOAD (R379). -/
def execTload (v : Word) (s : State) : Host.Outcome State Fault Refusal :=
  .next ((effLopCmd v s).finish)

/-- LOOP_TABLE_LOADED (R379). -/
def execLoopTableLoaded (i : Fin 64) (s : State) : Host.Outcome State Fault Refusal :=
  .next ((effLoopTableLoaded i.val s).finish)

/-- LOOP_SP_WRITE (R374). -/
def execLoopSpWrite (i : Fin 64) (v : Word) (s : State) : Host.Outcome State Fault Refusal :=
  .next ((effLoopSpWrite i.val v s).finish)

/-- ENCODER_TRANSITION (R380). -/
def execEncoderTransition (a b : Bool) (held : BitVec 16) (s : State) : Host.Outcome State Fault Refusal :=
  .next ((effEncoderTransition a b held.toNat s).finish)

/-- WEB_ZERO (R398). -/
def execWebZero (v : Word) (s : State) : Host.Outcome State Fault Refusal :=
  .next ((effWebZero v s).finish)

/-- CSI_FRAME_START (R385). -/
def execCsiFrameStart (c : Fin 4) (hdr : BitVec 32) (s : State) : Host.Outcome State Fault Refusal :=
  .next ((s.onUnit (s.hasCam c.val) (fun t => effCsiFrameStart c.val hdr t)).finish)

/-- CSI_LINE_START (R386). -/
def execCsiLineStart (c : Fin 4) (hdr : BitVec 32) (s : State) : Host.Outcome State Fault Refusal :=
  .next ((s.onUnit (s.hasCam c.val) (fun t => effCsiLineStart c.val hdr t)).finish)

/-- CSI_LONG_PACKET (R385). -/
def execCsiLongPacket (c : Fin 4) (hdr : BitVec 32) (body : List Byte) (s : State) : Host.Outcome State Fault Refusal :=
  .next ((s.onUnit (s.hasCam c.val) (fun t => effCsiLongPacket c.val hdr body t)).finish)

/-- CSI_FRAME_END (R385). -/
def execCsiFrameEnd (c : Fin 4) (hdr : BitVec 32) (s : State) : Host.Outcome State Fault Refusal :=
  .next ((s.onUnit (s.hasCam c.val) (fun t => effCsiFrameEnd c.val hdr t)).finish)

/-- CAMERA_FRAME_TIMEOUT (R387). -/
def execCameraFrameTimeout (c : Fin 4) (s : State) : Host.Outcome State Fault Refusal :=
  .next ((s.onUnit (s.hasCam c.val) (fun t => effCameraFrameTimeout c.val t)).finish)

/-- CAM_LOAD (R389). -/
def execCamLoad (c : Fin 4) (v : Word) (s : State) : Host.Outcome State Fault Refusal :=
  .next ((s.onWindow (0x64 + c.val) (fun t => effCamCtrl c.val v t)).finish)

/-- CAM_BYPASS (R395). -/
def execCamBypass (c : Fin 4) (v : Word) (s : State) : Host.Outcome State Fault Refusal :=
  .next ((s.onWindow (0x64 + c.val) (fun t => effCamCtrl c.val v t)).finish)

end Sys2Proof.Machine
end

