-- ==== Sys2Proof/Machine/DmaMove.lean ====
section
/-!
DEFINITION. What a DMA channel moves (R237, R238, R241): the accesses of one descriptor, in the order the holding
register gives them.
-/
namespace Sys2Proof.Machine

/-- A source access: the bytes, or the code of the halt (R242). -/
def State.dmaRead (s : State) (a k : Nat) : State × Except Nat (List Byte) :=
  match s.region a with
  | .regs =>
    (match s.regAccess false (a - regBase) k false 0 with
      | (t, some v) => (t, .ok (leBytes k v))
      | (t, none) => (t, .error 4))
  | _ =>
    (match s.sysMemRead reqDma a k with
      | (t, .data l) => (t, .ok l)
      | (t, .unmapped) => (t, .error 4)
      | (t, .ecc _) => (t, .error 1))

/-- A destination access: nothing, or the code of the halt. -/
def State.dmaWrite (s : State) (a : Nat) (l : List Byte) : State × Option Nat :=
  match s.region a with
  | .regs =>
    (match s.regAccess false (a - regBase) l.length true (BitVec.ofNat 32 (ofLe l)) with
      | (t, some _) => (t, none)
      | (t, none) => (t, some 4))
  | _ =>
    (match s.memWrite reqDma a l with
      | (t, .done) => (t, none)
      | (t, .unmapped) => (t, some 4)
      | (t, .ecc) => (t, some 3))

/-- How the accesses of a descriptor end. -/
inductive MoveEnd where
  | moved
  /-- The channel has been disabled by one of its own accesses. -/
  | left
  | halt (code done mism : Nat)
  deriving DecidableEq, Repr

/-- The channel still runs. -/
def State.dmaRunning (s : State) (n : Nat) : Bool :=
  match Tab.get s.dmas n with
  | some c => c.state == .running
  | none => false

/-- Address of the access at an offset of a side. -/
def dmaAddr (base : Nat) (fixed : Bool) (off : Nat) : Nat := if fixed then base else base + off

/-- COPY: a destination write as soon as the holding register has DW bytes, else a source read (R238). -/
def State.copyLoop (s : State) (n : Nat) (d : DmaDesc) (rd wr : Nat) (held : List Byte) : Nat → State × MoveEnd
  | 0 => (s, .moved)
  | fuel + 1 =>
    if s.dmaRunning n = false then (s, .left)
    else if d.len ≤ wr then (s, .moved)
    else if dmaWidth d.dw ≤ held.length then
      match s.dmaWrite (dmaAddr d.dst d.dfix wr) (held.take (dmaWidth d.dw)) with
      | (t, none) => t.copyLoop n d rd (wr + dmaWidth d.dw) (held.drop (dmaWidth d.dw)) fuel
      | (t, some code) => (t, .halt code wr 0)
    else
      match s.dmaRead (dmaAddr d.src d.sfix rd) (dmaWidth d.sw) with
      | (t, .ok l) => t.copyLoop n d (rd + dmaWidth d.sw) wr (held ++ l) fuel
      | (t, .error code) => (t, .halt code wr 0)

/-- FILL. -/
def State.fillLoop (s : State) (n : Nat) (d : DmaDesc) (wr : Nat) : Nat → State × MoveEnd
  | 0 => (s, .moved)
  | fuel + 1 =>
    if s.dmaRunning n = false then (s, .left)
    else if d.len ≤ wr then (s, .moved)
    else
      match s.dmaWrite (dmaAddr d.dst d.dfix wr) ((leBytes 8 d.src ++ leBytes 8 d.src).take (dmaWidth d.dw)) with
      | (t, none) => t.fillLoop n d (wr + dmaWidth d.dw) fuel
      | (t, some code) => (t, .halt code wr 0)

/-- Offset of the first byte that differs. -/
def firstDiff (a b : List Byte) : Option Nat :=
  (List.range a.length).find? (fun i => a.getD i 0 != b.getD i 0)

/-- COMPARE: both operands with width SW. An uncorrectable error on either is a source read's. -/
def State.compareLoop (s : State) (n : Nat) (d : DmaDesc) (k : Nat) : Nat → State × MoveEnd
  | 0 => (s, .moved)
  | fuel + 1 =>
    if s.dmaRunning n = false then (s, .left)
    else if d.len ≤ k then (s, .moved)
    else
      match s.dmaRead (dmaAddr d.src d.sfix k) (dmaWidth d.sw) with
      | (t, .error code) => (t, .halt code k 0)
      | (t, .ok a) =>
        match t.dmaRead (dmaAddr d.dst d.dfix k) (dmaWidth d.sw) with
        | (u, .error code) => (u, .halt code k 0)
        | (u, .ok b) =>
          match firstDiff a b with
          | some i => (u, .halt 7 (k + i) (k + i))
          | none => u.compareLoop n d (k + dmaWidth d.sw) fuel

/-- Source and destination of a COPY overlap: the destination is undefined (R237). -/
def DmaDesc.overlaps (d : DmaDesc) : Bool :=
  let a := dmaSpan d.sfix (dmaWidth d.sw) d.len
  let b := dmaSpan d.dfix (dmaWidth d.dw) d.len
  d.op == 0 && decide (d.src < d.dst + b) && decide (d.dst < d.src + a)
    && !meetsRegs d.src a && !meetsRegs d.dst b

/-- The destination of an overlapping COPY holds free values. -/
def State.dmaOpenDst (s : State) (d : DmaDesc) : State :=
  if d.overlaps then s.freeRange d.dst (dmaSpan d.dfix (dmaWidth d.dw) d.len) else s

/-- The accesses of the descriptor the channel holds, if its operation is `op`. -/
def State.dmaMove (s : State) (n op : Nat) (f : State → DmaDesc → State × MoveEnd) : State :=
  match Tab.get s.dmas n with
  | none => s
  | some c =>
    match c.desc with
    | none => s
    | some d =>
      if c.state ≠ .running ∨ c.moved = true ∨ d.op ≠ op then s
      else
        match f s d with
        | (t, .moved) => (t.dmaOpenDst d).modDma n (fun k => { k with moved := true, doneB := d.len })
        | (t, .left) => t
        | (t, .halt code done mism) => (t.dmaOpenDst d).dmaHalt n code done mism

/-- DMA_COPY, DMA_FILL, DMA_COMPARE. -/
def effDmaCopy (n : Nat) (s : State) : State := s.dmaMove n 0 (fun t d => t.copyLoop n d 0 0 [] (2 * d.len + 1))
def effDmaFill (n : Nat) (s : State) : State := s.dmaMove n 1 (fun t d => t.fillLoop n d 0 (d.len + 1))
def effDmaCompare (n : Nat) (s : State) : State := s.dmaMove n 2 (fun t d => t.compareLoop n d 0 (d.len + 1))

end Sys2Proof.Machine
end

