-- ==== Sys2Proof/Machine/MemoryRows.lean ====
section
/-!
DEFINITION. The meanings of the rows of memory and DMA (chapter 08).
-/
namespace Sys2Proof.Machine

/-- A write of DMAn_CTRL (R247): ignored while the object is not open. -/
def State.dmaCtrlWrite (s : State) (n : Nat) (v : Word) : State := wrDma (0x1008 + 0x20 * n) v s


/-- CE_WINDOW_END (R232). -/
def execCeWindowEnd (s : State) : Host.Outcome State Fault Refusal :=
  .next ((effCeWindowEnd s).finish)

/-- DRAM_TRAINING_DONE (R233). -/
def execDramTrainingDone (failed : BitVec 4) (s : State) : Host.Outcome State Fault Refusal :=
  .next ((effDramTrainingDone failed.toNat s).finish)

/-- DRAM_FILL_DONE (R233). -/
def execDramFillDone (s : State) : Host.Outcome State Fault Refusal :=
  .next ((effDramFillDone s).finish)

/-- SCRUB_UNIT (R234). -/
def execScrubUnit (s : State) : Host.Outcome State Fault Refusal :=
  .next ((effScrubUnit s).finish)

/-- MEM_INJ_ARM (R246). -/
def execMemInjArm (v : Word) (s : State) : Host.Outcome State Fault Refusal :=
  .next ((wrMem 0x58 v s).finish)

/-- MEM_LOCK (R246). -/
def execMemLock (v : Word) (s : State) : Host.Outcome State Fault Refusal :=
  .next ((wrMem 0x7C v s).finish)

/-- DMA_GO (R244). -/
def execDmaGo (ch : Fin 64) (v : Word) (s : State) : Host.Outcome State Fault Refusal :=
  .next ((s.dmaCtrlWrite ch.val v).finish)

/-- DMA_DISABLE (R243). -/
def execDmaDisable (ch : Fin 64) (v : Word) (s : State) : Host.Outcome State Fault Refusal :=
  .next ((s.dmaCtrlWrite ch.val v).finish)

/-- DMA_DISABLE_DONE (R243). -/
def execDmaDisableDone (ch : Fin 64) (s : State) : Host.Outcome State Fault Refusal :=
  .next ((effDmaDisableDone ch.val s).finish)

/-- DMA_DESC_FETCH (R239). -/
def execDmaDescFetch (ch : Fin 64) (s : State) : Host.Outcome State Fault Refusal :=
  .next ((effDmaDescFetch ch.val s).finish)

/-- DMA_COPY (R237). -/
def execDmaCopy (ch : Fin 64) (s : State) : Host.Outcome State Fault Refusal :=
  .next ((effDmaCopy ch.val s).finish)

/-- DMA_FILL (R237). -/
def execDmaFill (ch : Fin 64) (s : State) : Host.Outcome State Fault Refusal :=
  .next ((effDmaFill ch.val s).finish)

/-- DMA_COMPARE (R237). -/
def execDmaCompare (ch : Fin 64) (s : State) : Host.Outcome State Fault Refusal :=
  .next ((effDmaCompare ch.val s).finish)

/-- DMA_DESC_COMPLETE (R239). -/
def execDmaDescComplete (ch : Fin 64) (s : State) : Host.Outcome State Fault Refusal :=
  .next ((effDmaDescComplete ch.val s).finish)

end Sys2Proof.Machine
end

