-- ==== Sys2Proof/Machine/ObjectRows.lean ====
section
/-!
DEFINITION. The meanings of the rows of objects, rings, timers, jobs and drains (chapter 03).
-/
namespace Sys2Proof.Machine

/-- TIMER_EXPIRY (R100). -/
def execTimerExpiry (idx : Fin 256) (s : State) : Host.Outcome State Fault Refusal :=
  .next ((effTimerExpiry idx.val s).finish)

/-- RING_PDB (R105). -/
def execRingPdb (i : Fin 64) (v : Word) (s : State) : Host.Outcome State Fault Refusal :=
  .next ((effRingPdb i.val v s).finish)

/-- RING_CDB (R105). -/
def execRingCdb (i : Fin 64) (v : Word) (s : State) : Host.Outcome State Fault Refusal :=
  .next ((effRingCdb i.val v s).finish)

/-- STALLED_PUSH_RESUME (R106). -/
def execStalledPushResume (i : Fin 64) (s : State) : Host.Outcome State Fault Refusal :=
  .next ((effStalledPushResume i.val s).finish)

/-- JOB_START (R95). -/
def execJobStart (handle : Word) (s : State) : Host.Outcome State Fault Refusal :=
  .next ((effJobStart handle.toNat s).finish)

/-- JOB_STOP (R95). -/
def execJobStop (handle : Word) (s : State) : Host.Outcome State Fault Refusal :=
  .next ((effJobStop handle.toNat s).finish)

/-- PAGE_READY (R97). -/
def execPageReady (handle : Word) (s : State) : Host.Outcome State Fault Refusal :=
  .next ((effPageReady handle.toNat s).finish)

/-- DRAIN (R111). -/
def execDrain (v : Word) (s : State) : Host.Outcome State Fault Refusal :=
  .next ((effDrain v s).finish)

/-- DRAIN_DONE (R111). -/
def execDrainDone (s : State) : Host.Outcome State Fault Refusal :=
  .next ((effDrainDone s).finish)

/-- OBJ_TABLE_ECC (R113). -/
def execObjTableEcc (cls : Fin 16) (idx : Fin 1024) (s : State) : Host.Outcome State Fault Refusal :=
  .next ((effObjTableEcc cls.val idx.val s).finish)

end Sys2Proof.Machine
end

