-- ==== Sys2Proof/Machine/PowerRows.lean ====
section
/-!
DEFINITION. The meanings of the rows of power, thermal management and clocks (chapter 14).
-/
namespace Sys2Proof.Machine

/-- VIN_QUALIFIED (R407). -/
def execVinQualified (s : State) : Host.Outcome State Fault Refusal :=
  .next ((effVinQualified s).finish)

/-- SEQ_STEP_QUALIFIED (R404). -/
def execSeqStepQualified (mv : BitVec 16) (high : BitVec 40) (s : State) : Host.Outcome State Fault Refusal :=
  .next ((effSeqStepQualified mv.toNat high.toNat s).finish)

/-- SEQ_STEP_ABORT (R404). -/
def execSeqStepAbort (mv : BitVec 16) (high : BitVec 40) (s : State) : Host.Outcome State Fault Refusal :=
  .next ((effSeqStepAbort mv.toNat high.toNat s).finish)

/-- RAIL_JUDGEMENT (R405). -/
def execRailJudgement (r : Fin 16) (mv : BitVec 16) (good : Bool) (s : State) : Host.Outcome State Fault Refusal :=
  .next ((effRailJudgement r.val mv.toNat good s).finish)

/-- VIN_JUDGEMENT (R406). -/
def execVinJudgement (mv : BitVec 16) (s : State) : Host.Outcome State Fault Refusal :=
  .next ((effVinJudgement mv.toNat s).finish)

/-- BOOT_IMAGE_CHECK (R409). -/
def execBootImageCheck (answered flashOk : Bool) (image : List Byte) (s : State) : Host.Outcome State Fault Refusal :=
  .next ((effBootImageCheck answered flashOk image s).finish)

/-- BOOT_GO (R410). -/
def execBootGo (fromTalosh : Bool) (v : Word) (s : State) : Host.Outcome State Fault Refusal :=
  .next ((effBootGo fromTalosh v s).finish)

/-- PWR_CMD_DRYDOWN (R412). -/
def execPwrCmdDrydown (v : Word) (s : State) : Host.Outcome State Fault Refusal :=
  .next ((effPwrCmd v s).finish)

/-- DRYDOWN_PARK_DONE (R412). -/
def execDrydownParkDone (s : State) : Host.Outcome State Fault Refusal :=
  .next ((effDrydownParkDone s).finish)

/-- DRYDOWN_RAIL_OFF (R412). -/
def execDrydownRailOff (good : Bool) (s : State) : Host.Outcome State Fault Refusal :=
  .next ((effDrydownRailOff good s).finish)

/-- DRYDOWN_END (R412). -/
def execDrydownEnd (s : State) : Host.Outcome State Fault Refusal :=
  .next ((effDrydownEnd s).finish)

/-- HOLDOFF_END (R413). -/
def execHoldoffEnd (s : State) : Host.Outcome State Fault Refusal :=
  .next ((effHoldoffEnd s).finish)

/-- THERMAL_ROUND (R415). -/
def execThermalRound (raw : List (Option Int)) (bus : List I2cReply) (s : State) : Host.Outcome State Fault Refusal :=
  .next ((effThermalRound raw bus s).finish)

/-- TSD_ACK (R421). -/
def execTsdAck (fromTalosh : Bool) (v : Word) (s : State) : Host.Outcome State Fault Refusal :=
  .next ((effTsdAck fromTalosh v s).finish)

/-- CLK_APPLY (R426). -/
def execClkApply (i : Fin 16) (v : Word) (s : State) : Host.Outcome State Fault Refusal :=
  .next ((s.onWindow (0x70 + i.val) (fun t => effClkApply i.val v t)).finish)

/-- CLK_LOCK_ACQUIRED (R426). -/
def execClkLockAcquired (i : Fin 16) (s : State) : Host.Outcome State Fault Refusal :=
  .next ((s.onUnit (s.hasPll i.val) (fun t => effClkLockAcquired i.val t)).finish)

/-- CLK_LOSS_OF_LOCK (R428). -/
def execClkLossOfLock (i : Fin 16) (err : Int) (held : BitVec 32) (s : State) : Host.Outcome State Fault Refusal :=
  .next ((s.onUnit (s.hasPll i.val) (fun t => effClkLossOfLock i.val err held.toNat t)).finish)

/-- CLK_OUTPUT_RESTART (R428). -/
def execClkOutputRestart (i : Fin 16) (s : State) : Host.Outcome State Fault Refusal :=
  .next ((s.onUnit (s.hasPll i.val) (fun t => effClkOutputRestart i.val t)).finish)

/-- REFCLK_LOSS (R429). -/
def execRefclkLoss (quiet : BitVec 16) (cycles : BitVec 24) (s : State) : Host.Outcome State Fault Refusal :=
  .next ((effRefclkLoss quiet.toNat cycles.toNat s).finish)

/-- REF_SWITCH (R429). -/
def execRefSwitch (s : State) : Host.Outcome State Fault Refusal :=
  .next ((effRefSwitch s).finish)

/-- REFCLK_RESTORE (R429). -/
def execRefclkRestore (valid : BitVec 40) (s : State) : Host.Outcome State Fault Refusal :=
  .next ((effRefclkRestore valid.toNat s).finish)

/-- HOLDOVER_TIMEOUT (R429). -/
def execHoldoverTimeout (s : State) : Host.Outcome State Fault Refusal :=
  .next ((effHoldoverTimeout s).finish)

/-- CLK_LOCK_WRITE (R432). -/
def execClkLockWrite (i : Fin 16) (v : Word) (s : State) : Host.Outcome State Fault Refusal :=
  .next ((s.onWindow (0x70 + i.val) (fun t => effClkLockWrite i.val v t)).finish)

end Sys2Proof.Machine
end

