-- ==== Sys2Proof/Machine/PressRows.lean ====
section
/-!
DEFINITION. The meanings of the rows of register accesses, admission and snapshots (chapters 00 and 01).
-/
namespace Sys2Proof.Machine

/-- The answer of a register access to its requester. -/
def State.answer (s : State) (r : State × Option Nat) : State :=
  { r.1 with bus := match r.2 with | some v => ⟨false, v⟩ | none => ⟨true, s.bus.data⟩ }

/-- A read of the register at a register-space offset by an aligned 32-bit access. -/
def State.busRead (s : State) (k : Nat) : State := s.answer (s.regAccess false k 4 false 0)

/-- An access to register space by a requester (R11, R15, R488). An address outside it takes the error of R15: the rows
of LDW, STW, MEM_RD and their kind reach memory. -/
def effRegisterAccess (req : Requester) (a bytes : Nat) (write : Bool) (v : Word) (s : State) : State :=
  if s.region a = .regs then s.answer (s.regAccess (req == .talosh) (a - regBase) bytes write v)
  else { s with bus := ⟨true, s.bus.data⟩ }


/-- REGISTER_ACCESS (R488). -/
def execRegisterAccess (req : Requester) (addr : BitVec 40) (size : AccSize) (write : Bool) (v : Word) (s : State) : Host.Outcome State Fault Refusal :=
  .next ((effRegisterAccess req addr.toNat size.bytes write v s).finish)

/-- RC_READ (R42). -/
def execRcRead (off : BitVec 24) (s : State) : Host.Outcome State Fault Refusal :=
  .next ((s.busRead off.toNat).finish)

/-- PTIME_LO_READ (R43). -/
def execPtimeLoRead (s : State) : Host.Outcome State Fault Refusal :=
  .next ((s.busRead R.SYS_PTIME_LO).finish)

/-- OUTB_LO_READ (R224). -/
def execOutbLoRead (e : Fin 8) (s : State) : Host.Outcome State Fault Refusal :=
  .next ((s.busRead (R.ATR_OUTB_LO e.val)).finish)

/-- LOCAL_RAM_ACCESS (R54). -/
def execLocalRamAccess (n : Fin 24) (off : BitVec 17) (size : Fin 7) (write : Bool) (v : BitVec 512) (s : State) : Host.Outcome State Fault Refusal :=
  .next ((effLocalRam n.val off.toNat (2 ^ size.val) write v.toNat s).finish)

/-- ADMIT_REQ (R21). -/
def execAdmitReq (handle : Word) (s : State) : Host.Outcome State Fault Refusal :=
  .next ((effAdmitReq handle.toNat s).finish)

/-- ADMIT_EVALUATION (R22). -/
def execAdmitEvaluation (s : State) : Host.Outcome State Fault Refusal :=
  .next ((effAdmitEvaluation s).finish)

/-- WITHDRAW (R26). -/
def execWithdraw (handle : Word) (s : State) : Host.Outcome State Fault Refusal :=
  .next ((effWithdraw handle.toNat s).finish)

/-- SPOIL (R43). -/
def execSpoil (handle : Word) (s : State) : Host.Outcome State Fault Refusal :=
  .next ((effSpoil handle.toNat s).finish)

/-- PAGE_START (R18). -/
def execPageStart (idx : Fin 1024) (s : State) : Host.Outcome State Fault Refusal :=
  .next ((effPageStart idx.val s).finish)

/-- PAGE_DONE (R35). -/
def execPageDone (idx : Fin 1024) (s : State) : Host.Outcome State Fault Refusal :=
  .next ((effPageDone idx.val s).finish)

/-- SNAP_REQ (R39). -/
def execSnapReq (v : Word) (s : State) : Host.Outcome State Fault Refusal :=
  .next ((effSnapReq v s).finish)

/-- SNAPSHOT_DONE (R39). -/
def execSnapshotDone (s : State) : Host.Outcome State Fault Refusal :=
  .next ((effSnapshotDone s).finish)

/-- SNAPSHOT_TIMEOUT (R40). -/
def execSnapshotTimeout (missed : BitVec 24) (s : State) : Host.Outcome State Fault Refusal :=
  .next ((effSnapshotTimeout missed.toNat s).finish)

end Sys2Proof.Machine
end

