-- ==== Sys2Proof/Machine/StationRows.lean ====
section
/-!
DEFINITION. The meanings of the rows of scan, firing, lace and exposure protection (chapters 04 and 05).
-/
namespace Sys2Proof.Machine

/-- BD_PULSE (R119). -/
def execBdPulse (st : Fin 4) (falling : Bool) (width : BitVec 32) (interval : BitVec 32) (fine : BitVec 16) (s : State) : Host.Outcome State Fault Refusal :=
  .next ((s.onUnit (s.hasStn st.val) (fun t => effBdPulse st.val falling width.toNat interval.toNat fine.toNat t)).finish)

/-- FLYWHEEL_FACET (R121). -/
def execFlywheelFacet (st : Fin 4) (s : State) : Host.Outcome State Fault Refusal :=
  .next ((s.onUnit (s.hasStn st.val) (fun t => effFlywheelFacet st.val t)).finish)

/-- FLYOFF (R121). -/
def execFlyoff (st : Fin 4) (v : Word) (s : State) : Host.Outcome State Fault Refusal :=
  .next ((s.onWindow (0x20 + st.val) (fun t => effFlyoff st.val v t)).finish)

/-- POLYGON_INDEX (R124). -/
def execPolygonIndex (st : Fin 4) (s : State) : Host.Outcome State Fault Refusal :=
  .next ((s.onUnit (s.hasStn st.val) (fun t => effPolygonIndex st.val t)).finish)

/-- FACET_SCAN_END (R131). -/
def execFacetScanEnd (st : Fin 4) (s : State) : Host.Outcome State Fault Refusal :=
  .next ((s.onUnit (s.hasStn st.val) (fun t => effFacetScanEnd st.val t)).finish)

/-- EXP_TONE_WRITE (R133). -/
def execExpToneWrite (st : Fin 4) (i : Fin 2) (v : Word) (s : State) : Host.Outcome State Fault Refusal :=
  .next ((s.onWindow (0x20 + st.val) (fun t => effExpTone st.val i.val v t)).finish)

/-- EXP_PICOT_WRITE (R134). -/
def execExpPicotWrite (st : Fin 4) (v : Word) (s : State) : Host.Outcome State Fault Refusal :=
  .next ((s.onWindow (0x20 + st.val) (fun t => effExpPicot st.val v t)).finish)

/-- EXP_FIRE_WRITE (R136). -/
def execExpFireWrite (st : Fin 4) (b : Fin 128) (c : Fin 16) (v : Word) (s : State) : Host.Outcome State Fault Refusal :=
  .next ((s.onWindow (0x20 + st.val) (fun t => effExpFire st.val b.val c.val v t)).finish)

/-- FCTL_COMMIT (R137). -/
def execFctlCommit (st : Fin 4) (v : Word) (s : State) : Host.Outcome State Fault Refusal :=
  .next ((s.onWindow (0x20 + st.val) (fun t => effFctl st.val v t)).finish)

/-- FIRE_LOAD_DONE (R137). -/
def execFireLoadDone (st : Fin 4) (s : State) : Host.Outcome State Fault Refusal :=
  .next ((s.onUnit (s.hasStn st.val) (fun t => effFireLoadDone st.val t)).finish)

/-- FCTL_CANCEL (R138). -/
def execFctlCancel (st : Fin 4) (v : Word) (s : State) : Host.Outcome State Fault Refusal :=
  .next ((s.onWindow (0x20 + st.val) (fun t => effFctl st.val v t)).finish)

/-- BLOCK_FORMATION (R162). -/
def execBlockFormation (st : Fin 4) (block : BitVec 9) (s : State) : Host.Outcome State Fault Refusal :=
  .next ((s.onUnit (s.hasStn st.val) (fun t => effBlockFormation st.val block.toNat t)).finish)

/-- DUTY_BUCKET_BOUNDARY (R158). -/
def execDutyBucketBoundary (st : Fin 4) (s : State) : Host.Outcome State Fault Refusal :=
  .next ((s.onUnit (s.hasStn st.val) (fun t => effDutyBucketBoundary st.val t)).finish)

/-- DUTY_LIMIT_WRITE (R162). -/
def execDutyLimitWrite (st : Fin 4) (off : BitVec 16) (v : Word) (s : State) : Host.Outcome State Fault Refusal :=
  .next ((s.windowWrite (0x240000 + 0x10000 * st.val) off.toNat v).finish)

/-- FRAME_SEND (R172). -/
def execFrameSend (st : Fin 4) (s : State) : Host.Outcome State Fault Refusal :=
  .next ((s.onUnit (s.hasStn st.val) (fun t => effFrameSend st.val t)).finish)

/-- NEED_POINT (R218). -/
def execNeedPoint (st : Fin 4) (s : State) : Host.Outcome State Fault Refusal :=
  .next ((s.onUnit (s.hasStn st.val) (fun t => effNeedPoint st.val t)).finish)

/-- LACE_WRITE (R148). -/
def execLaceWrite (st : Fin 4) (off : BitVec 16) (v : Word) (s : State) : Host.Outcome State Fault Refusal :=
  .next ((s.windowWrite (0x240000 + 0x10000 * st.val) off.toNat v).finish)

/-- LEGALITY_CHECK_DONE (R148). -/
def execLegalityCheckDone (st : Fin 4) (s : State) : Host.Outcome State Fault Refusal :=
  .next ((s.onUnit (s.hasStn st.val) (fun t => effLegalityCheckDone st.val t)).finish)

/-- DEAD_MAP_WRITE (R152). -/
def execDeadMapWrite (st : Fin 4) (i : Fin 4) (v : Word) (s : State) : Host.Outcome State Fault Refusal :=
  .next ((s.onWindow (0x24 + st.val) (fun t => effDeadMapWrite st.val i.val v t)).finish)

/-- TEMP_STALE (R163). -/
def execTempStale (st : Fin 4) (s : State) : Host.Outcome State Fault Refusal :=
  .next ((s.onUnit (s.hasStn st.val) (fun t => effTempStale st.val t)).finish)

/-- COOL_DOWN_WRITE (R167). -/
def execCoolDownWrite (st : Fin 4) (s : State) : Host.Outcome State Fault Refusal :=
  .next ((s.onUnit (s.hasStn st.val) (fun t => effCoolDown st.val t)).finish)

/-- HOT_TRIP_CLEAR (R167). -/
def execHotTripClear (st : Fin 4) (v : Word) (s : State) : Host.Outcome State Fault Refusal :=
  .next ((s.onWindow (0x24 + st.val) (fun t => effLacStatus st.val v t)).finish)

end Sys2Proof.Machine
end

