-- ==== Sys2Proof/Machine/TaloshRows.lean ====
section
/-!
DEFINITION. The meanings of the rows of the Talosh link and the storage queue (chapter 09).
-/
namespace Sys2Proof.Machine

/-- TAL_PORT_TRAIN_STEP (R251). -/
def execTalPortTrainStep (p : Fin 2) (lanes : BitVec 4) (s : State) : Host.Outcome State Fault Refusal :=
  .next ((effTalStep p.val lanes.toNat s).finish)

/-- TAL_PORT_TRAIN_TIMEOUT (R251). -/
def execTalPortTrainTimeout (p : Fin 2) (s : State) : Host.Outcome State Fault Refusal :=
  .next ((effTalTimeout p.val s).finish)

/-- TAL_PORT_TRAIN_RETRY (R251). -/
def execTalPortTrainRetry (p : Fin 2) (s : State) : Host.Outcome State Fault Refusal :=
  .next ((effTalRetry p.val s).finish)

/-- TAL_LANE_LOCK_LOSS (R252). -/
def execTalLaneLockLoss (p : Fin 2) (ns : BitVec 32) (s : State) : Host.Outcome State Fault Refusal :=
  .next ((effTalLaneLoss p.val ns.toNat s).finish)

/-- TAL_RETRAIN (R278). -/
def execTalRetrain (p : Fin 2) (v : Word) (s : State) : Host.Outcome State Fault Refusal :=
  .next ((effTalCtrl p.val v s).finish)

/-- REG_WR (R254). -/
def execRegWr (p : PktIn) (s : State) : Host.Outcome State Fault Refusal :=
  .next ((effTuPacket 1 p s).finish)

/-- REG_RD (R254). -/
def execRegRd (p : PktIn) (s : State) : Host.Outcome State Fault Refusal :=
  .next ((effTuPacket 2 p s).finish)

/-- MEM_WR (R254). -/
def execMemWr (p : PktIn) (s : State) : Host.Outcome State Fault Refusal :=
  .next ((effTuPacket 4 p s).finish)

/-- MEM_RD (R254). -/
def execMemRd (p : PktIn) (s : State) : Host.Outcome State Fault Refusal :=
  .next ((effTuPacket 5 p s).finish)

/-- DATA (R272). -/
def execDataPkt (p : PktIn) (s : State) : Host.Outcome State Fault Refusal :=
  .next ((effTuPacket 9 p s).finish)

/-- CAPS (R251). -/
def execCaps (l : LinkId) (p : PktIn) (gen width : BitVec 2) (c : Credits) (s : State) : Host.Outcome State Fault Refusal :=
  .next ((effCaps l.idx p gen.toNat width.toNat c s).finish)

/-- TAL_CREDIT (R257). -/
def execTalCredit (l : LinkId) (p : PktIn) (c : Credits) (s : State) : Host.Outcome State Fault Refusal :=
  .next ((effTalCredit l.idx p c s).finish)

/-- ACK (R256). -/
def execAck (l : LinkId) (p : PktIn) (s : State) : Host.Outcome State Fault Refusal :=
  .next ((effAck l.idx p s).finish)

/-- NAK (R256). -/
def execNak (l : LinkId) (p : PktIn) (s : State) : Host.Outcome State Fault Refusal :=
  .next ((effNak l.idx p s).finish)

/-- REPLAY_TIMEOUT (R256). -/
def execReplayTimeout (l : LinkId) (s : State) : Host.Outcome State Fault Refusal :=
  .next ((effReplayTimeout l.idx s).finish)

/-- TD_PACKET (R259). -/
def execTdPacket (p : PktIn) (s : State) : Host.Outcome State Fault Refusal :=
  .next ((effTdPacket p s).finish)

/-- EVT_TX (R261). -/
def execEvtTx (v : Word) (s : State) : Host.Outcome State Fault Refusal :=
  .next ((effEvtTx v s).finish)

/-- T1_LINE_START (R262). -/
def execT1LineStart (psync : Bool) (got : List (BitVec 16)) (s : State) : Host.Outcome State Fault Refusal :=
  .next ((effT1LineStart psync got s).finish)

/-- T1_LINE_COMPLETE (R263). -/
def execT1LineComplete (words : List (BitVec 16)) (s : State) : Host.Outcome State Fault Refusal :=
  .next ((effT1LineComplete words s).finish)

/-- T1_REL (R263). -/
def execT1Rel (v : Word) (s : State) : Host.Outcome State Fault Refusal :=
  .next ((effT1Rel v s).finish)

/-- TAL_LOCK (R278). -/
def execTalLock (v : Word) (s : State) : Host.Outcome State Fault Refusal :=
  .next ((wrTal 0xFC v s).finish)

/-- VOL_LOAD (R266). -/
def execVolLoad (v : Word) (s : State) : Host.Outcome State Fault Refusal :=
  .next ((effVolcmd v s).finish)

/-- VOL_UNLOAD (R266). -/
def execVolUnload (v : Word) (s : State) : Host.Outcome State Fault Refusal :=
  .next ((effVolcmd v s).finish)

/-- STQ_LOCK (R279). -/
def execStqLock (v : Word) (s : State) : Host.Outcome State Fault Refusal :=
  .next ((effStqLock v s).finish)

/-- STQ_FETCH (R271). -/
def execStqFetch (s : State) : Host.Outcome State Fault Refusal :=
  .next (s.stqFetch.finish)

/-- STQ_WRITE (R272). -/
def execStqWrite (aseq : Word) (s : State) : Host.Outcome State Fault Refusal :=
  .next ((effStqWrite aseq.toNat s).finish)

/-- STQ_READ (R269). -/
def execStqRead (aseq : Word) (s : State) : Host.Outcome State Fault Refusal :=
  .next ((effStqRead aseq.toNat s).finish)

/-- FLUSH (R274). -/
def execFlush (aseq : Word) (s : State) : Host.Outcome State Fault Refusal :=
  .next ((effFlush aseq.toNat s).finish)

/-- IDENTIFY (R271). -/
def execIdentify (aseq : Word) (s : State) : Host.Outcome State Fault Refusal :=
  .next ((effIdentify aseq.toNat s).finish)

/-- COMMAND_BEGIN (R273). -/
def execCommandBegin (aseq : Word) (s : State) : Host.Outcome State Fault Refusal :=
  .next ((effCommandBegin aseq.toNat s).finish)

/-- XFER_TIMEOUT (R272). -/
def execXferTimeout (aseq : Word) (s : State) : Host.Outcome State Fault Refusal :=
  .next ((effXferTimeout aseq.toNat s).finish)

/-- STQ_READ_DONE (R275). -/
def execStqReadDone (aseq : Word) (s : State) : Host.Outcome State Fault Refusal :=
  .next ((effStqReadDone aseq.toNat s).finish)

/-- FLUSH_DONE (R274). -/
def execFlushDone (aseq : Word) (partnerDone : Bool) (s : State) : Host.Outcome State Fault Refusal :=
  .next ((effFlushDone aseq.toNat partnerDone s).finish)

end Sys2Proof.Machine
end

