-- ==== Sys2Proof/Machine/Dispatch.lean ====
section
/-!
DEFINITION. The meaning of each command, one arm per constructor.
-/
namespace Sys2Proof.Machine

/-- The effect of a command on everything but the queue. -/
def exec (i : Instr) (s : State) : Host.Outcome State Fault Refusal :=
  match i with
  | .registerAccess req addr size write v => Sys2Proof.Machine.execRegisterAccess req addr size write v s
  | .rcRead off => Sys2Proof.Machine.execRcRead off s
  | .ptimeLoRead => Sys2Proof.Machine.execPtimeLoRead s
  | .outbLoRead e => Sys2Proof.Machine.execOutbLoRead e s
  | .localRamAccess n off size write v => Sys2Proof.Machine.execLocalRamAccess n off size write v s
  | .admitReq handle => Sys2Proof.Machine.execAdmitReq handle s
  | .admitEvaluation => Sys2Proof.Machine.execAdmitEvaluation s
  | .withdraw handle => Sys2Proof.Machine.execWithdraw handle s
  | .spoil handle => Sys2Proof.Machine.execSpoil handle s
  | .pageStart idx => Sys2Proof.Machine.execPageStart idx s
  | .pageDone idx => Sys2Proof.Machine.execPageDone idx s
  | .snapReq v => Sys2Proof.Machine.execSnapReq v s
  | .snapshotDone => Sys2Proof.Machine.execSnapshotDone s
  | .snapshotTimeout missed => Sys2Proof.Machine.execSnapshotTimeout missed s
  | .crAdd n rd ra rb => Sys2Proof.Machine.execCrAdd n rd ra rb s
  | .crSub n rd ra rb => Sys2Proof.Machine.execCrSub n rd ra rb s
  | .crAdc n rd ra rb => Sys2Proof.Machine.execCrAdc n rd ra rb s
  | .crSbc n rd ra rb => Sys2Proof.Machine.execCrSbc n rd ra rb s
  | .crAnd n rd ra rb => Sys2Proof.Machine.execCrAnd n rd ra rb s
  | .crOr n rd ra rb => Sys2Proof.Machine.execCrOr n rd ra rb s
  | .crXor n rd ra rb => Sys2Proof.Machine.execCrXor n rd ra rb s
  | .crNor n rd ra rb => Sys2Proof.Machine.execCrNor n rd ra rb s
  | .crSll n rd ra rb => Sys2Proof.Machine.execCrSll n rd ra rb s
  | .crSrl n rd ra rb => Sys2Proof.Machine.execCrSrl n rd ra rb s
  | .crSra n rd ra rb => Sys2Proof.Machine.execCrSra n rd ra rb s
  | .crRor n rd ra rb => Sys2Proof.Machine.execCrRor n rd ra rb s
  | .crClt n rd ra rb => Sys2Proof.Machine.execCrClt n rd ra rb s
  | .crCltu n rd ra rb => Sys2Proof.Machine.execCrCltu n rd ra rb s
  | .crMin n rd ra rb => Sys2Proof.Machine.execCrMin n rd ra rb s
  | .crMax n rd ra rb => Sys2Proof.Machine.execCrMax n rd ra rb s
  | .crMinu n rd ra rb => Sys2Proof.Machine.execCrMinu n rd ra rb s
  | .crMaxu n rd ra rb => Sys2Proof.Machine.execCrMaxu n rd ra rb s
  | .crClz n rd ra => Sys2Proof.Machine.execCrClz n rd ra s
  | .crPopc n rd ra => Sys2Proof.Machine.execCrPopc n rd ra s
  | .crMul n rd ra rb => Sys2Proof.Machine.execCrMul n rd ra rb s
  | .crMulh n rd ra rb => Sys2Proof.Machine.execCrMulh n rd ra rb s
  | .crMulhu n rd ra rb => Sys2Proof.Machine.execCrMulhu n rd ra rb s
  | .crDiv n rd ra rb => Sys2Proof.Machine.execCrDiv n rd ra rb s
  | .crDivu n rd ra rb => Sys2Proof.Machine.execCrDivu n rd ra rb s
  | .crRem n rd ra rb => Sys2Proof.Machine.execCrRem n rd ra rb s
  | .crRemu n rd ra rb => Sys2Proof.Machine.execCrRemu n rd ra rb s
  | .crAddi n rd ra imm => Sys2Proof.Machine.execCrAddi n rd ra imm s
  | .crAndi n rd ra imm => Sys2Proof.Machine.execCrAndi n rd ra imm s
  | .crOri n rd ra imm => Sys2Proof.Machine.execCrOri n rd ra imm s
  | .crXori n rd ra imm => Sys2Proof.Machine.execCrXori n rd ra imm s
  | .crClti n rd ra imm => Sys2Proof.Machine.execCrClti n rd ra imm s
  | .crCltiu n rd ra imm => Sys2Proof.Machine.execCrCltiu n rd ra imm s
  | .crShi n rd ra imm => Sys2Proof.Machine.execCrShi n rd ra imm s
  | .crLih n rd imm => Sys2Proof.Machine.execCrLih n rd imm s
  | .crLdw n rd ra imm => Sys2Proof.Machine.execCrLdw n rd ra imm s
  | .crLdh n rd ra imm => Sys2Proof.Machine.execCrLdh n rd ra imm s
  | .crLdhu n rd ra imm => Sys2Proof.Machine.execCrLdhu n rd ra imm s
  | .crLdb n rd ra imm => Sys2Proof.Machine.execCrLdb n rd ra imm s
  | .crLdbu n rd ra imm => Sys2Proof.Machine.execCrLdbu n rd ra imm s
  | .crLdd n rd ra imm => Sys2Proof.Machine.execCrLdd n rd ra imm s
  | .crStw n rs ra imm => Sys2Proof.Machine.execCrStw n rs ra imm s
  | .crSth n rs ra imm => Sys2Proof.Machine.execCrSth n rs ra imm s
  | .crStb n rs ra imm => Sys2Proof.Machine.execCrStb n rs ra imm s
  | .crStd n rs ra imm => Sys2Proof.Machine.execCrStd n rs ra imm s
  | .postedStoreFail n addr => Sys2Proof.Machine.execPostedStoreFail n addr s
  | .crSwap n rd ra rb => Sys2Proof.Machine.execCrSwap n rd ra rb s
  | .crLdadd n rd ra rb => Sys2Proof.Machine.execCrLdadd n rd ra rb s
  | .crCas n rd ra rb => Sys2Proof.Machine.execCrCas n rd ra rb s
  | .crBeq n ra rb off => Sys2Proof.Machine.execCrBeq n ra rb off s
  | .crBne n ra rb off => Sys2Proof.Machine.execCrBne n ra rb off s
  | .crBlt n ra rb off => Sys2Proof.Machine.execCrBlt n ra rb off s
  | .crBge n ra rb off => Sys2Proof.Machine.execCrBge n ra rb off s
  | .crBltu n ra rb off => Sys2Proof.Machine.execCrBltu n ra rb off s
  | .crBgeu n ra rb off => Sys2Proof.Machine.execCrBgeu n ra rb off s
  | .crJmp n off => Sys2Proof.Machine.execCrJmp n off s
  | .crCall n rd off => Sys2Proof.Machine.execCrCall n rd off s
  | .crCallr n rd ra imm => Sys2Proof.Machine.execCrCallr n rd ra imm s
  | .crRdc n rd sh => Sys2Proof.Machine.execCrRdc n rd sh s
  | .crWrc n ra sh => Sys2Proof.Machine.execCrWrc n ra sh s
  | .crTrap n sh => Sys2Proof.Machine.execCrTrap n sh s
  | .crRte n => Sys2Proof.Machine.execCrRte n s
  | .crFence n => Sys2Proof.Machine.execCrFence n s
  | .crCwb n ra => Sys2Proof.Machine.execCrCwb n ra s
  | .crCinv n ra => Sys2Proof.Machine.execCrCinv n ra s
  | .crCwbi n ra => Sys2Proof.Machine.execCrCwbi n ra s
  | .crCwball n => Sys2Proof.Machine.execCrCwball n s
  | .crRdtime n rd => Sys2Proof.Machine.execCrRdtime n rd s
  | .crTadd n rd ra rb => Sys2Proof.Machine.execCrTadd n rd ra rb s
  | .crTsub n rd ra rb => Sys2Proof.Machine.execCrTsub n rd ra rb s
  | .crTlt n rd ra rb => Sys2Proof.Machine.execCrTlt n rd ra rb s
  | .crAt n ra => Sys2Proof.Machine.execCrAt n ra s
  | .atRelease n => Sys2Proof.Machine.execAtRelease n s
  | .crWait n rd ra => Sys2Proof.Machine.execCrWait n rd ra s
  | .waitWake n => Sys2Proof.Machine.execWaitWake n s
  | .waitDeadline n => Sys2Proof.Machine.execWaitDeadline n s
  | .crSignal n rd ra rb => Sys2Proof.Machine.execCrSignal n rd ra rb s
  | .crEvset n ra => Sys2Proof.Machine.execCrEvset n ra s
  | .crEvclr n ra => Sys2Proof.Machine.execCrEvclr n ra s
  | .crOpen n rd ra rb => Sys2Proof.Machine.execCrOpen n rd ra rb s
  | .crClose n rd ra => Sys2Proof.Machine.execCrClose n rd ra s
  | .crQuery n rd ra rb => Sys2Proof.Machine.execCrQuery n rd ra rb s
  | .crRpush n rd ra rb => Sys2Proof.Machine.execCrRpush n rd ra rb s
  | .crRpop n rd ra rb => Sys2Proof.Machine.execCrRpop n rd ra rb s
  | .crMac n a ra rb => Sys2Proof.Machine.execCrMac n a ra rb s
  | .crMsu n a ra rb => Sys2Proof.Machine.execCrMsu n a ra rb s
  | .crMacl n a ra rb => Sys2Proof.Machine.execCrMacl n a ra rb s
  | .crClra n a => Sys2Proof.Machine.execCrClra n a s
  | .crLda n a ra => Sys2Proof.Machine.execCrLda n a ra s
  | .crRda n rd a => Sys2Proof.Machine.execCrRda n rd a s
  | .crRdas n rd a => Sys2Proof.Machine.execCrRdas n rd a s
  | .crQadd n rd ra rb => Sys2Proof.Machine.execCrQadd n rd ra rb s
  | .crQsub n rd ra rb => Sys2Proof.Machine.execCrQsub n rd ra rb s
  | .crQmul n rd ra rb => Sys2Proof.Machine.execCrQmul n rd ra rb s
  | .crClip n rd ra rb => Sys2Proof.Machine.execCrClip n rd ra rb s
  | .crAbss n rd ra => Sys2Proof.Machine.execCrAbss n rd ra s
  | .interrupt n => Sys2Proof.Machine.execInterrupt n s
  | .coreRun n v => Sys2Proof.Machine.execCoreRun n v s
  | .coreStop n v => Sys2Proof.Machine.execCoreStop n v s
  | .coreSreset n v => Sys2Proof.Machine.execCoreSreset n v s
  | .eventInject n v => Sys2Proof.Machine.execEventInject n v s
  | .crsLock n v => Sys2Proof.Machine.execCrsLock n v s
  | .timerExpiry idx => Sys2Proof.Machine.execTimerExpiry idx s
  | .ringPdb j v => Sys2Proof.Machine.execRingPdb j v s
  | .ringCdb j v => Sys2Proof.Machine.execRingCdb j v s
  | .stalledPushResume j => Sys2Proof.Machine.execStalledPushResume j s
  | .jobStart handle => Sys2Proof.Machine.execJobStart handle s
  | .jobStop handle => Sys2Proof.Machine.execJobStop handle s
  | .pageReady handle => Sys2Proof.Machine.execPageReady handle s
  | .drain v => Sys2Proof.Machine.execDrain v s
  | .drainDone => Sys2Proof.Machine.execDrainDone s
  | .objTableEcc cls idx => Sys2Proof.Machine.execObjTableEcc cls idx s
  | .bdPulse st falling width interval fine => Sys2Proof.Machine.execBdPulse st falling width interval fine s
  | .flywheelFacet st => Sys2Proof.Machine.execFlywheelFacet st s
  | .flyoff st v => Sys2Proof.Machine.execFlyoff st v s
  | .polygonIndex st => Sys2Proof.Machine.execPolygonIndex st s
  | .facetScanEnd st => Sys2Proof.Machine.execFacetScanEnd st s
  | .expToneWrite st j v => Sys2Proof.Machine.execExpToneWrite st j v s
  | .expPicotWrite st v => Sys2Proof.Machine.execExpPicotWrite st v s
  | .expFireWrite st b c v => Sys2Proof.Machine.execExpFireWrite st b c v s
  | .fctlCommit st v => Sys2Proof.Machine.execFctlCommit st v s
  | .fireLoadDone st => Sys2Proof.Machine.execFireLoadDone st s
  | .fctlCancel st v => Sys2Proof.Machine.execFctlCancel st v s
  | .blockFormation st block => Sys2Proof.Machine.execBlockFormation st block s
  | .dutyBucketBoundary st => Sys2Proof.Machine.execDutyBucketBoundary st s
  | .dutyLimitWrite st off v => Sys2Proof.Machine.execDutyLimitWrite st off v s
  | .frameSend st => Sys2Proof.Machine.execFrameSend st s
  | .needPoint st => Sys2Proof.Machine.execNeedPoint st s
  | .laceWrite st off v => Sys2Proof.Machine.execLaceWrite st off v s
  | .legalityCheckDone st => Sys2Proof.Machine.execLegalityCheckDone st s
  | .deadMapWrite st j v => Sys2Proof.Machine.execDeadMapWrite st j v s
  | .tempStale st => Sys2Proof.Machine.execTempStale st s
  | .coolDownWrite st => Sys2Proof.Machine.execCoolDownWrite st s
  | .hotTripClear st v => Sys2Proof.Machine.execHotTripClear st v s
  | .thermalLimitWrite st off v => Sys2Proof.Machine.execThermalLimitWrite st off v s
  | .ctlRetry st tag => Sys2Proof.Machine.execCtlRetry st tag s
  | .facetRpt st crc facet ht credits exec pfirst amps => Sys2Proof.Machine.execFacetRpt st crc facet ht credits exec pfirst amps s
  | .nack st crc seq => Sys2Proof.Machine.execNack st crc seq s
  | .ctlAck st crc tag refused data rtt => Sys2Proof.Machine.execCtlAck st crc tag refused data rtt s
  | .alarm st crc code => Sys2Proof.Machine.execAlarm st crc code s
  | .ident st crc model rev portB => Sys2Proof.Machine.execIdent st crc model rev portB s
  | .credit st crc k => Sys2Proof.Machine.execCredit st crc k s
  | .elkEnable st v => Sys2Proof.Machine.execElkEnable st v s
  | .elkDisable st v => Sys2Proof.Machine.execElkDisable st v s
  | .elkRetrain st v => Sys2Proof.Machine.execElkRetrain st v s
  | .linkTrainStep st => Sys2Proof.Machine.execLinkTrainStep st s
  | .linkTrainTimeout st => Sys2Proof.Machine.execLinkTrainTimeout st s
  | .linkTrainRetry st => Sys2Proof.Machine.execLinkTrainRetry st s
  | .backChannelLockLoss st ns => Sys2Proof.Machine.execBackChannelLockLoss st ns s
  | .ilkOpen st chB openNs => Sys2Proof.Machine.execIlkOpen st chB openNs s
  | .ilkArmable st => Sys2Proof.Machine.execIlkArmable st s
  | .ilkDiscrep st => Sys2Proof.Machine.execIlkDiscrep st s
  | .ilkArm v => Sys2Proof.Machine.execIlkArm v s
  | .ilkDisarm v => Sys2Proof.Machine.execIlkDisarm v s
  | .pbtnPress low => Sys2Proof.Machine.execPbtnPress low s
  | .pbtnShort => Sys2Proof.Machine.execPbtnShort s
  | .pbtnLong => Sys2Proof.Machine.execPbtnLong s
  | .mrst low => Sys2Proof.Machine.execMrst low s
  | .keyChange keys held => Sys2Proof.Machine.execKeyChange keys held s
  | .cnsPresenceChange k present held => Sys2Proof.Machine.execCnsPresenceChange k present held s
  | .cnsRead v => Sys2Proof.Machine.execCnsRead v s
  | .cnsReadDone ack stuck tid data check => Sys2Proof.Machine.execCnsReadDone ack stuck tid data check s
  | .atrDecode e => Sys2Proof.Machine.execAtrDecode e s
  | .atrEncode e => Sys2Proof.Machine.execAtrEncode e s
  | .atrSave e => Sys2Proof.Machine.execAtrSave e s
  | .atrLoad e => Sys2Proof.Machine.execAtrLoad e s
  | .atrClear e => Sys2Proof.Machine.execAtrClear e s
  | .atrJobComplete e => Sys2Proof.Machine.execAtrJobComplete e s
  | .cplParkedPush e => Sys2Proof.Machine.execCplParkedPush e s
  | .pageBlockDispatch => Sys2Proof.Machine.execPageBlockDispatch s
  | .pageBlockDecoded e => Sys2Proof.Machine.execPageBlockDecoded e s
  | .atrOnline e v => Sys2Proof.Machine.execAtrOnline e v s
  | .atrOffline e v => Sys2Proof.Machine.execAtrOffline e v s
  | .atrTest e v => Sys2Proof.Machine.execAtrTest e v s
  | .atrTestDone e pass => Sys2Proof.Machine.execAtrTestDone e pass s
  | .ceWindowEnd => Sys2Proof.Machine.execCeWindowEnd s
  | .dramTrainingDone failed => Sys2Proof.Machine.execDramTrainingDone failed s
  | .dramFillDone => Sys2Proof.Machine.execDramFillDone s
  | .scrubUnit => Sys2Proof.Machine.execScrubUnit s
  | .memInjArm v => Sys2Proof.Machine.execMemInjArm v s
  | .memLock v => Sys2Proof.Machine.execMemLock v s
  | .dmaGo ch v => Sys2Proof.Machine.execDmaGo ch v s
  | .dmaDisable ch v => Sys2Proof.Machine.execDmaDisable ch v s
  | .dmaDisableDone ch => Sys2Proof.Machine.execDmaDisableDone ch s
  | .dmaDescFetch ch => Sys2Proof.Machine.execDmaDescFetch ch s
  | .dmaCopy ch => Sys2Proof.Machine.execDmaCopy ch s
  | .dmaFill ch => Sys2Proof.Machine.execDmaFill ch s
  | .dmaCompare ch => Sys2Proof.Machine.execDmaCompare ch s
  | .dmaDescComplete ch => Sys2Proof.Machine.execDmaDescComplete ch s
  | .talPortTrainStep p lanes => Sys2Proof.Machine.execTalPortTrainStep p lanes s
  | .talPortTrainTimeout p => Sys2Proof.Machine.execTalPortTrainTimeout p s
  | .talPortTrainRetry p => Sys2Proof.Machine.execTalPortTrainRetry p s
  | .talLaneLockLoss p ns => Sys2Proof.Machine.execTalLaneLockLoss p ns s
  | .talRetrain p v => Sys2Proof.Machine.execTalRetrain p v s
  | .regWr p => Sys2Proof.Machine.execRegWr p s
  | .regRd p => Sys2Proof.Machine.execRegRd p s
  | .memWr p => Sys2Proof.Machine.execMemWr p s
  | .memRd p => Sys2Proof.Machine.execMemRd p s
  | .dataPkt p => Sys2Proof.Machine.execDataPkt p s
  | .caps l p gen width c => Sys2Proof.Machine.execCaps l p gen width c s
  | .talCredit l p c => Sys2Proof.Machine.execTalCredit l p c s
  | .ack l p => Sys2Proof.Machine.execAck l p s
  | .nak l p => Sys2Proof.Machine.execNak l p s
  | .replayTimeout l => Sys2Proof.Machine.execReplayTimeout l s
  | .tdPacket p => Sys2Proof.Machine.execTdPacket p s
  | .evtTx v => Sys2Proof.Machine.execEvtTx v s
  | .t1LineStart psync got => Sys2Proof.Machine.execT1LineStart psync got s
  | .t1LineComplete words => Sys2Proof.Machine.execT1LineComplete words s
  | .t1Rel v => Sys2Proof.Machine.execT1Rel v s
  | .talLock v => Sys2Proof.Machine.execTalLock v s
  | .volLoad v => Sys2Proof.Machine.execVolLoad v s
  | .volUnload v => Sys2Proof.Machine.execVolUnload v s
  | .stqLock v => Sys2Proof.Machine.execStqLock v s
  | .stqFetch => Sys2Proof.Machine.execStqFetch s
  | .stqWrite aseq => Sys2Proof.Machine.execStqWrite aseq s
  | .stqRead aseq => Sys2Proof.Machine.execStqRead aseq s
  | .flush aseq => Sys2Proof.Machine.execFlush aseq s
  | .identify aseq => Sys2Proof.Machine.execIdentify aseq s
  | .commandBegin aseq => Sys2Proof.Machine.execCommandBegin aseq s
  | .xferTimeout aseq => Sys2Proof.Machine.execXferTimeout aseq s
  | .stqReadDone aseq => Sys2Proof.Machine.execStqReadDone aseq s
  | .flushDone aseq partnerDone => Sys2Proof.Machine.execFlushDone aseq partnerDone s
  | .stage d => Sys2Proof.Machine.execStage d s
  | .fread d => Sys2Proof.Machine.execFread d s
  | .format d => Sys2Proof.Machine.execFormat d s
  | .diskRevolution d reads => Sys2Proof.Machine.execDiskRevolution d reads s
  | .dskApply d v => Sys2Proof.Machine.execDskApply d v s
  | .recoverySweepDone d reads => Sys2Proof.Machine.execRecoverySweepDone d reads s
  | .dskRelease d v => Sys2Proof.Machine.execDskRelease d v s
  | .servoFrame d fr => Sys2Proof.Machine.execServoFrame d fr s
  | .servoSample d => Sys2Proof.Machine.execServoSample d s
  | .vcmWrite d v => Sys2Proof.Machine.execVcmWrite d v s
  | .vcmWatchdog d => Sys2Proof.Machine.execVcmWatchdog d s
  | .srvTrkWrite d v => Sys2Proof.Machine.execSrvTrkWrite d v s
  | .shockSample h a b => Sys2Proof.Machine.execShockSample h a b s
  | .park d v => Sys2Proof.Machine.execPark d v s
  | .parkComplete d => Sys2Proof.Machine.execParkComplete d s
  | .unpark d v => Sys2Proof.Machine.execUnpark d v s
  | .selLostTimeout d => Sys2Proof.Machine.execSelLostTimeout d s
  | .hdaPresChange h present held => Sys2Proof.Machine.execHdaPresChange h present held s
  | .bemfZeroCross m cmp => Sys2Proof.Machine.execBemfZeroCross m cmp s
  | .commutation m => Sys2Proof.Machine.execCommutation m s
  | .hallChange m c0 c1 c2 => Sys2Proof.Machine.execHallChange m c0 c1 c2 s
  | .alignDone m => Sys2Proof.Machine.execAlignDone m s
  | .rampTimeout m => Sys2Proof.Machine.execRampTimeout m s
  | .motorPwmPeriod m => Sys2Proof.Machine.execMotorPwmPeriod m s
  | .lockedRotor m => Sys2Proof.Machine.execLockedRotor m s
  | .motorSpeedZero m => Sys2Proof.Machine.execMotorSpeedZero m s
  | .motorStart m v => Sys2Proof.Machine.execMotorStart m v s
  | .motorStop m v => Sys2Proof.Machine.execMotorStop m v s
  | .motorBrake m v => Sys2Proof.Machine.execMotorBrake m v s
  | .motorClr m v => Sys2Proof.Machine.execMotorClr m v s
  | .spindleIndex h => Sys2Proof.Machine.execSpindleIndex h s
  | .gateTurnOn k high pins => Sys2Proof.Machine.execGateTurnOn k high pins s
  | .gdrManWrite k v => Sys2Proof.Machine.execGdrManWrite k v s
  | .goffTimeout k high goff => Sys2Proof.Machine.execGoffTimeout k high goff s
  | .hsgLoss k hsg => Sys2Proof.Machine.execHsgLoss k hsg s
  | .dsatBlankEnd k high => Sys2Proof.Machine.execDsatBlankEnd k high s
  | .desatDetect k high dsatN => Sys2Proof.Machine.execDesatDetect k high dsatN s
  | .hardShort k hs => Sys2Proof.Machine.execHardShort k hs s
  | .gdrClr k v pins => Sys2Proof.Machine.execGdrClr k v pins s
  | .invRun j v => Sys2Proof.Machine.execInvRun j v s
  | .invPeriod j => Sys2Proof.Machine.execInvPeriod j s
  | .axisTick home index stall => Sys2Proof.Machine.execAxisTick home index stall s
  | .stpLoad x v => Sys2Proof.Machine.execStpLoad x v s
  | .stpMove x v => Sys2Proof.Machine.execStpMove x v s
  | .stpStop x v => Sys2Proof.Machine.execStpStop x v s
  | .stpResume x v => Sys2Proof.Machine.execStpResume x v s
  | .stpHome x v => Sys2Proof.Machine.execStpHome x v s
  | .stpEnergise x v => Sys2Proof.Machine.execStpEnergise x v s
  | .stpRelease x v => Sys2Proof.Machine.execStpRelease x v s
  | .stpClr x v => Sys2Proof.Machine.execStpClr x v s
  | .adcConversion inputs => Sys2Proof.Machine.execAdcConversion inputs s
  | .loopTick => Sys2Proof.Machine.execLoopTick s
  | .loopStart v => Sys2Proof.Machine.execLoopStart v s
  | .loopStop v => Sys2Proof.Machine.execLoopStop v s
  | .tload v => Sys2Proof.Machine.execTload v s
  | .loopTableLoaded j => Sys2Proof.Machine.execLoopTableLoaded j s
  | .loopSpWrite j v => Sys2Proof.Machine.execLoopSpWrite j v s
  | .encoderTransition a b held => Sys2Proof.Machine.execEncoderTransition a b held s
  | .webZero v => Sys2Proof.Machine.execWebZero v s
  | .csiFrameStart c hdr => Sys2Proof.Machine.execCsiFrameStart c hdr s
  | .csiLineStart c hdr => Sys2Proof.Machine.execCsiLineStart c hdr s
  | .csiLongPacket c hdr body => Sys2Proof.Machine.execCsiLongPacket c hdr body s
  | .csiFrameEnd c hdr => Sys2Proof.Machine.execCsiFrameEnd c hdr s
  | .cameraFrameTimeout c => Sys2Proof.Machine.execCameraFrameTimeout c s
  | .camLoad c v => Sys2Proof.Machine.execCamLoad c v s
  | .camBypass c v => Sys2Proof.Machine.execCamBypass c v s
  | .vinQualified => Sys2Proof.Machine.execVinQualified s
  | .seqStepQualified mv high => Sys2Proof.Machine.execSeqStepQualified mv high s
  | .seqStepAbort mv high => Sys2Proof.Machine.execSeqStepAbort mv high s
  | .railJudgement r mv good => Sys2Proof.Machine.execRailJudgement r mv good s
  | .vinJudgement mv => Sys2Proof.Machine.execVinJudgement mv s
  | .bootImageCheck answered flashOk image => Sys2Proof.Machine.execBootImageCheck answered flashOk image s
  | .bootGo fromTalosh v => Sys2Proof.Machine.execBootGo fromTalosh v s
  | .pwrCmdDrydown v => Sys2Proof.Machine.execPwrCmdDrydown v s
  | .drydownParkDone => Sys2Proof.Machine.execDrydownParkDone s
  | .drydownRailOff good => Sys2Proof.Machine.execDrydownRailOff good s
  | .drydownEnd => Sys2Proof.Machine.execDrydownEnd s
  | .holdoffEnd => Sys2Proof.Machine.execHoldoffEnd s
  | .thermalRound raw bus => Sys2Proof.Machine.execThermalRound raw bus s
  | .tsdAck fromTalosh v => Sys2Proof.Machine.execTsdAck fromTalosh v s
  | .clkApply j v => Sys2Proof.Machine.execClkApply j v s
  | .clkLockAcquired j => Sys2Proof.Machine.execClkLockAcquired j s
  | .clkLossOfLock j err held => Sys2Proof.Machine.execClkLossOfLock j err held s
  | .clkOutputRestart j => Sys2Proof.Machine.execClkOutputRestart j s
  | .refclkLoss quiet cycles => Sys2Proof.Machine.execRefclkLoss quiet cycles s
  | .refSwitch => Sys2Proof.Machine.execRefSwitch s
  | .refclkRestore valid => Sys2Proof.Machine.execRefclkRestore valid s
  | .holdoverTimeout => Sys2Proof.Machine.execHoldoverTimeout s
  | .clkLockWrite j v => Sys2Proof.Machine.execClkLockWrite j v s
  | .incidentEscalation => Sys2Proof.Machine.execIncidentEscalation s
  | .incClr v => Sys2Proof.Machine.execIncClr v s
  | .healthySet v => Sys2Proof.Machine.execHealthySet v s
  | .fltKick v => Sys2Proof.Machine.execFltKick v s
  | .fltWatchdogExpiry => Sys2Proof.Machine.execFltWatchdogExpiry s
  | .aliveToggle => Sys2Proof.Machine.execAliveToggle s
  | .acdEnable v => Sys2Proof.Machine.execAcdEnable v s
  | .accordTrainStep => Sys2Proof.Machine.execAccordTrainStep s
  | .hello p => Sys2Proof.Machine.execHello p s
  | .timePkt p => Sys2Proof.Machine.execTimePkt p s
  | .hostPkt p => Sys2Proof.Machine.execHostPkt p s
  | .acdStage p => Sys2Proof.Machine.execAcdStage p s
  | .pageq p => Sys2Proof.Machine.execPageq p s
  | .pagea p => Sys2Proof.Machine.execPagea p s
  | .grant p => Sys2Proof.Machine.execGrant p s
  | .statePkt p => Sys2Proof.Machine.execStatePkt p s
  | .stateTimer => Sys2Proof.Machine.execStateTimer s
  | .mread p => Sys2Proof.Machine.execMread p s
  | .mdata p => Sys2Proof.Machine.execMdata p s
  | .tko p => Sys2Proof.Machine.execTko p s
  | .fwmsg p => Sys2Proof.Machine.execFwmsg p s
  | .accordLinkLost down => Sys2Proof.Machine.execAccordLinkLost down s
  | .ownInLow low => Sys2Proof.Machine.execOwnInLow low s
  | .tokenPowerupTake low => Sys2Proof.Machine.execTokenPowerupTake low s
  | .tokenConflict both => Sys2Proof.Machine.execTokenConflict both s
  | .tokenBackoffEnd low => Sys2Proof.Machine.execTokenBackoffEnd low s
  | .handover v => Sys2Proof.Machine.execHandover v s
  | .coreTest v => Sys2Proof.Machine.execCoreTest v s
  | .coreTestDone pass => Sys2Proof.Machine.execCoreTestDone pass s
  | .dcsvcWrite v => Sys2Proof.Machine.execDcsvcWrite v s
  | .sillageCommit => Sys2Proof.Machine.execSillageCommit s
  | .nvmAppCmd v => Sys2Proof.Machine.execNvmAppCmd v s
  | .jtagBypass => Sys2Proof.Machine.execJtagBypass s
  | .jtagIdcode => Sys2Proof.Machine.execJtagIdcode s
  | .jtagSamplePreload bits => Sys2Proof.Machine.execJtagSamplePreload bits s
  | .jtagExtest bits => Sys2Proof.Machine.execJtagExtest bits s
  | .jtagClamp => Sys2Proof.Machine.execJtagClamp s
  | .jtagHighz => Sys2Proof.Machine.execJtagHighz s
  | .jtagExtestPulse bits => Sys2Proof.Machine.execJtagExtestPulse bits s
  | .jtagExtestTrain bits => Sys2Proof.Machine.execJtagExtestTrain bits s
  | .interlockClose st chB => Sys2Proof.Machine.execInterlockClose st chB s
  | .sequenceBounce low => Sys2Proof.Machine.execSequenceBounce low s
  | .accordTrainTimeout => Sys2Proof.Machine.execAccordTrainTimeout s
  | .accordTrainRetry => Sys2Proof.Machine.execAccordTrainRetry s
  | .rampForcedStep m => Sys2Proof.Machine.execRampForcedStep m s
  | .lpwmPeriod k => Sys2Proof.Machine.execLpwmPeriod k s

end Sys2Proof.Machine
end

