-- ==== Sys2Proof/Machine/Idle.lean ====
section
/-!
DEFINITION. What a step does when no command waits.
-/
namespace Sys2Proof.Machine

/-- The half-bridges that a running motor modulates, or a running inverter drives, follow press time (R321, R350). -/
def State.powerEdges (s : State) : State :=
  (s.each (List.range 16) (fun t n => if decide (8 ≤ n) && (vget t.mots n).driven then t.motSync n else t)).each
    [24, 25, 26, 27] (fun t k => if t.hbSrc k == 2 && (vget t.invs ((k - 24) / 2)).running then t.hbApply k else t)

/-- One tick of press time (R44). DESIGN CHOICE: an empty queue lets 1 ns pass. -/
def idle (s : State) : State := ({ s with ptime := s.ptime + 1 } : State).powerEdges

end Sys2Proof.Machine
end

