-- ==== Sys2Proof/WellFormed.lean ====
section
/-!
DEFINITION. Which commands can come from outside as the spec describes them: packets of the form of R253, reports and
samples of the sizes the rules give. A meaning does not rest on it: every command has its effect.
-/
namespace Sys2Proof

open Sys2Proof.Machine

/-- The bytes of a packet (R253): header, 0 to 4,096 bytes of payload in whole words, trailer. -/
def pktOk (p : PktIn) : Bool :=
  p.bytes.length % 4 == 0 && decide (20 ≤ p.bytes.length) && decide (p.bytes.length ≤ 4116)

/-- A codeword has 36,864 bits (R284). -/
def sectorReadOk (r : SectorRead) : Bool := r.tries.all (fun x => decide (x.codeword < 2 ^ 36864))

/-- The command has the form that the spec gives its row. -/
def Instr.wf (i : Instr) : Bool :=
  match i with
  | .registerAccess _ _ _ _ _ => true
  | .rcRead off => off.toNat % 4 == 0
  | .ptimeLoRead => true
  | .outbLoRead _ => true
  | .localRamAccess _ off size _ _ => off.toNat % 2 ^ size.val == 0
  | .admitReq _ => true
  | .admitEvaluation => true
  | .withdraw _ => true
  | .spoil _ => true
  | .pageStart _ => true
  | .pageDone _ => true
  | .snapReq _ => true
  | .snapshotDone => true
  | .snapshotTimeout _ => true
  | .crAdd _ _ _ _ => true
  | .crSub _ _ _ _ => true
  | .crAdc _ _ _ _ => true
  | .crSbc _ _ _ _ => true
  | .crAnd _ _ _ _ => true
  | .crOr _ _ _ _ => true
  | .crXor _ _ _ _ => true
  | .crNor _ _ _ _ => true
  | .crSll _ _ _ _ => true
  | .crSrl _ _ _ _ => true
  | .crSra _ _ _ _ => true
  | .crRor _ _ _ _ => true
  | .crClt _ _ _ _ => true
  | .crCltu _ _ _ _ => true
  | .crMin _ _ _ _ => true
  | .crMax _ _ _ _ => true
  | .crMinu _ _ _ _ => true
  | .crMaxu _ _ _ _ => true
  | .crClz _ _ _ => true
  | .crPopc _ _ _ => true
  | .crMul _ _ _ _ => true
  | .crMulh _ _ _ _ => true
  | .crMulhu _ _ _ _ => true
  | .crDiv _ _ _ _ => true
  | .crDivu _ _ _ _ => true
  | .crRem _ _ _ _ => true
  | .crRemu _ _ _ _ => true
  | .crAddi _ _ _ _ => true
  | .crAndi _ _ _ _ => true
  | .crOri _ _ _ _ => true
  | .crXori _ _ _ _ => true
  | .crClti _ _ _ _ => true
  | .crCltiu _ _ _ _ => true
  | .crShi _ _ _ _ => true
  | .crLih _ _ _ => true
  | .crLdw _ _ _ _ => true
  | .crLdh _ _ _ _ => true
  | .crLdhu _ _ _ _ => true
  | .crLdb _ _ _ _ => true
  | .crLdbu _ _ _ _ => true
  | .crLdd _ _ _ _ => true
  | .crStw _ _ _ _ => true
  | .crSth _ _ _ _ => true
  | .crStb _ _ _ _ => true
  | .crStd _ _ _ _ => true
  | .postedStoreFail _ _ => true
  | .crSwap _ _ _ _ => true
  | .crLdadd _ _ _ _ => true
  | .crCas _ _ _ _ => true
  | .crBeq _ _ _ _ => true
  | .crBne _ _ _ _ => true
  | .crBlt _ _ _ _ => true
  | .crBge _ _ _ _ => true
  | .crBltu _ _ _ _ => true
  | .crBgeu _ _ _ _ => true
  | .crJmp _ _ => true
  | .crCall _ _ _ => true
  | .crCallr _ _ _ _ => true
  | .crRdc _ _ _ => true
  | .crWrc _ _ _ => true
  | .crTrap _ _ => true
  | .crRte _ => true
  | .crFence _ => true
  | .crCwb _ _ => true
  | .crCinv _ _ => true
  | .crCwbi _ _ => true
  | .crCwball _ => true
  | .crRdtime _ _ => true
  | .crTadd _ _ _ _ => true
  | .crTsub _ _ _ _ => true
  | .crTlt _ _ _ _ => true
  | .crAt _ _ => true
  | .atRelease _ => true
  | .crWait _ _ _ => true
  | .waitWake _ => true
  | .waitDeadline _ => true
  | .crSignal _ _ _ _ => true
  | .crEvset _ _ => true
  | .crEvclr _ _ => true
  | .crOpen _ _ _ _ => true
  | .crClose _ _ _ => true
  | .crQuery _ _ _ _ => true
  | .crRpush _ _ _ _ => true
  | .crRpop _ _ _ _ => true
  | .crMac _ _ _ _ => true
  | .crMsu _ _ _ _ => true
  | .crMacl _ _ _ _ => true
  | .crClra _ _ => true
  | .crLda _ _ _ => true
  | .crRda _ _ _ => true
  | .crRdas _ _ _ => true
  | .crQadd _ _ _ _ => true
  | .crQsub _ _ _ _ => true
  | .crQmul _ _ _ _ => true
  | .crClip _ _ _ _ => true
  | .crAbss _ _ _ => true
  | .interrupt _ => true
  | .coreRun _ _ => true
  | .coreStop _ _ => true
  | .coreSreset _ _ => true
  | .eventInject _ _ => true
  | .crsLock _ _ => true
  | .timerExpiry _ => true
  | .ringPdb _ _ => true
  | .ringCdb _ _ => true
  | .stalledPushResume _ => true
  | .jobStart _ => true
  | .jobStop _ => true
  | .pageReady _ => true
  | .drain _ => true
  | .drainDone => true
  | .objTableEcc cls idx => decide (idx.val < classCap cls.val)
  | .bdPulse _ _ _ _ _ => true
  | .flywheelFacet _ => true
  | .flyoff _ _ => true
  | .polygonIndex _ => true
  | .facetScanEnd _ => true
  | .expToneWrite _ _ _ => true
  | .expPicotWrite _ _ => true
  | .expFireWrite _ _ _ _ => true
  | .fctlCommit _ _ => true
  | .fireLoadDone _ => true
  | .fctlCancel _ _ => true
  | .blockFormation _ block => decide (block.toNat < 384)
  | .dutyBucketBoundary _ => true
  | .dutyLimitWrite _ off _ => off.toNat % 4 == 0
  | .frameSend _ => true
  | .needPoint _ => true
  | .laceWrite _ off _ => off.toNat % 4 == 0
  | .legalityCheckDone _ => true
  | .deadMapWrite _ _ _ => true
  | .tempStale _ => true
  | .coolDownWrite _ => true
  | .hotTripClear _ _ => true
  | .thermalLimitWrite _ off _ => off.toNat % 4 == 0
  | .ctlRetry _ _ => true
  | .facetRpt _ _ _ _ _ _ pfirst amps => decide (pfirst.toNat < 128) && decide (amps.length ≤ 16)
  | .nack _ _ _ => true
  | .ctlAck _ _ _ _ _ _ => true
  | .alarm _ _ _ => true
  | .ident _ _ _ _ _ => true
  | .credit _ _ _ => true
  | .elkEnable _ _ => true
  | .elkDisable _ _ => true
  | .elkRetrain _ _ => true
  | .linkTrainStep _ => true
  | .linkTrainTimeout _ => true
  | .linkTrainRetry _ => true
  | .backChannelLockLoss _ _ => true
  | .ilkOpen _ _ _ => true
  | .ilkArmable _ => true
  | .ilkDiscrep _ => true
  | .ilkArm _ => true
  | .ilkDisarm _ => true
  | .pbtnPress _ => true
  | .pbtnShort => true
  | .pbtnLong => true
  | .mrst _ => true
  | .keyChange _ _ => true
  | .cnsPresenceChange _ _ _ => true
  | .cnsRead _ => true
  | .cnsReadDone _ _ _ data _ => decide (data.length ≤ 256)
  | .atrDecode _ => true
  | .atrEncode _ => true
  | .atrSave _ => true
  | .atrLoad _ => true
  | .atrClear _ => true
  | .atrJobComplete _ => true
  | .cplParkedPush _ => true
  | .pageBlockDispatch => true
  | .pageBlockDecoded _ => true
  | .atrOnline _ _ => true
  | .atrOffline _ _ => true
  | .atrTest _ _ => true
  | .atrTestDone _ _ => true
  | .ceWindowEnd => true
  | .dramTrainingDone _ => true
  | .dramFillDone => true
  | .scrubUnit => true
  | .memInjArm _ => true
  | .memLock _ => true
  | .dmaGo _ _ => true
  | .dmaDisable _ _ => true
  | .dmaDisableDone _ => true
  | .dmaDescFetch _ => true
  | .dmaCopy _ => true
  | .dmaFill _ => true
  | .dmaCompare _ => true
  | .dmaDescComplete _ => true
  | .talPortTrainStep _ _ => true
  | .talPortTrainTimeout _ => true
  | .talPortTrainRetry _ => true
  | .talLaneLockLoss _ _ => true
  | .talRetrain _ _ => true
  | .regWr p => pktOk p
  | .regRd p => pktOk p
  | .memWr p => pktOk p
  | .memRd p => pktOk p
  | .dataPkt p => pktOk p
  | .caps _ p _ _ _ => pktOk p
  | .talCredit _ p _ => pktOk p
  | .ack _ p => pktOk p
  | .nak _ p => pktOk p
  | .replayTimeout _ => true
  | .tdPacket p => pktOk p
  | .evtTx _ => true
  | .t1LineStart _ got => decide (got.length < 6144)
  | .t1LineComplete words => decide (words.length ≤ 6144)
  | .t1Rel _ => true
  | .talLock _ => true
  | .volLoad _ => true
  | .volUnload _ => true
  | .stqLock _ => true
  | .stqFetch => true
  | .stqWrite _ => true
  | .stqRead _ => true
  | .flush _ => true
  | .identify _ => true
  | .commandBegin _ => true
  | .xferTimeout _ => true
  | .stqReadDone _ => true
  | .flushDone _ _ => true
  | .stage _ => true
  | .fread _ => true
  | .format _ => true
  | .diskRevolution _ reads => reads.all sectorReadOk
  | .dskApply _ _ => true
  | .recoverySweepDone _ reads => reads.all sectorReadOk
  | .dskRelease _ _ => true
  | .servoFrame _ _ => true
  | .servoSample _ => true
  | .vcmWrite _ _ => true
  | .vcmWatchdog _ => true
  | .srvTrkWrite _ _ => true
  | .shockSample _ _ _ => true
  | .park _ _ => true
  | .parkComplete _ => true
  | .unpark _ _ => true
  | .selLostTimeout _ => true
  | .hdaPresChange _ _ _ => true
  | .bemfZeroCross _ _ => true
  | .commutation _ => true
  | .hallChange _ _ _ _ => true
  | .alignDone _ => true
  | .rampTimeout _ => true
  | .motorPwmPeriod _ => true
  | .lockedRotor _ => true
  | .motorSpeedZero _ => true
  | .motorStart _ _ => true
  | .motorStop _ _ => true
  | .motorBrake _ _ => true
  | .motorClr _ _ => true
  | .spindleIndex _ => true
  | .gateTurnOn _ _ _ => true
  | .gdrManWrite _ _ => true
  | .goffTimeout _ _ _ => true
  | .hsgLoss _ _ => true
  | .dsatBlankEnd _ _ => true
  | .desatDetect _ _ _ => true
  | .hardShort _ _ => true
  | .gdrClr _ _ _ => true
  | .invRun _ _ => true
  | .invPeriod _ => true
  | .axisTick _ _ _ => true
  | .stpLoad _ _ => true
  | .stpMove _ _ => true
  | .stpStop _ _ => true
  | .stpResume _ _ => true
  | .stpHome _ _ => true
  | .stpEnergise _ _ => true
  | .stpRelease _ _ => true
  | .stpClr _ _ => true
  | .adcConversion inputs => inputs.length == 16
  | .loopTick => true
  | .loopStart _ => true
  | .loopStop _ => true
  | .tload _ => true
  | .loopTableLoaded _ => true
  | .loopSpWrite _ _ => true
  | .encoderTransition _ _ _ => true
  | .webZero _ => true
  | .csiFrameStart _ _ => true
  | .csiLineStart _ _ => true
  | .csiLongPacket _ _ body => decide (body.length < 65538)
  | .csiFrameEnd _ _ => true
  | .cameraFrameTimeout _ => true
  | .camLoad _ _ => true
  | .camBypass _ _ => true
  | .vinQualified => true
  | .seqStepQualified _ _ => true
  | .seqStepAbort _ _ => true
  | .railJudgement _ _ _ => true
  | .vinJudgement _ => true
  | .bootImageCheck _ _ _ => true
  | .bootGo _ _ => true
  | .pwrCmdDrydown _ => true
  | .drydownParkDone => true
  | .drydownRailOff _ => true
  | .drydownEnd => true
  | .holdoffEnd => true
  | .thermalRound raw bus => raw.length == 56 && bus.length == 8
  | .tsdAck _ _ => true
  | .clkApply _ _ => true
  | .clkLockAcquired _ => true
  | .clkLossOfLock _ _ _ => true
  | .clkOutputRestart _ => true
  | .refclkLoss _ _ => true
  | .refSwitch => true
  | .refclkRestore _ => true
  | .holdoverTimeout => true
  | .clkLockWrite _ _ => true
  | .incidentEscalation => true
  | .incClr _ => true
  | .healthySet _ => true
  | .fltKick _ => true
  | .fltWatchdogExpiry => true
  | .aliveToggle => true
  | .acdEnable _ => true
  | .accordTrainStep => true
  | .hello p => pktOk p
  | .timePkt p => pktOk p
  | .hostPkt p => pktOk p
  | .acdStage p => pktOk p
  | .pageq p => pktOk p
  | .pagea p => pktOk p
  | .grant p => pktOk p
  | .statePkt p => pktOk p
  | .stateTimer => true
  | .mread p => pktOk p
  | .mdata p => pktOk p
  | .tko p => pktOk p
  | .fwmsg p => pktOk p
  | .accordLinkLost _ => true
  | .ownInLow _ => true
  | .tokenPowerupTake _ => true
  | .tokenConflict _ => true
  | .tokenBackoffEnd _ => true
  | .handover _ => true
  | .coreTest _ => true
  | .coreTestDone _ => true
  | .dcsvcWrite _ => true
  | .sillageCommit => true
  | .nvmAppCmd _ => true
  | .jtagBypass => true
  | .jtagIdcode => true
  | .jtagSamplePreload _ => true
  | .jtagExtest _ => true
  | .jtagClamp => true
  | .jtagHighz => true
  | .jtagExtestPulse _ => true
  | .jtagExtestTrain _ => true
  | .interlockClose _ _ => true
  | .sequenceBounce _ => true
  | .accordTrainTimeout => true
  | .accordTrainRetry => true
  | .rampForcedStep _ => true
  | .lpwmPeriod _ => true

end Sys2Proof
end

