-- ==== Sys2Proof/Safety.lean ====
section
/-!
DEFINITION. What counts as a safe state, in the terms the claims use.
-/
namespace Sys2Proof.Machine

/-- The canonical form of memory: addresses strictly rising, and no entry equal to what an unlisted address reads as. -/
def Memory.wf (m : List Host.Cell) : Bool := Tab.rising m && m.all (fun c => c.2 != 0)

/-- Every laser enable is as its three hardware conditions say: both channels of the station's door loop closed, the
station armed, no drydown running (R183). -/
def State.lasersFollow (s : State) : Prop :=
  ∀ i < 4, bit (s.fld F.ILK_STATUS_LASER) i = (s.loopClosed i && (vget s.ilk i).armed && !s.drying)

/-- Boundary scan holds the pins only where R486 honours its instructions: boot not finished, no core released. -/
def State.scanIsHonoured (s : State) : Prop := s.jtag.pins = true → s.scanTakesPins = true

/-- The safety invariant of the device's directly driven outputs. -/
def State.OutputsSafe (s : State) : Prop := s.lasersFollow ∧ s.scanIsHonoured

/-- Nothing waits for the fault collector. -/
def State.calm (s : State) : Prop := s.flt.raised = []

/-- Nothing is due beside the command itself: no web trigger (R399), no RLOCK to fall (R333), no accord packet to send
(R449, R450, R456), no loop that has just lost its camera (R378), no motor whose time at speed begins or ends (R327), REPLACE as its
criteria say (R461), nothing for the
collector (R435), and the outputs as they must be (R183, R486). -/
structure State.Still (s : State) : Prop where
  web : ∀ i < 8, s.webDue i = false
  lock : ∀ h < 4, (s.rlock h && !s.bdLock (s.lstn h)) = false
  state : s.acd.stateDue = false
  handover : s.acd.handoverDue = false
  fwsq : s.linkUp 2 = false ∨ s.unitRing (s.reg R.ACD_FWSQ).toNat 2 = none
  loops : s.loops.filter (fun e => e.2.state == .openloop && e.2.degStn != 0) = []
  mots : ∀ n < 16, s.cmdFollow n = s
  replace : (s.replaceBits != 0) = s.svc.replaced
  calm : s.calm
  safe : s.OutputsSafe

/-- Core `n` stands at a boundary where its next instruction issues and the core goes on: present, running, no interrupt
due (R78), RUN not written 0 inside an AT pair (R69), the word it fetches without inverted bits (R57) and not one that the
core itself replaced since its last FENCE (R55). -/
structure State.coreReady (s : State) (n : Nat) : Prop where
  issues : s.canIssue n = true
  runs : (s.core n).stopping = false
  whole : Tab.get s.upsets (iramBase n + (s.core n).pc) = none
  settled : (s.core n).stale.filter (fun e => e.1 == iramBase n + (s.core n).pc) = []

/-- The word at core `n`'s program counter spells instruction `i` (R52, R58). -/
def State.spells (s : State) (n : Nat) (i : Instr) : Prop := encodeCore i = some (s.pcWord n)

/-! ### A core as its instructions see it -/

/-- General register `r`: g0 reads as 0 (R48). -/
def Core.rd (c : Core) (r : Fin 32) : Word := if r = 0 then 0 else c.g[r]

/-- The core with `v` in general register `r`: writes to g0 are discarded (R48). -/
def Core.wr (c : Core) (r : Fin 32) (v : Word) : Core := if r = 0 then c else { c with g := c.g.set r v }

/-- A register can name a pair: even, and not g0 (R48). -/
def evenReg (r : Fin 32) : Prop := r ≠ 0 ∧ r.val % 2 = 0

/-- A register pair: gN as bits [31:0] and gN+1 as bits [63:32] (R48). -/
def Core.rd2 (c : Core) (r : Fin 32) : BitVec 64 := c.rd (r + 1) ++ c.rd r

/-- The core with a register pair written. -/
def Core.wr2 (c : Core) (r : Fin 32) (v : BitVec 64) : Core :=
  (c.wr r (v.extractLsb' 0 32)).wr (r + 1) (v.extractLsb' 32 32)

/-- The core goes on to the next instruction; the second instruction of an AT pair has issued (R69). -/
def Core.goOn (c : Core) : Core := { c with pc := (c.pc + 4) % 65536, atPair := false, lastPc := c.pc }

/-- The core goes on to another address, modulo 64 KiB (R63). -/
def Core.goTo (c : Core) (pc : Nat) : Core := { c with pc := pc % 65536, atPair := false, lastPc := c.pc }

/-- FLAGS with C and V as given and its other bits as they were (R50). -/
def Core.cv (c : Core) (carry over_ : Bool) : Core := { c with flags := setBits c.flags 0 2 (b2n carry + 2 * b2n over_) }

/-- Trap entry as R77 and R78 have it, on the core at the boundary where its instruction would issue. -/
def Core.trapped (c : Core) (cause code epc ebad : Nat) : Core :=
  { c with
    epc := BitVec.ofNat 32 epc, ecause := BitVec.ofNat 32 (cause + 256 * code), ebad := BitVec.ofNat 32 ebad
    status := setBits c.status 0 3 (2 * b2n c.ie + 4), pc := (c.vbase + 16 * cause) % 65536
    run := .running, atPair := false }

/-- FLAGS bit `i` as given, the others as they were (R50). -/
def Core.flagged (c : Core) (i : Nat) (b : Bool) : Core := { c with flags := setBits c.flags i 1 (b2n b) }

/-- A signed value held within `w` bits (R76). -/
def satInt (w : Nat) (v : Int) : Int := max (-(2 ^ (w - 1) : Int)) (min (2 ^ (w - 1) - 1) v)

/-- SAT is sticky: set where the value did not fit `w` bits (R50, R76). -/
def Core.sat (c : Core) (w : Nat) (v : Int) : Core := if satInt w v = v then c else c.flagged 4 true

/-- Accumulator `a` (R76). -/
def Core.accum (c : Core) (a : Fin 2) : Int := if a = 0 then c.acc0 else c.acc1

/-- The core with accumulator `a` holding `v` held within 40 bits (R76). -/
def Core.accumulate (c : Core) (a : Fin 2) (v : Int) : Core :=
  if a = 0 then { c.sat 40 v with acc0 := satInt 40 v } else { c.sat 40 v with acc1 := satInt 40 v }

/-- Bits [15:0] of a word as a signed number (R76). -/
def half (v : Word) : Int := (v.setWidth 16).toInt

/-- Core `n` issues its next instruction and nothing else is due: no interrupt, no event for the collector, the outputs
as they must be. -/
structure State.Issues (s : State) (n : Nat) : Prop where
  ready : s.coreReady n
  calm : s.calm
  safe : s.OutputsSafe

/-- No stored word holds inverted bits and no injection is armed: every read delivers what was written. -/
structure State.Clean (s : State) : Prop where
  upsets : s.upsets = []
  arm : s.flag F.MEM_INJ_CTRL_ARM = false

/-- Effective address `ea` of core `n` leads to `k` bytes of its own data RAM at system address `a` (R52, R54). -/
def inOwnData (n ea k a : Nat) : Prop := ea + k ≤ 0x10000 ∧ a = 0x1100000000 + n * 0x20000 + 0x10000 + ea

/-- Effective address `ea` of core `n` leads to `k` bytes of its own instruction RAM at system address `a` (R52, R54). -/
def inOwnInstr (n ea k a : Nat) : Prop :=
  0x10000 ≤ ea ∧ ea + k ≤ 0x20000 ∧ a = 0x1100000000 + n * 0x20000 + (ea - 0x10000)

/-- Effective address `ea` leads through aperture 1 to `k` bytes of populated DRAM at system address `a` (R52). -/
def State.inAperture1 (s : State) (n ea k a : Nat) : Prop :=
  0xC0000000 ≤ ea ∧ a = (s.core n).ap1 * 2 ^ 30 + (ea - 0xC0000000) ∧ a + k ≤ s.dramTop ∧ a + k ≤ 0x1000000000

/-- Effective address `ea` leads through aperture 0, the cached one, to populated DRAM at system address `a` (R52). -/
def State.inAperture0 (s : State) (n ea a : Nat) : Prop :=
  0x80000000 ≤ ea ∧ ea < 0xC0000000 ∧ a = (s.core n).ap0 * 2 ^ 30 + (ea - 0x80000000) ∧ a < s.dramTop
    ∧ a < 0x1000000000

/-- The state as an instruction of core `n` finds it once it issues. -/
def State.issued (s : State) (n : Nat) : State := s.modCore n Core.issuing

/-- The words of the parameter block at offset `p` of core `n`'s data RAM: WORDS of them, one at least and 32 at most
(R92). -/
def State.blockWords (s : State) (n p : Nat) : List Nat :=
  let a := 0x1100000000 + n * 0x20000 + 0x10000 + p
  (List.range (min 32 (max 1 (s.rdLe a 4 % 64)))).map (fun i => s.rdLe (a + 4 * i) 4)

end Sys2Proof.Machine
end

