-- ==== Sys2Proof/Certificates/Slice0/Obligations.lean ====
section
/-!
DEFINITION. The statements for the provers, from the spec's numbered rules.
-/
section
open Sys2Proof Sys2Proof.Machine

/-! ### The block and its commands -/

/-- A step runs the command at the front of the queue on the state with the queue's rest; on an empty queue one tick of
press time passes (the model's choice, log entry 2), and only the half-bridges that a running motor or inverter drives,
and the motors' own outputs, may follow it (R321, R340, R350): nothing else where none is driven. -/
def Obligations.StepRunsFront : Prop :=
  ∀ (s : State) (c : Instr) (rest : List Instr),
    (s.pending = c :: rest → step s = exec c { s with pending := rest })
    ∧ (s.pending = [] → ∃ t, step s = .next t
        ∧ t = { s with ptime := s.ptime + 1, regs := t.regs, mots := t.mots, hbs := t.hbs }
        ∧ ∀ j, (∀ k, j ≠ R.GDR_HB_STATUS k) → t.reg j = s.reg j)
    ∧ (s.pending = [] → (∀ n < 16, (vget s.mots n).driven = false) → (∀ j < 2, (vget s.invs j).running = false) →
        step s = .next { s with ptime := s.ptime + 1 })

/-- R183, R486: from every state whose laser enables follow their conditions and whose pins are scanned only where that is
honoured, a step leads to such a state, whatever the command. -/
def Obligations.OutputsSafeInvariant : Prop :=
  ∀ s t : State, s.OutputsSafe → step s = .next t → t.OutputsSafe

/-- After reset nothing waits, the outputs are safe, memory has its canonical form, and the commands of the model find
nothing due. -/
def Obligations.ResetIsStill : Prop :=
  State.reset.pending = [] ∧ State.reset.Still ∧ State.reset.Clean ∧ Memory.wf State.reset.mem = true

/-- What follows a command changes nothing where nothing is due: the next state is then the command's own effect. -/
def Obligations.StillIsKept : Prop :=
  ∀ s : State, s.Still → s.finish = s

/-- R231: bytes written are read back and every other byte is as it was; memory keeps its canonical form under the writes
and reads of every requester. -/
def Obligations.MemoryBytes : Prop :=
  ∀ (s : State) (req a c k v : Nat) (l : List Byte),
    (s.wrBytes a l).rd8 c = (if a ≤ c ∧ c < a + l.length then l.getD (c - a) 0 else s.rd8 c)
    ∧ (s.wrLe a k v).rdLe a k = v % 256 ^ k
    ∧ (Memory.wf s.mem = true →
        Memory.wf (s.wrBytes a l).mem = true ∧ Memory.wf (s.memWrite req a l).1.mem = true
        ∧ Memory.wf (s.memRead req a k).1.mem = true)

/-- R2, R3, R8: SYS_PRESENCE gives the lowest-numbered units of the fused variant as present; R440: the severities of the
fault sources that the rules name, here FS5, FS7 and FS304. -/
def Obligations.FusedPresence : Prop :=
  ∀ s : State, s.regs = [] →
    (∀ i < 4, bit (s.fld F.SYS_PRESENCE_STN) i = s.hasStn i ∧ bit (s.fld F.SYS_PRESENCE_HDA) i = s.hasHda i
      ∧ bit (s.fld F.SYS_PRESENCE_CAM) i = s.hasCam i)
    ∧ (∀ i < 8, bit (s.fld F.SYS_PRESENCE_DCH) i = s.hasDch i)
    ∧ s.flag F.SYS_PRESENCE_ACCORD = s.hasAccord
    ∧ (∀ i < 16, s.hasCore i = true) ∧ (∀ i < 8, s.hasCore (16 + i) = s.hasDch i)

/-! ### Register space (R5, R11 to R15, R42 to R44, R54, R488) -/

/-- R488: an access to an unmapped window takes the error of R15; at an absent unit a read gives 0 and a write sets FS5
(R5); at a present unit anything but an aligned 32-bit access gives 0 and sets FS6 (R11). -/
def Obligations.AccessJudged : Prop :=
  ∀ (s : State) (req : Requester) (addr : BitVec 40) (size : AccSize) (write : Bool) (v : Word) (k : Nat),
    addr.toNat = 0x1200000000 + k → k < 0x1000000 →
    let answer (t : State) (err : Bool) (d : Nat) : Host.Outcome State Fault Refusal :=
      .next (State.finish { t with bus := ⟨err, d⟩ })
    (windowMapped (k / 0x10000) = false →
      exec (.registerAccess req addr size write v) s = answer s true s.bus.data)
    ∧ (windowMapped (k / 0x10000) = true ∧ s.windowPresent (k / 0x10000) = false →
      exec (.registerAccess req addr size write v) s = answer (if write then s.raise 5 else s) false 0)
    ∧ (windowMapped (k / 0x10000) = true ∧ s.windowPresent (k / 0x10000) = true ∧ (size ≠ .word ∨ k % 4 ≠ 0) →
      exec (.registerAccess req addr size write v) s = answer (s.raise 6) false 0)

/-- R12, R13: what a write does to each field of a listed register by its access code, and that it does nothing else. -/
def Obligations.AccessCodes : Prop :=
  ∀ (s : State) (k : Nat) (v : Word) (r : RegSpec) (f : RegField),
    findReg (k / 0x10000) (k % 0x10000) = some r → f ∈ r.fields →
    let o := bits (s.reg k).toNat f.lo f.width
    let w := bits v.toNat f.lo f.width
    bits ((s.plainWrite k v).reg k).toNat f.lo f.width
      = (match f.acc with
        | .rw => w
        | .wl => if s.locked (k / 0x10000) then o else w
        | .w1c => o - (o &&& w)
        | .w1s => o ||| w
        | .ro | .wo | .rc => o)
    ∧ ∀ j, j ≠ k → (s.plainWrite k v).reg j = s.reg j

/-- R12, R44, R81: reads and writes of a present unit's registers by an aligned 32-bit access: CRSn_ENTRY takes the 14 bits
written unless CRSn_LOCK is set, and reads them back; a read of SYS_PTIME_LO gives the low half of press time and latches
the high half. -/
def Obligations.ReadsAndWrites : Prop :=
  ∀ (s : State) (req : Requester) (n : Fin 24) (addr : BitVec 40) (v : Word), s.hasCore n.val = true →
    addr.toNat = 0x1200000000 + R.CRS_ENTRY n.val →
    let entry := s.reg (R.CRS_ENTRY n.val)
    let written := if s.flag (F.CRS_LOCK_LOCK n.val) then entry else BitVec.ofNat 32 (setBits entry.toNat 2 14 (v.toNat / 4))
    (exec (.registerAccess req addr .word true v) s
      = .next (State.finish { s.setReg (R.CRS_ENTRY n.val) written with bus := ⟨false, 0⟩ }))
    ∧ (exec (.registerAccess req addr .word false v) s
      = .next (State.finish { s with bus := ⟨false, bits entry.toNat 2 14 * 4⟩ }))
    ∧ (exec .ptimeLoRead s
      = .next (State.finish { s.setReg R.SYS_PTIME_HI (BitVec.ofNat 32 (s.now / 2 ^ 32)) with
          bus := ⟨false, s.now % 2 ^ 32⟩ }))

/-- R12, R42: a read of a count that a read clears returns it and leaves 0: CRSn_ECC_CNT, and of a snapshot count,
TAL_PORT_CNT of a host port, the captured copy, which goes down from the live counts as well. -/
def Obligations.ReadClears : Prop :=
  ∀ (s : State) (n : Fin 24) (p : Fin 2) (off : BitVec 24), s.hasCore n.val = true → s.snap = none →
    let less (live got : Nat) : Nat := if got = 0xFFF then 0 else live - got
    let c := (s.reg (R.TAL_PORT_CNT p.val)).toNat
    (off.toNat = R.CRS_ECC_CNT n.val →
      exec (.rcRead off) s
        = .next (State.finish { s.setReg (R.CRS_ECC_CNT n.val) 0 with bus := ⟨false, (s.reg (R.CRS_ECC_CNT n.val)).toNat⟩ }))
    ∧ (off.toNat = R.TAL_PORT_CNT p.val →
      exec (.rcRead off) s
        = .next (State.finish { (s.setReg (R.TAL_PORT_CNT p.val) 0).modLink p.val (fun l => { l with
            crcErr := less l.crcErr (bits c 0 12), replayCnt := less l.replayCnt (bits c 12 12) }) with
            bus := ⟨false, c⟩ }))

/-- R54: another requester at a local RAM of a present core. It reads it; it writes data RAM, and instruction RAM while
the core is stopped; while the core runs the write sets IW_DENIED instead. -/
def Obligations.LocalRamAccess : Prop :=
  ∀ (s : State) (n : Fin 24) (off : BitVec 17) (size : Fin 7) (v : BitVec 512), s.Clean → s.hasCore n.val = true →
    let k := 2 ^ size.val
    let a := 0x1100000000 + n.val * 0x20000 + off.toNat
    let answer (t : State) (d : Nat) : Host.Outcome State Fault Refusal := .next (State.finish { t with bus := ⟨false, d⟩ })
    off.toNat % k = 0 →
    exec (.localRamAccess n off size false v) s = answer s (s.rdLe a k)
      ∧ (0x10000 ≤ off.toNat ∨ s.flag (F.CRS_CTRL_RUN n.val) = false →
        exec (.localRamAccess n off size true v) s = answer (s.wrLe a k v.toNat) 0)
      ∧ (off.toNat < 0x10000 ∧ s.flag (F.CRS_CTRL_RUN n.val) = true →
        exec (.localRamAccess n off size true v) s = answer (s.setFlag (F.CRS_STATUS_IW_DENIED n.val)) 0)

/-! ### Pages and snapshots (R18 to R44) -/

/-- R20, R21, R23: an admission request of a READY page enters the queue; one with the queue full is refused BUSY, one of
a page in another state STATE, which alone signals ADMIT_DONE. A stale handle names no page: nothing changes. -/
def Obligations.AdmissionRequests : Prop :=
  ∀ (s : State) (handle : Word),
    (s.admitQ.length < 16 ∧ s.pageOf handle.toNat = none → exec (.admitReq handle) s = .next s.finish)
    ∧ ∀ (i : Nat) (p : Page), s.pageOf handle.toNat = some (i, p) →
      (16 ≤ s.admitQ.length → exec (.admitReq handle) s
        = .next ((s.setFlag F.SYS_ADMIT_STATUS_FULLSEEN).modPage i (fun q => { q with result := 8 })).finish)
      ∧ (s.admitQ.length < 16 ∧ p.state = .ready → exec (.admitReq handle) s
        = .next (State.finish { s.modPage i (fun q => { q with state := .queued, pagea := none }) with
            admitQ := s.admitQ ++ [i] }))
      ∧ (s.admitQ.length < 16 ∧ p.state ≠ .ready → exec (.admitReq handle) s
        = .next ((s.modPage i (fun q => { q with result := 9 })).notify 0x0A (hIdx p.job) 1).finish)

/-- R21 to R24, R27, R446: the request at the head of the queue is evaluated and leaves it. With memory that holds no
errors the six conditions of R22 decide, the sixth in a joined pair only: with all of them the page is ADMITTED with
START_LINE fixed; else it is READY again with the lowest-numbered condition that failed as its result and every one in
ADMIT_FAIL. In a pair the active asks the shadow first, once, and the shadow's requests wait. A job not RUNNING refuses it
STATE. An entry that is no QUEUED page any more only leaves; nothing happens with an empty queue. -/
def Obligations.AdmissionEvaluation : Prop :=
  ∀ s : State,
    (s.admitQ = [] → exec .admitEvaluation s = .next s.finish)
    ∧ ∀ (i : Nat) (rest : List Nat), s.admitQ = i :: rest →
      (Tab.get s.pages i = none → exec .admitEvaluation s = .next (State.finish { s with admitQ := rest }))
      ∧ ∀ p : Page, Tab.get s.pages i = some p →
        (p.state ≠ .queued ∨ s.jobOf p = none → exec .admitEvaluation s = .next (State.finish { s with admitQ := rest }))
        ∧ ∀ j : Job, p.state = .queued → s.jobOf p = some j →
          (j.state ≠ .running → ∃ (t : State) (q : Page), exec .admitEvaluation s = .next t.finish ∧ t.admitQ = rest
            ∧ Tab.get t.pages i = some q ∧ q.state = .ready ∧ q.result = 9)
          ∧ (j.state = .running → s.isShadow = true → exec .admitEvaluation s = .next s.finish)
          ∧ (j.state = .running → s.isActive = true → p.pagea = none →
            (s.acd.asked = some i → exec .admitEvaluation s = .next s.finish)
            ∧ (s.acd.asked ≠ some i → exec .admitEvaluation s
                = .next (State.finish ((s.sendAcd 0x05 0 (s.pageName p j)).modAcd (fun a => { a with asked := some i })))))
          ∧ (j.state = .running → s.Clean → s.isShadow = false → (s.isActive = true → p.pagea ≠ none) →
            let start := s.startLine j
            let hold := s.thermalHold j p.length
            let failed := b2n (!(s.rasterOk j p i start).2) + 2 * b2n (!s.bandOk j start)
              + 4 * b2n (hold.1 || !hold.2.isEmpty) + 8 * b2n (!s.clocksOk j i) + 16 * b2n (!s.linksOk j)
              + 32 * b2n (s.joined && p.pagea != some true)
            ∃ (t : State) (q : Page), exec .admitEvaluation s = .next t.finish ∧ t.admitQ = rest
              ∧ Tab.get t.pages i = some q
              ∧ (failed = 0 → q.state = .admitted ∧ q.result = 1 ∧ q.failMask = 0 ∧ q.startLine = start)
              ∧ (failed ≠ 0 → q.state = .ready ∧ q.failMask = failed
                  ∧ ∃ b, lowestBit 6 failed = some b ∧ q.result = 2 + b))

/-- R24: START_LINE is the smallest line that is 256 lines ahead of the reference station's count and past the previous
page's last line plus the gap, in 40-bit line arithmetic. -/
def Obligations.StartLine : Prop :=
  ∀ (s : State) (j : Job),
    let a := ((s.ex j.ref).line + 256) % 2 ^ 40
    (j.ends = [] → s.startLine j = a)
    ∧ ∀ h e r, j.ends = (h, e) :: r →
      let b := (e + j.gap + 1) % 2 ^ 40
      s.startLine j = (if (a + 2 ^ 40 - b) % 2 ^ 40 < 2 ^ 39 then a else b)

/-- R26, R43, R18: an ADMITTED page is withdrawn before its START_LINE; from then on, and printed, it is not, with WD_LATE;
a PRINTING page is spoiled by its handle, on its reference station while that has a line to come and else on the lowest
station that has, and no page in another state; a page begins at its START_LINE and ends when its last station has.
A handle that names no page, and a page in another state, leave everything as it is. -/
def Obligations.PageLife : Prop :=
  ∀ (s : State) (handle : Word) (k : Fin 1024) (p : Page),
    (s.pageOf handle.toNat = none → exec (.withdraw handle) s = .next s.finish ∧ exec (.spoil handle) s = .next s.finish)
    ∧ (∀ i, s.pageOf handle.toNat = some (i, p) →
      (p.state = .admitted ∧ s.beforeStart p = true → ∃ t q, exec (.withdraw handle) s = .next (State.finish t)
        ∧ Tab.get t.pages i = some q ∧ q.state = .ready ∧ q.result = 11 ∧ q.reserved = 0
        ∧ ∀ f ∈ t.fills, f.page ≠ i)
      ∧ ((p.state = .admitted ∧ s.beforeStart p = false) ∨ p.state = .printing ∨ p.state = .done →
        exec (.withdraw handle) s = .next (s.setFlag F.SYS_ADMIT_STATUS_WD_LATE).finish)
      ∧ (p.state ≠ .admitted ∧ p.state ≠ .printing ∧ p.state ≠ .done → exec (.withdraw handle) s = .next s.finish)
      ∧ (p.state ≠ .printing → exec (.spoil handle) s = .next s.finish)
      ∧ (∀ j, p.state = .printing → s.jobOf p = some j →
        let stn := (j.ref :: List.range 4).find? (fun n => j.names n && decide (s.blankPoint p n < p.length))
        (stn = none → exec (.spoil handle) s = .next s.finish)
        ∧ (stn ≠ none → ∃ t q, exec (.spoil handle) s = .next (State.finish t) ∧ Tab.get t.pages i = some q
          ∧ bit q.record.spoilMask 9 = true
          ∧ (p.record.spoilCause = 0 → q.record.spoilCause = 0x0A ∧ some q.record.spoilStn = stn))))
    ∧ (Tab.get s.pages k.val = some p → p.state = .admitted → s.beforeStart p = false →
      exec (.pageStart k) s = .next (s.modPage k.val (fun q => { q with
        state := .printing, record := { q.record with tFirst := s.now } })).finish)
    ∧ (Tab.get s.pages k.val = some p → p.state ≠ .admitted ∨ s.beforeStart p = true →
      exec (.pageStart k) s = .next s.finish)
    ∧ (∀ j, Tab.get s.pages k.val = some p → s.jobOf p = some j →
      (p.state = .printing ∧ (setBitsOf 4 j.stn).all (s.endedOn p) = true →
        exec (.pageDone k) s
          = .next (((s.finishPage k.val s.now).pageBoundary j).each (setBitsOf 4 j.stn) State.holdRelease).finish)
      ∧ (p.state ≠ .printing ∨ (setBitsOf 4 j.stn).all (s.endedOn p) = false →
        exec (.pageDone k) s = .next s.finish))

/-- R37 to R41, R44: a snapshot request latches press time and, at that instant, every snapshot field of the domains asked
for; one during another sets OVERRUN and does nothing else. It ends when every domain has been captured: then each field
is in its register, DONE is set and no domain is listed as missing. After 10 µs with a domain missing it ends with TIMEOUT
too, the domains that missed in SYS_SNAP_MISS and the copies of the others in place. Before that, and with no snapshot in
progress, nothing happens. -/
def Obligations.Snapshots : Prop :=
  ∀ (s : State) (v : Word) (missed : BitVec 24),
    let copy (u : State) (q : Snap) (e : Nat × Nat × Nat) : Word :=
      BitVec.ofNat 32 ((u.reg e.1).toNat - ((u.reg e.1).toNat &&& e.2.1) + (Tab.get q.latched e.1).getD 0)
    (s.snap.isSome = true → exec (.snapReq v) s = .next (s.setFlag F.SYS_SNAP_STATUS_OVERRUN).finish)
    ∧ (s.snap = none → ∃ t q, exec (.snapReq v) s = .next (State.finish t) ∧ t.snap = some q
        ∧ q.domains = v.toNat % 2 ^ 24 ∧ q.time = s.now ∧ t.reg64 R.SYS_SNAP_TIME_LO R.SYS_SNAP_TIME_HI = s.now
        ∧ ∀ d ∈ maskDomains q.domains, ∀ e ∈ s.snapFields d, Tab.get q.latched e.1 = some (e.2.2 &&& e.2.1))
    ∧ (s.snap = none → exec .snapshotDone s = .next s.finish ∧ exec (.snapshotTimeout missed) s = .next s.finish)
    ∧ ∀ q, s.snap = some q →
      ((maskDomains q.domains).any s.domainStopped = true → exec .snapshotDone s = .next s.finish)
      ∧ ((maskDomains q.domains).any s.domainStopped = false → ∃ t, exec .snapshotDone s = .next (State.finish t)
        ∧ t.snap = none ∧ t.flag F.SYS_SNAP_STATUS_DONE = true ∧ t.fld F.SYS_SNAP_MISS_DOMAINS = 0
        ∧ ∀ d ∈ maskDomains q.domains, ∀ e ∈ s.snapFields d, t.reg e.1 = copy s q e)
      ∧ (let gone := (maskDomains q.domains).filter (fun d => bit missed.toNat (d - 1) || s.domainStopped d)
        (gone = [] ∨ s.now < q.time + 10000 → exec (.snapshotTimeout missed) s = .next s.finish)
        ∧ (gone ≠ [] → q.time + 10000 ≤ s.now → ∃ t, exec (.snapshotTimeout missed) s = .next (State.finish t)
          ∧ t.snap = none ∧ t.flag F.SYS_SNAP_STATUS_TIMEOUT = true ∧ t.flag F.SYS_SNAP_STATUS_DONE = true
          ∧ (∀ d < 25, bit (t.fld F.SYS_SNAP_MISS_DOMAINS) d = decide (d + 1 ∈ gone))
          ∧ ∀ d ∈ maskDomains q.domains, d ∉ gone → ∀ e ∈ s.snapFields d, t.reg e.1 = copy s q e))

/-! ### Cores: integer instructions (R48, R50, R60, R61) -/

/-- R60, R61, R50, for the instruction that the word at the program counter spells (R58): sums and differences write rd,
C and V and nothing else; the core goes on. C of a difference says that there is no borrow; V says that the exact
signed value is not the word's. -/
def Obligations.IntegerSums : Prop :=
  ∀ (s : State) (n : Fin 24) (rd ra rb : Fin 32) (imm : BitVec 16), s.Issues n.val →
    let runs (i : Instr) (o : Host.Outcome State Fault Refusal) : Prop := s.spells n.val i → exec i s = o
    let a := (s.core n.val).rd ra
    let b := (s.core n.val).rd rb
    let x : Word := imm.signExtend 32
    let k := b2n (bit (s.core n.val).flags 0)
    let put (v : Word) (c o : Bool) : Host.Outcome State Fault Refusal :=
      .next (s.modCore n.val (fun q => ((q.wr rd v).cv c o).goOn))
    runs (.crAdd n rd ra rb) (put (a + b) (decide (2 ^ 32 ≤ a.toNat + b.toNat)) (decide (a.toInt + b.toInt ≠ (a + b).toInt)))
      ∧ runs (.crAddi n rd ra imm) (put (a + x) (decide (2 ^ 32 ≤ a.toNat + x.toNat)) (decide (a.toInt + x.toInt ≠ (a + x).toInt)))
      ∧ runs (.crAdc n rd ra rb) (put (a + b + BitVec.ofNat 32 k) (decide (2 ^ 32 ≤ a.toNat + b.toNat + k))
            (decide (a.toInt + b.toInt + k ≠ (a + b + BitVec.ofNat 32 k).toInt)))
      ∧ runs (.crSub n rd ra rb) (put (a - b) (decide (b.toNat ≤ a.toNat)) (decide (a.toInt - b.toInt ≠ (a - b).toInt)))
      ∧ runs (.crSbc n rd ra rb) (put (a - b - BitVec.ofNat 32 (1 - k)) (decide (b.toNat + (1 - k) ≤ a.toNat))
            (decide (a.toInt - b.toInt - ((1 - k : Nat) : Int) ≠ (a - b - BitVec.ofNat 32 (1 - k)).toInt)))

/-- R60, R61: the logical instructions, the shifts and LIH write rd and nothing else. Shift amounts are the low five
bits. -/
def Obligations.LogicAndShifts : Prop :=
  ∀ (s : State) (n : Fin 24) (rd ra rb : Fin 32) (imm : BitVec 16), s.Issues n.val →
    let runs (i : Instr) (o : Host.Outcome State Fault Refusal) : Prop := s.spells n.val i → exec i s = o
    let a := (s.core n.val).rd ra
    let b := (s.core n.val).rd rb
    let z : Word := imm.setWidth 32
    let k := b.toNat % 32
    let m := imm.toNat % 32
    let put (v : Word) : Host.Outcome State Fault Refusal := .next (s.modCore n.val (fun q => (q.wr rd v).goOn))
    (runs (.crAnd n rd ra rb) (put (a &&& b)) ∧ runs (.crOr n rd ra rb) (put (a ||| b))
      ∧ runs (.crXor n rd ra rb) (put (a ^^^ b)) ∧ runs (.crNor n rd ra rb) (put (~~~(a ||| b)))
      ∧ runs (.crAndi n rd ra imm) (put (a &&& z)) ∧ runs (.crOri n rd ra imm) (put (a ||| z))
      ∧ runs (.crXori n rd ra imm) (put (a ^^^ z)) ∧ runs (.crLih n rd imm) (put (z <<< 16)))
    ∧ (runs (.crSll n rd ra rb) (put (a <<< k)) ∧ runs (.crSrl n rd ra rb) (put (a >>> k))
      ∧ runs (.crSra n rd ra rb) (put (a.sshiftRight k)) ∧ runs (.crRor n rd ra rb) (put (a.rotateRight k)))
    ∧ (imm.toNat < 32 → runs (.crShi n rd ra imm) (put (a <<< m)))
    ∧ (32 ≤ imm.toNat ∧ imm.toNat < 64 → runs (.crShi n rd ra imm) (put (a >>> m)))
    ∧ (64 ≤ imm.toNat ∧ imm.toNat < 96 → runs (.crShi n rd ra imm) (put (a.sshiftRight m)))
    ∧ (96 ≤ imm.toNat ∧ imm.toNat < 128 → runs (.crShi n rd ra imm) (put (a.rotateRight m)))

/-- R60, R61: comparisons, minima, maxima and counts write rd and nothing else. -/
def Obligations.ComparesAndCounts : Prop :=
  ∀ (s : State) (n : Fin 24) (rd ra rb : Fin 32) (imm : BitVec 16), s.Issues n.val →
    let runs (i : Instr) (o : Host.Outcome State Fault Refusal) : Prop := s.spells n.val i → exec i s = o
    let a := (s.core n.val).rd ra
    let b := (s.core n.val).rd rb
    let x : Word := imm.signExtend 32
    let put (v : Word) : Host.Outcome State Fault Refusal := .next (s.modCore n.val (fun q => (q.wr rd v).goOn))
    runs (.crClt n rd ra rb) (put (if a.slt b then 1 else 0))
      ∧ runs (.crCltu n rd ra rb) (put (if a < b then 1 else 0))
      ∧ runs (.crClti n rd ra imm) (put (if a.slt x then 1 else 0))
      ∧ runs (.crCltiu n rd ra imm) (put (if a < x then 1 else 0))
      ∧ runs (.crMin n rd ra rb) (put (if a.slt b then a else b))
      ∧ runs (.crMax n rd ra rb) (put (if a.slt b then b else a))
      ∧ runs (.crMinu n rd ra rb) (put (if a < b then a else b))
      ∧ runs (.crMaxu n rd ra rb) (put (if a < b then b else a))
      ∧ runs (.crClz n rd ra) (put a.clz)
      ∧ runs (.crPopc n rd ra) (put (BitVec.ofNat 32 ((List.range 32).filter (fun i => a.getLsbD i)).length))

/-- R60: products and quotients write rd and nothing else; division never traps. -/
def Obligations.ProductsAndQuotients : Prop :=
  ∀ (s : State) (n : Fin 24) (rd ra rb : Fin 32), s.Issues n.val →
    let runs (i : Instr) (o : Host.Outcome State Fault Refusal) : Prop := s.spells n.val i → exec i s = o
    let a := (s.core n.val).rd ra
    let b := (s.core n.val).rd rb
    let put (v : Word) : Host.Outcome State Fault Refusal := .next (s.modCore n.val (fun q => (q.wr rd v).goOn))
    runs (.crMul n rd ra rb) (put (a * b))
      ∧ runs (.crMulh n rd ra rb) (put ((a.signExtend 64 * b.signExtend 64).extractLsb' 32 32))
      ∧ runs (.crMulhu n rd ra rb) (put ((a.setWidth 64 * b.setWidth 64).extractLsb' 32 32))
      ∧ runs (.crDiv n rd ra rb) (put (if b = 0 then 0xFFFFFFFF else a.sdiv b))
      ∧ runs (.crDivu n rd ra rb) (put (if b = 0 then 0xFFFFFFFF else a / b))
      ∧ runs (.crRem n rd ra rb) (put (if b = 0 then a else a.srem b))
      ∧ runs (.crRemu n rd ra rb) (put (if b = 0 then a else a % b))

/-! ### Cores: control flow, control registers, time and events (R63 to R71) -/

/-- R63: a branch goes to the instruction's address plus 4 × offset if its condition holds; jumps and calls always go,
and a call writes its return address. A target wraps modulo 64 KiB. -/
def Obligations.BranchesAndCalls : Prop :=
  ∀ (s : State) (n : Fin 24) (rd ra rb : Fin 32) (off : BitVec 16), s.Issues n.val →
    let runs (i : Instr) (o : Host.Outcome State Fault Refusal) : Prop := s.spells n.val i → exec i s = o
    let a := (s.core n.val).rd ra
    let b := (s.core n.val).rd rb
    let pc := (s.core n.val).pc
    let there := (((pc : Int) + 4 * off.toInt) % 65536).toNat
    let go (c : Bool) : Host.Outcome State Fault Refusal :=
      .next (s.modCore n.val (fun q => if c then q.goTo there else q.goOn))
    (runs (.crBeq n ra rb off) (go (a == b)) ∧ runs (.crBne n ra rb off) (go (a != b))
      ∧ runs (.crBlt n ra rb off) (go (a.slt b)) ∧ runs (.crBge n ra rb off) (go (b.sle a))
      ∧ runs (.crBltu n ra rb off) (go (decide (a < b))) ∧ runs (.crBgeu n ra rb off) (go (decide (b ≤ a))))
    ∧ runs (.crJmp n off) (go true)
    ∧ runs (.crCall n rd off) (.next (s.modCore n.val (fun q => (q.wr rd (BitVec.ofNat 32 (pc + 4))).goTo there)))
    ∧ runs (.crCallr n rd ra off) (.next (s.modCore n.val (fun q => (q.wr rd (BitVec.ofNat 32 (pc + 4))).goTo
          ((a + off.signExtend 32).toNat / 4 * 4))))

/-- R49, R51, R64: RDC gives the control register its number names, and a WRC of it writes it: the flags, the mode, the
registers a trap saves into, the vector base, the masks, the apertures, the WAIT deadline, the scratch registers, and on a
servo core the two accumulators. Bits that a register does not have are discarded. The numbers that are ILLEGAL stand in
`IllegalTraps`. -/
def Obligations.ControlRegisters : Prop :=
  ∀ (s : State) (n : Fin 24) (rd ra : Fin 32), s.Issues n.val →
    let runs (i : Instr) (o : Host.Outcome State Fault Refusal) : Prop := s.spells n.val i → exec i s = o
    let c := s.core n.val
    let a := c.rd ra
    let get (k : BitVec 5) (v : Word) : Prop := runs (.crRdc n rd k) (.next (s.modCore n.val (fun q => (q.wr rd v).goOn)))
    let put (k : BitVec 5) (f : Core → Core) : Prop :=
      runs (.crWrc n ra k) (.next (s.modCore n.val (fun q => (f q).goOn)))
    let num (v : Nat) : Word := BitVec.ofNat 32 v
    (get 0 (num c.flags) ∧ get 1 (num (c.status + if 16 ≤ n.val then 16 else 0)) ∧ get 2 c.epc ∧ get 3 c.ecause
      ∧ get 4 c.ebad ∧ get 5 (num c.vbase) ∧ get 6 (num c.evp) ∧ get 7 c.imask ∧ get 8 (num c.ap0) ∧ get 9 (num c.ap1)
      ∧ get 10 (num (n.val + if 16 ≤ n.val then 256 else 0)) ∧ get 11 (num c.ost) ∧ get 12 (num (c.wdl % 2 ^ 32))
      ∧ get 13 (num (c.wdl / 2 ^ 32)) ∧ get 14 c.scr0 ∧ get 15 c.scr1)
    ∧ (put 0 (fun q => { q with flags := a.toNat % 32 }) ∧ put 1 (fun q => { q with status := a.toNat % 16 })
      ∧ put 2 (fun q => { q with epc := a }) ∧ put 3 (fun q => { q with ecause := num (a.toNat % 16 + a.toNat / 256 % 32 * 256) })
      ∧ put 4 (fun q => { q with ebad := a })
      ∧ put 5 (fun q => { q with vbase := a.toNat / 128 % 512 * 128 }) ∧ put 7 (fun q => { q with imask := a })
      ∧ put 8 (fun q => { q with ap0 := a.toNat % 1024 }) ∧ put 9 (fun q => { q with ap1 := a.toNat % 1024 })
      ∧ put 12 (fun q => { q with wdl := q.wdl / 2 ^ 32 * 2 ^ 32 + a.toNat })
      ∧ put 13 (fun q => { q with wdl := q.wdl % 2 ^ 32 + a.toNat * 2 ^ 32 })
      ∧ put 14 (fun q => { q with scr0 := a }) ∧ put 15 (fun q => { q with scr1 := a }))
    ∧ (16 ≤ n.val →
      (get 16 (BitVec.ofInt 32 c.acc0) ∧ get 17 (BitVec.ofInt 32 (c.acc0 / 2 ^ 32))
        ∧ get 18 (BitVec.ofInt 32 c.acc1) ∧ get 19 (BitVec.ofInt 32 (c.acc1 / 2 ^ 32)))
      ∧ put 16 (fun q => { q with acc0 := q.acc0 / 2 ^ 32 * 2 ^ 32 + a.toNat })
      ∧ put 17 (fun q => { q with acc0 := (a.setWidth 8).toInt * 2 ^ 32 + q.acc0 % 2 ^ 32 })
      ∧ put 18 (fun q => { q with acc1 := q.acc1 / 2 ^ 32 * 2 ^ 32 + a.toNat })
      ∧ put 19 (fun q => { q with acc1 := (a.setWidth 8).toInt * 2 ^ 32 + q.acc1 % 2 ^ 32 }))

/-- R64, R77, R78: outside a handler TRAP enters the handler at VBASE + 16 × 6, with EPC on the next instruction and its
code in ECAUSE; RTE goes back to EPC with IE as it was before the trap. -/
def Obligations.TrapAndReturn : Prop :=
  ∀ (s : State) (n : Fin 24) (code : BitVec 5), s.Issues n.val →
    let runs (i : Instr) (o : Host.Outcome State Fault Refusal) : Prop := s.spells n.val i → exec i s = o
    ((s.core n.val).inTrap = false →
      runs (.crTrap n code) (.next (s.modCore n.val (fun q => q.issuing.trapped 6 code.toNat ((q.pc + 4) % 65536) 0))))
    ∧ runs (.crRte n) (.next (s.modCore n.val (fun q => ({ q with
          status := setBits (setBits q.status 0 1 (q.status / 2)) 2 1 0 } : Core).goTo (q.epc.toNat / 4 * 4))))

/-- R67, R68, R70, R66: press time, 64-bit arithmetic on pairs, AT, WAIT and the core's own events. -/
def Obligations.TimeAndEvents : Prop :=
  ∀ (s : State) (n : Fin 24) (rd ra rb : Fin 32), s.Issues n.val →
    let runs (i : Instr) (o : Host.Outcome State Fault Refusal) : Prop := s.spells n.val i → exec i s = o
    let c := s.core n.val
    let m := (c.rd ra).toNat
    let next (f : Core → Core) : Host.Outcome State Fault Refusal := .next (s.modCore n.val f)
    (evenReg rd → runs (.crRdtime n rd) (next (fun q => (q.wr2 rd s.ptime).goOn)))
    ∧ (evenReg rd ∧ evenReg ra ∧ evenReg rb →
        runs (.crTadd n rd ra rb) (next (fun q => (q.wr2 rd (c.rd2 ra + c.rd2 rb)).goOn))
        ∧ runs (.crTsub n rd ra rb) (next (fun q => (q.wr2 rd (c.rd2 ra - c.rd2 rb)).goOn)))
    ∧ (evenReg ra ∧ evenReg rb →
        runs (.crTlt n rd ra rb) (next (fun q => (q.wr rd (if c.rd2 ra < c.rd2 rb then 1 else 0)).goOn)))
    ∧ (evenReg ra →
        runs (.crAt n ra) (next (fun q =>
          if c.rd2 ra < s.ptime then { (q.flagged 2 true).goOn with atPair := true }
          else { q.issuing.flagged 2 false with run := .atWait (c.rd2 ra).toNat })))
    ∧ (m ≠ 0 ∨ c.dle = true →
        runs (.crWait n rd ra) (next (fun q =>
          if c.evp &&& m ≠ 0 then
            ((({ q with evp := c.evp - (c.evp &&& m) } : Core).wr rd (BitVec.ofNat 32 (c.evp &&& m))).flagged 3 false).goOn
          else if c.dle = true ∧ c.wdl ≤ s.now then ((q.wr rd 0).flagged 3 true).goOn
          else { q.issuing with run := .waiting m rd.val })))
    ∧ runs (.crEvset n ra) (next (fun q => { q with evp := c.evp ||| m % 2 ^ 31 }.goOn))
    ∧ runs (.crEvclr n ra) (next (fun q => { q with evp := c.evp - (c.evp &&& m) }.goOn))

/-- R68 to R71, R78: how a stalled AT or WAIT ends, and how an interrupt is taken at a boundary: AT at its time, WAIT with
the masked events it found or at its deadline, the interrupt with EPC on the instruction not yet issued. Before that
nothing happens. -/
def Obligations.StallsAndInterrupts : Prop :=
  ∀ (s : State) (n : Fin 24), s.hasCore n.val = true → s.calm → s.OutputsSafe →
    let c := s.core n.val
    let next (f : Core → Core) : Host.Outcome State Fault Refusal := .next (s.modCore n.val f)
    let done (m : Nat) (rd : Fin 32) (q : Core) : Core :=
      { ((({ q with evp := c.evp - (c.evp &&& m) } : Core).wr rd (BitVec.ofNat 32 (c.evp &&& m))).flagged 3 false) with
        pc := (q.pc + 4) % 65536, run := .running }
    (∀ t, c.run = .atWait t →
      (t ≤ s.now → exec (.atRelease n) s = next (fun q => { q.goOn with run := .running, atPair := true }))
      ∧ (s.now < t → exec (.atRelease n) s = .next s)
      ∧ (c.intDue = true → exec (.interrupt n) s = next (fun q => q.trapped 7 0 q.pc 0))
      ∧ (c.intDue = false → exec (.interrupt n) s = .next s))
    ∧ (∀ (m : Nat) (rd : Fin 32), c.run = .waiting m rd.val →
      (c.evp &&& m ≠ 0 → exec (.waitWake n) s = next (done m rd) ∧ exec (.waitDeadline n) s = next (done m rd)
        ∧ exec (.interrupt n) s = next (fun q =>
            if (done m rd q).intDue = true then (done m rd q).trapped 7 0 (done m rd q).pc 0 else done m rd q))
      ∧ (c.evp &&& m = 0 → exec (.waitWake n) s = .next s
        ∧ (c.dle = true ∧ c.wdl ≤ s.now → exec (.waitDeadline n) s = next (fun q =>
            { ((q.wr rd 0).flagged 3 true) with pc := (q.pc + 4) % 65536, run := .running }))
        ∧ (c.dle = false ∨ s.now < c.wdl → exec (.waitDeadline n) s = .next s)
        ∧ (c.intDue m = true → exec (.interrupt n) s = next (fun q => q.trapped 7 0 q.pc 0))
        ∧ (c.intDue m = false → exec (.interrupt n) s = .next s)))
    ∧ (c.run = .running →
      (c.intDue = true ∧ c.atPair = false → exec (.interrupt n) s = next (fun q => q.trapped 7 0 q.pc 0))
      ∧ (c.intDue = false ∨ c.atPair = true → exec (.interrupt n) s = .next s))

/-- R76, R50: the DSP extension of a servo core: saturating accumulators, Q15 operands, SAT sticky. -/
def Obligations.DspExtension : Prop :=
  ∀ (s : State) (n : Fin 24) (i : Fin 2) (rd ra rb : Fin 32), s.Issues n.val → 16 ≤ n.val →
    let runs (i : Instr) (o : Host.Outcome State Fault Refusal) : Prop := s.spells n.val i → exec i s = o
    let c := s.core n.val
    let a := c.rd ra
    let b := c.rd rb
    let next (f : Core → Core) : Host.Outcome State Fault Refusal := .next (s.modCore n.val (fun q => (f q).goOn))
    let acc (v : Int) := next (fun q => q.accumulate i v)
    let q15 (v : Int) := next (fun q => (q.sat 16 v).wr rd (BitVec.ofInt 32 (satInt 16 v)))
    (runs (.crMac n i ra rb) (acc (c.accum i + half a * half b))
      ∧ runs (.crMsu n i ra rb) (acc (c.accum i - half a * half b))
      ∧ runs (.crMacl n i ra rb) (acc (c.accum i + a.toInt * half b / 2 ^ 15))
      ∧ runs (.crLda n i ra) (acc (a.toInt * 32768)) ∧ runs (.crClra n i) (acc 0))
    ∧ (runs (.crRda n rd i) (next (fun q => q.wr rd (BitVec.ofInt 32 (c.accum i))))
      ∧ runs (.crRdas n rd i) (q15 ((c.accum i + 16384) / 32768))
      ∧ runs (.crQadd n rd ra rb) (q15 (half a + half b)) ∧ runs (.crQsub n rd ra rb) (q15 (half a - half b))
      ∧ runs (.crQmul n rd ra rb) (q15 ((half a * half b + 16384) / 32768)))
    ∧ runs (.crClip n rd ra rb) (next (fun q => q.wr rd (BitVec.ofInt 32 (min (max a.toInt (-(b.toNat % 2 ^ 31 : Int))) (b.toNat % 2 ^ 31)))))
    ∧ runs (.crAbss n rd ra) (next (fun q => (q.sat 32 a.toInt.natAbs).wr rd (BitVec.ofInt 32 (satInt 32 a.toInt.natAbs))))

/-- R58, R59: an instruction's word, with the fields it does not use 0, decodes to it, for a core; every opcode not listed,
and so the all-0 and the all-1 word, spells none. R47 to R49, R61, R64, R70, R77, R78: a word that spells none, whatever
instruction was meant, a DSP instruction on a Crisal core, an odd register or g0 as a pair, a shift with a reserved amount,
a control register that does not exist, is read-only or is a servo core's, and a WAIT that could never complete trap to
VBASE + 16 with EPC on the instruction. -/
def Obligations.IllegalTraps : Prop :=
  (∀ (i : Instr) (w : Word), encodeCore i = some w → ∃ n, decodeCore n w = some i)
  ∧ (∀ (n : Fin 24) (w : Word) (i : Instr), decodeCore n w = some i → encodeCore i = some w)
  ∧ (∀ (n : Fin 24) (w : Word), w.toNat / 2 ^ 26 = 0 ∨ w.toNat / 2 ^ 26 = 63 → decodeCore n w = none)
  ∧ ∀ (s : State) (n : Fin 24) (i : Fin 2) (rd ra rb : Fin 32) (imm : BitVec 16) (k : BitVec 5), s.Issues n.val →
    (s.core n.val).inTrap = false →
    let runs (i : Instr) (o : Host.Outcome State Fault Refusal) : Prop := s.spells n.val i → exec i s = o
    let c := s.core n.val
    let ill : Host.Outcome State Fault Refusal := .next (s.modCore n.val (fun q => q.issuing.trapped 1 0 q.pc 0))
    (decodeCore n (s.pcWord n.val) = none → exec (.crAdd n rd ra rb) s = ill ∧ exec (.crShi n rd ra imm) s = ill
      ∧ exec (.crBeq n ra rb imm) s = ill ∧ exec (.crRdc n rd k) s = ill)
    ∧ (n.val < 16 →
      runs (.crMac n i ra rb) ill ∧ runs (.crMsu n i ra rb) ill ∧ runs (.crMacl n i ra rb) ill
      ∧ runs (.crClra n i) ill ∧ runs (.crLda n i ra) ill ∧ runs (.crRda n rd i) ill
      ∧ runs (.crRdas n rd i) ill ∧ runs (.crQadd n rd ra rb) ill ∧ runs (.crQsub n rd ra rb) ill
      ∧ runs (.crQmul n rd ra rb) ill ∧ runs (.crClip n rd ra rb) ill ∧ runs (.crAbss n rd ra) ill)
    ∧ (¬ evenReg rd → runs (.crRdtime n rd) ill)
    ∧ (¬ (evenReg rd ∧ evenReg ra ∧ evenReg rb) → runs (.crTadd n rd ra rb) ill ∧ runs (.crTsub n rd ra rb) ill)
    ∧ (¬ (evenReg ra ∧ evenReg rb) → runs (.crTlt n rd ra rb) ill)
    ∧ (¬ evenReg ra → runs (.crAt n ra) ill)
    ∧ (c.rd ra = 0 ∧ c.dle = false → runs (.crWait n rd ra) ill)
    ∧ (128 ≤ imm.toNat → runs (.crShi n rd ra imm) ill)
    ∧ (20 ≤ k.toNat ∨ (16 ≤ k.toNat ∧ n.val < 16) → runs (.crRdc n rd k) ill)
    ∧ (20 ≤ k.toNat ∨ (16 ≤ k.toNat ∧ n.val < 16) ∨ k.toNat = 6 ∨ k.toNat = 10 ∨ k.toNat = 11 → runs (.crWrc n ra k) ill)

/-- R80: a synchronous trap inside a handler halts the core: STATE 4, TRAPINFO with both causes and the program counter,
FS(33+2n). Shown for the ILLEGAL of a shift with a reserved amount and for TRAP; the collector then takes the event. -/
def Obligations.DoubleTrap : Prop :=
  ∀ (s : State) (n : Fin 24) (rd ra : Fin 32) (imm : BitVec 16) (code : BitVec 5), s.Issues n.val →
    (s.core n.val).inTrap = true →
    let runs (i : Instr) (o : Host.Outcome State Fault Refusal) : Prop := s.spells n.val i → exec i s = o
    let halt (cause : Nat) : Host.Outcome State Fault Refusal :=
      .next (State.collect
        (((s.setReg (R.CRS_TRAPINFO n.val)
            (BitVec.ofNat 32 (cause + (s.core n.val).ecause.toNat % 16 * 16 + (s.core n.val).pc / 4 % 2 ^ 14 * 256))).modCore
          n.val (fun q => { q.issuing with run := .halted })).raise (33 + 2 * n.val)))
    (128 ≤ imm.toNat → runs (.crShi n rd ra imm) (halt 1)) ∧ runs (.crTrap n code) (halt 6)

/-! ### Cores: memory (R52 to R57, R62 to R65, R231) -/

/-- R52, R62: an aligned load from the core's own RAMs or, uncached, from DRAM puts the little-endian value into rd, sign-
or zero-extended, and changes nothing else. -/
def Obligations.Loads : Prop :=
  ∀ (s : State) (n : Fin 24) (rd ra : Fin 32) (imm : BitVec 16) (a : Nat), s.coreReady n.val → s.Clean →
    let runs (i : Instr) (o : Host.Outcome State Fault Refusal) : Prop := s.spells n.val i → exec i s = o
    let ea := ((s.core n.val).rd ra + imm.signExtend 32).toNat
    let at_ (k : Nat) : Prop :=
      ea % k = 0 ∧ (inOwnData n.val ea k a ∨ inOwnInstr n.val ea k a ∨ s.inAperture1 n.val ea k a)
    let next (f : Core → Core) : Host.Outcome State Fault Refusal := .next (s.modCore n.val (fun q => (f q).goOn)).finish
    (at_ 4 → runs (.crLdw n rd ra imm) (next (fun q => q.wr rd (BitVec.ofNat 32 (s.rdLe a 4)))))
    ∧ (at_ 2 → runs (.crLdh n rd ra imm) (next (fun q => q.wr rd ((BitVec.ofNat 16 (s.rdLe a 2)).signExtend 32)))
        ∧ runs (.crLdhu n rd ra imm) (next (fun q => q.wr rd (BitVec.ofNat 32 (s.rdLe a 2)))))
    ∧ (at_ 1 → runs (.crLdb n rd ra imm) (next (fun q => q.wr rd ((s.rd8 a).signExtend 32)))
        ∧ runs (.crLdbu n rd ra imm) (next (fun q => q.wr rd ((s.rd8 a).setWidth 32))))
    ∧ (at_ 8 ∧ evenReg rd → runs (.crLdd n rd ra imm) (next (fun q => q.wr2 rd (BitVec.ofNat 64 (s.rdLe a 8)))))

/-- R52, R62, R65: an aligned store to the core's own RAMs or, uncached, to DRAM writes the low bytes of rs, little-endian,
at its address, and the core goes on; every other byte is as it was (see `MemoryBytes`). R55: of the core's own instruction
RAM the words that a fetch may still return until a FENCE are those that stood there. -/
def Obligations.Stores : Prop :=
  ∀ (s : State) (n : Fin 24) (rs ra : Fin 32) (imm : BitVec 16) (a : Nat), s.coreReady n.val → s.Clean →
    let runs (i : Instr) (o : Host.Outcome State Fault Refusal) : Prop := s.spells n.val i → exec i s = o
    let ea := ((s.core n.val).rd ra + imm.signExtend 32).toNat
    let v := (s.core n.val).rd rs
    let after (k : Nat) (x : Nat) (i : Instr) : Prop :=
      (ea % k = 0 ∧ (inOwnData n.val ea k a ∨ s.inAperture1 n.val ea k a) →
        runs i (.next ((s.wrLe a k x).modCore n.val Core.goOn).finish))
      ∧ (ea % k = 0 ∧ inOwnInstr n.val ea k a →
        runs i (.next ((s.wrLe a k x).modCore n.val (fun q =>
          ({ q with stale := q.stale ++ s.wordsAt a k } : Core).goOn)).finish))
    after 4 v.toNat (.crStw n rs ra imm) ∧ after 2 v.toNat (.crSth n rs ra imm) ∧ after 1 v.toNat (.crStb n rs ra imm)
    ∧ (evenReg rs → after 8 ((s.core n.val).rd2 rs).toNat (.crStd n rs ra imm))

/-- R62: an atomic reads its word, writes the word it makes of it, and puts the old one into rd. -/
def Obligations.Atomics : Prop :=
  ∀ (s : State) (n : Fin 24) (rd ra rb : Fin 32) (a : Nat), s.coreReady n.val → s.Clean →
    let runs (i : Instr) (o : Host.Outcome State Fault Refusal) : Prop := s.spells n.val i → exec i s = o
    let c := s.core n.val
    let ea := (c.rd ra).toNat
    let t : Word := BitVec.ofNat 32 (s.rdLe a 4)
    let next (u : State) : Host.Outcome State Fault Refusal :=
      .next (u.modCore n.val (fun q => (q.wr rd t).goOn)).finish
    ea % 4 = 0 → inOwnData n.val ea 4 a ∨ s.inAperture1 n.val ea 4 a →
    runs (.crSwap n rd ra rb) (next (s.wrLe a 4 (c.rd rb).toNat))
      ∧ runs (.crLdadd n rd ra rb) (next (s.wrLe a 4 (t + c.rd rb).toNat))
      ∧ runs (.crCas n rd ra rb) (next (if t = c.rd rd then s.wrLe a 4 (c.rd rb).toNat else s))

/-- R53, R77, R79: a misaligned load, store or atomic traps ALIGN before any memory is touched, and an address that no
range of R52 holds traps BUSERR; both with the effective address in EBAD. -/
def Obligations.AddressTraps : Prop :=
  ∀ (s : State) (n : Fin 24) (rd ra rb : Fin 32) (imm : BitVec 16), s.coreReady n.val → (s.core n.val).inTrap = false →
    let runs (i : Instr) (o : Host.Outcome State Fault Refusal) : Prop := s.spells n.val i → exec i s = o
    let ea := ((s.core n.val).rd ra + imm.signExtend 32).toNat
    let at_ := ((s.core n.val).rd ra).toNat
    let trap (cause a : Nat) : Host.Outcome State Fault Refusal :=
      .next (s.modCore n.val (fun q => q.issuing.trapped cause 0 q.pc a)).finish
    let bad (k : Nat) (i : Instr) : Prop :=
      (ea % k ≠ 0 → runs i (trap 2 ea)) ∧ (ea % k = 0 ∧ 0x20000 ≤ ea ∧ ea < 0x80000000 → runs i (trap 3 ea))
    let badAt (i : Instr) : Prop :=
      (at_ % 4 ≠ 0 → runs i (trap 2 at_)) ∧ (at_ % 4 = 0 ∧ 0x20000 ≤ at_ ∧ at_ < 0x80000000 → runs i (trap 3 at_))
    (bad 4 (.crLdw n rd ra imm) ∧ bad 2 (.crLdh n rd ra imm) ∧ bad 2 (.crLdhu n rd ra imm) ∧ bad 1 (.crLdb n rd ra imm)
      ∧ bad 1 (.crLdbu n rd ra imm) ∧ (evenReg rd → bad 8 (.crLdd n rd ra imm)))
    ∧ (bad 4 (.crStw n rd ra imm) ∧ bad 2 (.crSth n rd ra imm) ∧ bad 1 (.crStb n rd ra imm)
      ∧ (evenReg rd → bad 8 (.crStd n rd ra imm)))
    ∧ badAt (.crSwap n rd ra rb) ∧ badAt (.crLdadd n rd ra rb) ∧ badAt (.crCas n rd ra rb)

/-- R56, R64: a store through aperture 0 that hits goes to the line and makes it dirty, memory unchanged; CWB writes a
dirty line back to its 64 bytes, CINV drops it without write-back, CWBI does both, and CWBALL leaves the cache empty. -/
def Obligations.CacheLines : Prop :=
  ∀ (s : State) (n : Fin 24) (rd rs ra : Fin 32) (a : Nat) (l : CacheLine), s.coreReady n.val → s.Clean →
    let runs (i : Instr) (o : Host.Outcome State Fault Refusal) : Prop := s.spells n.val i → exec i s = o
    let c := s.core n.val
    let ea := (c.rd ra).toNat
    let drop (q : Core) : Core := { q with cache := q.cache.filter (fun k => k.line != a / 64) }
    let clean (q : Core) : Core :=
      { q with cache := q.cache.map (fun k => if k.line = a / 64 then { k with dirty := false } else k) }
    let back : State := s.wrBytes (a / 64 * 64) l.data
    let next (u : State) (f : Core → Core) : Host.Outcome State Fault Refusal :=
      .next (u.modCore n.val (fun q => (f q).goOn)).finish
    s.inAperture0 n.val ea a → a / 64 * 64 + 64 ≤ s.dramTop → s.cacheLine n.val a = some l → l.data.length = 64 →
    (ea % 4 = 0 →
      runs (.crLdw n rd ra 0) (next s (fun q => q.wr rd (BitVec.ofNat 32 (ofLe ((l.data.drop (a % 64)).take 4)))))
      ∧ runs (.crStw n rs ra 0) (next s (fun q => { q with cache := q.cache.map (fun k =>
            if k.line = a / 64 then k.write (a % 64) (leBytes 4 (c.rd rs).toNat) else k) })))
    ∧ runs (.crCinv n ra) (next s drop)
    ∧ (l.dirty = true → runs (.crCwb n ra) (next back clean)
        ∧ runs (.crCwbi n ra) (next back (fun q => drop (clean q))))
    ∧ (l.dirty = false → runs (.crCwb n ra) (next s id) ∧ runs (.crCwbi n ra) (next s drop))

/-- R64, R65, R230, R231: CWBALL writes back and invalidates the whole cache, shown for one dirty line and for clean lines;
FENCE with no posted store outstanding goes on, the core's own stores to its instruction
RAM being settled then (R55); and the error of a posted store that its target dropped is captured as an
uncorrectable error of a core's access. -/
def Obligations.FencesAndPostedStores : Prop :=
  (∀ (s : State) (n : Fin 24), s.Clean → s.coreReady n.val →
      let runs (i : Instr) (o : Host.Outcome State Fault Refusal) : Prop := s.spells n.val i → exec i s = o
      (∀ l, (s.core n.val).cache = [l] → l.dirty = true → l.data.length = 64 → l.line * 64 + 64 ≤ s.dramTop →
        l.line * 64 + 64 ≤ 0x1000000000 →
        runs (.crCwball n) (.next ((s.wrBytes (l.line * 64) l.data).modCore n.val
          (fun q => { q with cache := [] }.goOn)).finish))
      ∧ ((s.core n.val).cache.all (fun l => !l.dirty) = true →
        runs (.crCwball n) (.next (s.modCore n.val (fun q => { q with cache := [] }.goOn)).finish))
      ∧ ((s.core n.val).failing = [] →
        runs (.crFence n) (.next (s.modCore n.val (fun q => ({ q with stale := [] } : Core).goOn)).finish)))
  ∧ ∀ (s : State) (n : Fin 24) (addr : BitVec 40), addr.toNat < 0x1000000000 →
    let w := addr.toNat / 8 * 8
    ((s.core n.val).failing.contains w = true ∧ w < s.dramTop →
      exec (.postedStoreFail n addr) s
        = .next ((s.modCore n.val (fun q => { q with failing := q.failing.erase w })).dramUe 1 w).finish)
    ∧ ((s.core n.val).failing.contains w = false → exec (.postedStoreFail n addr) s = .next s.finish)

/-- R81, R233: run, stop, reset and event injection through CRSn_CTRL and CRSn_EVINJ. SRESET keeps the general registers,
to which R48 gives no reset value (log entry on reset values), and what is on its way to memory (R55, R65); no core is
released before INIT_DONE. A stop between the release of an AT and its next instruction waits for that instruction (R69),
here shown of ADD. -/
def Obligations.RunControl : Prop :=
  ∀ (s : State) (n : Fin 24) (v : Word), s.hasCore n.val = true →
    let run := F.CRS_CTRL_RUN n.val
    let c := s.core n.val
    (v.getLsbD 1 = true →
      exec (.coreSreset n v) s = .next ((s.clrFlag run).modCore n.val (fun q =>
        { Core.reset with
          g := q.g, pc := s.fld (F.CRS_ENTRY_ENTRY n.val) * 4, failing := q.failing, stale := q.stale })).finish)
    ∧ (v.getLsbD 1 = false → v.getLsbD 0 = true →
        (bit (s.fld F.SYS_CTSTAT_CORE_FAIL) n.val = false → s.flag F.MEM_STATUS_INIT_DONE = true →
          let started : State := { (s.setFlag run) with pwr := { s.pwr with released := true } }
          (c.run = .stopped → exec (.coreRun n v) s
            = .next (started.modCore n.val (fun q => { q with run := .running, lastPc := q.pc })).finish)
          ∧ (c.run ≠ .stopped → c.run ≠ .halted → exec (.coreRun n v) s
            = .next (started.modCore n.val (fun q => { q with stopping := false })).finish))
        ∧ (c.run = .halted ∨ bit (s.fld F.SYS_CTSTAT_CORE_FAIL) n.val = true ∨ s.flag F.MEM_STATUS_INIT_DONE = false →
          exec (.coreRun n v) s = .next s.finish))
    ∧ (v.getLsbD 1 = false → v.getLsbD 0 = false →
        (c.run ≠ .halted → c.atPair = false ∨ c.run ≠ .running →
          exec (.coreStop n v) s = .next ((s.clrFlag run).modCore n.val (fun q =>
            { q with run := .stopped, atPair := false, stopping := false })).finish)
        ∧ (c.atPair = true ∧ c.run = .running → exec (.coreStop n v) s
          = .next ((s.clrFlag run).modCore n.val (fun q => { q with stopping := true })).finish))
    ∧ (∀ (rd ra rb : Fin 32), s.calm → s.OutputsSafe → c.run = .running → c.atPair = true → c.stopping = true →
        c.stale = [] → s.upsets = [] → s.spells n.val (.crAdd n rd ra rb) →
        exec (.crAdd n rd ra rb) s = .next (s.modCore n.val (fun q =>
          { ((q.wr rd (c.rd ra + c.rd rb)).cv (decide (2 ^ 32 ≤ (c.rd ra).toNat + (c.rd rb).toNat))
              (decide ((c.rd ra).toInt + (c.rd rb).toInt ≠ (c.rd ra + c.rd rb).toInt))).goOn with
            run := .stopped, stopping := false })))
    ∧ exec (.eventInject n v) s = .next (s.modCore n.val (fun q => { q with evp := q.evp ||| v.toNat % 2 ^ 31 })).finish
    ∧ (v.getLsbD 0 = true → ∃ t, exec (.crsLock n v) s = .next (State.finish t)
        ∧ t.flag (F.CRS_LOCK_LOCK n.val) = true ∧ ∀ k, k ≠ R.CRS_LOCK n.val → t.reg k = s.reg k)

/-! ### Objects, rings, events (R66, R67, R73, R74, R83 to R113) -/

/-- R84 to R86: every slot's generation is 1 after reset; a freed slot refuses every handle of it as STALE, and its
generation is the next one, 1 after 1,023; handle 0 and handles of generation 0 are never valid. -/
def Obligations.FreedHandles : Prop :=
  (∀ c i, State.reset.genOf c i = 1)
  ∧ (∀ (s : State) (h : Nat) (fits : Nat → Bool), h = 0 ∨ hGen h = 0 → s.checkHandle h fits = .error .invalid)
  ∧ ∀ (s : State) (c i h : Nat), i < classCap c → c < 64 → h ≠ 0 → hGen h ≠ 0 → hClass h = c → hIdx h = i →
    (s.freeSlot c i).checkHandle h (fun _ => true) = .error .stale
    ∧ (1 ≤ s.genOf c i ∧ s.genOf c i ≤ 1023 →
        (s.freeSlot c i).genOf c i = (if s.genOf c i = 1023 then 1 else s.genOf c i + 1))
    ∧ ∀ c' j, okey c' j ≠ okey c i → (s.freeSlot c i).obj c' j = s.obj c' j

/-- R73, R85, R90 to R93: OPEN with its checks in order, CLOSE, and the words of QUERY. OST says how it went, rd holds the
handle, the status code or the word. A parameter block out of place traps, as R73 says of a pointer operand. -/
def Obligations.ObjectInstructions : Prop :=
  ∀ (s : State) (n : Fin 24) (rd ra rb : Fin 32), s.coreReady n.val → (s.core n.val).failing = [] →
    (s.core n.val).stale = [] → s.Clean →
    let runs (i : Instr) (o : Host.Outcome State Fault Refusal) : Prop := s.spells n.val i → exec i s = o
    let s0 := s.issued n.val
    let a := ((s.core n.val).rd ra).toNat
    let b := ((s.core n.val).rd rb).toNat
    let done (t : State) (e : Ost) (v : Nat) : Host.Outcome State Fault Refusal :=
      .next (t.modCore n.val (fun q => (({ q with ost := e.code } : Core).wr rd (BitVec.ofNat 32 v)).goOn)).finish
    let w := s.blockWords n.val b
    ((s.core n.val).inTrap = false →
      let trap (cause : Nat) : Host.Outcome State Fault Refusal :=
        .next (s.modCore n.val (fun q => q.issuing.trapped cause 0 q.pc b)).finish
      (b % 8 ≠ 0 → runs (.crOpen n rd ra rb) (trap 2))
      ∧ (b % 8 = 0 ∧ 0x10000 < b + 4 * w.length → runs (.crOpen n rd ra rb) (trap 3)))
    ∧ (b % 8 = 0 ∧ b + 4 * w.length ≤ 0x10000 →
      (64 ≤ a ∨ classCap a = 0 → runs (.crOpen n rd ra rb) (done s0 .cls 0))
      ∧ (a < 64 ∧ classCap a ≠ 0 →
        (s0.blockOk a w = false → runs (.crOpen n rd ra rb) (done s0 .param 0))
        ∧ (s0.blockOk a w = true ∧ s0.unitsPresent a w = false →
            runs (.crOpen n rd ra rb) (done (s0.raise 5) .absent 0))
        ∧ (s0.blockOk a w = true ∧ s0.unitsPresent a w = true →
          (s0.slotFor a w = .error .exhausted →
            runs (.crOpen n rd ra rb) (done ((s0.raise 81).setFlag F.OBJ_STATUS_EXH_SEEN) .exhausted 0))
          ∧ (∀ e, s0.slotFor a w = .error e → e ≠ .exhausted → runs (.crOpen n rd ra rb) (done s0 e 0))
          ∧ ∀ i, s0.slotFor a w = .ok i →
            let h := a * 2 ^ 26 + s0.genOf a i * 2 ^ 16 + i
            (a ≠ 5 → runs (.crOpen n rd ra rb) (done (s0.openAt n.val a i w) .ok h))
            ∧ (a = 5 → runs (.crOpen n rd ra rb) (.next (State.finish (((s0.openAt n.val a i w).modCore n.val (fun q =>
                (({ q with ost := 0 } : Core).wr rd (BitVec.ofNat 32 h)).goOn)).expireAtOpen h)))))))
    ∧ (∀ e, s0.checkHandle a (fun _ => true) = .error e →
        let seen := if e = .stale then s0.setFlag F.OBJ_STATUS_STALE_SEEN else s0
        runs (.crClose n rd ra) (done seen e e.code) ∧ runs (.crQuery n rd ra rb) (done seen e 0))
    ∧ (∀ i o, s0.checkHandle a (fun _ => true) = .ok i → s0.obj (hClass a) i = some o →
        (s0.closeBusy (hClass a) i = true → runs (.crClose n rd ra) (done s0 .busy 4))
        ∧ (s0.closeBusy (hClass a) i = false →
            runs (.crClose n rd ra) (done ((s0.dropObj (hClass a) i).freeSlot (hClass a) i) .ok 0))
        ∧ (b < queryLen (hClass a) → ¬ (hClass a = 13 ∧ b = 5) → runs (.crQuery n rd ra rb) (done s0 .ok
            ((if b = 0 then a else if b = 1 then s0.queryState (hClass a) i % 16 + o.owner * 16
              else if b = 2 then o.tOpen else if b = 3 then o.tOpen / 2 ^ 32 else s0.queryWord (hClass a) i b) % 2 ^ 32)))
        ∧ (hClass a = 13 → b = 5 → runs (.crQuery n rd ra rb) (done
            { s0 with evgs := Tab.upd s0.evgs i (fun g => { g with pending := 0 }) } .ok (s0.queryWord 13 i 5 % 2 ^ 32)))
        ∧ (queryLen (hClass a) ≤ b → runs (.crQuery n rd ra rb) (done s0 .param 0)))

/-- R74, R102 to R104, R107, R110: RPUSH puts 64 bytes of data RAM at the ring's producer entry and advances PROD, RPOP
takes the entry at CONS; a pointer out of place traps; FULL, EMPTY, CLASS, BUSY and the handle's own statuses change nothing but OST and rd. A mailbox
ring takes a message from its mailbox's sender alone, with the mailbox's header, and wakes the receiver. Of a ring that
several statuses fit, which one comes is the model's choice (log entry 100). -/
def Obligations.RingInstructions : Prop :=
  ∀ (s : State) (n : Fin 24) (rd ra rb : Fin 32), s.coreReady n.val →
    (s.core n.val).failing = [] → (s.core n.val).stale = [] → s.Clean →
    let runs (i : Instr) (o : Host.Outcome State Fault Refusal) : Prop := s.spells n.val i → exec i s = o
    let h := ((s.core n.val).rd ra).toNat
    let b := ((s.core n.val).rd rb).toNat
    let p := 0x1100000000 + n.val * 0x20000 + 0x10000 + b
    let s0 := s.issued n.val
    let done (t : State) (e : Ost) : Host.Outcome State Fault Refusal := .next (t.modCore n.val (fun q =>
      (({ q with ost := e.code } : Core).wr rd (BitVec.ofNat 32 e.code)).goOn)).finish
    let both (t : State) (e : Ost) : Prop :=
      runs (.crRpush n rd ra rb) (done t e) ∧ runs (.crRpop n rd ra rb) (done t e)
    ((s.core n.val).inTrap = false →
      let trap (cause : Nat) : Host.Outcome State Fault Refusal :=
        .next (s.modCore n.val (fun q => q.issuing.trapped cause 0 q.pc b)).finish
      let stops (cause : Nat) : Prop := runs (.crRpush n rd ra rb) (trap cause) ∧ runs (.crRpop n rd ra rb) (trap cause)
      (b % 64 ≠ 0 → stops 2) ∧ (b % 64 = 0 ∧ 0x10000 < b + 64 → stops 3))
    ∧ (b % 64 = 0 → b + 64 ≤ 0x10000 →
    (∀ e, s0.checkHandle h (fun c => c == 0x04) = .error e →
      both (if e = .stale then s0.setFlag F.OBJ_STATUS_STALE_SEEN else s0) e)
    ∧ ∀ (i : Nat) (r : Ring), s0.checkHandle h (fun c => c == 0x04) = .ok i → Tab.get s.rings i = some r →
      (ringRole i < 2 → both s0 .cls)
      ∧ (2 ≤ ringRole i ∧ r.error = true → both s0 .busy)
      ∧ (ringRole i = 3 ∧ r.error = false ∧ s0.mailboxOf h n.val = none → runs (.crRpush n rd ra rb) (done s0 .busy))
      ∧ (2 ≤ ringRole i ∧ r.error = false ∧ (ringRole i = 3 → s0.mailboxOf h n.val ≠ none) ∧ r.count = r.size →
        runs (.crRpush n rd ra rb) (done s0 .full))
      ∧ (2 ≤ ringRole i ∧ r.error = false ∧ r.count = 0 → runs (.crRpop n rd ra rb) (done s0 .empty))
      ∧ (r.base + 64 * r.size ≤ s.dramTop → s.dramTop ≤ 0x1000000000 → 0 < r.size → r.error = false →
        (ringRole i = 2 ∧ r.count < r.size → ∃ t : State, runs (.crRpush n rd ra rb) (done t .ok)
          ∧ Tab.get t.rings i = some { r with prod := (r.prod + 1) % 2 ^ 32 }
          ∧ t.mem = (s.wrBytes (r.base + 64 * (r.prod % r.size)) (s.rdBytes p 64)).mem)
        ∧ (∀ k m, ringRole i = 3 ∧ r.count < r.size → s0.mailboxOf h n.val = some (k, m) →
          ∃ t : State, runs (.crRpush n rd ra rb) (done t .ok)
          ∧ Tab.get t.rings i = some { r with prod := (r.prod + 1) % 2 ^ 32 }
          ∧ Tab.get t.mboxes k = (Tab.get s.mboxes k).map (fun x => { x with seq := (x.seq + 1) % 2 ^ 16 })
          ∧ t.mem = (s.wrBytes (r.base + 64 * (r.prod % r.size)) (leBytes 4 (m.seq + k * 2 ^ 16 + m.sender * 2 ^ 24)
              ++ leBytes 4 0 ++ leBytes 8 s.now ++ (s.rdBytes p 64).drop 16)).mem)
        ∧ (2 ≤ ringRole i ∧ 0 < r.count → ∃ t : State, runs (.crRpop n rd ra rb) (done t .ok)
          ∧ Tab.get t.rings i = some { r with cons := (r.cons + 1) % 2 ^ 32 }
          ∧ t.mem = (s.wrBytes p (s.rdBytes (r.base + 64 * (r.cons % r.size)) 64)).mem)))

/-- R67, R101: SIGNAL raises its bits in the group and the group's EVP bit in the target cores that are present. -/
def Obligations.Signals : Prop :=
  ∀ (s : State) (n m : Fin 24) (rd ra rb : Fin 32) (i : Nat) (g : EvGroup), s.coreReady n.val →
    (s.core n.val).failing = [] → (s.core n.val).stale = [] →
    let runs (i : Instr) (o : Host.Outcome State Fault Refusal) : Prop := s.spells n.val i → exec i s = o
    let h := ((s.core n.val).rd ra).toNat
    let b := ((s.core n.val).rd rb).toNat
    let s0 := s.issued n.val
    (∀ e, s0.checkHandle h (fun c => c == 0x0D) = .error e → runs (.crSignal n rd ra rb) (.next (State.finish
      ((if e = .stale then s0.setFlag F.OBJ_STATUS_STALE_SEEN else s0).modCore n.val (fun q =>
        (({ q with ost := e.code } : Core).wr rd (BitVec.ofNat 32 e.code)).goOn)))))
    ∧ (s.checkHandle h (fun c => c == 0x0D) = .ok i → b = 0 → runs (.crSignal n rd ra rb) (.next (s.modCore n.val (fun q =>
        (({ q with ost := 0 } : Core).wr rd 0).goOn)).finish))
    ∧ (s.checkHandle h (fun c => c == 0x0D) = .ok i → Tab.get s.evgs i = some g → 0 < b →
    ∃ t : State, runs (.crSignal n rd ra rb) (.next (t.modCore n.val (fun q =>
        (({ q with ost := 0 } : Core).wr rd 0).goOn)).finish)
      ∧ Tab.get t.evgs i = some { g with pending := g.pending ||| b }
      ∧ (bit g.cores m.val = true ∧ s.hasCore m.val = true → (t.core m.val).evp = (s.core m.val).evp ||| 2 ^ g.evbit % 2 ^ 31)
      ∧ (bit g.cores m.val = false ∨ s.hasCore m.val = false → (t.core m.val).evp = (s.core m.val).evp))

/-- R103, R105, R106, R271: a doorbell moves its count within the range R105 allows, entries published by it raise the
ring's NEBIT, and it is an error otherwise; an entry held back enters its ring when there is room, is dropped where the
ring is in ERROR, and completions that wait for room are pushed. -/
def Obligations.Doorbells : Prop :=
  ∀ (s : State) (i : Fin 64) (v : Word),
    let next (t : State) : Host.Outcome State Fault Refusal := .next t.finish
    let err := next ((s.setFlag (F.RNG_STAT_DBERR i.val)).raise 82)
    (Tab.get s.rings i.val = none → exec (.ringPdb i v) s = err ∧ exec (.ringCdb i v) s = err)
    ∧ (s.stalled.find? (fun e => e.ring == i.val) = none → exec (.stalledPushResume i) s = next s.pushCpls)
    ∧ ∀ r : Ring, Tab.get s.rings i.val = some r →
    let put (q : Ring) : State := { s with rings := Tab.put s.rings i.val q }
    let up (c : Nat) : Nat := (v.toNat + 2 ^ 32 - c) % 2 ^ 32
    (i.val < 16 ∧ r.error = false ∧ up r.prod ≤ r.size - r.count →
      (v.toNat = r.prod → exec (.ringPdb i v) s = next (put r))
      ∧ (v.toNat ≠ r.prod → exec (.ringPdb i v) s
        = next ((put { r with prod := v.toNat }).notify 0x04 i.val (2 ^ r.nebit))))
    ∧ (16 ≤ i.val ∨ r.error = true ∨ r.size - r.count < up r.prod → exec (.ringPdb i v) s = err)
    ∧ (16 ≤ i.val ∧ i.val < 32 ∧ r.error = false ∧ up r.cons ≤ r.count →
      exec (.ringCdb i v) s = next (put { r with cons := v.toNat }))
    ∧ (i.val < 16 ∨ 32 ≤ i.val ∨ r.error = true ∨ r.count < up r.cons → exec (.ringCdb i v) s = err)
    ∧ (∀ e, s.stalled.find? (fun e => e.ring == i.val) = some e →
        (r.error = true → exec (.stalledPushResume i) s = next (s.dropStalled i.val))
        ∧ (r.error = false ∧ r.size ≤ r.count → exec (.stalledPushResume i) s = next s)
        ∧ (r.error = false ∧ r.count < r.size →
          let t := State.ringAppend { s with stalled := s.stalled.erase e } i.val r e.entry
          exec (.stalledPushResume i) s = next (if e.producer = .storage then t.pushCpls else t)))

/-- R95, R97, R99, R100, R111, R113: jobs and pages by their registers, a timer's expiry, a drain and its end, and a lost
entry of the object table. -/
def Obligations.ObjectCommands : Prop :=
  ∀ (s : State) (handle v : Word) (k : Fin 256) (idx : Fin 1024) (cls : Fin 16) (i : Nat),
    let next (t : State) : Host.Outcome State Fault Refusal := .next t.finish
    let rej := next (s.setFlag F.OBJ_STATUS_CMD_REJ)
    (s.live handle.toNat 0x0A = none → exec (.jobStart handle) s = rej ∧ exec (.jobStop handle) s = rej)
    ∧ (∀ j, s.live handle.toNat 0x0A = some i → Tab.get s.jobs i = some j →
        (j.state ≠ .setup → exec (.jobStart handle) s = rej)
        ∧ (j.state = .setup ∧ s.jobs.any (fun e => e.2.active && e.2.stn &&& j.stn != 0) = false ∧
            s.jobClocks j.stn j.pixclk = true →
            ∃ t : State, exec (.jobStart handle) s = next t ∧ Tab.get t.jobs i = some { j with state := .running })
        ∧ (j.state = .running → exec (.jobStop handle) s
            = next ((s.modJob i (fun x => { x with state := .stopping })).settleJob i))
        ∧ (j.state ≠ .running → exec (.jobStop handle) s = rej))
    ∧ (∀ p, s.pageOf handle.toNat = some (i, p) →
        (p.state = .building → exec (.pageReady handle) s = next (s.modPage i (fun q => { q with state := .ready })))
        ∧ (p.state ≠ .building → exec (.pageReady handle) s = rej))
    ∧ (s.pageOf handle.toNat = none → exec (.pageReady handle) s = rej)
    ∧ (Tab.get s.timers k.val = none → exec (.timerExpiry k) s = next s)
    ∧ (∀ t, Tab.get s.timers k.val = some t →
        (t.armed = false ∨ s.now < t.next → exec (.timerExpiry k) s = next s)
        ∧ (t.armed = true ∧ t.next ≤ s.now →
          let past := if t.period = 0 ∨ s.now = t.next then 0 else (s.now - t.next - 1) / t.period
          let after : State := { s with timers := Tab.put s.timers k.val { t with
            expiries := (t.expiries + 1) % 2 ^ 32, skipped := (t.skipped + past) % 2 ^ 32, armed := t.period != 0
            next := if t.period = 0 then t.next else t.next + (past + 1) * t.period } }
          (t.woff = 0 → exec (.timerExpiry k) s = next (after.notify 0x05 k.val t.bits))
          ∧ (t.woff ≠ 0 → exec (.timerExpiry k) s
            = next ((after.regWrite false t.woff (BitVec.ofNat 32 t.wdata)).notify 0x05 k.val t.bits))))
    ∧ (let src := v.toNat % 32
       let dst := v.toNat / 256 % 32
       (v.getLsbD 16 = false → exec (.drain v) s = next s) ∧ (v.getLsbD 16 = true →
        (src = dst ∨ s.hasCore src = false ∨ s.hasCore dst = false ∨ s.flag (F.CRS_CTRL_RUN src) = true
            ∨ decide (16 ≤ src) ≠ decide (16 ≤ dst) ∨ s.drain ≠ none →
          exec (.drain v) s = next (s.setFlag F.OBJ_DRAIN_STATUS_REFUSED))
        ∧ (src ≠ dst ∧ s.hasCore src = true ∧ s.hasCore dst = true ∧ s.flag (F.CRS_CTRL_RUN src) = false
            ∧ decide (16 ≤ src) = decide (16 ≤ dst) ∧ s.drain = none →
          exec (.drain v) s = next { s with drain := some (src, dst) })))
    ∧ (s.drain = none → exec .drainDone s = next s)
    ∧ (∀ src dst : Fin 24, s.drain = some (src.val, dst.val) → src ≠ dst →
        ∃ t : State, exec .drainDone s = next t ∧ t.drain = none ∧ t.flag F.OBJ_DRAIN_STATUS_DONE = true
          ∧ t.objs = s.objs.map (fun e =>
              (e.1, { e.2 with owner := if e.2.owner = src.val then dst.val else e.2.owner }))
          ∧ (t.core src.val).evp = (s.core src.val).evp - ((s.core src.val).evp &&& 0x40FFFFFF)
          ∧ (t.core dst.val).evp = (s.core dst.val).evp ||| ((s.core src.val).evp &&& 0x40FFFFFF))
    ∧ (classCap cls.val ≤ idx.val ∨ s.isWithdrawn cls.val idx.val = true → exec (.objTableEcc cls idx) s = next s)
    ∧ (idx.val < classCap cls.val → s.isWithdrawn cls.val idx.val = false →
        ∃ t : State, exec (.objTableEcc cls idx) s = next t ∧ t.isWithdrawn cls.val idx.val = true
          ∧ t.obj cls.val idx.val = none)
    ∧ (idx.val < classCap cls.val → s.isWithdrawn cls.val idx.val = false → cls.val ≠ 8 →
        s.isOpen cls.val idx.val = false →
        ∃ t : State, exec (.objTableEcc cls idx) s = next t ∧ t.isWithdrawn cls.val idx.val = true
          ∧ t.flag F.OBJ_STATUS_TBL_ECC = true ∧ t.flt.raised = s.flt.raised ++ [80])

/-! ### Scan timing and firing (R117 to R139) -/

/-- R118 to R121, R124, R131: a BD pulse in and out of lock, a flywheel facet, FLYOFF, the polygon index and the scan
end. -/
def Obligations.BeamDetect : Prop :=
  ∀ (s : State) (st : Fin 4) (falling : Bool) (width interval : BitVec 32) (fine : BitVec 16) (v : Word),
    s.hasStn st.val = true →
    let i := st.val
    let e := vget s.exp i
    let next (t : State) : Host.Outcome State Fault Refusal := .next t.finish
    let px := 64 * s.fld (F.EXP_FACETPX_FACET_PX i)
    let win := 64 * max 1 (s.fld (F.EXP_SCAN_BD_WIN i))
    let near (u : Nat) : Prop := u ≤ interval.toNat + win ∧ interval.toNat ≤ u + win
    let acq := if e.bdSeen = true ∧ near px then e.acq + 1 else 0
    let u := e.fromBd + px
    let f := s.pixHz i
    let flew : Nat := e.base + u * 1000000000 * f.2 / (64 * f.1)
    let lockn := max 1 (s.fld (F.EXP_BD_LOCKN i))
    let locked := s.flag (F.EXP_STATUS_BD_LOCK i)
    (falling ≠ s.flag (F.EXP_SCAN_BD_POL i) ∨ width.toNat < s.fld (F.EXP_BD_MINW i) ∨ s.pixelRuns i = false →
      exec (.bdPulse st falling width interval fine) s = next s)
    ∧ (falling = s.flag (F.EXP_SCAN_BD_POL i) ∧ s.fld (F.EXP_BD_MINW i) ≤ width.toNat ∧ s.pixelRuns i = true →
      (e.facetsRun = true ∧ s.inProbes i interval.toNat = true → exec (.bdPulse st falling width interval fine) s = next s)
      ∧ ((e.facetsRun && s.inProbes i interval.toNat) = false →
      (locked = true ∧ ¬ near u →
        exec (.bdPulse st falling width interval fine) s = next (s.addSat (F.EXP_CNT_SPURIOUS i) 1))
      ∧ (locked = false ∧ acq < lockn → exec (.bdPulse st falling width interval fine) s
          = next (s.modExp i (fun x => { x with bdSeen := true, acq := acq })))
      ∧ (locked = true ∧ near u ∨ locked = false ∧ lockn ≤ acq →
        ∃ t : State, exec (.bdPulse st falling width interval fine) s = next t
          ∧ (vget t.exp i).origin = s.now ∧ (vget t.exp i).inScan = true ∧ (vget t.exp i).fly = 0
          ∧ (vget t.exp i).facets = (e.facets + 1) % 2 ^ 32 ∧ (vget t.exp i).bdt = s.now
          ∧ (vget t.exp i).fper = interval.toNat ∧ (vget t.exp i).fine = fine.toNat % 8192
          ∧ ∀ n < 24, s.hasCore n = true → (t.core n).evp = (s.core n).evp ||| 2 ^ (24 + i))))
    ∧ (e.facetsRun = false ∨ s.pixelRuns i = false → exec (.flywheelFacet st) s = next s)
    ∧ (e.facetsRun = true ∧ s.pixelRuns i = true →
      (locked = false ∨ e.fly + 1 ≤ s.fld (F.EXP_BD_BD_HOLD i) → ∃ t : State, exec (.flywheelFacet st) s = next t
        ∧ (vget t.exp i).origin = flew ∧ (vget t.exp i).fromBd = u ∧ (vget t.exp i).fly = e.fly + 1
        ∧ (vget t.exp i).facets = (e.facets + 1) % 2 ^ 32 ∧ t.flt.raised.getLast? = some (97 + 4 * i))
      ∧ (locked = true ∧ s.fld (F.EXP_BD_BD_HOLD i) < e.fly + 1 → ∃ t : State, exec (.flywheelFacet st) s = next t
        ∧ (vget t.exp i).origin = flew ∧ (vget t.exp i).bdSeen = false ∧ t.flag (F.EXP_STATUS_BD_LOCK i) = false
        ∧ 96 + 4 * i ∈ t.flt.raised))
    ∧ (locked = true → exec (.flyoff st v) s = next s)
    ∧ (v.getLsbD 0 = false → exec (.flyoff st v) s = next s)
    ∧ (locked = false ∧ v.getLsbD 0 = true → ∃ t : State, exec (.flyoff st v) s = next t
        ∧ (vget t.exp i).facetsRun = false ∧ (vget t.exp i).inScan = false ∧ t.flag (F.EXP_STATUS_FLYING i) = false
        ∧ (vget t.exp i).line = if e.inScan = true then (e.cf + 128 / s.passesOn i) % 2 ^ 40 else e.line)
    ∧ (s.flag (F.EXP_SCAN_FIDX_EN i) = false → exec (.polygonIndex st) s = next s)
    ∧ (s.flag (F.EXP_SCAN_FIDX_EN i) = true ∧ s.flag (F.EXP_STATUS_FIDX_OK i) = false →
      exec (.polygonIndex st) s = next (s.modExp i (fun x => { x with idxSeen := true })))
    ∧ (s.flag (F.EXP_SCAN_FIDX_EN i) = true ∧ s.flag (F.EXP_STATUS_FIDX_OK i) = true →
      ((e.facet + 1) % s.facetsOn i ≠ 0 ∧ s.pageFree i e.cf = false →
        exec (.polygonIndex st) s = next (((s.setFlag (F.EXP_STATUS_FIDX_ERR i)).raise (99 + 4 * i)).modExp i
          (fun x => { x with idxFix := true })))
      ∧ ((e.facet + 1) % s.facetsOn i ≠ 0 ∧ s.pageFree i e.cf = true →
        exec (.polygonIndex st) s = next (((s.setFlag (F.EXP_STATUS_FIDX_ERR i)).raise (99 + 4 * i)).modExp i
          (fun x => { x with facet := s.facetsOn i - 1, idxFix := false })))
      ∧ ((e.facet + 1) % s.facetsOn i = 0 ∧ (s.pageFree i e.cf = false ∨ e.idxFix = false) →
        exec (.polygonIndex st) s = next s))
    ∧ (e.inScan = true → ∃ t : State, exec (.facetScanEnd st) s = next t
        ∧ (vget t.exp i).line = (e.cf + 128 / s.passesOn i) % 2 ^ 40 ∧ (vget t.exp i).inScan = false)
    ∧ (e.inScan = false → exec (.facetScanEnd st) s = next s)

/-- R117, R133, R134, R136 to R139: tone map, picots and the staged firing table, their locks and refusals; COMMIT with
and without the link, CANCEL, and the end of a load. -/
def Obligations.FiringTables : Prop :=
  ∀ (s : State) (st : Fin 4) (h : Fin 2) (b : Fin 128) (c : Fin 16) (v : Word), s.hasStn st.val = true →
    let i := st.val
    let next (t : State) : Host.Outcome State Fault Refusal := .next t.finish
    let stage := s.fld (F.EXP_FSTAT_STAGE i)
    let entry (w : Nat) : State := (s.setReg (R.EXP_FIRE i (16 * b.val + c.val)) (BitVec.ofNat 32 (v.toNat % 64 + w * 256)))
    let w := v.toNat / 256 % 128
    let tones := if h = 0 then v.toNat / 16 * 16 else v.toNat
    let k := v.toNat / 4 % 4
    let n := v.toNat / 16 % 16
    (s.inJob i = true → exec (.expToneWrite st h v) s = next (s.setFlag (F.EXP_STATUS_CFG_BUSY i))
      ∧ exec (.expPicotWrite st v) s = next (s.setFlag (F.EXP_STATUS_CFG_BUSY i)))
    ∧ (s.inJob i = false →
      ((∃ j < 8, tones / 16 ^ j % 16 = 1) →
        exec (.expToneWrite st h v) s = next (s.setFlag (F.EXP_STATUS_CFG_ERR i)))
      ∧ ((∀ j < 8, tones / 16 ^ j % 16 ≠ 1) → exec (.expToneWrite st h v) s
          = next (s.setReg (if h = 0 then R.EXP_TONE_LO i else R.EXP_TONE_HI i) (BitVec.ofNat 32 tones)))
      ∧ (k = 0 ∨ n = 0 ∨ n < k → exec (.expPicotWrite st v) s = next (s.setFlag (F.EXP_STATUS_CFG_ERR i)))
      ∧ (k ≠ 0 ∧ n ≠ 0 ∧ k ≤ n → exec (.expPicotWrite st v) s = next (s.plainWrite (R.EXP_PICOT i) v)))
    ∧ (stage ≠ 0 → exec (.expFireWrite st b c v) s = next (s.setFlag (F.EXP_FSTAT_FIRE_BUSY i)))
    ∧ (stage = 0 →
      (c = 0 → exec (.expFireWrite st b c v) s = next s)
      ∧ (c ≠ 0 ∧ (64 < w ∨ 96 < v.toNat % 64 + w) →
        exec (.expFireWrite st b c v) s = next (s.setFlag (F.EXP_FSTAT_ENT_ERR i)))
      ∧ (c = 1 ∧ 7 < w ∧ w ≤ 64 ∧ v.toNat % 64 + w ≤ 96 → exec (.expFireWrite st b c v) s
          = next (((entry 7).setFlag (F.EXP_FSTAT_PICOT_CLAMP i)).fireDirty i))
      ∧ (c ≠ 0 ∧ (c = 1 → w ≤ 7) ∧ w ≤ 64 ∧ v.toNat % 64 + w ≤ 96 →
        exec (.expFireWrite st b c v) s = next ((entry w).fireDirty i)))
    ∧ (v.getLsbD 0 = true ∧ v.getLsbD 2 = false →
      (stage ≠ 0 ∨ s.dirtyKeys i = [] → exec (.fctlCommit st v) s = next s)
      ∧ (stage = 0 ∧ s.dirtyKeys i ≠ [] ∧ s.elkTrained i = false ∧ s.fld (F.ELK_STATUS_STATE i) ≠ 6 →
        exec (.fctlCommit st v) s = next (s.fireSwap i (vget s.exp i).line))
      ∧ (stage = 0 ∧ s.dirtyKeys i ≠ [] ∧ s.fld (F.ELK_STATUS_STATE i) = 6 →
        exec (.fctlCommit st v) s = next ((s.fireSwap i (vget s.exp i).line).ctlQueue i
          (fireCmds ((s.fireSwap i (vget s.exp i).line).fireAct i) 2048 (s.dirtyKeys i))))
      ∧ (stage = 0 ∧ s.dirtyKeys i ≠ [] ∧ s.elkTrained i = true → ∃ t : State, exec (.fctlCommit st v) s = next t
          ∧ t.fld (F.EXP_FSTAT_STAGE i) = 1 ∧ (vget t.exp i).mode = v.toNat / 2 % 2
          ∧ (vget t.exp i).fire = (vget s.exp i).fire))
    ∧ (v.getLsbD 2 = true →
      (stage = 0 → exec (.fctlCancel st v) s = next s)
      ∧ (stage ≠ 0 → ∃ t : State, exec (.fctlCancel st v) s = next t ∧ t.fld (F.EXP_FSTAT_STAGE i) = 0
          ∧ (vget t.exp i).fire = (vget s.exp i).fire))
    ∧ (stage = 1 ∧ (vget s.elk i).fireQuiet = true →
        exec (.fireLoadDone st) s = next (s.setFld (F.EXP_FSTAT_STAGE i) 2))
    ∧ (stage ≠ 1 ∨ (vget s.elk i).fireQuiet = false → exec (.fireLoadDone st) s = next s)

/-- R148, R149, R152, R158, R162, R163, R167, R172, R218: lace maps and their check, dead maps, limits and when they
come into force, blocks and frames, need points, head telemetry, HOT_TRIP and the cool-down write. -/
def Obligations.LaceAndProtection : Prop :=
  ∀ (s : State) (st : Fin 4) (b : Fin 128) (k : Fin 4) (block : BitVec 9) (v : Word), s.hasStn st.val = true →
    let i := st.val
    let e := vget s.exp i
    let l := vget s.lac i
    let next (t : State) : Host.Outcome State Fault Refusal := .next t.finish
    let map : BitVec 16 := BitVec.ofNat 16 (0x400 + 4 * b.val)
    let elim : BitVec 16 := BitVec.ofNat 16 (0x800 + 4 * b.val)
    (s.inJob i = true → exec (.laceWrite st map v) s = next (s.setFlag (F.LAC_STATUS_CFG_BUSY i)))
    ∧ (s.inJob i = false → ∃ t : State, exec (.laceWrite st map v) s = next t
        ∧ t.flag (F.LAC_STATUS_CHK_BUSY i) = true ∧ t.fld (F.LAC_MAP_LOFF i b.val) = v.toNat % 1024)
    ∧ (s.flag (F.LAC_STATUS_CHK_BUSY i) = false → exec (.legalityCheckDone st) s = next s)
    ∧ (s.flag (F.LAC_STATUS_CHK_BUSY i) = true →
        ∃ t : State, exec (.legalityCheckDone st) s = next t ∧ t.flag (F.LAC_STATUS_CHK_BUSY i) = false
        ∧ t.flag (F.LAC_STATUS_OK1 i) = (s.laceCheck i 1).isNone ∧ t.flag (F.LAC_STATUS_OK2 i) = (s.laceCheck i 2).isNone
        ∧ t.flag (F.LAC_STATUS_OK4 i) = (s.laceCheck i 4).isNone)
    ∧ ((s.setReg (R.LAC_DEAD i k.val) v).deadReq i = s.deadReq i →
        exec (.deadMapWrite st k v) s = next (s.setReg (R.LAC_DEAD i k.val) v))
    ∧ ((s.setReg (R.LAC_DEAD i k.val) v).deadReq i ≠ s.deadReq i → ∃ t : State, exec (.deadMapWrite st k v) s = next t
        ∧ (vget t.lac i).pend = (s.now, (s.setReg (R.LAC_DEAD i k.val) v).deadReq i) :: l.pend
        ∧ (vget t.lac i).deadEff = l.deadEff ∧ t.flag (F.LAC_STATUS_DEAD_PEND i) = true)
    ∧ (256 < v.toNat % 512 → exec (.dutyLimitWrite st elim v) s = next (s.setFlag (F.LAC_STATUS_CFG_ERR i)))
    ∧ (v.toNat % 512 ≤ 256 → ∃ t : State, exec (.dutyLimitWrite st elim v) s = next t
        ∧ t.fld (F.LAC_ELIM_ELIM i b.val) = v.toNat % 512 ∧ (vget t.lac i).elim = l.elim)
    ∧ (∃ t : State, exec (.dutyBucketBoundary st) s = next t ∧ (vget t.lac i).hlim = s.fld (F.LAC_DUTY_HLIM i)
        ∧ (vget t.lac i).clipPicot = s.flag (F.LAC_DUTY_CLIP_PICOT i))
    ∧ (e.inScan = false ∨ 384 ≤ block.toNat ∨ block.toNat ≠ l.done → exec (.blockFormation st block) s = next s)
    ∧ (e.inScan = true ∧ block.toNat < 384 ∧ block.toNat = l.done →
        ∃ t : State, exec (.blockFormation st block) s = next t ∧ (vget t.lac i).done = block.toNat + 1
          ∧ (s.elkTrained i = true →
            (vget t.lac i).formed.getLast?.map (fun f => (f.facet, f.block)) = some (e.facet, block.toNat))
          ∧ (s.elkTrained i = false → (vget t.lac i).formed = l.formed))
    ∧ (s.elkTrained i = false ∨ (vget s.elk i).credits = 0 → exec (.frameSend st) s = next s)
    ∧ (s.elkTrained i = true ∧ 0 < (vget s.elk i).credits ∧ (vget s.elk i).resend = [] ∧ l.formed ≠ [] →
        ∃ t : State, exec (.frameSend st) s = next t ∧ (vget t.elk i).credits = (vget s.elk i).credits - 1
          ∧ (vget t.elk i).seq = ((vget s.elk i).seq + 1) % 2 ^ 16)
    ∧ (s.elkTrained i = true ∧ 0 < (vget s.elk i).credits ∧ (vget s.elk i).resend = [] ∧ l.formed = [] →
        exec (.frameSend st) s = next s)
    ∧ (∀ q r, s.elkTrained i = true → 0 < (vget s.elk i).credits → (vget s.elk i).resend = q :: r →
        (vget s.elk i).frames.find? (fun f => f.seq == q) ≠ none →
        ∃ t : State, exec (.frameSend st) s = next t ∧ (vget t.elk i).credits = (vget s.elk i).credits - 1
          ∧ (vget t.elk i).resend = r.filter (fun y => y != q) ∧ (vget t.elk i).seq = (vget s.elk i).seq)
    ∧ (e.facetsRun = false ∨ e.needAt = some (s.nextCf i) → exec (.needPoint st) s = next s)
    ∧ (e.facetsRun = true ∧ e.needAt ≠ some (s.nextCf i) →
        ∃ t : State, exec (.needPoint st) s = next t ∧ (vget t.exp i).needAt = some (s.nextCf i))
    ∧ (e.facetsRun = true ∧ e.needAt ≠ some (s.nextCf i) ∧ s.livePages i = [] →
        exec (.needPoint st) s = next (s.modExp i (fun x => { x with needAt := some (s.nextCf i) })))
    ∧ (8 ≤ l.noReport ∧ s.elkTrained i = true ∧ s.flag (F.LAC_STATUS_TEMP_STALE i) = false →
        exec (.tempStale st) s = next ((s.setFlag (F.LAC_STATUS_TEMP_STALE i)).raise (119 + 8 * i)))
    ∧ (l.noReport < 8 ∨ s.elkTrained i = false → exec (.tempStale st) s = next s)
    ∧ (v.getLsbD 6 = false ∨ s.flag (F.LAC_STATUS_HOT_TRIP i) = false →
        exec (.hotTripClear st v) s = next (s.plainWrite (R.LAC_STATUS i) v))
    ∧ (v.getLsbD 6 = true ∧ s.flag (F.LAC_STATUS_HOT_TRIP i) = true →
        (s.headT i < s.sfld (F.LAC_TCOMMIT_TLIM i) ∧ s.flag (F.LAC_STATUS_COOL_PEND i) = false →
          exec (.hotTripClear st v) s = next (s.plainWrite (R.LAC_STATUS i) v))
        ∧ (s.sfld (F.LAC_TCOMMIT_TLIM i) ≤ s.headT i ∨ s.flag (F.LAC_STATUS_COOL_PEND i) = true →
          ∃ t : State, exec (.hotTripClear st v) s = next t ∧ t.flag (F.LAC_STATUS_HOT_TRIP i) = true))
    ∧ (s.flag (F.LAC_STATUS_COOL_PEND i) = false ∨ s.pagesIn .printing ≠ [] → exec (.coolDownWrite st) s = next s)
    ∧ (s.flag (F.LAC_STATUS_COOL_PEND i) = true ∧ s.pagesIn .printing = [] →
        let off := (s.reg (R.LAC_COOL_OFF i)).toNat % 2 ^ 24
        exec (.coolDownWrite st) s = next (if off = 0 then s.clrFlag (F.LAC_STATUS_COOL_PEND i)
          else (s.clrFlag (F.LAC_STATUS_COOL_PEND i)).regWrite false off (s.reg (R.LAC_COOL_DATA i))))


/-! ### Exposure links, interlocks and the operator side (R170 to R191) -/

/-- R163, R175 to R181: EN and RETRAIN, the training steps, their limit and retry, the head's packets, repeats of a
command and the loss of the back channel; and the order of the thermal limits. -/
def Obligations.LinkTraining : Prop :=
  ∀ (s : State) (st : Fin 4) (v : Word) (crc model k seq ht off : BitVec 16) (tag rev code facet pfirst : BitVec 8)
      (portB refused ex : Bool) (data rtt ns : BitVec 32) (amps : List (BitVec 8)), s.hasStn st.val = true →
    let i := st.val
    let l := vget s.elk i
    let step := s.elkState i
    let late := s.now > l.stepAt + elkLimit step
    let next (t : State) : Host.Outcome State Fault Refusal := .next t.finish
    let rpt : Instr := .facetRpt st crc facet ht k ex pfirst amps
    let rptBytes := leBytes 1 facet.toNat ++ leBytes 2 ht.toNat ++ leBytes 2 k.toNat ++ leBytes 1 (b2n ex)
      ++ leBytes 1 pfirst.toNat ++ leBytes 1 amps.length ++ (amps.map BitVec.toNat).flatMap (leBytes 1)
    let ackBytes := leBytes 1 tag.toNat ++ leBytes 1 (b2n refused) ++ leBytes 4 data.toNat
    let idBytes := leBytes 2 model.toNat ++ leBytes 1 rev.toNat ++ leBytes 1 (b2n portB)
    let packets : List (Instr × Nat × List Byte) := [(rpt, 1, rptBytes), (.nack st crc seq, 2, leBytes 2 seq.toNat),
      (.ctlAck st crc tag refused data rtt, 3, ackBytes), (.alarm st crc code, 4, leBytes 1 code.toNat),
      (.ident st crc model rev portB, 5, idBytes), (.credit st crc k, 6, leBytes 2 k.toNat)]
    let good (type : Nat) (payload : List Byte) : Prop :=
      l.comma = true ∧ payload.length ≤ 60 ∧ crc.toNat = headCrc type payload
    let named := ((s.setFld (F.ELK_HEADID_MODEL i) model.toNat).setFld (F.ELK_HEADID_REV i) rev.toNat).putFlag
      (F.ELK_HEADID_PORT i) portB
    let run := if 0 < l.nackRun ∧ seq.toNat = (l.nackLast + 1) % 2 ^ 16 then l.nackRun + 1 else 1
    let nacked := (s.addSat (F.ELK_CNT_NACKS i) 1).modElk i (fun x => { x with nackRun := run, nackLast := seq.toNat })
    (l.comma = false → ∀ p ∈ packets, exec p.1 s = next s)
    ∧ (l.comma = true → ∀ p ∈ packets, 60 < p.2.2.length ∨ crc.toNat ≠ headCrc p.2.1 p.2.2 →
        exec p.1 s = next (s.addSat (F.ELK_CNT_BCERR i) 1))
    ∧ (good 6 (leBytes 2 k.toNat) → ∃ t : State, exec (.credit st crc k) s = next t
        ∧ (vget t.elk i).credits = min 4096 (l.credits + k.toNat) ∧ t.regs = s.regs)
    ∧ (good 4 (leBytes 1 code.toNat) →
      (code = 1 → exec (.alarm st crc code) s = next (s.elkLose i))
      ∧ (code = 2 → exec (.alarm st crc code) s = next (s.setFlag (F.ELK_STATUS_HLOOP i)))
      ∧ (code = 3 → exec (.alarm st crc code) s = next ((s.setFlag (F.ELK_STATUS_CONFLICT i)).raise (147 + 4 * i)))
      ∧ (code = 4 → exec (.alarm st crc code) s = next (s.setFlag (F.ELK_STATUS_HOVR i)))
      ∧ (code = 0 ∨ 4 < code.toNat → exec (.alarm st crc code) s = next s))
    ∧ (good 5 idBytes →
      (step ≠ 4 → exec (.ident st crc model rev portB) s = next named)
      ∧ (step = 4 ∧ (model ≠ 0x128 ∨ late) → exec (.ident st crc model rev portB) s = next (named.elkFail i))
      ∧ (step = 4 ∧ model = 0x128 ∧ ¬ late → ∃ t : State, exec (.ident st crc model rev portB) s = next t
          ∧ t.elkState i = 5 ∧ (vget t.elk i).echoes = []))
    ∧ (good 3 ackBytes →
      ((∀ o ∈ l.out, o.tag ≠ tag.toNat) → exec (.ctlAck st crc tag refused data rtt) s = next s)
      ∧ (∀ o, l.out.find? (fun o => o.tag == tag.toNat) = some o →
          ∃ t : State, exec (.ctlAck st crc tag refused data rtt) s = next t
            ∧ (vget t.elk i).echoes = (if o.cmd = CtlCmd.echo then l.echoes ++ [rtt.toNat] else l.echoes)
            ∧ (l.queue = [] → (vget t.elk i).out = l.out.filter (fun o => o.tag != tag.toNat))))
    ∧ (good 2 (leBytes 2 seq.toNat) →
      (8 ≤ run → exec (.nack st crc seq) s = next (nacked.elkLose i)
        ∧ (step ≠ 0 → (nacked.elkLose i).elkState i = 0 ∧ (vget (nacked.elkLose i).elk i).credits = 0))
      ∧ (run < 8 ∧ (∀ f ∈ l.frames, f.seq ≠ seq.toNat) → exec (.nack st crc seq) s = next nacked)
      ∧ (∀ f, run < 8 → l.frames.find? (fun f => f.seq == seq.toNat) = some f →
        (s.frameInTime i f = true → exec (.nack st crc seq) s
          = next ((nacked.modElk i (fun x => { x with resend := x.resend ++ [seq.toNat] })).raise (145 + 4 * i)))
        ∧ (s.frameInTime i f = false → exec (.nack st crc seq) s = next (nacked.frameLate i f))))
    ∧ (good 1 rptBytes → ∃ t : State, exec rpt s = next t ∧ t.fld (F.LAC_THERM_HT i) = ht.toNat % 4096
        ∧ t.fld (F.LAC_THERM_SPD_REQ i) = s.spdReq i (sx 12 ht.toNat) ∧ (vget t.lac i).noReport = 0
        ∧ (vget t.elk i).credits = min 4096 (l.credits + k.toNat)
        ∧ (s.sfld (F.LAC_TABS_TLIM i) ≤ sx 12 ht.toNat → t.flag (F.LAC_STATUS_HOT_TRIP i) = true))
    ∧ (v.getLsbD 0 = false →
      (s.flag (F.ELK_CTRL_EN i) = false → exec (.elkDisable st v) s = next (s.clrFlag (F.ELK_CTRL_EN i)))
      ∧ (s.flag (F.ELK_CTRL_EN i) = true → ∃ t : State, exec (.elkDisable st v) s = next t ∧ t.elkState i = 0
          ∧ (vget t.elk i).credits = 0 ∧ (vget t.elk i).out = []))
    ∧ (v.getLsbD 0 = true ∧ v.getLsbD 1 = false →
      (step = 0 ∧ l.failedAt = none → ∃ t : State, exec (.elkEnable st v) s = next t ∧ t.elkState i = 1
          ∧ t.fld (F.ELK_CNT_ATTEMPTS i) = min 255 (s.fld (F.ELK_CNT_ATTEMPTS i) + 1))
      ∧ (step ≠ 0 ∨ l.failedAt ≠ none → exec (.elkEnable st v) s = next (s.setFlag (F.ELK_CTRL_EN i))))
    ∧ (v.getLsbD 0 = true ∧ v.getLsbD 1 = true →
      (s.pageActive i = true → exec (.elkRetrain st v) s = next (s.setFlag (F.ELK_STATUS_CMD_REJ i)))
      ∧ (s.pageActive i = false → ∃ t : State, exec (.elkRetrain st v) s = next t ∧ t.elkState i = 1
          ∧ (vget t.elk i).out = []))
    ∧ (step ≠ 0 ∧ step ≠ 7 ∧ late → exec (.linkTrainStep st) s = next (s.elkFail i))
    ∧ (step = 0 ∨ step = 7 → exec (.linkTrainStep st) s = next s)
    ∧ (¬ late →
      (step = 1 ∨ step = 2 → exec (.linkTrainStep st) s = next (s.setElkState i (step + 1)))
      ∧ (step = 3 → exec (.linkTrainStep st) s = next ((s.setElkState i 4).modElk i (fun x => { x with comma := true })))
      ∧ (step = 4 → exec (.linkTrainStep st) s = next s)
      ∧ (step = 5 →
        let l4 := latency4 (s.fld (F.ELK_LATK_KFWD i)) (s.fld (F.ELK_LATK_KSUM i)) l.echoes
        (l.echoes.length < 64 → exec (.linkTrainStep st) s = next s)
        ∧ (64 ≤ l.echoes.length ∧ (l4 < 0 ∨ 1600000 < l4) → exec (.linkTrainStep st) s = next (s.elkFail i))
        ∧ (64 ≤ l.echoes.length ∧ 0 ≤ l4 ∧ l4 ≤ 1600000 → ∃ t : State, exec (.linkTrainStep st) s = next t
            ∧ t.elkState i = 6 ∧ t.fld (F.ELK_LAT_L i) = (l4 / 4).toNat))
      ∧ (step = 6 ∧ (l.queue ≠ [] ∨ l.out ≠ []) → exec (.linkTrainStep st) s = next s)
      ∧ (step = 6 ∧ l.queue = [] ∧ l.out = [] → ∃ t : State, exec (.linkTrainStep st) s = next t
          ∧ t.flag (F.ELK_STATUS_TRAINED i) = true ∧ (vget t.elk i).credits = 4096))
    ∧ (step = 0 ∨ step = 7 ∨ s.now < l.stepAt + elkLimit step → exec (.linkTrainTimeout st) s = next s)
    ∧ (1 ≤ step ∧ step ≤ 6 ∧ l.stepAt + elkLimit step ≤ s.now →
        ∃ t : State, exec (.linkTrainTimeout st) s = next t ∧ t.elkState i = 0
        ∧ t.fld (F.ELK_STATUS_FAILSTEP i) = step ∧ (vget t.elk i).failedAt = some s.now
        ∧ 146 + 4 * i ∈ t.flt.raised)
    ∧ (step ≠ 0 ∨ s.flag (F.ELK_CTRL_EN i) = false ∨ (∃ t0, l.failedAt = some t0 ∧ s.now < t0 + 10000000) →
        exec (.linkTrainRetry st) s = next s)
    ∧ ((∀ t0, l.failedAt = some t0 → t0 + 10000000 ≤ s.now) ∧ step = 0 ∧ s.flag (F.ELK_CTRL_EN i) = true →
        ∃ t : State, exec (.linkTrainRetry st) s = next t ∧ t.elkState i = 1)
    ∧ (l.comma = false ∨ ns.toNat ≤ 1000 → exec (.backChannelLockLoss st ns) s = next s)
    ∧ (l.comma = true ∧ 1000 < ns.toNat → ∃ t : State, exec (.backChannelLockLoss st ns) s = next t
        ∧ (vget t.elk i).comma = false ∧ t.elkState i = 0
        ∧ t.flag (F.ELK_STATUS_LOST i) = (s.flag (F.ELK_STATUS_LOST i) || step == 7)
        ∧ (step ≠ 0 → (if step = 7 then 144 + 4 * i else 146 + 4 * i) ∈ t.flt.raised))
    ∧ ((∀ o ∈ l.out, o.tag ≠ tag.toNat ∨ s.now < o.sentAt + 20000) → exec (.ctlRetry st tag) s = next s)
    ∧ (∀ o, l.out.find? (fun o => o.tag == tag.toNat && decide (o.sentAt + 20000 ≤ s.now)) = some o →
      (o.repeats < 3 → ∃ t : State, exec (.ctlRetry st tag) s = next t ∧ t.regs = s.regs
        ∧ (vget t.elk i).out = l.out.map (fun x => if x.tag = tag.toNat then
            { x with repeats := x.repeats + 1, sentAt := s.now } else x))
      ∧ (3 ≤ o.repeats → exec (.ctlRetry st tag) s = next (s.elkLose i)))
    ∧ (off = 0x20 ∨ off = 0x24 ∨ off = 0x28 →
      let t := s.plainWrite (0x240000 + 0x10000 * i + off.toNat) v
      let ordered := t.sfld (F.LAC_TWARN_TLIM i) ≤ t.sfld (F.LAC_TCOMMIT_TLIM i)
        ∧ t.sfld (F.LAC_TCOMMIT_TLIM i) < t.sfld (F.LAC_TABS_TLIM i)
      (ordered → exec (.thermalLimitWrite st off v) s = next (t.spdRefresh i))
      ∧ (¬ ordered → exec (.thermalLimitWrite st off v) s = next (s.setFlag (F.LAC_STATUS_CFG_ERR i))))
    ∧ (let limit := (BitVec.ofNat 16 0x28 : BitVec 16)
      let tabs := sx 12 (v.toNat % 4096)
      (s.sfld (F.LAC_TCOMMIT_TLIM i) < tabs ∧ s.sfld (F.LAC_TWARN_TLIM i) ≤ s.sfld (F.LAC_TCOMMIT_TLIM i) →
        exec (.thermalLimitWrite st limit v) s = next ((s.plainWrite (R.LAC_TABS i) v).spdRefresh i))
      ∧ (tabs ≤ s.sfld (F.LAC_TCOMMIT_TLIM i) →
        exec (.thermalLimitWrite st limit v) s = next (s.setFlag (F.LAC_STATUS_CFG_ERR i))))

/-- R183 to R188, R190: loop channels, ARMABLE, DISCREP, arming and disarming, push-button, reset input, keys, and the
consumable ports. -/
def Obligations.InterlocksAndPanel : Prop :=
  ∀ (s : State) (st : Fin 4) (chB : Bool) (v : Word) (keys : BitVec 8) (k : Fin 8) (present ack stuck : Bool) (ns : BitVec 40)
      (tid : BitVec 64) (data : List Byte) (check : BitVec 16), s.hasStn st.val = true →
    let i := st.val
    let l := vget s.ilk i
    let next (t : State) : Host.Outcome State Fault Refusal := .next t.finish
    let here := bit (s.fld (loopFld chB)) i
    let other := bit (s.fld (loopFld (!chB))) i
    let long := (State.raise
      { s.setFlag F.ILK_PANEL_LONG with panel := { s.panel with longDone := true } } 168).drydown 3
    (here = false ∨ ns.toNat < 250 → exec (.ilkOpen st chB ns) s = next s)
    ∧ (here = true ∧ 250 ≤ ns.toNat → ∃ t : State, exec (.ilkOpen st chB ns) s = next t ∧ (vget t.ilk i).armed = false
        ∧ bit (t.fld F.ILK_STATUS_ARMABLE) i = false ∧ (vget t.ilk i).closedSince = none ∧ 160 + i ∈ t.flt.raised)
    ∧ (here = true → exec (.interlockClose st chB) s = next s)
    ∧ (here = false → ∃ t : State, exec (.interlockClose st chB) s = next t ∧ bit (t.fld (loopFld chB)) i = true
        ∧ (vget t.ilk i).armed = l.armed
        ∧ (vget t.ilk i).closedSince = (if other then some s.now else none)
        ∧ (vget t.ilk i).mismatchSince = (if other then none else some s.now))
    ∧ ((∀ t0, l.closedSince = some t0 → s.now < t0 + 200000000) → exec (.ilkArmable st) s = next s)
    ∧ (∀ t0, l.closedSince = some t0 → t0 + 200000000 ≤ s.now →
      (bit (s.fld F.ILK_STATUS_DISCREP) i = true → exec (.ilkArmable st) s = next s)
      ∧ (bit (s.fld F.ILK_STATUS_DISCREP) i = false →
        exec (.ilkArmable st) s = next (s.putBitOf F.ILK_STATUS_ARMABLE i true)))
    ∧ ((∀ t0, l.mismatchSince = some t0 → s.now ≤ t0 + 50000000) → exec (.ilkDiscrep st) s = next s)
    ∧ (∀ t0, l.mismatchSince = some t0 → t0 + 50000000 < s.now → ∃ t : State, exec (.ilkDiscrep st) s = next t
        ∧ bit (t.fld F.ILK_STATUS_DISCREP) i = true ∧ bit (t.fld F.ILK_STATUS_ARMABLE) i = false
        ∧ t.flt.raised = s.flt.raised ++ [164 + i])
    ∧ (bits v.toNat 8 8 ≠ 0x5A → exec (.ilkArm v) s = next s ∧ exec (.ilkDisarm v) s = next s)
    ∧ (bits v.toNat 8 8 = 0x5A → ∃ t : State, exec (.ilkArm v) s = next t ∧ exec (.ilkDisarm v) s = next t
        ∧ (vget t.ilk i).armed = (!v.getLsbD (4 + i) && (l.armed
          || v.getLsbD i && bit (s.fld F.ILK_STATUS_ARMABLE) i && !s.drying && !s.flag F.THM_TSD_TSD_LOCK)))
    ∧ (s.panel.pressAt ≠ none ∨ ns.toNat < 20000000 → exec (.pbtnPress ns) s = next s)
    ∧ (s.panel.pressAt = none ∧ 20000000 ≤ ns.toNat → ∃ t : State, exec (.pbtnPress ns) s = next t
        ∧ t.flag F.ILK_PANEL_PBTN = true
        ∧ (s.pwr.phase ≠ .off → t.panel.pressAt = some (s.now - ns.toNat) ∧ t.panel.quiet = false)
        ∧ (s.pwr.phase = .holdoff ∨ s.pwr.phase.dryRuns = true → t.pwr.pressKept = true))
    ∧ (s.panel.pressAt = none → exec .pbtnShort s = next s ∧ exec .pbtnLong s = next s)
    ∧ (∀ t0, s.panel.pressAt = some t0 → s.panel.longDone = true →
        exec .pbtnShort s = next { s.clrFlag F.ILK_PANEL_PBTN with panel := { s.panel with pressAt := none } }
        ∧ exec .pbtnLong s = next s)
    ∧ (∀ t0, s.panel.pressAt = some t0 → s.panel.longDone = false → s.panel.quiet = false →
      (s.now < t0 + 8000000000 → ∃ t : State, exec .pbtnShort s = next t ∧ t.flag F.ILK_PANEL_SHORT = true
        ∧ t.flag F.ILK_PANEL_PBTN = false ∧ t.panel.pressAt = none)
      ∧ (t0 + 8000000000 ≤ s.now → exec .pbtnShort s = next
          (let e : State := { long.clrFlag F.ILK_PANEL_PBTN with panel := { long.panel with pressAt := none } }
          if long.panel.longDone || long.panel.quiet then e else (e.setFlag F.ILK_PANEL_SHORT).ilkEvent 2)))
    ∧ (∀ t0, s.panel.pressAt = some t0 → s.panel.longDone = false → s.panel.quiet = true → s.now < t0 + 8000000000 →
        exec .pbtnShort s = next { s.clrFlag F.ILK_PANEL_PBTN with panel := { s.panel with pressAt := none } })
    ∧ (∀ t0, s.panel.pressAt = some t0 → s.panel.longDone = false →
      (s.now < t0 + 8000000000 → exec .pbtnLong s = next s)
      ∧ (t0 + 8000000000 ≤ s.now → exec .pbtnLong s = next long))
    ∧ (ns.toNat < 1000000 → exec (.mrst ns) s = next s)
    ∧ (1000000 ≤ ns.toNat → exec (.mrst ns) s = next (s.drydown 4))
    ∧ (1000000 ≤ ns.toNat ∧ s.pwr.phase.dryRuns = true →
        exec (.mrst ns) s = next (s.setFld F.PWR_CAUSE_MASK (s.fld F.PWR_CAUSE_MASK ||| 8)))
    ∧ (keys.toNat = s.fld F.ILK_PANEL_KEYS ∨ ns.toNat < s.fld F.ILK_CFG_KEY_DEB * 1000000 →
        exec (.keyChange keys ns) s = next s)
    ∧ (keys.toNat ≠ s.fld F.ILK_PANEL_KEYS ∧ s.fld F.ILK_CFG_KEY_DEB * 1000000 ≤ ns.toNat →
        exec (.keyChange keys ns) s = next ((s.setFld F.ILK_PANEL_KEYS keys.toNat).raiseEv (s.fld F.ILK_EVGRP_HANDLE) 1))
    ∧ (bit (s.fld F.ILK_CNS_STATUS_PRESENT) k.val = present ∨ ns.toNat < 50000000 →
        exec (.cnsPresenceChange k present ns) s = next s)
    ∧ (bit (s.fld F.ILK_CNS_STATUS_PRESENT) k.val ≠ present ∧ 50000000 ≤ ns.toNat → ∃ t : State,
        exec (.cnsPresenceChange k present ns) s = next t ∧ bit (t.fld F.ILK_CNS_STATUS_PRESENT) k.val = present
        ∧ bit (t.fld F.ILK_CNS_STATUS_CHANGED) k.val = true
        ∧ (∀ r, s.panel.cns = some r → r.port = k.val → present = false →
          t.panel.cns = none ∧ t.fld F.ILK_CNS_RES_STATUS = 3 ∧ t.flag F.ILK_CNS_RES_BUSY = false)
        ∧ (∀ r, s.panel.cns = some r → r.port ≠ k.val ∨ present = true → t.panel.cns = some r))
    ∧ (v.getLsbD 31 = false ∨ s.flag F.ILK_CNS_RES_BUSY = true → exec (.cnsRead v) s = next s)
    ∧ (v.getLsbD 31 = true ∧ s.flag F.ILK_CNS_RES_BUSY = false → ∃ t : State, exec (.cnsRead v) s = next t
        ∧ t.flag F.ILK_CNS_RES_BUSY = true ∧ t.fld F.ILK_CNS_RES_PORT = v.toNat % 8
        ∧ t.panel.cns = some ⟨v.toNat % 8, v.getLsbD 3, bits v.toNat 8 8, bits v.toNat 16 8 + 1⟩)
    ∧ (s.panel.cns = none → exec (.cnsReadDone ack stuck tid data check) s = next s)
    ∧ (∀ r, s.panel.cns = some r → ∃ t : State, exec (.cnsReadDone ack stuck tid data check) s = next t
        ∧ t.flag F.ILK_CNS_RES_BUSY = false ∧ t.panel.cns = none
        ∧ (stuck = true → t.fld F.ILK_CNS_RES_STATUS = 4)
        ∧ (stuck = false ∧ ack = false → t.fld F.ILK_CNS_RES_STATUS = 1)
        ∧ (stuck = false ∧ ack = true →
          let id := leBytes 8 tid.toNat
          let bytes := (List.range r.len).map (fun j => data.getD j 0xFF#8)
          t.panel.cnsOut = msbFirst r.sends
          ∧ (crc16 (id.take 6) ≠ (id.getD 6 0).toNat * 256 + (id.getD 7 0).toNat → t.fld F.ILK_CNS_RES_STATUS = 2)
          ∧ (crc16 (id.take 6) = (id.getD 6 0).toNat * 256 + (id.getD 7 0).toNat →
            (r.idOnly = true → t.fld F.ILK_CNS_RES_STATUS = 0)
            ∧ (r.idOnly = false → t.fld F.ILK_CNS_RES_STATUS
                = if crc16 (r.sends ++ bytes) = check.toNat then 0 else 5))))

/-! ### The attar codec and its engines (R192 to R224) -/

/-- R192 to R198, R207: what the encoder emits for a chunk is a valid block, never longer than its raw form (a block of no
chunk is a header with RAW = 0, the model's reading of log entry 52), and decodes
to the chunk's pixels with the history it was made with. -/
def Obligations.EncodedBlocksDecode : Prop :=
  ∀ (linePx : Nat) (window : List Nat) (chunk : List Byte) (last hist flush : Bool), chunk.length ≤ 65536 →
    let block := encodeBlock linePx window chunk last hist flush
    let h := BlkHdr.ofBytes (block.take 16)
    h.ok = true ∧ h.last = last ∧ h.hist = hist ∧ h.flush = flush ∧ h.outLen = chunk.length
      ∧ block.length = 16 + h.inLen
      ∧ (chunk = [] → h.raw = false ∧ h.inLen = 0)
      ∧ (chunk ≠ [] → if h.raw then h.inLen = chunk.length else h.inLen < chunk.length)
      ∧ decodeBlock h linePx window.reverse (block.drop 16) = .pixels (nibblesOf chunk)

/-- R204, R205, R210, R211, R217, R222 to R224: when an engine takes a job of its ring, the checks it completes at once,
its completion and a parked one, page blocks, ONLINE and TEST, and the output count. -/
def Obligations.AttarEngines : Prop :=
  ∀ (s : State) (e : Fin 8) (v : Word) (pass : Bool),
    let a := vget s.atr e.val
    let next (t : State) : Host.Outcome State Fault Refusal := .next t.finish
    let rows : List Instr := [.atrDecode e, .atrEncode e, .atrSave e, .atrLoad e, .atrClear e]
    let sq := s.fld (F.ATR_SQ_HANDLE e.val)
    let cq := s.fld (F.ATR_CQ_HANDLE e.val)
    let online := s.flag (F.ATR_CTRL_ONLINE e.val)
    let free := a.job = none ∧ a.band = none ∧ a.testing = false ∧ a.parked = none
    (online = false ∨ a.job ≠ none ∨ a.band ≠ none ∨ a.testing = true ∨ a.parked ≠ none →
      ∀ c ∈ rows, exec c s = next s)
    ∧ (online = true ∧ free →
      (sq = 0 ∨ cq = 0 → ∀ c ∈ rows, exec c s = next s)
      ∧ (sq ≠ 0 ∧ cq ≠ 0 ∧ (s.unitRing sq 2 = none ∨ s.unitRing cq 2 = none) →
        ∀ c ∈ rows, exec c s = next (s.setFlag (F.ATR_STATUS_Q_ERR e.val)))
      ∧ (∀ (n : Nat) (r : Ring) (t : State) (l : List Byte), sq ≠ 0 → cq ≠ 0 → s.unitRing sq 2 = some (n, r) →
          s.unitRing cq 2 ≠ none → r.count ≠ 0 → s.ringPop n r = (t, .entry l) →
        let head := s.rdBytes (r.entryAddr r.cons) 64
        let op := bits (entLe head 0 4) 0 4
        s.ctxBusy (entLe head 4 4) = false →
        ∀ k < 5, (if 5 ≤ op then 0 else op) = k → ∀ c, rows[k]? = some c →
          exec c s = next ((t.runJob e.val l).atrSync e.val))
      ∧ (∀ (n : Nat) (r : Ring) (t : State) (x : PopRes), sq ≠ 0 → cq ≠ 0 → s.unitRing sq 2 = some (n, r) →
          s.unitRing cq 2 ≠ none → s.ringPop n r = (t, x) →
        let head := s.rdBytes (r.entryAddr r.cons) 64
        let op := if 5 ≤ bits (entLe head 0 4) 0 4 then 0 else bits (entLe head 0 4) 0 4
        ∀ k c, rows[k]? = some c →
          (r.count = 0 ∨ op ≠ k ∨ s.ctxBusy (entLe head 4 4) = true → exec c s = next s)
          ∧ (r.count ≠ 0 → op = k → s.ctxBusy (entLe head 4 4) = false → (∀ l, x ≠ .entry l) →
            exec c s = next (t.setFlag (F.ATR_STATUS_Q_ERR e.val)))))
    ∧ (∀ (n : Nat) (r : Ring) (t : State) (l : List Byte) (i : Nat) (c : AtrCtx), online = true → free → sq ≠ 0 → cq ≠ 0 →
        s.unitRing sq 2 = some (n, r) → s.unitRing cq 2 ≠ none → r.count ≠ 0 → s.ringPop n r = (t, .entry l) →
      let head := s.rdBytes (r.entryAddr r.cons) 64
      let op := if 5 ≤ bits (entLe head 0 4) 0 4 then 0 else bits (entLe head 0 4) 0 4
      let j := AtrJob.ofEntry l t.now
      let u := t.modCtx i (fun x => { x with active := some e.val })
      let act : AtrCtx := { c with active := some e.val }
      let ends (w : State) (q : AtrJob) : State :=
        (w.modAtr e.val (fun x => { x with job := some { q with ended := some (0, 0xFFFFFFFF) } })).atrSync e.val
      let out (w : State) (k : Nat) : State := w.modAtr e.val (fun x => { x with outb := (x.outb + k) % 2 ^ 64 })
      s.ctxBusy (entLe head 4 4) = false → j.op = op → t.jobCheck j (jobRsvd l) = none → t.ctxOf j.ctx = some (i, c) →
      (op = 0 → ∀ (t2 t3 w : State) (hb body : List Byte) (px : List Nat), u.engRead j.src 16 = (t2, .ok hb) →
        let h := BlkHdr.ofBytes hb
        h.ok = true → j.srcLen = 16 + h.inLen → h.outLen ≤ j.dstLen → t2.engRead (j.src + 16) h.inLen = (t3, .ok body) →
        act.decode h body = .ok px → t3.engWrite j.dst (packNibbles px) = (w, none) →
        exec (.atrDecode e) s = next (ends (out (w.modCtx i (fun x => x.enter px (!h.hist) h.last)) h.outLen)
          { j with inUsed := 16 + h.inLen, outMade := h.outLen, blocks := 1 }))
      ∧ (op = 1 → ∀ (t2 w : State) (chunk : List Byte) (last flush : Bool),
        j.nextChunk c.blksz = some (j.srcLen, last, flush) → u.engRead j.src j.srcLen = (t2, .ok chunk) →
        let hist := c.long && c.openS
        let blk := encodeBlock c.linePx (if hist then c.window else []) chunk last hist flush
        blk.length ≤ j.dstLen → t2.engWrite j.dst blk = (w, none) →
        exec (.atrEncode e) s = next (ends (out (w.modCtx i (fun x => x.enter (nibblesOf chunk) (!hist) last)) blk.length)
          { j with inUsed := j.srcLen, outMade := blk.length, blocks := 1 }))
      ∧ (op = 2 → ∀ w : State, imageBytes ≤ j.dstLen → u.engWrite j.dst c.image = (w, none) →
        exec (.atrSave e) s = next (ends (out w imageBytes) { j with outMade := imageBytes }))
      ∧ (op = 3 → ∀ (t2 : State) (img : List Byte), imageBytes ≤ j.srcLen → u.engRead j.src imageBytes = (t2, .ok img) →
        c.imageFits img = true →
        exec (.atrLoad e) s = next (ends (t2.modCtx i (fun x => { x with
            window := (nibblesOf (img.drop 256)).drop (windowMax - entLe img 8 4), openS := bit (entLe img 3 1) 1
            pos := entLe img 0x10 8 })) { j with inUsed := imageBytes }))
      ∧ (op = 4 → exec (.atrClear e) s = next (ends (u.modCtx i (fun x => { x with window := [], openS := false })) j)))
    ∧ (∀ (l : List Byte) (now : Nat),
      let j := AtrJob.ofEntry l now
      (5 ≤ j.op ∨ jobRsvd l = true ∨ (j.flush || j.last) = true ∧ j.op ≠ 1 → s.jobCheck j (jobRsvd l) = some 12)
      ∧ (j.op < 5 ∧ jobRsvd l = false ∧ ((j.flush || j.last) = true → j.op = 1) →
        (s.ctxOf j.ctx = none → s.jobCheck j (jobRsvd l) = some 10)
        ∧ (∀ i c, s.ctxOf j.ctx = some (i, c) → 2 ≤ j.op ∧ j.op ≤ 3 ∧ c.long = false →
            s.jobCheck j (jobRsvd l) = some 10)
        ∧ (∀ i c, s.ctxOf j.ctx = some (i, c) → j.op = 4 ∧ s.ctxInUse j.ctx = true →
            s.jobCheck j (jobRsvd l) = some 9)
        ∧ (∀ i c, s.ctxOf j.ctx = some (i, c) → (2 ≤ j.op ∧ j.op ≤ 3 → c.long = true) →
            (j.op = 0 ∧ c.encode = true ∨ j.op = 1 ∧ c.encode = false → s.jobCheck j (jobRsvd l) = some 12)
            ∧ ((j.op = 0 → c.encode = false) ∧ (j.op = 1 → c.encode = true) →
              s.jobCheck j (jobRsvd l) = if s.ctxInUse j.ctx = true then some 9 else none))))
    ∧ (a.job = none → exec (.atrJobComplete e) s = next s)
    ∧ (∀ j st off, a.job = some j → j.ended = some (st, off) → ∃ t : State,
        exec (.atrJobComplete e) s = next ((t.cplPush e.val (j.completion e.val st off s.now)).atrSync e.val)
          ∧ (vget t.atr e.val).job = none ∧ t.rings = s.rings
          ∧ t.fld (F.ATR_CNT_JOBS e.val) = min 65535 (s.fld (F.ATR_CNT_JOBS e.val) + 1)
          ∧ (st ≠ 0 → t.fld (F.ATR_LAST_STATUS e.val) = st % 16)
          ∧ ∀ x ∈ t.actxs, x.2.active ≠ some e.val)
    ∧ (a.parked = none → exec (.cplParkedPush e) s = next s)
    ∧ (∀ entry n r, a.parked = some entry → s.unitRing cq 2 = some (n, r) →
      (r.count < r.size → exec (.cplParkedPush e) s = next (((s.ringAppend n r entry).modAtr e.val
          (fun x => { x with parked := none })).clrFlag (F.ATR_STATUS_CPL_HOLD e.val)))
      ∧ (r.size ≤ r.count → exec (.cplParkedPush e) s = next ((s.modAtr e.val
          (fun x => { x with parked := some entry })).setFlag (F.ATR_STATUS_CPL_HOLD e.val))))
    ∧ (∀ entry, a.parked = some entry → s.unitRing cq 2 = none → exec (.cplParkedPush e) s
        = next (((if cq = 0 then s else s.setFlag (F.ATR_STATUS_Q_ERR e.val)).modAtr e.val
          (fun x => { x with parked := some entry })).setFlag (F.ATR_STATUS_CPL_HOLD e.val)))
    ∧ ((∀ f ∈ s.fills, s.fillNext f = none) ∨ s.nextEngine = none → exec .pageBlockDispatch s = next s)
    ∧ (∀ b d, (b, d) ∈ s.fills.filterMap s.fillNext →
        (∀ x ∈ s.fills.filterMap s.fillNext, x ≠ (b, d) → d < x.2) → s.nextEngine = some e.val → ∃ t : State,
        exec .pageBlockDispatch s = next t ∧ (vget t.atr e.val).band = some b
          ∧ t.flag (F.ATR_STATUS_BUSY e.val) = true ∧ t.flag (F.ATR_STATUS_BAND e.val) = true)
    ∧ (a.band = none → exec (.pageBlockDecoded e) s = next s)
    ∧ (∀ b, a.band = some b →
      let s1 := s.modAtr e.val (fun x => { x with band := none })
      (Tab.get s.pages b.page = none → exec (.pageBlockDecoded e) s = next (s1.atrSync e.val))
      ∧ (∀ p, Tab.get s.pages b.page = some p →
        (p.record.spoilCause ≠ 0 → exec (.pageBlockDecoded e) s = next (s1.atrSync e.val))
        ∧ (∀ t, p.record.spoilCause = 0 → s1.blkEntry p b.entry = (t, none) →
          exec (.pageBlockDecoded e) s = next ((t.blockFailed e.val b 7 false).atrSync e.val))
        ∧ (∀ t en, p.record.spoilCause = 0 → s1.blkEntry p b.entry = (t, some en) →
          exec (.pageBlockDecoded e) s = next ((t.decodePageBlock e.val b p en).atrSync e.val))))
    ∧ (v.getLsbD 0 = true ∧ v.getLsbD 1 = false ∧ online = false →
      (s.flag (F.ATR_STATUS_TEST_FAIL e.val) = true →
        exec (.atrOnline e v) s = next (s.setFlag (F.ATR_STATUS_ON_REFUSED e.val)))
      ∧ (s.flag (F.ATR_STATUS_TEST_FAIL e.val) = false →
        exec (.atrOnline e v) s = next (s.setFlag (F.ATR_CTRL_ONLINE e.val))))
    ∧ (v.getLsbD 0 = false ∧ online = true →
      (1800000000 * (s.engOnline - 1) < s.reservations →
        exec (.atrOffline e v) s = next (s.setFlag (F.ATR_STATUS_OFF_REFUSED e.val)))
      ∧ (s.reservations ≤ 1800000000 * (s.engOnline - 1) →
        exec (.atrOffline e v) s = next (s.clrFlag (F.ATR_CTRL_ONLINE e.val))))
    ∧ (v.getLsbD 0 = true ∧ online = true ∨ v.getLsbD 0 = false ∧ v.getLsbD 1 = false ∧ online = false →
      exec (.atrOnline e v) s = next s ∧ exec (.atrOffline e v) s = next s ∧ exec (.atrTest e v) s = next s)
    ∧ (v.getLsbD 1 = true ∧ online = false →
      let tested := (s.modAtr e.val (fun x => { x with testing := true })).atrSync e.val
      (v.getLsbD 0 = false ∧ s.flag (F.ATR_STATUS_BUSY e.val) = true → exec (.atrTest e v) s = next s)
      ∧ (v.getLsbD 0 = false ∧ s.flag (F.ATR_STATUS_BUSY e.val) = false → exec (.atrTest e v) s = next tested)
      ∧ (v.getLsbD 0 = true ∧ s.flag (F.ATR_STATUS_BUSY e.val) = false →
        exec (.atrTest e v) s = next (tested.setFlag
          (if s.flag (F.ATR_STATUS_TEST_FAIL e.val) = true then F.ATR_STATUS_ON_REFUSED e.val else F.ATR_CTRL_ONLINE e.val))))
    ∧ (a.testing = false → exec (.atrTestDone e pass) s = next s)
    ∧ (a.testing = true → ∃ t : State, exec (.atrTestDone e pass) s = next t
        ∧ t.flag (F.ATR_STATUS_TEST_DONE e.val) = true ∧ t.flag (F.ATR_STATUS_TEST_PASS e.val) = pass
        ∧ t.flag (F.ATR_STATUS_TEST_FAIL e.val) = !pass ∧ (vget t.atr e.val).testing = false
        ∧ t.flt.raised = s.flt.raised ++ (if pass then [] else [177 + 2 * e.val]))
    ∧ exec (.outbLoRead e) s = next { s.modAtr e.val (fun x => { x with outbHi := BitVec.ofNat 32 (x.outb / 2 ^ 32) }) with
        bus := ⟨false, a.outb % 2 ^ 32⟩ }

/-! ### Memory and DMA (R226 to R248) -/

/-- R237, R238: in populated DRAM without errors, a COPY of whichever widths leaves at its destination the bytes of its
source, and a FILL its constant repeated; nothing else of memory changes, and DONE is the length. -/
def Obligations.DmaMovesBytes : Prop :=
  ∀ (s : State) (ch : Fin 64) (c : DmaCh) (d : DmaDesc), s.Clean → Tab.get s.dmas ch.val = some c → c.state = .running →
    c.desc = some d → c.moved = false → d.dfix = false → d.dw ≤ 4 → d.len % 2 ^ d.dw = 0 →
    d.dst + d.len ≤ s.dramTop → d.dst + d.len ≤ 0x1000000000 →
    let moved (t : State) : Host.Outcome State Fault Refusal :=
      .next (State.finish (t.modDma ch.val (fun k => { k with moved := true, doneB := d.len })))
    (d.op = 0 ∧ d.sfix = false ∧ d.sw ≤ 4 ∧ d.len % 2 ^ d.sw = 0 ∧ d.src + d.len ≤ s.dramTop ∧ d.src + d.len ≤ 0x1000000000
        ∧ (d.src + d.len ≤ d.dst ∨ d.dst + d.len ≤ d.src) →
      exec (.dmaCopy ch) s = moved (s.wrBytes d.dst (s.rdBytes d.src d.len)))
    ∧ (d.op = 1 → exec (.dmaFill ch) s = moved (s.wrBytes d.dst
        ((List.range d.len).map (fun k => BitVec.ofNat 8 (d.src / 256 ^ (k % 2 ^ d.dw % 8))))))

/-- R232 to R234, R246: correction windows, training and fill, the scrubber, the injection and lock registers. -/
def Obligations.MemoryController : Prop :=
  ∀ (s : State) (failed : BitVec 4) (v : Word),
    let m := s.memst
    let next (t : State) : Host.Outcome State Fault Refusal := .next t.finish
    let init := s.flag F.MEM_STATUS_INIT_DONE
    (init = false ∨ s.now < m.winStart + m.winLen * 60000000000 → exec .ceWindowEnd s = next s)
    ∧ (init = true ∧ m.winStart + m.winLen * 60000000000 ≤ s.now →
      exec .ceWindowEnd s = next { s with memst := { m with
        winStart := m.winStart + m.winLen * 60000000000, winLen := min 1440 (max 1 (s.fld F.MEM_CE_RATE_CE_WIN))
        winCount := 0, winTripped := false } })
    ∧ (s.pwr.phase ≠ .training ∨ s.flag F.MEM_LOCK_LOCK = false → exec (.dramTrainingDone failed) s = next s)
    ∧ (s.pwr.phase = .training ∧ s.flag F.MEM_LOCK_LOCK = true →
      (failed = 0 → ∃ t : State, exec (.dramTrainingDone failed) s = next t ∧ t.fld F.MEM_STATUS_TRAIN_OK = 15
        ∧ t.flag F.MEM_STATUS_FILL_BUSY = true ∧ t.pwr.phase = .filling
        ∧ (∀ a, 0x1100000000 ≤ a → t.rd8 a = 0) ∧ ∀ a < 0x1100000000, t.rd8 a = s.rd8 a)
      ∧ (failed ≠ 0 → exec (.dramTrainingDone failed) s
          = next (((s.setFld F.MEM_STATUS_TRAIN_OK (15 - failed.toNat)).raise 204).bootFail)))
    ∧ (s.pwr.phase ≠ .filling → exec .dramFillDone s = next s)
    ∧ (s.pwr.phase = .filling → ∃ t : State, exec .dramFillDone s = next t ∧ t.flag F.MEM_STATUS_INIT_DONE = true
        ∧ t.flag F.MEM_STATUS_FILL_BUSY = false ∧ t.pwr.phase = .booting ∧ t.memst.winStart = s.now
        ∧ (∀ a < 0x1000000000, t.rd8 a = 0) ∧ ∀ a, 0x1000000000 ≤ a → t.rd8 a = s.rd8 a)
    ∧ (init = false ∨ m.scrubStopped = true → exec .scrubUnit s = next s)
    ∧ (init = true ∧ m.scrubStopped = false ∧ s.upsets = [] →
      (m.scrub + 64 < s.dramTop → exec .scrubUnit s = next { s with memst := { m with scrub := m.scrub + 64 } })
      ∧ (s.dramTop ≤ m.scrub + 64 → exec .scrubUnit s = next { s.addSat F.MEM_SCRUB_PASSES 1 with
          memst := { m with scrub := 0, scrubPeriod := s.fld F.MEM_SCRUB_SCRUB_PERIOD } }))
    ∧ (∃ t : State, exec (.memInjArm v) s = next t ∧ t.flag F.MEM_INJ_CTRL_ARM = (s.flag F.MEM_INJ_CTRL_ARM || v.getLsbD 2)
        ∧ t.fld F.MEM_INJ_CTRL_NBITS = v.toNat % 4 ∧ t.mem = s.mem ∧ t.upsets = s.upsets)
    ∧ (∃ t : State, exec (.memLock v) s = next t ∧ t.flag F.MEM_LOCK_LOCK = (s.flag F.MEM_LOCK_LOCK || v.getLsbD 0)
        ∧ t.reg R.MEM_CFG = s.reg R.MEM_CFG)
    ∧ ∀ (a : Nat) (l : List Byte) (req : Nat), l.length = 8 → s.region a = .dram → a % 8 = 0 →
        s.flag F.MEM_INJ_CTRL_ARM = true → s.injAddr = a →
        let t := (s.writeWord req a l).1
        t.flag F.MEM_INJ_CTRL_ARM = false ∧ Tab.get t.upsets a = some (injPattern (s.fld F.MEM_INJ_CTRL_NBITS))

/-- R235 to R245: GO and DISABLE, the descriptor fetch and its checks, COMPARE, the completion of a descriptor, the end
of a disable, and what a halt leaves. -/
def Obligations.DmaChannels : Prop :=
  ∀ (s : State) (ch : Fin 64) (c : DmaCh) (v : Word), Tab.get s.dmas ch.val = some c → s.isOpen 0x01 ch.val = true →
    let n := ch.val
    let next (t : State) : Host.Outcome State Fault Refusal := .next t.finish
    let running := c.state = .running
    let busy := c.state = .running ∨ c.state = .disabling
    let refused := s.modDma n (fun k => { k with cmdRej := true })
    let disabled (t : State) : State := t.modDma n (fun k => { k with state := .disabling, fetch := none })
    (v.getLsbD 0 = true →
      (busy ∧ (v.getLsbD 1 = false ∨ ¬ running) → exec (.dmaGo ch v) s = next refused)
      ∧ (running ∧ v.getLsbD 1 = true → exec (.dmaGo ch v) s = next (disabled refused))
      ∧ (¬ busy → exec (.dmaGo ch v) s = next (s.modDma n (fun k => { k with
          state := .running, code := 0, doneB := 0, mism := 0, desc := none, moved := false, fetch := some k.head }))))
    ∧ (v.getLsbD 0 = false →
      (running ∧ v.getLsbD 1 = true → exec (.dmaDisable ch v) s = next (disabled s))
      ∧ (¬ running ∨ v.getLsbD 1 = false → exec (.dmaDisable ch v) s = next s))
    ∧ (c.state ≠ .disabling → exec (.dmaDisableDone ch) s = next s)
    ∧ (c.state = .disabling ∧ c.desc = none → ∃ t : State, exec (.dmaDisableDone ch) s = next t
        ∧ (∃ k, Tab.get t.dmas n = some k ∧ k.state = .idle ∧ k.code = 8) ∧ t.mem = s.mem
        ∧ t.flt.raised = s.flt.raised ++ [210])
    ∧ (∀ d, c.state = .disabling → c.desc = some d → ∃ t : State, exec (.dmaDisableDone ch) s = next t
        ∧ (∃ k, Tab.get t.dmas n = some k ∧ k.state = .idle ∧ k.code = 8 ∧ k.desc = none)
        ∧ t.flt.raised = s.flt.raised ++ [210]
        ∧ (d.op = 2 → t.mem = s.mem)
        ∧ ∀ x, x < d.dst ∨ d.dst + dmaSpan d.dfix (dmaWidth d.dw) d.len ≤ x → t.rd8 x = s.rd8 x)
    ∧ (c.fetch = none ∨ ¬ running ∨ c.desc ≠ none ∨ s.dmaStalled n = true → exec (.dmaDescFetch ch) s = next s)
    ∧ (∀ a, running → c.fetch = some a → c.desc = none → s.dmaStalled n = false →
      let at_ := s.modDma n (fun k => { k with cur := a, doneB := 0, mism := 0, fetch := none })
      let words := s.rdBytes a 32
      (a % 32 ≠ 0 → exec (.dmaDescFetch ch) s = next (at_.dmaHalt n 5 0 0))
      ∧ (∀ t, a % 32 = 0 → at_.sysMemRead reqDma a 32 = (t, .unmapped) →
        exec (.dmaDescFetch ch) s = next (t.dmaHalt n 4 0 0))
      ∧ (∀ t x, a % 32 = 0 → at_.sysMemRead reqDma a 32 = (t, .ecc x) → exec (.dmaDescFetch ch) s = next (t.dmaHalt n 2 0 0))
      ∧ (a % 32 = 0 ∧ s.upsets = [] ∧ a + 32 ≤ s.dramTop ∧ a + 32 ≤ 0x1000000000 →
        (dmaMalformed words = true → exec (.dmaDescFetch ch) s = next (at_.dmaHalt n 5 0 0))
        ∧ (dmaMalformed words = false ∧ (dmaDescOf words).widthBad = true →
          exec (.dmaDescFetch ch) s = next (at_.dmaHalt n 6 0 0))
        ∧ (dmaMalformed words = false ∧ (dmaDescOf words).widthBad = false →
          exec (.dmaDescFetch ch) s = next (at_.modDma n (fun k => { k with
            desc := some (dmaDescOf words), moved := (dmaDescOf words).len == 0 })))))
    ∧ (∀ d, running → c.desc = some d → c.moved = false → d.op = 2 → d.len % 2 ^ d.sw = 0 → d.sfix = false → d.dfix = false →
      s.upsets = [] → d.src + d.len ≤ s.dramTop → d.src + d.len ≤ 0x1000000000 → d.dst + d.len ≤ s.dramTop →
      d.dst + d.len ≤ 0x1000000000 →
      ((∀ k < d.len, s.rd8 (d.src + k) = s.rd8 (d.dst + k)) →
        exec (.dmaCompare ch) s = next (s.modDma n (fun k => { k with moved := true, doneB := d.len })))
      ∧ (∀ m < d.len, s.rd8 (d.src + m) ≠ s.rd8 (d.dst + m) → (∀ k < m, s.rd8 (d.src + k) = s.rd8 (d.dst + k)) →
        exec (.dmaCompare ch) s = next (s.dmaHalt n 7 m m)))
    ∧ (∀ d, ¬ running ∨ c.desc = none ∨ c.moved = true ∨ c.desc = some d ∧ d.op ≠ 0 → exec (.dmaCopy ch) s = next s)
    ∧ (∀ d, ¬ running ∨ c.desc = none ∨ c.moved = true ∨ c.desc = some d ∧ d.op ≠ 1 → exec (.dmaFill ch) s = next s)
    ∧ (∀ d, ¬ running ∨ c.desc = none ∨ c.moved = true ∨ c.desc = some d ∧ d.op ≠ 2 → exec (.dmaCompare ch) s = next s)
    ∧ (c.desc = none ∨ c.moved = false ∨ ¬ running → exec (.dmaDescComplete ch) s = next s)
    ∧ (∀ d, running → c.desc = some d → c.moved = true →
      let done : DmaCh := { c with
        descs := (c.descs + 1) % 2 ^ 32, desc := none, moved := false, doneB := d.len
        mism := if d.op = 2 then 0xFFFFFFFF else c.mism
        fetch := if d.stop then none else some d.next, state := if d.stop then .stopped else .running }
      let s1 : State := { s with dmas := Tab.put s.dmas n done }
      let told (t : State) : State := (t.when d.irq (fun u => u.notify 0x01 n 1)).when d.stop (fun u => u.notify 0x01 n 2)
      (d.cpl = false ∨ c.cring = 0 → exec (.dmaDescComplete ch) s = next (told s1))
      ∧ (d.cpl = true ∧ c.cring ≠ 0 → exec (.dmaDescComplete ch) s
          = next (told (s1.hwPush (.dma n) false c.cring 2 (s1.dmaEntry n done)).1)))
    ∧ ∀ code done mism, c.cring = 0 → ∃ k, Tab.get (s.dmaHalt n code done mism).dmas n = some k
        ∧ k.state = .halted ∧ k.code = code ∧ k.doneB = done ∧ k.mism = (if code = 7 then mism else c.mism)
        ∧ k.cur = c.cur
        ∧ (s.dmaHalt n code done mism).flt.raised = s.flt.raised ++ (if 1 ≤ code ∧ code ≤ 3 then [208] else [])
          ++ (if 4 ≤ code ∧ code ≤ 6 then [209] else [])

/-! ### Talosh link and storage queue (R249 to R277) -/

/-- R251 to R261: training of a Talosh port, link packets, and what packets of each type do at a device, alone or in a
joined pair. -/
def Obligations.TaloshLink : Prop :=
  ∀ (s : State) (p : Fin 2) (l : LinkId) (q : PktIn) (v : Word) (gen width : BitVec 2) (lanes : BitVec 4) (ns : BitVec 32)
      (c : Credits),
    let n := p.val
    let k := s.pl n
    let st := s.talState n
    let next (t : State) : Host.Outcome State Fault Refusal := .next t.finish
    let en := s.flag (F.TAL_PORT_CTRL_EN n)
    let due := k.stepAt + stepLimit st ≤ s.now
    let late := k.stepAt + stepLimit st < s.now
    -- training (R251, R252)
    (st ≠ 0 ∨ en = false ∨ (∃ t0, k.failedAt = some t0 ∧ s.now < t0 + 10000000) → exec (.talPortTrainRetry p) s = next s)
    ∧ (st = 0 ∧ en = true → (∀ t0, k.failedAt = some t0 → t0 + 10000000 ≤ s.now) →
      ∃ t : State, exec (.talPortTrainRetry p) s = next t ∧ t.talState n = 1 ∧ t.flag (F.TAL_PORT_STATUS_UP n) = false)
    ∧ (st = 1 ∧ ¬ late →
      (lanes.toNat % 2 = 0 → exec (.talPortTrainStep p lanes) s = next s)
      ∧ (lanes.toNat % 2 = 1 → ∃ t : State, exec (.talPortTrainStep p lanes) s = next t ∧ t.talState n = 2
        ∧ (t.pl n).width = if lanes.toNat = 15 then 2 else if lanes.toNat % 4 = 3 then 1 else 0))
    ∧ (st = 2 ∧ ¬ late → ∃ t : State, exec (.talPortTrainStep p lanes) s = next t ∧ t.talState n = 3
        ∧ (t.pl n).granted = ⟨64, 1024, 32, 0, 64, 1024⟩ ∧ (t.pl n).width = k.width)
    ∧ (st ≠ 1 ∧ st ≠ 2 → exec (.talPortTrainStep p lanes) s = next s)
    ∧ ((st = 1 ∨ st = 2) ∧ late → exec (.talPortTrainStep p lanes) s = exec (.talPortTrainTimeout p) s)
    ∧ (¬ due ∨ st = 0 ∨ 4 ≤ st → exec (.talPortTrainTimeout p) s = next s)
    ∧ (due ∧ st = 1 ∧ s.fld (F.TAL_PORT_CTRL_GEN n) = 0 ∧ k.tryT2 = false →
      exec (.talPortTrainTimeout p) s = next (s.modLink n (fun x => { x with tryT2 := true, stepAt := s.now })))
    ∧ (due ∧ 1 ≤ st ∧ st ≤ 3 ∧ (st = 1 → s.fld (F.TAL_PORT_CTRL_GEN n) ≠ 0 ∨ k.tryT2 = true) →
      ∃ t : State, exec (.talPortTrainTimeout p) s = next t ∧ t.talState n = 0
        ∧ t.fld (F.TAL_PORT_STATUS_FAILSTEP n) = st ∧ (t.pl n).failedAt = some s.now
        ∧ t.flt.raised = s.flt.raised ++ [216 + n])
    ∧ (st = 4 ∧ 1000 < ns.toNat → ∃ t : State, exec (.talLaneLockLoss p ns) s = next t ∧ t.talState n = 0
        ∧ t.flag (F.TAL_PORT_STATUS_LOST n) = true ∧ (t.pl n).replay = [] ∧ (t.pl n).waiting = []
        ∧ t.flt.raised = s.flt.raised ++ [216 + n])
    ∧ (st = 4 ∧ ns.toNat ≤ 1000 ∨ st = 0 → exec (.talLaneLockLoss p ns) s = next s)
    ∧ (1 ≤ st ∧ st ≤ 3 → ∃ t : State, exec (.talLaneLockLoss p ns) s = next t ∧ t.talState n = 0
        ∧ t.fld (F.TAL_PORT_STATUS_FAILSTEP n) = st ∧ t.flt.raised = s.flt.raised ++ [216 + n])
    ∧ (bits v.toNat 1 2 = 3 ∨ bits v.toNat 3 2 = 3 → exec (.talRetrain p v) s = next s)
    ∧ (bits v.toNat 1 2 ≠ 3 ∧ bits v.toNat 3 2 ≠ 3 →
      let w := s.plainWrite (R.TAL_PORT_CTRL n) v
      (bits v.toNat 0 1 = 1 ∧ (bits v.toNat 5 1 = 1 ∨ st = 0 ∧ k.failedAt = none) →
        ∃ t : State, exec (.talRetrain p v) s = next t ∧ t.talState n = 1)
      ∧ (bits v.toNat 0 1 = 1 ∧ bits v.toNat 5 1 = 0 ∧ (st ≠ 0 ∨ k.failedAt ≠ none) → exec (.talRetrain p v) s = next w)
      ∧ (bits v.toNat 0 1 = 0 ∧ st = 0 → exec (.talRetrain p v) s = next w)
      ∧ (bits v.toNat 0 1 = 0 ∧ st ≠ 0 → ∃ t : State, exec (.talRetrain p v) s = next t ∧ t.talState n = 0))
    -- link packets (R256, R257)
    ∧ (q.crcOk n = true ∧ q.reserved = false →
      let caps : Instr := .caps (if n = 0 then .tu else .td) q gen width c
      let g := min gen.toNat (s.talGen n)
      (st = 3 → ∃ t : State, exec caps s = next t ∧ t.talState n = 4
        ∧ t.flag (F.TAL_PORT_STATUS_UP n) = true ∧ (t.pl n).credit = c ∧ t.fld (F.TAL_PORT_STATUS_GENUP n) = g
        ∧ t.fld (F.TAL_PORT_STATUS_WIDTH n)
          = if g = 1 then 0 else min (min width.toNat k.width) (s.fld (F.TAL_PORT_CTRL_MAXW n)))
      ∧ (st ≠ 3 → exec caps s = next s))
    ∧ (let caps : Instr := .caps (if n = 0 then .tu else .td) q gen width c
      (st ≠ 3 ∧ s.linkUp n = false → exec caps s = next s)
      ∧ (st = 3 ∨ s.linkUp n = true →
        (q.crcOk n = false → exec caps s = next (s.discardPkt n))
        ∧ (q.crcOk n = true ∧ q.reserved = true → exec caps s = next (s.protoError n))))
    ∧ (q.crcOk 2 = true ∧ q.reserved = false →
      exec (.caps .acd q gen width c) s
        = next (if s.acdState = 3 then s.modLink 2 (fun x => { x with credit := c }) else s))
    ∧ (s.linkHears l.idx = false → exec (.talCredit l q c) s = next s ∧ exec (.ack l q) s = next s
      ∧ exec (.nak l q) s = next s ∧ exec (.replayTimeout l) s = next s)
    ∧ (s.linkHears l.idx = true →
      (q.crcOk l.idx = false → exec (.talCredit l q c) s = next (s.discardPkt l.idx)
        ∧ exec (.ack l q) s = next (s.discardPkt l.idx) ∧ exec (.nak l q) s = next (s.discardPkt l.idx))
      ∧ (q.crcOk l.idx = true ∧ q.reserved = true → exec (.talCredit l q c) s = next (s.protoError l.idx)
        ∧ exec (.ack l q) s = next (s.protoError l.idx) ∧ exec (.nak l q) s = next (s.protoError l.idx))
      ∧ (q.crcOk l.idx = true ∧ q.reserved = false →
        exec (.talCredit l q c) s = next ((s.modLink l.idx (fun x =>
          { x with credit := ((x.credit.add 0 c.ph c.pd).add 1 c.nh c.nd).add 2 c.ch c.cd })).drainLink l.idx)
        ∧ exec (.ack l q) s = next (s.ackUpTo l.idx (q.pkt.addr % 4096))
        ∧ exec (.nak l q) s = next ((s.ackUpTo l.idx (q.pkt.addr % 4096)).replayAll l.idx))
      ∧ ((s.pl l.idx).lastAck + 100000 ≤ s.now → exec (.replayTimeout l) s = next (s.replayAll l.idx))
      ∧ (s.now < (s.pl l.idx).lastAck + 100000 → exec (.replayTimeout l) s = next s))
    ∧ ((s.pl l.idx).replay = [] → s.replayAll l.idx = s)
    ∧ ((s.pl l.idx).replay ≠ [] ∧ (s.pl l.idx).replays < 4 →
      ((s.replayAll l.idx).pl l.idx).replay = (s.pl l.idx).replay
      ∧ ((s.replayAll l.idx).pl l.idx).replayCnt = min 4095 ((s.pl l.idx).replayCnt + 1))
    ∧ ((s.pl l.idx).replay ≠ [] ∧ 4 ≤ (s.pl l.idx).replays → s.replayAll l.idx = s.linkLose l.idx)
    -- packets (R253 to R259)
    ∧ (let rows : List (Nat × Instr) := [(1, .regWr q), (2, .regRd q), (4, .memWr q), (5, .memRd q), (9, .dataPkt q)]
      let seqOk (m : Nat) : Prop := q.crcOk m = true ∧ q.pkt.seq % 4096 = (s.pl m).rxSeq
      let legal (m : Nat) : Prop := q.reserved = false ∧ typeKnown m q.pkt.type = true
        ∧ (s.pl m).granted.covers (pktClass m q.pkt.type) (pktCost q.pkt) = true
      (∀ x ∈ rows, s.linkUp 0 = false ∨ tuRow x.1 q.pkt = false → exec x.2 s = next s)
      ∧ (∀ x ∈ rows, s.linkUp 0 = true → tuRow x.1 q.pkt = true →
        (¬ seqOk 0 → exec x.2 s = next (s.discardPkt 0))
        ∧ (seqOk 0 ∧ ¬ legal 0 → exec x.2 s = next (s.protoError 0)))
      ∧ (s.linkUp 1 = false → exec (.tdPacket q) s = next s)
      ∧ (s.linkUp 1 = true → (¬ seqOk 1 → exec (.tdPacket q) s = next (s.discardPkt 1))
        ∧ (seqOk 1 ∧ ¬ legal 1 → exec (.tdPacket q) s = next (s.protoError 1)))
      ∧ (let taken (m : Nat) : State := s.modLink m (fun x => { x with
          rxSeq := (x.rxSeq + 1) % 4096, naked := false, unacked := 0, linkOut := [⟨0x32, 0, 0, 0, 0, x.rxSeq, []⟩]
          granted := x.granted.sub (pktClass m q.pkt.type) (pktCost q.pkt).1 (pktCost q.pkt).2 })
        (s.linkUp 1 = true ∧ seqOk 1 ∧ legal 1 →
          exec (.tdPacket q) s = next ((if q.pkt.dev = s.devNum then ((taken 1).setFlag (F.TAL_PORT_STATUS_DUP 1)).raise 219
            else taken 1).forward 1 0 q.pkt))
        ∧ (s.linkUp 0 = true ∧ seqOk 0 ∧ legal 0 →
          let r := if s.isActive = true then (taken 0).sendAcd 0x03 0 q.bytes else taken 0
          let done (t : State) : Host.Outcome State Fault Refusal := next (t.giveCredit 0 q.pkt)
          (q.pkt.dev ≠ s.devNum →
            (s.linkUp 1 = true → ∀ x ∈ rows, tuRow x.1 q.pkt = true → exec x.2 s = next ((taken 0).forward 0 1 q.pkt))
            ∧ (s.linkUp 1 = false →
              (q.pkt.type = 2 → exec (.regRd q) s
                = done (((taken 0).sendPkt 0 ⟨3, q.pkt.dev, 0, q.pkt.tag, 0, 4, []⟩).raise 220))
              ∧ (q.pkt.type = 5 → exec (.memRd q) s
                = done (((taken 0).sendPkt 0 ⟨6, q.pkt.dev, 0, q.pkt.tag, 0, 4, []⟩).raise 220))
              ∧ (∀ x ∈ rows, tuRow x.1 q.pkt = true → q.pkt.type ≠ 2 → q.pkt.type ≠ 5 →
                exec x.2 s = done (((taken 0).addSat (F.TAL_PORT_DROP_UNREACH 0) 1).raise 220))))
          ∧ (q.pkt.dev = s.devNum ∧ s.isShadow = true → ∀ x ∈ rows, tuRow x.1 q.pkt = true → exec x.2 s = done (taken 0))
          ∧ (q.pkt.dev = s.devNum ∧ s.isShadow = false →
            (q.pkt.type = 1 →
              let len := q.pkt.payload.length
              let mapped := regsMapped q.pkt.addr len
              (regLenOk len = false ∨ mapped = false → exec (.regWr q) s = done (r.pktFailed 0))
              ∧ (regLenOk len = true ∧ mapped = true ∧ q.pkt.addr % 4 ≠ 0 → exec (.regWr q) s = done ((r.raise 6).pktFailed 0))
              ∧ (regLenOk len = true ∧ mapped = true ∧ q.pkt.addr % 4 = 0 →
                exec (.regWr q) s = done (r.each (List.range (len / 4)) (fun t i =>
                  (t.regAccess true (q.pkt.addr - regBase + 4 * i) 4 true (BitVec.ofNat 32 (entLe q.pkt.payload (4 * i) 4))).1))))
            ∧ (q.pkt.type = 2 →
              let mapped := regsMapped q.pkt.addr q.pkt.len
              (regLenOk q.pkt.len = false → exec (.regRd q) s = done (r.sendHost 3 q.pkt.tag 3 []))
              ∧ (regLenOk q.pkt.len = true ∧ mapped = false → exec (.regRd q) s = done (r.sendHost 3 q.pkt.tag 1 []))
              ∧ (regLenOk q.pkt.len = true ∧ mapped = true ∧ q.pkt.addr % 4 ≠ 0 →
                exec (.regRd q) s = done ((r.raise 6).sendHost 3 q.pkt.tag 3 []))
              ∧ (regLenOk q.pkt.len = true ∧ mapped = true ∧ q.pkt.addr % 4 = 0 →
                let t := r.readRegs (q.pkt.addr - regBase) (q.pkt.len / 4)
                exec (.regRd q) s = done (t.1.sendHost 3 q.pkt.tag 0 t.2)))
            ∧ (q.pkt.type = 4 →
              let l := q.pkt.payload
              let bad := l.length % 4 ≠ 0 ∨ 4096 < l.length ∨ s.inDram q.pkt.addr l.length = false
              (bad → exec (.memWr q) s = done (r.pktFailed 0))
              ∧ (¬ bad → let w := r.memWriteWords reqTalosh q.pkt.addr l
                exec (.memWr q) s = done (if w.2 = true then w.1.pktFailed 0 else w.1))
              ∧ (¬ bad ∧ l ≠ [] ∧ s.Clean → exec (.memWr q) s = done (r.wrBytes q.pkt.addr l)))
            ∧ (q.pkt.type = 5 →
              let bad := q.pkt.len % 4 ≠ 0 ∨ q.pkt.addr % 4 ≠ 0 ∨ q.pkt.len < 4 ∨ 4096 < q.pkt.len
                ∨ 4096 < q.pkt.addr % 4096 + q.pkt.len
              let there := s.region q.pkt.addr = .dram ∨ s.region q.pkt.addr = .mram
              (bad → exec (.memRd q) s = done (r.sendHost 6 q.pkt.tag 3 []))
              ∧ (¬ bad ∧ ¬ there → exec (.memRd q) s = done (r.sendHost 6 q.pkt.tag 1 []))
              ∧ (¬ bad ∧ there →
                (∀ t b, r.memRead reqTalosh q.pkt.addr q.pkt.len = (t, .data b) →
                  exec (.memRd q) s = done (t.sendHost 6 q.pkt.tag 0 b))
                ∧ (∀ t, r.memRead reqTalosh q.pkt.addr q.pkt.len = (t, .unmapped) →
                  exec (.memRd q) s = done (t.sendHost 6 q.pkt.tag 1 []))
                ∧ (∀ t a, r.memRead reqTalosh q.pkt.addr q.pkt.len = (t, .ecc a) →
                  exec (.memRd q) s = done (t.sendHost 6 q.pkt.tag 2 []))
                ∧ (s.inDram q.pkt.addr q.pkt.len = true ∧ q.pkt.addr + q.pkt.len ≤ 0x1000000000 ∧ s.upsets = [] →
                  exec (.memRd q) s = done (r.sendHost 6 q.pkt.tag 0 (s.rdBytes q.pkt.addr q.pkt.len)))))
            ∧ (q.pkt.type = 9 →
              let cmd := s.stq.cmds.find? (fun x => x.accepted && x.opc == 1 && !x.local_ && x.ended == none
                && x.xtag == q.pkt.tag)
              let off := q.pkt.addr
              let len := q.pkt.payload.length
              (cmd = none → exec (.dataPkt q) s = done (if s.stq.deadTags.contains q.pkt.tag then r else r.raise 229))
              ∧ (∀ x, cmd = some x →
                let bad := 4096 * x.offered < off + len
                  ∨ x.got.any (fun g => decide (g.1 < off + len) && decide (off < g.1 + g.2)) = true
                (len = 0 → exec (.dataPkt q) s = done r)
                ∧ (len ≠ 0 ∧ bad → exec (.dataPkt q) s = done (r.xferEnd x))
                ∧ (len ≠ 0 ∧ ¬ bad → exec (.dataPkt q) s
                  = done (((((r.dataToSlots x off q.pkt.payload).modCmd x.aseq (fun y => { y with
                    got := y.got ++ [(off, len)], offers := y.offers.map (Offer.receive off len) })).stageArrived
                      x.aseq).stqOffer x.aseq).checkWrite x.aseq))))
            ∧ (tuRow 9 q.pkt = true ∧ q.pkt.type ≠ 9 → exec (.dataPkt q) s = done r)))))
    -- events and the lock (R258, R261)
    ∧ (bits v.toNat 0 16 < 0x8000 → exec (.evtTx v) s = next (s.setFlag F.TAL_STATUS_CMD_REJ))
    ∧ (0x8000 ≤ bits v.toNat 0 16 → exec (.evtTx v) s = next (if s.isShadow = true then s
        else s.sendPkt 0 ⟨0x0A, s.devNum, 8, 0, 0, 0, leBytes 4 (bits v.toNat 0 16) ++ leBytes 4 (s.reg R.TAL_EVT_ARG).toNat⟩))
    ∧ ∃ t : State, exec (.talLock v) s = next t ∧ t.flag F.TAL_LOCK_LOCK = (s.flag F.TAL_LOCK_LOCK || v.getLsbD 0)
        ∧ t.reg R.TAL_DEVNUM = s.reg R.TAL_DEVNUM

/-- R262 to R266, R271 to R275: the Talosh 1 port, volumes and their map, and the storage queue's commands from fetch to
completion. -/
def Obligations.StorageQueue : Prop :=
  ∀ (s : State) (v aseq : Word) (psync partnerDone : Bool) (words got : List (BitVec 16)),
    let next (t : State) : Host.Outcome State Fault Refusal := .next t.finish
    let t1 := s.t1
    let en := s.flag F.TAL_T1_CFG_EN
    let a := aseq.toNat
    -- the Talosh 1 port (R262 to R264)
    (en = false → exec (.t1LineStart psync got) s = next s)
    ∧ (en = true →
      let s1 := if t1.lineOpen = true then s.t1Finish (got.take (s.fld F.TAL_T1_CFG_WORDS - 1)) else s
      let slots := s1.fld F.TAL_T1_SLOTS_SLOTS
      (slots ≤ s1.t1.used →
        exec (.t1LineStart psync got) s
          = next ((State.setFlag { s1 with t1 := { s1.t1 with drops := min 65535 (s1.t1.drops + 1) } }
            F.TAL_T1_STATUS_OVR).raise 221))
      ∧ (s1.t1.used < slots →
        exec (.t1LineStart psync got) s = next { s1 with t1 := { s1.t1 with
          lineOpen := true, page := psync, tLsync := s1.now, slot := s1.t1.nextSlot
          nextSlot := (s1.t1.nextSlot + 1) % slots, used := s1.t1.used + 1 } }))
    ∧ (t1.lineOpen = false → exec (.t1LineComplete words) s = next s)
    ∧ (t1.lineOpen = true → ∃ t : State, exec (.t1LineComplete words) s = next t ∧ t.t1.lineOpen = false
        ∧ t.t1.lines = (t1.lines + 1) % 2 ^ 32)
    ∧ (let n := s.fld F.TAL_T1_CFG_WORDS
      let base := s.addr40 R.TAL_T1_BUF_LO R.TAL_T1_BUF_HI + 2 * n * t1.slot
      t1.lineOpen = true ∧ words.length = n ∧ 0 < n ∧ s.Clean ∧ base + 2 * n ≤ s.dramTop ∧ base + 2 * n ≤ 0x1000000000
          ∧ s.usableRing (s.reg R.TAL_T1_RING).toNat 2 = none →
        exec (.t1LineComplete words) s
          = next { s.wrBytes base ((words.map (fun w => leBytes 2 w.toNat)).flatten) with
              t1 := { t1 with lineOpen := false, lines := (t1.lines + 1) % 2 ^ 32 } })
    ∧ exec (.t1Rel v) s = next { s with t1 := { t1 with used := t1.used - bits v.toNat 0 16 } }
    -- volumes (R265, R266)
    ∧ (∀ u b, s.fld (F.STQ_VOL_CFG_DCH u) ≠ 0 → s.volBlockOf u (s.volMap u b).1 (s.volMap u b).2 = b
        ∧ (s.volMap u b).1 ∈ s.volChans u)
    ∧ (let u := bits v.toNat 0 3
      let reason := s.loadReason u
      (bits v.toNat 4 1 = bits v.toNat 5 1 → exec (.volLoad v) s = next s ∧ exec (.volUnload v) s = next s)
      ∧ (bits v.toNat 4 1 = 1 ∧ bits v.toNat 5 1 = 0 →
        (reason ≠ 0 → ∃ t : State, exec (.volLoad v) s = next t ∧ t.flag F.STQ_VOLSTAT_REFUSED = true
          ∧ t.flag F.STQ_VOLSTAT_DONE = false ∧ t.fld F.STQ_VOLSTAT_REASON = reason
          ∧ t.flt.raised = s.flt.raised ++ [228] ∧ t.reg (R.STQ_VOL_CFG u) = s.reg (R.STQ_VOL_CFG u))
        ∧ (reason = 0 → ∃ t : State, exec (.volLoad v) s = next t ∧ t.volLoaded u = true
          ∧ t.flag F.STQ_VOLSTAT_DONE = true ∧ t.flag F.STQ_VOLSTAT_REFUSED = false))
      ∧ (bits v.toNat 4 1 = 0 ∧ bits v.toNat 5 1 = 1 →
        (s.volLoaded u = false → exec (.volUnload v) s = next s)
        ∧ (s.volLoaded u = true ∧ s.volBusy u = true → ∃ t : State, exec (.volUnload v) s = next t
          ∧ t.flag F.STQ_VOLSTAT_REFUSED = true ∧ t.fld F.STQ_VOLSTAT_REASON = 6 ∧ t.volLoaded u = true)
        ∧ (s.volLoaded u = true ∧ s.volBusy u = false → ∃ t : State, exec (.volUnload v) s = next t
          ∧ t.volLoaded u = false ∧ t.flag F.STQ_VOLSTAT_DONE = true))
      ∧ (s.variant.hdas = 0 → reason = 1)
      ∧ (s.variant.hdas ≠ 0 → s.fld (F.STQ_VOL_CFG_DCH u) = 0 → reason = 3))
    ∧ (∃ t : State, exec (.stqLock v) s = next t ∧ t.flag F.STQ_LOCK_LOCK = (s.flag F.STQ_LOCK_LOCK || v.getLsbD 0))
    -- commands (R271)
    ∧ (1024 ≤ s.cmdsUsed ∨ 256 ≤ s.locksUsed ∨ s.aborting = true ∨ s.stqNext = none → exec .stqFetch s = next s)
    ∧ (∀ i t n r s1 l, s.cmdsUsed < 1024 → s.locksUsed < 256 → s.aborting = false → s.stqNext = some (i, t, n, r) →
      (s.modStq (fun q => { q with nextStream := (i + 1) % 256 })).ringPop n r = (s1, .entry l) →
      let c : StqCmd := { parseCmd i l with sqCons := (r.cons + 1) % 2 ^ 32 }
      (∀ x, s1.cmdStatus t c l = some x → exec .stqFetch s = next (State.pushCpls (s1.modStq (fun q => { q with
        cmds := q.cmds ++ [{ c with ended := some (x, 0xFFFFFFFF) }] }))))
      ∧ (s1.cmdStatus t c l = none → ∃ s2 : State, exec .stqFetch s = next s2
        ∧ s2.stq.nextAseq = (s1.stq.nextAseq + 1) % 2 ^ 32
        ∧ ∃ k, s2.stq.cmds = s1.stq.cmds ++ [k] ∧ k.accepted = true ∧ k.aseq = s1.stq.nextAseq ∧ k.stream = i
          ∧ k.opc = c.opc ∧ k.vol = c.vol ∧ k.lba = c.lba ∧ k.nblk = c.nblk ∧ k.sqCons = (r.cons + 1) % 2 ^ 32
          ∧ (k.locked = true ↔ c.opc = 1 ∨ c.opc = 2)))
    ∧ (∀ i t n r s1 x, s.cmdsUsed < 1024 → s.locksUsed < 256 → s.aborting = false → s.stqNext = some (i, t, n, r) →
      (s.modStq (fun q => { q with nextStream := (i + 1) % 256 })).ringPop n r = (s1, x) → (∀ l, x ≠ .entry l) →
      exec .stqFetch s = next s1)
    ∧ (∀ t c l, c.opc = 1 ∨ c.opc = 2 →
      (s.cmdMalformed t c l = true → s.cmdStatus t c l = some 3)
      ∧ (s.cmdMalformed t c l = false →
        (s.volLoaded c.vol = false → s.cmdStatus t c l = some 1)
        ∧ (s.volLoaded c.vol = true →
          (c.nblk = 0 → s.cmdStatus t c l = some 0)
          ∧ (c.nblk ≠ 0 ∧ s.volCap c.vol < c.lba + c.nblk → s.cmdStatus t c l = some 2)
          ∧ (c.nblk ≠ 0 ∧ c.lba + c.nblk ≤ s.volCap c.vol →
            (s.volRefuses c.vol t.firm = true → s.cmdStatus t c l = some 8)
            ∧ (s.volRefuses c.vol t.firm = false →
              (c.opc = 1 ∧ s.volInWindow c.vol = false → s.cmdStatus t c l = some 7)
              ∧ (c.opc = 2 ∨ s.volInWindow c.vol = true → s.cmdStatus t c l = none))))))
    -- from acceptance to completion (R272 to R275)
    ∧ (s.stqCmd a = none → exec (.stqWrite aseq) s = next s ∧ exec (.stqRead aseq) s = next s
        ∧ exec (.flush aseq) s = next s ∧ exec (.identify aseq) s = next s ∧ exec (.commandBegin aseq) s = next s
        ∧ exec (.xferTimeout aseq) s = next s ∧ exec (.stqReadDone aseq) s = next s
        ∧ exec (.flushDone aseq partnerDone) s = next s)
    ∧ ∀ c, s.stqCmd a = some c →
      (c.locked = false ∨ c.begun = true ∨ s.rangeClear c = false → exec (.commandBegin aseq) s = next s)
      ∧ (c.locked = true ∧ c.begun = false ∧ s.rangeClear c = true →
        exec (.commandBegin aseq) s = next ((s.modCmd a (fun k => { k with begun := true })).stqOffer a))
      ∧ (c.opc ≠ 1 ∨ c.begun = false → exec (.stqWrite aseq) s = next s)
      ∧ (c.opc = 1 ∧ c.begun = true ∧ c.local_ = false →
        (c.nblk ≤ c.offered →
          (c.done = c.nblk ∧ (s.isActive = true → c.unheld = []) →
            exec (.stqWrite aseq) s = next (s.endCmd a 0 0xFFFFFFFF))
          ∧ (c.done ≠ c.nblk ∨ s.isActive = true ∧ c.unheld ≠ [] → exec (.stqWrite aseq) s = next s))
        ∧ (c.offered < c.nblk → exec (.stqWrite aseq) s = next ((s.stqOffer a).checkWrite a)))
      ∧ (c.opc = 1 ∧ c.begun = true ∧ c.local_ = true → exec (.stqWrite aseq) s = next ((s.localWrite a).checkWrite a))
      ∧ (c.opc ≠ 2 ∨ c.begun = false ∨ c.queued = true → exec (.stqRead aseq) s = next s)
      ∧ (c.opc = 2 ∧ c.begun = true ∧ c.queued = false →
        (s.stq.staged = [] →
          exec (.stqRead aseq) s = next ((s.queueReads c c.todo).modCmd a (fun k => { k with queued := true })))
        ∧ (∀ i e, c.todo = [i] → s.stagedOf c.vol (c.lba + i) = some e → exec (.stqRead aseq) s
          = next (((s.serveStaged a i e).queueReads c []).modCmd a (fun k => { k with queued := true }))))
      ∧ (c.opc ≠ 2 ∨ c.queued = false ∨ c.todo ≠ [] → exec (.stqReadDone aseq) s = next s)
      ∧ (c.opc = 2 ∧ c.queued = true ∧ c.todo = [] →
        (c.media ≠ [] → exec (.stqReadDone aseq) s = next (s.endCmd a 5 (listMin c.media)))
        ∧ (c.media = [] ∧ c.ecc ≠ [] → exec (.stqReadDone aseq) s = next (s.endCmd a 10 (listMin c.ecc)))
        ∧ (c.media = [] ∧ c.ecc = [] ∧ c.unwritten ≠ [] →
          exec (.stqReadDone aseq) s = next (s.endCmd a 4 (listMin c.unwritten)))
        ∧ (c.media = [] ∧ c.ecc = [] ∧ c.unwritten = [] →
          exec (.stqReadDone aseq) s = next (s.endCmd a 0 0xFFFFFFFF)))
      ∧ (c.opc = 3 → exec (.flush aseq) s = next (s.modCmd a (fun k => { k with begun := true })))
      ∧ (c.opc ≠ 3 → exec (.flush aseq) s = next s)
      ∧ (let left := s.flushLeft c
        let waits := s.flushWaits c = true ∨ (s.isActive = true ∧ partnerDone = false)
          ∨ ∃ e ∈ left, s.inWindow (s.volMap e.vol e.vblk).1 = true
        let lost := ∃ e ∈ s.stq.lostBlocks, c.covers e.2.1 = true ∧ aseqBefore e.1 c.aseq = true
        (c.opc ≠ 3 ∨ c.begun = false ∨ waits → exec (.flushDone aseq partnerDone) s = next s)
        ∧ (c.opc = 3 ∧ c.begun = true ∧ ¬ waits →
          (left ≠ [] → exec (.flushDone aseq partnerDone) s = next (s.endCmd a 7 0xFFFFFFFF))
          ∧ (left = [] ∧ lost → exec (.flushDone aseq partnerDone) s = next (s.endCmd a 10 0xFFFFFFFF))
          ∧ (left = [] ∧ ¬ lost → exec (.flushDone aseq partnerDone) s = next (s.endCmd a 0 0xFFFFFFFF))))
      ∧ (c.opc = 4 → exec (.identify aseq) s = next ((s.toDest c 0 s.identifyData).endCmd a 0 0xFFFFFFFF))
      ∧ (c.opc ≠ 4 → exec (.identify aseq) s = next s)
      ∧ ((∀ o ∈ c.offers, o.missing = 0 ∨ s.now < o.tOffer + s.trTmo) → exec (.xferTimeout aseq) s = next s)
      ∧ ((∃ o ∈ c.offers, 0 < o.missing ∧ o.tOffer + s.trTmo ≤ s.now) →
        exec (.xferTimeout aseq) s = next (s.xferEnd c))

/-! ### Disk channels and servos (R281 to R320) -/

/-- R282 to R285, R292: a sector recorded for a channel block, read back without an error, is recovered with its user bytes
and its NODATA mark, and a request for any block with another CBLK that shares its scrambler seed recovers nothing. -/
def Obligations.SectorsDecode : Prop :=
  ∀ (cblk other : Nat) (nodata : Bool) (l : List Byte), l.length = 4096 →
    sectorDecode cblk (sectorBits cblk nodata l / 2 ^ 176 % 2 ^ 36864) = .user l nodata
    ∧ sectorBits cblk nodata l < 2 ^ 37104
    ∧ (other % 65535 = cblk % 65535 → other % 2 ^ 48 ≠ cblk % 2 ^ 48 →
      sectorDecode other (sectorBits cblk nodata l / 2 ^ 176 % 2 ^ 36864) = .failed)

/-- R289 to R320: requests popped and checked, revolutions, the geometry applied and released, the recovery sweep; selvage
frames and samples, the VCM and its watchdog, the target, the guard, parking and removal. -/
def Obligations.DisksAndServos : Prop :=
  ∀ (s : State) (d : Fin 8) (h : Fin 4) (v : Word) (reads : List SectorRead) (fr : ServoFrame) (sa sb : Int)
    (present : Bool) (held : BitVec 40), s.hasDch d.val = true → s.hasHda h.val = true →
    let n := d.val
    let p := n / 2
    let a := n % 2
    let c := vget s.dsk n
    let next (t : State) : Host.Outcome State Fault Refusal := .next t.finish
    let ready := s.flag (F.DSK_STATUS_READY n)
    let parked := s.flag (F.SRV_ASTAT_PARKED p a)
    -- requests (R299, R300)
    exec (.stage d) s = next ((s.dskPop n (fun op => op == 0 || decide (2 < op))).reaim n)
    ∧ exec (.fread d) s = next ((s.dskPop n (· == 1)).reaim n)
    ∧ exec (.format d) s = next ((s.dskPop n (· == 2)).reaim n)
    ∧ (∀ fits, s.flag (F.DSK_CTRL_EN n) = false ∨ s.reg (R.DSK_SQ n) = 0 ∨ 1024 ≤ s.dskHeld n ∨ s.drying = true → s.dskPop n fits = s)
    ∧ (∀ fits k r t l, s.flag (F.DSK_CTRL_EN n) = true → s.reg (R.DSK_SQ n) ≠ 0 → s.dskHeld n < 1024 → s.drying = false →
      s.usableRing (s.reg (R.DSK_SQ n)).toNat 2 = some (k, r) → r.count ≠ 0 →
      fits (s.rdLe (r.entryAddr r.cons) 4 % 16) = true → s.ringPop k r = (t, .entry l) →
      let q := parseReq l
      let u := t.modDsk n (fun x => { x with reqs := x.reqs ++ [q] })
      (t.reqStatus n q l = none → s.dskPop n fits = u)
      ∧ ∀ st, t.reqStatus n q l = some st → s.dskPop n fits
          = (u.dskComplete n (vget t.dsk n).reqs.length st).dropDone n)
    ∧ (∀ q l, let last := lget q.blks 0 + q.count
      (s.reqMalformed q l = true → s.reqStatus n q l = some 5)
      ∧ (s.reqMalformed q l = false → s.chanOffline n = true → s.reqStatus n q l = some 7)
      ∧ (s.reqMalformed q l = false → s.chanOffline n = false →
        (q.rsv = false ∧ (ready = false ∨ s.chanCap n < last) → s.reqStatus n q l = some 8)
        ∧ (q.op ≠ 0 ∧ (q.rsv = true ∨ ready = true ∧ last ≤ s.chanCap n) → s.reqStatus n q l = none)
        ∧ (q.op = 0 ∧ (q.rsv = true ∨ ready = true ∧ last ≤ s.chanCap n) →
          (s.rlock p = false ∨ s.slotStart p q.slot < 20000 → s.reqStatus n q l = some 3)
          ∧ (s.rlock p = true ∧ 20000 ≤ s.slotStart p q.slot → s.reqStatus n q l
            = if s.oneTrack n q = false ∨ c.reqs.any (fun r => r.booked && !r.started && r.slot == q.slot
              && s.reqTrack n r 0 != s.reqTrack n q 0) = true then some 4 else none))))
    ∧ (let k := s.nextBooking n ((s.slotNow p + 1) % 2 ^ 32)
      (c.pass ≠ none ∨ k = none → s.reaim n = s) ∧ (∀ b, c.pass = none ∧ k = some b → s.reaim n = s.aimAt n b))
    -- revolutions and the ladder (R295, R296)
    ∧ exec (.diskRevolution d reads) s = next (s.revolution n reads)
    ∧ (c.pass = none → s.revolution n reads = s.planPass n ((s.slotNow p + 1) % 2 ^ 32))
    ∧ (∀ g, c.pass = some g → s.revolution n reads
      = if s.passOver n g then (s.endPass n g reads).planPass n ((s.slotNow p + 1) % 2 ^ 32) else s)
    ∧ (c.reqs = [] ∧ s.stq.staged = [] → ∀ k, s.planPass n k = s)
    ∧ (s.fld (F.DSK_LADDER_SKIP n) = 0 → ∀ k < 9, s.nextStep n k = if k < 8 then some (k + 1) else none)
    -- geometry and the sweep (R289, R306)
    ∧ (let w := s.plainWrite (R.DSK_CTRL n) v
      (bits v.toNat 1 1 = 0 ∧ bits v.toNat 2 1 = 0 → exec (.dskApply d v) s = next w ∧ exec (.dskRelease d v) s = next w)
      ∧ (bits v.toNat 1 1 = 1 ∧ bits v.toNat 2 1 = 0 →
        exec (.dskApply d v) s = next (effDskApply n w)
        ∧ (ready = true ∨ c.sweeping = true → effDskApply n s = s)
        ∧ (ready = false ∧ c.sweeping = false → s.geomOk n = false →
          effDskApply n s = s.setFlag (F.DSK_STATUS_CFG_ERR n))
        ∧ (ready = false ∧ c.sweeping = false → s.geomOk n = true →
          (vget (effDskApply n s).dsk n).cap = s.geomCap n ∧ (vget (effDskApply n s).dsk n).sweeping = true
          ∧ (effDskApply n s).fld (F.DSK_RPM_RPM_MAX n) = (s.geomRpm n).1
          ∧ (effDskApply n s).fld (F.DSK_RPM_RPM_MIN n) = (s.geomRpm n).2
          ∧ (effDskApply n s).flag (F.DSK_STATUS_READY n) = false))
      ∧ (bits v.toNat 1 1 = 0 ∧ bits v.toNat 2 1 = 1 →
        exec (.dskRelease d v) s = next (effDskRelease n w)
        ∧ ((s.volOfChan n).isSome = true ∨ s.dskPending n ≠ 0 → effDskRelease n s = s)
        ∧ (s.volOfChan n = none ∧ s.dskPending n = 0 →
          (effDskRelease n s).flag (F.DSK_STATUS_READY n) = false ∧ (effDskRelease n s).chanCap n = 0
          ∧ (vget (effDskRelease n s).dsk n).sweeping = false)))
    ∧ (c.sweeping = false ∨ s.sweepWaits n reads = true → exec (.recoverySweepDone d reads) s = next s)
    ∧ (c.sweeping = true ∧ s.sweepWaits n reads = false → ∃ t : State, exec (.recoverySweepDone d reads) s = next t
        ∧ t.flag (F.DSK_STATUS_READY n) = true ∧ (vget t.dsk n).sweeping = false ∧ (vget t.dsk n).intents = []
        ∧ t.fld (F.DSK_TORN_ENTRIES n) = 0 ∧ (c.cap < 2 ^ 48 → t.chanCap n = c.cap))
    -- selvage frames and samples (R312 to R316)
    ∧ (fr.decode = none ∧ (s.act n).badRun < 7 → exec (.servoFrame d fr) s
        = next ((s.addSat (F.SRV_ACNT_BADFR p a) 1).modAct n (fun k => { k with badRun := k.badRun + 1, okRun := 0 })))
    ∧ (fr.decode = none ∧ 7 ≤ (s.act n).badRun → ∃ t : State, exec (.servoFrame d fr) s = next t
        ∧ t.flag (F.SRV_ASTAT_SEL_LOST p a) = true ∧ (s.flag (F.SRV_ASTAT_SEL_LOST p a) = false → t.settled n = false
        ∧ t.flag (F.SRV_ASTAT_GUARD p a) = true ∧ (t.act n).selLostAt = if parked then none else some s.now))
    ∧ (∀ frame cyl, fr.decode = some (frame, cyl) → ∃ t : State, exec (.servoFrame d fr) s = next t
        ∧ (t.act n).cyl = cyl ∧ (t.act n).frame = frame ∧ (t.act n).badRun = 0 ∧ (t.act n).tFrame = s.now
        ∧ (t.act n).fresh = true ∧ t.flag (F.SRV_ASTAT_SEL_LOST p a) = false
        ∧ (let x : Int := if fr.a.toNat + fr.b.toNat = 0 then sx 8 s.freeWord.toNat
              else clampInt (-128) 127 (divRound (128 * ((fr.a.toNat : Int) - fr.b.toNat)) (fr.a.toNat + fr.b.toNat))
          (t.act n).pes = clampInt (-32767) 32767 (256 * cyl + x
            - s.sfld (F.SRV_RDOFF_RDOFF p (16 * a + (s.tgtOf n).2.1)) - (256 * (s.tgtOf n).1 + sx 8 (s.tgtOf n).2.2)))
        ∧ (s.settled n = true ∧ cyl ≠ (s.tgtOf n).1 → t.settled n = false ∧ t.flag (F.SRV_ASTAT_OFFCYL p a) = true
          ∧ t.flag (F.SRV_ASTAT_GUARD p a) = true))
    ∧ (s.now % 5000 ≠ 0 ∨ (s.act n).sampleAt = some s.now → exec (.servoSample d) s = next s)
    ∧ (s.now % 5000 = 0 ∧ (s.act n).sampleAt ≠ some s.now →
      let k := (s.act n).samples
      exec (.servoSample d) s
        = next (((s.memWriteWords reqCore (dramBaseOf (16 + n) + bits (s.reg (R.SRV_SMPL p a)).toNat 0 16 + 32 * (k % 16))
          (s.sampleRecord n)).1.modAct n (fun x => { x with samples := x.samples + 1, sampleAt := some s.now, fresh := false
                                                            guardSeen := false, sinceVcm := x.sinceVcm + 1 })).srvEvent n 0))
    ∧ (parked = true → exec (.vcmWrite d v) s = next s)
    ∧ (parked = false → exec (.vcmWrite d v) s = next (s.modAct n (fun k => { k with
      sinceVcm := 0, vcm := if k.parkAt = none then sx 16 v.toNat else k.vcm })))
    ∧ (parked = true ∨ (s.act n).sinceVcm < max 1 (s.fld (F.SRV_ACFG_VCM_WD p a)) → exec (.vcmWatchdog d) s = next s)
    ∧ (parked = false ∧ max 1 (s.fld (F.SRV_ACFG_VCM_WD p a)) ≤ (s.act n).sinceVcm →
      exec (.vcmWatchdog d) s = next (((s.setFlag (F.SRV_ASTAT_WD p a)).modAct n (fun k => { k with sinceVcm := 0 })).emergencyPark n))
    ∧ (v = s.reg (R.SRV_TGT p a) →
      exec (.srvTrkWrite d v) s = next ((s.setReg (R.SRV_TRK p a) v).settleOn n)
      ∧ ((s.setReg (R.SRV_TRK p a) v).settleOn n).settled n = true)
    ∧ (v ≠ s.reg (R.SRV_TGT p a) → exec (.srvTrkWrite d v) s = next (s.setFlag (F.SRV_ASTAT_CMD_REJ p a)))
    -- the write guard, parking and removal (R317 to R320)
    ∧ exec (.shockSample h sa sb) s = next ((((s.modAct (2 * h) (fun k => { k with shkA := shkCode sa, shkB := shkCode sb })).guardJudge
        (2 * h)).modAct (2 * h + 1) (fun k => { k with shkA := shkCode sa, shkB := shkCode sb })).guardJudge (2 * h + 1))
    ∧ (let thr := s.fld (F.SRV_SHK_SHK_THR p)
      thr < (s.act n).shkA.natAbs ∨ thr < (s.act n).shkB.natAbs ∨ s.fld (F.SRV_ACFG_WLIM p a) < (s.act n).pes.natAbs
        ∨ s.settled n = false ∨ parked = true ∨ s.flag (F.SRV_ASTAT_SEL_LOST p a) = true ∨ s.dskLock n = false
        → (s.guardJudge n).flag (F.SRV_ASTAT_GUARD p a) = true ∧ ((s.guardJudge n).act n).okRun = 0)
    ∧ (s.guardCond n = false → (s.guardJudge n).flag (F.SRV_ASTAT_GUARD p a) = s.flag (F.SRV_ASTAT_GUARD p a)
      ∧ ((s.guardFrame n).act n).okRun = (s.act n).okRun + 1
      ∧ (s.guardFrame n).flag (F.SRV_ASTAT_GUARD p a)
        = if 7 ≤ (s.act n).okRun then false else s.flag (F.SRV_ASTAT_GUARD p a))
    ∧ exec (.park d v) s = next (effSrvCtrl p v s)
    ∧ exec (.unpark d v) s = next (effSrvCtrl p v s)
    ∧ effSrvCtrl p v s = (s.each (setBitsOf 2 (bits v.toNat 2 2)) (fun t i => t.unpark (2 * p + i))).each
        (setBitsOf 2 (bits v.toNat 0 2)) (fun t i => t.park (2 * p + i))
    ∧ (bits v.toNat 0 2 = 2 ^ a ∧ bits v.toNat 2 2 = 0 → effSrvCtrl p v s = s.park n)
    ∧ (bits v.toNat 0 2 = 0 ∧ bits v.toNat 2 2 = 2 ^ a → effSrvCtrl p v s = s.unpark n)
    ∧ ((s.act n).parkAt ≠ none → s.park n = s)
    ∧ ((s.act n).parkAt = none → s.park n
        = s.modAct n (fun k => { k with parkAt := some s.now, vcm := s.sfld (F.SRV_PARKCFG_PARK_I p) }))
    ∧ ((vget s.mots (4 + p)).state = .run → (s.unpark n).flag (F.SRV_ASTAT_PARKED p a) = false
      ∧ ((s.unpark n).act n).sinceVcm = 0 ∧ (vget (s.unpark n).ports p).retract = false)
    ∧ ((vget s.mots (4 + p)).state ≠ .run → s.unpark n
        = (s.setFlag (F.SRV_ASTAT_CMD_REJ p a)).setFlag (F.SRV_SPSTAT_CMD_REJ p))
    ∧ ((s.act n).parkAt = none → exec (.parkComplete d) s = next s)
    ∧ (∀ t0, (s.act n).parkAt = some t0 →
      (s.now < t0 + 1000000 * s.fld (F.SRV_PARKCFG_PARK_MS p) → exec (.parkComplete d) s = next s)
      ∧ (t0 + 1000000 * s.fld (F.SRV_PARKCFG_PARK_MS p) ≤ s.now → ∃ t : State, exec (.parkComplete d) s = next t
        ∧ t.flag (F.SRV_ASTAT_PARKED p a) = true ∧ t.settled n = false ∧ (t.act n).vcm = 0 ∧ (t.act n).parkAt = none))
    ∧ ((s.act n).selLostAt = none ∨ parked = true → exec (.selLostTimeout d) s = next s)
    ∧ (∀ t0, (s.act n).selLostAt = some t0 → parked = false → (s.now < t0 + 1000000 → exec (.selLostTimeout d) s = next s)
      ∧ (t0 + 1000000 ≤ s.now → exec (.selLostTimeout d) s
        = next ((s.modAct n (fun k => { k with selLostAt := none })).emergencyPark n)))
    ∧ (s.flag (F.SRV_SPSTAT_PRES h) = present ∨ held.toNat < 500000000 → exec (.hdaPresChange h present held) s = next s)
    ∧ (s.flag (F.SRV_SPSTAT_PRES h) = false ∧ 500000000 ≤ held.toNat → exec (.hdaPresChange h true held) s
      = next ((s.putFlag (F.SRV_SPSTAT_PRES h) true).each [2 * h.val, 2 * h.val + 1]
        (fun t d => if t.dcsvc d = 0 then t.clrFlag (F.DSK_STATUS_OFFLINE d) else t)).volRefresh)
    ∧ (s.flag (F.SRV_SPSTAT_PRES h) = true ∧ 500000000 ≤ held.toNat → exec (.hdaPresChange h false held) s = next (
        let s2 := ((s.putFlag (F.SRV_SPSTAT_PRES h) false).setFlag (F.SRV_SPSTAT_REMOVED h)).each [2 * h.val, 2 * h.val + 1]
          (fun t d => (((t.stopPass d).dskUnready d).setFlag (F.DSK_STATUS_OFFLINE d)).dskDropAll d 3)
        if s.portParked h then s2.volRefresh
        else (((s2.volRefresh.motOff (4 + h)).emergencyPark (2 * h)).emergencyPark (2 * h + 1)).raise (280 + h)))

/-! ### Motors, spindles, half-bridges, the inverter and the axes (R321 to R366) -/

/-- R322 to R362: commutation, starting, the speed loop and motor commands; the spindle index; the switching interlock,
protection and clearing of half-bridges; the inverter; the axes' step, stops, homing and commands. -/
def Obligations.Drives : Prop :=
  ∀ (s : State) (m : Fin 16) (h : Fin 4) (kb : Fin 32) (j : Fin 2) (x : Fin 16) (v : Word) (cmp : BitVec 4)
    (code0 code1 code : BitVec 3) (high goffIn : Bool) (pins : HbPins) (hsg : BitVec 100) (dsatN : BitVec 10)
    (hs : List (BitVec 10)) (home index stall : BitVec 16),
    let n := m.val
    let k := kb.val
    let a := x.val
    let mt := vget s.mots n
    let b := vget s.hbs k
    let ax := s.axis a
    let next (t : State) : Host.Outcome State Fault Refusal := .next t.finish
    -- motors (R323 to R329)
    (s.hasMot n = true →
      (s.zcQualified n cmp = true ↔ cmp = (if (mt.step % 2 == 0) != mt.dir then 0b0111#4 else 0b1000#4)
        ∧ mt.stepAt + s.fld (F.MOT_CFG_ZBLANK n) * mt.periods.headD 0 / 64 + 200 ≤ s.now)
      ∧ (mt.hallSense = true ∨ s.zcQualified n cmp = false ∨ mt.state ≠ .run ∧ mt.state ≠ .ramp →
        exec (.bemfZeroCross m cmp) s = next s)
      ∧ (mt.hallSense = false ∧ s.zcQualified n cmp = true → let e := mt.event s.now
        (mt.state = .run → exec (.bemfZeroCross m cmp) s = next (s.modMot n (fun _ =>
          { e with zcAt := some (s.now + s.fld (F.MOT_CFG_ADV n) * e.periods.headD 0 / 64) })))
        ∧ (mt.state = .ramp →
          (16 * s.fld (F.MOT_RAMP_HAND_RPM n) ≤ e.speed ∧ max 1 (s.fld (F.MOT_RAMPT_HANDN n)) ≤ mt.hand + 1 →
            ∃ t : State, exec (.bemfZeroCross m cmp) s = next t ∧ (vget t.mots n).state = .run)
          ∧ (16 * s.fld (F.MOT_RAMP_HAND_RPM n) ≤ e.speed ∧ mt.hand + 1 < max 1 (s.fld (F.MOT_RAMPT_HANDN n)) →
            exec (.bemfZeroCross m cmp) s = next (s.modMot n (fun _ => { e with hand := mt.hand + 1 })))
          ∧ (e.speed < 16 * s.fld (F.MOT_RAMP_HAND_RPM n) →
            exec (.bemfZeroCross m cmp) s = next (s.modMot n (fun _ => { e with hand := 0 })))))
      ∧ (mt.zcAt = none ∨ mt.state ≠ .run → exec (.commutation m) s = next s)
      ∧ (∀ t0, mt.zcAt = some t0 ∧ mt.state = .run → (s.now < t0 → exec (.commutation m) s = next s)
        ∧ (t0 ≤ s.now → exec (.commutation m) s = next (s.commutate n (nextMotStep mt.dir mt.step))))
      ∧ (code0 ≠ code1 ∨ code1 ≠ code ∨ code.toNat = mt.hall → exec (.hallChange m code0 code1 code) s = next s)
      ∧ (code.toNat ≠ mt.hall → let s1 := s.modMot n (fun y => { y with hall := code.toNat })
        (mt.hallSense = false → exec (.hallChange m code code code) s = next s1)
        ∧ (mt.hallSense = true →
          (s.hallStep n code.toNat = 0 → exec (.hallChange m code code code) s = next (s1.hallErr n))
          ∧ (s.hallStep n code.toNat ≠ 0 → exec (.hallChange m code code code) s
            = next (if mt.state = .run then (s1.modMot n (fun y => y.event s.now)).commutate n (s.hallStep n code.toNat)
              else s1))))
      ∧ (mt.state ≠ .align ∨ s.now < mt.startAt + 1000000 * s.fld (F.MOT_ALIGN_ALIGN_MS n) →
        exec (.alignDone m) s = next s)
      ∧ (mt.state = .align ∧ mt.startAt + 1000000 * s.fld (F.MOT_ALIGN_ALIGN_MS n) ≤ s.now →
        ∃ t : State, exec (.alignDone m) s = next t ∧ (vget t.mots n).state = .ramp
          ∧ (vget t.mots n).duty = s.fld (F.MOT_RAMPT_RAMP_DUTY n) ∧ (vget t.mots n).startAt = s.now)
      ∧ (let lo := s.fld (F.MOT_RAMP_START_RPM n)
        let ms := 1000000 * s.fld (F.MOT_RAMPT_RAMP_MS n)
        s.forcedDue n = true ↔ 60000000000 * ms ≤ (s.now - mt.stepAt)
          * (lo * ms + (s.fld (F.MOT_RAMP_HAND_RPM n) - lo) * (s.now - mt.startAt)) * 6 * mt.poles)
      ∧ (mt.state ≠ .ramp ∨ s.forcedDue n = false → exec (.rampForcedStep m) s = next s)
      ∧ (mt.state = .ramp ∧ s.forcedDue n = true →
        exec (.rampForcedStep m) s = next (s.commutate n (nextMotStep mt.dir mt.step)))
      ∧ (mt.state ≠ .ramp ∨ s.now < mt.startAt + 1000000 * s.fld (F.MOT_RAMPT_RAMP_MS n) →
        exec (.rampTimeout m) s = next s)
      ∧ (mt.state = .ramp ∧ mt.startAt + 1000000 * s.fld (F.MOT_RAMPT_RAMP_MS n) ≤ s.now → exec (.rampTimeout m) s
          = next (((s.motFault n).setFlag (F.MOT_STATUS_STARTFAIL n)).raise (288 + 2 * n)))
      ∧ (s.lockedDue n = true ↔ mt.state = .run ∧ 0 < s.cmdSpeed n ∧ ∃ t0, mt.cmdSince = some t0
        ∧ max t0 (max mt.lastComm mt.startAt)
          + max 100000000 (4 * 960000000000 / (s.cmdSpeed n * 6 * max 1 mt.poles)) ≤ s.now)
      ∧ (s.lockedDue n = false → exec (.lockedRotor m) s = next s)
      ∧ (s.lockedDue n = true → exec (.lockedRotor m) s = next ((((s.motFault n).setFlag
          (F.MOT_STATUS_LOCKED n)).modMot n (fun y => { y with lockedAt := some s.now })).raise (288 + 2 * n)))
      ∧ (s.now < mt.lastComm + 100000000 → exec (.motorSpeedZero m) s = next s)
      ∧ (mt.lastComm + 100000000 ≤ s.now → exec (.motorSpeedZero m) s
        = next (s.modMot n (fun y => { y with speed := 0, periods := [] })))
      ∧ (let u0 := s.modMot n (fun y => { y with pwmAt := s.now })
        let u := if u0.rateLocked n then u0.rangeRefresh (n - 4) else u0
        let y := vget u.mots n
        exec (.motorPwmPeriod m) s = next ((u.motPwm n).motSync n)
        ∧ (y.state ≠ .run → u.motPwm n = u)
        ∧ (y.state = .run → (vget (u.motPwm n).mots n).duty ≤ u.fld (F.MOT_VLIM_VLIM n)
          ∧ (vget (u.motPwm n).mots n).target = slewTarget y.target (1000000 * u.cmdSpeed n)
              (y.accel * 16000 / max 1 (u.fld (F.MOT_CFG_PWM_KHZ n)))
          ∧ (u.motPwm n).flag (F.MOT_STATUS_ATSPEED n) = decide (((u.measSpeed n : Int) - u.cmdSpeed n).natAbs * 10000
              ≤ u.fld (F.MOT_VLIM_TOL n) * u.cmdSpeed n))))
    ∧ (s.windowPresent (0x50 + n) = true →
      let c := v.toNat % 16
      let rej := s.setFlag (F.MOT_STATUS_CMD_REJ n)
      (∀ i ∈ [Instr.motorStart m v, .motorStop m v, .motorBrake m v, .motorClr m v], exec i s = next (effMotCmd n v s))
      ∧ (c = 0 ∨ mt.lockedAt = some s.now → effMotCmd n v s = s)
      ∧ (c ≠ 0 ∧ mt.lockedAt ≠ some s.now →
        (s.lockedDue n = true → effMotCmd n v s = effLockedRotor n s)
        ∧ (s.lockedDue n = false →
          (s.motOpen n = false ∨ 1 < popc 4 c → effMotCmd n v s = rej)
          ∧ (s.motOpen n = true →
            (c = 4 → exec (.motorBrake m v) s = next (s.motBrake n))
            ∧ (c = 8 ∧ mt.state = .fault → exec (.motorClr m v) s = next (s.motOff n))
            ∧ (c = 2 ∧ mt.state ≠ .fault → exec (.motorStop m v) s = next (s.motOff n))
            ∧ (c = 8 ∧ mt.state ≠ .fault ∨ c = 2 ∧ mt.state = .fault ∨ c = 1 ∧ mt.state ≠ .off → effMotCmd n v s = rej)
            ∧ (c = 1 ∧ mt.state = .off →
              let away := 4 ≤ n ∧ n < 8 ∧ s.flag (F.SRV_SPSTAT_PRES (n - 4)) = false
              (away ∨ (motHbs n).any s.hbFault = true → effMotCmd n v s = rej)
              ∧ (¬ away ∧ (motHbs n).any s.hbFault = false →
                (mt.hallSense = false → ∃ t : State, exec (.motorStart m v) s = next t ∧ (vget t.mots n).state = .align
                  ∧ (vget t.mots n).step = 1 ∧ (vget t.mots n).duty = s.fld (F.MOT_ALIGN_ALIGN_DUTY n))
                ∧ (mt.hallSense = true → ∃ t : State, exec (.motorStart m v) s = next t ∧ (vget t.mots n).state = .run
                  ∧ (s.hallStep n mt.hall ≠ 0 → (vget t.mots n).step = s.hallStep n mt.hall)
                  ∧ (s.hallStep n mt.hall = 0 → t.flag (F.MOT_STATUS_HALLERR n) = true))))))))
    ∧ (∀ phase, n < 4 ∨ 8 ≤ n ∨ mt.state ≠ .run → (vget (s.motOff n).mots n).phaseCmd phase = (false, false)
      ∧ (vget (s.motFault n).mots n).phaseCmd phase = (false, false)
      ∧ (vget (s.motBrake n).mots n).phaseCmd phase = (false, true))
    ∧ (4 ≤ n ∧ n < 8 ∧ mt.state = .run → ∀ st f, st ≠ MotState.run →
      let w := (((s.modMot n (fun y => f { y with state := st, cmdSince := none })).motSync n).clrFlag
        (F.MOT_STATUS_VLIMIT n)).clrFlag (F.MOT_STATUS_ATSPEED n)
      s.motState n st f = ((w.rlockFall (n - 4)).emergencyPark (2 * (n - 4))).emergencyPark (2 * (n - 4) + 1))
    -- spindles (R331, R332)
    ∧ (s.hasHda h.val = false → exec (.spindleIndex h) s = next s)
    ∧ (s.hasHda h.val = true → exec (.spindleIndex h) s
      = next (((s.spindleIndex h).indexPass (2 * h) (s.slotNow h)).indexPass (2 * h + 1) (s.slotNow h)))
    ∧ (∀ g, (vget s.dsk n).pass = some g → n < 8 → g.startAt.isSome = true →
      ∀ c0, (vget (s.indexPass n c0).dsk n).pass = some { g with stopAt := some (g.stopAt.getD s.now) })
    ∧ (let u := s.rangeRefresh h
      let u1 := u.modPort h (fun p => { p with lastIndex := u.now })
      (u.rateLocked (4 + h) = false ∨ (vget u.mots (4 + h)).state ≠ .run → s.spindleIndex h = u1)
      ∧ (u.rateLocked (4 + h) = true ∧ (vget u.mots (4 + h)).state = .run →
        let lpr := u.fld (F.SRV_SPIN_LPR h)
        let d := (u.lambda16 (u.lstn h) u.now + 2 ^ 44 - 16 * u.anchor h % 2 ^ 44) % 2 ^ 44
        let slot := if 2 ^ 44 - 8 * lpr ≤ d then 0 else (d + 8 * lpr) / max 1 (16 * lpr)
        let err := -(u.slotStart h (slot % 2 ^ 32))
        let ok := decide (err.natAbs ≤ 1000 * max 1 (u.fld (F.SRV_SPIN_PH_TOL h)))
        let t := ((u1.setFld (F.SRV_PHERR_PHERR h) (ux 16 (clampInt (-32768) 32767 (err / 100)))).setFld
          (F.SRV_SLOT_SLOT h) slot).modPort h (fun p => { p with
            inTol := if ok then p.inTol + 1 else 0, outTol := if ok then 0 else p.outTol + 1, slotOn := true })
        let p := vget t.ports h
        (t.rlock h = true ∧ p.outTol < 4 ∨ t.rlock h = false ∧ p.inTol < 16 → s.spindleIndex h = t)
        ∧ (t.rlock h = true ∧ 4 ≤ p.outTol → s.spindleIndex h = t.rlockFall h)
        ∧ (t.rlock h = false ∧ 16 ≤ p.inTol → s.spindleIndex h
          = if t.flag (F.EXP_STATUS_BD_LOCK (u.lstn h)) = true ∧ t.flag (F.SRV_SPSTAT_RANGE_ERR h) = false then
              (t.setFlag (F.SRV_SPSTAT_RLOCK h)).notify 0x08 (4 + h) 8 else t)))
    -- half-bridges (R337 to R349)
    ∧ (let u := s.hbSample k pins
      let cmd := if high then b.cmdHi && !b.cmdLo else b.cmdLo && !b.cmdHi
      let goff := (if high then pins.goffL else pins.goffH) == 3#2
      let off := if high then b.offLo else b.offHi
      let out := if high then F.GDR_HB_STATUS_HION k else F.GDR_HB_STATUS_LOON k
      (cmd = false ∨ s.hbEn k = false ∨ s.hbFault k = true ∨ s.holdsToken = false ∨ goff = false
          ∨ s.now < off + 10 * max 2 (s.fld (F.GDR_HB_CFG_DT k)) ∨ high = true ∧ pins.hsg = false →
        exec (.gateTurnOn kb high pins) s = next u)
      ∧ (cmd = true ∧ s.hbEn k = true ∧ s.hbFault k = false ∧ s.holdsToken = true ∧ goff = true
          ∧ off + 10 * max 2 (s.fld (F.GDR_HB_CFG_DT k)) ≤ s.now ∧ (high = true → pins.hsg = true) →
        ∃ t : State, exec (.gateTurnOn kb high pins) s = next t ∧ t.flag out = true))
    ∧ (∀ c, (s.hbEn k = false ∨ s.holdsToken = false → s.hbLatch1 k c = s)
      ∧ (s.hbEn k = true ∧ s.holdsToken = true →
        (s.hbFault k = true → s.hbLatch1 k c = (s.setFlag (c.fld k)).modHb k (fun y => { y with latchAt := some s.now }))
        ∧ (s.hbFault k = false → s.hbLatch1 k c
            = (((((s.modHb k (fun y => { y with latchAt := some s.now })).setFlag (c.fld k)).setFlag (F.GDR_HB_STATUS_FAULT k)).hbOff k).srcFault k).each (hbSources k c) State.raise)))
    ∧ ((s.hbOff k).flag (F.GDR_HB_STATUS_HION k) = false ∧ (s.hbOff k).flag (F.GDR_HB_STATUS_LOON k) = false)
    ∧ (s.hbSrc k ≠ 3 → exec (.gdrManWrite kb v) s = next (s.plainWrite (R.GDR_HB_MAN k) v))
    ∧ (s.hbSrc k = 3 → exec (.gdrManWrite kb v) s = next ((s.plainWrite (R.GDR_HB_MAN k) v).hbSync k))
    ∧ (s.hbSrc k = 3 → s.fld (F.GDR_HB_MAN_HI k) = 1 → s.fld (F.GDR_HB_MAN_LO k) = 1 → s.hbEn k = true → s.holdsToken = true →
      s.hbSync k = s.hbLatch1 k .cross)
    ∧ (let u := s.putFlag (if high then F.GDR_HB_STATUS_GOFFH k else F.GDR_HB_STATUS_GOFFL k) goffIn
      let on := if high then u.flag (F.GDR_HB_STATUS_HION k) else u.flag (F.GDR_HB_STATUS_LOON k)
      let off := (if high then b.offHi else b.offLo) + 100 * max 1 (u.fld (F.GDR_HB_CFG_GOFF_TMO k))
      (on = true ∨ goffIn = true ∨ s.now < off → exec (.goffTimeout kb high goffIn) s = next u)
      ∧ (on = false ∧ goffIn = false ∧ off ≤ s.now → exec (.goffTimeout kb high goffIn) s = next (u.hbLatch1 k .stuck)))
    ∧ exec (.hsgLoss kb 0) s = next (((s.clrFlag (F.GDR_HB_STATUS_HSG k)).switchOff k true).hbLatch1 k .hsuv)
    ∧ (hsg ≠ 0 → exec (.hsgLoss kb hsg) s = next (s.putFlag (F.GDR_HB_STATUS_HSG k) (hsg.getLsbD 0)))
    ∧ (let on := if high then s.flag (F.GDR_HB_STATUS_HION k) else s.flag (F.GDR_HB_STATUS_LOON k)
      let since := if high then b.onHi else b.onLo
      let watch := if high then b.watchHi else b.watchLo
      (on = false ∨ s.now < since + 100 * s.fld (F.GDR_HB_CFG_BLANK k) → exec (.dsatBlankEnd kb high) s = next s)
      ∧ (on = true ∧ since + 100 * s.fld (F.GDR_HB_CFG_BLANK k) ≤ s.now → exec (.dsatBlankEnd kb high) s
        = next (s.modHb k (fun y => if high then { y with watchHi := true } else { y with watchLo := true })))
      ∧ (let ready := since + 100 * s.fld (F.GDR_HB_CFG_BLANK k) + 100
        (watch = false ∨ dsatN ≠ 0 ∨ s.now < ready → exec (.desatDetect kb high dsatN) s = next s)
        ∧ (watch = true ∧ ready ≤ s.now → exec (.desatDetect kb high 0) s = next ((s.modHb k (fun y =>
          if high then { y with dsatH := true } else { y with dsatL := true })).hbShort k (if high then .desatH else .desatL)))))
    ∧ (let five := 5 ≤ hs.length ∧ ∀ y ∈ hs, s.fld F.GDR_HS_HS_THR < y.toNat
      (five → exec (.hardShort kb hs) s = next ((s.modHb k (fun y => { y with hsOver := true })).hbShort k .hshort))
      ∧ (¬ five → exec (.hardShort kb hs) s = next s))
    ∧ (∀ c, s.hbEn k = true ∧ s.holdsToken = true ∧ s.hbFault k = false →
      let u := (s.hbLatch1 k c).modHb k (fun y => { y with shortAt := some (s.hbLatch1 k c).now })
      let bus := s.fld (F.GDR_HB_CFG_BUS k)
      let same := (List.range 32).filter (fun l => u.hbEn l && u.fld (F.GDR_HB_CFG_BUS l) == bus)
      let other := ∃ l ∈ same, l ≠ k ∧ u.hbFault l = true ∧ ∃ t0, (vget u.hbs l).shortAt = some t0 ∧ u.now ≤ t0 + u.coinc
      (other ∧ bit (u.fld F.GDR_STATUS_BUSF) bus = false → s.hbShort k c = ((u.setFld F.GDR_STATUS_BUSF
        (setBit (u.fld F.GDR_STATUS_BUSF) bus)).raise 324).each same (fun t l => t.hbLatch1 l .bus))
      ∧ (¬ other ∨ bit (u.fld F.GDR_STATUS_BUSF) bus = true → s.hbShort k c = u))
    ∧ (∀ c, s.hbEn k = false ∨ s.holdsToken = false ∨ s.hbFault k = true → s.hbShort k c = s.hbLatch1 k c)
    ∧ (let u := s.hbSample k pins
      (v.getLsbD 0 = false → exec (.gdrClr kb v pins) s = next u)
      ∧ (v.getLsbD 0 = true → exec (.gdrClr kb v pins) s = next (u.hbClear k))
      ∧ (s.clrRefused k = true → s.hbClear k = (s.setFlag F.GDR_STATUS_CLR_REJ).raise 325)
      ∧ (s.clrRefused k = false → (s.hbClear k).hbFault k = false)
      ∧ ((b.dsatH || b.dsatL || b.hsOver) = true ∨ b.latchAt = some s.now ∨ s.flag (F.GDR_HB_STATUS_HSG k) = false
          ∨ s.flag (F.GDR_HB_STATUS_GOFFH k) = false ∨ s.flag (F.GDR_HB_STATUS_GOFFL k) = false ∨ s.hbSourceActive k = true
          → s.clrRefused k = true))
    -- the inverter (R350)
    ∧ (let khz := bits v.toNat 8 7
      let ph := bits v.toNat 16 9
      (khz < 20 ∨ 100 < khz ∨ 256 < ph → exec (.invRun j v) s = next (s.setFlag F.GDR_STATUS_CFG_ERR))
      ∧ (20 ≤ khz ∧ khz ≤ 100 ∧ ph ≤ 256 →
        let w := s.plainWrite (R.GDR_INV_CTRL j) v
        (v.getLsbD 0 = false → exec (.invRun j v) s = next (w.invStop j))
        ∧ (v.getLsbD 0 = true →
          (s.flag (F.GDR_INV_CTRL_RUN j) = true → exec (.invRun j v) s = next w)
          ∧ (s.flag (F.GDR_INV_CTRL_RUN j) = false →
            (s.flag F.THM_TSD_TSD_LOCK = true → exec (.invRun j v) s = next (w.clrFlag (F.GDR_INV_CTRL_RUN j)))
            ∧ (s.flag F.THM_TSD_TSD_LOCK = false → exec (.invRun j v) s
              = next (effInvPeriod j (w.modInv j (fun y => { y with running := true }))))))))
    ∧ (s.flag (F.GDR_INV_CTRL_RUN j) = false ∨ (vget s.invs j).running = false → exec (.invPeriod j) s = next s)
    ∧ (s.flag (F.GDR_INV_CTRL_RUN j) = true ∧ (vget s.invs j).running = true → exec (.invPeriod j) s
      = next ((s.modInv j (fun y => { y with
          since := s.now
          khz := s.fld (F.GDR_INV_CTRL_INV_KHZ j)
          phase := min (s.fld (F.GDR_INV_CTRL_PHASE j)) (s.fld F.THM_FUSER_PHASE_CAP) })).each
            [24 + 2 * j.val, 25 + 2 * j.val] (fun t l => if t.hbSrc l = 2 then t.hbApply l else t)))
    -- axes (R353 to R362)
    ∧ exec (.axisTick home index stall) s
        = next (s.each (List.range 16) (fun t i => t.axisStep i (home.getLsbD i) (index.getLsbD i) (stall.getLsbD i)))
    ∧ (∀ hm ix, (max 1 (s.fld (F.STP_HBACK_STALL_FILT a)) ≤ ax.stallRun + 1 → ax.state = .moving →
        ((s.axisStep a hm ix true).axis a).state = .fault ∧ ((s.axisStep a hm ix true).axis a).vMilli = 0)
      ∧ (ax.state = .moving → ax.halt = true →
        ((s.axisStep a hm ix false).axis a).state = (if ax.drydown then .off else .hold)
        ∧ ((s.axisStep a hm ix false).axis a).rem = 0 ∧ ((s.axisStep a hm ix false).axis a).pFrac = ax.pFrac)
      ∧ (ax.state = .moving → ax.halt = false → ax.resume = none → let y := (s.axisStep a hm ix false).axis a
        (∀ tt len p0 v0 p1 v1, segmentAt (ax.table.getD []) (ax.tMove + 10) 0 0 = some (tt, len, p0, v0, p1, v1) →
          y.state = .moving ∧ y.pFrac = (ax.p0 + hermiteP tt len p0 v0 p1 v1) * microUnit
          ∧ y.vMilli = hermiteV tt len p0 v0 p1 v1 ∧ y.rem = ax.final - (ax.p0 + hermiteP tt len p0 v0 p1 v1))
        ∧ (segmentAt (ax.table.getD []) (ax.tMove + 10) 0 0 = none →
          y.state = (if ax.drydown then .off else .hold) ∧ y.pFrac = ax.final * microUnit ∧ y.vMilli = 0 ∧ y.rem = 0))
      ∧ (ax.state = .stopping → let w := slewTo ax.vMilli 0 (accStep (s.fld (F.STP_STOP_ACC a)))
        ((s.axisStep a hm ix false).axis a).pFrac = ax.pFrac + w ∧ ((s.axisStep a hm ix false).axis a).vMilli = w)
      ∧ (∀ st, ax.state = .off ∨ ax.state = .hold ∨ ax.state = .fault →
        ((s.axisStep a hm ix st).axis a).state = ax.state ∧ ((s.axisStep a hm ix st).axis a).pFrac = ax.pFrac))
    ∧ (∀ (tt : Nat) (p0 v0 p1 v1 : Int), 0 < tt → hermiteP 0 tt p0 v0 p1 v1 = p0 ∧ hermiteP tt tt p0 v0 p1 v1 = p1
        ∧ hermiteV 0 tt p0 v0 p1 v1 = 1000 * v0 ∧ hermiteV tt tt p0 v0 p1 v1 = 1000 * v1)
    ∧ (∀ c ∈ [Instr.stpLoad x v, .stpMove x v, .stpStop x v, .stpResume x v, .stpHome x v, .stpEnergise x v, .stpRelease x v,
        .stpClr x v], exec c s = next (effStpCmd a v s))
    ∧ (let c := v.toNat % 256
      (c = 0 → effStpCmd a v s = s)
      ∧ (1 < popc 8 c ∨ c ≠ 0 ∧ s.isOpen 0x07 a = false → effStpCmd a v s = s.setFlag (F.STP_STATUS_CMD_REJ a))
      ∧ (s.isOpen 0x07 a = true →
        (popc 8 c = 1 ∧ ax.blocked = true → effStpCmd a v s = s)
        ∧ (ax.blocked = false →
          let rej := s.setFlag (F.STP_STATUS_CMD_REJ a)
          (c = 1 → exec (.stpLoad x v) s = next (s.axLoad a))
          ∧ (c = 2 ∧ ax.state = .hold ∧ ax.table.isSome = true → exec (.stpMove x v) s = next (s.modAxis a (fun y => { y with
              state := .moving, p0 := y.pos, tMove := 0, resume := none, rem := y.lastP, halt := false })))
          ∧ (c = 2 ∧ (ax.state ≠ .hold ∨ ax.table = none) → effStpCmd a v s = rej)
          ∧ (c = 4 ∧ (ax.state = .off ∨ ax.state = .hold ∨ ax.state = .stopping) → exec (.stpStop x v) s
              = next (s.axStop a false) ∧ (s.axStop a false).axis a = ax)
          ∧ (c = 4 ∧ ax.state = .moving ∧ s.flag (F.STP_CFG_STOPMODE a) = true → exec (.stpStop x v) s
              = next (s.modAxis a (fun y => { y with state := .stopping, drydown := y.drydown || false })))
          ∧ (c = 4 ∧ (ax.state = .homing ∨ ax.state = .moving ∧ s.flag (F.STP_CFG_STOPMODE a) = false) → exec (.stpStop x v) s
              = next (s.modAxis a (fun y => { y with halt := true, drydown := y.drydown || false })))
          ∧ (c = 4 ∧ ax.state = .fault → effStpCmd a v s = rej)
          ∧ (c = 8 ∧ ax.state = .hold ∧ ax.rem ≠ 0 → exec (.stpResume x v) s = next (s.modAxis a (fun y => { y with
              state := .moving, resume := some (y.pos + y.rem), halt := false })))
          ∧ (c = 8 ∧ (ax.state ≠ .hold ∨ ax.rem = 0) → effStpCmd a v s = rej)
          ∧ (c = 16 ∧ ax.state = .hold → exec (.stpHome x v) s = next (s.modAxis a (fun y => { y with
              state := .homing, phase := .seek, travel := 0, halt := false })))
          ∧ (c = 16 ∧ ax.state ≠ .hold → effStpCmd a v s = rej)
          ∧ (c = 32 ∧ ax.state = .off → exec (.stpEnergise x v) s = next (s.modAxis a (fun y => { y with state := .hold })))
          ∧ (c = 64 ∧ ax.state = .hold → exec (.stpRelease x v) s = next (s.modAxis a (fun y => { y with state := .off })))
          ∧ (c = 128 ∧ ax.state = .fault → exec (.stpClr x v) s = next (s.modAxis a (fun y => { y with state := .off })))
          ∧ (c = 32 ∧ ax.state ≠ .off ∨ c = 64 ∧ ax.state ≠ .hold ∨ c = 128 ∧ ax.state ≠ .fault → effStpCmd a v s = rej))))
    ∧ (ax.state.busy = true → s.axLoad a = s.setFlag (F.STP_STATUS_CMD_REJ a))
    ∧ (ax.state.busy = false → s.fld (F.STP_TBLN_TBLN a) = 0 ∨ 256 < s.fld (F.STP_TBLN_TBLN a) →
      ((s.axLoad a).axis a).table = none ∧ (s.axLoad a).fld (F.STP_STATUS_LERR a) = 5
      ∧ (s.axLoad a).flag (F.STP_STATUS_LOAD_ERR a) = true ∧ 331 ∈ (s.axLoad a).flt.raised)
    ∧ (let c := s.fld (F.STP_TBLN_TBLN a)
      ax.state.busy = false ∧ 0 < c ∧ c ≤ 256 →
      let r := s.loadTable (s.addr40 (R.STP_TBL_LO a) (R.STP_TBL_HI a) / 16 * 16) c c []
      (∀ l, r.2 = .ok l → s.axLoad a = (r.1.modAxis a (fun y => { y with table := some l })).setFlag (F.STP_STATUS_LOAD_OK a))
      ∧ (∀ e i, r.2 = .error (e, i) → s.axLoad a = r.1.loadRefused a e i))

/-! ### The loop engine, the web encoder and the cameras (R368 to R396) -/

/-- R368 to R396: conversions, ticks and one evaluation, commands and tables of a slot; encoder counts and reversals;
frames, lines and errors of a camera port, its configuration load and its bypass. -/
def Obligations.LoopsAndCameras : Prop :=
  ∀ (s : State) (inputs : List Int) (k8 : Fin 8) (n : Fin 64) (v : Word) (a b : Bool) (held : BitVec 16) (cam : Fin 4)
    (hdr : BitVec 32) (body : List Byte),
    let next (t : State) : Host.Outcome State Fault Refusal := .next t.finish
    let c := cam.val
    let cs := vget s.cams c
    let w := s.web
    -- inputs and outputs (R368, R369)
    (s.now % 5000 ≠ 0 ∨ s.adcAt = some s.now → exec (.adcConversion inputs) s = next s)
    ∧ (s.now % 5000 = 0 ∧ s.adcAt ≠ some s.now → ∃ t : State, exec (.adcConversion inputs) s = next t ∧ t.regs = s.regs
      ∧ t.adcAt = some s.now
      ∧ ∀ i < 16, t.ain.getD i [] = (adcCode 2500000 (inputs.getD i 0) :: s.ain.getD i []).take 128)
    ∧ (let done := decide (1000000 ≤ (s.now - lget s.lpwmAt k8) * s.lpwmKhz)
      (done = false → exec (.lpwmPeriod k8) s = next s)
      ∧ (done = true → exec (.lpwmPeriod k8) s = next { s with
        lpwm := (List.range 8).map (fun i => if i = k8.val then s.fld (F.LOP_PWM_DUTY k8) else lget s.lpwm i)
        lpwmAt := (List.range 8).map (fun i => if i = k8.val then s.now else lget s.lpwmAt i) }))
    -- ticks (R371 to R376)
    ∧ (s.now % 20000 ≠ 0 ∨ s.tickAt = some s.now → exec .loopTick s = next s)
    ∧ (s.now % 20000 = 0 ∧ s.tickAt ≠ some s.now →
      exec .loopTick s = next ((List.range 64).foldl State.loopSlot { s with tickAt := some s.now }))
    ∧ ((∀ l, Tab.get s.loops n.val = some l → l.state = .stopped ∨ l.state = .frozen) → s.loopSlot n = s)
    ∧ (∀ l, Tab.get s.loops n.val = some l → l.state = .openloop ∨ l.state = .running ∧ s.loopStale l = false →
      s.loopSlot n = if (if l.event then l.fresh else decide (s.now / 20000 % max 1 l.per = 0)) = true
        then s.loopEval n l else s)
    ∧ (∀ l, let sp := sx 32 (s.reg (R.LOP_SP n)).toNat
      let s1 := if l.taddr = 0 then s else (s.loopReg l.toff).1
      let r := l.evaluate sp (s.loopInput l) (if l.taddr = 0 then 0 else (s.loopReg l.toff).2)
      let d := r.1.detect r.2
      (d.2 = true → (s.loopEval n l).flag (F.LOP_ST_TRIP n) = true ∧ 336 ∈ (s.loopEval n l).flt.raised
        ∧ Tab.get (s.loopEval n l).loops n.val = some { d.1 with state := .frozen })
      ∧ (d.2 = false → let u : State := { s1 with loops := Tab.put s1.loops n.val d.1 }
        s.loopEval n l = if l.doff = 0 then u else u.regWrite false l.doff (BitVec.ofNat 32 d.1.outWord)))
    ∧ (∀ (l : Loop) (sp y : Int) (pos : Nat), let r := l.evaluate sp y pos
      (l.omin ≤ l.omax → l.oslew = 0 → l.omin ≤ r.1.uPrev ∧ r.1.uPrev ≤ l.omax)
      ∧ (l.first = false → l.oslew ≠ 0 → l.uPrev - l.oslew ≤ r.1.uPrev ∧ r.1.uPrev ≤ l.uPrev + l.oslew)
      ∧ (l.state ≠ .running → r.1.i = l.i)
      ∧ (l.first = false → l.uPrev = l.omax → l.slew = 0 → l.restart = false → y < sp → r.1.i = l.i)
      ∧ (l.restart = true → r.1.spr = y ∧ r.2 = 0)
      ∧ (l.restart = false → l.slew = 0 → r.1.spr = sp)
      ∧ (l.restart = false → l.slew ≠ 0 → l.spr - l.slew ≤ r.1.spr ∧ r.1.spr ≤ l.spr + l.slew)
      ∧ r.1.yPrev = y)
    ∧ (∀ (l : Loop) (e : Int), (l.oscWin = 0 ∨ l.sign = none ∨ e.natAbs ≤ l.oscAmp → (l.detect e).2 = false)
      ∧ (l.oscWin ≠ 0 → l.sign = some true → e < -(l.oscAmp : Int) → (l.detect e).1.sign = some false
        ∧ (l.detect e).1.crossings = (l.evals :: l.crossings).take 15
        ∧ (∀ old, ((l.evals :: l.crossings).take 15)[l.oscN - 1]? = some old → old ≤ l.evals → l.evals < 2 ^ 32 →
            (l.detect e).2 = decide (l.evals - old < l.oscWin))))
    -- commands of the slots (R374, R377, R379)
    ∧ (∀ cmd ∈ [Instr.loopStart v, .loopStop v, .tload v], exec cmd s = next (effLopCmd v s))
    ∧ (let slot := v.toNat % 64
      let rej := s.setFlag F.LOP_STATUS_CMD_REJ
      let cmd := bits v.toNat 8 3
      (Tab.get s.loops slot = none ∨ 1 < popc 3 cmd → effLopCmd v s = rej)
      ∧ (∀ l, Tab.get s.loops slot = some l →
        (cmd = 0 → effLopCmd v s = s)
        ∧ (cmd = 1 ∧ (l.state = .running ∨ l.state = .openloop) → effLopCmd v s = rej)
        ∧ (cmd = 1 ∧ (l.state = .stopped ∨ l.state = .frozen) →
          (l.taddr = 0 → exec (.loopStart v) s = next (s.modLoop slot (fun x => x.begin (s.now / 20000))))
          ∧ (l.taddr ≠ 0 → exec (.loopStart v) s
            = next ((s.copyTable slot l).modLoop slot (fun x => { x with startAfter := true }))))
        ∧ (cmd = 2 → exec (.loopStop v) s = next (s.loopStop slot))
        ∧ (cmd = 4 ∧ l.taddr ≠ 0 → exec (.tload v) s = next (s.copyTable slot l))
        ∧ (cmd = 4 ∧ l.taddr = 0 → effLopCmd v s = s)
        ∧ s.copyTable slot l = (s.readTable l.taddr).1.modLoop slot (fun x => { x with loading := some (s.readTable l.taddr).2 })))
    ∧ (∀ l : Loop, (l.begin 0).state = .running ∧ (l.begin 0).i = 0 ∧ (l.begin 0).restart = true ∧ (l.begin 0).first = true
        ∧ (l.begin 0).sign = none)
    ∧ ((∀ l, Tab.get s.loops n.val = some l → l.loading = none) → exec (.loopTableLoaded n) s = next s)
    ∧ (∀ l r, Tab.get s.loops n.val = some l → l.loading = some r → ∃ t : State,
        exec (.loopTableLoaded n) s = next t
        ∧ Tab.get t.loops n.val = some (if l.startAfter then
            { l with table := r.getD l.table, loading := none }.begin (s.now / 20000)
          else { l with table := r.getD l.table, loading := none })
        ∧ t.flag F.LOP_STATUS_TLOAD_ERR = (r.isNone || s.flag F.LOP_STATUS_TLOAD_ERR))
    ∧ (s.isOpen 0x06 n = false → exec (.loopSpWrite n v) s = next s)
    ∧ (s.isOpen 0x06 n = true → exec (.loopSpWrite n v) s
        = next ((s.setReg (R.LOP_SP n) v).modLoop n (fun l => { l with restart := true })))
    -- the web encoder (R380, R381, R398)
    ∧ (let s1 := s.modWeb (fun x => { x with lastA := a, lastB := b })
      let d := (quadPos a b + 4 - quadPos w.lastA w.lastB) % 4
      let run (u : State) : Prop := exec (.encoderTransition a b held) s = next u
      (held.toNat < s.fld F.WEB_CFG_FILT → run s)
      ∧ (s.fld F.WEB_CFG_FILT ≤ held.toNat → (d = 0 → run s1) ∧ (d = 2 → run ((s1.setFlag F.WEB_STATUS_ILLEGAL).raise 341))
        ∧ (d = 1 → run (s1.webCount (!s.flag F.WEB_CFG_DIRINV))) ∧ (d = 3 → run (s1.webCount (s.flag F.WEB_CFG_DIRINV)))))
    ∧ (w.raw.natAbs < 2 ^ 46 → ∀ up : Bool, let raw := w.raw + (if up then 1 else -1)
      (w.hw < raw → s.webCount up = s.modWeb (fun x => { x with
        raw := raw, hw := raw, rev := false
        rises := s.now :: x.rises.filter (fun t => decide (s.now < t + 1000000)) }))
      ∧ (raw ≤ w.hw → let u := s.modWeb (fun x => { x with raw := raw })
        s.webCount up = if (s.webJ : Int) < w.hw - raw ∧ w.rev = false then
          (((u.modWeb (fun x => { x with rev := true })).setFlag F.WEB_STATUS_REV).raise 340).each (s.pagesIn .printing)
            (fun t i => t.spoilWhole i 9)
          else u))
    ∧ (v.getLsbD 0 = false → exec (.webZero v) s = next s)
    ∧ (v.getLsbD 0 = true →
      (s.pagesIn .printing = [] → exec (.webZero v) s = next (s.modWeb (fun x => { x with raw := 0, hw := 0, rev := false })))
      ∧ (s.pagesIn .printing ≠ [] → exec (.webZero v) s = next (s.setFlag F.WEB_CMDST_CMD_REJ)))
    -- the cameras (R384 to R389, R394, R395)
    ∧ (s.hasCam c = true →
      let none_ := s.modCam c (fun x => { x with noFrame := (x.noFrame + 1) % 65536 })
      let packets := [Instr.csiFrameStart cam hdr, .csiLineStart cam hdr, .csiLongPacket cam hdr body, .csiFrameEnd cam hdr]
      let d := hdr.toNat % 2 ^ 24
      let syn := csiEcc d ^^^ bits hdr.toNat 24 6
      (syn = 0 ∨ popc 6 syn = 1 → csiHeader hdr = some (bits d 6 2, bits d 0 6, bits d 8 16))
      ∧ (s.camOn c = (s.flag (F.CAM_CTRL_EN c) && !(vget s.plls 15).gated))
      ∧ (s.camOn c = false → ∀ cmd ∈ packets, exec cmd s = next s)
      ∧ (s.camOn c = true →
        (csiHeader hdr = none → ∀ cmd ∈ packets, exec cmd s = next (s.modCam c (fun x => { x with hdrErr := (x.hdrErr + 1) % 256 })))
        ∧ (∀ vc dt wc, csiHeader hdr = some (vc, dt, wc) →
          (vc = 3 → ∀ cmd ∈ packets, exec cmd s = next (s.modCam c (fun x => { x with vc3 := (x.vc3 + 1) % 65536 })))
          ∧ (vc ≠ 3 →
            exec (.csiFrameStart cam hdr) s = next (if vc = 0 ∧ dt = 0 then s.camOpen c else s)
            ∧ exec (.csiLineStart cam hdr) s = next (if vc = 0 ∧ dt = 2 then s.camLineStart c else s)
            ∧ exec (.csiFrameEnd cam hdr) s = next (if vc = 0 ∧ dt = 1 then s.camEnd c else s)
            ∧ exec (.csiLongPacket cam hdr body) s = next (s.camLong c vc dt
                (decide (wc + 2 ≤ body.length) && entLe body wc 2 == csiCrc (body.take wc)) (body.take wc)))))
      ∧ (s.flag (F.CAM_CTRL_BYPASS c) = true → s.camOpen c = none_)
      ∧ (s.flag (F.CAM_CTRL_BYPASS c) = false →
        let s1 := if cs.frame.isSome then s.camTimeout c else s
        let s2 := if s1.flag (F.CAM_STATUS_LOAD_PEND c) then s1.takeCfg c else s1
        let k := vget s2.cams c
        (k.cfg = none → s.camOpen c = s2.modCam c (fun x => { x with noFrame := (x.noFrame + 1) % 65536 }))
        ∧ (k.cfg.isSome = true → (s.camOpen c).flag (F.CAM_STATUS_FRAME_OPEN c) = true
          ∧ (vget (s.camOpen c).cams c).frames = (k.frames + 1) % 2 ^ 32
          ∧ (vget (s.camOpen c).cams c).frame.map (fun f => (f.number, f.tFs, f.lines, f.counts))
            = some ((k.frames + 1) % 2 ^ 32, s2.now, [], [0, 0, 0])))
      ∧ (cs.frame = none ∨ cs.cfg = none → s.camLineStart c = none_ ∧ s.camEnd c = none_
        ∧ ∀ vc dt crcOk payload, s.camLong c vc dt crcOk payload = none_)
      ∧ (∀ f g, cs.frame = some f → cs.cfg = some g →
        (f.dropped = true → s.camLineStart c = s ∧ ∀ vc dt crcOk payload, s.camLong c vc dt crcOk payload = s)
        ∧ (f.dropped = false → s.camLineStart c = s.modCam c (fun x => { x with frame := some { f with
            tags := (lget f.counts 0, s.camTag g) :: f.tags.filter (fun e => e.1 != lget f.counts 0) } }))
        ∧ s.camEnd c = (s.each ((List.range (f.counts.foldl max 0)).filter (fun l => decide (f.lines.length ≤ l) && !f.dropped))
            (fun t l => t.camComplete c g l)).camClose c ⟨false, false⟩
        ∧ (f.dropped = false → ∀ vc dt crcOk payload, let l := lget f.counts vc
          let lenOk := payload.length * 8 == g.width * g.spp * g.depth && dt == 0x2B + g.fmt
          (dt < 0x2B ∨ 0x2D < dt → s.camLong c vc dt crcOk payload = s.modCam c (fun x => { x with dtErr := (x.dtErr + 1) % 256 }))
          ∧ (0x2B ≤ dt ∧ dt ≤ 0x2D →
            (g.nexp ≤ vc → s.camLong c vc dt crcOk payload = s)
            ∧ (vc < g.nexp → 4096 ≤ l →
              s.camLong c vc dt crcOk payload = s.modCam c (fun x => { x with frame := some { f with trunc := true } }))
            ∧ (vc < g.nexp → vc < 3 → l < 4096 → ∃ (u : State) (f1 : CamFrame),
              s.camLong c vc dt crcOk payload = (if (f1.exposures l).length < g.nexp then u else u.camComplete c g l)
              ∧ (vget u.cams c).frame = some f1 ∧ lget f1.counts vc = l + 1 ∧ f1.lines = f.lines
              ∧ f1.waiting = f.waiting ++ [(l, vc, crcOk && lenOk, if crcOk && lenOk then g.samples payload else [])]
              ∧ (vget u.cams c).crcErr = (cs.crcErr + b2n (!crcOk)) % 256
              ∧ (vget u.cams c).lenErr = (cs.lenErr + b2n (!lenOk)) % 256))))
      ∧ (cs.frame = none → exec (.cameraFrameTimeout cam) s = next s)
      ∧ (∀ f, cs.frame = some f →
        (s.now < f.tFs + max 1 (s.fld (F.CAM_FTMO_FTMO c)) * 1000000 → exec (.cameraFrameTimeout cam) s = next s)
        ∧ (f.tFs + max 1 (s.fld (F.CAM_FTMO_FTMO c)) * 1000000 ≤ s.now → exec (.cameraFrameTimeout cam) s
          = next (((s.camClose c ⟨true, false⟩).setFlag (F.CAM_STATUS_TIMEOUT c)).raise (344 + 2 * c))))
      ∧ (let lanes := bits v.toNat 3 2
        let s1 := if s.flag (F.CAM_CTRL_EN c) = true ∨ lanes = 3 then s else s.setFld (F.CAM_CTRL_LANES c) lanes
        let s2 := (s1.setFld (F.CAM_CTRL_EN c) (v.toNat % 2)).setFld (F.CAM_CTRL_BYPASS c) (bits v.toNat 1 1)
        let s3 := if v.getLsbD 2 then s2.setFlag (F.CAM_STATUS_LOAD_PEND c) else s2
        let u := (s3.camClose c ⟨false, true⟩).each s3.loops (fun t e => if e.2.camera = some c then t.openLoop e.1 else t)
        (v.getLsbD 1 = false → exec (.camLoad cam v) s = next s3 ∧ exec (.camBypass cam v) s = next s3)
        ∧ (v.getLsbD 1 = true → exec (.camBypass cam v) s = next u ∧ exec (.camLoad cam v) s = next u)
        ∧ (v.getLsbD 2 = true → s3.flag (F.CAM_STATUS_LOAD_PEND c) = true)
        ∧ s3.flag (F.CAM_CTRL_EN c) = v.getLsbD 0 ∧ s3.flag (F.CAM_CTRL_BYPASS c) = v.getLsbD 1 ∧ s3.cams = s.cams))

/-! ### Power, thermal management and clocks (R401 to R432) -/

/-- R403 to R429: the rail sequence and its aborts, judgement of rails and VIN, the boot checks, the course of a drydown,
the thermal round and its acknowledgement, and the synthesizers and their reference. -/
def Obligations.PowerAndClocks : Prop :=
  ∀ (s : State) (mv : BitVec 16) (high low valid : BitVec 40) (r : Fin 16) (good answered flashOk ft : Bool)
    (image : List Byte) (v : Word) (i : Fin 16) (raw : List (Option Int)) (bus : List I2cReply) (err : Int) (held : BitVec 32)
    (quiet : BitVec 16) (cycles : BitVec 24),
    let next (t : State) : Host.Outcome State Fault Refusal := .next t.finish
    let p := s.pwr
    let tab := p.table
    let n := i.val
    -- the sequence (R404, R407)
    (p.phase ≠ .off ∨ p.waitPress = true ∨ s.vinGood = false → exec .vinQualified s = next s)
    ∧ (p.phase = .off ∧ p.waitPress = false ∧ s.vinGood = true → exec .vinQualified s = next s.powerUp)
    ∧ (s.vinGood = true ↔ ∃ t0, p.vinOkSince = some t0 ∧ t0 + s.pickTable.1.vinFilt * 1000 ≤ s.now)
    ∧ ((∀ k, p.phase ≠ .seq k) → exec (.seqStepQualified mv high) s = next s ∧ exec (.seqStepAbort mv high) s = next s
        ∧ exec (.sequenceBounce low) s = next s)
    ∧ (∀ u k, State.stepDone u k = if k + 1 < u.pwr.table.steps.length then u.beginStep (k + 1) else u.seqDone)
    ∧ (∀ k x, p.phase = .seq k → tab.steps[k]? = some x →
      let m := s.modPwr (fun q => { q with rails := Tab.put q.rails x.rail mv.toNat })
      let l := tab.rail x.rail
      let late := p.since + x.tmo * 1000000 ≤ s.now
      let win := x.qual * 1000000 ≤ high.toNat ∧ p.window + x.qual * 1000000 ≤ s.now
      let fits := l.within l.flo l.fhi mv.toNat = true
      (x.op = .delay → exec (.seqStepAbort mv high) s = next s ∧ exec (.sequenceBounce low) s = next s
        ∧ (late → exec (.seqStepQualified mv high) s = next (s.stepDone k))
        ∧ (¬ late → exec (.seqStepQualified mv high) s = next s))
      ∧ (x.op ≠ .delay →
        (¬ win ∧ ¬ late → exec (.seqStepQualified mv high) s = next s)
        ∧ (win ∧ fits → exec (.seqStepQualified mv high) s
          = next (((m.setFlag (F.PWR_RAIL_GOOD x.rail)).setFlag (F.PWR_RAIL_ON x.rail)).stepDone k))
        ∧ (win ∧ ¬ fits ∨ ¬ win ∧ late → exec (.seqStepQualified mv high) s
          = next ((m.setFlag (F.PWR_RAIL_GOOD x.rail)).seqAbort x))
        ∧ (late ∨ win ∧ ¬ fits → exec (.seqStepAbort mv high) s = next (m.seqAbort x))
        ∧ (¬ late ∧ (win → fits) → exec (.seqStepAbort mv high) s = next s)
        ∧ (low.toNat < 1000 → exec (.sequenceBounce low) s = next s)
        ∧ (1000 ≤ low.toNat → let u := s.modPwr (fun q => { q with bounces := q.bounces + 1, window := s.now })
          exec (.sequenceBounce low) s = next (if p.bounces < 3 then u else u.seqAbort x))))
    ∧ (∀ x : SeqStep, s.seqAbort x = (s.modPwr (fun q => { q with aborts := q.aborts + 1 })).drydown 8 x.rail p.bounces)
    ∧ (∀ cause rail b, cause < 9 → (p.phase.dryRuns = true →
        s.drydown cause rail b = s.setFld F.PWR_CAUSE_MASK (s.fld F.PWR_CAUSE_MASK ||| 2 ^ (cause - 1)))
      ∧ (p.phase = .off ∨ p.phase = .holdoff → s.drydown cause rail b = s))
    -- judgement (R405, R406)
    ∧ (let l := tab.rail r
      let j := Tab.getD p.judges r default
      let k := j.next (!l.within l.wlo l.whi mv.toNat) (!l.within l.flo l.fhi mv.toNat) (!good) l.wfilt l.ffilt s.now
      (p.phase.judged = false ∨ l.use = false ∨ j.due s.now = false → exec (.railJudgement r mv good) s = next s)
      ∧ (p.phase.judged = true ∧ l.use = true ∧ j.due s.now = true → exec (.railJudgement r mv good) s = next
        (((s.modPwr (fun q => { q with rails := Tab.put q.rails r mv.toNat, judges := Tab.put q.judges r k })).putFlag
          (F.PWR_RAIL_GOOD r) good).railReact r j k)))
    ∧ (∀ (u : State) (j k : Judge),
      let w := if k.warned = true ∧ j.warned = false then
        ((u.setFlag (F.PWR_RAIL_WARN r)).raise (if r.val < 8 then 352 else 354)).raiseEv (u.fld F.PWR_EVGRP_HANDLE) 2 else u
      (k.faulted = false ∨ j.faulted = true → u.railReact r j k = w)
      ∧ (k.faulted = true ∧ j.faulted = false → u.railReact r j k = if r.val < 8 then
          ((w.setFlag (F.PWR_RAIL_FAULT r)).raise 353).drydown 2 r else (w.setFlag (F.PWR_RAIL_FAULT r)).raise 355))
    ∧ (∀ (j : Judge) (now : Nat), j.due now = true ↔ ∀ t0, j.last = some t0 → t0 + 10000 ≤ now)
    ∧ (∀ (j : Judge) (w f l : Bool) (wf ff now : Nat), let k := j.next w f l wf ff now
      (k.warned = true ↔ w = true ∧ j.warnSince.getD now + wf * 1000 ≤ now)
      ∧ (k.faulted = true ↔ (f = true ∧ j.faultSince.getD now + ff * 1000 ≤ now)
        ∨ (l = true ∧ j.lowSince.getD now + ff * 1000 ≤ now)))
    ∧ (p.vinJudge.due s.now = false → exec (.vinJudgement mv) s = next s)
    ∧ (p.vinJudge.due s.now = true →
      let on := s.pickTable.1.vinOn
      let s0 := s.modPwr (fun q => { q with
        vin := mv.toNat, vinOkSince := if on ≤ mv.toNat then some (q.vinOkSince.getD s.now) else none
        vinJudge := { q.vinJudge with last := some s.now }
        waitPress := q.waitPress && !(q.phase == .off && decide (mv.toNat < on)) })
      let k := p.vinJudge.next (decide (mv.toNat < tab.vinWarn)) (decide (mv.toNat < tab.vinFault)) false tab.vinFilt
        tab.vinFilt s.now
      (p.phase.judged = false → exec (.vinJudgement mv) s = next s0)
      ∧ (p.phase.judged = true → exec (.vinJudgement mv) s = next
        (((s0.modPwr (fun q => { q with vinJudge := k })).putFlag F.PWR_STATUS_VINWARN k.warned).vinReact p.vinJudge k)))
    ∧ (∀ (u : State) (j k : Judge),
      let w := if k.warned = true ∧ j.warned = false then (u.raise 356).raiseEv (u.fld F.PWR_EVGRP_HANDLE) 4 else u
      u.vinReact j k = if k.faulted = true ∧ j.faulted = false then (w.raise 357).drydown 1 else w)
    -- the boot image (R409, R410)
    ∧ (p.phase ≠ .training ∧ p.phase ≠ .booting → exec (.bootImageCheck answered flashOk image) s = next s)
    ∧ (p.phase = .training ∧ s.flag F.MEM_LOCK_LOCK = false ∨ p.phase = .booting →
      (answered = false → exec (.bootImageCheck answered flashOk image) s = next (s.slotFail 1))
      ∧ (answered = true ∧ hdrOk image = false → exec (.bootImageCheck answered flashOk image) s = next (s.slotFail 2))
      ∧ (answered = true ∧ hdrOk image = true ∧ s.memCfgOk image = false →
        exec (.bootImageCheck answered flashOk image) s = next (s.slotFail 3)))
    ∧ (answered = true ∧ hdrOk image = true ∧ s.memCfgOk image = true →
      (p.phase = .training ∧ s.flag F.MEM_LOCK_LOCK = false → exec (.bootImageCheck answered flashOk image) s
        = next (((s.setMemCfg (imgMem image)).setFlag F.MEM_LOCK_LOCK).bootPl1 (bits (imgMem image) 0 2)))
      ∧ (p.phase = .booting → ∀ t, (∀ k, s.bootChecks image flashOk none = (t, some k) →
          exec (.bootImageCheck answered flashOk image) s = next (t.slotFail k))
        ∧ (s.bootChecks image flashOk none = (t, none) → exec (.bootImageCheck answered flashOk image) s
          = next ((t.raiseIf t.pwr.slotB 358).release image (b2n t.pwr.slotB)))))
    ∧ (let t := s.loadSecs image
      (s.secsOk image none = false → s.bootChecks image flashOk none = (s, some 4))
      ∧ (s.secsOk image none = true →
        (flashOk = false → s.bootChecks image flashOk none = (s, some 5))
        ∧ (flashOk = true →
          (t.keyOk image = false → s.bootChecks image flashOk none = (t, some 6))
          ∧ (t.keyOk image = true → sigOk image = false → s.bootChecks image flashOk none = (t, some 7))
          ∧ (t.keyOk image = true → sigOk image = true → s.bootChecks image flashOk none
            = (t, if imgSvn image < t.fuses.svnMin then some 8 else none)))))
    ∧ (∀ k, (p.slotB = false →
        s.slotFail k = (s.setFld F.PWR_STATUS_FAILSTEP k).modPwr (fun q => { q with slotB := true }))
      ∧ (p.slotB = true → s.slotFail k = (s.setFld F.PWR_STATUS_FAILSTEP k).bootFail))
    ∧ (ft = false ∨ v.getLsbD 0 = false ∨ p.phase ≠ .bootfail ∨ s.flag F.MEM_STATUS_INIT_DONE = false →
      exec (.bootGo ft v) s = next s)
    ∧ (ft = true ∧ v.getLsbD 0 = true ∧ p.phase = .bootfail ∧ s.flag F.MEM_STATUS_INIT_DONE = true → ∀ a t hd u l,
      a = s.addr40 R.PWR_BOOT_ADDR_LO R.PWR_BOOT_ADDR_HI / 256 * 256 → s.memRead reqTalosh a 256 = (t, .data hd) →
      t.memRead reqTalosh a (min (imgLen hd) 0x800000) = (u, .data l) → ∀ w,
      (∀ k, u.bootChecks l true (some a) = (w, some k) → exec (.bootGo ft v) s = next (w.setFld F.PWR_STATUS_FAILSTEP k))
      ∧ (u.bootChecks l true (some a) = (w, none) → exec (.bootGo ft v) s = next (w.release l 2)))
    ∧ (ft = true ∧ v.getLsbD 0 = true ∧ p.phase = .bootfail ∧ s.flag F.MEM_STATUS_INIT_DONE = true →
      let a := s.addr40 R.PWR_BOOT_ADDR_LO R.PWR_BOOT_ADDR_HI / 256 * 256
      let fail (u : State) (k : Nat) : Prop := exec (.bootGo ft v) s = next (u.setFld F.PWR_STATUS_FAILSTEP k)
      (∀ t, s.memRead reqTalosh a 256 = (t, .unmapped) → fail t 4)
      ∧ (∀ t e, s.memRead reqTalosh a 256 = (t, .ecc e) → fail t 5)
      ∧ (∀ t hd, s.memRead reqTalosh a 256 = (t, .data hd) →
        (∀ u, t.memRead reqTalosh a (min (imgLen hd) 0x800000) = (u, .unmapped) → fail u 4)
        ∧ (∀ u e, t.memRead reqTalosh a (min (imgLen hd) 0x800000) = (u, .ecc e) →
          fail u (if u.secsOk hd (some a) then 5 else 4))))
    -- drydown (R412, R413)
    ∧ (bits v.toNat 8 8 ≠ 0x5A ∨ v.getLsbD 0 = false → exec (.pwrCmdDrydown v) s = next s)
    ∧ (bits v.toNat 8 8 = 0x5A ∧ v.getLsbD 0 = true →
      (p.phase = .off ∨ p.phase = .holdoff → exec (.pwrCmdDrydown v) s = next s)
      ∧ (p.phase ≠ .off ∧ p.phase ≠ .holdoff → exec (.pwrCmdDrydown v) s
        = next ((s.drydown 7).modPwr (fun q => { q with stayOff := q.stayOff || v.getLsbD 1 }))))
    ∧ (p.phase ≠ .drydown ∨ s.now < p.since + s.parkMs * 1000000 → exec .drydownParkDone s = next s)
    ∧ (p.phase = .drydown ∧ p.since + s.parkMs * 1000000 ≤ s.now →
      exec .drydownParkDone s = next (s.withdrawBelow tab.steps.length))
    ∧ ((∀ k, p.phase ≠ .withdraw (k + 1)) → exec (.drydownRailOff good) s = next s)
    ∧ (∀ k, p.phase = .withdraw (k + 1) →
      (good = true ∧ s.now < p.since + 10000000 → exec (.drydownRailOff good) s = next s)
      ∧ (good = false ∨ p.since + 10000000 ≤ s.now → exec (.drydownRailOff good) s
        = next ((s.putFlag (F.PWR_RAIL_GOOD ((tab.steps.getD k default).rail)) good).withdrawBelow k)))
    ∧ (let lit (j : Nat) : Prop := ∃ x, tab.steps[j]? = some x ∧ x.op = .on ∧ s.flag (F.PWR_RAIL_ON x.rail) = true
      ∀ k, ((∀ j < k, ¬ lit j) → s.withdrawBelow k = s.modPwr (fun q => { q with phase := .withdraw 0 }))
        ∧ (∀ j < k, lit j → (∀ l < k, j < l → ¬ lit l) → s.withdrawBelow k
          = (s.withdrawRail (tab.steps.getD j default).rail).modPwr (fun q => { q with phase := .withdraw (j + 1), since := s.now })))
    ∧ (p.phase ≠ .withdraw 0 → exec .drydownEnd s = next s)
    ∧ (p.phase = .withdraw 0 → exec .drydownEnd s = next ((s.each (List.range 8) State.stopPass).closeAll.modPwr
      (fun q => { q with phase := .holdoff, since := s.now })))
    ∧ (s.closeAll.objs = [] ∧ s.closeAll.jobs = [] ∧ s.closeAll.pages = [] ∧ s.closeAll.rings = [] ∧ s.closeAll.timers = [])
    ∧ (p.phase ≠ .holdoff ∨ s.now < p.since + 250000000 → exec .holdoffEnd s = next s)
    ∧ (p.phase = .holdoff ∧ p.since + 250000000 ≤ s.now →
      (p.pressKept = false ∧ s.staysOff = true →
        exec .holdoffEnd s = next (s.modPwr (fun q => { q with phase := .off, stayOff := false, waitPress := true })))
      ∧ (p.pressKept = true ∨ s.staysOff = false → exec .holdoffEnd s
        = next (if s.vinGood then s.powerUp else s.modPwr (fun q => { q with phase := .off, stayOff := false }))))
    -- the thermal round (R415 to R423)
    ∧ (s.now % 10000000 ≠ 0 ∨ s.thm.roundAt = some s.now → exec (.thermalRound raw bus) s = next s)
    ∧ (s.now % 10000000 = 0 ∧ s.thm.roundAt ≠ some s.now →
      let s1 := (s.modThm (fun t => { t with roundAt := some s.now })).each (List.range 64) (fun t c => t.thmChannel c
        (if c < 56 then (raw.getD c none).map (thmCode c) else (bus.getD (c - 56) default).value))
      let s2 := s1.setFld F.THM_FUSER_PHASE_CAP (256 - s1.thmExcess [2] * s1.fld F.THM_FUSER_FRATE / 16)
      exec (.thermalRound raw bus) s = next ((((s2.setFld F.THM_SPD_CH_REQ s2.chReq).peakRound).each (List.range 4)
        State.hdaWindow).each (List.range 16) State.holdCorr))
    ∧ (∀ q : I2cReply, q.value = if q.acks = 7 ∧ q.stretch.toNat ≤ 1000 then some (256 * q.first.toNat + q.second.toNat) else none)
    ∧ (∀ (lim eng : Int) (was : Bool), lim ≠ 0x7FFF → (levelFlag lim eng was = true ↔ lim ≤ eng ∨ was = true ∧ lim - 16 < eng))
    ∧ (∀ eng was, levelFlag 0x7FFF eng was = false)
    ∧ (let mx := s.fld F.THM_PEAKCFG_PEAK_MAX
      (s.peakJob = true → let acc := if s.thm.acc < mx then s.thm.acc + 1 else s.thm.acc
        let u := s.modThm (fun t => { t with acc := acc, recov := 0 })
        s.peakRound = if mx ≤ acc ∧ s.flag F.THM_PEAK_OVER = false then (u.setFlag F.THM_PEAK_OVER).raise 364 else u)
      ∧ (s.peakJob = false →
        (s.thm.recov + 1 < max 1 (s.fld F.THM_PEAKCFG_RECOV) →
          s.peakRound = s.modThm (fun t => { t with recov := t.recov + 1 }))
        ∧ (max 1 (s.fld F.THM_PEAKCFG_RECOV) ≤ s.thm.recov + 1 →
          let u := s.modThm (fun t => { t with acc := s.thm.acc - 1, recov := 0 })
          s.peakRound = if s.thm.acc ≤ 1 then (u.clrFlag F.THM_PEAK_OVER).setFld F.THM_PEAK_PEAK_REQ 0 else u)))
    ∧ (ft = false ∨ bits v.toNat 16 8 ≠ 0xA5 ∨ s.flag F.THM_TSD_TSD_LOCK = false ∨ bits v.toNat 0 16 ≠ s.fld F.THM_TSD_SEQ →
      exec (.tsdAck ft v) s = next s)
    ∧ (ft = true ∧ bits v.toNat 16 8 = 0xA5 ∧ s.flag F.THM_TSD_TSD_LOCK = true ∧ bits v.toNat 0 16 = s.fld F.THM_TSD_SEQ →
      exec (.tsdAck ft v) s = next ((s.clrFlag F.THM_TSD_TSD_LOCK).modThm (fun t => { t with tsd := false })))
    -- the synthesizers (R424 to R429)
    ∧ (s.hasPll n = true →
      (n < 3 ∨ 6 < n → exec (.clkApply i v) s = next (s.setFlag (F.CLK_STATUS_CFG_BUSY n)))
      ∧ (3 ≤ n ∧ n ≤ 6 ∧ bits v.toNat 1 2 = 3 → exec (.clkApply i v) s = next (s.setFlag (F.CLK_STATUS_CFG_ERR n)))
      ∧ (3 ≤ n ∧ n ≤ 6 ∧ bits v.toNat 1 2 ≠ 3 →
        let w0 := (s.plainWrite (R.CLK_CTRL n) v).pendRefresh n
        let w := if s.flag (F.CLK_CTRL_EN n) = true ∧ v.getLsbD 0 = false then
          ((w0.pixelLost (n - 3)).clrFlag (F.CLK_STATUS_LOCK n)).modPll n (fun q => { q with gated := true, lossGated := false })
          else w0
        (v.getLsbD 7 = false → exec (.clkApply i v) s = next w)
        ∧ (v.getLsbD 7 = true →
          ((w.jobOn (n - 3)).isSome = true → exec (.clkApply i v) s = next (w.setFlag (F.CLK_STATUS_CFG_BUSY n)))
          ∧ (w.jobOn (n - 3) = none ∧ pllLimits n (w.staged n) = false →
            exec (.clkApply i v) s = next (w.setFlag (F.CLK_STATUS_CFG_ERR n)))
          ∧ (w.jobOn (n - 3) = none ∧ pllLimits n (w.staged n) = true → exec (.clkApply i v) s = next (w.applyPll n))))
      ∧ (s.pllRuns n = false ∨ s.flag (F.CLK_STATUS_LOCK n) = true → exec (.clkLockAcquired i) s = next s)
      ∧ (s.pllRuns n = true ∧ s.flag (F.CLK_STATUS_LOCK n) = false →
        let s2 := (s.setFlag (F.CLK_STATUS_LOCK n)).modPll n (fun q => if (s.pll n).lossGated then
          { q with relockAt := some s.now, fromApply := false } else { q with gated := false, fromApply := false })
        let s3 := if 7 ≤ n ∧ n ≤ 14 then s2.noteDisk (n - 7) else s2
        exec (.clkLockAcquired i) s = next (if (s.pll n).fromApply = true ∧ 3 ≤ n ∧ n ≤ 6 then s3.setUnit (n - 3) else s3))
      ∧ (let f := pllDco n (s.pll n).force
        let far := 1000000000000000 * f.2 < err.natAbs * 8 * f.1 ∧ 1000 ≤ held.toNat
        (s.flag (F.CLK_STATUS_LOCK n) = false ∨ ¬ far → exec (.clkLossOfLock i err held) s = next s)
        ∧ (s.flag (F.CLK_STATUS_LOCK n) = true ∧ far →
          let t := ((s.clrFlag (F.CLK_STATUS_LOCK n)).setFlag (F.CLK_STATUS_LOL n)).modPll n (fun q => { q with
            gated := true, lossGated := true, relockAt := none, fromApply := false, refGated := false })
          let run (u : State) : Prop := exec (.clkLossOfLock i err held) s = next u
          (n < 2 → run (t.raise 368))
          ∧ (n = 2 → run (((t.raise 369).each (List.range 4) State.elkLose).acdDown (some t.now)))
          ∧ (3 ≤ n ∧ n ≤ 6 → run (((t.raise 370).pixelPages (n - 3)).pixelStop (n - 3)))
          ∧ (n = 15 → run (t.raise 372))
          ∧ (7 ≤ n ∧ n ≤ 14 → run (((t.raise 371).raiseIf (t.sectorBusy (n - 7)) (235 + 4 * (n - 7))).guardClose (n - 7)))))
      ∧ ((s.pll n).relockAt = none ∨ s.flag (F.CLK_STATUS_LOCK n) = false → exec (.clkOutputRestart i) s = next s)
      ∧ (∀ t0, (s.pll n).relockAt = some t0 → s.flag (F.CLK_STATUS_LOCK n) = true →
        (s.now < t0 + 100000 → exec (.clkOutputRestart i) s = next s)
        ∧ (t0 + 100000 ≤ s.now → exec (.clkOutputRestart i) s
          = next (s.modPll n (fun q => { q with gated := false, lossGated := false, relockAt := none }))))
      ∧ exec (.clkLockWrite i v) s = next (s.plainWrite (R.CLK_LOCK n) v)
      ∧ (s.plainWrite (F.CLK_LOCK_LOCK n).key v).flag (F.CLK_LOCK_LOCK n) = (s.flag (F.CLK_LOCK_LOCK n) || v.getLsbD 0))
    ∧ (let gone := 100 ≤ quiet.toNat ∨ cycles.toNat < 99950 ∨ 100050 < cycles.toNat
      let s1 := (s.setFlag F.CLK_REF_REFLOST).raise 373
      (s.ref.lost = true ∨ ¬ gone → exec (.refclkLoss quiet cycles) s = next s)
      ∧ (s.ref.lost = false ∧ gone →
        (s.flag F.CLK_REF_SRC = true → exec (.refclkLoss quiet cycles) s = next { s1 with ref := { s.ref with lost := true } })
        ∧ (s.flag F.CLK_REF_SRC = false → exec (.refclkLoss quiet cycles) s
          = next (({ s1 with ref := ⟨true, some s.now⟩ } : State).each (List.range 7) (fun t k =>
            if t.pllRuns k = false ∨ t.flag (F.CLK_STATUS_LOCK k) = false then t
            else if t.flag (F.CLK_CTRL_HOLD_EN k) = true then (t.setFlag (F.CLK_STATUS_HOLD k)).modPll k
              (fun q => { q with holdSince := some s.now, holdLong := false, switchWait := false })
            else t.unlock k true)))))
    ∧ (s.ref.switchDue = none → exec .refSwitch s = next s)
    ∧ (∀ t0, s.ref.switchDue = some t0 →
      let ms := max 1 (s.fld F.CLK_REF_REF_SW) * 1000000
      (s.now < t0 + ms → exec .refSwitch s = next s)
      ∧ (t0 + ms ≤ s.now → exec .refSwitch s = next { s.refChange true with ref := { s.ref with switchDue := none } }))
    ∧ (valid.toNat < 100000000 → exec (.refclkRestore valid) s = next s)
    ∧ (100000000 ≤ valid.toNat → let s1 : State := { s with ref := { s.ref with lost := false } }
      exec (.refclkRestore valid) s = next (if s.flag F.CLK_REF_SRC = true then s1.refChange false else s1))
    ∧ (∀ k, s.holdOver k = true ↔ ∃ t0, (s.pll k).holdSince = some t0 ∧ (s.pll k).holdLong = false
      ∧ t0 + max 1 (s.fld F.CLK_REF_HO_MAX) * 1000000000 < s.now)
    ∧ exec .holdoverTimeout s = next ((s.raiseIf ((List.range 7).any s.holdOver) 374).each ((List.range 7).filter s.holdOver)
      (fun t k => t.modPll k (fun q => { q with holdLong := true })))

/-! ### Faults, accord pairs and service (R435 to R466, R485, R486) -/

/-- R438, R443, R444: an incident is closed by the right write before its time and escalates at its time, the escalation
standing if both meet; ALIVE toggles at every 500 µs while HEALTHY and ALIVE_EN are set and falls at the next toggle point
otherwise; the watchdog's kick and its expiry; and R442's write of HEALTHY. -/
def Obligations.IncidentsAndOutputs : Prop :=
  ∀ (s : State) (v : Word),
    let next (t : State) : Host.Outcome State Fault Refusal := .next t.finish
    -- incidents (R438)
    (s.flag F.FLT_INC_OPEN = false ∨ s.now < s.flt.incDeadline → exec .incidentEscalation s = next s)
    ∧ (let src := s.fld F.FLT_INC_INC_SRC
      let set := s.flt.incReact
      let merged := s.fld F.FLT_INC_MERGED
      let c := (((s.clrFlag F.FLT_INC_OPEN).setFlag F.FLT_INC_ESCALATED).raise 16).clrFlag F.FLT_CTRL_HEALTHY
      let e := ((c.notice src 3 set merged).sillage 5 (leBytes 2 src ++ leBytes 1 set ++ leBytes 2 merged)).react set
      (s.flag F.FLT_INC_OPEN = true ∧ s.flt.incDeadline ≤ s.now → exec .incidentEscalation s = next e
        ∧ (bits v.toNat 0 9 = src ∧ bits v.toNat 16 8 = 0x5A → exec (.incClr v) s = next e))
      ∧ (s.flag F.FLT_INC_OPEN = true ∧ s.now < s.flt.incDeadline ∧ bits v.toNat 0 9 = src ∧ bits v.toNat 16 8 = 0x5A →
        exec (.incClr v) s = next ((s.clrFlag F.FLT_INC_OPEN).notice src 4 0 merged))
      ∧ (s.flag F.FLT_INC_OPEN = false ∨ bits v.toNat 0 9 ≠ src ∨ bits v.toNat 16 8 ≠ 0x5A → exec (.incClr v) s = next s))
    -- fault outputs (R442 to R444)
    ∧ (∃ t : State, exec (.healthySet v) s = next t
        ∧ t.flag F.FLT_CTRL_HEALTHY = (s.flag F.FLT_CTRL_HEALTHY || v.getLsbD 0)
        ∧ t.fld F.FLT_CTRL_WDOG = bits v.toNat 8 8
        ∧ (v.getLsbD 0 = true → t.flag F.FLT_PINS_BLANKED = false)
        ∧ t.flt = { s.flt with kickAt := if s.fld F.FLT_CTRL_WDOG = 0 ∨ v.getLsbD 0 = true ∧ s.flag F.FLT_CTRL_HEALTHY = false
            then s.now else s.flt.kickAt })
    ∧ exec (.fltKick v) s = next (s.modFlt (fun f => { f with kickAt := s.now }))
    ∧ (let w := s.fld F.FLT_CTRL_WDOG
      (w = 0 ∨ s.flag F.FLT_CTRL_HEALTHY = false ∨ s.now < s.flt.kickAt + w * 1000000 → exec .fltWatchdogExpiry s = next s)
      ∧ (w ≠ 0 ∧ s.flag F.FLT_CTRL_HEALTHY = true ∧ s.flt.kickAt + w * 1000000 ≤ s.now → ∃ t : State,
        exec .fltWatchdogExpiry s = next t ∧ t.flag F.FLT_PINS_WDOG_EXP = true ∧ t.flag F.FLT_CTRL_HEALTHY = false
        ∧ t.flt.raised = s.flt.raised ++ [17]))
    ∧ (s.now % 500000 ≠ 0 ∨ s.flt.aliveAt = some s.now → exec .aliveToggle s = next s)
    ∧ (s.now % 500000 = 0 ∧ s.flt.aliveAt ≠ some s.now → exec .aliveToggle s = next (s.modFlt (fun f => { f with
        aliveAt := some s.now, alive := s.flag F.FLT_CTRL_HEALTHY && s.flag F.FLT_CTRL_ALIVE_EN && !f.alive })))

/-- R435 to R466, R485, R486: what an event does by its severity, reaction sets, the accord link and its packets, the
ownership token, takeover, core test, the sillage log and boundary scan. The layout of the accord payloads is the model's
(log entries 60 to 62). -/
def Obligations.FaultsAndAccord : Prop :=
  ∀ (s : State) (v : Word) (p : PktIn) (src : Nat) (pass : Bool) (scan : List Bool)
    (down low both : BitVec 40),
    let next (t : State) : Host.Outcome State Fault Refusal := .next t.finish
    -- the collector (R435 to R439)
    (s.sev src = 0 → s.takeEvent src = s)
    ∧ (let c := (s.captureFirst src).stick src
      (s.sev src = 1 → s.takeEvent src = c)
      ∧ (s.sev src = 2 →
        (c.flag F.FLT_INC_OPEN = true → s.takeEvent src = c.mergeIncident src)
        ∧ (c.flag F.FLT_INC_OPEN = false → (s.reg (R.FLT_STICKY (src / 32))).getLsbD (src % 32) = true → s.takeEvent src = c)
        ∧ (c.flag F.FLT_INC_OPEN = false → (s.reg (R.FLT_STICKY (src / 32))).getLsbD (src % 32) = false →
            s.takeEvent src = c.openIncident src))
      ∧ (s.sev src = 3 → s.takeEvent src = c.baseEvent src))
    ∧ (src < 384 → ((s.stick src).reg (R.FLT_STICKY (src / 32))).getLsbD (src % 32) = true)
    ∧ (s.flag F.FLT_FIRST_VALID = true → s.captureFirst src = s)
    ∧ (s.flag F.FLT_FIRST_VALID = false → src < 384 →
      (s.captureFirst src).flag F.FLT_FIRST_VALID = true ∧ (s.captureFirst src).fld F.FLT_FIRST_SRC = src
      ∧ (s.captureFirst src).reg R.FLT_FIRST_T_LO = BitVec.ofNat 32 s.now)
    ∧ 1000 ≤ s.escNs src ∧ s.escNs src ≤ 1000000000
    ∧ (s.usableRing (s.reg R.FLT_NRING).toNat 2 = none → ∀ a b c d, s.notice a b c d = s)
    ∧ s.react 0 = s
    ∧ s.react 1 = (s.setFlag F.FLT_PINS_BLANKED).reactSpoil true
    ∧ s.react 2 = s.reactSpoil false
    ∧ s.react 4 = s.safeStop
    ∧ s.react 8 = s.drydown 6 0 0 false
    ∧ (s.isActive = false → s.react 16 = s)
    ∧ (s.isActive = true → s.react 16 = s.giveUp ∧ s.react 18 = s.giveUp)
    -- the accord link (R445)
    ∧ (s.hasAccord = false → exec (.acdEnable v) s = next (s.raise 5) ∧ exec (.handover v) s = next (s.raise 5)
        ∧ exec .accordTrainStep s = next s ∧ exec .accordTrainTimeout s = next s ∧ exec .accordTrainRetry s = next s
        ∧ exec .stateTimer s = next s ∧ exec (.accordLinkLost down) s = next s ∧ exec (.ownInLow low) s = next s
        ∧ exec (.tokenPowerupTake low) s = next s ∧ exec (.tokenConflict both) s = next s)
    ∧ (s.hasAccord = true →
      let st := s.acdState
      let en := s.putFlag F.ACD_CTRL_EN (bits v.toNat 0 1 == 1)
      let on := if bits v.toNat 0 1 = 0 then en.acdDown none else if st = 0 ∧ s.acd.failedAt = none then en.acdStart else en
      let hand := bits v.toNat 1 1 = 1 ∧ bits v.toNat 8 8 = 0x5A ∧ on.isActive = true ∧ on.fld F.ACD_STATUS_MIRROR_OK = 15
      (¬ hand → exec (.acdEnable v) s = next on ∧ exec (.handover v) s = next on)
      ∧ (hand → let u := if on.lowestLocked = none then on.giveUp else on.modAcd (fun a => { a with handover := true })
        exec (.handover v) s = next u ∧ exec (.acdEnable v) s = next u)
      ∧ (let late := (s.pl 2).stepAt + stepLimit st < s.now
        let due := (s.pl 2).stepAt + stepLimit st ≤ s.now
        ((st = 1 ∨ st = 2) ∧ late → exec .accordTrainStep s = next (s.acdDown (some s.now)))
        ∧ (st = 1 ∧ ¬ late → exec .accordTrainStep s
          = next ((s.setFld F.ACD_STATUS_STATE 2).modLink 2 (fun k => { k with stepAt := s.now })))
        ∧ (st = 2 ∧ ¬ late → exec .accordTrainStep s = next s.acdHello)
        ∧ (st ≠ 1 ∧ st ≠ 2 → exec .accordTrainStep s = next s)
        ∧ (1 ≤ st ∧ st ≤ 3 ∧ due → ∃ t : State, exec .accordTrainTimeout s = next t ∧ t.acdState = 0
            ∧ t.acd.failedAt = some s.now ∧ t.acd.failStep = st)
        ∧ (st = 0 ∨ 3 < st ∨ ¬ due → exec .accordTrainTimeout s = next s))
      ∧ (st = 0 ∧ s.flag F.ACD_CTRL_EN = true ∧ (∀ t0, s.acd.failedAt = some t0 → t0 + 10000000 ≤ s.now) →
          exec .accordTrainRetry s = next s.acdStart)
      ∧ (st ≠ 0 ∨ s.flag F.ACD_CTRL_EN = false ∨ (∃ t0, s.acd.failedAt = some t0 ∧ s.now < t0 + 10000000) →
          exec .accordTrainRetry s = next s)
      -- packets (R446 to R450, R457)
      ∧ (let k := s.pl 2
        let y := p.pkt.type
        let seqOk := p.crcOk 2 = true ∧ p.pkt.seq % 4096 = k.rxSeq
        let legal := p.reserved = false ∧ k.granted.covers (pktClass 2 y) (pktCost p.pkt) = true
        let rows : List (Nat × Instr × (State → State)) :=
          [(1, .hello p, fun u => u.rxHello p.pkt.payload), (2, .timePkt p, fun u => u.rxTime p.pkt.payload),
           (3, .hostPkt p, fun u => u.rxHost p.pkt.payload), (4, .acdStage p, fun u => u.rxStage p.pkt.addr p.pkt.payload),
           (5, .pageq p, fun u => u.rxPageq p.pkt.payload), (6, .pagea p, fun u => u.rxPagea p.pkt.payload),
           (7, .grant p, fun u => u.rxGrant p.pkt.payload), (8, .statePkt p, fun u => u.rxState p.pkt.payload),
           (9, .mread p, fun u => u.rxMread p.pkt.payload), (10, .mdata p, fun u => u.rxMdata p.pkt.addr p.pkt.payload),
           (11, .tko p, State.rxTko), (12, .fwmsg p, fun u => u.rxFwmsg p.pkt.payload)]
        let taken := s.modLink 2 (fun x => { x with
          rxSeq := (x.rxSeq + 1) % 4096, naked := false, unacked := 0, linkOut := [⟨0x32, 0, 0, 0, 0, x.rxSeq, []⟩]
          granted := x.granted.sub (pktClass 2 y) (pktCost p.pkt).1 (pktCost p.pkt).2 })
        ∀ e ∈ rows, (y ≠ e.1 ∨ s.linkHears 2 = false → exec e.2.1 s = next s)
          ∧ (y = e.1 ∧ s.linkHears 2 = true → (¬ seqOk → exec e.2.1 s = next (s.discardPkt 2))
            ∧ (seqOk ∧ ¬ legal → exec e.2.1 s = next (s.protoError 2))
            ∧ (seqOk ∧ legal → exec e.2.1 s = next ((e.2.2 taken).giveCredit 2 p.pkt))))
      ∧ (s.lowestLocked.isSome = true ∨ s.isActive = false ∨ s.now < s.acd.stateAt + 1000000 → exec .stateTimer s = next s)
      ∧ (s.lowestLocked = none ∧ s.isActive = true ∧ s.acd.stateAt + 1000000 ≤ s.now → exec .stateTimer s
        = next ((s.sendAcd 8 0 s.stateBody).modAcd (fun a => { a with stateAt := s.now })))
      ∧ (st ≠ 4 ∧ s.acd.downSince = none → exec (.accordLinkLost down) s = next s)
      ∧ (st = 4 ∨ s.acd.downSince ≠ none →
        let since := s.acd.downSince.getD (s.now - down.toNat)
        (s.now ≤ since + 1000000 → exec (.accordLinkLost down) s
          = next ((s.acdDown (some s.now)).modAcd (fun a => { a with downSince := some since })))
        ∧ (since + 1000000 < s.now → ∃ t : State, exec (.accordLinkLost down) s = next t
          ∧ t.flag F.ACD_STATUS_LOST = true ∧ t.flag F.ACD_STATUS_JOINED = false ∧ t.fld F.ACD_STATUS_MIRROR_OK = 0
          ∧ t.acdState = 0 ∧ 376 ∈ t.flt.raised))
      -- the token and takeover (R451, R452, R456)
      ∧ s.mayTake = (!s.flag F.ACD_STATUS_TOKEN && !s.flag F.ACD_STATUS_OWN_IN && (s.isShadow || !s.joined)
          && !s.pwr.phase.dryRuns)
      ∧ (let u := s.putFlag F.ACD_STATUS_OWN_IN (low.toNat == 0)
        exec (.ownInLow low) s = next (if u.isShadow = true ∧ u.mayTake = true ∧ 200 ≤ low.toNat then u.takeOver else u)
        ∧ exec (.tokenPowerupTake low) s
          = next (if u.mayTake = true ∧ u.joined = false ∧ 10000000 ≤ low.toNat then u.takeToken else u)
        ∧ (s.acd.backoffUntil = none → exec (.tokenBackoffEnd low) s = next s)
        ∧ (∀ t0, s.acd.backoffUntil = some t0 → (s.now < t0 → exec (.tokenBackoffEnd low) s = next s)
          ∧ (t0 ≤ s.now → let w := u.modAcd (fun a => { a with backoffUntil := none })
            exec (.tokenBackoffEnd low) s = next (if w.mayTake = true ∧ 200 ≤ low.toNat then w.takeToken else w))))
      ∧ (let u := s.putFlag F.ACD_STATUS_OWN_IN false
        s.rxTko = if u.isShadow = true ∧ u.mayTake = true then u.takeOver else s)
      ∧ (s.flag F.ACD_STATUS_TOKEN = false ∨ both.toNat < 1000 → exec (.tokenConflict both) s = next s)
      ∧ (s.flag F.ACD_STATUS_TOKEN = true ∧ 1000 ≤ both.toNat →
        let c := ((s.setFlag F.ACD_STATUS_CONFLICT).setFlag F.ACD_STATUS_OWN_IN).raise 380
        (s.acd.tokenAt + 1000000 < s.now → exec (.tokenConflict both) s = next c)
        ∧ (s.now ≤ s.acd.tokenAt + 1000000 → ∃ k, 1 ≤ k ∧ k ≤ 64 ∧ exec (.tokenConflict both) s
          = next ((c.dropToken.modAcd (fun a => { a with backoffUntil := some (s.now + 50000 * k) })).tookFree))))
    -- what the packets do (R447 to R449)
    ∧ (∀ l : List Byte,
      (s.acdState ≠ 3 → s.rxHello l = s)
      ∧ (let mine := s.flag F.ACD_STATUS_TOKEN
        let theirs := entLe l 20 4 == 1
        let busy := if mine then entLe l 28 4 == 1 else !s.jobs.isEmpty || !s.pages.isEmpty || !s.timers.isEmpty
        let cfg := entLe l 12 4 = (s.reg R.ACD_CFGSUM).toNat
        let prs := (entLe l 8 4 &&& 0xFF0FF) = ((s.reg R.SYS_PRESENCE).toNat &&& 0xFF0FF)
        (mine = theirs → s.joinReason l = some 1)
        ∧ (mine ≠ theirs → ¬ cfg → s.joinReason l = some 2)
        ∧ (mine ≠ theirs → cfg → ¬ prs → s.joinReason l = some 3)
        ∧ (mine ≠ theirs → cfg → prs → busy = true → s.joinReason l = some 4)
        ∧ (mine ≠ theirs → cfg → prs → busy = false → entLe l 24 4 ≠ s.devNum → s.joinReason l = some 5)
        ∧ (mine ≠ theirs → cfg → prs → busy = false → entLe l 24 4 = s.devNum → s.joinReason l = none))
      ∧ (let u := s.modAcd (fun a => { a with lastTimeRx := entLe l 0 8 })
        let half := (s.now - entLe l 8 8) / 2
        (s.isActive = true → s.rxTime l = u.sendTime)
        ∧ (s.isActive = false ∧ entLe l 8 8 = 0 → s.rxTime l = u)
        ∧ (s.isActive = false ∧ entLe l 8 8 ≠ 0 ∧ s.acd.joining = true ∧ s.acd.stepped = false →
          (s.rxTime l).ptime = BitVec.ofNat 64 (entLe l 0 8 + half) ∧ (s.rxTime l).acd.stepped = true)
        ∧ (s.isActive = false ∧ entLe l 8 8 ≠ 0 ∧ (s.acd.joining = false ∨ s.acd.stepped = true) →
          (s.rxTime l).ptime = s.ptime ∧ (s.rxTime l).acd.trim
            = clampInt (-100) 100 (-((s.now : Int) - ((entLe l 0 8 + half : Nat) : Int)))))
      ∧ (s.isShadow = false → s.rxPageq l = s ∧ s.rxGrant l = s ∧ (∀ a, s.rxStage a l = s))
      ∧ (s.isShadow = true →
        (s.matching .queued (l.take 12) = none → s.rxPageq l = s.sendAcd 6 0 (leBytes 4 0 ++ l.take 12))
        ∧ (∀ i q j, s.matching .queued (l.take 12) = some (i, q) → s.jobOf q = some j →
          let r := s.rasterOk j q i (s.startLine j)
          s.rxPageq l = r.1.sendAcd 6 0 (leBytes 4 (b2n r.2) ++ l.take 12))
        ∧ (∀ i q j, s.matching .queued ((l.drop 8).take 12) = some (i, q) → s.jobOf q = some j →
          s.rxGrant l = { s with admitQ := s.admitQ.filter (· != i) }.grantPage i q j (entLe l 0 8 % 2 ^ 40) false)
        ∧ (∀ a e, s.stagedOf (a / 2 ^ 48 % 8) (a % 2 ^ 48) = some e →
          s.rxStage a l = (s.memWriteWords reqStorage (s.slotAddr e.slot) l).1)
        ∧ (∀ a k rest, s.stagedOf (a / 2 ^ 48 % 8) (a % 2 ^ 48) = none → s.wbufFree 1 = k :: rest →
          s.rxStage a l = ((s.memWriteWords reqStorage (s.slotAddr k) l).1).stageBlock (a / 2 ^ 48 % 8) (a % 2 ^ 48) k 0))
      ∧ (s.isActive = true → s.rxState l = s.setMirror (entLe l 0 4))
      ∧ (s.isShadow = false ∧ s.acd.joining = false ∧ s.isActive = false → s.rxState l = s)
      ∧ (s.isActive = false ∧ (s.isShadow = true ∨ s.acd.joining = true) →
        (s.rxState l).web.raw = sx 64 (entLe l 1632 8) ∧ (s.rxState l).web.hw = sx 64 (entLe l 1640 8)
        ∧ (∀ n < 16, (vget (s.rxState l).mots n).integ = sx 64 (entLe l (1120 + 16 * n) 8)
          ∧ (vget (s.rxState l).mots n).target = entLe l (1128 + 16 * n) 8
          ∧ ((s.rxState l).axis n).pFrac = sx 64 (entLe l (1376 + 16 * n) 8)
          ∧ ((s.rxState l).axis n).vMilli = sx 64 (entLe l (1384 + 16 * n) 8))))
    -- service (R459, R460)
    ∧ (bits v.toNat 5 1 = 0 → exec (.coreTest v) s = next s)
    ∧ (bits v.toNat 5 1 = 1 →
      let n := bits v.toNat 0 5
      (s.hasCore n = false → exec (.coreTest v) s = next (s.raise 5))
      ∧ (s.hasCore n = true →
        (s.flag (F.CRS_CTRL_RUN n) = true ∨ s.svc.testing ≠ none ∨ (∃ e ∈ s.objs, e.2.owner = n) →
          exec (.coreTest v) s = next (s.setFlag F.SYS_CTSTAT_CT_REFUSED))
        ∧ (s.flag (F.CRS_CTRL_RUN n) = false ∧ (∀ e ∈ s.objs, e.2.owner ≠ n) ∧ s.svc.testing = none →
          exec (.coreTest v) s = next ({ s with svc := { s.svc with testing := some n } }.setFlag F.SYS_CTSTAT_CT_BUSY))))
    ∧ (s.svc.testing = none → exec (.coreTestDone pass) s = next s)
    ∧ (∀ n, s.svc.testing = some n → n < 24 → ∃ t : State, exec (.coreTestDone pass) s = next t ∧ t.svc.testing = none
        ∧ (∀ a, iramBase n ≤ a → a < iramBase n + 0x20000 → t.rd8 a = 0)
        ∧ (∀ a, a < iramBase n ∨ iramBase n + 0x20000 ≤ a → t.rd8 a = s.rd8 a)
        ∧ t.flag F.SYS_CTSTAT_CT_BUSY = false ∧ t.flag F.SYS_CTSTAT_CT_DONE = true
        ∧ bit (t.fld F.SYS_CTSTAT_CORE_FAIL) n = !pass
        ∧ (pass = false → t.flag F.SYS_CTSTAT_CT_FAIL = true ∧ t.flt.raised = s.flt.raised ++ [8]))
    ∧ exec (.dcsvcWrite v) s = next (s.each (List.range 8) (fun t d => t.setSvc d (bits v.toNat (2 * d) 2)))
    ∧ (∀ d x, (s.hasDch d = false → s.setSvc d x = s.raiseIf (x != 0) 5)
      ∧ (s.hasDch d = true →
        (x = 3 ∨ x = s.dcsvc d → s.setSvc d x = s)
        ∧ (x = 0 → s.dcsvc d ≠ 0 → s.setSvc d x
          = ((s.setFld ⟨R.SYS_DCSVC, 2 * d, 2⟩ 0).clrFlag (F.DSK_STATUS_OFFLINE d)).volRefresh)
        ∧ (x = 1 ∨ x = 2 → s.dcsvc d = 0 → s.setSvc d x
          = (((((s.setFld ⟨R.SYS_DCSVC, 2 * d, 2⟩ x).setFlag (F.DSK_STATUS_OFFLINE d)).volRefresh).stopPass d).dskDropAll d 7).park d)
        ∧ ((x = 1 ∨ x = 2) ∧ s.dcsvc d ≠ 0 ∧ x ≠ s.dcsvc d → s.setSvc d x = s.setFld ⟨R.SYS_DCSVC, 2 * d, 2⟩ x)))
    -- the sillage log (R463 to R466)
    ∧ (s.nvm.queue = [] → exec .sillageCommit s = next s)
    ∧ (∀ r rest, s.nvm.queue = r :: rest → r.payload.length ≤ 92 → ∃ t : State, exec .sillageCommit s = next t
        ∧ (let a := mramBase + 128 * (s.nvm.index % 2048)
          let body := s.recordBody r
          body.length = 124
          ∧ t.rdBytes a 128 = body ++ leBytes 4 (crc32c body)
          ∧ (∀ x, x < a ∨ a + 128 ≤ x → t.rd8 x = s.rd8 x))
        ∧ t.nvm.queue = rest ∧ t.nvm.seq = (s.nvm.seq + 1) % 2 ^ 32 ∧ t.nvm.index = (s.nvm.index + 1) % 2048)
    ∧ (bits v.toNat 0 8 < 0x80 ∨ 92 < bits v.toNat 8 8 ∨ s.nvm.append = true →
      exec (.nvmAppCmd v) s = next (s.setFlag F.NVM_STATUS_CMD_REJ))
    ∧ (0x80 ≤ bits v.toNat 0 8 ∧ bits v.toNat 8 8 ≤ 92 ∧ s.nvm.append = false →
      let r := s.memRead reqStorage (s.addr40 R.NVM_APP_LO R.NVM_APP_HI) (bits v.toNat 8 8)
      ∃ (t : State) (l : List Byte), (∀ b, r.2 = .data b → t = r.1 ∧ l = b)
        ∧ ((∀ b, r.2 ≠ .data b) → t = r.1.tookFree
          ∧ l = (List.range (bits v.toNat 8 8)).map (Config.freeByte r.1.freeCtr))
        ∧ ∃ u : State, exec (.nvmAppCmd v) s = next u
        ∧ (t.nvm.queue.length < 8 → u.nvm.queue = t.nvm.queue ++ [⟨bits v.toNat 0 8, t.now, t.accBits, l⟩]
          ∧ u.nvm.append = true)
        ∧ (8 ≤ t.nvm.queue.length → u.nvm.queue = t.nvm.queue ∧ 26 ∈ u.flt.raised))
    -- boundary scan (R485, R486)
    ∧ exec .jtagBypass s = next { s with jtag := { s.jtag with instr := .bypass, dr := 0, pins := false } }
    ∧ exec .jtagIdcode s = next { s with jtag := { s.jtag with instr := .idcode, dr := s.idcode, pins := false } }
    ∧ (s.fuses.step < 256 → s.idcode < 2 ^ 32 ∧ bits s.idcode 0 1 = 1 ∧ bits s.idcode 1 11 = 0x1D3
        ∧ bits s.idcode 12 16 = 0x5058 ∧ bits s.idcode 28 4 = s.fuses.step / 16)
    ∧ exec (.jtagSamplePreload scan) s
        = next ({ s with jtag := ⟨.samplePreload, s.freeWord.toNat, scan, false⟩ }.tookFree)
    ∧ (s.scanTakesPins = true →
      exec (.jtagExtest scan) s = next ({ s with jtag := ⟨.extest, s.freeWord.toNat, scan, true⟩ }.tookFree)
      ∧ exec (.jtagExtestPulse scan) s = next ({ s with jtag := ⟨.extestPulse, s.freeWord.toNat, scan, true⟩ }.tookFree)
      ∧ exec (.jtagExtestTrain scan) s = next ({ s with jtag := ⟨.extestTrain, s.freeWord.toNat, scan, true⟩ }.tookFree)
      ∧ exec .jtagClamp s = next { s with jtag := { s.jtag with instr := .clamp, dr := 0, pins := true } }
      ∧ exec .jtagHighz s = next { s with jtag := { s.jtag with instr := .highz, dr := 0, pins := true } })
    ∧ (s.scanTakesPins = false → ∀ c ∈ [Instr.jtagExtest scan, .jtagExtestPulse scan, .jtagExtestTrain scan, .jtagClamp, .jtagHighz],
      exec c s = next s.jtagBypass)

end
end

