-- ==== Sys2Proof/Laws/Tab.lean ====
section
/-!
SUPPORT. The laws of sparse tables, of sets of units, and of bit fields.
-/
namespace Sys2Proof.Machine

/-! ### Sparse tables -/

variable {α : Type}

theorem Tab.get_del_same (t : Tab α) (k : Nat) : Tab.get (Tab.del t k) k = none := by
  induction t with
  | nil => rfl
  | cons e r ih =>
    obtain ⟨j, v⟩ := e
    by_cases h : j = k
    · subst h; simpa [Tab.del] using ih
    · simpa [Tab.del, Tab.get, h] using ih

theorem Tab.get_del_ne (t : Tab α) {j k : Nat} (h : j ≠ k) : Tab.get (Tab.del t k) j = Tab.get t j := by
  induction t with
  | nil => rfl
  | cons e r ih =>
    obtain ⟨i, v⟩ := e
    by_cases hi : i = k
    · subst hi
      have : ¬ i = j := fun hh => h hh.symm
      simp only [Tab.get, this, if_false]
      simpa [Tab.del] using ih
    · by_cases hj : i = j
      · subst hj; simp [Tab.del, Tab.get, hi]
      · have := ih
        simp only [Tab.del] at this
        simp [Tab.del, Tab.get, hi, hj, this]

theorem Tab.get_ins_same (t : Tab α) (k : Nat) (v : α) (h : Tab.get t k = none) :
    Tab.get (Tab.ins t k v) k = some v := by
  induction t with
  | nil => simp [Tab.ins, Tab.get]
  | cons e r ih =>
    obtain ⟨j, w⟩ := e
    have hj : ¬ j = k := by
      intro hj; simp [Tab.get, hj] at h
    simp only [Tab.get, hj, if_false] at h
    by_cases hk : k < j
    · simp [Tab.ins, hk, Tab.get]
    · simp [Tab.ins, hk, Tab.get, hj, ih h]

theorem Tab.get_ins_ne (t : Tab α) {j k : Nat} (v : α) (h : j ≠ k) : Tab.get (Tab.ins t k v) j = Tab.get t j := by
  have h' : ¬ k = j := fun hh => h hh.symm
  induction t with
  | nil => simp [Tab.ins, Tab.get, h']
  | cons e r ih =>
    obtain ⟨i, w⟩ := e
    by_cases hk : k < i
    · simp [Tab.ins, hk, Tab.get, h']
    · simp [Tab.ins, hk, Tab.get, ih]

@[simp] theorem Tab.get_put_same (t : Tab α) (k : Nat) (v : α) : Tab.get (Tab.put t k v) k = some v :=
  Tab.get_ins_same _ _ _ (Tab.get_del_same _ _)

theorem Tab.get_put_ne (t : Tab α) {j k : Nat} (v : α) (h : j ≠ k) : Tab.get (Tab.put t k v) j = Tab.get t j := by
  rw [Tab.put, Tab.get_ins_ne _ _ h, Tab.get_del_ne _ h]

@[simp] theorem Tab.getD_setD_same [DecidableEq α] (t : Tab α) (k : Nat) (v d : α) :
    Tab.getD (Tab.setD t k v d) k d = v := by
  unfold Tab.getD Tab.setD
  split
  · next h => simp [Tab.get_del_same, h]
  · simp

theorem Tab.getD_setD_ne [DecidableEq α] (t : Tab α) {j k : Nat} (v d d' : α) (h : j ≠ k) :
    Tab.getD (Tab.setD t k v d) j d' = Tab.getD t j d' := by
  unfold Tab.getD Tab.setD
  split
  · rw [Tab.get_del_ne _ h]
  · rw [Tab.get_put_ne _ _ h]

theorem Tab.get_upd (t : Tab α) (k j : Nat) (f : α → α) :
    Tab.get (Tab.upd t k f) j = if j = k then (Tab.get t k).map f else Tab.get t j := by
  induction t with
  | nil => simp [Tab.upd, Tab.get]
  | cons e r ih =>
    obtain ⟨i, v⟩ := e
    simp only [Tab.upd, List.map_cons] at ih ⊢
    by_cases hi : i = k
    · subst hi
      by_cases hj : j = i
      · subst hj; simp [Tab.get]
      · have : ¬ i = j := fun hh => hj hh.symm
        simp [Tab.get, this, hj, ih]
    · by_cases hj : i = j
      · subst hj; simp [Tab.get, hi]
      · by_cases hjk : j = k
        · subst hjk; simp [Tab.get, hi, ih]
        · simp [Tab.get, hi, hj, hjk, ih]

@[simp] theorem Tab.get_upd_same (t : Tab α) (k : Nat) (f : α → α) :
    Tab.get (Tab.upd t k f) k = (Tab.get t k).map f := by simp [Tab.get_upd]

/-! ### The canonical form -/

theorem Tab.rising_tail {e : Nat × α} {r : Tab α} (h : Tab.rising (e :: r) = true) : Tab.rising r = true := by
  cases r with
  | nil => rfl
  | cons f r => simp [Tab.rising] at h; exact h.2

/-- Every key of a rising table lies above its first key. -/
theorem Tab.rising_lt {j : Nat} {v : α} {r : Tab α} (h : Tab.rising ((j, v) :: r) = true) :
    ∀ e ∈ r, j < e.1 := by
  induction r generalizing j v with
  | nil => simp
  | cons f r ih =>
    obtain ⟨k, w⟩ := f
    simp [Tab.rising] at h
    intro e he
    rcases List.mem_cons.mp he with rfl | he
    · exact h.1
    · exact Nat.lt_trans h.1 (ih h.2 e he)

theorem Tab.rising_cons {j : Nat} {v : α} {r : Tab α} (h : Tab.rising r = true) (hl : ∀ e ∈ r, j < e.1) :
    Tab.rising ((j, v) :: r) = true := by
  cases r with
  | nil => rfl
  | cons f r =>
    obtain ⟨k, w⟩ := f
    simp [Tab.rising, h]
    exact hl (k, w) (by simp)

theorem Tab.rising_del {t : Tab α} (h : Tab.rising t = true) (k : Nat) : Tab.rising (Tab.del t k) = true := by
  induction t with
  | nil => rfl
  | cons e r ih =>
    obtain ⟨j, v⟩ := e
    have hr := ih (Tab.rising_tail h)
    by_cases hj : j = k
    · subst hj; simpa [Tab.del] using hr
    · have : Tab.del ((j, v) :: r) k = (j, v) :: Tab.del r k := by simp [Tab.del, hj]
      rw [this]
      refine Tab.rising_cons hr (fun e he => Tab.rising_lt h e ?_)
      exact (List.mem_filter.mp he).1

theorem Tab.mem_ins {t : Tab α} {k : Nat} {v : α} {e : Nat × α} (h : e ∈ Tab.ins t k v) : e = (k, v) ∨ e ∈ t := by
  induction t with
  | nil => simp [Tab.ins] at h; exact .inl h
  | cons f r ih =>
    obtain ⟨j, w⟩ := f
    by_cases hk : k < j
    · simpa [Tab.ins, hk] using h
    · simp only [Tab.ins, hk, if_false, List.mem_cons] at h
      rcases h with rfl | h
      · simp
      · rcases ih h with rfl | h'
        · simp
        · simp [h']

theorem Tab.rising_ins {t : Tab α} (h : Tab.rising t = true) {k : Nat} (v : α) (hn : ∀ e ∈ t, e.1 ≠ k) :
    Tab.rising (Tab.ins t k v) = true := by
  induction t with
  | nil => rfl
  | cons e r ih =>
    obtain ⟨j, w⟩ := e
    by_cases hk : k < j
    · simp [Tab.ins, hk, Tab.rising, h]
    · have hjk : j < k := by
        have := hn (j, w) (by simp); simp at this; omega
      simp only [Tab.ins, hk, if_false]
      refine Tab.rising_cons (ih (Tab.rising_tail h) (fun e he => hn e (by simp [he]))) (fun e he => ?_)
      rcases Tab.mem_ins he with rfl | he'
      · exact hjk
      · exact Tab.rising_lt h e he'

theorem Tab.mem_del {t : Tab α} {k : Nat} {e : Nat × α} (h : e ∈ Tab.del t k) : e ∈ t ∧ e.1 ≠ k := by
  have := List.mem_filter.mp h
  exact ⟨this.1, by simpa using this.2⟩

theorem Tab.rising_put {t : Tab α} (h : Tab.rising t = true) (k : Nat) (v : α) : Tab.rising (Tab.put t k v) = true :=
  Tab.rising_ins (Tab.rising_del h k) v (fun _ he => (Tab.mem_del he).2)

theorem Tab.rising_setD [DecidableEq α] {t : Tab α} (h : Tab.rising t = true) (k : Nat) (v d : α) :
    Tab.rising (Tab.setD t k v d) = true := by
  unfold Tab.setD
  split
  · exact Tab.rising_del h k
  · exact Tab.rising_put h k v

/-- Writing the unlisted value never lists it. -/
theorem Tab.mem_setD_ne [DecidableEq α] {t : Tab α} {d : α} (h : ∀ e ∈ t, e.2 ≠ d) (k : Nat) (v : α) :
    ∀ e ∈ Tab.setD t k v d, e.2 ≠ d := by
  intro e he
  unfold Tab.setD at he
  split at he
  · exact h e (Tab.mem_del he).1
  · next hv =>
    rcases Tab.mem_ins he with rfl | he'
    · exact hv
    · exact h e (Tab.mem_del he').1

/-! ### Sets of units -/

@[simp] theorem vget_vmod_same [Inhabited α] {n : Nat} (v : Vector α n) {i : Nat} (f : α → α) (h : i < n) :
    vget (vmod v i f) i = f (vget v i) := by simp [vget, vmod, h]

theorem vget_vmod_ne [Inhabited α] {n : Nat} (v : Vector α n) {i j : Nat} (f : α → α) (h : i ≠ j) :
    vget (vmod v i f) j = vget v j := by
  unfold vget vmod
  split
  · split
    · simp [h]
    · rfl
  · rfl

end Sys2Proof.Machine
end

