-- ==== Sys2Proof/Laws/Regs.lean ====
section
/-!
SUPPORT. The laws of bit fields and of registers: reading after writing, the same field and another.
-/
namespace Sys2Proof.Machine

/-! ### Bit fields -/

/-- A number cut at a field. -/
theorem bits_split (n lo w : Nat) : n = n / 2 ^ (lo + w) * 2 ^ (lo + w) + bits n lo w * 2 ^ lo + n % 2 ^ lo := by
  unfold bits
  have h1 := Nat.div_add_mod n (2 ^ lo)
  have h2 := Nat.div_add_mod (n / 2 ^ lo) (2 ^ w)
  rw [Nat.div_div_eq_div_mul] at h2
  rw [Nat.pow_add]
  generalize n / 2 ^ lo = q at *
  generalize n / (2 ^ lo * 2 ^ w) = r at *
  generalize q % 2 ^ w = m at *
  subst h2
  rw [Nat.mul_add] at h1
  have e1 : r * (2 ^ lo * 2 ^ w) = 2 ^ lo * (2 ^ w * r) := by
    simp [Nat.mul_comm, Nat.mul_left_comm]
  have e2 : m * 2 ^ lo = 2 ^ lo * m := Nat.mul_comm _ _
  omega

theorem setBits_eq (n lo w v : Nat) :
    setBits n lo w v = n / 2 ^ (lo + w) * 2 ^ (lo + w) + v % 2 ^ w * 2 ^ lo + n % 2 ^ lo := by
  unfold setBits
  have h := bits_split n lo w
  omega

theorem bits_lt (n lo w : Nat) : bits n lo w < 2 ^ w := Nat.mod_lt _ (Nat.two_pow_pos _)

/-- A number of three parts, divided at its two cuts. -/
theorem cut_div (a b c lo w : Nat) (hb : b < 2 ^ w) (hc : c < 2 ^ lo) :
    (a * 2 ^ (lo + w) + b * 2 ^ lo + c) / 2 ^ lo = a * 2 ^ w + b
      ∧ (a * 2 ^ (lo + w) + b * 2 ^ lo + c) / 2 ^ (lo + w) = a
      ∧ (a * 2 ^ (lo + w) + b * 2 ^ lo + c) % 2 ^ lo = c := by
  have e : a * 2 ^ (lo + w) + b * 2 ^ lo + c = c + 2 ^ lo * (a * 2 ^ w + b) := by
    rw [Nat.pow_add, Nat.mul_add]
    simp only [Nat.mul_comm, Nat.mul_left_comm]; omega
  have h1 : (a * 2 ^ (lo + w) + b * 2 ^ lo + c) / 2 ^ lo = a * 2 ^ w + b := by
    rw [e, Nat.add_mul_div_left _ _ (Nat.two_pow_pos _), Nat.div_eq_of_lt hc, Nat.zero_add]
  refine ⟨h1, ?_, ?_⟩
  · rw [Nat.pow_add, ← Nat.div_div_eq_div_mul, ← Nat.pow_add, h1, Nat.mul_comm,
      Nat.mul_add_div (Nat.two_pow_pos _), Nat.div_eq_of_lt hb, Nat.add_zero]
  · rw [e, Nat.add_mul_mod_self_left, Nat.mod_eq_of_lt hc]

theorem bits_setBits_same (n lo w v : Nat) : bits (setBits n lo w v) lo w = v % 2 ^ w := by
  rw [setBits_eq, bits, (cut_div _ _ _ lo w (Nat.mod_lt _ (Nat.two_pow_pos _)) (Nat.mod_lt _ (Nat.two_pow_pos _))).1,
    Nat.mul_add_mod_self_right, Nat.mod_mod]

/-- The field above is untouched. -/
theorem bits_setBits_above (n lo w v lo' w' : Nat) (h : lo + w ≤ lo') : bits (setBits n lo w v) lo' w' = bits n lo' w' := by
  obtain ⟨d, rfl⟩ := Nat.exists_eq_add_of_le h
  unfold bits
  rw [Nat.pow_add 2 (lo + w) d, ← Nat.div_div_eq_div_mul, ← Nat.div_div_eq_div_mul, setBits_eq,
    (cut_div _ _ _ lo w (Nat.mod_lt _ (Nat.two_pow_pos _)) (Nat.mod_lt _ (Nat.two_pow_pos _))).2.1]

/-- The field below is untouched. -/
theorem bits_setBits_below (n lo w v lo' w' : Nat) (h : lo' + w' ≤ lo) : bits (setBits n lo w v) lo' w' = bits n lo' w' := by
  have key : ∀ m, bits m lo' w' = bits (m % 2 ^ lo) lo' w' := by
    intro m
    unfold bits
    rw [← Nat.mod_mul_right_div_self, ← Nat.mod_mul_right_div_self, ← Nat.pow_add, Nat.mod_mod_of_dvd]
    exact Nat.pow_dvd_pow 2 h
  rw [key (setBits n lo w v), key n, setBits_eq,
    (cut_div _ _ _ lo w (Nat.mod_lt _ (Nat.two_pow_pos _)) (Nat.mod_lt _ (Nat.two_pow_pos _))).2.2]

theorem setBits_lt (n lo w v N : Nat) (hn : n < 2 ^ N) (h : lo + w ≤ N) : setBits n lo w v < 2 ^ N := by
  rw [setBits_eq]
  obtain ⟨d, rfl⟩ := Nat.exists_eq_add_of_le h
  have hq : n / 2 ^ (lo + w) < 2 ^ d := by
    rw [Nat.div_lt_iff_lt_mul (Nat.two_pow_pos _), ← Nat.pow_add, Nat.add_comm]; exact hn
  have hv : v % 2 ^ w < 2 ^ w := Nat.mod_lt _ (Nat.two_pow_pos _)
  have hc : n % 2 ^ lo < 2 ^ lo := Nat.mod_lt _ (Nat.two_pow_pos _)
  have h1 : (n / 2 ^ (lo + w) + 1) * 2 ^ (lo + w) ≤ 2 ^ d * 2 ^ (lo + w) := Nat.mul_le_mul_right _ hq
  have h2 : (v % 2 ^ w + 1) * 2 ^ lo ≤ 2 ^ w * 2 ^ lo := Nat.mul_le_mul_right _ hv
  rw [Nat.add_mul, Nat.one_mul] at h1 h2
  rw [← Nat.pow_add, Nat.add_comm w lo] at h2
  rw [← Nat.pow_add, Nat.add_comm d] at h1
  omega

theorem bit_eq_bits (n i : Nat) : bit n i = (bits n i 1 == 1) := by simp [bit, bits]

theorem b2n_bit (n i : Nat) : b2n (bit n i) = bits n i 1 := by
  have : bits n i 1 < 2 := bits_lt n i 1
  rw [bit_eq_bits]
  unfold b2n
  by_cases h : bits n i 1 = 1
  · simp [h]
  · simp [h]; omega

@[simp] theorem b2n_eq_one (b : Bool) : (b2n b == 1) = b := by cases b <;> rfl
@[simp] theorem b2n_mod_two (b : Bool) : b2n b % 2 = b2n b := by cases b <;> rfl
@[simp] theorem b2n_true : b2n true = 1 := rfl
@[simp] theorem b2n_false : b2n false = 0 := rfl

/-! ### Registers -/

@[simp] theorem State.reg_setReg_same (s : State) (k : Nat) (v : Word) : (s.setReg k v).reg k = v := by
  simp [State.reg, State.setReg]

theorem State.reg_setReg_ne (s : State) {j k : Nat} (v : Word) (h : j ≠ k) : (s.setReg k v).reg j = s.reg j := by
  simp [State.reg, State.setReg, Tab.getD_setD_ne _ _ _ _ h]

/-- A field lies in its register. -/
abbrev Fld.ok (f : Fld) : Prop := f.lo + f.width ≤ 32

theorem State.fld_setFld_same (s : State) (f : Fld) (v : Nat) (h : f.ok) :
    (s.setFld f v).fld f = v % 2 ^ f.width := by
  unfold State.fld State.setFld
  rw [State.reg_setReg_same, BitVec.toNat_ofNat, Nat.mod_eq_of_lt (setBits_lt _ _ _ _ _ (BitVec.isLt _) h)]
  exact bits_setBits_same _ _ _ _

/-- Two fields that share no bit. -/
abbrev Fld.apart (f g : Fld) : Prop := f.key ≠ g.key ∨ f.lo + f.width ≤ g.lo ∨ g.lo + g.width ≤ f.lo

theorem State.fld_setFld_apart (s : State) (f g : Fld) (v : Nat) (hf : f.ok) (h : f.apart g) :
    (s.setFld f v).fld g = s.fld g := by
  unfold State.fld State.setFld
  by_cases hk : g.key = f.key
  · rw [hk, State.reg_setReg_same, BitVec.toNat_ofNat, Nat.mod_eq_of_lt (setBits_lt _ _ _ _ _ (BitVec.isLt _) hf)]
    rcases h with h | h | h
    · exact absurd hk.symm h
    · exact bits_setBits_above _ _ _ _ _ _ h
    · exact bits_setBits_below _ _ _ _ _ _ h
  · rw [State.reg_setReg_ne _ _ hk]

theorem State.flag_eq (s : State) (f : Fld) : s.flag f = (bits (s.reg f.key).toNat f.lo 1 == 1) := bit_eq_bits _ _

theorem State.flag_setFld_apart (s : State) (f g : Fld) (v : Nat) (hf : f.ok)
    (h : f.key ≠ g.key ∨ f.lo + f.width ≤ g.lo ∨ g.lo + 1 ≤ f.lo) : (s.setFld f v).flag g = s.flag g := by
  rw [State.flag_eq, State.flag_eq]
  exact congrArg (· == 1) (State.fld_setFld_apart s f { g with width := 1 } v hf h)

theorem State.flag_putFlag (s : State) (f : Fld) (b : Bool) (h : f.ok) (hw : f.width = 1) :
    (s.putFlag f b).flag f = b := by
  have := State.fld_setFld_same s f (b2n b) h
  unfold State.fld at this
  rw [hw] at this
  rw [State.flag_eq, State.putFlag, this]
  simp

theorem State.flag_setFlag (s : State) (f : Fld) (h : f.ok) (hw : f.width = 1) : (s.setFlag f).flag f = true :=
  State.flag_putFlag s f true h hw

theorem State.flag_clrFlag (s : State) (f : Fld) (h : f.ok) (hw : f.width = 1) : (s.clrFlag f).flag f = false :=
  State.flag_putFlag s f false h hw

/-- A register write leaves everything but the register table alone. -/
theorem State.setFld_eq (s : State) (f : Fld) (v : Nat) : ∃ r, s.setFld f v = { s with regs := r } := ⟨_, rfl⟩

end Sys2Proof.Machine
end

