-- ==== Sys2Proof/Laws/Bits.lean ====
section
/-!
SUPPORT. Bit by bit: the laws of single bits and fields through `Nat.testBit`, and of signed words through `BitVec`.
-/
namespace Sys2Proof.Machine

theorem bit_eq_testBit (n i : Nat) : bit n i = n.testBit i := by
  rw [Nat.testBit_eq_decide_div_mod_eq, bit]
  by_cases h : n / 2 ^ i % 2 = 1 <;> simp [h]

theorem setBit_testBit (n i j : Nat) : (setBit n i).testBit j = (n.testBit j || decide (i = j)) := by
  simp [setBit, Nat.testBit_or, Nat.testBit_two_pow]

/-- Clearing a bit is writing a field of one bit. -/
theorem clrBit_eq (n i : Nat) : clrBit n i = setBits n i 1 0 := by
  unfold clrBit setBits
  have : bits n i 1 < 2 := bits_lt n i 1
  rw [bit_eq_bits]
  by_cases h : bits n i 1 = 1
  · simp [h]
  · have h0 : bits n i 1 = 0 := by omega
    simp [h0]

theorem bits_testBit (n lo w j : Nat) : (bits n lo w).testBit j = (decide (j < w) && n.testBit (j + lo)) := by
  simp [bits, Nat.testBit_mod_two_pow, Nat.testBit_div_two_pow]

theorem setBits_testBit (n lo w v j : Nat) :
    (setBits n lo w v).testBit j = if lo ≤ j ∧ j < lo + w then v.testBit (j - lo) else n.testBit j := by
  split
  · next h =>
    have hb := bits_setBits_same n lo w v
    have := congrArg (fun x => x.testBit (j - lo)) hb
    simp only [bits_testBit, Nat.testBit_mod_two_pow] at this
    have h1 : j - lo < w := by omega
    have h2 : j - lo + lo = j := by omega
    simpa [h1, h2] using this
  · next h =>
    by_cases hj : j < lo
    · have hb := bits_setBits_below n lo w v j 1 (by omega)
      rw [← bit_eq_testBit, ← bit_eq_testBit, bit_eq_bits, bit_eq_bits, hb]
    · have hb := bits_setBits_above n lo w v j 1 (by omega)
      rw [← bit_eq_testBit, ← bit_eq_testBit, bit_eq_bits, bit_eq_bits, hb]

theorem putBit_testBit (n i : Nat) (b : Bool) (j : Nat) :
    (putBit n i b).testBit j = if j = i then b else n.testBit j := by
  unfold putBit
  cases b with
  | true =>
    simp only [if_true, setBit_testBit]
    by_cases h : j = i
    · simp [h]
    · have : ¬ i = j := fun hh => h hh.symm
      simp [h, this]
  | false =>
    simp only [Bool.false_eq_true, if_false, clrBit_eq, setBits_testBit]
    by_cases h : j = i
    · simp [h]
    · have : ¬ (i ≤ j ∧ j < i + 1) := by omega
      simp [h, this]

/-! ### Signed words -/

theorem sx_word (w : Nat) (a : BitVec w) (hw : 0 < w) : sx w a.toNat = a.toInt := by
  unfold sx
  have h2 : 2 ^ w = 2 * 2 ^ (w - 1) := by
    obtain ⟨k, rfl⟩ := Nat.exists_eq_succ_of_ne_zero (Nat.pos_iff_ne_zero.mp hw)
    rw [Nat.pow_succ]; simp [Nat.mul_comm]
  rw [Nat.mod_eq_of_lt a.isLt, BitVec.toInt_eq_toNat_cond]
  by_cases h : 2 * a.toNat < 2 ^ w
  · have h' : a.toNat < 2 ^ (w - 1) := by omega
    simp only [h, h', if_true]
    norm_cast
    exact Nat.mod_eq_of_lt a.isLt
  · have h' : ¬ a.toNat < 2 ^ (w - 1) := by omega
    simp only [h, h', if_false]
    have : (a.toNat : Int) % 2 ^ w = a.toNat := by
      norm_cast
      exact Nat.mod_eq_of_lt a.isLt
    rw [this]; norm_cast

theorem ux_eq (w : Nat) (i : Int) : ux w i = (BitVec.ofInt w i).toNat := by
  simp [ux, BitVec.toNat_ofInt]

theorem ofNat_ux (w : Nat) (i : Int) : BitVec.ofNat w (ux w i) = BitVec.ofInt w i := by
  rw [ux_eq, BitVec.ofNat_toNat, BitVec.setWidth_eq]

end Sys2Proof.Machine
end

