-- ==== Sys2Proof/Laws/Finish.lean ====
section
/-!
SUPPORT. What follows a command (Machine/Finish.lean): nothing, where nothing is due; and the outputs that stand after
it in every case.
-/
namespace Sys2Proof.Machine

/-! ### The outputs -/

theorem loopClosed_laser (s : State) (v i : Nat) :
    (s.setFld F.ILK_STATUS_LASER v).loopClosed i = s.loopClosed i := by
  unfold State.loopClosed
  rw [State.fld_setFld_apart s F.ILK_STATUS_LASER F.ILK_STATUS_LOOPA v (by decide) (by decide),
    State.fld_setFld_apart s F.ILK_STATUS_LASER F.ILK_STATUS_LOOPB v (by decide) (by decide)]

/-- The condition of one laser enable (R183). -/
def State.laserOn (s : State) (i : Nat) : Bool := s.loopClosed i && (vget s.ilk i).armed && !s.drying

theorem laserWord_eq (s : State) :
    s.laserWord = b2n (s.laserOn 0) + 2 * b2n (s.laserOn 1) + 4 * b2n (s.laserOn 2) + 8 * b2n (s.laserOn 3) := by
  simp [State.laserWord, State.laserOn, List.range, List.range.loop]; omega

theorem bit_b2n4 (a b c d : Bool) :
    bit (b2n a + 2 * b2n b + 4 * b2n c + 8 * b2n d) 0 = a ∧ bit (b2n a + 2 * b2n b + 4 * b2n c + 8 * b2n d) 1 = b
      ∧ bit (b2n a + 2 * b2n b + 4 * b2n c + 8 * b2n d) 2 = c
      ∧ bit (b2n a + 2 * b2n b + 4 * b2n c + 8 * b2n d) 3 = d := by
  cases a <;> cases b <;> cases c <;> cases d <;> decide

theorem bit_laserWord (s : State) (i : Nat) (h : i < 4) : bit s.laserWord i = s.laserOn i := by
  rw [laserWord_eq]
  have hb := bit_b2n4 (s.laserOn 0) (s.laserOn 1) (s.laserOn 2) (s.laserOn 3)
  match i, h with
  | 0, _ => exact hb.1
  | 1, _ => exact hb.2.1
  | 2, _ => exact hb.2.2.1
  | 3, _ => exact hb.2.2.2

theorem laserWord_lt (s : State) : s.laserWord < 16 := by
  have h : ∀ b : Bool, b2n b ≤ 1 := by decide
  rw [laserWord_eq]
  have := h (s.laserOn 0); have := h (s.laserOn 1); have := h (s.laserOn 2); have := h (s.laserOn 3)
  omega

/-- Four bits make the number. -/
theorem eq_of_bits4 (a b : Nat) (ha : a < 16) (hb : b < 16) (h : ∀ i < 4, bit a i = bit b i) : a = b := by
  have key : ∀ x < 16, ∀ y < 16, (∀ i < 4, bit x i = bit y i) → x = y := by decide
  exact key a ha b hb h

/-- A state that only differs in the laser field has the same conditions. -/
theorem laserOn_setFld (s : State) (v i : Nat) : (s.setFld F.ILK_STATUS_LASER v).laserOn i = s.laserOn i := by
  unfold State.laserOn
  rw [loopClosed_laser]
  rfl

/-- The laser enables as R183 says. -/
def State.lasered (s : State) : State :=
  if s.fld F.ILK_STATUS_LASER = s.laserWord then s else s.setFld F.ILK_STATUS_LASER s.laserWord

theorem outputs_eq (s : State) : s.outputs = s.lasered.jtagCheck := rfl

theorem lasered_laserOn (s : State) (i : Nat) : s.lasered.laserOn i = s.laserOn i := by
  unfold State.lasered; split
  · rfl
  · exact laserOn_setFld _ _ _

theorem lasered_fld (s : State) : s.lasered.fld F.ILK_STATUS_LASER = s.laserWord := by
  unfold State.lasered; split
  · assumption
  · rw [State.fld_setFld_same _ _ _ (by decide)]
    exact Nat.mod_eq_of_lt (laserWord_lt s)

theorem jtagCheck_fields (s : State) : s.jtagCheck = { s with jtag := s.jtagCheck.jtag } := by
  unfold State.jtagCheck; split
  · rfl
  · rfl

theorem jtagCheck_honoured (s : State) : s.jtagCheck.scanIsHonoured := by
  unfold State.scanIsHonoured State.jtagCheck
  split
  · intro h; simp [State.jtagBypass] at h
  · next h => intro hp; simpa [hp] using h

/-- The outputs are safe after every command, whatever it did (R183, R486). -/
theorem outputs_safe (s : State) : s.outputs.OutputsSafe := by
  rw [outputs_eq]
  refine ⟨fun i hi => ?_, jtagCheck_honoured _⟩
  rw [jtagCheck_fields]
  show bit (s.lasered.fld F.ILK_STATUS_LASER) i = s.lasered.laserOn i
  rw [lasered_fld, lasered_laserOn, bit_laserWord _ _ hi]

/-- Safe outputs are left as they stand. -/
theorem outputs_of_safe (s : State) (h : s.OutputsSafe) : s.outputs = s := by
  obtain ⟨hl, hs⟩ := h
  have hw : s.fld F.ILK_STATUS_LASER = s.laserWord := by
    refine eq_of_bits4 _ _ (bits_lt _ _ 4) (laserWord_lt s) (fun i hi => ?_)
    rw [hl i hi, bit_laserWord _ _ hi]; rfl
  have hl' : s.lasered = s := by unfold State.lasered; rw [if_pos hw]
  rw [outputs_eq, hl']
  unfold State.jtagCheck
  split
  · next h => simp at h; have := hs h.1; simp [this] at h
  · rfl

/-! ### The collector and what follows -/

theorem settleN_calm (s : State) (h : s.calm) (n : Nat) : s.settleN n = s := by
  unfold State.calm at h
  cases n with
  | zero => rfl
  | succ n => unfold State.settleN; rw [h]

/-- A command on a core alone that raises nothing is its own effect. -/
theorem collect_calm (s : State) (hc : s.calm) (h : s.OutputsSafe) : s.collect = s := by
  unfold State.collect; rw [settleN_calm s hc, outputs_of_safe s h]

/-- A core changed: the outputs are as they were. -/
theorem safe_modCore (s : State) (n : Nat) (f : Core → Core) (h : s.OutputsSafe) : (s.modCore n f).OutputsSafe := h

theorem calm_modCore (s : State) (n : Nat) (f : Core → Core) (h : s.calm) : (s.modCore n f).calm := h

theorem collect_modCore (s : State) (n : Nat) (f : Core → Core) (hc : s.calm) (h : s.OutputsSafe) :
    (s.modCore n f).collect = s.modCore n f := collect_calm _ hc h

/-- An effect repeated over a list whose every turn does nothing. -/
theorem each_id {β : Type} (s : State) (l : List β) (f : State → β → State) (h : ∀ x ∈ l, f s x = s) :
    s.each l f = s := by
  unfold State.each
  induction l with
  | nil => rfl
  | cons x r ih =>
    rw [List.foldl_cons, h x (by simp)]
    exact ih (fun y hy => h y (by simp [hy]))

theorem webTriggers_still (s : State) (h : ∀ i < 8, s.webDue i = false) : s.webTriggers = s :=
  each_id _ _ _ (fun i hi => by simp [h i (List.mem_range.mp hi)])

theorem followLock_still (s : State) (h : ∀ p < 4, (s.rlock p && !s.bdLock (s.lstn p)) = false) :
    s.followLock = s :=
  each_id _ _ _ (fun p hp => by simp only [h p (List.mem_range.mp hp)]; rfl)

theorem followAccord_still (s : State) (h1 : s.acd.stateDue = false) (h2 : s.acd.handoverDue = false) :
    s.followAccord = s := by simp [State.followAccord, h1, h2]

theorem drainFwsq_none (s : State) (h : s.unitRing (s.reg R.ACD_FWSQ).toNat 2 = none) (n : Nat) :
    s.drainFwsq n = s := by
  cases n with
  | zero => rfl
  | succ n => simp [State.drainFwsq, State.fwsqSend, h]

theorem followFwsq_still (s : State) (h : s.linkUp 2 = false ∨ s.unitRing (s.reg R.ACD_FWSQ).toNat 2 = none) :
    s.followFwsq = s := by
  unfold State.followFwsq
  split
  · next hu =>
    rcases h with h | h
    · simp [h] at hu
    · exact drainFwsq_none s h _
  · rfl

theorem loopDegrade_still (s : State)
    (h : s.loops.filter (fun e => e.2.state == .openloop && e.2.degStn != 0) = []) : s.loopDegrade = s := by
  unfold State.loopDegrade; rw [h]; rfl

theorem replaceUpdate_still (s : State) (h : (s.replaceBits != 0) = s.svc.replaced) : s.replaceUpdate = s := by
  unfold State.replaceUpdate; simp only [h, if_true]

theorem followMot_still (s : State) (h : ∀ n < 16, s.cmdFollow n = s) : s.followMot = s :=
  each_id _ _ _ (fun n hn => h n (List.mem_range.mp hn))

/-- Nothing due: what follows a command changes nothing. -/
theorem finish_still (s : State) (h : s.Still) : s.finish = s := by
  unfold State.finish State.follow State.settle
  rw [webTriggers_still s h.web, followLock_still s h.lock, followAccord_still s h.state h.handover,
    followFwsq_still s h.fwsq, loopDegrade_still s h.loops, followMot_still s h.mots,
    replaceUpdate_still s h.replace, settleN_calm s h.calm,
    outputs_of_safe s h.safe]

end Sys2Proof.Machine
end

