-- ==== Sys2Proof/Laws/Core.lean ====
section
/-!
SUPPORT. The laws of the cores (Machine/Crisal.lean): registers, flags, and the issue of an instruction.
-/
namespace Sys2Proof.Machine

/-! ### Registers -/

theorem Core.gr_val (c : Core) (r : Fin 32) : c.gr r.val = (c.rd r).toNat := by
  unfold Core.gr Core.rd
  by_cases h : r = 0
  · simp [h]
  · have h' : r.val ≠ 0 := fun hh => h (Fin.ext hh)
    simp [h, h', vget]

theorem Core.setG_val (c : Core) (r : Fin 32) (v : Nat) : c.setG r.val v = c.wr r (BitVec.ofNat 32 v) := by
  unfold Core.setG Core.wr
  by_cases h : r = 0
  · simp [h]
  · have h' : r.val ≠ 0 := fun hh => h (Fin.ext hh)
    simp [h, h', vmod]

@[simp] theorem Core.wr_pc (c : Core) (r : Fin 32) (v : Word) : (c.wr r v).pc = c.pc := by unfold Core.wr; split <;> rfl
@[simp] theorem Core.wr_flags (c : Core) (r : Fin 32) (v : Word) : (c.wr r v).flags = c.flags := by
  unfold Core.wr; split <;> rfl

/-- Reading a register after writing it (R48). -/
theorem Core.rd_wr (c : Core) (r q : Fin 32) (v : Word) :
    (c.wr r v).rd q = if q = 0 then 0 else if q = r then v else c.rd q := by
  unfold Core.rd Core.wr
  by_cases hq : q = 0
  · simp [hq]
  · by_cases hr : r = 0
    · have hqr : ¬ q = r := fun h => hq (h.trans hr)
      subst hr; simp [hq]
    · by_cases hqr : q = r
      · subst hqr; simp [hq]
      · have : r.val ≠ q.val := fun h => hqr (Fin.ext h.symm)
        simp [hq, hr, hqr, this]

/-! ### Issue -/

theorem vmod_vmod {α : Type} {n : Nat} (v : Vector α n) (i : Nat) (f g : α → α) :
    vmod (vmod v i f) i g = vmod v i (fun x => g (f x)) := by
  unfold vmod; split <;> simp

theorem State.modCore_modCore (s : State) (n : Nat) (f g : Core → Core) :
    (s.modCore n f).modCore n g = s.modCore n (fun c => g (f c)) := by
  simp [State.modCore, vmod_vmod]

theorem vmod_congr {α : Type} [Inhabited α] {n : Nat} (v : Vector α n) (i : Nat) (f g : α → α)
    (h : f (vget v i) = g (vget v i)) : vmod v i f = vmod v i g := by
  unfold vmod; unfold vget at h
  split
  · next hi => simp [hi] at h; rw [h]
  · rfl

/-- A core changed in two ways that agree on it. -/
theorem State.modCore_congr (s : State) (n : Nat) (f g : Core → Core) (h : f (s.core n) = g (s.core n)) :
    s.modCore n f = s.modCore n g := by
  unfold State.modCore; rw [vmod_congr _ _ f g h]

theorem State.core_modCore (s : State) (n : Nat) (f : Core → Core) (h : n < 24) :
    (s.modCore n f).core n = f (s.core n) := vget_vmod_same _ _ h

theorem State.core_modCore_ne (s : State) {n m : Nat} (f : Core → Core) (h : n ≠ m) :
    (s.modCore n f).core m = s.core m := vget_vmod_ne _ _ h

/-- The instruction at the program counter of a core that is ready issues: its effect on the core as the instruction finds it. -/
theorem State.issue_ready (s : State) (n : Nat) (f : State → State) (h : s.coreReady n) :
    s.issue n f = f (s.modCore n Core.issuing) := by
  unfold State.issue
  rw [if_pos h.issues]
  simp only [h.runs, Bool.false_eq_true, if_false]

/-- The word at the program counter is fetched as it stands, and the instruction it spells has its effect. -/
theorem State.fetched_ready (s : State) (n : Nat) (i : Instr) (f : State → State) (h : s.coreReady n)
    (hi : s.spells n i) : s.fetched n i f = f s := by
  have hf : s.fetch n = (s, some (s.pcWord n)) := by
    unfold State.fetch
    simp only [h.settled, h.whole, List.isEmpty_nil, if_true, List.getElem?_nil]
  unfold State.fetched
  rw [if_pos h.issues, hf]
  exact if_pos hi

/-- The word at the program counter spells no instruction (R59): ILLEGAL, whichever instruction was meant. -/
theorem State.fetched_illegal (s : State) (n : Nat) (i : Instr) (f : State → State) (h : s.coreReady n)
    (hi : ¬ s.spells n i) (hd : decodeCore (Fin.ofNat 24 n) (s.pcWord n) = none) :
    s.fetched n i f = (s.modCore n Core.issuing).illegal n := by
  have hf : s.fetch n = (s, some (s.pcWord n)) := by
    unfold State.fetch
    simp only [h.settled, h.whole, List.isEmpty_nil, if_true, List.getElem?_nil]
  unfold State.fetched
  rw [if_pos h.issues, hf]
  simp only [hd, Option.isNone_none, if_true]
  exact (if_neg hi).trans (State.issue_ready s n _ h)

theorem State.issueCore_ready (s : State) (n : Nat) (f : Core → Core) (h : s.coreReady n) :
    s.issueCore n f = s.modCore n (fun c => (f c.issuing).next) := by
  unfold State.issueCore
  rw [State.issue_ready s n _ h, State.modCore_modCore]

/-- What core `n` becomes is all that a core's instruction does. -/
theorem State.coreStep (s : State) (n : Nat) (f g : Core → Core) (h : s.coreReady n) (hc : s.calm)
    (ho : s.OutputsSafe) (hf : (f (s.core n).issuing).next = g (s.core n)) :
    (s.issueCore n f).collect = s.modCore n g := by
  rw [State.issueCore_ready s n f h, collect_modCore _ _ _ hc ho]
  exact State.modCore_congr _ _ _ _ hf

/-- A core that is ready is present, so its number is below 24. -/
theorem State.ready_lt (s : State) (n : Nat) (h : s.coreReady n) : n < 24 := by
  have := h.issues
  unfold State.canIssue State.hasCore at this
  simp at this
  rcases this.1.1 with h | h
  · omega
  · exact h.1

end Sys2Proof.Machine
end

