-- ==== Sys2Proof/Laws/Integer.lean ====
section
/-!
SUPPORT. The integer instructions (R60, R61) in terms of words.
-/
namespace Sys2Proof.Machine

/-- A core off its AT pair is the same core to its registers. -/
@[simp] theorem Core.rd_issuing (c : Core) (r : Fin 32) : c.issuing.rd r = c.rd r := rfl

theorem Core.next_wr (c : Core) (r : Fin 32) (v : Word) :
    (c.issuing.wr r v).next = (c.wr r v).goOn := by
  unfold Core.next Core.goOn Core.wr; split <;> rfl

theorem Core.put_flags (c : Core) (x y : Bool) :
    putBit (putBit c.flags flagC x) flagV y = setBits c.flags 0 2 (b2n x + 2 * b2n y) := by
  apply Nat.eq_of_testBit_eq
  intro j
  rw [putBit_testBit, putBit_testBit, setBits_testBit]
  match j with
  | 0 => cases x <;> cases y <;> simp [flagV, flagC, b2n]
  | 1 => cases x <;> cases y <;> rfl
  | j + 2 =>
    have h : ¬ (0 ≤ j + 2 ∧ j + 2 < 0 + 2) := by omega
    rw [if_neg h]; simp [flagC, flagV]

/-- A register written with its two flags, and on to the next instruction. -/
theorem Core.next_cv (c : Core) (r : Fin 32) (v : Word) (x y : Bool) :
    (((c.issuing.wr r v).putFlag flagC x).putFlag flagV y).next = ((c.wr r v).cv x y).goOn := by
  have := Core.put_flags c x y
  unfold Core.next Core.goOn Core.putFlag Core.cv
  unfold Core.wr
  split <;> simp [this, Core.issuing]

/-- A signed value outside 32 bits is one that its word does not have. -/
theorem overflow_iff (v : Int) :
    (decide (v < -(2 ^ 31 : Int)) || decide ((2 ^ 31 : Int) ≤ v)) = decide (v ≠ (BitVec.ofInt 32 v).toInt) := by
  rw [BitVec.toInt_ofInt]
  have h1 := Int.le_bmod (x := v) (m := 2 ^ 32) (by decide)
  have h2 := Int.bmod_lt (x := v) (m := 2 ^ 32) (by decide)
  by_cases h : v < -(2 ^ 31 : Int) ∨ (2 ^ 31 : Int) ≤ v
  · have : v ≠ v.bmod (2 ^ 32) := by omega
    simp only [ne_eq, this, not_false_eq_true, decide_true, Bool.or_eq_true, decide_eq_true_eq]; exact h
  · have : v.bmod (2 ^ 32) = v := by
      apply Int.bmod_eq_of_le <;> omega
    have h3 : ¬ v < -(2 ^ 31 : Int) := fun x => h (.inl x)
    have h4 : ¬ (2 ^ 31 : Int) ≤ v := fun x => h (.inr x)
    rw [decide_eq_false h3, decide_eq_false h4, this]; simp

theorem ofInt_toNat (a : Word) : BitVec.ofInt 32 (a.toNat : Int) = a := by
  rw [BitVec.ofInt_natCast, BitVec.ofNat_toNat, BitVec.setWidth_eq]

theorem ofInt_sum (a b : Word) (k : Nat) :
    BitVec.ofInt 32 (a.toInt + b.toInt + k) = BitVec.ofNat 32 (a.toNat + b.toNat + k) := by
  rw [BitVec.ofInt_add, BitVec.ofInt_add, BitVec.ofInt_toInt, BitVec.ofInt_toInt, BitVec.ofInt_natCast,
    BitVec.ofNat_add, BitVec.ofNat_add, BitVec.ofNat_toNat, BitVec.ofNat_toNat, BitVec.setWidth_eq,
    BitVec.setWidth_eq]

theorem ofInt_diff (a b : Word) (k : Nat) (hk : k ≤ 1) :
    BitVec.ofInt 32 (a.toInt - b.toInt - k) = BitVec.ofNat 32 (a.toNat + 2 ^ 33 - b.toNat - k) := by
  apply BitVec.eq_of_toNat_eq
  have ha := a.isLt; have hb := b.isLt
  rw [BitVec.toNat_ofInt, BitVec.toNat_ofNat, BitVec.toInt_eq_toNat_cond, BitVec.toInt_eq_toNat_cond]
  split <;> split <;> omega

/-- A sum with its carry and overflow, in words (R50). -/
theorem Core.addFlags_word (c : Core) (rd : Fin 32) (a b : Word) (k : Nat) :
    (c.issuing.addFlags rd.val a.toNat b.toNat k).next
      = ((c.wr rd (BitVec.ofNat 32 (a.toNat + b.toNat + k))).cv (decide (2 ^ 32 ≤ a.toNat + b.toNat + k))
          (decide (a.toInt + b.toInt + k ≠ (BitVec.ofNat 32 (a.toNat + b.toNat + k)).toInt))).goOn := by
  unfold Core.addFlags
  simp only [sx_word 32 a (by decide), sx_word 32 b (by decide), overflow_iff, ofInt_sum, Core.setG_val]
  exact Core.next_cv _ _ _ _ _

/-- A difference with its borrow and overflow, in words (R50). -/
theorem Core.subFlags_word (c : Core) (rd : Fin 32) (a b : Word) (k : Nat) (hk : k ≤ 1) :
    (c.issuing.subFlags rd.val a.toNat b.toNat k).next
      = ((c.wr rd (BitVec.ofNat 32 (a.toNat + 2 ^ 33 - b.toNat - k))).cv (decide (b.toNat + k ≤ a.toNat))
          (decide (a.toInt - b.toInt - k ≠ (BitVec.ofNat 32 (a.toNat + 2 ^ 33 - b.toNat - k)).toInt))).goOn := by
  unfold Core.subFlags
  simp only [sx_word 32 a (by decide), sx_word 32 b (by decide), overflow_iff, ofInt_diff a b k hk, Core.setG_val]
  exact Core.next_cv _ _ _ _ _

theorem word_sum (a b : Word) (k : Nat) : BitVec.ofNat 32 (a.toNat + b.toNat + k) = a + b + BitVec.ofNat 32 k := by
  rw [BitVec.ofNat_add, BitVec.ofNat_add, BitVec.ofNat_toNat, BitVec.ofNat_toNat, BitVec.setWidth_eq, BitVec.setWidth_eq]

theorem word_diff (a b : Word) (k : Nat) (hk : k ≤ 1) :
    BitVec.ofNat 32 (a.toNat + 2 ^ 33 - b.toNat - k) = a - b - BitVec.ofNat 32 k := by
  apply BitVec.eq_of_toNat_eq
  have ha := a.isLt; have hb := b.isLt
  simp only [BitVec.toNat_sub, BitVec.toNat_ofNat]
  omega

/-- ADD and ADDI (R60, R61). -/
theorem Core.sum_word (c : Core) (rd : Fin 32) (a b : Word) :
    (c.issuing.addFlags rd.val a.toNat b.toNat 0).next
      = ((c.wr rd (a + b)).cv (decide (2 ^ 32 ≤ a.toNat + b.toNat)) (decide (a.toInt + b.toInt ≠ (a + b).toInt))).goOn := by
  have e : a + b + BitVec.ofNat 32 0 = a + b := BitVec.add_zero _
  have := Core.addFlags_word c rd a b 0
  rw [word_sum, e] at this
  rw [this]
  simp only [Nat.add_zero, Int.natCast_zero, Int.add_zero]

/-- SUB (R60). -/
theorem Core.diff_word (c : Core) (rd : Fin 32) (a b : Word) :
    (c.issuing.subFlags rd.val a.toNat b.toNat 0).next
      = ((c.wr rd (a - b)).cv (decide (b.toNat ≤ a.toNat)) (decide (a.toInt - b.toInt ≠ (a - b).toInt))).goOn := by
  have e : a - b - BitVec.ofNat 32 0 = a - b := BitVec.sub_zero _
  have := Core.subFlags_word c rd a b 0 (by decide)
  rw [word_diff _ _ _ (by decide), e] at this
  rw [this]
  simp only [Nat.add_zero, Int.natCast_zero, Int.sub_zero]

/-! ### What the row of one instruction comes to -/

/-- An instruction of a core that issues, as the state after it. -/
theorem State.coreRow (s : State) (n : Fin 24) (f g : Core → Core) (h : s.Issues n.val)
    (hf : ∀ c : Core, (f c.issuing).next = g c) :
    (s.issueCore n.val f).collect = s.modCore n.val g := State.coreStep s n.val f g h.ready h.calm h.safe (hf _)

/-- A result for one register. -/
theorem Core.setG_next (c : Core) (r : Fin 32) (v : Nat) :
    (c.issuing.setG r.val v).next = (c.wr r (BitVec.ofNat 32 v)).goOn := by
  rw [Core.setG_val, Core.next_wr]

/-- An instruction whose one result goes to a register. -/
theorem State.setG_row (s : State) (n : Fin 24) (rd : Fin 32) (f : Core → Nat) (v : Word) (h : s.Issues n.val)
    (hv : BitVec.ofNat 32 (f (s.core n.val).issuing) = v) :
    (s.issueCore n.val (fun c => c.setG rd.val (f c))).collect = s.modCore n.val (fun c => (c.wr rd v).goOn) := by
  refine State.coreStep s n.val _ _ h.ready h.calm h.safe ?_
  subst hv
  generalize f (s.core n.val).issuing = x
  exact Core.setG_next _ _ _

/-- An instruction that may be ILLEGAL and is not. -/
theorem State.issueIf_true (s : State) (n : Nat) (ok : Bool) (f : Core → Core) (h : ok = true) :
    s.issueIf n ok f = s.issueCore n f := by subst h; rfl

/-- A three-register instruction without flags. -/
theorem State.op3_row (s : State) (n : Fin 24) (rd ra rb : Fin 32) (f : Nat → Nat → Nat) (v : Word)
    (h : s.Issues n.val) (hv : BitVec.ofNat 32 (f ((s.core n.val).rd ra).toNat ((s.core n.val).rd rb).toNat) = v) :
    (s.op3 n.val rd.val ra.val rb.val f).collect = s.modCore n.val (fun c => (c.wr rd v).goOn) := by
  unfold State.op3
  refine State.coreStep s n.val _ _ h.ready h.calm h.safe ?_
  rw [Core.setG_next, Core.gr_val, Core.gr_val, ← hv]; rfl

/-- An instruction of one register and a number. -/
theorem State.op2_row (s : State) (n : Fin 24) (rd ra : Fin 32) (f : Nat → Nat) (v : Word)
    (h : s.Issues n.val) (hv : BitVec.ofNat 32 (f ((s.core n.val).rd ra).toNat) = v) :
    (s.op2 n.val rd.val ra.val f).collect = s.modCore n.val (fun c => (c.wr rd v).goOn) := by
  unfold State.op2
  refine State.coreStep s n.val _ _ h.ready h.calm h.safe ?_
  rw [Core.setG_next, Core.gr_val, ← hv]; rfl

/-! ### Word by word -/

theorem word_sll (a : Word) (k : Nat) : BitVec.ofNat 32 (sll32 a.toNat k) = a <<< (k % 32) := by
  apply BitVec.eq_of_toNat_eq
  simp [sll32, Nat.shiftLeft_eq]

theorem word_srl (a : Word) (k : Nat) : BitVec.ofNat 32 (srl32 a.toNat k) = a >>> (k % 32) := by
  apply BitVec.eq_of_toNat_eq
  simp only [srl32, BitVec.toNat_ofNat, BitVec.toNat_ushiftRight, Nat.shiftRight_eq_div_pow]
  exact Nat.mod_eq_of_lt (Nat.lt_of_le_of_lt (Nat.div_le_self _ _) a.isLt)

theorem word_sra (a : Word) (k : Nat) : BitVec.ofNat 32 (sra32 a.toNat k) = a.sshiftRight (k % 32) := by
  unfold sra32
  rw [ofNat_ux, sx_word 32 a (by decide), asr]
  unfold BitVec.sshiftRight
  rw [Int.shiftRight_eq_div_pow]; norm_cast

theorem ror_nat (a k : Nat) (ha : a < 2 ^ 32) (hk : k < 32) :
    (a / 2 ^ k + a * 2 ^ (32 - k)) % 2 ^ 32 = a % 2 ^ k * 2 ^ (32 - k) + a / 2 ^ k := by
  obtain ⟨d, hd⟩ : ∃ d, 32 = k + d := ⟨32 - k, by omega⟩
  have e : 32 - k = d := by omega
  rw [e, hd]
  rw [hd] at ha
  have hq : a / 2 ^ k < 2 ^ d := by
    rw [Nat.div_lt_iff_lt_mul (Nat.two_pow_pos _), ← Nat.pow_add, Nat.add_comm]; exact ha
  have h1 : a * 2 ^ d = a % 2 ^ k * 2 ^ d + 2 ^ (k + d) * (a / 2 ^ k) := by
    have := Nat.div_add_mod a (2 ^ k)
    calc a * 2 ^ d = (2 ^ k * (a / 2 ^ k) + a % 2 ^ k) * 2 ^ d := by rw [this]
      _ = _ := by rw [Nat.add_mul, Nat.pow_add, Nat.mul_assoc, Nat.mul_comm (a / 2 ^ k) (2 ^ d), ← Nat.mul_assoc, Nat.add_comm]
  have h2 : a % 2 ^ k * 2 ^ d + a / 2 ^ k < 2 ^ (k + d) := by
    have : a % 2 ^ k + 1 ≤ 2 ^ k := Nat.mod_lt _ (Nat.two_pow_pos _)
    have := Nat.mul_le_mul_right (2 ^ d) this
    rw [Nat.add_mul, ← Nat.pow_add] at this; omega
  rw [h1, ← Nat.add_assoc, Nat.add_mul_mod_self_left, Nat.add_comm, Nat.mod_eq_of_lt h2]

theorem word_ror (a : Word) (k : Nat) : BitVec.ofNat 32 (ror32 a.toNat k) = a.rotateRight (k % 32) := by
  have hk : k % 32 < 32 := Nat.mod_lt _ (by decide)
  generalize hj : k % 32 = j at hk
  unfold ror32
  rw [hj, ror_nat _ _ a.isLt hk]
  apply BitVec.eq_of_toNat_eq
  have hq : a.toNat / 2 ^ j < 2 ^ (32 - j) := by
    rw [Nat.div_lt_iff_lt_mul (Nat.two_pow_pos _), ← Nat.pow_add, Nat.sub_add_cancel (Nat.le_of_lt hk)]; exact a.isLt
  rw [BitVec.rotateRight_def, Nat.mod_eq_of_lt hk, BitVec.toNat_or, BitVec.toNat_ushiftRight, BitVec.toNat_shiftLeft,
    BitVec.toNat_ofNat, Nat.shiftRight_eq_div_pow, Nat.shiftLeft_eq]
  have h1 : a.toNat * 2 ^ (32 - j) % 2 ^ 32 = (a.toNat % 2 ^ j) <<< (32 - j) := by
    have : 2 ^ 32 = 2 ^ j * 2 ^ (32 - j) := by rw [← Nat.pow_add]; congr 1; omega
    rw [this, Nat.mul_mod_mul_right, Nat.shiftLeft_eq]
  rw [h1, Nat.or_comm, ← Nat.shiftLeft_add_eq_or_of_lt hq, Nat.shiftLeft_eq]
  apply Nat.mod_eq_of_lt
  rw [← ror_nat _ _ a.isLt hk]
  exact Nat.mod_lt _ (by decide)

theorem sext16_word (imm : BitVec 16) : sext16 imm.toNat = (imm.signExtend 32 : Word).toNat := by
  unfold sext16
  rw [sx_word 16 imm (by decide), ux_eq]
  rfl

theorem sx16_word (imm : BitVec 16) : sx 16 imm.toNat = (imm.signExtend 32 : Word).toInt := by
  rw [sx_word 16 imm (by decide), BitVec.toInt_signExtend_of_le (by decide)]

theorem word_decide (p : Prop) [Decidable p] : BitVec.ofNat 32 (b2n (decide p)) = if p then 1 else 0 := by
  by_cases h : p <;> simp [h, b2n]

theorem word_id (a : Word) : BitVec.ofNat 32 a.toNat = a := by rw [BitVec.ofNat_toNat, BitVec.setWidth_eq]

theorem word_mulh (a b : Word) :
    BitVec.ofNat 32 (ux 32 (asr (sx 32 a.toNat * sx 32 b.toNat) 32))
      = (a.signExtend 64 * b.signExtend 64).extractLsb' 32 32 := by
  rw [ofNat_ux, sx_word 32 a (by decide), sx_word 32 b (by decide)]
  have h : (a.signExtend 64 * b.signExtend 64 : BitVec 64) = BitVec.ofInt 64 (a.toInt * b.toInt) := by
    rw [BitVec.ofInt_mul]; rfl
  rw [h]
  generalize a.toInt * b.toInt = p
  apply BitVec.eq_of_toNat_eq
  rw [BitVec.toNat_ofInt, BitVec.extractLsb'_toNat, BitVec.toNat_ofInt, Nat.shiftRight_eq_div_pow, asr]
  omega

theorem word_mulhu (a b : Word) :
    BitVec.ofNat 32 (a.toNat * b.toNat / 2 ^ 32) = (a.setWidth 64 * b.setWidth 64).extractLsb' 32 32 := by
  apply BitVec.eq_of_toNat_eq
  have ha := a.isLt; have hb := b.isLt
  have hp : a.toNat * b.toNat < 2 ^ 64 := by
    calc a.toNat * b.toNat < 2 ^ 32 * 2 ^ 32 := Nat.mul_lt_mul'' ha hb
      _ = 2 ^ 64 := by decide
  rw [BitVec.toNat_ofNat, BitVec.extractLsb'_toNat, BitVec.toNat_mul, BitVec.toNat_setWidth, BitVec.toNat_setWidth,
    Nat.mod_eq_of_lt (by omega : a.toNat < 2 ^ 64), Nat.mod_eq_of_lt (by omega : b.toNat < 2 ^ 64), Nat.mod_eq_of_lt hp,
    Nat.shiftRight_eq_div_pow]

theorem word_div (a b : Word) : BitVec.ofNat 32 (divS a.toNat b.toNat) = if b = 0 then 0xFFFFFFFF else a.sdiv b := by
  unfold divS
  by_cases h : b = 0
  · subst h; rfl
  · have hn : b.toNat ≠ 0 := fun hh => h (BitVec.eq_of_toNat_eq (by simpa using hh))
    rw [if_neg hn, if_neg h, ofNat_ux, sx_word 32 a (by decide), sx_word 32 b (by decide)]
    apply BitVec.eq_of_toInt_eq
    rw [BitVec.toInt_sdiv, BitVec.toInt_ofInt]

theorem word_rem (a b : Word) : BitVec.ofNat 32 (remS a.toNat b.toNat) = if b = 0 then a else a.srem b := by
  unfold remS
  by_cases h : b = 0
  · subst h; exact word_id a
  · have hn : b.toNat ≠ 0 := fun hh => h (BitVec.eq_of_toNat_eq (by simpa using hh))
    rw [if_neg hn, if_neg h, ofNat_ux, sx_word 32 a (by decide), sx_word 32 b (by decide)]
    apply BitVec.eq_of_toInt_eq
    rw [← BitVec.toInt_srem, BitVec.ofInt_toInt]

theorem word_divu (a b : Word) : BitVec.ofNat 32 (divU a.toNat b.toNat) = if b = 0 then 0xFFFFFFFF else a / b := by
  unfold divU
  by_cases h : b = 0
  · subst h; rfl
  · have hn : b.toNat ≠ 0 := fun hh => h (BitVec.eq_of_toNat_eq (by simpa using hh))
    rw [if_neg hn, if_neg h]
    apply BitVec.eq_of_toNat_eq
    rw [BitVec.toNat_ofNat, BitVec.toNat_udiv]
    exact Nat.mod_eq_of_lt (Nat.lt_of_le_of_lt (Nat.div_le_self _ _) a.isLt)

theorem word_remu (a b : Word) : BitVec.ofNat 32 (remU a.toNat b.toNat) = if b = 0 then a else a % b := by
  unfold remU
  by_cases h : b = 0
  · subst h; exact word_id a
  · have hn : b.toNat ≠ 0 := fun hh => h (BitVec.eq_of_toNat_eq (by simpa using hh))
    rw [if_neg hn, if_neg h]
    apply BitVec.eq_of_toNat_eq
    rw [BitVec.toNat_ofNat, BitVec.toNat_umod]
    exact Nat.mod_eq_of_lt (Nat.lt_of_le_of_lt (Nat.mod_le _ _) a.isLt)

theorem clz_le (w n : Nat) : clz w n ≤ w := by
  induction w with
  | zero => exact Nat.le_refl _
  | succ w ih => unfold clz; split <;> omega

theorem clz_aux (a : Word) (k : Nat) (hk : k < 32) :
    BitVec.ofNat 32 (clz (k + 1) a.toNat + (31 - k)) = a.clzAuxRec k := by
  have hb : ∀ i, bit a.toNat i = a.getLsbD i := fun i => bit_eq_testBit _ _
  induction k with
  | zero => rw [BitVec.clzAuxRec_zero]; simp only [clz, hb]; split <;> rfl
  | succ k ih =>
    rw [BitVec.clzAuxRec_succ, clz, hb]
    split
    · simp
    · rw [← ih (by omega)]; congr 1; omega

theorem word_clz (a : Word) : BitVec.ofNat 32 (clz 32 a.toNat) = a.clz := clz_aux a 31 (by decide)

theorem popc_eq (w n : Nat) : popc w n = ((List.range w).filter (fun i => n.testBit i)).length := by
  induction w generalizing n with
  | zero => rfl
  | succ w ih =>
    rw [popc, ih, List.range_succ_eq_map, List.filter_cons, List.filter_map, Nat.testBit_zero]
    have : ((fun i => n.testBit i) ∘ Nat.succ) = (fun i => (n / 2).testBit i) := by
      funext i; simp [Nat.testBit_succ]
    rw [this]
    by_cases h : n % 2 = 1
    · simp [h]; omega
    · have : n % 2 = 0 := by omega
      simp [this]

theorem word_popc (a : Word) :
    BitVec.ofNat 32 (popc 32 a.toNat) = BitVec.ofNat 32 ((List.range 32).filter (fun i => a.getLsbD i)).length := by
  rw [popc_eq]; rfl

/-- SHI (R61): its kind picks the shift. -/
theorem State.shi_row (s : State) (n : Fin 24) (rd ra : Fin 32) (imm : Nat) (v : Word) (h : s.Issues n.val)
    (hi : imm < 128)
    (hv : BitVec.ofNat 32 (match imm / 32 with
      | 0 => sll32 ((s.core n.val).rd ra).toNat imm
      | 1 => srl32 ((s.core n.val).rd ra).toNat imm
      | 2 => sra32 ((s.core n.val).rd ra).toNat imm
      | _ => ror32 ((s.core n.val).rd ra).toNat imm) = v) :
    (s.effShi n.val rd.val ra.val imm).collect = s.modCore n.val (fun c => (c.wr rd v).goOn) := by
  unfold State.effShi
  rw [State.issueIf_true _ _ _ _ (by simp [hi])]
  refine State.setG_row s n rd _ _ h ?_
  rw [← hv]; simp only [Core.gr_val, Core.rd_issuing]; try rfl

end Sys2Proof.Machine
end

