-- ==== Sys2Proof/Laws/CoreFlow.lean ====
section
/-!
SUPPORT. Control flow, control registers, time, events, traps and the DSP extension in terms of words.
-/
namespace Sys2Proof.Machine

theorem two_pow_16 : (2 ^ 16 : Int) = 65536 := by decide

theorem ux16_eq (i : Int) : ux 16 i = (i % 65536).toNat := by unfold ux; rw [two_pow_16]

theorem Core.target_eq (c : Core) (off : BitVec 16) :
    c.target off.toNat = (((c.pc : Int) + 4 * off.toInt) % 65536).toNat := by
  have := sx_word 16 off (by decide)
  unfold Core.target
  rw [ux16_eq, this]

theorem Core.next_off (c : Core) : c.issuing.next = c.goOn := rfl

/-- An address already modulo 64 KiB. -/
theorem Core.goTo_mod (c : Core) (i : Int) :
    c.goTo (i % 65536).toNat = { c with pc := (i % 65536).toNat, atPair := false, lastPc := c.pc } := by
  unfold Core.goTo; rw [Nat.mod_eq_of_lt (by omega)]

/-- A return address written, and the jump. -/
theorem Core.link_eq (c : Core) (rd : Fin 32) (v : Nat) (pc : Nat) (h : pc < 65536) :
    ({ c.issuing.setG rd.val v with pc := pc } : Core) = (c.wr rd (BitVec.ofNat 32 v)).goTo pc := by
  rw [Core.setG_val]; unfold Core.goTo Core.wr; rw [Nat.mod_eq_of_lt h]; split <;> rfl

/-- A branch, by its condition on the two words. -/
theorem State.branch_row (s : State) (n : Fin 24) (ra rb : Fin 32) (off : BitVec 16) (f : Nat → Nat → Bool) (b : Bool)
    (h : s.Issues n.val) (hb : f ((s.core n.val).rd ra).toNat ((s.core n.val).rd rb).toNat = b) :
    (s.branch n.val ra.val rb.val off.toNat f).collect
      = s.modCore n.val (fun q => if b then
          q.goTo ((((s.core n.val).pc : Int) + 4 * off.toInt) % 65536).toNat else q.goOn) := by
  unfold State.branch
  rw [State.issue_ready _ _ _ h.ready, State.modCore_modCore, collect_modCore _ _ _ h.calm h.safe]
  apply State.modCore_congr
  simp only [Core.gr_val, Core.rd_issuing, hb]
  cases b
  · simp only [Bool.false_eq_true, if_false]; exact Core.next_off _
  · simp only [if_true]; rw [Core.goTo_mod, ← Core.target_eq]; rfl

theorem beq_word (a b : Word) : (a.toNat == b.toNat) = (a == b) := by
  rw [Bool.eq_iff_iff, beq_iff_eq, beq_iff_eq, BitVec.toNat_inj]

theorem State.rdc_row (s : State) (n : Fin 24) (rd : Fin 32) (k v : Nat) (h : s.Issues n.val)
    (hv : (s.core n.val).rdc n.val k = some v) :
    (s.effRdc n.val rd.val k).collect = s.modCore n.val (fun q => (q.wr rd (BitVec.ofNat 32 v)).goOn) := by
  unfold State.effRdc
  have hn : n.val < 24 := n.isLt
  have hv' : (s.core n.val).issuing.rdc n.val k = some v := hv
  rw [State.issue_ready _ _ _ h.ready, State.core_modCore _ _ _ hn]
  simp only [hv']
  rw [State.modCore_modCore, collect_modCore _ _ _ h.calm h.safe]
  exact State.modCore_congr _ _ _ _ (Core.setG_next _ _ _)

/-- The control register that a write changes. -/
theorem State.wrc_row (s : State) (n : Fin 24) (ra : Fin 32) (k : Nat) (f : Core → Core) (h : s.Issues n.val)
    (hv : (s.core n.val).issuing.wrc n.val k ((s.core n.val).rd ra).toNat
      = some (f (s.core n.val).issuing))
    (hf : (f (s.core n.val).issuing).next = (f (s.core n.val)).goOn) :
    (s.effWrc n.val ra.val k).collect = s.modCore n.val (fun q => (f q).goOn) := by
  unfold State.effWrc
  have hn : n.val < 24 := n.isLt
  rw [State.issue_ready _ _ _ h.ready, State.core_modCore _ _ _ hn, Core.gr_val, Core.rd_issuing]
  simp only [hv]
  rw [State.modCore_modCore, collect_modCore _ _ _ h.calm h.safe]
  exact State.modCore_congr _ _ _ _ hf

/-- No control register has a number of 20 or more (R49). -/
theorem Core.rdc_none (c : Core) (n k : Nat) (h : 20 ≤ k) : c.rdc n k = none := by
  obtain ⟨j, rfl⟩ := Nat.exists_eq_add_of_le h
  rw [Nat.add_comm]; rfl

theorem Core.wrc_none (c : Core) (n k v : Nat) (h : 20 ≤ k) : c.wrc n k v = none := by
  obtain ⟨j, rfl⟩ := Nat.exists_eq_add_of_le h
  rw [Nat.add_comm]; rfl

/-! ### Traps -/

theorem b2n_eq_bits (b : Bool) : b2n b = if b then 1 else 0 := by cases b <;> rfl

/-- STATUS at trap entry (R78): PIE ← IE, IE ← 0, INTRAP ← 1. -/
theorem status_enter (x : Nat) (ie : Bool) :
    putBit (putBit (setBit x 2) 1 ie) 0 false = setBits x 0 3 (2 * b2n ie + 4) := by
  apply Nat.eq_of_testBit_eq
  intro j
  rw [putBit_testBit, putBit_testBit, setBit_testBit, setBits_testBit]
  match j with
  | 0 => cases ie <;> rfl
  | 1 => cases ie <;> rfl
  | 2 => cases ie <;> simp [b2n] <;> rfl
  | j + 3 =>
    have h : ¬ (0 ≤ j + 3 ∧ j + 3 < 0 + 3) := by omega
    rw [if_neg h]; simp

/-- STATUS after RTE (R64): IE ← PIE, INTRAP ← 0. -/
theorem status_rte (x : Nat) :
    putBit (putBit x 2 false) 0 (bit x 1) = setBits (setBits x 0 1 (x / 2)) 2 1 0 := by
  apply Nat.eq_of_testBit_eq
  intro j
  rw [putBit_testBit, putBit_testBit, setBits_testBit, setBits_testBit, bit_eq_testBit]
  match j with
  | 0 => simp [Nat.testBit_succ]
  | 1 => simp
  | 2 => simp
  | j + 3 =>
    have h : ¬ (2 ≤ j + 3 ∧ j + 3 < 2 + 1) := by omega
    have h' : ¬ (0 ≤ j + 3 ∧ j + 3 < 0 + 1) := by omega
    rw [if_neg h, if_neg h']; simp

theorem Core.enter_eq (c : Core) (cause epc ebad code : Nat) (hc : code < 32) :
    c.enter cause epc ebad code = c.trapped cause code epc ebad := by
  unfold Core.enter Core.trapped
  rw [status_enter, Nat.mod_eq_of_lt hc, show code * 2 ^ 8 = 256 * code by omega]

/-- A trap outside a handler is entered. -/
theorem State.trap_entered (s : State) (n cause epc ebad code : Nat) (hc : code < 32) (h : (s.core n).inTrap = false) :
    s.trap n cause epc ebad code = s.modCore n (fun c => c.trapped cause code epc ebad) := by
  unfold State.trap
  rw [h]
  simp only [Bool.false_and, Bool.false_eq_true, if_false]
  exact congrArg (s.modCore n) (funext fun c => Core.enter_eq c _ _ _ _ hc)

/-- ILLEGAL outside a handler. -/
theorem State.illegal_row (s : State) (n : Fin 24) (h : s.Issues n.val) (ht : (s.core n.val).inTrap = false) :
    ((s.modCore n.val Core.issuing).illegal n.val).collect
      = s.modCore n.val (fun q => q.issuing.trapped 1 0 q.pc 0) := by
  have hn : n.val < 24 := n.isLt
  unfold State.illegal
  rw [State.trap_entered _ _ _ _ _ _ (by decide) (by rw [State.core_modCore _ _ _ hn]; exact ht), State.modCore_modCore,
    collect_modCore _ _ _ h.calm h.safe]
  apply State.modCore_congr
  rw [State.core_modCore _ _ _ hn]; rfl

/-- An instruction that is ILLEGAL. -/
theorem State.issueIf_false (s : State) (n : Fin 24) (ok : Bool) (f : Core → Core) (hok : ok = false)
    (h : s.Issues n.val) (ht : (s.core n.val).inTrap = false) :
    (s.issueIf n.val ok f).collect = s.modCore n.val (fun q => q.issuing.trapped 1 0 q.pc 0) := by
  unfold State.issueIf
  rw [State.issue_ready _ _ _ h.ready]
  simp only [hok, Bool.false_eq_true, if_false]
  exact State.illegal_row s n h ht

/-! ### Pairs -/

theorem pairOk_iff (r : Fin 32) : pairOk r.val = true ↔ evenReg r := by
  unfold pairOk evenReg
  rw [Bool.and_eq_true, decide_eq_true_iff, decide_eq_true_iff]
  have : r.val = 0 ↔ r = 0 := ⟨fun h => Fin.ext h, fun h => by rw [h]; rfl⟩
  rw [ne_eq, ne_eq, this]

theorem evenReg_succ (r : Fin 32) (h : evenReg r) : (r + 1).val = r.val + 1 := by
  have : r.val + 1 < 32 := by have := r.isLt; have := h.2; omega
  rw [Fin.val_add]
  exact Nat.mod_eq_of_lt this

theorem Core.pair_eq (c : Core) (r : Fin 32) (h : evenReg r) : c.pair r.val = (c.rd2 r).toNat := by
  unfold Core.pair Core.rd2
  rw [← evenReg_succ r h, Core.gr_val, Core.gr_val, BitVec.toNat_append, ← Nat.shiftLeft_add_eq_or_of_lt (BitVec.isLt _),
    Nat.shiftLeft_eq, Nat.add_comm]

theorem Core.setPair_eq (c : Core) (r : Fin 32) (v : Nat) (w : BitVec 64) (h : evenReg r) (hv : BitVec.ofNat 64 v = w) :
    c.setPair r.val v = c.wr2 r w := by
  subst hv
  unfold Core.setPair Core.wr2
  rw [← evenReg_succ r h, Core.setG_val, Core.setG_val]
  have h1 : BitVec.ofNat 32 v = (BitVec.ofNat 64 v).extractLsb' 0 32 := by
    apply BitVec.eq_of_toNat_eq
    rw [BitVec.extractLsb'_toNat, BitVec.toNat_ofNat, BitVec.toNat_ofNat]; simp
  have h2 : BitVec.ofNat 32 (v / 2 ^ 32) = (BitVec.ofNat 64 v).extractLsb' 32 32 := by
    apply BitVec.eq_of_toNat_eq
    rw [BitVec.extractLsb'_toNat, BitVec.toNat_ofNat, BitVec.toNat_ofNat, Nat.shiftRight_eq_div_pow]; omega
  rw [h1, h2]

theorem Core.next_wr2 (c : Core) (r : Fin 32) (v : BitVec 64) :
    (c.issuing.wr2 r v).next = (c.wr2 r v).goOn := by
  unfold Core.wr2 Core.next Core.goOn Core.wr
  split <;> split <;> rfl

/-- An instruction on pairs. -/
theorem State.pair_row (s : State) (n : Fin 24) (rd : Fin 32) (ok : Bool) (f : Core → Nat) (w : BitVec 64)
    (h : s.Issues n.val) (hok : ok = true) (hr : evenReg rd)
    (hv : BitVec.ofNat 64 (f (s.core n.val).issuing) = w) :
    (s.issueIf n.val ok (fun c => c.setPair rd.val (f c))).collect = s.modCore n.val (fun c => (c.wr2 rd w).goOn) := by
  rw [State.issueIf_true _ _ _ _ hok]
  refine State.coreStep s n.val _ _ h.ready h.calm h.safe ?_
  show (Core.setPair _ _ (f _)).next = _
  rw [Core.setPair_eq _ rd _ w hr hv, Core.next_wr2]

theorem word64_id (v : BitVec 64) : BitVec.ofNat 64 v.toNat = v := by rw [BitVec.ofNat_toNat, BitVec.setWidth_eq]

/-! ### Flags one at a time -/

theorem putBit_setBits (x i : Nat) (b : Bool) : putBit x i b = setBits x i 1 (b2n b) := by
  apply Nat.eq_of_testBit_eq
  intro j
  rw [putBit_testBit, setBits_testBit]
  by_cases h : j = i
  · subst h
    have : j ≤ j ∧ j < j + 1 := by omega
    rw [if_pos this, if_pos rfl]; cases b <;> simp [b2n]
  · have : ¬ (i ≤ j ∧ j < i + 1) := by omega
    rw [if_neg this, if_neg h]

theorem Core.putFlag_eq (c : Core) (i : Nat) (b : Bool) : c.putFlag i b = c.flagged i b := by
  unfold Core.putFlag Core.flagged; rw [putBit_setBits]

/-- WAIT completed with its masked events. -/
theorem Core.waitDone_eq (c : Core) (rd : Fin 32) (m : Nat) :
    c.waitDone rd.val m
      = { ((({ c with evp := c.evp - (c.evp &&& m) } : Core).wr rd (BitVec.ofNat 32 (c.evp &&& m))).flagged 3 false) with
          pc := (c.pc + 4) % 65536, run := .running } := by
  unfold Core.waitDone
  rw [Core.putFlag_eq, Core.setG_val]
  unfold Core.wr; split <;> rfl

/-- WAIT completed by its deadline. -/
theorem Core.waitLate_eq (c : Core) (rd : Fin 32) :
    c.waitLate rd.val = { ((c.wr rd 0).flagged 3 true) with pc := (c.pc + 4) % 65536, run := .running } := by
  unfold Core.waitLate
  rw [Core.putFlag_eq, Core.setG_val]
  unfold Core.wr; split <;> rfl

theorem Core.done_goOn (c : Core) (rd : Fin 32) (e : Nat) (v : Word) (b : Bool) (h : c.run = .running) :
    ({ ((({ c.issuing with evp := e } : Core).wr rd v).flagged 3 b) with
        pc := (c.pc + 4) % 65536, run := .running } : Core)
      = ((({ c with evp := e } : Core).wr rd v).flagged 3 b).goOn := by
  unfold Core.wr Core.goOn; rw [← h]; split <;> rfl

theorem State.ready_run (s : State) (n : Nat) (h : s.coreReady n) : (s.core n).run = .running := by
  have := h.issues
  unfold State.canIssue at this
  simp only [Bool.and_eq_true, beq_iff_eq] at this
  exact this.1.2

/-! ### DSP (R76) -/

theorem clampInt_eq (lo hi v : Int) (h : lo ≤ hi) : clampInt lo hi v = max lo (min hi v) := by
  unfold clampInt; split
  · omega
  · split <;> omega

theorem Core.satTo_eq (c : Core) (w : Nat) (v : Int) : c.satTo w v = (c.sat w v, satInt w v) := by
  have hp : (0 : Int) < 2 ^ (w - 1) := Int.pow_pos (by decide)
  have : clampInt (-(2 ^ (w - 1) : Int)) (2 ^ (w - 1) - 1) v = satInt w v := clampInt_eq _ _ _ (by omega)
  unfold Core.satTo Core.sat
  simp only [this, Core.putFlag_eq]; rfl

theorem half_eq (v : Word) : sx 16 v.toNat = half v := by
  have : sx 16 v.toNat = sx 16 (v.setWidth 16).toNat := by
    unfold sx; rw [BitVec.toNat_setWidth, Nat.mod_mod]
    have : ((v.toNat % 2 ^ 16 : Nat) : Int) % 2 ^ 16 = (v.toNat : Int) % 2 ^ 16 := by omega
    rw [this]
  rw [this, sx_word 16 _ (by decide)]; rfl

theorem Core.q15_eq (c : Core) (r : Fin 32) : c.q15 r.val = half (c.rd r) := by
  unfold Core.q15; rw [Core.gr_val, half_eq]

theorem Core.sgr_eq (c : Core) (r : Fin 32) : c.sgr r.val = (c.rd r).toInt := by
  unfold Core.sgr; rw [Core.gr_val, sx_word 32 _ (by decide)]

theorem Core.acc_eq (c : Core) (a : Fin 2) : c.acc a.val = c.accum a := by
  match a with
  | 0 => rfl
  | 1 => rfl

theorem Core.toAcc_eq (c : Core) (a : Fin 2) (v : Int) : c.toAcc a.val v = c.accumulate a v := by
  unfold Core.toAcc Core.accumulate; rw [Core.satTo_eq]
  match a with
  | 0 => rfl
  | 1 => rfl

theorem Core.sat_off (c : Core) (w : Nat) (v : Int) :
    c.issuing.sat w v = (c.sat w v).issuing := by
  unfold Core.sat; split <;> rfl

theorem Core.next_accumulate (c : Core) (a : Fin 2) (v : Int) :
    (c.issuing.accumulate a v).next = (c.accumulate a v).goOn := by
  unfold Core.accumulate; rw [Core.sat_off]; split <;> rfl

theorem Core.next_q15 (c : Core) (rd : Fin 32) (w : Nat) (v : Int) (x : Word) :
    ((c.issuing.sat w v).wr rd x).next = ((c.sat w v).wr rd x).goOn := by
  rw [Core.sat_off, Core.next_wr]

/-- A DSP instruction of a servo core. -/
theorem State.dsp_row (s : State) (n : Fin 24) (f g : Core → Core) (h : s.Issues n.val) (hn : 16 ≤ n.val)
    (hf : (f (s.core n.val).issuing).next = (g (s.core n.val)).goOn) :
    (s.issueDsp n.val f).collect = s.modCore n.val (fun q => (g q).goOn) := by
  unfold State.issueDsp
  rw [State.issueIf_true _ _ _ _ (by simp [servoCore, hn])]
  exact State.coreStep s n.val _ _ h.ready h.calm h.safe hf

end Sys2Proof.Machine
end

