-- ==== Sys2Proof/Laws/State.lean ====
section
/-!
SUPPORT. Each named update of the state beside each of its fields: the one it writes aside, every field is as it was. One
theorem an update, one conjunct a field, so that no proof unfolds a record update.
-/
namespace Sys2Proof.Machine

@[simp] theorem State.setReg_frame (s : State) (k : Nat) (v : Word) :
      (s.setReg k v).pending = s.pending ∧ (s.setReg k v).fuses = s.fuses ∧ (s.setReg k v).ptime = s.ptime ∧
      (s.setReg k v).bus = s.bus ∧ (s.setReg k v).freeCtr = s.freeCtr ∧ (s.setReg k v).mem = s.mem ∧
      (s.setReg k v).upsets = s.upsets ∧ (s.setReg k v).cores = s.cores ∧ (s.setReg k v).objs = s.objs ∧
      (s.setReg k v).gens = s.gens ∧ (s.setReg k v).withdrawn = s.withdrawn ∧ (s.setReg k v).freeList = s.freeList
      ∧ (s.setReg k v).jobs = s.jobs ∧ (s.setReg k v).pages = s.pages ∧ (s.setReg k v).timers = s.timers ∧
      (s.setReg k v).evgs = s.evgs ∧ (s.setReg k v).mboxes = s.mboxes ∧ (s.setReg k v).rings = s.rings ∧
      (s.setReg k v).dmas = s.dmas ∧ (s.setReg k v).actxs = s.actxs ∧ (s.setReg k v).bands = s.bands ∧
      (s.setReg k v).loops = s.loops ∧ (s.setReg k v).stalled = s.stalled ∧ (s.setReg k v).admitQ = s.admitQ ∧
      (s.setReg k v).snap = s.snap ∧ (s.setReg k v).drain = s.drain ∧ (s.setReg k v).exp = s.exp ∧
      (s.setReg k v).lac = s.lac ∧ (s.setReg k v).elk = s.elk ∧ (s.setReg k v).ilk = s.ilk ∧
      (s.setReg k v).panel = s.panel ∧ (s.setReg k v).atr = s.atr ∧ (s.setReg k v).fills = s.fills ∧
      (s.setReg k v).memst = s.memst ∧ (s.setReg k v).links = s.links ∧ (s.setReg k v).t1 = s.t1 ∧
      (s.setReg k v).stq = s.stq ∧ (s.setReg k v).dsk = s.dsk ∧ (s.setReg k v).ports = s.ports ∧
      (s.setReg k v).mots = s.mots ∧ (s.setReg k v).hbs = s.hbs ∧ (s.setReg k v).invs = s.invs ∧
      (s.setReg k v).axes = s.axes ∧ (s.setReg k v).ain = s.ain ∧ (s.setReg k v).adcAt = s.adcAt ∧
      (s.setReg k v).tickAt = s.tickAt ∧ (s.setReg k v).lpwm = s.lpwm ∧ (s.setReg k v).lpwmAt = s.lpwmAt ∧
      (s.setReg k v).web = s.web ∧ (s.setReg k v).cams = s.cams ∧ (s.setReg k v).pwr = s.pwr ∧
      (s.setReg k v).thm = s.thm ∧ (s.setReg k v).plls = s.plls ∧ (s.setReg k v).ref = s.ref ∧
      (s.setReg k v).flt = s.flt ∧ (s.setReg k v).nvm = s.nvm ∧ (s.setReg k v).acd = s.acd ∧
      (s.setReg k v).svc = s.svc ∧ (s.setReg k v).jtag = s.jtag := by
  and_intros <;> rfl

@[simp] theorem State.setFld_frame (s : State) (f : Fld) (v : Nat) :
      (s.setFld f v).pending = s.pending ∧ (s.setFld f v).fuses = s.fuses ∧ (s.setFld f v).ptime = s.ptime ∧
      (s.setFld f v).bus = s.bus ∧ (s.setFld f v).freeCtr = s.freeCtr ∧ (s.setFld f v).mem = s.mem ∧
      (s.setFld f v).upsets = s.upsets ∧ (s.setFld f v).cores = s.cores ∧ (s.setFld f v).objs = s.objs ∧
      (s.setFld f v).gens = s.gens ∧ (s.setFld f v).withdrawn = s.withdrawn ∧ (s.setFld f v).freeList = s.freeList
      ∧ (s.setFld f v).jobs = s.jobs ∧ (s.setFld f v).pages = s.pages ∧ (s.setFld f v).timers = s.timers ∧
      (s.setFld f v).evgs = s.evgs ∧ (s.setFld f v).mboxes = s.mboxes ∧ (s.setFld f v).rings = s.rings ∧
      (s.setFld f v).dmas = s.dmas ∧ (s.setFld f v).actxs = s.actxs ∧ (s.setFld f v).bands = s.bands ∧
      (s.setFld f v).loops = s.loops ∧ (s.setFld f v).stalled = s.stalled ∧ (s.setFld f v).admitQ = s.admitQ ∧
      (s.setFld f v).snap = s.snap ∧ (s.setFld f v).drain = s.drain ∧ (s.setFld f v).exp = s.exp ∧
      (s.setFld f v).lac = s.lac ∧ (s.setFld f v).elk = s.elk ∧ (s.setFld f v).ilk = s.ilk ∧
      (s.setFld f v).panel = s.panel ∧ (s.setFld f v).atr = s.atr ∧ (s.setFld f v).fills = s.fills ∧
      (s.setFld f v).memst = s.memst ∧ (s.setFld f v).links = s.links ∧ (s.setFld f v).t1 = s.t1 ∧
      (s.setFld f v).stq = s.stq ∧ (s.setFld f v).dsk = s.dsk ∧ (s.setFld f v).ports = s.ports ∧
      (s.setFld f v).mots = s.mots ∧ (s.setFld f v).hbs = s.hbs ∧ (s.setFld f v).invs = s.invs ∧
      (s.setFld f v).axes = s.axes ∧ (s.setFld f v).ain = s.ain ∧ (s.setFld f v).adcAt = s.adcAt ∧
      (s.setFld f v).tickAt = s.tickAt ∧ (s.setFld f v).lpwm = s.lpwm ∧ (s.setFld f v).lpwmAt = s.lpwmAt ∧
      (s.setFld f v).web = s.web ∧ (s.setFld f v).cams = s.cams ∧ (s.setFld f v).pwr = s.pwr ∧
      (s.setFld f v).thm = s.thm ∧ (s.setFld f v).plls = s.plls ∧ (s.setFld f v).ref = s.ref ∧
      (s.setFld f v).flt = s.flt ∧ (s.setFld f v).nvm = s.nvm ∧ (s.setFld f v).acd = s.acd ∧
      (s.setFld f v).svc = s.svc ∧ (s.setFld f v).jtag = s.jtag := by
  and_intros <;> rfl

@[simp] theorem State.setFlag_frame (s : State) (f : Fld) :
      (s.setFlag f).pending = s.pending ∧ (s.setFlag f).fuses = s.fuses ∧ (s.setFlag f).ptime = s.ptime ∧
      (s.setFlag f).bus = s.bus ∧ (s.setFlag f).freeCtr = s.freeCtr ∧ (s.setFlag f).mem = s.mem ∧
      (s.setFlag f).upsets = s.upsets ∧ (s.setFlag f).cores = s.cores ∧ (s.setFlag f).objs = s.objs ∧
      (s.setFlag f).gens = s.gens ∧ (s.setFlag f).withdrawn = s.withdrawn ∧ (s.setFlag f).freeList = s.freeList ∧
      (s.setFlag f).jobs = s.jobs ∧ (s.setFlag f).pages = s.pages ∧ (s.setFlag f).timers = s.timers ∧
      (s.setFlag f).evgs = s.evgs ∧ (s.setFlag f).mboxes = s.mboxes ∧ (s.setFlag f).rings = s.rings ∧
      (s.setFlag f).dmas = s.dmas ∧ (s.setFlag f).actxs = s.actxs ∧ (s.setFlag f).bands = s.bands ∧
      (s.setFlag f).loops = s.loops ∧ (s.setFlag f).stalled = s.stalled ∧ (s.setFlag f).admitQ = s.admitQ ∧
      (s.setFlag f).snap = s.snap ∧ (s.setFlag f).drain = s.drain ∧ (s.setFlag f).exp = s.exp ∧
      (s.setFlag f).lac = s.lac ∧ (s.setFlag f).elk = s.elk ∧ (s.setFlag f).ilk = s.ilk ∧
      (s.setFlag f).panel = s.panel ∧ (s.setFlag f).atr = s.atr ∧ (s.setFlag f).fills = s.fills ∧
      (s.setFlag f).memst = s.memst ∧ (s.setFlag f).links = s.links ∧ (s.setFlag f).t1 = s.t1 ∧
      (s.setFlag f).stq = s.stq ∧ (s.setFlag f).dsk = s.dsk ∧ (s.setFlag f).ports = s.ports ∧
      (s.setFlag f).mots = s.mots ∧ (s.setFlag f).hbs = s.hbs ∧ (s.setFlag f).invs = s.invs ∧
      (s.setFlag f).axes = s.axes ∧ (s.setFlag f).ain = s.ain ∧ (s.setFlag f).adcAt = s.adcAt ∧
      (s.setFlag f).tickAt = s.tickAt ∧ (s.setFlag f).lpwm = s.lpwm ∧ (s.setFlag f).lpwmAt = s.lpwmAt ∧
      (s.setFlag f).web = s.web ∧ (s.setFlag f).cams = s.cams ∧ (s.setFlag f).pwr = s.pwr ∧
      (s.setFlag f).thm = s.thm ∧ (s.setFlag f).plls = s.plls ∧ (s.setFlag f).ref = s.ref ∧
      (s.setFlag f).flt = s.flt ∧ (s.setFlag f).nvm = s.nvm ∧ (s.setFlag f).acd = s.acd ∧
      (s.setFlag f).svc = s.svc ∧ (s.setFlag f).jtag = s.jtag := by
  and_intros <;> rfl

@[simp] theorem State.clrFlag_frame (s : State) (f : Fld) :
      (s.clrFlag f).pending = s.pending ∧ (s.clrFlag f).fuses = s.fuses ∧ (s.clrFlag f).ptime = s.ptime ∧
      (s.clrFlag f).bus = s.bus ∧ (s.clrFlag f).freeCtr = s.freeCtr ∧ (s.clrFlag f).mem = s.mem ∧
      (s.clrFlag f).upsets = s.upsets ∧ (s.clrFlag f).cores = s.cores ∧ (s.clrFlag f).objs = s.objs ∧
      (s.clrFlag f).gens = s.gens ∧ (s.clrFlag f).withdrawn = s.withdrawn ∧ (s.clrFlag f).freeList = s.freeList ∧
      (s.clrFlag f).jobs = s.jobs ∧ (s.clrFlag f).pages = s.pages ∧ (s.clrFlag f).timers = s.timers ∧
      (s.clrFlag f).evgs = s.evgs ∧ (s.clrFlag f).mboxes = s.mboxes ∧ (s.clrFlag f).rings = s.rings ∧
      (s.clrFlag f).dmas = s.dmas ∧ (s.clrFlag f).actxs = s.actxs ∧ (s.clrFlag f).bands = s.bands ∧
      (s.clrFlag f).loops = s.loops ∧ (s.clrFlag f).stalled = s.stalled ∧ (s.clrFlag f).admitQ = s.admitQ ∧
      (s.clrFlag f).snap = s.snap ∧ (s.clrFlag f).drain = s.drain ∧ (s.clrFlag f).exp = s.exp ∧
      (s.clrFlag f).lac = s.lac ∧ (s.clrFlag f).elk = s.elk ∧ (s.clrFlag f).ilk = s.ilk ∧
      (s.clrFlag f).panel = s.panel ∧ (s.clrFlag f).atr = s.atr ∧ (s.clrFlag f).fills = s.fills ∧
      (s.clrFlag f).memst = s.memst ∧ (s.clrFlag f).links = s.links ∧ (s.clrFlag f).t1 = s.t1 ∧
      (s.clrFlag f).stq = s.stq ∧ (s.clrFlag f).dsk = s.dsk ∧ (s.clrFlag f).ports = s.ports ∧
      (s.clrFlag f).mots = s.mots ∧ (s.clrFlag f).hbs = s.hbs ∧ (s.clrFlag f).invs = s.invs ∧
      (s.clrFlag f).axes = s.axes ∧ (s.clrFlag f).ain = s.ain ∧ (s.clrFlag f).adcAt = s.adcAt ∧
      (s.clrFlag f).tickAt = s.tickAt ∧ (s.clrFlag f).lpwm = s.lpwm ∧ (s.clrFlag f).lpwmAt = s.lpwmAt ∧
      (s.clrFlag f).web = s.web ∧ (s.clrFlag f).cams = s.cams ∧ (s.clrFlag f).pwr = s.pwr ∧
      (s.clrFlag f).thm = s.thm ∧ (s.clrFlag f).plls = s.plls ∧ (s.clrFlag f).ref = s.ref ∧
      (s.clrFlag f).flt = s.flt ∧ (s.clrFlag f).nvm = s.nvm ∧ (s.clrFlag f).acd = s.acd ∧
      (s.clrFlag f).svc = s.svc ∧ (s.clrFlag f).jtag = s.jtag := by
  and_intros <;> rfl

@[simp] theorem State.putFlag_frame (s : State) (f : Fld) (b : Bool) :
      (s.putFlag f b).pending = s.pending ∧ (s.putFlag f b).fuses = s.fuses ∧ (s.putFlag f b).ptime = s.ptime ∧
      (s.putFlag f b).bus = s.bus ∧ (s.putFlag f b).freeCtr = s.freeCtr ∧ (s.putFlag f b).mem = s.mem ∧
      (s.putFlag f b).upsets = s.upsets ∧ (s.putFlag f b).cores = s.cores ∧ (s.putFlag f b).objs = s.objs ∧
      (s.putFlag f b).gens = s.gens ∧ (s.putFlag f b).withdrawn = s.withdrawn ∧
      (s.putFlag f b).freeList = s.freeList ∧ (s.putFlag f b).jobs = s.jobs ∧ (s.putFlag f b).pages = s.pages ∧
      (s.putFlag f b).timers = s.timers ∧ (s.putFlag f b).evgs = s.evgs ∧ (s.putFlag f b).mboxes = s.mboxes ∧
      (s.putFlag f b).rings = s.rings ∧ (s.putFlag f b).dmas = s.dmas ∧ (s.putFlag f b).actxs = s.actxs ∧
      (s.putFlag f b).bands = s.bands ∧ (s.putFlag f b).loops = s.loops ∧ (s.putFlag f b).stalled = s.stalled ∧
      (s.putFlag f b).admitQ = s.admitQ ∧ (s.putFlag f b).snap = s.snap ∧ (s.putFlag f b).drain = s.drain ∧
      (s.putFlag f b).exp = s.exp ∧ (s.putFlag f b).lac = s.lac ∧ (s.putFlag f b).elk = s.elk ∧
      (s.putFlag f b).ilk = s.ilk ∧ (s.putFlag f b).panel = s.panel ∧ (s.putFlag f b).atr = s.atr ∧
      (s.putFlag f b).fills = s.fills ∧ (s.putFlag f b).memst = s.memst ∧ (s.putFlag f b).links = s.links ∧
      (s.putFlag f b).t1 = s.t1 ∧ (s.putFlag f b).stq = s.stq ∧ (s.putFlag f b).dsk = s.dsk ∧
      (s.putFlag f b).ports = s.ports ∧ (s.putFlag f b).mots = s.mots ∧ (s.putFlag f b).hbs = s.hbs ∧
      (s.putFlag f b).invs = s.invs ∧ (s.putFlag f b).axes = s.axes ∧ (s.putFlag f b).ain = s.ain ∧
      (s.putFlag f b).adcAt = s.adcAt ∧ (s.putFlag f b).tickAt = s.tickAt ∧ (s.putFlag f b).lpwm = s.lpwm ∧
      (s.putFlag f b).lpwmAt = s.lpwmAt ∧ (s.putFlag f b).web = s.web ∧ (s.putFlag f b).cams = s.cams ∧
      (s.putFlag f b).pwr = s.pwr ∧ (s.putFlag f b).thm = s.thm ∧ (s.putFlag f b).plls = s.plls ∧
      (s.putFlag f b).ref = s.ref ∧ (s.putFlag f b).flt = s.flt ∧ (s.putFlag f b).nvm = s.nvm ∧
      (s.putFlag f b).acd = s.acd ∧ (s.putFlag f b).svc = s.svc ∧ (s.putFlag f b).jtag = s.jtag := by
  and_intros <;> rfl

@[simp] theorem State.addSat_frame (s : State) (f : Fld) (n : Nat) :
      (s.addSat f n).pending = s.pending ∧ (s.addSat f n).fuses = s.fuses ∧ (s.addSat f n).ptime = s.ptime ∧
      (s.addSat f n).bus = s.bus ∧ (s.addSat f n).freeCtr = s.freeCtr ∧ (s.addSat f n).mem = s.mem ∧
      (s.addSat f n).upsets = s.upsets ∧ (s.addSat f n).cores = s.cores ∧ (s.addSat f n).objs = s.objs ∧
      (s.addSat f n).gens = s.gens ∧ (s.addSat f n).withdrawn = s.withdrawn ∧ (s.addSat f n).freeList = s.freeList
      ∧ (s.addSat f n).jobs = s.jobs ∧ (s.addSat f n).pages = s.pages ∧ (s.addSat f n).timers = s.timers ∧
      (s.addSat f n).evgs = s.evgs ∧ (s.addSat f n).mboxes = s.mboxes ∧ (s.addSat f n).rings = s.rings ∧
      (s.addSat f n).dmas = s.dmas ∧ (s.addSat f n).actxs = s.actxs ∧ (s.addSat f n).bands = s.bands ∧
      (s.addSat f n).loops = s.loops ∧ (s.addSat f n).stalled = s.stalled ∧ (s.addSat f n).admitQ = s.admitQ ∧
      (s.addSat f n).snap = s.snap ∧ (s.addSat f n).drain = s.drain ∧ (s.addSat f n).exp = s.exp ∧
      (s.addSat f n).lac = s.lac ∧ (s.addSat f n).elk = s.elk ∧ (s.addSat f n).ilk = s.ilk ∧
      (s.addSat f n).panel = s.panel ∧ (s.addSat f n).atr = s.atr ∧ (s.addSat f n).fills = s.fills ∧
      (s.addSat f n).memst = s.memst ∧ (s.addSat f n).links = s.links ∧ (s.addSat f n).t1 = s.t1 ∧
      (s.addSat f n).stq = s.stq ∧ (s.addSat f n).dsk = s.dsk ∧ (s.addSat f n).ports = s.ports ∧
      (s.addSat f n).mots = s.mots ∧ (s.addSat f n).hbs = s.hbs ∧ (s.addSat f n).invs = s.invs ∧
      (s.addSat f n).axes = s.axes ∧ (s.addSat f n).ain = s.ain ∧ (s.addSat f n).adcAt = s.adcAt ∧
      (s.addSat f n).tickAt = s.tickAt ∧ (s.addSat f n).lpwm = s.lpwm ∧ (s.addSat f n).lpwmAt = s.lpwmAt ∧
      (s.addSat f n).web = s.web ∧ (s.addSat f n).cams = s.cams ∧ (s.addSat f n).pwr = s.pwr ∧
      (s.addSat f n).thm = s.thm ∧ (s.addSat f n).plls = s.plls ∧ (s.addSat f n).ref = s.ref ∧
      (s.addSat f n).flt = s.flt ∧ (s.addSat f n).nvm = s.nvm ∧ (s.addSat f n).acd = s.acd ∧
      (s.addSat f n).svc = s.svc ∧ (s.addSat f n).jtag = s.jtag := by
  and_intros <;> rfl

@[simp] theorem State.addMod_frame (s : State) (f : Fld) (n : Nat) :
      (s.addMod f n).pending = s.pending ∧ (s.addMod f n).fuses = s.fuses ∧ (s.addMod f n).ptime = s.ptime ∧
      (s.addMod f n).bus = s.bus ∧ (s.addMod f n).freeCtr = s.freeCtr ∧ (s.addMod f n).mem = s.mem ∧
      (s.addMod f n).upsets = s.upsets ∧ (s.addMod f n).cores = s.cores ∧ (s.addMod f n).objs = s.objs ∧
      (s.addMod f n).gens = s.gens ∧ (s.addMod f n).withdrawn = s.withdrawn ∧ (s.addMod f n).freeList = s.freeList
      ∧ (s.addMod f n).jobs = s.jobs ∧ (s.addMod f n).pages = s.pages ∧ (s.addMod f n).timers = s.timers ∧
      (s.addMod f n).evgs = s.evgs ∧ (s.addMod f n).mboxes = s.mboxes ∧ (s.addMod f n).rings = s.rings ∧
      (s.addMod f n).dmas = s.dmas ∧ (s.addMod f n).actxs = s.actxs ∧ (s.addMod f n).bands = s.bands ∧
      (s.addMod f n).loops = s.loops ∧ (s.addMod f n).stalled = s.stalled ∧ (s.addMod f n).admitQ = s.admitQ ∧
      (s.addMod f n).snap = s.snap ∧ (s.addMod f n).drain = s.drain ∧ (s.addMod f n).exp = s.exp ∧
      (s.addMod f n).lac = s.lac ∧ (s.addMod f n).elk = s.elk ∧ (s.addMod f n).ilk = s.ilk ∧
      (s.addMod f n).panel = s.panel ∧ (s.addMod f n).atr = s.atr ∧ (s.addMod f n).fills = s.fills ∧
      (s.addMod f n).memst = s.memst ∧ (s.addMod f n).links = s.links ∧ (s.addMod f n).t1 = s.t1 ∧
      (s.addMod f n).stq = s.stq ∧ (s.addMod f n).dsk = s.dsk ∧ (s.addMod f n).ports = s.ports ∧
      (s.addMod f n).mots = s.mots ∧ (s.addMod f n).hbs = s.hbs ∧ (s.addMod f n).invs = s.invs ∧
      (s.addMod f n).axes = s.axes ∧ (s.addMod f n).ain = s.ain ∧ (s.addMod f n).adcAt = s.adcAt ∧
      (s.addMod f n).tickAt = s.tickAt ∧ (s.addMod f n).lpwm = s.lpwm ∧ (s.addMod f n).lpwmAt = s.lpwmAt ∧
      (s.addMod f n).web = s.web ∧ (s.addMod f n).cams = s.cams ∧ (s.addMod f n).pwr = s.pwr ∧
      (s.addMod f n).thm = s.thm ∧ (s.addMod f n).plls = s.plls ∧ (s.addMod f n).ref = s.ref ∧
      (s.addMod f n).flt = s.flt ∧ (s.addMod f n).nvm = s.nvm ∧ (s.addMod f n).acd = s.acd ∧
      (s.addMod f n).svc = s.svc ∧ (s.addMod f n).jtag = s.jtag := by
  and_intros <;> rfl

@[simp] theorem State.setReg64_frame (s : State) (a b n : Nat) :
      (s.setReg64 a b n).pending = s.pending ∧ (s.setReg64 a b n).fuses = s.fuses ∧
      (s.setReg64 a b n).ptime = s.ptime ∧ (s.setReg64 a b n).bus = s.bus ∧ (s.setReg64 a b n).freeCtr = s.freeCtr
      ∧ (s.setReg64 a b n).mem = s.mem ∧ (s.setReg64 a b n).upsets = s.upsets ∧ (s.setReg64 a b n).cores = s.cores
      ∧ (s.setReg64 a b n).objs = s.objs ∧ (s.setReg64 a b n).gens = s.gens ∧
      (s.setReg64 a b n).withdrawn = s.withdrawn ∧ (s.setReg64 a b n).freeList = s.freeList ∧
      (s.setReg64 a b n).jobs = s.jobs ∧ (s.setReg64 a b n).pages = s.pages ∧ (s.setReg64 a b n).timers = s.timers
      ∧ (s.setReg64 a b n).evgs = s.evgs ∧ (s.setReg64 a b n).mboxes = s.mboxes ∧
      (s.setReg64 a b n).rings = s.rings ∧ (s.setReg64 a b n).dmas = s.dmas ∧ (s.setReg64 a b n).actxs = s.actxs ∧
      (s.setReg64 a b n).bands = s.bands ∧ (s.setReg64 a b n).loops = s.loops ∧
      (s.setReg64 a b n).stalled = s.stalled ∧ (s.setReg64 a b n).admitQ = s.admitQ ∧
      (s.setReg64 a b n).snap = s.snap ∧ (s.setReg64 a b n).drain = s.drain ∧ (s.setReg64 a b n).exp = s.exp ∧
      (s.setReg64 a b n).lac = s.lac ∧ (s.setReg64 a b n).elk = s.elk ∧ (s.setReg64 a b n).ilk = s.ilk ∧
      (s.setReg64 a b n).panel = s.panel ∧ (s.setReg64 a b n).atr = s.atr ∧ (s.setReg64 a b n).fills = s.fills ∧
      (s.setReg64 a b n).memst = s.memst ∧ (s.setReg64 a b n).links = s.links ∧ (s.setReg64 a b n).t1 = s.t1 ∧
      (s.setReg64 a b n).stq = s.stq ∧ (s.setReg64 a b n).dsk = s.dsk ∧ (s.setReg64 a b n).ports = s.ports ∧
      (s.setReg64 a b n).mots = s.mots ∧ (s.setReg64 a b n).hbs = s.hbs ∧ (s.setReg64 a b n).invs = s.invs ∧
      (s.setReg64 a b n).axes = s.axes ∧ (s.setReg64 a b n).ain = s.ain ∧ (s.setReg64 a b n).adcAt = s.adcAt ∧
      (s.setReg64 a b n).tickAt = s.tickAt ∧ (s.setReg64 a b n).lpwm = s.lpwm ∧
      (s.setReg64 a b n).lpwmAt = s.lpwmAt ∧ (s.setReg64 a b n).web = s.web ∧ (s.setReg64 a b n).cams = s.cams ∧
      (s.setReg64 a b n).pwr = s.pwr ∧ (s.setReg64 a b n).thm = s.thm ∧ (s.setReg64 a b n).plls = s.plls ∧
      (s.setReg64 a b n).ref = s.ref ∧ (s.setReg64 a b n).flt = s.flt ∧ (s.setReg64 a b n).nvm = s.nvm ∧
      (s.setReg64 a b n).acd = s.acd ∧ (s.setReg64 a b n).svc = s.svc ∧ (s.setReg64 a b n).jtag = s.jtag := by
  and_intros <;> rfl

@[simp] theorem State.setReg40_frame (s : State) (a b n : Nat) :
      (s.setReg40 a b n).pending = s.pending ∧ (s.setReg40 a b n).fuses = s.fuses ∧
      (s.setReg40 a b n).ptime = s.ptime ∧ (s.setReg40 a b n).bus = s.bus ∧ (s.setReg40 a b n).freeCtr = s.freeCtr
      ∧ (s.setReg40 a b n).mem = s.mem ∧ (s.setReg40 a b n).upsets = s.upsets ∧ (s.setReg40 a b n).cores = s.cores
      ∧ (s.setReg40 a b n).objs = s.objs ∧ (s.setReg40 a b n).gens = s.gens ∧
      (s.setReg40 a b n).withdrawn = s.withdrawn ∧ (s.setReg40 a b n).freeList = s.freeList ∧
      (s.setReg40 a b n).jobs = s.jobs ∧ (s.setReg40 a b n).pages = s.pages ∧ (s.setReg40 a b n).timers = s.timers
      ∧ (s.setReg40 a b n).evgs = s.evgs ∧ (s.setReg40 a b n).mboxes = s.mboxes ∧
      (s.setReg40 a b n).rings = s.rings ∧ (s.setReg40 a b n).dmas = s.dmas ∧ (s.setReg40 a b n).actxs = s.actxs ∧
      (s.setReg40 a b n).bands = s.bands ∧ (s.setReg40 a b n).loops = s.loops ∧
      (s.setReg40 a b n).stalled = s.stalled ∧ (s.setReg40 a b n).admitQ = s.admitQ ∧
      (s.setReg40 a b n).snap = s.snap ∧ (s.setReg40 a b n).drain = s.drain ∧ (s.setReg40 a b n).exp = s.exp ∧
      (s.setReg40 a b n).lac = s.lac ∧ (s.setReg40 a b n).elk = s.elk ∧ (s.setReg40 a b n).ilk = s.ilk ∧
      (s.setReg40 a b n).panel = s.panel ∧ (s.setReg40 a b n).atr = s.atr ∧ (s.setReg40 a b n).fills = s.fills ∧
      (s.setReg40 a b n).memst = s.memst ∧ (s.setReg40 a b n).links = s.links ∧ (s.setReg40 a b n).t1 = s.t1 ∧
      (s.setReg40 a b n).stq = s.stq ∧ (s.setReg40 a b n).dsk = s.dsk ∧ (s.setReg40 a b n).ports = s.ports ∧
      (s.setReg40 a b n).mots = s.mots ∧ (s.setReg40 a b n).hbs = s.hbs ∧ (s.setReg40 a b n).invs = s.invs ∧
      (s.setReg40 a b n).axes = s.axes ∧ (s.setReg40 a b n).ain = s.ain ∧ (s.setReg40 a b n).adcAt = s.adcAt ∧
      (s.setReg40 a b n).tickAt = s.tickAt ∧ (s.setReg40 a b n).lpwm = s.lpwm ∧
      (s.setReg40 a b n).lpwmAt = s.lpwmAt ∧ (s.setReg40 a b n).web = s.web ∧ (s.setReg40 a b n).cams = s.cams ∧
      (s.setReg40 a b n).pwr = s.pwr ∧ (s.setReg40 a b n).thm = s.thm ∧ (s.setReg40 a b n).plls = s.plls ∧
      (s.setReg40 a b n).ref = s.ref ∧ (s.setReg40 a b n).flt = s.flt ∧ (s.setReg40 a b n).nvm = s.nvm ∧
      (s.setReg40 a b n).acd = s.acd ∧ (s.setReg40 a b n).svc = s.svc ∧ (s.setReg40 a b n).jtag = s.jtag := by
  and_intros <;> rfl

@[simp] theorem State.raise_frame (s : State) (n : Nat) :
      (s.raise n).pending = s.pending ∧ (s.raise n).fuses = s.fuses ∧ (s.raise n).ptime = s.ptime ∧
      (s.raise n).bus = s.bus ∧ (s.raise n).freeCtr = s.freeCtr ∧ (s.raise n).regs = s.regs ∧
      (s.raise n).mem = s.mem ∧ (s.raise n).upsets = s.upsets ∧ (s.raise n).cores = s.cores ∧
      (s.raise n).objs = s.objs ∧ (s.raise n).gens = s.gens ∧ (s.raise n).withdrawn = s.withdrawn ∧
      (s.raise n).freeList = s.freeList ∧ (s.raise n).jobs = s.jobs ∧ (s.raise n).pages = s.pages ∧
      (s.raise n).timers = s.timers ∧ (s.raise n).evgs = s.evgs ∧ (s.raise n).mboxes = s.mboxes ∧
      (s.raise n).rings = s.rings ∧ (s.raise n).dmas = s.dmas ∧ (s.raise n).actxs = s.actxs ∧
      (s.raise n).bands = s.bands ∧ (s.raise n).loops = s.loops ∧ (s.raise n).stalled = s.stalled ∧
      (s.raise n).admitQ = s.admitQ ∧ (s.raise n).snap = s.snap ∧ (s.raise n).drain = s.drain ∧
      (s.raise n).exp = s.exp ∧ (s.raise n).lac = s.lac ∧ (s.raise n).elk = s.elk ∧ (s.raise n).ilk = s.ilk ∧
      (s.raise n).panel = s.panel ∧ (s.raise n).atr = s.atr ∧ (s.raise n).fills = s.fills ∧
      (s.raise n).memst = s.memst ∧ (s.raise n).links = s.links ∧ (s.raise n).t1 = s.t1 ∧ (s.raise n).stq = s.stq
      ∧ (s.raise n).dsk = s.dsk ∧ (s.raise n).ports = s.ports ∧ (s.raise n).mots = s.mots ∧
      (s.raise n).hbs = s.hbs ∧ (s.raise n).invs = s.invs ∧ (s.raise n).axes = s.axes ∧ (s.raise n).ain = s.ain ∧
      (s.raise n).adcAt = s.adcAt ∧ (s.raise n).tickAt = s.tickAt ∧ (s.raise n).lpwm = s.lpwm ∧
      (s.raise n).lpwmAt = s.lpwmAt ∧ (s.raise n).web = s.web ∧ (s.raise n).cams = s.cams ∧
      (s.raise n).pwr = s.pwr ∧ (s.raise n).thm = s.thm ∧ (s.raise n).plls = s.plls ∧ (s.raise n).ref = s.ref ∧
      (s.raise n).nvm = s.nvm ∧ (s.raise n).acd = s.acd ∧ (s.raise n).svc = s.svc ∧ (s.raise n).jtag = s.jtag := by
  and_intros <;> rfl

@[simp] theorem State.wr8_frame (s : State) (a : Nat) (b : Byte) :
      (s.wr8 a b).pending = s.pending ∧ (s.wr8 a b).fuses = s.fuses ∧ (s.wr8 a b).ptime = s.ptime ∧
      (s.wr8 a b).bus = s.bus ∧ (s.wr8 a b).freeCtr = s.freeCtr ∧ (s.wr8 a b).regs = s.regs ∧
      (s.wr8 a b).upsets = s.upsets ∧ (s.wr8 a b).cores = s.cores ∧ (s.wr8 a b).objs = s.objs ∧
      (s.wr8 a b).gens = s.gens ∧ (s.wr8 a b).withdrawn = s.withdrawn ∧ (s.wr8 a b).freeList = s.freeList ∧
      (s.wr8 a b).jobs = s.jobs ∧ (s.wr8 a b).pages = s.pages ∧ (s.wr8 a b).timers = s.timers ∧
      (s.wr8 a b).evgs = s.evgs ∧ (s.wr8 a b).mboxes = s.mboxes ∧ (s.wr8 a b).rings = s.rings ∧
      (s.wr8 a b).dmas = s.dmas ∧ (s.wr8 a b).actxs = s.actxs ∧ (s.wr8 a b).bands = s.bands ∧
      (s.wr8 a b).loops = s.loops ∧ (s.wr8 a b).stalled = s.stalled ∧ (s.wr8 a b).admitQ = s.admitQ ∧
      (s.wr8 a b).snap = s.snap ∧ (s.wr8 a b).drain = s.drain ∧ (s.wr8 a b).exp = s.exp ∧ (s.wr8 a b).lac = s.lac
      ∧ (s.wr8 a b).elk = s.elk ∧ (s.wr8 a b).ilk = s.ilk ∧ (s.wr8 a b).panel = s.panel ∧ (s.wr8 a b).atr = s.atr
      ∧ (s.wr8 a b).fills = s.fills ∧ (s.wr8 a b).memst = s.memst ∧ (s.wr8 a b).links = s.links ∧
      (s.wr8 a b).t1 = s.t1 ∧ (s.wr8 a b).stq = s.stq ∧ (s.wr8 a b).dsk = s.dsk ∧ (s.wr8 a b).ports = s.ports ∧
      (s.wr8 a b).mots = s.mots ∧ (s.wr8 a b).hbs = s.hbs ∧ (s.wr8 a b).invs = s.invs ∧ (s.wr8 a b).axes = s.axes
      ∧ (s.wr8 a b).ain = s.ain ∧ (s.wr8 a b).adcAt = s.adcAt ∧ (s.wr8 a b).tickAt = s.tickAt ∧
      (s.wr8 a b).lpwm = s.lpwm ∧ (s.wr8 a b).lpwmAt = s.lpwmAt ∧ (s.wr8 a b).web = s.web ∧
      (s.wr8 a b).cams = s.cams ∧ (s.wr8 a b).pwr = s.pwr ∧ (s.wr8 a b).thm = s.thm ∧ (s.wr8 a b).plls = s.plls ∧
      (s.wr8 a b).ref = s.ref ∧ (s.wr8 a b).flt = s.flt ∧ (s.wr8 a b).nvm = s.nvm ∧ (s.wr8 a b).acd = s.acd ∧
      (s.wr8 a b).svc = s.svc ∧ (s.wr8 a b).jtag = s.jtag := by
  and_intros <;> rfl

@[simp] theorem State.tookFree_frame (s : State) :
      s.tookFree.pending = s.pending ∧ s.tookFree.fuses = s.fuses ∧ s.tookFree.ptime = s.ptime ∧
      s.tookFree.bus = s.bus ∧ s.tookFree.regs = s.regs ∧ s.tookFree.mem = s.mem ∧ s.tookFree.upsets = s.upsets ∧
      s.tookFree.cores = s.cores ∧ s.tookFree.objs = s.objs ∧ s.tookFree.gens = s.gens ∧
      s.tookFree.withdrawn = s.withdrawn ∧ s.tookFree.freeList = s.freeList ∧ s.tookFree.jobs = s.jobs ∧
      s.tookFree.pages = s.pages ∧ s.tookFree.timers = s.timers ∧ s.tookFree.evgs = s.evgs ∧
      s.tookFree.mboxes = s.mboxes ∧ s.tookFree.rings = s.rings ∧ s.tookFree.dmas = s.dmas ∧
      s.tookFree.actxs = s.actxs ∧ s.tookFree.bands = s.bands ∧ s.tookFree.loops = s.loops ∧
      s.tookFree.stalled = s.stalled ∧ s.tookFree.admitQ = s.admitQ ∧ s.tookFree.snap = s.snap ∧
      s.tookFree.drain = s.drain ∧ s.tookFree.exp = s.exp ∧ s.tookFree.lac = s.lac ∧ s.tookFree.elk = s.elk ∧
      s.tookFree.ilk = s.ilk ∧ s.tookFree.panel = s.panel ∧ s.tookFree.atr = s.atr ∧ s.tookFree.fills = s.fills ∧
      s.tookFree.memst = s.memst ∧ s.tookFree.links = s.links ∧ s.tookFree.t1 = s.t1 ∧ s.tookFree.stq = s.stq ∧
      s.tookFree.dsk = s.dsk ∧ s.tookFree.ports = s.ports ∧ s.tookFree.mots = s.mots ∧ s.tookFree.hbs = s.hbs ∧
      s.tookFree.invs = s.invs ∧ s.tookFree.axes = s.axes ∧ s.tookFree.ain = s.ain ∧ s.tookFree.adcAt = s.adcAt ∧
      s.tookFree.tickAt = s.tickAt ∧ s.tookFree.lpwm = s.lpwm ∧ s.tookFree.lpwmAt = s.lpwmAt ∧
      s.tookFree.web = s.web ∧ s.tookFree.cams = s.cams ∧ s.tookFree.pwr = s.pwr ∧ s.tookFree.thm = s.thm ∧
      s.tookFree.plls = s.plls ∧ s.tookFree.ref = s.ref ∧ s.tookFree.flt = s.flt ∧ s.tookFree.nvm = s.nvm ∧
      s.tookFree.acd = s.acd ∧ s.tookFree.svc = s.svc ∧ s.tookFree.jtag = s.jtag := by
  and_intros <;> rfl

@[simp] theorem State.modCore_frame (s : State) (i : Nat) (f : Core → Core) :
      (s.modCore i f).pending = s.pending ∧ (s.modCore i f).fuses = s.fuses ∧ (s.modCore i f).ptime = s.ptime ∧
      (s.modCore i f).bus = s.bus ∧ (s.modCore i f).freeCtr = s.freeCtr ∧ (s.modCore i f).regs = s.regs ∧
      (s.modCore i f).mem = s.mem ∧ (s.modCore i f).upsets = s.upsets ∧ (s.modCore i f).objs = s.objs ∧
      (s.modCore i f).gens = s.gens ∧ (s.modCore i f).withdrawn = s.withdrawn ∧
      (s.modCore i f).freeList = s.freeList ∧ (s.modCore i f).jobs = s.jobs ∧ (s.modCore i f).pages = s.pages ∧
      (s.modCore i f).timers = s.timers ∧ (s.modCore i f).evgs = s.evgs ∧ (s.modCore i f).mboxes = s.mboxes ∧
      (s.modCore i f).rings = s.rings ∧ (s.modCore i f).dmas = s.dmas ∧ (s.modCore i f).actxs = s.actxs ∧
      (s.modCore i f).bands = s.bands ∧ (s.modCore i f).loops = s.loops ∧ (s.modCore i f).stalled = s.stalled ∧
      (s.modCore i f).admitQ = s.admitQ ∧ (s.modCore i f).snap = s.snap ∧ (s.modCore i f).drain = s.drain ∧
      (s.modCore i f).exp = s.exp ∧ (s.modCore i f).lac = s.lac ∧ (s.modCore i f).elk = s.elk ∧
      (s.modCore i f).ilk = s.ilk ∧ (s.modCore i f).panel = s.panel ∧ (s.modCore i f).atr = s.atr ∧
      (s.modCore i f).fills = s.fills ∧ (s.modCore i f).memst = s.memst ∧ (s.modCore i f).links = s.links ∧
      (s.modCore i f).t1 = s.t1 ∧ (s.modCore i f).stq = s.stq ∧ (s.modCore i f).dsk = s.dsk ∧
      (s.modCore i f).ports = s.ports ∧ (s.modCore i f).mots = s.mots ∧ (s.modCore i f).hbs = s.hbs ∧
      (s.modCore i f).invs = s.invs ∧ (s.modCore i f).axes = s.axes ∧ (s.modCore i f).ain = s.ain ∧
      (s.modCore i f).adcAt = s.adcAt ∧ (s.modCore i f).tickAt = s.tickAt ∧ (s.modCore i f).lpwm = s.lpwm ∧
      (s.modCore i f).lpwmAt = s.lpwmAt ∧ (s.modCore i f).web = s.web ∧ (s.modCore i f).cams = s.cams ∧
      (s.modCore i f).pwr = s.pwr ∧ (s.modCore i f).thm = s.thm ∧ (s.modCore i f).plls = s.plls ∧
      (s.modCore i f).ref = s.ref ∧ (s.modCore i f).flt = s.flt ∧ (s.modCore i f).nvm = s.nvm ∧
      (s.modCore i f).acd = s.acd ∧ (s.modCore i f).svc = s.svc ∧ (s.modCore i f).jtag = s.jtag := by
  and_intros <;> rfl

@[simp] theorem State.modExp_frame (s : State) (i : Nat) (f : ExpSt → ExpSt) :
      (s.modExp i f).pending = s.pending ∧ (s.modExp i f).fuses = s.fuses ∧ (s.modExp i f).ptime = s.ptime ∧
      (s.modExp i f).bus = s.bus ∧ (s.modExp i f).freeCtr = s.freeCtr ∧ (s.modExp i f).regs = s.regs ∧
      (s.modExp i f).mem = s.mem ∧ (s.modExp i f).upsets = s.upsets ∧ (s.modExp i f).cores = s.cores ∧
      (s.modExp i f).objs = s.objs ∧ (s.modExp i f).gens = s.gens ∧ (s.modExp i f).withdrawn = s.withdrawn ∧
      (s.modExp i f).freeList = s.freeList ∧ (s.modExp i f).jobs = s.jobs ∧ (s.modExp i f).pages = s.pages ∧
      (s.modExp i f).timers = s.timers ∧ (s.modExp i f).evgs = s.evgs ∧ (s.modExp i f).mboxes = s.mboxes ∧
      (s.modExp i f).rings = s.rings ∧ (s.modExp i f).dmas = s.dmas ∧ (s.modExp i f).actxs = s.actxs ∧
      (s.modExp i f).bands = s.bands ∧ (s.modExp i f).loops = s.loops ∧ (s.modExp i f).stalled = s.stalled ∧
      (s.modExp i f).admitQ = s.admitQ ∧ (s.modExp i f).snap = s.snap ∧ (s.modExp i f).drain = s.drain ∧
      (s.modExp i f).lac = s.lac ∧ (s.modExp i f).elk = s.elk ∧ (s.modExp i f).ilk = s.ilk ∧
      (s.modExp i f).panel = s.panel ∧ (s.modExp i f).atr = s.atr ∧ (s.modExp i f).fills = s.fills ∧
      (s.modExp i f).memst = s.memst ∧ (s.modExp i f).links = s.links ∧ (s.modExp i f).t1 = s.t1 ∧
      (s.modExp i f).stq = s.stq ∧ (s.modExp i f).dsk = s.dsk ∧ (s.modExp i f).ports = s.ports ∧
      (s.modExp i f).mots = s.mots ∧ (s.modExp i f).hbs = s.hbs ∧ (s.modExp i f).invs = s.invs ∧
      (s.modExp i f).axes = s.axes ∧ (s.modExp i f).ain = s.ain ∧ (s.modExp i f).adcAt = s.adcAt ∧
      (s.modExp i f).tickAt = s.tickAt ∧ (s.modExp i f).lpwm = s.lpwm ∧ (s.modExp i f).lpwmAt = s.lpwmAt ∧
      (s.modExp i f).web = s.web ∧ (s.modExp i f).cams = s.cams ∧ (s.modExp i f).pwr = s.pwr ∧
      (s.modExp i f).thm = s.thm ∧ (s.modExp i f).plls = s.plls ∧ (s.modExp i f).ref = s.ref ∧
      (s.modExp i f).flt = s.flt ∧ (s.modExp i f).nvm = s.nvm ∧ (s.modExp i f).acd = s.acd ∧
      (s.modExp i f).svc = s.svc ∧ (s.modExp i f).jtag = s.jtag := by
  and_intros <;> rfl

@[simp] theorem State.modLac_frame (s : State) (i : Nat) (f : LacSt → LacSt) :
      (s.modLac i f).pending = s.pending ∧ (s.modLac i f).fuses = s.fuses ∧ (s.modLac i f).ptime = s.ptime ∧
      (s.modLac i f).bus = s.bus ∧ (s.modLac i f).freeCtr = s.freeCtr ∧ (s.modLac i f).regs = s.regs ∧
      (s.modLac i f).mem = s.mem ∧ (s.modLac i f).upsets = s.upsets ∧ (s.modLac i f).cores = s.cores ∧
      (s.modLac i f).objs = s.objs ∧ (s.modLac i f).gens = s.gens ∧ (s.modLac i f).withdrawn = s.withdrawn ∧
      (s.modLac i f).freeList = s.freeList ∧ (s.modLac i f).jobs = s.jobs ∧ (s.modLac i f).pages = s.pages ∧
      (s.modLac i f).timers = s.timers ∧ (s.modLac i f).evgs = s.evgs ∧ (s.modLac i f).mboxes = s.mboxes ∧
      (s.modLac i f).rings = s.rings ∧ (s.modLac i f).dmas = s.dmas ∧ (s.modLac i f).actxs = s.actxs ∧
      (s.modLac i f).bands = s.bands ∧ (s.modLac i f).loops = s.loops ∧ (s.modLac i f).stalled = s.stalled ∧
      (s.modLac i f).admitQ = s.admitQ ∧ (s.modLac i f).snap = s.snap ∧ (s.modLac i f).drain = s.drain ∧
      (s.modLac i f).exp = s.exp ∧ (s.modLac i f).elk = s.elk ∧ (s.modLac i f).ilk = s.ilk ∧
      (s.modLac i f).panel = s.panel ∧ (s.modLac i f).atr = s.atr ∧ (s.modLac i f).fills = s.fills ∧
      (s.modLac i f).memst = s.memst ∧ (s.modLac i f).links = s.links ∧ (s.modLac i f).t1 = s.t1 ∧
      (s.modLac i f).stq = s.stq ∧ (s.modLac i f).dsk = s.dsk ∧ (s.modLac i f).ports = s.ports ∧
      (s.modLac i f).mots = s.mots ∧ (s.modLac i f).hbs = s.hbs ∧ (s.modLac i f).invs = s.invs ∧
      (s.modLac i f).axes = s.axes ∧ (s.modLac i f).ain = s.ain ∧ (s.modLac i f).adcAt = s.adcAt ∧
      (s.modLac i f).tickAt = s.tickAt ∧ (s.modLac i f).lpwm = s.lpwm ∧ (s.modLac i f).lpwmAt = s.lpwmAt ∧
      (s.modLac i f).web = s.web ∧ (s.modLac i f).cams = s.cams ∧ (s.modLac i f).pwr = s.pwr ∧
      (s.modLac i f).thm = s.thm ∧ (s.modLac i f).plls = s.plls ∧ (s.modLac i f).ref = s.ref ∧
      (s.modLac i f).flt = s.flt ∧ (s.modLac i f).nvm = s.nvm ∧ (s.modLac i f).acd = s.acd ∧
      (s.modLac i f).svc = s.svc ∧ (s.modLac i f).jtag = s.jtag := by
  and_intros <;> rfl

@[simp] theorem State.modElk_frame (s : State) (i : Nat) (f : ElkSt → ElkSt) :
      (s.modElk i f).pending = s.pending ∧ (s.modElk i f).fuses = s.fuses ∧ (s.modElk i f).ptime = s.ptime ∧
      (s.modElk i f).bus = s.bus ∧ (s.modElk i f).freeCtr = s.freeCtr ∧ (s.modElk i f).regs = s.regs ∧
      (s.modElk i f).mem = s.mem ∧ (s.modElk i f).upsets = s.upsets ∧ (s.modElk i f).cores = s.cores ∧
      (s.modElk i f).objs = s.objs ∧ (s.modElk i f).gens = s.gens ∧ (s.modElk i f).withdrawn = s.withdrawn ∧
      (s.modElk i f).freeList = s.freeList ∧ (s.modElk i f).jobs = s.jobs ∧ (s.modElk i f).pages = s.pages ∧
      (s.modElk i f).timers = s.timers ∧ (s.modElk i f).evgs = s.evgs ∧ (s.modElk i f).mboxes = s.mboxes ∧
      (s.modElk i f).rings = s.rings ∧ (s.modElk i f).dmas = s.dmas ∧ (s.modElk i f).actxs = s.actxs ∧
      (s.modElk i f).bands = s.bands ∧ (s.modElk i f).loops = s.loops ∧ (s.modElk i f).stalled = s.stalled ∧
      (s.modElk i f).admitQ = s.admitQ ∧ (s.modElk i f).snap = s.snap ∧ (s.modElk i f).drain = s.drain ∧
      (s.modElk i f).exp = s.exp ∧ (s.modElk i f).lac = s.lac ∧ (s.modElk i f).ilk = s.ilk ∧
      (s.modElk i f).panel = s.panel ∧ (s.modElk i f).atr = s.atr ∧ (s.modElk i f).fills = s.fills ∧
      (s.modElk i f).memst = s.memst ∧ (s.modElk i f).links = s.links ∧ (s.modElk i f).t1 = s.t1 ∧
      (s.modElk i f).stq = s.stq ∧ (s.modElk i f).dsk = s.dsk ∧ (s.modElk i f).ports = s.ports ∧
      (s.modElk i f).mots = s.mots ∧ (s.modElk i f).hbs = s.hbs ∧ (s.modElk i f).invs = s.invs ∧
      (s.modElk i f).axes = s.axes ∧ (s.modElk i f).ain = s.ain ∧ (s.modElk i f).adcAt = s.adcAt ∧
      (s.modElk i f).tickAt = s.tickAt ∧ (s.modElk i f).lpwm = s.lpwm ∧ (s.modElk i f).lpwmAt = s.lpwmAt ∧
      (s.modElk i f).web = s.web ∧ (s.modElk i f).cams = s.cams ∧ (s.modElk i f).pwr = s.pwr ∧
      (s.modElk i f).thm = s.thm ∧ (s.modElk i f).plls = s.plls ∧ (s.modElk i f).ref = s.ref ∧
      (s.modElk i f).flt = s.flt ∧ (s.modElk i f).nvm = s.nvm ∧ (s.modElk i f).acd = s.acd ∧
      (s.modElk i f).svc = s.svc ∧ (s.modElk i f).jtag = s.jtag := by
  and_intros <;> rfl

@[simp] theorem State.modIlk_frame (s : State) (i : Nat) (f : LoopSt → LoopSt) :
      (s.modIlk i f).pending = s.pending ∧ (s.modIlk i f).fuses = s.fuses ∧ (s.modIlk i f).ptime = s.ptime ∧
      (s.modIlk i f).bus = s.bus ∧ (s.modIlk i f).freeCtr = s.freeCtr ∧ (s.modIlk i f).regs = s.regs ∧
      (s.modIlk i f).mem = s.mem ∧ (s.modIlk i f).upsets = s.upsets ∧ (s.modIlk i f).cores = s.cores ∧
      (s.modIlk i f).objs = s.objs ∧ (s.modIlk i f).gens = s.gens ∧ (s.modIlk i f).withdrawn = s.withdrawn ∧
      (s.modIlk i f).freeList = s.freeList ∧ (s.modIlk i f).jobs = s.jobs ∧ (s.modIlk i f).pages = s.pages ∧
      (s.modIlk i f).timers = s.timers ∧ (s.modIlk i f).evgs = s.evgs ∧ (s.modIlk i f).mboxes = s.mboxes ∧
      (s.modIlk i f).rings = s.rings ∧ (s.modIlk i f).dmas = s.dmas ∧ (s.modIlk i f).actxs = s.actxs ∧
      (s.modIlk i f).bands = s.bands ∧ (s.modIlk i f).loops = s.loops ∧ (s.modIlk i f).stalled = s.stalled ∧
      (s.modIlk i f).admitQ = s.admitQ ∧ (s.modIlk i f).snap = s.snap ∧ (s.modIlk i f).drain = s.drain ∧
      (s.modIlk i f).exp = s.exp ∧ (s.modIlk i f).lac = s.lac ∧ (s.modIlk i f).elk = s.elk ∧
      (s.modIlk i f).panel = s.panel ∧ (s.modIlk i f).atr = s.atr ∧ (s.modIlk i f).fills = s.fills ∧
      (s.modIlk i f).memst = s.memst ∧ (s.modIlk i f).links = s.links ∧ (s.modIlk i f).t1 = s.t1 ∧
      (s.modIlk i f).stq = s.stq ∧ (s.modIlk i f).dsk = s.dsk ∧ (s.modIlk i f).ports = s.ports ∧
      (s.modIlk i f).mots = s.mots ∧ (s.modIlk i f).hbs = s.hbs ∧ (s.modIlk i f).invs = s.invs ∧
      (s.modIlk i f).axes = s.axes ∧ (s.modIlk i f).ain = s.ain ∧ (s.modIlk i f).adcAt = s.adcAt ∧
      (s.modIlk i f).tickAt = s.tickAt ∧ (s.modIlk i f).lpwm = s.lpwm ∧ (s.modIlk i f).lpwmAt = s.lpwmAt ∧
      (s.modIlk i f).web = s.web ∧ (s.modIlk i f).cams = s.cams ∧ (s.modIlk i f).pwr = s.pwr ∧
      (s.modIlk i f).thm = s.thm ∧ (s.modIlk i f).plls = s.plls ∧ (s.modIlk i f).ref = s.ref ∧
      (s.modIlk i f).flt = s.flt ∧ (s.modIlk i f).nvm = s.nvm ∧ (s.modIlk i f).acd = s.acd ∧
      (s.modIlk i f).svc = s.svc ∧ (s.modIlk i f).jtag = s.jtag := by
  and_intros <;> rfl

@[simp] theorem State.modAtr_frame (s : State) (i : Nat) (f : AtrSt → AtrSt) :
      (s.modAtr i f).pending = s.pending ∧ (s.modAtr i f).fuses = s.fuses ∧ (s.modAtr i f).ptime = s.ptime ∧
      (s.modAtr i f).bus = s.bus ∧ (s.modAtr i f).freeCtr = s.freeCtr ∧ (s.modAtr i f).regs = s.regs ∧
      (s.modAtr i f).mem = s.mem ∧ (s.modAtr i f).upsets = s.upsets ∧ (s.modAtr i f).cores = s.cores ∧
      (s.modAtr i f).objs = s.objs ∧ (s.modAtr i f).gens = s.gens ∧ (s.modAtr i f).withdrawn = s.withdrawn ∧
      (s.modAtr i f).freeList = s.freeList ∧ (s.modAtr i f).jobs = s.jobs ∧ (s.modAtr i f).pages = s.pages ∧
      (s.modAtr i f).timers = s.timers ∧ (s.modAtr i f).evgs = s.evgs ∧ (s.modAtr i f).mboxes = s.mboxes ∧
      (s.modAtr i f).rings = s.rings ∧ (s.modAtr i f).dmas = s.dmas ∧ (s.modAtr i f).actxs = s.actxs ∧
      (s.modAtr i f).bands = s.bands ∧ (s.modAtr i f).loops = s.loops ∧ (s.modAtr i f).stalled = s.stalled ∧
      (s.modAtr i f).admitQ = s.admitQ ∧ (s.modAtr i f).snap = s.snap ∧ (s.modAtr i f).drain = s.drain ∧
      (s.modAtr i f).exp = s.exp ∧ (s.modAtr i f).lac = s.lac ∧ (s.modAtr i f).elk = s.elk ∧
      (s.modAtr i f).ilk = s.ilk ∧ (s.modAtr i f).panel = s.panel ∧ (s.modAtr i f).fills = s.fills ∧
      (s.modAtr i f).memst = s.memst ∧ (s.modAtr i f).links = s.links ∧ (s.modAtr i f).t1 = s.t1 ∧
      (s.modAtr i f).stq = s.stq ∧ (s.modAtr i f).dsk = s.dsk ∧ (s.modAtr i f).ports = s.ports ∧
      (s.modAtr i f).mots = s.mots ∧ (s.modAtr i f).hbs = s.hbs ∧ (s.modAtr i f).invs = s.invs ∧
      (s.modAtr i f).axes = s.axes ∧ (s.modAtr i f).ain = s.ain ∧ (s.modAtr i f).adcAt = s.adcAt ∧
      (s.modAtr i f).tickAt = s.tickAt ∧ (s.modAtr i f).lpwm = s.lpwm ∧ (s.modAtr i f).lpwmAt = s.lpwmAt ∧
      (s.modAtr i f).web = s.web ∧ (s.modAtr i f).cams = s.cams ∧ (s.modAtr i f).pwr = s.pwr ∧
      (s.modAtr i f).thm = s.thm ∧ (s.modAtr i f).plls = s.plls ∧ (s.modAtr i f).ref = s.ref ∧
      (s.modAtr i f).flt = s.flt ∧ (s.modAtr i f).nvm = s.nvm ∧ (s.modAtr i f).acd = s.acd ∧
      (s.modAtr i f).svc = s.svc ∧ (s.modAtr i f).jtag = s.jtag := by
  and_intros <;> rfl

@[simp] theorem State.modLink_frame (s : State) (i : Nat) (f : LinkSt → LinkSt) :
      (s.modLink i f).pending = s.pending ∧ (s.modLink i f).fuses = s.fuses ∧ (s.modLink i f).ptime = s.ptime ∧
      (s.modLink i f).bus = s.bus ∧ (s.modLink i f).freeCtr = s.freeCtr ∧ (s.modLink i f).regs = s.regs ∧
      (s.modLink i f).mem = s.mem ∧ (s.modLink i f).upsets = s.upsets ∧ (s.modLink i f).cores = s.cores ∧
      (s.modLink i f).objs = s.objs ∧ (s.modLink i f).gens = s.gens ∧ (s.modLink i f).withdrawn = s.withdrawn ∧
      (s.modLink i f).freeList = s.freeList ∧ (s.modLink i f).jobs = s.jobs ∧ (s.modLink i f).pages = s.pages ∧
      (s.modLink i f).timers = s.timers ∧ (s.modLink i f).evgs = s.evgs ∧ (s.modLink i f).mboxes = s.mboxes ∧
      (s.modLink i f).rings = s.rings ∧ (s.modLink i f).dmas = s.dmas ∧ (s.modLink i f).actxs = s.actxs ∧
      (s.modLink i f).bands = s.bands ∧ (s.modLink i f).loops = s.loops ∧ (s.modLink i f).stalled = s.stalled ∧
      (s.modLink i f).admitQ = s.admitQ ∧ (s.modLink i f).snap = s.snap ∧ (s.modLink i f).drain = s.drain ∧
      (s.modLink i f).exp = s.exp ∧ (s.modLink i f).lac = s.lac ∧ (s.modLink i f).elk = s.elk ∧
      (s.modLink i f).ilk = s.ilk ∧ (s.modLink i f).panel = s.panel ∧ (s.modLink i f).atr = s.atr ∧
      (s.modLink i f).fills = s.fills ∧ (s.modLink i f).memst = s.memst ∧ (s.modLink i f).t1 = s.t1 ∧
      (s.modLink i f).stq = s.stq ∧ (s.modLink i f).dsk = s.dsk ∧ (s.modLink i f).ports = s.ports ∧
      (s.modLink i f).mots = s.mots ∧ (s.modLink i f).hbs = s.hbs ∧ (s.modLink i f).invs = s.invs ∧
      (s.modLink i f).axes = s.axes ∧ (s.modLink i f).ain = s.ain ∧ (s.modLink i f).adcAt = s.adcAt ∧
      (s.modLink i f).tickAt = s.tickAt ∧ (s.modLink i f).lpwm = s.lpwm ∧ (s.modLink i f).lpwmAt = s.lpwmAt ∧
      (s.modLink i f).web = s.web ∧ (s.modLink i f).cams = s.cams ∧ (s.modLink i f).pwr = s.pwr ∧
      (s.modLink i f).thm = s.thm ∧ (s.modLink i f).plls = s.plls ∧ (s.modLink i f).ref = s.ref ∧
      (s.modLink i f).flt = s.flt ∧ (s.modLink i f).nvm = s.nvm ∧ (s.modLink i f).acd = s.acd ∧
      (s.modLink i f).svc = s.svc ∧ (s.modLink i f).jtag = s.jtag := by
  and_intros <;> rfl

@[simp] theorem State.modDsk_frame (s : State) (i : Nat) (f : DskSt → DskSt) :
      (s.modDsk i f).pending = s.pending ∧ (s.modDsk i f).fuses = s.fuses ∧ (s.modDsk i f).ptime = s.ptime ∧
      (s.modDsk i f).bus = s.bus ∧ (s.modDsk i f).freeCtr = s.freeCtr ∧ (s.modDsk i f).regs = s.regs ∧
      (s.modDsk i f).mem = s.mem ∧ (s.modDsk i f).upsets = s.upsets ∧ (s.modDsk i f).cores = s.cores ∧
      (s.modDsk i f).objs = s.objs ∧ (s.modDsk i f).gens = s.gens ∧ (s.modDsk i f).withdrawn = s.withdrawn ∧
      (s.modDsk i f).freeList = s.freeList ∧ (s.modDsk i f).jobs = s.jobs ∧ (s.modDsk i f).pages = s.pages ∧
      (s.modDsk i f).timers = s.timers ∧ (s.modDsk i f).evgs = s.evgs ∧ (s.modDsk i f).mboxes = s.mboxes ∧
      (s.modDsk i f).rings = s.rings ∧ (s.modDsk i f).dmas = s.dmas ∧ (s.modDsk i f).actxs = s.actxs ∧
      (s.modDsk i f).bands = s.bands ∧ (s.modDsk i f).loops = s.loops ∧ (s.modDsk i f).stalled = s.stalled ∧
      (s.modDsk i f).admitQ = s.admitQ ∧ (s.modDsk i f).snap = s.snap ∧ (s.modDsk i f).drain = s.drain ∧
      (s.modDsk i f).exp = s.exp ∧ (s.modDsk i f).lac = s.lac ∧ (s.modDsk i f).elk = s.elk ∧
      (s.modDsk i f).ilk = s.ilk ∧ (s.modDsk i f).panel = s.panel ∧ (s.modDsk i f).atr = s.atr ∧
      (s.modDsk i f).fills = s.fills ∧ (s.modDsk i f).memst = s.memst ∧ (s.modDsk i f).links = s.links ∧
      (s.modDsk i f).t1 = s.t1 ∧ (s.modDsk i f).stq = s.stq ∧ (s.modDsk i f).ports = s.ports ∧
      (s.modDsk i f).mots = s.mots ∧ (s.modDsk i f).hbs = s.hbs ∧ (s.modDsk i f).invs = s.invs ∧
      (s.modDsk i f).axes = s.axes ∧ (s.modDsk i f).ain = s.ain ∧ (s.modDsk i f).adcAt = s.adcAt ∧
      (s.modDsk i f).tickAt = s.tickAt ∧ (s.modDsk i f).lpwm = s.lpwm ∧ (s.modDsk i f).lpwmAt = s.lpwmAt ∧
      (s.modDsk i f).web = s.web ∧ (s.modDsk i f).cams = s.cams ∧ (s.modDsk i f).pwr = s.pwr ∧
      (s.modDsk i f).thm = s.thm ∧ (s.modDsk i f).plls = s.plls ∧ (s.modDsk i f).ref = s.ref ∧
      (s.modDsk i f).flt = s.flt ∧ (s.modDsk i f).nvm = s.nvm ∧ (s.modDsk i f).acd = s.acd ∧
      (s.modDsk i f).svc = s.svc ∧ (s.modDsk i f).jtag = s.jtag := by
  and_intros <;> rfl

@[simp] theorem State.modPort_frame (s : State) (i : Nat) (f : PortSt → PortSt) :
      (s.modPort i f).pending = s.pending ∧ (s.modPort i f).fuses = s.fuses ∧ (s.modPort i f).ptime = s.ptime ∧
      (s.modPort i f).bus = s.bus ∧ (s.modPort i f).freeCtr = s.freeCtr ∧ (s.modPort i f).regs = s.regs ∧
      (s.modPort i f).mem = s.mem ∧ (s.modPort i f).upsets = s.upsets ∧ (s.modPort i f).cores = s.cores ∧
      (s.modPort i f).objs = s.objs ∧ (s.modPort i f).gens = s.gens ∧ (s.modPort i f).withdrawn = s.withdrawn ∧
      (s.modPort i f).freeList = s.freeList ∧ (s.modPort i f).jobs = s.jobs ∧ (s.modPort i f).pages = s.pages ∧
      (s.modPort i f).timers = s.timers ∧ (s.modPort i f).evgs = s.evgs ∧ (s.modPort i f).mboxes = s.mboxes ∧
      (s.modPort i f).rings = s.rings ∧ (s.modPort i f).dmas = s.dmas ∧ (s.modPort i f).actxs = s.actxs ∧
      (s.modPort i f).bands = s.bands ∧ (s.modPort i f).loops = s.loops ∧ (s.modPort i f).stalled = s.stalled ∧
      (s.modPort i f).admitQ = s.admitQ ∧ (s.modPort i f).snap = s.snap ∧ (s.modPort i f).drain = s.drain ∧
      (s.modPort i f).exp = s.exp ∧ (s.modPort i f).lac = s.lac ∧ (s.modPort i f).elk = s.elk ∧
      (s.modPort i f).ilk = s.ilk ∧ (s.modPort i f).panel = s.panel ∧ (s.modPort i f).atr = s.atr ∧
      (s.modPort i f).fills = s.fills ∧ (s.modPort i f).memst = s.memst ∧ (s.modPort i f).links = s.links ∧
      (s.modPort i f).t1 = s.t1 ∧ (s.modPort i f).stq = s.stq ∧ (s.modPort i f).dsk = s.dsk ∧
      (s.modPort i f).mots = s.mots ∧ (s.modPort i f).hbs = s.hbs ∧ (s.modPort i f).invs = s.invs ∧
      (s.modPort i f).axes = s.axes ∧ (s.modPort i f).ain = s.ain ∧ (s.modPort i f).adcAt = s.adcAt ∧
      (s.modPort i f).tickAt = s.tickAt ∧ (s.modPort i f).lpwm = s.lpwm ∧ (s.modPort i f).lpwmAt = s.lpwmAt ∧
      (s.modPort i f).web = s.web ∧ (s.modPort i f).cams = s.cams ∧ (s.modPort i f).pwr = s.pwr ∧
      (s.modPort i f).thm = s.thm ∧ (s.modPort i f).plls = s.plls ∧ (s.modPort i f).ref = s.ref ∧
      (s.modPort i f).flt = s.flt ∧ (s.modPort i f).nvm = s.nvm ∧ (s.modPort i f).acd = s.acd ∧
      (s.modPort i f).svc = s.svc ∧ (s.modPort i f).jtag = s.jtag := by
  and_intros <;> rfl

@[simp] theorem State.modMot_frame (s : State) (i : Nat) (f : MotSt → MotSt) :
      (s.modMot i f).pending = s.pending ∧ (s.modMot i f).fuses = s.fuses ∧ (s.modMot i f).ptime = s.ptime ∧
      (s.modMot i f).bus = s.bus ∧ (s.modMot i f).freeCtr = s.freeCtr ∧ (s.modMot i f).regs = s.regs ∧
      (s.modMot i f).mem = s.mem ∧ (s.modMot i f).upsets = s.upsets ∧ (s.modMot i f).cores = s.cores ∧
      (s.modMot i f).objs = s.objs ∧ (s.modMot i f).gens = s.gens ∧ (s.modMot i f).withdrawn = s.withdrawn ∧
      (s.modMot i f).freeList = s.freeList ∧ (s.modMot i f).jobs = s.jobs ∧ (s.modMot i f).pages = s.pages ∧
      (s.modMot i f).timers = s.timers ∧ (s.modMot i f).evgs = s.evgs ∧ (s.modMot i f).mboxes = s.mboxes ∧
      (s.modMot i f).rings = s.rings ∧ (s.modMot i f).dmas = s.dmas ∧ (s.modMot i f).actxs = s.actxs ∧
      (s.modMot i f).bands = s.bands ∧ (s.modMot i f).loops = s.loops ∧ (s.modMot i f).stalled = s.stalled ∧
      (s.modMot i f).admitQ = s.admitQ ∧ (s.modMot i f).snap = s.snap ∧ (s.modMot i f).drain = s.drain ∧
      (s.modMot i f).exp = s.exp ∧ (s.modMot i f).lac = s.lac ∧ (s.modMot i f).elk = s.elk ∧
      (s.modMot i f).ilk = s.ilk ∧ (s.modMot i f).panel = s.panel ∧ (s.modMot i f).atr = s.atr ∧
      (s.modMot i f).fills = s.fills ∧ (s.modMot i f).memst = s.memst ∧ (s.modMot i f).links = s.links ∧
      (s.modMot i f).t1 = s.t1 ∧ (s.modMot i f).stq = s.stq ∧ (s.modMot i f).dsk = s.dsk ∧
      (s.modMot i f).ports = s.ports ∧ (s.modMot i f).hbs = s.hbs ∧ (s.modMot i f).invs = s.invs ∧
      (s.modMot i f).axes = s.axes ∧ (s.modMot i f).ain = s.ain ∧ (s.modMot i f).adcAt = s.adcAt ∧
      (s.modMot i f).tickAt = s.tickAt ∧ (s.modMot i f).lpwm = s.lpwm ∧ (s.modMot i f).lpwmAt = s.lpwmAt ∧
      (s.modMot i f).web = s.web ∧ (s.modMot i f).cams = s.cams ∧ (s.modMot i f).pwr = s.pwr ∧
      (s.modMot i f).thm = s.thm ∧ (s.modMot i f).plls = s.plls ∧ (s.modMot i f).ref = s.ref ∧
      (s.modMot i f).flt = s.flt ∧ (s.modMot i f).nvm = s.nvm ∧ (s.modMot i f).acd = s.acd ∧
      (s.modMot i f).svc = s.svc ∧ (s.modMot i f).jtag = s.jtag := by
  and_intros <;> rfl

@[simp] theorem State.modHb_frame (s : State) (i : Nat) (f : HbSt → HbSt) :
      (s.modHb i f).pending = s.pending ∧ (s.modHb i f).fuses = s.fuses ∧ (s.modHb i f).ptime = s.ptime ∧
      (s.modHb i f).bus = s.bus ∧ (s.modHb i f).freeCtr = s.freeCtr ∧ (s.modHb i f).regs = s.regs ∧
      (s.modHb i f).mem = s.mem ∧ (s.modHb i f).upsets = s.upsets ∧ (s.modHb i f).cores = s.cores ∧
      (s.modHb i f).objs = s.objs ∧ (s.modHb i f).gens = s.gens ∧ (s.modHb i f).withdrawn = s.withdrawn ∧
      (s.modHb i f).freeList = s.freeList ∧ (s.modHb i f).jobs = s.jobs ∧ (s.modHb i f).pages = s.pages ∧
      (s.modHb i f).timers = s.timers ∧ (s.modHb i f).evgs = s.evgs ∧ (s.modHb i f).mboxes = s.mboxes ∧
      (s.modHb i f).rings = s.rings ∧ (s.modHb i f).dmas = s.dmas ∧ (s.modHb i f).actxs = s.actxs ∧
      (s.modHb i f).bands = s.bands ∧ (s.modHb i f).loops = s.loops ∧ (s.modHb i f).stalled = s.stalled ∧
      (s.modHb i f).admitQ = s.admitQ ∧ (s.modHb i f).snap = s.snap ∧ (s.modHb i f).drain = s.drain ∧
      (s.modHb i f).exp = s.exp ∧ (s.modHb i f).lac = s.lac ∧ (s.modHb i f).elk = s.elk ∧
      (s.modHb i f).ilk = s.ilk ∧ (s.modHb i f).panel = s.panel ∧ (s.modHb i f).atr = s.atr ∧
      (s.modHb i f).fills = s.fills ∧ (s.modHb i f).memst = s.memst ∧ (s.modHb i f).links = s.links ∧
      (s.modHb i f).t1 = s.t1 ∧ (s.modHb i f).stq = s.stq ∧ (s.modHb i f).dsk = s.dsk ∧
      (s.modHb i f).ports = s.ports ∧ (s.modHb i f).mots = s.mots ∧ (s.modHb i f).invs = s.invs ∧
      (s.modHb i f).axes = s.axes ∧ (s.modHb i f).ain = s.ain ∧ (s.modHb i f).adcAt = s.adcAt ∧
      (s.modHb i f).tickAt = s.tickAt ∧ (s.modHb i f).lpwm = s.lpwm ∧ (s.modHb i f).lpwmAt = s.lpwmAt ∧
      (s.modHb i f).web = s.web ∧ (s.modHb i f).cams = s.cams ∧ (s.modHb i f).pwr = s.pwr ∧
      (s.modHb i f).thm = s.thm ∧ (s.modHb i f).plls = s.plls ∧ (s.modHb i f).ref = s.ref ∧
      (s.modHb i f).flt = s.flt ∧ (s.modHb i f).nvm = s.nvm ∧ (s.modHb i f).acd = s.acd ∧
      (s.modHb i f).svc = s.svc ∧ (s.modHb i f).jtag = s.jtag := by
  and_intros <;> rfl

@[simp] theorem State.modInv_frame (s : State) (i : Nat) (f : InvSt → InvSt) :
      (s.modInv i f).pending = s.pending ∧ (s.modInv i f).fuses = s.fuses ∧ (s.modInv i f).ptime = s.ptime ∧
      (s.modInv i f).bus = s.bus ∧ (s.modInv i f).freeCtr = s.freeCtr ∧ (s.modInv i f).regs = s.regs ∧
      (s.modInv i f).mem = s.mem ∧ (s.modInv i f).upsets = s.upsets ∧ (s.modInv i f).cores = s.cores ∧
      (s.modInv i f).objs = s.objs ∧ (s.modInv i f).gens = s.gens ∧ (s.modInv i f).withdrawn = s.withdrawn ∧
      (s.modInv i f).freeList = s.freeList ∧ (s.modInv i f).jobs = s.jobs ∧ (s.modInv i f).pages = s.pages ∧
      (s.modInv i f).timers = s.timers ∧ (s.modInv i f).evgs = s.evgs ∧ (s.modInv i f).mboxes = s.mboxes ∧
      (s.modInv i f).rings = s.rings ∧ (s.modInv i f).dmas = s.dmas ∧ (s.modInv i f).actxs = s.actxs ∧
      (s.modInv i f).bands = s.bands ∧ (s.modInv i f).loops = s.loops ∧ (s.modInv i f).stalled = s.stalled ∧
      (s.modInv i f).admitQ = s.admitQ ∧ (s.modInv i f).snap = s.snap ∧ (s.modInv i f).drain = s.drain ∧
      (s.modInv i f).exp = s.exp ∧ (s.modInv i f).lac = s.lac ∧ (s.modInv i f).elk = s.elk ∧
      (s.modInv i f).ilk = s.ilk ∧ (s.modInv i f).panel = s.panel ∧ (s.modInv i f).atr = s.atr ∧
      (s.modInv i f).fills = s.fills ∧ (s.modInv i f).memst = s.memst ∧ (s.modInv i f).links = s.links ∧
      (s.modInv i f).t1 = s.t1 ∧ (s.modInv i f).stq = s.stq ∧ (s.modInv i f).dsk = s.dsk ∧
      (s.modInv i f).ports = s.ports ∧ (s.modInv i f).mots = s.mots ∧ (s.modInv i f).hbs = s.hbs ∧
      (s.modInv i f).axes = s.axes ∧ (s.modInv i f).ain = s.ain ∧ (s.modInv i f).adcAt = s.adcAt ∧
      (s.modInv i f).tickAt = s.tickAt ∧ (s.modInv i f).lpwm = s.lpwm ∧ (s.modInv i f).lpwmAt = s.lpwmAt ∧
      (s.modInv i f).web = s.web ∧ (s.modInv i f).cams = s.cams ∧ (s.modInv i f).pwr = s.pwr ∧
      (s.modInv i f).thm = s.thm ∧ (s.modInv i f).plls = s.plls ∧ (s.modInv i f).ref = s.ref ∧
      (s.modInv i f).flt = s.flt ∧ (s.modInv i f).nvm = s.nvm ∧ (s.modInv i f).acd = s.acd ∧
      (s.modInv i f).svc = s.svc ∧ (s.modInv i f).jtag = s.jtag := by
  and_intros <;> rfl

@[simp] theorem State.modAxis_frame (s : State) (i : Nat) (f : Axis → Axis) :
      (s.modAxis i f).pending = s.pending ∧ (s.modAxis i f).fuses = s.fuses ∧ (s.modAxis i f).ptime = s.ptime ∧
      (s.modAxis i f).bus = s.bus ∧ (s.modAxis i f).freeCtr = s.freeCtr ∧ (s.modAxis i f).regs = s.regs ∧
      (s.modAxis i f).mem = s.mem ∧ (s.modAxis i f).upsets = s.upsets ∧ (s.modAxis i f).cores = s.cores ∧
      (s.modAxis i f).objs = s.objs ∧ (s.modAxis i f).gens = s.gens ∧ (s.modAxis i f).withdrawn = s.withdrawn ∧
      (s.modAxis i f).freeList = s.freeList ∧ (s.modAxis i f).jobs = s.jobs ∧ (s.modAxis i f).pages = s.pages ∧
      (s.modAxis i f).timers = s.timers ∧ (s.modAxis i f).evgs = s.evgs ∧ (s.modAxis i f).mboxes = s.mboxes ∧
      (s.modAxis i f).rings = s.rings ∧ (s.modAxis i f).dmas = s.dmas ∧ (s.modAxis i f).actxs = s.actxs ∧
      (s.modAxis i f).bands = s.bands ∧ (s.modAxis i f).loops = s.loops ∧ (s.modAxis i f).stalled = s.stalled ∧
      (s.modAxis i f).admitQ = s.admitQ ∧ (s.modAxis i f).snap = s.snap ∧ (s.modAxis i f).drain = s.drain ∧
      (s.modAxis i f).exp = s.exp ∧ (s.modAxis i f).lac = s.lac ∧ (s.modAxis i f).elk = s.elk ∧
      (s.modAxis i f).ilk = s.ilk ∧ (s.modAxis i f).panel = s.panel ∧ (s.modAxis i f).atr = s.atr ∧
      (s.modAxis i f).fills = s.fills ∧ (s.modAxis i f).memst = s.memst ∧ (s.modAxis i f).links = s.links ∧
      (s.modAxis i f).t1 = s.t1 ∧ (s.modAxis i f).stq = s.stq ∧ (s.modAxis i f).dsk = s.dsk ∧
      (s.modAxis i f).ports = s.ports ∧ (s.modAxis i f).mots = s.mots ∧ (s.modAxis i f).hbs = s.hbs ∧
      (s.modAxis i f).invs = s.invs ∧ (s.modAxis i f).ain = s.ain ∧ (s.modAxis i f).adcAt = s.adcAt ∧
      (s.modAxis i f).tickAt = s.tickAt ∧ (s.modAxis i f).lpwm = s.lpwm ∧ (s.modAxis i f).lpwmAt = s.lpwmAt ∧
      (s.modAxis i f).web = s.web ∧ (s.modAxis i f).cams = s.cams ∧ (s.modAxis i f).pwr = s.pwr ∧
      (s.modAxis i f).thm = s.thm ∧ (s.modAxis i f).plls = s.plls ∧ (s.modAxis i f).ref = s.ref ∧
      (s.modAxis i f).flt = s.flt ∧ (s.modAxis i f).nvm = s.nvm ∧ (s.modAxis i f).acd = s.acd ∧
      (s.modAxis i f).svc = s.svc ∧ (s.modAxis i f).jtag = s.jtag := by
  and_intros <;> rfl

@[simp] theorem State.modCam_frame (s : State) (i : Nat) (f : CamSt → CamSt) :
      (s.modCam i f).pending = s.pending ∧ (s.modCam i f).fuses = s.fuses ∧ (s.modCam i f).ptime = s.ptime ∧
      (s.modCam i f).bus = s.bus ∧ (s.modCam i f).freeCtr = s.freeCtr ∧ (s.modCam i f).regs = s.regs ∧
      (s.modCam i f).mem = s.mem ∧ (s.modCam i f).upsets = s.upsets ∧ (s.modCam i f).cores = s.cores ∧
      (s.modCam i f).objs = s.objs ∧ (s.modCam i f).gens = s.gens ∧ (s.modCam i f).withdrawn = s.withdrawn ∧
      (s.modCam i f).freeList = s.freeList ∧ (s.modCam i f).jobs = s.jobs ∧ (s.modCam i f).pages = s.pages ∧
      (s.modCam i f).timers = s.timers ∧ (s.modCam i f).evgs = s.evgs ∧ (s.modCam i f).mboxes = s.mboxes ∧
      (s.modCam i f).rings = s.rings ∧ (s.modCam i f).dmas = s.dmas ∧ (s.modCam i f).actxs = s.actxs ∧
      (s.modCam i f).bands = s.bands ∧ (s.modCam i f).loops = s.loops ∧ (s.modCam i f).stalled = s.stalled ∧
      (s.modCam i f).admitQ = s.admitQ ∧ (s.modCam i f).snap = s.snap ∧ (s.modCam i f).drain = s.drain ∧
      (s.modCam i f).exp = s.exp ∧ (s.modCam i f).lac = s.lac ∧ (s.modCam i f).elk = s.elk ∧
      (s.modCam i f).ilk = s.ilk ∧ (s.modCam i f).panel = s.panel ∧ (s.modCam i f).atr = s.atr ∧
      (s.modCam i f).fills = s.fills ∧ (s.modCam i f).memst = s.memst ∧ (s.modCam i f).links = s.links ∧
      (s.modCam i f).t1 = s.t1 ∧ (s.modCam i f).stq = s.stq ∧ (s.modCam i f).dsk = s.dsk ∧
      (s.modCam i f).ports = s.ports ∧ (s.modCam i f).mots = s.mots ∧ (s.modCam i f).hbs = s.hbs ∧
      (s.modCam i f).invs = s.invs ∧ (s.modCam i f).axes = s.axes ∧ (s.modCam i f).ain = s.ain ∧
      (s.modCam i f).adcAt = s.adcAt ∧ (s.modCam i f).tickAt = s.tickAt ∧ (s.modCam i f).lpwm = s.lpwm ∧
      (s.modCam i f).lpwmAt = s.lpwmAt ∧ (s.modCam i f).web = s.web ∧ (s.modCam i f).pwr = s.pwr ∧
      (s.modCam i f).thm = s.thm ∧ (s.modCam i f).plls = s.plls ∧ (s.modCam i f).ref = s.ref ∧
      (s.modCam i f).flt = s.flt ∧ (s.modCam i f).nvm = s.nvm ∧ (s.modCam i f).acd = s.acd ∧
      (s.modCam i f).svc = s.svc ∧ (s.modCam i f).jtag = s.jtag := by
  and_intros <;> rfl

@[simp] theorem State.modPll_frame (s : State) (i : Nat) (f : PllSt → PllSt) :
      (s.modPll i f).pending = s.pending ∧ (s.modPll i f).fuses = s.fuses ∧ (s.modPll i f).ptime = s.ptime ∧
      (s.modPll i f).bus = s.bus ∧ (s.modPll i f).freeCtr = s.freeCtr ∧ (s.modPll i f).regs = s.regs ∧
      (s.modPll i f).mem = s.mem ∧ (s.modPll i f).upsets = s.upsets ∧ (s.modPll i f).cores = s.cores ∧
      (s.modPll i f).objs = s.objs ∧ (s.modPll i f).gens = s.gens ∧ (s.modPll i f).withdrawn = s.withdrawn ∧
      (s.modPll i f).freeList = s.freeList ∧ (s.modPll i f).jobs = s.jobs ∧ (s.modPll i f).pages = s.pages ∧
      (s.modPll i f).timers = s.timers ∧ (s.modPll i f).evgs = s.evgs ∧ (s.modPll i f).mboxes = s.mboxes ∧
      (s.modPll i f).rings = s.rings ∧ (s.modPll i f).dmas = s.dmas ∧ (s.modPll i f).actxs = s.actxs ∧
      (s.modPll i f).bands = s.bands ∧ (s.modPll i f).loops = s.loops ∧ (s.modPll i f).stalled = s.stalled ∧
      (s.modPll i f).admitQ = s.admitQ ∧ (s.modPll i f).snap = s.snap ∧ (s.modPll i f).drain = s.drain ∧
      (s.modPll i f).exp = s.exp ∧ (s.modPll i f).lac = s.lac ∧ (s.modPll i f).elk = s.elk ∧
      (s.modPll i f).ilk = s.ilk ∧ (s.modPll i f).panel = s.panel ∧ (s.modPll i f).atr = s.atr ∧
      (s.modPll i f).fills = s.fills ∧ (s.modPll i f).memst = s.memst ∧ (s.modPll i f).links = s.links ∧
      (s.modPll i f).t1 = s.t1 ∧ (s.modPll i f).stq = s.stq ∧ (s.modPll i f).dsk = s.dsk ∧
      (s.modPll i f).ports = s.ports ∧ (s.modPll i f).mots = s.mots ∧ (s.modPll i f).hbs = s.hbs ∧
      (s.modPll i f).invs = s.invs ∧ (s.modPll i f).axes = s.axes ∧ (s.modPll i f).ain = s.ain ∧
      (s.modPll i f).adcAt = s.adcAt ∧ (s.modPll i f).tickAt = s.tickAt ∧ (s.modPll i f).lpwm = s.lpwm ∧
      (s.modPll i f).lpwmAt = s.lpwmAt ∧ (s.modPll i f).web = s.web ∧ (s.modPll i f).cams = s.cams ∧
      (s.modPll i f).pwr = s.pwr ∧ (s.modPll i f).thm = s.thm ∧ (s.modPll i f).ref = s.ref ∧
      (s.modPll i f).flt = s.flt ∧ (s.modPll i f).nvm = s.nvm ∧ (s.modPll i f).acd = s.acd ∧
      (s.modPll i f).svc = s.svc ∧ (s.modPll i f).jtag = s.jtag := by
  and_intros <;> rfl

@[simp] theorem State.modJob_frame (s : State) (i : Nat) (f : Job → Job) :
      (s.modJob i f).pending = s.pending ∧ (s.modJob i f).fuses = s.fuses ∧ (s.modJob i f).ptime = s.ptime ∧
      (s.modJob i f).bus = s.bus ∧ (s.modJob i f).freeCtr = s.freeCtr ∧ (s.modJob i f).regs = s.regs ∧
      (s.modJob i f).mem = s.mem ∧ (s.modJob i f).upsets = s.upsets ∧ (s.modJob i f).cores = s.cores ∧
      (s.modJob i f).objs = s.objs ∧ (s.modJob i f).gens = s.gens ∧ (s.modJob i f).withdrawn = s.withdrawn ∧
      (s.modJob i f).freeList = s.freeList ∧ (s.modJob i f).pages = s.pages ∧ (s.modJob i f).timers = s.timers ∧
      (s.modJob i f).evgs = s.evgs ∧ (s.modJob i f).mboxes = s.mboxes ∧ (s.modJob i f).rings = s.rings ∧
      (s.modJob i f).dmas = s.dmas ∧ (s.modJob i f).actxs = s.actxs ∧ (s.modJob i f).bands = s.bands ∧
      (s.modJob i f).loops = s.loops ∧ (s.modJob i f).stalled = s.stalled ∧ (s.modJob i f).admitQ = s.admitQ ∧
      (s.modJob i f).snap = s.snap ∧ (s.modJob i f).drain = s.drain ∧ (s.modJob i f).exp = s.exp ∧
      (s.modJob i f).lac = s.lac ∧ (s.modJob i f).elk = s.elk ∧ (s.modJob i f).ilk = s.ilk ∧
      (s.modJob i f).panel = s.panel ∧ (s.modJob i f).atr = s.atr ∧ (s.modJob i f).fills = s.fills ∧
      (s.modJob i f).memst = s.memst ∧ (s.modJob i f).links = s.links ∧ (s.modJob i f).t1 = s.t1 ∧
      (s.modJob i f).stq = s.stq ∧ (s.modJob i f).dsk = s.dsk ∧ (s.modJob i f).ports = s.ports ∧
      (s.modJob i f).mots = s.mots ∧ (s.modJob i f).hbs = s.hbs ∧ (s.modJob i f).invs = s.invs ∧
      (s.modJob i f).axes = s.axes ∧ (s.modJob i f).ain = s.ain ∧ (s.modJob i f).adcAt = s.adcAt ∧
      (s.modJob i f).tickAt = s.tickAt ∧ (s.modJob i f).lpwm = s.lpwm ∧ (s.modJob i f).lpwmAt = s.lpwmAt ∧
      (s.modJob i f).web = s.web ∧ (s.modJob i f).cams = s.cams ∧ (s.modJob i f).pwr = s.pwr ∧
      (s.modJob i f).thm = s.thm ∧ (s.modJob i f).plls = s.plls ∧ (s.modJob i f).ref = s.ref ∧
      (s.modJob i f).flt = s.flt ∧ (s.modJob i f).nvm = s.nvm ∧ (s.modJob i f).acd = s.acd ∧
      (s.modJob i f).svc = s.svc ∧ (s.modJob i f).jtag = s.jtag := by
  and_intros <;> rfl

@[simp] theorem State.modPage_frame (s : State) (i : Nat) (f : Page → Page) :
      (s.modPage i f).pending = s.pending ∧ (s.modPage i f).fuses = s.fuses ∧ (s.modPage i f).ptime = s.ptime ∧
      (s.modPage i f).bus = s.bus ∧ (s.modPage i f).freeCtr = s.freeCtr ∧ (s.modPage i f).regs = s.regs ∧
      (s.modPage i f).mem = s.mem ∧ (s.modPage i f).upsets = s.upsets ∧ (s.modPage i f).cores = s.cores ∧
      (s.modPage i f).objs = s.objs ∧ (s.modPage i f).gens = s.gens ∧ (s.modPage i f).withdrawn = s.withdrawn ∧
      (s.modPage i f).freeList = s.freeList ∧ (s.modPage i f).jobs = s.jobs ∧ (s.modPage i f).timers = s.timers ∧
      (s.modPage i f).evgs = s.evgs ∧ (s.modPage i f).mboxes = s.mboxes ∧ (s.modPage i f).rings = s.rings ∧
      (s.modPage i f).dmas = s.dmas ∧ (s.modPage i f).actxs = s.actxs ∧ (s.modPage i f).bands = s.bands ∧
      (s.modPage i f).loops = s.loops ∧ (s.modPage i f).stalled = s.stalled ∧ (s.modPage i f).admitQ = s.admitQ ∧
      (s.modPage i f).snap = s.snap ∧ (s.modPage i f).drain = s.drain ∧ (s.modPage i f).exp = s.exp ∧
      (s.modPage i f).lac = s.lac ∧ (s.modPage i f).elk = s.elk ∧ (s.modPage i f).ilk = s.ilk ∧
      (s.modPage i f).panel = s.panel ∧ (s.modPage i f).atr = s.atr ∧ (s.modPage i f).fills = s.fills ∧
      (s.modPage i f).memst = s.memst ∧ (s.modPage i f).links = s.links ∧ (s.modPage i f).t1 = s.t1 ∧
      (s.modPage i f).stq = s.stq ∧ (s.modPage i f).dsk = s.dsk ∧ (s.modPage i f).ports = s.ports ∧
      (s.modPage i f).mots = s.mots ∧ (s.modPage i f).hbs = s.hbs ∧ (s.modPage i f).invs = s.invs ∧
      (s.modPage i f).axes = s.axes ∧ (s.modPage i f).ain = s.ain ∧ (s.modPage i f).adcAt = s.adcAt ∧
      (s.modPage i f).tickAt = s.tickAt ∧ (s.modPage i f).lpwm = s.lpwm ∧ (s.modPage i f).lpwmAt = s.lpwmAt ∧
      (s.modPage i f).web = s.web ∧ (s.modPage i f).cams = s.cams ∧ (s.modPage i f).pwr = s.pwr ∧
      (s.modPage i f).thm = s.thm ∧ (s.modPage i f).plls = s.plls ∧ (s.modPage i f).ref = s.ref ∧
      (s.modPage i f).flt = s.flt ∧ (s.modPage i f).nvm = s.nvm ∧ (s.modPage i f).acd = s.acd ∧
      (s.modPage i f).svc = s.svc ∧ (s.modPage i f).jtag = s.jtag := by
  and_intros <;> rfl

@[simp] theorem State.modRing_frame (s : State) (i : Nat) (f : Ring → Ring) :
      (s.modRing i f).pending = s.pending ∧ (s.modRing i f).fuses = s.fuses ∧ (s.modRing i f).ptime = s.ptime ∧
      (s.modRing i f).bus = s.bus ∧ (s.modRing i f).freeCtr = s.freeCtr ∧ (s.modRing i f).regs = s.regs ∧
      (s.modRing i f).mem = s.mem ∧ (s.modRing i f).upsets = s.upsets ∧ (s.modRing i f).cores = s.cores ∧
      (s.modRing i f).objs = s.objs ∧ (s.modRing i f).gens = s.gens ∧ (s.modRing i f).withdrawn = s.withdrawn ∧
      (s.modRing i f).freeList = s.freeList ∧ (s.modRing i f).jobs = s.jobs ∧ (s.modRing i f).pages = s.pages ∧
      (s.modRing i f).timers = s.timers ∧ (s.modRing i f).evgs = s.evgs ∧ (s.modRing i f).mboxes = s.mboxes ∧
      (s.modRing i f).dmas = s.dmas ∧ (s.modRing i f).actxs = s.actxs ∧ (s.modRing i f).bands = s.bands ∧
      (s.modRing i f).loops = s.loops ∧ (s.modRing i f).stalled = s.stalled ∧ (s.modRing i f).admitQ = s.admitQ ∧
      (s.modRing i f).snap = s.snap ∧ (s.modRing i f).drain = s.drain ∧ (s.modRing i f).exp = s.exp ∧
      (s.modRing i f).lac = s.lac ∧ (s.modRing i f).elk = s.elk ∧ (s.modRing i f).ilk = s.ilk ∧
      (s.modRing i f).panel = s.panel ∧ (s.modRing i f).atr = s.atr ∧ (s.modRing i f).fills = s.fills ∧
      (s.modRing i f).memst = s.memst ∧ (s.modRing i f).links = s.links ∧ (s.modRing i f).t1 = s.t1 ∧
      (s.modRing i f).stq = s.stq ∧ (s.modRing i f).dsk = s.dsk ∧ (s.modRing i f).ports = s.ports ∧
      (s.modRing i f).mots = s.mots ∧ (s.modRing i f).hbs = s.hbs ∧ (s.modRing i f).invs = s.invs ∧
      (s.modRing i f).axes = s.axes ∧ (s.modRing i f).ain = s.ain ∧ (s.modRing i f).adcAt = s.adcAt ∧
      (s.modRing i f).tickAt = s.tickAt ∧ (s.modRing i f).lpwm = s.lpwm ∧ (s.modRing i f).lpwmAt = s.lpwmAt ∧
      (s.modRing i f).web = s.web ∧ (s.modRing i f).cams = s.cams ∧ (s.modRing i f).pwr = s.pwr ∧
      (s.modRing i f).thm = s.thm ∧ (s.modRing i f).plls = s.plls ∧ (s.modRing i f).ref = s.ref ∧
      (s.modRing i f).flt = s.flt ∧ (s.modRing i f).nvm = s.nvm ∧ (s.modRing i f).acd = s.acd ∧
      (s.modRing i f).svc = s.svc ∧ (s.modRing i f).jtag = s.jtag := by
  and_intros <;> rfl

@[simp] theorem State.modLoop_frame (s : State) (i : Nat) (f : Loop → Loop) :
      (s.modLoop i f).pending = s.pending ∧ (s.modLoop i f).fuses = s.fuses ∧ (s.modLoop i f).ptime = s.ptime ∧
      (s.modLoop i f).bus = s.bus ∧ (s.modLoop i f).freeCtr = s.freeCtr ∧ (s.modLoop i f).regs = s.regs ∧
      (s.modLoop i f).mem = s.mem ∧ (s.modLoop i f).upsets = s.upsets ∧ (s.modLoop i f).cores = s.cores ∧
      (s.modLoop i f).objs = s.objs ∧ (s.modLoop i f).gens = s.gens ∧ (s.modLoop i f).withdrawn = s.withdrawn ∧
      (s.modLoop i f).freeList = s.freeList ∧ (s.modLoop i f).jobs = s.jobs ∧ (s.modLoop i f).pages = s.pages ∧
      (s.modLoop i f).timers = s.timers ∧ (s.modLoop i f).evgs = s.evgs ∧ (s.modLoop i f).mboxes = s.mboxes ∧
      (s.modLoop i f).rings = s.rings ∧ (s.modLoop i f).dmas = s.dmas ∧ (s.modLoop i f).actxs = s.actxs ∧
      (s.modLoop i f).bands = s.bands ∧ (s.modLoop i f).stalled = s.stalled ∧ (s.modLoop i f).admitQ = s.admitQ ∧
      (s.modLoop i f).snap = s.snap ∧ (s.modLoop i f).drain = s.drain ∧ (s.modLoop i f).exp = s.exp ∧
      (s.modLoop i f).lac = s.lac ∧ (s.modLoop i f).elk = s.elk ∧ (s.modLoop i f).ilk = s.ilk ∧
      (s.modLoop i f).panel = s.panel ∧ (s.modLoop i f).atr = s.atr ∧ (s.modLoop i f).fills = s.fills ∧
      (s.modLoop i f).memst = s.memst ∧ (s.modLoop i f).links = s.links ∧ (s.modLoop i f).t1 = s.t1 ∧
      (s.modLoop i f).stq = s.stq ∧ (s.modLoop i f).dsk = s.dsk ∧ (s.modLoop i f).ports = s.ports ∧
      (s.modLoop i f).mots = s.mots ∧ (s.modLoop i f).hbs = s.hbs ∧ (s.modLoop i f).invs = s.invs ∧
      (s.modLoop i f).axes = s.axes ∧ (s.modLoop i f).ain = s.ain ∧ (s.modLoop i f).adcAt = s.adcAt ∧
      (s.modLoop i f).tickAt = s.tickAt ∧ (s.modLoop i f).lpwm = s.lpwm ∧ (s.modLoop i f).lpwmAt = s.lpwmAt ∧
      (s.modLoop i f).web = s.web ∧ (s.modLoop i f).cams = s.cams ∧ (s.modLoop i f).pwr = s.pwr ∧
      (s.modLoop i f).thm = s.thm ∧ (s.modLoop i f).plls = s.plls ∧ (s.modLoop i f).ref = s.ref ∧
      (s.modLoop i f).flt = s.flt ∧ (s.modLoop i f).nvm = s.nvm ∧ (s.modLoop i f).acd = s.acd ∧
      (s.modLoop i f).svc = s.svc ∧ (s.modLoop i f).jtag = s.jtag := by
  and_intros <;> rfl

@[simp] theorem State.modDma_frame (s : State) (i : Nat) (f : DmaCh → DmaCh) :
      (s.modDma i f).pending = s.pending ∧ (s.modDma i f).fuses = s.fuses ∧ (s.modDma i f).ptime = s.ptime ∧
      (s.modDma i f).bus = s.bus ∧ (s.modDma i f).freeCtr = s.freeCtr ∧ (s.modDma i f).regs = s.regs ∧
      (s.modDma i f).mem = s.mem ∧ (s.modDma i f).upsets = s.upsets ∧ (s.modDma i f).cores = s.cores ∧
      (s.modDma i f).objs = s.objs ∧ (s.modDma i f).gens = s.gens ∧ (s.modDma i f).withdrawn = s.withdrawn ∧
      (s.modDma i f).freeList = s.freeList ∧ (s.modDma i f).jobs = s.jobs ∧ (s.modDma i f).pages = s.pages ∧
      (s.modDma i f).timers = s.timers ∧ (s.modDma i f).evgs = s.evgs ∧ (s.modDma i f).mboxes = s.mboxes ∧
      (s.modDma i f).rings = s.rings ∧ (s.modDma i f).actxs = s.actxs ∧ (s.modDma i f).bands = s.bands ∧
      (s.modDma i f).loops = s.loops ∧ (s.modDma i f).stalled = s.stalled ∧ (s.modDma i f).admitQ = s.admitQ ∧
      (s.modDma i f).snap = s.snap ∧ (s.modDma i f).drain = s.drain ∧ (s.modDma i f).exp = s.exp ∧
      (s.modDma i f).lac = s.lac ∧ (s.modDma i f).elk = s.elk ∧ (s.modDma i f).ilk = s.ilk ∧
      (s.modDma i f).panel = s.panel ∧ (s.modDma i f).atr = s.atr ∧ (s.modDma i f).fills = s.fills ∧
      (s.modDma i f).memst = s.memst ∧ (s.modDma i f).links = s.links ∧ (s.modDma i f).t1 = s.t1 ∧
      (s.modDma i f).stq = s.stq ∧ (s.modDma i f).dsk = s.dsk ∧ (s.modDma i f).ports = s.ports ∧
      (s.modDma i f).mots = s.mots ∧ (s.modDma i f).hbs = s.hbs ∧ (s.modDma i f).invs = s.invs ∧
      (s.modDma i f).axes = s.axes ∧ (s.modDma i f).ain = s.ain ∧ (s.modDma i f).adcAt = s.adcAt ∧
      (s.modDma i f).tickAt = s.tickAt ∧ (s.modDma i f).lpwm = s.lpwm ∧ (s.modDma i f).lpwmAt = s.lpwmAt ∧
      (s.modDma i f).web = s.web ∧ (s.modDma i f).cams = s.cams ∧ (s.modDma i f).pwr = s.pwr ∧
      (s.modDma i f).thm = s.thm ∧ (s.modDma i f).plls = s.plls ∧ (s.modDma i f).ref = s.ref ∧
      (s.modDma i f).flt = s.flt ∧ (s.modDma i f).nvm = s.nvm ∧ (s.modDma i f).acd = s.acd ∧
      (s.modDma i f).svc = s.svc ∧ (s.modDma i f).jtag = s.jtag := by
  and_intros <;> rfl

@[simp] theorem State.modFlt_frame (s : State) (f : FltSt → FltSt) :
      (s.modFlt f).pending = s.pending ∧ (s.modFlt f).fuses = s.fuses ∧ (s.modFlt f).ptime = s.ptime ∧
      (s.modFlt f).bus = s.bus ∧ (s.modFlt f).freeCtr = s.freeCtr ∧ (s.modFlt f).regs = s.regs ∧
      (s.modFlt f).mem = s.mem ∧ (s.modFlt f).upsets = s.upsets ∧ (s.modFlt f).cores = s.cores ∧
      (s.modFlt f).objs = s.objs ∧ (s.modFlt f).gens = s.gens ∧ (s.modFlt f).withdrawn = s.withdrawn ∧
      (s.modFlt f).freeList = s.freeList ∧ (s.modFlt f).jobs = s.jobs ∧ (s.modFlt f).pages = s.pages ∧
      (s.modFlt f).timers = s.timers ∧ (s.modFlt f).evgs = s.evgs ∧ (s.modFlt f).mboxes = s.mboxes ∧
      (s.modFlt f).rings = s.rings ∧ (s.modFlt f).dmas = s.dmas ∧ (s.modFlt f).actxs = s.actxs ∧
      (s.modFlt f).bands = s.bands ∧ (s.modFlt f).loops = s.loops ∧ (s.modFlt f).stalled = s.stalled ∧
      (s.modFlt f).admitQ = s.admitQ ∧ (s.modFlt f).snap = s.snap ∧ (s.modFlt f).drain = s.drain ∧
      (s.modFlt f).exp = s.exp ∧ (s.modFlt f).lac = s.lac ∧ (s.modFlt f).elk = s.elk ∧ (s.modFlt f).ilk = s.ilk ∧
      (s.modFlt f).panel = s.panel ∧ (s.modFlt f).atr = s.atr ∧ (s.modFlt f).fills = s.fills ∧
      (s.modFlt f).memst = s.memst ∧ (s.modFlt f).links = s.links ∧ (s.modFlt f).t1 = s.t1 ∧
      (s.modFlt f).stq = s.stq ∧ (s.modFlt f).dsk = s.dsk ∧ (s.modFlt f).ports = s.ports ∧
      (s.modFlt f).mots = s.mots ∧ (s.modFlt f).hbs = s.hbs ∧ (s.modFlt f).invs = s.invs ∧
      (s.modFlt f).axes = s.axes ∧ (s.modFlt f).ain = s.ain ∧ (s.modFlt f).adcAt = s.adcAt ∧
      (s.modFlt f).tickAt = s.tickAt ∧ (s.modFlt f).lpwm = s.lpwm ∧ (s.modFlt f).lpwmAt = s.lpwmAt ∧
      (s.modFlt f).web = s.web ∧ (s.modFlt f).cams = s.cams ∧ (s.modFlt f).pwr = s.pwr ∧ (s.modFlt f).thm = s.thm
      ∧ (s.modFlt f).plls = s.plls ∧ (s.modFlt f).ref = s.ref ∧ (s.modFlt f).nvm = s.nvm ∧
      (s.modFlt f).acd = s.acd ∧ (s.modFlt f).svc = s.svc ∧ (s.modFlt f).jtag = s.jtag := by
  and_intros <;> rfl

@[simp] theorem State.modPwr_frame (s : State) (f : PwrSt → PwrSt) :
      (s.modPwr f).pending = s.pending ∧ (s.modPwr f).fuses = s.fuses ∧ (s.modPwr f).ptime = s.ptime ∧
      (s.modPwr f).bus = s.bus ∧ (s.modPwr f).freeCtr = s.freeCtr ∧ (s.modPwr f).regs = s.regs ∧
      (s.modPwr f).mem = s.mem ∧ (s.modPwr f).upsets = s.upsets ∧ (s.modPwr f).cores = s.cores ∧
      (s.modPwr f).objs = s.objs ∧ (s.modPwr f).gens = s.gens ∧ (s.modPwr f).withdrawn = s.withdrawn ∧
      (s.modPwr f).freeList = s.freeList ∧ (s.modPwr f).jobs = s.jobs ∧ (s.modPwr f).pages = s.pages ∧
      (s.modPwr f).timers = s.timers ∧ (s.modPwr f).evgs = s.evgs ∧ (s.modPwr f).mboxes = s.mboxes ∧
      (s.modPwr f).rings = s.rings ∧ (s.modPwr f).dmas = s.dmas ∧ (s.modPwr f).actxs = s.actxs ∧
      (s.modPwr f).bands = s.bands ∧ (s.modPwr f).loops = s.loops ∧ (s.modPwr f).stalled = s.stalled ∧
      (s.modPwr f).admitQ = s.admitQ ∧ (s.modPwr f).snap = s.snap ∧ (s.modPwr f).drain = s.drain ∧
      (s.modPwr f).exp = s.exp ∧ (s.modPwr f).lac = s.lac ∧ (s.modPwr f).elk = s.elk ∧ (s.modPwr f).ilk = s.ilk ∧
      (s.modPwr f).panel = s.panel ∧ (s.modPwr f).atr = s.atr ∧ (s.modPwr f).fills = s.fills ∧
      (s.modPwr f).memst = s.memst ∧ (s.modPwr f).links = s.links ∧ (s.modPwr f).t1 = s.t1 ∧
      (s.modPwr f).stq = s.stq ∧ (s.modPwr f).dsk = s.dsk ∧ (s.modPwr f).ports = s.ports ∧
      (s.modPwr f).mots = s.mots ∧ (s.modPwr f).hbs = s.hbs ∧ (s.modPwr f).invs = s.invs ∧
      (s.modPwr f).axes = s.axes ∧ (s.modPwr f).ain = s.ain ∧ (s.modPwr f).adcAt = s.adcAt ∧
      (s.modPwr f).tickAt = s.tickAt ∧ (s.modPwr f).lpwm = s.lpwm ∧ (s.modPwr f).lpwmAt = s.lpwmAt ∧
      (s.modPwr f).web = s.web ∧ (s.modPwr f).cams = s.cams ∧ (s.modPwr f).thm = s.thm ∧
      (s.modPwr f).plls = s.plls ∧ (s.modPwr f).ref = s.ref ∧ (s.modPwr f).flt = s.flt ∧ (s.modPwr f).nvm = s.nvm
      ∧ (s.modPwr f).acd = s.acd ∧ (s.modPwr f).svc = s.svc ∧ (s.modPwr f).jtag = s.jtag := by
  and_intros <;> rfl

@[simp] theorem State.modThm_frame (s : State) (f : ThmSt → ThmSt) :
      (s.modThm f).pending = s.pending ∧ (s.modThm f).fuses = s.fuses ∧ (s.modThm f).ptime = s.ptime ∧
      (s.modThm f).bus = s.bus ∧ (s.modThm f).freeCtr = s.freeCtr ∧ (s.modThm f).regs = s.regs ∧
      (s.modThm f).mem = s.mem ∧ (s.modThm f).upsets = s.upsets ∧ (s.modThm f).cores = s.cores ∧
      (s.modThm f).objs = s.objs ∧ (s.modThm f).gens = s.gens ∧ (s.modThm f).withdrawn = s.withdrawn ∧
      (s.modThm f).freeList = s.freeList ∧ (s.modThm f).jobs = s.jobs ∧ (s.modThm f).pages = s.pages ∧
      (s.modThm f).timers = s.timers ∧ (s.modThm f).evgs = s.evgs ∧ (s.modThm f).mboxes = s.mboxes ∧
      (s.modThm f).rings = s.rings ∧ (s.modThm f).dmas = s.dmas ∧ (s.modThm f).actxs = s.actxs ∧
      (s.modThm f).bands = s.bands ∧ (s.modThm f).loops = s.loops ∧ (s.modThm f).stalled = s.stalled ∧
      (s.modThm f).admitQ = s.admitQ ∧ (s.modThm f).snap = s.snap ∧ (s.modThm f).drain = s.drain ∧
      (s.modThm f).exp = s.exp ∧ (s.modThm f).lac = s.lac ∧ (s.modThm f).elk = s.elk ∧ (s.modThm f).ilk = s.ilk ∧
      (s.modThm f).panel = s.panel ∧ (s.modThm f).atr = s.atr ∧ (s.modThm f).fills = s.fills ∧
      (s.modThm f).memst = s.memst ∧ (s.modThm f).links = s.links ∧ (s.modThm f).t1 = s.t1 ∧
      (s.modThm f).stq = s.stq ∧ (s.modThm f).dsk = s.dsk ∧ (s.modThm f).ports = s.ports ∧
      (s.modThm f).mots = s.mots ∧ (s.modThm f).hbs = s.hbs ∧ (s.modThm f).invs = s.invs ∧
      (s.modThm f).axes = s.axes ∧ (s.modThm f).ain = s.ain ∧ (s.modThm f).adcAt = s.adcAt ∧
      (s.modThm f).tickAt = s.tickAt ∧ (s.modThm f).lpwm = s.lpwm ∧ (s.modThm f).lpwmAt = s.lpwmAt ∧
      (s.modThm f).web = s.web ∧ (s.modThm f).cams = s.cams ∧ (s.modThm f).pwr = s.pwr ∧
      (s.modThm f).plls = s.plls ∧ (s.modThm f).ref = s.ref ∧ (s.modThm f).flt = s.flt ∧ (s.modThm f).nvm = s.nvm
      ∧ (s.modThm f).acd = s.acd ∧ (s.modThm f).svc = s.svc ∧ (s.modThm f).jtag = s.jtag := by
  and_intros <;> rfl

@[simp] theorem State.modNvm_frame (s : State) (f : NvmSt → NvmSt) :
      (s.modNvm f).pending = s.pending ∧ (s.modNvm f).fuses = s.fuses ∧ (s.modNvm f).ptime = s.ptime ∧
      (s.modNvm f).bus = s.bus ∧ (s.modNvm f).freeCtr = s.freeCtr ∧ (s.modNvm f).regs = s.regs ∧
      (s.modNvm f).mem = s.mem ∧ (s.modNvm f).upsets = s.upsets ∧ (s.modNvm f).cores = s.cores ∧
      (s.modNvm f).objs = s.objs ∧ (s.modNvm f).gens = s.gens ∧ (s.modNvm f).withdrawn = s.withdrawn ∧
      (s.modNvm f).freeList = s.freeList ∧ (s.modNvm f).jobs = s.jobs ∧ (s.modNvm f).pages = s.pages ∧
      (s.modNvm f).timers = s.timers ∧ (s.modNvm f).evgs = s.evgs ∧ (s.modNvm f).mboxes = s.mboxes ∧
      (s.modNvm f).rings = s.rings ∧ (s.modNvm f).dmas = s.dmas ∧ (s.modNvm f).actxs = s.actxs ∧
      (s.modNvm f).bands = s.bands ∧ (s.modNvm f).loops = s.loops ∧ (s.modNvm f).stalled = s.stalled ∧
      (s.modNvm f).admitQ = s.admitQ ∧ (s.modNvm f).snap = s.snap ∧ (s.modNvm f).drain = s.drain ∧
      (s.modNvm f).exp = s.exp ∧ (s.modNvm f).lac = s.lac ∧ (s.modNvm f).elk = s.elk ∧ (s.modNvm f).ilk = s.ilk ∧
      (s.modNvm f).panel = s.panel ∧ (s.modNvm f).atr = s.atr ∧ (s.modNvm f).fills = s.fills ∧
      (s.modNvm f).memst = s.memst ∧ (s.modNvm f).links = s.links ∧ (s.modNvm f).t1 = s.t1 ∧
      (s.modNvm f).stq = s.stq ∧ (s.modNvm f).dsk = s.dsk ∧ (s.modNvm f).ports = s.ports ∧
      (s.modNvm f).mots = s.mots ∧ (s.modNvm f).hbs = s.hbs ∧ (s.modNvm f).invs = s.invs ∧
      (s.modNvm f).axes = s.axes ∧ (s.modNvm f).ain = s.ain ∧ (s.modNvm f).adcAt = s.adcAt ∧
      (s.modNvm f).tickAt = s.tickAt ∧ (s.modNvm f).lpwm = s.lpwm ∧ (s.modNvm f).lpwmAt = s.lpwmAt ∧
      (s.modNvm f).web = s.web ∧ (s.modNvm f).cams = s.cams ∧ (s.modNvm f).pwr = s.pwr ∧ (s.modNvm f).thm = s.thm
      ∧ (s.modNvm f).plls = s.plls ∧ (s.modNvm f).ref = s.ref ∧ (s.modNvm f).flt = s.flt ∧
      (s.modNvm f).acd = s.acd ∧ (s.modNvm f).svc = s.svc ∧ (s.modNvm f).jtag = s.jtag := by
  and_intros <;> rfl

@[simp] theorem State.modAcd_frame (s : State) (f : AcdSt → AcdSt) :
      (s.modAcd f).pending = s.pending ∧ (s.modAcd f).fuses = s.fuses ∧ (s.modAcd f).ptime = s.ptime ∧
      (s.modAcd f).bus = s.bus ∧ (s.modAcd f).freeCtr = s.freeCtr ∧ (s.modAcd f).regs = s.regs ∧
      (s.modAcd f).mem = s.mem ∧ (s.modAcd f).upsets = s.upsets ∧ (s.modAcd f).cores = s.cores ∧
      (s.modAcd f).objs = s.objs ∧ (s.modAcd f).gens = s.gens ∧ (s.modAcd f).withdrawn = s.withdrawn ∧
      (s.modAcd f).freeList = s.freeList ∧ (s.modAcd f).jobs = s.jobs ∧ (s.modAcd f).pages = s.pages ∧
      (s.modAcd f).timers = s.timers ∧ (s.modAcd f).evgs = s.evgs ∧ (s.modAcd f).mboxes = s.mboxes ∧
      (s.modAcd f).rings = s.rings ∧ (s.modAcd f).dmas = s.dmas ∧ (s.modAcd f).actxs = s.actxs ∧
      (s.modAcd f).bands = s.bands ∧ (s.modAcd f).loops = s.loops ∧ (s.modAcd f).stalled = s.stalled ∧
      (s.modAcd f).admitQ = s.admitQ ∧ (s.modAcd f).snap = s.snap ∧ (s.modAcd f).drain = s.drain ∧
      (s.modAcd f).exp = s.exp ∧ (s.modAcd f).lac = s.lac ∧ (s.modAcd f).elk = s.elk ∧ (s.modAcd f).ilk = s.ilk ∧
      (s.modAcd f).panel = s.panel ∧ (s.modAcd f).atr = s.atr ∧ (s.modAcd f).fills = s.fills ∧
      (s.modAcd f).memst = s.memst ∧ (s.modAcd f).links = s.links ∧ (s.modAcd f).t1 = s.t1 ∧
      (s.modAcd f).stq = s.stq ∧ (s.modAcd f).dsk = s.dsk ∧ (s.modAcd f).ports = s.ports ∧
      (s.modAcd f).mots = s.mots ∧ (s.modAcd f).hbs = s.hbs ∧ (s.modAcd f).invs = s.invs ∧
      (s.modAcd f).axes = s.axes ∧ (s.modAcd f).ain = s.ain ∧ (s.modAcd f).adcAt = s.adcAt ∧
      (s.modAcd f).tickAt = s.tickAt ∧ (s.modAcd f).lpwm = s.lpwm ∧ (s.modAcd f).lpwmAt = s.lpwmAt ∧
      (s.modAcd f).web = s.web ∧ (s.modAcd f).cams = s.cams ∧ (s.modAcd f).pwr = s.pwr ∧ (s.modAcd f).thm = s.thm
      ∧ (s.modAcd f).plls = s.plls ∧ (s.modAcd f).ref = s.ref ∧ (s.modAcd f).flt = s.flt ∧
      (s.modAcd f).nvm = s.nvm ∧ (s.modAcd f).svc = s.svc ∧ (s.modAcd f).jtag = s.jtag := by
  and_intros <;> rfl

@[simp] theorem State.modStq_frame (s : State) (f : StqSt → StqSt) :
      (s.modStq f).pending = s.pending ∧ (s.modStq f).fuses = s.fuses ∧ (s.modStq f).ptime = s.ptime ∧
      (s.modStq f).bus = s.bus ∧ (s.modStq f).freeCtr = s.freeCtr ∧ (s.modStq f).regs = s.regs ∧
      (s.modStq f).mem = s.mem ∧ (s.modStq f).upsets = s.upsets ∧ (s.modStq f).cores = s.cores ∧
      (s.modStq f).objs = s.objs ∧ (s.modStq f).gens = s.gens ∧ (s.modStq f).withdrawn = s.withdrawn ∧
      (s.modStq f).freeList = s.freeList ∧ (s.modStq f).jobs = s.jobs ∧ (s.modStq f).pages = s.pages ∧
      (s.modStq f).timers = s.timers ∧ (s.modStq f).evgs = s.evgs ∧ (s.modStq f).mboxes = s.mboxes ∧
      (s.modStq f).rings = s.rings ∧ (s.modStq f).dmas = s.dmas ∧ (s.modStq f).actxs = s.actxs ∧
      (s.modStq f).bands = s.bands ∧ (s.modStq f).loops = s.loops ∧ (s.modStq f).stalled = s.stalled ∧
      (s.modStq f).admitQ = s.admitQ ∧ (s.modStq f).snap = s.snap ∧ (s.modStq f).drain = s.drain ∧
      (s.modStq f).exp = s.exp ∧ (s.modStq f).lac = s.lac ∧ (s.modStq f).elk = s.elk ∧ (s.modStq f).ilk = s.ilk ∧
      (s.modStq f).panel = s.panel ∧ (s.modStq f).atr = s.atr ∧ (s.modStq f).fills = s.fills ∧
      (s.modStq f).memst = s.memst ∧ (s.modStq f).links = s.links ∧ (s.modStq f).t1 = s.t1 ∧
      (s.modStq f).dsk = s.dsk ∧ (s.modStq f).ports = s.ports ∧ (s.modStq f).mots = s.mots ∧
      (s.modStq f).hbs = s.hbs ∧ (s.modStq f).invs = s.invs ∧ (s.modStq f).axes = s.axes ∧
      (s.modStq f).ain = s.ain ∧ (s.modStq f).adcAt = s.adcAt ∧ (s.modStq f).tickAt = s.tickAt ∧
      (s.modStq f).lpwm = s.lpwm ∧ (s.modStq f).lpwmAt = s.lpwmAt ∧ (s.modStq f).web = s.web ∧
      (s.modStq f).cams = s.cams ∧ (s.modStq f).pwr = s.pwr ∧ (s.modStq f).thm = s.thm ∧
      (s.modStq f).plls = s.plls ∧ (s.modStq f).ref = s.ref ∧ (s.modStq f).flt = s.flt ∧ (s.modStq f).nvm = s.nvm
      ∧ (s.modStq f).acd = s.acd ∧ (s.modStq f).svc = s.svc ∧ (s.modStq f).jtag = s.jtag := by
  and_intros <;> rfl

@[simp] theorem State.modWeb_frame (s : State) (f : WebSt → WebSt) :
      (s.modWeb f).pending = s.pending ∧ (s.modWeb f).fuses = s.fuses ∧ (s.modWeb f).ptime = s.ptime ∧
      (s.modWeb f).bus = s.bus ∧ (s.modWeb f).freeCtr = s.freeCtr ∧ (s.modWeb f).regs = s.regs ∧
      (s.modWeb f).mem = s.mem ∧ (s.modWeb f).upsets = s.upsets ∧ (s.modWeb f).cores = s.cores ∧
      (s.modWeb f).objs = s.objs ∧ (s.modWeb f).gens = s.gens ∧ (s.modWeb f).withdrawn = s.withdrawn ∧
      (s.modWeb f).freeList = s.freeList ∧ (s.modWeb f).jobs = s.jobs ∧ (s.modWeb f).pages = s.pages ∧
      (s.modWeb f).timers = s.timers ∧ (s.modWeb f).evgs = s.evgs ∧ (s.modWeb f).mboxes = s.mboxes ∧
      (s.modWeb f).rings = s.rings ∧ (s.modWeb f).dmas = s.dmas ∧ (s.modWeb f).actxs = s.actxs ∧
      (s.modWeb f).bands = s.bands ∧ (s.modWeb f).loops = s.loops ∧ (s.modWeb f).stalled = s.stalled ∧
      (s.modWeb f).admitQ = s.admitQ ∧ (s.modWeb f).snap = s.snap ∧ (s.modWeb f).drain = s.drain ∧
      (s.modWeb f).exp = s.exp ∧ (s.modWeb f).lac = s.lac ∧ (s.modWeb f).elk = s.elk ∧ (s.modWeb f).ilk = s.ilk ∧
      (s.modWeb f).panel = s.panel ∧ (s.modWeb f).atr = s.atr ∧ (s.modWeb f).fills = s.fills ∧
      (s.modWeb f).memst = s.memst ∧ (s.modWeb f).links = s.links ∧ (s.modWeb f).t1 = s.t1 ∧
      (s.modWeb f).stq = s.stq ∧ (s.modWeb f).dsk = s.dsk ∧ (s.modWeb f).ports = s.ports ∧
      (s.modWeb f).mots = s.mots ∧ (s.modWeb f).hbs = s.hbs ∧ (s.modWeb f).invs = s.invs ∧
      (s.modWeb f).axes = s.axes ∧ (s.modWeb f).ain = s.ain ∧ (s.modWeb f).adcAt = s.adcAt ∧
      (s.modWeb f).tickAt = s.tickAt ∧ (s.modWeb f).lpwm = s.lpwm ∧ (s.modWeb f).lpwmAt = s.lpwmAt ∧
      (s.modWeb f).cams = s.cams ∧ (s.modWeb f).pwr = s.pwr ∧ (s.modWeb f).thm = s.thm ∧
      (s.modWeb f).plls = s.plls ∧ (s.modWeb f).ref = s.ref ∧ (s.modWeb f).flt = s.flt ∧ (s.modWeb f).nvm = s.nvm
      ∧ (s.modWeb f).acd = s.acd ∧ (s.modWeb f).svc = s.svc ∧ (s.modWeb f).jtag = s.jtag := by
  and_intros <;> rfl

end Sys2Proof.Machine
end

