-- ==== Sys2Proof/Laws/Memory.lean ====
section
/-!
SUPPORT. The laws of memory: reading after writing, the canonical form, and the accesses of requesters where no word
holds inverted bits.
-/
namespace Sys2Proof.Machine

/-! ### Bytes -/

@[simp] theorem State.rd8_wr8_same (s : State) (a : Nat) (b : Byte) : (s.wr8 a b).rd8 a = b := by
  simp [State.rd8, State.wr8]

theorem State.rd8_wr8_ne (s : State) {a c : Nat} (b : Byte) (h : c ≠ a) : (s.wr8 a b).rd8 c = s.rd8 c := by
  simp [State.rd8, State.wr8, Tab.getD_setD_ne _ _ _ _ h]

theorem State.rd8_wrBytes (s : State) (a : Nat) (l : List Byte) (c : Nat) :
    (s.wrBytes a l).rd8 c = if a ≤ c ∧ c < a + l.length then l.getD (c - a) 0 else s.rd8 c := by
  induction l generalizing s a with
  | nil => have : ¬ (a ≤ c ∧ c < a + ([] : List Byte).length) := by simp
           rw [if_neg this]; rfl
  | cons b r ih =>
    rw [State.wrBytes, ih]
    by_cases h1 : a + 1 ≤ c ∧ c < a + 1 + r.length
    · have h2 : a ≤ c ∧ c < a + (b :: r).length := by simp; omega
      have h3 : c - a = (c - (a + 1)) + 1 := by omega
      rw [if_pos h1, if_pos h2, h3]; simp
    · rw [if_neg h1]
      by_cases h2 : c = a
      · subst h2
        have h3 : c ≤ c ∧ c < c + (b :: r).length := by simp
        rw [if_pos h3, State.rd8_wr8_same]; simp
      · have h3 : ¬ (a ≤ c ∧ c < a + (b :: r).length) := by simp; omega
        rw [if_neg h3, State.rd8_wr8_ne _ _ h2]

/-- Bytes outside a write are as they were. -/
theorem State.rd8_wrBytes_out (s : State) (a : Nat) (l : List Byte) (c : Nat) (h : c < a ∨ a + l.length ≤ c) :
    (s.wrBytes a l).rd8 c = s.rd8 c := by
  rw [State.rd8_wrBytes, if_neg (by omega)]

/-- A write of bytes reads back. -/
theorem State.rdBytes_wrBytes (s : State) (a : Nat) (l : List Byte) : (s.wrBytes a l).rdBytes a l.length = l := by
  unfold State.rdBytes
  apply List.ext_getElem
  · simp
  · intro i h1 h2
    have hi : i < l.length := h2
    simp only [List.getElem_map, List.getElem_range, State.rd8_wrBytes]
    rw [if_pos (by omega), Nat.add_sub_cancel_left]; simp [List.getD, hi]

theorem State.wrBytes_append (s : State) (a : Nat) (l r : List Byte) :
    s.wrBytes a (l ++ r) = (s.wrBytes a l).wrBytes (a + l.length) r := by
  induction l generalizing s a with
  | nil => rfl
  | cons b l ih =>
    rw [List.cons_append, State.wrBytes, ih, State.wrBytes, List.length_cons]
    congr 1; omega

/-- Bytes of memory are all that a write changes. -/
theorem State.wrBytes_eq (s : State) (a : Nat) (l : List Byte) : s.wrBytes a l = { s with mem := (s.wrBytes a l).mem } := by
  induction l generalizing s a with
  | nil => rfl
  | cons b r ih => rw [State.wrBytes, ih]; rfl

@[simp] theorem leBytes_length (k n : Nat) : (leBytes k n).length = k := by
  induction k generalizing n with
  | zero => rfl
  | succ k ih => simp [leBytes, ih]

/-- Little-endian bytes and back. -/
theorem ofLe_leBytes (k n : Nat) : ofLe (leBytes k n) = n % 256 ^ k := by
  induction k generalizing n with
  | zero => simp [leBytes, ofLe, Nat.mod_one]
  | succ k ih =>
    simp only [leBytes, ofLe, ih, BitVec.toNat_ofNat]
    rw [show 256 ^ (k + 1) = 256 * 256 ^ k by rw [Nat.pow_succ, Nat.mul_comm], Nat.mod_mul]

theorem State.rdLe_wrLe (s : State) (a n v : Nat) : (s.wrLe a n v).rdLe a n = v % 256 ^ n := by
  unfold State.rdLe State.wrLe
  have := State.rdBytes_wrBytes s a (leBytes n v)
  rw [leBytes_length] at this
  rw [this, ofLe_leBytes]

/-! ### The canonical form -/

theorem Memory.wf_iff (m : List Host.Cell) : Memory.wf m = true ↔ Tab.rising m = true ∧ ∀ e ∈ m, e.2 ≠ 0 := by
  simp [Memory.wf]

/-- A byte written keeps the canonical form. -/
theorem State.wf_wr8 (s : State) (a : Nat) (b : Byte) (h : Memory.wf s.mem = true) : Memory.wf (s.wr8 a b).mem = true := by
  rw [Memory.wf_iff] at h ⊢
  exact ⟨Tab.rising_setD h.1 a b 0, Tab.mem_setD_ne h.2 a b⟩

theorem State.wf_wrBytes (s : State) (a : Nat) (l : List Byte) (h : Memory.wf s.mem = true) :
    Memory.wf (s.wrBytes a l).mem = true := by
  induction l generalizing s a with
  | nil => exact h
  | cons b r ih => exact ih _ _ (State.wf_wr8 s a b h)

theorem State.wf_wrLe (s : State) (a n v : Nat) (h : Memory.wf s.mem = true) : Memory.wf (s.wrLe a n v).mem = true :=
  State.wf_wrBytes _ _ _ h

/-- Memory right after reset has the form. -/
theorem reset_wf : Memory.wf State.reset.mem = true := rfl

/-! ### Words without inverted bits -/

theorem State.upsetsIn_nil (s : State) (a n : Nat) (h : s.upsets = []) : s.upsetsIn a n = [] := by
  unfold State.upsetsIn; rw [h]; rfl

theorem State.eccRange_nil (s : State) (req a n : Nat) (h : s.upsets = []) : s.eccRange req a n = (s, none) := by
  unfold State.eccRange; rw [State.upsetsIn_nil _ _ _ h]; rfl

theorem State.memRead_clean (s : State) (req a n : Nat) (h : s.upsets = []) (hm : s.inMemory a n = true) :
    s.memRead req a n = (s, .data (s.rdBytes a n)) := by
  unfold State.memRead
  rw [State.eccRange_nil _ _ _ _ h]
  simp [hm]

/-- No injection is armed. -/
def State.noInjection (s : State) : Prop := s.flag F.MEM_INJ_CTRL_ARM = false

theorem State.wordWritten_clean (s : State) (a : Nat) (h : s.upsets = []) (hi : s.noInjection) : s.wordWritten a = s := by
  unfold State.wordWritten
  have hs : ({ s with upsets := Tab.del s.upsets a } : State) = s := by rw [h]; cases s; simp only at h; subst h; rfl
  simp only [hs]
  unfold State.noInjection at hi
  simp [hi]

theorem State.wrBytes_upsets (s : State) (a : Nat) (l : List Byte) : (s.wrBytes a l).upsets = s.upsets := by
  rw [State.wrBytes_eq]

theorem State.wrBytes_regs (s : State) (a : Nat) (l : List Byte) : (s.wrBytes a l).regs = s.regs := by
  rw [State.wrBytes_eq]

theorem State.wrBytes_noInjection (s : State) (a : Nat) (l : List Byte) (h : s.noInjection) :
    (s.wrBytes a l).noInjection := by
  rw [State.wrBytes_eq]; exact h

theorem State.writeWord_clean (s : State) (req a : Nat) (l : List Byte) (h : s.upsets = []) (hi : s.noInjection) :
    s.writeWord req a l = (s.wrBytes a l, false) := by
  have hw := State.wordWritten_clean (s.wrBytes a l) (a / eccWordBytes a * eccWordBytes a)
    ((State.wrBytes_upsets _ _ _).trans h) (State.wrBytes_noInjection _ _ _ hi)
  unfold State.writeWord
  simp only [hw, h, Tab.get]
  split <;> rfl

theorem eccWordBytes_pos (a : Nat) : 0 < eccWordBytes a := by unfold eccWordBytes; split <;> omega

/-- Where no bit is inverted, a write word by word is a write of its bytes. -/
theorem State.memWriteWords_clean (s : State) (req a : Nat) (l : List Byte) (h : s.upsets = []) (hi : s.noInjection) :
    s.memWriteWords req a l = (s.wrBytes a l, false) := by
  unfold State.memWriteWords
  suffices H : ∀ (fuel : Nat) (s : State) (a : Nat) (l : List Byte), l.length < fuel → s.upsets = [] → s.noInjection →
      (splitWords fuel a l).foldl
        (fun r e => match r.1.writeWord req e.1 e.2 with | (t, bad) => (t, r.2 || bad)) (s, false)
      = (s.wrBytes a l, false) from H _ _ _ _ (Nat.lt_succ_self _) h hi
  intro fuel
  induction fuel with
  | zero => intro s a l hl; omega
  | succ fuel ih =>
    intro s a l hl hu hi
    cases l with
    | nil => rfl
    | cons b r =>
      have hw := eccWordBytes_pos a
      have hk : 0 < eccWordBytes a - a % eccWordBytes a := Nat.sub_pos_of_lt (Nat.mod_lt _ hw)
      simp only [splitWords, List.isEmpty_cons, Bool.false_eq_true, if_false, List.foldl_cons]
      generalize eccWordBytes a - a % eccWordBytes a = k at hk
      rw [State.writeWord_clean _ _ _ _ hu hi]
      simp only [Bool.or_self]
      rw [ih _ _ _ (by simp at hl ⊢; omega) ((State.wrBytes_upsets _ _ _).trans hu) (State.wrBytes_noInjection _ _ _ hi)]
      by_cases hlen : (b :: r).length ≤ k
      · have h1 : (b :: r).take k = b :: r := List.take_of_length_le hlen
        have h2 : (b :: r).drop k = [] := List.drop_of_length_le hlen
        rw [h1, h2]; rfl
      · have h3 : ((b :: r).take k).length = k := by rw [List.length_take]; omega
        have := State.wrBytes_append s a ((b :: r).take k) ((b :: r).drop k)
        rw [List.take_append_drop, h3] at this
        rw [this]

/-! ### Regions -/

/-- A local RAM's bytes (R54): instruction RAM, data RAM. -/
theorem State.region_iram (s : State) (n o : Nat) (hn : n < 24) (ho : o < 0x10000) : s.region (iramBase n + o) = .iram n := by
  unfold State.region iramBase ramBase mramBase
  have e : 0x1100000000 + n * 0x20000 + o - 0x1100000000 = n * 0x20000 + o := by omega
  repeat rw [if_neg (by omega)]
  rw [if_pos (by omega), e]
  have h1 : (n * 0x20000 + o) % 0x20000 = o := by omega
  have h2 : (n * 0x20000 + o) / 0x20000 = n := by omega
  rw [h1, h2, if_pos ho]

theorem State.region_dataRam (s : State) (n o : Nat) (hn : n < 24) (ho : o < 0x10000) :
    s.region (dramBaseOf n + o) = .dataRam n := by
  unfold State.region dramBaseOf ramBase mramBase
  have e : 0x1100000000 + n * 0x20000 + 0x10000 + o - 0x1100000000 = n * 0x20000 + (0x10000 + o) := by omega
  repeat rw [if_neg (by omega)]
  rw [if_pos (by omega), e]
  have h1 : (n * 0x20000 + (0x10000 + o)) % 0x20000 = 0x10000 + o := by omega
  have h2 : (n * 0x20000 + (0x10000 + o)) / 0x20000 = n := by omega
  rw [h1, h2, if_neg (by omega)]

theorem State.region_dram (s : State) (a : Nat) (h : a < s.dramTop) (hm : a < 0x1000000000) : s.region a = .dram := by
  unfold State.region mramBase
  rw [if_pos hm, if_pos h]

theorem State.inMemory_iram (s : State) (n o k : Nat) (hn : n < 24) (hk : 0 < k) (ho : o + k ≤ 0x10000) :
    s.inMemory (iramBase n + o) k = true := by
  unfold State.inMemory
  rw [State.region_iram s n o hn (by omega), show iramBase n + o + k - 1 = iramBase n + (o + k - 1) by omega,
    State.region_iram s n _ hn (by omega)]
  simp

theorem State.inMemory_dataRam (s : State) (n o k : Nat) (hn : n < 24) (hk : 0 < k) (ho : o + k ≤ 0x10000) :
    s.inMemory (dramBaseOf n + o) k = true := by
  unfold State.inMemory
  rw [State.region_dataRam s n o hn (by omega), show dramBaseOf n + o + k - 1 = dramBaseOf n + (o + k - 1) by omega,
    State.region_dataRam s n _ hn (by omega)]
  simp

theorem State.inMemory_dram (s : State) (a k : Nat) (hk : 0 < k) (h : a + k ≤ s.dramTop) (hm : a + k ≤ 0x1000000000) :
    s.inMemory a k = true := by
  unfold State.inMemory
  rw [State.region_dram s a (by omega) (by omega), State.region_dram s (a + k - 1) (by omega) (by omega)]
  simp

/-! ### The canonical form under the accesses of requesters -/

theorem State.rateCheck_mem (s : State) : s.rateCheck.mem = s.mem := by
  unfold State.rateCheck; repeat' split
  all_goals rfl

theorem State.dramCe_mem (s : State) (a k : Nat) : (s.dramCe a k).mem = s.mem := by
  unfold State.dramCe; rw [State.rateCheck_mem]; rfl

theorem State.raiseIf_mem (s : State) (c : Bool) (n : Nat) : (s.raiseIf c n).mem = s.mem := by cases c <;> rfl

theorem State.dramUe_mem (s : State) (req a : Nat) : (s.dramUe req a).mem = s.mem := by
  unfold State.dramUe; rw [State.raiseIf_mem]; simp only [State.raise_frame]; split <;> simp [State.setReg40]

theorem State.localUe_mem (s : State) (n off : Nat) (d : Bool) : (s.localUe n off d).mem = s.mem := by
  unfold State.localUe; simp only [State.raise_frame]; split <;> simp

theorem State.wf_eccMeet (s : State) (req a p : Nat) (h : Memory.wf s.mem = true) :
    Memory.wf (s.eccMeet req a p).1.mem = true := by
  have miss : ∀ n v, Memory.wf (({ s with upsets := Tab.del s.upsets a } : State).wrLe a n v).mem = true :=
    fun n v => State.wf_wrLe _ a n v h
  unfold State.eccMeet
  cases s.region a with
  | dram =>
    cases eccDram (s.rdLe a 8) p with
    | good => exact h
    | corrected k => rw [State.dramCe_mem]; exact h
    | wrong flip seen =>
      cases seen
      · exact miss _ _
      · simp only [if_true]; rw [State.dramCe_mem]; exact miss _ _
    | uncorrectable => rw [State.dramUe_mem]; exact h
  | mram =>
    cases eccDram (s.rdLe a 8) p with
    | wrong flip seen => exact miss _ _
    | _ => exact h
  | iram n =>
    cases eccLocal p with
    | wrong flip seen => exact miss _ _
    | uncorrectable => rw [State.localUe_mem]; exact h
    | _ => exact h
  | dataRam n =>
    cases eccLocal p with
    | wrong flip seen => exact miss _ _
    | uncorrectable => rw [State.localUe_mem]; exact h
    | _ => exact h
  | regs => exact h
  | unmapped => exact h

theorem State.wf_eccRange (s : State) (req a n : Nat) (h : Memory.wf s.mem = true) :
    Memory.wf (s.eccRange req a n).1.mem = true := by
  unfold State.eccRange
  suffices H : ∀ (l : Tab Nat) (r : State × Option Nat), Memory.wf r.1.mem = true →
      Memory.wf (l.foldl (fun (r : State × Option Nat) e => match r.1.eccMeet req e.1 e.2 with
        | (t, bad) => (t, if bad then (match r.2 with | none => some e.1 | some x => some x) else r.2)) r).1.mem = true
    from H _ _ h
  intro l
  induction l with
  | nil => intro r hr; exact hr
  | cons e l ih => intro r hr; exact ih _ (State.wf_eccMeet r.1 req e.1 e.2 hr)

/-- A read of memory keeps the canonical form: it may only write corrected words back. -/
theorem State.wf_memRead (s : State) (req a n : Nat) (h : Memory.wf s.mem = true) :
    Memory.wf (s.memRead req a n).1.mem = true := by
  have hr := State.wf_eccRange s req a n h
  unfold State.memRead
  split
  · exact h
  · split
    · next t e => rw [e] at hr; exact hr
    · next t x e => rw [e] at hr; exact hr

theorem State.wordWritten_mem (s : State) (a : Nat) : (s.wordWritten a).mem = s.mem := by
  unfold State.wordWritten; simp only; split <;> rfl

theorem State.wf_writeWord (s : State) (req a : Nat) (l : List Byte) (h : Memory.wf s.mem = true) :
    Memory.wf (s.writeWord req a l).1.mem = true := by
  unfold State.writeWord
  simp only
  split
  · rw [State.wordWritten_mem]; exact State.wf_wrBytes _ _ _ h
  · split
    · exact State.wf_wrBytes _ _ _ h
    · next p _ =>
      have he := State.wf_eccMeet s req (a / eccWordBytes a * eccWordBytes a) p h
      split
      · next t e => rw [e] at he; exact he
      · next t e => rw [e] at he; exact State.wf_wrBytes _ _ _ he

theorem State.wf_memWriteWords (s : State) (req a : Nat) (l : List Byte) (h : Memory.wf s.mem = true) :
    Memory.wf (s.memWriteWords req a l).1.mem = true := by
  unfold State.memWriteWords
  suffices H : ∀ (w : List (Nat × List Byte)) (r : State × Bool), Memory.wf r.1.mem = true →
      Memory.wf (w.foldl (fun (r : State × Bool) e => match r.1.writeWord req e.1 e.2 with | (t, bad) => (t, r.2 || bad)) r).1.mem = true
    from H _ _ h
  intro w
  induction w with
  | nil => intro r hr; exact hr
  | cons e w ih => intro r hr; exact ih _ (State.wf_writeWord r.1 req e.1 e.2 hr)

/-- A write of memory by any requester keeps the canonical form. -/
theorem State.wf_memWrite (s : State) (req a : Nat) (l : List Byte) (h : Memory.wf s.mem = true) :
    Memory.wf (s.memWrite req a l).1.mem = true := by
  have hw := State.wf_memWriteWords s req a l h
  unfold State.memWrite
  generalize s.memWriteWords req a l = r at hw
  obtain ⟨t, bad⟩ := r
  cases hr : s.region a <;> cases bad <;> (simp only; repeat' split) <;> first | exact h | exact hw

end Sys2Proof.Machine
end

