-- ==== Sys2Proof/Laws/CoreMem.lean ====
section
/-!
SUPPORT. Loads, stores, atomics and the data cache (Machine/CoreMem.lean) where no word holds inverted bits.
-/
namespace Sys2Proof.Machine

/-! ### A core changed and memory changed -/

@[simp] theorem State.modCore_upsets (s : State) (n : Nat) (f : Core → Core) : (s.modCore n f).upsets = s.upsets := rfl
@[simp] theorem State.modCore_regs (s : State) (n : Nat) (f : Core → Core) : (s.modCore n f).regs = s.regs := rfl
@[simp] theorem State.modCore_mem (s : State) (n : Nat) (f : Core → Core) : (s.modCore n f).mem = s.mem := rfl
@[simp] theorem State.modCore_rd8 (s : State) (n : Nat) (f : Core → Core) (a : Nat) : (s.modCore n f).rd8 a = s.rd8 a := rfl
@[simp] theorem State.modCore_rdBytes (s : State) (n : Nat) (f : Core → Core) (a k : Nat) :
    (s.modCore n f).rdBytes a k = s.rdBytes a k := rfl
@[simp] theorem State.modCore_region (s : State) (n : Nat) (f : Core → Core) (a : Nat) :
    (s.modCore n f).region a = s.region a := rfl
@[simp] theorem State.modCore_inMemory (s : State) (n : Nat) (f : Core → Core) (a k : Nat) :
    (s.modCore n f).inMemory a k = s.inMemory a k := rfl

theorem State.wrBytes_modCore (s : State) (n : Nat) (f : Core → Core) (a : Nat) (l : List Byte) :
    (s.modCore n f).wrBytes a l = (s.wrBytes a l).modCore n f := by
  induction l generalizing s a with
  | nil => rfl
  | cons b r ih => exact ih (s.wr8 a b) (a + 1)

theorem State.wrBytes_core (s : State) (n : Nat) (a : Nat) (l : List Byte) : (s.wrBytes a l).core n = s.core n := by
  rw [State.wrBytes_eq]; rfl

/-- The low bytes of a number are all that a write of that many bytes takes. -/
theorem leBytes_mod (k v : Nat) : leBytes k (v % 256 ^ k) = leBytes k v := by
  induction k generalizing v with
  | zero => rfl
  | succ k ih =>
    have e : 256 ^ (k + 1) = 256 * 256 ^ k := by rw [Nat.pow_succ, Nat.mul_comm]
    have h1 : v % 256 ^ (k + 1) / 256 = v / 256 % 256 ^ k := by rw [e, Nat.mod_mul_right_div_self]
    have h2 : BitVec.ofNat 8 (v % 256 ^ (k + 1)) = BitVec.ofNat 8 v := by
      apply BitVec.eq_of_toNat_eq
      rw [BitVec.toNat_ofNat, BitVec.toNat_ofNat, e]
      exact Nat.mod_mul_right_mod v 256 (256 ^ k)
    simp only [leBytes, h1, h2, ih]

/-! ### Effective addresses -/

/-- ra + sext(imm16) as a word. -/
theorem Core.offsetEa_eq (c : Core) (ra : Fin 32) (imm : BitVec 16) :
    c.offsetEa ra.val imm.toNat = (c.rd ra + imm.signExtend 32).toNat := by
  unfold Core.offsetEa
  rw [Core.gr_val, sext16_word, BitVec.toNat_add]

theorem Core.ea_dataRam (c : Core) (n ea k a : Nat) (hk : 0 < k) (h : inOwnData n ea k a) : c.ea n ea = .dataRam a := by
  unfold Core.ea
  rw [if_pos (by have := h.1; omega), h.2]; rfl

theorem Core.ea_iram (c : Core) (n ea k a : Nat) (hk : 0 < k) (h : inOwnInstr n ea k a) : c.ea n ea = .iram a := by
  unfold Core.ea
  obtain ⟨h1, h2, h3⟩ := h
  rw [if_neg (by omega), if_pos (by omega), h3]; rfl

theorem Core.ea_ap1 (s : State) (n ea k a : Nat) (h : s.inAperture1 n ea k a) : (s.core n).ea n ea = .ap1 a := by
  unfold Core.ea
  obtain ⟨h1, h2, h3⟩ := h
  repeat rw [if_neg (by omega)]
  rw [h2]

theorem Core.ea_ap0 (s : State) (n ea a : Nat) (h : s.inAperture0 n ea a) : (s.core n).ea n ea = .ap0 a := by
  unfold Core.ea
  obtain ⟨h1, h2, h3, h4⟩ := h
  repeat rw [if_neg (by omega)]
  rw [if_pos (by omega), h3]

theorem ownData_mem (s : State) (n ea k a : Nat) (hn : n < 24) (hk : 0 < k) (h : inOwnData n ea k a) :
    s.inMemory a k = true := by
  rw [h.2]; exact State.inMemory_dataRam s n ea k hn hk h.1

theorem ownInstr_mem (s : State) (n ea k a : Nat) (hn : n < 24) (hk : 0 < k) (h : inOwnInstr n ea k a) :
    s.inMemory a k = true := by
  obtain ⟨h1, h2, h3⟩ := h
  rw [h3]; exact State.inMemory_iram s n (ea - 0x10000) k hn hk (by omega)

/-! ### Loads -/

theorem State.Clean.noInjection {s : State} (h : s.Clean) : s.noInjection := h.arm

/-- What an aligned load of memory gets. -/
theorem State.load_clean (s : State) (n ea k a : Nat) (hn : n < 24) (hk : 0 < k) (hc : s.Clean) (hal : ea % k = 0)
    (h : inOwnData n ea k a ∨ inOwnInstr n ea k a ∨ s.inAperture1 n ea k a) :
    s.load n ea k = (s, .value (s.rdLe a k)) := by
  unfold State.load
  rw [if_neg (by omega)]
  rcases h with h | h | h
  · rw [Core.ea_dataRam _ n ea k a hk h]
    simp only [State.memRead_clean s _ a k hc.upsets (ownData_mem s n ea k a hn hk h)]; rfl
  · rw [Core.ea_iram _ n ea k a hk h]
    simp only [State.memRead_clean s _ a k hc.upsets (ownInstr_mem s n ea k a hn hk h)]; rfl
  · rw [Core.ea_ap1 s n ea k a h]
    obtain ⟨h1, h2, h3, h4⟩ := h
    have hr : s.region a = .dram := State.region_dram s a (by omega) (by omega)
    have hm : s.inMemory a k = true := State.inMemory_dram s a k hk h3 h4
    unfold State.sysLoad State.sysMemRead
    simp only [hr, State.memRead_clean s _ a k hc.upsets hm]; rfl

/-- A load instruction that completes. -/
theorem State.load_row (s : State) (n : Fin 24) (ra : Fin 32) (imm : BitVec 16) (k a : Nat) (ok : Bool)
    (f : Core → Nat → Core) (g : Core → Core) (hr : s.coreReady n.val) (hc : s.Clean) (hk : 0 < k) (hok : ok = true)
    (hal : ((s.core n.val).rd ra + imm.signExtend 32).toNat % k = 0)
    (h : inOwnData n.val ((s.core n.val).rd ra + imm.signExtend 32).toNat k a
      ∨ inOwnInstr n.val ((s.core n.val).rd ra + imm.signExtend 32).toNat k a
      ∨ s.inAperture1 n.val ((s.core n.val).rd ra + imm.signExtend 32).toNat k a)
    (hf : (f (s.core n.val).issuing (s.rdLe a k)).next = (g (s.core n.val)).goOn) :
    s.loadInstr n.val ra.val imm.toNat k ok f = s.modCore n.val (fun q => (g q).goOn) := by
  have hn : n.val < 24 := n.isLt
  unfold State.loadInstr
  rw [State.issue_ready _ _ _ hr]
  subst hok
  rw [if_neg (by decide)]
  rw [State.core_modCore _ _ _ hn, Core.offsetEa_eq, Core.rd_issuing]
  have hl := State.load_clean (s.modCore n.val Core.issuing) n.val _ k a hn hk
    ⟨hc.upsets, hc.arm⟩ hal (by
      refine h.imp_right (Or.imp_right ?_)
      rintro ⟨h1, h2, h3⟩
      exact ⟨h1, by rw [State.core_modCore _ _ _ hn]; exact h2, h3⟩)
  simp only [hl]
  rw [State.modCore_modCore]
  exact State.modCore_congr _ _ _ _ hf

/-! ### Stores -/

/-- A write by a system requester to populated DRAM. -/
theorem State.memWrite_dram (s : State) (req a : Nat) (l : List Byte) (hc : s.Clean) (hl : 0 < l.length)
    (h : a + l.length ≤ s.dramTop) (hm : a + l.length ≤ 0x1000000000) :
    s.memWrite req a l = (s.wrBytes a l, .done) := by
  have hi : inSillage a = false := by unfold inSillage mramBase; simp; omega
  unfold State.memWrite
  rw [if_neg (by simp [State.inMemory_dram s a l.length hl h hm]), if_neg (by simp [hi]),
    State.region_dram s a (by omega) (by omega)]
  simp [State.memWriteWords_clean s req a l hc.upsets hc.noInjection]

theorem State.Clean.modCore {s : State} (h : s.Clean) (n : Nat) (f : Core → Core) : (s.modCore n f).Clean :=
  ⟨h.upsets, h.arm⟩

theorem State.ownStore_clean (s : State) (a : Nat) (l : List Byte) (hc : s.Clean) :
    s.ownStore a l = (s.wrBytes a l, .done) := by
  unfold State.ownStore
  simp [State.memWriteWords_clean s reqCore a l hc.upsets hc.noInjection]

/-- What an aligned store to data memory does. -/
theorem State.store_clean (s : State) (n ea a : Nat) (l : List Byte) (hk : 0 < l.length) (hc : s.Clean)
    (hal : ea % l.length = 0) (h : inOwnData n ea l.length a ∨ s.inAperture1 n ea l.length a) :
    s.store n ea l = ((s.wrBytes a l).modCore n Core.next, .done) := by
  unfold State.store
  rw [if_neg (by omega)]
  rcases h with h | h
  · have e := Core.ea_dataRam (s.core n) n ea l.length a hk h
    simp only [e, State.ownStore_clean s a l hc]
  · rw [Core.ea_ap1 s n ea l.length a h]
    obtain ⟨h1, h2, h3, h4⟩ := h
    have hr : s.region a = .dram := State.region_dram s a (by omega) (by omega)
    unfold State.sysStore
    simp only [hr]
    unfold State.postedStore
    have hp : (s.modCore n Core.next).partialBad a l = false := by
      unfold State.partialBad; rw [State.modCore_upsets, hc.upsets]; simp [Tab.get]
    rw [hp]
    simp only [Bool.and_false, Bool.false_eq_true, if_false]
    rw [State.memWrite_dram _ reqCore a l (hc.modCore n _) hk h3 h4, State.wrBytes_modCore]

/-- What an aligned store to the core's own instruction RAM does: the words it replaced are remembered (R55). -/
theorem State.store_code (s : State) (n ea a : Nat) (l : List Byte) (hk : 0 < l.length) (hc : s.Clean)
    (hal : ea % l.length = 0) (h : inOwnInstr n ea l.length a) :
    s.store n ea l
      = ((s.wrBytes a l).modCore n (fun c => ({ c with stale := c.stale ++ s.wordsAt a l.length } : Core).next), .done) := by
  unfold State.store
  rw [if_neg (by omega)]
  have e := Core.ea_iram (s.core n) n ea l.length a hk h
  unfold State.ownCodeStore
  simp only [e, State.ownStore_clean s a l hc, State.modCore_modCore]

/-- A store instruction that completes. -/
theorem State.store_row (s : State) (n : Fin 24) (ra : Fin 32) (imm : BitVec 16) (k a v : Nat) (ok : Bool)
    (data : Core → Nat) (hr : s.coreReady n.val) (hc : s.Clean) (hk : 0 < k) (hok : ok = true)
    (hal : ((s.core n.val).rd ra + imm.signExtend 32).toNat % k = 0)
    (h : inOwnData n.val ((s.core n.val).rd ra + imm.signExtend 32).toNat k a
      ∨ s.inAperture1 n.val ((s.core n.val).rd ra + imm.signExtend 32).toNat k a)
    (hv : leBytes k (data (s.core n.val).issuing) = leBytes k v) :
    s.storeInstr n.val ra.val imm.toNat k ok data = (s.wrLe a k v).modCore n.val Core.goOn := by
  have hn : n.val < 24 := n.isLt
  unfold State.storeInstr
  rw [State.issue_ready _ _ _ hr]
  subst hok
  rw [if_neg (by decide)]
  rw [State.core_modCore _ _ _ hn, Core.offsetEa_eq, Core.rd_issuing, hv]
  have hs := State.store_clean (s.modCore n.val Core.issuing) n.val _ a (leBytes k v)
    (by rw [leBytes_length]; exact hk) (hc.modCore _ _) (by rw [leBytes_length]; exact hal) (by
      rw [leBytes_length]
      refine h.imp_right ?_
      rintro ⟨h1, h2, h3⟩
      exact ⟨h1, by rw [State.core_modCore _ _ _ hn]; exact h2, h3⟩)
  simp only [hs]
  rw [State.wrBytes_modCore, State.modCore_modCore]
  rfl

/-- A store instruction that completes in the core's own instruction RAM. -/
theorem State.store_code_row (s : State) (n : Fin 24) (ra : Fin 32) (imm : BitVec 16) (k a v : Nat) (ok : Bool)
    (data : Core → Nat) (hr : s.coreReady n.val) (hc : s.Clean) (hk : 0 < k) (hok : ok = true)
    (hal : ((s.core n.val).rd ra + imm.signExtend 32).toNat % k = 0)
    (h : inOwnInstr n.val ((s.core n.val).rd ra + imm.signExtend 32).toNat k a)
    (hv : leBytes k (data (s.core n.val).issuing) = leBytes k v) :
    s.storeInstr n.val ra.val imm.toNat k ok data
      = (s.wrLe a k v).modCore n.val (fun q => ({ q with stale := q.stale ++ s.wordsAt a k } : Core).goOn) := by
  have hn : n.val < 24 := n.isLt
  unfold State.storeInstr
  rw [State.issue_ready _ _ _ hr]
  subst hok
  rw [if_neg (by decide)]
  rw [State.core_modCore _ _ _ hn, Core.offsetEa_eq, Core.rd_issuing, hv]
  have hs := State.store_code (s.modCore n.val Core.issuing) n.val _ a (leBytes k v)
    (by rw [leBytes_length]; exact hk) (hc.modCore _ _) (by rw [leBytes_length]; exact hal)
    (by rw [leBytes_length]; exact h)
  simp only [hs]
  rw [State.wrBytes_modCore, State.modCore_modCore, leBytes_length]
  rfl

/-! ### Traps of loads and stores -/

theorem State.loadInstr_trap (s : State) (n : Fin 24) (ra : Fin 32) (imm : BitVec 16) (k cause : Nat)
    (f : Core → Nat → Core) (hr : s.coreReady n.val) (ht : (s.core n.val).inTrap = false)
    (hl : ∀ t : State, t.core n.val = (s.core n.val).issuing →
      t.load n.val ((s.core n.val).rd ra + imm.signExtend 32).toNat k = (t, .trap cause)) :
    s.loadInstr n.val ra.val imm.toNat k true f
      = s.modCore n.val (fun q => q.issuing.trapped cause 0 q.pc ((s.core n.val).rd ra + imm.signExtend 32).toNat) := by
  have hn : n.val < 24 := n.isLt
  have hcore := State.core_modCore s n.val Core.issuing hn
  unfold State.loadInstr
  rw [State.issue_ready _ _ _ hr, if_neg (by decide), hcore, Core.offsetEa_eq, Core.rd_issuing]
  simp only [hl _ hcore]
  rw [State.trap_entered _ _ _ _ _ _ (by decide) (by rw [hcore]; exact ht), State.modCore_modCore, hcore]
  exact State.modCore_congr _ _ _ _ rfl

theorem State.storeInstr_trap (s : State) (n : Fin 24) (ra : Fin 32) (imm : BitVec 16) (k cause : Nat)
    (data : Core → Nat) (hr : s.coreReady n.val) (ht : (s.core n.val).inTrap = false)
    (hl : ∀ (t : State) (l : List Byte), t.core n.val = (s.core n.val).issuing → l.length = k →
      t.store n.val ((s.core n.val).rd ra + imm.signExtend 32).toNat l = (t, .trap cause)) :
    s.storeInstr n.val ra.val imm.toNat k true data
      = s.modCore n.val (fun q => q.issuing.trapped cause 0 q.pc ((s.core n.val).rd ra + imm.signExtend 32).toNat) := by
  have hn : n.val < 24 := n.isLt
  have hcore := State.core_modCore s n.val Core.issuing hn
  unfold State.storeInstr
  rw [State.issue_ready _ _ _ hr, if_neg (by decide), hcore, Core.offsetEa_eq, Core.rd_issuing]
  simp only [hl _ _ hcore (leBytes_length _ _)]
  rw [State.trap_entered _ _ _ _ _ _ (by decide) (by rw [hcore]; exact ht), State.modCore_modCore, hcore]
  exact State.modCore_congr _ _ _ _ rfl

/-! ### Atomics -/

/-- What an atomic gets and does in memory. -/
theorem State.atomic_clean (s : State) (n ea a : Nat) (f : Nat → Option Nat) (hn : n < 24) (hc : s.Clean)
    (hal : ea % 4 = 0) (h : inOwnData n ea 4 a ∨ s.inAperture1 n ea 4 a) :
    s.atomic n ea f = ((match f (s.rdLe a 4) with | some v => s.wrLe a 4 v | none => s), .value (s.rdLe a 4)) := by
  unfold State.atomic
  rw [if_neg (by omega)]
  rcases h with h | h
  · rw [Core.ea_dataRam _ n ea 4 a (by decide) h]
    unfold State.atomicOwn
    simp only [State.memRead_clean s _ a 4 hc.upsets (ownData_mem s n ea 4 a hn (by decide) h)]
    change (match f (s.rdLe a 4) with | some v => _ | none => _) = _
    cases f (s.rdLe a 4) with
    | none => rfl
    | some v => simp only [State.memWriteWords_clean s _ a _ hc.upsets hc.noInjection]; rfl
  · rw [Core.ea_ap1 s n ea 4 a h]
    obtain ⟨h1, h2, h3, h4⟩ := h
    have hr : s.region a = .dram := State.region_dram s a (by omega) (by omega)
    simp only [hr]
    rw [if_neg (by simp)]
    unfold State.atomicAt State.sysMemRead
    simp only [hr, State.memRead_clean s _ a 4 hc.upsets (State.inMemory_dram s a 4 (by decide) h3 h4)]
    change (match f (s.rdLe a 4) with | some v => _ | none => _) = _
    cases f (s.rdLe a 4) with
    | none => rfl
    | some v => 
      have hw := State.memWrite_dram s reqCore a (leBytes 4 v) hc (by rw [leBytes_length]; decide)
        (by rw [leBytes_length]; exact h3) (by rw [leBytes_length]; exact h4)
      simp only [hw]; rfl

theorem State.atomic_row (s : State) (n : Fin 24) (rd ra : Fin 32) (a : Nat) (f : Core → Nat → Option Nat)
    (hr : s.coreReady n.val) (hc : s.Clean) (hal : ((s.core n.val).rd ra).toNat % 4 = 0)
    (h : inOwnData n.val ((s.core n.val).rd ra).toNat 4 a ∨ s.inAperture1 n.val ((s.core n.val).rd ra).toNat 4 a) :
    s.atomicInstr n.val rd.val ra.val f
      = (match f (s.core n.val).issuing (s.rdLe a 4) with | some v => s.wrLe a 4 v | none => s).modCore
        n.val (fun q => (q.wr rd (BitVec.ofNat 32 (s.rdLe a 4))).goOn) := by
  have hn : n.val < 24 := n.isLt
  unfold State.atomicInstr
  rw [State.issue_ready _ _ _ hr, State.core_modCore _ _ _ hn]
  simp only [Core.gr_val, Core.rd_issuing]
  have hs := State.atomic_clean (s.modCore n.val Core.issuing) n.val _ a
    (f (s.core n.val).issuing) hn (hc.modCore _ _) hal (by
      refine h.imp_right ?_
      rintro ⟨h1, h2, h3⟩
      exact ⟨h1, by rw [State.core_modCore _ _ _ hn]; exact h2, h3⟩)
  simp only [hs]
  have hrd : (s.modCore n.val Core.issuing).rdLe a 4 = s.rdLe a 4 := rfl
  rw [hrd]
  cases f (s.core n.val).issuing (s.rdLe a 4) with
  | none =>
    simp only [State.modCore_modCore]
    exact State.modCore_congr _ _ _ _ (Core.setG_next _ _ _)
  | some v =>
    simp only [State.wrLe, State.wrBytes_modCore, State.modCore_modCore]
    exact State.modCore_congr _ _ _ _ (Core.setG_next _ _ _)

end Sys2Proof.Machine
end

