-- ==== Sys2Proof/Laws/Events.lean ====
section
/-!
SUPPORT. What the shared operations on events, pages and jobs can change at all: each lemma says once which fields an
operation writes.
-/
namespace Sys2Proof.Machine

/-- EVP bits set in a list of cores change the cores alone. -/
theorem State.setEvps_eq (s : State) (l : List Nat) (p : State → Nat → Bool) (m : Nat) :
    ∃ c, l.foldl (fun t n => if p t n then t.setEvp n m else t) s = { s with cores := c } := by
  induction l generalizing s with
  | nil => exact ⟨s.cores, rfl⟩
  | cons n r ih =>
    rw [List.foldl_cons]
    obtain ⟨c, h⟩ := ih (if p s n then s.setEvp n m else s)
    refine ⟨c, h.trans ?_⟩
    split <;> rfl

/-- Raising bits in an event group (R101) changes groups and cores alone. -/
theorem State.raiseEv_eq (s : State) (h b : Nat) : ∃ e c, s.raiseEv h b = { s with evgs := e, cores := c } := by
  unfold State.raiseEv
  split
  · exact ⟨s.evgs, s.cores, rfl⟩
  · split
    · exact ⟨s.evgs, s.cores, rfl⟩
    · split
      · exact ⟨s.evgs, s.cores, rfl⟩
      · next g _ =>
        obtain ⟨c, hc⟩ := State.setEvps_eq _ _ (fun t n => t.hasCore n) (2 ^ g.evbit)
        exact ⟨_, c, hc⟩

theorem State.notify_eq (s : State) (c i b : Nat) : ∃ e k, s.notify c i b = { s with evgs := e, cores := k } :=
  State.raiseEv_eq _ _ _

/-- A job that settles (R95) changes jobs alone. -/
theorem State.settleJob_eq (s : State) (j : Nat) : ∃ k, s.settleJob j = { s with jobs := k } := by
  unfold State.settleJob
  split
  · exact ⟨s.jobs, rfl⟩
  · split
    · exact ⟨_, rfl⟩
    · exact ⟨s.jobs, rfl⟩

/-- Free values are taken by counting alone. -/
theorem State.raiseIf_eq (s : State) (c : Bool) (n : Nat) : ∃ f, s.raiseIf c n = { s with flt := f } := by
  cases c
  · exact ⟨s.flt, rfl⟩
  · exact ⟨_, rfl⟩

/-! ### Frames: the fields such an operation does not write -/

@[simp] theorem State.raiseEv_frame (s : State) (h b : Nat) :
      (s.raiseEv h b).pending = s.pending ∧ (s.raiseEv h b).fuses = s.fuses ∧ (s.raiseEv h b).ptime = s.ptime ∧
      (s.raiseEv h b).bus = s.bus ∧ (s.raiseEv h b).freeCtr = s.freeCtr ∧ (s.raiseEv h b).regs = s.regs ∧
      (s.raiseEv h b).mem = s.mem ∧ (s.raiseEv h b).upsets = s.upsets ∧ (s.raiseEv h b).objs = s.objs ∧
      (s.raiseEv h b).gens = s.gens ∧ (s.raiseEv h b).withdrawn = s.withdrawn ∧
      (s.raiseEv h b).freeList = s.freeList ∧ (s.raiseEv h b).jobs = s.jobs ∧ (s.raiseEv h b).pages = s.pages ∧
      (s.raiseEv h b).timers = s.timers ∧ (s.raiseEv h b).mboxes = s.mboxes ∧ (s.raiseEv h b).rings = s.rings ∧
      (s.raiseEv h b).dmas = s.dmas ∧ (s.raiseEv h b).actxs = s.actxs ∧ (s.raiseEv h b).bands = s.bands ∧
      (s.raiseEv h b).loops = s.loops ∧ (s.raiseEv h b).stalled = s.stalled ∧ (s.raiseEv h b).admitQ = s.admitQ ∧
      (s.raiseEv h b).snap = s.snap ∧ (s.raiseEv h b).drain = s.drain ∧ (s.raiseEv h b).exp = s.exp ∧
      (s.raiseEv h b).lac = s.lac ∧ (s.raiseEv h b).elk = s.elk ∧ (s.raiseEv h b).ilk = s.ilk ∧
      (s.raiseEv h b).panel = s.panel ∧ (s.raiseEv h b).atr = s.atr ∧ (s.raiseEv h b).fills = s.fills ∧
      (s.raiseEv h b).memst = s.memst ∧ (s.raiseEv h b).links = s.links ∧ (s.raiseEv h b).t1 = s.t1 ∧
      (s.raiseEv h b).stq = s.stq ∧ (s.raiseEv h b).dsk = s.dsk ∧ (s.raiseEv h b).ports = s.ports ∧
      (s.raiseEv h b).mots = s.mots ∧ (s.raiseEv h b).hbs = s.hbs ∧ (s.raiseEv h b).invs = s.invs ∧
      (s.raiseEv h b).axes = s.axes ∧ (s.raiseEv h b).ain = s.ain ∧ (s.raiseEv h b).lpwm = s.lpwm ∧
      (s.raiseEv h b).web = s.web ∧ (s.raiseEv h b).cams = s.cams ∧ (s.raiseEv h b).pwr = s.pwr ∧
      (s.raiseEv h b).thm = s.thm ∧ (s.raiseEv h b).plls = s.plls ∧ (s.raiseEv h b).ref = s.ref ∧
      (s.raiseEv h b).flt = s.flt ∧ (s.raiseEv h b).nvm = s.nvm ∧ (s.raiseEv h b).acd = s.acd ∧
      (s.raiseEv h b).svc = s.svc ∧ (s.raiseEv h b).jtag = s.jtag := by
  obtain ⟨_, _, h⟩ := State.raiseEv_eq s h b
  rw [h]
  and_intros <;> rfl

@[simp] theorem State.notify_frame (s : State) (c i b : Nat) :
      (s.notify c i b).pending = s.pending ∧ (s.notify c i b).fuses = s.fuses ∧ (s.notify c i b).ptime = s.ptime ∧
      (s.notify c i b).bus = s.bus ∧ (s.notify c i b).freeCtr = s.freeCtr ∧ (s.notify c i b).regs = s.regs ∧
      (s.notify c i b).mem = s.mem ∧ (s.notify c i b).upsets = s.upsets ∧ (s.notify c i b).objs = s.objs ∧
      (s.notify c i b).gens = s.gens ∧ (s.notify c i b).withdrawn = s.withdrawn ∧
      (s.notify c i b).freeList = s.freeList ∧ (s.notify c i b).jobs = s.jobs ∧ (s.notify c i b).pages = s.pages ∧
      (s.notify c i b).timers = s.timers ∧ (s.notify c i b).mboxes = s.mboxes ∧ (s.notify c i b).rings = s.rings ∧
      (s.notify c i b).dmas = s.dmas ∧ (s.notify c i b).actxs = s.actxs ∧ (s.notify c i b).bands = s.bands ∧
      (s.notify c i b).loops = s.loops ∧ (s.notify c i b).stalled = s.stalled ∧ (s.notify c i b).admitQ = s.admitQ
      ∧ (s.notify c i b).snap = s.snap ∧ (s.notify c i b).drain = s.drain ∧ (s.notify c i b).exp = s.exp ∧
      (s.notify c i b).lac = s.lac ∧ (s.notify c i b).elk = s.elk ∧ (s.notify c i b).ilk = s.ilk ∧
      (s.notify c i b).panel = s.panel ∧ (s.notify c i b).atr = s.atr ∧ (s.notify c i b).fills = s.fills ∧
      (s.notify c i b).memst = s.memst ∧ (s.notify c i b).links = s.links ∧ (s.notify c i b).t1 = s.t1 ∧
      (s.notify c i b).stq = s.stq ∧ (s.notify c i b).dsk = s.dsk ∧ (s.notify c i b).ports = s.ports ∧
      (s.notify c i b).mots = s.mots ∧ (s.notify c i b).hbs = s.hbs ∧ (s.notify c i b).invs = s.invs ∧
      (s.notify c i b).axes = s.axes ∧ (s.notify c i b).ain = s.ain ∧ (s.notify c i b).lpwm = s.lpwm ∧
      (s.notify c i b).web = s.web ∧ (s.notify c i b).cams = s.cams ∧ (s.notify c i b).pwr = s.pwr ∧
      (s.notify c i b).thm = s.thm ∧ (s.notify c i b).plls = s.plls ∧ (s.notify c i b).ref = s.ref ∧
      (s.notify c i b).flt = s.flt ∧ (s.notify c i b).nvm = s.nvm ∧ (s.notify c i b).acd = s.acd ∧
      (s.notify c i b).svc = s.svc ∧ (s.notify c i b).jtag = s.jtag := by
  obtain ⟨_, _, h⟩ := State.notify_eq s c i b
  rw [h]
  and_intros <;> rfl

@[simp] theorem State.settleJob_frame (s : State) (j : Nat) :
      (s.settleJob j).pending = s.pending ∧ (s.settleJob j).fuses = s.fuses ∧ (s.settleJob j).ptime = s.ptime ∧
      (s.settleJob j).bus = s.bus ∧ (s.settleJob j).freeCtr = s.freeCtr ∧ (s.settleJob j).regs = s.regs ∧
      (s.settleJob j).mem = s.mem ∧ (s.settleJob j).upsets = s.upsets ∧ (s.settleJob j).cores = s.cores ∧
      (s.settleJob j).objs = s.objs ∧ (s.settleJob j).gens = s.gens ∧ (s.settleJob j).withdrawn = s.withdrawn ∧
      (s.settleJob j).freeList = s.freeList ∧ (s.settleJob j).pages = s.pages ∧ (s.settleJob j).timers = s.timers
      ∧ (s.settleJob j).evgs = s.evgs ∧ (s.settleJob j).mboxes = s.mboxes ∧ (s.settleJob j).rings = s.rings ∧
      (s.settleJob j).dmas = s.dmas ∧ (s.settleJob j).actxs = s.actxs ∧ (s.settleJob j).bands = s.bands ∧
      (s.settleJob j).loops = s.loops ∧ (s.settleJob j).stalled = s.stalled ∧ (s.settleJob j).admitQ = s.admitQ ∧
      (s.settleJob j).snap = s.snap ∧ (s.settleJob j).drain = s.drain ∧ (s.settleJob j).exp = s.exp ∧
      (s.settleJob j).lac = s.lac ∧ (s.settleJob j).elk = s.elk ∧ (s.settleJob j).ilk = s.ilk ∧
      (s.settleJob j).panel = s.panel ∧ (s.settleJob j).atr = s.atr ∧ (s.settleJob j).fills = s.fills ∧
      (s.settleJob j).memst = s.memst ∧ (s.settleJob j).links = s.links ∧ (s.settleJob j).t1 = s.t1 ∧
      (s.settleJob j).stq = s.stq ∧ (s.settleJob j).dsk = s.dsk ∧ (s.settleJob j).ports = s.ports ∧
      (s.settleJob j).mots = s.mots ∧ (s.settleJob j).hbs = s.hbs ∧ (s.settleJob j).invs = s.invs ∧
      (s.settleJob j).axes = s.axes ∧ (s.settleJob j).ain = s.ain ∧ (s.settleJob j).lpwm = s.lpwm ∧
      (s.settleJob j).web = s.web ∧ (s.settleJob j).cams = s.cams ∧ (s.settleJob j).pwr = s.pwr ∧
      (s.settleJob j).thm = s.thm ∧ (s.settleJob j).plls = s.plls ∧ (s.settleJob j).ref = s.ref ∧
      (s.settleJob j).flt = s.flt ∧ (s.settleJob j).nvm = s.nvm ∧ (s.settleJob j).acd = s.acd ∧
      (s.settleJob j).svc = s.svc ∧ (s.settleJob j).jtag = s.jtag := by
  obtain ⟨_, h⟩ := State.settleJob_eq s j
  rw [h]
  and_intros <;> rfl

@[simp] theorem State.raiseIf_frame (s : State) (c : Bool) (n : Nat) :
      (s.raiseIf c n).pending = s.pending ∧ (s.raiseIf c n).fuses = s.fuses ∧ (s.raiseIf c n).ptime = s.ptime ∧
      (s.raiseIf c n).bus = s.bus ∧ (s.raiseIf c n).freeCtr = s.freeCtr ∧ (s.raiseIf c n).regs = s.regs ∧
      (s.raiseIf c n).mem = s.mem ∧ (s.raiseIf c n).upsets = s.upsets ∧ (s.raiseIf c n).cores = s.cores ∧
      (s.raiseIf c n).objs = s.objs ∧ (s.raiseIf c n).gens = s.gens ∧ (s.raiseIf c n).withdrawn = s.withdrawn ∧
      (s.raiseIf c n).freeList = s.freeList ∧ (s.raiseIf c n).jobs = s.jobs ∧ (s.raiseIf c n).pages = s.pages ∧
      (s.raiseIf c n).timers = s.timers ∧ (s.raiseIf c n).evgs = s.evgs ∧ (s.raiseIf c n).mboxes = s.mboxes ∧
      (s.raiseIf c n).rings = s.rings ∧ (s.raiseIf c n).dmas = s.dmas ∧ (s.raiseIf c n).actxs = s.actxs ∧
      (s.raiseIf c n).bands = s.bands ∧ (s.raiseIf c n).loops = s.loops ∧ (s.raiseIf c n).stalled = s.stalled ∧
      (s.raiseIf c n).admitQ = s.admitQ ∧ (s.raiseIf c n).snap = s.snap ∧ (s.raiseIf c n).drain = s.drain ∧
      (s.raiseIf c n).exp = s.exp ∧ (s.raiseIf c n).lac = s.lac ∧ (s.raiseIf c n).elk = s.elk ∧
      (s.raiseIf c n).ilk = s.ilk ∧ (s.raiseIf c n).panel = s.panel ∧ (s.raiseIf c n).atr = s.atr ∧
      (s.raiseIf c n).fills = s.fills ∧ (s.raiseIf c n).memst = s.memst ∧ (s.raiseIf c n).links = s.links ∧
      (s.raiseIf c n).t1 = s.t1 ∧ (s.raiseIf c n).stq = s.stq ∧ (s.raiseIf c n).dsk = s.dsk ∧
      (s.raiseIf c n).ports = s.ports ∧ (s.raiseIf c n).mots = s.mots ∧ (s.raiseIf c n).hbs = s.hbs ∧
      (s.raiseIf c n).invs = s.invs ∧ (s.raiseIf c n).axes = s.axes ∧ (s.raiseIf c n).ain = s.ain ∧
      (s.raiseIf c n).lpwm = s.lpwm ∧ (s.raiseIf c n).web = s.web ∧ (s.raiseIf c n).cams = s.cams ∧
      (s.raiseIf c n).pwr = s.pwr ∧ (s.raiseIf c n).thm = s.thm ∧ (s.raiseIf c n).plls = s.plls ∧
      (s.raiseIf c n).ref = s.ref ∧ (s.raiseIf c n).nvm = s.nvm ∧ (s.raiseIf c n).acd = s.acd ∧
      (s.raiseIf c n).svc = s.svc ∧ (s.raiseIf c n).jtag = s.jtag := by
  obtain ⟨_, h⟩ := State.raiseIf_eq s c n
  rw [h]
  and_intros <;> rfl

end Sys2Proof.Machine
end

