-- ==== Sys2Proof/Laws/RegPlain.lean ====
section
/-!
SUPPORT. What a write by access codes does to each field of a register (R12), over the register tables.
-/
namespace Sys2Proof.Machine

/-- Two fields of a register share no bit. -/
def RegField.apart (f g : RegField) : Bool := decide (f.lo + f.width ≤ g.lo) || decide (g.lo + g.width ≤ f.lo)

/-- A register's fields lie in its 32 bits and share none. -/
def fieldsOk (l : List RegField) : Bool :=
  match l with
  | [] => true
  | f :: r => decide (f.lo + f.width ≤ 32) && r.all (RegField.apart f) && fieldsOk r

/-- The same of every register of a window. -/
def regsOk (l : List RegSpec) : Bool := l.all (fun r => fieldsOk r.fields)

theorem regsOk_sys : regsOk regsSYS = true := by decide
theorem regsOk_flt : regsOk regsFLT = true := by decide
theorem regsOk_nvm : regsOk regsNVM = true := by decide
theorem regsOk_obj : regsOk regsOBJ = true := by decide
theorem regsOk_rng : regsOk regsRNG = true := by decide
theorem regsOk_mem : regsOk regsMEM = true := by decide
theorem regsOk_dma : regsOk regsDMA = true := by decide
theorem regsOk_crs : regsOk regsCRS = true := by decide
theorem regsOk_exp : regsOk regsEXP = true := by decide
theorem regsOk_lac : regsOk regsLAC = true := by decide
theorem regsOk_elk : regsOk regsELK = true := by decide
theorem regsOk_ilk : regsOk regsILK = true := by decide
theorem regsOk_atr : regsOk regsATR = true := by decide
theorem regsOk_tal : regsOk regsTAL = true := by decide
theorem regsOk_stq : regsOk regsSTQ = true := by decide
theorem regsOk_acd : regsOk regsACD = true := by decide
theorem regsOk_dsk : regsOk regsDSK = true := by decide
theorem regsOk_srv : regsOk regsSRV = true := by decide
theorem regsOk_mot : regsOk regsMOT = true := by decide
theorem regsOk_gdr : regsOk regsGDR = true := by decide
theorem regsOk_stp : regsOk regsSTP = true := by decide
theorem regsOk_lop : regsOk regsLOP = true := by decide
theorem regsOk_web : regsOk regsWEB = true := by decide
theorem regsOk_cam : regsOk regsCAM = true := by decide
theorem regsOk_pwr : regsOk regsPWR = true := by decide
theorem regsOk_thm : regsOk regsTHM = true := by decide
theorem regsOk_clk : regsOk regsCLK = true := by decide

theorem regsOk_filter (l : List RegSpec) (p : RegSpec → Bool) (h : regsOk l = true) : regsOk (l.filter p) = true := by
  unfold regsOk at *
  rw [List.all_eq_true] at *
  intro r hr
  exact h r (List.mem_filter.mp hr).1

theorem regsOk_ite (c : Prop) [Decidable c] (a b : List RegSpec) (ha : regsOk a = true) (hb : regsOk b = true) :
    regsOk (if c then a else b) = true := by split <;> assumption

theorem regsOk_window (w : Nat) : regsOk (windowRegs w) = true :=
  regsOk_ite _ _ _ regsOk_sys (regsOk_ite _ _ _ regsOk_flt (regsOk_ite _ _ _ regsOk_nvm (regsOk_ite _ _ _
    regsOk_obj (regsOk_ite _ _ _ regsOk_rng (regsOk_ite _ _ _ regsOk_mem (regsOk_ite _ _ _ regsOk_dma (regsOk_ite _
    _ _ regsOk_crs (regsOk_ite _ _ _ regsOk_exp (regsOk_ite _ _ _ regsOk_lac (regsOk_ite _ _ _ regsOk_elk
    (regsOk_ite _ _ _ regsOk_ilk (regsOk_ite _ _ _ regsOk_atr (regsOk_ite _ _ _
    (regsOk_filter _ _ regsOk_atr) (regsOk_ite _ _ _ regsOk_tal (regsOk_ite _ _ _
    regsOk_stq (regsOk_ite _ _ _ regsOk_acd (regsOk_ite _ _ _ regsOk_dsk (regsOk_ite _ _ _ regsOk_srv (regsOk_ite _
    _ _ regsOk_mot (regsOk_ite _ _ _ regsOk_gdr (regsOk_ite _ _ _ regsOk_stp (regsOk_ite _ _ _ regsOk_lop
    (regsOk_ite _ _ _ regsOk_web (regsOk_ite _ _ _ regsOk_cam (regsOk_ite _ _ _ regsOk_pwr (regsOk_ite _ _ _
    regsOk_thm (regsOk_ite _ _ _ regsOk_clk (regsOk_ite _ _ _ (regsOk_filter _ _ regsOk_clk)
    rfl))))))))))))))))))))))))))))

theorem fieldsOk_found (w off : Nat) (r : RegSpec) (h : findReg w off = some r) : fieldsOk r.fields = true := by
  have hm : r ∈ windowRegs w := List.mem_of_find?_eq_some h
  have := regsOk_window w
  unfold regsOk at this
  rw [List.all_eq_true] at this
  exact this r hm

/-- The value a field of a written register gets (R12). -/
def RegField.after (f : RegField) (locked : Bool) (o w : Nat) : Nat :=
  match f.acc with
  | .rw => w
  | .wl => if locked then o else w
  | .w1c => o - (o &&& w)
  | .w1s => o ||| w
  | .ro | .wo | .rc => o

theorem RegField.write_lt (f : RegField) (lk : Bool) (x v : Nat) (hx : x < 2 ^ 32) (h : f.lo + f.width ≤ 32) :
    f.write lk x v < 2 ^ 32 := by
  unfold RegField.write
  cases f.acc <;> simp only <;> (try split) <;> first | exact setBits_lt _ _ _ _ _ hx h | exact hx

theorem RegField.write_apart (f g : RegField) (lk : Bool) (x v : Nat) (h : g.apart f = true) :
    bits (g.write lk x v) f.lo f.width = bits x f.lo f.width := by
  have key : ∀ y, bits (setBits x g.lo g.width y) f.lo f.width = bits x f.lo f.width := by
    intro y
    unfold RegField.apart at h
    simp only [Bool.or_eq_true, decide_eq_true_eq] at h
    rcases h with h | h
    · exact bits_setBits_above _ _ _ _ _ _ h
    · exact bits_setBits_below _ _ _ _ _ _ h
  unfold RegField.write
  cases g.acc <;> simp only <;> (try split) <;> first | exact key _ | rfl

theorem RegField.apart_comm (f g : RegField) : f.apart g = g.apart f := by unfold RegField.apart; rw [Bool.or_comm]

theorem RegField.write_same (f : RegField) (lk : Bool) (x v : Nat) :
    bits (f.write lk x v) f.lo f.width = f.after lk (bits x f.lo f.width) (bits v f.lo f.width) := by
  have hb : bits v f.lo f.width % 2 ^ f.width = bits v f.lo f.width := Nat.mod_eq_of_lt (bits_lt _ _ _)
  unfold RegField.write RegField.after
  cases f.acc with
  | rw => simp only; rw [bits_setBits_same, hb]
  | wl =>
    cases lk
    · simp only [Bool.false_eq_true, if_false]; rw [bits_setBits_same, hb]
    · rfl
  | w1c =>
    simp only; rw [bits_setBits_same]
    exact Nat.mod_eq_of_lt (Nat.lt_of_le_of_lt (Nat.sub_le _ _) (bits_lt _ _ _))
  | w1s =>
    simp only; rw [bits_setBits_same]
    exact Nat.mod_eq_of_lt (Nat.or_lt_two_pow (bits_lt _ _ _) (bits_lt _ _ _))
  | ro => rfl
  | wo => rfl
  | rc => rfl

/-- Fields written one after another: each gets its own value, whatever the others are. -/
theorem fold_field (lk : Bool) (v : Nat) (l : List RegField) (x : Nat) (hx : x < 2 ^ 32) (hl : fieldsOk l = true) :
    l.foldl (fun a g => g.write lk a v) x < 2 ^ 32
      ∧ (∀ f, l.all (RegField.apart f) = true →
          bits (l.foldl (fun a g => g.write lk a v) x) f.lo f.width = bits x f.lo f.width)
      ∧ ∀ f ∈ l, bits (l.foldl (fun a g => g.write lk a v) x) f.lo f.width
          = f.after lk (bits x f.lo f.width) (bits v f.lo f.width) := by
  induction l generalizing x with
  | nil => exact ⟨hx, fun _ _ => rfl, fun f hf => absurd hf (by simp)⟩
  | cons g r ih =>
    unfold fieldsOk at hl
    simp only [Bool.and_eq_true, decide_eq_true_eq] at hl
    obtain ⟨⟨h32, hap⟩, hr⟩ := hl
    obtain ⟨i1, i2, i3⟩ := ih (g.write lk x v) (RegField.write_lt g lk x v hx h32) hr
    refine ⟨i1, fun f hf => ?_, fun f hf => ?_⟩
    · rw [List.all_cons, Bool.and_eq_true] at hf
      rw [List.foldl_cons, i2 f hf.2]
      exact RegField.write_apart f g lk x v (by rw [RegField.apart_comm]; exact hf.1)
    · rw [List.foldl_cons]
      rcases List.mem_cons.mp hf with rfl | hm
      · rw [i2 f hap]; exact RegField.write_same f lk x v
      · rw [i3 f hm]
        have : g.apart f = true := List.all_eq_true.mp hap f hm
        rw [RegField.write_apart f g lk x v this]

/-- What a write by access codes does (R12): to each field by its code, and to no other register. -/
theorem State.plainWrite_field (s : State) (k : Nat) (v : Word) (r : RegSpec) (f : RegField)
    (h : findReg (k / 0x10000) (k % 0x10000) = some r) (hf : f ∈ r.fields) :
    bits ((s.plainWrite k v).reg k).toNat f.lo f.width
      = f.after (s.locked (k / 0x10000)) (bits (s.reg k).toNat f.lo f.width) (bits v.toNat f.lo f.width) := by
  have key := fold_field (s.locked (k / 0x10000)) v.toNat r.fields (s.reg k).toNat (BitVec.isLt _) (fieldsOk_found _ _ _ h)
  unfold State.plainWrite
  simp only [h]
  rw [State.reg_setReg_same, BitVec.toNat_ofNat, Nat.mod_eq_of_lt key.1]
  exact key.2.2 f hf

theorem State.plainWrite_other (s : State) (j k : Nat) (v : Word) (h : j ≠ k) : (s.plainWrite k v).reg j = s.reg j := by
  unfold State.plainWrite
  split
  · rfl
  · exact State.reg_setReg_ne _ _ h

end Sys2Proof.Machine
end

