-- ==== Sys2Proof/Laws/Writes.lean ====
section
/-!
SUPPORT. Fields after writes of other fields, register-space writes of a row, and the frames of the operations that raise events.
-/
namespace Sys2Proof.Laws.Writes

open Sys2Proof.Machine

/-- A row that ends in `x`. -/
abbrev nx (x : State) : Host.Outcome State Fault Refusal := .next x.finish

/-- What an effect of something optional keeps, if every such effect keeps it. -/
theorem withSome_keeps {α β : Type} (g : State → α) (s : State) (o : Option β) (f : β → State) (h : ∀ x, g (f x) = g s) :
    g (s.withSome o f) = g s := by
  cases o with
  | none => rfl
  | some x => exact h x

theorem each_keeps {α β : Type} (g : State → α) (s : State) (l : List β) (f : State → β → State) (h : ∀ t x, g (f t x) = g t) :
    g (s.each l f) = g s := by
  unfold State.each
  induction l generalizing s with
  | nil => rfl
  | cons x r ih => rw [List.foldl_cons, ih, h]

theorem onUnit_present (s : State) (p : Bool) (f : State → State) (h : p = true) : s.onUnit p f = f s := by unfold State.onUnit; rw [h, if_pos rfl]

theorem onWindow_present (s : State) (w : Nat) (f : State → State) (h : s.windowPresent w = true) : s.onWindow w f = f s := by
  unfold State.onWindow; rw [if_pos h]

theorem windowPresent_station (s : State) (st : Fin 4) (k : Nat) (hk : k = 0x20 ∨ k = 0x24 ∨ k = 0x28) (h : s.hasStn st.val = true) : s.windowPresent (k + st.val) = true := by
  unfold State.windowPresent
  have := st.isLt
  rw [if_neg (by omega), if_pos (by omega)]
  have : (k + st.val - 0x20) % 4 = st.val := by omega
  rw [this, h]

theorem getLsbD_bits (v : Word) (n : Nat) : v.getLsbD n = (bits v.toNat n 1 == 1) := by
  rw [BitVec.getLsbD, Nat.testBit_eq_decide_div_mod_eq]
  unfold bits
  rw [Nat.pow_one]
  by_cases h : v.toNat / 2 ^ n % 2 = 1 <;> simp [h]

theorem below4 {p : Nat → Prop} [DecidablePred p] (h : ∀ i : Fin 4, p i.val) (i : Nat) (hi : i < 4) : p i := h ⟨i, hi⟩

theorem addSat_fld (s : State) (f g : Fld) (n : Nat) (hf : f.ok) (h : f.apart g) : (s.addSat f n).fld g = s.fld g := by
  unfold State.addSat; exact State.fld_setFld_apart _ _ _ _ hf h

theorem raise_mem (s : State) (n : Nat) : n ∈ (s.raise n).flt.raised := List.mem_append_right _ (List.mem_singleton.2 rfl)

theorem raise_mem_of (s : State) (n m : Nat) (h : m ∈ s.flt.raised) : m ∈ (s.raise n).flt.raised := List.mem_append_left _ h

theorem setFld_flag_apart (s : State) (f g : Fld) (v : Nat) (hf : f.ok) (hw : g.width = 1) (h : f.apart g) : (s.setFld f v).flag g = s.flag g :=
  State.flag_setFld_apart s f g v hf (by rcases h with h | h | h; exact .inl h; exact .inr (.inl h); exact .inr (.inr (by omega)))

theorem windowWrite_lac (s : State) (st : Fin 4) (off : Nat) (v : Word) (h : s.hasStn st.val = true) (h1 : off < 0x10000) (h2 : off % 4 = 0) :
    s.windowWrite (0x240000 + 0x10000 * st.val) off v = wrLac st.val off v s := by
  have hp := windowPresent_station s st 0x24 (by decide) h
  have := st.isLt
  have e1 : (0x240000 + 0x10000 * st.val + off) / 0x10000 = 0x24 + st.val := by omega
  have e2 : (0x240000 + 0x10000 * st.val + off) % 0x10000 = off := by omega
  unfold State.windowWrite State.regAccess
  have hm : windowMapped (0x24 + st.val) = true := by
    unfold windowMapped
    have : 7 ≤ 0x24 + st.val ∧ 0x24 + st.val ≤ 0x2C := by omega
    simp [this]
  rw [e1, hm, hp, if_neg (by decide), if_neg (by decide), if_neg (by omega), if_pos rfl]
  show s.wrWindow false _ v = _
  unfold State.wrWindow
  simp only [e1, e2]
  repeat rw [if_neg (by omega)]
  rw [if_pos (by omega)]
  rw [show 0x24 + st.val - 0x24 = st.val by omega]

theorem plainWrite_bits (s : State) (k : Nat) (v : Word) (f : RegField) (h : (findReg (k / 0x10000) (k % 0x10000)).any (fun r => r.fields.contains f) = true) :
    bits ((s.plainWrite k v).reg k).toNat f.lo f.width
      = f.after (s.locked (k / 0x10000)) (bits (s.reg k).toNat f.lo f.width) (bits v.toNat f.lo f.width) := by
  cases hr : findReg (k / 0x10000) (k % 0x10000) with
  | none => rw [hr] at h; cases h
  | some r =>
    rw [hr] at h
    exact State.plainWrite_field s k v r f hr (by simpa using h)

theorem raise_fld (s : State) (n : Nat) (f : Fld) : (s.raise n).fld f = s.fld f := rfl

theorem raise_flag (s : State) (n : Nat) (f : Fld) : (s.raise n).flag f = s.flag f := rfl

theorem modPwr_fld (s : State) (n : PwrSt → PwrSt) (f : Fld) : (s.modPwr n).fld f = s.fld f := rfl

theorem modPwr_flag (s : State) (n : PwrSt → PwrSt) (f : Fld) : (s.modPwr n).flag f = s.flag f := rfl

theorem modFlt_fld (s : State) (n : FltSt → FltSt) (f : Fld) : (s.modFlt n).fld f = s.fld f := rfl

theorem modFlt_flag (s : State) (n : FltSt → FltSt) (f : Fld) : (s.modFlt n).flag f = s.flag f := rfl

theorem modThm_fld (s : State) (n : ThmSt → ThmSt) (f : Fld) : (s.modThm n).fld f = s.fld f := rfl

theorem modThm_flag (s : State) (n : ThmSt → ThmSt) (f : Fld) : (s.modThm n).flag f = s.flag f := rfl

theorem modNvm_fld (s : State) (n : NvmSt → NvmSt) (f : Fld) : (s.modNvm n).fld f = s.fld f := rfl

theorem modNvm_flag (s : State) (n : NvmSt → NvmSt) (f : Fld) : (s.modNvm n).flag f = s.flag f := rfl

theorem modAcd_fld (s : State) (n : AcdSt → AcdSt) (f : Fld) : (s.modAcd n).fld f = s.fld f := rfl

theorem modAcd_flag (s : State) (n : AcdSt → AcdSt) (f : Fld) : (s.modAcd n).flag f = s.flag f := rfl

theorem modStq_fld (s : State) (n : StqSt → StqSt) (f : Fld) : (s.modStq n).fld f = s.fld f := rfl

theorem modStq_flag (s : State) (n : StqSt → StqSt) (f : Fld) : (s.modStq n).flag f = s.flag f := rfl

theorem or_bit1 (a b : Nat) (ha : a < 2 ^ 1) (hb : b < 2 ^ 1) : ((a ||| b) == 1) = ((a == 1) || (b == 1)) := by
  rcases (show a = 0 ∨ a = 1 by omega) with rfl | rfl <;> rcases (show b = 0 ∨ b = 1 by omega) with rfl | rfl <;> rfl

theorem plainWrite_w1s (s : State) (f : Fld) (v : Word) (h : (findReg (f.key / 0x10000) (f.key % 0x10000)).any (fun r => r.fields.contains ⟨f.lo, 1, .w1s, false, 0⟩) = true) :
    (s.plainWrite f.key v).flag f = (s.flag f || v.getLsbD f.lo) := by
  have p2 := plainWrite_bits s f.key v ⟨f.lo, 1, .w1s, false, 0⟩ h
  rw [State.flag_eq, State.flag_eq, getLsbD_bits]
  refine (congrArg (· == 1) p2).trans ?_
  show ((bits (s.reg f.key).toNat f.lo 1 ||| bits v.toNat f.lo 1) == 1) = ((bits (s.reg f.key).toNat f.lo 1 == 1) || (bits v.toNat f.lo 1 == 1))
  exact or_bit1 _ _ (bits_lt _ _ 1) (bits_lt _ _ 1)

end Sys2Proof.Laws.Writes
end

