-- ==== Sys2Proof/Laws/Packets.lean ====
section
/-!
SUPPORT. Talosh ports: training states, credits and reception.
-/
namespace Sys2Proof.Laws.Packets

open Sys2Proof.Machine
open Sys2Proof.Laws.Writes

theorem link_fld (s : State) (l : Nat) (f : LinkSt → LinkSt) (g : Fld) : (s.modLink l f).fld g = s.fld g := rfl

theorem link_flag (s : State) (l : Nat) (f : LinkSt → LinkSt) (g : Fld) : (s.modLink l f).flag g = s.flag g := rfl

theorem now_of (s : State) (f : Fld) (v : Nat) : (s.setFld f v).now = s.now := rfl

theorem sts (p : Nat) (s : State) (st : Nat) (h : st < 8) : (s.setTalState p st).fld (F.TAL_PORT_STATUS_STATE p) = st
    ∧ (s.setTalState p st).flag (F.TAL_PORT_STATUS_UP p) = (st == 4)
    ∧ (s.setTalState p st).links = s.links ∧ (s.setTalState p st).ptime = s.ptime ∧ (s.setTalState p st).flt = s.flt
    ∧ (s.setTalState p st).fld (F.TAL_PORT_STATUS_FAILSTEP p) = s.fld (F.TAL_PORT_STATUS_FAILSTEP p)
    ∧ (s.setTalState p st).flag (F.TAL_PORT_STATUS_LOST p) = s.flag (F.TAL_PORT_STATUS_LOST p) := by
  have ok1 : (F.TAL_PORT_STATUS_STATE p).ok := Nat.le_of_ble_eq_true rfl
  have ok2 : (F.TAL_PORT_STATUS_UP p).ok := Nat.le_of_ble_eq_true rfl
  have ok3 : (F.TAL_PORT_STATUS_GENUP p).ok := Nat.le_of_ble_eq_true rfl
  have ok4 : (F.TAL_PORT_STATUS_WIDTH p).ok := Nat.le_of_ble_eq_true rfl
  have ok5 : (F.TAL_PORT_STATUS_NARROW p).ok := Nat.le_of_ble_eq_true rfl
  have base : ((s.setFld (F.TAL_PORT_STATUS_STATE p) st).putFlag (F.TAL_PORT_STATUS_UP p) (st == 4)).fld (F.TAL_PORT_STATUS_STATE p) = st := by
    unfold State.putFlag
    rw [State.fld_setFld_apart _ _ _ _ ok2 (by (first | exact Or.inr (Or.inl (Nat.le_of_ble_eq_true rfl)) | exact Or.inr (Or.inr (Nat.le_of_ble_eq_true rfl)) | exact Or.inl (by decide) | (refine Or.inl (show _ + _ ≠ _ + _ from ?_); omega))), State.fld_setFld_same _ _ _ ok1]
    exact Nat.mod_eq_of_lt h
  have base2 := State.flag_putFlag (s.setFld (F.TAL_PORT_STATUS_STATE p) st) (F.TAL_PORT_STATUS_UP p) (st == 4) ok2 rfl
  have base3 : ((s.setFld (F.TAL_PORT_STATUS_STATE p) st).putFlag (F.TAL_PORT_STATUS_UP p) (st == 4)).fld (F.TAL_PORT_STATUS_FAILSTEP p) = s.fld (F.TAL_PORT_STATUS_FAILSTEP p) := by
    unfold State.putFlag
    rw [State.fld_setFld_apart _ _ _ _ ok2 (by (first | exact Or.inr (Or.inl (Nat.le_of_ble_eq_true rfl)) | exact Or.inr (Or.inr (Nat.le_of_ble_eq_true rfl)) | exact Or.inl (by decide) | (refine Or.inl (show _ + _ ≠ _ + _ from ?_); omega))), State.fld_setFld_apart _ _ _ _ ok1 (by (first | exact Or.inr (Or.inl (Nat.le_of_ble_eq_true rfl)) | exact Or.inr (Or.inr (Nat.le_of_ble_eq_true rfl)) | exact Or.inl (by decide) | (refine Or.inl (show _ + _ ≠ _ + _ from ?_); omega)))]
  have base4 : ((s.setFld (F.TAL_PORT_STATUS_STATE p) st).putFlag (F.TAL_PORT_STATUS_UP p) (st == 4)).flag (F.TAL_PORT_STATUS_LOST p) = s.flag (F.TAL_PORT_STATUS_LOST p) := by
    unfold State.putFlag
    rw [setFld_flag_apart _ _ _ _ ok2 rfl (by (first | exact Or.inr (Or.inl (Nat.le_of_ble_eq_true rfl)) | exact Or.inr (Or.inr (Nat.le_of_ble_eq_true rfl)) | exact Or.inl (by decide) | (refine Or.inl (show _ + _ ≠ _ + _ from ?_); omega))), setFld_flag_apart _ _ _ _ ok1 rfl (by (first | exact Or.inr (Or.inl (Nat.le_of_ble_eq_true rfl)) | exact Or.inr (Or.inr (Nat.le_of_ble_eq_true rfl)) | exact Or.inl (by decide) | (refine Or.inl (show _ + _ ≠ _ + _ from ?_); omega)))]
  have l1 : ((s.setFld (F.TAL_PORT_STATUS_STATE p) st).putFlag (F.TAL_PORT_STATUS_UP p) (st == 4)).links = s.links := by simp only [State.setFld_frame, State.putFlag_frame]
  have l2 : ((s.setFld (F.TAL_PORT_STATUS_STATE p) st).putFlag (F.TAL_PORT_STATUS_UP p) (st == 4)).ptime = s.ptime := by simp only [State.setFld_frame, State.putFlag_frame]
  have l3 : ((s.setFld (F.TAL_PORT_STATUS_STATE p) st).putFlag (F.TAL_PORT_STATUS_UP p) (st == 4)).flt = s.flt := by simp only [State.setFld_frame, State.putFlag_frame]
  unfold State.setTalState
  dsimp only
  generalize (s.setFld (F.TAL_PORT_STATUS_STATE p) st).putFlag (F.TAL_PORT_STATUS_UP p) (st == 4) = u at *
  by_cases h4 : st = 4
  · rw [if_pos h4]
    exact ⟨base, base2, l1, l2, l3, base3, base4⟩
  · rw [if_neg h4]
    unfold State.clrFlag
    refine ⟨?_, ?_, ?_, ?_, ?_, ?_, ?_⟩
    · rw [State.fld_setFld_apart _ _ _ _ ok5 (by (first | exact Or.inr (Or.inl (Nat.le_of_ble_eq_true rfl)) | exact Or.inr (Or.inr (Nat.le_of_ble_eq_true rfl)) | exact Or.inl (by decide) | (refine Or.inl (show _ + _ ≠ _ + _ from ?_); omega))), State.fld_setFld_apart _ _ _ _ ok4 (by (first | exact Or.inr (Or.inl (Nat.le_of_ble_eq_true rfl)) | exact Or.inr (Or.inr (Nat.le_of_ble_eq_true rfl)) | exact Or.inl (by decide) | (refine Or.inl (show _ + _ ≠ _ + _ from ?_); omega))), State.fld_setFld_apart _ _ _ _ ok3 (by (first | exact Or.inr (Or.inl (Nat.le_of_ble_eq_true rfl)) | exact Or.inr (Or.inr (Nat.le_of_ble_eq_true rfl)) | exact Or.inl (by decide) | (refine Or.inl (show _ + _ ≠ _ + _ from ?_); omega))), base]
    · rw [setFld_flag_apart _ _ _ _ ok5 rfl (by (first | exact Or.inr (Or.inl (Nat.le_of_ble_eq_true rfl)) | exact Or.inr (Or.inr (Nat.le_of_ble_eq_true rfl)) | exact Or.inl (by decide) | (refine Or.inl (show _ + _ ≠ _ + _ from ?_); omega))), setFld_flag_apart _ _ _ _ ok4 rfl (by (first | exact Or.inr (Or.inl (Nat.le_of_ble_eq_true rfl)) | exact Or.inr (Or.inr (Nat.le_of_ble_eq_true rfl)) | exact Or.inl (by decide) | (refine Or.inl (show _ + _ ≠ _ + _ from ?_); omega))), setFld_flag_apart _ _ _ _ ok3 rfl (by (first | exact Or.inr (Or.inl (Nat.le_of_ble_eq_true rfl)) | exact Or.inr (Or.inr (Nat.le_of_ble_eq_true rfl)) | exact Or.inl (by decide) | (refine Or.inl (show _ + _ ≠ _ + _ from ?_); omega))), base2]
    · rw [← l1]; simp only [State.setFld_frame]
    · rw [← l2]; simp only [State.setFld_frame]
    · rw [← l3]; simp only [State.setFld_frame]
    · rw [State.fld_setFld_apart _ _ _ _ ok5 (by (first | exact Or.inr (Or.inl (Nat.le_of_ble_eq_true rfl)) | exact Or.inr (Or.inr (Nat.le_of_ble_eq_true rfl)) | exact Or.inl (by decide) | (refine Or.inl (show _ + _ ≠ _ + _ from ?_); omega))), State.fld_setFld_apart _ _ _ _ ok4 (by (first | exact Or.inr (Or.inl (Nat.le_of_ble_eq_true rfl)) | exact Or.inr (Or.inr (Nat.le_of_ble_eq_true rfl)) | exact Or.inl (by decide) | (refine Or.inl (show _ + _ ≠ _ + _ from ?_); omega))), State.fld_setFld_apart _ _ _ _ ok3 (by (first | exact Or.inr (Or.inl (Nat.le_of_ble_eq_true rfl)) | exact Or.inr (Or.inr (Nat.le_of_ble_eq_true rfl)) | exact Or.inl (by decide) | (refine Or.inl (show _ + _ ≠ _ + _ from ?_); omega))), base3]
    · rw [setFld_flag_apart _ _ _ _ ok5 rfl (by (first | exact Or.inr (Or.inl (Nat.le_of_ble_eq_true rfl)) | exact Or.inr (Or.inr (Nat.le_of_ble_eq_true rfl)) | exact Or.inl (by decide) | (refine Or.inl (show _ + _ ≠ _ + _ from ?_); omega))), setFld_flag_apart _ _ _ _ ok4 rfl (by (first | exact Or.inr (Or.inl (Nat.le_of_ble_eq_true rfl)) | exact Or.inr (Or.inr (Nat.le_of_ble_eq_true rfl)) | exact Or.inl (by decide) | (refine Or.inl (show _ + _ ≠ _ + _ from ?_); omega))), setFld_flag_apart _ _ _ _ ok3 rfl (by (first | exact Or.inr (Or.inl (Nat.le_of_ble_eq_true rfl)) | exact Or.inr (Or.inr (Nat.le_of_ble_eq_true rfl)) | exact Or.inl (by decide) | (refine Or.inl (show _ + _ ≠ _ + _ from ?_); omega))), base4]

theorem start (p : Nat) (s : State) : (s.talStart p).talState p = 1 ∧ (s.talStart p).flag (F.TAL_PORT_STATUS_UP p) = false := by
  unfold State.talStart State.talState
  have h := sts p s 1 (by decide)
  generalize s.setTalState p 1 = u at *
  rw [link_fld, link_flag, addSat_fld _ _ _ _ (Nat.le_of_ble_eq_true rfl) (by (first | exact Or.inr (Or.inl (Nat.le_of_ble_eq_true rfl)) | exact Or.inr (Or.inr (Nat.le_of_ble_eq_true rfl)) | exact Or.inl (by decide) | (refine Or.inl (show _ + _ ≠ _ + _ from ?_); omega)))]
  refine ⟨h.1, ?_⟩
  unfold State.addSat
  rw [setFld_flag_apart _ _ _ _ (Nat.le_of_ble_eq_true rfl) rfl (by (first | exact Or.inr (Or.inl (Nat.le_of_ble_eq_true rfl)) | exact Or.inr (Or.inr (Nat.le_of_ble_eq_true rfl)) | exact Or.inl (by decide) | (refine Or.inl (show _ + _ ≠ _ + _ from ?_); omega)))]
  exact h.2.1

/-- Giving credits back writes only the links. -/
theorem gc_fld (s : State) (l : List Queued) (g : Fld) : (s.giveCredits l).fld g = s.fld g :=
  each_keeps (fun x : State => x.fld g) _ _ _ (fun t q => by cases q.port <;> rfl)

theorem gc_flag (s : State) (l : List Queued) (g : Fld) : (s.giveCredits l).flag g = s.flag g :=
  each_keeps (fun x : State => x.flag g) _ _ _ (fun t q => by cases q.port <;> rfl)

theorem gc_flt (s : State) (l : List Queued) : (s.giveCredits l).flt = s.flt :=
  each_keeps (fun x : State => x.flt) _ _ _ (fun t q => by cases q.port <;> rfl)

/-- Giving credits back to a link is seen on that link only in its credits and what it sends. -/
theorem gc_failedAt (s : State) (l : List Queued) (k : Nat) (hk : k < 3) : ((s.giveCredits l).pl k).failedAt = (s.pl k).failedAt :=
  each_keeps (fun x : State => (x.pl k).failedAt) _ _ _ (fun t q => by
    cases q.port with
    | none => rfl
    | some o =>
      dsimp only
      unfold State.giveCredit State.pl State.modLink
      dsimp only
      by_cases e : o = k
      · subst e; rw [vget_vmod_same _ _ hk]
      · rw [vget_vmod_ne _ _ e])

/-- A port that goes down is in state 0, keeps the time of its failure, and its latched bits stay. -/
theorem down (p : Fin 2) (s : State) (x : Option Nat) : (s.talDown p.val x).talState p.val = 0 ∧ ((s.talDown p.val x).pl p.val).failedAt = x
    ∧ (s.talDown p.val x).flt = s.flt ∧ (s.talDown p.val x).fld (F.TAL_PORT_STATUS_FAILSTEP p.val) = s.fld (F.TAL_PORT_STATUS_FAILSTEP p.val)
    ∧ (s.talDown p.val x).flag (F.TAL_PORT_STATUS_LOST p.val) = s.flag (F.TAL_PORT_STATUS_LOST p.val) := by
  unfold State.talDown State.talState
  obtain ⟨h1, h2, h3, h4, h5, h6, h7⟩ := sts p.val s 0 (by decide)
  generalize s.setTalState p.val 0 = u at *
  rw [gc_fld, gc_fld, gc_flag, gc_flt, gc_failedAt _ _ _ (by omega), link_fld, link_fld, link_flag]
  refine ⟨h1, ?_, h5, h6, h7⟩
  unfold State.pl State.modLink
  rw [show ({ u with links := vmod u.links p.val _ } : State).links = vmod u.links p.val _ from rfl]
  rw [vget_vmod_same _ _ (by omega)]

theorem lk (s : State) (l : Nat) (f : LinkSt → LinkSt) (h : l < 3) : (s.modLink l f).pl l = f (s.pl l) := by
  unfold State.pl State.modLink
  rw [show ({ s with links := vmod s.links l f } : State).links = vmod s.links l f from rfl, vget_vmod_same _ _ h]

theorem lidx (l : LinkId) : l.idx < 3 := by cases l <;> decide

theorem hr (s : State) (q : PktIn) (l : Nat) (f : State → State) (a : q.crcOk l = true) (b : q.reserved = false) : s.recvLink l q f = f s := by
  unfold State.recvLink
  rw [if_neg (by rw [a]; decide), if_neg (by rw [b]; decide)]

/-- What reception in sequence writes on the link: the next SEQ, the acknowledgement, and the credits used. -/
def rxf (l : Nat) (q : PktIn) (k : LinkSt) : LinkSt := { k with
      rxSeq := (k.rxSeq + 1) % 4096, naked := false, unacked := 0, linkOut := [⟨0x32, 0, 0, 0, 0, k.rxSeq, []⟩]
      granted := k.granted.sub (pktClass l q.pkt.type) (pktCost q.pkt).1 (pktCost q.pkt).2 }

/-- A good packet in sequence that holds its credits is performed. -/
theorem recv_of (s : State) (l : Nat) (q : PktIn) (f : State → State) (h0 : s.linkHears l = true) (h1 : q.crcOk l = true)
    (h2 : q.pkt.seq % 4096 = (s.pl l).rxSeq) (h4 : q.reserved = false) (hk : typeKnown l q.pkt.type = true)
    (hc : (s.pl l).granted.covers (pktClass l q.pkt.type) (pktCost q.pkt) = true) :
    s.recvPkt l q f = f (s.modLink l (rxf l q)) := by
  unfold State.recvPkt
  rw [if_neg (by rw [h0]; decide), if_neg, if_neg]
  · rfl
  · rintro (x | x | x)
    · rw [h4] at x; cases x
    · rw [hk] at x; cases x
    · rw [hc] at x; cases x
  · rintro (x | x)
    · rw [h1] at x; cases x
    · exact x h2

theorem recv_ok (s : State) (l : Nat) (hl : l < 2) (q : PktIn) (f : State → State) (h1 : q.crcOk l = true) (h2 : q.pkt.seq = (s.pl l).rxSeq)
    (h3 : (s.pl l).rxSeq < 4096) (h4 : q.reserved = false) (h5 : s.linkUp l = true) (hk : typeKnown l q.pkt.type = true)
    (hc : (s.pl l).granted.covers (pktClass l q.pkt.type) (pktCost q.pkt) = true) :
    s.recvPkt l q f = f (s.modLink l (rxf l q)) :=
  recv_of s l q f (by unfold State.linkHears; rw [if_pos hl, h5]) h1 (by rw [h2]; exact Nat.mod_eq_of_lt h3) h4 hk hc

theorem cov (g : Credits) (a b : Nat) (h : a ≤ g.ph) (h2 : b ≤ g.pd) : g.covers 0 (a, b) = true := by
  unfold Credits.covers Credits.of; simp [h, h2]

theorem cov1 (g : Credits) (h : 1 ≤ g.nh) : g.covers 1 (1, 0) = true := by
  unfold Credits.covers Credits.of; simp [h]

end Sys2Proof.Laws.Packets
end

