-- ==== Sys2Proof/Laws/Accord.lean ====
section
/-!
SUPPORT. The accord link and its packets.
-/
namespace Sys2Proof.Laws.Accord

open Sys2Proof.Machine
open Sys2Proof.Laws.Writes

theorem acdWin (s : State) (h : s.hasAccord = b) : s.windowPresent 0x3A = b := by rw [← h]; rfl

theorem win_neg (s : State) (w : Nat) (f : State → State) (h : s.windowPresent w = false) : s.onWindow w f = s.raise 5 := by
  unfold State.onWindow; rw [if_neg (by rw [h]; decide)]

theorem unit_neg (s : State) (p : Bool) (f : State → State) (h : p = false) : s.onUnit p f = s := by unfold State.onUnit; rw [h, if_neg (by decide)]

theorem acdState_en (s : State) (b : Bool) : (s.putFlag F.ACD_CTRL_EN b).acdState = s.acdState :=
  State.fld_setFld_apart _ _ _ _ (Nat.le_of_ble_eq_true rfl) (by (first | exact Or.inr (Or.inl (Nat.le_of_ble_eq_true rfl)) | exact Or.inr (Or.inr (Nat.le_of_ble_eq_true rfl)) | exact Or.inl (by decide) | (refine Or.inl (show _ + _ ≠ _ + _ from ?_); omega)))

theorem acd_en (s : State) (b : Bool) : (s.putFlag F.ACD_CTRL_EN b).acd = s.acd := rfl

theorem acdDown_facts (s : State) (f : Option Nat) (ha : s.hasAccord = true) (h : s.acdState ≠ 0) :
   (s.acdDown f).acdState = 0 ∧ (s.acdDown f).acd.failedAt = f := by
  have e : s.acdDown f = ((s.setFld F.ACD_STATUS_STATE 0).modLink 2 (fun k => { k.cleared with failedAt := f })).modAcd (fun a => { a with
    failedAt := f, failStep := s.acdState, helloSent := false
    downSince := if s.acdState = 4 then some s.now else a.downSince }) := by
    unfold State.acdDown
    rw [if_neg (by rintro (c | c); rw [ha] at c; cases c; exact h c)]
  rw [e]
  refine ⟨?_, rfl⟩
  exact (State.fld_setFld_same s F.ACD_STATUS_STATE 0 (Nat.le_of_ble_eq_true rfl)).trans rfl

theorem en_of (v : Word) : F.ACD_CTRL_EN.of v = bits v.toNat 0 1 := rfl

theorem ctrl_eq (s : State) (v : Word) : effAcdCtrl v s =
   (let s1 := s.putFlag F.ACD_CTRL_EN (bits v.toNat 0 1 == 1)
    let s2 := if bits v.toNat 0 1 = 0 then s1.acdDown none
      else if s1.acdState = 0 ∧ s1.acd.failedAt = none then s1.acdStart
      else s1
    if bits v.toNat 1 1 = 1 ∧ bits v.toNat 8 8 = 0x5A ∧ s2.isActive = true ∧ s2.fld F.ACD_STATUS_MIRROR_OK = 15 then
      (if s2.lowestLocked.isNone then s2.giveUp else s2.modAcd (fun a => { a with handover := true }))
    else s2) := rfl

/-- An accord packet received in sequence is performed, and its credits are given back. -/
theorem perf (s : State) (p : PktIn) (g : State → State) (ha : s.hasAccord = true) (h1 : p.crcOk 2 = true) (h2 : p.pkt.seq % 4096 = (s.pl 2).rxSeq) (h3 : p.reserved = false) (h4 : s.linkHears 2 = true)
    (h5 : (s.pl 2).granted.covers (pktClass 2 p.pkt.type) (pktCost p.pkt) = true) (h6 : typeKnown 2 p.pkt.type = true) :
    effAcdPkt p g s = (g (s.modLink 2 (Packets.rxf 2 p))).giveCredit 2 p.pkt := by
  unfold effAcdPkt
  rw [if_neg (by rw [ha]; decide), Packets.recv_of s 2 p _ h4 h1 h2 h3 h6 h5]

theorem acdRow (s : State) (k : Nat) (p : PktIn) (f : State → State) (h : p.pkt.type = k) : s.accordRow k p f = effAcdPkt p f s := if_pos h

theorem raiseIf_fld (s : State) (b : Bool) (n : Nat) (f : Fld) : (s.raiseIf b n).fld f = s.fld f := by cases b <;> rfl

theorem raiseIf_flag (s : State) (b : Bool) (n : Nat) (f : Fld) : (s.raiseIf b n).flag f = s.flag f := by cases b <;> rfl

theorem raiseIf_mem (s : State) (b : Bool) (n k : Nat) (h : k ∈ s.flt.raised) : k ∈ (s.raiseIf b n).flt.raised := by
  cases b
  · exact h
  · exact raise_mem_of _ _ _ h

theorem lost_facts (s1 : State) (d1 : s1.acdState = 0) :
   let t := ((((((s1.setFlag F.ACD_STATUS_LOST).raise 376).clrFlag F.ACD_STATUS_JOINED).setMirror 0).clrFlag F.ACD_STATUS_ROLE).modAcd (fun a => { a with downSince := none, joining := false, stepped := false, handover := false, handoverDue := false, asked := none }))
   t.flag F.ACD_STATUS_LOST = true ∧ t.flag F.ACD_STATUS_JOINED = false ∧ t.fld F.ACD_STATUS_MIRROR_OK = 0
          ∧ t.acdState = 0 ∧ 376 ∈ t.flt.raised := by
  have e1 : (s1.setFlag F.ACD_STATUS_LOST).flag F.ACD_STATUS_LOST = true := State.flag_setFlag _ _ (Nat.le_of_ble_eq_true rfl) rfl
  have e2 : (s1.setFlag F.ACD_STATUS_LOST).acdState = 0 := (State.fld_setFld_apart _ _ _ _ (Nat.le_of_ble_eq_true rfl) (by (first | exact Or.inr (Or.inl (Nat.le_of_ble_eq_true rfl)) | exact Or.inr (Or.inr (Nat.le_of_ble_eq_true rfl)) | exact Or.inl (by decide) | (refine Or.inl (show _ + _ ≠ _ + _ from ?_); omega)))).trans d1
  generalize s1.setFlag F.ACD_STATUS_LOST = s2 at e1 e2 ⊢
  have f1 : (s2.raise 376).flag F.ACD_STATUS_LOST = true := e1
  have f2 : (s2.raise 376).fld F.ACD_STATUS_STATE = 0 := e2
  have f3 : 376 ∈ (s2.raise 376).flt.raised := raise_mem _ _
  generalize s2.raise 376 = s3 at f1 f2 f3 ⊢
  have g1 : (s3.clrFlag F.ACD_STATUS_JOINED).flag F.ACD_STATUS_LOST = true := (setFld_flag_apart _ _ _ _ (Nat.le_of_ble_eq_true rfl) rfl (by (first | exact Or.inr (Or.inl (Nat.le_of_ble_eq_true rfl)) | exact Or.inr (Or.inr (Nat.le_of_ble_eq_true rfl)) | exact Or.inl (by decide) | (refine Or.inl (show _ + _ ≠ _ + _ from ?_); omega)))).trans f1
  have g2 : (s3.clrFlag F.ACD_STATUS_JOINED).fld F.ACD_STATUS_STATE = 0 := (State.fld_setFld_apart _ _ _ _ (Nat.le_of_ble_eq_true rfl) (by (first | exact Or.inr (Or.inl (Nat.le_of_ble_eq_true rfl)) | exact Or.inr (Or.inr (Nat.le_of_ble_eq_true rfl)) | exact Or.inl (by decide) | (refine Or.inl (show _ + _ ≠ _ + _ from ?_); omega)))).trans f2
  have g3 : 376 ∈ (s3.clrFlag F.ACD_STATUS_JOINED).flt.raised := f3
  have g4 : (s3.clrFlag F.ACD_STATUS_JOINED).flag F.ACD_STATUS_JOINED = false := State.flag_clrFlag _ _ (Nat.le_of_ble_eq_true rfl) rfl
  generalize s3.clrFlag F.ACD_STATUS_JOINED = s4 at g1 g2 g3 g4 ⊢
  have h : (s4.setMirror 0).flag F.ACD_STATUS_LOST = true ∧ (s4.setMirror 0).fld F.ACD_STATUS_STATE = 0 ∧ 376 ∈ (s4.setMirror 0).flt.raised ∧ (s4.setMirror 0).flag F.ACD_STATUS_JOINED = false
     ∧ (s4.setMirror 0).fld F.ACD_STATUS_MIRROR_OK = 0 := by
    unfold State.setMirror
    generalize ((List.range 4).any _) = b
    rw [raiseIf_flag, raiseIf_fld, raiseIf_flag, raiseIf_fld]
    refine ⟨(setFld_flag_apart _ _ _ _ (Nat.le_of_ble_eq_true rfl) rfl (by (first | exact Or.inr (Or.inl (Nat.le_of_ble_eq_true rfl)) | exact Or.inr (Or.inr (Nat.le_of_ble_eq_true rfl)) | exact Or.inl (by decide) | (refine Or.inl (show _ + _ ≠ _ + _ from ?_); omega)))).trans g1, (State.fld_setFld_apart _ _ _ _ (Nat.le_of_ble_eq_true rfl) (by (first | exact Or.inr (Or.inl (Nat.le_of_ble_eq_true rfl)) | exact Or.inr (Or.inr (Nat.le_of_ble_eq_true rfl)) | exact Or.inl (by decide) | (refine Or.inl (show _ + _ ≠ _ + _ from ?_); omega)))).trans g2, raiseIf_mem _ _ _ _ g3, (setFld_flag_apart _ _ _ _ (Nat.le_of_ble_eq_true rfl) rfl (by (first | exact Or.inr (Or.inl (Nat.le_of_ble_eq_true rfl)) | exact Or.inr (Or.inr (Nat.le_of_ble_eq_true rfl)) | exact Or.inl (by decide) | (refine Or.inl (show _ + _ ≠ _ + _ from ?_); omega)))).trans g4, State.fld_setFld_same s4 F.ACD_STATUS_MIRROR_OK 0 (Nat.le_of_ble_eq_true rfl)⟩
  obtain ⟨h1, h2, h3, h4, h5⟩ := h
  generalize s4.setMirror 0 = s5 at h1 h2 h3 h4 h5 ⊢
  have k1 : (s5.clrFlag F.ACD_STATUS_ROLE).flag F.ACD_STATUS_LOST = true := (setFld_flag_apart _ _ _ _ (Nat.le_of_ble_eq_true rfl) rfl (by (first | exact Or.inr (Or.inl (Nat.le_of_ble_eq_true rfl)) | exact Or.inr (Or.inr (Nat.le_of_ble_eq_true rfl)) | exact Or.inl (by decide) | (refine Or.inl (show _ + _ ≠ _ + _ from ?_); omega)))).trans h1
  have k2 : (s5.clrFlag F.ACD_STATUS_ROLE).fld F.ACD_STATUS_STATE = 0 := (State.fld_setFld_apart _ _ _ _ (Nat.le_of_ble_eq_true rfl) (by (first | exact Or.inr (Or.inl (Nat.le_of_ble_eq_true rfl)) | exact Or.inr (Or.inr (Nat.le_of_ble_eq_true rfl)) | exact Or.inl (by decide) | (refine Or.inl (show _ + _ ≠ _ + _ from ?_); omega)))).trans h2
  have k3 : 376 ∈ (s5.clrFlag F.ACD_STATUS_ROLE).flt.raised := h3
  have k4 : (s5.clrFlag F.ACD_STATUS_ROLE).flag F.ACD_STATUS_JOINED = false := (setFld_flag_apart _ _ _ _ (Nat.le_of_ble_eq_true rfl) rfl (by (first | exact Or.inr (Or.inl (Nat.le_of_ble_eq_true rfl)) | exact Or.inr (Or.inr (Nat.le_of_ble_eq_true rfl)) | exact Or.inl (by decide) | (refine Or.inl (show _ + _ ≠ _ + _ from ?_); omega)))).trans h4
  have k5 : (s5.clrFlag F.ACD_STATUS_ROLE).fld F.ACD_STATUS_MIRROR_OK = 0 := (State.fld_setFld_apart _ _ _ _ (Nat.le_of_ble_eq_true rfl) (by (first | exact Or.inr (Or.inl (Nat.le_of_ble_eq_true rfl)) | exact Or.inr (Or.inr (Nat.le_of_ble_eq_true rfl)) | exact Or.inl (by decide) | (refine Or.inl (show _ + _ ≠ _ + _ from ?_); omega)))).trans h5
  generalize s5.clrFlag F.ACD_STATUS_ROLE = s6 at k1 k2 k3 k4 k5 ⊢
  exact ⟨k1, k4, k5, k2, k3⟩

def kept (x : State) : WebSt × Vector MotSt 16 × Vector Axis 16 := (x.web, x.mots, x.axes)

theorem kept_send (s : State) (a b : Nat) (l : List Byte) : kept (s.sendAcd a b l) = kept s := by
  unfold State.sendAcd State.sendPkt
  split <;> rfl

theorem kept_time (s : State) : kept s.sendTime = kept s := kept_send _ _ _ _

theorem kept_mirror (s : State) (m : Nat) : kept (s.setMirror m) = kept s := by
  unfold State.setMirror State.raiseIf
  split <;> rfl

def trk (s : State) (l : List Byte) : State :=
  { s with
      loops := s.loops.map (fun e => (e.1, { e.2 with
        i := sx 64 (entLe l (96 + 16 * e.1) 8), spr := sx 32 (entLe l (96 + 16 * e.1 + 8) 4)
        uPrev := sx 32 (entLe l (96 + 16 * e.1 + 12) 4) }))
      mots := Vector.ofFn (fun (n : Fin 16) => { s.mots[n] with
        integ := sx 64 (entLe l (96 + 1024 + 16 * n.val) 8), target := entLe l (96 + 1024 + 16 * n.val + 8) 8 })
      axes := Vector.ofFn (fun (n : Fin 16) => { s.axes[n] with
        pFrac := sx 64 (entLe l (96 + 1024 + 256 + 16 * n.val) 8), vMilli := sx 64 (entLe l (96 + 1024 + 256 + 16 * n.val + 8) 8) })
      web := { s.web with raw := sx 64 (entLe l (96 + 1024 + 256 + 256) 8), hw := sx 64 (entLe l (96 + 1024 + 256 + 256 + 8) 8) } }

theorem kept_rx (s : State) (l : List Byte) (ha : s.isActive = false) (h : s.isShadow = true ∨ s.acd.joining = true) :
    kept (s.rxState l) = kept (trk s l) := by
  unfold State.rxState
  rw [if_neg (by rw [ha]; decide), if_neg (by rintro ⟨a, b⟩; rcases h with h | h; rw [h] at a; cases a; rw [h] at b; cases b)]
  extract_lets
  refine (kept_time _).trans ?_
  refine (kept_send _ _ _ _).trans ((kept_mirror _ _).trans ?_)
  refine Eq.trans (b := kept (if (trk s l).acd.joining then
        (((trk s l).setFlag F.ACD_STATUS_JOINED).modAcd (fun a => { a with
          joining := false, copyStn := 15, copyLine := (List.range 4).map (fun i => entLe l (24 * i) 8), copyFacet := (List.range 4).map (fun i => entLe l (24 * i + 16) 8) }))
      else (trk s l).each (List.range 4) (fun t i => t.modExp i (fun e => { e with facet := entLe l (24 * i + 16) 8 })))) rfl ?_
  split
  · rfl
  · exact each_keeps kept _ _ _ (fun t x => rfl)

end Sys2Proof.Laws.Accord
end

