-- ==== Sys2Proof/Laws/Axes.lean ====
section
/-!
SUPPORT. A step of an axis, and the Hermite segments at their ends.
-/
namespace Sys2Proof.Laws.Axes

open Sys2Proof.Machine
open Sys2Proof.Laws.Writes

theorem modAxis_at (s : State) (n : Nat) (f : Axis → Axis) (h : n < 16) : (s.modAxis n f).axis n = f (s.axis n) := by
  show vget (vmod s.axes n f) n = _
  rw [vget_vmod_same _ _ h]; rfl

theorem axis_axes (s t : State) (n : Nat) (h : s.axes = t.axes) : s.axis n = t.axis n := by unfold State.axis; rw [h]

theorem axDrive_at (s : State) (n : Nat) (h : n < 16) : ((s.axDrive n).axis n).state = (s.axis n).state ∧ ((s.axDrive n).axis n).pFrac = (s.axis n).pFrac
    ∧ ((s.axDrive n).axis n).vMilli = (s.axis n).vMilli ∧ ((s.axDrive n).axis n).rem = (s.axis n).rem := by
  unfold State.axDrive
  dsimp only
  split
  · have e : ((s.modAxis n (fun y => { y with driven := false, ampU := 0 })).clrFlag (F.STP_STATUS_VSAT n)).axis n = { s.axis n with driven := false, ampU := 0 } := by
      refine (axis_axes _ (s.modAxis n (fun y => { y with driven := false, ampU := 0 })) _ (by simp only [State.clrFlag_frame])).trans ?_
      exact modAxis_at _ _ _ h
    rw [e]; exact ⟨rfl, rfl, rfl, rfl⟩
  · rw [modAxis_at _ _ _ h]
    have g : ∀ b c, (((s.raiseIf b 332).putFlag (F.STP_STATUS_VSAT n) c)).axis n = s.axis n := fun b c => axis_axes _ s n (by simp only [State.putFlag_frame, State.raiseIf_frame])
    rw [g]; exact ⟨rfl, rfl, rfl, rfl⟩

theorem axn (y : State) (o i b n : Nat) : (y.notify o i b).axis n = y.axis n := axis_axes _ _ _ (by simp only [State.notify_frame])

theorem axRest_at (s : State) (n : Nat) (r : Int) (b : Nat) (h : n < 16) : (s.axRest n r b).axis n = { s.axis n with
    state := if (s.axis n).drydown then .off else .hold, vMilli := 0, rem := r, halt := false, drydown := false, holdTicks := s.axHoldTicks n } := by
  unfold State.axRest
  exact (axn _ _ _ _ _).trans (modAxis_at _ _ _ h)

theorem step_at (s : State) (n : Nat) (hm ix st : Bool) (h : n < 16) :
    let x := s.axis n
    let s1 := s.modAxis n (fun y => { y with
      idxWas := ix, stallRun := if st then y.stallRun + 1 else 0, blocked := false
      holdTicks := if y.state.busy then y.holdTicks else y.holdTicks - 1 })
    let qual := decide (max 1 (s.fld (F.STP_HBACK_STALL_FILT n)) ≤ (s1.axis n).stallRun)
    let s2 := match x.state with
      | .moving => if qual then s1.axStall n else if x.halt then s1.axDrop n 2 else s1.axMove n
      | .stopping => if qual then (s1.axDrop n 2).modAxis n (fun y => { y with blocked := true }) else s1.axSlow n
      | .homing => if x.halt then (s1.setFlag (F.STP_STATUS_HOME_FAIL n)).axDrop n 6 else s1.axHome n hm (ix && !x.idxWas) qual
      | _ => s1
    ((s.axisStep n hm ix st).axis n).state = (s2.axis n).state ∧ ((s.axisStep n hm ix st).axis n).pFrac = (s2.axis n).pFrac
    ∧ ((s.axisStep n hm ix st).axis n).vMilli = (s2.axis n).vMilli ∧ ((s.axisStep n hm ix st).axis n).rem = (s2.axis n).rem := by
  intro x s1 qual s2
  have e : s.axisStep n hm ix st = (s2.modAxis n (fun z => { z with
    k := if decide (x.pos / 256 ≠ (s2.axis n).pos / 256) then z.kNext else z.k, kNext := s2.axK n z.vMilli.natAbs 8 z.kNext })).axDrive n := rfl
  rw [e]
  have := axDrive_at (s2.modAxis n (fun z => { z with
    k := if decide (x.pos / 256 ≠ (s2.axis n).pos / 256) then z.kNext else z.k, kNext := s2.axK n z.vMilli.natAbs 8 z.kNext })) n h
  rw [modAxis_at _ _ _ h] at this
  exact this

theorem step1_at (s : State) (n : Nat) (ix st : Bool) (h : n < 16) : (s.modAxis n (fun y => { y with
      idxWas := ix, stallRun := if st then y.stallRun + 1 else 0, blocked := false
      holdTicks := if y.state.busy then y.holdTicks else y.holdTicks - 1 })).axis n = { s.axis n with
      idxWas := ix, stallRun := if st then (s.axis n).stallRun + 1 else 0, blocked := false
      holdTicks := if (s.axis n).state.busy then (s.axis n).holdTicks else (s.axis n).holdTicks - 1 } := modAxis_at _ _ _ h

theorem divRound_mul (k p : Int) (hk : 0 < k) : divRound (k * p) k = p := by
  unfold divRound
  rw [if_neg (by omega)]
  split
  · rw [show 2 * (k * p) + k = k + (2 * k) * p by ring, Int.add_mul_ediv_left _ _ (by omega), Int.ediv_eq_zero_of_lt (by omega) (by omega), Int.zero_add]
  · rw [show 2 * -(k * p) + k = k + (2 * k) * (-p) by ring, Int.add_mul_ediv_left _ _ (by omega), Int.ediv_eq_zero_of_lt (by omega) (by omega)]
    omega

theorem herm (tt : Nat) (p0 v0 p1 v1 : Int) (h : 0 < tt) : hermiteP 0 tt p0 v0 p1 v1 = p0 ∧ hermiteP tt tt p0 v0 p1 v1 = p1
        ∧ hermiteV 0 tt p0 v0 p1 v1 = 1000 * v0 ∧ hermiteV tt tt p0 v0 p1 v1 = 1000 * v1 := by
  have hp1 : 0 < (tt : Int) ^ 3 := Int.pow_pos (by omega)
  have hp3 : 0 < 1000000 * (tt : Int) ^ 3 := by omega
  refine ⟨?_, ?_, ?_, ?_⟩
  · unfold hermiteP
    dsimp only
    rw [show (1000000 * ((2 * ((0 : Nat) : Int) ^ 3 - 3 * ((0 : Nat) : Int) ^ 2 * (tt : Int) + (tt : Int) ^ 3) * p0 + (3 * ((0 : Nat) : Int) ^ 2 * tt - 2 * ((0 : Nat) : Int) ^ 3) * p1)
      + tt * ((((0 : Nat) : Int) ^ 3 - 2 * ((0 : Nat) : Int) ^ 2 * tt + ((0 : Nat) : Int) * (tt : Int) ^ 2) * v0 + (((0 : Nat) : Int) ^ 3 - ((0 : Nat) : Int) ^ 2 * tt) * v1)) = (1000000 * (tt : Int) ^ 3) * p0 by rw [Int.natCast_zero]; ring]
    exact divRound_mul _ _ hp3
  · unfold hermiteP
    dsimp only
    rw [show (1000000 * ((2 * (tt : Int) ^ 3 - 3 * (tt : Int) ^ 2 * (tt : Int) + (tt : Int) ^ 3) * p0 + (3 * (tt : Int) ^ 2 * tt - 2 * (tt : Int) ^ 3) * p1)
      + tt * (((tt : Int) ^ 3 - 2 * (tt : Int) ^ 2 * tt + (tt : Int) * (tt : Int) ^ 2) * v0 + ((tt : Int) ^ 3 - (tt : Int) ^ 2 * tt) * v1)) = (1000000 * (tt : Int) ^ 3) * p1 by ring]
    exact divRound_mul _ _ hp3
  · unfold hermiteV
    dsimp only
    rw [show (1000 * (1000000 * (6 * ((0 : Nat) : Int) ^ 2 - 6 * ((0 : Nat) : Int) * tt) * (p0 - p1)
    + tt * ((3 * ((0 : Nat) : Int) ^ 2 - 4 * ((0 : Nat) : Int) * tt + (tt : Int) ^ 2) * v0 + (3 * ((0 : Nat) : Int) ^ 2 - 2 * ((0 : Nat) : Int) * tt) * v1))) = (tt : Int) ^ 3 * (1000 * v0) by rw [Int.natCast_zero]; ring]
    exact divRound_mul _ _ hp1
  · unfold hermiteV
    dsimp only
    rw [show (1000 * (1000000 * (6 * (tt : Int) ^ 2 - 6 * (tt : Int) * tt) * (p0 - p1)
    + tt * ((3 * (tt : Int) ^ 2 - 4 * (tt : Int) * tt + (tt : Int) ^ 2) * v0 + (3 * (tt : Int) ^ 2 - 2 * (tt : Int) * tt) * v1))) = (tt : Int) ^ 3 * (1000 * v1) by ring]
    exact divRound_mul _ _ hp1

end Sys2Proof.Laws.Axes
end

