-- ==== Sys2Proof/Laws/Codec.lean ====
section
/-!
SUPPORT. Blocks the encoder emits, and the state an engine keeps.
-/
namespace Sys2Proof.Laws.Codec

open Sys2Proof.Machine
open Sys2Proof.Laws.Writes

theorem crcBit_lt (c : Nat) (h : c < 2 ^ 32) : crcBit c < 2 ^ 32 := by
  unfold crcBit
  split
  · exact Nat.xor_lt_two_pow (by omega) (by decide)
  · omega

theorem crcByte_lt (c : Nat) (b : Byte) (h : c < 2 ^ 32) : crcByte c b < 2 ^ 32 := by
  unfold crcByte
  have : c ^^^ b.toNat < 2 ^ 32 := Nat.xor_lt_two_pow h (by have := b.isLt; omega)
  exact crcBit_lt _ (crcBit_lt _ (crcBit_lt _ (crcBit_lt _ (crcBit_lt _ (crcBit_lt _ (crcBit_lt _ (crcBit_lt _ this)))))))

theorem crc_lt (l : List Byte) : crc32c l < 2 ^ 32 := by
  unfold crc32c
  refine Nat.xor_lt_two_pow ?_ (by decide)
  have : ∀ (l : List Byte) c, c < 2 ^ 32 → l.foldl crcByte c < 2 ^ 32 := by
    intro l
    induction l with
    | nil => intro c h; exact h
    | cons b r ih => intro c h; rw [List.foldl_cons]; exact ih _ (crcByte_lt _ _ h)
  exact this l _ (by decide)

theorem len_nib (l : List Byte) : (nibblesOf l).length = 2 * l.length := by
  induction l with
  | nil => rfl
  | cons b r ih => unfold nibblesOf; rw [List.length_cons, List.length_cons, ih, List.length_cons]; omega

theorem pack_nib (l : List Byte) : packNibbles (nibblesOf l) = l := by
  induction l with
  | nil => rfl
  | cons b r ih =>
    unfold nibblesOf packNibbles
    rw [ih]
    congr 1
    apply BitVec.eq_of_toNat_eq
    rw [BitVec.toNat_ofNat]
    have := b.isLt
    omega

theorem hdr_parts (raw last hist flush : Bool) (a b c : Nat) (rest : List Byte) (ha : a < 2 ^ 32) (hb : b < 2 ^ 32) (hc : c < 2 ^ 32) :
    let l := BlkHdr.bytes raw last hist flush a b c
    (l ++ rest).take 16 = l ∧ (l ++ rest).drop 16 = rest ∧ l.length = 16
    ∧ BlkHdr.ofBytes l = { magic := 0xA7, raw := raw, last := last, hist := hist, flush := flush, rsvd := 0, ver := 1, inLen := a, outLen := b, crc := c } := by
  intro l
  have hl : l.length = 16 := by
    show (BlkHdr.bytes raw last hist flush a b c).length = 16
    unfold BlkHdr.bytes
    simp [leBytes_length]
  refine ⟨?_, ?_, hl, ?_⟩
  · rw [List.take_append_of_le_length (by omega), List.take_of_length_le (by omega)]
  · rw [List.drop_append, List.drop_of_length_le (by omega), hl]; rfl
  · show BlkHdr.ofBytes (BlkHdr.bytes raw last hist flush a b c) = _
    have ea := ofLe_leBytes 4 a
    have eb := ofLe_leBytes 4 b
    have ec := ofLe_leBytes 4 c
    have la := leBytes_length 4 a
    have lb := leBytes_length 4 b
    have lc := leBytes_length 4 c
    unfold BlkHdr.bytes BlkHdr.ofBytes
    generalize leBytes 4 a = xa at *
    generalize leBytes 4 b = xb at *
    generalize leBytes 4 c = xc at *
    match xa, la with
    | [a0, a1, a2, a3], _ =>
    match xb, lb with
    | [b0, b1, b2, b3], _ =>
    match xc, lc with
    | [c0, c1, c2, c3], _ =>
    replace ea := ea.trans (Nat.mod_eq_of_lt (Nat.lt_of_lt_of_eq ha (by decide : 2 ^ 32 = 256 ^ 4)))
    replace eb := eb.trans (Nat.mod_eq_of_lt (Nat.lt_of_lt_of_eq hb (by decide : 2 ^ 32 = 256 ^ 4)))
    replace ec := ec.trans (Nat.mod_eq_of_lt (Nat.lt_of_lt_of_eq hc (by decide : 2 ^ 32 = 256 ^ 4)))
    rw [← ea, ← eb, ← ec]
    have e1 : ∀ N : Nat, leBytes 4 N ++ [a0, a1, a2, a3] ++ [b0, b1, b2, b3] ++ [c0, c1, c2, c3] = [BitVec.ofNat 8 N, BitVec.ofNat 8 (N / 256), BitVec.ofNat 8 (N / 256 / 256), BitVec.ofNat 8 (N / 256 / 256 / 256), a0, a1, a2, a3, b0, b1, b2, b3, c0, c1, c2, c3] := fun N => rfl
    rw [e1]
    dsimp only
    simp only [List.drop, List.take, ofLe, Nat.mul_zero, Nat.add_zero, BitVec.toNat_ofNat]
    cases raw <;> cases last <;> cases hist <;> cases flush <;> rfl

theorem atr_modAtr (s : State) (i : Nat) (f : AtrSt → AtrSt) (hi : i < 8) : vget (s.modAtr i f).atr i = f (vget s.atr i) := vget_vmod_same _ _ hi

theorem sync_atr (s : State) (e : Nat) : (s.atrSync e).atr = s.atr := by unfold State.atrSync; simp only [State.putFlag_frame]

theorem sync_flags (s : State) (e : Nat) : (s.atrSync e).flag (F.ATR_STATUS_BUSY e) = ((vget s.atr e).job.isSome || (vget s.atr e).band.isSome || (vget s.atr e).testing) ∧ (s.atrSync e).flag (F.ATR_STATUS_BAND e) = (vget s.atr e).band.isSome := by
  unfold State.atrSync
  dsimp only
  constructor
  · rw [show ∀ u : State, ∀ b, (u.putFlag (F.ATR_STATUS_BAND e) b).flag (F.ATR_STATUS_BUSY e) = u.flag (F.ATR_STATUS_BUSY e) from fun u b => setFld_flag_apart u _ _ _ (Nat.le_of_ble_eq_true rfl) rfl (by (first | exact Or.inr (Or.inl (Nat.le_of_ble_eq_true rfl)) | exact Or.inr (Or.inr (Nat.le_of_ble_eq_true rfl)) | exact Or.inl (by decide) | (refine Or.inl (show _ + _ ≠ _ + _ from ?_); omega)))]
    rw [State.flag_putFlag _ _ _ (Nat.le_of_ble_eq_true rfl) rfl]; rfl
  · rw [State.flag_putFlag _ _ _ (Nat.le_of_ble_eq_true rfl) rfl]; rfl

theorem outb_read (s : State) (e : Fin 8) : s.busRead (R.ATR_OUTB_LO e.val) = { s.modAtr e.val (fun x => { x with outbHi := BitVec.ofNat 32 (x.outb / 2 ^ 32) }) with
        bus := ⟨false, (vget s.atr e.val).outb % 2 ^ 32⟩ } := by
  have he := e.isLt
  have hk : R.ATR_OUTB_LO e.val = 0x300010 + 0x10000 * e.val := rfl
  have d1 : (0x300010 + 0x10000 * e.val) / 0x10000 = 0x30 + e.val := by omega
  have d2 : (0x300010 + 0x10000 * e.val) % 0x10000 = 0x10 := by omega
  have hp : ∀ e : Fin 8, windowMapped (0x30 + e.val) = true ∧ rcMask (R.ATR_OUTB_LO e.val) = 0 := by decide
  obtain ⟨w1, hrc⟩ := hp e
  have w2 : s.windowPresent (0x30 + e.val) = true := by
    unfold State.windowPresent
    repeat rw [if_neg (by omega)]
    rw [w1]
  have hov : s.readOverlay (0x300010 + 0x10000 * e.val) = (0xFFFFFFFF, (vget s.atr e.val).outb) := by
    unfold State.readOverlay
    simp only [d1, d2]
    repeat rw [if_neg (by omega)]
    rw [if_pos (by omega), show 0x30 + e.val - 0x30 = e.val by omega]
    rfl
  have hw : s.regWord (0x300010 + 0x10000 * e.val) = (vget s.atr e.val).outb % 2 ^ 32 := by
    unfold State.regWord
    rw [hov]
    dsimp only
    have h1 : ∀ x : Nat, x &&& 0xFFFFFFFF = x % 2 ^ 32 := fun x => Nat.and_two_pow_sub_one_eq_mod x 32
    rw [h1, h1]
    have h2 : (s.reg (0x300010 + 0x10000 * e.val)).toNat &&& readMask (0x300010 + 0x10000 * e.val) < 2 ^ 32 :=
      Nat.lt_of_le_of_lt Nat.and_le_left (BitVec.isLt _)
    rw [Nat.mod_eq_of_lt h2]; omega
  have hef : ∀ x, s.readEffect (0x300010 + 0x10000 * e.val) x = s.outbLatch e.val := by
    intro x
    unfold State.readEffect
    rw [hk] at hrc
    simp only [hrc, if_true]
    have a1 : R.SYS_PTIME_LO = 0x40 := rfl
    rw [if_neg (by omega), if_pos (by omega), show (0x300010 + 0x10000 * e.val - 0x300000) / 0x10000 = e.val by omega]
  unfold State.busRead State.regAccess
  rw [hk, d1, if_neg (by simp [w1]), if_neg (by simp [w2]), if_neg (by omega), if_neg (by decide)]
  unfold State.regRead State.answer
  simp only [hw, hef]
  rfl

theorem jobs_any (s : State) (e : Fin 8) (r : Host.Outcome State Fault Refusal) (h : ∀ k < 5, nx (effAtrJob e.val k s) = r) :
    ∀ c ∈ ([.atrDecode e, .atrEncode e, .atrSave e, .atrLoad e, .atrClear e] : List Instr), exec c s = r := by
  intro c hc
  simp only [List.mem_cons, List.not_mem_nil, or_false] at hc
  rcases hc with rfl | rfl | rfl | rfl | rfl
  · exact h 0 (by omega)
  · exact h 1 (by omega)
  · exact h 2 (by omega)
  · exact h 3 (by omega)
  · exact h 4 (by omega)

theorem rows_at (s : State) (e : Fin 8) (k : Nat) (hk : k < 5) (c : Instr) (h : ([.atrDecode e, .atrEncode e, .atrSave e, .atrLoad e, .atrClear e] : List Instr)[k]? = some c) : exec c s = nx (effAtrJob e.val k s) := by
  match k, hk with
  | 0, _ => injection h with h; rw [← h]; rfl
  | 1, _ => injection h with h; rw [← h]; rfl
  | 2, _ => injection h with h; rw [← h]; rfl
  | 3, _ => injection h with h; rw [← h]; rfl
  | 4, _ => injection h with h; rw [← h]; rfl

/-- A field of `k` bytes reads back from where it was put. -/
theorem entLe_at (a b : List Byte) (k v : Nat) (h : v < 256 ^ k) : entLe (a ++ (leBytes k v ++ b)) a.length k = v := by
  unfold entLe
  have h2 := List.take_left (l₁ := leBytes k v) (l₂ := b)
  rw [leBytes_length] at h2
  rw [List.drop_left, h2, ofLe_leBytes, Nat.mod_eq_of_lt h]

theorem packNibbles_length : ∀ (l : List Nat), l.length % 2 = 0 → (packNibbles l).length = l.length / 2
  | [], _ => rfl
  | [_], h => absurd h (by simp)
  | _ :: _ :: r, h => by
    have := packNibbles_length r (by simp only [List.length_cons] at h; omega)
    simp only [packNibbles, List.length_cons, this]
    omega

/-- The first word of a record, read in its parts. -/
theorem entLe_low (v : Nat) (b : List Byte) : entLe (leBytes 4 v ++ b) 0 2 = v % 65536
    ∧ entLe (leBytes 4 v ++ b) 2 1 = v / 65536 % 256 ∧ entLe (leBytes 4 v ++ b) 3 1 = v / 16777216 % 256 := by
  simp only [entLe, leBytes, List.cons_append, List.nil_append, List.drop_zero, List.drop_succ_cons, List.take_succ_cons,
    List.take_zero, ofLe, BitVec.toNat_ofNat]
  omega

/-- R202, R203: a context's own save image has the image's length and passes the image's checks. -/
theorem image_fits (c : AtrCtx) (px : List Nat) (hpx : px = if c.openS then c.window else []) (h2 : px.length % 2 = 0)
    (hw : px.length ≤ windowMax) (hl : c.linePx < 2 ^ 32) : c.image.length = imageBytes ∧ c.imageFits c.image = true := by
  have himg := AtrCtx.image.eq_1 c
  rw [← hpx] at himg
  have hwl : (List.replicate (1048576 - px.length / 2) (0 : Byte) ++ packNibbles px).length = 1048576 := by
    rw [List.length_append, List.length_replicate, packNibbles_length _ h2]
    unfold windowMax at hw
    omega

  generalize c.image = img at *
  generalize List.replicate (1048576 - px.length / 2) (0 : Byte) ++ packNibbles px = win at *
  generalize hf : 0x53A7 + 2 ^ 16 + (b2n c.encode + 2 * b2n c.openS) * 2 ^ 24 = first at *
  generalize hh : leBytes 4 first ++ leBytes 4 c.linePx
    ++ leBytes 4 px.length ++ leBytes 4 c.blksz ++ leBytes 8 c.pos ++ leBytes 4 (crc32c win) = head at *
  have hhl : head.length = 28 := by rw [← hh]; simp
  generalize hz : List.replicate 224 (0 : Byte) = z at *
  have hzl : z.length = 224 := by rw [← hz, List.length_replicate]
  generalize hr : leBytes 4 (crc32c head) ++ z ++ win = rest
  have e1 : img = head ++ rest := by
    rw [himg, ← hr]; simp only [List.append_assoc]
  unfold AtrCtx.imageFits
  rw [e1]
  have h28 : entLe (head ++ rest) 0x1C 4 = crc32c head := by
    rw [← hr, List.append_assoc, ← hhl]
    exact entLe_at head _ 4 _ (crc_lt _)
  have ht : (head ++ rest).take 0x1C = head := by rw [← hhl]; exact List.take_left ..
  have hd : (head ++ rest).drop 256 = win := by
    have : (head ++ (leBytes 4 (crc32c head) ++ z)).length = 256 := by
      rw [List.length_append, List.length_append, hhl, hzl, leBytes_length]
    have e2 : head ++ rest = head ++ (leBytes 4 (crc32c head) ++ z) ++ win := by rw [← hr]; simp only [List.append_assoc]
    rw [e2, ← this]
    exact List.drop_left ..
  have at4 : ∀ (a b : List Byte) n v, head ++ rest = a ++ (leBytes 4 v ++ b) → a.length = n → v < 2 ^ 32 →
      entLe (head ++ rest) n 4 = v := by
    intro a b n v h hn hv
    rw [h, ← hn]
    exact entLe_at a b 4 v hv
  have a24 := at4 (leBytes 4 first ++ leBytes 4 c.linePx ++ leBytes 4 px.length ++ leBytes 4 c.blksz ++ leBytes 8 c.pos) rest 24
    (crc32c win) (by rw [← hh]; simp only [List.append_assoc]) (by simp) (crc_lt _)
  have a8 := at4 (leBytes 4 first ++ leBytes 4 c.linePx) (leBytes 4 c.blksz ++ leBytes 8 c.pos ++ leBytes 4 (crc32c win) ++ rest) 8
    px.length (by rw [← hh]; simp only [List.append_assoc]) (by simp) (by unfold windowMax at hw; omega)
  have a4 := at4 (leBytes 4 first) (leBytes 4 px.length ++ leBytes 4 c.blksz ++ leBytes 8 c.pos ++ leBytes 4 (crc32c win) ++ rest) 4
    c.linePx (by rw [← hh]; simp only [List.append_assoc]) (by simp) hl
  have ef : entLe (head ++ rest) 0 2 = 0x53A7 ∧ entLe (head ++ rest) 2 1 = 1
      ∧ entLe (head ++ rest) 3 1 = b2n c.encode + 2 * b2n c.openS := by
    rw [← hh]
    simp only [List.append_assoc]
    obtain ⟨h0, h2, h3⟩ := entLe_low first (leBytes 4 c.linePx ++ (leBytes 4 px.length ++ (leBytes 4 c.blksz
      ++ (leBytes 8 c.pos ++ (leBytes 4 (crc32c win) ++ rest)))))
    rw [h0, h2, h3, ← hf]
    cases c.encode <;> cases c.openS <;> decide
  rw [h28, ht, hd, a24, a8, a4, ef.1, ef.2.1, ef.2.2]
  have ho : c.openS = false → px.length = 0 := by
    intro h; rw [hpx, h]; rfl
  refine ⟨by rw [← hr]; simp only [List.length_append, hhl, hwl, hzl, leBytes_length, imageBytes], ?_⟩
  cases he : c.encode <;> cases hs : c.openS <;> simp [h2, hw, ho, hs, bit, b2n]

end Sys2Proof.Laws.Codec
end

