-- ==== Sys2Proof/Laws/Dma.lean ====
section
/-!
SUPPORT. The moves of the DMA unit and the memory controller.
-/
namespace Sys2Proof.Laws.Dma

open Sys2Proof.Machine
open Sys2Proof.Laws.Writes

theorem rdBytes_length (s : State) (a n : Nat) : (s.rdBytes a n).length = n := by unfold State.rdBytes; simp

theorem wb_clean (s : State) (a : Nat) (l : List Byte) (h : s.Clean) : (s.wrBytes a l).Clean :=
  ⟨by rw [State.wrBytes_upsets]; exact h.upsets, by rw [State.wrBytes_eq]; exact h.arm⟩

theorem wb_top (s : State) (a : Nat) (l : List Byte) : (s.wrBytes a l).dramTop = s.dramTop := by
  rw [State.wrBytes_eq]; rfl

theorem wb_run (s : State) (a : Nat) (l : List Byte) (n : Nat) : (s.wrBytes a l).dmaRunning n = s.dmaRunning n := by
  rw [State.wrBytes_eq]; rfl

theorem dread (s : State) (a k : Nat) (hc : s.Clean) (hk : 0 < k) (h : a + k ≤ s.dramTop) (hm : a + k ≤ 0x1000000000) :
    s.dmaRead a k = (s, .ok (s.rdBytes a k)) := by
  unfold State.dmaRead State.sysMemRead
  rw [State.region_dram s a (by omega) (by omega)]
  dsimp only
  rw [State.memRead_clean s reqDma a k hc.upsets (State.inMemory_dram s a k hk h hm)]

theorem dwrite (s : State) (a : Nat) (l : List Byte) (hc : s.Clean) (hk : 0 < l.length) (h : a + l.length ≤ s.dramTop) (hm : a + l.length ≤ 0x1000000000) :
    s.dmaWrite a l = (s.wrBytes a l, none) := by
  unfold State.dmaWrite
  rw [State.region_dram s a (by omega) (by omega)]
  dsimp only
  rw [State.memWrite_dram s reqDma a l hc hk h hm]

theorem slice (s : State) (a n i k : Nat) (h : i + k ≤ n) : ((s.rdBytes a n).drop i).take k = s.rdBytes (a + i) k := by
  apply List.ext_getElem
  · simp [rdBytes_length]; omega
  · intro j h1 h2
    simp [State.rdBytes, Nat.add_assoc]

theorem div_step (w x len : Nat) (hw : 0 < w) (h1 : x % w = 0) (h2 : len % w = 0) (h3 : x < len) : x + w ≤ len := by
  obtain ⟨a, ha⟩ := Nat.dvd_of_mod_eq_zero h1
  obtain ⟨b, hb⟩ := Nat.dvd_of_mod_eq_zero h2
  rw [ha, hb] at h3 ⊢
  have := Nat.lt_of_mul_lt_mul_left h3
  calc w * a + w = w * (a + 1) := by rw [Nat.mul_add, Nat.mul_one]
    _ ≤ w * b := Nat.mul_le_mul_left _ this

theorem copy_facts (s : State) (n : Nat) (d : DmaDesc) (hc : s.Clean) (hrun : s.dmaRunning n = true) (h1 : d.dfix = false) (h2 : d.sfix = false)
    (h3 : d.len % dmaWidth d.dw = 0) (h4 : d.len % dmaWidth d.sw = 0) (h5 : d.dst + d.len ≤ s.dramTop) (h6 : d.dst + d.len ≤ 0x1000000000)
    (h7 : d.src + d.len ≤ s.dramTop) (h8 : d.src + d.len ≤ 0x1000000000) (h9 : d.src + d.len ≤ d.dst ∨ d.dst + d.len ≤ d.src) :
    ∀ fuel rd wr, wr ≤ rd → rd ≤ d.len → wr % dmaWidth d.dw = 0 → rd % dmaWidth d.sw = 0 → (d.len - wr) + (d.len - rd) < fuel →
      (s.wrBytes d.dst ((s.rdBytes d.src d.len).take wr)).copyLoop n d rd wr (((s.rdBytes d.src d.len).take rd).drop wr) fuel
        = (s.wrBytes d.dst (s.rdBytes d.src d.len), .moved) := by
  have hW : 0 < dmaWidth d.dw := Nat.two_pow_pos _
  have hV : 0 < dmaWidth d.sw := Nat.two_pow_pos _
  have hB := rdBytes_length s d.src d.len
  intro fuel
  induction fuel with
  | zero => intro rd wr _ _ _ _ h; omega
  | succ fuel ih =>
    intro rd wr g1 g2 g3 g4 g5
    unfold State.copyLoop
    rw [if_neg (by rw [wb_run, hrun]; decide)]
    by_cases hd : d.len ≤ wr
    · rw [if_pos hd, List.take_of_length_le (by omega)]
    · rw [if_neg hd]
      have hl : (((s.rdBytes d.src d.len).take rd).drop wr).length = rd - wr := by
        rw [List.length_drop, List.length_take, hB]; omega
      by_cases hh : dmaWidth d.dw ≤ rd - wr
      · rw [if_pos (by rw [hl]; exact hh)]
        have hlt : ((((s.rdBytes d.src d.len).take rd).drop wr).take (dmaWidth d.dw)).length = dmaWidth d.dw := by
          rw [List.length_take, hl]; omega
        have ha : dmaAddr d.dst d.dfix wr = d.dst + wr := by unfold dmaAddr; rw [h1]; rfl
        rw [ha, dwrite _ _ _ (wb_clean _ _ _ hc) (by omega) (by rw [wb_top, hlt]; omega) (by rw [hlt]; omega)]
        have e1 : (s.wrBytes d.dst ((s.rdBytes d.src d.len).take wr)).wrBytes (d.dst + wr) ((((s.rdBytes d.src d.len).take rd).drop wr).take (dmaWidth d.dw))
            = s.wrBytes d.dst ((s.rdBytes d.src d.len).take (wr + dmaWidth d.dw)) := by
          have hlw : ((s.rdBytes d.src d.len).take wr).length = wr := by rw [List.length_take, hB]; omega
          have := State.wrBytes_append s d.dst ((s.rdBytes d.src d.len).take wr) ((((s.rdBytes d.src d.len).take rd).drop wr).take (dmaWidth d.dw))
          rw [hlw] at this
          rw [← this]
          congr 1
          rw [List.drop_take, List.take_take, Nat.min_eq_left hh]
          rw [List.take_add]
        rw [e1]
        dsimp only
        rw [List.drop_drop]
        exact ih rd (wr + dmaWidth d.dw) (by omega) g2 (by rw [Nat.add_mod_right]; exact g3) g4 (by omega)
      · rw [if_neg (by rw [hl]; exact hh)]
        have s1 := div_step _ _ _ hW g3 h3 (by omega)
        have s2 := div_step _ _ _ hV g4 h4 (by omega)
        have ha : dmaAddr d.src d.sfix rd = d.src + rd := by unfold dmaAddr; rw [h2]; rfl
        rw [ha, dread _ _ _ (wb_clean _ _ _ hc) hV (by rw [wb_top]; omega) (by omega)]
        have e1 : (s.wrBytes d.dst ((s.rdBytes d.src d.len).take wr)).rdBytes (d.src + rd) (dmaWidth d.sw) = ((s.rdBytes d.src d.len).drop rd).take (dmaWidth d.sw) := by
          rw [slice _ _ _ _ _ s2]
          unfold State.rdBytes
          apply List.map_congr_left
          intro j hj
          have := List.mem_range.1 hj
          apply State.rd8_wrBytes_out
          rw [List.length_take, List.length_map, List.length_range]
          omega
        rw [e1]
        dsimp only
        have e2 : ((s.rdBytes d.src d.len).take rd).drop wr ++ ((s.rdBytes d.src d.len).drop rd).take (dmaWidth d.sw) = ((s.rdBytes d.src d.len).take (rd + dmaWidth d.sw)).drop wr := by
          rw [List.take_add, List.drop_append_of_le_length (by rw [List.length_take, hB]; omega)]
        rw [e2]
        exact ih (rd + dmaWidth d.sw) wr (by omega) (by omega) g3 (by rw [Nat.add_mod_right]; exact g4) (by omega)

def pat (d : DmaDesc) (m : Nat) : List Byte := (List.range m).map (fun k => BitVec.ofNat 8 (d.src / 256 ^ (k % 2 ^ d.dw % 8)))

theorem leBytes_get (k n j : Nat) (h : j < k) : (leBytes k n)[j]? = some (BitVec.ofNat 8 (n / 256 ^ j)) := by
  induction k generalizing n j with
  | zero => omega
  | succ k ih =>
    unfold leBytes
    cases j with
    | zero => simp
    | succ j =>
      rw [List.getElem?_cons_succ, ih _ _ (by omega), Nat.div_div_eq_div_mul, Nat.pow_succ, Nat.mul_comm]

theorem unit_eq (d : DmaDesc) (h : d.dw ≤ 4) (wr : Nat) (hw : wr % dmaWidth d.dw = 0) :
    pat d (wr + dmaWidth d.dw) = pat d wr ++ (leBytes 8 d.src ++ leBytes 8 d.src).take (dmaWidth d.dw) := by
  have hW : dmaWidth d.dw ≤ 16 := by unfold dmaWidth; exact Nat.pow_le_pow_right (by decide) h
  unfold pat
  rw [List.range_add, List.map_append]
  congr 1
  apply List.ext_getElem?
  intro j
  by_cases hj : j < dmaWidth d.dw
  · have hm : (wr + j) % 2 ^ d.dw = j := by
      show (wr + j) % dmaWidth d.dw = j
      rw [Nat.add_mod, hw, Nat.zero_add, Nat.mod_mod, Nat.mod_eq_of_lt hj]
    rw [List.getElem?_take_of_lt hj]
    simp only [List.getElem?_map, List.getElem?_range hj, Option.map_some, hm]
    by_cases h8 : j < 8
    · rw [List.getElem?_append_left (by rw [leBytes_length]; exact h8), leBytes_get _ _ _ h8, Nat.mod_eq_of_lt h8]
    · rw [List.getElem?_append_right (by rw [leBytes_length]; omega), leBytes_length, leBytes_get _ _ _ (by omega)]
      rw [show j % 8 = j - 8 by omega]
  · rw [List.getElem?_eq_none (by simp; omega), List.getElem?_eq_none (by rw [List.length_take]; omega)]

theorem fill_facts (s : State) (n : Nat) (d : DmaDesc) (hc : s.Clean) (hrun : s.dmaRunning n = true) (h1 : d.dfix = false) (h2 : d.dw ≤ 4)
    (h3 : d.len % dmaWidth d.dw = 0) (h5 : d.dst + d.len ≤ s.dramTop) (h6 : d.dst + d.len ≤ 0x1000000000) :
    ∀ fuel wr, wr ≤ d.len → wr % dmaWidth d.dw = 0 → (d.len - wr) < fuel →
      (s.wrBytes d.dst (pat d wr)).fillLoop n d wr fuel = (s.wrBytes d.dst (pat d d.len), .moved) := by
  have hW : 0 < dmaWidth d.dw := Nat.two_pow_pos _
  have hW16 : dmaWidth d.dw ≤ 16 := by unfold dmaWidth; exact Nat.pow_le_pow_right (by decide) h2
  intro fuel
  induction fuel with
  | zero => intro wr _ _ h; omega
  | succ fuel ih =>
    intro wr g1 g3 g5
    unfold State.fillLoop
    rw [if_neg (by rw [wb_run, hrun]; decide)]
    by_cases hd : d.len ≤ wr
    · rw [if_pos hd, show wr = d.len by omega]
    · rw [if_neg hd]
      have s1 := div_step _ _ _ hW g3 h3 (by omega)
      have hlt : ((leBytes 8 d.src ++ leBytes 8 d.src).take (dmaWidth d.dw)).length = dmaWidth d.dw := by
        rw [List.length_take, List.length_append, leBytes_length]; omega
      have ha : dmaAddr d.dst d.dfix wr = d.dst + wr := by unfold dmaAddr; rw [h1]; rfl
      rw [ha, dwrite _ _ _ (wb_clean _ _ _ hc) (by omega) (by rw [wb_top, hlt]; omega) (by rw [hlt]; omega)]
      have hlp : (pat d wr).length = wr := by unfold pat; simp
      have := State.wrBytes_append s d.dst (pat d wr) ((leBytes 8 d.src ++ leBytes 8 d.src).take (dmaWidth d.dw))
      rw [hlp, ← unit_eq d h2 wr g3] at this
      rw [← this]
      exact ih (wr + dmaWidth d.dw) (by omega) (by rw [Nat.add_mod_right]; exact g3) (by omega)

theorem get_filter {α : Type} (t : Tab α) (p : Nat → Bool) (k : Nat) : Tab.get (t.filter (fun e => p e.1)) k = if p k then Tab.get t k else none := by
  induction t with
  | nil => simp [Tab.get]
  | cons e r ih =>
    obtain ⟨j, v⟩ := e
    rw [List.filter_cons]
    by_cases hp : p j = true
    · rw [if_pos hp]
      unfold Tab.get
      by_cases hk : j = k
      · subst hk; simp [hp]
      · simp only [hk, if_false]; exact ih
    · rw [if_neg hp, ih]
      by_cases hk : j = k
      · subst hk; simp [hp]
      · have : Tab.get ((j, v) :: r) k = Tab.get r k := by
          show (if j = k then some v else Tab.get r k) = _
          rw [if_neg hk]
        rw [this]

theorem arm_spec : (findReg (R.MEM_INJ_CTRL / 0x10000) (R.MEM_INJ_CTRL % 0x10000)).any (fun r => r.fields.contains ⟨0, 2, .rw, false, 1⟩ && r.fields.contains ⟨2, 1, .w1s, false, 0⟩) = true := by decide

theorem or_bit (a b : Nat) (ha : a < 2 ^ 1) (hb : b < 2 ^ 1) : ((a ||| b) == 1) = ((a == 1) || (b == 1)) := by
  rcases (show a = 0 ∨ a = 1 by omega) with rfl | rfl <;> rcases (show b = 0 ∨ b = 1 by omega) with rfl | rfl <;> rfl

theorem fill_flag (u : State) (a : List Host.Cell) (b : Tab Nat) (c : MemSt) (d : PwrSt) (f : Fld) : State.flag { u with mem := a, upsets := b, memst := c, pwr := d } f = u.flag f := rfl

theorem ctrlWrite (s : State) (ch : Fin 64) (v : Word) (h : s.isOpen 0x01 ch.val = true) : s.dmaCtrlWrite ch.val v = effDmaCtrl ch.val v s := by
  unfold State.dmaCtrlWrite wrDma
  have := ch.isLt
  have e1 : (0x1008 + 0x20 * ch.val - 0x1000) / 0x20 = ch.val := by omega
  have e2 : (0x1008 + 0x20 * ch.val) % 0x20 = 8 := by omega
  simp only [e1, e2]
  rw [if_neg (by rintro (x | x | x); omega; omega; rw [h] at x; cases x)]

theorem get_mod (s : State) (n : Nat) (c : DmaCh) (f : DmaCh → DmaCh) (h : Tab.get s.dmas n = some c) : Tab.get (s.modDma n f).dmas n = some (f c) := by
  unfold State.modDma
  rw [Tab.get_upd_same, h]; rfl

theorem notify_dmas (s : State) (c n b : Nat) : (s.notify c n b).dmas = s.dmas := by simp only [State.notify_frame]

theorem dread1 (s : State) (a : Nat) (hc : s.upsets = []) (h : a < s.dramTop) (hm : a < 0x1000000000) :
    s.dmaRead a 1 = (s, .ok [s.rd8 a]) := by
  unfold State.dmaRead State.sysMemRead
  rw [State.region_dram s a h hm]
  dsimp only
  rw [State.memRead_clean s reqDma a 1 hc (State.inMemory_dram s a 1 (by omega) (by omega) (by omega))]
  rfl

end Sys2Proof.Laws.Dma
end

