-- ==== Sys2Proof/Laws/Drive.lean ====
section
/-!
SUPPORT. Motors and half-bridges.
-/
namespace Sys2Proof.Laws.Drive

open Sys2Proof.Machine
open Sys2Proof.Laws.Writes

theorem switchOff_mots (s : State) (k : Nat) (hi : Bool) : (s.switchOff k hi).mots = s.mots := by
  unfold State.switchOff
  split <;> simp only [State.clrFlag_frame, State.modHb_frame]

theorem hbApply_mots (s : State) (k : Nat) : (s.hbApply k).mots = s.mots := by
  unfold State.hbApply
  dsimp only
  have g (x : State) (f) : (x.modHb k f).mots = x.mots := by simp only [State.modHb_frame]
  rw [g]
  split <;> split <;> simp only [switchOff_mots]

/-- What a motor's outputs become is all that a change of them leaves in the motors (R321). -/
theorem motSync_mots (s : State) (n : Nat) : (s.motSync n).mots = (vmod s.mots n (fun m => { m with
    outs := Vector.ofFn (fun i : Fin 3 => m.outs[i].follow (m.phaseCmd i) s.now) })) := by
  unfold State.motSync
  exact each_keeps (fun t => t.mots) _ _ _ (fun t k => hbApply_mots t k)

/-- Motor `n` after it takes the state `m`: its outputs follow. -/
theorem modSync_mot (s : State) (n : Nat) (f : MotSt → MotSt) (hn : n < 16) :
    ∃ o, vget ((s.modMot n f).motSync n).mots n = { f (vget s.mots n) with outs := o } := by
  rw [motSync_mots, vget_vmod_same _ _ hn]
  have : vget (s.modMot n f).mots n = f (vget s.mots n) := vget_vmod_same _ _ hn
  rw [this]
  exact ⟨_, rfl⟩

/-- A motor that enters a state, but for a spindle that leaves RUN (R319, R332). -/
theorem motState_mots (s : State) (n : Nat) (st : MotState) (f : MotSt → MotSt) (hn : n < 16)
    (h : n < 4 ∨ 8 ≤ n ∨ (vget s.mots n).state ≠ .run ∨ st = .run) :
    ∃ o, vget (s.motState n st f).mots n = { f { vget s.mots n with state := st, cmdSince := none } with outs := o } := by
  obtain ⟨o, e⟩ := modSync_mot s n (fun m => f { m with state := st, cmdSince := none }) hn
  refine ⟨o, ?_⟩
  unfold State.motState
  dsimp only
  rw [if_neg (by rintro ⟨a, b, c, d⟩; rcases h with h | h | h | h; omega; omega; exact h a; exact b h)]
  split
  · exact e
  · exact e

theorem motPwm_run (s : State) (n : Nat) (hn : n < 16) (h : (vget s.mots n).state = .run) :
    (vget (s.motPwm n).mots n).duty ≤ s.fld (F.MOT_VLIM_VLIM n) ∧
        (vget (s.motPwm n).mots n).target = slewTarget (vget s.mots n).target (1000000 * s.cmdSpeed n)
            ((vget s.mots n).accel * 16000 / max 1 (s.fld (F.MOT_CFG_PWM_KHZ n)))
        ∧ (s.motPwm n).flag (F.MOT_STATUS_ATSPEED n) = decide (((s.measSpeed n : Int) - s.cmdSpeed n).natAbs * 10000
            ≤ s.fld (F.MOT_VLIM_TOL n) * s.cmdSpeed n) := by
  unfold State.motPwm
  extract_lets m cmd khz target meas err integ want vlim held s1 s2 at_ s3
  rw [if_neg (fun hh => hh h)]
  obtain ⟨o, e1⟩ : ∃ o, vget s1.mots n = { m with
      target := target, duty := (clampInt 0 vlim want).toNat, integ := if held then m.integ else integ, outs := o } :=
    modSync_mot s n _ hn
  have e2 : s2.mots = s1.mots := by
    show (if _ then _ else _ : State).mots = _
    split
    · simp only [State.raise_frame, State.notify_frame]
    · rfl
  have e3 : s3.mots = s2.mots := by
    show (if _ then _ else _ : State).mots = _
    split
    · simp only [State.notify_frame]
    · rfl
  have e4 : ((s3.putFlag (F.MOT_STATUS_VLIMIT n) held).putFlag (F.MOT_STATUS_ATSPEED n) at_).mots = s1.mots := by
    simp only [State.putFlag_frame]
    rw [e3, e2]
  rw [e4, e1]
  refine ⟨?_, rfl, State.flag_putFlag _ _ _ (Nat.le_of_ble_eq_true rfl) rfl⟩
  show (clampInt 0 vlim want).toNat ≤ _
  have : clampInt 0 vlim want ≤ vlim := by unfold clampInt; have : 0 ≤ vlim := Int.natCast_nonneg _; omega
  omega

/-! ### What follows press time -/

/-- Everything that the sources of half-bridges change when press time passes: motors, half-bridges, and the registers
that show a half-bridge. -/
def OnlyBridges (s t : State) : Prop :=
  t = { s with regs := t.regs, mots := t.mots, hbs := t.hbs }
    ∧ ∀ j, (∀ k, j ≠ R.GDR_HB_STATUS k) → t.reg j = s.reg j

theorem OnlyBridges.trans {s t u : State} (h : OnlyBridges s t) (g : OnlyBridges t u) : OnlyBridges s u := by
  refine ⟨?_, fun j hj => (g.2 j hj).trans (h.2 j hj)⟩
  rw [g.1, h.1]

theorem switchOff_only (s : State) (k : Nat) (hi : Bool) : OnlyBridges s (s.switchOff k hi) := by
  unfold State.switchOff
  split <;> exact ⟨rfl, fun j hj => State.reg_setReg_ne _ _ (hj k)⟩

theorem each_only {β : Type} (l : List β) (f : State → β → State) (h : ∀ t x, OnlyBridges t (f t x)) (s : State) :
    OnlyBridges s (s.each l f) := by
  unfold State.each
  induction l generalizing s with
  | nil => exact ⟨rfl, fun _ _ => rfl⟩
  | cons x r ih => exact (h s x).trans (ih _)

theorem hbApply_only (s : State) (k : Nat) : OnlyBridges s (s.hbApply k) := by
  have g : ∀ (x : State) f, OnlyBridges x (x.modHb k f) := fun _ _ => ⟨rfl, fun _ _ => rfl⟩
  have r : ∀ x : State, OnlyBridges x x := fun _ => ⟨rfl, fun _ _ => rfl⟩
  unfold State.hbApply
  dsimp only
  refine OnlyBridges.trans ?_ (g _ _)
  split
  · split
    · exact (switchOff_only _ _ _).trans (switchOff_only _ _ _)
    · exact switchOff_only _ _ _
  · split
    · exact switchOff_only _ _ _
    · exact r _

theorem motSync_only (s : State) (n : Nat) : OnlyBridges s (s.motSync n) :=
  OnlyBridges.trans ⟨rfl, fun _ _ => rfl⟩ (each_only _ _ hbApply_only _)

theorem powerEdges_only (s : State) : OnlyBridges s s.powerEdges := by
  have r : ∀ x : State, OnlyBridges x x := fun _ => ⟨rfl, fun _ _ => rfl⟩
  refine OnlyBridges.trans (each_only _ _ (fun t n => ?_) s) (each_only _ _ (fun t k => ?_) _)
  · split
    · exact motSync_only _ _
    · exact r _
  · split
    · exact hbApply_only _ _
    · exact r _

theorem nopm (s : State) (m : Fin 16) (f : State → State) (h : s.hasMot m.val = true) (e : f s = s) : nx (s.onUnit (s.hasMot m.val) f) = nx s := by
  rw [onUnit_present _ _ _ h, e]

theorem gn (y : State) (o i b : Nat) : (y.notify o i b).mots = y.mots := by simp only [State.notify_frame]

theorem modHb_flag (s : State) (k : Nat) (f : HbSt → HbSt) (g : Fld) : (s.modHb k f).flag g = s.flag g := rfl

theorem modHb_fld (s : State) (k : Nat) (f : HbSt → HbSt) (g : Fld) : (s.modHb k f).fld g = s.fld g := rfl

theorem hbOff_flags (s : State) (k : Nat) : (s.hbOff k).flag (F.GDR_HB_STATUS_HION k) = false ∧ (s.hbOff k).flag (F.GDR_HB_STATUS_LOON k) = false := by
  unfold State.hbOff
  generalize h : s.switchOff k true = t
  have h1 : t.flag (F.GDR_HB_STATUS_HION k) = false := by
    rw [← h]; unfold State.switchOff
    rw [if_pos rfl, modHb_flag]
    exact State.flag_clrFlag _ _ (Nat.le_of_ble_eq_true rfl) rfl
  unfold State.switchOff
  rw [if_neg (by decide), modHb_flag, modHb_flag]
  refine ⟨?_, State.flag_clrFlag _ _ (Nat.le_of_ble_eq_true rfl) rfl⟩
  exact (setFld_flag_apart _ _ _ _ (Nat.le_of_ble_eq_true rfl) rfl (by (first | exact Or.inr (Or.inl (Nat.le_of_ble_eq_true rfl)) | exact Or.inr (Or.inr (Nat.le_of_ble_eq_true rfl)) | exact Or.inl (by decide) | (refine Or.inl (show _ + _ ≠ _ + _ from ?_); omega)))).trans h1

theorem smp_flag (s : State) (k : Nat) (p : HbPins) (g : Fld) (hw : g.width = 1) (h1 : (F.GDR_HB_STATUS_GOFFH k).apart g) (h2 : (F.GDR_HB_STATUS_GOFFL k).apart g)
    (h3 : (F.GDR_HB_STATUS_HSG k).apart g) : (s.hbSample k p).flag g = s.flag g := by
  unfold State.hbSample
  rw [modHb_flag]
  unfold State.putFlag
  rw [setFld_flag_apart _ _ _ _ (Nat.le_of_ble_eq_true rfl) hw h3, setFld_flag_apart _ _ _ _ (Nat.le_of_ble_eq_true rfl) hw h2, setFld_flag_apart _ _ _ _ (Nat.le_of_ble_eq_true rfl) hw h1]

theorem smp_fld (s : State) (k : Nat) (p : HbPins) (g : Fld) (h1 : (F.GDR_HB_STATUS_GOFFH k).apart g) (h2 : (F.GDR_HB_STATUS_GOFFL k).apart g)
    (h3 : (F.GDR_HB_STATUS_HSG k).apart g) : (s.hbSample k p).fld g = s.fld g := by
  unfold State.hbSample
  rw [modHb_fld]
  unfold State.putFlag
  rw [State.fld_setFld_apart _ _ _ _ (Nat.le_of_ble_eq_true rfl) h3, State.fld_setFld_apart _ _ _ _ (Nat.le_of_ble_eq_true rfl) h2, State.fld_setFld_apart _ _ _ _ (Nat.le_of_ble_eq_true rfl) h1]

end Sys2Proof.Laws.Drive
end

