-- ==== Sys2Proof/Laws/Faults.lean ====
section
/-!
SUPPORT. Reactions and the fault block.
-/
namespace Sys2Proof.Laws.Faults

open Sys2Proof.Machine
open Sys2Proof.Laws.Writes

theorem wt (x : State) (f : State → State) : x.when true f = f x := rfl

theorem wf (x : State) (f : State → State) : x.when false f = x := rfl

theorem bit_lsb (w : Word) (k : Nat) : w.getLsbD k = bit w.toNat k := (getLsbD_bits w k).trans (bit_eq_bits _ _).symm

theorem react_eq (s : State) (set : Nat) : s.react set =
   (let tko := bit set 4 && s.isActive
    let s0 := s.when tko State.reactTakeover
    let s1 := s0.when (bit set 0) (·.setFlag F.FLT_PINS_BLANKED)
    let s2 := s1.when ((bit set 0 || bit set 1) && !tko) (·.reactSpoil (bit set 0))
    let s3 := s2.when (bit set 2) State.safeStop
    s3.when (bit set 3) (fun t => t.drydown 6 0 0 tko)) := rfl

theorem fld_setReg64 (s : State) (a b n : Nat) (f : Fld) (h1 : f.key ≠ a) (h2 : f.key ≠ b) : (s.setReg64 a b n).fld f = s.fld f := by
  unfold State.setReg64 State.fld
  rw [State.reg_setReg_ne _ _ h2, State.reg_setReg_ne _ _ h1]

theorem flag_setReg64 (s : State) (a b n : Nat) (f : Fld) (h1 : f.key ≠ a) (h2 : f.key ≠ b) : (s.setReg64 a b n).flag f = s.flag f := by
  rw [State.flag_eq, State.flag_eq]
  exact congrArg (· == 1) (fld_setReg64 s a b n { f with width := 1 } h1 h2)

theorem react0 (s : State) (k : Nat) (h : bit k 4 = false) : s.react k = (((s.when (bit k 0) (·.setFlag F.FLT_PINS_BLANKED)).when ((bit k 0 || bit k 1)) (·.reactSpoil (bit k 0))).when (bit k 2) State.safeStop).when (bit k 3) (fun t => t.drydown 6 0 0 false) := by
  rw [react_eq]
  dsimp only
  rw [h]
  simp only [Bool.false_and, Bool.not_false, Bool.and_true, wf]

theorem react16 (s : State) (k : Nat) (h : bit k 4 = true) (h0 : bit k 0 = false) (h2 : bit k 2 = false) (h3 : bit k 3 = false) (ha : s.isActive = true) :
    s.react k = s.giveUp := by
  rw [react_eq]
  dsimp only
  rw [h, h0, h2, h3, ha]
  simp only [Bool.and_self, Bool.not_true, Bool.and_false, wf, wt]
  unfold State.reactTakeover
  rw [if_pos ha]

theorem react16n (s : State) (ha : s.isActive = false) :
    s.react 16 = s := by
  rw [react_eq]
  dsimp only
  rw [ha, show bit 16 0 = false from rfl, show bit 16 1 = false from rfl, show bit 16 2 = false from rfl, show bit 16 3 = false from rfl]
  simp only [Bool.and_false, wf, Bool.or_self, Bool.false_and]

theorem wd (s : State) : ∃ t : State, ((s.setFlag F.FLT_PINS_WDOG_EXP).raise 17).unhealthy = t ∧ t.flag F.FLT_PINS_WDOG_EXP = true ∧ t.flag F.FLT_CTRL_HEALTHY = false
        ∧ t.flt.raised = s.flt.raised ++ [17] := by
  refine ⟨_, rfl, ?_, State.flag_clrFlag _ _ (Nat.le_of_ble_eq_true rfl) rfl, rfl⟩
  refine (setFld_flag_apart _ F.FLT_CTRL_HEALTHY F.FLT_PINS_WDOG_EXP _ (Nat.le_of_ble_eq_true rfl) rfl (by (first | exact Or.inr (Or.inl (Nat.le_of_ble_eq_true rfl)) | exact Or.inr (Or.inr (Nat.le_of_ble_eq_true rfl)) | exact Or.inl (by decide) | (refine Or.inl (show _ + _ ≠ _ + _ from ?_); omega)))).trans ?_
  exact State.flag_setFlag s _ (Nat.le_of_ble_eq_true rfl) rfl

end Sys2Proof.Laws.Faults
end

