-- ==== Sys2Proof/Laws/Gate.lean ====
section
/-!
SUPPORT. What judging the sectors of a write pass leaves alone: the servo ports, and every register of the windows from
the servo ports' on.
-/
namespace Sys2Proof.Laws.Gate

open Sys2Proof.Machine

/-- The servo ports and every register from their windows on agree. -/
structure Same (s t : State) : Prop where
  ports : t.ports = s.ports
  reg : ∀ k, 0x480000 ≤ k → t.reg k = s.reg k

theorem same_refl (s : State) : Same s s := ⟨rfl, fun _ _ => rfl⟩

theorem same_of {s t : State} (p : t.ports = s.ports) (q : t.regs = s.regs) (f : t.fuses = s.fuses) : Same s t :=
  ⟨p, fun k _ => by unfold State.reg; rw [q, f]⟩

theorem same_trans {s t u : State} (a : Same s t) (b : Same t u) : Same s u :=
  ⟨b.ports.trans a.ports, fun k h => (b.reg k h).trans (a.reg k h)⟩

theorem same_setReg (s : State) (j : Nat) (v : Word) (h : j < 0x480000) : Same s (s.setReg j v) :=
  ⟨rfl, fun k hk => State.reg_setReg_ne s v (by omega)⟩

theorem same_setFld (s : State) (f : Fld) (v : Nat) (h : f.key < 0x480000) : Same s (s.setFld f v) := same_setReg s _ _ h

theorem same_addSat (s : State) (f : Fld) (n : Nat) (h : f.key < 0x480000) : Same s (s.addSat f n) := same_setReg s _ _ h

theorem same_raise (s : State) (n : Nat) : Same s (s.raise n) := ⟨rfl, fun _ _ => rfl⟩

theorem same_raiseIf (s : State) (b : Bool) (n : Nat) : Same s (s.raiseIf b n) := by
  cases b
  · exact same_refl s
  · exact same_raise s n

theorem same_dsk (s : State) (d : Nat) (f : DskSt → DskSt) : Same s (s.modDsk d f) := ⟨rfl, fun _ _ => rfl⟩

theorem same_stq (s : State) (f : StqSt → StqSt) : Same s (s.modStq f) := ⟨rfl, fun _ _ => rfl⟩

theorem same_dramUe (s : State) (req a : Nat) : Same s (s.dramUe req a) := by
  unfold State.dramUe
  refine same_trans ?_ (same_raiseIf _ _ _)
  refine same_trans ?_ (same_raise _ _)
  have h1 : Same s (s.addSat F.MEM_UE_INFO_COUNT 1) := same_addSat _ _ _ (Nat.le_of_ble_eq_true rfl)
  split
  · exact h1
  · refine same_trans h1 (same_trans ?_ (same_setFld _ _ _ (Nat.le_of_ble_eq_true rfl)))
    refine same_trans ?_ (same_setFld _ _ _ (Nat.le_of_ble_eq_true rfl))
    refine same_trans ?_ (same_setFld _ _ _ (Nat.le_of_ble_eq_true rfl))
    exact same_trans (same_setReg _ _ _ (Nat.le_of_ble_eq_true rfl)) (same_setReg _ _ _ (Nat.le_of_ble_eq_true rfl))

theorem same_ceRate (s : State) : Same s s.rateCheck := by
  unfold State.rateCheck
  split
  · exact same_refl s
  · split
    · exact same_trans (t := { s with memst := { s.memst with winTripped := true } }) (same_of rfl rfl rfl)
        (same_trans (same_setFld _ F.MEM_STATUS_RATE_TRIP 1 (Nat.le_of_ble_eq_true rfl)) (same_raise _ _))
    · exact same_refl s

theorem same_dramCe (s : State) (a k : Nat) : Same s (s.dramCe a k) := by
  unfold State.dramCe
  refine same_trans (t := (s.addSat (if k = 1 then F.MEM_CE_CNT_ONE (bits a 8 2) else F.MEM_CE_CNT_TWO (bits a 8 2)) 1).raise 200) ?_ ?_
  · refine same_trans (same_addSat _ _ _ ?_) (same_raise _ _)
    have : bits a 8 2 < 4 := Nat.mod_lt _ (by decide)
    split
    · show R.MEM_CE_CNT (bits a 8 2) < 0x480000; unfold R.MEM_CE_CNT; omega
    · show R.MEM_CE_CNT (bits a 8 2) < 0x480000; unfold R.MEM_CE_CNT; omega
  · refine same_trans ?_ (same_ceRate _)
    exact same_of rfl rfl rfl

/-- Bytes written to memory. -/
theorem same_wr (s : State) (a : Nat) (l : List Byte) : Same s (s.wrBytes a l) := by
  induction l generalizing s a with
  | nil => exact same_refl s
  | cons b r ih => exact same_trans (t := s.wr8 a b) (same_of rfl rfl rfl) (ih _ _)

theorem same_localUe (s : State) (n off : Nat) (b : Bool) (h : n < 24) : Same s (s.localUe n off b) := by
  have hk : R.CRS_ECC_ADDR n < 0x480000 := by unfold R.CRS_ECC_ADDR; omega
  unfold State.localUe
  refine same_trans ?_ (same_raise _ _)
  split
  · exact same_refl s
  · exact same_trans (same_trans (same_setFld _ _ _ hk) (same_setFld _ _ _ hk)) (same_setFld _ _ _ hk)

theorem region_lt (s : State) (a n : Nat) (h : s.region a = .iram n ∨ s.region a = .dataRam n) : n < 24 := by
  unfold State.region at h
  by_cases h1 : a < mramBase
  · rw [if_pos h1] at h
    by_cases h2 : a < s.dramTop
    · rw [if_pos h2] at h; rcases h with h | h <;> cases h
    · rw [if_neg h2] at h; rcases h with h | h <;> cases h
  rw [if_neg h1] at h
  by_cases h2 : a < mramBase + 0x80000
  · rw [if_pos h2] at h; rcases h with h | h <;> cases h
  rw [if_neg h2] at h
  by_cases h3 : a < ramBase
  · rw [if_pos h3] at h; rcases h with h | h <;> cases h
  rw [if_neg h3] at h
  by_cases h4 : a < ramBase + 24 * 0x20000
  · have e : (a - ramBase) / 0x20000 < 24 := by
      have : a - ramBase < 0x20000 * 24 := by omega
      exact Nat.div_lt_of_lt_mul this
    rw [if_pos h4] at h
    by_cases h5 : (a - ramBase) % 0x20000 < 0x10000
    · rw [if_pos h5] at h
      rcases h with h | h
      · rw [← Region.iram.inj h]; exact e
      · cases h
    · rw [if_neg h5] at h
      rcases h with h | h
      · cases h
      · rw [← Region.dataRam.inj h]; exact e
  rw [if_neg h4] at h
  split at h
  · rcases h with h | h <;> cases h
  · split at h
    · rcases h with h | h <;> cases h
    · rcases h with h | h <;> cases h

theorem same_eccMeet (s : State) (req a p : Nat) : Same s (s.eccMeet req a p).1 := by
  have clean : ∀ t : Tab Nat, Same s { s with upsets := t } := fun _ => same_of rfl rfl rfl
  have miss : ∀ (t : Tab Nat) x n v, Same s (({ s with upsets := t } : State).wrLe x n v) := fun u x n v => same_trans (t := { s with upsets := u }) (same_of rfl rfl rfl) (same_wr _ _ _)
  unfold State.eccMeet
  cases hr : s.region a with
  | dram =>
    dsimp only
    cases eccDram (s.rdLe a 8) p with
    | good => exact clean _
    | corrected k => exact same_trans (clean _) (same_dramCe _ _ _)
    | wrong f b => cases b <;> first | exact miss _ _ _ _ | exact same_trans (miss _ _ _ _) (same_dramCe _ _ _)
    | uncorrectable => exact same_dramUe _ _ _
  | mram =>
    dsimp only
    cases eccDram (s.rdLe a 8) p with
    | good => exact clean _
    | corrected k => exact clean _
    | wrong f b => exact miss _ _ _ _
    | uncorrectable => exact same_raise _ _
  | iram n =>
    have hn := region_lt s a n (Or.inl hr)
    dsimp only
    cases eccLocal p with
    | good => exact clean _
    | corrected k => exact same_trans (clean _) (same_addSat _ _ _ (by show R.CRS_ECC_CNT n < _; unfold R.CRS_ECC_CNT; omega))
    | wrong f b => exact miss _ _ _ _
    | uncorrectable => exact same_localUe _ _ _ _ hn
  | dataRam n =>
    have hn := region_lt s a n (Or.inr hr)
    dsimp only
    cases eccLocal p with
    | good => exact clean _
    | corrected k => exact same_trans (clean _) (same_addSat _ _ _ (by show R.CRS_ECC_CNT n < _; unfold R.CRS_ECC_CNT; omega))
    | wrong f b => exact miss _ _ _ _
    | uncorrectable => exact same_localUe _ _ _ _ hn
  | regs => exact same_refl s
  | unmapped => exact same_refl s

theorem same_eccRange (s : State) (req a n : Nat) : Same s (s.eccRange req a n).1 := by
  have H : ∀ (l : Tab Nat) (r : State × Option Nat), Same s r.1 → Same s (l.foldl
      (fun r e => match State.eccMeet r.1 req e.1 e.2 with
        | (t, bad) => (t, if bad then (match r.2 with | none => some e.1 | some x => some x) else r.2)) r).1 := by
    intro l
    induction l with
    | nil => intro r h; exact h
    | cons e q ih => intro r h; rw [List.foldl_cons]; exact ih _ (same_trans h (same_eccMeet r.1 req e.1 e.2))
  exact H _ (s, none) (same_refl s)

/-- A memory read changes neither a servo port nor a register of the later windows. -/
theorem same_memRead (s : State) (req a n : Nat) : Same s (s.memRead req a n).1 := by
  unfold State.memRead
  split
  · exact same_refl s
  · have := same_eccRange s req a n
    generalize s.eccRange req a n = x at this ⊢
    obtain ⟨t, o⟩ := x
    cases o <;> exact this

theorem same_each {β : Type} (s : State) (l : List β) (f : State → β → State) (h : ∀ t x, Same t (f t x)) : Same s (s.each l f) := by
  unfold State.each
  induction l generalizing s with
  | nil => exact same_refl s
  | cons x r ih => exact same_trans (h s x) (ih _)

theorem same_torn (s : State) (d : Nat) (h : d < 8) : Same s (s.tornRefresh d) := by
  unfold State.tornRefresh
  refine same_trans (same_trans (same_setFld _ _ _ ?_) (same_setFld _ _ _ ?_)) (same_raiseIf _ _ _)
  · show R.DSK_TORN d < 0x480000; unfold R.DSK_TORN; omega
  · show R.DSK_STATUS d < 0x480000; unfold R.DSK_STATUS; omega

theorem same_sector (s : State) (d sector cyl cblk : Nat) (b : Bool) (l : List Byte) : Same s (s.writeSector d sector cyl cblk b l) :=
  same_dsk _ _ _

theorem same_copy (s : State) (r : State × MemRead) (e : Staged) (d sector cyl cblk : Nat) (h : Same s r.1) :
    Same s (State.writeCopy r e d sector cyl cblk) := by
  obtain ⟨t, r⟩ := r
  unfold State.writeCopy
  cases r with
  | data l => exact same_trans h (same_trans (same_sector t _ _ _ _ _ _) (same_stq _ _))
  | unmapped => exact same_trans h (same_trans (same_trans (same_trans (same_sector t _ _ _ _ _ _) (same_stq _ _)) (same_stq _ _)) (same_raise _ _))
  | ecc x => exact same_trans h (same_trans (same_trans (same_trans (same_sector t _ _ _ _ _ _) (same_stq _ _)) (same_stq _ _)) (same_raise _ _))

theorem same_staged (s : State) (d sector cyl cblk : Nat) : Same s (s.writeStaged1 d sector cyl cblk) := by
  unfold State.writeStaged1
  cases s.stq.staged.find? (fun e => s.volLoaded e.vol && s.volMap e.vol e.vblk == (d, cblk)) with
  | none => exact same_refl s
  | some e => exact same_copy s _ e _ _ _ _ (same_memRead s _ _ _)

/-- Judging the sectors of a write pass changes neither a servo port nor a register of the later windows. -/
theorem same_resolve (s : State) (d : Nat) (h : d < 8) : Same s (s.resolveWrites d) := by
  unfold State.resolveWrites
  split
  · exact same_refl s
  · refine same_each _ _ _ (fun t w => ?_)
    split
    · exact same_refl t
    · split
      · exact same_refl t
      · dsimp only
        split
        · unfold State.intentDone
          refine same_trans (t := if w.form then _ else _) ?_ (same_trans (same_dsk _ _ _) (same_torn _ _ h))
          split
          · exact same_trans (same_dsk t d _) (same_trans (same_sector _ _ _ _ _ _ _) (same_dsk _ _ _))
          · exact same_trans (same_dsk t d _) (same_staged _ _ _ _ _)
        · exact same_dsk t d _

/-- Nor does the cut of the sector in progress. -/
theorem same_cut (s : State) (d : Nat) (h : d < 8) : Same s (s.cutSector d) := by
  unfold State.cutSector
  refine same_trans (same_resolve s d h) ?_
  dsimp only
  split
  · exact same_refl _
  · exact same_trans (same_dsk _ _ _) (same_addSat _ _ _ (by show R.DSK_CUTS d < _; unfold R.DSK_CUTS; omega))

end Sys2Proof.Laws.Gate
end

