-- ==== Sys2Proof/Laws/HeadLink.lean ====
section
/-!
SUPPORT. The exposure link: training steps, its failure and loss.
-/
namespace Sys2Proof.Laws.HeadLink

open Sys2Proof.Machine
open Sys2Proof.Laws.Writes

theorem elk_modElk (s : State) (i : Nat) (f : ElkSt → ElkSt) (hi : i < 4) : vget (s.modElk i f).elk i = f (vget s.elk i) := vget_vmod_same _ _ hi

theorem modElk_st (s : State) (i : Nat) (f : ElkSt → ElkSt) : (s.modElk i f).elkState i = s.elkState i := rfl

theorem modElk_fld (s : State) (i : Nat) (f : ElkSt → ElkSt) (g : Fld) : (s.modElk i f).fld g = s.fld g := rfl

theorem modElk_flag (s : State) (i : Nat) (f : ElkSt → ElkSt) (g : Fld) : (s.modElk i f).flag g = s.flag g := rfl

theorem elkPages_facts {α : Type} (g : State → α) (s : State) (i : Nat) (h : ∀ t a b c d e, g (State.spoilPage t a b c d e) = g t) (h2 : ∀ t i c, g (State.spoilStation t i c) = g t) : g (s.elkPages i) = g s := by
  unfold State.elkPages
  rw [h2]
  exact each_keeps g _ _ _ (fun t x => h _ _ _ _ _ _)

theorem st_elkSet (s : State) (i st : Nat) (hi : i < 4) (h : st < 8) : (s.setElkState i st).elkState i = st := by
  unfold State.setElkState State.elkState State.putFlag
  have hf : ∀ i : Fin 4, (F.ELK_STATUS_TRAINED i.val).ok ∧ (F.ELK_STATUS_TRAINED i.val).apart (F.ELK_STATUS_STATE i.val) ∧ (F.ELK_STATUS_STATE i.val).ok := by decide
  have := hf ⟨i, hi⟩
  show (((s.setFld (F.ELK_STATUS_STATE i) st).setFld (F.ELK_STATUS_TRAINED i) (b2n (st == 7)))).fld (F.ELK_STATUS_STATE i) = st
  rw [State.fld_setFld_apart _ _ _ _ this.1 this.2.1, State.fld_setFld_same _ _ _ this.2.2]
  show st % 8 = st
  omega

theorem abandon_facts (s : State) (i : Nat) (hi : i < 4) : (s.abandonCommit i).elkState i = s.elkState i ∧ (s.abandonCommit i).elk = s.elk ∧ (s.abandonCommit i).fld (F.ELK_STATUS_FAILSTEP i) = s.fld (F.ELK_STATUS_FAILSTEP i) ∧ (s.abandonCommit i).flag (F.ELK_STATUS_LOST i) = s.flag (F.ELK_STATUS_LOST i) ∧ (∀ x ∈ s.flt.raised, x ∈ (s.abandonCommit i).flt.raised) ∧ (s.abandonCommit i).fld (F.ELK_CNT_ATTEMPTS i) = s.fld (F.ELK_CNT_ATTEMPTS i) := by
  unfold State.abandonCommit
  split
  · exact ⟨rfl, rfl, rfl, rfl, fun x h => h, rfl⟩
  · have key : ∀ u : State, u = (s.setFld (F.EXP_FSTAT_LOAD_ERR i) (b2n true)).setFld (F.EXP_FSTAT_STAGE i) 0 → ((u.raise (98 + 4 * i)).elkState i = s.elkState i ∧ (u.raise (98 + 4 * i)).elk = s.elk ∧ (u.raise (98 + 4 * i)).fld (F.ELK_STATUS_FAILSTEP i) = s.fld (F.ELK_STATUS_FAILSTEP i) ∧ (u.raise (98 + 4 * i)).flag (F.ELK_STATUS_LOST i) = s.flag (F.ELK_STATUS_LOST i) ∧ (∀ x ∈ s.flt.raised, x ∈ (u.raise (98 + 4 * i)).flt.raised) ∧ (u.raise (98 + 4 * i)).fld (F.ELK_CNT_ATTEMPTS i) = s.fld (F.ELK_CNT_ATTEMPTS i)) := by
      intro u hu
      have ok1 : (F.EXP_FSTAT_STAGE i).ok := Nat.le_of_ble_eq_true rfl
      have ok2 : (F.EXP_FSTAT_LOAD_ERR i).ok := Nat.le_of_ble_eq_true rfl
      refine ⟨?_, by rw [hu]; rfl, ?_, ?_, fun x h => raise_mem_of _ _ _ (by rw [hu]; exact h), ?_⟩
      · show u.fld (F.ELK_STATUS_STATE i) = s.fld (F.ELK_STATUS_STATE i)
        rw [hu, State.fld_setFld_apart _ _ _ _ ok1 (by (first | exact Or.inr (Or.inl (Nat.le_of_ble_eq_true rfl)) | exact Or.inr (Or.inr (Nat.le_of_ble_eq_true rfl)) | exact Or.inl (by decide) | (refine Or.inl (show _ + _ ≠ _ + _ from ?_); omega))), State.fld_setFld_apart _ _ _ _ ok2 (by (first | exact Or.inr (Or.inl (Nat.le_of_ble_eq_true rfl)) | exact Or.inr (Or.inr (Nat.le_of_ble_eq_true rfl)) | exact Or.inl (by decide) | (refine Or.inl (show _ + _ ≠ _ + _ from ?_); omega)))]
      · show u.fld _ = _
        rw [hu, State.fld_setFld_apart _ _ _ _ ok1 (by (first | exact Or.inr (Or.inl (Nat.le_of_ble_eq_true rfl)) | exact Or.inr (Or.inr (Nat.le_of_ble_eq_true rfl)) | exact Or.inl (by decide) | (refine Or.inl (show _ + _ ≠ _ + _ from ?_); omega))), State.fld_setFld_apart _ _ _ _ ok2 (by (first | exact Or.inr (Or.inl (Nat.le_of_ble_eq_true rfl)) | exact Or.inr (Or.inr (Nat.le_of_ble_eq_true rfl)) | exact Or.inl (by decide) | (refine Or.inl (show _ + _ ≠ _ + _ from ?_); omega)))]
      · show u.flag _ = _
        have a1 : (F.EXP_FSTAT_STAGE i).apart (F.ELK_STATUS_LOST i) := by (first | exact Or.inr (Or.inl (Nat.le_of_ble_eq_true rfl)) | exact Or.inr (Or.inr (Nat.le_of_ble_eq_true rfl)) | exact Or.inl (by decide) | (refine Or.inl (show _ + _ ≠ _ + _ from ?_); omega))
        have a2 : (F.EXP_FSTAT_LOAD_ERR i).apart (F.ELK_STATUS_LOST i) := by (first | exact Or.inr (Or.inl (Nat.le_of_ble_eq_true rfl)) | exact Or.inr (Or.inr (Nat.le_of_ble_eq_true rfl)) | exact Or.inl (by decide) | (refine Or.inl (show _ + _ ≠ _ + _ from ?_); omega))
        rw [hu, setFld_flag_apart _ _ _ _ ok1 rfl a1, setFld_flag_apart _ _ _ _ ok2 rfl a2]
      · show u.fld _ = _
        rw [hu, State.fld_setFld_apart _ _ _ _ ok1 (by (first | exact Or.inr (Or.inl (Nat.le_of_ble_eq_true rfl)) | exact Or.inr (Or.inr (Nat.le_of_ble_eq_true rfl)) | exact Or.inl (by decide) | (refine Or.inl (show _ + _ ≠ _ + _ from ?_); omega))), State.fld_setFld_apart _ _ _ _ ok2 (by (first | exact Or.inr (Or.inl (Nat.le_of_ble_eq_true rfl)) | exact Or.inr (Or.inr (Nat.le_of_ble_eq_true rfl)) | exact Or.inl (by decide) | (refine Or.inl (show _ + _ ≠ _ + _ from ?_); omega)))]
    exact key _ rfl

theorem setElk_flds (s : State) (i st : Nat) (hi : i < 4) : (s.setElkState i st).fld (F.ELK_STATUS_FAILSTEP i) = s.fld (F.ELK_STATUS_FAILSTEP i) ∧ (s.setElkState i st).flag (F.ELK_STATUS_LOST i) = s.flag (F.ELK_STATUS_LOST i) ∧ (s.setElkState i st).fld (F.ELK_CNT_ATTEMPTS i) = s.fld (F.ELK_CNT_ATTEMPTS i) ∧ (s.setElkState i st).fld (F.EXP_FSTAT_STAGE i) = s.fld (F.EXP_FSTAT_STAGE i) := by
  have ok1 : (F.ELK_STATUS_TRAINED i).ok := Nat.le_of_ble_eq_true rfl
  have ok2 : (F.ELK_STATUS_STATE i).ok := Nat.le_of_ble_eq_true rfl
  unfold State.setElkState State.putFlag
  rw [modElk_fld, modElk_flag, modElk_fld, modElk_fld]
  refine ⟨?_, ?_, ?_, ?_⟩
  · rw [State.fld_setFld_apart _ _ _ _ ok1 (by (first | exact Or.inr (Or.inl (Nat.le_of_ble_eq_true rfl)) | exact Or.inr (Or.inr (Nat.le_of_ble_eq_true rfl)) | exact Or.inl (by decide) | (refine Or.inl (show _ + _ ≠ _ + _ from ?_); omega))), State.fld_setFld_apart _ _ _ _ ok2 (by (first | exact Or.inr (Or.inl (Nat.le_of_ble_eq_true rfl)) | exact Or.inr (Or.inr (Nat.le_of_ble_eq_true rfl)) | exact Or.inl (by decide) | (refine Or.inl (show _ + _ ≠ _ + _ from ?_); omega)))]
  · have a1 : (F.ELK_STATUS_TRAINED i).apart (F.ELK_STATUS_LOST i) := by (first | exact Or.inr (Or.inl (Nat.le_of_ble_eq_true rfl)) | exact Or.inr (Or.inr (Nat.le_of_ble_eq_true rfl)) | exact Or.inl (by decide) | (refine Or.inl (show _ + _ ≠ _ + _ from ?_); omega))
    have a2 : (F.ELK_STATUS_STATE i).apart (F.ELK_STATUS_LOST i) := by (first | exact Or.inr (Or.inl (Nat.le_of_ble_eq_true rfl)) | exact Or.inr (Or.inr (Nat.le_of_ble_eq_true rfl)) | exact Or.inl (by decide) | (refine Or.inl (show _ + _ ≠ _ + _ from ?_); omega))
    rw [setFld_flag_apart _ _ _ _ ok1 rfl a1, setFld_flag_apart _ _ _ _ ok2 rfl a2]
  · rw [State.fld_setFld_apart _ _ _ _ ok1 (by (first | exact Or.inr (Or.inl (Nat.le_of_ble_eq_true rfl)) | exact Or.inr (Or.inr (Nat.le_of_ble_eq_true rfl)) | exact Or.inl (by decide) | (refine Or.inl (show _ + _ ≠ _ + _ from ?_); omega))), State.fld_setFld_apart _ _ _ _ ok2 (by (first | exact Or.inr (Or.inl (Nat.le_of_ble_eq_true rfl)) | exact Or.inr (Or.inr (Nat.le_of_ble_eq_true rfl)) | exact Or.inl (by decide) | (refine Or.inl (show _ + _ ≠ _ + _ from ?_); omega)))]
  · rw [State.fld_setFld_apart _ _ _ _ ok1 (by (first | exact Or.inr (Or.inl (Nat.le_of_ble_eq_true rfl)) | exact Or.inr (Or.inr (Nat.le_of_ble_eq_true rfl)) | exact Or.inl (by decide) | (refine Or.inl (show _ + _ ≠ _ + _ from ?_); omega))), State.fld_setFld_apart _ _ _ _ ok2 (by (first | exact Or.inr (Or.inl (Nat.le_of_ble_eq_true rfl)) | exact Or.inr (Or.inr (Nat.le_of_ble_eq_true rfl)) | exact Or.inl (by decide) | (refine Or.inl (show _ + _ ≠ _ + _ from ?_); omega)))]

theorem elkDown_facts (s : State) (i : Nat) (fl : Option Nat) (hi : i < 4) :
    (s.elkDown i fl).elkState i = 0 ∧ (vget (s.elkDown i fl).elk i).credits = 0 ∧ (vget (s.elkDown i fl).elk i).out = [] ∧ (vget (s.elkDown i fl).elk i).failedAt = fl
    ∧ (s.elkDown i fl).fld (F.ELK_STATUS_FAILSTEP i) = s.fld (F.ELK_STATUS_FAILSTEP i) ∧ (s.elkDown i fl).flag (F.ELK_STATUS_LOST i) = s.flag (F.ELK_STATUS_LOST i) ∧ (∀ x ∈ s.flt.raised, x ∈ (s.elkDown i fl).flt.raised)
    ∧ (s.elkDown i fl).fld (F.ELK_CNT_ATTEMPTS i) = s.fld (F.ELK_CNT_ATTEMPTS i) := by
  unfold State.elkDown
  have c := setElk_flds s i 0 hi
  have d := st_elkSet s i 0 hi (by decide)
  have e : (s.setElkState i 0).flt = s.flt := by unfold State.setElkState; simp only [State.modElk_frame, State.putFlag_frame, State.setFld_frame]
  generalize s.setElkState i 0 = u at c d e ⊢
  have m := elk_modElk u i (fun k => { k with
    credits := 0, queue := [], out := [], frames := [], resend := [], nackRun := 0, echoes := []
    fsm := none, tableQueued := false, seq := 0, nextBlock := 0, nextGroup := 0, failedAt := fl }) hi
  have n : ∀ f : ElkSt → ElkSt, (u.modElk i f).regs = u.regs ∧ (u.modElk i f).fuses = u.fuses ∧ (u.modElk i f).flt = u.flt := fun _ => ⟨rfl, rfl, rfl⟩
  have n' := n (fun k => { k with
    credits := 0, queue := [], out := [], frames := [], resend := [], nackRun := 0, echoes := []
    fsm := none, tableQueued := false, seq := 0, nextBlock := 0, nextGroup := 0, failedAt := fl })
  generalize u.modElk i _ = v at m n' ⊢
  have o : ∀ f : LacSt → LacSt, (v.modLac i f).elk = v.elk ∧ (v.modLac i f).regs = v.regs ∧ (v.modLac i f).fuses = v.fuses ∧ (v.modLac i f).flt = v.flt := fun _ => ⟨rfl, rfl, rfl, rfl⟩
  have o' := o (fun c => { c with formed := [] })
  generalize v.modLac i _ = w at o' ⊢
  obtain ⟨a1, a2, a3, a4, a5, a6⟩ := abandon_facts w i hi
  obtain ⟨p1, p2, p3, p4⟩ := o'
  obtain ⟨q1, q2, q3⟩ := n'
  have rg : ∀ k, w.reg k = u.reg k := by intro k; unfold State.reg; rw [p2, p3, q1, q2]
  have fl2 : ∀ g, w.fld g = u.fld g := by intro g; unfold State.fld; rw [rg]
  have fg : ∀ g, w.flag g = u.flag g := by intro g; unfold State.flag; rw [rg]
  rw [a1, a2, a3, a4, a6, p1, m]
  unfold State.elkState at d ⊢
  rw [fl2, fl2, fl2, fg]
  exact ⟨d, rfl, rfl, rfl, c.1, c.2.1, fun x hx => a5 x (by rw [p4, q3, e]; exact hx), c.2.2.1⟩

theorem elkStart_facts (s : State) (i : Nat) (hi : i < 4) : (s.elkStart i).elkState i = 1 ∧ vget (s.elkStart i).elk i = { vget s.elk i with stepAt := s.now } ∧ (s.elkStart i).fld (F.ELK_CNT_ATTEMPTS i) = min 255 (s.fld (F.ELK_CNT_ATTEMPTS i) + 1) := by
  unfold State.elkStart
  have h1 : (F.ELK_CNT_ATTEMPTS i).ok := Nat.le_of_ble_eq_true rfl
  refine ⟨?_, ?_, ?_⟩
  · unfold State.elkState
    have a1 : (F.ELK_CNT_ATTEMPTS i).apart (F.ELK_STATUS_STATE i) := by (first | exact Or.inr (Or.inl (Nat.le_of_ble_eq_true rfl)) | exact Or.inr (Or.inr (Nat.le_of_ble_eq_true rfl)) | exact Or.inl (by decide) | (refine Or.inl (show _ + _ ≠ _ + _ from ?_); omega))
    rw [addSat_fld _ _ _ _ h1 a1]
    exact st_elkSet s i 1 hi (by decide)
  · have : ((s.setElkState i 1).addSat (F.ELK_CNT_ATTEMPTS i) 1).elk = (s.setElkState i 1).elk := by simp only [State.addSat_frame]
    rw [this]
    unfold State.setElkState
    rw [elk_modElk _ _ _ hi]
    rfl
  · unfold State.addSat
    rw [State.fld_setFld_same _ _ _ h1, (setElk_flds s i 1 hi).2.2.1]
    generalize s.fld (F.ELK_CNT_ATTEMPTS i) = n
    have key : ∀ n w, w = 8 → capNat (2 ^ w - 1) (n + 1) % 2 ^ w = min 255 (n + 1) := by
      intro n w hw; rw [hw]; unfold capNat; split <;> omega
    exact key n _ rfl

theorem elkFail_facts (s : State) (i : Nat) (hi : i < 4) : (s.elkFail i).elkState i = 0 ∧ (s.elkFail i).fld (F.ELK_STATUS_FAILSTEP i) = s.elkState i ∧ (vget (s.elkFail i).elk i).failedAt = some s.now ∧ 146 + 4 * i ∈ (s.elkFail i).flt.raised ∧ (s.elkFail i).flag (F.ELK_STATUS_LOST i) = s.flag (F.ELK_STATUS_LOST i) ∧ (vget (s.elkFail i).elk i).credits = 0 := by
  unfold State.elkFail
  have h1 : (F.ELK_STATUS_FAILSTEP i).ok := Nat.le_of_ble_eq_true rfl
  have hlt : s.elkState i < 2 ^ 3 := bits_lt _ _ 3
  generalize hn : s.elkState i = n at *
  generalize hu : s.setFld (F.ELK_STATUS_FAILSTEP i) n = u
  obtain ⟨a1, a2, a3, a4, a5, a6, a7, a8⟩ := elkDown_facts (u.raise (146 + 4 * i)) i (some s.now) hi
  refine ⟨a1, ?_, a4, a7 _ (raise_mem _ _), ?_, a2⟩
  · rw [a5]
    show u.fld _ = _
    rw [← hu, State.fld_setFld_same _ _ _ h1]
    exact Nat.mod_eq_of_lt hlt
  · rw [a6]
    show u.flag _ = _
    have a1 : (F.ELK_STATUS_FAILSTEP i).apart (F.ELK_STATUS_LOST i) := by (first | exact Or.inr (Or.inl (Nat.le_of_ble_eq_true rfl)) | exact Or.inr (Or.inr (Nat.le_of_ble_eq_true rfl)) | exact Or.inl (by decide) | (refine Or.inl (show _ + _ ≠ _ + _ from ?_); omega))
    rw [← hu, setFld_flag_apart _ _ _ _ h1 rfl a1]

theorem spoilPage_keeps {α : Type} (g : State → α) (hg : ∀ t i f, g (State.modPage t i f) = g t) (s : State) (a b c d : Nat) (e : Bool) : g (s.spoilPage a b c d e) = g s := by
  unfold State.spoilPage
  split
  · rfl
  · split
    · rfl
    · exact hg _ _ _

theorem spoilStation_keeps {α : Type} (g : State → α) (hg : ∀ t i f, g (State.modPage t i f) = g t) (s : State) (a b : Nat) : g (s.spoilStation a b) = g s := by
  unfold State.spoilStation
  refine each_keeps g _ _ _ (fun t k => ?_)
  split
  · split
    · exact spoilPage_keeps g hg _ _ _ _ _ _
    · rfl
  · rfl

theorem elkPages_keeps {α : Type} (g : State → α) (hg : ∀ t i f, g (State.modPage t i f) = g t) (s : State) (i : Nat) : g (s.elkPages i) = g s :=
  elkPages_facts g s i (fun _ _ _ _ _ _ => spoilPage_keeps g hg _ _ _ _ _ _) (fun _ _ _ => spoilStation_keeps g hg _ _ _)

theorem elkLose_facts (s : State) (i : Nat) (hi : i < 4) (h0 : s.elkState i ≠ 0) : (s.elkLose i).elkState i = 0 ∧ (s.elkLose i).flag (F.ELK_STATUS_LOST i) = (s.flag (F.ELK_STATUS_LOST i) || s.elkState i == 7) ∧ (if s.elkState i = 7 then 144 + 4 * i else 146 + 4 * i) ∈ (s.elkLose i).flt.raised ∧ (vget (s.elkLose i).elk i).credits = 0 := by
  unfold State.elkLose State.elkTrained
  obtain ⟨b1, b2, b3, b4, b5, b6⟩ := elkFail_facts s i hi
  generalize hn : s.elkState i = n at *
  generalize s.elkFail i = w at *
  by_cases h7 : n = 7
  · rw [if_pos (by rw [h7]; rfl), if_pos h7, h7]
    have okl : (F.ELK_STATUS_LOST i).ok := Nat.le_of_ble_eq_true rfl
    have hf := State.flag_setFlag s (F.ELK_STATUS_LOST i) okl rfl
    generalize s.setFlag (F.ELK_STATUS_LOST i) = u at *
    have hm := raise_mem u (144 + 4 * i)
    have hg : (u.raise (144 + 4 * i)).flag (F.ELK_STATUS_LOST i) = true := hf
    generalize u.raise (144 + 4 * i) = x at *
    have e1 := elkPages_keeps (fun t => t.flag (F.ELK_STATUS_LOST i)) (fun _ _ _ => rfl) x i
    have e2 := elkPages_keeps (fun t => t.flt) (fun _ _ _ => rfl) x i
    generalize x.elkPages i = y at *
    obtain ⟨a1, a2, a3, a4, a5, a6, a7, a8⟩ := elkDown_facts y i (some s.now) hi
    refine ⟨a1, ?_, a7 _ (e2 ▸ hm), a2⟩
    rw [a6, e1, hg]; simp
  · rw [if_neg (by simp [h7]), if_neg h0, if_neg h7]
    exact ⟨b1, by rw [b5]; simp [h7], b4, b6⟩

theorem pump_nil (k : ElkSt) (now n : Nat) (h : k.queue = []) : k.pump now n = k := by
  cases n with
  | zero => rfl
  | succ n => unfold ElkSt.pump; rw [h]

theorem pump_echoes (now n : Nat) : ∀ k : ElkSt, (k.pump now n).echoes = k.echoes := by
  induction n with
  | zero => intro k; rfl
  | succ n ih =>
    intro k
    unfold ElkSt.pump
    split
    · rfl
    · split
      · rw [ih]; rfl
      · rfl

theorem tabs_spec : ∀ i : Fin 4, (findReg (0x24 + i.val) 0x28).any (fun r => r.fields.contains ⟨0, 12, .rw, false, 0⟩) = true := by
  decide

/-- A training step in its time: LOCK and DESKEW go on to the next; IDENT waits for the back channel. -/
theorem trainLow (i : Nat) (s : State) (h1 : 1 ≤ s.elkState i) (h2 : s.elkState i ≤ 2) (h : s.elkLate i = false) :
    effLinkTrainStep i s = s.setElkState i (s.elkState i + 1) := by
  unfold effLinkTrainStep
  generalize State.elkTable = g0
  generalize latency4 = g1
  dsimp only
  rw [if_neg (by rw [h]; rintro ⟨_, _, c⟩; cases c)]
  have : s.elkState i = 1 ∨ s.elkState i = 2 := by omega
  rcases this with x | x <;> (rw [x]; rfl)

theorem trainThree (i : Nat) (s : State) (h1 : s.elkState i = 3) (h : s.elkLate i = false) :
    effLinkTrainStep i s = (s.setElkState i 4).modElk i (fun x => { x with comma := true }) := by
  unfold effLinkTrainStep
  generalize State.elkTable = g0
  generalize latency4 = g1
  dsimp only
  rw [if_neg (by rw [h]; rintro ⟨_, _, c⟩; cases c), h1]
  rfl

theorem trainSix (i : Nat) (s : State) (h1 : s.elkState i = 6) (h2 : (s.lk i).queue = []) (h3 : (s.lk i).out = []) (h : s.elkLate i = false) :
    effLinkTrainStep i s = (s.setElkState i 7).modElk i (fun x => { x with credits := 4096, bank := !x.bank }) := by
  unfold effLinkTrainStep
  generalize State.elkTable = g0
  generalize latency4 = g1
  dsimp only
  rw [if_neg (by rw [h]; rintro ⟨_, _, c⟩; cases c), h1, h2, h3]; rfl

/-- A step past its limit fails. -/
theorem trainLate (i : Nat) (s : State) (h0 : s.elkState i ≠ 0) (h1 : s.elkTrained i = false) (h : s.elkLate i = true) :
    effLinkTrainStep i s = s.elkFail i := by
  unfold effLinkTrainStep
  rw [if_pos ⟨h0, h1, h⟩]

/-- A packet of at most 60 payload bytes comes through its symbols with TYPE and payload when its CRC is right; any other
is not taken. -/
theorem headPacket_symbols (type : Nat) (p : List Byte) (crc : Nat) (ht : type < 256) (hc : crc < 65536) :
    headPacket (headSymbols type p crc) = if p.length ≤ 60 ∧ crc = headCrc type p then some (type, p) else none := by
  have e1 : ((headSymbols type p crc).drop 1).dropLast
      = ((BitVec.ofNat 8 type :: BitVec.ofNat 8 p.length :: p) ++ leBytes 2 crc).map (fun b => (false, b)) := by
    unfold headSymbols
    rw [List.cons_append, List.drop_succ_cons, List.drop_zero, List.dropLast_concat]
  have e2 : (((headSymbols type p crc).drop 1).dropLast).map (·.2)
      = (BitVec.ofNat 8 type :: BitVec.ofNat 8 p.length :: p) ++ leBytes 2 crc := by
    rw [e1, List.map_map]; simp [Function.comp_def]
  have e3 : (((headSymbols type p crc).drop 1).dropLast).all (fun b => !b.1) = true := by rw [e1]; simp
  have e4 : (headSymbols type p crc).head? = some (true, 0xFB#8) := by unfold headSymbols; rfl
  have e5 : (headSymbols type p crc).getLast? = some (true, 0xFD#8) := by
    unfold headSymbols; rw [List.cons_append, ← List.cons_append, List.getLast?_append]; rfl
  have l2 : (leBytes 2 crc).length = 2 := leBytes_length 2 crc
  have tn : (BitVec.ofNat 8 type).toNat = type := by simp; omega
  unfold headPacket
  simp only [e2, e3, e4, e5, true_and]
  simp only [List.cons_append, List.getD_cons_zero, List.getD_cons_succ, List.drop_succ_cons, List.drop_zero, tn, List.length_cons, List.length_append, l2]
  by_cases h : p.length ≤ 60
  · have ln : (BitVec.ofNat 8 p.length).toNat = p.length := by simp; omega
    rw [ln]
    have ev : ofLe (leBytes 2 crc) = crc := by rw [ofLe_leBytes]; omega
    rw [List.take_left' rfl, List.drop_left' rfl, ev]
    by_cases hcrc : crc = headCrc type p
    · rw [if_pos ⟨h, by omega, hcrc⟩, if_pos ⟨h, hcrc⟩]
    · rw [if_neg (fun x => hcrc x.2.2), if_neg (fun x => hcrc x.2)]
  · have ln : (BitVec.ofNat 8 p.length).toNat = p.length % 256 := by simp
    rw [ln, if_neg (by omega), if_neg (fun x => h x.1)]

/-- A packet heard is acted on when its length and CRC are right, and counted as bad otherwise. -/
theorem fromHead_cases (s : State) (i type crc : Nat) (p : List Byte) (f : State → State) (ht : type < 256) (hc : crc < 65536) :
    s.fromHead i type p crc f = if (vget s.elk i).comma = false then s
      else if p.length ≤ 60 ∧ crc = headCrc type p then f s else s.addSat (F.ELK_CNT_BCERR i) 1 := by
  unfold State.fromHead State.elkHears
  rw [headPacket_symbols type p crc ht hc]
  show (if (vget s.elk i).comma = false then s else _) = _
  by_cases h : p.length ≤ 60 ∧ crc = headCrc type p
  · rw [if_pos h, if_pos h]
  · rw [if_neg h, if_neg h]

end Sys2Proof.Laws.HeadLink
end

