-- ==== Sys2Proof/Laws/Interlock.lean ====
section
/-!
SUPPORT. Interlock loops and the panel: what a change of each does.
-/
namespace Sys2Proof.Laws.Interlock

open Sys2Proof.Machine
open Sys2Proof.Laws.Writes

theorem spoilPage_keeps {α : Type} (g : State → α) (hg : ∀ t i f, g (State.modPage t i f) = g t) (s : State) (a b c d : Nat) (e : Bool) : g (s.spoilPage a b c d e) = g s := by
  unfold State.spoilPage
  split
  · rfl
  · split
    · rfl
    · exact hg _ _ _

theorem spoilStation_keeps {α : Type} (g : State → α) (hg : ∀ t i f, g (State.modPage t i f) = g t) (s : State) (a b : Nat) : g (s.spoilStation a b) = g s := by
  unfold State.spoilStation
  refine each_keeps g _ _ _ (fun t k => ?_)
  split
  · split
    · exact spoilPage_keeps g hg _ _ _ _ _ _
    · rfl
  · rfl

theorem ilk_modIlk (s : State) (i : Nat) (f : LoopSt → LoopSt) (hi : i < 4) : vget (s.modIlk i f).ilk i = f (vget s.ilk i) := vget_vmod_same _ _ hi

theorem fld_lt (s : State) (f : Fld) : s.fld f < 2 ^ f.width := bits_lt _ _ _

theorem putBit_lt4 (n i : Nat) (b : Bool) (hn : n < 16) (hi : i < 4) : putBit n i b < 16 := by
  have := setBits_lt n i 1 (b2n b) 4 hn (by omega)
  rw [← putBit_setBits] at this
  exact this

theorem putBitOf_bit (s : State) (f : Fld) (i : Nat) (b : Bool) (hf : f.ok) (hw : f.width = 4) (hi : i < 4) : bit ((s.putBitOf f i b).fld f) i = b := by
  unfold State.putBitOf
  rw [State.fld_setFld_same _ _ _ hf, hw]
  have h1 : putBit (s.fld f) i b % 2 ^ 4 = putBit (s.fld f) i b := Nat.mod_eq_of_lt (putBit_lt4 (s.fld f) i b (by have := fld_lt s f; rw [hw] at this; exact this) hi)
  rw [h1, bit_eq_testBit, putBit_testBit]
  simp

theorem ilkEvent_regs (s : State) (m : Nat) : (s.ilkEvent m).regs = s.regs ∧ (s.ilkEvent m).ilk = s.ilk ∧ (s.ilkEvent m).flt = s.flt ∧ (s.ilkEvent m).panel = s.panel := by
  unfold State.ilkEvent; refine ⟨?_, ?_, ?_, ?_⟩ <;> simp only [State.raiseEv_frame]

theorem ilkEvent_fld (s : State) (m : Nat) (f : Fld) : (s.ilkEvent m).fld f = s.fld f := by
  unfold State.fld State.reg State.ilkEvent; simp only [State.raiseEv_frame]

theorem ilkEvent_flag (s : State) (m : Nat) (f : Fld) : (s.ilkEvent m).flag f = s.flag f := by
  unfold State.flag State.reg State.ilkEvent; simp only [State.raiseEv_frame]

theorem laser_keep (s : State) (i : Nat) : (s.laserUpdate i).ilk = s.ilk ∧ (s.laserUpdate i).fld F.ILK_STATUS_ARMABLE = s.fld F.ILK_STATUS_ARMABLE := by
  unfold State.laserUpdate
  dsimp only
  exact ⟨by simp only [State.setFld_frame], State.fld_setFld_apart _ _ _ _ (Nat.le_of_ble_eq_true rfl) (by (first | exact Or.inr (Or.inl (Nat.le_of_ble_eq_true rfl)) | exact Or.inr (Or.inr (Nat.le_of_ble_eq_true rfl)) | exact Or.inl (by decide) | (refine Or.inl (show _ + _ ≠ _ + _ from ?_); omega)))⟩

theorem follow_keep (u : State) (i : Nat) (hi : i < 4) : (u.loopFollow i).regs = u.regs ∧ (u.loopFollow i).fuses = u.fuses ∧ (u.loopFollow i).flt = u.flt ∧
    (vget (u.loopFollow i).ilk i).armed = (vget u.ilk i).armed ∧
    (vget (u.loopFollow i).ilk i).closedSince = (if bit (u.fld F.ILK_STATUS_LOOPA) i && bit (u.fld F.ILK_STATUS_LOOPB) i then some u.now else none) ∧
    (vget (u.loopFollow i).ilk i).mismatchSince = (if bit (u.fld F.ILK_STATUS_LOOPA) i != bit (u.fld F.ILK_STATUS_LOOPB) i then some u.now else none) := by
  unfold State.loopFollow
  dsimp only
  refine ⟨by simp only [State.modIlk_frame], by simp only [State.modIlk_frame], by simp only [State.modIlk_frame], ?_, ?_, ?_⟩ <;> rw [ilk_modIlk _ _ _ hi]

theorem fld_of (s t : State) (f : Fld) (h : t.regs = s.regs) (h2 : t.fuses = s.fuses) : t.fld f = s.fld f := by
  unfold State.fld State.reg; rw [h, h2]

theorem openTail (w : State) (i : Nat) (hi : i < 4) :
    let t := ((((w.putBitOf F.ILK_STATUS_ARMABLE i false).laserUpdate i).raise (160 + i)).spoilStation i 4).ilkEvent 8
    (vget t.ilk i) = vget w.ilk i ∧ bit (t.fld F.ILK_STATUS_ARMABLE) i = false ∧ 160 + i ∈ t.flt.raised := by
  have hk : (w.putBitOf F.ILK_STATUS_ARMABLE i false).ilk = w.ilk := by unfold State.putBitOf; simp only [State.setFld_frame]
  have hb := putBitOf_bit w F.ILK_STATUS_ARMABLE i false (Nat.le_of_ble_eq_true rfl) rfl hi
  generalize w.putBitOf F.ILK_STATUS_ARMABLE i false = x at *
  obtain ⟨l1, l2⟩ := laser_keep x i
  generalize x.laserUpdate i = y at *
  have hm := raise_mem y (160 + i)
  have hy1 : (y.raise (160 + i)).ilk = x.ilk := l1
  have hy2 : (y.raise (160 + i)).fld F.ILK_STATUS_ARMABLE = x.fld F.ILK_STATUS_ARMABLE := l2
  generalize y.raise (160 + i) = z at *
  have e1 := spoilStation_keeps (fun t => t.ilk) (fun _ _ _ => rfl) z i 4
  have e2 := spoilStation_keeps (fun t => t.fld F.ILK_STATUS_ARMABLE) (fun _ _ _ => rfl) z i 4
  have e3 := spoilStation_keeps (fun t => t.flt) (fun _ _ _ => rfl) z i 4
  generalize z.spoilStation i 4 = q at *
  intro t
  refine ⟨?_, ?_, ?_⟩
  · show vget (q.ilkEvent 8).ilk i = _
    rw [(ilkEvent_regs _ _).2.1]
    rw [show q.ilk = _ from e1, hy1, hk]
  · show bit ((q.ilkEvent 8).fld _) i = _
    rw [ilkEvent_fld]
    rw [show q.fld F.ILK_STATUS_ARMABLE = _ from e2, hy2, hb]
  · show _ ∈ (q.ilkEvent 8).flt.raised
    rw [(ilkEvent_regs _ _).2.2.1]
    rw [show q.flt = _ from e3]; exact hm

theorem open_facts (s : State) (i : Nat) (chB : Bool) (ns : Nat) (hn : 250 ≤ ns) (hi : i < 4) (hs : s.hasStn i = true) (h : bit (s.fld (loopFld chB)) i = true) :
    (vget (effIlkOpen i chB ns s).ilk i).armed = false ∧ bit ((effIlkOpen i chB ns s).fld F.ILK_STATUS_ARMABLE) i = false ∧ (vget (effIlkOpen i chB ns s).ilk i).closedSince = none ∧ 160 + i ∈ (effIlkOpen i chB ns s).flt.raised := by
  have lok : (loopFld chB).ok := by cases chB <;> exact Nat.le_of_ble_eq_true rfl
  have lw : (loopFld chB).width = 4 := by cases chB <;> rfl
  unfold effIlkOpen
  rw [if_neg (by rintro (x | x | x); rw [hs] at x; cases x; rw [h] at x; cases x; omega)]
  have hb := putBitOf_bit s (loopFld chB) i false lok lw hi
  generalize State.putBitOf s _ _ _ = u at *
  obtain ⟨f1, f2, f3, f4, f5, f6⟩ := follow_keep u i hi
  generalize u.loopFollow i = v at *
  dsimp only
  obtain ⟨t1, t2, t3⟩ := openTail (v.modIlk i (fun l => { l with armed := false })) i hi
  rw [t1, ilk_modIlk _ _ _ hi]
  refine ⟨rfl, t2, ?_, t3⟩
  show (vget v.ilk i).closedSince = none
  rw [f5]
  cases chB
  · rw [show bit (u.fld F.ILK_STATUS_LOOPA) i = false from hb]; rfl
  · rw [show bit (u.fld F.ILK_STATUS_LOOPB) i = false from hb, Bool.and_false]; rfl

theorem close_facts (s : State) (i : Nat) (chB : Bool) (hi : i < 4) (hs : s.hasStn i = true) (h : bit (s.fld (loopFld chB)) i = false) :
    let t := effInterlockClose i chB s
    let other := bit (s.fld (loopFld (!chB))) i
    bit (t.fld (loopFld chB)) i = true
        ∧ (vget t.ilk i).armed = (vget s.ilk i).armed
        ∧ (vget t.ilk i).closedSince = (if other then some s.now else none)
        ∧ (vget t.ilk i).mismatchSince = (if other then none else some s.now) := by
  have lok : (loopFld chB).ok := by cases chB <;> exact Nat.le_of_ble_eq_true rfl
  have lw : (loopFld chB).width = 4 := by cases chB <;> rfl
  intro t other
  have ht : t = (s.putBitOf (loopFld chB) i true).loopFollow i := by
    show effInterlockClose i chB s = _
    unfold effInterlockClose
    rw [if_neg (by rintro (x | x); rw [hs] at x; cases x; rw [h] at x; cases x)]
  rw [ht]
  have hb := putBitOf_bit s (loopFld chB) i true lok lw hi
  have ho : bit ((s.putBitOf (loopFld chB) i true).fld (loopFld (!chB))) i = other := by
    unfold State.putBitOf
    rw [State.fld_setFld_apart _ _ _ _ lok (by cases chB <;> (first | exact Or.inr (Or.inl (Nat.le_of_ble_eq_true rfl)) | exact Or.inr (Or.inr (Nat.le_of_ble_eq_true rfl)) | exact Or.inl (by decide) | (refine Or.inl (show _ + _ ≠ _ + _ from ?_); omega)))]
  have hk : (s.putBitOf (loopFld chB) i true).ilk = s.ilk := by unfold State.putBitOf; simp only [State.setFld_frame]
  have hn : (s.putBitOf (loopFld chB) i true).now = s.now := rfl
  generalize State.putBitOf s _ _ _ = u at *
  obtain ⟨f1, f2, f3, f4, f5, f6⟩ := follow_keep u i hi
  rw [f4, f5, f6, hk, hn, fld_of _ _ _ f1 f2]
  refine ⟨hb, rfl, ?_, ?_⟩
  · cases chB
    · rw [show bit (u.fld F.ILK_STATUS_LOOPA) i = true from hb, show bit (u.fld F.ILK_STATUS_LOOPB) i = other from ho]; cases other <;> rfl
    · rw [show bit (u.fld F.ILK_STATUS_LOOPB) i = true from hb, show bit (u.fld F.ILK_STATUS_LOOPA) i = other from ho]; cases other <;> rfl
  · cases chB
    · rw [show bit (u.fld F.ILK_STATUS_LOOPA) i = true from hb, show bit (u.fld F.ILK_STATUS_LOOPB) i = other from ho]; cases other <;> rfl
    · rw [show bit (u.fld F.ILK_STATUS_LOOPB) i = true from hb, show bit (u.fld F.ILK_STATUS_LOOPA) i = other from ho]; cases other <;> rfl

theorem discrep_facts (s : State) (i t0 : Nat) (hi : i < 4) (hs : s.hasStn i = true) (h1 : (vget s.ilk i).mismatchSince = some t0) (h2 : t0 + 50000000 < s.now) :
    let t := effIlkDiscrep i s
    bit (t.fld F.ILK_STATUS_DISCREP) i = true ∧ bit (t.fld F.ILK_STATUS_ARMABLE) i = false ∧ t.flt.raised = s.flt.raised ++ [164 + i] := by
  intro t
  have ht : t = (((s.putBitOf F.ILK_STATUS_DISCREP i true).putBitOf F.ILK_STATUS_ARMABLE i false).modIlk i
        (fun l => { l with mismatchSince := none, bothOpenSeen := false })).raise (164 + i) := by
    show effIlkDiscrep i s = _
    unfold effIlkDiscrep; rw [h1]; dsimp only
    rw [hs, decide_eq_true h2, if_pos (by rfl)]
  rw [ht]
  have hb := putBitOf_bit s F.ILK_STATUS_DISCREP i true (Nat.le_of_ble_eq_true rfl) rfl hi
  have hf : (s.putBitOf F.ILK_STATUS_DISCREP i true).flt = s.flt := by unfold State.putBitOf; simp only [State.setFld_frame]
  generalize s.putBitOf F.ILK_STATUS_DISCREP i true = x at *
  have hb2 := putBitOf_bit x F.ILK_STATUS_ARMABLE i false (Nat.le_of_ble_eq_true rfl) rfl hi
  have hx : (x.putBitOf F.ILK_STATUS_ARMABLE i false).fld F.ILK_STATUS_DISCREP = x.fld F.ILK_STATUS_DISCREP := by
    unfold State.putBitOf; exact State.fld_setFld_apart _ _ _ _ (Nat.le_of_ble_eq_true rfl) (by (first | exact Or.inr (Or.inl (Nat.le_of_ble_eq_true rfl)) | exact Or.inr (Or.inr (Nat.le_of_ble_eq_true rfl)) | exact Or.inl (by decide) | (refine Or.inl (show _ + _ ≠ _ + _ from ?_); omega)))
  have hf2 : (x.putBitOf F.ILK_STATUS_ARMABLE i false).flt = s.flt := by rw [← hf]; unfold State.putBitOf; simp only [State.setFld_frame]
  generalize x.putBitOf F.ILK_STATUS_ARMABLE i false = y at *
  refine ⟨?_, ?_, ?_⟩
  · show bit (y.fld _) i = true
    rw [hx, hb]
  · show bit (y.fld _) i = false
    exact hb2
  · show y.flt.raised ++ _ = _
    rw [hf2]

theorem panel_flag (u : State) (p : PanelSt) (f : Fld) : State.flag { u with panel := p } f = u.flag f := rfl

theorem panel_fld (u : State) (p : PanelSt) (f : Fld) : State.fld { u with panel := p } f = u.fld f := rfl

theorem each_one {β : Type} (s : State) (x : β) (f : State → β → State) : s.each [x] f = f s x := rfl

theorem each_none {β : Type} (s : State) (f : State → β → State) : s.each [] f = s := rfl

theorem press_facts (s : State) (ns : Nat) (hn : 20000000 ≤ ns) (h1 : s.panel.pressAt = none) (h2 : s.pwr.phase = .running) : ∃ t : State, nx (effPbtnPress ns s) = .next t.finish
        ∧ t.flag F.ILK_PANEL_PBTN = true ∧ t.panel.pressAt = some (s.now - ns) := by
  unfold effPbtnPress
  rw [if_neg (by rw [h1]; rintro (x | x); cases x; omega), h2]
  simp only [Option.isSome_none, Bool.false_eq_true, if_false, PwrPhase.dryRuns, show (PwrPhase.running == PwrPhase.off) = false from rfl, show (PwrPhase.running == PwrPhase.holdoff) = false from rfl, Bool.false_and, Bool.or_self]
  refine ⟨_, rfl, ?_, rfl⟩
  rw [panel_flag]
  exact State.flag_setFlag _ _ (Nat.le_of_ble_eq_true rfl) rfl

theorem short_facts (s : State) (t0 : Nat) (h1 : s.panel.pressAt = some t0) (h0 : s.now < t0 + 8000000000) (h2 : s.panel.longDone = false) (h3 : s.panel.quiet = false) : ∃ t : State, nx (effPbtnShort s) = .next t.finish
        ∧ t.flag F.ILK_PANEL_SHORT = true ∧ t.flag F.ILK_PANEL_PBTN = false ∧ t.panel.pressAt = none := by
  have hl : effPbtnLong s = s := by
    unfold effPbtnLong; rw [h1]; dsimp only; rw [if_neg (by omega)]
  unfold effPbtnShort
  rw [hl, h1]
  dsimp only
  rw [h2, h3]
  simp only [Option.isNone_some, Bool.false_eq_true, if_false, Bool.or_self]
  refine ⟨_, rfl, ?_, ?_, ?_⟩
  · rw [ilkEvent_flag]; exact State.flag_setFlag _ _ (Nat.le_of_ble_eq_true rfl) rfl
  · rw [ilkEvent_flag]
    have : ∀ u : State, (u.setFlag F.ILK_PANEL_SHORT).flag F.ILK_PANEL_PBTN = u.flag F.ILK_PANEL_PBTN := by
      intro u; exact setFld_flag_apart u _ _ 1 (Nat.le_of_ble_eq_true rfl) rfl (by (first | exact Or.inr (Or.inl (Nat.le_of_ble_eq_true rfl)) | exact Or.inr (Or.inr (Nat.le_of_ble_eq_true rfl)) | exact Or.inl (by decide) | (refine Or.inl (show _ + _ ≠ _ + _ from ?_); omega)))
    rw [this]
    show (s.clrFlag F.ILK_PANEL_PBTN).flag _ = false
    exact State.flag_clrFlag _ _ (Nat.le_of_ble_eq_true rfl) rfl
  · rw [(ilkEvent_regs _ _).2.2.2]; simp only [State.setFlag_frame, State.clrFlag_frame]

theorem putBit_lt8 (n i : Nat) (b : Bool) (hn : n < 256) (hi : i < 8) : putBit n i b < 256 := by
  have := setBits_lt n i 1 (b2n b) 8 hn (by omega)
  rw [← putBit_setBits] at this
  exact this

theorem putBitOf_bit8 (s : State) (f : Fld) (i : Nat) (b : Bool) (hf : f.ok) (hw : f.width = 8) (hi : i < 8) : bit ((s.putBitOf f i b).fld f) i = b := by
  unfold State.putBitOf
  rw [State.fld_setFld_same _ _ _ hf, hw]
  have h1 : putBit (s.fld f) i b % 2 ^ 8 = putBit (s.fld f) i b := Nat.mod_eq_of_lt (putBit_lt8 (s.fld f) i b (by have := fld_lt s f; rw [hw] at this; exact this) hi)
  rw [h1, bit_eq_testBit, putBit_testBit]
  simp

theorem pres_facts (s : State) (k : Fin 8) (present : Bool) (ns : Nat) (hn : 50000000 ≤ ns) (h1 : bit (s.fld F.ILK_CNS_STATUS_PRESENT) k.val ≠ present) (h2 : s.panel.cns = none) : ∃ t : State,
        nx (effCnsPresenceChange k.val present ns s) = .next t.finish ∧ bit (t.fld F.ILK_CNS_STATUS_PRESENT) k.val = present
        ∧ bit (t.fld F.ILK_CNS_STATUS_CHANGED) k.val = true := by
  unfold effCnsPresenceChange
  rw [if_neg (by rintro (x | x); exact h1 x; omega), h2]
  refine ⟨_, rfl, ?_, ?_⟩
  · dsimp only; rw [ilkEvent_fld]
    have : ∀ u : State, (u.putBitOf F.ILK_CNS_STATUS_CHANGED k.val true).fld F.ILK_CNS_STATUS_PRESENT = u.fld F.ILK_CNS_STATUS_PRESENT := by
      intro u; unfold State.putBitOf; exact State.fld_setFld_apart _ _ _ _ (Nat.le_of_ble_eq_true rfl) (by (first | exact Or.inr (Or.inl (Nat.le_of_ble_eq_true rfl)) | exact Or.inr (Or.inr (Nat.le_of_ble_eq_true rfl)) | exact Or.inl (by decide) | (refine Or.inl (show _ + _ ≠ _ + _ from ?_); omega)))
    rw [this]
    exact putBitOf_bit8 _ _ _ _ (Nat.le_of_ble_eq_true rfl) rfl k.isLt
  · dsimp only; rw [ilkEvent_fld]
    exact putBitOf_bit8 _ _ _ _ (Nat.le_of_ble_eq_true rfl) rfl k.isLt

theorem cnsRead_facts (s : State) (v : Word) (h1 : v.getLsbD 31 = true) (h2 : s.flag F.ILK_CNS_RES_BUSY = false) : ∃ t : State, nx (effCnsRead v s) = .next t.finish
        ∧ t.flag F.ILK_CNS_RES_BUSY = true ∧ t.fld F.ILK_CNS_RES_PORT = v.toNat % 8
        ∧ t.panel.cns = some ⟨v.toNat % 8, v.getLsbD 3, bits v.toNat 8 8, bits v.toNat 16 8 + 1⟩ := by
  unfold effCnsRead
  rw [if_neg (by
    rintro (x | x)
    · rw [getLsbD_bits] at h1; have : bits v.toNat 31 1 = 0 := x; rw [this] at h1; cases h1
    · rw [h2] at x; cases x)]
  have hp : F.ILK_CNS_CMD_PORT.of v = v.toNat % 8 := by show v.toNat / 2 ^ 0 % 2 ^ 3 = _; omega
  refine ⟨_, rfl, ?_, ?_, ?_⟩
  · rw [panel_flag, setFld_flag_apart _ _ _ _ (Nat.le_of_ble_eq_true rfl) rfl (by (first | exact Or.inr (Or.inl (Nat.le_of_ble_eq_true rfl)) | exact Or.inr (Or.inr (Nat.le_of_ble_eq_true rfl)) | exact Or.inl (by decide) | (refine Or.inl (show _ + _ ≠ _ + _ from ?_); omega)))]
    exact State.flag_setFlag _ _ (Nat.le_of_ble_eq_true rfl) rfl
  · rw [panel_fld, State.fld_setFld_same _ _ _ (Nat.le_of_ble_eq_true rfl), hp]
    show v.toNat % 8 % 8 = _
    omega
  · rw [getLsbD_bits, ← hp]; rfl

theorem cnsEnd_facts (s : State) (n : Nat) (hn : n < 8) : (s.cnsEnd n).flag F.ILK_CNS_RES_BUSY = false ∧ (s.cnsEnd n).panel.cns = none ∧ (s.cnsEnd n).fld F.ILK_CNS_RES_STATUS = n := by
  unfold State.cnsEnd
  generalize (n == 1 || n == 2 || n == 4 || n == 5) = b
  have e : ∀ u : State, ∀ f, (u.raiseIf b 169).fld f = u.fld f := by intro u f; unfold State.fld State.reg; simp only [State.raiseIf_frame]
  have e' : ∀ u : State, ∀ f, (u.raiseIf b 169).flag f = u.flag f := by intro u f; unfold State.flag State.reg; simp only [State.raiseIf_frame]
  refine ⟨?_, ?_, ?_⟩
  · rw [ilkEvent_flag, e', setFld_flag_apart _ _ _ _ (Nat.le_of_ble_eq_true rfl) rfl (by (first | exact Or.inr (Or.inl (Nat.le_of_ble_eq_true rfl)) | exact Or.inr (Or.inr (Nat.le_of_ble_eq_true rfl)) | exact Or.inl (by decide) | (refine Or.inl (show _ + _ ≠ _ + _ from ?_); omega)))]
    exact State.flag_clrFlag _ _ (Nat.le_of_ble_eq_true rfl) rfl
  · rw [(ilkEvent_regs _ _).2.2.2]; simp only [State.setFld_frame, State.clrFlag_frame, State.raiseIf_frame]
  · rw [ilkEvent_fld, e, State.fld_setFld_same _ _ _ (Nat.le_of_ble_eq_true rfl)]
    exact Nat.mod_eq_of_lt hn

theorem doneOk (u : State) (n : Nat) (tid : BitVec 64) (q : Prop) (hn : n < 8) (hz : ¬ tid = 0) : ∃ t : State, nx (u.cnsEnd n) = .next t.finish ∧ t.flag F.ILK_CNS_RES_BUSY = false ∧ t.panel.cns = none
            ∧ ((false : Bool) = true → t.fld F.ILK_CNS_RES_STATUS = 4)
            ∧ ((false : Bool) = false ∧ (true : Bool) = false → t.fld F.ILK_CNS_RES_STATUS = 1)
            ∧ ((false : Bool) = false ∧ (true : Bool) = true ∧ q ∧ tid = 0 → t.fld F.ILK_CNS_RES_STATUS = 2) := by
  obtain ⟨a1, a2, a3⟩ := cnsEnd_facts u n hn
  exact ⟨_, rfl, a1, a2, fun x => Bool.noConfusion x, fun x => Bool.noConfusion x.2, fun x => absurd x.2.2.2 hz⟩

set_option maxRecDepth 100000 in
theorem done_facts (s : State) (r : CnsRead) (ack stuck : Bool) (tid : BitVec 64) (data : List Byte) (check : BitVec 16) (h : s.panel.cns = some r) : ∃ t : State, nx (effCnsReadDone ack stuck tid data check.toNat s) = .next t.finish
        ∧ t.flag F.ILK_CNS_RES_BUSY = false ∧ t.panel.cns = none
        ∧ (stuck = true → t.fld F.ILK_CNS_RES_STATUS = 4)
        ∧ (stuck = false ∧ ack = false → t.fld F.ILK_CNS_RES_STATUS = 1)
        ∧ (stuck = false ∧ ack = true ∧ r.idOnly = true ∧ tid = 0 → t.fld F.ILK_CNS_RES_STATUS = 2) := by
  unfold effCnsReadDone
  rw [h]
  dsimp only
  cases stuck
  · rw [if_neg (by decide)]
    cases ack
    · rw [if_pos rfl]
      obtain ⟨a1, a2, a3⟩ := cnsEnd_facts s 1 (by decide)
      exact ⟨_, rfl, a1, a2, fun x => Bool.noConfusion x, fun _ => a3, fun x => Bool.noConfusion x.2.1⟩
    · rw [if_neg (by decide)]
      split
      · obtain ⟨a1, a2, a3⟩ := cnsEnd_facts { s with panel := { s.panel with cnsOut := msbFirst r.sends } } 2 (by decide)
        exact ⟨_, rfl, a1, a2, fun x => Bool.noConfusion x, fun x => Bool.noConfusion x.2, fun _ => a3⟩
      · next hc =>
        have hz : ¬ tid = 0 := by
          intro x; rw [x] at hc
          exact hc (by decide)
        split
        · exact doneOk _ _ _ _ (by decide) hz
        · split
          · exact doneOk _ _ _ _ (by decide) hz
          · exact doneOk _ _ _ _ (by decide) hz
  · rw [if_pos rfl]
    obtain ⟨a1, a2, a3⟩ := cnsEnd_facts s 4 (by decide)
    exact ⟨_, rfl, a1, a2, fun _ => a3, fun x => Bool.noConfusion x.1, fun x => Bool.noConfusion x.1⟩

end Sys2Proof.Laws.Interlock
end

