-- ==== Sys2Proof/Laws/Loops.lean ====
section
/-!
SUPPORT. Loop evaluation, web counts and camera state.
-/
namespace Sys2Proof.Laws.Loops

open Sys2Proof.Machine
open Sys2Proof.Laws.Writes

theorem clampInt_bounds (a b v : Int) (h : a ≤ b) : a ≤ clampInt a b v ∧ clampInt a b v ≤ b := by unfold clampInt; omega

theorem sxux (x : Int) (h : x.natAbs < 2 ^ 47) : sx 48 (ux 48 x) = x := by
  have e : ux 48 x = (x % 281474976710656).toNat := rfl
  have e2 : ∀ n : Nat, sx 48 n = if n % 281474976710656 < 140737488355328 then ((n : Int) % 281474976710656) else ((n : Int) % 281474976710656) - 281474976710656 := fun n => rfl
  rw [e, e2]
  split <;> omega

theorem count_up (s : State) (hr : s.web.raw.natAbs < 2 ^ 46) (h : s.web.raw = s.web.hw) : s.webCount true = s.modWeb (fun k => { k with
      raw := s.web.raw + 1, hw := s.web.raw + 1, rev := false
      rises := s.now :: k.rises.filter (fun t => decide (s.now < t + 1000000)) }) := by
  unfold State.webCount
  dsimp only
  rw [show (s.web.raw + if true = true then 1 else -1) = s.web.raw + 1 from rfl, sxux _ (by omega), if_pos (by omega)]

theorem count_dn (s : State) (hr : s.web.raw.natAbs < 2 ^ 46) (h : s.web.raw ≤ s.web.hw) : s.webCount false = if (s.webJ : Int) < s.web.hw - (s.web.raw - 1) ∧ s.web.rev = false then
      (((s.modWeb (fun k => { k with raw := s.web.raw - 1 })).modWeb (fun k => { k with rev := true })).setFlag F.WEB_STATUS_REV).raise 340 |>.each (s.pagesIn .printing)
        (fun t i => t.spoilWhole i 9)
    else s.modWeb (fun k => { k with raw := s.web.raw - 1 }) := by
  unfold State.webCount
  dsimp only
  rw [show (s.web.raw + if false = true then 1 else -1) = s.web.raw - 1 from rfl, sxux _ (by omega), if_neg (by omega)]

theorem modCam_at (s : State) (c : Nat) (f : CamSt → CamSt) (h : c < 4) : vget (s.modCam c f).cams c = f (vget s.cams c) := by
  show vget (vmod s.cams c f) c = _
  rw [vget_vmod_same _ _ h]

end Sys2Proof.Laws.Loops
end

