-- ==== Sys2Proof/Laws/Objects.lean ====
section
/-!
SUPPORT. The object group, event signalling, and rings: what each shared operation answers.
-/
namespace Sys2Proof.Laws.Objects

open Sys2Proof.Machine
open Sys2Proof.Laws.Writes

theorem issued_core (s : State) (n : Nat) (h : n < 24) : (s.issued n).core n = (s.core n).issuing := State.core_modCore _ _ _ h

theorem gr_issued (s : State) (n : Fin 24) (r : Fin 32) : ((s.issued n.val).core n.val).gr r.val = ((s.core n.val).rd r).toNat := by
  rw [issued_core _ _ n.isLt, Core.gr_val, Core.rd_issuing]

theorem groupDone_eq (s : State) (n : Nat) (rd : Fin 32) (e : Ost) (v : Nat) : s.groupDone n rd.val e v
    = s.modCore n (fun q => (({ q with ost := e.code } : Core).wr rd (BitVec.ofNat 32 v)).next) := by
  unfold State.groupDone
  congr 1
  funext q
  rw [Core.setG_val]

/-- The instruction in progress has issued. -/
def midway (c : Core) : Prop := c.atPair = false ∧ c.lastPc = c.pc

theorem done_eq (t : State) (n : Fin 24) (rd : Fin 32) (e : Ost) (v : Nat) (h : midway (t.core n.val)) :
    t.groupDone n.val rd.val e v = t.modCore n.val (fun q => (({ q with ost := e.code } : Core).wr rd (BitVec.ofNat 32 v)).goOn) := by
  rw [groupDone_eq]
  apply State.modCore_congr
  unfold Core.next Core.goOn
  have h1 : (({ t.core n.val with ost := e.code } : Core).wr rd (BitVec.ofNat 32 v)).atPair = false := by
    unfold Core.wr; split <;> exact h.1
  have h2 : (({ t.core n.val with ost := e.code } : Core).wr rd (BitVec.ofNat 32 v)).lastPc
      = (({ t.core n.val with ost := e.code } : Core).wr rd (BitVec.ofNat 32 v)).pc := by
    unfold Core.wr; split <;> exact h.2
  rw [← h1, ← h2]

theorem issue_issued (s : State) (n : Nat) (f : State → State) (h : s.coreReady n) : s.issue n f = f (s.issued n) := State.issue_ready s n f h

theorem issued_midway (s : State) (n : Nat) (h : n < 24) : midway ((s.issued n).core n) := by
  rw [issued_core _ _ h]; exact ⟨rfl, rfl⟩

theorem core_of (s t : State) (n : Nat) (h : t.cores = s.cores) : t.core n = s.core n := by unfold State.core; rw [h]

theorem each_cores {β : Type} (s : State) (l : List β) (f : State → β → State) (h : ∀ t x, (f t x).cores = t.cores) :
    (s.each l f).cores = s.cores := by
  unfold State.each
  induction l generalizing s with
  | nil => rfl
  | cons x r ih => rw [List.foldl_cons, ih, h]

theorem makeObj_cores (s : State) (c i : Nat) (w : List Nat) : (s.makeObj c i w).cores = s.cores := by
  unfold State.makeObj
  split <;> first | rfl | skip
  exact each_cores _ _ _ (fun _ _ => rfl)

theorem openAt_cores (s : State) (n c i : Nat) (w : List Nat) : (s.openAt n c i w).cores = s.cores := by
  unfold State.openAt State.freeChanged
  have h : ∀ (t : State) f v, (t.setFld f v).cores = t.cores := fun _ _ _ => rfl
  rw [h, makeObj_cores]

theorem dropObj_cores (s : State) (c i : Nat) : (s.dropObj c i).cores = s.cores := by
  unfold State.dropObj
  split <;> first | rfl | skip
  show (s.dropStalled i).cores = _
  unfold State.dropStalled
  refine (each_cores _ _ _ ?_).trans rfl
  intro t x
  cases x.producer <;> rfl

theorem modCore_id (s : State) (n : Nat) : s.modCore n id = s := by
  unfold State.modCore
  rw [show vmod s.cores n id = s.cores from by unfold vmod; split <;> simp]

/-- A FENCE with no posted store outstanding and nothing to settle changes nothing. -/
theorem fenced_nil (s : State) (n : Nat) (h : (s.core n).failing = []) (hs : (s.core n).stale = []) : s.fenced n = s := by
  unfold State.fenced
  rw [h]
  show s.modCore n _ = s
  rw [State.modCore_congr s n _ id (show _ = s.core n by rw [← hs]), modCore_id]

theorem dataPtr_ok (n ea al len : Nat) (h1 : ea % al = 0) (h2 : ea + len ≤ 0x10000) : dataPtr n ea al len = .ok (0x1100000000 + n * 0x20000 + 0x10000 + ea) := by
  unfold dataPtr; rw [if_neg (by omega), if_neg (by omega)]; rfl

theorem entLe_rd (s : State) (a k i : Nat) (h : 4 * i + 4 ≤ 4 * k) : entLe (s.rdBytes a (4 * k)) (4 * i) 4 = s.rdLe (a + 4 * i) 4 := by
  unfold entLe State.rdLe
  congr 1
  unfold State.rdBytes
  apply List.ext_getElem
  · simp; omega
  · intro j h1 h2
    simp at h1 h2 ⊢
    congr 1; omega

theorem paramBlock_eq (s : State) (n : Fin 24) (b : Nat) (hc : s.Clean) (h1 : b % 8 = 0) (h2 : b + 128 ≤ 0x10000) :
    s.paramBlock n.val b = (s, .ok (s.blockWords n.val b)) := by
  unfold State.paramBlock
  rw [dataPtr_ok _ _ _ _ h1 (by omega)]
  have hm : ∀ k, 0 < k → b + k ≤ 0x10000 → s.inMemory (0x1100000000 + n.val * 0x20000 + 0x10000 + b) k = true := by
    intro k h0 hk
    exact ownData_mem s n.val b k _ n.isLt h0 ⟨hk, rfl⟩
  simp only [State.memRead_clean s _ _ 4 hc.upsets (hm 4 (by omega) (by omega))]
  have hk : min 32 (max 1 (ofLe (s.rdBytes (0x1100000000 + n.val * 0x20000 + 0x10000 + b) 4) % 64)) ≤ 32 := by omega
  have hk1 : 1 ≤ min 32 (max 1 (ofLe (s.rdBytes (0x1100000000 + n.val * 0x20000 + 0x10000 + b) 4) % 64)) := by omega
  unfold State.blockWords
  have e : s.rdLe (0x1100000000 + n.val * 0x20000 + 0x10000 + b) 4 = ofLe (s.rdBytes (0x1100000000 + n.val * 0x20000 + 0x10000 + b) 4) := rfl
  simp only [e]
  generalize min 32 (max 1 (ofLe (s.rdBytes (0x1100000000 + n.val * 0x20000 + 0x10000 + b) 4) % 64)) = k at *
  rw [if_neg (by omega)]
  simp only [State.memRead_clean s _ _ (4 * k) hc.upsets (hm _ (by omega) (by omega))]
  congr 2
  apply List.map_congr_left
  intro i hi
  rw [List.mem_range] at hi
  exact entLe_rd s _ k i (by omega)

theorem closeObj_busy (t : State) (h i : Nat) (hh : t.checkHandle h (fun _ => true) = .ok i) (hb : t.closeBusy (hClass h) i = true) :
    t.closeObj h = (t, .busy) := by unfold State.closeObj; rw [hh]; dsimp only; rw [if_pos hb]

theorem closeObj_ok (t : State) (h i : Nat) (hh : t.checkHandle h (fun _ => true) = .ok i) (hb : t.closeBusy (hClass h) i = false) :
    t.closeObj h = ((t.dropObj (hClass h) i).freeSlot (hClass h) i, .ok) := by
  unfold State.closeObj; rw [hh]; dsimp only; rw [if_neg (by rw [hb]; decide)]

theorem closeObj_err (t : State) (h : Nat) (e : Ost) (hh : t.checkHandle h (fun _ => true) = .error e) (he : e ≠ .stale) :
    t.closeObj h = (t, e) := by
  unfold State.closeObj; rw [hh]; dsimp only; unfold State.seen; rw [if_neg he]

theorem queryObj_err (t : State) (h k : Nat) (e : Ost) (hh : t.checkHandle h (fun _ => true) = .error e) (he : e ≠ .stale) :
    t.queryObj h k = (t, .error e) := by
  unfold State.queryObj; rw [hh]; dsimp only; unfold State.seen; rw [if_neg he]

theorem queryObj_long (t : State) (h k i : Nat) (hh : t.checkHandle h (fun _ => true) = .ok i) (hl : queryLen (hClass h) ≤ k) :
    t.queryObj h k = (t, .error .param) := by
  unfold State.queryObj; rw [hh]; dsimp only; rw [if_pos hl]

theorem queryObj_low (t : State) (h k i : Nat) (o : ObjHdr) (hh : t.checkHandle h (fun _ => true) = .ok i) (ho : t.obj (hClass h) i = some o)
    (hl : k < queryLen (hClass h)) (hk : k < 5) : t.queryObj h k = (t, .ok ((if k = 0 then h else if k = 1 then t.queryState (hClass h) i % 16 + o.owner * 2 ^ 4
          else if k = 2 then o.tOpen else if k = 3 then o.tOpen / 2 ^ 32 else t.queryWord (hClass h) i k) % 2 ^ 32)) := by
  unfold State.queryObj; rw [hh]; dsimp only; rw [if_neg (by omega), ho]; dsimp only; rw [if_neg (by omega)]

theorem close_row (s : State) (n : Fin 24) (rd ra : Fin 32) (hr : s.coreReady n.val) (hf : (s.core n.val).failing = []) (hs : (s.core n.val).stale = []) :
    s.effClose n.val rd.val ra.val = (match (s.issued n.val).closeObj ((s.core n.val).rd ra).toNat with
      | (u, e) => u.groupDone n.val rd.val e e.code) := by
  unfold State.effClose
  rw [issue_issued _ _ _ hr]
  simp only [gr_issued, fenced_nil _ n.val (show ((s.issued n.val).core n.val).failing = [] by rw [issued_core _ _ n.isLt]; exact hf)
    (show ((s.issued n.val).core n.val).stale = [] by rw [issued_core _ _ n.isLt]; exact hs)]

theorem query_row (s : State) (n : Fin 24) (rd ra rb : Fin 32) (hr : s.coreReady n.val) :
    s.effQuery n.val rd.val ra.val rb.val = (match (s.issued n.val).queryObj ((s.core n.val).rd ra).toNat ((s.core n.val).rd rb).toNat with
      | (u, .ok v) => u.groupDone n.val rd.val .ok v
      | (u, .error e) => u.groupDone n.val rd.val e 0) := by
  unfold State.effQuery
  rw [issue_issued _ _ _ hr]
  simp only [gr_issued]
  all_goals (rcases (s.issued n.val).queryObj ((s.core n.val).rd ra).toNat ((s.core n.val).rd rb).toNat with ⟨u, e | v⟩ <;> rfl)

theorem memWriteWords_eq (s : State) (req a : Nat) (l : List Byte) (hc : s.Clean) : (s.memWriteWords req a l).1 = s.wrBytes a l := by
  rw [State.memWriteWords_clean s req a l hc.upsets hc.noInjection]

theorem setEvp_core (s : State) (k v n : Nat) (h : k < 24) : (s.setEvp k v).core n = if n = k then { s.core n with evp := (s.core n).evp ||| v % 2 ^ 31 } else s.core n := by
  unfold State.setEvp
  split
  · next e => subst e; rw [State.core_modCore _ _ _ h]
  · next e => rw [State.core_modCore_ne _ _ (Ne.symm e)]

theorem evps_core (v n : Nat) (l : List Nat) (hl : l.Nodup) (hb : ∀ k ∈ l, k < 24) (s : State) :
    (l.foldl (fun t n => if t.hasCore n then t.setEvp n v else t) s).core n
      = if n ∈ l ∧ s.hasCore n = true then { s.core n with evp := (s.core n).evp ||| v % 2 ^ 31 } else s.core n := by
  induction l generalizing s with
  | nil => simp
  | cons k r ih =>
    rw [List.foldl_cons, ih (List.nodup_cons.1 hl).2 (fun x hx => hb x (List.mem_cons_of_mem _ hx))]
    have hk := hb k List.mem_cons_self
    have hnk := (List.nodup_cons.1 hl).1
    have hh : (if s.hasCore k = true then s.setEvp k v else s).hasCore n = s.hasCore n := by split <;> rfl
    rw [hh]
    have hcore : (if s.hasCore k = true then s.setEvp k v else s).core n
        = if n = k ∧ s.hasCore n = true then { s.core n with evp := (s.core n).evp ||| v % 2 ^ 31 } else s.core n := by
      by_cases hc : s.hasCore k = true
      · rw [if_pos hc, setEvp_core _ _ _ _ hk]
        by_cases e : n = k
        · subst e; rw [if_pos rfl, if_pos ⟨rfl, hc⟩]
        · rw [if_neg e, if_neg (fun x => e x.1)]
      · rw [if_neg hc, if_neg]
        rintro ⟨e, h2⟩; subst e; exact hc h2
    rw [hcore]
    by_cases e : n = k
    · subst e
      rw [if_neg (fun x => hnk x.1)]
      simp
    · simp only [List.mem_cons, e, false_or, false_and, if_false]

theorem mem_setBitsOf (n x k : Nat) : k ∈ setBitsOf n x ↔ k < n ∧ bit x k = true := by
  unfold setBitsOf; simp

theorem raiseEv_core (s : State) (h b n i : Nat) (g : EvGroup) (hl : s.live h 0x0D = some i) (hg : Tab.get s.evgs i = some g) (hb : b % 2 ^ 32 ≠ 0) :
    (s.raiseEv h b).core n = if n < 24 ∧ bit g.cores n = true ∧ s.hasCore n = true then { s.core n with evp := (s.core n).evp ||| 2 ^ g.evbit % 2 ^ 31 } else s.core n := by
  unfold State.raiseEv
  rw [if_neg hb, hl]
  dsimp only
  rw [hg]
  dsimp only
  rw [evps_core _ _ _ (show (setBitsOf 24 g.cores).Nodup from List.Nodup.sublist List.filter_sublist List.nodup_range) (fun k hk => ((mem_setBitsOf _ _ _).1 hk).1)]
  simp only [mem_setBitsOf, and_assoc]
  rfl

theorem raiseEv_midway (s : State) (h b n : Nat) (hm : midway (s.core n)) : midway ((s.raiseEv h b).core n) := by
  by_cases hb : b % 2 ^ 32 = 0
  · unfold State.raiseEv; rw [if_pos hb]; exact hm
  · cases hl : s.live h 0x0D with
    | none => unfold State.raiseEv; rw [if_neg hb, hl]; exact hm
    | some i =>
      cases hg : Tab.get s.evgs i with
      | none => unfold State.raiseEv; rw [if_neg hb, hl]; dsimp only; rw [hg]; exact hm
      | some g => rw [raiseEv_core s h b n i g hl hg hb]; split <;> exact hm

theorem notify_midway (s : State) (c i b n : Nat) (hm : midway (s.core n)) : midway ((s.notify c i b).core n) :=
  raiseEv_midway _ _ _ _ hm

theorem instrRing_ok (s : State) (h i : Nat) (r : Ring) (hh : s.checkHandle h (fun c => c == 0x04) = .ok i)
    (hring : Tab.get s.rings i = some r) (hrole : ringRole i = 2) (herr : r.error = false) : s.instrRing h = (s, .ok (i, r)) := by
  unfold State.instrRing
  rw [hh]
  dsimp only
  rw [hring]
  dsimp only
  rw [if_neg (by omega), if_neg (by rw [herr]; decide)]

theorem pushBy_work (s : State) (n h i : Nat) (r : Ring) (l : List Byte) (hir : s.instrRing h = (s, .ok (i, r))) (hrole : ringRole i = 2) :
    s.pushBy n h l = if r.count = r.size then (s, .full) else (s.ringAppend i r l, .ok) := by
  unfold State.pushBy
  simp only [hir, hrole]
  rw [if_neg (by decide)]

theorem rpush_row (s : State) (n : Fin 24) (rd ra rb : Fin 32) (p : Nat) (hr : s.coreReady n.val)
    (hf : (s.core n.val).failing = []) (hs : (s.core n.val).stale = []) (hc : s.Clean) (h1 : dataPtr n.val ((s.core n.val).rd rb).toNat 64 64 = .ok p)
    (hm : s.inMemory p 64 = true) :
    s.effRpush n.val rd.val ra.val rb.val = (match (s.issued n.val).pushBy n.val ((s.core n.val).rd ra).toNat (s.rdBytes p 64) with
      | (w, e) => w.groupDone n.val rd.val e e.code) := by
  have hf0 : ((s.issued n.val).core n.val).failing = [] := by rw [issued_core _ _ n.isLt]; exact hf
  have hs0 : ((s.issued n.val).core n.val).stale = [] := by rw [issued_core _ _ n.isLt]; exact hs
  unfold State.effRpush
  rw [issue_issued _ _ _ hr]
  simp only [gr_issued]
  rw [h1]
  dsimp only
  rw [fenced_nil _ _ hf0 hs0, State.memRead_clean (s.issued n.val) _ _ 64 hc.upsets hm]
  rfl

theorem rpop_ok (s v : State) (n : Fin 24) (rd ra rb : Fin 32) (p : Nat) (l : List Byte) (hr : s.coreReady n.val)
    (h1 : dataPtr n.val ((s.core n.val).rd rb).toNat 64 64 = .ok p) (hp : (s.issued n.val).popBy ((s.core n.val).rd ra).toNat = (v, .ok l)) :
    s.effRpop n.val rd.val ra.val rb.val = ((v.memWriteWords reqCore p l).1).groupDone n.val rd.val .ok Ost.ok.code := by
  unfold State.effRpop
  rw [issue_issued _ _ _ hr]
  simp only [gr_issued]
  rw [h1]
  generalize State.memWriteWords = f
  generalize State.popBy = g at *
  dsimp only
  rw [hp]

theorem rpop_err (s v : State) (n : Fin 24) (rd ra rb : Fin 32) (p : Nat) (e : Ost) (hr : s.coreReady n.val)
    (h1 : dataPtr n.val ((s.core n.val).rd rb).toNat 64 64 = .ok p) (hp : (s.issued n.val).popBy ((s.core n.val).rd ra).toNat = (v, .error e)) :
    s.effRpop n.val rd.val ra.val rb.val = v.groupDone n.val rd.val e e.code := by
  unfold State.effRpop
  rw [issue_issued _ _ _ hr]
  simp only [gr_issued]
  rw [h1]
  generalize State.memWriteWords = f
  generalize State.popBy = g at *
  dsimp only
  rw [hp]

theorem popBy_ok (s v : State) (h i : Nat) (r : Ring) (l : List Byte) (hir : s.instrRing h = (s, .ok (i, r))) (hp : s.ringPop i r = (v, .entry l)) :
    s.popBy h = (v, .ok l) := by
  have key : ∀ (f : State → Nat → Ring → State × PopRes) (g : State → Nat → State × Except Ost (Nat × Ring)), g s h = (s, .ok (i, r)) → f s i r = (v, .entry l) →
    (match g s h with
    | (t, Except.error e) => (t, Except.error e)
    | (t, Except.ok (n, r)) =>
      match f t n r with
      | (u, PopRes.entry l) => (u, Except.ok l)
      | (u, PopRes.empty) => (u, Except.error Ost.empty)
      | (u, PopRes.lost) => (u, Except.error Ost.busy)) = (v, .ok l) := by
    intro f g h1 h2
    rw [h1]
    dsimp only
    rw [h2]
  exact key _ _ hir hp

theorem popBy_empty (s v : State) (h i : Nat) (r : Ring) (hir : s.instrRing h = (s, .ok (i, r))) (hp : s.ringPop i r = (v, .empty)) :
    s.popBy h = (v, .error .empty) := by
  have key : ∀ (f : State → Nat → Ring → State × PopRes) (g : State → Nat → State × Except Ost (Nat × Ring)), g s h = (s, .ok (i, r)) → f s i r = (v, .empty) →
    (match g s h with
    | (t, Except.error e) => (t, Except.error e)
    | (t, Except.ok (n, r)) =>
      match f t n r with
      | (u, PopRes.entry l) => (u, Except.ok l)
      | (u, PopRes.empty) => (u, Except.error Ost.empty)
      | (u, PopRes.lost) => (u, Except.error Ost.busy)) = (v, .error .empty) := by
    intro f g h1 h2
    rw [h1]
    dsimp only
    rw [h2]
  exact key _ _ hir hp

theorem ringAppend_eq (s : State) (i : Nat) (r : Ring) (l : List Byte) (hc : s.Clean) :
    s.ringAppend i r l = State.notify { s.wrBytes (r.entryAddr r.prod) l with rings := Tab.put (s.wrBytes (r.entryAddr r.prod) l).rings i { r with prod := (r.prod + 1) % 2 ^ 32 } } 4 i (2 ^ r.nebit) := by
  unfold State.ringAppend
  rw [memWriteWords_eq _ _ _ _ hc]

theorem wrBytes_mem_issued (s : State) (n a : Nat) (l : List Byte) : ((s.issued n).wrBytes a l).mem = (s.wrBytes a l).mem := by
  unfold State.issued; rw [State.wrBytes_modCore]; rfl

theorem wr8_mem_congr (s t : State) (a : Nat) (b : Byte) (h : s.mem = t.mem) : (s.wr8 a b).mem = (t.wr8 a b).mem := by
  unfold State.wr8; dsimp only; rw [h]

theorem wrBytes_mem_congr (s t : State) (a : Nat) (l : List Byte) (h : s.mem = t.mem) : (s.wrBytes a l).mem = (t.wrBytes a l).mem := by
  induction l generalizing s t a with
  | nil => exact h
  | cons b r ih => exact ih _ _ _ (wr8_mem_congr s t a b h)

theorem ringPop_clean (s : State) (i : Nat) (r : Ring) (hc : s.Clean) (h0 : r.count ≠ 0) (hm : s.inMemory (r.entryAddr r.cons) 64 = true) :
    s.ringPop i r = ({ s with rings := Tab.put s.rings i { r with cons := (r.cons + 1) % 2 ^ 32 } }, .entry (s.rdBytes (r.entryAddr r.cons) 64)) := by
  unfold State.ringPop
  rw [if_neg h0]
  dsimp only
  rw [State.memRead_clean _ _ _ 64 hc.upsets hm]

theorem core_rings (s : State) (x : Tab Ring) (n : Nat) : ({ s with rings := x } : State).core n = s.core n := rfl

theorem ringAppend_midway (s : State) (i n : Nat) (r : Ring) (l : List Byte) (hc : s.Clean)
    (hm : midway (s.core n)) : midway ((s.ringAppend i r l).core n) := by
  rw [ringAppend_eq _ _ _ _ hc]
  refine notify_midway _ _ _ _ _ ?_
  rw [core_rings, State.wrBytes_core]; exact hm

theorem ringAppend_rings (s : State) (i : Nat) (r : Ring) (l : List Byte) (hc : s.Clean) : Tab.get (s.ringAppend i r l).rings i = some { r with prod := (r.prod + 1) % 2 ^ 32 } := by
  rw [ringAppend_eq _ _ _ _ hc, (State.notify_frame _ _ _ _).2.2.2.2.2.2.2.2.2.2.2.2.2.2.2.2.1]
  exact Tab.get_put_same _ _ _

theorem ringAppend_mem (s : State) (i : Nat) (r : Ring) (l : List Byte) (hc : s.Clean) : (s.ringAppend i r l).mem = (s.wrBytes (r.entryAddr r.prod) l).mem := by
  rw [ringAppend_eq _ _ _ _ hc, (State.notify_frame _ _ _ _).2.2.2.2.2.2.1]

theorem role_lt (i : Nat) (h : i < 64) : (ringRole i = 0 ↔ i < 16) ∧ (ringRole i = 1 ↔ 16 ≤ i ∧ i < 32) := by
  unfold ringRole; omega

theorem modJob_get (s : State) (i : Nat) (f : Job → Job) (j : Job) (h : Tab.get s.jobs i = some j) : Tab.get (s.modJob i f).jobs i = some (f j) := by
  unfold State.modJob; dsimp only; rw [Tab.get_upd_same, h]; rfl

theorem each_jobs {β : Type} (s : State) (l : List β) (f : State → β → State) (h : ∀ t x, (f t x).jobs = t.jobs) :
    (s.each l f).jobs = s.jobs := by
  unfold State.each
  induction l generalizing s with
  | nil => rfl
  | cons x r ih => rw [List.foldl_cons, ih, h]

theorem showMap_jobs (s : State) (k : Nat → Nat) (v : Nat) : (s.showMap k v).jobs = s.jobs := each_jobs _ _ _ (fun _ _ => rfl)

theorem lacReplace_jobs (s : State) (i : Nat) : (s.lacReplace i).jobs = s.jobs := by
  unfold State.lacReplace
  simp only [State.putFlag_frame, State.raiseIf_frame, State.setFld_frame]

theorem applyPll_jobs (s : State) (i : Nat) : (s.applyPll i).jobs = s.jobs := by
  unfold State.applyPll State.pixelStop State.pendRefresh State.facetsStop State.setLock
  dsimp only
  split <;> simp

end Sys2Proof.Laws.Objects
end

