-- ==== Sys2Proof/Laws/Pages.lean ====
section
/-!
SUPPORT. Requests for admission, the evaluation of a page, and snapshots: what they leave of a page.
-/
namespace Sys2Proof.Laws.Pages

open Sys2Proof.Machine
open Sys2Proof.Laws.Writes

theorem live_pageOf {s : State} {h i : Nat} {p : Page} (e : s.pageOf h = some (i, p)) : Tab.get s.pages i = some p := by
  unfold State.pageOf at e
  split at e
  · cases e
  · rw [Option.map_eq_some_iff] at e
    obtain ⟨a, ha, hb⟩ := e
    cases hb; exact ha

theorem admitResult_quiet (s : State) (i r : Nat) (h : r = 8 ∨ r = 10) : s.admitResult i r = s.modPage i (fun q => { q with result := r }) := by
  unfold State.admitResult; simp only; rw [if_pos h]

theorem admitResult_loud (s : State) (i r : Nat) (p : Page) (h : ¬ (r = 8 ∨ r = 10)) (hp : Tab.get s.pages i = some p) :
    s.admitResult i r = (s.modPage i (fun q => { q with result := r })).notify 0x0A (hIdx p.job) 1 := by
  unfold State.admitResult; simp only; rw [if_neg h]
  have : Tab.get (s.modPage i (fun q => { q with result := r })).pages i = some { p with result := r } := by
    unfold State.modPage; rw [Tab.get_upd_same, hp]; rfl
  rw [this]; rfl

theorem memRead_same (s : State) (req a n : Nat) (h : s.upsets = []) : (s.memRead req a n).1 = s := by
  unfold State.memRead; rw [State.eccRange_nil _ _ _ _ h]; split <;> rfl

theorem entryOk_same (s : State) (j : Job) (p : Page) (page k start : Nat) (h : s.upsets = []) : (s.entryOk j p page k start).1 = s := by
  have hb : (s.blkEntry p k).1 = s := by
    unfold State.blkEntry
    have := memRead_same s reqPageBlock (p.blist + 32 * k) 32 h
    split <;> rename_i e <;> (rw [e] at this; exact this)
  unfold State.entryOk
  split
  · next t e => rw [e] at hb; exact hb
  · next t b e =>
    rw [e] at hb; simp only at hb; subst hb
    split
    · rfl
    · split
      · split <;> rfl
      · have := memRead_same t reqPageBlock b.addr 16 h
        split <;> rename_i e2 <;> (rw [e2] at this; exact this)

theorem rasterOk_same (s : State) (j : Job) (p : Page) (page start : Nat) (h : s.upsets = []) : (s.rasterOk j p page start).1 = s := by
  unfold State.rasterOk
  suffices H : ∀ (l : List Nat) (r : State × Bool), r.1 = s → (l.foldl (fun a k => match a.1.entryOk j p page k start with
    | (t, ok) => (t, a.2 && ok)) r).1 = s from H _ _ rfl
  intro l
  induction l with
  | nil => intro r hr; exact hr
  | cons k l ih =>
    intro r hr
    apply ih
    have := entryOk_same r.1 j p page k start (by rw [hr]; exact h)
    exact this.trans hr

theorem get_modPage (s : State) (i : Nat) (f : Page → Page) : Tab.get (s.modPage i f).pages i = (Tab.get s.pages i).map f := by
  unfold State.modPage; rw [Tab.get_upd_same]

theorem mask_bits (a b c d e f : Bool) (h : b2n a + 2 * b2n b + 4 * b2n c + 8 * b2n d + 16 * b2n e + 32 * b2n f ≠ 0) (hf : f = false) :
    b2n a + 2 * b2n b + 4 * b2n c + 8 * b2n d + 16 * b2n e + 32 * b2n f < 32
    ∧ ∃ k, lowestBit 6 (b2n a + 2 * b2n b + 4 * b2n c + 8 * b2n d + 16 * b2n e + 32 * b2n f) = some k := by
  subst hf
  cases a <;> cases b <;> cases c <;> cases d <;> cases e <;> first | exact absurd rfl h | exact ⟨by decide, _, rfl⟩

theorem raises_pages (s : State) (l : List Nat) (c : Bool) : ((s.raiseIf c 362).each l (fun t k => t.raise (113 + 8 * k))) =
   { s with flt := ((s.raiseIf c 362).each l (fun t k => t.raise (113 + 8 * k))).flt } := by
  have key : ∀ (l : List Nat) (t : State), t.each l (fun t k => t.raise (113 + 8 * k)) = { t with flt := (t.each l (fun t k => t.raise (113 + 8 * k))).flt } := by
    intro l
    induction l with
    | nil => intro t; rfl
    | cons k l ih => intro t; unfold State.each at *; rw [List.foldl_cons, ih]; rfl
  rw [key]
  cases c <;> rfl

theorem admitRefuse_page (s : State) (i r m : Nat) (p : Page) (h : ¬ (r = 8 ∨ r = 10)) (hp : Tab.get s.pages i = some p) :
    Tab.get (s.admitRefuse i r m).pages i = some { p with state := .ready, failMask := m, pagea := none, result := r }
      ∧ (s.admitRefuse i r m).admitQ = s.admitQ := by
  unfold State.admitRefuse
  have h1 : Tab.get (s.modPage i (fun q => { q with state := .ready, failMask := m, pagea := none })).pages i
      = some { p with state := .ready, failMask := m, pagea := none } := by rw [get_modPage, hp]; rfl
  rw [admitResult_loud _ i r _ h h1]
  simp only [State.notify_frame]
  rw [get_modPage, h1]
  exact ⟨rfl, rfl⟩

theorem admitResult_page (s : State) (i r : Nat) (p : Page) (h : ¬ (r = 8 ∨ r = 10)) (hp : Tab.get s.pages i = some p) :
    Tab.get (s.admitResult i r).pages i = some { p with result := r } ∧ (s.admitResult i r).admitQ = s.admitQ := by
  rw [admitResult_loud s i r p h hp]
  simp only [State.notify_frame]
  rw [get_modPage, hp]
  exact ⟨rfl, rfl⟩

theorem grant_page (s : State) (i : Nat) (p : Page) (j : Job) (start : Nat) (skip : Bool) (hp : Tab.get s.pages i = some p)
    (hj : s.joined = false) :
    Tab.get (s.grantPage i p j start skip).pages i = some { p with
      state := .admitted, result := 1, failMask := 0, startLine := start
      firstLine := (List.range 4).map (fun k => (start + lget j.offset k) % 2 ^ 40)
      reserved := s.pageRate j, blankFrom := List.replicate 4 none
      record := { (default : PageRec) with accSkip := skip } }
      ∧ (s.grantPage i p j start skip).admitQ = s.admitQ := by
  unfold State.grantPage
  simp only
  have hact : ∀ t : State, t.joined = false → (if t.isActive = true then t.sendAcd 0x07 0 (leBytes 8 start ++ t.pageName p j) else t) = t := by
    intro t ht; rw [if_neg]; simp [State.isActive, ht]
  rw [hact]
  · refine admitResult_page _ i 1 { p with
      state := .admitted, result := 1, failMask := 0, startLine := start
      firstLine := (List.range 4).map (fun k => (start + lget j.offset k) % 2 ^ 40)
      reserved := s.pageRate j, blankFrom := List.replicate 4 none
      record := { (default : PageRec) with accSkip := skip } } (by decide) ?_
    simp only [State.startFills, State.modJob_frame, get_modPage, hp]; rfl
  · exact hj

theorem snapCopy_snap (s : State) (q : Snap) (d : Nat) : (s.snapCopy q d).snap = s.snap := by
  unfold State.snapCopy
  generalize s.snapFields d = l
  unfold State.each
  induction l generalizing s with
  | nil => rfl
  | cons e l ih => rw [List.foldl_cons, ih]; rfl

theorem snapEnd_facts (s : State) (q : Snap) (m : Nat) :
    (s.snapEnd q m).snap = none ∧ (s.snapEnd q m).flag F.SYS_SNAP_STATUS_DONE = true
      ∧ (s.snapEnd q m).fld F.SYS_SNAP_MISS_DOMAINS = m % 2 ^ 24 := by
  unfold State.snapEnd
  simp only
  generalize s.each ((maskDomains q.domains).filter (fun d => !bit m (d - 1))) (fun t d => t.snapCopy q d) = u
  have h1 : ((u.setFld F.SYS_SNAP_MISS_DOMAINS m).setFlag F.SYS_SNAP_STATUS_DONE).flag F.SYS_SNAP_STATUS_DONE = true :=
    State.flag_setFlag _ _ (by decide) rfl
  have h2 : ((u.setFld F.SYS_SNAP_MISS_DOMAINS m).setFlag F.SYS_SNAP_STATUS_DONE).fld F.SYS_SNAP_MISS_DOMAINS = m % 2 ^ 24 := by
    unfold State.setFlag
    rw [State.fld_setFld_apart _ _ _ _ (by decide) (by decide), State.fld_setFld_same _ _ _ (by decide)]; rfl
  have h3 : ∀ (t : State), t.snap = none → t.flag F.SYS_SNAP_STATUS_DONE = true → t.fld F.SYS_SNAP_MISS_DOMAINS = m % 2 ^ 24 →
      (if s.flag F.SYS_SNAP_STATUS_DONE = true then t else t.each (List.range 24) (fun t n => if t.hasCore n then t.setEvp n (2 ^ 29) else t)).snap = none
      ∧ (if s.flag F.SYS_SNAP_STATUS_DONE = true then t else t.each (List.range 24) (fun t n => if t.hasCore n then t.setEvp n (2 ^ 29) else t)).flag F.SYS_SNAP_STATUS_DONE = true
      ∧ (if s.flag F.SYS_SNAP_STATUS_DONE = true then t else t.each (List.range 24) (fun t n => if t.hasCore n then t.setEvp n (2 ^ 29) else t)).fld F.SYS_SNAP_MISS_DOMAINS = m % 2 ^ 24 := by
    intro t a b c
    split
    · exact ⟨a, b, c⟩
    · obtain ⟨cc, hc⟩ := State.setEvps_eq t (List.range 24) (fun t n => t.hasCore n) (2 ^ 29)
      unfold State.each
      rw [hc]; exact ⟨a, b, c⟩
  exact h3 _ rfl h1 h2

end Sys2Proof.Laws.Pages
end

