-- ==== Sys2Proof/Laws/Power.lean ====
section
/-!
SUPPORT. Rail judgement and the synthesizers of the reference.
-/
namespace Sys2Proof.Laws.Power

open Sys2Proof.Machine
open Sys2Proof.Laws.Writes

theorem heldFor_iff (c : Bool) (o : Option Nat) (now f : Nat) : heldFor (sinceWhen c o now) now f = true ↔ c = true ∧ o.getD now + f * 1000 ≤ now := by
  unfold sinceWhen heldFor
  cases c
  · simp
  · simp

theorem react (s1 : State) (r : Nat) (j k : Judge) :
      ((k.warned = false ∨ j.warned = true) ∧ (k.faulted = false ∨ j.faulted = true) → nx (s1.railReact r j k) = nx s1)
      ∧ (k.warned = true ∧ j.warned = false ∧ (k.faulted = false ∨ j.faulted = true) →
        nx (s1.railReact r j k) = nx (((s1.setFlag (F.PWR_RAIL_WARN r)).raise (if r < 8 then 352 else 354)).raiseEv (s1.fld F.PWR_EVGRP_HANDLE) 2))
      ∧ ((k.warned = false ∨ j.warned = true) ∧ k.faulted = true ∧ j.faulted = false →
        (r < 8 → nx (s1.railReact r j k) = nx (((s1.setFlag (F.PWR_RAIL_FAULT r)).raise 353).drydown 2 r))
        ∧ (8 ≤ r → nx (s1.railReact r j k) = nx ((s1.setFlag (F.PWR_RAIL_FAULT r)).raise 355))) := by
  have b0 : ∀ a b : Bool, (a = false ∨ b = true) → (a && !b) = false := by decide
  have b1 : ∀ a b : Bool, a = true → b = false → (a && !b) = true := by decide
  have wt (x : State) (f : State → State) : x.when true f = f x := rfl
  have wf (x : State) (f : State → State) : x.when false f = x := rfl
  unfold State.railReact
  refine ⟨fun ⟨a, b⟩ => ?_, fun ⟨a, b, c⟩ => ?_, fun ⟨a, b, c⟩ => ⟨fun d => ?_, fun d => ?_⟩⟩
  · rw [b0 _ _ a, b0 _ _ b, wf, wf]
  · rw [b1 _ _ a b, b0 _ _ c, wf, wt]
  · rw [b0 _ _ a, b1 _ _ b c, wf, wt]
    dsimp only
    rw [if_pos d]
  · rw [b0 _ _ a, b1 _ _ b c, wf, wt]
    dsimp only
    rw [if_neg (Nat.not_lt.2 d)]

theorem idle7 (u : State) (g : State → Nat → State) (h : ∀ k < 7, u.pllRuns k = false) :
    u.each (List.range 7) (fun t n => if t.pllRuns n = false ∨ t.flag (F.CLK_STATUS_LOCK n) = false then t else g t n) = u := by
  unfold State.each
  have : ∀ l : List Nat, (∀ k ∈ l, k < 7) → l.foldl (fun t n => if t.pllRuns n = false ∨ t.flag (F.CLK_STATUS_LOCK n) = false then t else g t n) u = u := by
    intro l hl
    induction l with
    | nil => rfl
    | cons k r ih =>
      rw [List.foldl_cons, if_pos (.inl (h k (hl k (List.mem_cons_self ..))))]
      exact ih (fun x hx => hl x (List.mem_cons_of_mem _ hx))
  exact this _ (fun k hk => List.mem_range.1 hk)

end Sys2Proof.Laws.Power
end

