-- ==== Sys2Proof/Laws/Scan.lean ====
section
/-!
SUPPORT. The scan: what the end of a facet, its start and an accepted beam detect do and leave.
-/
namespace Sys2Proof.Laws.Scan

open Sys2Proof.Machine
open Sys2Proof.Laws.Writes

def ecf (s : State) := (s.exp, s.cores, s.fuses)

theorem ecf_iff (s t : State) : ecf s = ecf t ↔ s.exp = t.exp ∧ s.cores = t.cores ∧ s.fuses = t.fuses := by
  unfold ecf; simp [Prod.ext_iff]

theorem spoilPage_exp (s : State) (a b c d : Nat) (e : Bool) : (s.spoilPage a b c d e).exp = s.exp := by
  unfold State.spoilPage
  split
  · rfl
  · split
    · rfl
    · simp only [State.modPage_frame]

theorem spoilPage_cores (s : State) (a b c d : Nat) (e : Bool) : (s.spoilPage a b c d e).cores = s.cores := by
  unfold State.spoilPage
  split
  · rfl
  · split
    · rfl
    · simp only [State.modPage_frame]

theorem spoilPage_fuses (s : State) (a b c d : Nat) (e : Bool) : (s.spoilPage a b c d e).fuses = s.fuses := by
  unfold State.spoilPage
  split
  · rfl
  · split
    · rfl
    · simp only [State.modPage_frame]

theorem spoilPage_facts (s : State) (a b c d : Nat) (e : Bool) : ecf (s.spoilPage a b c d e) = ecf s :=
  (ecf_iff _ _).2 ⟨spoilPage_exp _ _ _ _ _ _, spoilPage_cores _ _ _ _ _ _, spoilPage_fuses _ _ _ _ _ _⟩

theorem degradePage_facts (s : State) (a b c d : Nat) : ecf (s.degradePage a b c d) = ecf s := by
  unfold State.degradePage; exact (ecf_iff _ _).2 ⟨by simp only [State.modPage_frame], by simp only [State.modPage_frame], by simp only [State.modPage_frame]⟩

theorem deadLine_facts (s : State) (i line k : Nat) : ecf (s.deadLine i line k) = ecf s :=
  withSome_keeps ecf _ _ _ (fun _ => withSome_keeps ecf _ _ _ (fun _ => degradePage_facts _ _ _ _ _))

theorem deadLines_facts (s : State) (i : Nat) : ecf (s.deadLines i) = ecf s := by
  unfold State.deadLines
  split
  · rfl
  · exact each_keeps ecf _ _ _ (fun t b => each_keeps ecf _ _ _ (fun u k => deadLine_facts _ _ _ _))

theorem laserCheck_facts (s : State) (i : Nat) : ecf (s.laserCheck i) = ecf s := by
  unfold State.laserCheck
  generalize lineDist = g
  split
  · rfl
  · refine each_keeps ecf _ _ _ (fun t k => ?_)
    split
    · rfl
    · split
      · exact spoilPage_facts _ _ _ _ _ _
      · rfl

theorem showMap_facts (s : State) (k : Nat → Nat) (v : Nat) : (s.showMap k v).exp = s.exp ∧ (s.showMap k v).cores = s.cores ∧ (s.showMap k v).fuses = s.fuses :=
  (ecf_iff _ _).1 (each_keeps ecf _ _ _ (fun _ _ => rfl))

theorem lacReplace_facts (s : State) (i : Nat) : ecf (s.lacReplace i) = ecf s := by
  unfold State.lacReplace ecf
  simp only [State.putFlag_frame, State.raiseIf_frame, State.setFld_frame]

theorem lacShow_facts (s : State) (i : Nat) : ecf (s.lacShow i) = ecf s := by
  unfold State.lacShow
  rw [lacReplace_facts]
  unfold ecf
  simp only [State.setFld_frame, State.raiseIf_frame]
  rw [(showMap_facts _ _ _).1, (showMap_facts _ _ _).1, (showMap_facts _ _ _).2.1, (showMap_facts _ _ _).2.1, (showMap_facts _ _ _).2.2, (showMap_facts _ _ _).2.2]

theorem takeMap_facts (s : State) (i d : Nat) : ecf (s.takeMap i d) = ecf s := by
  unfold State.takeMap
  rw [lacShow_facts]; unfold ecf; simp only [State.modLac_frame]

theorem lanesForPass_facts (s : State) (i : Nat) : ecf (s.lanesForPass i) = ecf s := by
  unfold State.lanesForPass
  split
  · rfl
  · exact takeMap_facts _ _ _

theorem cutover_facts (s : State) (i : Nat) : ecf (s.cutover i) = ecf s := by
  unfold State.cutover
  dsimp only
  split
  · rfl
  · rw [takeMap_facts]; unfold ecf; simp only [State.putFlag_frame, State.modLac_frame]

def exk (s : State) (i : Nat) := ((vget s.exp i).origin, (vget s.exp i).inScan, (vget s.exp i).facets, s.cores, s.fuses)

theorem exk_of (s t : State) (i : Nat) (h : ecf s = ecf t) : exk s i = exk t i := by
  obtain ⟨h1, h2, h3⟩ := (ecf_iff _ _).1 h
  unfold exk; rw [h1, h2, h3]

theorem exp_modExp (s : State) (i : Nat) (f : ExpSt → ExpSt) (hi : i < 4) : vget (s.modExp i f).exp i = f (vget s.exp i) := vget_vmod_same _ _ hi

/-- The facet-start mark leaves the facet's own state but for the probes it names. -/
theorem sendFsm_facts (s : State) (i : Nat) (hi : i < 4) : exk (s.sendFsm i) i = exk s i := by
  unfold State.sendFsm
  split
  · rfl
  · generalize ux 24 _ = n
    unfold exk
    simp only [State.tookFree_frame, State.modExp_frame, State.modElk_frame]
    rw [exp_modExp _ _ _ hi]
    rfl

theorem swapPoint_facts (s : State) (i : Nat) (hi : i < 4) : exk (s.swapPoint i) i = exk s i := by
  unfold State.swapPoint
  dsimp only
  split
  · unfold State.fireSwap State.fireDirty exk
    generalize State.dirtyKeys = l
    dsimp only
    simp only [State.setFld_frame, State.setFlag_frame, State.putFlag_frame, State.modExp_frame, State.modElk_frame]
    rw [exp_modExp _ _ _ hi]
  · rfl

theorem spoil_keeps (g : State → α) (hg : ∀ t i f, g (State.modPage t i f) = g t) (s : State) (a b c d : Nat) (e : Bool) : g (s.spoilPage a b c d e) = g s := by
  unfold State.spoilPage
  split
  · rfl
  · split
    · rfl
    · exact hg _ _ _

theorem frameMissed_facts (s : State) (i : Nat) (f : Frame) (k : Nat) : ecf (s.frameMissed i f k) = ecf s :=
  withSome_keeps ecf _ _ _ (fun _ => withSome_keeps ecf _ _ _ (fun _ => spoilPage_facts _ _ _ _ _ _))

/-- Frames left unsent spoil pages and leave the facet. -/
theorem dropUnsent_facts (s : State) (i : Nat) : ecf (s.dropUnsent i) = ecf s := by
  unfold State.dropUnsent
  have : ecf (s.each (s.unsent i) (fun t f => t.frameLate i f)) = ecf s :=
    each_keeps ecf _ _ _ (fun t f => each_keeps ecf _ _ _ (fun u k => frameMissed_facts _ _ _ _))
  rw [← this]
  unfold ecf
  simp only [State.modElk_frame, State.modLac_frame]

theorem settleDuty_facts (s : State) (i : Nat) : ecf (s.settleDuty i) = ecf s := by
  unfold State.settleDuty ecf
  simp only [State.modLac_frame]

theorem scanEnd_facts (s : State) (i : Nat) (hi : i < 4) : (vget (s.scanEnd i).exp i).facets = (vget s.exp i).facets ∧ (s.scanEnd i).cores = s.cores ∧ (s.scanEnd i).fuses = s.fuses := by
  unfold State.scanEnd
  split
  · exact ⟨rfl, rfl, rfl⟩
  · obtain ⟨h1, h2, h3⟩ := (ecf_iff _ _).1 ((settleDuty_facts (s.dropUnsent i) i).trans (dropUnsent_facts s i))
    simp only [State.modExp_frame]
    rw [exp_modExp _ _ _ hi, h1]
    exact ⟨rfl, h2, h3⟩

theorem copyActive_facts (s : State) (i : Nat) (hi : i < 4) : (vget (s.copyActive i).exp i).facets = (vget s.exp i).facets ∧ (s.copyActive i).cores = s.cores ∧ (s.copyActive i).fuses = s.fuses := by
  unfold State.copyActive
  split
  · simp only [State.modExp_frame, State.modAcd_frame]
    rw [exp_modExp _ _ _ hi]
    exact ⟨rfl, trivial, trivial⟩
  · exact ⟨rfl, rfl, rfl⟩

theorem facetStart_facts (s : State) (i o : Nat) (a : Bool) (hi : i < 4) :
    exk (s.facetStart i o a) i = (o, true, ((vget s.exp i).facets + 1) % 2 ^ 32, s.cores, s.fuses) := by
  unfold State.facetStart
  have h0 := copyActive_facts (s.scanEnd i) i hi
  have h1 := scanEnd_facts s i hi
  generalize (s.scanEnd i).copyActive i = u at *
  dsimp only
  generalize hu : State.modExp u i _ = w
  have hw : exk w i = (o, true, ((vget s.exp i).facets + 1) % 2 ^ 32, s.cores, s.fuses) := by
    rw [← hu]
    unfold exk
    rw [exp_modExp _ _ _ hi]
    simp only [State.modExp_frame]
    rw [h0.2.1, h0.2.2, h1.2.1, h1.2.2, h0.1, h1.1]
  clear hu
  have hx : ∀ x : State, exk x i = exk w i → exk (if (x.lowestLocked == some i) = true then x.modAcd (fun a => { a with stateDue := true, handoverDue := a.handoverDue || a.handover }) else x) i = exk w i := by
    intro x hx
    split
    · rw [← hx]; unfold exk; simp only [State.modAcd_frame]
    · exact hx
  refine (hx _ ?_).trans hw
  rw [exk_of _ _ i (laserCheck_facts _ i), exk_of _ _ i (deadLines_facts _ i), sendFsm_facts _ i hi, exk_of _ _ i (lanesForPass_facts _ i), exk_of _ _ i (cutover_facts _ i), swapPoint_facts _ i hi]
  unfold exk
  simp only [State.putFlag_frame, State.modLac_frame, State.modElk_frame]

theorem near_iff (s : State) (i u interval : Nat) :
    s.nearUnits i u interval = true
    ↔ (u ≤ interval + 64 * max 1 (s.fld (F.EXP_SCAN_BD_WIN i)) ∧ interval ≤ u + 64 * max 1 (s.fld (F.EXP_SCAN_BD_WIN i))) := by
  unfold State.nearUnits State.winUnits
  simp

theorem setEvp_core (s : State) (k v n : Nat) (h : k < 24) : (s.setEvp k v).core n = if n = k then { s.core n with evp := (s.core n).evp ||| v % 2 ^ 31 } else s.core n := by
  unfold State.setEvp
  split
  · next e => subst e; rw [State.core_modCore _ _ _ h]
  · next e => rw [State.core_modCore_ne _ _ (Ne.symm e)]

theorem evps_core (v n : Nat) (l : List Nat) (hl : l.Nodup) (hb : ∀ k ∈ l, k < 24) (s : State) :
    (l.foldl (fun t n => if t.hasCore n then t.setEvp n v else t) s).core n
      = if n ∈ l ∧ s.hasCore n = true then { s.core n with evp := (s.core n).evp ||| v % 2 ^ 31 } else s.core n := by
  induction l generalizing s with
  | nil => simp
  | cons k r ih =>
    rw [List.foldl_cons, ih (List.nodup_cons.1 hl).2 (fun x hx => hb x (List.mem_cons_of_mem _ hx))]
    have hk := hb k List.mem_cons_self
    have hnk := (List.nodup_cons.1 hl).1
    have hh : (if s.hasCore k = true then s.setEvp k v else s).hasCore n = s.hasCore n := by split <;> rfl
    rw [hh]
    have hcore : (if s.hasCore k = true then s.setEvp k v else s).core n
        = if n = k ∧ s.hasCore n = true then { s.core n with evp := (s.core n).evp ||| v % 2 ^ 31 } else s.core n := by
      by_cases hc : s.hasCore k = true
      · rw [if_pos hc, setEvp_core _ _ _ _ hk]
        by_cases e : n = k
        · subst e; rw [if_pos rfl, if_pos ⟨rfl, hc⟩]
        · rw [if_neg e, if_neg (fun x => e x.1)]
      · rw [if_neg hc, if_neg]
        rintro ⟨e, h2⟩; subst e; exact hc h2
    rw [hcore]
    by_cases e : n = k
    · subst e
      rw [if_neg (fun x => hnk x.1)]
      simp
    · simp only [List.mem_cons, e, false_or, false_and, if_false]

theorem setEvp_exp (s : State) (n m : Nat) : (s.setEvp n m).exp = s.exp := rfl

theorem bdAccept_facts (s : State) (i interval fine : Nat) (hi : i < 4) :
    (vget (s.bdAccept i interval fine).exp i).origin = s.now ∧ (vget (s.bdAccept i interval fine).exp i).inScan = true
    ∧ (vget (s.bdAccept i interval fine).exp i).fly = 0
    ∧ (vget (s.bdAccept i interval fine).exp i).facets = ((vget s.exp i).facets + 1) % 2 ^ 32 ∧ (vget (s.bdAccept i interval fine).exp i).bdt = s.now
    ∧ (vget (s.bdAccept i interval fine).exp i).fper = interval ∧ (vget (s.bdAccept i interval fine).exp i).fine = fine % 8192
    ∧ ∀ n < 24, s.hasCore n = true → ((s.bdAccept i interval fine).core n).evp = (s.core n).evp ||| 2 ^ (24 + i) := by
  have h := facetStart_facts s i s.now true hi
  unfold State.bdAccept
  generalize s.facetStart i s.now true = u at *
  generalize s.originUnits i fine = un
  generalize s.now = tm at *
  have h1 : (vget u.exp i).origin = tm := congrArg (·.1) h
  have h2 : (vget u.exp i).inScan = true := congrArg (·.2.1) h
  have h3 : (vget u.exp i).facets = ((vget s.exp i).facets + 1) % 2 ^ 32 := congrArg (·.2.2.1) h
  have h4 : u.cores = s.cores := congrArg (·.2.2.2.1) h
  have h5 : u.fuses = s.fuses := congrArg (·.2.2.2.2) h
  dsimp only
  have hex : ∀ x : State, (x.each (List.range 24) (fun t n => if t.hasCore n then t.setEvp n (2 ^ (24 + i)) else t)).exp = x.exp := fun x =>
    each_keeps (·.exp) _ _ _ (fun t n => by split <;> rfl)
  rw [hex, exp_modExp _ _ _ hi]
  refine ⟨h1, h2, rfl, h3, rfl, rfl, rfl, fun n hn hc => ?_⟩
  have hcore_ : ∀ f, (u.modExp i f).hasCore n = s.hasCore n := by
    intro f; have e : (u.modExp i f).fuses = s.fuses := h5
    unfold State.hasCore State.hasDch State.variant; rw [e]
  unfold State.each
  rw [evps_core _ _ _ List.nodup_range (fun k hk => List.mem_range.1 hk), if_pos ⟨List.mem_range.2 hn, (hcore_ _).trans hc⟩]
  · have : ∀ f, (u.modExp i f).core n = s.core n := by
      intro f; unfold State.core State.modExp; rw [h4]
    rw [this]
    have : 2 ^ (24 + i) % 2 ^ 31 = 2 ^ (24 + i) := by
      have : i = 0 ∨ i = 1 ∨ i = 2 ∨ i = 3 := by omega
      rcases this with h | h | h | h <;> subst h <;> rfl
    rw [this]

theorem tone_any (w : Nat) : ((List.range 8).any (fun j => bits w (4 * j) 4 == 1) = true) ↔ ∃ j < 8, w / 16 ^ j % 16 = 1 := by
  rw [List.any_eq_true]
  have : ∀ j, (bits w (4 * j) 4 == 1) = true ↔ w / 16 ^ j % 16 = 1 := by
    intro j
    have e : (2 : Nat) ^ (4 * j) = 16 ^ j := (Nat.pow_mul 2 4 j).trans (congrArg (fun k => k ^ j) (by decide))
    unfold bits
    exact beq_iff_eq.trans (Iff.of_eq (congrArg (fun k => w / k % 16 = 1) e))
  constructor
  · rintro ⟨j, hj, h⟩; exact ⟨j, List.mem_range.1 hj, (this j).1 h⟩
  · rintro ⟨j, hj, h⟩; exact ⟨j, List.mem_range.2 hj, (this j).2 h⟩

theorem lac_modLac (s : State) (i : Nat) (f : LacSt → LacSt) (hi : i < 4) : vget (s.modLac i f).lac i = f (vget s.lac i) := vget_vmod_same _ _ hi

theorem elk_modElk (s : State) (i : Nat) (f : ElkSt → ElkSt) (hi : i < 4) : vget (s.modElk i f).elk i = f (vget s.elk i) := vget_vmod_same _ _ hi

theorem plain_regs (s : State) (k : Nat) (v : Word) : ∃ r, s.plainWrite k v = { s with regs := r } := by
  unfold State.plainWrite; split
  · exact ⟨_, rfl⟩
  · exact ⟨_, rfl⟩


theorem degradePage_lac (s : State) (a b c d : Nat) : (s.degradePage a b c d).lac = s.lac := by
  unfold State.degradePage; simp only [State.modPage_frame]

theorem countClip_lac (s : State) (i : Nat) (p : Option (Nat × Nat)) (h : Bool) : (s.countClip i p h).lac = s.lac := by
  unfold State.countClip
  cases p with
  | none => dsimp only; simp only [State.addSat_frame]
  | some q => dsimp only; simp only [State.raise_frame]; rw [degradePage_lac]; simp only [State.addSat_frame, State.modPage_frame]

theorem map_spec : ∀ i : Fin 4, ∀ b : Fin 128, (findReg (0x24 + i.val) (0x400 + 4 * b.val)).any (fun r => r.fields.contains ⟨0, 10, .rw, false, 0⟩) = true := by
  decide

theorem elim_spec : ∀ i : Fin 4, ∀ b : Fin 128, (findReg (0x24 + i.val) (0x800 + 4 * b.val)).any (fun r => r.fields.contains ⟨0, 9, .rw, false, 154⟩) = true := by
  decide


end Sys2Proof.Laws.Scan
end

