-- ==== Sys2Proof/Laws/Sector.lean ====
section
/-!
SUPPORT. Bounds of a recorded sector and the inverse of its scrambling.
-/
namespace Sys2Proof.Laws.Sector

open Sys2Proof.Machine
open Sys2Proof.Laws.Writes

theorem leBytes_ofLe (l : List Byte) : leBytes l.length (ofLe l) = l := by
  induction l with
  | nil => rfl
  | cons b r ih =>
    show BitVec.ofNat 8 (b.toNat + 256 * ofLe r) :: leBytes r.length ((b.toNat + 256 * ofLe r) / 256) = _
    have hb := b.isLt
    rw [show (b.toNat + 256 * ofLe r) / 256 = ofLe r by omega, ih]
    congr 1
    apply BitVec.eq_of_toNat_eq
    rw [BitVec.toNat_ofNat]; omega

theorem ofLe_lt (l : List Byte) : ofLe l < 256 ^ l.length := by
  induction l with
  | nil => exact Nat.one_pos
  | cons b r ih =>
    show b.toNat + 256 * ofLe r < 256 ^ (r.length + 1)
    have hb := b.isLt
    rw [Nat.pow_succ]; omega

theorem lfsr_lt (n r : Nat) : lfsrBits n r < 2 ^ n := by
  induction n generalizing r with
  | zero => exact Nat.one_pos
  | succ n ih =>
    show r % 2 + 2 * lfsrBits n (lfsrStep r) < 2 ^ (n + 1)
    have := ih (lfsrStep r)
    rw [Nat.pow_succ]; omega

theorem circ_lt (s x : Nat) : circ s x < 2 ^ 128 := Nat.mod_lt _ (Nat.two_pow_pos _)

theorem xorAt_ok (l : List Nat) (i v : Nat) (h : ∀ e ∈ l, e < 2 ^ 128) (hv : v < 2 ^ 128) : ∀ e ∈ xorAt l i v, e < 2 ^ 128 := by
  unfold xorAt
  intro e he
  rw [List.mem_iff_getElem] at he
  obtain ⟨j, hj, rfl⟩ := he
  rw [List.getElem_modify]
  rw [List.length_modify] at hj
  split
  · exact Nat.xor_lt_two_pow (h _ (List.getElem_mem _)) hv
  · exact h _ (List.getElem_mem _)

theorem rows_ok (u : Nat) : (ldpcRows u).length = 31 ∧ ∀ e ∈ ldpcRows u, e < 2 ^ 128 := by
  unfold ldpcRows
  suffices H : ∀ (js : List Nat) (acc : List Nat), (acc.length = 31 ∧ ∀ e ∈ acc, e < 2 ^ 128) →
      ((js.foldl (fun acc j =>
        let col := bits u (128 * j) 128
        (List.range 3).foldl (fun a k => xorAt a ((j + 11 * k) % 31) (circ ((37 * k + j * (2 * k + 1)) % 128) col)) acc) acc).length = 31 ∧
       ∀ e ∈ (js.foldl (fun acc j =>
        let col := bits u (128 * j) 128
        (List.range 3).foldl (fun a k => xorAt a ((j + 11 * k) % 31) (circ ((37 * k + j * (2 * k + 1)) % 128) col)) acc) acc), e < 2 ^ 128) by
    apply H
    refine ⟨List.length_replicate, fun e he => ?_⟩
    rw [(List.mem_replicate.1 he).2]; exact Nat.two_pow_pos _
  intro js
  induction js with
  | nil => intro acc h; exact h
  | cons j r ih =>
    intro acc h
    rw [List.foldl_cons]
    apply ih
    dsimp only
    generalize bits u (128 * j) 128 = col
    generalize List.range 3 = ks
    induction ks generalizing acc with
    | nil => exact h
    | cons k ks ih2 =>
      rw [List.foldl_cons]
      apply ih2
      exact ⟨by unfold xorAt; rw [List.length_modify]; exact h.1, xorAt_ok _ _ _ h.2 (circ_lt _ _)⟩

theorem parity_ok (l : List Nat) (p : Nat) (hp : p < 2 ^ 128) (h : ∀ e ∈ l, e < 2 ^ 128) : (ldpcParity l p).length = l.length ∧ ∀ e ∈ ldpcParity l p, e < 2 ^ 128 := by
  induction l generalizing p with
  | nil => exact ⟨rfl, fun e he => absurd he (List.not_mem_nil)⟩
  | cons x r ih =>
    have hx : x ^^^ p < 2 ^ 128 := Nat.xor_lt_two_pow (h x (List.mem_cons_self)) hp
    obtain ⟨a, b⟩ := ih (x ^^^ p) hx (fun e he => h e (List.mem_cons_of_mem _ he))
    refine ⟨congrArg (· + 1) a, fun e he => ?_⟩
    rcases List.mem_cons.1 he with rfl | he
    · exact hx
    · exact b e he

theorem pack_lt (l : List Nat) (h : ∀ e ∈ l, e < 2 ^ 128) : pack128 l < 2 ^ (128 * l.length) := by
  induction l with
  | nil => exact Nat.one_pos
  | cons x r ih =>
    show x + 2 ^ 128 * pack128 r < 2 ^ (128 * (r.length + 1))
    have hx := h x List.mem_cons_self
    have hr := ih (fun e he => h e (List.mem_cons_of_mem _ he))
    rw [Nat.mul_add, Nat.pow_add, Nat.mul_one]
    generalize 2 ^ (128 * r.length) = A at *
    generalize pack128 r = B at *
    have : 2 ^ 128 * (B + 1) ≤ 2 ^ 128 * A := Nat.mul_le_mul_left _ hr
    rw [Nat.mul_comm A]; omega

theorem par_lt (u : Nat) : pack128 (ldpcParity (ldpcRows u) 0) < 2 ^ 3968 := by
  obtain ⟨a, b⟩ := rows_ok u
  obtain ⟨c, d⟩ := parity_ok (ldpcRows u) 0 (Nat.two_pow_pos _) b
  have := pack_lt _ d
  rw [c, a] at this
  exact this

theorem enc_split (A P K : Nat) (h : A < 2 ^ K) : (A + P * 2 ^ K) / 2 ^ K = P ∧ (A + P * 2 ^ K) % 2 ^ K = A := by
  constructor
  · rw [Nat.add_mul_div_right _ _ (Nat.two_pow_pos _), Nat.div_eq_of_lt h, Nat.zero_add]
  · rw [Nat.add_mul_mod_self_right, Nat.mod_eq_of_lt h]

theorem enc_lt (A P K L : Nat) (h : A < 2 ^ K) (hP : P < 2 ^ L) : A + P * 2 ^ K < 2 ^ (K + L) := by
  rw [Nat.pow_add]
  generalize 2 ^ K = X at *
  generalize 2 ^ L = Y at *
  have h2 : X * (P + 1) ≤ X * Y := Nat.mul_le_mul_left _ hP
  rw [Nat.mul_add, Nat.mul_comm X P] at h2
  omega

theorem scr_lt (c e : Nat) (h : e < 2 ^ 36864) : scramble c e < 2 ^ 36864 := Nat.xor_lt_two_pow h (lfsr_lt _ _)

theorem scr_scr (a b e : Nat) (h : a % 65535 = b % 65535) : scramble a (scramble b e) = e := by
  unfold scramble
  rw [h, Nat.xor_assoc, Nat.xor_self, Nat.xor_zero]

theorem meta_word (cblk : Nat) (nd : Bool) : cblk % 2 ^ 48 + b2n nd * 2 ^ 48 + 0x01 * 2 ^ 56 < 256 ^ 8
    ∧ (cblk % 2 ^ 48 + b2n nd * 2 ^ 48 + 0x01 * 2 ^ 56) / 2 ^ 56 % 2 ^ 8 = 1
    ∧ (cblk % 2 ^ 48 + b2n nd * 2 ^ 48 + 0x01 * 2 ^ 56) % 2 ^ 48 = cblk % 2 ^ 48
    ∧ bit (cblk % 2 ^ 48 + b2n nd * 2 ^ 48 + 0x01 * 2 ^ 56) 48 = nd := by
  have h : cblk % 2 ^ 48 < 2 ^ 48 := Nat.mod_lt _ (Nat.two_pow_pos _)
  generalize cblk % 2 ^ 48 = x at *
  unfold bit b2n
  cases nd <;> (refine ⟨?_, ?_, ?_, ?_⟩ <;> simp <;> omega)

theorem crcBit_lt (c : Nat) (h : c < 2 ^ 32) : crcBit c < 2 ^ 32 := by
  unfold crcBit
  split
  · exact Nat.xor_lt_two_pow (by omega) (by decide)
  · omega

theorem crcByte_lt (c : Nat) (b : Byte) (h : c < 2 ^ 32) : crcByte c b < 2 ^ 32 := by
  unfold crcByte
  have : c ^^^ b.toNat < 2 ^ 32 := Nat.xor_lt_two_pow h (by have := b.isLt; omega)
  exact crcBit_lt _ (crcBit_lt _ (crcBit_lt _ (crcBit_lt _ (crcBit_lt _ (crcBit_lt _ (crcBit_lt _ (crcBit_lt _ this)))))))

theorem crc_lt32 (l : List Byte) : crc32c l < 2 ^ 32 := by
  unfold crc32c
  refine Nat.xor_lt_two_pow ?_ (by decide)
  have : ∀ (l : List Byte) c, c < 2 ^ 32 → l.foldl crcByte c < 2 ^ 32 := by
    intro l
    induction l with
    | nil => intro c h; exact h
    | cons b r ih => intro c h; rw [List.foldl_cons]; exact ih _ (crcByte_lt _ _ h)
  exact this l _ (by decide)

theorem crc_lt (l : List Byte) : crc32c l < 256 ^ 4 := crc_lt32 l

theorem bits_mid (A B c K M : Nat) (hA : A < 2 ^ K) (hc : c < 2 ^ M) : (A + c * 2 ^ K + B * 2 ^ (M + K)) / 2 ^ K % 2 ^ M = c := by
  rw [Nat.pow_add, ← Nat.mul_assoc, Nat.add_assoc, ← Nat.add_mul, (enc_split A (c + B * 2 ^ M) K hA).1, (enc_split c B M hc).2]

theorem bits_all (A B c K M L : Nat) (hA : A < 2 ^ K) (hc : c < 2 ^ M) (hB : B < 2 ^ L) : A + c * 2 ^ K + B * 2 ^ (M + K) < 2 ^ (M + K + L) := by
  have h := enc_lt A c K M hA hc
  rw [Nat.add_comm K M] at h
  exact enc_lt _ _ _ _ h hB

end Sys2Proof.Laws.Sector
end

