-- ==== Sys2Proof/Laws/Servo.lean ====
section
/-!
SUPPORT. Servo registers and actuators.
-/
namespace Sys2Proof.Laws.Servo

open Sys2Proof.Machine
open Sys2Proof.Laws.Writes

theorem dsk_win (s : State) (d : Fin 8) (h : s.hasDch d.val = true) : s.windowPresent (0x40 + d.val) = true ∧ s.windowPresent (0x48 + d.val / 2) = true := by
  have := d.isLt
  have h2 : d.val < 2 * s.variant.hdas := of_decide_eq_true h
  unfold State.windowPresent
  refine ⟨?_, ?_⟩
  · repeat rw [if_neg (by omega)]
    rw [if_pos (by omega), show 0x40 + d.val - 0x40 = d.val by omega, h]
  · repeat rw [if_neg (by omega)]
    rw [if_pos (by omega), show 0x48 + d.val / 2 - 0x48 = d.val / 2 by omega]
    exact decide_eq_true (by omega)

theorem cap48 (s : State) (d cap : Nat) (_ : cap < 2 ^ 48) (hi : s.fld (F.DSK_CAP_HI_CAP d) = cap / 2 ^ 32) (lo : s.reg (R.DSK_CAP_LO d) = BitVec.ofNat 32 cap) : s.chanCap d = cap := by
  unfold State.chanCap
  rw [hi, lo, BitVec.toNat_ofNat]
  omega

theorem act_mod (s : State) (d : Fin 8) (f : ActSt → ActSt) : (s.modAct d.val f).act d.val = f (s.act d.val) := by
  have := d.isLt
  unfold State.act State.modAct State.modPort
  rw [show ∀ x, ({ s with ports := x } : State).ports = x from fun _ => rfl, vget_vmod_same _ _ (by omega)]
  dsimp only
  rw [vget_vmod_same _ _ (by omega)]

theorem modAct_fld (s : State) (d : Nat) (f : ActSt → ActSt) (g : Fld) : (s.modAct d f).fld g = s.fld g := rfl

theorem modAct_flag (s : State) (d : Nat) (f : ActSt → ActSt) (g : Fld) : (s.modAct d f).flag g = s.flag g := rfl

/-- Judging a write pass and noting the conditions leave every servo register. -/
theorem cut_flag (s : State) (d : Nat) (hd : d < 8) (g : Fld) (h : 0x480000 ≤ g.key) : (s.cutSector d).flag g = s.flag g := by
  unfold State.flag
  rw [(Gate.same_cut s d hd).reg _ h]

theorem note_flag (s : State) (d : Nat) (g : Fld) : (s.noteDisk d).flag g = s.flag g := rfl

theorem note_act (s : State) (d n : Nat) : (s.noteDisk d).act n = s.act n := rfl

theorem cut_act (s : State) (d : Nat) (hd : d < 8) (n : Nat) : (s.cutSector d).act n = s.act n := by
  unfold State.act
  rw [(Gate.same_cut s d hd).ports]

/-- The gate closes: GUARD is 1, the run of good frames starts again, and the other servo flags stay. -/
theorem guard_true (s : State) (d : Nat) (hd : d < 8) : (s.guardClose d).flag (F.SRV_ASTAT_GUARD (d / 2) (d % 2)) = true := by
  unfold State.guardClose
  dsimp only
  by_cases h : s.flag (F.SRV_ASTAT_GUARD (d / 2) (d % 2)) = true
  · rw [if_pos h]; exact h
  · rw [if_neg h, note_flag, raise_flag]
    unfold State.addSat
    rw [setFld_flag_apart _ _ _ _ (Nat.le_of_ble_eq_true rfl) rfl (Or.inl (by show 0x48011C + 0x10000 * (d / 2) + 0x40 * (d % 2) ≠ 0x480118 + 0x10000 * (d / 2) + 0x40 * (d % 2); omega))]
    exact State.flag_setFlag _ _ (Nat.le_of_ble_eq_true rfl) rfl

theorem guard_act (s : State) (d : Nat) (hd : d < 8) (g : Fld) (hg : g.width = 1) (h1 : (F.SRV_ASTAT_GUARD (d / 2) (d % 2)).apart g) (h2 : g.key = R.SRV_ASTAT (d / 2) (d % 2)) : (s.guardClose d).flag g = s.flag g := by
  unfold State.guardClose
  dsimp only
  split
  · rfl
  · rw [note_flag, raise_flag]
    unfold State.addSat State.setFlag
    rw [setFld_flag_apart _ _ _ _ (Nat.le_of_ble_eq_true rfl) hg (Or.inl (by rw [h2]; show 0x48011C + 0x10000 * (d / 2) + 0x40 * (d % 2) ≠ 0x480118 + 0x10000 * (d / 2) + 0x40 * (d % 2); omega)),
      setFld_flag_apart _ _ _ _ (Nat.le_of_ble_eq_true rfl) hg h1,
      cut_flag _ d hd g (by rw [h2]; show 0x480000 ≤ 0x480118 + 0x10000 * (d / 2) + 0x40 * (d % 2); omega)]
    rfl

theorem guard_mod (s : State) (d : Fin 8) : ∃ o b, (s.guardClose d.val).act d.val = { s.act d.val with okRun := o, guardSeen := b } := by
  refine ⟨0, true, ?_⟩
  have h1 := act_mod s d (fun a => { a with okRun := 0, guardSeen := true })
  unfold State.guardClose
  dsimp only
  generalize s.modAct d.val (fun a => { a with okRun := 0, guardSeen := true }) = u at *
  split
  · exact h1
  · rw [← h1, note_act]
    refine Eq.trans ?_ (cut_act u d.val d.isLt d.val)
    unfold State.act
    simp only [State.setFlag_frame, State.addSat_frame, State.raise_frame]

theorem frame_act (s : State) (d : Fin 8) : ∃ o b, (s.guardFrame d.val).act d.val = { s.act d.val with okRun := o, guardSeen := b } := by
  unfold State.guardFrame
  split
  · exact guard_mod s d
  · dsimp only
    have h1 := act_mod s d (fun a => { a with okRun := (s.act d.val).okRun + 1 })
    generalize s.modAct d.val (fun a => { a with okRun := (s.act d.val).okRun + 1 }) = u at *
    refine ⟨(s.act d.val).okRun + 1, (s.act d.val).guardSeen, ?_⟩
    rw [note_act]
    split
    · have : (u.clrFlag (F.SRV_ASTAT_GUARD (d.val / 2) (d.val % 2))).ports = u.ports := by simp only [State.clrFlag_frame]
      unfold State.act at *
      rw [this]; exact h1
    · exact h1

theorem frame_flag (s : State) (d : Nat) (hd : d < 8) (g : Fld) (hg : g.width = 1) (h1 : (F.SRV_ASTAT_GUARD (d / 2) (d % 2)).apart g) (h2 : g.key = R.SRV_ASTAT (d / 2) (d % 2)) : (s.guardFrame d).flag g = s.flag g := by
  unfold State.guardFrame
  split
  · exact guard_act s d hd g hg h1 h2
  · dsimp only
    rw [note_flag]
    split
    · unfold State.clrFlag
      rw [setFld_flag_apart _ _ _ _ (Nat.le_of_ble_eq_true rfl) hg h1]; rfl
    · rfl

theorem two_set (d : Fin 8) (f : Fld) (v : Word) (hw : f.width = 2) (h : bits v.toNat f.lo 2 = 2 ^ (d.val % 2)) : setBitsOf 2 (f.of v) = [d.val % 2] := by
  have e : f.of v = bits v.toNat f.lo f.width := rfl
  rw [e, hw, h]
  have : d.val % 2 = 0 ∨ d.val % 2 = 1 := by omega
  rcases this with x | x <;> rw [x] <;> rfl

end Sys2Proof.Laws.Servo
end

