-- ==== Sys2Proof/Laws/Sillage.lean ====
section
/-!
SUPPORT. Core test and the records of the sillage log.
-/
namespace Sys2Proof.Laws.Sillage

open Sys2Proof.Machine
open Sys2Proof.Laws.Writes

theorem get_filter {β : Type} (m : Tab β) (q : Nat × β → Bool) (a : Nat) (h : ∀ b, q (a, b) = true) : Tab.get (m.filter q) a = Tab.get m a := by
  induction m with
  | nil => rfl
  | cons e r ih =>
    obtain ⟨j, v⟩ := e
    rw [List.filter_cons]
    by_cases g : j = a
    · subst g
      rw [if_pos (h v)]
      show (if j = j then some v else _) = (if j = j then some v else _)
      rw [if_pos rfl, if_pos rfl]
    · have e2 : Tab.get ((j, v) :: r) a = Tab.get r a := if_neg g
      rw [e2]
      by_cases k : q (j, v) = true
      · rw [if_pos k]
        exact (if_neg g).trans ih
      · rw [if_neg k]; exact ih

theorem get_out {β : Type} (m : Tab β) (q : Nat × β → Bool) (a : Nat) (h : ∀ b, q (a, b) = false) : Tab.get (m.filter q) a = none := by
  induction m with
  | nil => rfl
  | cons e r ih =>
    obtain ⟨j, v⟩ := e
    rw [List.filter_cons]
    by_cases k : q (j, v) = true
    · rw [if_pos k]
      by_cases g : j = a
      · subst g; rw [h v] at k; cases k
      · exact (if_neg g).trans ih
    · rw [if_neg k]; exact ih

theorem zr_in (s : State) (b n a : Nat) (h1 : b ≤ a) (h2 : a < b + n) : (s.zeroRange b n).rd8 a = 0 := by
  unfold State.zeroRange State.rd8 Tab.getD
  dsimp only
  rw [get_out _ _ _ (fun x => ?_)]
  · rfl
  · show (decide (a < b) || decide (b + n ≤ a)) = false
    simp; omega

theorem zr_out (s : State) (b n a : Nat) (h : a < b ∨ b + n ≤ a) : (s.zeroRange b n).rd8 a = s.rd8 a := by
  unfold State.zeroRange State.rd8 Tab.getD
  dsimp only
  rw [get_filter _ _ _ (fun x => ?_)]
  show (decide (a < b) || decide (b + n ≤ a)) = true
  simpa using h

theorem clrBit_tb (n i : Nat) : bit (clrBit n i) i = false := by
  rw [bit_eq_testBit, clrBit_eq, setBits_testBit]
  simp

theorem setBit_tb (n i : Nat) : bit (setBit n i) i = true := by
  rw [bit_eq_testBit, setBit_testBit]
  simp

theorem mod_tb (n i w : Nat) (h : i < w) : bit (n % 2 ^ w) i = bit n i := by
  rw [bit_eq_testBit, bit_eq_testBit, Nat.testBit_mod_two_pow]
  simp [h]

theorem ct_facts (w : State) (n : Nat) (pass : Bool) (hn : n < 24) :
    let s1 := (w.clrFlag F.SYS_CTSTAT_CT_BUSY).setFlag F.SYS_CTSTAT_CT_DONE
    let failed := s1.fld F.SYS_CTSTAT_CORE_FAIL
    let t := if pass then s1.setFld F.SYS_CTSTAT_CORE_FAIL (clrBit failed n)
    else ((s1.setFld F.SYS_CTSTAT_CORE_FAIL (setBit failed n)).setFlag F.SYS_CTSTAT_CT_FAIL).raise 8
    t.mem = w.mem ∧ t.svc = w.svc ∧ t.flag F.SYS_CTSTAT_CT_BUSY = false ∧ t.flag F.SYS_CTSTAT_CT_DONE = true
        ∧ bit (t.fld F.SYS_CTSTAT_CORE_FAIL) n = !pass
        ∧ (pass = false → t.flag F.SYS_CTSTAT_CT_FAIL = true ∧ t.flt.raised = w.flt.raised ++ [8]) := by
  intro s1 failed
  have a1 : s1.flag F.SYS_CTSTAT_CT_BUSY = false := (setFld_flag_apart _ _ _ _ (Nat.le_of_ble_eq_true rfl) rfl (by (first | exact Or.inr (Or.inl (Nat.le_of_ble_eq_true rfl)) | exact Or.inr (Or.inr (Nat.le_of_ble_eq_true rfl)) | exact Or.inl (by decide) | (refine Or.inl (show _ + _ ≠ _ + _ from ?_); omega)))).trans (State.flag_clrFlag _ _ (Nat.le_of_ble_eq_true rfl) rfl)
  have a2 : s1.flag F.SYS_CTSTAT_CT_DONE = true := State.flag_setFlag _ _ (Nat.le_of_ble_eq_true rfl) rfl
  have a3 : s1.mem = w.mem := rfl
  have a4 : s1.svc = w.svc := rfl
  have a5 : s1.flt = w.flt := rfl
  clear_value failed
  clear_value s1
  cases pass
  · intro t
    have b1 : ∀ f : Fld, F.SYS_CTSTAT_CT_FAIL.apart f → f.width = 1 → F.SYS_CTSTAT_CORE_FAIL.apart f → t.flag f = s1.flag f := fun f h1 h2 h3 =>
      (raise_flag _ _ _).trans ((setFld_flag_apart _ _ _ _ (Nat.le_of_ble_eq_true rfl) h2 h1).trans (setFld_flag_apart _ _ _ _ (Nat.le_of_ble_eq_true rfl) h2 h3))
    have b2 : t.fld F.SYS_CTSTAT_CORE_FAIL = setBit failed n % 2 ^ 24 := (raise_fld _ _ _).trans ((State.fld_setFld_apart _ _ _ _ (Nat.le_of_ble_eq_true rfl) (by (first | exact Or.inr (Or.inl (Nat.le_of_ble_eq_true rfl)) | exact Or.inr (Or.inr (Nat.le_of_ble_eq_true rfl)) | exact Or.inl (by decide) | (refine Or.inl (show _ + _ ≠ _ + _ from ?_); omega)))).trans (State.fld_setFld_same s1 F.SYS_CTSTAT_CORE_FAIL _ (Nat.le_of_ble_eq_true rfl)))
    have b3 : t.flag F.SYS_CTSTAT_CT_FAIL = true := (raise_flag _ _ _).trans (State.flag_setFlag _ _ (Nat.le_of_ble_eq_true rfl) rfl)
    have b4 : t.flt.raised = s1.flt.raised ++ [8] := rfl
    refine ⟨a3, a4, (b1 _ (by (first | exact Or.inr (Or.inl (Nat.le_of_ble_eq_true rfl)) | exact Or.inr (Or.inr (Nat.le_of_ble_eq_true rfl)) | exact Or.inl (by decide) | (refine Or.inl (show _ + _ ≠ _ + _ from ?_); omega))) rfl (by (first | exact Or.inr (Or.inl (Nat.le_of_ble_eq_true rfl)) | exact Or.inr (Or.inr (Nat.le_of_ble_eq_true rfl)) | exact Or.inl (by decide) | (refine Or.inl (show _ + _ ≠ _ + _ from ?_); omega)))).trans a1, (b1 _ (by (first | exact Or.inr (Or.inl (Nat.le_of_ble_eq_true rfl)) | exact Or.inr (Or.inr (Nat.le_of_ble_eq_true rfl)) | exact Or.inl (by decide) | (refine Or.inl (show _ + _ ≠ _ + _ from ?_); omega))) rfl (by (first | exact Or.inr (Or.inl (Nat.le_of_ble_eq_true rfl)) | exact Or.inr (Or.inr (Nat.le_of_ble_eq_true rfl)) | exact Or.inl (by decide) | (refine Or.inl (show _ + _ ≠ _ + _ from ?_); omega)))).trans a2, ?_, fun _ => ⟨b3, by rw [b4, a5]⟩⟩
    rw [b2, mod_tb _ _ _ hn, setBit_tb]; rfl
  · intro t
    have b1 : ∀ f : Fld, f.width = 1 → F.SYS_CTSTAT_CORE_FAIL.apart f → t.flag f = s1.flag f := fun f h2 h3 =>
      (setFld_flag_apart _ _ _ _ (Nat.le_of_ble_eq_true rfl) h2 h3)
    have b2 : t.fld F.SYS_CTSTAT_CORE_FAIL = clrBit failed n % 2 ^ 24 := State.fld_setFld_same s1 F.SYS_CTSTAT_CORE_FAIL _ (Nat.le_of_ble_eq_true rfl)
    refine ⟨a3, a4, (b1 _ rfl (by (first | exact Or.inr (Or.inl (Nat.le_of_ble_eq_true rfl)) | exact Or.inr (Or.inr (Nat.le_of_ble_eq_true rfl)) | exact Or.inl (by decide) | (refine Or.inl (show _ + _ ≠ _ + _ from ?_); omega)))).trans a1, (b1 _ rfl (by (first | exact Or.inr (Or.inl (Nat.le_of_ble_eq_true rfl)) | exact Or.inr (Or.inr (Nat.le_of_ble_eq_true rfl)) | exact Or.inl (by decide) | (refine Or.inl (show _ + _ ≠ _ + _ from ?_); omega)))).trans a2, ?_, fun h => (by cases h)⟩
    rw [b2, mod_tb _ _ _ hn, clrBit_tb]; rfl

theorem rdB_split (s : State) (a : Nat) (l : List Byte) (n : Nat) (h : l.length = n) : (s.wrBytes a l).rdBytes a n = l := by
  rw [← h]; exact State.rdBytes_wrBytes s a l

theorem body_len (s : State) (r : NvmRec) (h : r.payload.length ≤ 92) : (s.recordBody r).length = 124 := by
  unfold State.recordBody
  simp only [List.length_append, leBytes_length, List.length_replicate, List.length_cons, List.length_nil]
  omega

theorem modNvm_rd8 (s : State) (f : NvmSt → NvmSt) (a : Nat) : (s.modNvm f).rd8 a = s.rd8 a := rfl

theorem modNvm_rdBytes (s : State) (f : NvmSt → NvmSt) (a n : Nat) : (s.modNvm f).rdBytes a n = s.rdBytes a n := rfl

theorem modNvm_nvm (s : State) (f : NvmSt → NvmSt) : (s.modNvm f).nvm = f s.nvm := rfl

theorem commit_eq (s : State) (r : NvmRec) (rest : List NvmRec) (h : s.nvm.queue = r :: rest) : effSillageCommit s =
    (let A := mramBase + 128 * (s.nvm.index % 2048)
     ((s.zeroRange A 128).wrBytes A (s.recordBody r ++ leBytes 4 (crc32c (s.recordBody r)))).modNvm (fun n => { n with
      queue := rest, seq := (n.seq + 1) % 2 ^ 32, index := (n.index + 1) % 2048
      append := if 0x80 ≤ r.kind then false else n.append })) := by
  unfold effSillageCommit
  rw [h]

end Sys2Proof.Laws.Sillage
end

