-- ==== Sys2Proof/Laws/Storage.lean ====
section
/-!
SUPPORT. The Talosh 1 line, the volume map and commands of the storage queue.
-/
namespace Sys2Proof.Laws.Storage

open Sys2Proof.Machine
open Sys2Proof.Laws.Writes

theorem memWrite_dram (s : State) (req a : Nat) (l : List Byte) (hc : s.Clean) (h0 : 0 < l.length) (h : a + l.length ≤ s.dramTop) (hm : a + l.length ≤ 0x1000000000) :
    (s.memWrite req a l).1 = s.wrBytes a l := by
  unfold State.memWrite
  rw [State.inMemory_dram s a l.length h0 h hm, if_neg (by decide), if_neg (by unfold inSillage; simp; unfold mramBase; omega)]
  rw [State.region_dram s a (by omega) (by omega)]
  dsimp only
  rw [State.memWriteWords_clean s req a l hc.upsets hc.arm]

theorem t1line (words : List (BitVec 16)) : t1Line words.length words = (words.map (fun w => leBytes 2 w.toNat)).flatten := by
  unfold t1Line
  congr 1
  apply List.ext_getElem
  · simp
  · intro i h1 h2
    simp at h1
    simp [List.getD_eq_getElem?_getD, List.getElem?_eq_getElem h1]

theorem lget_mem (l : List Nat) (i : Nat) (h : i < l.length) : lget l i ∈ l := by
  unfold lget; rw [List.getD_eq_getElem?_getD, List.getElem?_eq_getElem h]; exact List.getElem_mem h

theorem idx_lget (l : List Nat) (i : Nat) (h : i < l.length) (hd : l.Nodup) : l.idxOf (lget l i) = i := by
  unfold lget; rw [List.getD_eq_getElem?_getD, List.getElem?_eq_getElem h]; exact List.Nodup.idxOf_getElem hd i h

theorem chans_nodup (s : State) (v : Nat) : (s.volChans v).Nodup := by
  unfold State.volChans setBitsOf
  exact List.Pairwise.filter _ List.nodup_range

theorem chans_ne (s : State) (v : Nat) (h : s.fld (F.STQ_VOL_CFG_DCH v) ≠ 0) : 0 < (s.volChans v).length := by
  unfold State.volChans setBitsOf
  rw [List.length_pos_iff]
  intro he
  apply h
  have hlt : s.fld (F.STQ_VOL_CFG_DCH v) < 2 ^ 8 := bits_lt _ _ 8
  generalize s.fld (F.STQ_VOL_CFG_DCH v) = n at *
  apply Nat.eq_of_testBit_eq
  intro i
  rw [Nat.zero_testBit]
  by_cases hi : i < 8
  · have := List.filter_eq_nil_iff.1 he i (List.mem_range.2 hi)
    rw [bit_eq_testBit] at this
    simpa using this
  · exact Nat.testBit_lt_two_pow (Nat.lt_of_lt_of_le hlt (Nat.pow_le_pow_right (by decide) (by omega)))

theorem inverse (s : State) (u b : Nat) (h : s.fld (F.STQ_VOL_CFG_DCH u) ≠ 0) : s.volBlockOf u (s.volMap u b).1 (s.volMap u b).2 = b
        ∧ (s.volMap u b).1 ∈ s.volChans u := by
  have hn := chans_ne s u h
  unfold State.volBlockOf State.volMap
  dsimp only
  have hu : 0 < s.volUnit u := by unfold State.volUnit; exact Nat.two_pow_pos _
  have hd := chans_nodup s u
  generalize s.volChans u = cs at *
  generalize s.volUnit u = U at *
  refine ⟨?_, lget_mem _ _ (Nat.mod_lt _ hn)⟩
  rw [idx_lget cs _ (Nat.mod_lt _ hn) hd]
  rw [Nat.mul_comm (b / U / cs.length) U, Nat.mul_add_div hu, Nat.div_eq_of_lt (Nat.mod_lt b hu), Nat.add_zero, Nat.mul_add_mod, Nat.mod_mod]
  rw [Nat.mul_comm (b / U / cs.length), Nat.div_add_mod, Nat.mul_comm, Nat.div_add_mod]

theorem refuse (s : State) (r : Nat) (hr : r < 8) :
    (s.volRefuse r).flag F.STQ_VOLSTAT_REFUSED = true ∧ (s.volRefuse r).flag F.STQ_VOLSTAT_DONE = false
    ∧ (s.volRefuse r).fld F.STQ_VOLSTAT_REASON = r ∧ (s.volRefuse r).flt.raised = s.flt.raised ++ [228]
    ∧ ∀ k, k ≠ R.STQ_VOLSTAT → (s.volRefuse r).reg k = s.reg k := by
  have a1 : F.STQ_VOLSTAT_REFUSED.ok := Nat.le_of_ble_eq_true rfl
  have a2 : F.STQ_VOLSTAT_DONE.ok := Nat.le_of_ble_eq_true rfl
  have a3 : F.STQ_VOLSTAT_REASON.ok := Nat.le_of_ble_eq_true rfl
  unfold State.volRefuse
  refine ⟨?_, ?_, ?_, ?_, ?_⟩
  · rw [raise_flag, setFld_flag_apart _ _ _ _ a3 rfl (by (first | exact Or.inr (Or.inl (Nat.le_of_ble_eq_true rfl)) | exact Or.inr (Or.inr (Nat.le_of_ble_eq_true rfl)) | exact Or.inl (by decide) | (refine Or.inl (show _ + _ ≠ _ + _ from ?_); omega)))]; unfold State.clrFlag
    rw [setFld_flag_apart _ _ _ _ a2 rfl (by (first | exact Or.inr (Or.inl (Nat.le_of_ble_eq_true rfl)) | exact Or.inr (Or.inr (Nat.le_of_ble_eq_true rfl)) | exact Or.inl (by decide) | (refine Or.inl (show _ + _ ≠ _ + _ from ?_); omega)))]; exact State.flag_setFlag _ _ a1 rfl
  · rw [raise_flag, setFld_flag_apart _ _ _ _ a3 rfl (by (first | exact Or.inr (Or.inl (Nat.le_of_ble_eq_true rfl)) | exact Or.inr (Or.inr (Nat.le_of_ble_eq_true rfl)) | exact Or.inl (by decide) | (refine Or.inl (show _ + _ ≠ _ + _ from ?_); omega)))]; exact State.flag_clrFlag _ _ a2 rfl
  · rw [raise_fld, State.fld_setFld_same _ _ _ a3]; exact Nat.mod_eq_of_lt hr
  · rfl
  · intro k hk
    rw [show ∀ (u : State) n, (u.raise n).reg k = u.reg k from fun _ _ => rfl]
    unfold State.clrFlag State.setFlag State.setFld
    rw [State.reg_setReg_ne _ _ (show k ≠ F.STQ_VOLSTAT_REASON.key from hk), State.reg_setReg_ne _ _ (show k ≠ F.STQ_VOLSTAT_DONE.key from hk), State.reg_setReg_ne _ _ (show k ≠ F.STQ_VOLSTAT_REFUSED.key from hk)]

theorem done (s : State) (f : Fld) (h : f.key ≠ R.STQ_VOLSTAT) (h' : f.key ≠ R.STQ_STATUS) : s.volDone.fld f = s.fld f := by
  unfold State.volDone; dsimp only; unfold State.clrFlag State.setFlag
  generalize List.length _ = n
  rw [State.fld_setFld_apart _ _ _ _ (Nat.le_of_ble_eq_true rfl) (Or.inl (Ne.symm h')), State.fld_setFld_apart _ _ _ _ (Nat.le_of_ble_eq_true rfl) (Or.inl (Ne.symm h)), State.fld_setFld_apart _ _ _ _ (Nat.le_of_ble_eq_true rfl) (Or.inl (Ne.symm h)), State.fld_setFld_apart _ _ _ _ (Nat.le_of_ble_eq_true rfl) (Or.inl (Ne.symm h))]

theorem flag_of_fld (s t : State) (f : Fld) (hw : f.width = 1) (h : s.fld f = t.fld f) : s.flag f = t.flag f := by
  rw [State.flag_eq, State.flag_eq]
  unfold State.fld at h
  rw [hw] at h; rw [h]

theorem done2 (s : State) : s.volDone.flag F.STQ_VOLSTAT_DONE = true ∧ s.volDone.flag F.STQ_VOLSTAT_REFUSED = false := by
  unfold State.volDone; dsimp only
  generalize List.length _ = n
  constructor
  · rw [setFld_flag_apart _ _ _ _ (Nat.le_of_ble_eq_true rfl) rfl (by (first | exact Or.inr (Or.inl (Nat.le_of_ble_eq_true rfl)) | exact Or.inr (Or.inr (Nat.le_of_ble_eq_true rfl)) | exact Or.inl (by decide) | (refine Or.inl (show _ + _ ≠ _ + _ from ?_); omega))), setFld_flag_apart _ _ _ _ (Nat.le_of_ble_eq_true rfl) rfl (by (first | exact Or.inr (Or.inl (Nat.le_of_ble_eq_true rfl)) | exact Or.inr (Or.inr (Nat.le_of_ble_eq_true rfl)) | exact Or.inl (by decide) | (refine Or.inl (show _ + _ ≠ _ + _ from ?_); omega)))]
    unfold State.clrFlag
    rw [setFld_flag_apart _ _ _ _ (Nat.le_of_ble_eq_true rfl) rfl (by (first | exact Or.inr (Or.inl (Nat.le_of_ble_eq_true rfl)) | exact Or.inr (Or.inr (Nat.le_of_ble_eq_true rfl)) | exact Or.inl (by decide) | (refine Or.inl (show _ + _ ≠ _ + _ from ?_); omega)))]
    exact State.flag_setFlag _ _ (Nat.le_of_ble_eq_true rfl) rfl
  · rw [setFld_flag_apart _ _ _ _ (Nat.le_of_ble_eq_true rfl) rfl (by (first | exact Or.inr (Or.inl (Nat.le_of_ble_eq_true rfl)) | exact Or.inr (Or.inr (Nat.le_of_ble_eq_true rfl)) | exact Or.inl (by decide) | (refine Or.inl (show _ + _ ≠ _ + _ from ?_); omega))), setFld_flag_apart _ _ _ _ (Nat.le_of_ble_eq_true rfl) rfl (by (first | exact Or.inr (Or.inl (Nat.le_of_ble_eq_true rfl)) | exact Or.inr (Or.inr (Nat.le_of_ble_eq_true rfl)) | exact Or.inl (by decide) | (refine Or.inl (show _ + _ ≠ _ + _ from ?_); omega)))]
    exact State.flag_clrFlag _ _ (Nat.le_of_ble_eq_true rfl) rfl

theorem refresh_loaded (s : State) (u : Nat) : s.volRefresh.volLoaded u = s.volLoaded u := by
  unfold State.volRefresh
  apply each_keeps (fun t : State => t.volLoaded u)
  intro t x
  unfold State.volLoaded State.putFlag
  by_cases h : x = u
  · subst h; exact setFld_flag_apart _ _ _ _ (Nat.le_of_ble_eq_true rfl) rfl (Or.inr (Or.inr (Nat.le_of_ble_eq_true rfl)))
  · exact setFld_flag_apart _ _ _ _ (Nat.le_of_ble_eq_true rfl) rfl (Or.inl (by show R.STQ_VOL_CFG x ≠ R.STQ_VOL_CFG u; show 0x390100 + 0x10 * x ≠ 0x390100 + 0x10 * u; omega))

theorem nb : noBad = 0xFFFFFFFF := rfl

def accF (c : StqCmd) (q : StqSt) : StqSt := { q with
      cmds := q.cmds ++ [{ c with
        aseq := q.nextAseq, accepted := true, locked := c.opc == 1 || c.opc == 2, xtag := q.nextXtag
        todo := if c.opc = 2 then List.range c.nblk else [] }]
      nextAseq := (q.nextAseq + 1) % 2 ^ 32
      nextXtag := if c.opc = 1 then (q.nextXtag + 1) % 2 ^ 16 else q.nextXtag
      deadTags := if c.opc = 1 then q.deadTags.filter (· != q.nextXtag) else q.deadTags }

theorem accF_spec (c : StqCmd) (q : StqSt) : (accF c q).nextAseq = (q.nextAseq + 1) % 2 ^ 32
        ∧ ∃ k, (accF c q).cmds = q.cmds ++ [k] ∧ k.accepted = true ∧ k.aseq = q.nextAseq ∧ k.stream = c.stream
          ∧ k.opc = c.opc ∧ k.vol = c.vol ∧ k.lba = c.lba ∧ k.nblk = c.nblk ∧ k.sqCons = c.sqCons
          ∧ (k.locked = true ↔ c.opc = 1 ∨ c.opc = 2) := by
  unfold accF
  dsimp only
  refine ⟨rfl, _, rfl, rfl, rfl, rfl, rfl, rfl, rfl, rfl, rfl, ?_⟩
  simp

theorem mod_stq (s : State) (f : StqSt → StqSt) : (s.modStq f).stq = f s.stq := rfl

end Sys2Proof.Laws.Storage
end

