-- ==== Sys2Proof/Tests/Slice0.lean ====
section
/-!
SUPPORT. The model's own tests: ill-formed commands are refused, examples and consequences of the spec's own words come out
as they say, and for every statement of the obligations concrete states and operands that meet its hypotheses.
-/
namespace Sys2Proof.Tests

open Sys2Proof.Machine

set_option Elab.async false

/-! ### States the tests run on -/

/-- Core `n` runs at program counter 0 and nothing else is due. -/
def running (n : Nat) : State := (State.reset.setFlag (F.CRS_CTRL_RUN n)).modCore n (fun c => { c with run := .running })

/-- The small variant of the family: one station, no HDA, no accord (R1). -/
def small : State := { State.reset with fuses := { State.reset.fuses with variant := .px10nc } }

/-- A general register set beforehand. -/
def withG (s : State) (n : Nat) (r : Fin 32) (v : Word) : State := s.modCore n (fun c => { c with g := c.g.set r v })

/-- A running core and what its instruction leaves of a core, as one number. -/
def after (c : Instr) (s : State) (f : State → Nat) : Option Nat :=
  match exec c s with
  | .next t => some (f t)
  | _ => none

/-- One page of one job on station 0, as handles 0x2C010000 and 0x28010000 name them. -/
def aJob : Job := { (default : Job) with
  stn := 1, passes := 2, facets := 8, gap := 0, pixclk := [0, 0, 0, 0], offset := [0, 0, 0, 0], band := [0, 0, 0, 0]
  state := .running }

def aPage (st : PageState) : Page := { (default : Page) with
  job := 0x28010000, length := 10, nblk := 1, state := st, firstLine := [0, 0, 0, 0]
  blankFrom := [none, none, none, none] }

def paged (st : PageState) : State := { State.reset with
  objs := [(0x0A * 65536, ⟨1, 0, 0, 0⟩), (0x0B * 65536, ⟨1, 0, 0, 0⟩)], jobs := [(0, aJob)], pages := [(0, aPage st)] }

/-! ### WellFormed refuses what has not the form of its row -/

/-- A packet of that type to device 0 with the payload, its trailer right. -/
def pkt (type seq : Nat) (l : List Byte) : PktIn := ⟨Pkt.bytes ⟨type, 0, l.length, 0, seq, 0, l⟩⟩

def badPkt : PktIn := ⟨List.replicate 19 0⟩

theorem test_wf_packet : pktOk badPkt = false ∧ pktOk ⟨List.replicate 16 0⟩ = false ∧ pktOk ⟨List.replicate 4120 0⟩ = false
    ∧ pktOk (pkt 1 0 [1, 2, 3]) = false ∧ pktOk (pkt 1 0 [1, 2, 3, 4]) = true ∧ pktOk ⟨List.replicate 20 0⟩ = true
    ∧ pktOk ⟨List.replicate 4116 0⟩ = true := by decide +kernel

/-- A REG_WR of four bytes to device 5, its trailer wrong. -/
def rawPkt : PktIn :=
  ⟨[0x41, 0x01, 4, 0, 0x34, 0x12, 0xBC, 0x0A, 8, 0, 0, 0, 0, 0, 0, 0, 1, 2, 3, 4, 0, 0, 0, 0]⟩

/-- R253: the header's fields are read where R253 puts them, a changed byte fails the trailer. -/
theorem test_packet_bytes :
    rawPkt.pkt = ⟨1, 5, 4, 0x1234, 0xABC, 8, [1, 2, 3, 4]⟩ ∧ rawPkt.crcOk 0 = false ∧ rawPkt.reserved = false
    ∧ (pkt 1 7 [1, 2, 3, 4]).crcOk 0 = true ∧ (PktIn.mk ((pkt 1 7 [1, 2, 3, 4]).bytes.set 16 9)).crcOk 0 = false
    ∧ (PktIn.mk ((pkt 1 7 [1, 2, 3, 4]).bytes.set 1 0x10)).reserved = true := by decide +kernel

theorem test_wf_packet_rows : Instr.wf (.regWr badPkt) = false ∧ Instr.wf (.regRd badPkt) = false
    ∧ Instr.wf (.memWr badPkt) = false ∧ Instr.wf (.memRd badPkt) = false ∧ Instr.wf (.dataPkt badPkt) = false
    ∧ Instr.wf (.caps .tu badPkt 0 0 default) = false ∧ Instr.wf (.talCredit .tu badPkt default) = false
    ∧ Instr.wf (.ack .tu badPkt) = false ∧ Instr.wf (.nak .tu badPkt) = false ∧ Instr.wf (.tdPacket badPkt) = false
    ∧ Instr.wf (.hello badPkt) = false ∧ Instr.wf (.timePkt badPkt) = false ∧ Instr.wf (.hostPkt badPkt) = false
    ∧ Instr.wf (.acdStage badPkt) = false ∧ Instr.wf (.pageq badPkt) = false ∧ Instr.wf (.pagea badPkt) = false
    ∧ Instr.wf (.grant badPkt) = false ∧ Instr.wf (.statePkt badPkt) = false ∧ Instr.wf (.mread badPkt) = false
    ∧ Instr.wf (.mdata badPkt) = false ∧ Instr.wf (.tko badPkt) = false ∧ Instr.wf (.fwmsg badPkt) = false := by decide

theorem test_wf_operands : Instr.wf (.rcRead 2) = false ∧ Instr.wf (.localRamAccess 0 1 1 false 0) = false
    ∧ Instr.wf (.objTableEcc 0 0) = false ∧ Instr.wf (.blockFormation 0 384) = false
    ∧ Instr.wf (.dutyLimitWrite 0 1 0) = false ∧ Instr.wf (.laceWrite 0 2 0) = false
    ∧ Instr.wf (.thermalLimitWrite 0 3 0) = false ∧ Instr.wf (.facetRpt 0 0 0 0 0 true 128 []) = false
    ∧ Instr.wf (.facetRpt 0 0 0 0 0 true 0 (List.replicate 17 0)) = false
    ∧ Instr.wf (.adcConversion [1, 2]) = false
    ∧ Instr.wf (.thermalRound [] (List.replicate 8 default)) = false ∧ Instr.wf (.thermalRound (List.replicate 56 none) []) = false
    ∧ Instr.wf (.diskRevolution 0 [⟨0, [], [{ (default : Detect) with codeword := 2 ^ 36864 }]⟩]) = false
    ∧ Instr.wf (.recoverySweepDone 0 [⟨0, [], [{ (default : Detect) with codeword := 2 ^ 36864 }]⟩]) = false := by decide +kernel

theorem test_wf_lengths (bytes : List Byte) (words : List (BitVec 16)) (st : Bool) :
    (256 < bytes.length → Instr.wf (.cnsReadDone true false 0 bytes 0) = false)
    ∧ (65538 ≤ bytes.length → Instr.wf (.csiLongPacket 0 0 bytes) = false)
    ∧ (6144 ≤ words.length → Instr.wf (.t1LineStart st words) = false)
    ∧ (6144 < words.length → Instr.wf (.t1LineComplete words) = false) :=
  ⟨fun h => decide_eq_false (Nat.not_le.2 h), fun h => decide_eq_false (Nat.not_lt.2 h),
    fun h => decide_eq_false (Nat.not_lt.2 h), fun h => decide_eq_false (Nat.not_le.2 h)⟩

/-! ### Hypotheses of the statements about registers, pages and snapshots -/

theorem safe_of (s : State) (h : (∀ i < 4, bit (s.fld F.ILK_STATUS_LASER) i
    = (s.loopClosed i && (vget s.ilk i).armed && !s.drying)) ∧ s.jtag.pins = false) : s.OutputsSafe :=
  ⟨h.1, fun p => by rw [h.2] at p; cases p⟩

theorem small_safe : small.OutputsSafe := safe_of _ (by decide +kernel)

theorem witness_StepRunsFront : ({ small with pending := [.snapshotDone, .ptimeLoRead] } : State).pending
    = .snapshotDone :: [.ptimeLoRead] ∧ small.pending = [] := ⟨rfl, rfl⟩

theorem witness_OutputsSafeInvariant : ∃ t, small.OutputsSafe ∧ step small = .next t := ⟨_, small_safe, rfl⟩

theorem witness_StillIsKept : small.Still where
  web := by decide +kernel
  lock := by decide +kernel
  state := rfl
  handover := rfl
  fwsq := Or.inl (by decide +kernel)
  loops := rfl
  mots := fun n hn => if_pos ((by decide +kernel : ∀ k : Fin 16, (vget small.mots k.val).state ≠ .run) ⟨n, hn⟩)
  replace := by decide +kernel
  calm := rfl
  safe := small_safe

theorem witness_MemoryBytes : Memory.wf (small.wr8 5 7).mem = true := by decide +kernel

theorem witness_FusedPresence : small.regs = [] := rfl

theorem witness_AccessJudged : (windowMapped 0x05 = false ∧ windowMapped 0xFF = false)
    ∧ (windowMapped 0x21 = true ∧ small.windowPresent 0x21 = false)
    ∧ (windowMapped 0x20 = true ∧ small.windowPresent 0x20 = true ∧ (AccSize.half ≠ .word ∨ 0 % 4 ≠ 0)) := by decide +kernel

theorem witness_AccessCodes : ∃ r f, findReg 0x01 0x220 = some r ∧ f ∈ r.fields ∧ f.acc = .w1s := by
  refine ⟨_, _, rfl, List.mem_cons_self, rfl⟩

theorem witness_ReadsAndWrites : small.hasCore 0 = true
    ∧ (0x1200080008#40).toNat = 0x1200000000 + R.CRS_ENTRY 0 := by decide +kernel

theorem witness_ReadClears : small.hasCore 0 = true ∧ small.snap = none
    ∧ (BitVec.ofNat 24 (R.CRS_ECC_CNT 0)).toNat = R.CRS_ECC_CNT 0
    ∧ (BitVec.ofNat 24 (R.TAL_PORT_CNT 1)).toNat = R.TAL_PORT_CNT 1 := by decide +kernel

theorem clean_of (s : State) (h : s.upsets = [] ∧ s.flag F.MEM_INJ_CTRL_ARM = false) : s.Clean := ⟨h.1, h.2⟩

theorem witness_LocalRamAccess : (running 0).Clean ∧ (running 0).hasCore 0 = true ∧ (0x0FFFC#17).toNat % 2 ^ 2 = 0
    ∧ (0x10000 ≤ (0x10000#17).toNat ∨ small.flag (F.CRS_CTRL_RUN 0) = false)
    ∧ ((0x0FFFC#17).toNat < 0x10000 ∧ (running 0).flag (F.CRS_CTRL_RUN 0) = true) :=
  ⟨clean_of _ (by decide +kernel), by decide +kernel, by decide, by decide, by decide +kernel⟩

/-- The admission queue full, the page of `paged` not in it. -/
def fullQueue : State := { paged .ready with admitQ := List.range 16 }

theorem witness_AdmissionRequests :
    ((paged .ready).admitQ.length < 16 ∧ (paged .ready).pageOf 0x2C020000 = none)
    ∧ (paged .ready).pageOf 0x2C010000 = some (0, aPage .ready)
    ∧ (fullQueue.pageOf 0x2C010000 = some (0, aPage .ready) ∧ 16 ≤ fullQueue.admitQ.length)
    ∧ ((paged .printing).pageOf 0x2C010000 = some (0, aPage .printing) ∧ (aPage .printing).state ≠ .ready) := by
  decide +kernel

theorem witness_AdmissionEvaluation :
    let s : State := { paged .queued with admitQ := [0] }
    let pair (active : Bool) : State := (({ s.setFld F.ACD_STATUS_STATE 4 with acd := s.acd } : State).setFlag
      F.ACD_STATUS_JOINED).putFlag F.ACD_STATUS_ROLE active
    s.Clean ∧ s.joined = false ∧ s.isShadow = false ∧ s.isActive = false ∧ s.admitQ = 0 :: []
    ∧ Tab.get s.pages 0 = some (aPage .queued)
    ∧ (aPage .queued).state = .queued ∧ s.jobOf (aPage .queued) = some aJob ∧ aJob.state = .running
    ∧ ({ aJob with state := .setup } : Job).state ≠ .running
    ∧ (pair false).isShadow = true ∧ (pair true).isActive = true ∧ (aPage .queued).pagea = none ∧ (pair true).acd.asked ≠ some 0
    ∧ ({ pair true with acd := { s.acd with asked := some 0 } } : State).acd.asked = some 0
    ∧ ({ aPage .queued with pagea := some true } : Page).pagea ≠ none
    ∧ State.reset.admitQ = [] ∧ Tab.get ({ State.reset with admitQ := [0] } : State).pages 0 = none
    ∧ (aPage .ready).state ≠ .queued :=
  ⟨clean_of _ (by decide +kernel), by decide +kernel⟩

theorem witness_StartLine : aJob.ends = [] ∧ ({ aJob with ends := [(0, 2 ^ 40 - 1)] } : Job).ends = (0, 2 ^ 40 - 1) :: [] := by
  decide

theorem witness_PageLife :
    ((paged .admitted).pageOf 0x2C010000 = some (0, aPage .admitted) ∧ (aPage .admitted).state = .admitted
      ∧ (paged .admitted).beforeStart (aPage .admitted) = false)
    ∧ (let p : Page := { aPage .admitted with startLine := 1 }
      ({ paged .admitted with pages := [(0, p)] } : State).pageOf 0x2C010000 = some (0, p)
        ∧ ({ paged .admitted with pages := [(0, p)] } : State).beforeStart p = true)
    ∧ ((paged .printing).jobOf (aPage .printing) = some aJob ∧ aJob.names aJob.ref = true
      ∧ (paged .printing).blankPoint (aPage .printing) aJob.ref < (aPage .printing).length)
    ∧ (let s : State := { paged .printing with exp := vmod (paged .printing).exp 0 (fun e => { e with line := 10 }) }
      (setBitsOf 4 aJob.stn).all (s.endedOn (aPage .printing)) = true ∧ s.jobOf (aPage .printing) = some aJob
      ∧ (setBitsOf 4 aJob.stn).all ((paged .printing).endedOn (aPage .printing)) = false
      ∧ (aJob.ref :: List.range 4).find? (fun n => aJob.names n && decide (s.blankPoint (aPage .printing) n < (aPage .printing).length))
        = none)
    ∧ ((paged .ready).pageOf 0x2C020000 = none ∧ (aPage .ready).state ≠ .admitted ∧ (aPage .ready).state ≠ .printing
      ∧ (aPage .ready).state ≠ .done ∧ (aPage .done).state = .done) := by
  decide +kernel

theorem witness_Snapshots :
    let q : Snap := ⟨3, 0, []⟩
    let s : State := { small with snap := some q, ptime := 10000 }
    small.snap = none ∧ s.snap.isSome = true ∧ s.snap = some q ∧ (maskDomains q.domains).any s.domainStopped = true
    ∧ (maskDomains (⟨1, 0, []⟩ : Snap).domains).any s.domainStopped = false
    ∧ (maskDomains q.domains).filter (fun d => bit (2#24).toNat (d - 1) || s.domainStopped d) ≠ []
    ∧ (maskDomains (⟨1, 0, []⟩ : Snap).domains).filter (fun d => bit (0#24).toNat (d - 1) || s.domainStopped d) = []
    ∧ q.time + 10000 ≤ s.now ∧ ({ s with ptime := 9999 } : State).now < q.time + 10000 := by decide +kernel

/-! ### Hypotheses of the statements about cores -/

/-- Core `n` with the instruction's word at its program counter. -/
def programmed (s : State) (n : Nat) (i : Instr) : State :=
  s.wrLe (iramBase n + (s.core n).pc) 4 ((encodeCore i).getD 0).toNat

theorem programmed_eq (s : State) (n : Nat) (i : Instr) : programmed s n i = { s with mem := (programmed s n i).mem } :=
  State.wrBytes_eq _ _ _

theorem programmed_spells (s : State) (n : Nat) (i : Instr) (h : (encodeCore i).isSome = true) :
    (programmed s n i).spells n i := by
  obtain ⟨w, hw⟩ := Option.isSome_iff_exists.1 h
  unfold State.spells State.pcWord
  have hc : (programmed s n i).core n = s.core n := by rw [programmed_eq]; rfl
  have hlt : w.toNat % 256 ^ 4 = w.toNat := Nat.mod_eq_of_lt w.isLt
  rw [hc, hw, programmed, State.rdLe_wrLe, hw, Option.getD_some, hlt, BitVec.ofNat_toNat, BitVec.setWidth_eq]

theorem programmed_ready (s : State) (n : Nat) (i : Instr) (h : s.coreReady n) : (programmed s n i).coreReady n := by
  rw [programmed_eq]; exact ⟨h.issues, h.runs, h.whole, h.settled⟩

theorem programmed_issues (s : State) (n : Nat) (i : Instr) (h : s.Issues n) : (programmed s n i).Issues n :=
  ⟨programmed_ready s n i h.ready, by rw [programmed_eq]; exact h.calm, by rw [programmed_eq]; exact h.safe⟩

theorem programmed_clean (s : State) (n : Nat) (i : Instr) (h : s.Clean) : (programmed s n i).Clean := by
  rw [programmed_eq]; exact ⟨h.upsets, h.arm⟩

theorem ready_of (s : State) (n : Nat) (h : s.canIssue n = true ∧ (s.core n).stopping = false
    ∧ Tab.get s.upsets (iramBase n + (s.core n).pc) = none
    ∧ (s.core n).stale.filter (fun e => e.1 == iramBase n + (s.core n).pc) = []) : s.coreReady n :=
  ⟨h.1, h.2.1, h.2.2.1, h.2.2.2⟩

theorem running_issues : (running 0).Issues 0 := ⟨ready_of _ _ (by decide +kernel), rfl, safe_of _ (by decide +kernel)⟩
theorem servo_issues : (running 16).Issues 16 := ⟨ready_of _ _ (by decide +kernel), rfl, safe_of _ (by decide +kernel)⟩

theorem withG_ready (s : State) (n : Nat) (r : Fin 32) (v : Word) (hn : n < 24) (h : s.coreReady n) : (withG s n r v).coreReady n := by
  have hc : (withG s n r v).core n = { s.core n with g := (s.core n).g.set r v } := State.core_modCore _ _ _ hn
  refine ready_of _ _ ?_
  unfold State.canIssue
  rw [hc]
  exact ⟨h.issues, h.runs, h.whole, h.settled⟩

/-- Of a state that issues, one that issues each of the instructions in turn. -/
theorem sample (s : State) (n : Nat) (h : s.Issues n) (l : List Instr) (hl : l.all (fun i => (encodeCore i).isSome) = true) :
    ∀ i ∈ l, (programmed s n i).Issues n ∧ (programmed s n i).spells n i := fun i hi =>
  ⟨programmed_issues s n i h, programmed_spells s n i (List.all_eq_true.1 hl i hi)⟩

theorem witness_IntegerSums : ∀ i ∈ [.crAdd 0 1 2 3, .crAddi 0 0 31 0x8000, .crAdc 0 1 0 3, .crSub 0 31 31 31, .crSbc 0 1 2 3],
    (programmed (running 0) 0 i).Issues 0 ∧ (programmed (running 0) 0 i).spells 0 i := sample _ _ running_issues _ (by decide)

theorem witness_LogicAndShifts : ∀ i ∈ [.crAnd 0 1 2 3, .crOr 0 1 2 3, .crXor 0 1 2 3, .crNor 0 1 2 3, .crAndi 0 1 2 0xFFFF,
      .crOri 0 1 2 0, .crXori 0 1 2 3, .crLih 0 1 0x8000, .crSll 0 1 2 3, .crSrl 0 1 2 3, .crSra 0 1 2 3, .crRor 0 1 2 3,
      .crShi 0 1 2 31, .crShi 0 1 2 32, .crShi 0 1 2 63, .crShi 0 1 2 64, .crShi 0 1 2 95, .crShi 0 1 2 96, .crShi 0 1 2 127],
    (programmed (running 0) 0 i).Issues 0 ∧ (programmed (running 0) 0 i).spells 0 i := sample _ _ running_issues _ (by decide)

theorem witness_ComparesAndCounts : ∀ i ∈ [.crClt 0 1 2 3, .crCltu 0 1 2 3, .crClti 0 1 2 0x8000, .crCltiu 0 1 2 0xFFFF,
      .crMin 0 1 2 3, .crMax 0 1 2 3, .crMinu 0 1 2 3, .crMaxu 0 1 2 3, .crClz 0 1 2, .crPopc 0 1 2],
    (programmed (running 0) 0 i).Issues 0 ∧ (programmed (running 0) 0 i).spells 0 i := sample _ _ running_issues _ (by decide)

theorem witness_ProductsAndQuotients : ∀ i ∈ [.crMul 0 1 2 3, .crMulh 0 1 2 3, .crMulhu 0 1 2 3, .crDiv 0 1 2 0, .crDivu 0 1 2 0,
      .crRem 0 1 2 3, .crRemu 0 1 2 3],
    (programmed (running 0) 0 i).Issues 0 ∧ (programmed (running 0) 0 i).spells 0 i := sample _ _ running_issues _ (by decide)

theorem witness_BranchesAndCalls : ∀ i ∈ [.crBeq 0 1 2 0x8000, .crBne 0 1 2 3, .crBlt 0 1 2 3, .crBge 0 1 2 3, .crBltu 0 1 2 3,
      .crBgeu 0 1 2 3, .crJmp 0 0x7FFF, .crCall 0 1 0x8000, .crCallr 0 1 2 3],
    (programmed (running 0) 0 i).Issues 0 ∧ (programmed (running 0) 0 i).spells 0 i := sample _ _ running_issues _ (by decide)

theorem witness_ControlRegisters :
    (∀ i ∈ (List.range 16).map (fun k => Instr.crRdc 0 1 (BitVec.ofNat 5 k)) ++ [.crWrc 0 1 0, .crWrc 0 1 15],
      (programmed (running 0) 0 i).Issues 0 ∧ (programmed (running 0) 0 i).spells 0 i)
    ∧ ∀ i ∈ [.crRdc 16 1 16, .crRdc 16 1 19, .crWrc 16 1 16, .crWrc 16 1 17, .crWrc 16 1 18, .crWrc 16 1 19],
      (programmed (running 16) 16 i).Issues 16 ∧ (programmed (running 16) 16 i).spells 16 i ∧ 16 ≤ ((16 : Fin 24)).val :=
  ⟨sample _ _ running_issues _ (by decide), fun i hi =>
    ⟨(sample _ _ servo_issues _ (by decide) i hi).1, (sample _ _ servo_issues _ (by decide) i hi).2, by decide⟩⟩

theorem witness_TrapAndReturn : (∀ i ∈ [.crTrap 0 31, .crTrap 0 0, .crRte 0],
      (programmed (running 0) 0 i).Issues 0 ∧ (programmed (running 0) 0 i).spells 0 i)
    ∧ ((running 0).core 0).inTrap = false := ⟨sample _ _ running_issues _ (by decide), by decide +kernel⟩

theorem evenReg_of (r : Fin 32) (h : (decide (r ≠ 0) && r.val % 2 == 0) = true) : evenReg r := by
  simpa [evenReg] using h

theorem witness_TimeAndEvents : (∀ i ∈ [.crRdtime 0 2, .crTadd 0 30 2 4, .crTsub 0 2 2 2, .crTlt 0 1 2 4, .crAt 0 2,
        .crEvset 0 1, .crEvclr 0 1, .crWait 0 1 1],
      (programmed (running 0) 0 i).Issues 0 ∧ (programmed (running 0) 0 i).spells 0 i)
    ∧ (evenReg 2 ∧ evenReg 4 ∧ evenReg 30) ∧ (((withG (running 0) 0 1 5).core 0).rd 1).toNat ≠ 0 :=
  ⟨sample _ _ running_issues _ (by decide), ⟨evenReg_of _ (by decide), evenReg_of _ (by decide), evenReg_of _ (by decide)⟩,
    by decide +kernel⟩

/-- Core 0 of `running` with its run state and pending events as given. -/
def stalled (r : RunState) (f : Core → Core) : State := (running 0).modCore 0 (fun c => f { c with run := r })

theorem witness_StallsAndInterrupts :
    (∀ r f, (stalled r f).hasCore 0 = true ∧ (stalled r f).calm ∧ (stalled r f).OutputsSafe)
    ∧ (((stalled (.atWait 0) id).core 0).run = .atWait 0 ∧ 0 ≤ (stalled (.atWait 0) id).now
      ∧ (stalled (.atWait 1) id).now < 1 ∧ ((stalled (.atWait 0) id).core 0).intDue = false)
    ∧ (let c := (stalled (.waiting 2 1) (fun c => { c with evp := 6 })).core 0
      c.run = .waiting 2 (1 : Fin 32).val ∧ c.evp &&& 2 ≠ 0)
    ∧ (let s := stalled (.waiting 2 1) (fun c => { c with status := 8 })
      (s.core 0).run = .waiting 2 (1 : Fin 32).val ∧ (s.core 0).evp &&& 2 = 0 ∧ (s.core 0).dle = true ∧ (s.core 0).wdl ≤ s.now
      ∧ ((stalled (.waiting 2 1) id).core 0).dle = false ∧ ((stalled (.waiting 2 1) id).core 0).intDue 2 = false)
    ∧ (let c := (stalled (.waiting 2 1) (fun c => { c with status := 1, evp := 4, imask := 4 })).core 0
      c.run = .waiting 2 (1 : Fin 32).val ∧ c.evp &&& 2 = 0 ∧ c.intDue 2 = true)
    ∧ (let c := (stalled .running (fun c => { c with status := 1, evp := 2, imask := 2 })).core 0
      c.run = .running ∧ c.intDue = true ∧ c.atPair = false ∧ ((stalled .running id).core 0).intDue = false)
    ∧ (let c := (stalled (.atWait 9) (fun c => { c with status := 1, evp := 2, imask := 2 })).core 0
      c.run = .atWait 9 ∧ c.intDue = true) := by
  refine ⟨fun r f => ⟨?_, rfl, safe_of _ ⟨?_, rfl⟩⟩, by decide +kernel⟩
  · show (running 0).hasCore 0 = true
    decide +kernel
  · show ∀ i < 4, bit ((running 0).fld F.ILK_STATUS_LASER) i
      = ((running 0).loopClosed i && (vget (running 0).ilk i).armed && !(running 0).drying)
    decide +kernel

theorem witness_DspExtension : (∀ i ∈ [.crMac 16 0 1 2, .crMsu 16 1 1 2, .crMacl 16 0 1 2, .crLda 16 1 31, .crClra 16 0, .crRda 16 1 0,
        .crRdas 16 1 1, .crQadd 16 1 2 3, .crQsub 16 1 2 3, .crQmul 16 1 2 3, .crClip 16 1 2 3, .crAbss 16 1 2],
      (programmed (running 16) 16 i).Issues 16 ∧ (programmed (running 16) 16 i).spells 16 i) ∧ 16 ≤ ((16 : Fin 24)).val :=
  ⟨sample _ _ servo_issues _ (by decide), by decide⟩

theorem witness_IllegalTraps :
    (encodeCore (.crAdd 0 1 2 3) = some 0x08000C41 ∧ decodeCore 0 0x08000C41 = some (.crAdd 0 1 2 3)
      ∧ (0x03FFFFFF#32).toNat / 2 ^ 26 = 0 ∧ (0xFC000000#32).toNat / 2 ^ 26 = 63)
    ∧ ((running 0).core 0).inTrap = false ∧ ((running 16).core 16).inTrap = false ∧ decodeCore 0 ((running 0).pcWord 0) = none
    ∧ (∀ i ∈ [.crMac 0 0 1 2, .crMsu 0 1 1 2, .crMacl 0 0 1 2, .crLda 0 1 31, .crClra 0 0, .crRda 0 1 0, .crRdas 0 1 1,
        .crQadd 0 1 2 3, .crQsub 0 1 2 3, .crQmul 0 1 2 3, .crClip 0 1 2 3, .crAbss 0 1 2, .crRdtime 0 31, .crTadd 0 2 0 4,
        .crTsub 0 0 2 4, .crTlt 0 1 3 2, .crAt 0 0, .crWait 0 1 1, .crShi 0 1 2 128, .crRdc 0 1 20, .crRdc 0 1 16, .crWrc 0 1 31,
        .crWrc 0 1 6, .crWrc 0 1 10, .crWrc 0 1 11],
      (programmed (running 0) 0 i).Issues 0 ∧ (programmed (running 0) 0 i).spells 0 i)
    ∧ (¬ evenReg 0 ∧ ¬ evenReg 31) ∧ (((running 0).core 0).rd 1 = 0 ∧ ((running 0).core 0).dle = false)
    ∧ (128 ≤ (128#16).toNat ∧ 20 ≤ (20#5).toNat) :=
  ⟨by decide +kernel, by decide +kernel, by decide +kernel, by decide +kernel, sample _ _ running_issues _ (by decide),
    by unfold evenReg; decide, by decide +kernel, by decide⟩

/-- Core 0 in a handler. -/
def inHandler : State := (running 0).modCore 0 (fun c => { c with status := 4 })

theorem witness_DoubleTrap : (∀ i ∈ [.crShi 0 1 2 128, .crTrap 0 0],
      (programmed inHandler 0 i).Issues 0 ∧ (programmed inHandler 0 i).spells 0 i)
    ∧ (inHandler.core 0).inTrap = true ∧ 128 ≤ (128#16).toNat :=
  ⟨sample inHandler 0 ⟨ready_of _ _ (by decide +kernel), rfl, safe_of _ (by decide +kernel)⟩ _ (by decide), by decide +kernel⟩

/-- R58 to R63, R73, R76: words written out from the layouts and the opcode table, fields op, fn, sh, rb, ra, rd, or op,
imm16, ra, rd; the first is the spec's example. -/
theorem test_core_words : decodeCore 0 0x43FFF0C5 = some (.crAddi 0 5 6 0xFFFC)
    ∧ decodeCore 3 0b000010_000001_00000_00011_00010_00001 = some (.crSub 3 1 2 3)
    ∧ decodeCore 0 0b000010_011111_00000_11111_00000_00101 = some (.crRemu 0 5 0 31)
    ∧ decodeCore 0 0b000110_000010_00000_00011_00010_00001 = some (.crCas 0 1 2 3)
    ∧ decodeCore 9 0b100011_1000000000000001_00010_00001 = some (.crLdb 9 1 2 0x8001)
    ∧ decodeCore 0 0b101011_0000000000001000_00010_00100 = some (.crStd 0 4 2 8)
    ∧ decodeCore 0 0b110011_1111111111111111_00010_00001 = some (.crBge 0 2 1 0xFFFF)
    ∧ decodeCore 0 0b111001_0000000000000010_00000_11111 = some (.crCall 0 31 2)
    ∧ decodeCore 0 0b111001_0000000000000010_00001_11111 = none
    ∧ decodeCore 0 0b000010_000001_00001_00011_00010_00001 = none
    ∧ decodeCore 0 0 = none ∧ decodeCore 0 0xFFFFFFFF = none := by decide +kernel

/-! ### Hypotheses of the statements about memory accesses, objects and rings -/

/-- The state with 16 GiB of DRAM trained. -/
def withDram (s : State) : State := (s.setFld F.MEM_CFG_SIZE 16).setFlag F.MEM_STATUS_INIT_DONE

/-- Core 0's aperture 1 at system address 0. -/
def aperture (s : State) : State := s.modCore 0 (fun c => { c with ap1 := 0 })

/-- Core 0 runs with DRAM; register 1 as given, aperture 1 at system address 0. -/
def memCore (v : Word) : State := withG (aperture (withDram (running 0))) 0 1 v

theorem memCore_ready (v : Word) : (memCore v).coreReady 0 ∧ (memCore v).Clean :=
  have h : (aperture (withDram (running 0))).Clean := clean_of _ (by decide +kernel)
  ⟨withG_ready _ _ _ _ (by decide) (ready_of _ _ (by decide +kernel)), h.upsets, h.arm⟩

/-- Of a state that is ready, one that is ready for each of the instructions in turn. -/
theorem readied (s : State) (n : Nat) (h : s.coreReady n ∧ s.Clean) (l : List Instr)
    (hl : l.all (fun i => (encodeCore i).isSome) = true) :
    ∀ i ∈ l, (programmed s n i).coreReady n ∧ (programmed s n i).Clean ∧ (programmed s n i).spells n i := fun i hi =>
  ⟨programmed_ready s n i h.1, programmed_clean s n i h.2, programmed_spells s n i (List.all_eq_true.1 hl i hi)⟩

theorem witness_Loads (v : Word) :
    (∀ i ∈ [.crLdw 0 2 1 0xC, .crLdh 0 2 1 0xE, .crLdhu 0 2 1 0xE, .crLdb 0 0 1 0xF, .crLdbu 0 2 1 0xF, .crLdd 0 2 1 0],
      (programmed (memCore v) 0 i).coreReady 0 ∧ (programmed (memCore v) 0 i).Clean ∧ (programmed (memCore v) 0 i).spells 0 i)
    ∧ (((programmed (memCore 0xFFF0) 0 (.crLdw 0 2 1 0xC)).core 0).rd 1 + (0xC#16).signExtend 32).toNat = 0xFFFC
    ∧ inOwnData 0 0xFFFC 4 (0x1100000000 + 0x10000 + 0xFFFC) ∧ inOwnInstr 0 0x10000 4 0x1100000000
    ∧ inOwnData 0 0xFFFE 2 (0x1100000000 + 0x10000 + 0xFFFE) ∧ inOwnData 0 0xFFFF 1 (0x1100000000 + 0x10000 + 0xFFFF)
    ∧ (programmed (memCore 0) 0 (.crLdd 0 2 1 0)).inAperture1 0 0xC0000000 8 0 ∧ (0xC0000000 % 8 = 0 ∧ evenReg 2) := by
  refine ⟨readied _ _ (memCore_ready v) _ (by decide), by decide +kernel, ?_⟩
  unfold inOwnData inOwnInstr State.inAperture1 evenReg; decide +kernel

theorem witness_Stores (v : Word) :
    (∀ i ∈ [.crStw 0 2 1 0xC, .crSth 0 2 1 0xE, .crStb 0 0 1 0xF, .crStd 0 30 1 0],
      (programmed (memCore v) 0 i).coreReady 0 ∧ (programmed (memCore v) 0 i).Clean ∧ (programmed (memCore v) 0 i).spells 0 i)
    ∧ inOwnInstr 0 0x1FFFC 4 0x110000FFFC ∧ inOwnData 0 0 4 0x1100010000
    ∧ (programmed (memCore 0) 0 (.crStd 0 30 1 0)).inAperture1 0 0xC0000008 8 8
    ∧ inOwnData 0 0xFFFE 2 0x110001FFFE ∧ inOwnData 0 0xFFFF 1 0x110001FFFF ∧ evenReg 30 := by
  refine ⟨readied _ _ (memCore_ready v) _ (by decide), ?_⟩
  unfold inOwnData inOwnInstr State.inAperture1 evenReg; decide +kernel

theorem witness_Atomics :
    (∀ i ∈ [.crSwap 0 2 1 3, .crLdadd 0 0 1 3, .crCas 0 2 1 1], (programmed (memCore 0xC0000004) 0 i).coreReady 0
      ∧ (programmed (memCore 0xC0000004) 0 i).Clean ∧ (programmed (memCore 0xC0000004) 0 i).spells 0 i)
    ∧ (let s := programmed (memCore 0xC0000004) 0 (.crSwap 0 2 1 3)
      ((s.core 0).rd 1).toNat % 4 = 0 ∧ s.inAperture1 0 ((s.core 0).rd 1).toNat 4 4) ∧ inOwnData 0 0xFFFC 4 0x110001FFFC := by
  refine ⟨readied _ _ (memCore_ready _) _ (by decide), ?_⟩
  unfold inOwnData State.inAperture1; decide +kernel

theorem witness_AddressTraps (v : Word) :
    (∀ i ∈ [.crLdw 0 2 1 0, .crLdh 0 2 1 0, .crLdhu 0 2 1 0, .crLdb 0 2 1 0, .crLdbu 0 2 1 0, .crLdd 0 2 1 0, .crStw 0 2 1 0,
        .crSth 0 2 1 0, .crStb 0 2 1 0, .crStd 0 2 1 0, .crSwap 0 2 1 3, .crLdadd 0 2 1 3, .crCas 0 2 1 3],
      (programmed (memCore v) 0 i).coreReady 0 ∧ (programmed (memCore v) 0 i).Clean ∧ (programmed (memCore v) 0 i).spells 0 i)
    ∧ (let s := programmed (memCore 3) 0 (.crLdw 0 2 1 0)
      let ea := ((s.core 0).rd 1 + (0#16).signExtend 32).toNat
      (s.core 0).inTrap = false ∧ ea % 8 ≠ 0 ∧ ea % 4 ≠ 0 ∧ ea % 2 ≠ 0)
    ∧ (let s := programmed (memCore 0x20000) 0 (.crStd 0 2 1 0)
      let ea := ((s.core 0).rd 1 + (0#16).signExtend 32).toNat
      ea % 8 = 0 ∧ 0x20000 ≤ ea ∧ ea < 0x80000000) :=
  ⟨readied _ _ (memCore_ready v) _ (by decide), by decide +kernel⟩

/-- A cached line of zeros at system address 64. -/
def aLine (dirty : Bool) : CacheLine := ⟨1, dirty, List.replicate 64 0⟩
def cached (dirty : Bool) : State := (memCore 0x80000040).modCore 0 (fun c => { c with cache := [aLine dirty] })

theorem cached_ready (d : Bool) : (cached d).coreReady 0 ∧ (cached d).Clean :=
  ⟨ready_of _ _ (by cases d <;> decide +kernel), clean_of _ (by cases d <;> decide +kernel)⟩

theorem witness_CacheLines :
    (∀ d, ∀ i ∈ [.crLdw 0 2 1 0, .crStw 0 2 1 0, .crCinv 0 1, .crCwb 0 1, .crCwbi 0 1], (programmed (cached d) 0 i).coreReady 0
      ∧ (programmed (cached d) 0 i).Clean ∧ (programmed (cached d) 0 i).spells 0 i)
    ∧ (let s := programmed (cached true) 0 (.crCwb 0 1)
      s.inAperture0 0 ((s.core 0).rd 1).toNat 64 ∧ 64 / 64 * 64 + 64 ≤ s.dramTop ∧ s.cacheLine 0 64 = some (aLine true)
        ∧ ((s.core 0).rd 1).toNat % 4 = 0)
    ∧ (programmed (cached false) 0 (.crCwb 0 1)).cacheLine 0 64 = some (aLine false)
    ∧ (aLine true).data.length = 64 ∧ (aLine true).dirty = true ∧ (aLine false).dirty = false := by
  refine ⟨fun d => readied _ _ (cached_ready d) _ (by decide), ?_⟩
  unfold State.inAperture0; decide +kernel

theorem witness_FencesAndPostedStores :
    (∀ d, ∀ i ∈ [.crCwball 0, .crFence 0], (programmed (cached d) 0 i).coreReady 0
      ∧ (programmed (cached d) 0 i).Clean ∧ (programmed (cached d) 0 i).spells 0 i)
    ∧ (let s := programmed (cached true) 0 (.crCwball 0)
      (s.core 0).cache = [aLine true] ∧ (aLine true).line * 64 + 64 ≤ s.dramTop ∧ (aLine true).line * 64 + 64 ≤ 0x1000000000)
    ∧ (((cached false).core 0).cache.all (fun l => !l.dirty) = true ∧ ((cached false).core 0).failing = [])
    ∧ (let s := (memCore 0).modCore 0 (fun c => { c with failing := [8] })
      (15#40).toNat < 0x1000000000 ∧ (s.core 0).failing.contains ((15#40).toNat / 8 * 8) = true
        ∧ (15#40).toNat / 8 * 8 < s.dramTop ∧ ((memCore 0).core 0).failing.contains 8 = false) :=
  ⟨fun d => readied _ _ (cached_ready d) _ (by decide), by decide +kernel⟩

theorem witness_RunControl : (running 0).hasCore 0 = true ∧ (2#32).getLsbD 1 = true
    ∧ (let s := withDram small
      (1#32).getLsbD 1 = false ∧ (1#32).getLsbD 0 = true ∧ s.hasCore 0 = true ∧ (s.core 0).run = .stopped
      ∧ bit (s.fld F.SYS_CTSTAT_CORE_FAIL) 0 = false ∧ s.flag F.MEM_STATUS_INIT_DONE = true
      ∧ small.flag F.MEM_STATUS_INIT_DONE = false)
    ∧ ((withDram (stalled (.atWait 0) id)).core 0).run ≠ .stopped ∧ ((stalled (.atWait 0) id).core 0).run ≠ .halted
    ∧ ((stalled .halted id).core 0).run = .halted
    ∧ ((0#32).getLsbD 1 = false ∧ (0#32).getLsbD 0 = false ∧ ((running 0).core 0).run ≠ .halted
      ∧ ((running 0).core 0).atPair = false)
    ∧ (let c := (stalled .running (fun c => { c with atPair := true })).core 0
      c.atPair = true ∧ c.run = .running) := by decide +kernel

/-- Core 0 inside an AT pair, RUN written 0. -/
def pairStop : State := stalled .running (fun c => { c with atPair := true, stopping := true })

theorem witness_RunControl_pair : pairStop.calm ∧ pairStop.OutputsSafe ∧ (pairStop.core 0).run = .running
    ∧ (pairStop.core 0).atPair = true ∧ (pairStop.core 0).stopping = true ∧ (pairStop.core 0).stale = [] ∧ pairStop.upsets = []
    ∧ (programmed pairStop 0 (.crAdd 0 1 2 3)).spells 0 (.crAdd 0 1 2 3) :=
  ⟨rfl, safe_of _ (by decide +kernel), by decide +kernel, by decide +kernel, by decide +kernel, by decide +kernel, rfl,
    programmed_spells _ _ _ (by decide)⟩

theorem witness_FreedHandles : hGen 0x2C000000 = 0 ∧ hGen 0x2C00FFFF = 0
    ∧ (263 < classCap 0x0B ∧ 0x0B < 64 ∧ 0x2C030107 ≠ 0 ∧ hGen 0x2C030107 ≠ 0 ∧ hClass 0x2C030107 = 0x0B
      ∧ hIdx 0x2C030107 = 263)
    ∧ (1 ≤ small.genOf 0x0B 263 ∧ small.genOf 0x0B 263 ≤ 1023)
    ∧ (let s : State := { small with gens := [(okey 0x0B 263, 1023)] }
      1 ≤ s.genOf 0x0B 263 ∧ s.genOf 0x0B 263 ≤ 1023)
    ∧ okey 0x0A 263 ≠ okey 0x0B 263 := by decide +kernel

theorem ok_of {e : Except Ost Nat} {i : Nat} (h : (match e with | .ok j => decide (j = i) | .error _ => false) = true) :
    e = .ok i := by
  cases e with
  | ok j => exact congrArg Except.ok (of_decide_eq_true h)
  | error _ => cases h

theorem err_of {e : Except Ost Nat} {x : Ost} (h : (match e with | .ok _ => false | .error y => decide (y = x)) = true) :
    e = .error x := by
  cases e with
  | ok j => cases h
  | error _ => exact congrArg Except.error (of_decide_eq_true h)

/-- Core 0 runs; one page of one job. -/
def oneJob : State :=
  { running 0 with objs := (paged .ready).objs, jobs := [(0, aJob)], pages := [(0, aPage .ready)] }

/-- Core 0 runs with handle or class `a` in register 1 and one page of one job. -/
def objCore (a : Word) : State := withG oneJob 0 1 a

/-- The parameter block of an event group at offset 0 of core 0's data RAM. -/
def evBlock : State := (objCore 0x0D).wrLe 0x1100010000 4 4

theorem objCore_ready (a : Word) : (objCore a).coreReady 0 ∧ (objCore a).Clean :=
  have h : oneJob.Clean := clean_of _ (by decide +kernel)
  ⟨withG_ready _ _ _ _ (by decide) (ready_of oneJob 0 (by decide +kernel)), h.upsets, h.arm⟩

theorem evBlock_ready : evBlock.coreReady 0 ∧ evBlock.Clean :=
  ⟨ready_of _ _ (by decide +kernel), clean_of _ (by decide +kernel)⟩

/-- The parameter block of a timer, due at once. -/
def timerBlock : State := withDram ((objCore 5).wrLe 0x1100010000 4 12)

theorem witness_ObjectInstructions :
    (∀ i ∈ [.crOpen 0 3 1 2, .crClose 0 3 1, .crQuery 0 3 1 2],
      (programmed evBlock 0 i).coreReady 0 ∧ (programmed evBlock 0 i).Clean ∧ (programmed evBlock 0 i).spells 0 i)
    ∧ (∀ v, ∀ i ∈ [.crOpen 0 3 1 2, .crClose 0 3 1, .crQuery 0 3 1 2],
      (programmed (objCore v) 0 i).coreReady 0 ∧ (programmed (objCore v) 0 i).Clean ∧ (programmed (objCore v) 0 i).spells 0 i)
    ∧ ((evBlock.core 0).failing = [] ∧ (evBlock.core 0).stale = [] ∧ (evBlock.core 0).inTrap = false)
    ∧ (0 % 8 = 0 ∧ 0 + 4 * (evBlock.blockWords 0 0).length ≤ 0x10000 ∧ 4 % 8 ≠ 0 ∧ 0xFFF8 % 8 = 0
      ∧ 0x10000 < 0xFFF8 + 4 * 4 ∧ classCap 0 = 0 ∧ 0x0D < 64 ∧ classCap 0x0D ≠ 0)
    ∧ ((evBlock.issued 0).blockOk 0x0D (evBlock.blockWords 0 0) = true
      ∧ (evBlock.issued 0).unitsPresent 0x0D (evBlock.blockWords 0 0) = true
      ∧ (evBlock.issued 0).blockOk 0x0D [5, 5, 0, 0] = false ∧ small.unitsPresent 0x0A [0, 0, 0, 8] = false)
    ∧ (evBlock.issued 0).slotFor 0x0D (evBlock.blockWords 0 0) = .ok 0
    ∧ ({ evBlock with withdrawn := (List.range 256).map (fun i => okey 0x0D i) } : State).slotFor 0x0D
        (evBlock.blockWords 0 0) = .error .exhausted
    ∧ ((objCore 0x2C000000).issued 0).checkHandle 0x2C000000 (fun _ => true) = .error .invalid
    ∧ ((objCore 0x2C020000).issued 0).checkHandle 0x2C020000 (fun _ => true) = .error .stale
    ∧ ((objCore 0x2C010000).issued 0).checkHandle 0x2C010000 (fun _ => true) = .ok 0
    ∧ (let s := (objCore 0x2C010000).issued 0
      s.obj 0x0B 0 = some ⟨1, 0, 0, 0⟩ ∧ s.closeBusy 0x0B 0 = false ∧ 4 < queryLen 0x0B
        ∧ queryLen 0x0B ≤ 24 ∧ s.closeBusy 0x0A 0 = true ∧ 5 < queryLen 13)
    ∧ (timerBlock.issued 0).slotFor 5 (timerBlock.blockWords 0 0) = .ok 0 :=
  ⟨readied _ _ evBlock_ready _ (by decide), fun v => readied _ _ (objCore_ready v) _ (by decide), by decide +kernel,
    by decide +kernel, by decide +kernel, ok_of (by decide +kernel), err_of (by decide +kernel), err_of (by decide +kernel),
    err_of (by decide +kernel), ok_of (by decide +kernel), by decide +kernel, ok_of (by decide +kernel)⟩

/-- Core 0 with the handle of ring 32, a WORK ring of two entries in DRAM, one of them in use. -/
def aRing : Ring := ⟨2, 0, false, 0, 1, 0, false⟩
def ringCore : State :=
  let s := withDram (running 0)
  let t : State := { s with objs := [(0x04 * 65536 + 32, ⟨1, 0, 0, 0⟩)], rings := [(32, aRing)] }
  withG t 0 1 0x10010020

/-- Core 0 with the handle of ring `i`, and the mailbox over ring 48 of which it is the sender. -/
def mailCore : State :=
  let s := withDram (running 0)
  let t : State := { s with
    objs := [(0x04 * 65536 + 48, ⟨1, 0, 0, 0⟩), (0x04 * 65536, ⟨1, 0, 0, 0⟩)], rings := [(48, aRing), (0, aRing)]
    mboxes := [(0, { (default : Mailbox) with ring := 0x10010030, sender := 0 })] }
  withG t 0 1 0x10010030

theorem ringCore_ready : ringCore.coreReady 0 ∧ ringCore.Clean :=
  ⟨ready_of _ _ (by decide +kernel), clean_of _ (by decide +kernel)⟩

theorem mailCore_ready : mailCore.coreReady 0 ∧ mailCore.Clean :=
  ⟨ready_of _ _ (by decide +kernel), clean_of _ (by decide +kernel)⟩

theorem witness_RingInstructions :
    (∀ i ∈ [.crRpush 0 3 1 2, .crRpop 0 3 1 2],
      (programmed ringCore 0 i).coreReady 0 ∧ (programmed ringCore 0 i).Clean ∧ (programmed ringCore 0 i).spells 0 i)
    ∧ (∀ i ∈ [.crRpush 0 3 1 2, .crRpop 0 3 1 2],
      (programmed mailCore 0 i).coreReady 0 ∧ (programmed mailCore 0 i).Clean ∧ (programmed mailCore 0 i).spells 0 i)
    ∧ ((ringCore.core 0).failing = [] ∧ (ringCore.core 0).stale = [] ∧ (ringCore.core 0).inTrap = false)
    ∧ (ringCore.issued 0).checkHandle ((ringCore.core 0).rd 1).toNat (fun c => c == 0x04) = .ok 32
    ∧ (ringCore.issued 0).checkHandle 0x10020020 (fun c => c == 0x04) = .error .stale
    ∧ (mailCore.issued 0).checkHandle 0x10010030 (fun c => c == 0x04) = .ok 48
    ∧ (mailCore.issued 0).checkHandle 0x10010000 (fun c => c == 0x04) = .ok 0
    ∧ (32 % 64 ≠ 0 ∧ 0x10000 < 0xFFC0 + 64 + 64 ∧ 0 % 64 = 0 ∧ 0 + 64 ≤ 0x10000)
    ∧ (Tab.get ringCore.rings 32 = some aRing ∧ ringRole 32 = 2 ∧ aRing.error = false
      ∧ aRing.base + 64 * aRing.size ≤ ringCore.dramTop ∧ ringCore.dramTop ≤ 0x1000000000 ∧ 0 < aRing.size
      ∧ aRing.count < aRing.size ∧ 0 < aRing.count ∧ ({ aRing with error := true } : Ring).error = true)
    ∧ (ringRole 0 < 2 ∧ ringRole 48 = 3 ∧ ((mailCore.issued 0).mailboxOf 0x10010030 0).isSome = true
      ∧ (mailCore.issued 0).mailboxOf 0x10010030 1 = none)
    ∧ ({ aRing with prod := 2 } : Ring).count = aRing.size ∧ ({ aRing with cons := 1 } : Ring).count = 0 :=
  ⟨readied _ _ ringCore_ready _ (by decide), readied _ _ mailCore_ready _ (by decide), by decide +kernel,
    ok_of (by decide +kernel), err_of (by decide +kernel), ok_of (by decide +kernel), ok_of (by decide +kernel), by decide,
    by decide +kernel, by decide +kernel, by decide⟩

/-- Core 0 with the handle of an event group that targets cores 0 and 1. -/
def aGroup : EvGroup := ⟨0, 3, 5⟩
def sigCore : State :=
  let s := running 0
  let t : State := { s with objs := [(0x0D * 65536, ⟨1, 0, 0, 0⟩)], evgs := [(0, aGroup)] }
  withG (withG t 0 1 0x34010000) 0 2 6

theorem sigCore_ready : sigCore.coreReady 0 ∧ sigCore.Clean :=
  ⟨ready_of _ _ (by decide +kernel), clean_of _ (by decide +kernel)⟩

theorem witness_Signals :
    (∀ i ∈ [.crSignal 0 3 1 2], (programmed sigCore 0 i).coreReady 0 ∧ (programmed sigCore 0 i).Clean
      ∧ (programmed sigCore 0 i).spells 0 i)
    ∧ (sigCore.issued 0).checkHandle 0x34020000 (fun c => c == 0x0D) = .error .stale
    ∧ sigCore.checkHandle ((sigCore.core 0).rd 1).toNat (fun c => c == 0x0D) = .ok 0
    ∧ ((sigCore.core 0).failing = [] ∧ (sigCore.core 0).stale = [] ∧ Tab.get sigCore.evgs 0 = some aGroup
      ∧ 0 < ((sigCore.core 0).rd 2).toNat ∧ ((sigCore.core 0).rd 4).toNat = 0
      ∧ (bit aGroup.cores 1 = true ∧ sigCore.hasCore 1 = true) ∧ bit aGroup.cores 2 = false) :=
  ⟨readied _ _ sigCore_ready _ (by decide), err_of (by decide +kernel), ok_of (by decide +kernel), by decide +kernel⟩

theorem witness_Doorbells :
    let r : Ring := ⟨4, 0, false, 0, 2 ^ 32 - 1, 2 ^ 32 - 2, false⟩
    let s : State := { small with rings := [(0, r), (16, r)] }
    let up (v : Word) (c : Nat) : Nat := (v.toNat + 2 ^ 32 - c) % 2 ^ 32
    Tab.get small.rings 0 = none ∧ small.stalled.find? (fun e => e.ring == 0) = none ∧ Tab.get s.rings 0 = some r ∧ Tab.get s.rings 16 = some r ∧ r.error = false
    ∧ up 2 r.prod ≤ r.size - r.count ∧ r.size - r.count < up 3 r.prod ∧ up 0xFFFFFFFF r.cons ≤ r.count ∧ r.count < up 0 r.cons
    ∧ (let e : StalledPush := ⟨0, .loop, []⟩
      ({ s with stalled := [e] } : State).stalled.find? (fun e => e.ring == 0) = some e ∧ e.producer ≠ .storage
        ∧ r.count < r.size ∧ ({ r with prod := 2 } : Ring).size ≤ ({ r with prod := 2 } : Ring).count
        ∧ ({ r with error := true } : Ring).error = true) := by decide +kernel

theorem witness_ObjectCommands :
    let j : Job := { aJob with state := .setup, stn := 0 }
    let s : State := { paged .building with jobs := [(0, j)] }
    let t : Timer := ⟨0, 0, 1, 0, 0, 0, 0, false, true⟩
    s.live 0x28020000 0x0A = none ∧ (s.live 0x28010000 0x0A = some 0 ∧ Tab.get s.jobs 0 = some j ∧ j.state = .setup
      ∧ s.jobs.any (fun e => e.2.active && e.2.stn &&& j.stn != 0) = false ∧ s.jobClocks j.stn j.pixclk = true)
    ∧ ((paged .ready).live 0x28010000 0x0A = some 0 ∧ Tab.get (paged .ready).jobs 0 = some aJob ∧ aJob.state ≠ .setup
      ∧ aJob.state = .running)
    ∧ (s.pageOf 0x2C010000 = some (0, aPage .building) ∧ (aPage .building).state = .building)
    ∧ ((paged .ready).pageOf 0x2C010000 = some (0, aPage .ready) ∧ (aPage .ready).state ≠ .building)
    ∧ (Tab.get ({ small with timers := [(255, t)] } : State).timers 255 = some t ∧ t.armed = true ∧ t.next ≤ small.now
      ∧ t.woff = 0 ∧ ({ t with armed := false } : Timer).armed = false ∧ ({ t with woff := 0x10000 } : Timer).woff ≠ 0
      ∧ Tab.get small.timers 255 = none ∧ small.now < ({ t with next := 1 } : Timer).next)
    ∧ s.pageOf 0x2C020000 = none ∧ (0#32).getLsbD 16 = false
    ∧ ((0x10201#32).getLsbD 16 = true ∧ small.hasCore 1 = true ∧ small.hasCore 2 = true ∧ small.drain = none
      ∧ small.flag (F.CRS_CTRL_RUN 1) = false ∧ decide (16 ≤ 1) = decide (16 ≤ 2))
    ∧ ((0x10101#32).getLsbD 16 = true ∧ 0x10101 % 32 = 0x10101 / 256 % 32)
    ∧ (({ small with drain := some (1, 2) } : State).drain = some ((1 : Fin 24).val, (2 : Fin 24).val) ∧ (1 : Fin 24) ≠ 2)
    ∧ (1023 < classCap 11 ∧ small.isWithdrawn 11 1023 = false ∧ classCap 0 ≤ 0
      ∧ ({ small with withdrawn := [okey 11 1023] } : State).isWithdrawn 11 1023 = true) := by decide +kernel

/-! ### Hypotheses of the statements about stations: scan, tables, lace, links, interlocks -/

/-- Station 0 with its scan state changed; the clock of its pixels running or not. -/
def scan0 (f : ExpSt → ExpSt) : State := { State.reset with exp := vmod State.reset.exp 0 f }
def clocked (s : State) : State :=
  let t := (s.setFlag (F.CLK_CTRL_EN 3)).setFlag (F.CLK_STATUS_LOCK 3)
  { t with plls := vmod t.plls 3 (fun p => { p with gated := false, force := { p.force with outs := [0x8000] } }) }

/-- Setup A of *Scan Timing and Firing*: PL(3+i) at 148,650 kHz (NINT 55, NFRAC 5, NMOD 10,000, DIV 37), 39,640 pixels a
facet. -/
def setupA (i : Nat) : State :=
  let s := State.reset.setFld (F.EXP_FACETPX_FACET_PX i) 39640
  let f : PllSet := { PllSet.reset with refmul := 0, pdiv := 0, nint := 55, nfrac := 5, nmod := 10000, outs := [0x8000 + 37] }
  { s with plls := vmod s.plls (3 + i) (fun p => { p with force := f }) }

theorem witness_BeamDetect :
    (State.reset.hasStn 0 = true ∧ State.reset.pixelRuns 0 = false ∧ true ≠ State.reset.flag (F.EXP_SCAN_BD_POL 0)
      ∧ false = State.reset.flag (F.EXP_SCAN_BD_POL 0))
    ∧ (let s := (clocked (scan0 (fun e => { e with bdSeen := true }))).setFld (F.EXP_BD_MINW 0) 5
      let px := 64 * s.fld (F.EXP_FACETPX_FACET_PX 0)
      let win := 64 * max 1 (s.fld (F.EXP_SCAN_BD_WIN 0))
      s.hasStn 0 = true ∧ s.pixelRuns 0 = true ∧ s.fld (F.EXP_BD_MINW 0) ≤ 5 ∧ 4 < s.fld (F.EXP_BD_MINW 0)
      ∧ ((vget s.exp 0).facetsRun && s.inProbes 0 0) = false ∧ s.flag (F.EXP_STATUS_BD_LOCK 0) = false
      ∧ (px ≤ (px - win) + win ∧ px - win ≤ px + win ∧ px + win < px + win + 1)
      ∧ 0 < max 1 (s.fld (F.EXP_BD_LOCKN 0)) ∧ max 1 ((s.setFld (F.EXP_BD_LOCKN 0) 1).fld (F.EXP_BD_LOCKN 0)) ≤ 0 + 1)
    ∧ (let s := (clocked (scan0 (fun e => { e with facetsRun := true }))).setFlag (F.EXP_STATUS_BD_LOCK 0)
      (vget s.exp 0).facetsRun = true ∧ s.pixelRuns 0 = true ∧ s.flag (F.EXP_STATUS_BD_LOCK 0) = true
      ∧ (vget s.exp 0).fly + 1 ≤ (s.setFld (F.EXP_BD_BD_HOLD 0) 1).fld (F.EXP_BD_BD_HOLD 0)
      ∧ s.fld (F.EXP_BD_BD_HOLD 0) < (vget (clocked (scan0 (fun e => { e with facetsRun := true, fly := 255 }))).exp 0).fly + 1
      ∧ (vget State.reset.exp 0).facetsRun = false
      ∧ s.inProbes 0 (64 * s.fld (F.EXP_FACETPX_FACET_PX 0)) = false)
    ∧ (let s := ((scan0 (fun e => { e with facet := 1, inScan := true })).setFlag (F.EXP_SCAN_FIDX_EN 0)).setFlag
        (F.EXP_STATUS_FIDX_OK 0)
      s.flag (F.EXP_SCAN_FIDX_EN 0) = true ∧ s.flag (F.EXP_STATUS_FIDX_OK 0) = true
      ∧ ((vget s.exp 0).facet + 1) % s.facetsOn 0 ≠ 0 ∧ (vget s.exp 0).inScan = true ∧ s.pageFree 0 0 = true
      ∧ ((vget (scan0 (fun e => { e with facet := 7 })).exp 0).facet + 1) % (scan0 (fun e => { e with facet := 7 })).facetsOn 0 = 0
      ∧ State.reset.flag (F.EXP_SCAN_FIDX_EN 0) = false ∧ State.reset.flag (F.EXP_STATUS_FIDX_OK 0) = false)
    ∧ (paged .printing).pageFree 0 0 = false
    ∧ ((1#32).getLsbD 0 = true ∧ (0#32).getLsbD 0 = false ∧ (vget State.reset.exp 0).inScan = false)
    ∧ (State.reset.setFlag (F.EXP_STATUS_BD_LOCK 0)).flag (F.EXP_STATUS_BD_LOCK 0) = true := by decide +kernel

/-- An index signal out of place on station 0 whose facet count stands at `n`, on the lines of `paged` or between pages. -/
def indexed (st : PageState) (f : ExpSt → ExpSt) : State :=
  let s := paged st
  ({ s with exp := vmod s.exp 0 f } : State).setFlag (F.EXP_SCAN_FIDX_EN 0) |>.setFlag (F.EXP_STATUS_FIDX_OK 0)

theorem witness_BeamDetect_index :
    (let s := indexed .printing (fun e => { e with facet := 1, cf := 5 });
      ((vget s.exp 0).facet + 1) % s.facetsOn 0 ≠ 0 ∧ s.pageFree 0 (vget s.exp 0).cf = false)
    ∧ (let s := indexed .ready (fun e => { e with facet := 1, cf := 5 });
      ((vget s.exp 0).facet + 1) % s.facetsOn 0 ≠ 0 ∧ s.pageFree 0 (vget s.exp 0).cf = true)
    ∧ (let s := indexed .ready (fun e => { e with facet := 9, idxFix := false });
      ((vget s.exp 0).facet + 1) % s.facetsOn 0 = 0 ∧ (vget s.exp 0).idxFix = false) := by decide +kernel

theorem witness_FiringTables :
    ((paged .ready).hasStn 0 = true ∧ (paged .ready).inJob 0 = true ∧ State.reset.inJob 0 = false)
    ∧ ((∃ j < 8, 0x10 / 16 ^ j % 16 = 1) ∧ (∀ j < 8, 0x20 / 16 ^ j % 16 ≠ 1))
    ∧ ((0x44#32).toNat / 4 % 4 = 1 ∧ (0x44#32).toNat / 16 % 16 = 4 ∧ (0x1C#32).toNat / 16 % 16 < (0x1C#32).toNat / 4 % 4)
    ∧ (State.reset.setFld (F.ELK_STATUS_STATE 0) 6).fld (F.ELK_STATUS_STATE 0) = 6
    ∧ State.reset.fld (F.ELK_STATUS_STATE 0) ≠ 6
    ∧ ((State.reset.setFld (F.EXP_FSTAT_STAGE 0) 1).fld (F.EXP_FSTAT_STAGE 0) = 1
      ∧ State.reset.fld (F.EXP_FSTAT_STAGE 0) = 0)
    ∧ (64 < 65 ∧ 96 < 63 + 34 ∧ (7 < 64 ∧ 64 ≤ 64 ∧ 32 + 64 ≤ 96))
    ∧ ((1#32).getLsbD 0 = true ∧ (1#32).getLsbD 2 = false ∧ (4#32).getLsbD 2 = true)
    ∧ State.reset.dirtyKeys 0 = []
    ∧ (State.reset.setReg (R.EXP_FIRE 0 17) 0x501).dirtyKeys 0 ≠ []
    ∧ (State.reset.elkTrained 0 = false ∧ (State.reset.setFld (F.ELK_STATUS_STATE 0) 7).elkTrained 0 = true)
    ∧ (vget State.reset.elk 0).fireQuiet = true := by decide +kernel

theorem witness_LaceAndProtection :
    (State.reset.hasStn 0 = true ∧ State.reset.inJob 0 = false ∧ (paged .ready).inJob 0 = true)
    ∧ (let s := (State.reset.setFlag (F.LAC_STATUS_CHK_BUSY 0)).setFld (F.LAC_MAP_LOFF 0 1) 0
      State.reset.flag (F.LAC_STATUS_CHK_BUSY 0) = false ∧ s.flag (F.LAC_STATUS_CHK_BUSY 0) = true
      ∧ (s.laceCheck 0 2).isSome = true ∧ (s.laceCheck 0 4).isSome = true)
    ∧ ((State.reset.setReg (R.LAC_DEAD 0 0) 0).deadReq 0 = State.reset.deadReq 0
      ∧ (State.reset.setReg (R.LAC_DEAD 0 3) 8).deadReq 0 ≠ State.reset.deadReq 0)
    ∧ (256 < (257#32).toNat % 512 ∧ (256#32).toNat % 512 ≤ 256)
    ∧ (let s := scan0 (fun e => { e with inScan := true })
      (vget s.exp 0).inScan = true ∧ (0#9).toNat < 384 ∧ (0#9).toNat = (vget s.lac 0).done ∧ (383#9).toNat ≠ (vget s.lac 0).done
      ∧ s.elkTrained 0 = false ∧ (vget State.reset.exp 0).inScan = false)
 := by decide +kernel

theorem witness_LaceAndProtection_frames :
    (let s : State := { State.reset.setFld (F.ELK_STATUS_STATE 0) 7 with
          elk := vmod State.reset.elk 0 (fun k => { k with credits := 1 })
          lac := vmod State.reset.lac 0 (fun l => { l with formed := [default], noReport := 8 }) };
      s.elkTrained 0 = true ∧ 0 < (vget s.elk 0).credits ∧ (vget s.elk 0).resend = [] ∧ (vget s.lac 0).formed ≠ []
      ∧ 8 ≤ (vget s.lac 0).noReport ∧ s.flag (F.LAC_STATUS_TEMP_STALE 0) = false)
    ∧ (let f : Frame := { (default : Frame) with seq := 7 }
      let s : State := { State.reset.setFld (F.ELK_STATUS_STATE 0) 7 with
          elk := vmod State.reset.elk 0 (fun k => { k with credits := 1, resend := [7, 8], frames := [f] }) };
      s.elkTrained 0 = true ∧ 0 < (vget s.elk 0).credits ∧ (vget s.elk 0).resend = 7 :: [8]
      ∧ (vget s.elk 0).frames.find? (fun f => f.seq == 7) ≠ none ∧ (vget s.lac 0).formed = []
      ∧ (vget State.reset.elk 0).credits = 0 ∧ (vget s.lac 0).noReport < 8)
    ∧ (let s := scan0 (fun e => { e with facetsRun := true });
      (vget s.exp 0).facetsRun = true ∧ (vget s.exp 0).needAt ≠ some (s.nextCf 0) ∧ s.livePages 0 = []
      ∧ (vget (scan0 (fun e => { e with facetsRun := true, needAt := some (s.nextCf 0) })).exp 0).needAt = some (s.nextCf 0))
    ∧ (let s := State.reset.setFlag (F.LAC_STATUS_HOT_TRIP 0)
      let cold := (s.setFld (F.LAC_TCOMMIT_TLIM 0) 100).setFld (F.LAC_THERM_HT 0) 99;
      (64#32).getLsbD 6 = true ∧ (0#32).getLsbD 6 = false ∧ State.reset.flag (F.LAC_STATUS_HOT_TRIP 0) = false ∧ cold.flag (F.LAC_STATUS_HOT_TRIP 0) = true
      ∧ cold.headT 0 < cold.sfld (F.LAC_TCOMMIT_TLIM 0) ∧ cold.flag (F.LAC_STATUS_COOL_PEND 0) = false
      ∧ (cold.setFld (F.LAC_THERM_HT 0) 100).sfld (F.LAC_TCOMMIT_TLIM 0) ≤ (cold.setFld (F.LAC_THERM_HT 0) 100).headT 0)
    ∧ (let s := State.reset.setFlag (F.LAC_STATUS_COOL_PEND 0)
      s.flag (F.LAC_STATUS_COOL_PEND 0) = true ∧ s.pagesIn .printing = [] ∧ State.reset.flag (F.LAC_STATUS_COOL_PEND 0) = false
      ∧ (s.reg (R.LAC_COOL_OFF 0)).toNat % 2 ^ 24 = 0) := by decide +kernel

/-- Station 0's link in training step `k`, its state changed. -/
def link0 (k : Nat) (f : ElkSt → ElkSt) : State :=
  { State.reset.setFld (F.ELK_STATUS_STATE 0) k with elk := vmod State.reset.elk 0 f, ptime := 10000000 }

theorem witness_LinkTraining_steps :
    ((link0 3 id).hasStn 0 = true ∧ (link0 1 id).elkState 0 = 1 ∧ (link0 2 id).elkState 0 = 2 ∧ (link0 3 id).elkState 0 = 3
      ∧ (link0 4 id).elkState 0 = 4 ∧ (link0 7 id).elkState 0 = 7 ∧ (link0 0 id).elkState 0 = 0)
    ∧ ((vget State.reset.elk 0).comma = false ∧ (vget (link0 7 (fun k => { k with comma := true })).elk 0).comma = true)
    ∧ (headCrc 6 (leBytes 2 16) < 2 ^ 16 ∧ headCrc 4 [1] < 2 ^ 16 ∧ headCrc 5 (leBytes 2 0x128 ++ [0, 0]) < 2 ^ 16
      ∧ headCrc 3 ([5, 0] ++ leBytes 4 0) < 2 ^ 16 ∧ headCrc 2 (leBytes 2 7) < 2 ^ 16
      ∧ headCrc 1 ([0] ++ leBytes 2 0 ++ leBytes 2 4 ++ [0, 0, 1, 0]) < 2 ^ 16 ∧ (0#16).toNat ≠ headCrc 4 [1]
      ∧ 60 < (([0] ++ leBytes 2 0 ++ leBytes 2 4 ++ [0, 0, 60] ++ List.replicate 60 0 : List Byte)).length)
    ∧ (let s (t : Nat) := link0 4 (fun k => { k with stepAt := t });
      (s 10000000).now ≤ (vget (s 10000000).elk 0).stepAt + elkLimit 4
      ∧ ({ s 0 with ptime := 10000000000 } : State).now > (vget (s 0).elk 0).stepAt + elkLimit 4
      ∧ (s 10000000).now < (vget (s 10000000).elk 0).stepAt + elkLimit 4
      ∧ (vget (s 0).elk 0).stepAt + elkLimit 4 ≤ ({ s 0 with ptime := 10000000000 } : State).now)
    ∧ (let es (v : Nat) : ElkSt → ElkSt := fun k => { k with echoes := List.replicate 64 v };
      (vget (link0 5 id).elk 0).echoes.length < 64 ∧ 64 ≤ (vget (link0 5 (es 0)).elk 0).echoes.length) := by decide +kernel

/-- Echoes of one latency need no sorting. -/
theorem latency4_same (v : Nat) : latency4 0 0 (List.replicate 64 v) = (v : Int) + v := by
  unfold latency4
  rw [List.mergeSort_of_pairwise (List.pairwise_replicate.mpr (.inr (by simp)))]
  have h (i : Nat) (hi : i < 64) : lget (List.replicate 64 v) i = v := by
    unfold lget
    rw [List.getD_eq_getElem?_getD, List.getElem?_replicate, if_pos hi]
    rfl
  show _ + (lget _ 31 : Int) + (lget _ 32 : Int) - _ = _
  rw [h 31 (by decide), h 32 (by decide)]
  omega

theorem witness_LinkTraining_latency : latency4 0 0 (List.replicate 64 0) = 0 ∧ 1600000 < latency4 0 0 (List.replicate 64 4000000) := by
  rw [latency4_same, latency4_same]
  decide

theorem witness_LinkTraining :
    (let o : CtlOut := ⟨5, .echo, 2, 10000000 - 20000⟩
      let s := link0 7 (fun k => { k with out := [o], failedAt := some 0, nackRun := 7, nackLast := 65535 })
      (vget s.elk 0).out.find? (fun x => x.tag == 5) = some o ∧ 3 ≤ ({ o with repeats := 3 } : CtlOut).repeats ∧ (vget s.elk 0).queue = [] ∧ (∀ x ∈ (vget s.elk 0).out, x.tag ≠ 6)
      ∧ (7 ≤ (vget s.elk 0).nackRun ∧ (0#16).toNat = ((vget s.elk 0).nackLast + 1) % 2 ^ 16)
      ∧ (vget s.elk 0).out = [⟨5, .echo, 2, 9980000⟩] ∧ 9980000 + 20000 ≤ s.now ∧ 2 < 3)
    ∧ ((vget (link0 7 id).elk 0).nackRun = 0 ∧ (vget (link0 7 id).elk 0).frames = [] ∧ (vget (link0 6 id).elk 0).out = []
      ∧ (vget (link0 0 id).elk 0).failedAt = none
      ∧ (vget (link0 6 (fun k => { k with queue := [.echo] })).elk 0).queue ≠ [])
    ∧ (let f : Frame := { (default : Frame) with seq := 7 }
      let s := clocked (link0 7 (fun k => { k with frames := [f] }))
      (vget s.elk 0).frames.find? (fun f => f.seq == (7#16).toNat) = some f ∧ s.frameInTime 0 f = false
      ∧ (setupA 0).frameInTime 0 { f with block := 300 } = true)
    ∧ ((1000#32).toNat ≤ 1000 ∧ 1000 < (1001#32).toNat ∧ (3#32).getLsbD 0 = true ∧ (3#32).getLsbD 1 = true
      ∧ (2#32).getLsbD 0 = false ∧ (1#32).getLsbD 1 = false)
    ∧ (sx 12 (0#16).toNat < ((link0 7 id).setFld (F.LAC_TABS_TLIM 0) 1).sfld (F.LAC_TABS_TLIM 0))
    ∧ ((link0 0 id).flag (F.ELK_CTRL_EN 0) = false ∧ ((link0 7 id).setFlag (F.ELK_CTRL_EN 0)).flag (F.ELK_CTRL_EN 0) = true)
    ∧ ((link0 7 id).pageActive 0 = false ∧ (paged .printing).pageActive 0 = true)
    ∧ (let s := (link0 0 (fun k => { k with failedAt := some 0 })).setFlag (F.ELK_CTRL_EN 0)
      (vget s.elk 0).failedAt = some 0 ∧ 0 + 10000000 ≤ s.now ∧ s.elkState 0 = 0 ∧ s.flag (F.ELK_CTRL_EN 0) = true)
    ∧ (let s := (State.reset.setFld (F.LAC_TCOMMIT_TLIM 0) 10).setFld (F.LAC_TWARN_TLIM 0) 5
      let t := s.plainWrite (0x240000 + 0x10000 * 0 + (0x20#16).toNat) 5
      t.sfld (F.LAC_TWARN_TLIM 0) ≤ t.sfld (F.LAC_TCOMMIT_TLIM 0)
        ∧ t.sfld (F.LAC_TCOMMIT_TLIM 0) < t.sfld (F.LAC_TABS_TLIM 0)
        ∧ s.sfld (F.LAC_TCOMMIT_TLIM 0) < (s.plainWrite (0x240000 + 0x10000 * 0 + (0x20#16).toNat) 11).sfld (F.LAC_TWARN_TLIM 0)
        ∧ s.sfld (F.LAC_TCOMMIT_TLIM 0) < sx 12 ((11#32).toNat % 4096) ∧ sx 12 ((10#32).toNat % 4096) ≤ s.sfld (F.LAC_TCOMMIT_TLIM 0)
      ∧ s.sfld (F.LAC_TWARN_TLIM 0) ≤ s.sfld (F.LAC_TCOMMIT_TLIM 0)) := by decide +kernel

/-- Station 0's interlock as given, 200 ms in. -/
def loop0 (f : LoopSt → LoopSt) : State := { State.reset with ilk := vmod State.reset.ilk 0 f, ptime := 200000000 }

theorem witness_InterlocksAndPanel :
    (State.reset.hasStn 0 = true ∧ bit (State.reset.fld (loopFld false)) 0 = false
      ∧ bit ((State.reset.setFld F.ILK_STATUS_LOOPA 1).fld (loopFld false)) 0 = true)
    ∧ (let s := loop0 (fun l => { l with closedSince := some 0, mismatchSince := some 149999999 })
      (vget s.ilk 0).closedSince = some 0 ∧ 0 + 200000000 ≤ s.now ∧ (vget s.ilk 0).mismatchSince = some 149999999
      ∧ 149999999 + 50000000 < s.now ∧ bit (s.fld F.ILK_STATUS_DISCREP) 0 = false
      ∧ bit ((s.setFld F.ILK_STATUS_DISCREP 1).fld F.ILK_STATUS_DISCREP) 0 = true)
    ∧ ((vget State.reset.ilk 0).closedSince = none ∧ (vget State.reset.ilk 0).mismatchSince = none)
    ∧ (bits (0x5B00#32).toNat 8 8 ≠ 0x5A ∧ (BitVec.ofNat 32 (0x5A00 + 2 ^ 0) : Word) = 0x5A01
      ∧ (BitVec.ofNat 32 (0x5A00 + 2 ^ (4 + 0)) : Word) = 0x5A10)
    ∧ (let s : State := { State.reset with pwr := { State.reset.pwr with phase := .running } }
      s.panel.pressAt = none ∧ s.pwr.phase = .running ∧ s.pwr.phase.dryRuns = false ∧ PwrPhase.drydown.dryRuns = true)
    ∧ (let s : State := { State.reset with panel := { State.reset.panel with pressAt := some 0 }, ptime := 8000000000 }
      s.panel.pressAt = some 0 ∧ s.panel.longDone = false ∧ s.panel.quiet = false ∧ 0 + 8000000000 ≤ s.now)
    ∧ ((0#8).toNat = State.reset.fld F.ILK_PANEL_KEYS ∧ (128#8).toNat ≠ State.reset.fld F.ILK_PANEL_KEYS)
    ∧ (bit (State.reset.fld F.ILK_CNS_STATUS_PRESENT) 7 = false ∧ State.reset.panel.cns = none)
    ∧ ((0x80000000#32).getLsbD 31 = true ∧ State.reset.flag F.ILK_CNS_RES_BUSY = false
      ∧ (State.reset.setFlag F.ILK_CNS_RES_BUSY).flag F.ILK_CNS_RES_BUSY = true)
    ∧ (let r : CnsRead := ⟨7, true, 255, 256⟩
      ({ State.reset with panel := { State.reset.panel with cns := some r } } : State).panel.cns = some r
      ∧ r.idOnly = true ∧ r.port = 7 ∧ ({ r with idOnly := false } : CnsRead).idOnly = false)
    ∧ (let z : List Byte := List.replicate 6 0;
      let id := leBytes 8 (ofLe (z ++ [BitVec.ofNat 8 (crc16 z / 256), BitVec.ofNat 8 (crc16 z % 256)]));
      crc16 (id.take 6) = (id.getD 6 0).toNat * 256 + (id.getD 7 0).toNat
        ∧ crc16 z ≠ ((leBytes 8 0).getD 6 0).toNat * 256 + ((leBytes 8 0).getD 7 0).toNat)
    ∧ (let s : State := { State.reset with panel := { State.reset.panel with pressAt := some 0, quiet := true } };
      s.panel.quiet = true ∧ s.now < 0 + 8000000000 ∧ PwrPhase.holdoff = .holdoff
      ∧ ({ s with panel := { s.panel with longDone := true } } : State).panel.longDone = true)
    ∧ (249#40).toNat < 250 ∧ 250 ≤ (250#40).toNat ∧ (19999999#40).toNat < 20000000 := by decide +kernel

/-! ### Hypotheses of the statements about the codec, its engines, memory and DMA -/

theorem witness_EncodedBlocksDecode : ([] : List Byte).length ≤ 65536 ∧ [(1 : Byte), 2].length ≤ 65536 := by decide

/-- Engine 0 online with ring 32 as both its rings; `a` is its state. -/
def engine (a : AtrSt) : State :=
  let s := ((ringCore.setFlag (F.ATR_CTRL_ONLINE 0)).setFld (F.ATR_SQ_HANDLE 0) 0x10010020).setFld
    (F.ATR_CQ_HANDLE 0) 0x10010020
  { s with atr := vmod s.atr 0 (fun _ => a) }

/-- A page of one block being filled into a band of station 0. -/
def filling (b : Option BandJob) (cause : Nat) : State :=
  let s := engine { (default : AtrSt) with band := b }
  { s with
    objs := [(0x0A * 65536, ⟨1, 0, 0, 0⟩), (0x0B * 65536, ⟨1, 0, 0, 0⟩), (0x0C * 65536, ⟨1, 0, 0, 0⟩)]
    jobs := [(0, { aJob with band := [0x30010000, 0, 0, 0] })]
    pages := [(0, { aPage .queued with record := { (default : PageRec) with spoilCause := cause } })]
    bands := [(0, { (default : Band) with lines := 256 })]
    fills := [{ (default : Fill) with page := 0, stn := 0 }] }

def idleEngine : AtrSt := default
def endedJob : AtrJob := { AtrJob.ofEntry [] 0 with ended := some (0, 0) }
def fullRing : State := { engine idleEngine with rings := [(32, { aRing with prod := 2 })] }
def someCtx : AtrCtx := default

/-- Context 0 open, and a queued page whose block names handle `h`. -/
def withCtx (h : Nat) : State :=
  { engine idleEngine with
    objs := [(0x02 * 65536, ⟨1, 0, 0, 0⟩)], actxs := [(0, someCtx)], pages := [(0, aPage .queued)]
    mem := ((engine idleEngine).wrLe 4 4 h).mem }

theorem witness_AttarEngines :
    (State.reset.clrFlag (F.ATR_CTRL_ONLINE 0)).flag (F.ATR_CTRL_ONLINE 0) = false
    ∧ ((engine idleEngine).flag (F.ATR_CTRL_ONLINE 0) = true ∧ idleEngine.job = none ∧ idleEngine.band = none ∧ idleEngine.testing = false
      ∧ idleEngine.parked = none ∧ ((engine idleEngine).setFld (F.ATR_SQ_HANDLE 0) 0).fld (F.ATR_SQ_HANDLE 0) = 0)
    ∧ (let s := (engine idleEngine).setFld (F.ATR_SQ_HANDLE 0) 1
      s.fld (F.ATR_SQ_HANDLE 0) ≠ 0 ∧ s.fld (F.ATR_CQ_HANDLE 0) ≠ 0 ∧ s.unitRing 1 2 = none)
    ∧ ((engine idleEngine).unitRing 0x10010020 2 = some (32, aRing) ∧ aRing.count ≠ 0
      ∧ (match (engine idleEngine).ringPop 32 aRing with | (_, .entry _) => true | _ => false) = true
      ∧ (engine idleEngine).ctxBusy 0 = false ∧ bits 0 0 4 = 0)
    ∧ (5 ≤ (AtrJob.ofEntry [5] 0).op ∧ jobRsvd [64] = true ∧ (AtrJob.ofEntry [0x10] 0).flush = true
      ∧ (AtrJob.ofEntry [0x10] 0).op ≠ 1)
    ∧ ((AtrJob.ofEntry [4] 0).op < 5 ∧ jobRsvd [4] = false ∧ (AtrJob.ofEntry [4] 0).flush = false
      ∧ (AtrJob.ofEntry [4] 0).last = false ∧ (engine idleEngine).ctxOf (AtrJob.ofEntry [4] 0).ctx = none)
    ∧ ((withCtx 0).ctxOf (AtrJob.ofEntry [2, 0, 0, 0, 0, 0, 1, 8] 0).ctx = some (0, someCtx) ∧ someCtx.long = false
      ∧ (AtrJob.ofEntry [2, 0, 0, 0, 0, 0, 1, 8] 0).op = 2)
    ∧ (let k := AtrJob.ofEntry [4, 0, 0, 0, 0, 0, 1, 8] 0
      (withCtx k.ctx).ctxOf k.ctx = some (0, someCtx) ∧ k.op = 4 ∧ (withCtx k.ctx).ctxInUse k.ctx = true)
    ∧ (vget (engine { idleEngine with job := some endedJob }).atr 0).job = some endedJob ∧ endedJob.ended = some (0, 0)
    ∧ (vget (engine { idleEngine with parked := some [1] }).atr 0).parked = some [1] ∧ aRing.count < aRing.size
    ∧ (fullRing.unitRing 0x10010020 2).map (fun x => decide (x.2.size ≤ x.2.count)) = some true
    ∧ (({ State.reset with atr := Vector.replicate 8 { idleEngine with testing := true } } : State).nextEngine = none
      ∧ (filling none 0).nextEngine = some 0 ∧ (filling none 0).fills.length = 1
      ∧ (filling none 0).fills.all (fun f => ((filling none 0).fillNext f).isSome) = true) := by
  decide +kernel

/-- A submission entry for context 0, source 0x1000, destination 0x400000. -/
def atrEntry (op srcLen dstLen : Nat) : List Byte :=
  leBytes 4 op ++ leBytes 4 0x08010000 ++ leBytes 8 0x1000 ++ leBytes 4 srcLen ++ leBytes 4 dstLen ++ leBytes 8 0x400000
    ++ List.replicate 32 0

/-- Engine 0 with that entry in its ring, context 0 and source bytes. -/
def atrState (op srcLen dstLen : Nat) (c : AtrCtx) (src : List Byte) : State :=
  let s : State := { engine idleEngine with
    objs := [(0x04 * 65536 + 32, ⟨1, 0, 0, 0⟩), (0x02 * 65536, ⟨1, 0, 0, 0⟩)], actxs := [(0, c)] }
  (s.wrBytes 0 (atrEntry op srcLen dstLen)).wrBytes 0x1000 src

def anEncoder : AtrCtx := { (default : AtrCtx) with encode := true, linePx := 4, blksz := 2 }
def aDecoder : AtrCtx := { (default : AtrCtx) with linePx := 16 }
def longCtx : AtrCtx := { (default : AtrCtx) with long := true }

/-- The entry is taken, its context free and its checks pass. -/
def takes (s : State) (e : List Byte) (c : AtrCtx) : Bool :=
  let head := s.rdBytes (aRing.entryAddr aRing.cons) 64
  match s.ringPop 32 aRing with
  | (t, .entry l) => l == e && head == e && !s.ctxBusy (entLe head 4 4) && decide (s.unitRing 0x10010020 2 = some (32, aRing))
      && (t.jobCheck (AtrJob.ofEntry l t.now) (jobRsvd l)).isNone && decide (t.ctxOf (AtrJob.ofEntry l t.now).ctx = some (0, c))
  | _ => false

/-- The two-line fragment of R211 as a block. -/
def aBlock : List Byte :=
  let px := List.replicate 8 0 ++ [3, 9] ++ List.replicate 6 15 ++ List.replicate 8 0 ++ [3, 9] ++ List.replicate 5 15 ++ [7]
  [0xA7, 2, 1, 0] ++ leBytes 4 7 ++ leBytes 4 16 ++ leBytes 4 (crc32c (packNibbles px)) ++ [0x05, 0x15, 0x93, 0xF5, 0x63, 0x1E, 0x70]

theorem witness_AttarEngines_jobs :
    (let s := atrState 0 23 16 aDecoder aBlock;
      takes s (atrEntry 0 23 16) aDecoder = true
      ∧ (match s.engRead 0x1000 16 with | (_, .ok b) => (BlkHdr.ofBytes b).ok && (BlkHdr.ofBytes b).outLen == 16
          && (BlkHdr.ofBytes b).inLen == 7 && b == aBlock.take 16 | _ => false) = true
      ∧ (match s.engRead 0x1010 7 with | (_, .ok b) => b == aBlock.drop 16 | _ => false) = true
      ∧ (match { aDecoder with active := some 0 }.decode (BlkHdr.ofBytes aBlock) (aBlock.drop 16) with
          | .ok px => (packNibbles px).length == 16 | _ => false) = true
      ∧ (s.engWrite 0x400000 (List.replicate 16 1)).2 = none)
    ∧ (let s := atrState 0x21 0 16 anEncoder [];
      let blk := encodeBlock 4 [] [] true false false;
      takes s (atrEntry 0x21 0 16) anEncoder = true ∧ (AtrJob.ofEntry (atrEntry 0x21 0 16) 0).nextChunk 2 = some (0, true, false)
      ∧ (match s.engRead 0x1000 0 with | (_, .ok b) => b == [] | _ => false) = true ∧ blk.length ≤ 16
      ∧ (s.engWrite 0x400000 blk).2 = none)
    ∧ takes (atrState 4 0 0 aDecoder []) (atrEntry 4 0 0) aDecoder = true
    ∧ takes (atrState 2 0 imageBytes longCtx []) (atrEntry 2 0 imageBytes) longCtx = true
    ∧ takes (atrState 3 imageBytes 0 longCtx []) (atrEntry 3 imageBytes 0) longCtx = true := by decide +kernel

theorem longCtx_image : longCtx.image.length = imageBytes ∧ longCtx.imageFits longCtx.image = true :=
  Sys2Proof.Laws.Codec.image_fits longCtx [] rfl rfl (by decide) (by decide)

def aBand : BandJob := default
def noBand (x : AtrSt) : AtrSt := { x with band := none }

theorem witness_AttarEngines_pageBlocks :
    ((vget (filling (some aBand) 0).atr 0).band = some aBand
      ∧ Tab.get (engine { idleEngine with band := some aBand }).pages aBand.page = none)
    ∧ (Tab.get (filling (some aBand) 7).pages aBand.page).map (fun p => p.record.spoilCause) = some 7
    ∧ (Tab.get (filling (some aBand) 0).pages aBand.page).map (fun p =>
        (p.record.spoilCause, (((filling (some aBand) 0).modAtr 0 noBand).blkEntry p aBand.entry).2.isSome)) = some (0, true)
    ∧ ((1#32).getLsbD 0 = true ∧ (1#32).getLsbD 1 = false ∧ State.reset.flag (F.ATR_STATUS_TEST_FAIL 0) = false
      ∧ (State.reset.setFlag (F.ATR_STATUS_TEST_FAIL 0)).flag (F.ATR_STATUS_TEST_FAIL 0) = true)
    ∧ ((0#32).getLsbD 0 = false ∧ (engine idleEngine).reservations ≤ 1800000000 * ((engine idleEngine).engOnline - 1))
    ∧ (let s : State := { engine idleEngine with pages := [(0, { aPage .queued with reserved := 12600000001 })] }
      1800000000 * (s.engOnline - 1) < s.reservations)
    ∧ ((2#32).getLsbD 1 = true ∧ (2#32).getLsbD 0 = false ∧ State.reset.flag (F.ATR_STATUS_BUSY 0) = false
      ∧ (State.reset.setFlag (F.ATR_STATUS_BUSY 0)).flag (F.ATR_STATUS_BUSY 0) = true)
    ∧ ((vget State.reset.atr 0).testing = false ∧ (vget (engine { idleEngine with testing := true }).atr 0).testing = true) := by
  decide +kernel

/-- Channel 0 of the DMA unit running descriptor `d`, 16 GiB of DRAM trained. -/
def dmaState (c : DmaCh) : State :=
  let s := withDram State.reset
  { s with dmas := [(0, c)], objs := [(0x01 * 65536, ⟨1, 0, 0, 0⟩)] }

def copyDesc : DmaDesc := { (default : DmaDesc) with op := 0, sw := 4, dw := 3, len := 32, src := 64, dst := 96, stop := true }
def runCh (d : Option DmaDesc) (moved : Bool) : DmaCh :=
  { (default : DmaCh) with state := .running, desc := d, moved := moved }

theorem witness_DmaMovesBytes : (dmaState (runCh (some copyDesc) false)).Clean
    ∧ (Tab.get (dmaState (runCh (some copyDesc) false)).dmas 0 = some (runCh (some copyDesc) false)
      ∧ (runCh (some copyDesc) false).state = .running ∧ copyDesc.dfix = false ∧ copyDesc.dw ≤ 4
      ∧ copyDesc.len % 2 ^ copyDesc.dw = 0 ∧ copyDesc.dst + copyDesc.len ≤ (dmaState default).dramTop
      ∧ copyDesc.dst + copyDesc.len ≤ 0x1000000000 ∧ copyDesc.sfix = false ∧ copyDesc.sw ≤ 4
      ∧ copyDesc.len % 2 ^ copyDesc.sw = 0 ∧ copyDesc.src + copyDesc.len ≤ copyDesc.dst
      ∧ ({ copyDesc with op := 1 } : DmaDesc).op = 1) := by
  refine ⟨clean_of _ (by decide +kernel), by decide +kernel⟩

theorem witness_MemoryController :
    let s : State := { withDram State.reset with ptime := 60000000000 }
    let at' (p : PwrPhase) : State := { s.setFlag F.MEM_LOCK_LOCK with pwr := { s.pwr with phase := p } }
    (State.reset.flag F.MEM_STATUS_INIT_DONE = false ∧ s.flag F.MEM_STATUS_INIT_DONE = true
      ∧ ({ s.memst with winLen := 1, winStart := 0 } : MemSt).winStart + 1 * 60000000000 ≤ s.now)
    ∧ (s.flag F.MEM_LOCK_LOCK = false ∧ (at' .training).pwr.phase = .training
      ∧ (at' .training).flag F.MEM_LOCK_LOCK = true ∧ (at' .filling).pwr.phase = .filling ∧ s.pwr.phase ≠ .filling)
    ∧ (s.memst.scrubStopped = false ∧ s.upsets = [] ∧ s.memst.scrub + 64 < s.dramTop
      ∧ ({ s with memst := { s.memst with scrub := s.dramTop - 64 } } : State).dramTop ≤ s.dramTop - 64 + 64)
    ∧ (let t := (s.setFlag F.MEM_INJ_CTRL_ARM).setFld F.MEM_INJ_CTRL_NBITS 2
      t.region 0 = .dram ∧ 0 % 8 = 0 ∧ t.flag F.MEM_INJ_CTRL_ARM = true ∧ t.injAddr = 0
        ∧ [0, 0, 0, 0, 0, 0, 0, (0 : Byte)].length = 8) := by decide +kernel

theorem witness_DmaChannels :
    let fetching : DmaCh := { runCh none false with fetch := some 0 }
    let cmp : DmaDesc := { copyDesc with op := 2, len := 1, sw := 0, dw := 0 }
    (Tab.get (dmaState fetching).dmas 0 = some fetching ∧ (dmaState fetching).isOpen 0x01 0 = true)
    ∧ ((default : DmaCh).state ≠ .running ∧ (default : DmaCh).state ≠ .disabling ∧ (runCh none false).state = .running)
    ∧ (({ runCh none false with state := .disabling } : DmaCh).state = .disabling ∧ (runCh none false).desc = none)
    ∧ ((runCh none false).fetch = none ∧ fetching.fetch = some 0 ∧ fetching.desc = none
      ∧ (dmaState fetching).dmaStalled 0 = false)
    ∧ (1 % 32 ≠ 0 ∧ (0 % 32 = 0 ∧ (dmaState fetching).upsets = [] ∧ 0 + 32 ≤ (dmaState fetching).dramTop))
    ∧ (dmaMalformed (0xFF :: List.replicate 31 0) = true ∧ dmaMalformed (List.replicate 32 0) = false
      ∧ (dmaDescOf (List.replicate 32 0)).widthBad = false
      ∧ (∃ l : List Byte, dmaMalformed l = false ∧ (dmaDescOf l).widthBad = true))
    ∧ (cmp.op = 2 ∧ cmp.len = 1 ∧ cmp.sw = 0 ∧ (dmaState (runCh (some cmp) false)).rd8 cmp.src
        = (dmaState (runCh (some cmp) false)).rd8 cmp.dst
      ∧ ((dmaState (runCh (some cmp) false)).wr8 96 1).rd8 cmp.src ≠ ((dmaState (runCh (some cmp) false)).wr8 96 1).rd8 cmp.dst)
    ∧ ((runCh (some copyDesc) true).moved = true ∧ copyDesc.cpl = false ∧ copyDesc.irq = false ∧ copyDesc.stop = true
      ∧ ({ copyDesc with stop := false } : DmaDesc).stop = false)
    ∧ (runCh none false).cring = 0 := by
  refine ⟨by decide +kernel, by decide +kernel, by decide +kernel, by decide +kernel, by decide +kernel,
    ⟨by decide +kernel, by decide +kernel, by decide +kernel, [0x10, 0, 0, 0, 2, 0, 0, 0, 1] ++ List.replicate 23 0, by decide +kernel⟩,
    by decide +kernel, by decide +kernel, by decide +kernel⟩

/-! ### Hypotheses of the statements about packet links, the Talosh 1 port and the storage queue -/

/-- Port 0 in training step `k`, 10 ms after reset, enabled; its link changed. -/
def port0 (k : Nat) (f : LinkSt → LinkSt) : State :=
  let s := (State.reset.setFld (F.TAL_PORT_STATUS_STATE 0) k).setFlag (F.TAL_PORT_CTRL_EN 0)
  let t := s.putFlag (F.TAL_PORT_STATUS_UP 0) (k == 4)
  { t with links := vmod t.links 0 f, ptime := 10000000 }

/-- Both ports up with credits granted, no downstream port where `up` is false. -/
def linked (up : Bool) : State :=
  let s := withDram (port0 4 (fun k => { k with granted := ⟨64, 1024, 32, 0, 64, 1024⟩ }))
  let t := s.putFlag (F.TAL_PORT_STATUS_UP 1) up
  { t with links := vmod t.links 1 (fun k => { k with granted := ⟨64, 1024, 32, 0, 64, 1024⟩ }) }

/-- A packet with SEQ 0 and no error, as its bytes. -/
def pktIn (type dev len addr : Nat) (l : List Byte) : PktIn := ⟨Pkt.bytes ⟨type, dev, len, 0, 0, addr, l⟩⟩

/-- The packet passes its CRC and its reserved fields on link `m`, is the next in sequence, known and covered by credits. -/
def good (s : State) (m : Nat) (q : PktIn) : Bool :=
  q.crcOk m && !q.reserved && q.pkt.seq % 4096 == (s.pl m).rxSeq && typeKnown m q.pkt.type
    && (s.pl m).granted.covers (pktClass m q.pkt.type) (pktCost q.pkt)

theorem witness_TaloshLink :
    (let s := port0 0 (fun k => { k with failedAt := some 0 })
     s.talState 0 = 0
      ∧ s.flag (F.TAL_PORT_CTRL_EN 0) = true ∧ (s.pl 0).failedAt = some 0 ∧ 0 + 10000000 ≤ s.now
      ∧ (s.clrFlag (F.TAL_PORT_CTRL_EN 0)).flag (F.TAL_PORT_CTRL_EN 0) = false)
    ∧ ((port0 1 id).talState 0 = 1 ∧ (port0 2 id).talState 0 = 2 ∧ (port0 3 id).talState 0 = 3 ∧ (port0 4 id).talState 0 = 4)
    ∧ ((port0 1 id).fld (F.TAL_PORT_CTRL_GEN 0) = 0 ∧ ((port0 1 id).pl 0).tryT2 = false
      ∧ ((port0 1 (fun k => { k with tryT2 := true })).pl 0).tryT2 = true)
    ∧ (bits (6#32).toNat 1 2 = 3 ∧ bits (0x18#32).toNat 3 2 = 3 ∧ bits (33#32).toNat 0 1 = 1 ∧ bits (33#32).toNat 5 1 = 1
      ∧ bits (33#32).toNat 1 2 ≠ 3 ∧ bits (33#32).toNat 3 2 ≠ 3)
    ∧ ((linked false).linkHears LinkId.tu.idx = true ∧ ((linked false).pl LinkId.tu.idx).lastAck + 100000 ≤ (linked false).now
      ∧ ((linked false).pl 0).replay = []
      ∧ ((port0 4 (fun k => { k with replay := [default], replays := 3 })).pl 0).replay ≠ []
      ∧ ((port0 4 (fun k => { k with replay := [default], replays := 3 })).pl 0).replays < 4) := by decide +kernel

theorem witness_TaloshLink_training :
    (let s (t : Nat) := port0 1 (fun k => { k with stepAt := t });
      (s 10000000).now < ((s 10000000).pl 0).stepAt + stepLimit 1 ∧ ({ s 0 with ptime := 10 ^ 12 } : State).now > 0 + stepLimit 1
      ∧ (15#4).toNat = 15 ∧ (3#4).toNat % 4 = 3 ∧ (5#4).toNat % 4 ≠ 3 ∧ (14#4).toNat % 2 = 0)
    ∧ (1000 < (1001#32).toNat ∧ (1000#32).toNat ≤ 1000)
    ∧ (let q := pktIn 0x30 0 0 0 []
      q.crcOk 0 = true ∧ q.crcOk 2 = true ∧ q.reserved = false ∧ (⟨[1, 2]⟩ : PktIn).crcOk 0 = false
      ∧ (let w := leBytes 4 (0x30 + 2 ^ 29) ++ List.replicate 12 0;
        (⟨w ++ leBytes 4 (crc32c w)⟩ : PktIn).crcOk 0 = true ∧ (⟨w ++ leBytes 4 (crc32c w)⟩ : PktIn).reserved = true)) := by
  decide +kernel

theorem witness_TaloshLink_packets :
    (let s := linked false
     s.linkUp 0 = true ∧ s.joined = false ∧ s.isActive = false ∧ s.isShadow = false ∧ s.devNum = 0 ∧ s.linkUp 1 = false
      ∧ s.upsets = [] ∧ s.inDram (2 ^ 34 - 8) 8 = true ∧ s.inDram 0 4096 = true ∧ s.stq.cmds = [])
    ∧ (let q := pktIn 1 0 4 (regBase + 0xFFFC) [1, 2, 3, 4]
      good (linked false) 0 q = true ∧ tuRow 1 q.pkt = true ∧ q.pkt.type = 1 ∧ q.pkt.dev = 0 ∧ q.pkt.payload.length = 4
      ∧ regLenOk 4 = true ∧ regsMapped q.pkt.addr 4 = true ∧ q.pkt.addr % 4 = 0
      ∧ regsMapped (regBase + 0xFFFE) 4 = true ∧ (regBase + 0xFFFE) % 4 ≠ 0)
    ∧ (regLenOk (pktIn 1 0 3 regBase [1, 2, 3]).pkt.payload.length = false ∧ regLenOk (pktIn 2 0 3 regBase []).pkt.len = false
      ∧ good (linked false) 0 (pktIn 2 0 4 (regBase + 0xFFFC) []) = true ∧ (pktIn 2 0 4 (regBase + 0xFFFC) []).pkt.len = 4)
    ∧ (let q := pktIn 4 0 8 (2 ^ 34 - 8) [1, 2, 3, 4, 5, 6, 7, 8]
      good (linked false) 0 q = true ∧ q.pkt.payload.length % 4 = 0 ∧ q.pkt.payload.length ≤ 4096 ∧ q.pkt.payload ≠ []
      ∧ q.pkt.addr = 2 ^ 34 - 8)
    ∧ ((pktIn 5 0 2 0 []).pkt.len % 4 ≠ 0 ∧ (4096 % 4 = 0 ∧ 0 % 4 = 0 ∧ 0 % 4096 + 4096 ≤ 4096) ∧ 4096 < 4 % 4096 + 4096
      ∧ good (linked false) 0 (pktIn 5 0 4096 0 []) = true ∧ (linked false).region 0 = .dram)
    ∧ (let q := pktIn 9 0 0 0 []
      q.pkt.type = 9 ∧ good (linked false) 0 q = true ∧ tuRow 9 q.pkt = true ∧ (linked false).linkUp 0 = true)
    ∧ ((pktIn 4 1 0 0 []).pkt.dev ≠ (linked true).devNum ∧ (linked true).linkUp 1 = true
      ∧ good (linked true) 1 (pktIn 3 1 4 0 [0, 0, 0, 0]) = true ∧ good (linked true) 1 (pktIn 3 0 4 0 [0, 0, 0, 0]) = true
      ∧ good (linked true) 0 (pktIn 4 1 0 0 []) = true ∧ good (linked false) 0 (pktIn 0x2F 0 0 0 []) = false
      ∧ tuRow 9 (pktIn 6 1 0 0 []).pkt = true ∧ good (linked true) 0 (pktIn 6 1 0 0 []) = true
      ∧ good (linked true) 0 (pktIn 6 0 0 0 []) = true)
    ∧ (bits (0x7FFF#32).toNat 0 16 < 0x8000 ∧ 0x8000 ≤ bits (0x8000#32).toNat 0 16)
    ∧ ((State.reset.setFlag F.ACD_STATUS_JOINED).isShadow = true ∧ (linked false).linkHears 2 = false)
    ∧ (let c : StqCmd := { (default : StqCmd) with accepted := true, opc := 1, nblk := 1, offered := 1, offers := [⟨0, 4096, 4096, 0⟩] };
      let s : State := { linked false with stq := { (linked false).stq with cmds := [c] } };
      s.stq.cmds.find? (fun x => x.accepted && x.opc == 1 && !x.local_ && x.ended == none && x.xtag == 0) = some c
      ∧ good s 0 (pktIn 9 0 8 4088 [1, 2, 3, 4, 5, 6, 7, 8]) = true ∧ 4088 + 8 ≤ 4096 * c.offered ∧ c.got = []
      ∧ good s 0 (pktIn 9 0 8 4092 [1, 2, 3, 4, 5, 6, 7, 8]) = true ∧ 4096 * c.offered < 4092 + 8) := by
  decide +kernel

theorem witness_TaloshLink_memory : (linked false).Clean := clean_of _ (by decide +kernel)

/-- The port's line settings: two words a line, buffer at 0, four slots. -/
def t1on (f : T1St → T1St) : State :=
  let s := (((withDram State.reset).setFlag F.TAL_T1_CFG_EN).setFld F.TAL_T1_SLOTS_SLOTS 4).setFld F.TAL_T1_CFG_WORDS 2
  { s with t1 := f s.t1 }

/-- Volume 0 over channels 0 and 1 of capacity 16, loaded as `l` says, its HDA in the window as `w` says. -/
def volume (l w : Bool) : State :=
  let s := ((withDram State.reset).setFld (F.STQ_VOL_CFG_DCH 0) 3).putFlag (F.STQ_VOL_CFG_LOADED 0) l
  ((s.setReg (R.DSK_CAP_LO 0) 16).setReg (R.STQ_VOL_CAP_LO 0) 32).setFld F.THM_HDA_WIN (if w then 15 else 0)

theorem witness_StorageQueue :
    (State.reset.flag F.TAL_T1_CFG_EN = false ∧ (t1on id).flag F.TAL_T1_CFG_EN = true ∧ (t1on id).t1.lineOpen = false
      ∧ (t1on id).t1.used < (t1on id).fld F.TAL_T1_SLOTS_SLOTS
      ∧ (t1on id).fld F.TAL_T1_SLOTS_SLOTS ≤ (t1on (fun t => { t with used := 4 })).t1.used)
    ∧ (let s := t1on (fun t => { t with lineOpen := true, slot := 3, used := 4 })
      s.t1.lineOpen = true ∧ s.fld F.TAL_T1_CFG_WORDS = 2 ∧ [(1 : BitVec 16), 2].length = 2
      ∧ s.addr40 R.TAL_T1_BUF_LO R.TAL_T1_BUF_HI + 2 * 2 * 3 + 4 ≤ s.dramTop ∧ s.dramTop ≤ 0x1000000000
      ∧ s.upsets = [] ∧ s.flag F.MEM_INJ_CTRL_ARM = false ∧ s.usableRing (s.reg R.TAL_T1_RING).toNat 2 = none)
    ∧ ((volume false true).fld (F.STQ_VOL_CFG_DCH 0) ≠ 0 ∧ (volume false true).loadReason 0 = 0
      ∧ (volume true true).loadReason 0 ≠ 0 ∧ State.reset.loadReason 0 = 3 ∧ small.variant.hdas = 0
      ∧ State.reset.variant.hdas ≠ 0)
    ∧ (bits (0x10#32).toNat 0 3 = 0 ∧ bits (0x10#32).toNat 4 1 = 1 ∧ bits (0x10#32).toNat 5 1 = 0
      ∧ bits (0x20#32).toNat 4 1 = 0 ∧ bits (0x20#32).toNat 5 1 = 1 ∧ bits (0x30#32).toNat 4 1 = 1
      ∧ bits (0x30#32).toNat 5 1 = 1)
    ∧ ((volume true true).volLoaded 0 = true ∧ (volume true true).volBusy 0 = false ∧ (volume false true).volLoaded 0 = false
      ∧ (let s : State := { volume true true with stq := { (volume true true).stq with cmds := [{ (default : StqCmd) with
            accepted := true, opc := 2 }] } }
        s.volLoaded 0 = true ∧ s.volBusy 0 = true)) := by decide +kernel

/-- An accepted command, acceptance number 0, alone. -/
def cmd0 (f : StqCmd → StqCmd) : StqCmd := f { (default : StqCmd) with accepted := true, nblk := 1 }
def oneCmd (f : StqCmd → StqCmd) : State :=
  { volume true true with stq := { (volume true true).stq with cmds := [cmd0 f] } }

/-- A storage stream whose submission ring is ring 32 with one entry. -/
def aStream : Stream := { (default : Stream) with firm := true, sq := 0x10010020 }
def streaming : State := { ringCore with stq := { ringCore.stq with streams := [(0, aStream)] } }

theorem witness_StorageQueue_fetch :
    (State.reset.stqNext = none ∧ streaming.stqNext = some (0, aStream, 32, aRing) ∧ streaming.cmdsUsed < 1024
      ∧ streaming.locksUsed < 256)
    ∧ ((({ State.reset with stq := { State.reset.stq with cmds := List.replicate 256 { (default : StqCmd) with locked := true } } }
        : State).locksUsed) = 256)
    ∧ (match (streaming.modStq (fun q => { q with nextStream := 1 })).ringPop 32 aRing with
      | (t, .entry l) => (t.cmdStatus aStream { parseCmd 0 l with sqCons := 1 } l).isSome
      | _ => false) = true
    ∧ (match (streaming.modStq (fun q => { q with nextStream := 1 })).ringPop 32 aRing with
      | (t, .entry _) => (t.cmdStatus aStream { parseCmd 0 [4] with sqCons := 1 } [4]).isNone
      | _ => false) = true
    ∧ (let s := volume true true
      let c (n : Nat) : StqCmd := { (default : StqCmd) with opc := 1, nblk := n }
      s.cmdMalformed aStream (c 1) [0, 0x20] = true ∧ s.cmdMalformed aStream (c 33) [] = false ∧ s.volLoaded 0 = true
      ∧ (volume false true).volLoaded 0 = false ∧ s.volCap 0 < 0 + 33 ∧ 0 + 32 ≤ s.volCap 0 ∧ s.volInWindow 0 = true
      ∧ (volume true false).volInWindow 0 = false
      ∧ (s.clrFlag (F.DSK_STATUS_OFFLINE 0)).volRefuses 0 false = false
      ∧ (s.setFlag (F.DSK_STATUS_OFFLINE 0)).volRefuses 0 false = true) := by decide +kernel

theorem witness_StorageQueue_commands :
    (State.reset.stqCmd 0 = none ∧ (oneCmd id).stqCmd 0 = some (cmd0 id))
    ∧ (let c := cmd0 (fun k => { k with locked := true, opc := 1 })
      c.begun = false ∧ (oneCmd (fun k => { k with locked := true, opc := 1 })).rangeClear c = true)
    ∧ (let c := cmd0 (fun k => { k with locked := true, opc := 1, aseq := 1 })
      let b := cmd0 (fun k => { k with locked := true, opc := 1 })
      let s : State := { oneCmd id with stq := { (oneCmd id).stq with cmds := [b, c] } }
      s.stqCmd 1 = some c ∧ s.rangeClear c = false)
    ∧ (let c := cmd0 (fun k => { k with opc := 1, begun := true, offered := 1, done := 1 })
      c.local_ = false ∧ c.offered = c.nblk ∧ c.done = c.nblk ∧ (oneCmd id).isActive = false
      ∧ ({ c with done := 0 } : StqCmd).done ≠ c.nblk ∧ ({ c with local_ := true } : StqCmd).local_ = true)
    ∧ (let c := cmd0 (fun k => { k with opc := 2, begun := true, todo := [0], media := [0] })
      c.queued = false ∧ (oneCmd id).stq.staged = [] ∧ ({ c with queued := true } : StqCmd).todo ≠ []
      ∧ ({ c with todo := [], media := [] } : StqCmd).ecc = [] ∧ c.unwritten = [] ∧ c.media ≠ [])
    ∧ (let f := fun k : StqCmd => { k with opc := 3, begun := true }
      (oneCmd f).flushWaits (cmd0 f) = false ∧ (oneCmd f).flushLeft (cmd0 f) = [] ∧ (oneCmd f).stq.lostBlocks = []
      ∧ (let s : State := { oneCmd f with stq := { (oneCmd f).stq with staged := [{ (default : Staged) with aseq := 2 ^ 32 - 1 }] } }
        let t := s.setFld F.THM_HDA_WIN 0
        t.flushLeft (cmd0 f) ≠ [] ∧ (t.flushLeft (cmd0 f)).all (fun e => !t.inWindow (t.volMap e.vol e.vblk).1) = true
          ∧ t.flushWaits (cmd0 f) = false)
      ∧ (let g : StqCmd := cmd0 (fun k => { k with opc := 3, begun := true, aseq := 1 })
        let s : State := { oneCmd id with stq := { (oneCmd id).stq with cmds := [cmd0 (fun k => { k with opc := 1 }), g] } }
        s.flushWaits g = true))
    ∧ (let o : Offer := ⟨0, 4096, 4096, 0⟩
      let late : State := { oneCmd id with ptime := 100000000 }
      0 < o.missing ∧ o.tOffer + late.trTmo ≤ late.now ∧ (oneCmd id).now < o.tOffer + (oneCmd id).trTmo) := by decide +kernel

/-! ### Hypotheses of the statements about sectors, disk channels and servos -/

theorem witness_SectorsDecode : (List.replicate 4096 (0 : Byte)).length = 4096
    ∧ 65535 % 65535 = 0 % 65535 ∧ 65535 % 2 ^ 48 ≠ 0 % 2 ^ 48 := ⟨List.length_replicate, by decide⟩

/-- Channel 0 with ring 32 as its submission ring, READY as said. -/
def channel (ready : Bool) (f : DskSt → DskSt) : State :=
  let s := ((ringCore.setFlag (F.DSK_CTRL_EN 0)).setReg (R.DSK_SQ 0) 0x10010020).putFlag (F.DSK_STATUS_READY 0) ready
  { s with dsk := vmod s.dsk 0 f }

theorem witness_DisksAndServos_requests :
    ((channel true id).hasDch 0 = true ∧ (channel true id).hasHda 0 = true)
    ∧ (State.reset.flag (F.DSK_CTRL_EN 0) = false
      ∧ ((channel true id).setReg (R.DSK_SQ 0) 0).reg (R.DSK_SQ 0) = 0
      ∧ 1024 ≤ (channel true (fun c => { c with reqs := List.replicate 1024 default })).dskHeld 0)
    ∧ ((channel true id).flag (F.DSK_CTRL_EN 0) = true ∧ (channel true id).reg (R.DSK_SQ 0) ≠ 0
      ∧ (channel true id).dskHeld 0 < 1024 ∧ (channel true id).drying = false
      ∧ (channel true id).usableRing ((channel true id).reg (R.DSK_SQ 0)).toNat 2 = some (32, aRing) ∧ aRing.count ≠ 0
      ∧ ((channel true id).rdLe (aRing.entryAddr aRing.cons) 4 % 16 == 0) = true
      ∧ (match (channel true id).ringPop 32 aRing with
        | (t, .entry l) => t.reqStatus 0 (parseReq l) l == some 5
        | _ => false) = true)
    ∧ (let l : List Byte := [1, 0, 0, 0] ++ List.replicate 20 0 ++ [1, 0] ++ List.replicate 38 0
      let s := (channel true id).setReg (R.DSK_CAP_LO 0) 1
      s.reqMalformed (parseReq l) l = false ∧ s.chanOffline 0 = false ∧ (parseReq l).op ≠ 0 ∧ (parseReq l).rsv = false
      ∧ lget (parseReq l).blks 0 + (parseReq l).count ≤ s.chanCap 0
      ∧ (channel true id).chanCap 0 < lget (parseReq l).blks 0 + (parseReq l).count
      ∧ (s.setFlag (F.DSK_STATUS_OFFLINE 0)).chanOffline 0 = true ∧ (channel false id).flag (F.DSK_STATUS_READY 0) = false)
    ∧ (let s := ((((paged .queued).setFld F.MEM_CFG_SIZE 16).setFlag F.MEM_STATUS_INIT_DONE).setFlag (F.DSK_STATUS_READY 0)).setReg (R.DSK_CAP_LO 0) 1
      let q : DskReq := { (default : DskReq) with page := 0x2C010000, count := 1, blks := [0] }
      s.reqMalformed q [] = false ∧ s.chanOffline 0 = false ∧ q.op = 0 ∧ q.rsv = false ∧ lget q.blks 0 + q.count ≤ s.chanCap 0
      ∧ s.flag (F.DSK_STATUS_READY 0) = true ∧ s.slotStart 0 q.slot < 20000 ∧ s.rlock 0 = false
      ∧ (s.setFlag (F.SRV_SPSTAT_RLOCK 0)).rlock 0 = true ∧ 20000 ≤ (s.setFlag (F.SRV_SPSTAT_RLOCK 0)).slotStart 0 4)
    ∧ (let g : DskPass := { (default : DskPass) with stopAt := some 0 }
      let b : DskReq := { (default : DskReq) with slot := 7 }
      (vget (channel true id).dsk 0).pass = none ∧ (channel true id).nextBooking 0 1 = none
      ∧ (channel true (fun c => { c with reqs := [b] })).nextBooking 0 1 = some 0
      ∧ (vget (channel true (fun c => { c with pass := some g })).dsk 0).pass = some g ∧ (channel true id).passOver 0 g = true
      ∧ (channel true id).passOver 0 { g with stopAt := none } = false)
    ∧ ((vget (channel true id).dsk 0).reqs = [] ∧ (channel true id).stq.staged = []
      ∧ (channel true id).fld (F.DSK_LADDER_SKIP 0) = 0) := by decide +kernel

/-- A legal geometry: one zone of one sector a track from cylinder 16, one head, 18 cylinders. -/
def geometry : State :=
  let s := ((State.reset.setFld (F.DSK_GEOM_HEADS 0) 1).setFld (F.DSK_GEOM_ZONES 0) 1).setFld (F.DSK_CYLS_CYLS 0) 18
  let t := ((s.setFld (F.DSK_GEOM_SPARE_CYL 0) 1).setReg (R.DSK_ZONE 0 0) (16 + 2 ^ 20)).setReg (R.DSK_ZONE 0 1) 38128
  t.clrFlag (F.DSK_STATUS_READY 0)

/-- Actuator 0 as given, 1 ms after reset, parked or not. -/
def arm0 (parked : Bool) (f : ActSt → ActSt) : State :=
  let s := State.reset.putFlag (F.SRV_ASTAT_PARKED 0 0) parked
  { s.modAct 0 f with ptime := 1000000 }

/-- A dibit-coded field of R311: each bit of the Gray code of `v`, most significant first, as 10 or 01. -/
def dibitField (n v : Nat) : List Bool :=
  ((List.range n).map (fun i => bit (v ^^^ (v / 2)) (n - 1 - i))).flatMap (fun b => [b, !b])

/-- The 80 cells of a selvage frame with this SYNC, frame number and cylinder. -/
def selvage (sync frame cyl : Nat) : BitVec 80 :=
  let cells := (List.range 16).map (fun i => bit sync (15 - i)) ++ dibitField 12 frame ++ dibitField 20 cyl
  BitVec.ofNat 80 (cells.zipIdx.foldl (fun a e => a + b2n e.1 * 2 ^ e.2) 0)

theorem witness_DisksAndServos :
    (bits (2#32).toNat 1 1 = 1 ∧ bits (2#32).toNat 2 1 = 0 ∧ bits (4#32).toNat 1 1 = 0 ∧ bits (4#32).toNat 2 1 = 1)
    ∧ (geometry.flag (F.DSK_STATUS_READY 0) = false ∧ (vget geometry.dsk 0).sweeping = false ∧ geometry.geomOk 0 = true
      ∧ geometry.geomCap 0 = 1 ∧ (geometry.setFld (F.DSK_CYLS_CYLS 0) 17).geomOk 0 = false)
    ∧ (geometry.volOfChan 0 = none ∧ geometry.dskPending 0 = 0 ∧ ((volume true true).volOfChan 0).isSome = true)
    ∧ (let s := channel false (fun c => { c with sweeping := true })
      (vget s.dsk 0).sweeping = true ∧ (vget s.dsk 0).intents = [] ∧ s.sweepWaits 0 [] = false)
    ∧ (let fr : ServoFrame := ⟨selvage 0xE4D2 5 9, 1, 0⟩
      let bad : ServoFrame := ⟨selvage 0xE4D6 5 9, 1, 0⟩
      fr.decode = some (5, 9) ∧ fr.a.toNat + fr.b.toNat ≠ 0 ∧ bad.decode = none ∧ (⟨selvage 0xE4D1 5 9 + 2 ^ 16, 1, 0⟩ : ServoFrame).decode = none
      ∧ ((arm0 false (fun a => { a with badRun := 6 })).act 0).badRun < 7
      ∧ ((arm0 false id).setFlag (F.SRV_ASTAT_SETTLED 0 0)).settled 0 = true ∧ 9 ≠ ((arm0 false id).tgtOf 0).1)
    ∧ ((arm0 true id).flag (F.SRV_ASTAT_PARKED 0 0) = true ∧ (arm0 false id).flag (F.SRV_ASTAT_PARKED 0 0) = false
      ∧ (arm0 false id).reg (R.SRV_EVG 0 0) = 0
      ∧ (let s := (arm0 false (fun a => { a with sinceVcm := 1 })).setFld (F.SRV_ACFG_VCM_WD 0 0) 0
        max 1 (s.fld (F.SRV_ACFG_VCM_WD 0 0)) ≤ (s.act 0).sinceVcm ∧ ((arm0 false id).act 0).sinceVcm < 1))
    ∧ (0 = (arm0 false id).reg (R.SRV_TGT 0 0) ∧ 1 ≠ (arm0 false id).reg (R.SRV_TGT 0 0))
    ∧ ((arm0 false id).now % 5000 = 0 ∧ ((arm0 false id).act 0).sampleAt ≠ some (arm0 false id).now
      ∧ ({ arm0 false id with ptime := 1001000 } : State).now % 5000 ≠ 0)
    ∧ (let s := (((arm0 false id).setFlag (F.SRV_ASTAT_SETTLED 0 0)).setFlag (F.CLK_STATUS_LOCK 7)).setFld (F.SRV_ACFG_WLIM 0 0) 1;
      let t := s.putFlag (F.SRV_ASTAT_SEL_LOST 0 0) false
      t.guardCond 0 = false)
    ∧ ((arm0 false id).settled 0 = false ∧ (arm0 false id).fld (F.SRV_SHK_SHK_THR 0)
        < ((arm0 false (fun a => { a with shkA := -32768 })).act 0).shkA.natAbs)
    ∧ (bits (1#32).toNat 0 2 = 2 ^ 0 ∧ bits (1#32).toNat 2 2 = 0 ∧ bits (8#32).toNat 0 2 = 0 ∧ bits (8#32).toNat 2 2 = 2 ^ 1)
    ∧ (((arm0 false (fun a => { a with parkAt := some 0 })).act 0).parkAt = some 0 ∧ ((arm0 false id).act 0).parkAt = none
      ∧ (let s : State := { arm0 false (fun a => { a with parkAt := some 0 }) with ptime := 60000000000 }
        0 + 1000000 * s.fld (F.SRV_PARKCFG_PARK_MS 0) ≤ s.now ∧ (arm0 false id).now < 1000000 * (s.fld (F.SRV_PARKCFG_PARK_MS 0)) + 1))
    ∧ ((vget ({ State.reset with mots := vmod State.reset.mots 4 (fun m => { m with state := .run }) } : State).mots (4 + 0)).state
        = .run ∧ (vget State.reset.mots (4 + 0)).state ≠ .run)
    ∧ (let s := arm0 false (fun a => { a with selLostAt := some 0 })
      (s.act 0).selLostAt = some 0 ∧ 0 + 1000000 ≤ s.now ∧ ((arm0 false id).act 0).selLostAt = none)
    ∧ (State.reset.flag (F.SRV_SPSTAT_PRES 0) = false
      ∧ (State.reset.setFlag (F.SRV_SPSTAT_PRES 0)).flag (F.SRV_SPSTAT_PRES 0) = true
      ∧ 500000000 ≤ (500000000#40).toNat ∧ (499999999#40).toNat < 500000000
      ∧ State.reset.hasDch 0 = true ∧ State.reset.hasHda 0 = true) := by decide +kernel

theorem witness_DisksAndServos_memory : (arm0 false id).Clean := clean_of _ (by decide +kernel)

/-! ### Hypotheses of the statements about motors, half-bridges, the inverter and the axes -/

/-- Motor `n` as given, 100 ms after reset, its configuration open. -/
def motor (n : Nat) (f : MotSt → MotSt) : State :=
  { State.reset with
    mots := vmod State.reset.mots n f, ptime := 100000000, objs := [(0x08 * 65536 + n, ⟨1, 0, 0, 0⟩)] }

theorem witness_Drives_motors :
    ((motor 8 id).hasMot 8 = true ∧ (motor 8 id).windowPresent (0x50 + 8) = true ∧ (motor 8 id).motOpen 8 = true
      ∧ State.reset.motOpen 8 = false)
    ∧ ((vget (motor 8 (fun m => { m with state := .run, hallSense := false })).mots 8).state = .run
      ∧ (vget (motor 8 (fun m => { m with state := .run, hallSense := false })).mots 8).hallSense = false)
    ∧ (let s := ((motor 8 (fun m => { m with state := .ramp, hallSense := false })).setFld (F.MOT_RAMP_HAND_RPM 8) 0).setFld
        (F.MOT_RAMPT_HANDN 8) 1
      (vget s.mots 8).state = .ramp ∧ s.fld (F.MOT_RAMP_HAND_RPM 8) * 16 ≤ ((vget s.mots 8).event s.now).speed
      ∧ s.fld (F.MOT_RAMPT_HANDN 8) ≤ (vget s.mots 8).hand + 1
      ∧ ((vget s.mots 8).event s.now).speed < (s.setFld (F.MOT_RAMP_HAND_RPM 8) 1).fld (F.MOT_RAMP_HAND_RPM 8) * 16)
    ∧ ((motor 8 id).zcQualified 8 7 = true ∧ (motor 8 id).zcQualified 8 8 = false
      ∧ (motor 8 (fun m => { m with dir := true })).zcQualified 8 8 = true)
    ∧ (let s := motor 8 (fun m => { m with state := .run, zcAt := some 100000000 })
      (vget s.mots 8).zcAt = some 100000000 ∧ 100000000 ≤ s.now ∧ s.now < 100000001)
    ∧ (let s := (motor 8 (fun m => { m with state := .run, hallSense := true })).setFld (F.MOT_HALLMAP_MAP 8) 8
      (vget s.mots 8).hallSense = true ∧ s.hallStep 8 (0#3).toNat = 0 ∧ s.hallStep 8 (1#3).toNat = 1
      ∧ (1#3).toNat ≠ (vget s.mots 8).hall ∧ (0#3).toNat = (vget s.mots 8).hall)
    ∧ (let s := (motor 8 (fun m => { m with state := .align })).setFld (F.MOT_ALIGN_ALIGN_MS 8) 100
      (vget s.mots 8).state = .align ∧ (vget s.mots 8).startAt + 1000000 * s.fld (F.MOT_ALIGN_ALIGN_MS 8) ≤ s.now)
    ∧ (let s := (motor 8 (fun m => { m with state := .ramp, poles := 4 })).setFld (F.MOT_RAMPT_RAMP_MS 8) 100
      (vget s.mots 8).startAt + 1000000 * s.fld (F.MOT_RAMPT_RAMP_MS 8) ≤ s.now
      ∧ (s.setFld (F.MOT_RAMP_HAND_RPM 8) 1000).forcedDue 8 = true
      ∧ (s.modMot 8 (fun m => { m with stepAt := 100000000 })).forcedDue 8 = false)
    ∧ (let s := (motor 8 (fun m => { m with state := .run, poles := 4, rpmMax := 60000, cmdSince := some 0 })).setFld (F.MOT_TGT_TGT 8) 960000
      s.lockedDue 8 = true ∧ (s.modMot 8 (fun m => { m with cmdSince := some 1 })).lockedDue 8 = false
      ∧ (vget s.mots 8).lastComm + 100000000 ≤ s.now ∧ State.reset.now < (vget s.mots 8).lastComm + 100000000
      ∧ (vget s.mots 8).lockedAt ≠ some s.now ∧ (vget (s.modMot 8 (fun m => { m with lockedAt := some 100000000 })).mots 8).lockedAt = some s.now)
    ∧ ((motor 8 id).rateLocked 8 = false ∧ (vget (motor 8 id).mots 8).state = .off ∧ (vget (motor 8 id).mots 8).state ≠ .run)
    ∧ ((4#32).toNat % 16 = 4 ∧ 1 < popc 4 3 ∧ (0#32).toNat % 16 = 0
      ∧ (vget (motor 8 (fun m => { m with state := .fault })).mots 8).state = .fault)
    ∧ ((motHbs 8).any (motor 8 id).hbFault = false ∧ (motHbs 8).any ((motor 8 id).setFlag (F.GDR_HB_STATUS_FAULT 2)).hbFault = true
      ∧ (let s := (motor 8 (fun m => { m with hallSense := true, hall := 1 })).setFld (F.MOT_HALLMAP_MAP 8) 8
        (vget s.mots 8).state = .off ∧ s.hallStep 8 (vget s.mots 8).hall ≠ 0)) := by decide +kernel

/-- HDA port 0 rate-locked to station 0 with its motor running, or not. -/
def spindle (lock : Bool) (f : PortSt → PortSt) : State :=
  let s := motor 4 (fun m => { m with state := .run, mode := 2 })
  { s.putFlag (F.SRV_SPIN_RLOCK_EN 0) lock with ports := vmod s.ports 0 f }

theorem witness_Drives_spindles : (small.hasHda 0 = false ∧ State.reset.hasHda 0 = true)
    ∧ (((spindle false id).rangeRefresh 0).rateLocked 4 = false)
    ∧ (((spindle true id).rangeRefresh 0).rateLocked 4 = true
      ∧ (vget ((spindle true id).rangeRefresh 0).mots 4).state = .run) := by decide +kernel

/-- The spindle lock at an index, judged good or bad as R332 says. -/
def indexJudged (f : PortSt → PortSt) : State :=
  let u := (spindle true f).rangeRefresh 0
  let lpr := u.fld (F.SRV_SPIN_LPR 0)
  let d := (u.lambda16 (u.lstn 0) u.now + 2 ^ 44 - 16 * u.anchor 0 % 2 ^ 44) % 2 ^ 44
  let slot := if 2 ^ 44 - 8 * lpr ≤ d then 0 else (d + 8 * lpr) / max 1 (16 * lpr)
  let err := -(u.slotStart 0 (slot % 2 ^ 32))
  let ok := decide (err.natAbs ≤ 1000 * max 1 (u.fld (F.SRV_SPIN_PH_TOL 0)))
  (((u.modPort 0 (fun p => { p with lastIndex := u.now })).setFld (F.SRV_PHERR_PHERR 0)
    (ux 16 (clampInt (-32768) 32767 (err / 100)))).setFld (F.SRV_SLOT_SLOT 0) slot).modPort 0 (fun p => { p with
      inTol := if ok then p.inTol + 1 else 0, outTol := if ok then 0 else p.outTol + 1, slotOn := true })

theorem witness_Drives_spindleLock :
    (let t := indexJudged (fun p => { p with inTol := 15 });
      t.rlock 0 = false ∧ 16 ≤ (vget t.ports 0).inTol ∧ (vget (indexJudged id).ports 0).inTol < 16)
    ∧ (let t := (indexJudged id).setFlag (F.SRV_SPSTAT_RLOCK 0);
      t.rlock 0 = true ∧ (vget t.ports 0).outTol < 4 ∧ 4 ≤ (vget (t.modPort 0 (fun p => { p with outTol := 4 })).ports 0).outTol)
    ∧ (let g : DskPass := { (default : DskPass) with startAt := some 0 };
      (vget (channel true (fun c => { c with pass := some g })).dsk 0).pass = some g ∧ g.startAt.isSome = true)
    ∧ ((vget (spindle true id).mots 4).state = .run ∧ MotState.fault ≠ .run) := by decide +kernel

/-- Half-bridge 0 enabled with its token held; the state of its timing. -/
def bridge (src : Nat) (f : HbSt → HbSt) : State :=
  let s := ((State.reset.setFlag (F.GDR_HB_CFG_EN 0)).setFld (F.GDR_HB_CFG_SRC 0) src).setFlag F.ACD_STATUS_TOKEN
  { s with hbs := vmod s.hbs 0 f, ptime := 1000000 }

/-- Inputs of a half-bridge with nothing wrong. -/
def goodPins : HbPins := ⟨3, 3, true, false, false, 0⟩

theorem witness_Drives_halfBridges :
    (let s := bridge 3 (fun b => { b with cmdHi := true })
     ((vget s.hbs 0).cmdHi && !(vget s.hbs 0).cmdLo) = true ∧ s.hbEn 0 = true ∧ s.hbFault 0 = false ∧ s.holdsToken = true
      ∧ goodPins.goffL = 3#2 ∧ (vget s.hbs 0).offLo + 10 * max 2 (s.fld (F.GDR_HB_CFG_DT 0)) ≤ s.now ∧ goodPins.hsg = true)
    ∧ ((bridge 3 id).holdsToken = true ∧ State.reset.hbEn 0 = false
      ∧ ((bridge 3 id).setFlag (F.GDR_HB_STATUS_FAULT 0)).hbFault 0 = true)
    ∧ ((bridge 3 id).hbSrc 0 = 3 ∧ (bridge 1 id).hbSrc 0 ≠ 3)
    ∧ (let s := ((bridge 3 id).setFld (F.GDR_HB_MAN_HI 0) 1).setFld (F.GDR_HB_MAN_LO 0) 1
      s.fld (F.GDR_HB_MAN_HI 0) = 1 ∧ s.fld (F.GDR_HB_MAN_LO 0) = 1 ∧ s.hbEn 0 = true ∧ s.holdsToken = true)
    ∧ (let s := ((bridge 3 id).clrFlag (F.GDR_HB_STATUS_GOFFH 0)).clrFlag (F.GDR_HB_STATUS_HION 0)
      s.flag (F.GDR_HB_STATUS_HION 0) = false ∧ s.flag (F.GDR_HB_STATUS_GOFFH 0) = false
      ∧ (vget s.hbs 0).offHi + 100 * max 1 (s.fld (F.GDR_HB_CFG_GOFF_TMO 0)) ≤ s.now)
    ∧ (let s := (bridge 3 (fun b => { b with watchHi := true })).setFlag (F.GDR_HB_STATUS_HION 0)
      s.flag (F.GDR_HB_STATUS_HION 0) = true ∧ (vget s.hbs 0).onHi + 100 * s.fld (F.GDR_HB_CFG_BLANK 0) ≤ s.now
      ∧ (vget s.hbs 0).watchHi = true ∧ (vget (bridge 3 id).hbs 0).watchHi = false)
    ∧ (let s := (bridge 3 id).hbSample 0 goodPins
      s.clrRefused 0 = false ∧ (bridge 3 (fun b => { b with dsatH := true })).clrRefused 0 = true
      ∧ ((vget (bridge 3 (fun b => { b with dsatH := true })).hbs 0).dsatH || false) = true
      ∧ (1#32).getLsbD 0 = true ∧ (0#32).getLsbD 0 = false) := by decide +kernel

theorem witness_Drives_shorts :
    (let s := (bridge 3 (fun b => { b with watchHi := true })).setFlag (F.GDR_HB_STATUS_HION 0);
      (vget s.hbs 0).watchHi = true ∧ (vget s.hbs 0).onHi + 100 * s.fld (F.GDR_HB_CFG_BLANK 0) + 100 ≤ s.now
      ∧ (vget (bridge 3 id).hbs 0).watchLo = false)
    ∧ (let hs : List (BitVec 10) := List.replicate 5 1023;
      5 ≤ hs.length ∧ hs.all (fun y => decide (State.reset.fld F.GDR_HS_HS_THR < y.toNat)) = true
      ∧ ([1023, 1023] : List (BitVec 10)).length < 5)
    ∧ (let s := (((bridge 3 id).setFlag (F.GDR_HB_CFG_EN 1)).setFlag (F.GDR_HB_STATUS_FAULT 1)).modHb 1
          (fun b => { b with shortAt := some 999900 });
      s.hbEn 0 = true ∧ s.holdsToken = true ∧ s.hbFault 0 = false ∧ s.hbEn 1 = true ∧ s.hbFault 1 = true
        ∧ s.fld (F.GDR_HB_CFG_BUS 1) = s.fld (F.GDR_HB_CFG_BUS 0) ∧ s.now ≤ 999900 + s.coinc
        ∧ bit (s.fld F.GDR_STATUS_BUSF) (s.fld (F.GDR_HB_CFG_BUS 0)) = false)
    ∧ ((bridge 3 (fun b => { b with latchAt := some 1000000 })).clrRefused 0 = true
      ∧ ((bridge 3 id).setFld (F.GDR_HB_MAN_HI 0) 1).hbSourceActive 0 = true) := by decide +kernel

theorem witness_Drives_inverter :
    (bits (0x1301#32).toNat 8 7 = 19 ∧ 19 < 20 ∧ bits (0x6501#32).toNat 8 7 = 101 ∧ 100 < 101
      ∧ bits (0x1011401#32).toNat 16 9 = 257 ∧ 256 < 257)
    ∧ (bits (0x1001401#32).toNat 8 7 = 20 ∧ bits (0x1001401#32).toNat 16 9 = 256 ∧ (0x1001401#32).getLsbD 0 = true
      ∧ bits (0x6400#32).toNat 8 7 = 100 ∧ (0x6400#32).getLsbD 0 = false)
    ∧ (State.reset.flag (F.GDR_INV_CTRL_RUN 0) = false
      ∧ (State.reset.setFlag (F.GDR_INV_CTRL_RUN 0)).flag (F.GDR_INV_CTRL_RUN 0) = true
      ∧ State.reset.flag F.THM_TSD_TSD_LOCK = false ∧ (State.reset.setFlag F.THM_TSD_TSD_LOCK).flag F.THM_TSD_TSD_LOCK = true
      ∧ (vget State.reset.invs 0).running = false) := by decide +kernel

/-- Axis 0 open, its state as given. -/
def axis0 (f : Axis → Axis) : State :=
  { State.reset with axes := vmod State.reset.axes 0 f, objs := [(0x07 * 65536, ⟨1, 0, 0, 0⟩)] }

theorem witness_Drives_axes :
    (let s := (axis0 (fun x => { x with state := .moving, halt := true })).setFld (F.STP_HBACK_STALL_FILT 0) 1
     max 1 (s.fld (F.STP_HBACK_STALL_FILT 0)) ≤ (s.axis 0).stallRun + 1 ∧ (s.axis 0).state = .moving ∧ (s.axis 0).halt = true
      ∧ (s.axis 0).drydown = false)
    ∧ ((axis0 id).axis 0).state = .off
    ∧ (1 < popc 8 (3#32).toNat ∧ (0#32).toNat % 256 = 0 ∧ State.reset.isOpen 0x07 0 = false
      ∧ (axis0 id).isOpen 0x07 0 = true ∧ ((axis0 id).axis 0).blocked = false
      ∧ ((axis0 (fun x => { x with blocked := true })).axis 0).blocked = true ∧ popc 8 (128#32).toNat = 1)
    ∧ (let s := axis0 (fun x => { x with state := .hold, table := some [], rem := 1 })
      (s.axis 0).state = .hold ∧ (s.axis 0).table.isSome = true ∧ (s.axis 0).rem ≠ 0 ∧ ((axis0 id).axis 0).table = none
      ∧ ((axis0 id).axis 0).rem = 0)
    ∧ (let s := axis0 (fun x => { x with state := .moving })
      (s.setFlag (F.STP_CFG_STOPMODE 0)).flag (F.STP_CFG_STOPMODE 0) = true
      ∧ (s.clrFlag (F.STP_CFG_STOPMODE 0)).flag (F.STP_CFG_STOPMODE 0) = false ∧ (s.axis 0).state.busy = true)
    ∧ (((axis0 (fun x => { x with state := .fault })).axis 0).state = .fault
      ∧ ((axis0 (fun x => { x with state := .homing })).axis 0).state = .homing)
    ∧ (((axis0 id).axis 0).state.busy = false ∧ ((axis0 id).setFld (F.STP_TBLN_TBLN 0) 0).fld (F.STP_TBLN_TBLN 0) = 0
      ∧ 256 < ((axis0 id).setFld (F.STP_TBLN_TBLN 0) 257).fld (F.STP_TBLN_TBLN 0)) := by decide +kernel

/-! ### Hypotheses of the statements about loops, the web and cameras -/

/-- Loop slot 0 as given. -/
def slot0 (f : Loop → Loop) : State :=
  { State.reset with loops := [(0, f default)], objs := [(0x06 * 65536, ⟨1, 0, 0, 0⟩)] }

theorem witness_LoopsAndCameras_loops :
    (({ State.reset with ptime := 20001 } : State).now % 20000 ≠ 0 ∧ ({ State.reset with ptime := 20000 } : State).now % 20000 = 0)
    ∧ (let l : Loop := { (default : Loop) with omin := -32768, omax := 32767, uPrev := 32767, first := false, oslew := 0 }
      l.omin ≤ l.omax ∧ l.oslew = 0 ∧ l.first = false ∧ l.uPrev = l.omax ∧ l.slew = 0 ∧ l.restart = false
      ∧ ({ l with oslew := 1, slew := 1, restart := true } : Loop).oslew ≠ 0 ∧ l.state ≠ .running)
    ∧ (let l : Loop := { (default : Loop) with oscWin := 10, oscN := 1, sign := some true, evals := 5 }
      l.oscWin ≠ 0 ∧ l.sign = some true ∧ (-1 : Int) < -(l.oscAmp : Int) ∧ (0 : Int).natAbs ≤ l.oscAmp
      ∧ ((l.evals :: l.crossings).take 15)[l.oscN - 1]? = some 5 ∧ 5 ≤ l.evals ∧ l.evals < 2 ^ 32
      ∧ ({ l with oscWin := 0 } : Loop).oscWin = 0)
    ∧ (Tab.get State.reset.loops 0 = none ∧ 1 < popc 3 (bits (0x300#32).toNat 8 3) ∧ bits (0x100#32).toNat 8 3 = 1
      ∧ bits (0x200#32).toNat 8 3 = 2 ∧ bits (0x400#32).toNat 8 3 = 4 ∧ (0x100#32).toNat % 64 = 0)
    ∧ (let s := slot0 (fun l => { l with state := .stopped, taddr := 1 })
      Tab.get s.loops 0 = some { (default : Loop) with state := .stopped, taddr := 1 }
      ∧ ({ (default : Loop) with state := .running } : Loop).state = .running ∧ (default : Loop).taddr = 0)
    ∧ (let s := slot0 (fun l => { l with loading := some none })
      Tab.get s.loops 0 = some { (default : Loop) with loading := some none } ∧ (default : Loop).startAfter = false
      ∧ (default : Loop).loading = none)
    ∧ (State.reset.isOpen 0x06 0 = false ∧ (slot0 id).isOpen 0x06 0 = true) := by decide +kernel

/-- The web encoder as given. -/
def webAt (f : WebSt → WebSt) : State := State.reset.modWeb f

theorem witness_LoopsAndCameras_web :
    ((quadPos false false + 4 - quadPos false false) % 4 = 0 ∧ (quadPos true true + 4 - quadPos false false) % 4 = 2
      ∧ (quadPos true false + 4 - quadPos false false) % 4 = 1 ∧ (quadPos false true + 4 - quadPos false false) % 4 = 3)
    ∧ ((webAt id).web.raw.natAbs < 2 ^ 46 ∧ (webAt id).web.raw = (webAt id).web.hw)
    ∧ (let s := (webAt (fun w => { w with raw := -1, hw := 0 })).setFld F.WEB_CFG_J 2
      s.web.raw ≤ s.web.hw ∧ s.web.hw - s.web.raw < s.webJ)
    ∧ (let s := (webAt (fun w => { w with raw := -2, hw := 0 })).setFld F.WEB_CFG_J 2
      s.web.raw ≤ s.web.hw ∧ s.web.hw - s.web.raw = s.webJ ∧ s.web.rev = false ∧ s.pagesIn .printing = []
      ∧ ({ s with pages := (paged .printing).pages } : State).pagesIn .printing = [0])
    ∧ ((1#32).getLsbD 0 = true ∧ (0#32).getLsbD 0 = false ∧ (paged .printing).pagesIn .printing ≠ []) := by decide +kernel

/-- Camera port 0 enabled, its state as given. -/
def camera (f : CamSt → CamSt) : State :=
  { State.reset.setFlag (F.CAM_CTRL_EN 0) with cams := vmod State.reset.cams 0 f, ptime := 65536000000 }

theorem witness_LoopsAndCameras :
    (State.reset.hasCam 0 = true ∧ State.reset.flag (F.CAM_CTRL_EN 0) = false ∧ (camera id).flag (F.CAM_CTRL_EN 0) = true
      ∧ (camera id).flag (F.CAM_CTRL_BYPASS 0) = false
      ∧ ((camera id).setFlag (F.CAM_CTRL_BYPASS 0)).flag (F.CAM_CTRL_BYPASS 0) = true
      ∧ (vget (camera id).cams 0).frame = none ∧ (camera id).flag (F.CAM_STATUS_LOAD_PEND 0) = false
      ∧ (vget (camera id).cams 0).cfg = none)
    ∧ ((vget (camera (fun c => { c with cfg := some default })).cams 0).cfg.isSome = true)
    ∧ (let f : CamFrame := { (default : CamFrame) with counts := [4096, 4095, 0] }
      let g : CamCfg := { (default : CamCfg) with nexp := 2 }
      let s := camera (fun c => { c with cfg := some g, frame := some f })
      (vget s.cams 0).frame = some f ∧ (vget s.cams 0).cfg = some g ∧ f.dropped = false
      ∧ (0x2A#6).toNat < 0x2B ∧ 0x2D < (0x2E#6).toNat ∧ (0x2B ≤ (0x2B#6).toNat ∧ (0x2D#6).toNat ≤ 0x2D) ∧ 1 < g.nexp
      ∧ 4096 ≤ lget f.counts 0 ∧ lget f.counts 1 < 4096 ∧ f.waiting = [] ∧ f.lines.length ≠ f.counts.foldl max 0
      ∧ (default : CamFrame).lines.length = (default : CamFrame).counts.foldl max 0
      ∧ f.tFs + max 1 (s.fld (F.CAM_FTMO_FTMO 0)) * 1000000 ≤ s.now
      ∧ State.reset.now < f.tFs + max 1 (State.reset.fld (F.CAM_FTMO_FTMO 0)) * 1000000)
    ∧ ((4#32).getLsbD 1 = false ∧ (4#32).getLsbD 2 = true ∧ (2#32).getLsbD 1 = true ∧ State.reset.loops = []) := by
  decide +kernel

/-- A header of virtual channel `vc`, data type `dt` and word count `wc` with its right ECC (R384). -/
def csiHdr (vc dt wc : Nat) : BitVec 32 :=
  let d := dt + 64 * vc + 256 * wc
  BitVec.ofNat 32 (d + csiEcc d * 2 ^ 24)

theorem witness_LoopsAndCameras_packets :
    (csiHeader (csiHdr 0 0 7) = some (0, 0, 7) ∧ csiHeader (csiHdr 3 0x2B 65535) = some (3, 0x2B, 65535)
      ∧ csiHeader (csiHdr 1 0x2D 5 ^^^ 8) = some (1, 0x2D, 5) ∧ csiHeader (csiHdr 1 0x2D 5 ^^^ 3) = none)
    ∧ (let s (g : Bool) : State := { camera id with plls := vmod State.reset.plls 15 (fun p => { p with gated := g }) };
      (s false).camOn 0 = true ∧ (s true).camOn 0 = false)
    ∧ (let f : CamFrame := { (default : CamFrame) with counts := [0, 0, 0] }
      let s := camera (fun c => { c with cfg := some { (default : CamCfg) with nexp := 1 }, frame := some f });
      (vget s.cams 0).frame = some f ∧ f.dropped = false ∧ lget f.counts 0 < 4096 ∧ (f.exposures 0).length < 1)
    ∧ ((3#32).toNat % 8 = 3 ∧ bits (0x18#32).toNat 3 2 = 3 ∧ bits (0x10#32).toNat 3 2 ≠ 3) := by decide +kernel

theorem witness_LoopsAndCameras_times :
    (let s : State := { State.reset with ptime := 1000000 };
      s.now % 5000 = 0 ∧ s.adcAt ≠ some s.now ∧ ({ s with adcAt := some 1000000 } : State).adcAt = some s.now
      ∧ s.now % 20000 = 0 ∧ s.tickAt ≠ some s.now ∧ ({ s with tickAt := some 1000000 } : State).tickAt = some s.now)
    ∧ (let s : State := { State.reset with ptime := 1000000000 };
      1000000 ≤ (s.now - lget s.lpwmAt 0) * s.lpwmKhz ∧ (State.reset.now - lget State.reset.lpwmAt 0) * State.reset.lpwmKhz < 1000000)
    ∧ (let l : Loop := { (default : Loop) with state := .openloop, per := 1 };
      l.event = false ∧ 1000000 / 20000 % max 1 l.per = 0 ∧ ({ l with event := true } : Loop).fresh = false)
    ∧ ((0 : Int) < 1 ∧ (webAt id).web.hw < (webAt id).web.raw + 1 ∧ (webAt id).web.raw + -1 ≤ (webAt id).web.hw) := by
  decide +kernel

/-! ### Hypotheses of the statements about power, temperature and clocks -/

/-- The power unit in a phase, a quarter of a second after its start. -/
def powered (p : PwrPhase) (f : PwrSt → PwrSt) : State :=
  { State.reset with pwr := f { State.reset.pwr with phase := p, since := 0 }, ptime := 250000000 }

/-- A sequence of one rail of 1,000 mV, 5 and 10 per cent, and one of a delay. -/
def aRail : RailLim := { (default : RailLim) with use := true, nom := 1000, wlo := 50, whi := 50, flo := 100, fhi := 100 }
def aTable (op : SeqOp) : SeqTable := { (default : SeqTable) with rails := List.replicate 16 aRail, steps := [⟨0, op, 0, 0⟩] }

theorem witness_PowerAndClocks_sequence :
    ((powered .running id).pwr.phase ≠ .off ∧ (powered .off id).pwr.waitPress = false
      ∧ (powered .off (fun p => { p with waitPress := true })).pwr.waitPress = true)
    ∧ ((powered (.seq 0) (fun p => { p with table := aTable .on })).pwr.phase = .seq 0
      ∧ (aTable .on).steps[0]? = some ⟨0, .on, 0, 0⟩ ∧ (aTable .delay).steps[0]? = some ⟨0, .delay, 0, 0⟩)
    ∧ (((aTable .on).rail 0).within ((aTable .on).rail 0).flo ((aTable .on).rail 0).fhi (1000#16).toNat = true
      ∧ ((aTable .on).rail 0).within ((aTable .on).rail 0).flo ((aTable .on).rail 0).fhi (0#16).toNat = false)
    ∧ ((powered (.seq 0) (fun p => { p with bounces := 2 })).pwr.bounces < 3
      ∧ 3 ≤ (powered (.seq 0) (fun p => { p with bounces := 3 })).pwr.bounces)
    ∧ (PwrPhase.drydown.dryRuns = true ∧ PwrPhase.holdoff.dryRuns = false) := by decide +kernel

/-- Rail 0 judged: outside its limits for good, 250 ms in. -/
def judged (j : Judge) : State :=
  powered .running (fun p => { p with table := aTable .on, judges := [(0, j)], vinJudge := j })

theorem witness_PowerAndClocks_judgement :
    (let s := judged default
     let l := s.pwr.table.rail 0
     let k (mv : Nat) (good : Bool) := (Tab.getD s.pwr.judges 0 default).next (!l.within l.wlo l.whi mv) (!l.within l.flo l.fhi mv)
        (!good) l.wfilt l.ffilt s.now
     s.pwr.phase.judged = true ∧ l.use = true ∧ (Tab.getD s.pwr.judges 0 default : Judge).warned = false
      ∧ (k 1000 true).warned = false ∧ (k 1000 true).faulted = false ∧ (k 940 true).warned = true ∧ (k 940 true).faulted = false
      ∧ (k 1000 false).warned = false ∧ (k 1000 false).faulted = true)
    ∧ ((powered .off id).pwr.phase.judged = false ∧ (default : RailLim).use = false)
    ∧ (let t : SeqTable := { aTable .on with vinWarn := 100, vinFault := 200 }
      let k (mv : Nat) := (default : Judge).next (decide (mv < t.vinWarn)) (decide (mv < t.vinFault)) false 0 0 0
      (k 200).warned = false ∧ (k 200).faulted = false ∧ (k 100).warned = false ∧ (k 100).faulted = true) := by decide +kernel

/-- The first 256 bytes of an image with a good header and no section. -/
def goodHdr : List Byte :=
  let h := leBytes 4 0x4D535850 ++ [1] ++ List.replicate 247 0
  h ++ leBytes 4 (crc32c h)

theorem witness_PowerAndClocks_boot :
    (hdrOk goodHdr = true ∧ hdrOk [] = false ∧ State.reset.memCfgOk goodHdr = true
      ∧ ((State.reset.setFlag F.MEM_LOCK_LOCK).setReg R.MEM_CFG 1).memCfgOk goodHdr = false)
    ∧ ((powered .training id).flag F.MEM_LOCK_LOCK = false ∧ (powered .training id).pwr.phase = .training
      ∧ (powered .booting id).pwr.phase = .booting ∧ (powered .booting (fun p => { p with slotB := true })).pwr.slotB = true
      ∧ (powered .booting id).pwr.slotB = false)
    ∧ State.reset.secsOk [] none = false
    ∧ ((1#32).getLsbD 0 = true ∧ (powered .bootfail id).pwr.phase = .bootfail
      ∧ ((powered .bootfail id).setFlag F.MEM_STATUS_INIT_DONE).flag F.MEM_STATUS_INIT_DONE = true
      ∧ (match (withDram (powered .bootfail id)).memRead reqTalosh 0 256 with
        | (_, .data l) => l.length == 256
        | _ => false) = true) := by decide +kernel

theorem witness_PowerAndClocks_drydown :
    (bits (0x5A01#32).toNat 8 8 = 0x5A ∧ (0x5A01#32).getLsbD 0 = true ∧ bits (0x5B01#32).toNat 8 8 ≠ 0x5A)
    ∧ (let s : State := { powered .drydown id with ptime := 65535000000 }
      s.pwr.phase = .drydown ∧ s.pwr.since + s.parkMs * 1000000 ≤ s.now)
    ∧ ((powered (.withdraw 1) id).pwr.phase = .withdraw (0 + 1) ∧ (powered (.withdraw 0) id).pwr.phase = .withdraw 0)
    ∧ (let s := powered .holdoff id
      s.pwr.phase = .holdoff ∧ s.pwr.since + 250000000 ≤ s.now ∧ s.pwr.pressKept = false ∧ s.staysOff = false
      ∧ ({ s.pwr with pressKept := true } : PwrSt).pressKept = true
      ∧ ({ s with pwr := { s.pwr with stayOff := true } } : State).staysOff = true
      ∧ ({ s.pwr.table with vinOn := 0 } : SeqTable).vinOn ≤ s.pwr.vin
      ∧ s.pwr.vin < ({ s.pwr.table with vinOn := 65535 } : SeqTable).vinOn)
    ∧ ((0 : Int) ≠ 0x7FFF) := by decide +kernel

/-- A running job whose line rate is above 120,012 lines/s. -/
def fastJob (acc : Nat) : State :=
  let s := (paged .printing).setFld F.THM_PEAKCFG_PEAK_MAX 10
  { s with jobs := [(0, { aJob with pixclk := [200000, 0, 0, 0] })], thm := { s.thm with acc := acc } }

theorem witness_PowerAndClocks_thermal :
    (bits (0xA50000#32).toNat 16 8 = 0xA5 ∧ bits (0xA50000#32).toNat 0 16 = State.reset.fld F.THM_TSD_SEQ
      ∧ (State.reset.setFlag F.THM_TSD_TSD_LOCK).flag F.THM_TSD_TSD_LOCK = true ∧ State.reset.flag F.THM_TSD_TSD_LOCK = false)
    ∧ ((fastJob 0).peakJob = true ∧ (fastJob 0).thm.acc + 1 < (fastJob 0).fld F.THM_PEAKCFG_PEAK_MAX
      ∧ (fastJob 9).thm.acc + 1 = (fastJob 9).fld F.THM_PEAKCFG_PEAK_MAX ∧ (fastJob 9).flag F.THM_PEAK_OVER = false) := by
  decide +kernel

/-- Synthesizer 3 enabled, its state as given. -/
def synth (lock : Bool) (f : PllSt → PllSt) : State :=
  let s := (State.reset.setFlag (F.CLK_CTRL_EN 3)).putFlag (F.CLK_STATUS_LOCK 3) lock
  { s with plls := vmod s.plls 3 f, ptime := 1000000000000 }

theorem witness_PowerAndClocks :
    (State.reset.hasPll 3 = true ∧ (bits (6#32).toNat 1 2 = 3 ∧ bits (0x80#32).toNat 1 2 ≠ 3)
      ∧ (State.reset.clrFlag (F.CLK_CTRL_EN 3)).flag (F.CLK_CTRL_EN 3) = false ∧ (0x80#32).getLsbD 7 = true ∧ (1#32).getLsbD 7 = false)
    ∧ (((paged .printing).jobOn (3 - 3)).isSome = true ∧ State.reset.jobOn (3 - 3) = none
      ∧ pllLimits 3 { PllSet.reset with nint := 0 } = false
      ∧ pllLimits 3 { PllSet.reset with refmul := 0, pdiv := 0, nint := 50, nfrac := 0, nmod := 1 } = true)
    ∧ ((synth false id).pllRuns 3 = true ∧ (synth false id).flag (F.CLK_STATUS_LOCK 3) = false
      ∧ ((synth false (fun p => { p with fromApply := false, lossGated := true })).pll 3).lossGated = true
      ∧ ((synth false (fun p => { p with fromApply := false, lossGated := false })).pll 3).fromApply = false)
    ∧ ((synth true id).flag (F.CLK_STATUS_LOCK 3) = true
      ∧ ((synth true (fun p => { p with relockAt := some 999999900000 })).pll 3).relockAt = some 999999900000
      ∧ 999999900000 + 100000 ≤ (synth true id).now ∧ (synth true id).now < 999999900001 + 100000)
    ∧ (State.reset.ref.lost = false ∧ ({ State.reset.ref with lost := true } : RefSt).lost = true
      ∧ State.reset.ref.switchDue = none ∧ State.reset.flag F.CLK_REF_SRC = false
      ∧ (State.reset.setFlag F.CLK_REF_SRC).flag F.CLK_REF_SRC = true
      ∧ max 1 (State.reset.fld F.CLK_REF_REF_SW) * 1000000 ≤ (synth true id).now
      ∧ ((List.range 7).all fun k =>
        !((List.range 7).foldl (fun t k => t.clrFlag (F.CLK_CTRL_EN k)) State.reset).pllRuns k) = true)
    ∧ (let s : State := { synth true (fun p => { p with holdSince := some 0 }) with ptime := 65535000000000 }
      (s.pll 3).holdSince = some 0 ∧ 0 + max 1 (s.fld F.CLK_REF_HO_MAX) * 1000000000 ≤ s.now
      ∧ ((List.range 7).all fun k => (State.reset.pll k).holdSince.isNone) = true) := by decide +kernel

theorem witness_PowerAndClocks_times :
    (let s := powered .off (fun p => { p with vinOkSince := some 0 });
      s.pwr.phase = .off ∧ s.pwr.waitPress = false ∧ s.vinGood = true ∧ (powered .off id).vinGood = false
      ∧ ({ s with ptime := 0 } : State).pwr.vinOkSince = some 0)
    ∧ (let s := powered (.seq 0) (fun p => { p with table := aTable .on });
      0 * 1000000 ≤ (0#40).toNat ∧ s.pwr.window + 0 * 1000000 ≤ s.now ∧ s.pwr.since + 0 * 1000000 ≤ s.now
      ∧ (let x : SeqStep := ⟨0, .on, 1000, 1⟩;
        s.now < s.pwr.since + 1000 * 1000000 ∨ s.now < s.pwr.since + x.tmo * 1000000)
      ∧ (999#40).toNat < 1000 ∧ 1000 ≤ (1000#40).toNat)
    ∧ ((default : Judge).due 0 = true ∧ ({ (default : Judge) with last := some 0 } : Judge).due 9999 = false
      ∧ ({ (default : Judge) with last := some 0 } : Judge).due 10000 = true)
    ∧ (let s : State := { State.reset with ptime := 10000000 }
      s.now % 10000000 = 0 ∧ s.thm.roundAt ≠ some s.now ∧ State.reset.now % 10000000 = 0
      ∧ (let q : I2cReply := ⟨7, 1000, 1, 2⟩; q.value = some 258 ∧ ({ q with stretch := 1001 } : I2cReply).value = none
        ∧ ({ q with acks := 6 } : I2cReply).value = none))
    ∧ (let f := pllDco 3 ((synth true id).pll 3).force
      1000000000000000 * f.2 < (1000000000000000000 : Int).natAbs * 8 * f.1 ∧ 1000 ≤ (1000#32).toNat ∧ (999#32).toNat < 1000
      ∧ (0 : Int).natAbs * 8 * f.1 ≤ 1000000000000000 * f.2)
    ∧ (100 ≤ (100#16).toNat ∧ (99#16).toNat < 100 ∧ (99949#24).toNat < 99950 ∧ 100050 < (100051#24).toNat
      ∧ ¬ (100 ≤ (0#16).toNat ∨ (99950#24).toNat < 99950 ∨ 100050 < (99950#24).toNat)
      ∧ 100000000 ≤ (100000000#40).toNat ∧ (99999999#40).toNat < 100000000)
    ∧ (let s : State := { synth true (fun p => { p with holdSince := some 0 }) with ptime := 65535000000001 }
      s.holdOver 3 = true ∧ (State.reset.holdOver 3) = false) := by decide +kernel

/-! ### Hypotheses of the statements about incidents, fault outputs and the accord link -/

theorem witness_IncidentsAndOutputs :
    (let s : State := { (State.reset.setFlag F.FLT_INC_OPEN).setFld F.FLT_INC_INC_SRC 5 with ptime := 1000 }
     let due (d : Nat) : State := { s with flt := { s.flt with incDeadline := d } }
     s.flag F.FLT_INC_OPEN = true ∧ (due 1000).flt.incDeadline ≤ (due 1000).now ∧ (due 1001).now < (due 1001).flt.incDeadline
      ∧ bits (0x5A0005#32).toNat 0 9 = s.fld F.FLT_INC_INC_SRC ∧ bits (0x5A0005#32).toNat 16 8 = 0x5A
      ∧ bits (0x5A0004#32).toNat 0 9 ≠ s.fld F.FLT_INC_INC_SRC ∧ bits (0x5B0005#32).toNat 16 8 ≠ 0x5A)
    ∧ State.reset.flag F.FLT_INC_OPEN = false
    ∧ (let s : State := { (State.reset.setFlag F.FLT_CTRL_HEALTHY).setFld F.FLT_CTRL_WDOG 1 with ptime := 1000000 }
      s.fld F.FLT_CTRL_WDOG ≠ 0 ∧ s.flag F.FLT_CTRL_HEALTHY = true ∧ s.flt.kickAt + s.fld F.FLT_CTRL_WDOG * 1000000 ≤ s.now
      ∧ s.now < 1 + s.fld F.FLT_CTRL_WDOG * 1000000 ∧ (s.setFld F.FLT_CTRL_WDOG 0).fld F.FLT_CTRL_WDOG = 0)
    ∧ ((1#32).getLsbD 0 = true ∧ ({ State.reset with ptime := 500000 } : State).now % 500000 = 0
      ∧ ({ State.reset with ptime := 500001 } : State).now % 500000 ≠ 0
      ∧ State.reset.flt.aliveAt ≠ some 500000) := by decide +kernel

/-- The accord link in training step `k`, the pair joined or not, active or shadow. -/
def pairState (k : Nat) (joined active : Bool) (f : AcdSt → AcdSt) : State :=
  let s := ((State.reset.setFld F.ACD_STATUS_STATE k).putFlag F.ACD_STATUS_JOINED joined).putFlag F.ACD_STATUS_ROLE active
  { s with acd := f s.acd, ptime := 10000000 }

theorem witness_FaultsAndAccord :
    ((List.range 384).any (fun n => State.reset.sev n == 0) = true
      ∧ (List.range 384).any (fun n => State.reset.sev n == 1) = true
      ∧ (List.range 384).any (fun n => State.reset.sev n == 2) = true
      ∧ (List.range 384).any (fun n => State.reset.sev n == 3) = true)
    ∧ (State.reset.flag F.FLT_FIRST_VALID = false ∧ (State.reset.setFlag F.FLT_FIRST_VALID).flag F.FLT_FIRST_VALID = true)
    ∧ State.reset.usableRing (State.reset.reg R.FLT_NRING).toNat 2 = none
    ∧ ((pairState 4 true true id).isActive = true ∧ (pairState 4 true false id).isShadow = true
      ∧ State.reset.isActive = false ∧ State.reset.isShadow = false)
    ∧ (small.hasAccord = false ∧ State.reset.hasAccord = true)
    ∧ (bits (0#32).toNat 1 1 = 0 ∧ bits (0x5B02#32).toNat 8 8 ≠ 0x5A ∧ bits (1#32).toNat 0 1 = 1)
    ∧ ((pairState 0 false false id).acdState = 0 ∧ (pairState 1 false false id).acdState = 1
      ∧ (pairState 2 false false id).acdState = 2 ∧ (pairState 3 false false id).acdState = 3
      ∧ (pairState 4 false false id).acdState = 4)
    ∧ (let s := (pairState 0 false false (fun a => { a with failedAt := some 0 })).setFlag F.ACD_CTRL_EN
      s.acd.failedAt = some 0 ∧ 0 + 10000000 ≤ s.now ∧ s.flag F.ACD_CTRL_EN = true
      ∧ ({ s with ptime := 9999999 } : State).now < 0 + 10000000 ∧ State.reset.acd.failedAt = none) := by decide +kernel

theorem witness_FaultsAndAccord_pair :
    (let s : State := { pairState 4 true false id with links := vmod State.reset.links 2 (fun k => { k with
        granted := ⟨64, 1024, 32, 64, 64, 1024⟩ }) }
     let q (t : Nat) : PktIn := pktIn t 0 4 0 [1, 2, 3, 4]
     s.linkHears 2 = true ∧ (s.pl 2).rxSeq = 0 ∧ ((List.range 12).all fun t => good s 2 (q (t + 1))) = true
      ∧ good { s with links := vmod s.links 2 (fun k => { k with rxSeq := 1 }) } 2 (q 1) = false
      ∧ good { s with links := vmod s.links 2 (fun k => { k with granted := ⟨0, 0, 0, 0, 0, 0⟩ }) } 2 (q 1) = false)
    ∧ (let s (t : Nat) : State := { pairState 1 false false id with links := vmod State.reset.links 2 (fun k => { k with stepAt := t }) };
      (s 0).now > ((s 0).pl 2).stepAt + stepLimit 1 ∧ (s 9000000).now < ((s 9000000).pl 2).stepAt + stepLimit 1)
    ∧ ((pairState 4 true true id).acd.stateAt + 1000000 ≤ (pairState 4 true true id).now
      ∧ (pairState 4 true true (fun a => { a with stateAt := 9000001 })).now < 9000001 + 1000000
      ∧ (10000000 - (0#40).toNat) ≤ 10000000 ∧ 9999999 + 1000000 < (11000000 : Nat))
    ∧ (200 ≤ (200#40).toNat ∧ (199#40).toNat < 200 ∧ 10000000 ≤ (10000000#40).toNat ∧ 1000 ≤ (1000#40).toNat ∧ (999#40).toNat < 1000)
    ∧ (State.reset.lowestLocked = none ∧ (State.reset.setFlag (F.EXP_STATUS_BD_LOCK 0)).lowestLocked.isSome = true)
    ∧ ((pairState 0 false false id).acd.downSince = none
      ∧ (pairState 0 false false (fun a => { a with downSince := some 0 })).acd.downSince ≠ none)
    ∧ (let s := pairState 4 true false id
      s.isShadow = true ∧ (s.clrFlag F.ACD_STATUS_OWN_IN).mayTake = true)
    ∧ (let s := (pairState 0 false false id).clrFlag F.ACD_STATUS_OWN_IN
      s.mayTake = true ∧ s.joined = false ∧ (s.setFlag F.ACD_STATUS_TOKEN).mayTake = false)
    ∧ (let s := (pairState 4 true true (fun a => { a with tokenAt := 9000000 })).setFlag F.ACD_STATUS_TOKEN
      s.flag F.ACD_STATUS_TOKEN = true ∧ s.now ≤ s.acd.tokenAt + 1000000
      ∧ (pairState 4 true true (fun a => { a with tokenAt := 8999999 })).acd.tokenAt + 1000000 < s.now)
    ∧ (let s := (pairState 0 false false (fun a => { a with backoffUntil := some 10000000 })).clrFlag F.ACD_STATUS_OWN_IN
      s.acd.backoffUntil = some 10000000 ∧ 10000000 ≤ s.now
      ∧ (s.modAcd (fun a => { a with backoffUntil := none })).mayTake = true
      ∧ ((s.setFlag F.ACD_STATUS_OWN_IN).modAcd (fun a => { a with backoffUntil := none })).mayTake = false)
    ∧ (let v : Word := 0x5A03
      let en := (pairState 4 true true id).putFlag F.ACD_CTRL_EN (bits v.toNat 0 1 == 1)
      bits v.toNat 0 1 = 1 ∧ bits v.toNat 1 1 = 1 ∧ bits v.toNat 8 8 = 0x5A ∧ (pairState 4 true true id).acdState ≠ 0
      ∧ en.isActive = true ∧ (en.setFld F.ACD_STATUS_MIRROR_OK 15).fld F.ACD_STATUS_MIRROR_OK = 15
      ∧ en.fld F.ACD_STATUS_MIRROR_OK ≠ 15 ∧ en.lowestLocked = none) := by decide +kernel

/-- A HELLO payload: presence `p`, configuration 0, token `t`, device number `d`. -/
def helloBody (p t d : Nat) : List Byte := List.replicate 8 0 ++ leBytes 4 p ++ leBytes 4 0 ++ leBytes 4 0 ++ leBytes 4 t ++ leBytes 4 d
  ++ leBytes 4 0

theorem witness_FaultsAndAccord_service :
    (let s := (pairState 3 false false id).setReg R.ACD_CFGSUM 0
     let p := (s.reg R.SYS_PRESENCE).toNat
     s.flag F.ACD_STATUS_TOKEN = false ∧ entLe (helloBody p 1 0) 20 4 = 1 ∧ entLe (helloBody p 0 0) 20 4 = 0
      ∧ entLe (helloBody p 1 0) 12 4 = (s.reg R.ACD_CFGSUM).toNat ∧ (entLe (helloBody p 1 0) 8 4 &&& 0xFF0FF) = p &&& 0xFF0FF
      ∧ s.jobs = [] ∧ s.pages = [] ∧ s.timers = [] ∧ entLe (helloBody p 1 0) 24 4 = s.devNum
      ∧ entLe (helloBody p 1 1) 24 4 ≠ s.devNum ∧ (entLe (helloBody (p + 1) 1 0) 8 4 &&& 0xFF0FF) ≠ p &&& 0xFF0FF
      ∧ ((s.setReg R.ACD_CFGSUM 1).reg R.ACD_CFGSUM).toNat ≠ entLe (helloBody p 1 0) 12 4)
    ∧ ((pairState 4 false false (fun a => { a with joining := true })).isActive = false
      ∧ (pairState 4 false false (fun a => { a with joining := true })).acd.joining = true)
    ∧ (bits (0x23#32).toNat 5 1 = 1 ∧ bits (0x23#32).toNat 0 5 = 3 ∧ State.reset.hasCore 3 = true ∧ small.hasCore 23 = false
      ∧ State.reset.flag (F.CRS_CTRL_RUN 3) = false ∧ State.reset.objs = [] ∧ State.reset.svc.testing = none
      ∧ (running 3).flag (F.CRS_CTRL_RUN 3) = true
      ∧ (let s : State := { State.reset with svc := { State.reset.svc with testing := some 23 } }
        s.svc.testing = some 23 ∧ 23 < 24))
    ∧ (State.reset.hasDch 0 = true ∧ small.hasDch 0 = false ∧ State.reset.dcsvc 0 = 0
      ∧ (State.reset.setFld F.SYS_DCSVC_SVC 2).dcsvc 0 = 2)
    ∧ (let r : NvmRec := ⟨0x80, 0, 0, List.replicate 92 0⟩
      let s : State := { State.reset with nvm := { State.reset.nvm with queue := [r] } }
      s.nvm.queue = [r] ∧ r.payload.length ≤ 92 ∧ State.reset.nvm.queue = [])
    ∧ (0x80 ≤ bits (0x5C80#32).toNat 0 8 ∧ bits (0x5C80#32).toNat 8 8 = 92 ∧ State.reset.nvm.append = false
      ∧ bits (0x7F#32).toNat 0 8 < 0x80 ∧ 92 < bits (0x5D80#32).toNat 8 8
      ∧ (match (withDram State.reset).memRead reqStorage ((withDram State.reset).addr40 R.NVM_APP_LO R.NVM_APP_HI) 92 with
        | (t, .data l) => l.length == 92 && decide (t.nvm.queue.length < 8)
        | _ => false) = true)
    ∧ (State.reset.scanTakesPins ≠ (powered .running (fun x => { x with released := true })).scanTakesPins ∧ State.reset.fuses.step < 256) := by decide +kernel

/-! ### The spec's worked examples -/

/-- Example after R429: PL3 at 148,650 kHz. -/
theorem test_setupA_clock : ((setupA 0).pixHz 0).1 = 148650000 * ((setupA 0).pixHz 0).2
    ∧ pllLimits 3 ((vget (setupA 0).plls 3).force) = true := by decide +kernel

/-- Example after R330: the polygon target of setup A on ten facets is 22,500 rpm. -/
theorem test_polygon_target :
    ({ setupA 0 with jobs := [(0, { aJob with facets := 1 })] } : State).polyTarget 0 = 22500 * 16 := by decide +kernel

/-- Example after R129: B37's offset in block 157 is DELAY 2,317, FCORR −2 and ZONE 6. -/
theorem test_beam_offset :
    let s := (((setupA 1).setFlag (F.EXP_SCAN_FIDX_EN 1)).setFld (F.EXP_DELAY_DELAY 1 37) 2317).setFld (F.EXP_FCORR_FCORR 1 3) (ux 16 (-2))
    let t := (s.setFld (F.EXP_ZONE_Z 1 26) 5).setFld (F.EXP_ZONE_Z 1 27) 9
    ({ t with exp := vmod t.exp 1 (fun e => { e with facet := 3 }) } : State).beamOffset 1 37 157 = 2317 - 2 + 6 := by
  decide +kernel

/-- Example after R161: the emitter limits of setup B. -/
theorem test_emitter_limit : emitLimit 154 37163 = 1465114 ∧ emitLimit 155 37163 = 1474627 := by decide

/-- Example after R164: 73.5 °C against the reset limit of 70.0 °C asks for 56. -/
theorem test_speed_request : State.reset.spdReq 0 (73 * 16 + 8) = 56 := by decide +kernel

/-- Example after R179: SET_UNIT's argument in setup A. -/
theorem test_set_unit : (setupA 1).unitArg 1 = 6888665 := by
  decide +kernel

/-- Background after R144: a map that uses every LOFF once is legal; LOFF = 3b fails rule 3 in class 1. -/
theorem test_lace_maps :
    let put (f : Nat → Nat) : State := (List.range 128).foldl (fun t b => t.setFld (F.LAC_MAP_LOFF 0 b) (f b)) State.reset
    (put (fun b => if b < 64 then 2 * b else 2 * (b - 64) + 1)).laceCheck 0 4 = none
    ∧ ((put (fun b => 3 * b)).laceCheck 0 4).map (fun f => (f.rule, f.index)) = some (3, 1) := by decide +kernel

/-- Example after R211: the two-line fragment's seven payload bytes decode to its 32 pixels. -/
theorem test_fragment :
    let px := List.replicate 8 0 ++ [3, 9] ++ List.replicate 6 15 ++ List.replicate 8 0 ++ [3, 9] ++ List.replicate 5 15 ++ [7]
    let h : BlkHdr := { BlkHdr.ofBytes [0xA7, 2, 1, 0, 7, 0, 0, 0, 16, 0, 0, 0] with crc := crc32c (packNibbles px) }
    h.ok = true ∧ h.last = true
    ∧ decodeBlock h 16 [] [0x05, 0x15, 0x93, 0xF5, 0x63, 0x1E, 0x70] = .pixels px := by decide +kernel

/-- Example after R265: block 1,000 of a volume on DC0, DC1, DC4 and DC5 with SU = 4 is block 248 of DC4. -/
theorem test_volume_map : ((State.reset.setFld (F.STQ_VOL_CFG_DCH 0) 0x33).setFld (F.STQ_VOL_CFG_SU 0) 4).volMap 0 1000 = (4, 248) := by
  decide +kernel

/-- Example after R273: of commands 10 to 13, command 12 begins at once; 11 and 13 wait. -/
theorem test_range_locks :
    let c (a l n op : Nat) : StqCmd :=
      { (default : StqCmd) with accepted := true, locked := true, aseq := a, lba := l, nblk := n, opc := op, vol := 2 }
    let s : State := { State.reset with stq := { State.reset.stq with
      cmds := [c 10 100 64 1, c 11 150 2 2, c 12 164 8 1, c 13 90 11 2] } }
    s.stq.cmds.map s.rangeClear = [true, false, true, false] := by decide +kernel

/-- Example after R289: a zone of 37,105,024 channel bits allows 7,761 rpm. -/
theorem test_rpm_max : ((geometry.setReg (R.DSK_ZONE 0 1) 37105024).geomRpm 0).1 = 7761 := by decide +kernel

/-- Example after R376: of six crossings the last trips with a window of 500 and not with 400. -/
theorem test_oscillation :
    let go (w : Nat) : Bool := ([4120, 4203, 4290, 4371, 4455, 4538].foldl (fun (a : Loop × Bool) (n : Nat) =>
        { a.1 with evals := n, oscWin := w }.detect (if a.1.sign = some true then -1 else 1))
      ({ (default : Loop) with oscN := 6, sign := some true }, false)).2
    go 500 = true ∧ go 400 = false := by decide +kernel

/-- Example after R386: the tag of a line 80 µs after an origin with C_f = 5,000,000. -/
theorem test_camera_tag :
    let s : State := { setupA 0 with ptime := 1000100000, jobs := [(0, { aJob with passes := 2, facets := 1 })] }
    let t : State := { s with exp := vmod s.exp 0 (fun e => { e with facetsRun := true, origin := 1000000000, cf := 5000000, origins := [(1000000000, 5000000)] }) }
    (t.camTag { (default : CamCfg) with cstn := 0, offl := 40000, latNs := 20000 }).1 = 79360153 := by decide +kernel

/-- Example after R362: AX4 at 2,000 full steps/s. -/
theorem test_registration_roller :
    let s := (((State.reset.setFld (F.STP_CFG_RCOIL 4) 2400).setFld (F.STP_DRIVE_IRUN 4) 800).setFld (F.STP_FF_KE 4) 3000).setFld
      (F.STP_FF_KL 4) 2048
    let t : State := { s.setFld F.STP_VBUS0_VBUS 24000 with axes := vmod s.axes 4 (fun x => { x with
      state := .moving, vMilli := 2000 * 256000, k := 5 }) }
    ((t.axDrive 4).axis 4).ampU = 7920 ∧ t.axPhi 4 (2000 * 256000) = 62 ∧ t.axK 4 (2000 * 256000) 9 4 = 5
    ∧ t.axK 4 (1437 * 256000 + 128000) 9 5 = 5 ∧ t.axK 4 (1437 * 256000 + 127999) 9 5 = 4 := by decide +kernel

/-- Example after R86. -/
theorem test_handle_example : hClass 0x2C030107 = 0x0B ∧ hGen 0x2C030107 = 3 ∧ hIdx 0x2C030107 = 263 := by decide

/-- R485: the identification code's fixed fields. -/
theorem test_idcode : State.reset.idcode % 2 ^ 28 = 0x5058 * 4096 + 0x1D3 * 2 + 1 := by decide +kernel

end Sys2Proof.Tests
end

