-- ==== Sys2Proof/Proofs/Pages.lean ====
section
/-!
PROOFS. The life of a page once it is admitted: withdrawal (R26), spoiling by its handle (R43), start and end (R18).
-/
namespace Sys2Proof.Proofs.Pages

open Sys2Proof.Machine
open Sys2Proof.Laws.Pages

/-! ### The commands' meanings -/

theorem exec_withdraw (s : State) (handle : Word) :
    exec (.withdraw handle) s = .next (effWithdraw handle.toNat s).finish := rfl

theorem exec_spoil (s : State) (handle : Word) :
    exec (.spoil handle) s = .next (effSpoil handle.toNat s).finish := rfl

theorem exec_pageStart (s : State) (k : Fin 1024) :
    exec (.pageStart k) s = .next (effPageStart k.val s).finish := rfl

theorem exec_pageDone (s : State) (k : Fin 1024) :
    exec (.pageDone k) s = .next (effPageDone k.val s).finish := rfl

/-! ### Withdrawal (R26) -/

section withdraw
variable {s : State} {h i : Nat} {p : Page}

theorem effWithdraw_noPage (hp : s.pageOf h = none) : effWithdraw h s = s := by
  simp only [effWithdraw, hp]

theorem effWithdraw_inTime (hp : s.pageOf h = some (i, p)) (ha : p.state = .admitted) (hb : s.beforeStart p = true) :
    effWithdraw h s = s.withdrawPage i := by
  simp only [effWithdraw, hp, ha, hb, and_self, if_true]

theorem effWithdraw_late (hp : s.pageOf h = some (i, p))
    (hl : (p.state = .admitted ∧ s.beforeStart p = false) ∨ p.state = .printing ∨ p.state = .done) :
    effWithdraw h s = s.setFlag F.SYS_ADMIT_STATUS_WD_LATE := by
  obtain ⟨ha, hb⟩ | hq | hd := hl
  · simp [effWithdraw, hp, ha, hb]
  · simp [effWithdraw, hp, hq]
  · simp [effWithdraw, hp, hd]

theorem effWithdraw_otherState (hp : s.pageOf h = some (i, p))
    (ho : p.state ≠ .admitted ∧ p.state ≠ .printing ∧ p.state ≠ .done) : effWithdraw h s = s := by
  simp [effWithdraw, hp, ho]

theorem withdrawPage_page (mask : Nat) (hp : Tab.get s.pages i = some p) (ha : p.state = .admitted)
    (hb : s.beforeStart p = true) :
    Tab.get (s.withdrawPage i mask).pages i = some { p with
      state := .ready, result := 11, failMask := mask, startLine := 0, reserved := 0
      blankFrom := [], record := default, pagea := none } := by
  simp only [State.withdrawPage, hp, ha, hb, and_self, if_true, State.dropFills, State.admitDone,
    State.settleJob_frame, State.notify_frame, State.modJob_frame, get_modPage, Option.map_some]

theorem withdrawPage_fills (mask : Nat) (hp : Tab.get s.pages i = some p) (ha : p.state = .admitted)
    (hb : s.beforeStart p = true) :
    (s.withdrawPage i mask).fills = s.fills.filter (fun f => f.page != i) := by
  simp only [State.withdrawPage, hp, ha, hb, and_self, if_true, State.dropFills, State.admitDone,
    State.settleJob_frame, State.notify_frame, State.modJob_frame, State.modPage_frame]

end withdraw

/-! ### A spoil cause on a page (R30, R31) -/

/-- Whatever the record holds already, a spoil cause sets its own bit of the mask. -/
theorem spoil_spoilMask (r : PageRec) (stn cause line idx at_ : Nat) (waste stops : Bool) :
    (r.spoil stn cause line idx at_ waste stops).spoilMask = setBit r.spoilMask (cause - 1) := by
  unfold PageRec.spoil
  split
  · rfl
  · split <;> rfl

/-- The first spoil cause of a page is the recorded one. -/
theorem spoil_first (r : PageRec) (stn cause line idx at_ : Nat) (waste stops : Bool) (h0 : r.spoilCause = 0) :
    (r.spoil stn cause line idx at_ waste stops).spoilCause = cause
      ∧ (r.spoil stn cause line idx at_ waste stops).spoilStn = stn := by
  simp [PageRec.spoil, h0]

/-- What a spoil cause leaves of the page it falls on, but for where its stations blank. -/
theorem spoilPage_page {s : State} {i : Nat} {p : Page} {j : Job} (stn cause lost : Nat) (blank : Bool)
    (hp : Tab.get s.pages i = some p) (hj : s.jobOf p = some j) :
    ∃ from_ mark stops, Tab.get (s.spoilPage i stn cause lost blank).pages i = some { p with
      blankFrom := from_
      record := p.record.spoil stn cause ((lget p.firstLine stn + lost) % 2 ^ 40) lost (s.lineNow j.ref) mark stops } := by
  simp only [State.spoilPage, hp, hj, get_modPage, Option.map_some]
  exact ⟨_, _, _, rfl⟩

/-! ### Spoiling by handle (R43) -/

/-- The station that a spoil by handle falls on: the reference station while a line of the page is to come there, else the
lowest-numbered station of the job that has one. -/
def spoilStn (s : State) (p : Page) (j : Job) : Option Nat :=
  (j.ref :: List.range 4).find? (fun n => j.names n && decide (s.blankPoint p n < p.length))

section spoil
variable {s : State} {h i : Nat} {p : Page} {j : Job}

theorem effSpoil_noPage (hp : s.pageOf h = none) : effSpoil h s = s := by
  simp only [effSpoil, hp]

theorem effSpoil_notPrinting (hp : s.pageOf h = some (i, p)) (hq : p.state ≠ .printing) : effSpoil h s = s := by
  simp only [effSpoil, hp, if_pos hq]

theorem effSpoil_noLine (hp : s.pageOf h = some (i, p)) (hj : s.jobOf p = some j) (hn : spoilStn s p j = none) :
    effSpoil h s = s := by
  unfold spoilStn at hn
  simp only [effSpoil, hp, hj, hn, ite_self]

theorem effSpoil_printing {n : Nat} (hp : s.pageOf h = some (i, p)) (hq : p.state = .printing) (hj : s.jobOf p = some j)
    (hn : spoilStn s p j = some n) : effSpoil h s = s.spoilPage i n 0x0A (s.blankPoint p n) := by
  unfold spoilStn at hn
  simp only [effSpoil, hp, hq, hj, hn, ne_eq, not_true_eq_false, if_false]

end spoil

/-! ### Start and end of a page (R18) -/

section course
variable {s : State} {i : Nat} {p : Page} {j : Job}

theorem effPageStart_begun (hp : Tab.get s.pages i = some p) (ha : p.state = .admitted) (hb : s.beforeStart p = false) :
    effPageStart i s = s.modPage i (fun q => { q with
      state := .printing, record := { q.record with tFirst := s.now } }) := by
  simp only [effPageStart, hp, ha, hb, and_self, if_true]

theorem effPageStart_otherwise (hp : Tab.get s.pages i = some p) (hn : p.state ≠ .admitted ∨ s.beforeStart p = true) :
    effPageStart i s = s := by
  have hc : ¬ (p.state = .admitted ∧ s.beforeStart p = false) := by
    rintro ⟨ha, hb⟩
    simp [ha, hb] at hn
  simp only [effPageStart, hp, if_neg hc]

theorem effPageDone_ended (hp : Tab.get s.pages i = some p) (hj : s.jobOf p = some j) (hq : p.state = .printing)
    (he : (setBitsOf 4 j.stn).all (s.endedOn p) = true) :
    effPageDone i s = ((s.finishPage i s.now).pageBoundary j).each (setBitsOf 4 j.stn) State.holdRelease := by
  simp only [effPageDone, hp, hj, hq, he, and_self, if_true]

theorem effPageDone_otherwise (hp : Tab.get s.pages i = some p) (hj : s.jobOf p = some j)
    (hn : p.state ≠ .printing ∨ (setBitsOf 4 j.stn).all (s.endedOn p) = false) : effPageDone i s = s := by
  have hc : ¬ (p.state = .printing ∧ (setBitsOf 4 j.stn).all (s.endedOn p) = true) := by
    rintro ⟨hq, he⟩
    simp [hq, he] at hn
  simp only [effPageDone, hp, hj, if_neg hc]

end course

/-! ### The obligation -/

/-- A withdrawal in time: the page is READY and WITHDRAWN, its reservation is released and the band filler has nothing
of it any more. -/
theorem withdraw_inTime {s : State} {handle : Word} {i : Nat} {p : Page} (hp : s.pageOf handle.toNat = some (i, p))
    (ha : p.state = .admitted) (hb : s.beforeStart p = true) :
    ∃ t q, exec (.withdraw handle) s = .next (State.finish t) ∧ Tab.get t.pages i = some q
      ∧ q.state = .ready ∧ q.result = 11 ∧ q.reserved = 0 ∧ ∀ f ∈ t.fills, f.page ≠ i := by
  have hget := live_pageOf hp
  refine ⟨s.withdrawPage i, _, ?_, withdrawPage_page 0 hget ha hb, rfl, rfl, rfl, ?_⟩
  · rw [exec_withdraw, effWithdraw_inTime hp ha hb]
  · intro f hf
    rw [withdrawPage_fills 0 hget ha hb] at hf
    simpa using (List.mem_filter.mp hf).2

/-- A spoil by handle while a line is to come: cause 0x0A is in the mask, and it is the recorded cause, on the station
chosen, where no cause was recorded before. -/
theorem spoil_printing {s : State} {handle : Word} {i : Nat} {p : Page} {j : Job} (hp : s.pageOf handle.toNat = some (i, p))
    (hq : p.state = .printing) (hj : s.jobOf p = some j) (hs : spoilStn s p j ≠ none) :
    ∃ t q, exec (.spoil handle) s = .next (State.finish t) ∧ Tab.get t.pages i = some q
      ∧ bit q.record.spoilMask 9 = true
      ∧ (p.record.spoilCause = 0 → q.record.spoilCause = 0x0A ∧ some q.record.spoilStn = spoilStn s p j) := by
  obtain ⟨n, hn⟩ := Option.ne_none_iff_exists'.mp hs
  obtain ⟨_, _, _, hpage⟩ := spoilPage_page n 0x0A (s.blankPoint p n) false (live_pageOf hp) hj
  refine ⟨_, _, ?_, hpage, ?_, fun h0 => ?_⟩
  · rw [exec_spoil, effSpoil_printing hp hq hj hn]
  · rw [spoil_spoilMask]
    exact Laws.Sillage.setBit_tb _ 9
  · obtain ⟨hcause, hstn⟩ := spoil_first p.record n 0x0A _ _ _ _ _ h0
    exact ⟨hcause, by rw [hn, hstn]⟩

/-- Settles O15: each command is its effect under the condition that holds. That WITHDRAW of a PRINTING or DONE page sets
WD_LATE, and which station a SPOIL takes, is the model's choice (log entry 44). -/
theorem pageLife : Obligations.PageLife := by
  unfold Obligations.PageLife
  intro s handle k p
  refine ⟨fun hp => ?noPage, fun i hp => ⟨?inTime, ?late, ?noWithdrawal, ?notPrinting, fun j hq hj => ?printing⟩,
    ?start, ?noStart, fun j hp hj => ?done⟩
  case noPage =>
    rw [exec_withdraw, exec_spoil, effWithdraw_noPage hp, effSpoil_noPage hp]
    exact ⟨rfl, rfl⟩
  case inTime =>
    rintro ⟨ha, hb⟩
    exact withdraw_inTime hp ha hb
  case late => intro hl; rw [exec_withdraw, effWithdraw_late hp hl]
  case noWithdrawal => intro ho; rw [exec_withdraw, effWithdraw_otherState hp ho]
  case notPrinting => intro hq; rw [exec_spoil, effSpoil_notPrinting hp hq]
  case printing =>
    refine ⟨fun hn => ?_, spoil_printing hp hq hj⟩
    rw [exec_spoil, effSpoil_noLine hp hj hn]
  case start => intro hp ha hb; rw [exec_pageStart, effPageStart_begun hp ha hb]
  case noStart => intro hp hn; rw [exec_pageStart, effPageStart_otherwise hp hn]
  case done =>
    refine ⟨?_, fun hn => ?_⟩
    · rintro ⟨hq, he⟩
      rw [exec_pageDone, effPageDone_ended hp hj hq he]
    · rw [exec_pageDone, effPageDone_otherwise hp hj hn]

end Sys2Proof.Proofs.Pages
end

