-- ==== Sys2Proof/Proofs/Branches.lean ====
section
/-!
PROOFS. Branches, jumps and calls of a core (R63).
-/
namespace Sys2Proof.Proofs.Branches

open Sys2Proof.Machine

/-! ### The instructions' meanings -/

section meanings
variable (n : Fin 24) (rd ra rb : Fin 32) (off : BitVec 16) (s : State)

theorem exec_crBeq : exec (.crBeq n ra rb off) s = .next (s.fetched n.val (.crBeq n ra rb off)
    (fun t => t.branch n.val ra.val rb.val off.toNat (fun a b => a == b))).collect := rfl

theorem exec_crBne : exec (.crBne n ra rb off) s = .next (s.fetched n.val (.crBne n ra rb off)
    (fun t => t.branch n.val ra.val rb.val off.toNat (fun a b => a != b))).collect := rfl

theorem exec_crBlt : exec (.crBlt n ra rb off) s = .next (s.fetched n.val (.crBlt n ra rb off)
    (fun t => t.branch n.val ra.val rb.val off.toNat (fun a b => decide (sx 32 a < sx 32 b)))).collect := rfl

theorem exec_crBge : exec (.crBge n ra rb off) s = .next (s.fetched n.val (.crBge n ra rb off)
    (fun t => t.branch n.val ra.val rb.val off.toNat (fun a b => decide (sx 32 b ≤ sx 32 a)))).collect := rfl

theorem exec_crBltu : exec (.crBltu n ra rb off) s = .next (s.fetched n.val (.crBltu n ra rb off)
    (fun t => t.branch n.val ra.val rb.val off.toNat (fun a b => decide (a < b)))).collect := rfl

theorem exec_crBgeu : exec (.crBgeu n ra rb off) s = .next (s.fetched n.val (.crBgeu n ra rb off)
    (fun t => t.branch n.val ra.val rb.val off.toNat (fun a b => decide (b ≤ a)))).collect := rfl

theorem exec_crJmp : exec (.crJmp n off) s = .next (s.fetched n.val (.crJmp n off)
    (fun t => t.effCall n.val 0 off.toNat)).collect := rfl

theorem exec_crCall : exec (.crCall n rd off) s = .next (s.fetched n.val (.crCall n rd off)
    (fun t => t.effCall n.val rd.val off.toNat)).collect := rfl

theorem exec_crCallr : exec (.crCallr n rd ra off) s = .next (s.fetched n.val (.crCallr n rd ra off)
    (fun t => t.effCallr n.val rd.val ra.val off.toNat)).collect := rfl

end meanings

/-- An instruction that is fetched and then followed by the collector alone: where its word stands at the program
counter, it is its own effect. -/
theorem exec_spelt {s : State} {n : Fin 24} {i : Instr} {f : State → State} (h : s.Issues n.val)
    (hexec : exec i s = .next (s.fetched n.val i f).collect) (hi : s.spells n.val i) :
    exec i s = .next (f s).collect := by
  rw [hexec, State.fetched_ready s n.val i f h.ready hi]

/-! ### Branches -/

/-- A branch, whatever its condition: `f` is the condition on the registers' numbers, `b` what it comes to. -/
theorem exec_branch {s : State} {n : Fin 24} {ra rb : Fin 32} {off : BitVec 16} {i : Instr} {f : Nat → Nat → Bool}
    {b : Bool} (h : s.Issues n.val)
    (hexec : exec i s = .next (s.fetched n.val i (fun t => t.branch n.val ra.val rb.val off.toNat f)).collect)
    (hb : f ((s.core n.val).rd ra).toNat ((s.core n.val).rd rb).toNat = b) (hi : s.spells n.val i) :
    exec i s = .next (s.modCore n.val (fun q => if b then
      q.goTo ((((s.core n.val).pc : Int) + 4 * off.toInt) % 65536).toNat else q.goOn)) := by
  rw [exec_spelt h hexec hi, State.branch_row s n ra rb off f b h hb]

theorem bne_word (a b : Word) : (a.toNat != b.toNat) = (a != b) := congrArg not (beq_word a b)

theorem sx_lt_word (a b : Word) : decide (sx 32 a.toNat < sx 32 b.toNat) = a.slt b := by
  rw [sx_word 32 a (by decide), sx_word 32 b (by decide), BitVec.slt_eq_decide]

theorem sx_le_word (a b : Word) : decide (sx 32 a.toNat ≤ sx 32 b.toNat) = a.sle b := by
  rw [sx_word 32 a (by decide), sx_word 32 b (by decide), BitVec.sle_eq_decide]

/-! ### Jumps and calls -/

/-- A target is an address of instruction RAM, 16 bits. -/
theorem target_lt (c : Core) (off : Nat) : c.target off < 65536 := by
  unfold Core.target
  rw [ux16_eq]
  omega

theorem effCall_row {s : State} {n : Fin 24} (rd : Fin 32) (off : BitVec 16) (h : s.Issues n.val) :
    (s.effCall n.val rd.val off.toNat).collect
      = s.modCore n.val (fun q => (q.wr rd (BitVec.ofNat 32 ((s.core n.val).pc + 4))).goTo
          ((((s.core n.val).pc : Int) + 4 * off.toInt) % 65536).toNat) := by
  unfold State.effCall
  rw [State.issue_ready _ _ _ h.ready, State.modCore_modCore, collect_modCore _ _ _ h.calm h.safe]
  apply State.modCore_congr
  rw [← Core.target_eq]
  exact Core.link_eq _ rd _ _ (target_lt _ _)

/-- CALLR's target: a sum of words, and the sum of their numbers that wraps only modulo 64 KiB. -/
theorem callr_target (a b : Word) : (a.toNat + b.toNat) / 4 * 4 % 65536 = (a + b).toNat / 4 * 4 % 65536 := by
  rw [BitVec.toNat_add]
  omega

theorem goTo_mod (c : Core) (pc : Nat) : c.goTo (pc % 65536) = c.goTo pc := by
  unfold Core.goTo
  rw [Nat.mod_mod]

theorem effCallr_row {s : State} {n : Fin 24} (rd ra : Fin 32) (imm : BitVec 16) (h : s.Issues n.val) :
    (s.effCallr n.val rd.val ra.val imm.toNat).collect
      = s.modCore n.val (fun q => (q.wr rd (BitVec.ofNat 32 ((s.core n.val).pc + 4))).goTo
          (((s.core n.val).rd ra + imm.signExtend 32).toNat / 4 * 4)) := by
  unfold State.effCallr
  rw [State.issue_ready _ _ _ h.ready, State.modCore_modCore, collect_modCore _ _ _ h.calm h.safe]
  apply State.modCore_congr
  rw [Core.gr_val, Core.rd_issuing, sext16_word, callr_target,
    ← goTo_mod _ (((s.core n.val).rd ra + imm.signExtend 32).toNat / 4 * 4)]
  exact Core.link_eq _ rd _ _ (Nat.mod_lt _ (by decide))

/-- JMP is the CALL that discards its return address. -/
theorem effJmp_row {s : State} {n : Fin 24} (off : BitVec 16) (h : s.Issues n.val) :
    (s.effCall n.val 0 off.toNat).collect
      = s.modCore n.val (fun q => q.goTo ((((s.core n.val).pc : Int) + 4 * off.toInt) % 65536).toNat) :=
  effCall_row 0 off h

/-! ### The obligation -/

/-- Settles O21: the six branches are one rule with six conditions, JMP is the CALL to g0, and CALLR's sum of 32 bits has
the same low 16 bits as the sum that does not wrap. -/
theorem branchesAndCalls : Obligations.BranchesAndCalls := by
  unfold Obligations.BranchesAndCalls
  intro s n rd ra rb off h runs a b pc there go
  refine ⟨⟨?beq, ?bne, ?blt, ?bge, ?bltu, ?bgeu⟩, ?jmp, ?call, ?callr⟩
  case beq => exact exec_branch h (exec_crBeq ..) (beq_word a b)
  case bne => exact exec_branch h (exec_crBne ..) (bne_word a b)
  case blt => exact exec_branch h (exec_crBlt ..) (sx_lt_word a b)
  case bge => exact exec_branch h (exec_crBge ..) (sx_le_word b a)
  case bltu => exact exec_branch h (exec_crBltu ..) (decide_eq_decide.mpr BitVec.lt_def.symm)
  case bgeu => exact exec_branch h (exec_crBgeu ..) (decide_eq_decide.mpr BitVec.le_def.symm)
  case jmp => intro hi; rw [exec_spelt h (exec_crJmp n off s) hi, effJmp_row off h]; rfl
  case call => intro hi; rw [exec_spelt h (exec_crCall n rd off s) hi, effCall_row rd off h]
  case callr => intro hi; rw [exec_spelt h (exec_crCallr n rd ra off s) hi, effCallr_row rd ra off h]

end Sys2Proof.Proofs.Branches
end

