-- ==== Sys2Proof/Proofs/Handles.lean ====
section
/-!
PROOFS. Handles and the generations of slots (R84 to R86).
-/
namespace Sys2Proof.Proofs.Handles

open Sys2Proof.Machine

/-! ### The check of a handle (R85) -/

section check
variable {s : State} {h : Nat} {fits : Nat → Bool}

theorem checkHandle_null (hn : h = 0 ∨ hGen h = 0) : s.checkHandle h fits = .error .invalid := by
  unfold State.checkHandle
  exact if_pos hn

/-- A handle that is sound in itself, of an accepted class, is STALE where its slot holds no object, be the slot free or
withdrawn. -/
theorem checkHandle_stale_of_free (h0 : h ≠ 0) (hg : hGen h ≠ 0) (hf : fits (hClass h) = true)
    (hi : hIdx h < classCap (hClass h)) (hfree : s.obj (hClass h) (hIdx h) = none) :
    s.checkHandle h fits = .error .stale := by
  have hcap : classCap (hClass h) ≠ 0 := Nat.ne_zero_of_lt hi
  unfold State.checkHandle
  rw [if_neg (not_or.mpr ⟨h0, hg⟩), if_neg (by simp [hcap, hf]), if_neg (Nat.not_le.mpr hi), hfree]
  exact ite_self _

end check

/-! ### A slot that is freed (R84, R86) -/

section freed
variable (s : State) (c i : Nat)

theorem freeSlot_obj_same : (s.freeSlot c i).obj c i = none := Tab.get_del_same _ _

theorem freeSlot_obj_ne {c' j : Nat} (hk : okey c' j ≠ okey c i) : (s.freeSlot c i).obj c' j = s.obj c' j :=
  Tab.get_del_ne _ hk

theorem freeSlot_genOf : (s.freeSlot c i).genOf c i = s.genOf c i % 1023 + 1 := Tab.getD_setD_same _ _ _ _

end freed

/-- The generation after `g`: the numbers 1 to 1,023 in a circle. -/
theorem nextGen_eq {g : Nat} (hg : 1 ≤ g ∧ g ≤ 1023) : g % 1023 + 1 = if g = 1023 then 1 else g + 1 := by
  split <;> omega

/-! ### The obligation -/

/-- Settles O36: the check refuses handle 0 and generation 0 first of all, and finds no object in a slot that was freed,
whatever the handle's generation. -/
theorem freedHandles : Obligations.FreedHandles := by
  unfold Obligations.FreedHandles
  refine ⟨fun c i => ?reset, fun s h fits hn => ?null, fun s c i h hi hc h0 hg hclass hidx => ⟨?stale, ?next, ?frame⟩⟩
  case reset => rfl
  case null => exact checkHandle_null hn
  case stale =>
    subst hclass hidx
    exact checkHandle_stale_of_free h0 hg rfl hi (freeSlot_obj_same s _ _)
  case next =>
    intro hgen
    rw [freeSlot_genOf, nextGen_eq hgen]
  case frame => exact fun c' j hk => freeSlot_obj_ne s c i hk

end Sys2Proof.Proofs.Handles
end

