-- ==== Sys2Proof/Proofs/Doorbells.lean ====
section
/-!
PROOFS. Doorbells of host rings (R105) and entries held back by a full ring (R106, R271).
-/
namespace Sys2Proof.Proofs.Doorbells

open Sys2Proof.Machine

/-! ### The commands' meanings -/

theorem exec_ringPdb (i : Fin 64) (v : Word) (s : State) :
    exec (.ringPdb i v) s = .next (effRingPdb i.val v s).finish := rfl

theorem exec_ringCdb (i : Fin 64) (v : Word) (s : State) :
    exec (.ringCdb i v) s = .next (effRingCdb i.val v s).finish := rfl

theorem exec_stalledPushResume (i : Fin 64) (s : State) :
    exec (.stalledPushResume i) s = .next (effStalledPushResume i.val s).finish := rfl

/-! ### Roles of rings (R103) -/

theorem ringRole_eq_hsub (n : Nat) : ringRole n = 0 ↔ n < 16 := by
  unfold ringRole
  omega

theorem ringRole_eq_hcpl (n : Nat) : ringRole n = 1 ↔ 16 ≤ n ∧ n < 32 := by
  unfold ringRole
  omega

/-! ### Doorbells (R105) -/

section doorbells
variable {s : State} {n : Nat} {v : Word} {r : Ring}

theorem effRingPdb_closed (hr : Tab.get s.rings n = none) : effRingPdb n v s = s.doorbellErr n := by
  simp only [effRingPdb, hr]

theorem effRingCdb_closed (hr : Tab.get s.rings n = none) : effRingCdb n v s = s.doorbellErr n := by
  simp only [effRingCdb, hr]

theorem effRingPdb_refused (hr : Tab.get s.rings n = some r)
    (hbad : 16 ≤ n ∨ r.error = true ∨ r.size - r.count < (v.toNat + 2 ^ 32 - r.prod) % 2 ^ 32) :
    effRingPdb n v s = s.doorbellErr n := by
  simp only [effRingPdb, hr, ne_eq, ringRole_eq_hsub, Nat.not_lt, if_pos hbad]

theorem effRingCdb_refused (hr : Tab.get s.rings n = some r)
    (hbad : n < 16 ∨ 32 ≤ n ∨ r.error = true ∨ r.count < (v.toNat + 2 ^ 32 - r.cons) % 2 ^ 32) :
    effRingCdb n v s = s.doorbellErr n := by
  simp only [effRingCdb, hr, ne_eq, ringRole_eq_hcpl, not_and_or, Nat.not_le, Nat.not_lt, or_assoc, if_pos hbad]

/-- An accepted doorbell moves PROD; one that repeats PROD publishes nothing. -/
theorem effRingPdb_accepted (hr : Tab.get s.rings n = some r)
    (hgood : n < 16 ∧ r.error = false ∧ (v.toNat + 2 ^ 32 - r.prod) % 2 ^ 32 ≤ r.size - r.count) :
    effRingPdb n v s =
      let t : State := { s with rings := Tab.put s.rings n { r with prod := v.toNat } }
      if v.toNat = r.prod then t else t.notify 0x04 n (2 ^ r.nebit) := by
  obtain ⟨hn, he, hroom⟩ := hgood
  have hc : ¬ (ringRole n ≠ 0 ∨ r.error = true ∨ r.size - r.count < (v.toNat + 2 ^ 32 - r.prod) % 2 ^ 32) := by
    rintro (hrole | herr | hlt)
    · exact hrole ((ringRole_eq_hsub n).mpr hn)
    · exact Bool.false_ne_true (he.symm.trans herr)
    · exact Nat.not_lt.mpr hroom hlt
  simp only [effRingPdb, hr, if_neg hc]

theorem effRingCdb_accepted (hr : Tab.get s.rings n = some r)
    (hgood : 16 ≤ n ∧ n < 32 ∧ r.error = false ∧ (v.toNat + 2 ^ 32 - r.cons) % 2 ^ 32 ≤ r.count) :
    effRingCdb n v s = { s with rings := Tab.put s.rings n { r with cons := v.toNat } } := by
  obtain ⟨hlo, hhi, he, hup⟩ := hgood
  have hc : ¬ (ringRole n ≠ 1 ∨ r.error = true ∨ r.count < (v.toNat + 2 ^ 32 - r.cons) % 2 ^ 32) := by
    rintro (hrole | herr | hlt)
    · exact hrole ((ringRole_eq_hcpl n).mpr ⟨hlo, hhi⟩)
    · exact Bool.false_ne_true (he.symm.trans herr)
    · exact Nat.not_lt.mpr hup hlt
  simp only [effRingCdb, hr, if_neg hc]

end doorbells

/-! ### Entries held back (R106, R271) -/

section stalled
variable {s : State} {n : Nat} {r : Ring} {e : StalledPush}

theorem effStalledPushResume_none (hs : s.stalled.find? (fun e => e.ring == n) = none) :
    effStalledPushResume n s = s.pushCpls := by
  simp only [effStalledPushResume, hs]

theorem effStalledPushResume_error (hs : s.stalled.find? (fun e => e.ring == n) = some e)
    (hr : Tab.get s.rings n = some r) (he : r.error = true) : effStalledPushResume n s = s.dropStalled n := by
  simp only [effStalledPushResume, hs, hr, he, if_true]

theorem effStalledPushResume_full (hs : s.stalled.find? (fun e => e.ring == n) = some e)
    (hr : Tab.get s.rings n = some r) (he : r.error = false) (hfull : r.size ≤ r.count) :
    effStalledPushResume n s = s := by
  simp only [effStalledPushResume, hs, hr, he, Nat.not_lt.mpr hfull, Bool.false_eq_true, if_false]

theorem effStalledPushResume_room (hs : s.stalled.find? (fun e => e.ring == n) = some e)
    (hr : Tab.get s.rings n = some r) (he : r.error = false) (hroom : r.count < r.size) :
    effStalledPushResume n s =
      let t := State.ringAppend { s with stalled := s.stalled.erase e } n r e.entry
      if e.producer = .storage then t.pushCpls else t := by
  simp only [effStalledPushResume, hs, hr, he, hroom, Bool.false_eq_true, if_false, if_true]

end stalled

/-! ### The obligation -/

/-- Settles O40: a doorbell's four answers and a held-back entry's four are the branches of their effects, with the role
read as the ring's number. -/
theorem doorbells : Obligations.Doorbells := by
  unfold Obligations.Doorbells
  intro s i v next err
  refine ⟨fun hr => ?closed, fun hs => ?noneHeld, fun r hr => ?opened⟩
  case closed =>
    rw [exec_ringPdb, exec_ringCdb, effRingPdb_closed hr, effRingCdb_closed hr]
    exact ⟨rfl, rfl⟩
  case noneHeld => rw [exec_stalledPushResume, effStalledPushResume_none hs]
  case opened =>
    intro put up
    rw [exec_ringPdb, exec_ringCdb, exec_stalledPushResume]
    refine ⟨?produce, fun hbad => ?noProduce, ?consume, fun hbad => ?noConsume, fun e hs => ⟨?dropped, ?waits, ?enters⟩⟩
    case produce =>
      intro hgood
      rw [effRingPdb_accepted hr hgood]
      refine ⟨fun hv => ?_, fun hv => ?_⟩
      · rw [if_pos hv, hv]
      · rw [if_neg hv]
    case noProduce => rw [effRingPdb_refused hr hbad]; rfl
    case consume => intro hgood; rw [effRingCdb_accepted hr hgood]
    case noConsume => rw [effRingCdb_refused hr hbad]; rfl
    case dropped => intro he; rw [effStalledPushResume_error hs hr he]
    case waits =>
      rintro ⟨he, hfull⟩
      rw [effStalledPushResume_full hs hr he hfull]
    case enters =>
      rintro ⟨he, hroom⟩
      rw [effStalledPushResume_room hs hr he hroom]

end Sys2Proof.Proofs.Doorbells
end

