-- ==== Sys2Proof/Proofs/FaultOutputs.lean ====
section
/-!
PROOFS. The open incident (R438), the fault outputs (R442, R443) and their watchdog (R444).
-/
namespace Sys2Proof.Proofs.FaultOutputs

open Sys2Proof.Machine
open Sys2Proof.Laws.Writes

/-! ### The commands' meanings -/

section meanings
variable (v : Word) (s : State)

theorem exec_incidentEscalation : exec .incidentEscalation s = .next (effIncidentEscalation s).finish := rfl

theorem exec_incClr : exec (.incClr v) s = .next (effIncClr v s).finish := rfl

theorem exec_healthySet : exec (.healthySet v) s = .next (effFltCtrl v s).finish := rfl

theorem exec_fltKick : exec (.fltKick v) s = .next (effFltKick s).finish := rfl

theorem exec_fltWatchdogExpiry : exec .fltWatchdogExpiry s = .next (effFltWatchdogExpiry s).finish := rfl

theorem exec_aliveToggle : exec .aliveToggle s = .next (effAliveToggle s).finish := rfl

end meanings

/-! ### Incidents (R438) -/

section incidents
variable {v : Word} {s : State}

theorem effIncidentEscalation_idle (h : s.flag F.FLT_INC_OPEN = false ∨ s.now < s.flt.incDeadline) :
    effIncidentEscalation s = s := if_pos h

theorem effIncidentEscalation_due (ho : s.flag F.FLT_INC_OPEN = true) (hd : s.flt.incDeadline ≤ s.now) :
    effIncidentEscalation s =
      (let src := s.fld F.FLT_INC_INC_SRC
      let set := s.flt.incReact
      let merged := s.fld F.FLT_INC_MERGED
      let c := (((s.clrFlag F.FLT_INC_OPEN).setFlag F.FLT_INC_ESCALATED).raise 16).unhealthy
      ((c.notice src 3 set merged).sillage 5 (leBytes 2 src ++ leBytes 1 set ++ leBytes 2 merged)).react set) := by
  have hlate : ¬ (s.flag F.FLT_INC_OPEN = false ∨ s.now < s.flt.incDeadline) := by simp [ho, hd]
  exact if_neg hlate

theorem effIncClr_ignored (h : s.flag F.FLT_INC_OPEN = false ∨ F.FLT_INC_CLR_SRC.of v ≠ s.fld F.FLT_INC_INC_SRC
    ∨ F.FLT_INC_CLR_KEY.of v ≠ 0x5A) : effIncClr v s = s := if_pos h

theorem effIncClr_taken (ho : s.flag F.FLT_INC_OPEN = true) (hsrc : F.FLT_INC_CLR_SRC.of v = s.fld F.FLT_INC_INC_SRC)
    (hkey : F.FLT_INC_CLR_KEY.of v = 0x5A) :
    effIncClr v s = if s.flt.incDeadline ≤ s.now then effIncidentEscalation s
      else (s.clrFlag F.FLT_INC_OPEN).notice (s.fld F.FLT_INC_INC_SRC) 4 0 (s.fld F.FLT_INC_MERGED) := by
  have hvalid : ¬ (s.flag F.FLT_INC_OPEN = false ∨ F.FLT_INC_CLR_SRC.of v ≠ s.fld F.FLT_INC_INC_SRC
      ∨ F.FLT_INC_CLR_KEY.of v ≠ 0x5A) := by simp [ho, hsrc, hkey]
  exact if_neg hvalid

end incidents

/-! ### A write of FLT_CTRL (R442, R444) -/

section control
variable (v : Word) (s : State)

theorem plainWrite_flt (k : Nat) : (s.plainWrite k v).flt = s.flt := by
  unfold State.plainWrite
  cases findReg (k / 0x10000) (k % 0x10000) <;> rfl

theorem healthy_of_eq_one : F.FLT_CTRL_HEALTHY.of v = 1 ↔ v.getLsbD 0 = true := by
  rw [getLsbD_bits, beq_iff_eq]
  rfl

/-- What every write of FLT_CTRL stores: the register by its access codes, and a new start of the watchdog's time when
WDOG was 0 (log entry 141) or the write sets HEALTHY. -/
def ctrlStored : State :=
  (s.plainWrite R.FLT_CTRL v).modFlt (fun f => { f with
    kickAt := if s.fld F.FLT_CTRL_WDOG = 0 ∨ v.getLsbD 0 = true ∧ s.flag F.FLT_CTRL_HEALTHY = false then s.now
      else f.kickAt })

theorem effFltCtrl_eq :
    effFltCtrl v s = if v.getLsbD 0 = true then (ctrlStored v s).clrFlag F.FLT_PINS_BLANKED else ctrlStored v s := by
  unfold effFltCtrl ctrlStored
  simp only [healthy_of_eq_one]
  by_cases hw : s.fld F.FLT_CTRL_WDOG = 0
  · simp only [hw, true_or, if_true]
    split
    · cases s.flag F.FLT_CTRL_HEALTHY <;> rfl
    · rfl
  · simp only [hw, false_or, if_false]
    split
    case isTrue hv =>
      simp only [hv, true_and]
      cases s.flag F.FLT_CTRL_HEALTHY <;> rfl
    case isFalse hv =>
      simp only [hv]
      rfl

theorem effFltCtrl_healthy :
    (effFltCtrl v s).flag F.FLT_CTRL_HEALTHY = (s.flag F.FLT_CTRL_HEALTHY || v.getLsbD 0) := by
  have hstored : (ctrlStored v s).flag F.FLT_CTRL_HEALTHY = (s.flag F.FLT_CTRL_HEALTHY || v.getLsbD 0) :=
    plainWrite_w1s s F.FLT_CTRL_HEALTHY v (by decide)
  rw [effFltCtrl_eq]
  split
  · exact (State.flag_setFld_apart _ _ _ _ (by decide) (by decide)).trans hstored
  · exact hstored

theorem effFltCtrl_wdog : (effFltCtrl v s).fld F.FLT_CTRL_WDOG = bits v.toNat 8 8 := by
  have hstored : (ctrlStored v s).fld F.FLT_CTRL_WDOG = bits v.toNat 8 8 :=
    plainWrite_bits s R.FLT_CTRL v ⟨8, 8, .rw, false, 0⟩ (by decide)
  rw [effFltCtrl_eq]
  split
  · exact (State.fld_setFld_apart _ _ _ _ (by decide) (by decide)).trans hstored
  · exact hstored

theorem effFltCtrl_unblanks (hv : v.getLsbD 0 = true) : (effFltCtrl v s).flag F.FLT_PINS_BLANKED = false := by
  rw [effFltCtrl_eq, if_pos hv]
  exact State.flag_clrFlag _ _ (by decide) rfl

theorem effFltCtrl_flt :
    (effFltCtrl v s).flt = { s.flt with
      kickAt := if s.fld F.FLT_CTRL_WDOG = 0 ∨ v.getLsbD 0 = true ∧ s.flag F.FLT_CTRL_HEALTHY = false then s.now
        else s.flt.kickAt } := by
  have hstored : (effFltCtrl v s).flt = (ctrlStored v s).flt := by
    rw [effFltCtrl_eq]
    split <;> rfl
  rw [hstored, ctrlStored, State.modFlt, plainWrite_flt]

end control

/-! ### The watchdog (R444) and ALIVE (R443) -/

section outputs
variable {s : State}

theorem effFltWatchdogExpiry_idle (h : s.fld F.FLT_CTRL_WDOG = 0 ∨ s.flag F.FLT_CTRL_HEALTHY = false
    ∨ s.now < s.flt.kickAt + s.fld F.FLT_CTRL_WDOG * 1000000) : effFltWatchdogExpiry s = s := if_pos h

theorem effFltWatchdogExpiry_due (hw : s.fld F.FLT_CTRL_WDOG ≠ 0) (hh : s.flag F.FLT_CTRL_HEALTHY = true)
    (hd : s.flt.kickAt + s.fld F.FLT_CTRL_WDOG * 1000000 ≤ s.now) :
    effFltWatchdogExpiry s = ((s.setFlag F.FLT_PINS_WDOG_EXP).raise 17).unhealthy := by
  have hexp : ¬ (s.fld F.FLT_CTRL_WDOG = 0 ∨ s.flag F.FLT_CTRL_HEALTHY = false
      ∨ s.now < s.flt.kickAt + s.fld F.FLT_CTRL_WDOG * 1000000) := by simp [hw, hh, hd]
  exact if_neg hexp

theorem effAliveToggle_idle (h : s.now % 500000 ≠ 0 ∨ s.flt.aliveAt = some s.now) : effAliveToggle s = s := if_pos h

theorem effAliveToggle_point (hp : s.now % 500000 = 0) (hn : s.flt.aliveAt ≠ some s.now) :
    effAliveToggle s = s.modFlt (fun f => { f with
      aliveAt := some s.now, alive := s.flag F.FLT_CTRL_HEALTHY && s.flag F.FLT_CTRL_ALIVE_EN && !f.alive }) := by
  have hpoint : ¬ (s.now % 500000 ≠ 0 ∨ s.flt.aliveAt = some s.now) := by simp [hp, hn]
  exact if_neg hpoint

end outputs

/-! ### The obligation -/

/-- Settles O59: each command's cases are the branches of its effect; the fields of FLT_CTRL follow their access codes,
and clearing BLANKED, in FLT_PINS, leaves them alone. -/
theorem incidentsAndOutputs : Obligations.IncidentsAndOutputs := by
  unfold Obligations.IncidentsAndOutputs
  intro s v next
  refine ⟨fun h => ?notYet, ⟨?escalates, ?closes, fun h => ?ignored⟩, ?control, exec_fltKick v s,
    ⟨fun h => ?noExpiry, ?expires⟩, fun h => ?noToggle, ?toggles⟩
  case notYet => rw [exec_incidentEscalation, effIncidentEscalation_idle h]
  case escalates =>
    rintro ⟨ho, hd⟩
    refine ⟨?_, ?_⟩
    · rw [exec_incidentEscalation, effIncidentEscalation_due ho hd]; rfl
    · rintro ⟨hsrc, hkey⟩
      rw [exec_incClr, effIncClr_taken ho hsrc hkey, if_pos hd, effIncidentEscalation_due ho hd]; rfl
  case closes =>
    rintro ⟨ho, ht, hsrc, hkey⟩
    rw [exec_incClr, effIncClr_taken ho hsrc hkey, if_neg (Nat.not_le.mpr ht)]
  case ignored => rw [exec_incClr, effIncClr_ignored h]
  case control =>
    exact ⟨effFltCtrl v s, exec_healthySet v s, effFltCtrl_healthy v s, effFltCtrl_wdog v s, effFltCtrl_unblanks v s,
      effFltCtrl_flt v s⟩
  case noExpiry => rw [exec_fltWatchdogExpiry, effFltWatchdogExpiry_idle h]
  case expires =>
    rintro ⟨hw, hh, hd⟩
    obtain ⟨t, ht, hpin, hfell, hraised⟩ := Laws.Faults.wd s
    refine ⟨t, ?_, hpin, hfell, hraised⟩
    rw [exec_fltWatchdogExpiry, effFltWatchdogExpiry_due hw hh hd, ht]
  case noToggle => rw [exec_aliveToggle, effAliveToggle_idle h]
  case toggles =>
    rintro ⟨hp, hn⟩
    rw [exec_aliveToggle, effAliveToggle_point hp hn]

end Sys2Proof.Proofs.FaultOutputs
end

