-- ==== Sys2Proof/Proofs/Block.lean ====
section
/-!
PROOFS. The block of commands: a step, the outputs that stand after it (R183, R486), and a state where nothing is due.
-/
namespace Sys2Proof.Proofs.Block

open Sys2Proof.Machine
open Sys2Proof.Laws.Drive

/-! ### A step -/

theorem step_front {s : State} {c : Instr} {rest : List Instr} (h : s.pending = c :: rest) :
    step s = exec c { s with pending := rest } := by
  unfold step
  rw [h]

theorem step_empty {s : State} (h : s.pending = []) : step s = .next (idle s) := by
  unfold step
  rw [h]

/-- Where nothing drives a half-bridge, none follows press time. -/
theorem powerEdges_undriven {s : State} (hm : ∀ n < 16, (vget s.mots n).driven = false)
    (hi : ∀ j < 2, (vget s.invs j).running = false) : s.powerEdges = s := by
  unfold State.powerEdges
  rw [each_id s (List.range 16) _ (fun n hn => by rw [hm n (List.mem_range.mp hn), Bool.and_false]; rfl)]
  refine each_id s _ _ (fun k hk => ?_)
  have hj : (k - 24) / 2 < 2 := by
    simp only [List.mem_cons, List.not_mem_nil, or_false] at hk
    omega
  rw [hi _ hj, Bool.and_false]
  rfl

/-- Settles O1: the front of the queue runs on the rest; an idle step changes press time, and then only what follows the
half-bridges' sources. That 1 ns passes when no command waits is the model's choice (log entry 2). -/
theorem stepRunsFront : Obligations.StepRunsFront := by
  unfold Obligations.StepRunsFront
  refine fun s c rest => ⟨step_front, fun h => ?ticks, fun h hm hi => ?undriven⟩
  case ticks =>
    obtain ⟨hframe, hreg⟩ := powerEdges_only { s with ptime := s.ptime + 1 }
    exact ⟨idle s, step_empty h, hframe, hreg⟩
  case undriven =>
    rw [step_empty h]
    exact congrArg _ (powerEdges_undriven hm hi)

/-! ### The outputs after a step (R183, R486) -/

/-- Whatever a command does, the outputs that hardware derives are set last: every arm of the dispatch ends in
`State.finish` or `State.collect`, and both end in `State.outputs`. -/
theorem exec_ends_in_outputs (c : Instr) (s : State) : ∃ u : State, exec c s = .next u.outputs := by
  cases c <;> exact ⟨_, rfl⟩

theorem exec_safe {c : Instr} {s t : State} (h : exec c s = .next t) : t.OutputsSafe := by
  obtain ⟨u, hu⟩ := exec_ends_in_outputs c s
  obtain rfl : u.outputs = t := by
    rw [hu] at h
    exact Host.Outcome.next.inj h
  exact outputs_safe u

/-- Press time and the half-bridges touch neither a condition of the laser enables nor boundary scan. -/
theorem safe_of_onlyBridges {s t : State} (h : OnlyBridges s t) (hs : s.OutputsSafe) : t.OutputsSafe := by
  obtain ⟨hframe, hreg⟩ := h
  have hilk : t.reg R.ILK_STATUS = s.reg R.ILK_STATUS := hreg _ (fun k => by simp only [R.ILK_STATUS, R.GDR_HB_STATUS]; omega)
  have hpwr : t.reg R.PWR_STATUS = s.reg R.PWR_STATUS := hreg _ (fun k => by simp only [R.PWR_STATUS, R.GDR_HB_STATUS]; omega)
  have hst : t.ilk = s.ilk ∧ t.pwr = s.pwr ∧ t.jtag = s.jtag := by
    rw [hframe]
    exact ⟨rfl, rfl, rfl⟩
  obtain ⟨hloops, hpower, hscanned⟩ := hst
  have hdry : t.drying = s.drying := by simp only [State.drying, hpower]
  have hclosed : ∀ i, t.loopClosed i = s.loopClosed i := fun i => by
    simp only [State.loopClosed, State.fld, F.ILK_STATUS_LOOPA, F.ILK_STATUS_LOOPB, hilk]
  have htakes : t.scanTakesPins = s.scanTakesPins := by
    simp only [State.scanTakesPins, State.fld, F.PWR_STATUS_STATE, hpwr, hpower]
  obtain ⟨hlasers, hscan⟩ := hs
  refine ⟨fun i hi => ?_, fun hpins => ?_⟩
  · rw [hclosed, hloops, hdry, ← hlasers i hi]
    simp only [State.fld, F.ILK_STATUS_LASER, hilk]
  · rw [htakes]
    exact hscan (hscanned ▸ hpins)

/-- Settles O2: a command sets the outputs last of all, and an idle step leaves their conditions alone. -/
theorem outputsSafeInvariant : Obligations.OutputsSafeInvariant := by
  unfold Obligations.OutputsSafeInvariant
  intro s t hs hstep
  cases hp : s.pending with
  | nil =>
    rw [step_empty hp] at hstep
    obtain rfl : idle s = t := Host.Outcome.next.inj hstep
    have htick : State.OutputsSafe { s with ptime := s.ptime + 1 } := hs
    exact safe_of_onlyBridges (powerEdges_only _) htick
  | cons c rest =>
    rw [step_front hp] at hstep
    exact exec_safe hstep

/-! ### A state where nothing is due -/

/-- The reset state, where nothing is due. -/
theorem reset_still : State.reset.Still where
  web := by decide
  lock := by decide
  state := rfl
  handover := rfl
  fwsq := .inl (by decide)
  loops := rfl
  mots := fun n hn => by
    have hidle : (vget State.reset.mots n).state ≠ .run := by
      have h : ∀ n < 16, (vget State.reset.mots n).state ≠ .run := by decide
      exact h n hn
    exact if_pos hidle
  replace := by decide
  calm := rfl
  safe := ⟨by unfold State.lasersFollow; decide, fun h => absurd h (by decide)⟩

/-- Settles O3: the reset state is closed, so each condition is computed. -/
theorem resetIsStill : Obligations.ResetIsStill :=
  ⟨rfl, reset_still, ⟨rfl, rfl⟩, reset_wf⟩

/-- Settles O4: each effect that may follow a command is the identity where its condition is false. -/
theorem stillIsKept : Obligations.StillIsKept := finish_still

end Sys2Proof.Proofs.Block
end

