-- ==== Sys2Proof/Proofs/RegisterSpace.lean ====
section
/-!
PROOFS. Memory as its requesters find it (R231), the fused presence (R1 to R3), and register space: how an access is
judged (R488), what a write and a read do (R12, R13, R42 to R44), and a core's local RAM seen by another requester (R54).
-/
namespace Sys2Proof.Proofs.RegisterSpace

open Sys2Proof.Machine

/-- Settles O5: the memory operations' laws, put together. -/
theorem memoryBytes : Obligations.MemoryBytes := by
  unfold Obligations.MemoryBytes
  intro s req a c k v l
  exact ⟨State.rd8_wrBytes s a l c, State.rdLe_wrLe s a k v,
    fun h => ⟨State.wf_wrBytes s a l h, State.wf_memWrite s req a l h, State.wf_memRead s req a k h⟩⟩

/-! ### The fused presence -/

theorem regSpecial_presence (fu : Fuses) : regSpecial fu R.SYS_PRESENCE = some (presenceWord fu.variant) := by
  unfold regSpecial
  exact (if_pos (by decide)).trans (if_pos (by decide))

/-- At reset SYS_PRESENCE holds the fused variant's word. -/
theorem presence_reset {s : State} (h : s.regs = []) : s.reg R.SYS_PRESENCE = BitVec.ofNat 32 (presenceWord s.variant) := by
  rw [State.reg, h, Tab.getD, Tab.get, Option.getD_none, regReset, regSpecial_presence, Option.getD_some]
  rfl

/-- The presence word counts the variant's units from the lowest number. -/
theorem presenceWord_bits (x : Variant) :
    let w := (BitVec.ofNat 32 (presenceWord x)).toNat
    (∀ i < 4, bit (bits w 0 4) i = decide (i < x.stations) ∧ bit (bits w 4 4) i = decide (i < x.hdas)
      ∧ bit (bits w 16 4) i = decide (i < x.cameras))
    ∧ (∀ i < 8, bit (bits w 8 8) i = decide (i < 2 * x.hdas)) ∧ bit w 20 = x.accord := by
  cases x <;> decide

/-- Settles O6: the presence bits of each of the twelve variants are computed. The severities that the title names have no
clause in the statement. -/
theorem fusedPresence : Obligations.FusedPresence := by
  unfold Obligations.FusedPresence
  intro s h
  obtain ⟨hunits, hdch, haccord⟩ := presenceWord_bits s.variant
  refine ⟨fun i hi => ?units, fun i hi => ?channels, ?accord, fun i hi => ?crisal, fun i hi => ?servo⟩
  case units =>
    simp only [State.fld, F.SYS_PRESENCE_STN, F.SYS_PRESENCE_HDA, F.SYS_PRESENCE_CAM, presence_reset h]
    exact hunits i hi
  case channels =>
    simp only [State.fld, F.SYS_PRESENCE_DCH, presence_reset h]
    exact hdch i hi
  case accord =>
    simp only [State.flag, F.SYS_PRESENCE_ACCORD, presence_reset h]
    exact haccord
  case crisal => simp [State.hasCore, hi]
  case servo =>
    have hn : ¬ 16 + i < 16 := by omega
    have hc : 16 + i < 24 := by omega
    simp [State.hasCore, hn, hc]

/-! ### How an access is judged (R488) -/

theorem region_regs (s : State) {k : Nat} (hk : k < 0x1000000) : s.region (regBase + k) = .regs := by
  unfold State.region
  have hm : mramBase = 0x1000000000 := rfl
  have hr : ramBase = 0x1100000000 := rfl
  have hg : regBase = 0x1200000000 := rfl
  rw [if_neg (by omega), if_neg (by omega), if_neg (by omega), if_neg (by omega), if_neg (by omega), if_pos (by omega)]

theorem exec_registerAccess (req : Requester) (addr : BitVec 40) (size : AccSize) (write : Bool) (v : Word) (s : State) :
    exec (.registerAccess req addr size write v) s
      = .next (effRegisterAccess req addr.toNat size.bytes write v s).finish := rfl

theorem exec_rcRead (off : BitVec 24) (s : State) : exec (.rcRead off) s = .next (s.busRead off.toNat).finish := rfl

theorem exec_ptimeLoRead (s : State) : exec .ptimeLoRead s = .next (s.busRead R.SYS_PTIME_LO).finish := rfl

/-- An access to register space is the access at its offset, answered to the field bus. -/
theorem exec_registerAccess_at {req : Requester} {addr : BitVec 40} {size : AccSize} {write : Bool} {v : Word} {s : State}
    {k : Nat} (ha : addr.toNat = 0x1200000000 + k) (hk : k < 0x1000000) :
    exec (.registerAccess req addr size write v) s
      = .next (s.answer (s.regAccess (req == .talosh) k size.bytes write v)).finish := by
  have hbase : addr.toNat = regBase + k := ha
  rw [exec_registerAccess, effRegisterAccess, hbase, if_pos (region_regs s hk), Nat.add_sub_cancel_left]

section judged
variable {s : State} {k : Nat}

theorem regAccess_unmapped (t : Bool) (bytes : Nat) (write : Bool) (v : Word) (h : windowMapped (k / 0x10000) = false) :
    s.regAccess t k bytes write v = (s, none) := if_pos h

theorem regAccess_absent (t : Bool) (bytes : Nat) (write : Bool) (v : Word) (hm : windowMapped (k / 0x10000) = true)
    (hp : s.windowPresent (k / 0x10000) = false) :
    s.regAccess t k bytes write v = (if write then s.raise 5 else s, some 0) := by
  unfold State.regAccess
  rw [hm, if_neg (by decide), if_pos hp]
  cases write <;> rfl

theorem regAccess_misaligned (t : Bool) {bytes : Nat} (write : Bool) (v : Word) (hm : windowMapped (k / 0x10000) = true)
    (hp : s.windowPresent (k / 0x10000) = true) (ha : bytes ≠ 4 ∨ k % 4 ≠ 0) :
    s.regAccess t k bytes write v = (s.raise 6, some 0) := by
  unfold State.regAccess
  rw [hm, hp, if_neg (by decide), if_neg (by decide), if_pos ha]

theorem regAccess_write (t : Bool) (v : Word) (hm : windowMapped (k / 0x10000) = true)
    (hp : s.windowPresent (k / 0x10000) = true) (ha : k % 4 = 0) :
    s.regAccess t k 4 true v = (s.wrWindow t k v, some 0) := by
  unfold State.regAccess
  rw [hm, hp, if_neg (by decide), if_neg (by decide), if_neg (by omega)]
  rfl

theorem regAccess_read (t : Bool) (v : Word) (hm : windowMapped (k / 0x10000) = true)
    (hp : s.windowPresent (k / 0x10000) = true) (ha : k % 4 = 0) :
    s.regAccess t k 4 false v = ((s.regRead k).1, some (s.regRead k).2) := by
  unfold State.regAccess
  rw [hm, hp, if_neg (by decide), if_neg (by decide), if_neg (by omega)]
  rfl

end judged

theorem bytes_eq_four_iff (size : AccSize) : size.bytes = 4 ↔ size = .word := by
  cases size <;> decide

/-- Settles O7: the three judgements in their order: mapped, present, an aligned word. -/
theorem accessJudged : Obligations.AccessJudged := by
  unfold Obligations.AccessJudged
  intro s req addr size write v k ha hk answer
  rw [exec_registerAccess_at ha hk]
  refine ⟨fun hu => ?unmapped, ?absent, ?misaligned⟩
  case unmapped => rw [regAccess_unmapped _ _ _ _ hu]; rfl
  case absent =>
    rintro ⟨hm, hp⟩
    rw [regAccess_absent _ _ _ _ hm hp]
    rfl
  case misaligned =>
    rintro ⟨hm, hp, hbad⟩
    rw [regAccess_misaligned _ _ _ hm hp (hbad.imp_left (mt (bytes_eq_four_iff size).mp))]
    rfl

/-- Settles O8: each field is written in its turn by its access code, and the fields of a register are apart. -/
theorem accessCodes : Obligations.AccessCodes := by
  unfold Obligations.AccessCodes
  intro s k v r f hr hf o w
  refine ⟨?_, fun j hj => State.plainWrite_other s j k v hj⟩
  rw [State.plainWrite_field s k v r f hr hf]
  rfl

/-! ### Registers of a core, and press time -/

/-- CRSn_ENTRY, CRSn_ECC_CNT: where a core's registers stand, and what the table of R81 lists there. -/
theorem crs_window (n : Fin 24) (o : Nat) (ho : o < 0x10000) :
    (0x80000 + o + 0x10000 * n.val) / 0x10000 = 8 + n.val ∧ (0x80000 + o + 0x10000 * n.val) % 0x10000 = o := by
  omega

theorem findReg_entry : ∀ n : Fin 24, findReg (8 + n.val) 0x8 = some ⟨0x8, 0x4, 1, [⟨2, 14, .wl, false, 0⟩]⟩ := by decide

theorem findReg_eccCnt : ∀ n : Fin 24,
    findReg (8 + n.val) 0x20 = some ⟨0x20, 0x4, 1, [⟨0, 16, .rc, false, 0⟩, ⟨16, 16, .rc, false, 0⟩]⟩ := by decide

theorem windowMapped_crs : ∀ n : Fin 24, windowMapped (8 + n.val) = true := by decide

theorem windowPresent_crs (s : State) (n : Fin 24) : s.windowPresent (8 + n.val) = s.hasCore n.val := by
  unfold State.windowPresent
  rw [if_pos (by omega), Nat.add_sub_cancel_left]

/-- A register of core `n`, by its offset in the core's window: its window is mapped, and is present as the core is. -/
theorem crs_access {s : State} {n : Fin 24} (o : Nat) (ho : o < 0x10000) (hn : s.hasCore n.val = true) :
    let k := 0x80000 + o + 0x10000 * n.val
    windowMapped (k / 0x10000) = true ∧ s.windowPresent (k / 0x10000) = true := by
  intro k
  rw [(crs_window n o ho).1]
  exact ⟨windowMapped_crs n, (windowPresent_crs s n).trans hn⟩

theorem wrWindow_crs (s : State) (t : Bool) (n : Fin 24) {o : Nat} (ho : o < 0x10000) (v : Word) :
    s.wrWindow t (0x80000 + o + 0x10000 * n.val) v = s.wrCrs n.val o v := by
  obtain ⟨hw, hoff⟩ := crs_window n o ho
  unfold State.wrWindow
  simp only [hw, hoff]
  iterate 7 rw [if_neg (by omega)]
  rw [if_pos (by omega), Nat.add_sub_cancel_left]

theorem readOverlay_crs (s : State) (n : Fin 24) {o : Nat} (ho : o < 0x10000) :
    s.readOverlay (0x80000 + o + 0x10000 * n.val) = s.readCrs n.val o := by
  obtain ⟨hw, hoff⟩ := crs_window n o ho
  unfold State.readOverlay
  simp only [hw, hoff]
  iterate 5 rw [if_neg (by omega)]
  rw [if_pos (by omega), Nat.add_sub_cancel_left]

/-- A read of a core's register does nothing but clear its RC fields. -/
theorem readEffect_crs (s : State) (n : Fin 24) {o : Nat} (ho : o < 0x10000) (v : Nat) :
    let k := 0x80000 + o + 0x10000 * n.val
    s.readEffect k v = if rcMask k = 0 then s else
      s.setReg k (BitVec.ofNat 32 ((s.reg k).toNat - ((s.reg k).toNat &&& rcMask k))) := by
  intro k
  have hk : k = 0x80000 + o + 0x10000 * n.val := rfl
  unfold State.readEffect
  dsimp only
  rw [if_neg (by simp only [R.SYS_PTIME_LO]; omega), if_neg (by omega), if_neg (by omega), if_neg (by omega)]

/-- A number under the mask of a field is the field in its place. -/
theorem and_field (a lo w : Nat) : a &&& ((2 ^ w - 1) * 2 ^ lo) = bits a lo w * 2 ^ lo := by
  apply Nat.eq_of_testBit_eq
  intro i
  rw [Nat.testBit_and, Nat.testBit_mul_two_pow, Nat.testBit_mul_two_pow, Nat.testBit_two_pow_sub_one, bits_testBit]
  by_cases h : lo ≤ i
  · simp [h, Bool.and_comm]
  · simp [h]

theorem and_low (a w : Nat) : a &&& (2 ^ w - 1) = a % 2 ^ w := Nat.and_two_pow_sub_one_eq_mod a w

/-- The word under the mask of all its bits. -/
theorem and_word (w : Word) : w.toNat &&& 0xFFFFFFFF = w.toNat :=
  (and_low w.toNat 32).trans (Nat.mod_eq_of_lt w.isLt)

/-- A register of which no bit stands outside `regs` reads as its readable bits. -/
theorem regWord_plain {s : State} {k : Nat} (h : s.readOverlay k = (0, 0)) :
    s.regWord k = (s.reg k).toNat &&& readMask k := by
  simp only [State.regWord, h, Nat.and_zero, Nat.sub_zero, Nat.add_zero]

/-- CRSn_ENTRY takes the 14 bits written unless CRSn_LOCK is set (R81). -/
theorem plainWrite_entry (s : State) (n : Fin 24) (v : Word) :
    let k := R.CRS_ENTRY n.val
    s.plainWrite k v = s.setReg k (if s.flag (F.CRS_LOCK_LOCK n.val) then s.reg k
      else BitVec.ofNat 32 (setBits (s.reg k).toNat 2 14 (v.toNat / 4))) := by
  intro k
  have hk : k = 0x80000 + 8 + 0x10000 * n.val := rfl
  obtain ⟨hw, hoff⟩ := crs_window n 8 (by decide)
  have hlock : s.locked (8 + n.val) = s.flag (F.CRS_LOCK_LOCK n.val) := by
    unfold State.locked lockKey
    rw [if_pos (by omega), Nat.add_sub_cancel_left]
    rfl
  have hval : setBits (s.reg k).toNat 2 14 (bits v.toNat 2 14) = setBits (s.reg k).toNat 2 14 (v.toNat / 4) := by
    simp only [setBits, bits, Nat.mod_mod, Nat.reducePow]
  unfold State.plainWrite
  rw [hk, hw, hoff, findReg_entry n, ← hk]
  simp only [List.foldl_cons, List.foldl_nil, RegField.write, hlock, hval]
  split
  · rw [BitVec.ofNat_toNat, BitVec.setWidth_eq]
  · rfl

/-- A read of CRSn_ENTRY gives its 14 bits and does nothing else. -/
theorem regRead_entry (s : State) (n : Fin 24) :
    s.regRead (R.CRS_ENTRY n.val) = (s, bits (s.reg (R.CRS_ENTRY n.val)).toNat 2 14 * 4) := by
  have hk : R.CRS_ENTRY n.val = 0x80000 + 8 + 0x10000 * n.val := rfl
  obtain ⟨hw, hoff⟩ := crs_window n 8 (by decide)
  have hrc : rcMask (R.CRS_ENTRY n.val) = 0 := by
    simp only [rcMask, hk, hw, hoff, findReg_entry n, List.foldl_cons, List.foldl_nil]
  have hmask : readMask (R.CRS_ENTRY n.val) = (2 ^ 14 - 1) * 2 ^ 2 := by
    simp only [readMask, hk, hw, hoff, findReg_entry n, List.foldl_cons, List.foldl_nil, Nat.zero_add]
  unfold State.regRead
  rw [regWord_plain (by rw [hk, readOverlay_crs s n (by decide)]; rfl), hmask, and_field, hk,
    readEffect_crs s n (by decide), ← hk, if_pos hrc]
  rfl

/-- A read of SYS_PTIME_LO gives the low half of press time and latches the high half (R44). -/
theorem regRead_ptimeLo (s : State) :
    s.regRead R.SYS_PTIME_LO = (s.setReg R.SYS_PTIME_HI (BitVec.ofNat 32 (s.now / 2 ^ 32)), s.now % 2 ^ 32) := by
  have hword : s.regWord R.SYS_PTIME_LO = s.now % 2 ^ 32 := by
    have hover : s.readOverlay R.SYS_PTIME_LO = (0xFFFFFFFF, s.now) := rfl
    have hmask : readMask R.SYS_PTIME_LO = 0xFFFFFFFF := by decide
    simp only [State.regWord, hover, hmask, and_word, Nat.sub_self, Nat.zero_add]
    exact and_low s.now 32
  have hrc : rcMask R.SYS_PTIME_LO = 0 := by decide
  unfold State.regRead
  rw [hword]
  simp only [State.readEffect, hrc, if_true]

/-- Settles O9: CRSn_ENTRY has one lockable field, and SYS_PTIME_LO is press time itself. -/
theorem readsAndWrites : Obligations.ReadsAndWrites := by
  unfold Obligations.ReadsAndWrites
  intro s req n addr v hn ha entry written
  have hk : R.CRS_ENTRY n.val = 0x80000 + 8 + 0x10000 * n.val := rfl
  have hlt : R.CRS_ENTRY n.val < 0x1000000 := by omega
  have hal : R.CRS_ENTRY n.val % 4 = 0 := by omega
  obtain ⟨hm, hp⟩ := crs_access 8 (by decide) hn
  rw [← hk] at hm hp
  refine ⟨?write, ?read, ?latch⟩
  case write =>
    rw [exec_registerAccess_at ha hlt]
    simp only [AccSize.bytes]
    rw [regAccess_write _ v hm hp hal, hk, wrWindow_crs s _ n (by decide), ← hk]
    have hplain : s.wrCrs n.val 8 v = s.plainWrite (R.CRS_ENTRY n.val) v := by
      rw [hk, show 0x80000 + 8 + 0x10000 * n.val = 0x10000 * (0x08 + n.val) + 8 by omega]
      rfl
    rw [hplain, plainWrite_entry]
    rfl
  case read =>
    rw [exec_registerAccess_at ha hlt]
    simp only [AccSize.bytes]
    rw [regAccess_read _ v hm hp hal, regRead_entry]
    rfl
  case latch =>
    rw [exec_ptimeLoRead, State.busRead, regAccess_read _ _ (by decide) rfl (by decide), regRead_ptimeLo]
    rfl

/-! ### Counts that a read clears (R12, R42) -/

/-- Where all of a word is RC, a read leaves 0. -/
theorem cleared_all (w : Word) : BitVec.ofNat 32 (w.toNat - (w.toNat &&& 0xFFFFFFFF)) = 0 := by
  rw [and_word, Nat.sub_self]
  rfl

theorem regRead_eccCnt (s : State) (n : Fin 24) :
    s.regRead (R.CRS_ECC_CNT n.val) = (s.setReg (R.CRS_ECC_CNT n.val) 0, (s.reg (R.CRS_ECC_CNT n.val)).toNat) := by
  have hk : R.CRS_ECC_CNT n.val = 0x80000 + 0x20 + 0x10000 * n.val := rfl
  obtain ⟨hw, hoff⟩ := crs_window n 0x20 (by decide)
  have hrc : rcMask (R.CRS_ECC_CNT n.val) = 0xFFFFFFFF := by
    simp only [rcMask, hk, hw, hoff, findReg_eccCnt n, List.foldl_cons, List.foldl_nil] <;> rfl
  have hmask : readMask (R.CRS_ECC_CNT n.val) = 0xFFFFFFFF := by
    simp only [readMask, hk, hw, hoff, findReg_eccCnt n, List.foldl_cons, List.foldl_nil] <;> rfl
  unfold State.regRead
  rw [regWord_plain (by rw [hk, readOverlay_crs s n (by decide)]; rfl), hmask, and_word, hk,
    readEffect_crs s n (by decide), ← hk, hrc, if_neg (by decide), cleared_all]

theorem findReg_talCnt : ∀ p : Fin 2, findReg 0x38 (0x8 + 0x20 * p.val)
    = some ⟨0x8, 0x20, 2, [⟨0, 12, .rc, true, 0⟩, ⟨12, 12, .rc, true, 0⟩, ⟨24, 8, .rc, false, 0⟩]⟩ := by decide

/-- A count of 12 bits under the mask of the snapshot counts is the count. -/
theorem bits_snapCount (c : Nat) (lo : Nat) (h : lo + 12 ≤ 24) : bits (c &&& 0xFFFFFF) lo 12 = bits c lo 12 := by
  rw [show 0xFFFFFF = 2 ^ 24 - 1 from rfl, and_low]
  rw [show 24 = lo + (24 - lo) by omega]
  unfold bits
  rw [Nat.pow_add, Nat.mod_mul_right_div_self, Nat.mod_mod_of_dvd _ (Nat.pow_dvd_pow 2 (by omega))]

theorem noSnap_map {s : State} {f : Snap → Snap} (h : s.snap = none) : ({ s with snap := s.snap.map f } : State) = s := by
  rw [h]
  exact congrArg (fun x => ({ s with snap := x } : State)) h.symm

theorem readEffect_talCnt (s : State) (p : Fin 2) (v : Nat) (hs : s.snap = none) :
    let k := R.TAL_PORT_CNT p.val
    let less (live got : Nat) : Nat := if got = 0xFFF then 0 else live - got
    s.readEffect k v = (s.setReg k 0).modLink p.val (fun l => { l with
      crcErr := less l.crcErr (bits v 0 12), replayCnt := less l.replayCnt (bits v 12 12) }) := by
  intro k less
  have hk : k = 0x380000 + (0x8 + 0x20 * p.val) := by simp only [k, R.TAL_PORT_CNT]; omega
  have hw : k / 0x10000 = 0x38 := by omega
  have hoff : k % 0x10000 = 0x8 + 0x20 * p.val := by omega
  have hrc : rcMask k = 0xFFFFFFFF := by
    simp only [rcMask, hw, hoff, findReg_talCnt p, List.foldl_cons, List.foldl_nil] <;> rfl
  have hsnap : snapRcMask k = 0xFFFFFF := by
    simp only [snapRcMask, hw, hoff, findReg_talCnt p, List.foldl_cons, List.foldl_nil] <;> rfl
  have hport : (if k = R.TAL_PORT_CNT 0 then 0 else 1) = p.val :=
    (by decide : ∀ p : Fin 2, (if R.TAL_PORT_CNT p.val = R.TAL_PORT_CNT 0 then 0 else 1) = p.val) p
  have hcnt : k = R.TAL_PORT_CNT 0 ∨ k = R.TAL_PORT_CNT 1 := by
    simp only [R.TAL_PORT_CNT]
    omega
  unfold State.readEffect
  dsimp only
  rw [hrc, hsnap, if_neg (by decide : ¬ 0xFFFFFFFF = 0), cleared_all, if_neg (by simp only [R.SYS_PTIME_LO]; omega),
    if_neg (by omega), if_neg (by omega), if_pos hw]
  unfold State.takeCounts
  dsimp only
  rw [if_pos hcnt, hport, bits_snapCount _ _ (by decide), bits_snapCount _ _ (by decide), noSnap_map (s := s.setReg k 0) hs]

theorem regRead_talCnt (s : State) (p : Fin 2) (hs : s.snap = none) :
    let k := R.TAL_PORT_CNT p.val
    let c := (s.reg k).toNat
    let less (live got : Nat) : Nat := if got = 0xFFF then 0 else live - got
    s.regRead k = ((s.setReg k 0).modLink p.val (fun l => { l with
      crcErr := less l.crcErr (bits c 0 12), replayCnt := less l.replayCnt (bits c 12 12) }), c) := by
  intro k c less
  have hk : k = 0x380000 + (0x8 + 0x20 * p.val) := by simp only [k, R.TAL_PORT_CNT]; omega
  have hw : k / 0x10000 = 0x38 := by omega
  have hoff : k % 0x10000 = 0x8 + 0x20 * p.val := by omega
  have hmask : readMask k = 0xFFFFFFFF := by
    simp only [readMask, hw, hoff, findReg_talCnt p, List.foldl_cons, List.foldl_nil] <;> rfl
  have hover : s.readOverlay k = (0, 0) := by
    have hne : k ≠ F.TAL_T1_STATUS_RDY.key := by simp only [F.TAL_T1_STATUS_RDY, R.TAL_T1_STATUS]; omega
    simp [State.readOverlay, State.readBits, hw, hne]
  unfold State.regRead
  rw [regWord_plain hover, hmask, and_word, readEffect_talCnt s p _ hs]

/-- Settles O10: a read takes the RC fields of its register, and a snapshot count from the live counts too. -/
theorem readClears : Obligations.ReadClears := by
  unfold Obligations.ReadClears
  intro s n p off hn hs less c
  rw [exec_rcRead]
  refine ⟨fun ho => ?ecc, fun ho => ?tal⟩
  case ecc =>
    have hk : R.CRS_ECC_CNT n.val = 0x80000 + 0x20 + 0x10000 * n.val := rfl
    obtain ⟨hm, hp⟩ := crs_access 0x20 (by decide) hn
    rw [← hk] at hm hp
    rw [ho, State.busRead, regAccess_read _ _ hm hp (by omega), regRead_eccCnt]
    rfl
  case tal =>
    have hk : R.TAL_PORT_CNT p.val = 0x380008 + 0x20 * p.val := rfl
    have hw : R.TAL_PORT_CNT p.val / 0x10000 = 0x38 := by omega
    rw [ho, State.busRead, regAccess_read _ _ (by rw [hw]; rfl) (by rw [hw]; rfl) (by omega), regRead_talCnt s p hs]
    rfl

/-! ### A core's local RAM seen by another requester (R54) -/

theorem exec_localRamAccess (n : Fin 24) (off : BitVec 17) (size : Fin 7) (write : Bool) (v : BitVec 512) (s : State) :
    exec (.localRamAccess n off size write v) s
      = .next (effLocalRam n.val off.toNat (2 ^ size.val) write v.toNat s).finish := rfl

section localRam
variable {s : State} {n : Fin 24}

/-- Bytes of a core's RAMs are populated, and a scalar that is aligned lies in one of the two. -/
theorem inMemory_localRam {off k : Nat} (hoff : off + k ≤ 0x10000 ∨ 0x10000 ≤ off ∧ off + k ≤ 0x20000) (hk : 0 < k) :
    s.inMemory (iramBase n.val + off) k = true := by
  obtain hlow | ⟨hlo, hhi⟩ := hoff
  · exact State.inMemory_iram s n.val off k n.isLt hk hlow
  · have hbase : iramBase n.val + off = dramBaseOf n.val + (off - 0x10000) := by
      simp only [iramBase, dramBaseOf]
      omega
    rw [hbase]
    exact State.inMemory_dataRam s n.val _ k n.isLt hk (by omega)

theorem region_localRam (s : State) (n : Fin 24) {off : Nat} (h : off < 0x20000) :
    s.region (iramBase n.val + off) = if off < 0x10000 then .iram n.val else .dataRam n.val := by
  split
  · exact State.region_iram s n.val off n.isLt (by omega)
  · have hbase : iramBase n.val + off = dramBaseOf n.val + (off - 0x10000) := by
      simp only [iramBase, dramBaseOf]
      omega
    rw [hbase]
    exact State.region_dataRam s n.val _ n.isLt (by omega)

end localRam

/-- A scalar that is aligned does not cross an aligned boundary of a larger power of 2. -/
theorem aligned_fits {off : Nat} (size : Fin 7) (hal : off % 2 ^ size.val = 0) (h : off < 0x20000) :
    off + 2 ^ size.val ≤ 0x10000 ∨ 0x10000 ≤ off ∧ off + 2 ^ size.val ≤ 0x20000 := by
  obtain ⟨z, hz⟩ := size
  interval_cases z <;> simp only [Nat.reducePow] at hal ⊢ <;> omega

theorem localRam_aligned (n : Fin 24) (off : Nat) (size : Fin 7) :
    (iramBase n.val + off) % 2 ^ size.val = off % 2 ^ size.val := by
  obtain ⟨z, hz⟩ := size
  have hb : iramBase n.val = 0x1100000000 + n.val * 0x20000 := rfl
  interval_cases z <;> simp only [Nat.reducePow] <;> omega

/-- Where nothing interrupts it, a write of memory that is not the sillage's writes its bytes. -/
theorem memWriteWords_done (s : State) (req a : Nat) (l : List Byte) (hc : s.Clean) :
    s.memWriteWords req a l = (s.wrBytes a l, false) :=
  State.memWriteWords_clean s req a l hc.upsets hc.arm

section access
variable {s : State} {n : Fin 24} {off : Nat} {size : Fin 7} (hc : s.Clean) (hn : s.hasCore n.val = true)
  (hoff : off < 0x20000) (hal : off % 2 ^ size.val = 0)
include hc hn hoff hal

theorem memWrite_localRam (v : Nat) :
    s.memWrite reqCore (iramBase n.val + off) (leBytes (2 ^ size.val) v)
      = if off < 0x10000 ∧ s.flag (F.CRS_CTRL_RUN n.val) = true then (s.setFlag (F.CRS_STATUS_IW_DENIED n.val), .done)
        else (s.wrLe (iramBase n.val + off) (2 ^ size.val) v, .done) := by
  have hm := inMemory_localRam (s := s) (n := n) (aligned_fits size hal hoff) (Nat.two_pow_pos _)
  have hsil : inSillage (iramBase n.val + off) = false := by
    have hb : iramBase n.val = 0x1100000000 + n.val * 0x20000 := rfl
    have hmr : mramBase = 0x1000000000 := rfl
    simp only [inSillage, Bool.and_eq_false_iff, decide_eq_false_iff_not]
    omega
  unfold State.memWrite
  rw [leBytes_length, hm, if_neg (by decide), hsil, if_neg (by decide), region_localRam s n hoff,
    memWriteWords_done s _ _ _ hc]
  by_cases ho : off < 0x10000 <;> simp [ho, hn, State.wrLe]

theorem sysMemRead_localRam :
    s.sysMemRead reqCore (iramBase n.val + off) (2 ^ size.val)
      = (s, .data (s.rdBytes (iramBase n.val + off) (2 ^ size.val))) := by
  have hm := inMemory_localRam (s := s) (n := n) (aligned_fits size hal hoff) (Nat.two_pow_pos _)
  have hread := State.memRead_clean s reqCore _ _ hc.upsets hm
  unfold State.sysMemRead
  rw [region_localRam s n hoff]
  by_cases ho : off < 0x10000 <;> simp [ho, hn, hread]

theorem effLocalRam_eq (write : Bool) (v : Nat) :
    let a := iramBase n.val + off
    let k := 2 ^ size.val
    effLocalRam n.val off k write v s =
      if write then
        (if off < 0x10000 ∧ s.flag (F.CRS_CTRL_RUN n.val) = true then
          { s.setFlag (F.CRS_STATUS_IW_DENIED n.val) with bus := ⟨false, 0⟩ }
        else { s.wrLe a k v with bus := ⟨false, 0⟩ })
      else { s with bus := ⟨false, s.rdLe a k⟩ } := by
  intro a k
  have hpresent : s.absentRam a = false := by
    unfold State.absentRam
    rw [region_localRam s n hoff]
    by_cases ho : off < 0x10000 <;> simp [ho, hn]
  have haligned : a % k = 0 := by rw [localRam_aligned, hal]
  unfold effLocalRam
  dsimp only
  rw [if_neg (by rw [hpresent]; decide), if_neg (by simpa using haligned)]
  cases write with
  | false =>
    rw [sysMemRead_localRam hc hn hoff hal]
    rfl
  | true =>
    rw [memWrite_localRam hc hn hoff hal]
    by_cases hrun : off < 0x10000 ∧ s.flag (F.CRS_CTRL_RUN n.val) = true
    · rw [if_pos hrun, if_pos hrun]
      rfl
    · rw [if_neg hrun, if_neg hrun]
      rfl

end access

/-- Settles O11: the accesses of a present core's RAMs, all aligned; instruction RAM of a running core alone is denied. -/
theorem localRamAccess : Obligations.LocalRamAccess := by
  unfold Obligations.LocalRamAccess
  intro s n off size v hc hn k a answer hal
  have heff (write : Bool) := effLocalRam_eq hc hn off.isLt hal write v.toNat
  refine ⟨?read, fun hw => ?write, fun hd => ?denied⟩
  case read => rw [exec_localRamAccess, heff]; rfl
  case write =>
    have hok : ¬ (off.toNat < 0x10000 ∧ s.flag (F.CRS_CTRL_RUN n.val) = true) := by
      rintro ⟨hlo, hrun⟩
      simp [hrun] at hw
      omega
    rw [exec_localRamAccess, heff, if_pos rfl, if_neg hok]
    rfl
  case denied => rw [exec_localRamAccess, heff, if_pos rfl, if_pos hd]

end Sys2Proof.Proofs.RegisterSpace
end

