-- ==== Sys2Proof/Proofs/Admission.lean ====
section
/-!
PROOFS. Requests for admission (R20, R21, R23), the first line of a page (R24), and the evaluation of a request (R21 to
R24, R446).
-/
namespace Sys2Proof.Proofs.Admission

open Sys2Proof.Machine
open Sys2Proof.Laws.Pages

theorem exec_admitReq (handle : Word) (s : State) :
    exec (.admitReq handle) s = .next (effAdmitReq handle.toNat s).finish := rfl

theorem exec_admitEvaluation (s : State) : exec .admitEvaluation s = .next (effAdmitEvaluation s).finish := rfl

/-! ### Requests (R20, R21, R23) -/

section requests
variable {s : State} {h i : Nat} {p : Page}

theorem effAdmitReq_noPage (hq : s.admitQ.length < 16) (hp : s.pageOf h = none) : effAdmitReq h s = s := by
  simp only [effAdmitReq, Nat.not_le.mpr hq, if_false, hp]

theorem effAdmitReq_full (hq : 16 ≤ s.admitQ.length) (hp : s.pageOf h = some (i, p)) :
    effAdmitReq h s
      = (s.setFlag F.SYS_ADMIT_STATUS_FULLSEEN).modPage i (fun q => { q with result := 8 }) := by
  simp only [effAdmitReq, hq, if_true, hp]
  exact admitResult_quiet _ i 8 (.inl rfl)

theorem effAdmitReq_ready (hq : s.admitQ.length < 16) (hp : s.pageOf h = some (i, p)) (hr : p.state = .ready) :
    effAdmitReq h s
      = { s.modPage i (fun q => { q with state := .queued, pagea := none }) with admitQ := s.admitQ ++ [i] } := by
  simp only [effAdmitReq, Nat.not_le.mpr hq, if_false, hp, hr, if_true]

theorem effAdmitReq_otherState (hq : s.admitQ.length < 16) (hp : s.pageOf h = some (i, p)) (hr : p.state ≠ .ready) :
    effAdmitReq h s = (s.modPage i (fun q => { q with result := 9 })).notify 0x0A (hIdx p.job) 1 := by
  simp only [effAdmitReq, Nat.not_le.mpr hq, if_false, hp, hr]
  exact admitResult_loud s i 9 p (by decide) (live_pageOf hp)

end requests

/-- Settles O12: a request's four answers. That a full queue is judged before the page's state, and that STATE is stored
for an ADMITTED or later page too, is the model's choice (log entry 44). -/
theorem admissionRequests : Obligations.AdmissionRequests := by
  unfold Obligations.AdmissionRequests
  intro s handle
  simp only [exec_admitReq]
  refine ⟨fun ⟨hq, hp⟩ => ?noPage, fun i p hp => ⟨fun hq => ?full, fun ⟨hq, hr⟩ => ?ready, fun ⟨hq, hr⟩ => ?refused⟩⟩
  case noPage => rw [effAdmitReq_noPage hq hp]
  case full => rw [effAdmitReq_full hq hp]
  case ready => rw [effAdmitReq_ready hq hp hr]
  case refused => rw [effAdmitReq_otherState hq hp hr]

/-! ### START_LINE (R24) -/

/-- Settles O14: the two bounds, and the order of lines modulo 2^40. -/
theorem startLine : Obligations.StartLine := by
  unfold Obligations.StartLine
  intro s j a
  refine ⟨fun h => ?first, fun e l r h => ?after⟩
  case first => simp only [State.startLine, h]; rfl
  case after =>
    intro b
    have hb : b % 2 ^ 40 = b := Nat.mod_mod _ _
    have hle : lineLe b a = decide ((a + 2 ^ 40 - b) % 2 ^ 40 < 2 ^ 39) := by
      unfold lineLe lineDist
      rw [hb]
    simp only [State.startLine, h]
    show (if lineLe b a = true then a else b) = _
    rw [hle]
    simp only [decide_eq_true_eq]

/-! ### Evaluation (R21 to R24, R446) -/

section evaluation
variable {s : State} {i : Nat} {rest : List Nat} {p : Page} {j : Job}

theorem effAdmitEvaluation_empty (hq : s.admitQ = []) : effAdmitEvaluation s = s := by
  simp only [effAdmitEvaluation, hq]

theorem effAdmitEvaluation_gone (hq : s.admitQ = i :: rest) (hp : Tab.get s.pages i = none) :
    effAdmitEvaluation s = { s with admitQ := rest } := by
  simp only [effAdmitEvaluation, hq, hp]

theorem effAdmitEvaluation_notQueued (hq : s.admitQ = i :: rest) (hp : Tab.get s.pages i = some p)
    (hn : p.state ≠ .queued ∨ s.jobOf p = none) : effAdmitEvaluation s = { s with admitQ := rest } := by
  simp only [effAdmitEvaluation, hq, hp]
  split
  · next hs hj => simp [hs, hj] at hn
  · rfl

/-- The queue after its head has left, and the page's state and job as evaluation finds them. -/
theorem effAdmitEvaluation_queued (hq : s.admitQ = i :: rest) (hp : Tab.get s.pages i = some p)
    (hs : p.state = .queued) (hj : s.jobOf p = some j) :
    effAdmitEvaluation s =
      if j.state ≠ .running then
        (State.admitRefuse { s with admitQ := rest } i 9 p.failMask).settleJob (hIdx p.job)
      else if s.isShadow then s
      else if s.isActive && p.pagea.isNone then
        (if s.acd.asked = some i then s
        else (s.sendAcd 0x05 0 (s.pageName p j)).modAcd (fun a => { a with asked := some i }))
      else State.admitJudge { s with admitQ := rest } i p j := by
  simp only [effAdmitEvaluation, hq, hp, hs, hj]

/-- A refusal leaves the page READY with its result. -/
theorem admitRefuse_stopped (hp : Tab.get s.pages i = some p) :
    let t := (State.admitRefuse { s with admitQ := rest } i 9 p.failMask).settleJob (hIdx p.job)
    t.admitQ = rest ∧ Tab.get t.pages i = some { p with state := .ready, failMask := p.failMask, pagea := none, result := 9 } := by
  obtain ⟨hpage, hqueue⟩ := admitRefuse_page { s with admitQ := rest } i 9 p.failMask p (by decide) hp
  simp only [State.settleJob_frame]
  exact ⟨hqueue, hpage⟩

/-! #### The queue does not enter the six conditions -/

theorem memRead_popped (req a n : Nat) (hc : s.upsets = []) :
    State.memRead { s with admitQ := rest } req a n = ({ s with admitQ := rest }, (s.memRead req a n).2) := by
  simp only [State.memRead, State.eccRange_nil _ _ _ _ hc,
    State.eccRange_nil { s with admitQ := rest } _ _ _ hc]
  have hmem : State.inMemory { s with admitQ := rest } a n = s.inMemory a n := rfl
  rw [hmem]
  cases s.inMemory a n <;> rfl

theorem blkEntry_popped (k : Nat) (hc : s.upsets = []) :
    State.blkEntry { s with admitQ := rest } p k = ({ s with admitQ := rest }, (s.blkEntry p k).2) := by
  unfold State.blkEntry
  rw [memRead_popped _ _ _ hc]
  cases s.memRead reqPageBlock (p.blist + 32 * k) 32 with
  | mk t r => cases r <;> rfl

theorem blkEntry_same (k : Nat) (hc : s.upsets = []) : (s.blkEntry p k).1 = s := by
  have hsame := memRead_same s reqPageBlock (p.blist + 32 * k) 32 hc
  unfold State.blkEntry
  cases hr : s.memRead reqPageBlock (p.blist + 32 * k) 32 with
  | mk t r =>
    rw [hr] at hsame
    cases r <;> exact hsame

theorem entryOk_popped (k start : Nat) (hc : s.upsets = []) :
    State.entryOk { s with admitQ := rest } j p i k start = ({ s with admitQ := rest }, (s.entryOk j p i k start).2) := by
  have hsame := blkEntry_same (p := p) k hc
  unfold State.entryOk
  rw [blkEntry_popped k hc]
  cases hb : s.blkEntry p k with
  | mk t ob =>
    rw [hb] at hsame
    obtain rfl : t = s := hsame
    cases ob with
    | none => rfl
    | some b =>
      dsimp only
      rw [memRead_popped _ _ _ hc]
      have hform : State.blkWellFormed { t with admitQ := rest } j b = t.blkWellFormed j b := rfl
      have hstaged : State.blockStaged { t with admitQ := rest } i k b = t.blockStaged i k b := rfl
      rw [hform, hstaged]
      cases t.blkWellFormed j b with
      | false => rfl
      | true =>
        cases b.onDisk with
        | false =>
          cases t.memRead reqPageBlock b.addr 16 with
          | mk u r => cases r <;> rfl
        | true => cases t.blockStaged i k b <;> rfl

theorem rasterOk_popped (start : Nat) (hc : s.upsets = []) :
    State.rasterOk { s with admitQ := rest } j p i start = ({ s with admitQ := rest }, (s.rasterOk j p i start).2) := by
  unfold State.rasterOk
  suffices H : ∀ (l : List Nat) (ok : Bool),
      l.foldl (fun a k => match a.1.entryOk j p i k start with | (t, o) => (t, a.2 && o))
        (({ s with admitQ := rest } : State), ok)
      = ({ s with admitQ := rest }, (l.foldl (fun a k => match a.1.entryOk j p i k start with
          | (t, o) => (t, a.2 && o)) (s, ok)).2) from H _ true
  intro l
  induction l with
  | nil => intro ok; rfl
  | cons k l ih =>
    intro ok
    have hsame := entryOk_same s j p i k start hc
    rw [List.foldl_cons, List.foldl_cons, entryOk_popped k start hc]
    cases hk : s.entryOk j p i k start with
    | mk t o =>
      rw [hk] at hsame
      obtain rfl : t = s := hsame
      exact ih _

/-- The conditions of R22 that fail, one bit each: raster, band, temperature, clocks, links, and in a pair the shadow's
answer. -/
def failedConditions (s : State) (i : Nat) (p : Page) (j : Job) : Nat :=
  let start := s.startLine j
  let hold := s.thermalHold j p.length
  b2n (!(s.rasterOk j p i start).2) + 2 * b2n (!s.bandOk j start) + 4 * b2n (hold.1 || !hold.2.isEmpty)
    + 8 * b2n (!s.clocksOk j i) + 16 * b2n (!s.linksOk j) + 32 * b2n (s.joined && p.pagea != some true)

theorem failedConditions_popped (hc : s.upsets = []) :
    failedConditions { s with admitQ := rest } i p j = failedConditions s i p j := by
  have hraster : (State.rasterOk { s with admitQ := rest } j p i (s.startLine j)).2 = (s.rasterOk j p i (s.startLine j)).2 := by
    rw [rasterOk_popped _ hc]
  show b2n (!(State.rasterOk { s with admitQ := rest } j p i (s.startLine j)).2) + _ + _ + _ + _ + _ = _
  rw [hraster]
  rfl

/-- The judgement, once the collector's events are set apart: the grant where nothing failed, else the refusal with the
lowest-numbered condition. -/
theorem admitJudge_eq (hc : s.upsets = []) :
    ∃ f, s.admitJudge i p j =
      let u : State := { s with flt := f }
      let failed := failedConditions s i p j
      if failed = 0 then u.grantPage i p j (s.startLine j) (!s.joined)
      else u.admitRefuse i (2 + (lowestBit 6 failed).getD 0) failed := by
  have hsame := rasterOk_same s j p i (s.startLine j) hc
  have hraises := raises_pages s (s.thermalHold j p.length).2 (s.thermalHold j p.length).1
  have hanswer : (!(!s.joined || p.pagea == some true)) = (s.joined && p.pagea != some true) := by
    cases s.joined <;> rfl
  unfold State.admitJudge failedConditions
  dsimp only
  rw [hsame, hraises, ← hanswer]
  exact ⟨_, rfl⟩

end evaluation

/-! #### The grant and the refusal -/

theorem sendAcd_frame (s : State) (type addr : Nat) (l : List Byte) :
    (s.sendAcd type addr l).pages = s.pages ∧ (s.sendAcd type addr l).admitQ = s.admitQ := by
  unfold State.sendAcd State.sendPkt
  split <;> exact ⟨rfl, rfl⟩

/-- A page granted, in a pair or alone. -/
theorem grantPage_page (s : State) (i : Nat) (p : Page) (j : Job) (start : Nat) (skip : Bool)
    (hp : Tab.get s.pages i = some p) :
    ∃ q, Tab.get (s.grantPage i p j start skip).pages i = some q ∧ q.state = .admitted ∧ q.result = 1 ∧ q.failMask = 0
      ∧ q.startLine = start ∧ (s.grantPage i p j start skip).admitQ = s.admitQ := by
  have hstored (t : State) (q : Page) (hq : Tab.get t.pages i = some q) (type addr : Nat) (l : List Byte) :
      Tab.get (if t.isActive then t.sendAcd type addr l else t).pages i = some q
        ∧ (if t.isActive then t.sendAcd type addr l else t).admitQ = t.admitQ := by
    obtain ⟨hpages, hqueue⟩ := sendAcd_frame t type addr l
    split
    · exact ⟨hpages ▸ hq, hqueue⟩
    · exact ⟨hq, rfl⟩
  have hgranted (f : Page → Page) (g : Job → Job) :
      Tab.get (((s.modPage i f).modJob (hIdx p.job) g).startFills i j).pages i = some (f p) := by
    simp only [State.startFills, State.modJob_frame, get_modPage, hp, Option.map_some]
  obtain ⟨hpage, hqueue⟩ := hstored _ _ (hgranted _ _) _ _ _
  obtain ⟨hresult, hkept⟩ := admitResult_page _ i 1 _ (by decide) hpage
  exact ⟨_, hresult, rfl, rfl, rfl, rfl, hkept.trans hqueue⟩

/-- A condition that fails has a lowest-numbered bit, below 6: the result is 2 to 7. -/
theorem lowestBit_failed {a b c d e f : Bool}
    (h : b2n a + 2 * b2n b + 4 * b2n c + 8 * b2n d + 16 * b2n e + 32 * b2n f ≠ 0) :
    ∃ k < 6, lowestBit 6 (b2n a + 2 * b2n b + 4 * b2n c + 8 * b2n d + 16 * b2n e + 32 * b2n f) = some k := by
  revert a b c d e f
  decide

/-- What the judgement leaves of the page and the queue. -/
theorem admitJudge_page {s : State} {i : Nat} {rest : List Nat} {p : Page} {j : Job} (hc : s.upsets = [])
    (hp : Tab.get s.pages i = some p) :
    let t := State.admitJudge { s with admitQ := rest } i p j
    ∃ q, t.admitQ = rest ∧ Tab.get t.pages i = some q
      ∧ (failedConditions s i p j = 0 → q.state = .admitted ∧ q.result = 1 ∧ q.failMask = 0 ∧ q.startLine = s.startLine j)
      ∧ (failedConditions s i p j ≠ 0 → q.state = .ready ∧ q.failMask = failedConditions s i p j
          ∧ ∃ b, lowestBit 6 (failedConditions s i p j) = some b ∧ q.result = 2 + b) := by
  intro t
  obtain ⟨f, hjudge⟩ := admitJudge_eq (s := { s with admitQ := rest }) (i := i) (p := p) (j := j) hc
  simp only [failedConditions_popped hc] at hjudge
  by_cases hf : failedConditions s i p j = 0
  · obtain ⟨q, hq, hstate, hresult, hmask, hstart, hqueue⟩ :=
      grantPage_page { s with admitQ := rest, flt := f } i p j (s.startLine j) (!s.joined) hp
    rw [if_pos hf] at hjudge
    refine ⟨q, ?_, ?_, fun _ => ⟨hstate, hresult, hmask, hstart⟩, fun hn => absurd hf hn⟩
    · exact (congrArg State.admitQ hjudge).trans hqueue
    · exact (congrArg (fun u => Tab.get u.pages i) hjudge).trans hq
  · obtain ⟨k, hk, hlow⟩ := lowestBit_failed hf
    rw [if_neg hf] at hjudge
    have hlow' : lowestBit 6 (failedConditions s i p j) = some k := hlow
    obtain ⟨hq, hqueue⟩ := admitRefuse_page { s with admitQ := rest, flt := f } i
      (2 + (lowestBit 6 (failedConditions s i p j)).getD 0) (failedConditions s i p j) p
      (by rw [hlow', Option.getD_some]; omega) hp
    refine ⟨_, ?_, (congrArg (fun u => Tab.get u.pages i) hjudge).trans hq, fun h0 => absurd h0 hf,
      fun _ => ⟨rfl, rfl, k, hlow', ?_⟩⟩
    · exact (congrArg State.admitQ hjudge).trans hqueue
    · rw [hlow', Option.getD_some]

/-- Settles O13: an entry that is no QUEUED page only leaves; a job's state, the pair's roles and then the six conditions
decide. -/
theorem admissionEvaluation : Obligations.AdmissionEvaluation := by
  unfold Obligations.AdmissionEvaluation
  intro s
  simp only [exec_admitEvaluation]
  refine ⟨fun hq => ?empty, fun i rest hq => ⟨fun hp => ?gone, fun p hp => ⟨fun hn => ?notQueued,
    fun j hs hj => ⟨fun hstop => ?stopped, fun hrun hsh => ?shadow, fun hrun ha hpa => ?asks,
      fun hrun hc hsh ha => ?judged⟩⟩⟩⟩
  case empty => rw [effAdmitEvaluation_empty hq]
  case gone => rw [effAdmitEvaluation_gone hq hp]
  case notQueued => rw [effAdmitEvaluation_notQueued hq hp hn]
  case stopped =>
    obtain ⟨hqueue, hpage⟩ := admitRefuse_stopped (rest := rest) hp
    rw [effAdmitEvaluation_queued hq hp hs hj, if_pos hstop]
    exact ⟨_, _, rfl, hqueue, hpage, rfl, rfl⟩
  case shadow => rw [effAdmitEvaluation_queued hq hp hs hj, if_neg (not_not.mpr hrun), if_pos hsh]
  case asks =>
    have hns : s.isShadow = false := by
      simp only [State.isActive, State.isShadow, Bool.and_eq_true] at ha ⊢
      simp [ha]
    rw [effAdmitEvaluation_queued hq hp hs hj, if_neg (not_not.mpr hrun), hns, if_neg (by decide), ha, hpa,
      if_pos (by decide)]
    refine ⟨fun hasked => ?_, fun hasked => ?_⟩
    · rw [if_pos hasked]
    · rw [if_neg hasked]
  case judged =>
    have hanswered : (s.isActive && p.pagea.isNone) = false := by
      cases hact : s.isActive with
      | false => rfl
      | true => exact Option.isNone_eq_false_iff.mpr (Option.isSome_iff_ne_none.mpr (ha hact))
    rw [effAdmitEvaluation_queued hq hp hs hj, if_neg (not_not.mpr hrun), hsh, if_neg (by decide), hanswered,
      if_neg (by decide)]
    obtain ⟨q, hqueue, hpage, hgrant, hrefuse⟩ := admitJudge_page (rest := rest) (j := j) hc.upsets hp
    exact ⟨_, q, rfl, hqueue, hpage, hgrant, hrefuse⟩

end Sys2Proof.Proofs.Admission
end

