-- ==== Sys2Proof/Proofs/Snapshots.lean ====
section
/-!
PROOFS. Snapshots (R37 to R41, R44): what a request latches, and what the end of one puts in place.
-/
namespace Sys2Proof.Proofs.Snapshots

open Sys2Proof.Machine
open Sys2Proof.Laws.Pages

theorem exec_snapReq (v : Word) (s : State) : exec (.snapReq v) s = .next (effSnapReq v s).finish := rfl

theorem exec_snapshotDone (s : State) : exec .snapshotDone s = .next (effSnapshotDone s).finish := rfl

theorem exec_snapshotTimeout (missed : BitVec 24) (s : State) :
    exec (.snapshotTimeout missed) s = .next (effSnapshotTimeout missed.toNat s).finish := rfl

/-! ### The registers of a domain (R37) -/


/-- Where a captured value goes. -/
def place (e : Nat × Nat × Nat) : Nat × Nat := (e.1, e.2.1)

theorem places_snapPhase (s t : State) (d : Nat) : (s.snapPhase d).map place = (t.snapPhase d).map place := by
  simp only [State.snapPhase, List.map_map]
  rfl

theorem places_snapMotion (s t : State) : s.snapMotion.map place = t.snapMotion.map place := by
  simp only [State.snapMotion, List.map_append, List.map_flatten, List.map_map, Function.comp_def, List.map_cons,
    List.map_nil, place]

theorem places_snapHouse (s t : State) : s.snapHouse.map place = t.snapHouse.map place := by
  simp only [State.snapHouse, List.map_append, List.map_map, List.map_cons, List.map_nil]
  simp only [place, Function.comp_def]

theorem places_snapFields (s t : State) (d : Nat) : (s.snapFields d).map place = (t.snapFields d).map place := by
  unfold State.snapFields
  rw [List.map_append, List.map_append, places_snapPhase s t d]
  refine congrArg (_ ++ ·) ?_
  split_ifs
  · simp only [List.map_cons, List.map_nil, place]
  · simp only [State.snapStn, List.map_cons, List.map_nil, place]
  · simp only [List.map_map, Function.comp_def, place]
  · simp only [State.snapDsk, List.map_cons, List.map_nil, place]
  · simp only [State.snapCam, List.map_cons, List.map_nil, place]
  · simp only [List.map_cons, List.map_nil, place]
  · simp only [List.map_cons, List.map_nil, place]
  · rw [List.map_append, List.map_append, places_snapMotion s t, places_snapHouse s t]
  · rfl

/-- Where the snapshot bits of a domain stand: register and mask, the same in every state. -/
def snapPlaces (d : Nat) : List (Nat × Nat) := (State.reset.snapFields d).map place

/-- A list of numbers without repetition, as a test that is quick to evaluate. -/
def distinct : List Nat → Bool
  | [] => true
  | a :: l => l.all (fun b => !Nat.beq a b) && distinct l

theorem nodup_of_distinct (l : List Nat) (h : distinct l = true) : l.Nodup := by
  induction l with
  | nil => exact List.nodup_nil
  | cons a l ih =>
    rw [distinct, Bool.and_eq_true, List.all_eq_true] at h
    obtain ⟨ha, hl⟩ := h
    refine List.nodup_cons.mpr ⟨fun hmem => ?_, ih hl⟩
    simpa using ha a hmem

/-- No register belongs to two domains, or twice to one. -/
theorem snapPlaces_nodup : ((List.range' 2 23).flatMap (fun d => (snapPlaces d).map Prod.fst)).Nodup :=
  nodup_of_distinct _ (by decide +kernel)

/-- Snapshot bits stand in the units' windows, none of them in the SYS window, which holds the snapshot's own registers. -/
theorem snapPlaces_above : ∀ d ∈ List.range' 2 23, ∀ c ∈ snapPlaces d, 0x10000 ≤ c.1 := by
  decide +kernel

/-- The places of some of a snapshot's domains. -/
def placesOf (D : List Nat) : List (Nat × Nat) := D.flatMap snapPlaces

theorem maskDomains_sublist (m : Nat) : (maskDomains m).Sublist (List.range' 2 23) := by
  have h : (List.range 24).filterMap (fun b => if b = 0 then none else some (b + 1)) = List.range' 2 23 := by decide
  rw [← h]
  exact (List.filter_sublist).filterMap _

theorem placesOf_nodup {D : List Nat} (h : D.Sublist (List.range' 2 23)) : ((placesOf D).map Prod.fst).Nodup := by
  unfold placesOf
  rw [List.map_flatMap]
  exact (h.flatMap _).nodup snapPlaces_nodup

theorem placesOf_above {D : List Nat} (h : D.Sublist (List.range' 2 23)) : ∀ c ∈ placesOf D, 0x10000 ≤ c.1 := by
  intro c hc
  obtain ⟨d, hd, hcd⟩ := List.mem_flatMap.mp hc
  exact snapPlaces_above d (h.mem hd) c hcd

/-- A field of a domain has its place among the domain's places. -/
theorem place_mem {s : State} {d : Nat} {D : List Nat} {e : Nat × Nat × Nat} (hd : d ∈ D) (he : e ∈ s.snapFields d) :
    place e ∈ placesOf D := by
  refine List.mem_flatMap.mpr ⟨d, hd, ?_⟩
  rw [snapPlaces, ← places_snapFields s]
  exact List.mem_map_of_mem he

/-! ### The request (R37, R39) -/

/-- A captured value is kept under its register. -/
theorem get_latched {l : List (Nat × Nat × Nat)} (hn : (l.map Prod.fst).Nodup) (t : Tab Nat) :
    (∀ e ∈ l, Tab.get (l.foldl (fun t e => Tab.put t e.1 (e.2.2 &&& e.2.1)) t) e.1 = some (e.2.2 &&& e.2.1))
    ∧ ∀ k, k ∉ l.map Prod.fst → Tab.get (l.foldl (fun t e => Tab.put t e.1 (e.2.2 &&& e.2.1)) t) k = Tab.get t k := by
  induction l generalizing t with
  | nil => exact ⟨fun e he => absurd he List.not_mem_nil, fun _ _ => rfl⟩
  | cons c l ih =>
    rw [List.map_cons, List.nodup_cons] at hn
    obtain ⟨hc, hl⟩ := hn
    obtain ⟨hin, hout⟩ := ih hl (Tab.put t c.1 (c.2.2 &&& c.2.1))
    refine ⟨fun e he => ?_, fun k hk => ?_⟩
    · rw [List.foldl_cons]
      rcases List.mem_cons.mp he with rfl | he
      · rw [hout _ hc, Tab.get_put_same]
      · exact hin e he
    · rw [List.map_cons, List.mem_cons, not_or] at hk
      obtain ⟨hne, hkl⟩ := hk
      rw [List.foldl_cons, hout k hkl, Tab.get_put_ne _ _ hne]

/-- All fields of a snapshot's domains. -/
def fieldsOf (s : State) (D : List Nat) : List (Nat × Nat × Nat) := (D.map s.snapFields).flatten

theorem fieldsOf_keys (s : State) (D : List Nat) : (fieldsOf s D).map Prod.fst = (placesOf D).map Prod.fst := by
  unfold fieldsOf placesOf
  rw [List.map_flatten, List.map_map, List.map_flatMap, ← List.flatMap_def]
  refine List.flatMap_congr fun d _ => ?_
  show (s.snapFields d).map Prod.fst = _
  rw [show (Prod.fst : Nat × Nat × Nat → Nat) = Prod.fst ∘ place from rfl, ← List.map_map, places_snapFields s State.reset]
  rfl

theorem mem_fieldsOf {s : State} {D : List Nat} {d : Nat} {e : Nat × Nat × Nat} (hd : d ∈ D) (he : e ∈ s.snapFields d) :
    e ∈ fieldsOf s D :=
  List.mem_flatten.mpr ⟨_, List.mem_map_of_mem hd, he⟩

theorem fld_of_snapReq (v : Word) : F.SYS_SNAP_REQ_DOMAINS.of v = v.toNat % 2 ^ 24 := by
  simp [Fld.of, F.SYS_SNAP_REQ_DOMAINS, bits]

theorem effSnapReq_busy {s : State} (v : Word) (h : s.snap.isSome = true) :
    effSnapReq v s = s.setFlag F.SYS_SNAP_STATUS_OVERRUN := if_pos h

/-- A pair of registers holds the 64 bits written to it. -/
theorem reg64_setReg64 (s : State) {lo hi : Nat} (n : Nat) (hne : lo ≠ hi) (hn : n < 2 ^ 64) :
    (s.setReg64 lo hi n).reg64 lo hi = n := by
  unfold State.reg64 State.setReg64
  rw [State.reg_setReg_ne _ _ hne, State.reg_setReg_same, State.reg_setReg_same, BitVec.toNat_ofNat, BitVec.toNat_ofNat]
  omega

/-- A request latches press time and the fields of its domains. -/
theorem effSnapReq_taken {s : State} (v : Word) (h : s.snap = none) :
    ∃ q, (effSnapReq v s).snap = some q ∧ q.domains = v.toNat % 2 ^ 24 ∧ q.time = s.now
      ∧ (effSnapReq v s).reg64 R.SYS_SNAP_TIME_LO R.SYS_SNAP_TIME_HI = s.now
      ∧ ∀ d ∈ maskDomains q.domains, ∀ e ∈ s.snapFields d, Tab.get q.latched e.1 = some (e.2.2 &&& e.2.1) := by
  have hn := placesOf_nodup (maskDomains_sublist (v.toNat % 2 ^ 24))
  rw [← fieldsOf_keys s] at hn
  unfold effSnapReq
  rw [h, if_neg (by decide), fld_of_snapReq]
  refine ⟨_, rfl, rfl, rfl, reg64_setReg64 _ _ (by decide) s.ptime.isLt, fun d hd e he => ?_⟩
  exact (get_latched hn []).1 e (mem_fieldsOf hd he)

/-! ### The end of a snapshot (R39, R40) -/

/-- The copies of a snapshot put in one place: the bits of the mask from the captured value, the others kept. -/
def putCopy (q : Snap) (t : State) (c : Nat × Nat) : State :=
  t.setReg c.1 (BitVec.ofNat 32 ((t.reg c.1).toNat - ((t.reg c.1).toNat &&& c.2) + (Tab.get q.latched c.1).getD 0))

theorem snapCopy_eq (s : State) (q : Snap) (d : Nat) : s.snapCopy q d = (snapPlaces d).foldl (putCopy q) s := by
  rw [snapPlaces, ← places_snapFields s, List.foldl_map]
  rfl

theorem snapCopies_eq (s : State) (q : Snap) (D : List Nat) :
    s.each D (fun t d => t.snapCopy q d) = (placesOf D).foldl (putCopy q) s := by
  have h : (fun (t : State) d => t.snapCopy q d) = fun t d => (snapPlaces d).foldl (putCopy q) t :=
    funext fun t => funext fun d => snapCopy_eq t q d
  rw [placesOf, List.foldl_flatMap, State.each, h]

/-- Each place holds its copy, made of what stood there before; other registers are as they were. -/
theorem reg_putCopies (q : Snap) {l : List (Nat × Nat)} (hn : (l.map Prod.fst).Nodup) (s : State) :
    (∀ c ∈ l, (l.foldl (putCopy q) s).reg c.1
      = BitVec.ofNat 32 ((s.reg c.1).toNat - ((s.reg c.1).toNat &&& c.2) + (Tab.get q.latched c.1).getD 0))
    ∧ ∀ k, k ∉ l.map Prod.fst → (l.foldl (putCopy q) s).reg k = s.reg k := by
  induction l generalizing s with
  | nil => exact ⟨fun c hc => absurd hc List.not_mem_nil, fun _ _ => rfl⟩
  | cons c l ih =>
    rw [List.map_cons, List.nodup_cons] at hn
    obtain ⟨hc, hl⟩ := hn
    obtain ⟨hin, hout⟩ := ih hl (putCopy q s c)
    have hother {k : Nat} (hk : k ≠ c.1) : (putCopy q s c).reg k = s.reg k := State.reg_setReg_ne _ _ hk
    refine ⟨fun e he => ?_, fun k hk => ?_⟩
    · rw [List.foldl_cons]
      rcases List.mem_cons.mp he with rfl | he
      · rw [hout _ hc]
        exact State.reg_setReg_same _ _ _
      · rw [hin e he, hother (fun h => hc (h ▸ List.mem_map_of_mem he))]
    · rw [List.map_cons, List.mem_cons, not_or] at hk
      obtain ⟨hne, hkl⟩ := hk
      rw [List.foldl_cons, hout k hkl, hother hne]

/-- Beside the copies, the end of a snapshot writes only registers of the SYS window. -/
theorem snapEnd_reg (s : State) (q : Snap) (m k : Nat) (hk : 0x10000 ≤ k) :
    (s.snapEnd q m).reg k
      = ((placesOf ((maskDomains q.domains).filter (fun d => !bit m (d - 1)))).foldl (putCopy q) s).reg k := by
  have hsys (u : State) (f : Fld) (v : Nat) (hf : f.key < 0x10000) : (u.setFld f v).reg k = u.reg k :=
    State.reg_setReg_ne _ _ (by omega)
  have hevs (w : State) :
      (w.each (List.range 24) (fun t n => if t.hasCore n then t.setEvp n (2 ^ 29) else t)).reg k = w.reg k := by
    obtain ⟨c, hc⟩ := State.setEvps_eq w (List.range 24) (fun t n => t.hasCore n) (2 ^ 29)
    rw [State.each, hc]
    rfl
  have hend (u : State) :
      State.reg { (u.setFld F.SYS_SNAP_MISS_DOMAINS m).setFlag F.SYS_SNAP_STATUS_DONE with snap := none } k = u.reg k := by
    show ((u.setFld F.SYS_SNAP_MISS_DOMAINS m).setFld F.SYS_SNAP_STATUS_DONE 1).reg k = u.reg k
    rw [hsys _ F.SYS_SNAP_STATUS_DONE _ (by decide), hsys _ F.SYS_SNAP_MISS_DOMAINS _ (by decide)]
  rw [← snapCopies_eq]
  unfold State.snapEnd
  dsimp only
  split
  · exact hend _
  · rw [hevs]
    exact hend _

/-- A domain that did not miss has every field's copy in its register. -/
theorem snapEnd_copy {s : State} {q : Snap} {m d : Nat} {e : Nat × Nat × Nat} (hd : d ∈ maskDomains q.domains)
    (hm : bit m (d - 1) = false) (he : e ∈ s.snapFields d) :
    (s.snapEnd q m).reg e.1
      = BitVec.ofNat 32 ((s.reg e.1).toNat - ((s.reg e.1).toNat &&& e.2.1) + (Tab.get q.latched e.1).getD 0) := by
  have hsub : ((maskDomains q.domains).filter (fun d => !bit m (d - 1))).Sublist (List.range' 2 23) :=
    List.filter_sublist.trans (maskDomains_sublist _)
  have hcaptured : d ∈ (maskDomains q.domains).filter (fun d => !bit m (d - 1)) :=
    List.mem_filter.mpr ⟨hd, by rw [hm]; rfl⟩
  have hplace := place_mem hcaptured he
  rw [snapEnd_reg s q m e.1 (placesOf_above hsub _ hplace)]
  exact (reg_putCopies q (placesOf_nodup hsub) s).1 _ hplace

theorem effSnapshotDone_none {s : State} (h : s.snap = none) : effSnapshotDone s = s := by
  simp only [effSnapshotDone, h]

theorem effSnapshotTimeout_none {s : State} (m : Nat) (h : s.snap = none) : effSnapshotTimeout m s = s := by
  simp only [effSnapshotTimeout, h]

theorem effSnapshotDone_some {s : State} {q : Snap} (h : s.snap = some q) :
    effSnapshotDone s = if (maskDomains q.domains).any s.domainStopped then s else s.snapEnd q 0 := by
  simp only [effSnapshotDone, h]

/-- The domains that missed, as SYS_SNAP_MISS lists them. -/
def missWord (gone : List Nat) : Nat := gone.foldl (fun a d => a + 2 ^ (d - 1)) 0

theorem effSnapshotTimeout_some {s : State} {q : Snap} (m : Nat) (h : s.snap = some q) :
    effSnapshotTimeout m s =
      let gone := (maskDomains q.domains).filter (fun d => bit m (d - 1) || s.domainStopped d)
      if gone = [] ∨ s.now < q.time + 10000 then s
      else (s.snapEnd q (missWord gone)).setFlag F.SYS_SNAP_STATUS_TIMEOUT := by
  simp only [effSnapshotTimeout, h]
  rfl

/-- A sum of powers of 2 with distinct exponents has just those bits. -/
theorem missWord_bit {gone : List Nat} (hn : gone.Nodup) (hpos : ∀ d ∈ gone, 1 ≤ d) (i : Nat) :
    bit (missWord gone) i = decide (i + 1 ∈ gone) := by
  suffices H : ∀ (l : List Nat) (a : Nat), l.Nodup → (∀ d ∈ l, 1 ≤ d ∧ a.testBit (d - 1) = false) → ∀ i,
      (l.foldl (fun a d => a + 2 ^ (d - 1)) a).testBit i = (a.testBit i || decide (i + 1 ∈ l)) by
    rw [bit_eq_testBit, missWord, H gone 0 hn (fun d hd => ⟨hpos d hd, Nat.zero_testBit _⟩), Nat.zero_testBit, Bool.false_or]
  intro l
  induction l with
  | nil => intro a _ _ i; simp
  | cons d l ih =>
    intro a hn hl i
    obtain ⟨hd, hnl⟩ := List.nodup_cons.mp hn
    obtain ⟨hd1, hclear⟩ := hl d List.mem_cons_self
    have hset : ∀ j, (a + 2 ^ (d - 1)).testBit j = (a.testBit j || decide (j = d - 1)) := fun j => by
      have hzero : bits a (d - 1) 1 = 0 := by
        have := bits_lt a (d - 1) 1
        have := bit_eq_bits a (d - 1)
        rw [bit_eq_testBit, hclear] at this
        simp at this
        omega
      have hsum : a + 2 ^ (d - 1) = setBits a (d - 1) 1 1 := by
        rw [setBits, hzero]
        omega
      rw [hsum, setBits_testBit]
      by_cases hj : j = d - 1
      · simp [hj]
      · have : ¬ (d - 1 ≤ j ∧ j < d - 1 + 1) := by omega
        rw [if_neg this]
        simp [hj]
    rw [List.foldl_cons, ih _ hnl]
    · have hdi : (i = d - 1) ↔ (i + 1 = d) := by omega
      simp only [hset, List.mem_cons, hdi, Bool.decide_or, Bool.or_assoc]
    · intro e he
      obtain ⟨he1, hce⟩ := hl e (List.mem_cons_of_mem _ he)
      have hne : d - 1 ≠ e - 1 := fun h => hd (by rwa [show d = e by omega])
      rw [hset, hce]
      simp [he1, Ne.symm hne]

/-- TIMEOUT is set beside what the end of a snapshot leaves. -/
theorem timeout_frame (u : State) :
    let t := u.setFlag F.SYS_SNAP_STATUS_TIMEOUT
    t.snap = u.snap ∧ t.flag F.SYS_SNAP_STATUS_TIMEOUT = true ∧ t.flag F.SYS_SNAP_STATUS_DONE = u.flag F.SYS_SNAP_STATUS_DONE
      ∧ t.fld F.SYS_SNAP_MISS_DOMAINS = u.fld F.SYS_SNAP_MISS_DOMAINS ∧ ∀ k, 0x10000 ≤ k → t.reg k = u.reg k :=
  ⟨rfl, State.flag_setFlag _ _ (by decide) rfl, State.flag_setFld_apart _ _ _ _ (by decide) (by decide),
    State.fld_setFld_apart _ _ _ _ (by decide) (by decide),
    fun k hk => State.reg_setReg_ne _ _ (by simp only [F.SYS_SNAP_STATUS_TIMEOUT, R.SYS_SNAP_STATUS]; omega)⟩

/-- Domains are numbered 2 to 24. -/
theorem maskDomains_range {m d : Nat} (h : d ∈ maskDomains m) : 2 ≤ d ∧ d ≤ 24 := by
  have := (maskDomains_sublist m).mem h
  simp only [List.mem_range'_1] at this
  omega

/-- Settles O16: a domain that is captured keeps the value of the request's instant; which domains miss, and that EVP bit
29 follows DONE, is the model's choice (log entry 27). -/
theorem snapshots : Obligations.Snapshots := by
  unfold Obligations.Snapshots
  intro s v missed copy
  simp only [exec_snapReq, exec_snapshotDone, exec_snapshotTimeout]
  refine ⟨fun h => ?overrun, fun h => ?taken, fun h => ?none, fun q h => ⟨fun hst => ?stopped, fun hst => ?done, ?_⟩⟩
  case overrun => rw [effSnapReq_busy v h]
  case taken =>
    obtain ⟨q, hsnap, hdomains, htime, hreg, hlatched⟩ := effSnapReq_taken v h
    exact ⟨_, q, rfl, hsnap, hdomains, htime, hreg, hlatched⟩
  case none => rw [effSnapshotDone_none h, effSnapshotTimeout_none _ h]; exact ⟨rfl, rfl⟩
  case stopped => rw [effSnapshotDone_some h, hst, if_pos rfl]
  case done =>
    obtain ⟨hsnap, hflag, hmiss⟩ := snapEnd_facts s q 0
    rw [effSnapshotDone_some h, hst, if_neg (by decide)]
    exact ⟨_, rfl, hsnap, hflag, hmiss, fun d hd e he => snapEnd_copy hd (by simp [bit]) he⟩
  rw [effSnapshotTimeout_some _ h]
  dsimp only
  set gone := (maskDomains q.domains).filter (fun d => bit missed.toNat (d - 1) || s.domainStopped d)
  refine ⟨fun hearly => ?early, fun hgone hlate => ?late⟩
  case early => rw [if_pos hearly]
  case late =>
    have hlisted : gone.Nodup ∧ ∀ d ∈ gone, 2 ≤ d ∧ d ≤ 24 :=
      ⟨((List.filter_sublist).trans (maskDomains_sublist _)).nodup (List.nodup_range' ..),
        fun d hd => maskDomains_range (List.mem_filter.mp hd).1⟩
    obtain ⟨hnodup, hrange⟩ := hlisted
    have hbit (i : Nat) : bit (missWord gone) i = decide (i + 1 ∈ gone) :=
      missWord_bit hnodup (fun d hd => by have := hrange d hd; omega) i
    obtain ⟨hsnap, hflag, hmiss⟩ := snapEnd_facts s q (missWord gone)
    obtain ⟨hsnap', htimeout, hdone, hmiss', hreg⟩ := timeout_frame (s.snapEnd q (missWord gone))
    rw [if_neg (by rw [not_or]; exact ⟨hgone, Nat.not_lt.mpr hlate⟩)]
    refine ⟨_, rfl, hsnap'.trans hsnap, htimeout, hdone.trans hflag, fun d hd => ?_, fun d hd hng e he => ?_⟩
    · have hword : missWord gone % 2 ^ 24 = missWord gone := by
        apply Nat.eq_of_testBit_eq
        intro i
        rw [Nat.testBit_mod_two_pow, ← bit_eq_testBit, hbit i]
        by_cases hi : i + 1 ∈ gone
        · have := hrange _ hi
          simp [show i < 24 by omega]
        · simp [hi]
      rw [hmiss', hmiss, hword, hbit d]
    · have hgap : bit (missWord gone) (d - 1) = false := by
        have := maskDomains_range hd
        rw [hbit, show d - 1 + 1 = d by omega]
        exact decide_eq_false hng
      have habove : 0x10000 ≤ e.1 := placesOf_above (maskDomains_sublist _) _ (place_mem hd he)
      rw [hreg _ habove]
      exact snapEnd_copy hd hgap he

end Sys2Proof.Proofs.Snapshots
end

