-- ==== Sys2Proof/Proofs/Integers.lean ====
section
/-!
PROOFS. The integer instructions (R60, R61): sums and differences with C and V, logic, shifts, comparisons, counts,
products and quotients.
-/
namespace Sys2Proof.Proofs.Integers

open Sys2Proof.Machine
open Sys2Proof.Proofs.Branches (exec_spelt bne_word sx_lt_word sx_le_word)

/-! ### One rule for each form of instruction

`i` is the instruction that the word spells; its meaning, `hexec`, is a case of the dispatch and holds by computation. -/

section forms
variable {s : State} {n : Fin 24} {rd ra rb : Fin 32} {i : Instr} {v : Word}

/-- An instruction of three registers. -/
theorem exec_op3 {f : Nat → Nat → Nat} (h : s.Issues n.val)
    (hexec : exec i s = .next (s.fetched n.val i (fun t => t.op3 n.val rd.val ra.val rb.val f)).collect)
    (hv : BitVec.ofNat 32 (f ((s.core n.val).rd ra).toNat ((s.core n.val).rd rb).toNat) = v) (hi : s.spells n.val i) :
    exec i s = .next (s.modCore n.val (fun q => (q.wr rd v).goOn)) := by
  rw [exec_spelt h hexec hi, State.op3_row s n rd ra rb f v h hv]

/-- An instruction of two registers, or of a register and an immediate. -/
theorem exec_op2 {f : Nat → Nat} (h : s.Issues n.val)
    (hexec : exec i s = .next (s.fetched n.val i (fun t => t.op2 n.val rd.val ra.val f)).collect)
    (hv : BitVec.ofNat 32 (f ((s.core n.val).rd ra).toNat) = v) (hi : s.spells n.val i) :
    exec i s = .next (s.modCore n.val (fun q => (q.wr rd v).goOn)) := by
  rw [exec_spelt h hexec hi, State.op2_row s n rd ra f v h hv]

/-- An instruction that is all that its core becomes. -/
theorem exec_core {f g : Core → Core} (h : s.Issues n.val)
    (hexec : exec i s = .next (s.fetched n.val i (fun t => t.issueCore n.val f)).collect)
    (hf : ∀ c : Core, c = s.core n.val → (f c.issuing).next = g c) (hi : s.spells n.val i) :
    exec i s = .next (s.modCore n.val g) := by
  rw [exec_spelt h hexec hi, State.coreStep s n.val f g h.ready h.calm h.safe (hf _ rfl)]

end forms

/-! ### Sums and differences -/

theorem cin_eq (c : Core) : c.issuing.cin = b2n (bit c.flags 0) := rfl

theorem b2n_le_one (b : Bool) : b2n b ≤ 1 := by cases b <;> decide

/-- Settles O17: a sum with its carry and a difference with its borrow are one rule each, with the carry in as given. -/
theorem integerSums : Obligations.IntegerSums := by
  unfold Obligations.IntegerSums
  intro s n rd ra rb imm h runs a b x k put
  have hk : k ≤ 1 := b2n_le_one _
  refine ⟨?add, ?addi, ?adc, ?sub, ?sbc⟩
  case add =>
    refine exec_core h rfl fun c hc => ?_
    rw [Core.gr_val, Core.gr_val, Core.rd_issuing, Core.rd_issuing, Core.sum_word, hc]
  case addi =>
    refine exec_core h rfl fun c hc => ?_
    rw [Core.gr_val, Core.rd_issuing, sext16_word, Core.sum_word, hc]
  case adc =>
    refine exec_core h rfl fun c hc => ?_
    rw [Core.gr_val, Core.gr_val, Core.rd_issuing, Core.rd_issuing, Core.addFlags_word, word_sum, cin_eq, hc]
  case sub =>
    refine exec_core h rfl fun c hc => ?_
    rw [Core.gr_val, Core.gr_val, Core.rd_issuing, Core.rd_issuing, Core.diff_word, hc]
  case sbc =>
    refine exec_core h rfl fun c hc => ?_
    rw [Core.gr_val, Core.gr_val, Core.rd_issuing, Core.rd_issuing, cin_eq, Core.subFlags_word _ _ _ _ _ (by omega),
      word_diff _ _ _ (by omega), hc]

/-! ### Logic and shifts -/

theorem word_nor (a b : Word) : BitVec.ofNat 32 (2 ^ 32 - 1 - (a.toNat ||| b.toNat)) = ~~~(a ||| b) := by
  apply BitVec.eq_of_toNat_eq
  have := (a ||| b).isLt
  rw [BitVec.toNat_not, BitVec.toNat_or, BitVec.toNat_ofNat] at *
  omega

theorem imm_word (imm : BitVec 16) : imm.toNat = (imm.setWidth 32 : Word).toNat := by
  rw [BitVec.toNat_setWidth, Nat.mod_eq_of_lt (Nat.lt_trans imm.isLt (by decide))]

theorem word_lih (imm : BitVec 16) : BitVec.ofNat 32 (imm.toNat * 2 ^ 16) = (imm.setWidth 32 : Word) <<< 16 := by
  apply BitVec.eq_of_toNat_eq
  rw [BitVec.toNat_shiftLeft, BitVec.toNat_ofNat, ← imm_word, Nat.shiftLeft_eq]

theorem word_mul (a b : Word) : BitVec.ofNat 32 (a.toNat * b.toNat) = a * b := by
  apply BitVec.eq_of_toNat_eq
  rw [BitVec.toNat_mul, BitVec.toNat_ofNat]

/-- SHI, by the operation that bits [6:5] of its amount choose. -/
theorem exec_shi {s : State} {n : Fin 24} {rd ra : Fin 32} {imm : BitVec 16} {v : Word} (h : s.Issues n.val)
    (hi : s.spells n.val (.crShi n rd ra imm)) (hlt : imm.toNat < 128)
    (hv : BitVec.ofNat 32 (match imm.toNat / 32 with
      | 0 => sll32 ((s.core n.val).rd ra).toNat imm.toNat
      | 1 => srl32 ((s.core n.val).rd ra).toNat imm.toNat
      | 2 => sra32 ((s.core n.val).rd ra).toNat imm.toNat
      | _ => ror32 ((s.core n.val).rd ra).toNat imm.toNat) = v) :
    exec (.crShi n rd ra imm) s = .next (s.modCore n.val (fun q => (q.wr rd v).goOn)) := by
  rw [exec_spelt h rfl hi]
  exact congrArg _ (State.shi_row s n rd ra imm.toNat v h hlt hv)

/-- Settles O18: each instruction is its word operation; the two top bits of SHI's amount choose the shift. -/
theorem logicAndShifts : Obligations.LogicAndShifts := by
  unfold Obligations.LogicAndShifts
  intro s n rd ra rb imm h runs a b z k m put
  refine ⟨⟨?and, ?or, ?xor, ?nor, ?andi, ?ori, ?xori, ?lih⟩, ⟨?sll, ?srl, ?sra, ?ror⟩, ?shiLeft, ?shiRight, ?shiSigned,
    ?shiRotate⟩
  case and => exact exec_op3 h rfl (by rw [← BitVec.toNat_and, word_id])
  case or => exact exec_op3 h rfl (by rw [← BitVec.toNat_or, word_id])
  case xor => exact exec_op3 h rfl (by rw [← BitVec.toNat_xor, word_id])
  case nor => exact exec_op3 h rfl (word_nor a b)
  case andi => exact exec_op2 h rfl (by rw [imm_word, ← BitVec.toNat_and, word_id])
  case ori => exact exec_op2 h rfl (by rw [imm_word, ← BitVec.toNat_or, word_id])
  case xori => exact exec_op2 h rfl (by rw [imm_word, ← BitVec.toNat_xor, word_id])
  case lih =>
    refine exec_core h rfl fun c _ => ?_
    rw [Core.setG_next, word_lih]
  case sll => exact exec_op3 h rfl (word_sll a _)
  case srl => exact exec_op3 h rfl (word_srl a _)
  case sra => exact exec_op3 h rfl (word_sra a _)
  case ror => exact exec_op3 h rfl (word_ror a _)
  case shiLeft => exact fun hlt hi => exec_shi h hi (by omega) (by rw [Nat.div_eq_of_lt hlt]; exact word_sll a _)
  case shiRight =>
    rintro ⟨hlo, hhi⟩ hi
    exact exec_shi h hi (by omega) (by rw [show imm.toNat / 32 = 1 by omega]; exact word_srl a _)
  case shiSigned =>
    rintro ⟨hlo, hhi⟩ hi
    exact exec_shi h hi (by omega) (by rw [show imm.toNat / 32 = 2 by omega]; exact word_sra a _)
  case shiRotate =>
    rintro ⟨hlo, hhi⟩ hi
    exact exec_shi h hi (by omega) (by rw [show imm.toNat / 32 = 3 by omega]; exact word_ror a _)

/-! ### Comparisons and counts -/

/-- A number chosen from two words is the word chosen. -/
theorem word_ite (p : Prop) [Decidable p] (a b : Word) : BitVec.ofNat 32 (if p then a.toNat else b.toNat) = if p then a else b := by
  split <;> exact word_id _

theorem sx_lt_iff (a b : Word) : sx 32 a.toNat < sx 32 b.toNat ↔ a.slt b = true := by
  rw [← sx_lt_word, decide_eq_true_eq]

theorem sx16_lt_iff (a : Word) (imm : BitVec 16) : sx 32 a.toNat < sx 16 imm.toNat ↔ a.slt (imm.signExtend 32) = true := by
  rw [sx16_word, sx_word 32 a (by decide), BitVec.slt_iff_toInt_lt]

/-- Settles O19: the signed order is the order of signed numbers, the unsigned one that of the numbers themselves. -/
theorem comparesAndCounts : Obligations.ComparesAndCounts := by
  unfold Obligations.ComparesAndCounts
  intro s n rd ra rb imm h runs a b x put
  refine ⟨?clt, ?cltu, ?clti, ?cltiu, ?min, ?max, ?minu, ?maxu, ?clz, ?popc⟩
  case clt => exact exec_op3 h rfl (by simp only [word_decide, sx_lt_iff]; rfl)
  case cltu => exact exec_op3 h rfl (word_decide _)
  case clti => exact exec_op2 h rfl (by simp only [word_decide, sx16_lt_iff]; rfl)
  case cltiu => exact exec_op2 h rfl (by rw [sext16_word]; exact word_decide _)
  case min => exact exec_op3 h rfl (by simp only [word_ite, sx_lt_iff]; rfl)
  case max => exact exec_op3 h rfl (by simp only [word_ite, sx_lt_iff]; rfl)
  case minu => exact exec_op3 h rfl (word_ite _ a b)
  case maxu => exact exec_op3 h rfl (word_ite _ b a)
  case clz => exact exec_op2 h rfl (word_clz a)
  case popc => exact exec_op2 h rfl (word_popc a)

/-! ### Products and quotients -/

/-- Settles O20: the low and high words of the products, and quotients whose cases with divisor 0 are values. -/
theorem productsAndQuotients : Obligations.ProductsAndQuotients := by
  unfold Obligations.ProductsAndQuotients
  intro s n rd ra rb h runs a b put
  refine ⟨?mul, ?mulh, ?mulhu, ?div, ?divu, ?rem, ?remu⟩
  case mul => exact exec_op3 h rfl (word_mul a b)
  case mulh => exact exec_op3 h rfl (word_mulh a b)
  case mulhu => exact exec_op3 h rfl (word_mulhu a b)
  case div => exact exec_op3 h rfl (word_div a b)
  case divu => exact exec_op3 h rfl (word_divu a b)
  case rem => exact exec_op3 h rfl (word_rem a b)
  case remu => exact exec_op3 h rfl (word_remu a b)

end Sys2Proof.Proofs.Integers
end

