-- ==== Sys2Proof/Proofs/CoreControl.lean ====
section
/-!
PROOFS. Control registers (R49), traps and returns (R77 to R80), time and events (R66 to R72), stalls and interrupts, and
the DSP extension (R76).
-/
namespace Sys2Proof.Proofs.CoreControl

open Sys2Proof.Machine
open Sys2Proof.Proofs.Branches (exec_spelt)

/-! ### Control registers -/

section registers
variable {s : State} {n : Fin 24} {rd ra : Fin 32} {k : BitVec 5}

/-- RDC of a control register whose value is `v`. -/
theorem exec_rdc {v : Nat} {w : Word} (h : s.Issues n.val) (hv : (s.core n.val).rdc n.val k.toNat = some v)
    (hw : BitVec.ofNat 32 v = w) (hi : s.spells n.val (.crRdc n rd k)) :
    exec (.crRdc n rd k) s = .next (s.modCore n.val (fun q => (q.wr rd w).goOn)) := by
  rw [exec_spelt h rfl hi, State.rdc_row s n rd k.toNat v h hv, hw]

/-- WRC of a control register that a write changes as `f` does. -/
theorem exec_wrc {f : Core → Core} (h : s.Issues n.val)
    (hv : (s.core n.val).issuing.wrc n.val k.toNat ((s.core n.val).rd ra).toNat = some (f (s.core n.val).issuing))
    (hf : (f (s.core n.val).issuing).next = (f (s.core n.val)).goOn) (hi : s.spells n.val (.crWrc n ra k)) :
    exec (.crWrc n ra k) s = .next (s.modCore n.val (fun q => (f q).goOn)) := by
  rw [exec_spelt h rfl hi]
  exact congrArg _ (State.wrc_row s n ra k.toNat f h hv hf)

end registers

theorem servo_of_le {n : Nat} (h : 16 ≤ n) : servoCore n = true := decide_eq_true h

theorem b2n_servo (n k : Nat) : b2n (servoCore n) * k = if 16 ≤ n then k else 0 := by
  unfold servoCore
  split <;> simp [b2n, *]

theorem bits_low (v w : Nat) : bits v 0 w = v % 2 ^ w := by rw [bits, Nat.pow_zero, Nat.div_one]

theorem sx8_eq (a : Word) : sx 8 a.toNat = (a.setWidth 8).toInt := by
  rw [← sx_word 8 _ (by decide), BitVec.toNat_setWidth]
  unfold sx
  rw [Nat.mod_mod]
  norm_num

/-- The low word of an accumulator replaced. -/
theorem accLo_eq (x : Int) (v : Nat) : accLo x v = x / 2 ^ 32 * 2 ^ 32 + v := rfl

/-- The high byte of an accumulator replaced. -/
theorem accHi_eq (x : Int) (a : Word) : accHi x a.toNat = (a.setWidth 8).toInt * 2 ^ 32 + x % 2 ^ 32 := by
  unfold accHi ux
  rw [sx8_eq, Int.toNat_of_nonneg (Int.emod_nonneg _ (by decide))]

/-- Settles O22: each number names its register, for reading and for writing. -/
theorem controlRegisters : Obligations.ControlRegisters := by
  unfold Obligations.ControlRegisters
  intro s n rd ra h runs c a get put num
  refine ⟨⟨?r0, ?r1, ?r2, ?r3, ?r4, ?r5, ?r6, ?r7, ?r8, ?r9, ?r10, ?r11, ?r12, ?r13, ?r14, ?r15⟩,
    ⟨?w0, ?w1, ?w2, ?w3, ?w4, ?w5, ?w7, ?w8, ?w9, ?w12, ?w13, ?w14, ?w15⟩,
    fun hn => ⟨⟨?r16, ?r17, ?r18, ?r19⟩, ?w16, ?w17, ?w18, ?w19⟩⟩
  case r0 => exact exec_rdc h rfl rfl
  case r1 => exact exec_rdc h rfl (by rw [b2n_servo] <;> rfl)
  case r2 => exact exec_rdc h rfl (word_id _)
  case r3 => exact exec_rdc h rfl (word_id _)
  case r4 => exact exec_rdc h rfl (word_id _)
  case r5 => exact exec_rdc h rfl rfl
  case r6 => exact exec_rdc h rfl rfl
  case r7 => exact exec_rdc h rfl (word_id _)
  case r8 => exact exec_rdc h rfl rfl
  case r9 => exact exec_rdc h rfl rfl
  case r10 => exact exec_rdc h rfl (by rw [b2n_servo] <;> rfl)
  case r11 => exact exec_rdc h rfl rfl
  case r12 => exact exec_rdc h rfl rfl
  case r13 => exact exec_rdc h rfl rfl
  case r14 => exact exec_rdc h rfl (word_id _)
  case r15 => exact exec_rdc h rfl (word_id _)
  case w0 => exact exec_wrc h (by rw [← show bits a.toNat 0 5 = a.toNat % 32 from bits_low _ _]; rfl) rfl
  case w1 => exact exec_wrc h (by rw [← show bits a.toNat 0 4 = a.toNat % 16 from bits_low _ _]; rfl) rfl
  case w2 => exact exec_wrc h (by rw [← word_id a]; rfl) rfl
  case w3 => exact exec_wrc h (by rw [← show bits a.toNat 0 4 = a.toNat % 16 from bits_low _ _]; rfl) rfl
  case w4 => exact exec_wrc h (by rw [← word_id a]; rfl) rfl
  case w5 => exact exec_wrc h rfl rfl
  case w7 => exact exec_wrc h (by rw [← word_id a]; rfl) rfl
  case w8 => exact exec_wrc h (by rw [← show bits a.toNat 0 10 = a.toNat % 1024 from bits_low _ _]; rfl) rfl
  case w9 => exact exec_wrc h (by rw [← show bits a.toNat 0 10 = a.toNat % 1024 from bits_low _ _]; rfl) rfl
  case w12 => exact exec_wrc h rfl rfl
  case w13 => exact exec_wrc h rfl rfl
  case w14 => exact exec_wrc h (by rw [← word_id a]; rfl) rfl
  case w15 => exact exec_wrc h (by rw [← word_id a]; rfl) rfl
  case r16 => exact exec_rdc h (if_pos (servo_of_le hn)) (ofNat_ux 32 _)
  case r17 => exact exec_rdc h (if_pos (servo_of_le hn)) (ofNat_ux 32 _)
  case r18 => exact exec_rdc h (if_pos (servo_of_le hn)) (ofNat_ux 32 _)
  case r19 => exact exec_rdc h (if_pos (servo_of_le hn)) (ofNat_ux 32 _)
  case w16 => exact exec_wrc h (if_pos (servo_of_le hn)) rfl
  case w17 => exact exec_wrc h ((if_pos (servo_of_le hn)).trans (by rw [accHi_eq])) rfl
  case w18 => exact exec_wrc h (if_pos (servo_of_le hn)) rfl
  case w19 => exact exec_wrc h ((if_pos (servo_of_le hn)).trans (by rw [accHi_eq])) rfl

/-! ### Traps -/

/-- An instruction that changes its core alone. -/
theorem issue_modCore {s : State} {n : Fin 24} (h : s.Issues n.val) (g : Core → Core) :
    (s.issue n.val (fun t => t.modCore n.val g)).collect = s.modCore n.val (fun c => g c.issuing) := by
  rw [State.issue_ready _ _ _ h.ready, State.modCore_modCore, collect_modCore _ _ _ h.calm h.safe]

/-- TRAP outside a handler: EPC is the next instruction (R64). -/
theorem exec_trap {s : State} {n : Fin 24} {code : BitVec 5} (h : s.Issues n.val) (ht : (s.core n.val).inTrap = false)
    (hi : s.spells n.val (.crTrap n code)) :
    exec (.crTrap n code) s
      = .next (s.modCore n.val (fun q => q.issuing.trapped 6 code.toNat ((q.pc + 4) % 65536) 0)) := by
  rw [exec_spelt h rfl hi]
  unfold State.effTrap
  have hc : (s.modCore n.val Core.issuing).core n.val = (s.core n.val).issuing := State.core_modCore _ _ _ n.isLt
  rw [State.issue_ready _ _ _ h.ready, State.trap_entered _ _ _ _ _ _ code.isLt (by rw [hc]; exact ht),
    State.modCore_modCore, collect_modCore _ _ _ h.calm h.safe, hc]
  exact congrArg _ (State.modCore_congr _ _ _ _ rfl)

/-- RTE goes back to EPC, of which the program counter takes bits [15:2] (log entry 97). -/
theorem exec_rte {s : State} {n : Fin 24} (h : s.Issues n.val) (hi : s.spells n.val (.crRte n)) :
    exec (.crRte n) s = .next (s.modCore n.val (fun q => ({ q with
      status := setBits (setBits q.status 0 1 (q.status / 2)) 2 1 0 } : Core).goTo (q.epc.toNat / 4 * 4))) := by
  rw [exec_spelt h rfl hi]
  refine congrArg _ ((issue_modCore h _).trans (State.modCore_congr _ _ _ _ ?_))
  rw [status_rte]
  rfl

/-- Settles O23: TRAP is a trap with the next instruction's address, RTE puts STATUS and the program counter back.
That RTE drops bits [1:0] and [31:16] of EPC is the model's choice (log entry 97). -/
theorem trapAndReturn : Obligations.TrapAndReturn := by
  unfold Obligations.TrapAndReturn
  intro s n code h
  exact ⟨fun ht => exec_trap h ht, exec_rte h⟩

/-- A synchronous trap inside a handler halts the core (R80). -/
theorem trap_in_handler {s : State} {n : Fin 24} (cause epc ebad code : Nat) (ht : (s.core n.val).inTrap = true)
    (hc : cause ≠ tInterrupt) :
    (s.modCore n.val Core.issuing).trap n.val cause epc ebad code
      = ((s.setReg (R.CRS_TRAPINFO n.val)
            (BitVec.ofNat 32 (cause + (s.core n.val).ecause.toNat % 16 * 16 + (s.core n.val).pc / 4 % 2 ^ 14 * 256))).modCore
          n.val (fun q => { q.issuing with run := .halted })).raise (33 + 2 * n.val) := by
  have hcore : (s.modCore n.val Core.issuing).core n.val = (s.core n.val).issuing := State.core_modCore _ _ _ n.isLt
  have ht' : ((s.modCore n.val Core.issuing).core n.val).inTrap = true := by rw [hcore]; exact ht
  have hlow : bits (s.core n.val).issuing.ecause.toNat 0 4 = (s.core n.val).ecause.toNat % 16 := bits_low _ _
  unfold State.trap
  rw [ht', if_pos (by rw [bne_iff_ne.mpr hc]; rfl)]
  unfold State.doubleTrap
  rw [hcore, hlow]
  refine congrArg (fun t : State => t.raise (33 + 2 * n.val)) ?_
  exact State.modCore_modCore (s.setReg _ _) n.val Core.issuing (fun c => { c with run := .halted, atPair := false })

/-- Settles O28: both instructions reach the double trap, the shift as ILLEGAL and TRAP by itself. -/
theorem doubleTrap : Obligations.DoubleTrap := by
  unfold Obligations.DoubleTrap
  intro s n rd ra imm code h ht runs halt
  refine ⟨fun himm hi => ?shi, fun hi => ?trap⟩
  case shi =>
    have hno : ¬ decide (imm.toNat < 128) = true := by rw [decide_eq_true_eq]; omega
    rw [exec_spelt h rfl hi]
    unfold State.effShi State.issueIf State.illegal
    rw [State.issue_ready _ _ _ h.ready, if_neg hno, trap_in_handler _ _ _ _ ht (by decide)]
    rfl
  case trap =>
    rw [exec_spelt h rfl hi]
    unfold State.effTrap
    rw [State.issue_ready _ _ _ h.ready, trap_in_handler _ _ _ _ ht (by decide)]
    rfl

/-! ### Time and events -/

section time
variable {s : State} {n : Fin 24} {rd ra rb : Fin 32} {i : Instr}

/-- An instruction on pairs that are all there. -/
theorem exec_pair {f : Core → Nat} {ok : Bool} {w : BitVec 64} (h : s.Issues n.val)
    (hexec : exec i s = .next (s.fetched n.val i (fun t => t.issueIf n.val ok (fun c => c.setPair rd.val (f c)))).collect)
    (hok : ok = true) (hr : evenReg rd) (hv : BitVec.ofNat 64 (f (s.core n.val).issuing) = w) (hi : s.spells n.val i) :
    exec i s = .next (s.modCore n.val (fun c => (c.wr2 rd w).goOn)) := by
  rw [exec_spelt h hexec hi, State.pair_row s n rd ok f w h hok hr hv]

theorem word64_add (a b : BitVec 64) : BitVec.ofNat 64 (a.toNat + b.toNat) = a + b :=
  BitVec.eq_of_toNat_eq (by rw [BitVec.toNat_ofNat, BitVec.toNat_add])

theorem word64_sub (a b : BitVec 64) : BitVec.ofNat 64 (a.toNat + 2 ^ 64 - b.toNat) = a - b := by
  apply BitVec.eq_of_toNat_eq
  have := b.isLt
  rw [BitVec.toNat_ofNat, BitVec.toNat_sub, show a.toNat + 2 ^ 64 - b.toNat = 2 ^ 64 - b.toNat + a.toNat by omega]

theorem pair_issuing (c : Core) (r : Nat) : c.issuing.pair r = c.pair r := rfl

/-- AT: in the past it lets the next instruction issue at once, else the core stalls on it (R68). -/
theorem exec_at (h : s.Issues n.val) (he : evenReg ra) (hi : s.spells n.val (.crAt n ra)) :
    exec (.crAt n ra) s = .next (s.modCore n.val (fun q =>
      if (s.core n.val).rd2 ra < s.ptime then { (q.flagged 2 true).goOn with atPair := true }
      else { q.issuing.flagged 2 false with run := .atWait ((s.core n.val).rd2 ra).toNat })) := by
  have hok : ¬ pairOk ra.val = false := by rw [(pairOk_iff ra).mpr he]; decide
  rw [exec_spelt h rfl hi]
  unfold State.effAt
  rw [State.issue_ready _ _ _ h.ready]
  dsimp only
  rw [if_neg hok, State.modCore_modCore, collect_modCore _ _ _ h.calm h.safe]
  refine congrArg _ (State.modCore_congr _ _ _ _ ?_)
  simp only [Core.pair_eq _ _ he, Core.putFlag_eq]
  rfl

/-- What WAIT does where it may complete (R70). -/
theorem exec_wait (h : s.Issues n.val) (hw : ((s.core n.val).rd ra).toNat ≠ 0 ∨ (s.core n.val).dle = true)
    (hi : s.spells n.val (.crWait n rd ra)) :
    exec (.crWait n rd ra) s = .next (s.modCore n.val (fun q =>
      if (s.core n.val).evp &&& ((s.core n.val).rd ra).toNat ≠ 0 then
        ((({ q with evp := (s.core n.val).evp - ((s.core n.val).evp &&& ((s.core n.val).rd ra).toNat) } : Core).wr rd
          (BitVec.ofNat 32 ((s.core n.val).evp &&& ((s.core n.val).rd ra).toNat))).flagged 3 false).goOn
      else if (s.core n.val).dle = true ∧ (s.core n.val).wdl ≤ s.now then ((q.wr rd 0).flagged 3 true).goOn
      else { q.issuing with run := .waiting ((s.core n.val).rd ra).toNat rd.val })) := by
  have hrun := State.ready_run _ _ h.ready
  have hcore : (s.modCore n.val Core.issuing).core n.val = (s.core n.val).issuing := State.core_modCore _ _ _ n.isLt
  have hstall : ¬ (((s.core n.val).rd ra).toNat = 0 ∧ (s.core n.val).issuing.dle = false) := by
    rintro ⟨hm, hd⟩
    rcases hw with h1 | h1
    · exact h1 hm
    · exact absurd (h1.symm.trans hd) (by decide)
  rw [exec_spelt h rfl hi]
  unfold State.effWait
  rw [State.issue_ready _ _ _ h.ready]
  dsimp only
  rw [hcore, Core.gr_val, Core.rd_issuing, if_neg hstall, State.modCore_modCore, collect_modCore _ _ _ h.calm h.safe]
  refine congrArg _ (State.modCore_congr _ _ _ _ ?_)
  rw [Core.waitDone_eq, Core.waitLate_eq]
  refine if_congr Iff.rfl (Core.done_goOn _ rd _ _ false hrun) (if_congr ?_ ?_ rfl)
  · rw [Bool.and_eq_true, decide_eq_true_eq]; rfl
  · exact Core.done_goOn (s.core n.val) rd (s.core n.val).evp 0 true hrun

end time

/-- Settles O24: times are numbers of 64 bits in pairs, WAIT and AT are judged against press time. -/
theorem timeAndEvents : Obligations.TimeAndEvents := by
  unfold Obligations.TimeAndEvents
  intro s n rd ra rb h runs c m next
  refine ⟨?rdtime, ?sums, ?tlt, exec_at h, exec_wait h, ?evset, ?evclr⟩
  case rdtime =>
    intro hd hi
    rw [exec_spelt h rfl hi]
    exact congrArg _ (State.pair_row s n rd _ (fun _ => s.now) s.ptime h ((pairOk_iff rd).mpr hd) hd (word64_id s.ptime))
  case sums =>
    rintro ⟨hd, ha, hb⟩
    have hok : (pairOk rd.val && pairOk ra.val && pairOk rb.val) = true := by
      rw [(pairOk_iff rd).mpr hd, (pairOk_iff ra).mpr ha, (pairOk_iff rb).mpr hb]; rfl
    refine ⟨exec_pair (f := fun q => q.pair ra.val + q.pair rb.val) h rfl hok hd ?_,
      exec_pair (f := fun q => q.pair ra.val + 2 ^ 64 - q.pair rb.val) h rfl hok hd ?_⟩
    · rw [pair_issuing, pair_issuing, Core.pair_eq _ _ ha, Core.pair_eq _ _ hb]; exact word64_add _ _
    · rw [pair_issuing, pair_issuing, Core.pair_eq _ _ ha, Core.pair_eq _ _ hb]; exact word64_sub _ _
  case tlt =>
    rintro ⟨ha, hb⟩ hi
    have hok : (pairOk ra.val && pairOk rb.val) = true := by
      rw [(pairOk_iff ra).mpr ha, (pairOk_iff rb).mpr hb]; rfl
    rw [exec_spelt h rfl hi]
    unfold State.effTlt
    rw [State.issueIf_true _ _ _ _ hok]
    refine congrArg _ (State.setG_row s n rd _ _ h ?_)
    rw [pair_issuing, pair_issuing, Core.pair_eq _ _ ha, Core.pair_eq _ _ hb]
    exact word_decide _
  case evset =>
    refine Integers.exec_core h rfl fun c hc => ?_
    rw [Core.gr_val, Core.rd_issuing, hc]; rfl
  case evclr =>
    refine Integers.exec_core h rfl fun c hc => ?_
    rw [Core.gr_val, Core.rd_issuing, hc]; rfl

/-! ### Stalls and interrupts -/

section stalls
variable {s : State} {n : Fin 24} (hc : s.calm) (ho : s.OutputsSafe)
include hc ho

/-- An interrupt is a trap wherever the core stands: it is never a double trap (R80). -/
theorem interrupt_row (epc : Nat) :
    (s.trap n.val tInterrupt epc 0).collect = s.modCore n.val (fun q => q.trapped 7 0 epc 0) := by
  unfold State.trap
  rw [show (tInterrupt != tInterrupt) = false from rfl, Bool.and_false, if_neg (by decide), collect_modCore _ _ _ hc ho]
  exact congrArg _ (funext fun c => Core.enter_eq c _ _ _ _ (by decide))

/-- The interrupt of a core that stands at a boundary, running or stalled in an AT. -/
theorem interrupt_taken (h : s.effInterrupt n.val = s.trap n.val tInterrupt (s.core n.val).pc 0) :
    exec (.interrupt n) s = .next (s.modCore n.val (fun q => q.trapped 7 0 q.pc 0)) := by
  rw [show exec (.interrupt n) s = .next (s.effInterrupt n.val).collect from rfl, h, interrupt_row hc ho]
  exact congrArg _ (State.modCore_congr _ _ _ _ rfl)

theorem interrupt_none (h : s.effInterrupt n.val = s) : exec (.interrupt n) s = .next s := by
  rw [show exec (.interrupt n) s = .next (s.effInterrupt n.val).collect from rfl, h, collect_calm _ hc ho]

end stalls

theorem effInterrupt_running {s : State} {n : Nat} (hn : s.hasCore n = true) (hr : (s.core n).run = .running) :
    s.effInterrupt n
      = if (s.core n).intDue && !(s.core n).atPair then s.trap n tInterrupt (s.core n).pc 0 else s := by
  unfold State.effInterrupt
  rw [if_neg (by rw [hn]; decide), hr]

theorem effInterrupt_atWait {s : State} {n t : Nat} (hn : s.hasCore n = true) (hr : (s.core n).run = .atWait t) :
    s.effInterrupt n = if (s.core n).intDue then s.trap n tInterrupt (s.core n).pc 0 else s := by
  unfold State.effInterrupt
  rw [if_neg (by rw [hn]; decide), hr]

theorem effInterrupt_waiting {s : State} {n m rd : Nat} (hn : s.hasCore n = true) (hr : (s.core n).run = .waiting m rd) :
    s.effInterrupt n
      = if (s.core n).evp &&& m ≠ 0 then
          if ((s.modCore n (fun c => c.waitDone rd m)).core n).intDue then
            (s.modCore n (fun c => c.waitDone rd m)).trap n tInterrupt
              ((s.modCore n (fun c => c.waitDone rd m)).core n).pc 0
          else s.modCore n (fun c => c.waitDone rd m)
        else if (s.core n).intDue m then s.trap n tInterrupt (s.core n).pc 0 else s := by
  unfold State.effInterrupt
  rw [if_neg (by rw [hn]; decide), hr]

theorem effAtRelease_at {s : State} {n t : Nat} (hn : s.hasCore n = true) (hr : (s.core n).run = .atWait t) :
    s.effAtRelease n
      = if t ≤ s.now then s.modCore n (fun c => { c.next with run := .running, atPair := true, lastPc := c.pc }) else s := by
  unfold State.effAtRelease
  rw [hr]
  dsimp only
  rw [hn, Bool.true_and]
  exact if_congr decide_eq_true_iff rfl rfl

theorem effWaitWake_waiting {s : State} {n m rd : Nat} (hn : s.hasCore n = true) (hr : (s.core n).run = .waiting m rd) :
    s.effWaitWake n = if (s.core n).evp &&& m ≠ 0 then s.modCore n (fun c => c.waitDone rd m) else s := by
  unfold State.effWaitWake
  rw [hr]
  dsimp only
  rw [hn, Bool.true_and]
  exact if_congr bne_iff_ne rfl rfl

theorem effWaitDeadline_waiting {s : State} {n m rd : Nat} (hn : s.hasCore n = true)
    (hr : (s.core n).run = .waiting m rd) :
    s.effWaitDeadline n
      = if (s.core n).evp &&& m ≠ 0 then s.modCore n (fun c => c.waitDone rd m)
        else if (s.core n).dle = true ∧ (s.core n).wdl ≤ s.now then s.modCore n (fun c => c.waitLate rd) else s := by
  unfold State.effWaitDeadline
  rw [hr]
  dsimp only
  rw [if_neg (by rw [hn]; decide)]
  refine if_congr Iff.rfl rfl (if_congr ?_ rfl rfl)
  rw [Bool.and_eq_true, decide_eq_true_eq]

/-- Settles O25: by what the core is doing, and for each command by whether its time or its events have come. That an
interrupt is taken in the stall of an AT or WAIT that is itself the second of an AT pair is the model's choice
(log entry 98). -/
theorem stallsAndInterrupts : Obligations.StallsAndInterrupts := by
  unfold Obligations.StallsAndInterrupts
  intro s n hn hc ho c next done
  have hdone : ∀ (m : Nat) (rd : Fin 32), s.modCore n.val (fun q => q.waitDone rd.val m) = s.modCore n.val (done m rd) :=
    fun m rd => State.modCore_congr _ _ _ _ (Core.waitDone_eq _ rd m)
  have hcol : ∀ f : Core → Core, (s.modCore n.val f).collect = s.modCore n.val f := fun f => collect_modCore s n.val f hc ho
  have hrel : exec (.atRelease n) s = .next (s.effAtRelease n.val).collect := rfl
  have hwake : exec (.waitWake n) s = .next (s.effWaitWake n.val).collect := rfl
  have hdead : exec (.waitDeadline n) s = .next (s.effWaitDeadline n.val).collect := rfl
  have hint : exec (.interrupt n) s = .next (s.effInterrupt n.val).collect := rfl
  refine ⟨fun t hr => ⟨fun hle => ?released, fun hlt => ?early, fun hd => ?atInt, fun hd => ?atNone⟩,
    fun m rd hr => ⟨fun he => ⟨?woken, ?deadWoken, ?intWoken⟩,
      fun he => ⟨?asleep, fun hd => ?late, fun hd => ?notLate, fun hd => ?waitInt, fun hd => ?waitNone⟩⟩,
    fun hr => ⟨fun hd => ?runInt, fun hd => ?runNone⟩⟩
  case released =>
    rw [hrel, effAtRelease_at hn hr, if_pos hle, hcol]
    rfl
  case early => rw [hrel, effAtRelease_at hn hr, if_neg (Nat.not_le.mpr hlt), collect_calm _ hc ho]
  case atInt => exact interrupt_taken hc ho (by rw [effInterrupt_atWait hn hr, if_pos hd])
  case atNone => exact interrupt_none hc ho (by rw [effInterrupt_atWait hn hr, if_neg (by rw [hd]; decide)])
  case woken => rw [hwake, effWaitWake_waiting hn hr, if_pos he, hdone, hcol]
  case deadWoken => rw [hdead, effWaitDeadline_waiting hn hr, if_pos he, hdone, hcol]
  case intWoken =>
    have hcore : (s.modCore n.val (done m rd)).core n.val = done m rd (s.core n.val) := State.core_modCore _ _ _ n.isLt
    rw [hint, effInterrupt_waiting hn hr, if_pos he, hdone, hcore]
    refine congrArg _ ?_
    by_cases hd : (done m rd (s.core n.val)).intDue = true
    · rw [if_pos hd, interrupt_row (s := s.modCore n.val (done m rd)) hc ho, State.modCore_modCore]
      exact State.modCore_congr _ _ _ _ (if_pos hd).symm
    · rw [if_neg hd, hcol]
      exact State.modCore_congr _ _ _ _ (if_neg hd).symm
  case asleep => rw [hwake, effWaitWake_waiting hn hr, if_neg (not_not.mpr he), collect_calm _ hc ho]
  case late =>
    rw [hdead, effWaitDeadline_waiting hn hr, if_neg (not_not.mpr he), if_pos hd, hcol]
    exact congrArg _ (State.modCore_congr _ _ _ _ (Core.waitLate_eq _ rd))
  case notLate =>
    have hno : ¬ ((s.core n.val).dle = true ∧ (s.core n.val).wdl ≤ s.now) := by
      rintro ⟨h1, h2⟩
      rcases hd with h | h
      · exact absurd (h1.symm.trans h) (by decide)
      · exact Nat.not_le.mpr h h2
    rw [hdead, effWaitDeadline_waiting hn hr, if_neg (not_not.mpr he), if_neg hno, collect_calm _ hc ho]
  case waitInt =>
    exact interrupt_taken hc ho (by rw [effInterrupt_waiting hn hr, if_neg (not_not.mpr he), if_pos hd])
  case waitNone =>
    exact interrupt_none hc ho
      (by rw [effInterrupt_waiting hn hr, if_neg (not_not.mpr he), if_neg (by rw [hd]; decide)])
  case runInt =>
    exact interrupt_taken hc ho (by rw [effInterrupt_running hn hr, if_pos (by rw [hd.1, hd.2]; rfl)])
  case runNone =>
    have hno : ((s.core n.val).intDue && !(s.core n.val).atPair) = false := by
      rcases hd with h | h
      · rw [show (s.core n.val).intDue = false from h, Bool.false_and]
      · rw [show (s.core n.val).atPair = true from h, Bool.not_true, Bool.and_false]
    exact interrupt_none hc ho (by rw [effInterrupt_running hn hr, if_neg (by rw [hno]; decide)])

/-! ### The DSP extension -/

section dsp
variable {s : State} {n : Fin 24} {rd ra rb : Fin 32} {a : Fin 2} {i : Instr}

/-- A DSP instruction of a servo core. -/
theorem exec_dsp {f g : Core → Core} (h : s.Issues n.val) (hn : 16 ≤ n.val)
    (hexec : exec i s = .next (s.fetched n.val i (fun t => t.issueDsp n.val f)).collect)
    (hf : ∀ c : Core, c = s.core n.val → (f c.issuing).next = (g c).goOn) (hi : s.spells n.val i) :
    exec i s = .next (s.modCore n.val (fun q => (g q).goOn)) := by
  rw [exec_spelt h hexec hi, State.dsp_row s n f g h hn (hf _ rfl)]

/-- A value to an accumulator, of the core as it issues. -/
theorem toAcc_issued (c : Core) (v : Int) : (c.issuing.toAcc a.val v).next = (c.accumulate a v).goOn := by
  rw [Core.toAcc_eq, Core.next_accumulate]

/-- A saturated value to a register, of the core as it issues. -/
theorem toQ15_issued (c : Core) (v : Int) :
    (c.issuing.toQ15 rd.val v).next = ((c.sat 16 v).wr rd (BitVec.ofInt 32 (satInt 16 v))).goOn := by
  unfold Core.toQ15
  rw [Core.satTo_eq]
  dsimp only
  rw [Core.setG_val, ofNat_ux, Core.next_q15]

theorem q15_issuing (c : Core) (r : Fin 32) : c.issuing.q15 r.val = half (c.rd r) := Core.q15_eq c r

theorem sgr_issuing (c : Core) (r : Fin 32) : c.issuing.sgr r.val = (c.rd r).toInt := Core.sgr_eq c r

theorem acc_issuing (c : Core) : c.issuing.acc a.val = c.accum a := Core.acc_eq c a

theorem satInt_zero : satInt 40 0 = 0 := by decide

/-- Clearing an accumulator saturates nothing. -/
theorem clear_issued (c : Core) : (c.issuing.putAcc a.val 0).next = (c.accumulate a 0).goOn := by
  have hsat : c.sat 40 0 = c := if_pos satInt_zero
  unfold Core.accumulate
  rw [hsat, satInt_zero]
  match a with
  | 0 => rfl
  | 1 => rfl

theorem round15_eq (v : Int) : round15 v = (v + 16384) / 32768 := rfl

/-- CLIP by the magnitude in the low 31 bits of a word. -/
theorem clip_issuing (c : Core) : c.issuing.clip ra.val rb.val
    = min (max (c.rd ra).toInt (-((c.rd rb).toNat % 2 ^ 31 : Int))) ((c.rd rb).toNat % 2 ^ 31) := by
  have hb : bits (c.rd rb).toNat 0 31 = (c.rd rb).toNat % 2 ^ 31 := bits_low _ _
  unfold Core.clip
  rw [sgr_issuing, Core.gr_val, Core.rd_issuing, hb, clampInt_eq _ _ _ (by omega)]
  push_cast
  omega

end dsp

/-- Settles O26: products of halves into an accumulator of 40 bits, and halves rounded and saturated into a register. -/
theorem dspExtension : Obligations.DspExtension := by
  unfold Obligations.DspExtension
  intro s n i rd ra rb h hn runs c a b next acc q15
  refine ⟨⟨?mac, ?msu, ?macl, ?lda, ?clra⟩, ⟨?rda, ?rdas, ?qadd, ?qsub, ?qmul⟩, ?clip, ?abss⟩
  case mac =>
    refine exec_dsp h hn rfl fun c hc => ?_
    rw [toAcc_issued, acc_issuing, q15_issuing, q15_issuing, hc]
  case msu =>
    refine exec_dsp h hn rfl fun c hc => ?_
    rw [toAcc_issued, acc_issuing, q15_issuing, q15_issuing, hc]
  case macl =>
    refine exec_dsp h hn rfl fun c hc => ?_
    rw [toAcc_issued, acc_issuing, sgr_issuing, q15_issuing, hc]
    rfl
  case lda =>
    refine exec_dsp h hn rfl fun c hc => ?_
    rw [toAcc_issued, sgr_issuing, hc]
  case clra => exact exec_dsp h hn rfl fun c _ => clear_issued c
  case rda =>
    refine exec_dsp h hn rfl fun c hc => ?_
    rw [Core.setG_next, acc_issuing, ofNat_ux, hc]
  case rdas =>
    refine exec_dsp h hn rfl fun c hc => ?_
    rw [toQ15_issued, acc_issuing, round15_eq, hc]
  case qadd =>
    refine exec_dsp h hn rfl fun c hc => ?_
    rw [toQ15_issued, q15_issuing, q15_issuing, hc]
  case qsub =>
    refine exec_dsp h hn rfl fun c hc => ?_
    rw [toQ15_issued, q15_issuing, q15_issuing, hc]
  case qmul =>
    refine exec_dsp h hn rfl fun c hc => ?_
    rw [toQ15_issued, round15_eq, q15_issuing, q15_issuing, hc]
  case clip =>
    refine exec_dsp h hn rfl fun c hc => ?_
    rw [Core.setG_next, clip_issuing, ofNat_ux, hc]
  case abss =>
    refine exec_dsp h hn rfl fun c hc => ?_
    rw [sgr_issuing, Core.satTo_eq]
    dsimp only
    rw [Core.setG_val, ofNat_ux, Core.next_q15, hc]

end Sys2Proof.Proofs.CoreControl
end

