-- ==== Sys2Proof/Proofs/CoreMemory.lean ====
section
/-!
PROOFS. Loads, stores and atomics, their address traps (R52 to R57, R62, R65), and the data cache (R56, R64).
-/
namespace Sys2Proof.Proofs.CoreMemory

open Sys2Proof.Machine

/-! ### An instruction at the program counter -/

/-- An instruction that any event may follow: where its word stands at the program counter, it is its own effect. -/
theorem exec_ready {s u : State} {n : Fin 24} {i : Instr} {f : State → State} (h : s.coreReady n.val)
    (hexec : exec i s = .next (s.fetched n.val i f).finish) (hf : f s = u) (hi : s.spells n.val i) :
    exec i s = .next u.finish := by
  rw [hexec, State.fetched_ready s n.val i f h hi, hf]

/-! ### Loads -/

theorem sx_ofNat (w v : Nat) (hw : 0 < w) : sx w v = (BitVec.ofNat w v).toInt := by
  rw [← sx_word w _ hw, BitVec.toNat_ofNat]
  unfold sx
  rw [Nat.mod_mod]
  push_cast
  rw [Int.emod_emod_of_dvd _ dvd_rfl]

theorem word_signExtend (w v : Nat) (hw : 0 < w) :
    BitVec.ofNat 32 (ux 32 (sx w v)) = (BitVec.ofNat w v).signExtend 32 := by
  rw [ofNat_ux, sx_ofNat w v hw]
  rfl

theorem rdLe_one (s : State) (a : Nat) : BitVec.ofNat 8 (s.rdLe a 1) = s.rd8 a := by
  show BitVec.ofNat 8 ((s.rd8 a).toNat + 256 * 0) = s.rd8 a
  rw [Nat.mul_zero, Nat.add_zero, BitVec.ofNat_toNat, BitVec.setWidth_eq]

/-- A value to a register, of the core as it issues. -/
theorem setG_issued (c : Core) (rd : Fin 32) {v : Nat} {w : Word} (h : BitVec.ofNat 32 v = w) :
    (c.issuing.setG rd.val v).next = (c.wr rd w).goOn := by rw [Core.setG_next, h]

/-- Settles O29: the load gets the bytes of memory as they stand; the width decides the extension. -/
theorem loads : Obligations.Loads := by
  unfold Obligations.Loads
  intro s n rd ra imm a hr hc runs ea at_ next
  have row : ∀ (k : Nat) (f : Core → Nat → Core) (g : Core → Core), 0 < k → at_ k →
      (f (s.core n.val).issuing (s.rdLe a k)).next = (g (s.core n.val)).goOn →
      s.loadInstr n.val ra.val imm.toNat k true f = s.modCore n.val (fun q => (g q).goOn) :=
    fun k f g hk h hf => State.load_row s n ra imm k a true f g hr hc hk rfl h.1 h.2 hf
  refine ⟨fun h => ?ldw, fun h => ⟨?ldh, ?ldhu⟩, fun h => ⟨?ldb, ?ldbu⟩, fun ⟨h, he⟩ => ?ldd⟩
  case ldw => exact exec_ready hr rfl (row 4 _ _ (by decide) h (setG_issued _ rd rfl))
  case ldh =>
    exact exec_ready hr rfl (row 2 _ _ (by decide) h (setG_issued _ rd (word_signExtend 16 (s.rdLe a 2) (by decide))))
  case ldhu => exact exec_ready hr rfl (row 2 _ _ (by decide) h (setG_issued _ rd rfl))
  case ldb =>
    have hb := word_signExtend 8 (s.rdLe a 1) (by decide)
    rw [rdLe_one] at hb
    exact exec_ready hr rfl (row 1 _ _ (by decide) h (setG_issued _ rd hb))
  case ldbu =>
    have hb : BitVec.ofNat 32 (s.rdLe a 1) = (s.rd8 a).setWidth 32 := by
      rw [show s.rdLe a 1 = (s.rd8 a).toNat from Nat.add_zero _, BitVec.ofNat_toNat]
    exact exec_ready hr rfl (row 1 _ _ (by decide) h (setG_issued _ rd hb))
  case ldd =>
    refine exec_ready hr rfl (State.load_row s n ra imm 8 a _ _ (fun q => q.wr2 rd (BitVec.ofNat 64 (s.rdLe a 8))) hr hc
      (by decide) ((pairOk_iff rd).mpr he) h.1 h.2 ?_)
    rw [Core.setPair_eq _ rd _ _ he rfl, Core.next_wr2]

/-! ### Stores -/

/-- Settles O30: the low bytes of the operand at the address; of the core's own instruction RAM the words that stood
there stay fetchable (R55). -/
theorem stores : Obligations.Stores := by
  unfold Obligations.Stores
  intro s n rs ra imm a hr hc runs ea v after
  have row : ∀ (i : Instr) (k x : Nat) (ok : Bool) (data : Core → Nat), 0 < k → ok = true →
      exec i s = .next (s.fetched n.val i (fun t => t.storeInstr n.val ra.val imm.toNat k ok data)).finish →
      data (s.core n.val).issuing = x → after k x i := by
    intro i k x ok data hk hok hexec hx
    have hv : leBytes k (data (s.core n.val).issuing) = leBytes k x := by rw [hx]
    exact ⟨fun h => exec_ready hr hexec (State.store_row s n ra imm k a x ok data hr hc hk hok h.1 h.2 hv),
      fun h => exec_ready hr hexec (State.store_code_row s n ra imm k a x ok data hr hc hk hok h.1 h.2 hv)⟩
  have hgr : (s.core n.val).issuing.gr rs.val = v.toNat := Core.gr_val (s.core n.val) rs
  refine ⟨row _ 4 _ _ _ (by decide) rfl rfl hgr, row _ 2 _ _ _ (by decide) rfl rfl hgr,
    row _ 1 _ _ _ (by decide) rfl rfl hgr, fun he => ?std⟩
  exact row _ 8 _ _ _ (by decide) ((pairOk_iff rs).mpr he) rfl (Core.pair_eq (s.core n.val) rs he)

/-! ### Atomics -/

theorem word_lt (l : List Byte) (h : l.length = 4) : ofLe l < 2 ^ 32 := by
  have := Sys2Proof.Laws.Sector.ofLe_lt l
  rwa [h] at this

theorem rdLe4_lt (s : State) (a : Nat) : s.rdLe a 4 < 2 ^ 32 := word_lt (s.rdBytes a 4) rfl

/-- Settles O31: the three atomics are one access with a different new word. -/
theorem atomics : Obligations.Atomics := by
  unfold Obligations.Atomics
  intro s n rd ra rb a hr hc runs c ea t next hal hin
  have htn : t.toNat = s.rdLe a 4 := by
    rw [BitVec.toNat_ofNat, Nat.mod_eq_of_lt (rdLe4_lt s a)]
  have row : ∀ (i : Instr) (f : Core → Nat → Option Nat) (u : State),
      exec i s = .next (s.fetched n.val i (fun q => q.atomicInstr n.val rd.val ra.val f)).finish →
      (match f c.issuing (s.rdLe a 4) with | some x => s.wrLe a 4 x | none => s) = u →
      s.spells n.val i → exec i s = next u := by
    intro i f u hexec hu
    exact exec_ready hr hexec ((State.atomic_row s n rd ra a f hr hc hal hin).trans
      (congrArg (fun w : State => w.modCore n.val (fun q => (q.wr rd t).goOn)) hu))
  refine ⟨row _ _ _ rfl ?swap, row _ _ _ rfl ?ldadd, row _ _ _ rfl ?cas⟩
  case swap =>
    show s.wrLe a 4 (c.gr rb.val) = _
    rw [Core.gr_val]
  case ldadd =>
    show s.wrLe a 4 ((s.rdLe a 4 + c.gr rb.val) % 2 ^ 32) = _
    rw [Core.gr_val, BitVec.toNat_add, htn]
  case cas =>
    have hiff : s.rdLe a 4 = c.gr rd.val ↔ t = c.rd rd := by rw [Core.gr_val, ← htn, BitVec.toNat_inj]
    show (match (if s.rdLe a 4 = c.gr rd.val then some (c.gr rb.val) else none) with
      | some x => s.wrLe a 4 x | none => s) = _
    by_cases h : t = c.rd rd
    · rw [if_pos (hiff.mpr h), if_pos h]
      show s.wrLe a 4 (c.gr rb.val) = _
      rw [Core.gr_val]
    · rw [if_neg (fun h' => h (hiff.mp h')), if_neg h]

/-! ### Address traps -/

/-- The address lies in none of the ranges of R52. -/
theorem ea_none (c : Core) (n ea : Nat) (h1 : 0x20000 ≤ ea) (h2 : ea < 0x80000000) : c.ea n ea = .none := by
  unfold Core.ea
  rw [if_neg (by omega), if_neg (by omega), if_pos h2]

theorem load_align (t : State) (n ea k : Nat) (h : ea % k ≠ 0) : t.load n ea k = (t, .trap 2) := if_pos h

theorem load_buserr (t : State) (n ea k : Nat) (h : ea % k = 0 ∧ 0x20000 ≤ ea ∧ ea < 0x80000000) :
    t.load n ea k = (t, .trap 3) := by
  unfold State.load
  rw [if_neg (not_not.mpr h.1), ea_none _ n ea h.2.1 h.2.2]
  rfl

theorem store_align (t : State) (n ea : Nat) (l : List Byte) (h : ea % l.length ≠ 0) : t.store n ea l = (t, .trap 2) :=
  if_pos h

theorem store_buserr (t : State) (n ea : Nat) (l : List Byte)
    (h : ea % l.length = 0 ∧ 0x20000 ≤ ea ∧ ea < 0x80000000) : t.store n ea l = (t, .trap 3) := by
  unfold State.store
  rw [if_neg (not_not.mpr h.1)]
  dsimp only
  rw [ea_none _ n ea h.2.1 h.2.2]
  rfl

theorem atomic_align (t : State) (n ea : Nat) (f : Nat → Option Nat) (h : ea % 4 ≠ 0) :
    t.atomic n ea f = (t, .trap 2) := if_pos h

theorem atomic_buserr (t : State) (n ea : Nat) (f : Nat → Option Nat)
    (h : ea % 4 = 0 ∧ 0x20000 ≤ ea ∧ ea < 0x80000000) : t.atomic n ea f = (t, .trap 3) := by
  unfold State.atomic
  rw [if_neg (not_not.mpr h.1), ea_none _ n ea h.2.1 h.2.2]
  rfl

/-- An atomic whose access traps. -/
theorem atomicInstr_trap (s : State) (n : Fin 24) (rd ra : Fin 32) (cause : Nat) (f : Core → Nat → Option Nat)
    (hr : s.coreReady n.val) (ht : (s.core n.val).inTrap = false)
    (hl : ∀ (t : State) (g : Nat → Option Nat), t.atomic n.val ((s.core n.val).rd ra).toNat g = (t, .trap cause)) :
    s.atomicInstr n.val rd.val ra.val f
      = s.modCore n.val (fun q => q.issuing.trapped cause 0 q.pc ((s.core n.val).rd ra).toNat) := by
  have hcore := State.core_modCore s n.val Core.issuing n.isLt
  unfold State.atomicInstr
  rw [State.issue_ready _ _ _ hr]
  dsimp only
  rw [hcore, Core.gr_val, Core.rd_issuing, hl]
  dsimp only
  rw [State.trap_entered _ _ _ _ _ _ (by decide) (by rw [hcore]; exact ht), State.modCore_modCore, hcore]
  exact State.modCore_congr _ _ _ _ rfl

/-- Settles O32: alignment is judged first, the range next, both before memory. -/
theorem addressTraps : Obligations.AddressTraps := by
  unfold Obligations.AddressTraps
  intro s n rd ra rb imm hr ht runs ea at_ trap bad badAt
  have hload : ∀ (i : Instr) (k : Nat) (ok : Bool) (f : Core → Nat → Core), ok = true →
      exec i s = .next (s.fetched n.val i (fun t => t.loadInstr n.val ra.val imm.toNat k ok f)).finish → bad k i := by
    intro i k ok f hok hexec
    subst hok
    exact ⟨fun h => exec_ready hr hexec (State.loadInstr_trap s n ra imm k 2 f hr ht fun t _ => load_align t _ ea k h),
      fun h => exec_ready hr hexec (State.loadInstr_trap s n ra imm k 3 f hr ht fun t _ => load_buserr t _ ea k h)⟩
  have hstore : ∀ (i : Instr) (k : Nat) (ok : Bool) (data : Core → Nat), ok = true →
      exec i s = .next (s.fetched n.val i (fun t => t.storeInstr n.val ra.val imm.toNat k ok data)).finish → bad k i := by
    intro i k ok data hok hexec
    subst hok
    exact ⟨fun h => exec_ready hr hexec (State.storeInstr_trap s n ra imm k 2 data hr ht
        fun t l _ hl => store_align t _ ea l (by rw [hl]; exact h)),
      fun h => exec_ready hr hexec (State.storeInstr_trap s n ra imm k 3 data hr ht
        fun t l _ hl => store_buserr t _ ea l (by rw [hl]; exact h))⟩
  have hatomic : ∀ (i : Instr) (f : Core → Nat → Option Nat),
      exec i s = .next (s.fetched n.val i (fun t => t.atomicInstr n.val rd.val ra.val f)).finish → badAt i := by
    intro i f hexec
    exact ⟨fun h => exec_ready hr hexec (atomicInstr_trap s n rd ra 2 f hr ht fun t g => atomic_align t _ at_ g h),
      fun h => exec_ready hr hexec (atomicInstr_trap s n rd ra 3 f hr ht fun t g => atomic_buserr t _ at_ g h)⟩
  exact ⟨⟨hload _ 4 _ _ rfl rfl, hload _ 2 _ _ rfl rfl, hload _ 2 _ _ rfl rfl, hload _ 1 _ _ rfl rfl, hload _ 1 _ _ rfl rfl,
      fun he => hload _ 8 _ _ ((pairOk_iff rd).mpr he) rfl⟩,
    ⟨hstore _ 4 _ _ rfl rfl, hstore _ 2 _ _ rfl rfl, hstore _ 1 _ _ rfl rfl,
      fun he => hstore _ 8 _ _ ((pairOk_iff rd).mpr he) rfl⟩,
    hatomic _ _ rfl, hatomic _ _ rfl, hatomic _ _ rfl⟩

/-! ### Cache lines -/

theorem find_line {c : List CacheLine} {a : Nat} {l : CacheLine} (h : c.find? (fun k => k.line == a / 64) = some l) :
    l.line = a / 64 := by
  have hp := List.find?_some h
  exact beq_iff_eq.mp hp

/-- An address of aperture 0 is one of populated DRAM. -/
theorem aperture0_region {s : State} {n ea a : Nat} (h : s.inAperture0 n ea a) : s.region a = .dram := by
  obtain ⟨_, _, _, htop, hmax⟩ := h
  exact State.region_dram s a htop hmax

theorem aperture0_ram {s : State} {n ea a : Nat} (h : s.inAperture0 n ea a) : s.absentRam a = false := by
  unfold State.absentRam
  rw [aperture0_region h]

/-- A line that is present is neither filled nor makes room. -/
theorem cacheFill_hit {s : State} {n a : Nat} {l : CacheLine} (h : s.cacheLine n a = some l) :
    s.cacheFill n a = (s, true) := by
  unfold State.cacheFill
  rw [h]

/-- A load that hits gets the line's bytes. -/
theorem load_hit {s : State} {n ea k a : Nat} {l : CacheLine} (ha : s.inAperture0 n ea a) (hal : ea % k = 0)
    (hl : s.cacheLine n a = some l) : s.load n ea k = (s, .value (ofLe ((l.data.drop (a % 64)).take k))) := by
  unfold State.load
  rw [if_neg (not_not.mpr hal), Core.ea_ap0 s n ea a ha]
  dsimp only
  rw [aperture0_region ha, aperture0_ram ha, if_neg (by decide), if_neg (by decide), cacheFill_hit hl]
  dsimp only
  unfold State.cacheBytes
  rw [hl]

/-- A store that hits goes to the line alone. -/
theorem store_hit {s : State} {n ea a : Nat} {l : CacheLine} {d : List Byte} (ha : s.inAperture0 n ea a)
    (hal : ea % d.length = 0) (hl : s.cacheLine n a = some l) :
    s.store n ea d = (s.modCore n (fun c => { c.next with
      cache := c.cache.map (fun k => if k.line = a / 64 then k.write (a % 64) d else k) }), .done) := by
  unfold State.store
  rw [if_neg (not_not.mpr hal)]
  dsimp only
  rw [Core.ea_ap0 s n ea a ha]
  dsimp only
  rw [aperture0_region ha, aperture0_ram ha, if_neg (by decide), cacheFill_hit hl]

/-- An effective address without an offset. -/
theorem offset_zero (c : Core) (ra : Fin 32) : c.offsetEa ra.val (0 : BitVec 16).toNat = (c.rd ra).toNat := by
  rw [Core.offsetEa_eq, show (0 : BitVec 16).signExtend 32 = 0#32 by decide, BitVec.add_zero]

section line
variable {s : State} {n : Fin 24} {rd rs ra : Fin 32} {a : Nat} {l : CacheLine}

/-- What an issuing instruction finds of the address and the line is what stood there. -/
theorem issued_aperture (ha : s.inAperture0 n.val ((s.core n.val).rd ra).toNat a) :
    (s.modCore n.val Core.issuing).inAperture0 n.val ((s.core n.val).rd ra).toNat a := by
  obtain ⟨h1, h2, h3, h4⟩ := ha
  exact ⟨h1, h2, by rw [State.core_modCore _ _ _ n.isLt]; exact h3, h4⟩

theorem issued_line (hl : s.cacheLine n.val a = some l) : (s.modCore n.val Core.issuing).cacheLine n.val a = some l := by
  unfold State.cacheLine at *
  rw [State.core_modCore _ _ _ n.isLt]
  exact hl

theorem loadWord_hit (hr : s.coreReady n.val) (ha : s.inAperture0 n.val ((s.core n.val).rd ra).toNat a)
    (hl : s.cacheLine n.val a = some l) (hal : ((s.core n.val).rd ra).toNat % 4 = 0) :
    s.loadInstr n.val ra.val (0 : BitVec 16).toNat 4 true (fun c v => c.setG rd.val v)
      = s.modCore n.val (fun q => (q.wr rd (BitVec.ofNat 32 (ofLe ((l.data.drop (a % 64)).take 4)))).goOn) := by
  unfold State.loadInstr
  rw [State.issue_ready _ _ _ hr, if_neg (by decide)]
  dsimp only
  rw [State.core_modCore _ _ _ n.isLt, offset_zero, Core.rd_issuing, load_hit (issued_aperture ha) hal (issued_line hl)]
  dsimp only
  rw [State.modCore_modCore]
  exact State.modCore_congr _ _ _ _ (setG_issued _ rd rfl)

theorem storeWord_hit (hr : s.coreReady n.val) (ha : s.inAperture0 n.val ((s.core n.val).rd ra).toNat a)
    (hl : s.cacheLine n.val a = some l) (hal : ((s.core n.val).rd ra).toNat % 4 = 0) :
    s.storeInstr n.val ra.val (0 : BitVec 16).toNat 4 true (fun c => c.gr rs.val)
      = s.modCore n.val (fun q => ({ q with cache := q.cache.map (fun k =>
          if k.line = a / 64 then k.write (a % 64) (leBytes 4 ((s.core n.val).rd rs).toNat) else k) } : Core).goOn) := by
  unfold State.storeInstr
  rw [State.issue_ready _ _ _ hr, if_neg (by decide)]
  dsimp only
  rw [State.core_modCore _ _ _ n.isLt, offset_zero, Core.rd_issuing, Core.gr_val, Core.rd_issuing,
    store_hit (d := leBytes 4 ((s.core n.val).rd rs).toNat) (issued_aperture ha) hal (issued_line hl)]
  dsimp only
  rw [State.modCore_modCore]
  rfl

/-- A cache instruction at an address of aperture 0. -/
theorem cacheInstr_row (hr : s.coreReady n.val) (ha : s.inAperture0 n.val ((s.core n.val).rd ra).toNat a)
    (f : State → Nat → State) :
    s.cacheInstr n.val ra.val f = (f (s.modCore n.val Core.issuing) a).modCore n.val Core.next := by
  have hea : (s.modCore n.val Core.issuing).cacheEa n.val ((s.core n.val).rd ra).toNat = some a := by
    unfold State.cacheEa
    rw [Core.ea_ap0 _ n.val _ a (issued_aperture ha)]
    exact if_neg (by rw [aperture0_region (issued_aperture ha)]; decide)
  unfold State.cacheInstr
  rw [State.issue_ready _ _ _ hr, State.core_modCore _ _ _ n.isLt, Core.gr_val, Core.rd_issuing, hea]

/-- A core whose dirty line has been written back: the line is clean. -/
def lineCleaned (line : Nat) (q : Core) : Core :=
  { q with cache := q.cache.map (fun k => if k.line = line then { k with dirty := false } else k) }

/-- A core without a line. -/
def lineGone (line : Nat) (q : Core) : Core := { q with cache := q.cache.filter (fun k => k.line != line) }

/-- A dirty line of populated DRAM is written back whole. -/
theorem lineBack_dirty {t : State} {m : Nat} (hc : t.Clean) (hd : l.dirty = true) (hlen : l.data.length = 64)
    (htop : l.line * 64 + 64 ≤ t.dramTop) (hmax : l.line * 64 + 64 ≤ 0x1000000000) :
    t.lineBack m l = (t.wrBytes (l.line * 64) l.data).modCore m (lineCleaned l.line) := by
  unfold State.lineBack
  rw [if_pos hd, State.memWrite_dram t _ _ _ hc (by omega) (by omega) (by omega)]
  rfl

theorem lineBack_clean {t : State} {m : Nat} (hd : l.dirty = false) : t.lineBack m l = t :=
  if_neg (by rw [hd]; decide)

theorem cacheBack_line {t : State} {m : Nat} (hl : t.cacheLine m a = some l) : t.cacheBack m a = t.lineBack m l := by
  unfold State.cacheBack
  rw [hl]

end line

/-- Settles O33: each instruction finds the line and changes it as it says; only a dirty line is written back. Of
CWBALL there is no clause here, it stands in O34. -/
theorem cacheLines : Obligations.CacheLines := by
  unfold Obligations.CacheLines
  intro s n rd rs ra a l hr hc runs c ea drop clean back next ha htop hl hlen
  have hline : l.line = a / 64 := find_line hl
  have hmax : a / 64 * 64 + 64 ≤ 0x1000000000 := by
    have := ha.2.2.2.2
    omega
  have hl' := issued_line hl
  have hdirty : l.dirty = true → (s.modCore n.val Core.issuing).cacheBack n.val a
      = back.modCore n.val (fun q => clean q.issuing) := by
    intro hd
    rw [cacheBack_line hl', lineBack_dirty (hc.modCore _ _) hd hlen (by rw [hline]; exact htop) (by rw [hline]; exact hmax),
      hline, State.wrBytes_modCore, State.modCore_modCore]
    rfl
  have hclean : l.dirty = false → (s.modCore n.val Core.issuing).cacheBack n.val a = s.modCore n.val Core.issuing := by
    intro hd
    rw [cacheBack_line hl', lineBack_clean hd]
  refine ⟨fun hal => ⟨?load, ?store⟩, ?cinv, fun hd => ⟨?cwb, ?cwbi⟩, fun hd => ⟨?cwbClean, ?cwbiClean⟩⟩
  case load => exact exec_ready hr rfl (loadWord_hit hr ha hl hal)
  case store => exact exec_ready hr rfl (storeWord_hit hr ha hl hal)
  case cinv =>
    refine exec_ready hr rfl ((cacheInstr_row hr ha _).trans ?_)
    show ((s.modCore n.val Core.issuing).modCore n.val (lineGone (a / 64))).modCore n.val Core.next = _
    rw [State.modCore_modCore, State.modCore_modCore]
    rfl
  case cwb =>
    refine exec_ready hr rfl ((cacheInstr_row hr ha _).trans ?_)
    rw [hdirty hd, State.modCore_modCore]
    rfl
  case cwbi =>
    refine exec_ready hr rfl ((cacheInstr_row hr ha _).trans ?_)
    show (((s.modCore n.val Core.issuing).cacheBack n.val a).modCore n.val (lineGone (a / 64))).modCore n.val Core.next = _
    rw [hdirty hd, State.modCore_modCore, State.modCore_modCore]
    rfl
  case cwbClean =>
    refine exec_ready hr rfl ((cacheInstr_row hr ha _).trans ?_)
    rw [hclean hd, State.modCore_modCore]
    rfl
  case cwbiClean =>
    refine exec_ready hr rfl ((cacheInstr_row hr ha _).trans ?_)
    show (((s.modCore n.val Core.issuing).cacheBack n.val a).modCore n.val (lineGone (a / 64))).modCore n.val Core.next = _
    rw [hclean hd, State.modCore_modCore, State.modCore_modCore]
    rfl

/-! ### The whole cache, FENCE, and posted stores that fail -/

/-- CWBALL, by what writing its lines back comes to. -/
theorem effCwball_row {s u : State} {n : Fin 24} {g : Core → Core} (hr : s.coreReady n.val)
    (hu : (s.modCore n.val Core.issuing).each (s.core n.val).cache (fun t l => t.lineBack n.val l)
      = u.modCore n.val (fun q => g q.issuing))
    (hg : ∀ q : Core, ({ g q.issuing with cache := [] } : Core).next = ({ q with cache := [] } : Core).goOn) :
    s.effCwball n.val = u.modCore n.val (fun q => ({ q with cache := [] } : Core).goOn) := by
  have hcache : ((s.modCore n.val Core.issuing).core n.val).cache = (s.core n.val).cache := by
    rw [State.core_modCore _ _ _ n.isLt]; rfl
  unfold State.effCwball
  rw [State.issue_ready _ _ _ hr]
  unfold State.cacheAll
  rw [hcache, hu, State.modCore_modCore, State.modCore_modCore]
  exact congrArg (u.modCore n.val) (funext hg)

/-- FENCE with no posted store outstanding settles the core's own stores to its instruction RAM (R55). -/
theorem effFence_row {s : State} {n : Fin 24} (hr : s.coreReady n.val) (hf : (s.core n.val).failing = []) :
    s.effFence n.val = s.modCore n.val (fun q => ({ q with stale := [] } : Core).goOn) := by
  have hfail : ((s.modCore n.val Core.issuing).core n.val).failing = [] := by
    rw [State.core_modCore _ _ _ n.isLt]; exact hf
  unfold State.effFence
  rw [State.issue_ready _ _ _ hr]
  unfold State.fenced
  rw [hfail]
  show ((s.modCore n.val Core.issuing).modCore n.val (fun c => { c with stale := [] })).modCore n.val Core.next = _
  rw [State.modCore_modCore, State.modCore_modCore]
  rfl

/-- A posted store to DRAM fails as the store of its word of 8 bytes. -/
theorem effPostedStoreFail_dram (s : State) (n : Nat) {a : Nat} (h : a < 0x1000000000) :
    s.effPostedStoreFail n a
      = if (s.core n).failing.contains (a / 8 * 8) then s.capture n (a / 8 * 8) else s := by
  have h8 : eccWordBytes a = 8 := if_neg (by unfold ramBase; omega)
  unfold State.effPostedStoreFail
  rw [h8]

theorem ueAt_dram {s : State} {req a : Nat} (h : s.region a = .dram) : s.ueAt req a = s.dramUe req a := by
  unfold State.ueAt
  rw [h]

/-- Settles O34: one dirty line is written back where it stands, clean lines leave memory alone; a posted store's error
is captured at its word of DRAM. -/
theorem fencesAndPostedStores : Obligations.FencesAndPostedStores := by
  unfold Obligations.FencesAndPostedStores
  refine ⟨fun s n hc hr => ⟨fun l hl hd hlen htop hmax => ?dirty, fun hall => ?clean, fun hf => ?fence⟩,
    fun s n addr hlt => ⟨fun ⟨hin, htop⟩ => ?captured, fun hout => ?none⟩⟩
  case dirty =>
    refine exec_ready hr rfl (effCwball_row (u := s.wrBytes (l.line * 64) l.data) (g := lineCleaned l.line) hr ?_
      fun q => rfl)
    rw [hl]
    show (s.modCore n.val Core.issuing).lineBack n.val l = _
    rw [lineBack_dirty (hc.modCore _ _) hd hlen htop hmax, State.wrBytes_modCore, State.modCore_modCore]
  case clean =>
    refine exec_ready hr rfl (effCwball_row (u := s) (g := id) hr ?_ fun q => rfl)
    refine each_id _ _ _ fun l hl => lineBack_clean ?_
    have := List.all_eq_true.mp hall l hl
    rwa [Bool.not_eq_true'] at this
  case fence => exact exec_ready hr rfl (effFence_row hr hf)
  case captured =>
    have hdram : s.region (addr.toNat / 8 * 8) = .dram := State.region_dram s _ htop (by omega)
    refine congrArg (fun t : State => Host.Outcome.next t.finish) ?_
    rw [effPostedStoreFail_dram s n.val hlt, if_pos hin]
    exact ueAt_dram hdram
  case none =>
    refine congrArg (fun t : State => Host.Outcome.next t.finish) ?_
    rw [effPostedStoreFail_dram s n.val hlt, if_neg (by rw [hout]; decide)]

end Sys2Proof.Proofs.CoreMemory
end

