-- ==== Sys2Proof/Proofs/IllegalWords.lean ====
section
/-!
PROOFS. The words of instructions (R58, R59), and what is ILLEGAL (R47 to R49, R61, R64, R70, R77).
-/
namespace Sys2Proof.Proofs.IllegalWords

open Sys2Proof Sys2Proof.Machine
open Sys2Proof.Proofs.Branches (exec_spelt)

/-! ### The words of instructions -/

/-- The fields of a layout lie in their ranges. -/
def Fits (op fn sh rb ra rd : Nat) : Prop := op < 64 ∧ fn < 64 ∧ sh < 32 ∧ rb < 32 ∧ ra < 32 ∧ rd < 32

section layouts
variable {op fn sh rb ra rd : Nat}

/-- A word of layout R is the number that its fields spell. -/
theorem wordR_toNat (h : Fits op fn sh rb ra rd) :
    (wordR op fn sh rb ra rd).toNat = op * 2 ^ 26 + fn * 2 ^ 20 + sh * 2 ^ 15 + rb * 2 ^ 10 + ra * 2 ^ 5 + rd := by
  obtain ⟨ho, hf, hs, hb, ha, hd⟩ := h
  unfold wordR
  rw [BitVec.toNat_ofNat]
  omega

/-- A word of layout I is one of layout R whose fn, shift and rb fields hold the immediate. -/
theorem wordI_eq (op : Nat) (imm : BitVec 16) (ra rd : Nat) :
    wordI op imm ra rd = wordR op (imm.toNat / 2 ^ 10) (imm.toNat / 2 ^ 5 % 32) (imm.toNat % 32) ra rd := by
  have h := Nat.div_add_mod (imm.toNat / 2 ^ 5) 32
  have h' := Nat.div_add_mod imm.toNat 32
  unfold wordI wordR
  refine congrArg (BitVec.ofNat 32) ?_
  omega

theorem op_wordR (h : Fits op fn sh rb ra rd) : (wordR op fn sh rb ra rd).toNat / 2 ^ 26 % 64 = op := by
  have := wordR_toNat h
  obtain ⟨ho, hf, hs, hb, ha, hd⟩ := h
  omega

theorem fn_wordR (h : Fits op fn sh rb ra rd) : (wordR op fn sh rb ra rd).toNat / 2 ^ 20 % 64 = fn := by
  have := wordR_toNat h
  obtain ⟨ho, hf, hs, hb, ha, hd⟩ := h
  omega

theorem rd_wordR {r : Fin 32} (h : Fits op fn sh rb ra r.val) : field (wordR op fn sh rb ra r.val) 0 = r := by
  have := wordR_toNat h
  obtain ⟨ho, hf, hs, hb, ha, hd⟩ := h
  refine Fin.ext (show (wordR op fn sh rb ra r.val).toNat / 2 ^ 0 % 32 = r.val from ?_)
  omega

theorem ra_wordR {r : Fin 32} (h : Fits op fn sh rb r.val rd) : field (wordR op fn sh rb r.val rd) 5 = r := by
  have := wordR_toNat h
  obtain ⟨ho, hf, hs, hb, ha, hd⟩ := h
  refine Fin.ext (show (wordR op fn sh rb r.val rd).toNat / 2 ^ 5 % 32 = r.val from ?_)
  omega

theorem rb_wordR {r : Fin 32} (h : Fits op fn sh r.val ra rd) : field (wordR op fn sh r.val ra rd) 10 = r := by
  have := wordR_toNat h
  obtain ⟨ho, hf, hs, hb, ha, hd⟩ := h
  refine Fin.ext (show (wordR op fn sh r.val ra rd).toNat / 2 ^ 10 % 32 = r.val from ?_)
  omega

theorem sh_wordR {k : BitVec 5} (h : Fits op fn k.toNat rb ra rd) :
    BitVec.ofNat 5 ((wordR op fn k.toNat rb ra rd).toNat / 2 ^ 15) = k := by
  have := wordR_toNat h
  obtain ⟨ho, hf, hs, hb, ha, hd⟩ := h
  apply BitVec.eq_of_toNat_eq
  rw [BitVec.toNat_ofNat]
  omega

theorem acc_wordR {a : Fin 2} (h : Fits op fn a.val rb ra rd) :
    Fin.ofNat 2 ((wordR op fn a.val rb ra rd).toNat / 2 ^ 15) = a := by
  have := wordR_toNat h
  obtain ⟨ho, hf, hs, hb, ha, hd⟩ := h
  apply Fin.ext
  rw [Fin.val_ofNat]
  omega

theorem imm_wordR {imm : BitVec 16}
    (h : Fits op (imm.toNat / 2 ^ 10) (imm.toNat / 2 ^ 5 % 32) (imm.toNat % 32) ra rd) :
    BitVec.ofNat 16 ((wordR op (imm.toNat / 2 ^ 10) (imm.toNat / 2 ^ 5 % 32) (imm.toNat % 32) ra rd).toNat / 2 ^ 10)
      = imm := by
  have := wordR_toNat h
  have := imm.isLt
  obtain ⟨ho, hf, hs, hb, ha, hd⟩ := h
  apply BitVec.eq_of_toNat_eq
  rw [BitVec.toNat_ofNat]
  omega

end layouts

/-- What an instruction's word names: that instruction for its own core, and the same one for every other. -/
theorem coreOp_of_encodeCore {i : Instr} {w : Word} (h : encodeCore i = some w) :
    ∃ (n : Fin 24) (f : Fin 24 → Instr), f n = i ∧ (∀ m, encodeCore (f m) = some w) ∧ ∀ m, coreOp m w = some (f m) := by
  unfold encodeCore at h
  split at h
  iterate 65
    · cases h
      refine ⟨‹Fin 24›, ?_⟩
      apply Exists.intro
      refine and_assoc.mp ⟨⟨?_, fun m => ?_⟩, fun m => ?_⟩
      · rfl
      · rfl
      unfold coreOp
      rw [op_wordR, fn_wordR]
      · refine congrArg some ?_
        congr
        all_goals simp (disch := (unfold Fits; omega)) only [rd_wordR, ra_wordR, rb_wordR, sh_wordR, acc_wordR]
      · unfold Fits; omega
      · unfold Fits; omega
  iterate 27
    · cases h
      refine ⟨‹Fin 24›, ?_⟩
      apply Exists.intro
      refine and_assoc.mp ⟨⟨?_, fun m => ?_⟩, fun m => ?_⟩
      · rfl
      · rfl
      rw [wordI_eq]
      unfold coreOp
      rw [op_wordR, fn_wordR]
      · refine congrArg some ?_
        congr
        all_goals simp (disch := (unfold Fits; omega)) only [rd_wordR, ra_wordR, imm_wordR]
      · unfold Fits; omega
      · unfold Fits; omega
  · cases h

theorem decodeCore_of_coreOp {n : Fin 24} {i : Instr} {w : Word} (h : coreOp n w = some i) (he : encodeCore i = some w) :
    decodeCore n w = some i := by
  unfold decodeCore
  rw [h]
  exact if_pos he

theorem encodeCore_of_decodeCore {n : Fin 24} {i : Instr} {w : Word} (h : decodeCore n w = some i) :
    encodeCore i = some w := by
  unfold decodeCore at h
  split at h
  next j _ =>
    by_cases he : encodeCore j = some w
    · rw [if_pos he] at h
      cases h
      exact he
    · rw [if_neg he] at h
      cases h
  next => cases h

/-- An instruction's word spells an instruction for every core. -/
theorem decodeCore_ne_none {i : Instr} {w : Word} (h : encodeCore i = some w) (n : Fin 24) : decodeCore n w ≠ none := by
  obtain ⟨_, f, _, he, hc⟩ := coreOp_of_encodeCore h
  rw [decodeCore_of_coreOp (hc n) (he n)]
  exact Option.some_ne_none _

/-- The ops 0x00 and 0x3F are not listed (R59). -/
theorem decodeCore_unlisted (n : Fin 24) (w : Word) (h : w.toNat / 2 ^ 26 = 0 ∨ w.toNat / 2 ^ 26 = 63) :
    decodeCore n w = none := by
  have hop : coreOp n w = none := by
    unfold coreOp
    rcases h with h | h
    · rw [h]; rfl
    · rw [h]; rfl
  unfold decodeCore
  rw [hop]

/-! ### What is ILLEGAL -/

section illegal
variable {s : State} {n : Fin 24} {i : Instr}

/-- The core after an ILLEGAL outside a handler. -/
def illegalAt (s : State) (n : Fin 24) : State := s.modCore n.val (fun q => q.issuing.trapped 1 0 q.pc 0)

/-- A word that spells no instruction is ILLEGAL, whatever instruction was meant. -/
theorem exec_undecoded {f : State → State} (h : s.Issues n.val) (ht : (s.core n.val).inTrap = false)
    (hexec : exec i s = .next (s.fetched n.val i f).collect) (hd : decodeCore n (s.pcWord n.val) = none) :
    exec i s = .next (illegalAt s n) := by
  have hn : Fin.ofNat 24 n.val = n := Fin.ext (Nat.mod_eq_of_lt n.isLt)
  rw [hexec, State.fetched_illegal s n.val i f h.ready (fun hi => decodeCore_ne_none hi n hd) (by rw [hn]; exact hd),
    State.illegal_row s n h ht]
  rfl

/-- An instruction whose condition fails is ILLEGAL. -/
theorem exec_issueIf {ok : Bool} {f : State → Core → Core} (h : s.Issues n.val) (ht : (s.core n.val).inTrap = false)
    (hexec : exec i s = .next (s.fetched n.val i (fun t => t.issueIf n.val ok (f t))).collect) (hok : ok = false)
    (hi : s.spells n.val i) : exec i s = .next (illegalAt s n) := by
  rw [exec_spelt h hexec hi, State.issueIf_false s n ok (f s) hok h ht]
  rfl

/-- An instruction that turns out ILLEGAL as it issues. -/
theorem exec_issue {f : State → State → State} (h : s.Issues n.val) (ht : (s.core n.val).inTrap = false)
    (hexec : exec i s = .next (s.fetched n.val i (fun t => t.issue n.val (f t))).collect)
    (hf : f s (s.modCore n.val Core.issuing) = (s.modCore n.val Core.issuing).illegal n.val) (hi : s.spells n.val i) :
    exec i s = .next (illegalAt s n) := by
  rw [exec_spelt h hexec hi, State.issue_ready _ _ _ h.ready, hf, State.illegal_row s n h ht]
  rfl

theorem pairOk_false {r : Fin 32} (h : ¬ evenReg r) : pairOk r.val = false :=
  Bool.eq_false_iff.mpr fun hp => h ((pairOk_iff r).mp hp)

/-- A control register that a Crisal core cannot read. -/
theorem rdc_illegal {c : Core} {m k : Nat} (h : 20 ≤ k ∨ (16 ≤ k ∧ m < 16)) : c.rdc m k = none := by
  by_cases hk : 20 ≤ k
  · exact Core.rdc_none c m k hk
  · obtain ⟨hk16, hm⟩ := h.resolve_left hk
    have hserv : servoCore m = false := decide_eq_false (Nat.not_le.mpr hm)
    have : k = 16 ∨ k = 17 ∨ k = 18 ∨ k = 19 := by omega
    rcases this with rfl | rfl | rfl | rfl <;> exact if_neg (by rw [hserv]; decide)

/-- A control register that a core cannot write. -/
theorem wrc_illegal {c : Core} {m k v : Nat} (h : 20 ≤ k ∨ (16 ≤ k ∧ m < 16) ∨ k = 6 ∨ k = 10 ∨ k = 11) :
    c.wrc m k v = none := by
  rcases h with hk | ⟨hk16, hm⟩ | rfl | rfl | rfl
  · exact Core.wrc_none c m k v hk
  · by_cases hk : 20 ≤ k
    · exact Core.wrc_none c m k v hk
    · have hserv : servoCore m = false := decide_eq_false (Nat.not_le.mpr hm)
      have : k = 16 ∨ k = 17 ∨ k = 18 ∨ k = 19 := by omega
      rcases this with rfl | rfl | rfl | rfl <;> exact if_neg (by rw [hserv]; decide)
  · rfl
  · rfl
  · rfl

end illegal

/-- Settles O27: a word is ILLEGAL where it spells no instruction, and an instruction where its condition fails. -/
theorem illegalTraps : Obligations.IllegalTraps := by
  unfold Obligations.IllegalTraps
  refine ⟨fun i w h => ?encoded, fun n w i h => encodeCore_of_decodeCore h, decodeCore_unlisted,
    fun s n a rd ra rb imm k h ht => ?traps⟩
  case encoded =>
    obtain ⟨n, f, hn, he, hc⟩ := coreOp_of_encodeCore h
    exact ⟨n, hn ▸ decodeCore_of_coreOp (hc n) (he n)⟩
  case traps =>
    intro runs c ill
    have hcore : (s.modCore n.val Core.issuing).core n.val = c.issuing := State.core_modCore _ _ _ n.isLt
    refine ⟨fun hd => ⟨exec_undecoded h ht rfl hd, exec_undecoded h ht rfl hd, exec_undecoded h ht rfl hd,
        exec_undecoded h ht rfl hd⟩, fun hn => ?dsp, fun he => ?rdtime, fun he => ?pairs, fun he => ?tlt, fun he => ?stall,
      fun ⟨hm, hd⟩ => ?wait, fun himm => ?shi, fun hk => ?rdc, fun hk => ?wrc⟩
    case dsp =>
      have hserv : servoCore n.val = false := decide_eq_false (Nat.not_le.mpr hn)
      exact ⟨exec_issueIf h ht rfl hserv, exec_issueIf h ht rfl hserv, exec_issueIf h ht rfl hserv,
        exec_issueIf h ht rfl hserv, exec_issueIf h ht rfl hserv, exec_issueIf h ht rfl hserv,
        exec_issueIf h ht rfl hserv, exec_issueIf h ht rfl hserv, exec_issueIf h ht rfl hserv,
        exec_issueIf h ht rfl hserv, exec_issueIf h ht rfl hserv, exec_issueIf h ht rfl hserv⟩
    case rdtime => exact exec_issueIf (f := fun t q => q.setPair rd.val t.now) h ht rfl (pairOk_false he)
    case pairs =>
      have hok : (pairOk rd.val && pairOk ra.val && pairOk rb.val) = false := by
        refine Bool.eq_false_iff.mpr fun hp => he ?_
        rw [Bool.and_eq_true, Bool.and_eq_true, pairOk_iff, pairOk_iff, pairOk_iff] at hp
        exact ⟨hp.1.1, hp.1.2, hp.2⟩
      exact ⟨exec_issueIf h ht rfl hok, exec_issueIf h ht rfl hok⟩
    case tlt =>
      have hok : (pairOk ra.val && pairOk rb.val) = false := by
        refine Bool.eq_false_iff.mpr fun hp => he ?_
        rw [Bool.and_eq_true, pairOk_iff, pairOk_iff] at hp
        exact hp
      exact exec_issueIf h ht rfl hok
    case stall => exact exec_issue h ht rfl (if_pos (pairOk_false he))
    case wait =>
      refine exec_issue h ht rfl (if_pos ?_)
      rw [hcore, Core.gr_val, Core.rd_issuing, hm]
      exact ⟨rfl, hd⟩
    case shi => exact exec_issueIf h ht rfl (decide_eq_false (Nat.not_lt.mpr himm))
    case rdc =>
      refine exec_issue h ht rfl ?_
      rw [rdc_illegal hk]
    case wrc =>
      refine exec_issue h ht rfl ?_
      rw [wrc_illegal hk]

end Sys2Proof.Proofs.IllegalWords
end

