-- ==== Sys2Proof/Proofs/RunControl.lean ====
section
/-!
PROOFS. Run, stop, reset and event injection of a core (R81, R233), and the stop after an AT pair (R69).
-/
namespace Sys2Proof.Proofs.RunControl

open Sys2Proof.Machine

/-! ### Writes of CRSn_CTRL -/

section control
variable {s : State} {n : Fin 24} {v : Word}

theorem onWindow_core (h : s.hasCore n.val = true) (f : State → State) : s.onWindow (0x08 + n.val) f = f s :=
  Sys2Proof.Laws.Writes.onWindow_present s _ f ((RegisterSpace.windowPresent_crs s n).trans h)

theorem bit_word (v : Word) (i : Nat) : bit v.toNat i = v.getLsbD i := bit_eq_testBit _ _

/-- The exclusive uses of a write: SRESET, else RUN written 1, else RUN written 0. -/
theorem effCrsCtrl_sreset (h : v.getLsbD 1 = true) : s.effCrsCtrl n.val v = s.coreReset n.val :=
  if_pos ((bit_word v 1).trans h)

theorem effCrsCtrl_run (h1 : v.getLsbD 1 = false) (h0 : v.getLsbD 0 = true) : s.effCrsCtrl n.val v = s.coreStart n.val := by
  unfold State.effCrsCtrl
  rw [bit_word, bit_word, h1, h0, if_neg (by decide), if_pos rfl]

theorem effCrsCtrl_stop (h1 : v.getLsbD 1 = false) (h0 : v.getLsbD 0 = false) : s.effCrsCtrl n.val v = s.coreStop n.val := by
  unfold State.effCrsCtrl
  rw [bit_word, bit_word, h1, h0, if_neg (by decide), if_neg (by decide)]

/-- What a start does where nothing forbids it, by what the core is (R81). -/
theorem coreStart_row {g : Core → Core}
    (hok : ¬ ((s.core n.val).run = .halted ∨ bit (s.fld F.SYS_CTSTAT_CORE_FAIL) n.val = true
      ∨ s.flag F.MEM_STATUS_INIT_DONE = false))
    (hg : (if (s.core n.val).run = .stopped then { s.core n.val with run := .running, lastPc := (s.core n.val).pc }
      else { s.core n.val with stopping := false } : Core) = g (s.core n.val)) :
    s.coreStart n.val
      = ({ (s.setFlag (F.CRS_CTRL_RUN n.val)) with pwr := { s.pwr with released := true } } : State).modCore n.val g := by
  unfold State.coreStart
  rw [if_neg hok]
  exact State.modCore_congr _ _ _ _ hg

/-- A stop of a core that is not in the gap between an AT and its next instruction (R69). -/
theorem coreStop_now (hrun : (s.core n.val).run ≠ .halted)
    (hgap : (s.core n.val).atPair = false ∨ (s.core n.val).run ≠ .running) :
    s.coreStop n.val = (s.clrFlag (F.CRS_CTRL_RUN n.val)).modCore n.val (fun q =>
      { q with run := .stopped, atPair := false, stopping := false }) := by
  have hno : ¬ ((s.core n.val).atPair && (s.core n.val).run == .running) = true := by
    rw [Bool.and_eq_true, beq_iff_eq]
    rintro ⟨hp, hr⟩
    rcases hgap with h | h
    · exact absurd (h.symm.trans hp) (by decide)
    · exact h hr
  unfold State.coreStop
  exact State.modCore_congr _ _ _ _ ((if_neg hno).trans (if_neg hrun))

theorem coreStop_late (hp : (s.core n.val).atPair = true) (hr : (s.core n.val).run = .running) :
    s.coreStop n.val = (s.clrFlag (F.CRS_CTRL_RUN n.val)).modCore n.val (fun q => { q with stopping := true }) := by
  have hgap : ((s.core n.val).atPair && (s.core n.val).run == .running) = true := by rw [hp, hr]; rfl
  unfold State.coreStop
  exact State.modCore_congr _ _ _ _ (if_pos hgap)

end control

/-! ### CRSn_LOCK -/

theorem findReg_lock : ∀ n : Fin 24, findReg (8 + n.val) 0x30 = some ⟨0x30, 0x4, 1, [⟨0, 1, .w1s, false, 0⟩]⟩ := by decide

/-- The lock's bit, once written 1, is set. -/
theorem plainWrite_lock (s : State) (n : Fin 24) {v : Word} (h : v.getLsbD 0 = true) :
    (s.plainWrite (R.CRS_LOCK n.val) v).flag (F.CRS_LOCK_LOCK n.val) = true := by
  have hk : R.CRS_LOCK n.val = 0x80000 + 0x30 + 0x10000 * n.val := rfl
  obtain ⟨hw, hoff⟩ := RegisterSpace.crs_window n 0x30 (by decide)
  have hf := State.plainWrite_field s (R.CRS_LOCK n.val) v _ ⟨0, 1, .w1s, false, 0⟩
    (by rw [hk, hw, hoff]; exact findReg_lock n) (List.mem_singleton.mpr rfl)
  have hv : bits v.toNat 0 1 = 1 := by
    rw [Sys2Proof.Laws.Writes.getLsbD_bits, beq_iff_eq] at h
    exact h
  have hor : ∀ x : Nat, x < 2 → x ||| 1 = 1 := by decide
  dsimp only at hf
  rw [hv] at hf
  exact beq_iff_eq.mpr (hf.trans (hor _ (bits_lt _ 0 1)))

/-! ### The stop after an AT pair -/

/-- The second of an AT pair, RUN having been written 0 since the AT released: the core stops after it (R69). -/
theorem issue_stopping {s : State} {n : Fin 24} {f : Core → Core} (hn : s.hasCore n.val = true)
    (hr : (s.core n.val).run = .running) (hp : (s.core n.val).atPair = true) (hs : (s.core n.val).stopping = true) :
    s.issueCore n.val f = s.modCore n.val (fun c => (f c.issuing).next.stop) := by
  have hissues : s.canIssue n.val = true := by
    unfold State.canIssue
    rw [hn, hr, hp]
    rfl
  unfold State.issueCore State.issue
  rw [if_pos hissues]
  dsimp only
  rw [if_pos hs, State.modCore_modCore, State.modCore_modCore]

/-- A core that is not halted and has no second of an AT pair to wait for stops. -/
theorem stop_eq {c : Core} (hr : c.run ≠ .halted) (hp : c.atPair = false) :
    c.stop = { c with run := .stopped, stopping := false } := by
  unfold Core.stop
  rw [if_neg hr, ← hp]

theorem wr_run (c : Core) (r : Fin 32) (v : Word) : (c.wr r v).run = c.run := by
  unfold Core.wr
  split <;> rfl

/-- The fetch of such an instruction gets the word at the program counter. -/
theorem fetched_stopping {s : State} {n : Fin 24} {i : Instr} {f : State → State} (hn : s.hasCore n.val = true)
    (hr : (s.core n.val).run = .running) (hp : (s.core n.val).atPair = true) (hst : (s.core n.val).stale = [])
    (hu : s.upsets = []) (hi : s.spells n.val i) : s.fetched n.val i f = f s := by
  have hissues : s.canIssue n.val = true := by
    unfold State.canIssue
    rw [hn, hr, hp]
    rfl
  have hf : s.fetch n.val = (s, some (s.pcWord n.val)) := by
    unfold State.fetch
    simp only [hst, hu, List.filter_nil, List.isEmpty_nil, if_true, List.getElem?_nil]
    rfl
  unfold State.fetched
  rw [if_pos hissues, hf]
  exact if_pos hi

/-- Settles O35: SRESET before RUN, a start only where nothing forbids it, a stop at once or after the instruction that an
AT released. That SRESET keeps the general registers, that the stop waits for the second of an AT pair and what RUN does to
a running or stalled core are the model's choices (log entry 31). -/
theorem runControl : Obligations.RunControl := by
  unfold Obligations.RunControl
  intro s n v hn run c
  have hctrl : ∀ {t : State}, s.effCrsCtrl n.val v = t →
      .next (s.onWindow (0x08 + n.val) (fun u => u.effCrsCtrl n.val v)).finish
        = (.next t.finish : Host.Outcome State Fault Refusal) := by
    intro t ht
    rw [onWindow_core hn, ht]
  refine ⟨fun h => ?sreset, fun h1 h0 => ⟨fun hf hi => ⟨fun hr => ?started, fun hr hh => ?kept⟩, fun hno => ?refused⟩,
    fun h1 h0 => ⟨fun hr hg => ?stopped, fun ⟨hp, hr⟩ => ?late⟩, fun rd ra rb hc ho hr hp hs hst hu hi => ?pair, ?inject,
    fun h => ?lock⟩
  case sreset => exact hctrl (effCrsCtrl_sreset h)
  case started =>
    refine hctrl ((effCrsCtrl_run h1 h0).trans (coreStart_row ?_ (if_pos hr)))
    rintro (h | h | h)
    · exact absurd (hr.symm.trans h) (by decide)
    · exact absurd (hf.symm.trans h) (by decide)
    · exact absurd (hi.symm.trans h) (by decide)
  case kept =>
    refine hctrl ((effCrsCtrl_run h1 h0).trans (coreStart_row ?_ (if_neg hr)))
    rintro (h | h | h)
    · exact hh h
    · exact absurd (hf.symm.trans h) (by decide)
    · exact absurd (hi.symm.trans h) (by decide)
  case refused => exact hctrl ((effCrsCtrl_run h1 h0).trans (if_pos hno))
  case stopped => exact hctrl ((effCrsCtrl_stop h1 h0).trans (coreStop_now hr hg))
  case late => exact hctrl ((effCrsCtrl_stop h1 h0).trans (coreStop_late hp hr))
  case pair =>
    have hexec : exec (.crAdd n rd ra rb) s = .next (s.fetched n.val (.crAdd n rd ra rb)
      (fun t => t.issueCore n.val (fun q => q.addFlags rd.val (q.gr ra.val) (q.gr rb.val) 0))).collect := rfl
    rw [hexec, fetched_stopping hn hr hp hst hu hi, issue_stopping hn hr hp hs, collect_modCore _ _ _ hc ho]
    refine congrArg _ (State.modCore_congr _ _ _ _ ?_)
    dsimp only
    rw [Core.gr_val, Core.gr_val, Core.rd_issuing, Core.rd_issuing, Core.sum_word]
    refine stop_eq ?_ rfl
    show ((s.core n.val).wr rd _).run ≠ _
    rw [wr_run, show (s.core n.val).run = .running from hr]
    decide
  case inject =>
    show Host.Outcome.next (s.onWindow (0x08 + n.val) (fun t => t.wrCrs n.val 0x28 v)).finish = _
    rw [onWindow_core hn]
    rfl
  case lock =>
    refine ⟨s.plainWrite (R.CRS_LOCK n.val) v, ?_, plainWrite_lock s n h,
      fun k hk => State.plainWrite_other s k _ v hk⟩
    show Host.Outcome.next (s.onWindow (0x08 + n.val) (fun t => t.wrCrs n.val 0x30 v)).finish = _
    rw [onWindow_core hn]
    show Host.Outcome.next (s.plainWrite (0x10000 * (0x08 + n.val) + 0x30) v).finish = _
    rw [show 0x10000 * (0x08 + n.val) + 0x30 = R.CRS_LOCK n.val by unfold R.CRS_LOCK; omega]

end Sys2Proof.Proofs.RunControl
end

