-- ==== Sys2Proof/Proofs/DmaMoves.lean ====
section
/-!
PROOFS. COPY and FILL of the DMA engine (R237, R238).
-/
namespace Sys2Proof.Proofs.DmaMoves

open Sys2Proof.Machine
open Sys2Proof.Laws.Dma

variable {s : State} {n : Nat} {c : DmaCh} {d : DmaDesc}

theorem dmaRunning_of (h : Tab.get s.dmas n = some c) (hr : c.state = .running) : s.dmaRunning n = true := by
  unfold State.dmaRunning
  rw [h]
  exact beq_iff_eq.mpr hr

/-- A whole transfer by a channel that stands before it: its bytes are moved and DONE is the length, where nothing of what
it wrote stays open. -/
theorem dmaMove_moved {u : State} {f : State → DmaDesc → State × MoveEnd} (h : Tab.get s.dmas n = some c)
    (hr : c.state = .running) (hd : c.desc = some d) (hm : c.moved = false) (ho : d.overlaps = false)
    (hf : f s d = (u, .moved)) :
    s.dmaMove n d.op f = u.modDma n (fun k => { k with moved := true, doneB := d.len }) := by
  have hgo : ¬ (c.state ≠ .running ∨ c.moved = true ∨ d.op ≠ d.op) := by
    rw [hr, hm]
    simp
  unfold State.dmaMove
  rw [h]
  dsimp only
  rw [hd]
  dsimp only
  rw [if_neg hgo, hf]
  dsimp only
  unfold State.dmaOpenDst
  rw [if_neg (by rw [ho]; decide)]

/-- Source and destination that stand apart do not overlap. -/
theorem overlaps_apart (hs : d.sfix = false) (hd : d.dfix = false)
    (h : d.src + d.len ≤ d.dst ∨ d.dst + d.len ≤ d.src) : d.overlaps = false := by
  have hno : (decide (d.src < d.dst + d.len) && decide (d.dst < d.src + d.len)) = false := by
    rw [Bool.and_eq_false_iff, decide_eq_false_iff_not, decide_eq_false_iff_not]
    omega
  unfold DmaDesc.overlaps dmaSpan
  rw [hs, hd]
  simp only [Bool.false_eq_true, if_false, Bool.and_assoc]
  rw [← Bool.and_assoc (decide (d.src < _)), hno, Bool.false_and, Bool.and_false]

theorem overlaps_fill (h : d.op = 1) : d.overlaps = false := by
  unfold DmaDesc.overlaps
  rw [h]
  rfl

/-- Settles O49: the loop of COPY keeps what it has written a prefix of the source and what it holds the next bytes of
it; the loop of FILL keeps a prefix of the pattern. -/
theorem dmaMovesBytes : Obligations.DmaMovesBytes := by
  unfold Obligations.DmaMovesBytes
  intro s ch c d hc hch hr hd hm hdfix hdw hdlen htop hmax moved
  have hrun := dmaRunning_of hch hr
  refine ⟨fun ⟨hop, hsfix, _, hslen, hstop, hsmax, hapart⟩ => ?copy, fun hop => ?fill⟩
  case copy =>
    have hloop := copy_facts s ch.val d hc hrun hdfix hsfix hdlen hslen htop hmax hstop hsmax hapart
      (2 * d.len + 1) 0 0 (Nat.le_refl _) (Nat.zero_le _) (Nat.zero_mod _) (Nat.zero_mod _) (by omega)
    have hmove := dmaMove_moved (f := fun t e => t.copyLoop ch.val e 0 0 [] (2 * e.len + 1)) hch hr hd hm
      (overlaps_apart hsfix hdfix hapart) hloop
    rw [hop] at hmove
    exact congrArg (fun t : State => Host.Outcome.next t.finish) hmove
  case fill =>
    have hloop := fill_facts s ch.val d hc hrun hdfix hdw hdlen htop hmax (d.len + 1) 0 (Nat.zero_le _) (Nat.zero_mod _)
      (by omega)
    have hmove := dmaMove_moved (f := fun t e => t.fillLoop ch.val e 0 (e.len + 1)) hch hr hd hm (overlaps_fill hop) hloop
    rw [hop] at hmove
    exact congrArg (fun t : State => Host.Outcome.next t.finish) hmove

end Sys2Proof.Proofs.DmaMoves
end

