-- ==== Sys2Proof/Proofs/Sectors.lean ====
section
/-!
PROOFS. A recorded sector and what reading it back gives (R282 to R285, R292).
-/
namespace Sys2Proof.Proofs.Sectors

open Sys2Proof.Machine
open Sys2Proof.Laws.Sector

/-! ### The codeword -/

theorem ldpcEncode_split (u : Nat) :
    ldpcEncode u / 2 ^ 32896 = pack128 (ldpcParity (ldpcRows u) 0) ∧ ldpcEncode u % 2 ^ 32896 = u % 2 ^ 32896 :=
  enc_split _ _ 32896 (Nat.mod_lt _ (Nat.two_pow_pos 32896))

theorem ldpcEncode_lt (u : Nat) : ldpcEncode u < 2 ^ 36864 :=
  enc_lt _ _ 32896 3968 (Nat.mod_lt _ (Nat.two_pow_pos 32896)) (par_lt u)

/-- An encoded codeword has a zero syndrome. -/
theorem syndromeZero_encode {u : Nat} (h : u < 2 ^ 32896) : syndromeZero (ldpcEncode u) = true := by
  obtain ⟨hp, hu⟩ := ldpcEncode_split u
  unfold syndromeZero
  rw [hp, hu, Nat.mod_eq_of_lt h, Nat.mod_eq_of_lt (par_lt u)]
  exact decide_eq_true rfl

/-! ### The information vector -/

variable (cblk : Nat) (nodata : Bool) {l : List Byte}

theorem sectorMeta_length : (sectorMeta cblk nodata l).length = 16 := by
  unfold sectorMeta
  rw [List.length_append, List.length_append, leBytes_length, leBytes_length, leBytes_length]

theorem sectorInfo_lt (h : l.length = 4096) : sectorInfo cblk nodata l < 2 ^ 32896 := by
  have hlt := ofLe_lt (l ++ sectorMeta cblk nodata l)
  rw [List.length_append, h, sectorMeta_length] at hlt
  have hpow : 256 ^ (4096 + 16) = 2 ^ 32896 := by rw [show 256 = 2 ^ 8 by decide, ← Nat.pow_mul]
  rw [hpow] at hlt
  exact hlt

/-- The bytes of the information vector are the user bytes and the metadata. -/
theorem sectorInfo_bytes (h : l.length = 4096) : leBytes 4112 (sectorInfo cblk nodata l) = l ++ sectorMeta cblk nodata l := by
  have hlen : (l ++ sectorMeta cblk nodata l).length = 4112 := by rw [List.length_append, h, sectorMeta_length]
  have := leBytes_ofLe (l ++ sectorMeta cblk nodata l)
  rwa [hlen] at this

/-- The word of the metadata that names VER, NODATA and CBLK. -/
def metaWord : Nat := cblk % 2 ^ 48 + b2n nodata * 2 ^ 48 + 0x01 * 2 ^ 56

theorem sectorMeta_word : ofLe ((sectorMeta cblk nodata l).take 8) = metaWord cblk nodata := by
  unfold sectorMeta
  rw [List.append_assoc, List.take_append_of_le_length (by rw [leBytes_length]),
    List.take_of_length_le (by rw [leBytes_length]), ofLe_leBytes]
  exact Nat.mod_eq_of_lt (meta_word cblk nodata).1

theorem sectorMeta_crc : ofLe (((sectorMeta cblk nodata l).drop 8).take 4) = crc32c l := by
  unfold sectorMeta
  rw [List.append_assoc, List.drop_append_of_le_length (by rw [leBytes_length]),
    List.drop_of_length_le (by rw [leBytes_length]), List.nil_append,
    List.take_append_of_le_length (by rw [leBytes_length]), List.take_of_length_le (by rw [leBytes_length]), ofLe_leBytes]
  exact Nat.mod_eq_of_lt (crc_lt l)

/-! ### Reading back -/

/-- What a request finds in a sector whose scrambler seed it shares: the block, if its CBLK is the recorded one. -/
theorem sectorDecode_recorded {other : Nat} (h : l.length = 4096) (hseed : other % 65535 = cblk % 65535) :
    sectorDecode other (scramble cblk (ldpcEncode (sectorInfo cblk nodata l)))
      = if cblk % 2 ^ 48 = other % 2 ^ 48 then .user l nodata else .failed := by
  have hlt := sectorInfo_lt cblk nodata h
  obtain ⟨_, hver, hcblk, hnd⟩ := meta_word cblk nodata
  have huser : (l ++ sectorMeta cblk nodata l).take 4096 = l := by
    rw [List.take_append_of_le_length (by omega), List.take_of_length_le (by omega)]
  have hmeta : ∀ k, (l ++ sectorMeta cblk nodata l).drop (4096 + k) = (sectorMeta cblk nodata l).drop k := by
    intro k
    rw [← h, List.drop_length_add_append]
  have hword : ofLe (((l ++ sectorMeta cblk nodata l).drop 4096).take 8) = metaWord cblk nodata := by
    rw [show 4096 = 4096 + 0 from rfl, hmeta 0]
    exact sectorMeta_word cblk nodata
  have hcrc : ofLe (((l ++ sectorMeta cblk nodata l).drop 4104).take 4) = crc32c l := by
    rw [show 4104 = 4096 + 8 from rfl, hmeta 8]
    exact sectorMeta_crc cblk nodata
  unfold sectorDecode
  dsimp only
  rw [scr_scr other cblk _ hseed, syndromeZero_encode hlt, if_neg (by decide), (ldpcEncode_split _).2,
    Nat.mod_eq_of_lt hlt, sectorInfo_bytes cblk nodata h, huser, hword, hcrc]
  unfold metaWord
  rw [hver, hcblk, hnd]
  refine if_congr ?_ rfl rfl
  exact ⟨fun ⟨_, hb, _⟩ => hb, fun hb => ⟨rfl, hb, rfl⟩⟩

/-- The trailing pattern follows the codeword. -/
theorem tail_place : 37040 = 36864 + 176 := rfl

theorem sectorBits_codeword :
    sectorBits cblk nodata l / 2 ^ 176 % 2 ^ 36864 = scramble cblk (ldpcEncode (sectorInfo cblk nodata l)) := by
  have hhead : pattern1100 128 + syncMark * 2 ^ 128 < 2 ^ 176 := by decide
  unfold sectorBits
  rw [tail_place]
  exact bits_mid _ _ _ 176 36864 hhead (scr_lt _ _ (ldpcEncode_lt _))

/-- Settles O54: the scrambler of the request undoes that of the record, the code's syndrome is zero, and the metadata
decides. The clause on other requests speaks of those that share the scrambler seed. -/
theorem sectorsDecode : Obligations.SectorsDecode := by
  unfold Obligations.SectorsDecode
  intro cblk other nodata l h
  refine ⟨?own, ?fits, fun hseed hne => ?other⟩
  case own => rw [sectorBits_codeword, sectorDecode_recorded cblk nodata h rfl, if_pos rfl]
  case fits =>
    have hhead : pattern1100 128 + syncMark * 2 ^ 128 < 2 ^ 176 := by decide
    have htail : pattern1100 64 < 2 ^ 64 := by decide
    unfold sectorBits
    rw [tail_place, show 37104 = 36864 + 176 + 64 from rfl]
    exact bits_all _ _ _ 176 36864 64 hhead (scr_lt _ _ (ldpcEncode_lt _)) htail
  case other => rw [sectorBits_codeword, sectorDecode_recorded cblk nodata h hseed, if_neg (fun he => hne he.symm)]

end Sys2Proof.Proofs.Sectors
end

