-- ==== Sys2Proof/Proofs/Blocks.lean ====
section
/-!
PROOFS. The blocks that the attar encoder emits (R192 to R198, R207).
-/
namespace Sys2Proof.Proofs.Blocks

open Sys2Proof.Machine
open Sys2Proof.Laws.Codec

/-- What the statement asks of a block for a chunk. -/
def EncodesChunk (linePx : Nat) (window : List Nat) (chunk : List Byte) (last hist flush : Bool) (block : List Byte) :
    Prop :=
  let h := BlkHdr.ofBytes (block.take 16)
  h.ok = true ∧ h.last = last ∧ h.hist = hist ∧ h.flush = flush ∧ h.outLen = chunk.length
    ∧ block.length = 16 + h.inLen
    ∧ (chunk = [] → h.raw = false ∧ h.inLen = 0)
    ∧ (chunk ≠ [] → if h.raw then h.inLen = chunk.length else h.inLen < chunk.length)
    ∧ decodeBlock h linePx window.reverse (block.drop 16) = .pixels (nibblesOf chunk)

/-- The header that a block of a chunk has. -/
def chunkHdr (raw last hist flush : Bool) (inLen : Nat) (chunk : List Byte) : BlkHdr :=
  { magic := 0xA7, raw := raw, last := last, hist := hist, flush := flush, rsvd := 0, ver := 1, inLen := inLen,
    outLen := chunk.length, crc := crc32c chunk }

variable {linePx : Nat} {window : List Nat} {chunk : List Byte} {last hist flush : Bool}

/-- A header with the lengths and the CRC of a chunk, and a payload that decodes to the chunk's pixels. -/
theorem encodesChunk_of_payload (raw : Bool) {payload : List Byte} (hc : chunk.length ≤ 65536)
    (hsize : if raw then payload.length = chunk.length else (payload.length < chunk.length ∨ chunk = [] ∧ payload = []))
    (hempty : chunk = [] → raw = false)
    (hdec : decodeBlock (chunkHdr raw last hist flush payload.length chunk) linePx window.reverse payload
      = .pixels (nibblesOf chunk)) :
    EncodesChunk linePx window chunk last hist flush
      (BlkHdr.bytes raw last hist flush payload.length chunk.length (crc32c chunk) ++ payload) := by
  have hle : payload.length ≤ 65536 := by
    cases raw with
    | true => rw [if_pos rfl] at hsize; omega
    | false =>
      rcases hsize with h | ⟨_, h⟩
      · omega
      · rw [h]; exact Nat.zero_le _
  obtain ⟨htake, hdrop, hlen, hhdr⟩ := hdr_parts raw last hist flush payload.length chunk.length (crc32c chunk) payload
    (by omega) (by omega) (crc_lt chunk)
  unfold EncodesChunk
  rw [htake, hdrop, hhdr]
  refine ⟨?ok, rfl, rfl, rfl, rfl, ?length, fun h => ⟨hempty h, ?none⟩, fun h => ?size, hdec⟩
  case ok =>
    unfold BlkHdr.ok
    have hraw : (!raw || payload.length == chunk.length) = true := by
      cases raw with
      | true => exact beq_iff_eq.mpr hsize
      | false => rfl
    dsimp only
    rw [hraw, decide_eq_true hle, decide_eq_true hc]
    rfl
  case length => rw [List.length_append, hlen]
  case none =>
    rw [hempty h] at hsize
    rcases hsize with hlt | ⟨_, hp⟩
    · rw [h] at hlt; exact absurd hlt (Nat.not_lt_zero _)
    · rw [hp]; rfl
  case size =>
    cases raw with
    | true => exact hsize
    | false => exact hsize.resolve_right fun hn => h hn.1

/-- A raw payload is the chunk itself. -/
theorem decodeBlock_raw (n : Nat) (hist' : List Nat) :
    decodeBlock (chunkHdr true last hist flush n chunk) linePx hist' chunk = .pixels (nibblesOf chunk) :=
  if_pos (congrArg crc32c (pack_nib chunk))

/-- A coded payload that decodes to the chunk's pixels is accepted: the CRC is the chunk's. -/
theorem decodeBlock_coded {n : Nat} {payload : List Byte} {hist' : List Nat}
    (h : (decodeTokens linePx (2 * payload.length + 1) (nibblesOf chunk).length hist' (nibblesOf payload)).map
      (fun acc => (acc.take (nibblesOf chunk).length).reverse) = some (nibblesOf chunk)) :
    decodeBlock (chunkHdr false last hist flush n chunk) linePx hist' payload = .pixels (nibblesOf chunk) := by
  rw [len_nib chunk] at h
  unfold decodeBlock
  simp only [chunkHdr, Bool.false_eq_true, if_false]
  rw [len_nib payload, h]
  exact if_pos (congrArg crc32c (pack_nib chunk))

/-- Settles O47: a block is a header without payload, a coded one that was tried and is shorter, or the raw bytes. That a
block of no chunk is a header with RAW = 0 is the model's reading of log entry 52. -/
theorem encodedBlocksDecode : Obligations.EncodedBlocksDecode := by
  unfold Obligations.EncodedBlocksDecode
  intro linePx window chunk last hist flush hc
  show EncodesChunk linePx window chunk last hist flush (encodeBlock linePx window chunk last hist flush)
  unfold encodeBlock
  dsimp only
  by_cases hnil : chunk = []
  · rw [if_pos hnil]
    subst hnil
    have hnone : (decodeTokens linePx 1 0 window.reverse []).map (fun acc => (acc.take 0).reverse) = some [] := rfl
    have h := encodesChunk_of_payload (window := window) (chunk := []) (last := last) (hist := hist) (flush := flush)
      (payload := []) false hc (Or.inr ⟨rfl, rfl⟩) (fun _ => rfl) (decodeBlock_coded hnone)
    rwa [List.append_nil] at h
  · rw [if_neg hnil]
    by_cases hgood : (decide ((decodeTokens linePx
        (2 * (packNibbles (Config.encoderTokens linePx window (nibblesOf chunk))).length + 1) (nibblesOf chunk).length
        window.reverse (nibblesOf (packNibbles (Config.encoderTokens linePx window (nibblesOf chunk))))).map
        (fun acc => (acc.take (nibblesOf chunk).length).reverse) = some (nibblesOf chunk))
        && decide ((packNibbles (Config.encoderTokens linePx window (nibblesOf chunk))).length < chunk.length)) = true
    · rw [if_pos hgood]
      rw [Bool.and_eq_true, decide_eq_true_eq, decide_eq_true_eq] at hgood
      exact encodesChunk_of_payload false hc (Or.inl hgood.2) (fun h => absurd h hnil) (decodeBlock_coded hgood.1)
    · rw [if_neg hgood]
      exact encodesChunk_of_payload true hc rfl (fun h => absurd h hnil) (decodeBlock_raw _ _)

end Sys2Proof.Proofs.Blocks
end

