-- ==== Sys2Proof/Proofs/StaleTimer.lean ====
section
/-!
PROOFS. OPEN of an object whose slot has a generation of more than 10 bits (R85, R99): its handle names another object.
-/
namespace Sys2Proof.Proofs.StaleTimer

open Sys2Proof.Machine

/-- A timer that came due before it was opened. -/
def dueTimer : Timer := { (default : Timer) with late := true, armed := true }

/-- Core 0 with class 13 in register 1, about to OPEN an event group by the block at offset 0 of its data RAM. Timer 0 is
open, and the generation of slot 0 of class 13 is 57345, that is 56 × 1024 + 1: the handle 13 × 2^26 + 57345 × 2^16 is of
class 13 + 56 modulo 64, 5, and of generation 1. -/
def carried : State :=
  let t : State := { State.reset with
    objs := [(okey 5 0, ⟨1, 0, 0, 0⟩)], gens := [(okey 13 0, 57345)], timers := [(0, dueTimer)] }
  ((t.modCore 0 (fun c => { c with run := .running, g := c.g.set 1 13 })).wrLe (iramBase 0) 4
    (wordR 5 0 0 2 1 3).toNat).wrLe 0x1100010000 4 4

theorem carried_ready : carried.coreReady 0 := ⟨by decide +kernel, by decide +kernel, by decide +kernel, by decide +kernel⟩

theorem carried_clean : carried.Clean := ⟨by decide +kernel, by decide +kernel⟩

theorem carried_spells : carried.spells 0 (.crOpen 0 3 1 2) := by
  unfold State.spells
  decide +kernel

/-- How often timer 0 has expired after a command. -/
def expiriesAfter : Host.Outcome State Fault Refusal → Option Nat
  | .next t => (Tab.get t.timers 0).map (·.expiries)
  | _ => none

/-- The OPEN expires timer 0: its handle names the timer. -/
theorem opened_expires : expiriesAfter (exec (.crOpen 0 3 1 2) carried) = some 1 := by decide +kernel

/-- The words of the parameter block of `carried`. -/
def carriedWords : List Nat := carried.blockWords 0 0

/-- The state that the statement gives for an OPEN of a class that is no timer. -/
def claimed : State :=
  ((carried.issued 0).openAt 0 13 0 carriedWords).modCore 0 (fun q =>
    (({ q with ost := Ost.ok.code } : Core).wr 3 (BitVec.ofNat 32 (13 * 2 ^ 26 + (carried.issued 0).genOf 13 0 * 2 ^ 16 + 0))).goOn)

theorem claimed_quiet : expiriesAfter (.next claimed.finish) = some 0 := by decide +kernel

theorem slotFor_carried : (carried.issued 0).slotFor 13 carriedWords = .ok 0 := by
  have h : (match (carried.issued 0).slotFor 13 carriedWords with | .ok i => some i | .error _ => none) = some 0 := by
    decide +kernel
  split at h
  next i hi => rw [hi, Option.some.inj h]
  next => cases h

/-- Refutes O37: the statement takes any generation of the slot, and one of more than 10 bits carries into the class of the
handle. In `carried` an OPEN of an event group then names timer 0, which is late, so the timer expires at once, which the
statement grants to class 5 alone. No run from reset reaches such a generation. -/
theorem not_objectInstructions : ¬ Obligations.ObjectInstructions := by
  unfold Obligations.ObjectInstructions
  intro h
  have hfail : (carried.core 0).failing = [] := by decide +kernel
  have hstale : (carried.core 0).stale = [] := by decide +kernel
  have hclass : ((carried.core (0 : Fin 24).val).rd 1).toNat = 13 := by decide +kernel
  have hptr : ((carried.core (0 : Fin 24).val).rd 2).toNat = 0 := by decide +kernel
  obtain ⟨-, hblock, -, -⟩ := h carried 0 3 1 2 carried_ready hfail hstale carried_clean
  dsimp only at hblock
  rw [hclass, hptr] at hblock
  obtain ⟨-, hcls⟩ := hblock ⟨by decide, by decide +kernel⟩
  obtain ⟨-, -, hunits⟩ := hcls ⟨by decide, by decide⟩
  obtain ⟨-, -, hslot⟩ := hunits ⟨by decide +kernel, by decide +kernel⟩
  have hexec : exec (.crOpen 0 3 1 2) carried = .next claimed.finish :=
    (hslot 0 slotFor_carried).1 (by decide) carried_spells
  have hsame := congrArg expiriesAfter hexec
  rw [opened_expires, claimed_quiet] at hsame
  exact absurd hsame (by decide)

end Sys2Proof.Proofs.StaleTimer
end

