-- ==== Sys2Proof/Proofs/Signals.lean ====
section
/-!
PROOFS. SIGNAL (R67, R101).
-/
namespace Sys2Proof.Proofs.Signals

open Sys2Proof.Machine
open Sys2Proof.Laws.Objects
open Sys2Proof.Proofs.CoreMemory (exec_ready)

variable {s : State} {n : Fin 24} {rd ra rb : Fin 32}

/-- A FENCE inside an issuing instruction that finds nothing to settle. -/
theorem issued_fenced (hf : (s.core n.val).failing = []) (hs : (s.core n.val).stale = []) :
    (s.issued n.val).fenced n.val = s.issued n.val :=
  fenced_nil _ _ (by rw [issued_core _ _ n.isLt]; exact hf) (by rw [issued_core _ _ n.isLt]; exact hs)

section rows
variable (hr : s.coreReady n.val) (hf : (s.core n.val).failing = []) (hs : (s.core n.val).stale = [])
include hr hf hs

theorem effSignal_refused {e : Ost}
    (he : (s.issued n.val).checkHandle ((s.core n.val).rd ra).toNat (fun c => c == 0x0D) = .error e) :
    s.effSignal n.val rd.val ra.val rb.val = ((s.issued n.val).seen e).groupDone n.val rd.val e e.code := by
  unfold State.effSignal
  rw [issue_issued _ _ _ hr]
  dsimp only
  rw [gr_issued, issued_fenced hf hs, he]

theorem effSignal_raised {i : Nat}
    (hi : (s.issued n.val).checkHandle ((s.core n.val).rd ra).toNat (fun c => c == 0x0D) = .ok i) :
    s.effSignal n.val rd.val ra.val rb.val
      = ((s.issued n.val).raiseEv ((s.core n.val).rd ra).toNat ((s.core n.val).rd rb).toNat).groupDone n.val rd.val .ok 0 := by
  unfold State.effSignal
  rw [issue_issued _ _ _ hr]
  dsimp only
  rw [gr_issued, issued_fenced hf hs, hi]
  dsimp only
  rw [gr_issued]
  rfl

end rows

/-- An answer that only OST and rd take. -/
theorem exec_answered {i : Instr} {f : State → State} {t : State} {e : Ost} {v : Nat} (hr : s.coreReady n.val)
    (hexec : exec i s = .next (s.fetched n.val i f).finish) (hf : f s = t.groupDone n.val rd.val e v)
    (hm : midway (t.core n.val)) (hi : s.spells n.val i) :
    exec i s = .next (t.modCore n.val (fun q =>
      (({ q with ost := e.code } : Core).wr rd (BitVec.ofNat 32 v)).goOn)).finish :=
  exec_ready hr hexec (hf.trans (done_eq t n rd e v hm)) hi

/-- A SIGNAL of a live group: the bits are raised and the answer is OK. -/
theorem exec_raised {i : Nat} (hr : s.coreReady n.val) (hf : (s.core n.val).failing = []) (hs : (s.core n.val).stale = [])
    (hi : (s.issued n.val).checkHandle ((s.core n.val).rd ra).toNat (fun c => c == 0x0D) = .ok i)
    (hsp : s.spells n.val (.crSignal n rd ra rb)) :
    exec (.crSignal n rd ra rb) s
      = .next (((s.issued n.val).raiseEv ((s.core n.val).rd ra).toNat ((s.core n.val).rd rb).toNat).modCore n.val (fun q =>
          (({ q with ost := 0 } : Core).wr rd 0).goOn)).finish :=
  exec_answered (f := fun t => t.effSignal n.val rd.val ra.val rb.val) (e := .ok) (v := 0) hr rfl
    (effSignal_raised hr hf hs hi) (raiseEv_midway _ _ _ _ (issued_midway s n.val n.isLt)) hsp

/-- An answer does not see that the instruction has issued. -/
theorem answer_issued (c : Core) (e : Nat) (v : Word) :
    (({ c.issuing with ost := e } : Core).wr rd v).goOn = (({ c with ost := e } : Core).wr rd v).goOn := by
  unfold Core.wr Core.goOn
  split <;> rfl

theorem seen_midway (e : Ost) : midway (((s.issued n.val).seen e).core n.val) := by
  have hcore : ((s.issued n.val).seen e).core n.val = (s.issued n.val).core n.val := by
    unfold State.seen
    split <;> rfl
  rw [hcore]
  exact issued_midway s n.val n.isLt

theorem live_of_check {t : State} {h i : Nat} (hi : t.checkHandle h (fun c => c == 0x0D) = .ok i) :
    t.live h 0x0D = some i := by
  unfold State.live
  rw [hi]

/-- The group of a live handle takes the bits raised. -/
theorem raiseEv_evgs {t : State} {h b i : Nat} {g : EvGroup} (hl : t.live h 0x0D = some i) (hg : Tab.get t.evgs i = some g)
    (hb : b % 2 ^ 32 ≠ 0) :
    Tab.get (t.raiseEv h b).evgs i = some { g with pending := g.pending ||| b % 2 ^ 32 } := by
  unfold State.raiseEv
  rw [if_neg hb, hl]
  dsimp only
  rw [hg]
  dsimp only
  have hkeep : ∀ (l : List Nat) (u : State),
      (l.foldl (fun t n => if t.hasCore n then t.setEvp n (2 ^ g.evbit) else t) u).evgs = u.evgs := by
    intro l
    induction l with
    | nil => intro u; rfl
    | cons k r ih =>
      intro u
      rw [List.foldl_cons, ih]
      split <;> rfl
  rw [hkeep]
  exact Tab.get_put_same _ _ _

/-- Settles O39: the handle's own status, or the bits in the group and its EVP bit in the target cores that are there. -/
theorem signals : Obligations.Signals := by
  unfold Obligations.Signals
  intro s n m rd ra rb i g hr hf hs runs h b s0
  have hb32 : b % 2 ^ 32 = b := Nat.mod_eq_of_lt ((s.core n.val).rd rb).isLt
  refine ⟨fun e he => ?refused, fun hi hb => ?nothing, fun hi hg hb => ?raised⟩
  case refused => exact exec_answered hr rfl (effSignal_refused hr hf hs he) (seen_midway e)
  case nothing =>
    have hnone : s0.raiseEv h b = s0 := by
      unfold State.raiseEv
      rw [if_pos (by rw [hb32, hb])]
    intro hsp
    rw [exec_raised hr hf hs hi hsp, show (s.issued n.val).raiseEv _ _ = s.issued n.val from hnone]
    unfold State.issued
    rw [State.modCore_modCore]
    exact congrArg (fun f => Host.Outcome.next (s.modCore n.val f).finish) (funext fun c => answer_issued c 0 0)
  case raised =>
    have hne : b % 2 ^ 32 ≠ 0 := by omega
    have hl : s0.live h 0x0D = some i := live_of_check hi
    have hcore := raiseEv_core s0 h b m.val i g hl hg hne
    have hm : (s0.core m.val).evp = (s.core m.val).evp := by
      by_cases hnm : n.val = m.val
      · rw [← hnm, issued_core _ _ n.isLt]; rfl
      · exact congrArg Core.evp (State.core_modCore_ne s Core.issuing hnm)
    refine ⟨s0.raiseEv h b, exec_raised hr hf hs hi, ?bits, fun ⟨hbit, hhas⟩ => ?target, fun hno => ?other⟩
    case bits =>
      rw [raiseEv_evgs hl hg hne, hb32]
    case target =>
      rw [hcore, if_pos ⟨m.isLt, hbit, hhas⟩, ← hm]
    case other =>
      have hno' : ¬ (m.val < 24 ∧ bit g.cores m.val = true ∧ s0.hasCore m.val = true) := by
        rintro ⟨-, hbit, hhas⟩
        rcases hno with h | h
        · exact absurd (h.symm.trans hbit) (by decide)
        · exact absurd (h.symm.trans hhas) (by decide)
      rw [hcore, if_neg hno', hm]

end Sys2Proof.Proofs.Signals
end

