-- ==== Sys2Proof/Proofs/RingInstr.lean ====
section
/-!
PROOFS. RPUSH and RPOP (R74, R102 to R104, R107, R110).
-/
namespace Sys2Proof.Proofs.RingInstr

open Sys2Proof.Machine
open Sys2Proof.Laws.Objects
open Sys2Proof.Proofs.CoreMemory (exec_ready)
open Sys2Proof.Proofs.Signals (exec_answered seen_midway issued_fenced)

/-! ### The pointer -/

section pointer
variable {s : State} {n : Fin 24} {rd ra rb : Fin 32}

/-- A pointer out of place traps with the address in EBAD. -/
theorem trap_issued {cause epc ebad : Nat} (ht : (s.core n.val).inTrap = false)
    (hpc : epc = (s.core n.val).pc) :
    (s.issued n.val).trap n.val cause epc ebad = s.modCore n.val (fun q => q.issuing.trapped cause 0 q.pc ebad) := by
  have hcore : (s.issued n.val).core n.val = (s.core n.val).issuing := issued_core _ _ n.isLt
  unfold State.issued at *
  rw [State.trap_entered _ _ _ _ _ _ (by decide) (by rw [hcore]; exact ht), State.modCore_modCore, hpc]
  exact State.modCore_congr _ _ _ _ rfl

variable (hr : s.coreReady n.val)
include hr

theorem effRpush_trap {cause : Nat} (ht : (s.core n.val).inTrap = false)
    (hp : dataPtr n.val ((s.core n.val).rd rb).toNat 64 64 = .error cause) :
    s.effRpush n.val rd.val ra.val rb.val
      = s.modCore n.val (fun q => q.issuing.trapped cause 0 q.pc ((s.core n.val).rd rb).toNat) := by
  unfold State.effRpush
  rw [issue_issued _ _ _ hr]
  dsimp only
  rw [gr_issued, gr_issued, hp]
  exact trap_issued ht (by rw [issued_core _ _ n.isLt]; rfl)

theorem effRpop_trap {cause : Nat} (ht : (s.core n.val).inTrap = false)
    (hp : dataPtr n.val ((s.core n.val).rd rb).toNat 64 64 = .error cause) :
    s.effRpop n.val rd.val ra.val rb.val
      = s.modCore n.val (fun q => q.issuing.trapped cause 0 q.pc ((s.core n.val).rd rb).toNat) := by
  unfold State.effRpop
  rw [issue_issued _ _ _ hr]
  dsimp only
  rw [gr_issued, gr_issued, hp]
  exact trap_issued ht (by rw [issued_core _ _ n.isLt]; rfl)

end pointer

/-! ### The ring -/

section ring
variable {t : State} {h i : Nat} {r : Ring}

theorem instrRing_refused {e : Ost} (he : t.checkHandle h (fun c => c == 0x04) = .error e) :
    t.instrRing h = (t.seen e, .error e) := by
  unfold State.instrRing
  rw [he]

variable (hi : t.checkHandle h (fun c => c == 0x04) = .ok i) (hg : Tab.get t.rings i = some r)
include hi hg

theorem instrRing_class (hrole : ringRole i < 2) : t.instrRing h = (t, .error .cls) := by
  unfold State.instrRing
  rw [hi]
  dsimp only
  rw [hg]
  exact if_pos hrole

theorem instrRing_error (hrole : 2 ≤ ringRole i) (herr : r.error = true) : t.instrRing h = (t, .error .busy) := by
  unfold State.instrRing
  rw [hi]
  dsimp only
  rw [hg]
  exact (if_neg (Nat.not_lt.mpr hrole)).trans (if_pos herr)

theorem instrRing_live (hrole : 2 ≤ ringRole i) (herr : r.error = false) : t.instrRing h = (t, .ok (i, r)) := by
  unfold State.instrRing
  rw [hi]
  dsimp only
  rw [hg]
  exact (if_neg (Nat.not_lt.mpr hrole)).trans (if_neg (by rw [herr]; decide))

end ring

section answers
variable {t u : State} {h i n : Nat} {r : Ring} {e : Ost} {l : List Byte}

theorem pushBy_refused (he : t.instrRing h = (u, .error e)) : t.pushBy n h l = (u, e) := by
  unfold State.pushBy
  rw [he]

theorem popBy_refused (he : t.instrRing h = (u, .error e)) : t.popBy h = (u, .error e) := by
  unfold State.popBy
  rw [he]

/-- A mailbox ring takes nothing of a core that is no sender of it. -/
theorem pushBy_stranger (hir : t.instrRing h = (t, .ok (i, r))) (hrole : ringRole i = 3)
    (hm : t.mailboxOf h n = none) : t.pushBy n h l = (t, .busy) := by
  unfold State.pushBy
  rw [hir]
  dsimp only
  rw [if_pos hrole, hm]

theorem pushBy_full (hir : t.instrRing h = (t, .ok (i, r))) (hm : ringRole i = 3 → t.mailboxOf h n ≠ none)
    (hfull : r.count = r.size) : t.pushBy n h l = (t, .full) := by
  unfold State.pushBy
  rw [hir]
  dsimp only
  by_cases hrole : ringRole i = 3
  · rw [if_pos hrole]
    cases hbox : t.mailboxOf h n with
    | none => exact absurd hbox (hm hrole)
    | some km => exact if_pos hfull
  · rw [if_neg hrole, if_pos hfull]

theorem pushBy_room (hir : t.instrRing h = (t, .ok (i, r))) (hrole : ringRole i = 2) (hroom : r.count < r.size) :
    t.pushBy n h l = (t.ringAppend i r l, .ok) := by
  rw [pushBy_work t n h i r l hir hrole, if_neg (Nat.ne_of_lt hroom)]

/-- The state after a message of mailbox `k` to its ring: the sequence number counts on, the receiver wakes. -/
def mailed (t : State) (i : Nat) (r : Ring) (k : Nat) (m : Mailbox) (l : List Byte) : State :=
  let t1 := t.ringAppend i r (t.mailHeader k m ++ l.drop 16)
  State.setEvp { t1 with mboxes := Tab.upd t1.mboxes k (fun x => { x with seq := (x.seq + 1) % 2 ^ 16 }) } m.dest (2 ^ 30)

theorem pushBy_mail {k : Nat} {m : Mailbox} (hir : t.instrRing h = (t, .ok (i, r))) (hrole : ringRole i = 3)
    (hm : t.mailboxOf h n = some (k, m)) (hroom : r.count < r.size) : t.pushBy n h l = (mailed t i r k m l, .ok) := by
  unfold State.pushBy
  rw [hir]
  dsimp only
  rw [if_pos hrole, hm]
  exact if_neg (Nat.ne_of_lt hroom)

end answers

/-! ### The answers of the two instructions -/

section rows
variable {s u : State} {n : Fin 24} {rd ra rb : Fin 32} {e : Ost}

/-- The system address of a pointer operand into the core's own data RAM. -/
def ptrAt (n : Fin 24) (b : Nat) : Nat := 0x1100000000 + n.val * 0x20000 + 0x10000 + b

variable (hr : s.coreReady n.val) (hc : s.Clean) (hal : ((s.core n.val).rd rb).toNat % 64 = 0)
  (hin : ((s.core n.val).rd rb).toNat + 64 ≤ 0x10000)
include hr hal hin

/-- RPUSH answers as the push does. -/
theorem exec_push (hc : s.Clean) (hf : (s.core n.val).failing = []) (hs : (s.core n.val).stale = [])
    (hp : (s.issued n.val).pushBy n.val ((s.core n.val).rd ra).toNat (s.rdBytes (ptrAt n ((s.core n.val).rd rb).toNat) 64)
      = (u, e)) (hm : midway (u.core n.val)) (hi : s.spells n.val (.crRpush n rd ra rb)) :
    exec (.crRpush n rd ra rb) s = .next (u.modCore n.val (fun q =>
      (({ q with ost := e.code } : Core).wr rd (BitVec.ofNat 32 e.code)).goOn)).finish := by
  have hmem : s.inMemory (ptrAt n ((s.core n.val).rd rb).toNat) 64 = true :=
    ownData_mem s n.val _ 64 _ n.isLt (by decide) ⟨hin, rfl⟩
  refine exec_answered hr rfl ((rpush_row s n rd ra rb _ hr hf hs hc (dataPtr_ok _ _ _ _ hal hin) hmem).trans ?_) hm hi
  unfold ptrAt at hp
  rw [hp]

/-- RPOP that gets no entry. -/
theorem exec_pop_refused (hp : (s.issued n.val).popBy ((s.core n.val).rd ra).toNat = (u, .error e))
    (hm : midway (u.core n.val)) (hi : s.spells n.val (.crRpop n rd ra rb)) :
    exec (.crRpop n rd ra rb) s = .next (u.modCore n.val (fun q =>
      (({ q with ost := e.code } : Core).wr rd (BitVec.ofNat 32 e.code)).goOn)).finish :=
  exec_answered hr rfl (rpop_err s u n rd ra rb _ e hr (dataPtr_ok _ _ _ _ hal hin) hp) hm hi

/-- RPOP of an entry: its bytes go to data RAM. -/
theorem exec_pop_entry {l : List Byte} (hu : u.Clean)
    (hp : (s.issued n.val).popBy ((s.core n.val).rd ra).toNat = (u, .ok l)) (hm : midway (u.core n.val))
    (hi : s.spells n.val (.crRpop n rd ra rb)) :
    exec (.crRpop n rd ra rb) s
      = .next ((u.wrBytes (ptrAt n ((s.core n.val).rd rb).toNat) l).modCore n.val (fun q =>
          (({ q with ost := Ost.ok.code } : Core).wr rd (BitVec.ofNat 32 Ost.ok.code)).goOn)).finish := by
  refine exec_answered hr rfl ((rpop_ok s u n rd ra rb _ l hr (dataPtr_ok _ _ _ _ hal hin) hp).trans ?_) ?_ hi
  · rw [memWriteWords_eq _ _ _ _ hu]
    rfl
  · rw [State.wrBytes_core]
    exact hm

end rows

/-! ### What a push and a pop leave -/

section effects
variable {t : State} {i n k : Nat} {r : Ring} {m : Mailbox} {l : List Byte}

theorem setEvp_midway {v d : Nat} (h : midway (t.core n)) : midway ((t.setEvp d v).core n) := by
  unfold State.setEvp
  by_cases hd : d = n
  · subst hd
    by_cases hlt : d < 24
    · rw [State.core_modCore _ _ _ hlt]; exact h
    · have hsame : t.modCore d (fun c => { c with evp := c.evp ||| v % 2 ^ 31 }) = t := by
        unfold State.modCore vmod
        rw [dif_neg hlt]
      rw [hsame]; exact h
  · rw [State.core_modCore_ne _ _ hd]; exact h

theorem mailed_midway (hc : t.Clean) (h : midway (t.core n)) : midway ((mailed t i r k m l).core n) :=
  setEvp_midway (ringAppend_midway t i n r _ hc h)

theorem mailed_rings (hc : t.Clean) :
    Tab.get (mailed t i r k m l).rings i = some { r with prod := (r.prod + 1) % 2 ^ 32 } :=
  ringAppend_rings t i r _ hc

theorem mailed_mem (hc : t.Clean) :
    (mailed t i r k m l).mem = (t.wrBytes (r.entryAddr r.prod) (t.mailHeader k m ++ l.drop 16)).mem :=
  ringAppend_mem t i r _ hc

theorem mailed_mboxes (hc : t.Clean) :
    Tab.get (mailed t i r k m l).mboxes k = (Tab.get t.mboxes k).map (fun x => { x with seq := (x.seq + 1) % 2 ^ 16 }) := by
  have hkeep : (t.ringAppend i r (t.mailHeader k m ++ l.drop 16)).mboxes = t.mboxes := by
    rw [ringAppend_eq _ _ _ _ hc]
    simp only [State.notify_frame]
    rw [State.wrBytes_eq]
  show Tab.get (Tab.upd (t.ringAppend i r (t.mailHeader k m ++ l.drop 16)).mboxes k
    (fun x => { x with seq := (x.seq + 1) % 2 ^ 16 })) k = _
  rw [hkeep, Tab.get_upd_same]

/-- The state after an entry has left its ring. -/
def popped (t : State) (i : Nat) (r : Ring) : State :=
  { t with rings := Tab.put t.rings i { r with cons := (r.cons + 1) % 2 ^ 32 } }

end effects

/-! ### The statement -/

/-- Settles O38: the pointer is judged first, the handle next, then class, ERROR, the mailbox and the room; of a ring that
several answers fit this order is the model's choice (log entry 100). An entry is 64 bytes. -/
theorem ringInstructions : Obligations.RingInstructions := by
  unfold Obligations.RingInstructions
  intro s n rd ra rb hr hf hs hc runs h b p s0 done both
  have hmid : midway (s0.core n.val) := issued_midway s n.val n.isLt
  have hc0 : s0.Clean := hc.modCore _ _
  refine ⟨fun ht => ?traps, fun hal hin => ⟨fun e he => ?refused, fun i r hi hg => ?live⟩⟩
  case traps =>
    intro trap stops
    have hstop : ∀ cause, dataPtr n.val b 64 64 = .error cause → stops cause := fun cause hp =>
      ⟨exec_ready hr rfl (effRpush_trap hr ht hp), exec_ready hr rfl (effRpop_trap hr ht hp)⟩
    refine ⟨fun hb => hstop 2 (if_pos hb), fun ⟨hb, hlong⟩ => hstop 3 ?_⟩
    exact (if_neg (not_not.mpr hb)).trans (if_pos hlong)
  case refused =>
    have hir := instrRing_refused he
    exact ⟨exec_push hr hal hin hc hf hs (pushBy_refused hir) (seen_midway e),
      exec_pop_refused hr hal hin (popBy_refused hir) (seen_midway e)⟩
  case live =>
    have hboth : ∀ e, s0.instrRing h = (s0, .error e) → both s0 e := fun e hir =>
      ⟨exec_push hr hal hin hc hf hs (pushBy_refused hir) hmid, exec_pop_refused hr hal hin (popBy_refused hir) hmid⟩
    refine ⟨fun hrole => hboth .cls (instrRing_class hi hg hrole),
      fun ⟨hrole, herr⟩ => hboth .busy (instrRing_error hi hg hrole herr),
      fun ⟨hrole, herr, hbox⟩ => ?stranger, fun ⟨hrole, herr, hbox, hfull⟩ => ?full, fun ⟨hrole, herr, hnone⟩ => ?empty,
      fun htop hmax hpos herr => ⟨fun ⟨hrole, hroom⟩ => ?work, fun k m ⟨hrole, hroom⟩ hbox => ?mail,
        fun ⟨hrole, hcount⟩ => ?pop⟩⟩
    case stranger =>
      exact exec_push hr hal hin hc hf hs (pushBy_stranger (instrRing_live hi hg (by omega) herr) hrole hbox) hmid
    case full =>
      exact exec_push hr hal hin hc hf hs (pushBy_full (instrRing_live hi hg hrole herr) hbox hfull) hmid
    case empty =>
      have hpop : s0.ringPop i r = (s0, .empty) := if_pos hnone
      exact exec_pop_refused hr hal hin (popBy_empty s0 s0 h i r (instrRing_live hi hg hrole herr) hpop) hmid
    case work =>
      refine ⟨s0.ringAppend i r (s.rdBytes p 64), exec_push hr hal hin hc hf hs
        (pushBy_room (instrRing_live hi hg (by omega) herr) hrole hroom) (ringAppend_midway s0 i n.val r _ hc0 hmid),
        ringAppend_rings s0 i r _ hc0, ?_⟩
      rw [ringAppend_mem s0 i r _ hc0, wrBytes_mem_issued]
      rfl
    case mail =>
      refine ⟨mailed s0 i r k m (s.rdBytes p 64), exec_push hr hal hin hc hf hs
        (pushBy_mail (instrRing_live hi hg (by omega) herr) hrole hbox hroom) (mailed_midway hc0 hmid),
        mailed_rings hc0, mailed_mboxes hc0, ?_⟩
      rw [mailed_mem hc0, wrBytes_mem_issued]
      rfl
    case pop =>
      have hmod : r.cons % r.size < r.size := Nat.mod_lt _ hpos
      have hmem : s0.inMemory (r.entryAddr r.cons) 64 = true :=
        State.inMemory_dram s0 _ 64 (by decide) (by unfold Ring.entryAddr; show _ ≤ s.dramTop; omega)
          (by unfold Ring.entryAddr; omega)
      have hpop := popBy_ok s0 (popped s0 i r) h i r _ (instrRing_live hi hg hrole herr)
        (ringPop_clean s0 i r hc0 (by omega) hmem)
      refine ⟨(popped s0 i r).wrBytes p (s0.rdBytes (r.entryAddr r.cons) 64),
        exec_pop_entry hr hal hin ⟨hc0.upsets, hc0.arm⟩ hpop hmid, ?_, ?_⟩
      · rw [State.wrBytes_eq]
        exact Tab.get_put_same _ _ _
      · exact wrBytes_mem_congr _ _ _ _ rfl

end Sys2Proof.Proofs.RingInstr
end

