-- ==== Sys2Proof/Proofs/ObjectCmds.lean ====
section
/-!
PROOFS. Jobs and pages by their registers, timers, drains, and lost entries of the object table (R95 to R113).
-/
namespace Sys2Proof.Proofs.ObjectCmds

open Sys2Proof.Machine
open Sys2Proof.Laws.Writes (nx getLsbD_bits)
open Sys2Proof.Laws.Objects

/-! ### Jobs and pages -/

section jobs
variable {s : State} {h i : Nat} {j : Job} {p : Page}

theorem live_none_job (hl : s.live h 0x0A = none) : effJobStart h s = s.objRej ∧ effJobStop h s = s.objRej := by
  unfold effJobStart effJobStop
  rw [hl]
  exact ⟨rfl, rfl⟩

variable (hl : s.live h 0x0A = some i) (hj : Tab.get s.jobs i = some j)
include hl hj

theorem effJobStart_refused (hno : j.state ≠ .setup) : effJobStart h s = s.objRej := by
  unfold effJobStart
  rw [hl]
  dsimp only
  rw [hj]
  exact if_pos (Or.inl hno)

/-- A job that may start runs; its stations' tables change nothing of the jobs. -/
theorem effJobStart_jobs (hs : j.state = .setup) (hfree : s.jobs.any (fun e => e.2.active && e.2.stn &&& j.stn != 0) = false)
    (hclk : s.jobClocks j.stn j.pixclk = true) :
    Tab.get (effJobStart h s).jobs i = some { j with state := .running } := by
  have hok : ¬ (j.state ≠ .setup ∨ s.jobs.any (fun e => e.2.active && e.2.stn &&& j.stn != 0) = true
      ∨ s.jobClocks j.stn j.pixclk = false) := by
    rw [hs, hfree, hclk]
    decide
  unfold effJobStart
  rw [hl]
  dsimp only
  rw [hj]
  dsimp only
  rw [if_neg hok, each_jobs]
  · exact modJob_get s i _ j hj
  · intro t k
    split
    · rw [applyPll_jobs, lacReplace_jobs]; rfl
    · rw [lacReplace_jobs]; rfl

theorem effJobStop_running (hs : j.state = .running) :
    effJobStop h s = (s.modJob i (fun x => { x with state := .stopping })).settleJob i := by
  unfold effJobStop
  rw [hl]
  dsimp only
  rw [hj]
  exact if_pos hs

theorem effJobStop_refused (hno : j.state ≠ .running) : effJobStop h s = s.objRej := by
  unfold effJobStop
  rw [hl]
  dsimp only
  rw [hj]
  exact if_neg hno

end jobs

section pages
variable {s : State} {h i : Nat} {p : Page}

theorem effPageReady_none (hp : s.pageOf h = none) : effPageReady h s = s.objRej := by
  unfold effPageReady
  rw [hp]

theorem effPageReady_some (hp : s.pageOf h = some (i, p)) :
    effPageReady h s = if p.state = .building then s.modPage i (fun q => { q with state := .ready }) else s.objRej := by
  unfold effPageReady
  rw [hp]

end pages

/-! ### Timers -/

section timers
variable {s : State} {k : Nat} {t : Timer}

theorem effTimerExpiry_none (h : Tab.get s.timers k = none) : effTimerExpiry k s = s := by
  unfold effTimerExpiry
  rw [h]

theorem effTimerExpiry_early (h : Tab.get s.timers k = some t) (hno : t.armed = false ∨ s.now < t.next) :
    effTimerExpiry k s = s := by
  unfold effTimerExpiry
  rw [h]
  exact if_pos hno

/-- The periods that an expiry found missed. -/
def missed (s : State) (t : Timer) : Nat := if t.period = 0 ∨ s.now = t.next then 0 else (s.now - t.next - 1) / t.period

/-- The timers after an expiry. -/
def afterExpiry (s : State) (k : Nat) (t : Timer) : State :=
  { s with timers := Tab.put s.timers k { t with
      expiries := (t.expiries + 1) % 2 ^ 32, skipped := (t.skipped + missed s t) % 2 ^ 32, armed := t.period != 0
      next := if t.period = 0 then t.next else t.next + (missed s t + 1) * t.period } }

theorem effTimerExpiry_due (h : Tab.get s.timers k = some t) (ha : t.armed = true) (hn : t.next ≤ s.now) :
    effTimerExpiry k s
      = (if t.woff = 0 then afterExpiry s k t
          else (afterExpiry s k t).regWrite false t.woff (BitVec.ofNat 32 t.wdata)).notify 0x05 k t.bits := by
  have hok : ¬ (t.armed = false ∨ s.now < t.next) := by
    rintro (h | h)
    · exact absurd (ha.symm.trans h) (by decide)
    · omega
  unfold effTimerExpiry
  rw [h]
  exact if_neg hok

end timers

/-! ### Drains -/

section drains
variable {s : State} {v : Word}

theorem effDrain_off (h : v.getLsbD 16 = false) : effDrain v s = s := by
  have hgo : F.OBJ_DRAIN_GO.of v = 0 := by
    rw [getLsbD_bits, beq_eq_false_iff_ne] at h
    have := bits_lt v.toNat 16 1
    show bits v.toNat 16 1 = 0
    omega
  exact if_pos hgo

/-- A drain asked for, by its two cores. -/
theorem effDrain_go (h : v.getLsbD 16 = true) :
    effDrain v s
      = if s.hasCore (v.toNat % 32) = false ∨ s.hasCore (v.toNat / 256 % 32) = false ∨ v.toNat % 32 = v.toNat / 256 % 32
            ∨ s.flag (F.CRS_CTRL_RUN (v.toNat % 32)) = true
            ∨ servoCore (v.toNat % 32) ≠ servoCore (v.toNat / 256 % 32) ∨ s.drain.isSome = true then
          s.setFlag F.OBJ_DRAIN_STATUS_REFUSED
        else { s with drain := some (v.toNat % 32, v.toNat / 256 % 32) } := by
  have hgo : ¬ F.OBJ_DRAIN_GO.of v = 0 := by
    rw [getLsbD_bits, beq_iff_eq] at h
    show ¬ bits v.toNat 16 1 = 0
    omega
  have hsrc : F.OBJ_DRAIN_SRC.of v = v.toNat % 32 := congrArg (· % 32) (Nat.div_one v.toNat)
  have hdst : F.OBJ_DRAIN_DST.of v = v.toNat / 256 % 32 := rfl
  unfold effDrain
  dsimp only
  rw [if_neg hgo, hsrc, hdst]

theorem drainBits_eq : drainBits = 0x40FFFFFF := rfl

/-- What the end of a drain leaves. -/
theorem effDrainDone_facts {src dst : Fin 24} (h : s.drain = some (src.val, dst.val)) (hne : src ≠ dst) :
    (effDrainDone s).drain = none ∧ (effDrainDone s).flag F.OBJ_DRAIN_STATUS_DONE = true
      ∧ (effDrainDone s).objs = s.objs.map (fun e =>
          (e.1, { e.2 with owner := if e.2.owner = src.val then dst.val else e.2.owner }))
      ∧ ((effDrainDone s).core src.val).evp = (s.core src.val).evp - ((s.core src.val).evp &&& 0x40FFFFFF)
      ∧ ((effDrainDone s).core dst.val).evp = (s.core dst.val).evp ||| ((s.core src.val).evp &&& 0x40FFFFFF) := by
  have hv : src.val ≠ dst.val := fun hh => hne (Fin.ext hh)
  have hsmall : ((s.core src.val).evp &&& drainBits) % 2 ^ 31 = (s.core src.val).evp &&& drainBits :=
    Nat.mod_eq_of_lt (Nat.lt_of_le_of_lt Nat.and_le_right (by decide))
  unfold effDrainDone
  rw [h]
  dsimp only
  refine ⟨rfl, ?_, rfl, ?_, ?_⟩
  · rw [State.flag_setFld_apart _ _ _ _ (by decide) (by decide), State.flag_setFlag _ _ (by decide) rfl]
  · show ((State.setEvp (State.modCore _ src.val _) dst.val _).core src.val).evp = _
    unfold State.setEvp
    rw [State.core_modCore_ne _ _ (Ne.symm hv), State.core_modCore _ _ _ src.isLt]
    rfl
  · show ((State.setEvp (State.modCore _ src.val _) dst.val _).core dst.val).evp = _
    unfold State.setEvp
    rw [State.core_modCore _ _ _ dst.isLt, State.core_modCore_ne _ _ hv, hsmall]
    rfl

end drains

/-! ### Lost entries -/

section lost
variable {s : State} {c i : Nat}

theorem free_low_apart (hcls : c < 16) : (F.OBJ_FREE_LOW (c - 1)).ok ∧ (F.OBJ_FREE_LOW (c - 1)).key ≠ F.OBJ_STATUS_TBL_ECC.key := by
  have h : ∀ k : Fin 16, (F.OBJ_FREE_LOW (k.val - 1)).ok ∧ (F.OBJ_FREE_LOW (k.val - 1)).key ≠ F.OBJ_STATUS_TBL_ECC.key := by
    decide
  exact h ⟨c, hcls⟩

theorem effObjTableEcc_gone (h : classCap c ≤ i ∨ s.isWithdrawn c i = true) : effObjTableEcc c i s = s := if_pos h

variable (hc : i < classCap c) (hw : s.isWithdrawn c i = false)
include hc hw

theorem effObjTableEcc_lost :
    effObjTableEcc c i s
      = (let s1 := (s.setFlag F.OBJ_STATUS_TBL_ECC).raise 80
         let s2 := if s1.isOpen c i then ((s1.stopUnit c i).dropObj c i) else s1
         State.freeChanged { s2 with objs := Tab.del s2.objs (okey c i), withdrawn := okey c i :: s2.withdrawn } c) := by
  refine if_neg ?_
  rintro (h | h)
  · omega
  · exact absurd (hw.symm.trans h) (by decide)

/-- The entry's slot is withdrawn and holds no object. -/
theorem effObjTableEcc_slot : (effObjTableEcc c i s).isWithdrawn c i = true ∧ (effObjTableEcc c i s).obj c i = none := by
  rw [effObjTableEcc_lost hc hw]
  refine ⟨?_, ?_⟩
  · show (okey c i :: _).contains (okey c i) = true
    rw [List.contains_cons, beq_self_eq_true, Bool.true_or]
  · exact Tab.get_del_same _ _

/-- A lost entry without an object: the table error is shown and raised. -/
theorem effObjTableEcc_closed (hcls : c < 16) (ho : s.isOpen c i = false) :
    (effObjTableEcc c i s).flag F.OBJ_STATUS_TBL_ECC = true
      ∧ (effObjTableEcc c i s).flt.raised = s.flt.raised ++ [80] := by
  have ho' : ((s.setFlag F.OBJ_STATUS_TBL_ECC).raise 80).isOpen c i = false := ho
  obtain ⟨hok, hkey⟩ := free_low_apart hcls
  rw [effObjTableEcc_lost hc hw]
  dsimp only
  rw [if_neg (by rw [ho']; decide)]
  unfold State.freeChanged
  refine ⟨?_, rfl⟩
  rw [State.flag_setFld_apart _ _ _ _ hok (Or.inl hkey)]
  exact State.flag_setFlag s _ (by decide) rfl

end lost

/-! ### The statement -/

/-- Settles O41: each command by the state of its object, and a drain by its two cores. -/
theorem objectCommands : Obligations.ObjectCommands := by
  unfold Obligations.ObjectCommands
  intro s handle v k idx cls i next rej
  have hnx : ∀ {t u : State}, t = u → (nx t : Host.Outcome State Fault Refusal) = next u := fun h => congrArg nx h
  refine ⟨fun hl => ⟨hnx (live_none_job hl).1, hnx (live_none_job hl).2⟩, fun j hl hj => ⟨fun hs => ?noStart,
      fun ⟨hs, hfree, hclk⟩ => ?start, fun hs => ?stop, fun hs => ?noStop⟩, fun p hp => ⟨fun hs => ?ready, fun hs => ?notReady⟩,
    fun hp => ?noPage, fun ht => ?noTimer, fun t ht => ⟨fun hno => ?early, fun ⟨ha, hn⟩ => ?due⟩, ⟨fun hg => ?noDrain,
      fun hg => ⟨fun hno => ?refused, fun ⟨hne, hs, hd, hr, hserv, hnone⟩ => ?drain⟩⟩, fun hd => ?noDone,
    fun src dst hd hne => ?done, fun hno => ?gone, fun hc hw => ?lost, fun hc hw _ ho => ?closed⟩
  case noStart => exact hnx (effJobStart_refused hl hj hs)
  case start => exact ⟨effJobStart handle.toNat s, rfl, effJobStart_jobs hl hj hs hfree hclk⟩
  case stop => exact hnx (effJobStop_running hl hj hs)
  case noStop => exact hnx (effJobStop_refused hl hj hs)
  case ready => exact hnx ((effPageReady_some hp).trans (if_pos hs))
  case notReady => exact hnx ((effPageReady_some hp).trans (if_neg hs))
  case noPage => exact hnx (effPageReady_none hp)
  case noTimer => exact hnx (effTimerExpiry_none ht)
  case early => exact hnx (effTimerExpiry_early ht hno)
  case due =>
    refine ⟨fun hw => hnx ((effTimerExpiry_due ht ha hn).trans ?_), fun hw => hnx ((effTimerExpiry_due ht ha hn).trans ?_)⟩
    · rw [if_pos hw]; rfl
    · rw [if_neg hw]; rfl
  case noDrain => exact hnx (effDrain_off hg)
  case refused =>
    refine hnx ((effDrain_go hg).trans (if_pos ?_))
    rcases hno with h | h | h | h | h | h
    · exact Or.inr (Or.inr (Or.inl h))
    · exact Or.inl h
    · exact Or.inr (Or.inl h)
    · exact Or.inr (Or.inr (Or.inr (Or.inl h)))
    · exact Or.inr (Or.inr (Or.inr (Or.inr (Or.inl h))))
    · exact Or.inr (Or.inr (Or.inr (Or.inr (Or.inr (Option.isSome_iff_ne_none.mpr h)))))
  case drain =>
    refine hnx ((effDrain_go hg).trans (if_neg ?_))
    rintro (h | h | h | h | h | h)
    · exact absurd (hs.symm.trans h) (by decide)
    · exact absurd (hd.symm.trans h) (by decide)
    · exact hne h
    · exact absurd (hr.symm.trans h) (by decide)
    · exact h hserv
    · rw [hnone] at h; exact absurd h (by decide)
  case noDone =>
    refine hnx ?_
    unfold effDrainDone
    rw [hd]
  case done => exact ⟨effDrainDone s, rfl, effDrainDone_facts hd hne⟩
  case gone => exact hnx (effObjTableEcc_gone hno)
  case lost => exact ⟨effObjTableEcc cls.val idx.val s, rfl, effObjTableEcc_slot hc hw⟩
  case closed =>
    exact ⟨effObjTableEcc cls.val idx.val s, rfl, (effObjTableEcc_slot hc hw).1,
      effObjTableEcc_closed hc hw cls.isLt ho⟩

end Sys2Proof.Proofs.ObjectCmds
end

