-- ==== Sys2Proof/Proofs/Scan.lean ====
section
/-!
PROOFS. Scan timing, firing tables, lace and protection (R117 to R172).
-/
namespace Sys2Proof.Proofs.Scan

open Sys2Proof.Machine
open Sys2Proof.Laws.Writes
open Sys2Proof.Laws.Scan

variable {s : State} {i : Nat}

/-- What a loss of lock or a trip does to pages leaves alone: scan timing, registers, faults, links and protection. -/
def timing (s : State) := (s.exp, s.regs, s.flt, s.fuses, s.elk, s.lac)

theorem flag_of_timing {s t : State} (hr : t.regs = s.regs) (hf : t.fuses = s.fuses) (f : Fld) : t.flag f = s.flag f := by
  unfold State.flag State.reg
  rw [hr, hf]

theorem withdrawPage_timing (s : State) (k m : Nat) : timing (s.withdrawPage k m) = timing s := by
  unfold State.withdrawPage
  split
  · split
    · simp only [timing, State.settleJob_frame, State.dropFills, State.admitDone, State.notify_frame,
        State.modJob_frame, State.modPage_frame]
    · rfl
  · rfl

theorem withdrawStation_timing (s : State) (i : Nat) : timing (s.withdrawStation i) = timing s :=
  each_keeps timing _ _ _ fun t k => withdrawPage_timing t k 0

theorem spoilFrom_timing (s : State) (i cause line : Nat) : timing (s.spoilFrom i cause line) = timing s := by
  refine each_keeps timing _ _ _ fun t k => ?_
  dsimp only
  split
  · rfl
  · rw [apply_ite timing, spoil_keeps timing (fun _ _ _ => rfl), ite_self]

/-! ### BD pulses -/

section pulse
variable {falling : Bool} {width interval fine : Nat}

theorem effBdPulse_unseen
    (h : falling ≠ s.flag (F.EXP_SCAN_BD_POL i) ∨ width < s.fld (F.EXP_BD_MINW i) ∨ s.pixelRuns i = false) :
    effBdPulse i falling width interval fine s = s := if_pos h

variable (hp : falling = s.flag (F.EXP_SCAN_BD_POL i)) (hw : s.fld (F.EXP_BD_MINW i) ≤ width) (hx : s.pixelRuns i = true)
include hp hw hx

theorem not_unseen : ¬ (falling ≠ s.flag (F.EXP_SCAN_BD_POL i) ∨ width < s.fld (F.EXP_BD_MINW i) ∨ s.pixelRuns i = false) := by
  rintro (h | h | h)
  · exact h hp
  · omega
  · rw [hx] at h; cases h

theorem effBdPulse_probe (h : ((vget s.exp i).facetsRun && s.inProbes i interval) = true) :
    effBdPulse i falling width interval fine s = s := (if_neg (not_unseen hp hw hx)).trans (if_pos h)

variable (hq : ((vget s.exp i).facetsRun && s.inProbes i interval) = false)
include hq

theorem effBdPulse_locked (hl : s.flag (F.EXP_STATUS_BD_LOCK i) = true) :
    effBdPulse i falling width interval fine s
      = if s.nearUnits i ((vget s.exp i).fromBd + 64 * s.fld (F.EXP_FACETPX_FACET_PX i)) interval = true
        then s.bdAccept i interval fine else s.addSat (F.EXP_CNT_SPURIOUS i) 1 := by
  refine (if_neg (not_unseen hp hw hx)).trans ((if_neg ?_).trans (if_pos hl))
  intro c
  exact absurd (hq.symm.trans c) (by decide)

theorem effBdPulse_unlocked (hl : s.flag (F.EXP_STATUS_BD_LOCK i) = false) {acq : Nat}
    (ha : acq = if ((vget s.exp i).bdSeen && s.nearUnits i (64 * s.fld (F.EXP_FACETPX_FACET_PX i)) interval) = true
      then (vget s.exp i).acq + 1 else 0) :
    effBdPulse i falling width interval fine s
      = if max 1 (s.fld (F.EXP_BD_LOCKN i)) ≤ acq then (s.setLock i true).bdAccept i interval fine
        else s.modExp i (fun x => { x with bdSeen := true, acq := acq }) := by
  subst ha
  refine (if_neg (not_unseen hp hw hx)).trans ((if_neg ?_).trans (if_neg ?_))
  · intro c
    exact absurd (hq.symm.trans c) (by decide)
  · intro c
    exact absurd (hl.symm.trans c) (by decide)

end pulse

/-- A pulse that makes the lock is accepted like any other: the lock moves nothing that the facet's start reads. -/
theorem bdAccept_setLock (s : State) (i interval fine : Nat) (hi : i < 4) :
    let t := (s.setLock i true).bdAccept i interval fine
    (vget t.exp i).origin = s.now ∧ (vget t.exp i).inScan = true ∧ (vget t.exp i).fly = 0
      ∧ (vget t.exp i).facets = ((vget s.exp i).facets + 1) % 2 ^ 32 ∧ (vget t.exp i).bdt = s.now
      ∧ (vget t.exp i).fper = interval ∧ (vget t.exp i).fine = fine % 8192
      ∧ ∀ n < 24, s.hasCore n = true → (t.core n).evp = (s.core n).evp ||| 2 ^ (24 + i) := by
  have h := bdAccept_facts (s.setLock i true) i interval fine hi
  have hf : (vget (s.setLock i true).exp i).facets = (vget s.exp i).facets := by
    unfold State.setLock
    rw [exp_modExp _ _ _ hi]
    rfl
  rw [hf] at h
  exact h

/-! ### Flywheel facets and the loss of lock -/

/-- A facet without a BD pulse, as the flywheel places it. -/
def flown (s : State) (i : Nat) : State :=
  let e := s.ex i
  let u := e.fromBd + s.facetUnits i
  let f := s.pixHz i
  (((s.facetStart i (e.base + u * 1000000000 * f.2 / (64 * f.1)) false).modExp i (fun x => { x with
      fly := e.fly + 1, fromBd := u })).addSat (F.EXP_CNT_FLYWHEELS i) 1).raise (97 + 4 * i)

theorem effFlywheelFacet_idle (h : (vget s.exp i).facetsRun = false ∨ s.pixelRuns i = false) :
    effFlywheelFacet i s = s := if_pos h

theorem effFlywheelFacet_runs (hr : (vget s.exp i).facetsRun = true) (hx : s.pixelRuns i = true) :
    effFlywheelFacet i s = if s.flag (F.EXP_STATUS_BD_LOCK i) = true ∧ s.fld (F.EXP_BD_BD_HOLD i) < (vget s.exp i).fly + 1
      then (flown s i).bdLost i else flown s i := by
  refine if_neg ?_
  rintro (h | h)
  · exact absurd (hr.symm.trans h) (by decide)
  · exact absurd (hx.symm.trans h) (by decide)

theorem flown_exp (s : State) (i : Nat) (hi : i < 4) :
    vget (flown s i).exp i = { vget (s.facetStart i ((vget s.exp i).base
        + ((vget s.exp i).fromBd + 64 * s.fld (F.EXP_FACETPX_FACET_PX i)) * 1000000000 * (s.pixHz i).2 / (64 * (s.pixHz i).1)) false).exp i with
      fly := (vget s.exp i).fly + 1, fromBd := (vget s.exp i).fromBd + 64 * s.fld (F.EXP_FACETPX_FACET_PX i) } := by
  unfold flown
  simp only [State.raise_frame, State.addSat_frame]
  exact exp_modExp _ _ _ hi

theorem flown_origin (s : State) (i : Nat) (hi : i < 4) : (vget (flown s i).exp i).origin = (vget s.exp i).base
    + ((vget s.exp i).fromBd + 64 * s.fld (F.EXP_FACETPX_FACET_PX i)) * 1000000000 * (s.pixHz i).2 / (64 * (s.pixHz i).1) :=
  (congrArg ExpSt.origin (flown_exp s i hi)).trans (congrArg (·.1) (facetStart_facts s i _ false hi))

theorem flown_facets (s : State) (i : Nat) (hi : i < 4) :
    (vget (flown s i).exp i).facets = ((vget s.exp i).facets + 1) % 2 ^ 32 :=
  (congrArg ExpSt.facets (flown_exp s i hi)).trans (congrArg (·.2.2.1) (facetStart_facts s i _ false hi))

theorem flown_raised (s : State) (i : Nat) : (flown s i).flt.raised.getLast? = some (97 + 4 * i) :=
  List.getLast?_concat

theorem bdLost_timing (s : State) (i : Nat) :
    timing (s.bdLost i)
      = timing (((s.setLock i false).modExp i (fun e => { e with bdSeen := false, acq := 0 })).raise (96 + 4 * i)) :=
  (withdrawStation_timing _ i).trans (spoilFrom_timing _ i _ _)

theorem setLock_exp (s : State) (i : Nat) (b : Bool) (hi : i < 4) : vget (s.setLock i b).exp i
    = { vget s.exp i with locks := (s.now, b) :: keepBack s.now (vget s.exp i).locks } := exp_modExp _ _ _ hi

theorem bdLost_exp (s : State) (i : Nat) (hi : i < 4) :
    (vget (s.bdLost i).exp i).origin = (vget s.exp i).origin ∧ (vget (s.bdLost i).exp i).bdSeen = false := by
  have h : vget (s.bdLost i).exp i = { vget (s.setLock i false).exp i with bdSeen := false, acq := 0 } :=
    (congrArg (fun x => vget x.1 i) (bdLost_timing s i)).trans (exp_modExp _ _ _ hi)
  rw [h, setLock_exp _ _ _ hi]
  exact ⟨rfl, rfl⟩

theorem bdLost_lock (s : State) (i : Nat) : (s.bdLost i).flag (F.EXP_STATUS_BD_LOCK i) = false := by
  have h := bdLost_timing s i
  exact (flag_of_timing (s := s.putFlag (F.EXP_STATUS_BD_LOCK i) false) (congrArg (·.2.1) h) (congrArg (·.2.2.2.1) h) _).trans
    (State.flag_putFlag _ _ _ (Nat.le_of_ble_eq_true rfl) rfl)

theorem bdLost_raised (s : State) (i : Nat) : 96 + 4 * i ∈ (s.bdLost i).flt.raised := by
  rw [show (s.bdLost i).flt = _ from congrArg (·.2.2.1) (bdLost_timing s i)]
  exact raise_mem _ _

/-! ### FLYOFF, the polygon index and the scan end -/

/-- The facet in progress ends with the scan (log entry 105: its lines count). -/
theorem scanEnd_line (s : State) (i : Nat) (hi : i < 4) : (vget (s.scanEnd i).exp i).line
    = if (vget s.exp i).inScan = true then ((vget s.exp i).cf + 128 / s.passesOn i) % 2 ^ 40 else (vget s.exp i).line := by
  unfold State.scanEnd
  split
  · next h => rw [if_neg (by rw [show (vget s.exp i).inScan = false from h]; decide)]
  · next h =>
    have he := ((ecf_iff _ _).1 ((settleDuty_facts (s.dropUnsent i) i).trans (dropUnsent_facts s i))).1
    rw [if_pos (c := (vget s.exp i).inScan = true) (Bool.eq_true_of_not_eq_false h), exp_modExp _ _ _ hi, he]
    rfl

theorem scanEnd_inScan (s : State) (i : Nat) (hi : i < 4) : (vget (s.scanEnd i).exp i).inScan = false := by
  unfold State.scanEnd
  split
  · next h => exact h
  · exact congrArg ExpSt.inScan (exp_modExp _ _ _ hi)

theorem flyoff_of (v : Word) : (F.EXP_CTRL_FLYOFF i).of v = 1 ↔ v.getLsbD 0 = true := by
  rw [getLsbD_bits, beq_iff_eq]
  rfl

theorem effFlyoff_kept {v : Word} (h : s.flag (F.EXP_STATUS_BD_LOCK i) = true ∨ v.getLsbD 0 = false) : effFlyoff i v s = s := by
  refine if_neg ?_
  rintro ⟨h1, h2⟩
  rcases h with h | h
  · exact absurd (h.symm.trans h2) (by decide)
  · exact absurd (h.symm.trans ((flyoff_of v).1 h1)) (by decide)

theorem effFlyoff_stops {v : Word} (hl : s.flag (F.EXP_STATUS_BD_LOCK i) = false) (hv : v.getLsbD 0 = true) :
    effFlyoff i v s = (s.scanEnd i).facetsStop i := if_pos ⟨(flyoff_of v).2 hv, hl⟩

theorem facetsStop_exp (s : State) (i : Nat) (hi : i < 4) :
    (vget (s.facetsStop i).exp i).facetsRun = false ∧ (vget (s.facetsStop i).exp i).inScan = false
      ∧ (vget (s.facetsStop i).exp i).line = (vget s.exp i).line := by
  unfold State.facetsStop
  rw [exp_modExp _ _ _ hi]
  exact ⟨rfl, rfl, rfl⟩

theorem facetsStop_flying (s : State) (i : Nat) : (s.facetsStop i).flag (F.EXP_STATUS_FLYING i) = false :=
  State.flag_clrFlag s _ (Nat.le_of_ble_eq_true rfl) rfl

/-! The polygon index: the facet counter is set right at once or, in a page, when the page is over (log entry 36). -/

section index
variable (he : s.flag (F.EXP_SCAN_FIDX_EN i) = true) (ho : s.flag (F.EXP_STATUS_FIDX_OK i) = true)
include he ho

/-- An index where facet 0 was not due is an error, and the counter is set right. -/
theorem effPolygonIndex_wrong (hf : ((vget s.exp i).facet + 1) % s.facetsOn i ≠ 0) :
    effPolygonIndex i s = if s.pageFree i (vget s.exp i).cf = true
      then ((s.setFlag (F.EXP_STATUS_FIDX_ERR i)).raise (99 + 4 * i)).modExp i
        (fun x => { x with facet := s.facetsOn i - 1, idxFix := false })
      else ((s.setFlag (F.EXP_STATUS_FIDX_ERR i)).raise (99 + 4 * i)).modExp i (fun x => { x with idxFix := true }) := by
  have hg : ((s.ex i).facet + 1) % s.facetsOn i ≠ 0 := hf
  unfold effPolygonIndex
  simp [he, ho, hg]
  rfl

/-- An index at facet 0 changes nothing, unless a correction still waits. -/
theorem effPolygonIndex_right (hf : ((vget s.exp i).facet + 1) % s.facetsOn i = 0)
    (hw : s.pageFree i (vget s.exp i).cf = false ∨ (vget s.exp i).idxFix = false) : effPolygonIndex i s = s := by
  have hg : ((s.ex i).facet + 1) % s.facetsOn i = 0 := hf
  have hc : (s.pageFree i (s.ex i).cf && (s.ex i).idxFix) = false := Bool.and_eq_false_iff.2 hw
  unfold effPolygonIndex
  simp [he, ho, hg, hc]

end index

/-- Settles O42. FLYOFF in a facet in progress still advances the line counter (log entry 105), and the facet number
that an index finds wrong is set as the model reads it (log entry 36). -/
theorem beamDetect : Obligations.BeamDetect := by
  intro s st falling width interval fine v hs i e next px win near acq u f flew lockn locked
  have hi : i < 4 := st.isLt
  have hu : ∀ {g : State → State} {t : State}, g s = t → next (s.onUnit (s.hasStn st.val) g) = next t :=
    fun h => congrArg next ((onUnit_present s _ _ hs).trans h)
  have hwin : ∀ {g : State → State} {t : State}, g s = t → next (s.onWindow (0x20 + st.val) g) = next t :=
    fun h => congrArg next ((onWindow_present s _ _ (windowPresent_station s st 0x20 (by decide) hs)).trans h)
  have hnear : ∀ k, s.nearUnits i k interval.toNat = true ↔ near k := fun k => near_iff s i k interval.toNat
  have hacq : acq = if (e.bdSeen && s.nearUnits i px interval.toNat) = true then e.acq + 1 else 0 := by
    simp only [acq, Bool.and_eq_true, hnear]
  refine ⟨fun h => hu (effBdPulse_unseen h), fun ⟨hp, hw, hx⟩ =>
      ⟨fun ⟨hr, hq⟩ => hu (effBdPulse_probe hp hw hx (Bool.and_eq_true_iff.2 ⟨hr, hq⟩)),
        fun hq => ⟨fun ⟨hl, hn⟩ => hu ?spurious, fun ⟨hl, ha⟩ => hu ?acquire, fun h => ?accept⟩⟩,
    fun h => hu (effFlywheelFacet_idle h), fun ⟨hr, hx⟩ => ⟨fun h => ?fly, fun ⟨hl, hh⟩ => ?lose⟩,
    fun h => hwin (effFlyoff_kept (.inl h)), fun h => hwin (effFlyoff_kept (.inr h)), fun ⟨hl, hv⟩ => ?off,
    fun h => hu (if_pos h), fun ⟨he, ho⟩ => hu ((if_neg (by rw [he]; decide)).trans (if_pos ho)),
    fun ⟨he, ho⟩ => ⟨fun ⟨hf, hpf⟩ => hu ?waits, fun ⟨hf, hpf⟩ => hu ?fixes,
      fun ⟨hf, hw⟩ => hu (effPolygonIndex_right he ho hf hw)⟩,
    fun h => ?ends, fun h => hu (if_pos h)⟩
  case spurious =>
    exact (effBdPulse_locked hp hw hx hq hl).trans (if_neg fun c => hn ((hnear _).1 c))
  case acquire => exact (effBdPulse_unlocked hp hw hx hq hl hacq).trans (if_neg (Nat.not_le.2 ha))
  case accept =>
    rcases h with ⟨hl, hn⟩ | ⟨hl, ha⟩
    · exact ⟨_, hu ((effBdPulse_locked hp hw hx hq hl).trans (if_pos ((hnear _).2 hn))), bdAccept_facts s i _ _ hi⟩
    · exact ⟨_, hu ((effBdPulse_unlocked hp hw hx hq hl hacq).trans (if_pos ha)), bdAccept_setLock s i _ _ hi⟩
  case fly =>
    refine ⟨flown s i, hu ((effFlywheelFacet_runs hr hx).trans (if_neg ?_)), flown_origin s i hi,
      congrArg ExpSt.fromBd (flown_exp s i hi), congrArg ExpSt.fly (flown_exp s i hi), flown_facets s i hi, flown_raised s i⟩
    rintro ⟨hl, hh⟩
    rcases h with h | h
    · exact absurd (hl.symm.trans h) (by decide)
    · exact absurd hh (Nat.not_lt.2 h)
  case lose =>
    have hb := bdLost_exp (flown s i) i hi
    exact ⟨_, hu ((effFlywheelFacet_runs hr hx).trans (if_pos ⟨hl, hh⟩)), hb.1.trans (flown_origin s i hi), hb.2,
      bdLost_lock _ i, bdLost_raised _ i⟩
  case off =>
    obtain ⟨h1, h2, h3⟩ := facetsStop_exp (s.scanEnd i) i hi
    exact ⟨_, hwin (effFlyoff_stops hl hv), h1, h2, facetsStop_flying _ i, h3.trans (scanEnd_line s i hi)⟩
  case waits => exact (effPolygonIndex_wrong he ho hf).trans (if_neg (by rw [hpf]; decide))
  case fixes => exact (effPolygonIndex_wrong he ho hf).trans (if_pos hpf)
  case ends => exact ⟨_, hu rfl, (scanEnd_line s i hi).trans (if_pos h), scanEnd_inScan s i hi⟩

end Sys2Proof.Proofs.Scan
end

