-- ==== Sys2Proof/Proofs/FiringAndLace.lean ====
section
/-!
PROOFS. Tone map, picots and the staged firing table (R133 to R139).
-/
namespace Sys2Proof.Proofs.Firing

open Sys2Proof.Machine
open Sys2Proof.Laws.Writes
open Sys2Proof.Laws.Scan

variable {s : State} {i : Nat} {v : Word}

/-! ### Tone map and picots, locked in a job -/

theorem expLocked_in {f : State → State} (h : s.inJob i = true) : s.expLocked i f = s.setFlag (F.EXP_STATUS_CFG_BUSY i) :=
  if_pos h

theorem expLocked_out {f : State → State} (h : s.inJob i = false) : s.expLocked i f = f s :=
  if_neg (by rw [h]; decide)

/-- The tones that a write of half `h` names: of the low half the first is no tone. -/
def tonesOf (h : Fin 2) (v : Word) : Nat := if h.val = 0 then v.toNat / 16 * 16 else v.toNat

theorem effExpTone_out {h : Fin 2} (hj : s.inJob i = false) :
    effExpTone i h.val v s = if (List.range 8).any (fun j => bits (tonesOf h v) (4 * j) 4 == 1) = true
      then s.setFlag (F.EXP_STATUS_CFG_ERR i)
      else s.setReg (if h.val = 0 then R.EXP_TONE_LO i else R.EXP_TONE_HI i) (BitVec.ofNat 32 (tonesOf h v)) :=
  expLocked_out hj

theorem effExpPicot_out (hj : s.inJob i = false) :
    effExpPicot i v s = if v.toNat / 4 % 4 = 0 ∨ v.toNat / 16 % 16 = 0 ∨ v.toNat / 16 % 16 < v.toNat / 4 % 4
      then s.setFlag (F.EXP_STATUS_CFG_ERR i) else s.plainWrite (R.EXP_PICOT i) v :=
  expLocked_out hj

/-! ### The staged table -/

theorem fire_pos (j : Nat) : (F.EXP_FIRE_POS i j).of v = v.toNat % 64 := by
  show v.toNat / 1 % 64 = v.toNat % 64
  rw [Nat.div_one]

theorem fire_width (j : Nat) : (F.EXP_FIRE_WIDTH i j).of v = v.toNat / 256 % 128 := rfl

section staged
variable {b c : Nat}

theorem effExpFire_busy (h : s.fld (F.EXP_FSTAT_STAGE i) ≠ 0) :
    effExpFire i b c v s = s.setFlag (F.EXP_FSTAT_FIRE_BUSY i) := if_pos h

/-- Code 0 fires nothing: its entry is not written. -/
theorem effExpFire_dark (h : s.fld (F.EXP_FSTAT_STAGE i) = 0) (hc : c = 0) : effExpFire i b c v s = s :=
  (if_neg (not_not_intro h)).trans (if_pos hc)

variable (h : s.fld (F.EXP_FSTAT_STAGE i) = 0) (hc : c ≠ 0)
include h hc

theorem effExpFire_long (hw : 64 < v.toNat / 256 % 128 ∨ 96 < v.toNat % 64 + v.toNat / 256 % 128) :
    effExpFire i b c v s = s.setFlag (F.EXP_FSTAT_ENT_ERR i) := by
  unfold effExpFire
  dsimp only
  rw [fire_pos, fire_width, if_neg (not_not_intro h), if_neg hc, if_pos hw]

theorem effExpFire_fits (hw : v.toNat / 256 % 128 ≤ 64) (hp : v.toNat % 64 + v.toNat / 256 % 128 ≤ 96) :
    effExpFire i b c v s = if c = 1 ∧ 7 < v.toNat / 256 % 128
      then (((s.setReg (R.EXP_FIRE i (16 * b + c)) (BitVec.ofNat 32 (v.toNat % 64 + 7 * 256))).setFlag
        (F.EXP_FSTAT_PICOT_CLAMP i)).fireDirty i)
      else (s.setReg (R.EXP_FIRE i (16 * b + c)) (BitVec.ofNat 32 (v.toNat % 64 + v.toNat / 256 % 128 * 256))).fireDirty i := by
  unfold effExpFire
  dsimp only
  rw [fire_pos, fire_width, if_neg (not_not_intro h), if_neg hc, if_neg (by omega), show (2 : Nat) ^ 8 = 256 from rfl]

end staged

/-! ### COMMIT and CANCEL (log entry 41: CANCEL wins where both are written) -/

theorem cancel_of : (F.EXP_FCTL_CANCEL i).of v = 1 ↔ v.getLsbD 2 = true := by
  rw [getLsbD_bits, beq_iff_eq]
  rfl

theorem commit_of (h : v.getLsbD 0 = true) : (F.EXP_FCTL_COMMIT i).of v ≠ 0 := by
  rw [getLsbD_bits, beq_iff_eq] at h
  exact fun c => absurd (h.symm.trans c) (by decide)

section commit
variable (h0 : v.getLsbD 0 = true) (h2 : v.getLsbD 2 = false)
include h2

theorem not_cancel : ¬ (F.EXP_FCTL_CANCEL i).of v = 1 := fun c => absurd (h2.symm.trans (cancel_of.1 c)) (by decide)

theorem effFctl_nothing (h : s.fld (F.EXP_FSTAT_STAGE i) ≠ 0 ∨ s.dirtyKeys i = []) : effFctl i v s = s :=
  (if_neg (not_cancel h2)).trans (if_pos (.inr (h.imp_right List.isEmpty_iff.2)))

include h0

theorem effFctl_commits (hs : s.fld (F.EXP_FSTAT_STAGE i) = 0) (hd : s.dirtyKeys i ≠ []) :
    effFctl i v s = if s.elkTrained i = true
      then ((s.setFld (F.EXP_FSTAT_STAGE i) 1).modExp i (fun e => { e with mode := (F.EXP_FCTL_MODE i).of v })).ctlQueue i
        (fireCmds (s.fireStaged i) 2048 (s.dirtyKeys i))
      else s.swapUntrained i := by
  refine (if_neg (not_cancel h2)).trans (if_neg ?_)
  rintro (c | c | c)
  · exact commit_of h0 c
  · exact c hs
  · exact hd (List.isEmpty_iff.1 c)

end commit

theorem swapUntrained_dark (h : s.fld (F.ELK_STATUS_STATE i) ≠ 6) : s.swapUntrained i = s.fireSwap i (vget s.exp i).line :=
  if_neg h

theorem swapUntrained_table (h : s.fld (F.ELK_STATUS_STATE i) = 6) :
    s.swapUntrained i = (s.fireSwap i (vget s.exp i).line).ctlQueue i
      (fireCmds ((s.fireSwap i (vget s.exp i).line).fireAct i) 2048 (s.dirtyKeys i)) :=
  if_pos h

theorem untrained_table (h : s.fld (F.ELK_STATUS_STATE i) = 6) : ¬ s.elkTrained i = true := by
  unfold State.elkTrained State.elkState
  rw [h]
  decide

theorem stage_ok : (F.EXP_FSTAT_STAGE i).ok := Nat.le_of_ble_eq_true rfl

theorem dirty_apart : (F.EXP_FSTAT_DIRTY i).apart (F.EXP_FSTAT_STAGE i) := .inr (.inr (Nat.le_of_ble_eq_true rfl))

/-- CANCEL of a commit in progress: STAGE 0, the active table as it was. -/
theorem effFctl_cancels (h2 : v.getLsbD 2 = true) (hs : s.fld (F.EXP_FSTAT_STAGE i) ≠ 0) :
    (effFctl i v s).fld (F.EXP_FSTAT_STAGE i) = 0 ∧ (effFctl i v s).exp = s.exp := by
  unfold effFctl
  dsimp only
  rw [if_pos (cancel_of.2 h2), if_neg hs]
  refine ⟨?_, rfl⟩
  unfold State.fireDirty State.putFlag
  rw [State.fld_setFld_apart _ _ _ _ (Nat.le_of_ble_eq_true rfl) dirty_apart]
  exact State.fld_setFld_same s _ 0 stage_ok

/-- Settles O43. Where a write carries both, CANCEL wins over COMMIT, and a load is done when no write of an entry is
queued or unacknowledged: both the model's reading (log entry 41). -/
theorem firingTables : Obligations.FiringTables := by
  intro s st h b c v hst i next stage entry w tones k n
  have hi : i < 4 := st.isLt
  have hwin : ∀ {g : State → State} {t : State}, g s = t → next (s.onWindow (0x20 + st.val) g) = next t :=
    fun h => congrArg next ((onWindow_present s _ _ (windowPresent_station s st 0x20 (by decide) hst)).trans h)
  have hu : ∀ {g : State → State} {t : State}, g s = t → next (s.onUnit (s.hasStn st.val) g) = next t :=
    fun h => congrArg next ((onUnit_present s _ _ hst).trans h)
  have htones : tones = tonesOf h v := by
    unfold tonesOf
    simp only [tones, Fin.ext_iff]
    rfl
  have hc0 : c.val = 0 ↔ c = 0 := Fin.val_eq_zero_iff
  have hc1 : c.val = 1 ↔ c = 1 := (Fin.ext_iff (a := c) (b := 1)).symm
  refine ⟨fun hj => ⟨hwin (expLocked_in hj), hwin (expLocked_in hj)⟩,
    fun hj => ⟨fun ht => hwin ?toneErr, fun ht => hwin ?tone,
      fun hk => hwin ((effExpPicot_out hj).trans (if_pos hk)), fun hk => hwin ((effExpPicot_out hj).trans (if_neg (by omega)))⟩,
    fun hs => hwin (effExpFire_busy hs),
    fun hs => ⟨fun hc => hwin (effExpFire_dark hs (hc0.2 hc)), fun ⟨hc, hw⟩ => hwin (effExpFire_long hs (mt hc0.1 hc) hw),
      fun ⟨hc, h7, hw, hp⟩ => hwin ?clamp, fun ⟨hc, h7, hw, hp⟩ => hwin ?entry⟩,
    fun ⟨h0, h2⟩ => ⟨fun hn => hwin (effFctl_nothing h2 hn), fun ⟨hs, hd, hl, h6⟩ => hwin ?swap,
      fun ⟨hs, hd, h6⟩ => hwin ?table, fun ⟨hs, hd, hl⟩ => ?load⟩,
    fun h2 => ⟨fun hs => hwin ((if_pos (cancel_of.2 h2)).trans (if_pos hs)), fun hs => ?cancel⟩,
    fun ⟨hs, hq⟩ => hu (if_pos ⟨hs, hq⟩), fun hn => hu (if_neg ?idle)⟩
  case toneErr => exact (effExpTone_out hj).trans (if_pos ((tone_any _).2 (htones ▸ ht)))
  case tone =>
    refine (effExpTone_out hj).trans ((if_neg ?_).trans ?_)
    · rw [tone_any, ← htones]
      rintro ⟨j, hj8, h1⟩
      exact ht j hj8 h1
    · rw [← htones]
      simp only [Fin.ext_iff]
      rfl
  case clamp => exact (effExpFire_fits hs (by rw [hc1.2 hc]; decide) hw hp).trans (if_pos ⟨hc1.2 hc, h7⟩)
  case entry =>
    exact (effExpFire_fits hs (mt hc0.1 hc) hw hp).trans (if_neg fun c1 => absurd (h7 (hc1.1 c1.1)) (Nat.not_le.2 c1.2))
  case swap => exact (effFctl_commits h0 h2 hs hd).trans ((if_neg (by rw [hl]; decide)).trans (swapUntrained_dark h6))
  case table => exact (effFctl_commits h0 h2 hs hd).trans ((if_neg (untrained_table h6)).trans (swapUntrained_table h6))
  case load =>
    have loading : ∀ m, vget ((s.setFld (F.EXP_FSTAT_STAGE i) 1).modExp i (fun e => { e with mode := m })).exp i
        = { vget s.exp i with mode := m } := fun m => exp_modExp _ i _ hi
    refine ⟨_, hwin ((effFctl_commits h0 h2 hs hd).trans (if_pos hl)), State.fld_setFld_same s _ 1 stage_ok,
      congrArg ExpSt.mode (loading _), (congrArg ExpSt.fire (loading (v.toNat / 2 % 2)) :)⟩
  case cancel =>
    obtain ⟨h1, h3⟩ := effFctl_cancels h2 hs
    exact ⟨_, hwin rfl, h1, congrArg (fun x => (vget x i).fire) h3⟩
  case idle =>
    rintro ⟨h1, hq⟩
    rcases hn with hn | hn
    · exact hn h1
    · exact absurd (hq.symm.trans hn) (by decide)

end Sys2Proof.Proofs.Firing
end
section
/-!
PROOFS. Lace maps, dead maps, limits, blocks and frames, need points and the cool-down write (R148 to R172).
-/
namespace Sys2Proof.Proofs.Lace

open Sys2Proof.Machine
open Sys2Proof.Laws.Writes
open Sys2Proof.Laws.Scan

variable {s : State} {i : Nat} {v : Word}

/-! ### Lace maps and their check -/

theorem effLaceWrite_free {off : Nat} (h : s.inJob i = false) :
    effLaceWrite i off v s = (s.plainWrite (0x240000 + 0x10000 * i + off) v).setFlag (F.LAC_STATUS_CHK_BUSY i) :=
  if_neg (by rw [h]; decide)

theorem wrLac_map (b : Fin 128) : wrLac i (0x400 + 4 * b.val) v s = effLaceWrite i (0x400 + 4 * b.val) v s := by
  have := b.isLt
  unfold wrLac
  repeat rw [if_neg (by omega)]
  exact if_pos (by omega)

theorem wrLac_elim (b : Fin 128) : wrLac i (0x800 + 4 * b.val) v s = effDutyLimitWrite i (0x800 + 4 * b.val) v s := by
  have := b.isLt
  unfold wrLac
  rw [if_neg (by omega)]
  exact if_pos (by omega)

/-- A field that a write of its register sets, of a window LACs. -/
theorem plainWrite_lac (st : Fin 4) (off lo w d : Nat) (ho : off < 0x10000)
    (hs : (findReg (0x24 + st.val) off).any (fun r => r.fields.contains ⟨lo, w, .rw, false, d⟩) = true) :
    bits ((s.plainWrite (0x240000 + 0x10000 * st.val + off) v).reg (0x240000 + 0x10000 * st.val + off)).toNat lo w
      = bits v.toNat lo w := by
  refine plainWrite_bits s _ v ⟨lo, w, .rw, false, d⟩ ?_
  rw [show (0x240000 + 0x10000 * st.val + off) / 0x10000 = 0x24 + st.val by omega,
    show (0x240000 + 0x10000 * st.val + off) % 0x10000 = off by omega]
  exact hs

theorem plainWrite_loff (st : Fin 4) (b : Fin 128) :
    (s.plainWrite (0x240000 + 0x10000 * st.val + (0x400 + 4 * b.val)) v).fld (F.LAC_MAP_LOFF st.val b.val) = v.toNat % 1024 := by
  have h := plainWrite_lac (s := s) (v := v) st (0x400 + 4 * b.val) 0 10 0 (by omega) (map_spec st b)
  have hk : R.LAC_MAP st.val b.val = 0x240000 + 0x10000 * st.val + (0x400 + 4 * b.val) := by
    unfold R.LAC_MAP
    omega
  unfold State.fld F.LAC_MAP_LOFF
  rw [hk]
  refine h.trans ?_
  show v.toNat / 1 % 1024 = v.toNat % 1024
  rw [Nat.div_one]

theorem plainWrite_elim (st : Fin 4) (b : Fin 128) :
    (s.plainWrite (0x240000 + 0x10000 * st.val + (0x800 + 4 * b.val)) v).fld (F.LAC_ELIM_ELIM st.val b.val) = v.toNat % 512 := by
  have h := plainWrite_lac (s := s) (v := v) st (0x800 + 4 * b.val) 0 9 154 (by omega) (elim_spec st b)
  have hk : R.LAC_ELIM st.val b.val = 0x240000 + 0x10000 * st.val + (0x800 + 4 * b.val) := by
    unfold R.LAC_ELIM
    omega
  unfold State.fld F.LAC_ELIM_ELIM
  rw [hk]
  refine h.trans ?_
  show v.toNat / 1 % 512 = v.toNat % 512
  rw [Nat.div_one]

theorem plainWrite_lacSt (s : State) (k : Nat) (v : Word) : (s.plainWrite k v).lac = s.lac := by
  obtain ⟨r, hr⟩ := plain_regs s k v
  rw [hr]

/-- A lace map's passes, written after the check, are not in LAC_STATUS. -/
theorem setPasses_status (f : Nat → Fld) (n : Nat → Nat) (hf : ∀ b, (f b).key ≠ R.LAC_STATUS i) (s : State) :
    (s.each (List.range 128) (fun t b => t.setFld (f b) (n b))).reg (R.LAC_STATUS i) = s.reg (R.LAC_STATUS i) :=
  each_keeps (fun t => t.reg (R.LAC_STATUS i)) _ _ _ fun t b => State.reg_setReg_ne t _ (Ne.symm (hf b))

/-- LAC_STATUS as the check leaves it. -/
def checked (s : State) (i : Nat) : State :=
  let s1 := (((s.setReg (R.LAC_CHK1 i) (LaceFail.word (s.laceCheck i 1))).setReg (R.LAC_CHK2 i)
    (LaceFail.word (s.laceCheck i 2))).setReg (R.LAC_CHK4 i) (LaceFail.word (s.laceCheck i 4))).clrFlag (F.LAC_STATUS_CHK_BUSY i)
  ((s1.putFlag (F.LAC_STATUS_OK1 i) (s.laceCheck i 1).isNone).putFlag (F.LAC_STATUS_OK2 i)
    (s.laceCheck i 2).isNone).putFlag (F.LAC_STATUS_OK4 i) (s.laceCheck i 4).isNone

theorem legality_status (h : s.flag (F.LAC_STATUS_CHK_BUSY i) = true) :
    (effLegalityCheckDone i s).reg (R.LAC_STATUS i) = (checked s i).reg (R.LAC_STATUS i) := by
  have h2 : ∀ b, (F.LAC_MAP_PASS2 i b).key ≠ R.LAC_STATUS i := fun b => by
    show 0x240400 + 0x10000 * i + 4 * b ≠ 0x240000 + 0x10000 * i
    omega
  have h4 : ∀ b, (F.LAC_MAP_PASS4 i b).key ≠ R.LAC_STATUS i := h2
  unfold effLegalityCheckDone
  rw [if_neg (by rw [h]; decide)]
  dsimp only
  split
  · rw [setPasses_status _ _ h4]
    split
    · exact setPasses_status _ _ h2 _
    · rfl
  · split
    · exact setPasses_status _ _ h2 _
    · rfl

theorem checked_flags (s : State) (i : Nat) : (checked s i).flag (F.LAC_STATUS_CHK_BUSY i) = false
    ∧ (checked s i).flag (F.LAC_STATUS_OK1 i) = (s.laceCheck i 1).isNone
    ∧ (checked s i).flag (F.LAC_STATUS_OK2 i) = (s.laceCheck i 2).isNone
    ∧ (checked s i).flag (F.LAC_STATUS_OK4 i) = (s.laceCheck i 4).isNone := by
  have hb : ∀ (t : State) (f g : Fld) (x : Bool), f.ok → g.width = 1 → f.apart g → (t.putFlag f x).flag g = t.flag g :=
    fun t f g x hf hg ha => setFld_flag_apart t f g _ hf hg ha
  have o1 : (F.LAC_STATUS_OK1 i).ok := Nat.le_of_ble_eq_true rfl
  have o2 : (F.LAC_STATUS_OK2 i).ok := Nat.le_of_ble_eq_true rfl
  have o4 : (F.LAC_STATUS_OK4 i).ok := Nat.le_of_ble_eq_true rfl
  unfold checked
  dsimp only
  refine ⟨?_, ?_, ?_, State.flag_putFlag _ _ _ o4 rfl⟩
  · rw [hb _ _ _ _ o4 rfl (.inr (.inr (Nat.le_of_ble_eq_true rfl))), hb _ _ _ _ o2 rfl (.inr (.inr (Nat.le_of_ble_eq_true rfl))),
      hb _ _ _ _ o1 rfl (.inr (.inr (Nat.le_of_ble_eq_true rfl)))]
    exact State.flag_clrFlag _ _ (Nat.le_of_ble_eq_true rfl) rfl
  · rw [hb _ _ _ _ o4 rfl (.inr (.inr (Nat.le_of_ble_eq_true rfl))), hb _ _ _ _ o2 rfl (.inr (.inr (Nat.le_of_ble_eq_true rfl)))]
    exact State.flag_putFlag _ _ _ o1 rfl
  · rw [hb _ _ _ _ o4 rfl (.inr (.inr (Nat.le_of_ble_eq_true rfl)))]
    exact State.flag_putFlag _ _ _ o2 rfl

theorem flag_of_reg {s t : State} {f : Fld} (h : t.reg f.key = s.reg f.key) : t.flag f = s.flag f := by
  unfold State.flag
  rw [h]

/-! ### Dead maps, limits -/

theorem effDeadMapWrite_changed {k : Nat} (h : (s.setReg (R.LAC_DEAD i k) v).deadReq i ≠ s.deadReq i) :
    effDeadMapWrite i k v s = ((s.setReg (R.LAC_DEAD i k) v).modLac i (fun c =>
      { c with pend := (s.now, (s.setReg (R.LAC_DEAD i k) v).deadReq i) :: c.pend })).setFlag (F.LAC_STATUS_DEAD_PEND i) :=
  if_neg h

/-! ### Blocks (log entry 42) and frames -/

section block
variable {block : Nat}

theorem effBlockFormation_not (h : (vget s.exp i).inScan = false ∨ 384 ≤ block ∨ block ≠ (vget s.lac i).done) :
    effBlockFormation i block s = s := if_pos h

theorem effBlockFormation_lac (hi : i < 4) (h : (vget s.exp i).inScan = true) (hb : block < 384)
    (hd : block = (vget s.lac i).done) :
    ∃ dots, vget (effBlockFormation i block s).lac i = { vget s.lac i with
      dots := (vget s.lac i).dots ++ dots, done := block + 1
      formed := if s.elkTrained i then (vget s.lac i).formed ++ [⟨(vget s.exp i).facet, block, blockCodes dots block⟩]
        else (vget s.lac i).formed } := by
  refine ⟨s.blockDots i block ((List.range 128).map (s.beamLine i (s.passesOn i))), ?_⟩
  unfold effBlockFormation
  dsimp only
  rw [if_neg]
  · refine (congrArg (vget · i) (each_keeps (·.lac) _ _ _ fun t (c : Option (Nat × Nat) × Bool) => countClip_lac t i c.1 c.2)).trans ?_
    exact lac_modLac s i _ hi
  · rintro (c | c | c)
    · exact absurd (h.symm.trans c) (by decide)
    · omega
    · exact c hd

end block

/-- Sending blocks moves only the block count and the wire. -/
theorem put_keeps {α : Type} (g : ElkSt → α) (hg : ∀ k n w, g { k with blockNo := n, wire := w } = g k)
    (l : List (Bool × Nat)) (k : ElkSt) : g (k.put l) = g k := by
  induction l generalizing k with
  | nil => rfl
  | cons b r ih => exact (ih _).trans (hg k _ _)

theorem spoilPage_elk (s : State) (a b c d : Nat) (e : Bool) : (s.spoilPage a b c d e).elk = s.elk := by
  unfold State.spoilPage
  split
  · rfl
  · split
    · rfl
    · simp only [State.modPage_frame]

/-- The exposure links, named apart for the kernel: a missed frame's lines are long to unfold. -/
def links (s : State) := s.elk

theorem frameMissed_links (s : State) (i : Nat) (f : Frame) (k : Nat) : links (s.frameMissed i f k) = links s :=
  withSome_keeps links _ _ _ fun _ => withSome_keeps links _ _ _ fun _ => spoilPage_elk _ _ _ _ _ _

theorem frameLate_elk (s : State) (i : Nat) (f : Frame) : (s.frameLate i f).elk = s.elk :=
  each_keeps links _ _ _ fun t k => frameMissed_links t i f k

/-- A frame leaves, in time or late: a credit is spent. -/
theorem sendFrame_elk (hi : i < 4) (c : Bool) (f : Frame) :
    let t := (if c then s else s.frameLate i f).sendFrame i f
    (vget t.elk i).credits = (vget s.elk i).credits - 1 ∧ (vget t.elk i).resend = (vget s.elk i).resend
      ∧ (vget t.elk i).seq = (vget s.elk i).seq := by
  have h : (if c then s else s.frameLate i f).elk = s.elk := by
    split
    · rfl
    · exact frameLate_elk s i f
  unfold State.sendFrame
  dsimp only
  rw [elk_modElk _ _ _ hi, h]
  exact ⟨put_keeps (·.credits) (fun _ _ _ => rfl) _ _, put_keeps (·.resend) (fun _ _ _ => rfl) _ _,
    put_keeps (·.seq) (fun _ _ _ => rfl) _ _⟩

theorem effFrameSend_none (h : s.elkTrained i = false ∨ (vget s.elk i).credits = 0) : effFrameSend i s = s := if_pos h

section frame
variable (ht : s.elkTrained i = true) (hc : 0 < (vget s.elk i).credits)
include ht hc

theorem can_send : ¬ (s.elkTrained i = false ∨ (vget s.elk i).credits = 0) := by
  rintro (c | c)
  · exact absurd (ht.symm.trans c) (by decide)
  · omega

theorem effFrameSend_idle (hr : (vget s.elk i).resend = []) (hf : (vget s.lac i).formed = []) : effFrameSend i s = s := by
  have h1 : (s.lk i).resend = [] := hr
  have h2 : (s.lc i).formed = [] := hf
  unfold effFrameSend
  dsimp only
  rw [if_neg (show ¬ (s.elkTrained i = false ∨ (s.lk i).credits = 0) from can_send ht hc), h1, h2]

theorem effFrameSend_new {f : FormedBlock} {r : List FormedBlock} (hr : (vget s.elk i).resend = [])
    (hf : (vget s.lac i).formed = f :: r) :
    let fr := s.frameOf i (vget s.elk i).seq f (vget s.elk i).nextGroup
    effFrameSend i s = (if (s.nextFrame i fr r).frameInTime i fr then s.nextFrame i fr r
      else (s.nextFrame i fr r).frameLate i fr).sendFrame i fr := by
  have h1 : (s.lk i).resend = [] := hr
  have h2 : (s.lc i).formed = f :: r := hf
  unfold effFrameSend
  dsimp only
  rw [if_neg (show ¬ (s.elkTrained i = false ∨ (s.lk i).credits = 0) from can_send ht hc), h1, h2]
  rfl

theorem effFrameSend_again {q : Nat} {r : List Nat} {f : Frame} (hr : (vget s.elk i).resend = q :: r)
    (hf : (vget s.elk i).frames.find? (fun f => f.seq == q) = some f) :
    let t := s.modElk i (fun x => { x with resend := r.filter (fun y => y != q) })
    effFrameSend i s = (if t.frameInTime i f then t else t.frameLate i f).sendFrame i f := by
  have h1 : (s.lk i).resend = q :: r := hr
  have h2 : (s.lk i).frames.find? (fun f => f.seq == q) = some f := hf
  unfold effFrameSend
  dsimp only
  rw [if_neg (show ¬ (s.elkTrained i = false ∨ (s.lk i).credits = 0) from can_send ht hc), h1]
  dsimp only
  rw [h2]

end frame

theorem nextFrame_elk (hi : i < 4) (fr : Frame) (r : List FormedBlock) :
    (vget (s.nextFrame i fr r).elk i).credits = (vget s.elk i).credits
      ∧ (vget (s.nextFrame i fr r).elk i).seq = ((vget s.elk i).seq + 1) % 2 ^ 16 := by
  have h : vget (s.nextFrame i fr r).elk i = { vget s.elk i with
      frames := (fr :: (vget s.elk i).frames).take 4096, seq := ((vget s.elk i).seq + 1) % 2 ^ 16
      nextBlock := fr.block, nextGroup := ((vget s.elk i).nextGroup + 1) % 8 } := by
    unfold State.nextFrame
    dsimp only
    split
    · exact elk_modElk s i _ hi
    · exact elk_modElk s i _ hi
  rw [h]
  exact ⟨rfl, rfl⟩

/-- A new frame leaves: a credit is spent and the sequence number goes on. -/
theorem sendNew_elk (hi : i < 4) (c : Bool) (fr : Frame) (r : List FormedBlock) :
    let t := (if c then s.nextFrame i fr r else (s.nextFrame i fr r).frameLate i fr).sendFrame i fr
    (vget t.elk i).credits = (vget s.elk i).credits - 1 ∧ (vget t.elk i).seq = ((vget s.elk i).seq + 1) % 2 ^ 16 := by
  obtain ⟨h1, -, h3⟩ := sendFrame_elk (s := s.nextFrame i fr r) hi c fr
  obtain ⟨n1, n3⟩ := nextFrame_elk (s := s) hi fr r
  exact ⟨h1.trans (congrArg (· - 1) n1), h3.trans n3⟩

/-! ### Need points, telemetry, HOT_TRIP and the cool-down write (log entry 85) -/

theorem effNeedPoint_due (h : (vget s.exp i).facetsRun = true) (hn : (vget s.exp i).needAt ≠ some (s.nextCf i)) :
    effNeedPoint i s = (s.each (s.livePages i) (fun t k => t.needPage i (s.nextCf i) k)).modExp i
      (fun x => { x with needAt := some (s.nextCf i) }) := by
  refine if_neg ?_
  rintro (c | c)
  · exact absurd (h.symm.trans c) (by decide)
  · exact hn c

theorem hot_of : (F.LAC_STATUS_HOT_TRIP i).of v = 1 ↔ v.getLsbD 6 = true := by
  rw [getLsbD_bits, beq_iff_eq]
  rfl

theorem effLacStatus_plain (h : v.getLsbD 6 = false ∨ s.flag (F.LAC_STATUS_HOT_TRIP i) = false
      ∨ s.headT i < s.sfld (F.LAC_TCOMMIT_TLIM i) ∧ s.flag (F.LAC_STATUS_COOL_PEND i) = false) :
    effLacStatus i v s = s.plainWrite (R.LAC_STATUS i) v := by
  refine if_neg ?_
  rintro ⟨h1, h2, h3⟩
  rcases h with h | h | h
  · exact absurd (h.symm.trans (hot_of.1 h1)) (by decide)
  · exact absurd (h.symm.trans h2) (by decide)
  · exact h3 h

theorem effLacStatus_hot (hv : v.getLsbD 6 = true) (hh : s.flag (F.LAC_STATUS_HOT_TRIP i) = true)
    (hc : s.sfld (F.LAC_TCOMMIT_TLIM i) ≤ s.headT i ∨ s.flag (F.LAC_STATUS_COOL_PEND i) = true) :
    effLacStatus i v s = (s.plainWrite (R.LAC_STATUS i) v).setFlag (F.LAC_STATUS_HOT_TRIP i) := by
  refine if_pos ⟨hot_of.2 hv, hh, ?_⟩
  rintro ⟨h1, h2⟩
  rcases hc with hc | hc
  · omega
  · exact absurd (hc.symm.trans h2) (by decide)

theorem effCoolDown_not (h : s.flag (F.LAC_STATUS_COOL_PEND i) = false ∨ s.pagesIn .printing ≠ []) : effCoolDown i s = s :=
  if_pos (h.imp_right List.isEmpty_eq_false_iff.2)

theorem effCoolDown_pending (h : s.flag (F.LAC_STATUS_COOL_PEND i) = true) (hp : s.pagesIn .printing = []) :
    let off := (s.reg (R.LAC_COOL_OFF i)).toNat % 2 ^ 24
    effCoolDown i s = if off = 0 then s.clrFlag (F.LAC_STATUS_COOL_PEND i)
      else (s.clrFlag (F.LAC_STATUS_COOL_PEND i)).regWrite false off (s.reg (R.LAC_COOL_DATA i)) := by
  have hoff : bits (s.reg (R.LAC_COOL_OFF i)).toNat 0 24 = (s.reg (R.LAC_COOL_OFF i)).toNat % 2 ^ 24 := by
    unfold bits
    rw [Nat.pow_zero, Nat.div_one]
  unfold effCoolDown
  dsimp only
  rw [if_neg, hoff]
  rw [h, hp]
  decide

/-- Settles O44. Blocks form in ascending order during their facet (log entry 42), and a cool-down write whose offset is
0 only ends the pending (log entry 85): both the model's reading. -/
theorem laceAndProtection : Obligations.LaceAndProtection := by
  intro s st b k block v hst i e l next map elim
  have hi : i < 4 := st.isLt
  have hwin : ∀ {g : State → State} {t : State}, g s = t → next (s.onWindow (0x24 + st.val) g) = next t :=
    fun h => congrArg next ((onWindow_present s _ _ (windowPresent_station s st 0x24 (by decide) hst)).trans h)
  have hu : ∀ {g : State → State} {t : State}, g s = t → next (s.onUnit (s.hasStn st.val) g) = next t :=
    fun h => congrArg next ((onUnit_present s _ _ hst).trans h)
  have laceWindow : ∀ off, off < 0x10000 → off % 4 = 0 →
      s.windowWrite (0x240000 + 0x10000 * st.val) (BitVec.ofNat 16 off).toNat v = wrLac i off v s := fun off h1 h2 => by
    rw [BitVec.toNat_ofNat, Nat.mod_eq_of_lt h1]
    exact windowWrite_lac s st off v hst h1 h2
  have hmap : ∀ {t : State}, effLaceWrite i (0x400 + 4 * b.val) v s = t → exec (.laceWrite st map v) s = next t := fun h =>
    congrArg next ((laceWindow (0x400 + 4 * b.val) (by omega) (by omega)).trans ((wrLac_map b).trans h))
  have helim : ∀ {t : State}, effDutyLimitWrite i (0x800 + 4 * b.val) v s = t → exec (.dutyLimitWrite st elim v) s = next t := fun h =>
    congrArg next ((laceWindow (0x800 + 4 * b.val) (by omega) (by omega)).trans ((wrLac_elim b).trans h))
  refine ⟨fun hj => hmap (if_pos hj), fun hj => ⟨_, hmap (effLaceWrite_free hj), ?busy, ?loff⟩,
    fun h => hu (if_pos h), fun h => ⟨_, hu rfl, ?check⟩,
    fun h => hwin (if_pos h), fun h => ⟨_, hwin (effDeadMapWrite_changed h), ?pend⟩,
    fun h => helim (if_pos h), fun h => ⟨_, helim (if_neg (Nat.not_lt.2 h)), plainWrite_elim st b, ?elim⟩,
    ⟨_, hu rfl, ?boundary⟩,
    fun h => hu (effBlockFormation_not h), fun ⟨h, hb, hd⟩ => ⟨_, hu rfl, ?block⟩,
    fun h => hu (effFrameSend_none h), fun ⟨ht, hc, hr, hf⟩ => ?send, fun ⟨ht, hc, hr, hf⟩ => hu (effFrameSend_idle ht hc hr hf),
    fun q r ht hc hr hf => ?again,
    fun h => hu (if_pos h), fun ⟨h, hn⟩ => ⟨_, hu (effNeedPoint_due h hn), congrArg ExpSt.needAt (exp_modExp _ i _ hi)⟩,
    fun ⟨h, hn, hl⟩ => hu ((effNeedPoint_due h hn).trans ?alone),
    fun ⟨h8, ht, hs⟩ => hu ((if_pos ⟨h8, ht⟩).trans ?stale), fun h => hu (if_neg ?heard),
    fun h => hwin (effLacStatus_plain (h.imp_right .inl)),
    fun ⟨hv, hh⟩ => ⟨fun hc => hwin (effLacStatus_plain (.inr (.inr hc))), fun hc => ⟨_, hwin (effLacStatus_hot hv hh hc),
      State.flag_setFlag _ _ (Nat.le_of_ble_eq_true rfl) rfl⟩⟩,
    fun h => hu (effCoolDown_not h), fun ⟨h, hp⟩ => hu (effCoolDown_pending h hp)⟩
  case busy => exact State.flag_setFlag _ _ (Nat.le_of_ble_eq_true rfl) rfl
  case loff =>
    refine (State.fld_setFld_apart _ _ _ _ (Nat.le_of_ble_eq_true rfl) (.inl ?_)).trans (plainWrite_loff st b)
    show 0x240000 + 0x10000 * st.val ≠ 0x240400 + 0x10000 * st.val + 4 * b.val
    omega
  case check =>
    have hr : ∀ f : Fld, f.key = R.LAC_STATUS i → (effLegalityCheckDone i s).flag f = (checked s i).flag f :=
      fun f hf => flag_of_reg (by rw [hf]; exact legality_status h)
    obtain ⟨h0, h1, h2, h4⟩ := checked_flags s i
    exact ⟨(hr _ rfl).trans h0, (hr _ rfl).trans h1, (hr _ rfl).trans h2, (hr _ rfl).trans h4⟩
  case pend =>
    have hl : ∀ t : State, t.lac = s.lac → ∀ p, vget (t.modLac i (fun c => { c with pend := p :: c.pend })).lac i
        = { vget s.lac i with pend := p :: (vget s.lac i).pend } := fun t ht p => ht ▸ lac_modLac t i _ hi
    have hp := hl (s.setReg (R.LAC_DEAD i k.val) v) rfl (s.now, (s.setReg (R.LAC_DEAD i k.val) v).deadReq i)
    exact ⟨(congrArg LacSt.pend hp :), (congrArg LacSt.deadEff hp :), State.flag_setFlag _ _ (Nat.le_of_ble_eq_true rfl) rfl⟩
  case elim => exact congrArg (fun x => (vget x i).elim) (plainWrite_lacSt s _ v)
  case boundary =>
    exact ⟨congrArg LacSt.hlim (lac_modLac s i _ hi), congrArg LacSt.clipPicot (lac_modLac s i _ hi)⟩
  case block =>
    obtain ⟨dots, hl⟩ := effBlockFormation_lac hi h hb hd
    rw [hl]
    refine ⟨rfl, fun ht => ?_, fun ht => ?_⟩
    · dsimp only
      rw [if_pos ht, List.getLast?_concat]
      rfl
    · dsimp only
      exact if_neg (by rw [ht]; decide)
  case send =>
    obtain ⟨f, r, hfr⟩ := List.exists_cons_of_ne_nil hf
    exact ⟨_, hu (effFrameSend_new ht hc hr hfr), sendNew_elk hi _ _ _⟩
  case again =>
    obtain ⟨f, hfr⟩ := Option.ne_none_iff_exists'.1 hf
    refine ⟨_, hu (effFrameSend_again ht hc hr hfr), ?_⟩
    obtain ⟨h1, h2, h3⟩ := sendFrame_elk (s := s.modElk i (fun x => { x with resend := r.filter (fun y => y != q) })) hi
      ((s.modElk i (fun x => { x with resend := r.filter (fun y => y != q) })).frameInTime i f) f
    rw [elk_modElk _ _ _ hi] at h1 h2 h3
    exact ⟨h1, h2, h3⟩
  case alone => rw [hl]; rfl
  case stale => rw [hs]; rfl
  case heard =>
    rintro ⟨h8, ht⟩
    rcases h with h | h
    · exact absurd h8 (Nat.not_le.2 h)
    · exact absurd (ht.symm.trans h) (by decide)

end Sys2Proof.Proofs.Lace
end

