-- ==== Sys2Proof/Proofs/LinkTraining.lean ====
section
/-!
PROOFS. The exposure link: its training, its packets and its loss (R163, R175 to R181).
-/
namespace Sys2Proof.Proofs.LinkTraining

open Sys2Proof.Machine
open Sys2Proof.Laws.Writes
open Sys2Proof.Laws.HeadLink
open Sys2Proof.Laws.Scan (lac_modLac spoil_keeps map_spec)
open Sys2Proof.Proofs.Scan (timing spoilFrom_timing withdrawStation_timing flag_of_timing)
open Sys2Proof.Proofs.Lace (flag_of_reg frameLate_elk put_keeps)

variable {s : State} {i : Nat} {v : Word}

/-! ### Packets from the head -/

section packet
variable {type crc : Nat} {p : List Byte} {f : State → State} (ht : type < 256) (hc : crc < 65536)
include ht hc

theorem fromHead_deaf (h : (vget s.elk i).comma = false) : s.fromHead i type p crc f = s :=
  (fromHead_cases s i type crc p f ht hc).trans (if_pos h)

theorem fromHead_bad (h : (vget s.elk i).comma = true) (hb : 60 < p.length ∨ crc ≠ headCrc type p) :
    s.fromHead i type p crc f = s.addSat (F.ELK_CNT_BCERR i) 1 := by
  refine (fromHead_cases s i type crc p f ht hc).trans ((if_neg (by rw [h]; decide)).trans (if_neg ?_))
  rintro ⟨h1, h2⟩
  rcases hb with hb | hb
  · omega
  · exact hb h2

theorem fromHead_good (h : (vget s.elk i).comma = true ∧ p.length ≤ 60 ∧ crc = headCrc type p) :
    s.fromHead i type p crc f = f s :=
  (fromHead_cases s i type crc p f ht hc).trans ((if_neg (by rw [h.1]; decide)).trans (if_pos h.2))

end packet

/-! IDENT -/

/-- The head's identity, as its packet names it. -/
def named (s : State) (i model rev : Nat) (portB : Bool) : State :=
  ((s.setFld (F.ELK_HEADID_MODEL i) model).setFld (F.ELK_HEADID_REV i) rev).putFlag (F.ELK_HEADID_PORT i) portB

theorem ctlQueue_echoes (hi : i < 4) (l : List CtlCmd) : (vget (s.ctlQueue i l).elk i).echoes = (vget s.elk i).echoes := by
  unfold State.ctlQueue
  rw [elk_modElk _ _ _ hi]
  exact pump_echoes _ _ _

theorem ctlQueue_st (l : List CtlCmd) : (s.ctlQueue i l).elkState i = s.elkState i := rfl

/-- What a good IDENT does. -/
def identAct (s : State) (i model rev : Nat) (portB : Bool) : State :=
  if s.elkState i ≠ 4 then named s i model rev portB
  else if model = 0x0128 ∧ s.elkLate i = false then
    (((named s i model rev portB).setElkState i 5).modElk i (fun k => { k with echoes := [] })).ctlQueue i
      (List.replicate 64 .echo)
  else (named s i model rev portB).elkFail i

theorem effIdent_good {crc model rev : Nat} {portB : Bool} (hc : crc < 65536)
    (h : (vget s.elk i).comma = true ∧ (leBytes 2 model ++ leBytes 1 rev ++ leBytes 1 (b2n portB)).length ≤ 60
      ∧ crc = headCrc 5 (leBytes 2 model ++ leBytes 1 rev ++ leBytes 1 (b2n portB))) :
    effIdent i crc model rev portB s = identAct s i model rev portB :=
  fromHead_good (f := fun s => identAct s i model rev portB) (by decide) hc h

theorem echoing_facts (hi : i < 4) (s : State) :
    let t := ((s.setElkState i 5).modElk i (fun k => { k with echoes := [] })).ctlQueue i (List.replicate 64 .echo)
    t.elkState i = 5 ∧ (vget t.elk i).echoes = [] := by
  intro t
  refine ⟨?_, (ctlQueue_echoes hi _).trans (congrArg ElkSt.echoes (elk_modElk (s.setElkState i 5) i _ hi))⟩
  rw [ctlQueue_st, modElk_st, st_elkSet s i 5 hi (by decide)]

/-! CTL_ACK -/

/-- What a good acknowledgement does. -/
def ackAct (s : State) (i tag data rtt : Nat) : State :=
  match (vget s.elk i).out.find? (fun o => o.tag == tag) with
  | none => s
  | some o =>
    s.modElk i (fun k => { k with
      out := k.out.filter (fun x => x.tag != tag)
      echoes := if o.cmd = CtlCmd.echo then k.echoes ++ [rtt] else k.echoes
      headStat := if o.cmd = CtlCmd.rdStat then data else k.headStat }.pump s.now 17)

theorem effCtlAck_good {crc tag data rtt : Nat} {refused : Bool} (hc : crc < 65536)
    (h : (vget s.elk i).comma = true ∧ (leBytes 1 tag ++ leBytes 1 (b2n refused) ++ leBytes 4 data).length ≤ 60
      ∧ crc = headCrc 3 (leBytes 1 tag ++ leBytes 1 (b2n refused) ++ leBytes 4 data)) :
    effCtlAck i crc tag refused data rtt s = ackAct s i tag data rtt :=
  fromHead_good (f := fun s => ackAct s i tag data rtt) (by decide) hc h

theorem ackAct_known (hi : i < 4) {tag data rtt : Nat} {o : CtlOut}
    (h : (vget s.elk i).out.find? (fun o => o.tag == tag) = some o) :
    (vget (ackAct s i tag data rtt).elk i).echoes
        = (if o.cmd = CtlCmd.echo then (vget s.elk i).echoes ++ [rtt] else (vget s.elk i).echoes)
      ∧ ((vget s.elk i).queue = [] →
        (vget (ackAct s i tag data rtt).elk i).out = (vget s.elk i).out.filter (fun o => o.tag != tag)) := by
  unfold ackAct
  rw [h]
  dsimp only
  rw [elk_modElk _ _ _ hi]
  refine ⟨pump_echoes _ _ _, fun hq => ?_⟩
  rw [pump_nil]
  exact hq

/-! NACK: a run of consecutive ones ends the link (log entry 40) -/

/-- Consecutive NACKs so far, this one counted. -/
def runOf (l : ElkSt) (seq : Nat) : Nat := if 0 < l.nackRun ∧ seq = (l.nackLast + 1) % 2 ^ 16 then l.nackRun + 1 else 1

/-- A NACK counted. -/
def nackedAs (s : State) (i seq : Nat) : State :=
  (s.addSat (F.ELK_CNT_NACKS i) 1).modElk i (fun x => { x with nackRun := runOf (vget s.elk i) seq, nackLast := seq })

theorem nackedAs_state (s : State) (i seq : Nat) : (nackedAs s i seq).elkState i = s.elkState i :=
  addSat_fld s _ _ 1 (Nat.le_of_ble_eq_true rfl) (.inl (by
    show 0x280010 + 0x10000 * i ≠ 0x280004 + 0x10000 * i
    omega))

theorem find_none_of {α : Type} {l : List α} {p : α → Bool} (h : ∀ x ∈ l, p x = false) : l.find? p = none :=
  List.find?_eq_none.2 fun x hx => by rw [h x hx]; decide

/-- What a good NACK does. -/
def nackAct (s : State) (i seq : Nat) : State :=
  if 8 ≤ runOf (vget s.elk i) seq then (nackedAs s i seq).elkLose i
  else match (vget s.elk i).frames.find? (fun f => f.seq == seq) with
    | none => nackedAs s i seq
    | some f =>
      if s.frameInTime i f then
        ((nackedAs s i seq).modElk i (fun x => { x with resend := x.resend ++ [seq] })).raise (145 + 4 * i)
      else (nackedAs s i seq).frameLate i f

theorem effNack_good {crc seq : Nat} (hc : crc < 65536)
    (h : (vget s.elk i).comma = true ∧ (leBytes 2 seq).length ≤ 60 ∧ crc = headCrc 2 (leBytes 2 seq)) :
    effNack i crc seq s = nackAct s i seq :=
  fromHead_good (f := fun s => nackAct s i seq) (by decide) hc h

/-! FACET_RPT -/

/-- What a head's report of a facet does. -/
def reported (s : State) (i ht credits : Nat) (exec : Bool) (pfirst : Nat) (amps : List Nat) : State :=
  let s1 := (((s.setFld (F.LAC_THERM_HT i) ht).spdRefresh i).putFlag (F.ELK_STATUS_EXEC i) exec).addCredit i credits
  let s2 := (s1.modLac i (fun c => { c with noReport := 0 })).clrFlag (F.LAC_STATUS_TEMP_STALE i)
  s2.each (List.range amps.length) (fun u j => u.probeResult i ((pfirst + j) % 128) (lget amps j))

/-- What a probe's result leaves alone. -/
def unprobed (i : Nat) (s : State) :=
  (s.reg (R.LAC_THERM i), s.reg (R.LAC_STATUS i), s.elk, (vget s.lac i).noReport)

theorem unprobed_modLac (hi : i < 4) (s : State) {g : LacSt → LacSt} (hg : ∀ c, (g c).noReport = c.noReport) :
    unprobed i (s.modLac i g) = unprobed i s := by
  have h : (vget (s.modLac i g).lac i).noReport = (vget s.lac i).noReport :=
    (congrArg LacSt.noReport (lac_modLac s i g hi)).trans (hg _)
  unfold unprobed
  rw [h]
  rfl

theorem unprobed_setFld (s : State) (f : Fld) (n : Nat) (h1 : R.LAC_THERM i ≠ f.key) (h2 : R.LAC_STATUS i ≠ f.key) :
    unprobed i (s.setFld f n) = unprobed i s := by
  unfold unprobed State.setFld
  rw [State.reg_setReg_ne _ _ h1, State.reg_setReg_ne _ _ h2]
  rfl

theorem unprobed_raiseIf (s : State) (b : Bool) (n : Nat) : unprobed i (s.raiseIf b n) = unprobed i s := by
  cases b <;> rfl

theorem probeResult_unprobed (hi : i < 4) (s : State) (b amp : Nat) :
    unprobed i (s.probeResult i b amp) = unprobed i s := by
  have h1 : R.LAC_THERM i ≠ (F.LAC_PFAIL_BEAMS i (b / 32)).key := by
    show 0x240030 + 0x10000 * i ≠ 0x240080 + 0x10000 * i + 4 * (b / 32)
    omega
  have h2 : R.LAC_STATUS i ≠ (F.LAC_PFAIL_BEAMS i (b / 32)).key := by
    show 0x240000 + 0x10000 * i ≠ 0x240080 + 0x10000 * i + 4 * (b / 32)
    omega
  unfold State.probeResult
  split
  · exact unprobed_modLac hi s fun _ => rfl
  · dsimp only
    split
    · rw [unprobed_raiseIf, unprobed_setFld _ _ _ h1 h2]
      exact unprobed_modLac hi s fun _ => rfl
    · exact unprobed_modLac hi s fun _ => rfl

/-- The report before its probes. -/
def heard (s : State) (i ht credits : Nat) (exec : Bool) : State :=
  (((((s.setFld (F.LAC_THERM_HT i) ht).spdRefresh i).putFlag (F.ELK_STATUS_EXEC i) exec).addCredit i credits).modLac i
    (fun c => { c with noReport := 0 })).clrFlag (F.LAC_STATUS_TEMP_STALE i)

theorem reported_unprobed (hi : i < 4) (s : State) (ht credits : Nat) (exec : Bool) (pfirst : Nat) (amps : List Nat) :
    unprobed i (reported s i ht credits exec pfirst amps) = unprobed i (heard s i ht credits exec) :=
  each_keeps (unprobed i) _ _ _ fun _ _ => probeResult_unprobed hi _ _ _

theorem effFacetRpt_good {crc facet ht credits pfirst : Nat} {exec : Bool} {amps : List Nat} (hc : crc < 65536)
    (h : (vget s.elk i).comma = true ∧ (leBytes 1 facet ++ leBytes 2 ht ++ leBytes 2 credits ++ leBytes 1 (b2n exec)
        ++ leBytes 1 pfirst ++ leBytes 1 amps.length ++ amps.flatMap (leBytes 1)).length ≤ 60
      ∧ crc = headCrc 1 (leBytes 1 facet ++ leBytes 2 ht ++ leBytes 2 credits ++ leBytes 1 (b2n exec)
        ++ leBytes 1 pfirst ++ leBytes 1 amps.length ++ amps.flatMap (leBytes 1))) :
    effFacetRpt i crc facet ht credits exec pfirst amps s
      = if s.sfld (F.LAC_TABS_TLIM i) ≤ sx 12 ht ∧ s.flag (F.LAC_STATUS_HOT_TRIP i) = false
        then (reported s i ht credits exec pfirst amps).hotTrip i else reported s i ht credits exec pfirst amps :=
  fromHead_good (f := fun s => if s.sfld (F.LAC_TABS_TLIM i) ≤ sx 12 ht ∧ s.flag (F.LAC_STATUS_HOT_TRIP i) = false
    then (reported s i ht credits exec pfirst amps).hotTrip i else reported s i ht credits exec pfirst amps) (by decide) hc h

theorem sx_mod (n : Nat) : sx 12 (n % 2 ^ 12) = sx 12 n := by
  unfold sx
  rw [Nat.mod_mod, Int.natCast_mod, Int.natCast_pow, Nat.cast_ofNat, Int.emod_emod]

theorem setFld_unread (s : State) (f : Fld) (n : Nat) {k : Nat} (h : k ≠ f.key) : (s.setFld f n).reg k = s.reg k :=
  State.reg_setReg_ne s _ h

/-- Head temperature and speed request as a report gives them. -/
theorem heard_therm (s : State) (i ht credits : Nat) (exec : Bool) :
    (heard s i ht credits exec).reg (R.LAC_THERM i) = ((s.setFld (F.LAC_THERM_HT i) ht).spdRefresh i).reg (R.LAC_THERM i) := by
  have h1 : R.LAC_THERM i ≠ (F.LAC_STATUS_TEMP_STALE i).key := by
    show 0x240030 + 0x10000 * i ≠ 0x240000 + 0x10000 * i
    omega
  have h2 : R.LAC_THERM i ≠ (F.ELK_STATUS_EXEC i).key := by
    show 0x240030 + 0x10000 * i ≠ 0x280004 + 0x10000 * i
    omega
  unfold heard State.clrFlag
  rw [setFld_unread _ _ _ h1]
  generalize (s.setFld (F.LAC_THERM_HT i) ht).spdRefresh i = u
  exact setFld_unread u (F.ELK_STATUS_EXEC i) (b2n exec) h2

theorem fld_of_reg {s t : State} {f : Fld} (h : t.reg f.key = s.reg f.key) : t.fld f = s.fld f := by
  unfold State.fld
  rw [h]

theorem heard_temp (s : State) (i ht credits : Nat) (exec : Bool) :
    (heard s i ht credits exec).fld (F.LAC_THERM_HT i) = ht % 4096 :=
  ((fld_of_reg (heard_therm s i ht credits exec)).trans
    (State.fld_setFld_apart _ _ _ _ (Nat.le_of_ble_eq_true rfl) (.inr (.inr (Nat.le_of_ble_eq_true rfl))))).trans
    (State.fld_setFld_same s _ ht (Nat.le_of_ble_eq_true rfl))

theorem heard_speed (s : State) (i ht credits : Nat) (exec : Bool) :
    (heard s i ht credits exec).fld (F.LAC_THERM_SPD_REQ i) = s.spdReq i (sx 12 ht) := by
  have hT : (s.setFld (F.LAC_THERM_HT i) ht).headT i = sx 12 ht := by
    unfold State.headT State.sfld
    rw [State.fld_setFld_same s _ ht (Nat.le_of_ble_eq_true rfl)]
    exact sx_mod ht
  have hw : ∀ x, (s.setFld (F.LAC_THERM_HT i) ht).spdReq i x = s.spdReq i x := fun x => by
    unfold State.spdReq State.sfld
    rw [State.fld_setFld_apart s _ (F.LAC_TWARN_TLIM i) _ (Nat.le_of_ble_eq_true rfl) (.inl (by
        show 0x240030 + 0x10000 * i ≠ 0x240020 + 0x10000 * i
        omega)),
      State.fld_setFld_apart s _ (F.LAC_THR_RATE i) _ (Nat.le_of_ble_eq_true rfl) (.inl (by
        show 0x240030 + 0x10000 * i ≠ 0x24002c + 0x10000 * i
        omega))]
  have hlt : s.spdReq i (sx 12 ht) < 2 ^ 10 := by
    unfold State.spdReq
    dsimp only
    split
    · decide
    · omega
  refine (fld_of_reg (heard_therm s i ht credits exec)).trans ?_
  unfold State.spdRefresh
  rw [hT, hw, State.fld_setFld_same _ _ _ (Nat.le_of_ble_eq_true rfl)]
  exact Nat.mod_eq_of_lt hlt

theorem heard_hot (s : State) (i ht credits : Nat) (exec : Bool) :
    (heard s i ht credits exec).flag (F.LAC_STATUS_HOT_TRIP i) = s.flag (F.LAC_STATUS_HOT_TRIP i) := by
  have h1 : R.LAC_STATUS i ≠ (F.ELK_STATUS_EXEC i).key := by
    show 0x240000 + 0x10000 * i ≠ 0x280004 + 0x10000 * i
    omega
  have h2 : ∀ f : Fld, f.key = R.LAC_THERM i → R.LAC_STATUS i ≠ f.key := fun f hf => by
    rw [hf]
    show 0x240000 + 0x10000 * i ≠ 0x240030 + 0x10000 * i
    omega
  have h3 : ((s.setFld (F.LAC_THERM_HT i) ht).spdRefresh i).reg (R.LAC_STATUS i) = s.reg (R.LAC_STATUS i) :=
    (setFld_unread _ (F.LAC_THERM_SPD_REQ i) _ (h2 _ rfl)).trans (setFld_unread s (F.LAC_THERM_HT i) _ (h2 _ rfl))
  unfold heard State.clrFlag
  rw [setFld_flag_apart _ _ _ _ (Nat.le_of_ble_eq_true rfl) rfl (.inr (.inr (Nat.le_of_ble_eq_true rfl)))]
  generalize (s.setFld (F.LAC_THERM_HT i) ht).spdRefresh i = u at h3
  exact flag_of_reg ((setFld_unread u (F.ELK_STATUS_EXEC i) (b2n exec) h1).trans h3)

theorem heard_link (hi : i < 4) (s : State) (ht credits : Nat) (exec : Bool) :
    (vget (heard s i ht credits exec).elk i).credits = min 4096 ((vget s.elk i).credits + credits)
      ∧ (vget (heard s i ht credits exec).lac i).noReport = 0 :=
  ⟨congrArg ElkSt.credits (elk_modElk _ i _ hi), congrArg LacSt.noReport (lac_modLac _ i _ hi)⟩

/-- A trip of the head temperature, before its pages. -/
def tripped (s : State) (i : Nat) : State :=
  ((s.setFlag (F.LAC_STATUS_HOT_TRIP i)).raise (112 + 8 * i)).setFlag (F.LAC_STATUS_COOL_PEND i)

theorem hotTrip_timing (s : State) (i : Nat) : (timing (s.hotTrip i)).2 = (timing (tripped s i)).2 := by
  unfold State.hotTrip
  dsimp only
  rw [withdrawStation_timing]
  exact congrArg (·.2) (spoilFrom_timing (tripped s i) i 1 (s.nextCf i))

theorem hotTrip_kept (s : State) (i : Nat) : (s.hotTrip i).regs = (tripped s i).regs
    ∧ (s.hotTrip i).flt = (tripped s i).flt ∧ (s.hotTrip i).fuses = (tripped s i).fuses
    ∧ (s.hotTrip i).elk = (tripped s i).elk ∧ (s.hotTrip i).lac = (tripped s i).lac := by
  have h := hotTrip_timing s i
  simpa only [timing, Prod.mk.injEq] using h

theorem hotTrip_reg (s : State) (i k : Nat) : (s.hotTrip i).reg k = (tripped s i).reg k := by
  obtain ⟨hr, -, hf, -, -⟩ := hotTrip_kept s i
  unfold State.reg
  rw [hr, hf]

theorem tripped_therm (s : State) (i : Nat) : (tripped s i).reg (R.LAC_THERM i) = s.reg (R.LAC_THERM i) := by
  have hk : R.LAC_THERM i ≠ R.LAC_STATUS i := by
    show 0x240030 + 0x10000 * i ≠ 0x240000 + 0x10000 * i
    omega
  exact (setFld_unread _ (F.LAC_STATUS_COOL_PEND i) 1 hk).trans (setFld_unread s (F.LAC_STATUS_HOT_TRIP i) 1 hk)

theorem tripped_hot (s : State) (i : Nat) : (tripped s i).flag (F.LAC_STATUS_HOT_TRIP i) = true :=
  (setFld_flag_apart _ (F.LAC_STATUS_COOL_PEND i) (F.LAC_STATUS_HOT_TRIP i) 1 (Nat.le_of_ble_eq_true rfl) rfl
    (.inr (.inr (Nat.le_of_ble_eq_true rfl)))).trans (State.flag_setFlag s _ (Nat.le_of_ble_eq_true rfl) rfl)

theorem tripped_kept (s : State) (i : Nat) : (tripped s i).elk = s.elk ∧ (tripped s i).lac = s.lac := by
  unfold tripped
  simp only [State.setFlag_frame, State.raise_frame, and_self]

/-- A trip sets its flag; the loss of pages moves none of what the report left. -/
theorem hotTrip_facts (s : State) (i : Nat) : (s.hotTrip i).reg (R.LAC_THERM i) = s.reg (R.LAC_THERM i)
    ∧ (s.hotTrip i).elk = s.elk ∧ (s.hotTrip i).lac = s.lac ∧ (s.hotTrip i).flag (F.LAC_STATUS_HOT_TRIP i) = true := by
  obtain ⟨-, -, -, he, hl⟩ := hotTrip_kept s i
  have hf : (s.hotTrip i).flag (F.LAC_STATUS_HOT_TRIP i) = (tripped s i).flag (F.LAC_STATUS_HOT_TRIP i) :=
    flag_of_reg (hotTrip_reg s i (R.LAC_STATUS i))
  exact ⟨(hotTrip_reg s i _).trans (tripped_therm s i), he.trans (tripped_kept s i).1,
    hl.trans (tripped_kept s i).2, hf.trans (tripped_hot s i)⟩

/-- A report: temperature, speed request, credits, and the trip where the absolute limit is reached. -/
theorem reported_facts (hi : i < 4) (s : State) (ht credits pfirst : Nat) (exec : Bool) (amps : List Nat) :
    let t := if s.sfld (F.LAC_TABS_TLIM i) ≤ sx 12 ht ∧ s.flag (F.LAC_STATUS_HOT_TRIP i) = false
      then (reported s i ht credits exec pfirst amps).hotTrip i else reported s i ht credits exec pfirst amps
    t.fld (F.LAC_THERM_HT i) = ht % 4096 ∧ t.fld (F.LAC_THERM_SPD_REQ i) = s.spdReq i (sx 12 ht)
      ∧ (vget t.lac i).noReport = 0 ∧ (vget t.elk i).credits = min 4096 ((vget s.elk i).credits + credits)
      ∧ (s.sfld (F.LAC_TABS_TLIM i) ≤ sx 12 ht → t.flag (F.LAC_STATUS_HOT_TRIP i) = true) := by
  have hr := reported_unprobed hi s ht credits exec pfirst amps
  have hq := hotTrip_facts (reported s i ht credits exec pfirst amps) i
  obtain ⟨hc, hn⟩ := heard_link hi s ht credits exec
  have h1 := heard_temp s i ht credits exec
  have h2 := heard_speed s i ht credits exec
  have h3 := heard_hot s i ht credits exec
  generalize heard s i ht credits exec = u at *
  generalize reported s i ht credits exec pfirst amps = w at *
  have r1 : w.reg (R.LAC_THERM i) = u.reg (R.LAC_THERM i) := congrArg (·.1) hr
  have r2 : w.reg (R.LAC_STATUS i) = u.reg (R.LAC_STATUS i) := congrArg (·.2.1) hr
  have r3 : w.elk = u.elk := congrArg (·.2.2.1) hr
  have r4 : (vget w.lac i).noReport = (vget u.lac i).noReport := congrArg (·.2.2.2) hr
  obtain ⟨q1, q2, q3, q4⟩ := hq
  intro t
  by_cases c : s.sfld (F.LAC_TABS_TLIM i) ≤ sx 12 ht ∧ s.flag (F.LAC_STATUS_HOT_TRIP i) = false
  · rw [show t = w.hotTrip i from if_pos c]
    exact ⟨(fld_of_reg (q1.trans r1)).trans h1, (fld_of_reg (q1.trans r1)).trans h2, by rw [q3, r4, hn], by rw [q2, r3, hc],
      fun _ => q4⟩
  · rw [show t = w from if_neg c]
    exact ⟨(fld_of_reg r1).trans h1, (fld_of_reg r1).trans h2, by rw [r4, hn], by rw [r3, hc],
      fun ha => ((flag_of_reg r2).trans h3).trans (Bool.eq_true_of_not_eq_false fun hf => c ⟨ha, hf⟩)⟩

/-! ### EN, RETRAIN (log entry 110) and the training steps (log entries 39, 102, 144) -/

theorem en_of : (F.ELK_CTRL_EN i).of v = 1 ↔ v.getLsbD 0 = true := by
  rw [getLsbD_bits, beq_iff_eq]
  rfl

theorem en_zero (h : v.getLsbD 0 = false) : (F.ELK_CTRL_EN i).of v = 0 := by
  have hlt : (F.ELK_CTRL_EN i).of v < 2 ^ 1 := bits_lt _ _ 1
  have hne : (F.ELK_CTRL_EN i).of v ≠ 1 := fun c => absurd (h.symm.trans (en_of.1 c)) (by decide)
  omega

theorem retrain_of : (F.ELK_CTRL_RETRAIN i).of v = 1 ↔ v.getLsbD 1 = true := by
  rw [getLsbD_bits, beq_iff_eq]
  rfl

theorem effElkCtrl_off (h : v.getLsbD 0 = false) :
    effElkCtrl i v s = if s.flag (F.ELK_CTRL_EN i) = true
      then ((s.clrFlag (F.ELK_CTRL_EN i)).elkPages i).elkDown i (if s.elkState i = 0 then (vget s.elk i).failedAt else some s.now)
      else s.clrFlag (F.ELK_CTRL_EN i) := by
  unfold effElkCtrl
  rw [en_zero h]
  rfl

theorem effElkCtrl_on (h0 : v.getLsbD 0 = true) (h1 : v.getLsbD 1 = false) :
    effElkCtrl i v s = if s.elkState i = 0 ∧ (vget s.elk i).failedAt = none
      then (s.setFlag (F.ELK_CTRL_EN i)).elkStart i else s.setFlag (F.ELK_CTRL_EN i) := by
  unfold effElkCtrl
  rw [en_of.2 h0, if_neg (by decide), if_neg fun c => absurd (h1.symm.trans (retrain_of.1 c)) (by decide)]
  rfl

theorem effElkCtrl_retrain (h0 : v.getLsbD 0 = true) (h1 : v.getLsbD 1 = true) :
    effElkCtrl i v s = if s.pageActive i = true then s.setFlag (F.ELK_STATUS_CMD_REJ i)
      else ((s.setFlag (F.ELK_CTRL_EN i)).elkDown i none).elkStart i := by
  unfold effElkCtrl
  rw [en_of.2 h0, if_neg (by decide), if_pos (retrain_of.2 h1)]
  rfl

theorem elkState_lt (s : State) (i : Nat) : s.elkState i < 8 := bits_lt _ _ 3

theorem trained_iff : s.elkTrained i = true ↔ s.elkState i = 7 := by
  unfold State.elkTrained
  exact beq_iff_eq

theorem late_iff : s.elkLate i = true ↔ s.now > (vget s.elk i).stepAt + elkLimit (s.elkState i) := by
  unfold State.elkLate
  exact decide_eq_true_iff

section step
variable (hl : s.elkState i ≠ 0 → s.elkTrained i = false → s.elkLate i = false)
include hl

theorem inTime : ¬ (s.elkState i ≠ 0 ∧ s.elkTrained i = false ∧ s.elkLate i = true) := by
  rintro ⟨h0, h7, h⟩
  exact absurd (h.symm.trans (hl h0 h7)) (by decide)

theorem train_still {n : Nat} (h : s.elkState i = n) (hn : n = 0 ∨ n = 4 ∨ n = 7) : effLinkTrainStep i s = s := by
  unfold effLinkTrainStep
  generalize State.elkTable = g0
  generalize latency4 = g1
  dsimp only
  rw [if_neg (inTime hl), h]
  rcases hn with rfl | rfl | rfl <;> rfl

/-- LATENCY (R179): without its 64 echoes it waits; a latency out of range fails; else the table is loaded. -/
theorem train_latency (h : s.elkState i = 5) :
    effLinkTrainStep i s = if (vget s.elk i).echoes.length < 64 then s
      else if latency4 (s.fld (F.ELK_LATK_KFWD i)) (s.fld (F.ELK_LATK_KSUM i)) (vget s.elk i).echoes < 0
          ∨ 1600000 < latency4 (s.fld (F.ELK_LATK_KFWD i)) (s.fld (F.ELK_LATK_KSUM i)) (vget s.elk i).echoes
        then s.elkFail i
      else ((s.setFld (F.ELK_LAT_L i) (latency4 (s.fld (F.ELK_LATK_KFWD i)) (s.fld (F.ELK_LATK_KSUM i))
        (vget s.elk i).echoes / 4).toNat).setElkState i 6).elkTable i := by
  unfold effLinkTrainStep
  generalize State.elkTable = g0
  generalize latency4 = g1
  dsimp only
  rw [if_neg (inTime hl), h]
  rfl

theorem train_loading (h : s.elkState i = 6) (hq : (vget s.elk i).queue ≠ [] ∨ (vget s.elk i).out ≠ []) :
    effLinkTrainStep i s = s := by
  have hb : ((s.lk i).queue.isEmpty && (s.lk i).out.isEmpty) = false := by
    rw [Bool.and_eq_false_iff, List.isEmpty_eq_false_iff, List.isEmpty_eq_false_iff]
    exact hq
  unfold effLinkTrainStep
  generalize State.elkTable = g0
  generalize latency4 = g1
  dsimp only
  rw [if_neg (inTime hl), h, hb]
  rfl

end step

theorem elkTable_regs (s : State) (i : Nat) : (s.elkTable i).regs = s.regs ∧ (s.elkTable i).fuses = s.fuses := by
  unfold State.elkTable State.ctlQueue
  exact ⟨rfl, rfl⟩

/-- Loading begins: step TABLE, the latency in its register. -/
theorem table_facts (hi : i < 4) (n : Nat) (hn : n < 2 ^ 19) :
    let t := ((s.setFld (F.ELK_LAT_L i) n).setElkState i 6).elkTable i
    t.elkState i = 6 ∧ t.fld (F.ELK_LAT_L i) = n := by
  obtain ⟨hr, hf⟩ := elkTable_regs ((s.setFld (F.ELK_LAT_L i) n).setElkState i 6) i
  have hg : ∀ f, (((s.setFld (F.ELK_LAT_L i) n).setElkState i 6).elkTable i).fld f
      = ((s.setFld (F.ELK_LAT_L i) n).setElkState i 6).fld f := fun f => by
    unfold State.fld State.reg
    rw [hr, hf]
  have hk : (F.ELK_STATUS_STATE i).key ≠ (F.ELK_LAT_L i).key := by
    show 0x280004 + 0x10000 * i ≠ 0x280008 + 0x10000 * i
    omega
  refine ⟨(hg _).trans (st_elkSet _ i 6 hi (by decide)), (hg _).trans ?_⟩
  unfold State.setElkState State.putFlag
  rw [modElk_fld, State.fld_setFld_apart _ (F.ELK_STATUS_TRAINED i) _ _ (Nat.le_of_ble_eq_true rfl) (.inl hk),
    State.fld_setFld_apart _ (F.ELK_STATUS_STATE i) _ _ (Nat.le_of_ble_eq_true rfl) (.inl hk),
    State.fld_setFld_same _ _ _ (Nat.le_of_ble_eq_true rfl)]
  exact Nat.mod_eq_of_lt hn

theorem trained_facts (hi : i < 4) (s : State) :
    let t := (s.setElkState i 7).modElk i (fun x => { x with credits := 4096, bank := !x.bank })
    t.flag (F.ELK_STATUS_TRAINED i) = true ∧ (vget t.elk i).credits = 4096 := by
  have h : (s.setElkState i 7).flag (F.ELK_STATUS_TRAINED i) = true := by
    unfold State.setElkState
    rw [modElk_flag]
    exact State.flag_putFlag (s.setFld (F.ELK_STATUS_STATE i) 7) (F.ELK_STATUS_TRAINED i) true (Nat.le_of_ble_eq_true rfl) rfl
  intro t
  refine ⟨h, ?_⟩
  rw [show vget t.elk i = _ from elk_modElk (s.setElkState i 7) i _ hi]

/-! ### Repeats, loss and limits -/

theorem effCtlRetry_none {tag : Nat} (h : ∀ o ∈ (vget s.elk i).out, o.tag ≠ tag ∨ s.now < o.sentAt + 20000) :
    effCtlRetry i tag s = s := by
  have hf : (s.lk i).out.find? (fun o => o.tag == tag && decide (o.sentAt + 20000 ≤ s.now)) = none := find_none_of fun o ho => by
    rw [Bool.and_eq_false_iff, beq_eq_false_iff_ne, decide_eq_false_iff_not]
    exact (h o ho).imp_right Nat.not_le.2
  unfold effCtlRetry
  rw [hf]

/-- A command as its repeat leaves it. -/
def repeated (tag now : Nat) (x : CtlOut) : CtlOut :=
  if x.tag = tag then { x with repeats := x.repeats + 1, sentAt := now } else x

theorem effCtlRetry_due {tag : Nat} {o : CtlOut}
    (h : (vget s.elk i).out.find? (fun o => o.tag == tag && decide (o.sentAt + 20000 ≤ s.now)) = some o) :
    effCtlRetry i tag s = if o.repeats < 3
      then s.modElk i (fun k => { k with out := k.out.map (repeated tag s.now) }.put [(true, o.cmd.bits tag)])
      else s.elkLose i := by
  have hf : (s.lk i).out.find? (fun o => o.tag == tag && decide (o.sentAt + 20000 ≤ s.now)) = some o := h
  unfold effCtlRetry
  rw [hf]
  rfl

theorem effBackChannelLockLoss_kept {ns : Nat} (h : (vget s.elk i).comma = false ∨ ns ≤ 1000) :
    effBackChannelLockLoss i ns s = s := by
  have hb : (s.elkHears i && decide (1000 < ns)) = false := by
    rw [Bool.and_eq_false_iff, decide_eq_false_iff_not]
    exact h.imp_right Nat.not_lt.2
  exact if_neg (by rw [hb]; decide)

theorem effBackChannelLockLoss_lost {ns : Nat} (h : (vget s.elk i).comma = true) (hn : 1000 < ns) :
    effBackChannelLockLoss i ns s = (s.elkLose i).modElk i (fun k => { k with comma := false }) :=
  if_pos (Bool.and_eq_true_iff.2 ⟨h, decide_eq_true hn⟩)

theorem elkLose_down (hi : i < 4) (s : State) : (s.elkLose i).elkState i = 0
    ∧ (s.elkLose i).flag (F.ELK_STATUS_LOST i) = (s.flag (F.ELK_STATUS_LOST i) || s.elkState i == 7) := by
  by_cases h0 : s.elkState i = 0
  · have hl : s.elkLose i = s :=
      (if_neg fun c => absurd (h0.symm.trans (trained_iff.1 c)) (by decide)).trans (if_pos h0)
    rw [hl, h0]
    exact ⟨rfl, (Bool.or_false _).symm⟩
  · obtain ⟨h1, h2, -, -⟩ := elkLose_facts s i hi h0
    exact ⟨h1, h2⟩

theorem effLinkTrainRetry_waits (h : s.elkState i ≠ 0 ∨ s.flag (F.ELK_CTRL_EN i) = false
      ∨ ∃ t0, (vget s.elk i).failedAt = some t0 ∧ s.now < t0 + 10000000) : effLinkTrainRetry i s = s := by
  unfold effLinkTrainRetry
  split
  · next t0 ht =>
    refine if_neg ?_
    rintro ⟨h0, he, hn⟩
    rcases h with h | h | ⟨t1, h1, h2⟩
    · exact h h0
    · exact absurd (h.symm.trans he) (by decide)
    · have : t0 = t1 := Option.some.inj (ht.symm.trans h1)
      omega
  · next ht =>
    refine if_neg ?_
    rintro ⟨h0, he⟩
    rcases h with h | h | ⟨t1, h1, -⟩
    · exact h h0
    · exact absurd (h.symm.trans he) (by decide)
    · exact absurd (ht.symm.trans h1) (by simp)

theorem effLinkTrainRetry_starts (hi : i < 4) (h : ∀ t0, (vget s.elk i).failedAt = some t0 → t0 + 10000000 ≤ s.now)
    (h0 : s.elkState i = 0) (he : s.flag (F.ELK_CTRL_EN i) = true) : (effLinkTrainRetry i s).elkState i = 1 := by
  unfold effLinkTrainRetry
  split
  · next t0 ht =>
    rw [if_pos ⟨h0, he, h t0 ht⟩]
    exact (elkStart_facts _ i hi).1
  · rw [if_pos ⟨h0, he⟩]
    exact (elkStart_facts _ i hi).1

theorem wrLac_limit {off : Nat} (h : off = 0x20 ∨ off = 0x24 ∨ off = 0x28) : wrLac i off v s = effThermalLimitWrite i off v s := by
  unfold wrLac
  rw [if_neg (by omega), if_neg (by omega), if_neg (by omega)]
  exact if_pos h

theorem plainWrite_tabs (st : Fin 4) : (s.plainWrite (R.LAC_TABS st.val) v).sfld (F.LAC_TABS_TLIM st.val) = sx 12 (v.toNat % 4096) := by
  have h := Sys2Proof.Proofs.Lace.plainWrite_lac (s := s) (v := v) st 0x28 0 12 0 (by decide) (tabs_spec st)
  have hk : 0x240000 + 0x10000 * st.val + 0x28 = R.LAC_TABS st.val := by
    unfold R.LAC_TABS
    omega
  rw [hk] at h
  unfold State.sfld
  refine congrArg (sx 12) (h.trans ?_)
  show v.toNat / 1 % 4096 = v.toNat % 4096
  rw [Nat.div_one]

theorem plainWrite_sfld {k : Nat} {f : Fld} (h : f.key ≠ k) : (s.plainWrite k v).sfld f = s.sfld f := by
  unfold State.sfld
  rw [fld_of_reg (State.plainWrite_other s f.key k v h)]

/-- Settles O45. The latency is rounded down (log entry 39), consecutive NACKs are those whose numbers follow on (40), a
refused acknowledgement is one all the same (85), EN 0 wins over RETRAIN (110), the back channel's comma lock ends step
BACK (102), and a step that completes after its limit fails (144): the model's reading. -/
theorem linkTraining : Obligations.LinkTraining := by
  intro s st v crc model k seq ht off tag rev code facet pfirst portB refused ex data rtt ns amps hst
    i l step late next rpt rptBytes ackBytes idBytes packets good nm run nacked
  have hi : i < 4 := st.isLt
  have hcrc : crc.toNat < 65536 := crc.isLt
  have hu : ∀ {g : State → State} {t : State}, g s = t → next (s.onUnit (s.hasStn st.val) g) = next t :=
    fun h => congrArg next ((onUnit_present s _ _ hst).trans h)
  have hwin : ∀ {g : State → State} {t : State}, g s = t → next (s.onWindow (0x28 + st.val) g) = next t :=
    fun h => congrArg next ((onWindow_present s _ _ (windowPresent_station s st 0x28 (by decide) hst)).trans h)
  have hlate : ¬ late → s.elkLate i = false := fun h => Bool.eq_false_of_not_eq_true (mt late_iff.1 h)
  have hlimit : ∀ {off : BitVec 16} {t : State}, off = 0x20 ∨ off = 0x24 ∨ off = 0x28 →
      effThermalLimitWrite i off.toNat v s = t → exec (.thermalLimitWrite st off v) s = next t := by
    intro off t ho h
    have hn : off.toNat = 0x20 ∨ off.toNat = 0x24 ∨ off.toNat = 0x28 := by
      rcases ho with rfl | rfl | rfl <;> decide
    refine congrArg next ((windowWrite_lac s st off.toNat v hst off.isLt ?_).trans ((wrLac_limit hn).trans h))
    rcases hn with h | h | h <;> rw [h]
  refine ⟨?deaf, ?bad, fun h => ⟨_, hu (fromHead_good (by decide) hcrc h), ?credit⟩, fun h => ?alarm, fun h => ?ident,
    fun h => ?ack, fun h => ?nack, fun h => ?report, fun h0 => ⟨fun he => hwin ?off, fun he => ?down⟩,
    fun ⟨h0, h1⟩ => ⟨fun ⟨hs, hf⟩ => ?start, fun h => hwin ?kept⟩,
    fun ⟨h0, h1⟩ => ⟨fun hp => hwin ((effElkCtrl_retrain h0 h1).trans (if_pos hp)), fun hp => ?retrain⟩,
    fun ⟨h0, h7, hl⟩ => hu ?stepLate, fun h => hu ?stepIdle, fun hl => ?step, fun h => hu (if_pos ?timeIdle),
    fun ⟨h1, h6, hl⟩ => ?timeout, fun h => hu (effLinkTrainRetry_waits h),
    fun ⟨hf, h0, he⟩ => ⟨_, hu rfl, effLinkTrainRetry_starts hi hf h0 he⟩,
    fun h => hu (effBackChannelLockLoss_kept h), fun ⟨hc, hn⟩ => ⟨_, hu (effBackChannelLockLoss_lost hc hn), ?lost⟩,
    fun h => hu (effCtlRetry_none h), fun o ho => ⟨fun hr => ⟨_, hu ((effCtlRetry_due ho).trans (if_pos hr)), rfl, ?again⟩,
      fun hr => hu ((effCtlRetry_due ho).trans (if_neg (Nat.not_lt.2 hr)))⟩,
    fun ho => ⟨fun h => hlimit ho (if_pos h), fun h => hlimit ho (if_neg h)⟩, ?tabs⟩
  case deaf =>
    intro hc p hp
    simp only [packets, List.mem_cons, List.not_mem_nil, or_false] at hp
    rcases hp with rfl | rfl | rfl | rfl | rfl | rfl
    all_goals exact hu (fromHead_deaf (by decide) hcrc hc)
  case bad =>
    intro hc p hp hb
    simp only [packets, List.mem_cons, List.not_mem_nil, or_false] at hp
    rcases hp with rfl | rfl | rfl | rfl | rfl | rfl
    · refine hu (fromHead_bad (by decide) hcrc hc ?_)
      rw [List.length_map]
      exact hb
    all_goals exact hu (fromHead_bad (by decide) hcrc hc hb)
  case credit => exact ⟨congrArg ElkSt.credits (elk_modElk s i _ hi), rfl⟩
  case alarm =>
    have ha : effAlarm i crc.toNat code.toNat s = _ := fromHead_good (by decide) hcrc h
    refine ⟨fun hc => hu (ha.trans ?_), fun hc => hu (ha.trans ?_), fun hc => hu (ha.trans ?_), fun hc => hu (ha.trans ?_),
      fun hc => hu (ha.trans ?_)⟩
    · rw [hc]; rfl
    · rw [hc]; rfl
    · rw [hc]; rfl
    · rw [hc]; rfl
    · have hn : code.toNat = 0 ∨ 4 < code.toNat := hc.imp_left fun c => by rw [c]; rfl
      rw [if_neg (by omega), if_neg (by omega), if_neg (by omega), if_neg (by omega)]
  case ident =>
    have ha := effIdent_good (portB := portB) hcrc h
    have hm : model = 0x128 ↔ model.toNat = 0x128 := BitVec.toNat_inj.symm
    refine ⟨fun h4 => hu (ha.trans (if_pos h4)), fun ⟨h4, hn⟩ => hu (ha.trans ((if_neg (not_not_intro h4)).trans (if_neg ?_))),
      fun ⟨h4, hv, hl⟩ => ⟨_, hu (ha.trans ((if_neg (not_not_intro h4)).trans (if_pos ⟨hm.1 hv, hlate hl⟩))), echoing_facts hi _⟩⟩
    rintro ⟨hv, hl⟩
    rcases hn with hn | hn
    · exact hn (hm.2 hv)
    · exact absurd (hl.symm.trans (late_iff.2 hn)) (by decide)
  case ack =>
    have ha := effCtlAck_good (refused := refused) (rtt := rtt.toNat) hcrc h
    refine ⟨fun hn => hu (ha.trans ?_), fun o ho => ⟨_, hu ha, ackAct_known hi ho⟩⟩
    unfold ackAct
    rw [find_none_of fun o ho => beq_eq_false_iff_ne.2 (hn o ho)]
  case nack =>
    have ha := effNack_good hcrc h
    refine ⟨fun h8 => ⟨hu (ha.trans (if_pos h8)), fun h0 => ?_⟩, fun ⟨h8, hn⟩ => hu (ha.trans ((if_neg (Nat.not_le.2 h8)).trans ?_)),
      fun f h8 hf => ⟨fun ht => hu (ha.trans ((if_neg (Nat.not_le.2 h8)).trans ?_)),
        fun ht => hu (ha.trans ((if_neg (Nat.not_le.2 h8)).trans ?_))⟩⟩
    · obtain ⟨h1, -, -, h4⟩ := elkLose_facts nacked i hi (by rw [show nacked.elkState i = _ from nackedAs_state s i _]; exact h0)
      exact ⟨h1, h4⟩
    · rw [find_none_of fun f hf => beq_eq_false_iff_ne.2 (hn f hf)]
      rfl
    · rw [hf]
      exact if_pos ht
    · rw [hf]
      exact if_neg (by rw [ht]; decide)
  case report =>
    have ha := effFacetRpt_good (s := s) (i := i) (crc := crc.toNat) (facet := facet.toNat) (ht := ht.toNat)
      (credits := k.toNat) (pfirst := pfirst.toNat) (exec := ex) (amps := amps.map BitVec.toNat) hcrc
      (by rw [List.length_map]; exact h)
    exact ⟨_, hu ha, reported_facts hi s _ _ _ _ _⟩
  case off => exact (effElkCtrl_off h0).trans (if_neg (by rw [he]; decide))
  case down =>
    obtain ⟨h1, h2, h3, -⟩ := elkDown_facts ((s.clrFlag (F.ELK_CTRL_EN i)).elkPages i) i
      (if s.elkState i = 0 then (vget s.elk i).failedAt else some s.now) hi
    exact ⟨_, hwin ((effElkCtrl_off h0).trans (if_pos he)), h1, h2, h3⟩
  case start =>
    obtain ⟨h2, -, h3⟩ := elkStart_facts (s.setFlag (F.ELK_CTRL_EN i)) i hi
    have hc : (s.setFlag (F.ELK_CTRL_EN i)).fld (F.ELK_CNT_ATTEMPTS i) = s.fld (F.ELK_CNT_ATTEMPTS i) :=
      State.fld_setFld_apart _ _ _ _ (Nat.le_of_ble_eq_true rfl) (.inl (by
        show 0x280000 + 0x10000 * i ≠ 0x280010 + 0x10000 * i
        omega))
    exact ⟨_, hwin ((effElkCtrl_on h0 h1).trans (if_pos ⟨hs, hf⟩)), h2, by rw [h3, hc]⟩
  case kept =>
    refine (effElkCtrl_on h0 h1).trans (if_neg ?_)
    rintro ⟨hs, hf⟩
    exact h.elim (· hs) (· hf)
  case retrain =>
    obtain ⟨h2, h3, -⟩ := elkStart_facts ((s.setFlag (F.ELK_CTRL_EN i)).elkDown i none) i hi
    obtain ⟨-, -, h4, -⟩ := elkDown_facts (s.setFlag (F.ELK_CTRL_EN i)) i none hi
    exact ⟨_, hwin ((effElkCtrl_retrain h0 h1).trans (if_neg (by rw [hp]; decide))), h2, by rw [h3]; exact h4⟩
  case stepLate => exact trainLate i s h0 (Bool.eq_false_of_not_eq_true (mt trained_iff.1 h7)) (late_iff.2 hl)
  case stepIdle =>
    refine train_still (n := step) (fun h0 h7 => ?_) rfl (by omega)
    rcases h with h | h
    · exact absurd h h0
    · exact absurd ((trained_iff.2 h).symm.trans h7) (by decide)
  case step =>
    have hl' : s.elkState i ≠ 0 → s.elkTrained i = false → s.elkLate i = false := fun _ _ => hlate hl
    refine ⟨fun h => hu (trainLow i s (by omega) (by omega) (hlate hl)), fun h => hu (trainThree i s h (hlate hl)),
      fun h => hu (train_still hl' h (by decide)), fun h => ?_, fun ⟨h, hq⟩ => hu (train_loading hl' h hq),
      fun ⟨h, hq, ho⟩ => ⟨_, hu (trainSix i s h hq ho (hlate hl)), trained_facts hi s⟩⟩
    intro l4
    have ht := train_latency hl' h
    refine ⟨fun he => hu (ht.trans (if_pos he)),
      fun ⟨he, hb⟩ => hu (ht.trans ((if_neg (Nat.not_lt.2 he)).trans (if_pos hb))),
      fun ⟨he, hb, hb'⟩ => ⟨_, hu (ht.trans ((if_neg (Nat.not_lt.2 he)).trans
        (if_neg (not_or.2 ⟨Int.not_lt.2 hb, Int.not_lt.2 hb'⟩)))), table_facts hi _ ?_⟩⟩
    show (l4 / 4).toNat < 2 ^ 19
    omega
  case timeIdle => exact h.imp_right (Or.imp_left trained_iff.2)
  case timeout =>
    obtain ⟨a1, a2, a3, a4, -⟩ := elkFail_facts s i hi
    refine ⟨_, hu (if_neg ?_), a1, a2, a3, a4⟩
    rintro (c | c | c)
    · exact absurd c (Nat.ne_of_gt h1)
    · exact absurd (trained_iff.1 c) (Nat.ne_of_lt (Nat.lt_succ_of_le h6))
    · exact absurd hl (Nat.not_le.2 c)
  case lost =>
    obtain ⟨h1, h2⟩ := elkLose_down hi s
    exact ⟨congrArg ElkSt.comma (elk_modElk _ i _ hi), h1, h2, fun h0 => (elkLose_facts s i hi h0).2.2.1⟩
  case again =>
    rw [elk_modElk _ _ _ hi]
    exact put_keeps (·.out) (fun _ _ _ => rfl) _ _
  case tabs =>
    have hother : ∀ f : Fld, f.key = R.LAC_TCOMMIT i ∨ f.key = R.LAC_TWARN i → (s.plainWrite (R.LAC_TABS i) v).sfld f = s.sfld f :=
      fun f hf => plainWrite_sfld (by
        have h1 : R.LAC_TCOMMIT i = 0x240024 + 0x10000 * i := rfl
        have h2 : R.LAC_TWARN i = 0x240020 + 0x10000 * i := rfl
        have h3 : R.LAC_TABS i = 0x240028 + 0x10000 * i := rfl
        omega)
    have hk : 0x240000 + 0x10000 * i + (BitVec.ofNat 16 0x28).toNat = R.LAC_TABS i := by
      have h3 : R.LAC_TABS i = 0x240028 + 0x10000 * i := rfl
      have h4 : (BitVec.ofNat 16 0x28).toNat = 0x28 := rfl
      omega
    have hcond : ∀ t, (if s.sfld (F.LAC_TWARN_TLIM i) ≤ s.sfld (F.LAC_TCOMMIT_TLIM i)
          ∧ s.sfld (F.LAC_TCOMMIT_TLIM i) < sx 12 (v.toNat % 4096) then (s.plainWrite (R.LAC_TABS i) v).spdRefresh i
        else s.setFlag (F.LAC_STATUS_CFG_ERR i)) = t → exec (.thermalLimitWrite st (BitVec.ofNat 16 0x28) v) s = next t := by
      intro t h
      refine hlimit (by decide) (Eq.trans ?_ h)
      unfold effThermalLimitWrite
      dsimp only
      rw [hk, plainWrite_tabs st, hother (F.LAC_TWARN_TLIM i) (.inr rfl), hother (F.LAC_TCOMMIT_TLIM i) (.inl rfl)]
    exact ⟨fun ⟨h1, h2⟩ => hcond _ (if_pos ⟨h2, h1⟩), fun h => hcond _ (if_neg fun c => absurd c.2 (Int.not_lt.2 h))⟩

end Sys2Proof.Proofs.LinkTraining
end

