-- ==== Sys2Proof/Proofs/Interlocks.lean ====
section
/-!
PROOFS. Interlock loops, arming, the panel and the consumable ports (R183 to R190).
-/
namespace Sys2Proof.Proofs.Interlocks

open Sys2Proof.Machine
open Sys2Proof.Laws.Writes
open Sys2Proof.Laws.Interlock

variable {s : State} {i : Nat} {v : Word}

/-! ### Loop channels -/

theorem effIlkOpen_not {chB : Bool} {ns : Nat} (h : bit (s.fld (loopFld chB)) i = false ∨ ns < 250) :
    effIlkOpen i chB ns s = s := if_pos (.inr h)

theorem effInterlockClose_closed {chB : Bool} (h : bit (s.fld (loopFld chB)) i = true) : effInterlockClose i chB s = s :=
  if_pos (.inr h)

theorem effIlkArmable_waits (h : ∀ t0, (vget s.ilk i).closedSince = some t0 → s.now < t0 + 200000000) :
    effIlkArmable i s = s := by
  unfold effIlkArmable
  split
  · next t0 ht =>
    rw [decide_eq_false (Nat.not_le.2 (h t0 ht)), Bool.and_false, Bool.false_and]
    rfl
  · rfl

theorem effIlkArmable_due {t0 : Nat} (hs : s.hasStn i = true) (h : (vget s.ilk i).closedSince = some t0) (ht : t0 + 200000000 ≤ s.now) :
    effIlkArmable i s = if bit (s.fld F.ILK_STATUS_DISCREP) i = false then s.putBitOf F.ILK_STATUS_ARMABLE i true else s := by
  unfold effIlkArmable
  rw [h]
  dsimp only
  rw [hs, decide_eq_true ht]
  cases bit (s.fld F.ILK_STATUS_DISCREP) i <;> rfl

theorem effIlkDiscrep_waits (h : ∀ t0, (vget s.ilk i).mismatchSince = some t0 → s.now ≤ t0 + 50000000) :
    effIlkDiscrep i s = s := by
  unfold effIlkDiscrep
  split
  · next t0 ht =>
    rw [decide_eq_false (Nat.not_lt.2 (h t0 ht)), Bool.and_false]
    rfl
  · rfl

/-! ### Arming and disarming (log entry 48: arming comes first) -/

/-- What a station needs to be armed. -/
def armable (t : State) (k : Nat) : Bool :=
  t.hasStn k && bit (t.fld F.ILK_STATUS_ARMABLE) k && !t.drying && !t.flag F.THM_TSD_TSD_LOCK

/-- A station's laser as `b` has it. -/
def setArmed (b : Bool) (t : State) (k : Nat) : State := (t.modIlk k (fun l => { l with armed := b })).laserUpdate k

def armOne (t : State) (k : Nat) : State := if armable t k then setArmed true t k else t

def disarmOne (t : State) (k : Nat) : State := if t.hasStn k then setArmed false t k else t

theorem effIlkArm_key (h : bits v.toNat 8 8 = 0x5A) :
    effIlkArm v s = (s.each (setBitsOf 4 (bits v.toNat 0 4)) armOne).each (setBitsOf 4 (bits v.toNat 4 4)) disarmOne :=
  if_neg (not_not_intro h)

theorem setArmed_armable (b : Bool) (t : State) (k j : Nat) : armable (setArmed b t k) j = armable t j := by
  have h1 : (setArmed b t k).fld F.ILK_STATUS_ARMABLE = t.fld F.ILK_STATUS_ARMABLE := (laser_keep _ k).2
  have h2 : (setArmed b t k).flag F.THM_TSD_TSD_LOCK = t.flag F.THM_TSD_TSD_LOCK :=
    setFld_flag_apart _ F.ILK_STATUS_LASER F.THM_TSD_TSD_LOCK _ (Nat.le_of_ble_eq_true rfl) rfl (.inl (by decide))
  unfold armable
  rw [h1, h2]
  rfl

theorem setArmed_armed (hi : i < 4) (b : Bool) (t : State) (k : Nat) :
    (vget (setArmed b t k).ilk i).armed = if k = i then b else (vget t.ilk i).armed := by
  have h : (setArmed b t k).ilk = (t.modIlk k (fun l => { l with armed := b })).ilk := (laser_keep _ k).1
  rw [h]
  split
  · next e => rw [e, ilk_modIlk _ _ _ hi]
  · next e =>
    unfold State.modIlk
    rw [vget_vmod_ne _ _ e]

theorem armOnes_armed (hi : i < 4) (l : List Nat) (t : State) :
    (vget (t.each l armOne).ilk i).armed = ((decide (i ∈ l) && armable t i) || (vget t.ilk i).armed) := by
  unfold State.each
  induction l generalizing t with
  | nil => simp
  | cons k r ih =>
    rw [List.foldl_cons, ih]
    unfold armOne
    by_cases hc : armable t k = true
    · rw [if_pos hc, setArmed_armable, setArmed_armed hi]
      by_cases e : k = i
      · subst e
        simp [hc]
      · simp [e, Ne.symm e]
    · rw [if_neg hc]
      by_cases e : i = k
      · subst e
        simp [hc]
      · simp [e]

theorem disarmOnes_armed (hi : i < 4) (l : List Nat) (t : State) (hs : t.hasStn i = true) :
    (vget (t.each l disarmOne).ilk i).armed = (!decide (i ∈ l) && (vget t.ilk i).armed) := by
  unfold State.each
  induction l generalizing t with
  | nil => simp
  | cons k r ih =>
    have hk : (disarmOne t k).hasStn i = true := by
      unfold disarmOne
      split
      · exact hs
      · exact hs
    rw [List.foldl_cons, ih _ hk]
    unfold disarmOne
    by_cases e : k = i
    · subst e
      rw [if_pos hs, setArmed_armed hi]
      simp
    · split
      · rw [setArmed_armed hi]
        simp [e, Ne.symm e]
      · simp [Ne.symm e]

theorem armOnes_hasStn (l : List Nat) (t : State) (j : Nat) : (t.each l armOne).hasStn j = t.hasStn j :=
  each_keeps (fun t => t.hasStn j) _ _ _ fun t k => by
    unfold armOne
    split
    · rfl
    · rfl

/-- Whether a station is armed after a write with the key. -/
theorem effIlkArm_armed (hi : i < 4) (hs : s.hasStn i = true) (h : bits v.toNat 8 8 = 0x5A) :
    (vget (effIlkArm v s).ilk i).armed = (!v.getLsbD (4 + i) && ((vget s.ilk i).armed
      || v.getLsbD i && bit (s.fld F.ILK_STATUS_ARMABLE) i && !s.drying && !s.flag F.THM_TSD_TSD_LOCK)) := by
  have hmem : ∀ lo, decide (i ∈ setBitsOf 4 (bits v.toNat lo 4)) = v.getLsbD (lo + i) := fun lo => by
    rw [Bool.eq_iff_iff, decide_eq_true_iff, Sys2Proof.Laws.Objects.mem_setBitsOf, bit_eq_testBit, BitVec.getLsbD]
    rw [bits_testBit, decide_eq_true hi, Bool.true_and, Nat.add_comm i lo, and_iff_right hi]
  rw [effIlkArm_key h, disarmOnes_armed hi _ _ ((armOnes_hasStn _ _ _).trans hs), armOnes_armed hi, hmem, hmem, Nat.zero_add]
  unfold armable
  rw [hs, Bool.true_and, Bool.or_comm]
  simp only [Bool.and_assoc]

/-! ### Push-button and reset input (log entry 48: the press that powers up stays quiet) -/

/-- The unit at a press: powered up from off, the press kept in a drydown. -/
def pressed (s : State) : State :=
  if (s.pwr.phase == .off && s.vinGood) = true then s.powerUp
  else if (s.pwr.phase.dryRuns || s.pwr.phase == .holdoff) = true then s.modPwr (fun p => { p with pressKept := true })
  else s

theorem effPbtnPress_not {ns : Nat} (h : s.panel.pressAt ≠ none ∨ ns < 20000000) : effPbtnPress ns s = s :=
  if_pos (h.imp_left Option.isSome_iff_ne_none.2)

theorem effPbtnPress_low {ns : Nat} (h : s.panel.pressAt = none) (hn : 20000000 ≤ ns) :
    effPbtnPress ns s = { (pressed s).setFlag F.ILK_PANEL_PBTN with
      panel := { (pressed s).panel with
        pressAt := some ((pressed s).now - ns), longDone := false, quiet := s.pwr.phase == .off && s.vinGood } } := by
  refine if_neg ?_
  rw [h]
  rintro (c | c)
  · cases c
  · omega

theorem pressed_on (h : s.pwr.phase ≠ .off) : (s.pwr.phase == .off && s.vinGood) = false ∧ (pressed s).now = s.now := by
  have hb : (s.pwr.phase == .off && s.vinGood) = false := by
    rw [beq_false_of_ne h, Bool.false_and]
  refine ⟨hb, ?_⟩
  unfold pressed
  rw [if_neg (by rw [hb]; decide)]
  split
  · rfl
  · rfl

theorem pressed_kept (h : s.pwr.phase = .holdoff ∨ s.pwr.phase.dryRuns = true) : (pressed s).pwr.pressKept = true := by
  have hoff : s.pwr.phase ≠ .off := by
    intro c
    rw [c] at h
    rcases h with h | h <;> cases h
  have hc : (s.pwr.phase.dryRuns || s.pwr.phase == .holdoff) = true := by
    rw [Bool.or_eq_true, beq_iff_eq]
    exact h.symm
  unfold pressed
  rw [if_neg (by rw [(pressed_on hoff).1]; decide), if_pos hc]
  rfl

theorem effPbtnLong_not (h : s.panel.pressAt = none ∨ s.panel.longDone = true
      ∨ ∃ t0, s.panel.pressAt = some t0 ∧ s.now < t0 + 8000000000) : effPbtnLong s = s := by
  unfold effPbtnLong
  split
  · next t0 ht =>
    refine if_neg ?_
    rintro ⟨h1, h2⟩
    rcases h with h | h | ⟨t1, h, h3⟩
    · exact absurd (h.symm.trans ht) (by simp)
    · exact absurd (h.symm.trans h2) (by decide)
    · have : t0 = t1 := Option.some.inj (ht.symm.trans h)
      omega
  · rfl

theorem effPbtnLong_due {t0 : Nat} (h : s.panel.pressAt = some t0) (hl : s.panel.longDone = false)
    (ht : t0 + 8000000000 ≤ s.now) :
    effPbtnLong s = (State.raise { s.setFlag F.ILK_PANEL_LONG with panel := { s.panel with longDone := true } } 168).drydown 3 := by
  unfold effPbtnLong
  rw [h]
  exact if_pos ⟨ht, hl⟩

/-- The release: whatever the press has been until then. -/
theorem effPbtnShort_released {t0 : Nat} (h : s.panel.pressAt = some t0) :
    effPbtnShort s = (let e : State := { (effPbtnLong s).clrFlag F.ILK_PANEL_PBTN with
        panel := { (effPbtnLong s).panel with pressAt := none } }
      if (effPbtnLong s).panel.longDone || (effPbtnLong s).panel.quiet then e else (e.setFlag F.ILK_PANEL_SHORT).ilkEvent 2) := by
  refine if_neg ?_
  rw [h]
  exact Bool.false_ne_true

theorem effPbtnShort_quiet {t0 : Nat} (h : s.panel.pressAt = some t0) (hl : effPbtnLong s = s)
    (hq : s.panel.longDone = true ∨ s.panel.quiet = true) :
    effPbtnShort s = { s.clrFlag F.ILK_PANEL_PBTN with panel := { s.panel with pressAt := none } } := by
  rw [effPbtnShort_released h, hl]
  exact if_pos (by rw [Bool.or_eq_true]; exact hq)

/-! ### Keys and consumable ports -/

theorem effKeyChange_not {keys : BitVec 8} {ns : Nat}
    (h : keys.toNat = s.fld F.ILK_PANEL_KEYS ∨ ns < s.fld F.ILK_CFG_KEY_DEB * 1000000) : effKeyChange keys.toNat ns s = s :=
  if_pos (h.imp_left fun e => (Nat.mod_eq_of_lt keys.isLt).trans e)

theorem effKeyChange_held {keys : BitVec 8} {ns : Nat}
    (h : keys.toNat ≠ s.fld F.ILK_PANEL_KEYS) (hn : s.fld F.ILK_CFG_KEY_DEB * 1000000 ≤ ns) :
    effKeyChange keys.toNat ns s = (s.setFld F.ILK_PANEL_KEYS keys.toNat).raiseEv (s.fld F.ILK_EVGRP_HANDLE) 1 := by
  refine (if_neg ?_).trans ?_
  · rw [Nat.mod_eq_of_lt keys.isLt]
    rintro (c | c)
    · exact h c
    · omega
  · unfold State.ilkEvent
    rw [State.fld_setFld_apart s _ F.ILK_EVGRP_HANDLE _ (Nat.le_of_ble_eq_true rfl) (.inl (by decide))]

/-- A consumable's presence changed, before a read in progress ends. -/
def presence (s : State) (k : Nat) (present : Bool) : State :=
  ((s.putBitOf F.ILK_CNS_STATUS_PRESENT k present).putBitOf F.ILK_CNS_STATUS_CHANGED k true).ilkEvent 4

theorem presence_facts (s : State) (k : Fin 8) (present : Bool) :
    bit ((presence s k.val present).fld F.ILK_CNS_STATUS_PRESENT) k.val = present
      ∧ bit ((presence s k.val present).fld F.ILK_CNS_STATUS_CHANGED) k.val = true
      ∧ (presence s k.val present).panel = s.panel := by
  unfold presence
  refine ⟨?_, ?_, ?_⟩
  · rw [ilkEvent_fld]
    unfold State.putBitOf
    rw [State.fld_setFld_apart _ F.ILK_CNS_STATUS_CHANGED F.ILK_CNS_STATUS_PRESENT _ (Nat.le_of_ble_eq_true rfl)
      (.inr (.inr (Nat.le_of_ble_eq_true rfl)))]
    exact putBitOf_bit8 s _ _ _ (Nat.le_of_ble_eq_true rfl) rfl k.isLt
  · rw [ilkEvent_fld]
    exact putBitOf_bit8 _ _ _ _ (Nat.le_of_ble_eq_true rfl) rfl k.isLt
  · rw [(ilkEvent_regs _ _).2.2.2]
    rfl

theorem effCnsPresenceChange_seen {k : Nat} {present : Bool} {ns : Nat}
    (h : bit (s.fld F.ILK_CNS_STATUS_PRESENT) k ≠ present) (hn : 50000000 ≤ ns) :
    (∀ r, s.panel.cns = some r → r.port = k → present = false →
        effCnsPresenceChange k present ns s = (presence s k present).cnsLost.cnsEnd 3)
      ∧ ((∀ r, s.panel.cns = some r → r.port ≠ k ∨ present = true) →
        effCnsPresenceChange k present ns s = presence s k present) := by
  unfold effCnsPresenceChange
  rw [if_neg (by rintro (c | c); exact h c; omega)]
  constructor
  · intro r hr hp hf
    dsimp only
    rw [hr]
    exact if_pos ⟨hp, hf⟩
  · intro hk
    dsimp only
    split
    · next r hr =>
      refine if_neg ?_
      rintro ⟨hp, hf⟩
      rcases hk r hr with c | c
      · exact c hp
      · exact absurd (c.symm.trans hf) (by decide)
    · rfl

/-- Losing the buffer's words leaves the other registers and the panel. -/
theorem cnsLost_reg (s : State) {k : Nat} (hk : k < 0x2c0100) : s.cnsLost.reg k = s.reg k := by
  unfold State.cnsLost
  refine each_keeps (fun t => t.reg k) _ _ _ fun t j => State.reg_setReg_ne t _ ?_
  show k ≠ 0x2c0100 + 4 * j
  omega

theorem cnsLost_panel (s : State) : s.cnsLost.panel = s.panel :=
  each_keeps (·.panel) _ _ _ fun _ _ => rfl

theorem cnsStore_panel (s : State) (l : List Byte) : (s.cnsStore l).panel = s.panel :=
  each_keeps (·.panel) _ _ _ fun _ _ => rfl

theorem cnsEnd_status (s : State) (n : Nat) (f : Fld) (h : f.key = R.ILK_CNS_STATUS) : (s.cnsEnd n).fld f = s.fld f := by
  have hk : ∀ g : Fld, g.key = R.ILK_CNS_RES → g.apart f := fun g hg => .inl (by
    rw [hg, h]
    decide)
  unfold State.cnsEnd
  rw [ilkEvent_fld]
  generalize (n == 1 || n == 2 || n == 4 || n == 5) = b
  have hr : ∀ u : State, (u.raiseIf b 169).fld f = u.fld f := fun u => by cases b <;> rfl
  rw [hr, State.fld_setFld_apart _ F.ILK_CNS_RES_STATUS _ _ (Nat.le_of_ble_eq_true rfl) (hk _ rfl)]
  exact State.fld_setFld_apart _ F.ILK_CNS_RES_BUSY _ _ (Nat.le_of_ble_eq_true rfl) (hk _ rfl)

theorem cnsEnd_out (s : State) (n : Nat) : (s.cnsEnd n).panel.cnsOut = s.panel.cnsOut := by
  unfold State.cnsEnd
  rw [(ilkEvent_regs _ _).2.2.2]
  simp only [State.raiseIf_frame, State.setFld_frame, State.clrFlag_frame]

/-- A read that loses its consumable ends with status 3. -/
theorem lostRead_facts (s : State) (k : Fin 8) (present : Bool) :
    let t := (presence s k.val present).cnsLost.cnsEnd 3
    bit (t.fld F.ILK_CNS_STATUS_PRESENT) k.val = present ∧ bit (t.fld F.ILK_CNS_STATUS_CHANGED) k.val = true
      ∧ t.panel.cns = none ∧ t.fld F.ILK_CNS_RES_STATUS = 3 ∧ t.flag F.ILK_CNS_RES_BUSY = false := by
  obtain ⟨h1, h2, -⟩ := presence_facts s k present
  obtain ⟨e1, e2, e3⟩ := cnsEnd_facts (presence s k.val present).cnsLost 3 (by decide)
  have hf : ∀ f : Fld, f.key = R.ILK_CNS_STATUS → (presence s k.val present).cnsLost.fld f = (presence s k.val present).fld f :=
    fun f hf => by
      unfold State.fld
      rw [hf, cnsLost_reg _ (by decide)]
  intro t
  refine ⟨?_, ?_, e2, e3, e1⟩
  · rw [cnsEnd_status _ _ _ rfl, hf _ rfl, h1]
  · rw [cnsEnd_status _ _ _ rfl, hf _ rfl, h2]

theorem effCnsRead_not (h : v.getLsbD 31 = false ∨ s.flag F.ILK_CNS_RES_BUSY = true) : effCnsRead v s = s := by
  refine if_pos (h.imp_left fun hv => ?_)
  have hlt : F.ILK_CNS_CMD_GO.of v < 2 ^ 1 := bits_lt _ _ 1
  have hne : F.ILK_CNS_CMD_GO.of v ≠ 1 := fun c => by
    rw [getLsbD_bits] at hv
    exact absurd (hv.symm.trans (beq_iff_eq.2 c)) (by decide)
  omega

/-! A read's end (log entry 48: bytes that are missing read 0xFF) -/

/-- The unit with what it sent on the wire. -/
def sent (s : State) (r : CnsRead) : State := { s with panel := { s.panel with cnsOut := msbFirst r.sends } }

section done
variable {r : CnsRead} {tid : BitVec 64} {data : List Byte} {check : Nat}

/-- The bytes of a read, as far as they came. -/
def readBytes (r : CnsRead) (data : List Byte) : List Byte := (List.range r.len).map (fun j => data.getD j 0xFF#8)

/-- The consumable's identity stands its CRC. -/
def idGood (tid : BitVec 64) : Prop :=
  crc16 ((leBytes 8 tid.toNat).take 6) = ((leBytes 8 tid.toNat).getD 6 0).toNat * 256 + ((leBytes 8 tid.toNat).getD 7 0).toNat

/-- The identity in its registers. -/
def identified (s : State) (r : CnsRead) (tid : BitVec 64) : State :=
  (sent s r).setReg64 R.ILK_CNS_TID_LO R.ILK_CNS_TID_HI tid.toNat

variable (h : s.panel.cns = some r)
include h

theorem effCnsReadDone_stuck {ack : Bool} : effCnsReadDone ack true tid data check s = s.cnsEnd 4 := by
  unfold effCnsReadDone
  rw [h]
  rfl

theorem effCnsReadDone_unheard : effCnsReadDone false false tid data check s = s.cnsEnd 1 := by
  unfold effCnsReadDone
  rw [h]
  rfl

theorem effCnsReadDone_badId (hid : ¬ idGood tid) : effCnsReadDone true false tid data check s = (sent s r).cnsEnd 2 := by
  unfold effCnsReadDone
  rw [h]
  dsimp only
  rw [if_neg Bool.false_ne_true, if_neg (by decide)]
  exact if_pos hid

theorem effCnsReadDone_goodId (hid : idGood tid) :
    effCnsReadDone true false tid data check s = if r.idOnly = true then (identified s r tid).cnsEnd 0
      else if crc16 (r.sends ++ readBytes r data) ≠ check then (identified s r tid).cnsLost.cnsEnd 5
      else ((identified s r tid).cnsStore (readBytes r data)).cnsEnd 0 := by
  unfold effCnsReadDone
  rw [h]
  dsimp only
  rw [if_neg Bool.false_ne_true, if_neg (by decide)]
  exact if_neg (not_not_intro hid)

/-- How an acknowledged read ends. -/
theorem effCnsReadDone_acked : ∃ (u : State) (n : Nat), effCnsReadDone true false tid data check s = u.cnsEnd n ∧ n < 8
    ∧ u.panel.cnsOut = msbFirst r.sends ∧ (¬ idGood tid → n = 2) ∧ (idGood tid → (r.idOnly = true → n = 0)
      ∧ (r.idOnly = false → n = if crc16 (r.sends ++ readBytes r data) = check then 0 else 5)) := by
  by_cases hid : idGood tid
  · rw [effCnsReadDone_goodId h hid]
    by_cases ho : r.idOnly = true
    · rw [if_pos ho]
      exact ⟨_, 0, rfl, by decide, rfl, fun c => absurd hid c, fun _ => ⟨fun _ => rfl, fun c => absurd (ho.symm.trans c) (by decide)⟩⟩
    · rw [if_neg ho]
      by_cases hc : crc16 (r.sends ++ readBytes r data) = check
      · rw [if_neg (not_not_intro hc)]
        refine ⟨_, 0, rfl, by decide, ?_, fun c => absurd hid c, fun _ => ⟨fun c => absurd c ho, fun _ => (if_pos hc).symm⟩⟩
        rw [cnsStore_panel]
        rfl
      · rw [if_pos hc]
        refine ⟨_, 5, rfl, by decide, ?_, fun c => absurd hid c, fun _ => ⟨fun c => absurd c ho, fun _ => (if_neg hc).symm⟩⟩
        rw [cnsLost_panel]
        rfl
  · rw [effCnsReadDone_badId h hid]
    exact ⟨_, 2, rfl, by decide, rfl, fun _ => rfl, fun c => absurd c hid⟩

end done

/-- Settles O46. A write that arms and disarms a station disarms it, the press that powers up signals nothing, and bytes
that a consumable does not send read 0xFF: the model's reading (log entry 48). -/
theorem interlocksAndPanel : Obligations.InterlocksAndPanel := by
  intro s st chB v keys k present ack stuck ns tid data check hs i l next here other long
  have hi : i < 4 := st.isLt
  have hnx : ∀ {a b : State}, a = b → next a = next b := congrArg next
  have hu : ∀ {g : State → State} {t : State}, g s = t → next (s.onUnit (s.hasStn st.val) g) = next t :=
    fun h => congrArg next ((onUnit_present s _ _ hs).trans h)
  refine ⟨fun h => hu (effIlkOpen_not h), fun ⟨h, hn⟩ => ⟨_, hu rfl, open_facts s i chB ns.toNat hn hi hs h⟩,
    fun h => hu (effInterlockClose_closed h), fun h => ⟨_, hu rfl, close_facts s i chB hi hs h⟩,
    fun h => hu (effIlkArmable_waits h),
    fun t0 h ht => ⟨fun hd => hu ((effIlkArmable_due hs h ht).trans (if_neg (by rw [hd]; decide))),
      fun hd => hu ((effIlkArmable_due hs h ht).trans (if_pos hd))⟩,
    fun h => hu (effIlkDiscrep_waits h), fun t0 h ht => ⟨_, hu rfl, discrep_facts s i t0 hi hs h ht⟩,
    fun h => ⟨hnx (if_pos h), hnx (if_pos h)⟩, fun h => ⟨_, rfl, rfl, effIlkArm_armed hi hs h⟩,
    fun h => hnx (effPbtnPress_not h), fun ⟨h, hn⟩ => ?press,
    fun h => ⟨hnx (if_pos (by rw [h]; rfl)), hnx (effPbtnLong_not (.inl h))⟩,
    fun t0 h hl => ⟨hnx (effPbtnShort_quiet h (effPbtnLong_not (.inr (.inl hl))) (.inl hl)), hnx (effPbtnLong_not (.inr (.inl hl)))⟩,
    fun t0 h hl hq => ⟨fun hn => ?short, fun hn => hnx ?long⟩,
    fun t0 h hl hq hn => hnx (effPbtnShort_quiet h (effPbtnLong_not (.inr (.inr ⟨t0, h, hn⟩))) (.inr hq)),
    fun t0 h hl => ⟨fun hn => hnx (effPbtnLong_not (.inr (.inr ⟨t0, h, hn⟩))), fun hn => hnx (effPbtnLong_due h hl hn)⟩,
    fun h => hnx (if_pos h), fun h => hnx (if_neg (Nat.not_lt.2 h)), fun ⟨h, hd⟩ => hnx ?mask,
    fun h => hnx (effKeyChange_not h), fun ⟨h, hn⟩ => hnx (effKeyChange_held h hn),
    fun h => hnx (if_pos h), fun ⟨h, hn⟩ => ?presence,
    fun h => hnx (effCnsRead_not h), fun ⟨hv, hb⟩ => cnsRead_facts s v hv hb,
    fun h => hnx ?noRead, fun r h => ?done⟩
  case press =>
    refine ⟨_, hnx (effPbtnPress_low h hn), ?_, fun hoff => ?_, fun hk => pressed_kept hk⟩
    · rw [panel_flag]
      exact State.flag_setFlag _ _ (Nat.le_of_ble_eq_true rfl) rfl
    · obtain ⟨hq, hnow⟩ := pressed_on hoff
      exact ⟨congrArg (fun x => some (x - ns.toNat)) hnow, hq⟩
  case short => exact short_facts s t0 h hn hl hq
  case long =>
    refine (effPbtnShort_released h).trans ?_
    rw [effPbtnLong_due h hl hn]
  case mask => exact (if_neg (Nat.not_lt.2 h)).trans (if_pos hd)
  case presence =>
    obtain ⟨hlost, hkept⟩ := effCnsPresenceChange_seen h hn
    obtain ⟨h1, h2, h3⟩ := presence_facts s k present
    by_cases hr : ∃ r, s.panel.cns = some r ∧ r.port = k.val ∧ present = false
    · obtain ⟨r, hr, hp, hf⟩ := hr
      obtain ⟨l1, l2, l3, l4, l5⟩ := lostRead_facts s k present
      refine ⟨_, hnx (hlost r hr hp hf), l1, l2, fun _ _ _ _ => ⟨l3, l4, l5⟩, fun q hq hno => ?_⟩
      obtain rfl : r = q := Option.some.inj (hr.symm.trans hq)
      rcases hno with c | c
      · exact absurd hp c
      · exact absurd (c.symm.trans hf) (by decide)
    · have hno : ∀ r, s.panel.cns = some r → r.port ≠ k.val ∨ present = true := fun r hc => by
        by_contra c
        rw [not_or, not_not, Bool.not_eq_true] at c
        exact hr ⟨r, hc, c⟩
      refine ⟨_, hnx (hkept hno), h1, h2, fun r hc hp hf => absurd ⟨r, hc, hp, hf⟩ hr, fun r hc _ => by rw [h3, hc]⟩
  case noRead =>
    unfold effCnsReadDone
    rw [h]
  case done =>
    cases stuck with
    | true =>
      obtain ⟨e1, e2, e3⟩ := cnsEnd_facts s 4 (by decide)
      exact ⟨_, hnx (effCnsReadDone_stuck h), e1, e2, fun _ => e3, fun c => Bool.noConfusion c.1, fun c => Bool.noConfusion c.1⟩
    | false =>
      cases ack with
      | false =>
        obtain ⟨e1, e2, e3⟩ := cnsEnd_facts s 1 (by decide)
        exact ⟨_, hnx (effCnsReadDone_unheard h), e1, e2, fun c => Bool.noConfusion c, fun _ => e3, fun c => Bool.noConfusion c.2⟩
      | true =>
        obtain ⟨u, n, hd, hn, ho, hbad, hgood⟩ := effCnsReadDone_acked (tid := tid) (data := data) (check := check.toNat) h
        obtain ⟨e1, e2, e3⟩ := cnsEnd_facts u n hn
        refine ⟨_, hnx hd, e1, e2, fun c => Bool.noConfusion c, fun c => Bool.noConfusion c.2, fun _ =>
          ⟨(cnsEnd_out u n).trans ho, fun hid => e3.trans (hbad hid), fun hid => ⟨fun hi => e3.trans ((hgood hid).1 hi),
            fun hi => e3.trans ((hgood hid).2 hi)⟩⟩⟩

end Sys2Proof.Proofs.Interlocks
end

