-- ==== Sys2Proof/Proofs/MemoryCtl.lean ====
section
/-!
PROOFS. Correction windows, training and fill, the scrubber, the injection and lock registers (R232 to R234, R246).
-/
namespace Sys2Proof.Proofs.MemoryCtl

open Sys2Proof.Machine
open Sys2Proof.Laws.Writes
open Sys2Proof.Laws.Dma (get_filter or_bit arm_spec)
open Sys2Proof.Laws.Scan (plain_regs)

variable {s : State} {v : Word}

/-! ### Windows, training and fill -/

theorem effCeWindowEnd_open
    (h : s.flag F.MEM_STATUS_INIT_DONE = false ∨ s.now < s.memst.winStart + s.memst.winLen * 60000000000) :
    effCeWindowEnd s = s := by
  refine if_neg ?_
  rintro ⟨h1, h2⟩
  rcases h with h | h
  · exact absurd (h.symm.trans h1) (by decide)
  · omega

/-- Memory that only keeps some of its bytes. -/
theorem rd8_filter (p : Nat → Bool) (s : State) (a : Nat) :
    Tab.getD (s.mem.filter (fun c => p c.1)) a 0 = if p a then s.rd8 a else 0 := by
  unfold State.rd8 Tab.getD
  rw [get_filter]
  cases p a <;> rfl

/-- Training passed: the fill begins, and the bytes above the MRAM read 0 (log entry 116). -/
def trained (s : State) : State :=
  { ((s.setFld F.MEM_STATUS_TRAIN_OK 15).setFlag F.MEM_STATUS_FILL_BUSY).modPwr (fun p => { p with phase := .filling }) with
    mem := s.mem.filter (fun c => decide (c.1 < ramBase))
    upsets := s.upsets.filter (fun e => decide (e.1 < ramBase)) }

theorem trained_facts (s : State) : (trained s).fld F.MEM_STATUS_TRAIN_OK = 15 ∧ (trained s).flag F.MEM_STATUS_FILL_BUSY = true
    ∧ (trained s).pwr.phase = .filling ∧ (∀ a, 0x1100000000 ≤ a → (trained s).rd8 a = 0)
    ∧ ∀ a < 0x1100000000, (trained s).rd8 a = s.rd8 a := by
  refine ⟨?_, ?_, rfl, fun a ha => ?_, fun a ha => ?_⟩
  · exact (State.fld_setFld_apart (s.setFld F.MEM_STATUS_TRAIN_OK 15) F.MEM_STATUS_FILL_BUSY F.MEM_STATUS_TRAIN_OK 1
      (Nat.le_of_ble_eq_true rfl) (.inr (.inr (Nat.le_of_ble_eq_true rfl)))).trans
      (State.fld_setFld_same s F.MEM_STATUS_TRAIN_OK 15 (Nat.le_of_ble_eq_true rfl))
  · exact State.flag_setFlag (s.setFld F.MEM_STATUS_TRAIN_OK 15) F.MEM_STATUS_FILL_BUSY (Nat.le_of_ble_eq_true rfl) rfl
  · refine (rd8_filter (fun c => decide (c < ramBase)) s a).trans (if_neg ?_)
    rw [decide_eq_true_iff]
    exact Nat.not_lt.2 ha
  · exact (rd8_filter (fun c => decide (c < ramBase)) s a).trans (if_pos (decide_eq_true ha))

theorem effDramTrainingDone_not {f : Nat} (h : s.pwr.phase ≠ .training ∨ s.flag F.MEM_LOCK_LOCK = false) :
    effDramTrainingDone f s = s := if_pos h

theorem effDramTrainingDone_done {f : BitVec 4} (h : s.pwr.phase = .training) (hl : s.flag F.MEM_LOCK_LOCK = true) :
    effDramTrainingDone f.toNat s = if f = 0 then trained s
      else ((s.setFld F.MEM_STATUS_TRAIN_OK (15 - f.toNat)).raise 204).bootFail := by
  have hn : ¬ (s.pwr.phase ≠ .training ∨ s.flag F.MEM_LOCK_LOCK = false) := by
    rintro (c | c)
    · exact c h
    · exact absurd (hl.symm.trans c) (by decide)
  refine (if_neg hn).trans ?_
  rw [Nat.mod_eq_of_lt f.isLt]
  by_cases hf : f = 0
  · subst hf
    rfl
  · rw [if_neg hf]
    exact if_neg fun c => hf (BitVec.eq_of_toNat_eq c)

/-- The fill ends: every byte below the MRAM reads 0. -/
def filled (s : State) : State :=
  { (s.clrFlag F.MEM_STATUS_FILL_BUSY).setFlag F.MEM_STATUS_INIT_DONE with
    mem := s.mem.filter (fun c => decide (mramBase ≤ c.1))
    upsets := s.upsets.filter (fun e => decide (mramBase ≤ e.1))
    memst := { s.memst with
      winStart := s.now, winLen := s.ceWin, winCount := 0, winTripped := false
      scrub := 0, scrubPeriod := s.fld F.MEM_SCRUB_SCRUB_PERIOD
      scrubStopped := s.fld F.MEM_SCRUB_SCRUB_PERIOD == 0 }
    pwr := { s.pwr with phase := .booting } }

theorem effDramFillDone_filling (h : s.pwr.phase = .filling) : effDramFillDone s = filled s := if_neg (not_not_intro h)

theorem filled_facts (s : State) : (filled s).flag F.MEM_STATUS_INIT_DONE = true
    ∧ (filled s).flag F.MEM_STATUS_FILL_BUSY = false ∧ (filled s).pwr.phase = .booting ∧ (filled s).memst.winStart = s.now
    ∧ (∀ a < 0x1000000000, (filled s).rd8 a = 0) ∧ ∀ a, 0x1000000000 ≤ a → (filled s).rd8 a = s.rd8 a := by
  refine ⟨?_, ?_, rfl, rfl, fun a ha => ?_, fun a ha => ?_⟩
  · exact State.flag_setFlag (s.clrFlag F.MEM_STATUS_FILL_BUSY) F.MEM_STATUS_INIT_DONE (Nat.le_of_ble_eq_true rfl) rfl
  · exact (setFld_flag_apart (s.clrFlag F.MEM_STATUS_FILL_BUSY) F.MEM_STATUS_INIT_DONE F.MEM_STATUS_FILL_BUSY 1
      (Nat.le_of_ble_eq_true rfl) rfl (.inr (.inr (Nat.le_of_ble_eq_true rfl)))).trans
      (State.flag_clrFlag s F.MEM_STATUS_FILL_BUSY (Nat.le_of_ble_eq_true rfl) rfl)
  · refine (rd8_filter (fun c => decide (mramBase ≤ c)) s a).trans (if_neg ?_)
    rw [decide_eq_true_iff]
    exact Nat.not_le.2 ha
  · exact (rd8_filter (fun c => decide (mramBase ≤ c)) s a).trans (if_pos (decide_eq_true ha))

/-! ### The scrubber -/

theorem effScrubUnit_clean (h : s.flag F.MEM_STATUS_INIT_DONE = true) (hs : s.memst.scrubStopped = false) (hu : s.upsets = []) :
    effScrubUnit s = if s.memst.scrub + 64 < s.dramTop then { s with memst := { s.memst with scrub := s.memst.scrub + 64 } }
      else { s.addSat F.MEM_SCRUB_PASSES 1 with
        memst := { s.memst with scrub := 0, scrubPeriod := s.fld F.MEM_SCRUB_SCRUB_PERIOD } } := by
  unfold effScrubUnit
  rw [if_neg, State.eccRange_nil _ _ _ _ hu]
  rintro (c | c)
  · exact absurd (h.symm.trans c) (by decide)
  · exact absurd (hs.symm.trans c) (by decide)

/-! ### Injection and lock -/

theorem inject_facts (s : State) (v : Word) :
    (s.plainWrite R.MEM_INJ_CTRL v).flag F.MEM_INJ_CTRL_ARM = (s.flag F.MEM_INJ_CTRL_ARM || v.getLsbD 2)
      ∧ (s.plainWrite R.MEM_INJ_CTRL v).fld F.MEM_INJ_CTRL_NBITS = v.toNat % 4 := by
  refine ⟨plainWrite_w1s s F.MEM_INJ_CTRL_ARM v (by decide), ?_⟩
  refine (plainWrite_bits s R.MEM_INJ_CTRL v ⟨0, 2, .rw, false, 1⟩ (by decide)).trans ?_
  show v.toNat / 1 % 4 = v.toNat % 4
  rw [Nat.div_one]

theorem plainWrite_memory (s : State) (k : Nat) (v : Word) : (s.plainWrite k v).mem = s.mem ∧ (s.plainWrite k v).upsets = s.upsets := by
  obtain ⟨r, hr⟩ := plain_regs s k v
  rw [hr]
  exact ⟨rfl, rfl⟩

/-- An armed injection takes the word written at its address. -/
theorem wordWritten_armed {a : Nat} (hr : s.region a = .dram) (ha : s.flag F.MEM_INJ_CTRL_ARM = true) (hi : s.injAddr = a) :
    (s.wordWritten a).flag F.MEM_INJ_CTRL_ARM = false
      ∧ Tab.get (s.wordWritten a).upsets a = some (injPattern (s.fld F.MEM_INJ_CTRL_NBITS)) := by
  unfold State.wordWritten
  dsimp only
  rw [if_pos ⟨hr, ha, hi⟩]
  exact ⟨State.flag_clrFlag _ _ (Nat.le_of_ble_eq_true rfl) rfl, Tab.get_put_same _ _ _⟩

theorem writeWord_whole {a : Nat} {l : List Byte} (req : Nat) (hl : l.length = 8) (hr : s.region a = .dram) (h8 : a % 8 = 0) :
    (s.writeWord req a l).1 = (s.wrBytes a l).wordWritten a := by
  have hm : a < mramBase := by
    by_contra c
    unfold State.region at hr
    rw [if_neg c] at hr
    split at hr
    · cases hr
    · split at hr
      · cases hr
      · split at hr
        · split at hr <;> cases hr
        · split at hr
          · cases hr
          · split at hr <;> cases hr
  have hw : eccWordBytes a = 8 := if_neg (by
    unfold mramBase at hm
    unfold ramBase
    omega)
  unfold State.writeWord
  dsimp only
  rw [hw, hl, if_pos rfl, show a / 8 * 8 = a by omega]

/-- Writing bytes moves nothing that an injection looks at. -/
theorem wrBytes_injection (s : State) (a b : Nat) (l : List Byte) : (s.wrBytes b l).region a = s.region a
    ∧ (s.wrBytes b l).flag F.MEM_INJ_CTRL_ARM = s.flag F.MEM_INJ_CTRL_ARM
    ∧ (s.wrBytes b l).injAddr = s.injAddr ∧ (s.wrBytes b l).fld F.MEM_INJ_CTRL_NBITS = s.fld F.MEM_INJ_CTRL_NBITS := by
  rw [State.wrBytes_eq]
  exact ⟨rfl, rfl, rfl, rfl⟩

/-- Settles O50. Once training is done every byte from 0x11_0000_0000 up reads 0: the model's choice (log entry 116); R233
puts that end of the fill up to 1 ms later. -/
theorem memoryController : Obligations.MemoryController := by
  intro s failed v m next init
  have hnx : ∀ {a b : State}, a = b → next a = next b := congrArg next
  refine ⟨fun h => hnx (effCeWindowEnd_open h), fun h => hnx (if_pos h),
    fun h => hnx (effDramTrainingDone_not h),
    fun ⟨h, hl⟩ => ⟨fun hf => ⟨trained s, hnx ((effDramTrainingDone_done h hl).trans (if_pos hf)), trained_facts s⟩,
      fun hf => hnx ((effDramTrainingDone_done h hl).trans (if_neg hf))⟩,
    fun h => hnx (if_pos h), fun h => ⟨filled s, hnx (effDramFillDone_filling h), filled_facts s⟩,
    fun h => hnx (if_pos h),
    fun ⟨h, hs, hu⟩ => ⟨fun hn => hnx ((effScrubUnit_clean h hs hu).trans (if_pos hn)),
      fun hn => hnx ((effScrubUnit_clean h hs hu).trans (if_neg (Nat.not_lt.2 hn)))⟩,
    ?inject, ?lock, fun a l req hl hr h8 ha hi => ?armed⟩
  case inject =>
    obtain ⟨h1, h2⟩ := inject_facts s v
    obtain ⟨h3, h4⟩ := plainWrite_memory s R.MEM_INJ_CTRL v
    exact ⟨s.plainWrite R.MEM_INJ_CTRL v, rfl, h1, h2, h3, h4⟩
  case lock =>
    exact ⟨s.plainWrite R.MEM_LOCK v, rfl, plainWrite_w1s s F.MEM_LOCK_LOCK v (by decide),
      State.plainWrite_other s R.MEM_CFG R.MEM_LOCK v (by decide)⟩
  case armed =>
    obtain ⟨w1, w2, w3, w4⟩ := wrBytes_injection s a a l
    intro t
    rw [show t = _ from writeWord_whole req hl hr h8, ← w4]
    exact wordWritten_armed (w1.trans hr) (w2.trans ha) (w3.trans hi)

end Sys2Proof.Proofs.MemoryCtl
end

