-- ==== Sys2Proof/Proofs/AttarJobs.lean ====
section
/-!
PROOFS. Attar engines: jobs from take to completion, parking, page blocks, ONLINE and TEST (R204 to R224).
-/
namespace Sys2Proof.Proofs.AttarJobs

open Sys2Proof.Machine
open Sys2Proof.Laws.Writes
open Sys2Proof.Laws.Codec

variable {s : State} {e : Nat} {v : Word}

/-! ### When an engine takes a job -/

/-- The engine may take a job. -/
def ready (s : State) (e : Nat) : Prop :=
  s.flag (F.ATR_CTRL_ONLINE e) = true ∧ (vget s.atr e).job = none ∧ (vget s.atr e).band = none
    ∧ (vget s.atr e).testing = false ∧ (vget s.atr e).parked = none

theorem effAtrJob_busy {op : Nat} (h : ¬ ready s e) : effAtrJob e op s = s := by
  refine if_pos ?_
  by_contra c
  rw [not_or, Bool.not_eq_false, Bool.not_eq_true, Bool.or_eq_false_iff, Bool.or_eq_false_iff, Bool.or_eq_false_iff,
    Option.isSome_eq_false_iff, Option.isSome_eq_false_iff, Option.isSome_eq_false_iff] at c
  obtain ⟨h0, ⟨⟨h1, h2⟩, h3⟩, h4⟩ := c
  exact h ⟨h0, Option.isNone_iff_eq_none.1 h1, Option.isNone_iff_eq_none.1 h2, h3, Option.isNone_iff_eq_none.1 h4⟩

section take
variable (hr : ready s e)
include hr

theorem not_busy : ¬ (s.flag (F.ATR_CTRL_ONLINE e) = false
    ∨ ((vget s.atr e).job.isSome || (vget s.atr e).band.isSome || (vget s.atr e).testing || (vget s.atr e).parked.isSome) = true) := by
  obtain ⟨h0, h1, h2, h3, h4⟩ := hr
  rw [h0, h1, h2, h3, h4]
  decide

theorem effAtrJob_noRings {op : Nat} (h : s.fld (F.ATR_SQ_HANDLE e) = 0 ∨ s.fld (F.ATR_CQ_HANDLE e) = 0) :
    effAtrJob e op s = s := by
  have ha : s.atrRings e = (none, false) := if_pos h
  refine (if_neg (not_busy hr)).trans ?_
  rw [ha]

variable (hs : s.fld (F.ATR_SQ_HANDLE e) ≠ 0) (hc : s.fld (F.ATR_CQ_HANDLE e) ≠ 0)
include hs hc

theorem effAtrJob_badRings {op : Nat}
    (h : s.unitRing (s.fld (F.ATR_SQ_HANDLE e)) 2 = none ∨ s.unitRing (s.fld (F.ATR_CQ_HANDLE e)) 2 = none) :
    effAtrJob e op s = s.setFlag (F.ATR_STATUS_Q_ERR e) := by
  have ha : s.atrRings e = (none, true) := by
    unfold State.atrRings
    rw [if_neg (not_or.2 ⟨hs, hc⟩)]
    rcases h with h | h
    · rw [h]
    · rw [h]
      cases s.unitRing (s.fld (F.ATR_SQ_HANDLE e)) 2 <;> rfl
  refine (if_neg (not_busy hr)).trans ?_
  rw [ha]

variable {n : Nat} {r : Ring} (hq : s.unitRing (s.fld (F.ATR_SQ_HANDLE e)) 2 = some (n, r))
  (hcq : s.unitRing (s.fld (F.ATR_CQ_HANDLE e)) 2 ≠ none)
include hq hcq

/-- The row a descriptor belongs to: an unlisted OP counts as DECODE (log entry 51). -/
def rowOf (s : State) (r : Ring) : Nat :=
  if 5 ≤ bits (entLe (s.rdBytes (r.entryAddr r.cons) 64) 0 4) 0 4 then 0
  else bits (entLe (s.rdBytes (r.entryAddr r.cons) 64) 0 4) 0 4

omit hr in
theorem rings_usable : s.atrRings e = (some (n, r), false) := by
  obtain ⟨x, hx⟩ := Option.ne_none_iff_exists'.1 hcq
  unfold State.atrRings
  rw [if_neg (not_or.2 ⟨hs, hc⟩), hq, hx]

theorem effAtrJob_waits {op : Nat} (h : r.count = 0 ∨ rowOf s r ≠ op
      ∨ s.ctxBusy (entLe (s.rdBytes (r.entryAddr r.cons) 64) 4 4) = true) : effAtrJob e op s = s := by
  refine (if_neg (not_busy hr)).trans ?_
  rw [rings_usable hs hc hq hcq]
  exact if_pos h

variable (hn : r.count ≠ 0) (hb : s.ctxBusy (entLe (s.rdBytes (r.entryAddr r.cons) 64) 4 4) = false)
include hn hb

omit hr hs hc hq hcq in
theorem takes {op : Nat} (ho : rowOf s r = op) : ¬ (r.count = 0 ∨ rowOf s r ≠ op
    ∨ s.ctxBusy (entLe (s.rdBytes (r.entryAddr r.cons) 64) 4 4) = true) := by
  rintro (h | h | h)
  · exact hn h
  · exact h ho
  · exact absurd (hb.symm.trans h) (by decide)

theorem effAtrJob_takes {op : Nat} {t : State} {l : List Byte} (ho : rowOf s r = op) (hp : s.ringPop n r = (t, .entry l)) :
    effAtrJob e op s = (t.runJob e l).atrSync e := by
  refine (if_neg (not_busy hr)).trans ?_
  rw [rings_usable hs hc hq hcq]
  refine (if_neg (takes hn hb ho)).trans ?_
  rw [hp]

theorem effAtrJob_unread {op : Nat} {t : State} {x : PopRes} (ho : rowOf s r = op) (hp : s.ringPop n r = (t, x))
    (hx : ∀ l, x ≠ .entry l) : effAtrJob e op s = t.setFlag (F.ATR_STATUS_Q_ERR e) := by
  refine (if_neg (not_busy hr)).trans ?_
  rw [rings_usable hs hc hq hcq]
  refine (if_neg (takes hn hb ho)).trans ?_
  rw [hp]
  cases x with
  | entry l => exact absurd rfl (hx l)
  | _ => rfl

end take

/-! ### What a job does -/

/-- A job that ended OK leaves nothing of its output undefined, and its ERR_OFF is all ones (log entry 112). -/
theorem jobEnd_ok (s : State) (e : Nat) (j : AtrJob) : s.jobEnd e j 0 0xFFFFFFFF
    = s.modAtr e (fun a => { a with job := some { j with ended := some (0, 0xFFFFFFFF) } }) := by
  have hs : j.spill 0 0xFFFFFFFF = 0 := by
    unfold AtrJob.spill
    rw [if_neg (by simp), if_neg (by simp)]
  exact if_pos hs

/-- DECODE stops where its input is used up. -/
theorem runDecode_done {j : AtrJob} (h : j.srcLen ≤ j.inUsed) (s : State) (e i fuel : Nat) :
    s.runDecode e i fuel j = s.jobEnd e j 0 0xFFFFFFFF := by
  cases fuel with
  | zero => rfl
  | succ n =>
    unfold State.runDecode
    split
    · rfl
    · exact if_pos h

/-- ENCODE stops where no chunk is left to emit. -/
theorem runEncode_done {j : AtrJob} (h : ∀ b, j.nextChunk b = none) (s : State) (e i fuel : Nat) :
    s.runEncode e i fuel j = s.jobEnd e j 0 0xFFFFFFFF := by
  cases fuel with
  | zero => rfl
  | succ n =>
    unfold State.runEncode
    split
    · rfl
    · rw [h]

section runs
variable {t t2 t3 w : State} {l : List Byte} {i : Nat} {c : AtrCtx}

theorem ctxOf_get {h : Nat} (hc : t.ctxOf h = some (i, c)) : Tab.get t.actxs i = some c := by
  unfold State.ctxOf at hc
  split at hc
  · cases hc
  · next k hk =>
    obtain ⟨x, hx, he⟩ := Option.map_eq_some_iff.1 hc
    obtain ⟨rfl, rfl⟩ := Prod.mk.inj he
    exact hx

/-- The context active on engine `e`. -/
def activated (t : State) (e i : Nat) : State := t.modCtx i (fun x => { x with active := some e })

theorem activated_get (h : Tab.get t.actxs i = some c) :
    Tab.get (activated t e i).actxs i = some { c with active := some e } := by
  unfold activated State.modCtx
  dsimp only
  rw [Tab.get_upd_same, h]
  rfl

variable {j : AtrJob} (hj : AtrJob.ofEntry l t.now = j) (hk : t.jobCheck j (jobRsvd l) = none)
  (hx : t.ctxOf j.ctx = some (i, c))
include hj hk hx

theorem runJob_checked : t.runJob e l =
    if j.op = 0 then (activated t e i).runDecode e i (j.srcLen / 16 + 2) j
    else if j.op = 1 then (activated t e i).runEncode e i (j.srcLen / 256 + 3) j
    else if j.op = 2 then (activated t e i).runSave e c j
    else if j.op = 3 then (activated t e i).runLoad e i c j
    else ((activated t e i).modCtx i (fun x => { x with window := [], openS := false })).jobEnd e j 0 0xFFFFFFFF := by
  unfold State.runJob
  dsimp only
  rw [hj, hk]
  dsimp only
  rw [hx]
  rfl

omit hk hx in
theorem entry_fresh : j.inUsed = 0 ∧ j.outMade = 0 ∧ j.blocks = 0 := by
  rw [← hj]
  exact ⟨rfl, rfl, rfl⟩

theorem runJob_decode {hb body : List Byte} {h : BlkHdr} {px : List Nat} (ho : j.op = 0)
    (h1 : (activated t e i).engRead j.src 16 = (t2, .ok hb)) (hh : BlkHdr.ofBytes hb = h)
    (hok : h.ok = true) (hlen : j.srcLen = 16 + h.inLen) (hout : h.outLen ≤ j.dstLen)
    (h2 : t2.engRead (j.src + 16) h.inLen = (t3, .ok body))
    (hd : ({ c with active := some e } : AtrCtx).decode h body = .ok px)
    (h3 : t3.engWrite j.dst (packNibbles px) = (w, none)) :
    t.runJob e l = ((w.modCtx i (fun x => x.enter px (!h.hist) h.last)).modAtr e
        (fun a => { a with outb := (a.outb + h.outLen) % 2 ^ 64 })).jobEnd e
      { j with inUsed := 16 + h.inLen, outMade := h.outLen, blocks := 1 } 0 0xFFFFFFFF := by
  obtain ⟨hu, hm, hz⟩ := entry_fresh hj
  rw [runJob_checked hj hk hx, if_pos ho, State.runDecode, activated_get (ctxOf_get hx)]
  dsimp only
  rw [hu, hm, hz, if_neg (by omega), if_neg (by omega), Nat.add_zero, h1]
  dsimp only
  rw [hh, if_neg (by omega), if_neg (by omega), if_neg (by rw [hok]; decide), h2]
  dsimp only
  rw [hd]
  dsimp only
  rw [Nat.add_zero, h3]
  dsimp only
  rw [Nat.zero_add, Nat.zero_add, Nat.zero_add]
  exact runDecode_done (Nat.le_of_eq hlen) _ _ _ _

omit hj hk hx in
/-- A job whose whole input one chunk has emitted emits no more. -/
theorem nextChunk_none {k m : Nat} (b : Nat) :
    ({ j with inUsed := j.srcLen, outMade := m, blocks := k + 1 } : AtrJob).nextChunk b = none := by
  unfold AtrJob.nextChunk
  simp

theorem runJob_encode {chunk : List Byte} {last flush : Bool} (ho : j.op = 1)
    (hn : j.nextChunk c.blksz = some (j.srcLen, last, flush))
    (h1 : (activated t e i).engRead j.src j.srcLen = (t2, .ok chunk))
    (hl : (encodeBlock c.linePx (if c.long && c.openS then c.window else []) chunk last (c.long && c.openS) flush).length
      ≤ j.dstLen)
    (h2 : t2.engWrite j.dst (encodeBlock c.linePx (if c.long && c.openS then c.window else []) chunk last
      (c.long && c.openS) flush) = (w, none)) :
    t.runJob e l = ((w.modCtx i (fun x => x.enter (nibblesOf chunk) (!(c.long && c.openS)) last)).modAtr e
        (fun a => { a with outb := (a.outb + (encodeBlock c.linePx (if c.long && c.openS then c.window else []) chunk last
          (c.long && c.openS) flush).length) % 2 ^ 64 })).jobEnd e
      { j with inUsed := j.srcLen, blocks := 1, outMade := (encodeBlock c.linePx (if c.long && c.openS then c.window else [])
        chunk last (c.long && c.openS) flush).length } 0 0xFFFFFFFF := by
  obtain ⟨hu, hm, hz⟩ := entry_fresh hj
  rw [runJob_checked hj hk hx, if_neg (by omega), if_pos ho, State.runEncode, activated_get (ctxOf_get hx)]
  dsimp only
  rw [hn]
  dsimp only
  rw [hu, hm, hz, Nat.add_zero, h1]
  dsimp only
  rw [if_neg (by omega), Nat.add_zero, h2]
  dsimp only
  rw [Nat.zero_add, Nat.zero_add, Nat.zero_add]
  exact runEncode_done (fun b => nextChunk_none b) _ _ _ _

theorem runJob_save (ho : j.op = 2) (hl : imageBytes ≤ j.dstLen)
    (h1 : (activated t e i).engWrite j.dst c.image = (w, none)) :
    t.runJob e l = (w.modAtr e (fun a => { a with outb := (a.outb + imageBytes) % 2 ^ 64 })).jobEnd e
      { j with outMade := imageBytes } 0 0xFFFFFFFF := by
  rw [runJob_checked hj hk hx, if_neg (by omega), if_neg (by omega), if_pos ho, State.runSave, if_neg (by omega), h1]

theorem runJob_load {img : List Byte} (ho : j.op = 3) (hl : imageBytes ≤ j.srcLen)
    (h1 : (activated t e i).engRead j.src imageBytes = (t2, .ok img)) (hf : c.imageFits img = true) :
    t.runJob e l = (t2.modCtx i (fun x => { x with
        window := (nibblesOf (img.drop 256)).drop (windowMax - entLe img 8 4), openS := bit (entLe img 3 1) 1
        pos := entLe img 0x10 8 })).jobEnd e { j with inUsed := imageBytes } 0 0xFFFFFFFF := by
  rw [runJob_checked hj hk hx, if_neg (by omega), if_neg (by omega), if_neg (by omega), if_pos ho, State.runLoad,
    if_neg (by omega), h1]
  exact if_neg (by rw [hf]; decide)

theorem runJob_clear (ho : j.op = 4) :
    t.runJob e l = ((activated t e i).modCtx i (fun x => { x with window := [], openS := false })).jobEnd e j 0 0xFFFFFFFF := by
  rw [runJob_checked hj hk hx, if_neg (by omega), if_neg (by omega), if_neg (by omega), if_neg (by omega)]

end runs

/-! ### The checks of a descriptor (R205) -/

section check
variable {j : AtrJob} {rsvd : Bool}

theorem jobCheck_malformed (h : 5 ≤ j.op ∨ rsvd = true ∨ (j.flush || j.last) = true ∧ j.op ≠ 1) :
    s.jobCheck j rsvd = some 12 := by
  refine if_pos ?_
  rcases h with h | h | ⟨h1, h2⟩
  · exact .inl h
  · exact .inr (.inl h)
  · refine .inr (.inr ?_)
    rw [h1, Bool.true_and, bne_iff_ne]
    exact h2

variable (h5 : j.op < 5) (hr : rsvd = false) (hf : (j.flush || j.last) = true → j.op = 1)
include h5 hr hf

theorem well_formed : ¬ (5 ≤ j.op ∨ rsvd = true ∨ ((j.flush || j.last) && j.op != 1) = true) := by
  rintro (h | h | h)
  · omega
  · exact absurd (hr.symm.trans h) (by decide)
  · rw [Bool.and_eq_true, bne_iff_ne] at h
    exact h.2 (hf h.1)

theorem jobCheck_noCtx (h : s.ctxOf j.ctx = none) : s.jobCheck j rsvd = some 10 := by
  refine (if_neg (well_formed h5 hr hf)).trans ?_
  rw [h]

theorem jobCheck_ctx {i : Nat} {c : AtrCtx} (h : s.ctxOf j.ctx = some (i, c)) : s.jobCheck j rsvd =
    if (j.op = 2 ∨ j.op = 3) ∧ c.long = false then some 10
    else if (j.op = 0 ∧ c.encode = true) ∨ (j.op = 1 ∧ c.encode = false) then some 12
    else if s.ctxInUse j.ctx = true then some 9 else none := by
  refine (if_neg (well_formed h5 hr hf)).trans ?_
  rw [h]

end check

/-! ### Completion and parking -/

/-- A context that engine `e` no longer works on. -/
def released (e : Nat) (c : AtrCtx) : AtrCtx := if c.active = some e then { c with active := none } else c

/-- A job off its engine, its context free again. -/
def dismissed (s : State) (e : Nat) : State :=
  { s.modAtr e (fun a => { a with job := none }) with actxs := s.actxs.map (fun x => (x.1, released e x.2)) }

/-- A job that has ended leaves its engine: what its completion entry finds. -/
def left (s : State) (e st : Nat) : State := ((dismissed s e).addSat (F.ATR_CNT_JOBS e) 1).engFailed e st

theorem effAtrJobComplete_ended {j : AtrJob} {st off : Nat} (h : (vget s.atr e).job = some j) (he : j.ended = some (st, off)) :
    effAtrJobComplete e s = ((left s e st).cplPush e (j.completion e st off s.now)).atrSync e := by
  have h' : (s.eng e).job = some j := h
  unfold effAtrJobComplete
  rw [h']
  dsimp only
  rw [he]
  rfl

theorem engFailed_kept (s : State) (e st : Nat) : (s.engFailed e st).atr = s.atr ∧ (s.engFailed e st).rings = s.rings
    ∧ (s.engFailed e st).actxs = s.actxs := by
  unfold State.engFailed
  split
  · exact ⟨rfl, rfl, rfl⟩
  · simp only [State.raiseIf_frame, State.setFld_frame, State.addSat_frame, and_self]

theorem engFailed_jobs (s : State) (e st : Nat) : (s.engFailed e st).fld (F.ATR_CNT_JOBS e) = s.fld (F.ATR_CNT_JOBS e) := by
  unfold State.engFailed
  split
  · rfl
  · rw [show ∀ u : State, ∀ b n, (u.raiseIf b n).fld (F.ATR_CNT_JOBS e) = u.fld (F.ATR_CNT_JOBS e) from
      fun u b n => by cases b <;> rfl]
    rw [State.fld_setFld_apart _ (F.ATR_LAST_STATUS e) (F.ATR_CNT_JOBS e) _ (Nat.le_of_ble_eq_true rfl)]
    · exact addSat_fld s (F.ATR_CNT_ERRS e) (F.ATR_CNT_JOBS e) 1 (Nat.le_of_ble_eq_true rfl)
        (.inr (.inr (Nat.le_of_ble_eq_true rfl)))
    · refine .inl ?_
      show 0x30001c + 0x10000 * e ≠ 0x300018 + 0x10000 * e
      omega

theorem engFailed_last (s : State) (e : Nat) {st : Nat} (h : st ≠ 0) :
    (s.engFailed e st).fld (F.ATR_LAST_STATUS e) = st % 16 := by
  unfold State.engFailed
  rw [if_neg h, show ∀ u : State, ∀ b n, (u.raiseIf b n).fld (F.ATR_LAST_STATUS e) = u.fld (F.ATR_LAST_STATUS e) from
      fun u b n => by cases b <;> rfl]
  exact State.fld_setFld_same _ _ _ (Nat.le_of_ble_eq_true rfl)

theorem addSat_same (s : State) (f : Fld) (n : Nat) (h : f.ok) : (s.addSat f n).fld f = min (2 ^ f.width - 1) (s.fld f + n) := by
  unfold State.addSat
  rw [State.fld_setFld_same _ _ _ h]
  have hpos : 0 < 2 ^ f.width := Nat.two_pow_pos _
  generalize 2 ^ f.width = m at *
  unfold capNat
  split
  · rw [Nat.mod_eq_of_lt (by omega)]
    omega
  · rw [Nat.mod_eq_of_lt (by omega)]
    omega

theorem left_facts (he : e < 8) (s : State) (st : Nat) : (vget (left s e st).atr e).job = none ∧ (left s e st).rings = s.rings
    ∧ (left s e st).fld (F.ATR_CNT_JOBS e) = min 65535 (s.fld (F.ATR_CNT_JOBS e) + 1)
    ∧ (st ≠ 0 → (left s e st).fld (F.ATR_LAST_STATUS e) = st % 16)
    ∧ ∀ x ∈ (left s e st).actxs, x.2.active ≠ some e := by
  obtain ⟨ha, hr, hc⟩ := engFailed_kept ((dismissed s e).addSat (F.ATR_CNT_JOBS e) 1) e st
  have hj := engFailed_jobs ((dismissed s e).addSat (F.ATR_CNT_JOBS e) 1) e st
  simp only [State.addSat_frame] at ha hr hc
  rw [addSat_same _ _ _ (Nat.le_of_ble_eq_true rfl)] at hj
  refine ⟨?_, hr, hj, engFailed_last _ e, fun x hx => ?_⟩
  · rw [show (left s e st).atr = _ from ha]
    exact congrArg AtrSt.job (atr_modAtr s e _ he)
  · rw [show (left s e st).actxs = _ from hc] at hx
    obtain ⟨y, -, rfl⟩ := List.mem_map.1 hx
    show (released e y.2).active ≠ some e
    unfold released
    split
    · simp
    · next h => exact h

theorem cplPush_ring {n : Nat} {r : Ring} (entry : List Byte) (h : s.unitRing (s.fld (F.ATR_CQ_HANDLE e)) 2 = some (n, r)) :
    s.cplPush e entry = if r.count < r.size
      then ((s.ringAppend n r entry).modAtr e (fun x => { x with parked := none })).clrFlag (F.ATR_STATUS_CPL_HOLD e)
      else (s.modAtr e (fun x => { x with parked := some entry })).setFlag (F.ATR_STATUS_CPL_HOLD e) := by
  unfold State.cplPush
  dsimp only
  rw [h]

theorem cplPush_noRing (entry : List Byte) (h : s.unitRing (s.fld (F.ATR_CQ_HANDLE e)) 2 = none) :
    s.cplPush e entry = ((if s.fld (F.ATR_CQ_HANDLE e) = 0 then s else s.setFlag (F.ATR_STATUS_Q_ERR e)).modAtr e
      (fun x => { x with parked := some entry })).setFlag (F.ATR_STATUS_CPL_HOLD e) := by
  unfold State.cplPush
  dsimp only
  rw [h]

theorem effCplParkedPush_parked {entry : List Byte} (h : (vget s.atr e).parked = some entry) :
    effCplParkedPush e s = s.cplPush e entry := by
  have h' : (s.eng e).parked = some entry := h
  unfold effCplParkedPush
  rw [h']

theorem effCplParkedPush_none (h : (vget s.atr e).parked = none) : effCplParkedPush e s = s := by
  have h' : (s.eng e).parked = none := h
  unfold effCplParkedPush
  rw [h']

theorem effAtrJobComplete_none (h : (vget s.atr e).job = none) : effAtrJobComplete e s = s := by
  have h' : (s.eng e).job = none := h
  unfold effAtrJobComplete
  rw [h']

/-! ### Page blocks: the one needed first -/

/-- The earlier of two blocks, the first where they are needed at the same time. -/
def sooner (a : Option (BandJob × Int)) (x : BandJob × Int) : Option (BandJob × Int) :=
  match a with
  | none => some x
  | some y => if x.2 < y.2 then some x else some y

/-- The block needed strictly first is the one dispatched. -/
theorem foldl_sooner {x : BandJob × Int} (l : List (BandJob × Int)) (a : Option (BandJob × Int))
    (h : ∀ y ∈ l, y ≠ x → x.2 < y.2) (ha : a = some x ∨ x ∈ l ∧ ∀ y, a = some y → y ≠ x → x.2 < y.2) :
    l.foldl sooner a = some x := by
  induction l generalizing a with
  | nil =>
    rcases ha with ha | ⟨hx, -⟩
    · exact ha
    · cases hx
  | cons z r ih =>
    have hz := h z List.mem_cons_self
    refine ih (sooner a z) (fun y hy => h y (List.mem_cons_of_mem _ hy)) ?_
    rcases ha with rfl | ⟨hx, ha⟩
    · left
      refine if_neg fun c => ?_
      by_cases e : z = x
      · rw [e] at c
        omega
      · have := hz e
        omega
    · by_cases e : z = x
      · left
        subst e
        cases a with
        | none => rfl
        | some y =>
          by_cases ey : y = z
          · subst ey
            exact if_neg (Int.lt_irrefl _)
          · exact if_pos (ha y rfl ey)
      · right
        refine ⟨(List.mem_cons.1 hx).resolve_left (Ne.symm e), fun y hy hne => ?_⟩
        cases a with
        | none =>
          obtain rfl : z = y := Option.some.inj hy
          exact hz hne
        | some w =>
          unfold sooner at hy
          dsimp only at hy
          split at hy
          · obtain rfl : z = y := Option.some.inj hy
            exact hz hne
          · obtain rfl : w = y := Option.some.inj hy
            exact ha w rfl hne

/-- A block on its way to an engine. -/
def dispatched (s : State) (b : BandJob) (e : Nat) : State :=
  (State.modAtr { s with fills := s.fills.map (fun f =>
      if f.page = b.page ∧ f.stn = b.stn then { f with next := b.entry + 1, bytes := f.bytes + b.outLen } else f) } e
    (fun a => { a with band := some b })).atrSync e

theorem effPageBlockDispatch_eq : effPageBlockDispatch s =
    match (s.fills.filterMap s.fillNext).foldl sooner none, s.nextEngine with
    | some (b, _), some e => dispatched s b e
    | _, _ => s := rfl

theorem effPageBlockDispatch_none (h : (∀ f ∈ s.fills, s.fillNext f = none) ∨ s.nextEngine = none) :
    effPageBlockDispatch s = s := by
  rw [effPageBlockDispatch_eq]
  rcases h with h | h
  · rw [List.filterMap_eq_nil_iff.2 h]
    rfl
  · rw [h]
    cases (s.fills.filterMap s.fillNext).foldl sooner none <;> rfl

theorem dispatched_facts (he : e < 8) (s : State) (b : BandJob) : (vget (dispatched s b e).atr e).band = some b
    ∧ (dispatched s b e).flag (F.ATR_STATUS_BUSY e) = true ∧ (dispatched s b e).flag (F.ATR_STATUS_BAND e) = true := by
  unfold dispatched
  generalize hu : State.modAtr _ e _ = u
  have hband : (vget u.atr e).band = some b := by
    rw [← hu]
    exact congrArg AtrSt.band (atr_modAtr _ e _ he)
  obtain ⟨h1, h2⟩ := sync_flags u e
  rw [sync_atr]
  rw [hband] at h1 h2
  refine ⟨hband, h1.trans ?_, h2⟩
  rw [Option.isSome_some, Bool.or_true, Bool.true_or]

theorem effPageBlockDispatch_due {b : BandJob} {d : Int} (hm : (b, d) ∈ s.fills.filterMap s.fillNext)
    (hl : ∀ x ∈ s.fills.filterMap s.fillNext, x ≠ (b, d) → d < x.2) (hn : s.nextEngine = some e) :
    effPageBlockDispatch s = dispatched s b e := by
  rw [effPageBlockDispatch_eq, hn, foldl_sooner _ none hl (.inr ⟨hm, fun y hy => absurd hy (by simp)⟩)]

theorem effPageBlockDecoded_none (h : (vget s.atr e).band = none) : effPageBlockDecoded e s = s := by
  have h' : (s.eng e).band = none := h
  unfold effPageBlockDecoded
  rw [h']

section decoded
variable {b : BandJob} (h : (vget s.atr e).band = some b)
include h

/-- The engine off its page block. -/
def unbanded (s : State) (e : Nat) : State := s.modAtr e (fun x => { x with band := none })

theorem effPageBlockDecoded_gone (hp : Tab.get s.pages b.page = none) :
    effPageBlockDecoded e s = (unbanded s e).atrSync e := by
  have h' : (s.eng e).band = some b := h
  have hp' : Tab.get (unbanded s e).pages b.page = none := hp
  unfold unbanded at *
  unfold effPageBlockDecoded
  rw [h']
  dsimp only
  rw [hp']

variable {p : Page} (hp : Tab.get s.pages b.page = some p)
include hp

theorem effPageBlockDecoded_spoiled (hs : p.record.spoilCause ≠ 0) :
    effPageBlockDecoded e s = (unbanded s e).atrSync e := by
  have h' : (s.eng e).band = some b := h
  have hp' : Tab.get (unbanded s e).pages b.page = some p := hp
  unfold unbanded at *
  unfold effPageBlockDecoded
  rw [h']
  dsimp only
  rw [hp']
  dsimp only
  rw [if_pos hs]

/-- The block's entry is read, and either fails or is decoded. -/
theorem effPageBlockDecoded_read (hs : p.record.spoilCause = 0) :
    (∀ t, (unbanded s e).blkEntry p b.entry = (t, none) → effPageBlockDecoded e s = (t.blockFailed e b 7 false).atrSync e)
      ∧ ∀ t en, (unbanded s e).blkEntry p b.entry = (t, some en) →
        effPageBlockDecoded e s = (t.decodePageBlock e b p en).atrSync e := by
  have h' : (s.eng e).band = some b := h
  have hp' : Tab.get (unbanded s e).pages b.page = some p := hp
  unfold unbanded at *
  unfold effPageBlockDecoded
  rw [h']
  dsimp only
  rw [hp']
  dsimp only
  rw [if_neg (not_not_intro hs)]
  refine ⟨fun t hb => ?_, fun t en hb => ?_⟩
  · rw [hb]
  · rw [hb]

end decoded

/-! ### ONLINE and TEST (log entry 113: both in one write) -/

theorem online_of : (F.ATR_CTRL_ONLINE e).of v = 1 ↔ v.getLsbD 0 = true := by
  rw [getLsbD_bits, beq_iff_eq]
  rfl

theorem test_of : (F.ATR_CTRL_TEST e).of v = 1 ↔ v.getLsbD 1 = true := by
  rw [getLsbD_bits, beq_iff_eq]
  rfl

/-- The engine as a TEST in a write finds it. -/
def testing (s : State) (e : Nat) (v : Word) : State :=
  if v.getLsbD 1 = true ∧ s.flag (F.ATR_CTRL_ONLINE e) = false ∧ s.flag (F.ATR_STATUS_BUSY e) = false
  then (s.modAtr e (fun x => { x with testing := true })).atrSync e else s

theorem effAtrCtrl_eq : effAtrCtrl e v s =
    if v.getLsbD 0 = true ∧ s.flag (F.ATR_CTRL_ONLINE e) = false then
      (if s.flag (F.ATR_STATUS_TEST_FAIL e) = true then (testing s e v).setFlag (F.ATR_STATUS_ON_REFUSED e)
       else (testing s e v).setFlag (F.ATR_CTRL_ONLINE e))
    else if ¬ v.getLsbD 0 = true ∧ s.flag (F.ATR_CTRL_ONLINE e) = true then
      (if 1800000000 * (s.engOnline - 1) < s.reservations then (testing s e v).setFlag (F.ATR_STATUS_OFF_REFUSED e)
       else (testing s e v).clrFlag (F.ATR_CTRL_ONLINE e))
    else testing s e v := by
  unfold effAtrCtrl testing
  dsimp only
  simp only [online_of, test_of]

theorem testing_not (h : v.getLsbD 1 = false ∨ s.flag (F.ATR_CTRL_ONLINE e) = true ∨ s.flag (F.ATR_STATUS_BUSY e) = true) :
    testing s e v = s := by
  refine if_neg ?_
  rintro ⟨h1, h2, h3⟩
  rw [h1, h2, h3] at h
  simp at h

/-- A test's end, its flags set. -/
def tested (s : State) (e : Nat) (pass : Bool) : State :=
  ((((s.modAtr e (fun x => { x with testing := false })).atrSync e).setFlag (F.ATR_STATUS_TEST_DONE e)).putFlag
    (F.ATR_STATUS_TEST_PASS e) pass).putFlag (F.ATR_STATUS_TEST_FAIL e) (!pass)

theorem effAtrTestDone_testing {pass : Bool} (h : (vget s.atr e).testing = true) :
    effAtrTestDone e pass s = (tested s e pass).raiseIf (!pass) (177 + 2 * e) := by
  refine if_neg ?_
  rw [show (s.eng e).testing = true from h]
  decide

theorem tested_facts (he : e < 8) (s : State) (pass : Bool) : (tested s e pass).flag (F.ATR_STATUS_TEST_DONE e) = true
    ∧ (tested s e pass).flag (F.ATR_STATUS_TEST_PASS e) = pass ∧ (tested s e pass).flag (F.ATR_STATUS_TEST_FAIL e) = !pass
    ∧ (vget (tested s e pass).atr e).testing = false ∧ (tested s e pass).flt = s.flt := by
  have hatr : (tested s e pass).atr = (s.modAtr e (fun x => { x with testing := false })).atr := by
    unfold tested
    simp only [State.putFlag_frame, State.setFlag_frame]
    exact sync_atr _ e
  have hflt : (tested s e pass).flt = s.flt := by
    unfold tested State.atrSync
    simp only [State.putFlag_frame, State.setFlag_frame, State.modAtr_frame]
  have o1 : (F.ATR_STATUS_TEST_PASS e).ok := Nat.le_of_ble_eq_true rfl
  have o2 : (F.ATR_STATUS_TEST_FAIL e).ok := Nat.le_of_ble_eq_true rfl
  refine ⟨?_, ?_, State.flag_putFlag _ _ _ o2 rfl, ?_, hflt⟩
  · unfold tested
    refine (setFld_flag_apart _ (F.ATR_STATUS_TEST_FAIL e) (F.ATR_STATUS_TEST_DONE e) _ o2 rfl
      (.inr (.inr (Nat.le_of_ble_eq_true rfl)))).trans ?_
    refine (setFld_flag_apart _ (F.ATR_STATUS_TEST_PASS e) (F.ATR_STATUS_TEST_DONE e) _ o1 rfl
      (.inr (.inr (Nat.le_of_ble_eq_true rfl)))).trans ?_
    exact State.flag_setFlag _ _ (Nat.le_of_ble_eq_true rfl) rfl
  · unfold tested
    refine (setFld_flag_apart _ (F.ATR_STATUS_TEST_FAIL e) (F.ATR_STATUS_TEST_PASS e) _ o2 rfl
      (.inr (.inr (Nat.le_of_ble_eq_true rfl)))).trans ?_
    exact State.flag_putFlag _ _ _ o1 rfl
  · rw [hatr]
    exact congrArg AtrSt.testing (atr_modAtr s e _ he)

theorem raiseIf_not (s : State) (pass : Bool) (n : Nat) :
    (s.raiseIf (!pass) n).flt.raised = s.flt.raised ++ (if pass then [] else [n]) := by
  cases pass
  · rfl
  · exact (List.append_nil _).symm

theorem raiseIf_atr (s : State) (b : Bool) (n : Nat) : (s.raiseIf b n).atr = s.atr := by cases b <;> rfl

/-- Settles O48. An unlisted OP goes with DECODE and POS is kept where nothing names it (log entry 51), ERR_OFF of a job
that ended OK is all ones (112), and a write with ONLINE and TEST does both (113): the model's reading. -/
theorem attarEngines : Obligations.AttarEngines := by
  intro s e v pass a next rows sq cq online free
  have he : e.val < 8 := e.isLt
  have hnx : ∀ {a b : State}, a = b → next a = next b := congrArg next
  have hrow : ∀ {k : Nat} {c : Instr} {t : State}, rows[k]? = some c → effAtrJob e.val k s = t → exec c s = next t := by
    intro k c t hc h
    have hk : k < 5 := (List.getElem?_eq_some_iff.1 hc).1
    exact (rows_at s e k hk c hc).trans (congrArg next h)
  refine ⟨fun h => ?busy, fun ⟨hon, hfree⟩ => ⟨fun h => ?noRings, fun ⟨hs, hc, h⟩ => ?badRings, ?takes, ?waits⟩,
    ?runs, ?checks, fun h => hnx (effAtrJobComplete_none h), fun j st off hj hend => ⟨left s e.val st, ?complete⟩,
    fun h => hnx (effCplParkedPush_none h),
    fun entry n r hp hq => ⟨fun hr => hnx ((effCplParkedPush_parked hp).trans ((cplPush_ring entry hq).trans (if_pos hr))),
      fun hr => hnx ((effCplParkedPush_parked hp).trans ((cplPush_ring entry hq).trans (if_neg (Nat.not_lt.2 hr))))⟩,
    fun entry hp hq => hnx ((effCplParkedPush_parked hp).trans (cplPush_noRing entry hq)),
    fun h => hnx (effPageBlockDispatch_none h), fun b d hm hl hn => ⟨_, hnx (effPageBlockDispatch_due hm hl hn), dispatched_facts he s b⟩,
    fun h => hnx (effPageBlockDecoded_none h),
    fun b hb => ⟨fun hp => hnx (effPageBlockDecoded_gone hb hp), fun p hp => ⟨fun hs => hnx (effPageBlockDecoded_spoiled hb hp hs),
      fun t hs hr => hnx ((effPageBlockDecoded_read hb hp hs).1 t hr),
      fun t en hs hr => hnx ((effPageBlockDecoded_read hb hp hs).2 t en hr)⟩⟩,
    ?online, ?offline, ?kept, ?test, fun h => hnx (if_pos h), fun h => ?testDone, ?outb⟩
  case busy =>
    have hb : ¬ ready s e.val := by
      rintro ⟨h0, h1, h2, h3, h4⟩
      rcases h with h | h | h | h | h
      · exact absurd (h0.symm.trans h) (by decide)
      · exact h h1
      · exact h h2
      · exact absurd (h3.symm.trans h) (by decide)
      · exact h h4
    exact jobs_any s e _ fun k _ => congrArg next (effAtrJob_busy hb)
  case noRings => exact jobs_any s e _ fun k _ => congrArg next (effAtrJob_noRings ⟨hon, hfree⟩ h)
  case badRings => exact jobs_any s e _ fun k _ => congrArg next (effAtrJob_badRings ⟨hon, hfree⟩ hs hc h)
  case takes =>
    intro n r t l hs hc hq hcq hn hp head op hb k hk ho c hcr
    exact hrow hcr (effAtrJob_takes ⟨hon, hfree⟩ hs hc hq hcq hn hb ho hp)
  case waits =>
    intro n r t x hs hc hq hcq hp head op k c hcr
    exact ⟨fun h => hrow hcr (effAtrJob_waits ⟨hon, hfree⟩ hs hc hq hcq h),
      fun hn ho hb hx => hrow hcr (effAtrJob_unread ⟨hon, hfree⟩ hs hc hq hcq hn hb ho hp hx)⟩
  case runs =>
    intro n r t l i c hon hfree hs hc hq hcq hn hp head op j u act ends out hb hop hk hx
    have taken : ∀ {k : Nat} {ci : Instr} {t' : State}, rows[k]? = some ci → op = k → t.runJob e.val l = t' →
        exec ci s = next (t'.atrSync e.val) := fun hcr ho h =>
      hrow hcr ((effAtrJob_takes ⟨hon, hfree⟩ hs hc hq hcq hn hb ho hp).trans (congrArg (·.atrSync e.val) h))
    refine ⟨?_, ?_, fun h0 w hl h1 => ?_, fun h0 t2 img hl h1 hf => ?_, fun h0 => ?_⟩
    · intro h0 t2 t3 w hb body px h1 h hok hlen hout h2 hd h3
      exact taken (by rfl) h0 ((runJob_decode rfl hk hx (hop.trans h0) h1 rfl hok hlen hout h2 hd h3).trans (jobEnd_ok _ _ _))
    · intro h0 t2 w chunk last flush hch h1 hist blk hl h2
      exact taken (by rfl) h0 ((runJob_encode rfl hk hx (hop.trans h0) hch h1 hl h2).trans (jobEnd_ok _ _ _))
    · exact taken (by rfl) h0 ((runJob_save rfl hk hx (hop.trans h0) hl h1).trans (jobEnd_ok _ _ _))
    · exact taken (by rfl) h0 ((runJob_load rfl hk hx (hop.trans h0) hl h1 hf).trans (jobEnd_ok _ _ _))
    · exact taken (by rfl) h0 ((runJob_clear rfl hk hx (hop.trans h0)).trans (jobEnd_ok _ _ _))
  case checks =>
    intro l now j
    refine ⟨fun h => jobCheck_malformed h, fun ⟨h5, hr, hf⟩ => ⟨fun h => jobCheck_noCtx h5 hr hf h,
      fun i c h h2 => (jobCheck_ctx h5 hr hf h).trans ?_, fun i c h h4 => (jobCheck_ctx h5 hr hf h).trans ?_,
      fun i c h h2 => ⟨fun h0 => (jobCheck_ctx h5 hr hf h).trans ?_, fun h0 => (jobCheck_ctx h5 hr hf h).trans ?_⟩⟩⟩
    · exact if_pos ⟨by omega, h2.2.2⟩
    · rw [if_neg (by omega), if_neg (by omega), if_pos h4.2]
    · rw [if_neg, if_pos h0]
      rintro ⟨ho, hl⟩
      exact absurd ((h2 (by omega)).symm.trans hl) (by decide)
    · rw [if_neg, if_neg]
      · rintro (⟨ho, he⟩ | ⟨ho, he⟩)
        · exact absurd ((h0.1 ho).symm.trans he) (by decide)
        · exact absurd ((h0.2 ho).symm.trans he) (by decide)
      · rintro ⟨ho, hl⟩
        exact absurd ((h2 (by omega)).symm.trans hl) (by decide)
  case complete => exact ⟨hnx (effAtrJobComplete_ended hj hend), left_facts he s st⟩
  case online =>
    rintro ⟨h0, h1, hf⟩
    have ht : effAtrCtrl e.val v s = _ := effAtrCtrl_eq.trans (if_pos ⟨h0, hf⟩)
    rw [testing_not (.inl h1)] at ht
    exact ⟨fun h => hnx (ht.trans (if_pos h)), fun h => hnx (ht.trans (if_neg (by rw [h]; decide)))⟩
  case offline =>
    rintro ⟨h0, hf⟩
    have ht : effAtrCtrl e.val v s = _ := effAtrCtrl_eq.trans ((if_neg (by rw [h0]; simp)).trans (if_pos ⟨by rw [h0]; decide, hf⟩))
    rw [testing_not (.inr (.inl hf))] at ht
    exact ⟨fun h => hnx (ht.trans (if_pos h)), fun h => hnx (ht.trans (if_neg (Nat.not_lt.2 h)))⟩
  case kept =>
    intro h
    have ht : effAtrCtrl e.val v s = s := by
      have hn : testing s e.val v = s := testing_not (by tauto)
      rw [effAtrCtrl_eq, hn]
      rcases h with ⟨h0, hf⟩ | ⟨h0, -, hf⟩
      · rw [if_neg (by rw [show s.flag (F.ATR_CTRL_ONLINE e.val) = true from hf]; simp), if_neg (by rw [h0]; simp)]
      · rw [if_neg (by rw [h0]; simp), if_neg (by rw [show s.flag (F.ATR_CTRL_ONLINE e.val) = false from hf]; simp)]
    exact ⟨hnx ht, hnx ht, hnx ht⟩
  case test =>
    rintro ⟨h1, hf⟩ tested
    have hf' : s.flag (F.ATR_CTRL_ONLINE e.val) = false := hf
    have hq : ∀ {t : State}, v.getLsbD 0 = false → testing s e.val v = t → exec (.atrTest e v) s = next t := fun h0 ht =>
      hnx (effAtrCtrl_eq.trans ((if_neg (by rw [h0]; simp)).trans ((if_neg (by rw [hf']; simp)).trans ht)))
    refine ⟨fun ⟨h0, hb⟩ => hq h0 (testing_not (.inr (.inr hb))), fun ⟨h0, hb⟩ => hq h0 (if_pos ⟨h1, hf, hb⟩),
      fun ⟨h0, hb⟩ => hnx (effAtrCtrl_eq.trans ((if_pos ⟨h0, hf⟩).trans ?_))⟩
    rw [show testing s e.val v = tested from if_pos ⟨h1, hf, hb⟩]
    exact (apply_ite tested.setFlag _ _ _).symm
  case testDone =>
    obtain ⟨h1, h2, h3, h4, h5⟩ := tested_facts he s pass
    refine ⟨_, hnx (effAtrTestDone_testing h), ?_, ?_, ?_, ?_, ?_⟩
    · rw [Sys2Proof.Laws.Accord.raiseIf_flag, h1]
    · rw [Sys2Proof.Laws.Accord.raiseIf_flag, h2]
    · rw [Sys2Proof.Laws.Accord.raiseIf_flag, h3]
    · rw [raiseIf_atr, h4]
    · rw [raiseIf_not, h5]
  case outb => exact hnx (outb_read s e)

end Sys2Proof.Proofs.AttarJobs
end

