-- ==== Sys2Proof/Proofs/TalLink.lean ====
section
/-!
PROOFS. The Talosh link: training of a port, link packets, and the packets of a device, alone or in a joined pair
(R251 to R261).
-/
namespace Sys2Proof.Proofs.TalLink

open Sys2Proof.Machine
open Sys2Proof.Laws.Writes
open Sys2Proof.Laws.Packets
open Sys2Proof.Laws.Sector (leBytes_ofLe ofLe_lt)

variable {s : State}

/-! ### Training (R251, R252) -/

section training
variable {p : Nat}

theorem effTalRetry_waits (h : s.talState p ≠ 0 ∨ s.flag (F.TAL_PORT_CTRL_EN p) = false
    ∨ ∃ t0, (s.pl p).failedAt = some t0 ∧ s.now < t0 + 10000000) : effTalRetry p s = s := by
  refine if_neg ?_
  rintro ⟨h0, he, hf⟩
  rcases h with h | h | ⟨t0, ht, hlt⟩
  · exact h h0
  · exact absurd (h.symm.trans he) (by decide)
  · rw [ht] at hf
    exact absurd (of_decide_eq_true hf) (Nat.not_le.2 hlt)

theorem effTalRetry_starts (h0 : s.talState p = 0) (he : s.flag (F.TAL_PORT_CTRL_EN p) = true)
    (hf : ∀ t0, (s.pl p).failedAt = some t0 → t0 + 10000000 ≤ s.now) : effTalRetry p s = s.talStart p := by
  refine if_pos ⟨h0, he, ?_⟩
  cases hc : (s.pl p).failedAt with
  | none => rfl
  | some t0 => exact decide_eq_true (hf t0 hc)

/-- LOCK gives a width on lane 0 alone. -/
theorem lockWidth_none {lanes : Nat} (h : lanes % 2 = 0) : lockWidth lanes = none := by
  unfold lockWidth
  rw [if_neg (by omega), if_neg (by omega), if_neg (by omega)]

theorem lockWidth_some {lanes : Nat} (hlt : lanes < 16) (h : lanes % 2 = 1) :
    lockWidth lanes = some (if lanes = 15 then 2 else if lanes % 4 = 3 then 1 else 0) := by
  unfold lockWidth
  rw [Nat.mod_eq_of_lt hlt, if_pos h]
  split
  · rfl
  · split <;> rfl

section step
variable {lanes : Nat}

theorem effTalStep_late (h : s.talState p = 1 ∨ s.talState p = 2) (hl : s.stepLate p (s.talState p) = true) :
    effTalStep p lanes s = effTalTimeout p s :=
  if_pos ⟨h, hl⟩

theorem not_late (hl : s.stepLate p (s.talState p) = false) :
    ¬((s.talState p = 1 ∨ s.talState p = 2) ∧ s.stepLate p (s.talState p) = true) :=
  fun c => absurd (hl.symm.trans c.2) (by decide)

/-- LOCK completes with a width, or goes on. -/
def locked (s : State) (p : Nat) : Option Nat → State
  | some w => (s.setTalState p 2).modLink p (fun k => { k with width := w, stepAt := s.now })
  | none => s

theorem effTalStep_lock (h : s.talState p = 1) (hl : s.stepLate p (s.talState p) = false) :
    effTalStep p lanes s = locked s p (lockWidth lanes) := by
  refine (if_neg (not_late hl)).trans ((if_pos h).trans ?_)
  cases lockWidth lanes <;> rfl

theorem effTalStep_locked (h : s.talState p = 1) (hl : s.stepLate p (s.talState p) = false) (hlt : lanes < 16)
    (hm : lanes % 2 = 1) :
    effTalStep p lanes s = locked s p (some (if lanes = 15 then 2 else if lanes % 4 = 3 then 1 else 0)) :=
  (effTalStep_lock h hl).trans (congrArg (locked s p) (lockWidth_some hlt hm))

theorem effTalStep_dark (h : s.talState p = 1) (hl : s.stepLate p (s.talState p) = false) (hm : lanes % 2 = 0) :
    effTalStep p lanes s = s :=
  (effTalStep_lock h hl).trans (congrArg (locked s p) (lockWidth_none hm))

/-- DESKEW completes: the link offers its credits. -/
def deskewed (s : State) (p : Nat) : State :=
  (s.setTalState p 3).modLink p (fun k => { k.cleared with
    granted := Credits.offer, tryT2 := k.tryT2, width := k.width, stepAt := s.now, linkOut := [⟨0x30, 0, 0, 0, 0, 0, []⟩] })

theorem locked_facts (hp : p < 3) (w : Nat) :
    (locked s p (some w)).talState p = 2 ∧ ((locked s p (some w)).pl p).width = w := by
  obtain ⟨h2, -⟩ := sts p s 2 (by decide)
  unfold State.talState locked
  dsimp only
  generalize s.setTalState p 2 = u at *
  exact ⟨h2, congrArg LinkSt.width (lk u p _ hp)⟩

theorem deskewed_facts (hp : p < 3) : (deskewed s p).talState p = 3
    ∧ ((deskewed s p).pl p).granted = ⟨64, 1024, 32, 0, 64, 1024⟩ ∧ ((deskewed s p).pl p).width = (s.pl p).width := by
  obtain ⟨h3, -, hlinks, -⟩ := sts p s 3 (by decide)
  unfold State.talState deskewed
  generalize s.setTalState p 3 = u at *
  refine ⟨h3, congrArg LinkSt.granted (lk u p _ hp), (congrArg LinkSt.width (lk u p _ hp)).trans ?_⟩
  unfold State.pl
  rw [hlinks]

theorem effTalStep_deskew (h : s.talState p = 2) (hl : s.stepLate p (s.talState p) = false) :
    effTalStep p lanes s = deskewed s p :=
  (if_neg (not_late hl)).trans ((if_neg (by omega)).trans (if_pos h))

theorem effTalStep_still (h1 : s.talState p ≠ 1) (h2 : s.talState p ≠ 2) : effTalStep p lanes s = s :=
  (if_neg fun c => c.1.elim h1 h2).trans ((if_neg h1).trans (if_neg h2))

end step

theorem effTalTimeout_early (h : s.stepOut p (s.talState p) = false ∨ s.talState p = 0 ∨ 4 ≤ s.talState p) :
    effTalTimeout p s = s := by
  by_cases hd : s.stepOut p (s.talState p) = false
  · exact if_pos hd
  · have h4 := h.resolve_left hd
    exact (if_neg hd).trans ((if_neg (by omega)).trans (if_neg (by omega)))

theorem effTalTimeout_second (hd : s.stepOut p (s.talState p) = true) (h : s.talState p = 1
    ∧ s.fld (F.TAL_PORT_CTRL_GEN p) = 0 ∧ (s.pl p).tryT2 = false) :
    effTalTimeout p s = s.modLink p (fun k => { k with tryT2 := true, stepAt := s.now }) :=
  (if_neg (by rw [hd]; decide)).trans (if_pos h)

theorem effTalTimeout_fails (hd : s.stepOut p (s.talState p) = true) (h1 : 1 ≤ s.talState p) (h3 : s.talState p ≤ 3)
    (hn : s.talState p = 1 → s.fld (F.TAL_PORT_CTRL_GEN p) ≠ 0 ∨ (s.pl p).tryT2 = true) :
    effTalTimeout p s = s.talFail p := by
  refine (if_neg (by rw [hd]; decide)).trans ((if_neg ?_).trans (if_pos ⟨h1, h3⟩))
  rintro ⟨c1, c2, c3⟩
  rcases hn c1 with hn | hn
  · exact hn c2
  · exact absurd (c3.symm.trans hn) (by decide)

/-- A state that a port can reach fits its field. -/
theorem talState_lt (s : State) (p : Nat) : s.talState p < 8 := bits_lt _ _ 3

/-- A failed step brings the port down and says which step it was. -/
theorem talFail_facts (p : Fin 2) (s : State) : (s.talFail p.val).talState p.val = 0
    ∧ (s.talFail p.val).fld (F.TAL_PORT_STATUS_FAILSTEP p.val) = s.talState p.val
    ∧ ((s.talFail p.val).pl p.val).failedAt = some s.now
    ∧ (s.talFail p.val).flt.raised = s.flt.raised ++ [216 + p.val] := by
  obtain ⟨h1, h2, h3, h4, -⟩ := down p
    ((s.setFld (F.TAL_PORT_STATUS_FAILSTEP p.val) (s.talState p.val)).raise (216 + p.val)) (some s.now)
  refine ⟨h1, h4.trans ?_, h2, congrArg FltSt.raised h3⟩
  exact (State.fld_setFld_same s (F.TAL_PORT_STATUS_FAILSTEP p.val) _ (Nat.le_of_ble_eq_true rfl)).trans
    (Nat.mod_eq_of_lt (talState_lt s p.val))

/-- Credits given back change of a link what it grants and what it sends. -/
theorem giveCredits_link {α : Type} (g : LinkSt → α) (hg : ∀ (k : LinkSt) a b, g { k with granted := a, linkOut := b } = g k)
    (s : State) (l : List Queued) {k : Nat} (hk : k < 3) : g ((s.giveCredits l).pl k) = g (s.pl k) :=
  each_keeps (fun x : State => g (x.pl k)) _ _ _ fun t q => by
    cases q.port with
    | none => rfl
    | some o =>
      by_cases e : o = k
      · subst e
        exact (congrArg g (lk t o _ hk)).trans (hg _ _ _)
      · exact congrArg g (vget_vmod_ne _ _ e)

/-- A link that goes down holds no packets. -/
theorem talDown_empty {p : Nat} (hp : p < 3) (s : State) (x : Option Nat) :
    ((s.talDown p x).pl p).replay = [] ∧ ((s.talDown p x).pl p).waiting = [] := by
  refine ⟨(giveCredits_link LinkSt.replay (fun _ _ _ => rfl) _ _ hp).trans ?_,
    (giveCredits_link LinkSt.waiting (fun _ _ _ => rfl) _ _ hp).trans ?_⟩
  · rw [lk _ _ _ hp]
    rfl
  · rw [lk _ _ _ hp]
    rfl

theorem talLose_facts (p : Fin 2) (s : State) : (s.talLose p.val).talState p.val = 0
    ∧ (s.talLose p.val).flag (F.TAL_PORT_STATUS_LOST p.val) = true
    ∧ ((s.talLose p.val).pl p.val).replay = [] ∧ ((s.talLose p.val).pl p.val).waiting = []
    ∧ (s.talLose p.val).flt.raised = s.flt.raised ++ [216 + p.val] := by
  obtain ⟨h1, -, h3, -, h5⟩ := down p ((s.setFlag (F.TAL_PORT_STATUS_LOST p.val)).raise (216 + p.val)) (some s.now)
  obtain ⟨h6, h7⟩ := talDown_empty (p := p.val) (by omega)
    ((s.setFlag (F.TAL_PORT_STATUS_LOST p.val)).raise (216 + p.val)) (some s.now)
  have h8 : (s.setFlag (F.TAL_PORT_STATUS_LOST p.val)).flag (F.TAL_PORT_STATUS_LOST p.val) = true :=
    State.flag_setFlag s _ (Nat.le_of_ble_eq_true rfl) rfl
  exact ⟨h1, (h5.trans (raise_flag _ _ _)).trans h8, h6, h7, congrArg FltSt.raised h3⟩

theorem effTalLaneLoss_lost {ns : Nat} (h : s.talState p = 4) (hn : 1000 < ns) : effTalLaneLoss p ns s = s.talLose p :=
  (if_pos h).trans (if_pos hn)

theorem effTalLaneLoss_still {ns : Nat} (h : s.talState p = 4 ∧ ns ≤ 1000 ∨ s.talState p = 0) :
    effTalLaneLoss p ns s = s := by
  by_cases h4 : s.talState p = 4
  · exact (if_pos h4).trans (if_neg (by omega))
  · exact (if_neg h4).trans (if_pos (by omega))

theorem effTalLaneLoss_training {ns : Nat} (h1 : 1 ≤ s.talState p) (h3 : s.talState p ≤ 3) :
    effTalLaneLoss p ns s = s.talFail p :=
  (if_neg (by omega)).trans (if_neg (by omega))

section control
variable {v : Word} (hg : bits v.toNat 1 2 ≠ 3) (hm : bits v.toNat 3 2 ≠ 3)

theorem effTalCtrl_refused (h : bits v.toNat 1 2 = 3 ∨ bits v.toNat 3 2 = 3) : effTalCtrl p v s = s := if_pos h

include hg hm

theorem effTalCtrl_off (h0 : bits v.toNat 0 1 = 0) : effTalCtrl p v s
    = if s.talState p = 0 then s.plainWrite (R.TAL_PORT_CTRL p) v
      else (s.plainWrite (R.TAL_PORT_CTRL p) v).talDown p (some s.now) :=
  (if_neg (not_or.2 ⟨hg, hm⟩)).trans (if_pos h0)

theorem effTalCtrl_on (h1 : bits v.toNat 0 1 = 1) : effTalCtrl p v s
    = if bits v.toNat 5 1 = 1 then ((s.plainWrite (R.TAL_PORT_CTRL p) v).talDown p none).talStart p
      else if s.talState p = 0 ∧ (s.pl p).failedAt = none then (s.plainWrite (R.TAL_PORT_CTRL p) v).talStart p
      else s.plainWrite (R.TAL_PORT_CTRL p) v :=
  (if_neg (not_or.2 ⟨hg, hm⟩)).trans (if_neg (show ¬bits v.toNat 0 1 = 0 by omega))

end control

end training

/-! ### Link packets (R251, R256, R257) -/

section linkPackets
variable {l gen width : Nat} {q : PktIn} {c : Credits} {f : State → State}

theorem recvLink_bad (h : q.crcOk l = false) : s.recvLink l q f = s.discardPkt l := if_pos h

theorem recvLink_reserved (h : q.crcOk l = true) (hr : q.reserved = true) : s.recvLink l q f = s.protoError l :=
  (if_neg (by rw [h]; decide)).trans (if_pos hr)

theorem effCaps_port (hl : l < 2) : effCaps l q gen width c s = if s.talState l = 3 ∨ s.linkUp l = true then
    s.recvLink l q (fun t => if t.talState l = 3 then t.talUp l gen width c else t) else s :=
  if_pos hl

/-- A port that NEGOTIATE brings up has the state 4, the partner's credits, and the lower offers. -/
theorem talUp_facts (hl : l < 2) (hw : width < 4) : (s.talUp l gen width c).talState l = 4
    ∧ (s.talUp l gen width c).flag (F.TAL_PORT_STATUS_UP l) = true
    ∧ ((s.talUp l gen width c).pl l).credit = c
    ∧ (s.talUp l gen width c).fld (F.TAL_PORT_STATUS_GENUP l) = min gen (s.talGen l)
    ∧ (s.talUp l gen width c).fld (F.TAL_PORT_STATUS_WIDTH l) = if min gen (s.talGen l) = 1 then 0
      else min (min width (s.pl l).width) (s.fld (F.TAL_PORT_CTRL_MAXW l)) := by
  have okg : (F.TAL_PORT_STATUS_GENUP l).ok := Nat.le_of_ble_eq_true rfl
  have okw : (F.TAL_PORT_STATUS_WIDTH l).ok := Nat.le_of_ble_eq_true rfl
  have okn : (F.TAL_PORT_STATUS_NARROW l).ok := Nat.le_of_ble_eq_true rfl
  have hgen : min gen (s.talGen l) < 4 := by
    refine Nat.lt_of_le_of_lt (Nat.min_le_right _ _) ?_
    unfold State.talGen
    split
    · split <;> decide
    · exact bits_lt _ _ 2
  have hwid : (if min gen (s.talGen l) = 1 then 0
      else min (min width (s.pl l).width) (s.fld (F.TAL_PORT_CTRL_MAXW l))) < 4 := by
    split
    · decide
    · exact Nat.lt_of_le_of_lt ((Nat.min_le_left _ _).trans (Nat.min_le_left _ _)) hw
  obtain ⟨h1, h2, -⟩ := sts l s 4 (by decide)
  unfold State.talUp State.talState
  dsimp only
  generalize min gen (s.talGen l) = g at *
  generalize (if g = 1 then 0 else min (min width (s.pl l).width) (s.fld (F.TAL_PORT_CTRL_MAXW l))) = w at *
  generalize decide (w < s.fld (F.TAL_PORT_CTRL_MAXW l)) = narrow
  generalize s.setTalState l 4 = u at *
  unfold State.putFlag
  refine ⟨?_, ?_, congrArg LinkSt.credit (lk _ l _ (by omega)), ?_, ?_⟩
  · rw [link_fld, State.fld_setFld_apart _ _ _ _ okn (.inr (.inr (Nat.le_of_ble_eq_true rfl))),
      State.fld_setFld_apart _ _ _ _ okw (.inr (.inr (Nat.le_of_ble_eq_true rfl))),
      State.fld_setFld_apart _ _ _ _ okg (.inr (.inr (Nat.le_of_ble_eq_true rfl))), h1]
  · rw [link_flag, setFld_flag_apart _ _ _ _ okn rfl (.inr (.inr (Nat.le_of_ble_eq_true rfl))),
      setFld_flag_apart _ _ _ _ okw rfl (.inr (.inr (Nat.le_of_ble_eq_true rfl))),
      setFld_flag_apart _ _ _ _ okg rfl (.inr (.inr (Nat.le_of_ble_eq_true rfl))), h2]
    rfl
  · rw [link_fld, State.fld_setFld_apart _ _ _ _ okn (.inr (.inr (Nat.le_of_ble_eq_true rfl))),
      State.fld_setFld_apart _ _ _ _ okw (.inr (.inr (Nat.le_of_ble_eq_true rfl))), State.fld_setFld_same _ _ _ okg]
    exact Nat.mod_eq_of_lt hgen
  · rw [link_fld, State.fld_setFld_apart _ _ _ _ okn (.inr (.inr (Nat.le_of_ble_eq_true rfl))),
      State.fld_setFld_same _ _ _ okw]
    exact Nat.mod_eq_of_lt hwid

theorem effCaps_accord : effCaps 2 q gen width c s = if s.acdState = 3 then
    s.recvLink 2 q (fun t => t.modLink 2 (fun k => { k with credit := c })) else s :=
  if_neg (by decide)

/-- The other link packets: what each does to the link when it is taken. -/
def linkRows (l : LinkId) (q : PktIn) (c : Credits) : List (Instr × (State → State)) :=
  [(.talCredit l q c, fun t => (t.modLink l.idx (fun k =>
      { k with credit := ((k.credit.add 0 c.ph c.pd).add 1 c.nh c.nd).add 2 c.ch c.cd })).drainLink l.idx),
    (.ack l q, fun t => t.ackUpTo l.idx (q.pkt.addr % 4096)),
    (.nak l q, fun t => (t.ackUpTo l.idx (q.pkt.addr % 4096)).replayAll l.idx)]

/-- A link that takes no packets ignores them; one that does receives them. -/
theorem exec_linkRow {l : LinkId} {x : Instr × (State → State)} (h : x ∈ linkRows l q c) : exec x.1 s
    = .next (State.finish (if s.linkHears l.idx = false then s else s.recvLink l.idx q x.2)) := by
  simp only [linkRows, List.mem_cons, List.not_mem_nil, or_false] at h
  rcases h with rfl | rfl | rfl <;> rfl

theorem effReplayTimeout_deaf (h : s.linkHears l = false) : effReplayTimeout l s = s :=
  if_neg fun c => absurd (h.symm.trans c.1) (by decide)

theorem replayAll_none (h : (s.pl l).replay = []) : s.replayAll l = s := if_pos (by rw [h]; rfl)

theorem replayAll_lost (h : (s.pl l).replay ≠ []) (h4 : 4 ≤ (s.pl l).replays) : s.replayAll l = s.linkLose l :=
  (if_neg (mt List.isEmpty_iff.1 h)).trans (if_pos h4)

theorem replayAll_again (hl : l < 3) (h : (s.pl l).replay ≠ []) (h4 : (s.pl l).replays < 4) :
    ((s.replayAll l).pl l).replay = (s.pl l).replay
    ∧ ((s.replayAll l).pl l).replayCnt = min 4095 ((s.pl l).replayCnt + 1) := by
  have e : s.replayAll l = s.modLink l (fun x => { x with
      wire := x.replay.flatMap (fun p => p.blocks l x.width)
      replays := x.replays + 1, lastAck := s.now, replayCnt := capNat 0xFFF (x.replayCnt + 1) }) :=
    (if_neg (mt List.isEmpty_iff.1 h)).trans (if_neg (Nat.not_le.2 h4))
  rw [e, lk _ _ _ hl]
  refine ⟨rfl, ?_⟩
  show capNat 4095 _ = _
  unfold capNat
  split <;> omega

end linkPackets

/-! ### Packets (R253 to R260) -/

section packets
variable {q : PktIn} {type l : Nat} {f : State → State}

/-- The packet holds what its sequence number and its trailer say. -/
def SeqOk (s : State) (l : Nat) (q : PktIn) : Prop := q.crcOk l = true ∧ q.pkt.seq % 4096 = (s.pl l).rxSeq

/-- The packet breaks no rule of the link. -/
def Legal (s : State) (l : Nat) (q : PktIn) : Prop := q.reserved = false ∧ typeKnown l q.pkt.type = true
  ∧ (s.pl l).granted.covers (pktClass l q.pkt.type) (pktCost q.pkt) = true

theorem recvPkt_deaf (h : s.linkHears l = false) : s.recvPkt l q f = s := if_pos h

theorem recvPkt_discarded (h : s.linkHears l = true) (hs : ¬SeqOk s l q) : s.recvPkt l q f = s.discardPkt l := by
  refine (if_neg (by rw [h]; decide)).trans (if_pos ?_)
  by_cases hc : q.crcOk l = false
  · exact .inl hc
  · exact .inr fun he => hs ⟨Bool.eq_true_of_not_eq_false hc, he⟩

theorem recvPkt_broken (h : s.linkHears l = true) (hs : SeqOk s l q) (hl : ¬Legal s l q) :
    s.recvPkt l q f = s.protoError l := by
  refine (if_neg (by rw [h]; decide)).trans ((if_neg ?_).trans (if_pos ?_))
  · rintro (c | c)
    · exact absurd (c.symm.trans hs.1) (by decide)
    · exact c hs.2
  · by_contra hn
    obtain ⟨h1, h2⟩ := not_or.1 hn
    obtain ⟨h2, h3⟩ := not_or.1 h2
    exact hl ⟨Bool.eq_false_of_not_eq_true h1, Bool.eq_true_of_not_eq_false h2, Bool.eq_true_of_not_eq_false h3⟩

theorem recvPkt_taken (h : s.linkHears l = true) (hs : SeqOk s l q) (hl : Legal s l q) :
    s.recvPkt l q f = f (s.modLink l (rxf l q)) := by
  obtain ⟨h1, h2⟩ := hs
  obtain ⟨h3, h4, h5⟩ := hl
  exact recv_of s l q f h h1 h2 h3 h4 h5

/-- The instructions that bring a packet to TU, with their types. -/
def rows (q : PktIn) : List (Nat × Instr) := [(1, .regWr q), (2, .regRd q), (4, .memWr q), (5, .memRd q), (9, .dataPkt q)]

theorem exec_row {x : Nat × Instr} (h : x ∈ rows q) : exec x.2 s = .next (effTuPacket x.1 q s).finish := by
  simp only [rows, List.mem_cons, List.not_mem_nil, or_false] at h
  rcases h with rfl | rfl | rfl | rfl | rfl <;> rfl

theorem tuRow_own (p : Pkt) : tuRow p.type p = true := by
  unfold tuRow
  rw [beq_self_eq_true, Bool.true_or]

theorem effTuPacket_other (h : tuRow type q.pkt = false) : effTuPacket type q s = s := if_neg (by rw [h]; decide)

theorem effTuPacket_row (h : tuRow type q.pkt = true) :
    effTuPacket type q s = s.recvPkt 0 q (fun t => t.routeTu q.pkt) :=
  if_pos h

end packets

/-! The bytes of a packet without an error are those that its fields spell. -/

theorem leBytes_four {l : List Byte} (h : l.length = 4) : leBytes 4 (ofLe l) = l := by
  rw [← h]
  exact leBytes_ofLe l

theorem header_low {w : Nat} (h : w < 2 ^ 32) (h1 : bits w 12 4 = 0) (h2 : bits w 29 3 = 0) :
    w % 64 % 64 + bits w 6 6 % 64 * 2 ^ 6 + bits w 16 13 % 2 ^ 13 * 2 ^ 16 = w := by
  unfold bits at *
  omega

theorem header_high {x : Nat} (h : x < 2 ^ 32) (h1 : bits x 28 4 = 0) :
    x % 2 ^ 16 % 2 ^ 16 + bits x 16 12 % 2 ^ 12 * 2 ^ 16 = x := by
  unfold bits at *
  omega

theorem ofLe_word_lt {l : List Byte} (h : l.length = 4) : ofLe l < 2 ^ 32 := by
  have := ofLe_lt l
  rw [h] at this
  exact this

/-- A header without reserved bits is the one that its fields spell. -/
theorem ofBytes_header {b : List Byte} (h20 : 20 ≤ b.length) (r1 : bits (entLe b 0 4) 12 4 = 0)
    (r2 : bits (entLe b 0 4) 29 3 = 0) (r3 : bits (entLe b 4 4) 28 4 = 0) :
    leBytes 4 ((Pkt.ofBytes b).type % 64 + (Pkt.ofBytes b).dev % 64 * 2 ^ 6 + (Pkt.ofBytes b).len % 2 ^ 13 * 2 ^ 16)
      ++ leBytes 4 ((Pkt.ofBytes b).tag % 2 ^ 16 + (Pkt.ofBytes b).seq % 2 ^ 12 * 2 ^ 16)
      ++ leBytes 8 (Pkt.ofBytes b).addr ++ (Pkt.ofBytes b).payload = b.take (b.length - 4) := by
  have l1 : ((b.drop 0).take 4).length = 4 := by simp; omega
  have l2 : ((b.drop 4).take 4).length = 4 := by simp; omega
  have l3 : ((b.drop 8).take 8).length = 8 := by simp; omega
  have w1 : (Pkt.ofBytes b).type % 64 + (Pkt.ofBytes b).dev % 64 * 2 ^ 6 + (Pkt.ofBytes b).len % 2 ^ 13 * 2 ^ 16
      = ofLe ((b.drop 0).take 4) := header_low (ofLe_word_lt l1) r1 r2
  have w2 : (Pkt.ofBytes b).tag % 2 ^ 16 + (Pkt.ofBytes b).seq % 2 ^ 12 * 2 ^ 16 = ofLe ((b.drop 4).take 4) :=
    header_high (ofLe_word_lt l2) r3
  have w3 : leBytes 8 (Pkt.ofBytes b).addr = (b.drop 8).take 8 := by
    have h := leBytes_ofLe ((b.drop 8).take 8)
    rw [l3] at h
    exact h
  rw [w1, w2, w3, leBytes_four l1, leBytes_four l2]
  have hp : (Pkt.ofBytes b).payload = (b.drop 16).take (b.length - 20) := rfl
  have t8 : b.take 8 = b.take 4 ++ (b.drop 4).take 4 := List.take_add (l := b) (i := 4) (j := 4)
  have t16 : b.take 16 = b.take 8 ++ (b.drop 8).take 8 := List.take_add (l := b) (i := 8) (j := 8)
  have tall : b.take (b.length - 4) = b.take 16 ++ (b.drop 16).take (b.length - 20) := by
    rw [← List.take_add, show 16 + (b.length - 20) = b.length - 4 by omega]
  rw [hp, List.drop_zero, tall, t16, t8]

/-- The trailer is the checksum of what stands before it, so the bytes are those of the packet. -/
theorem pkt_bytes {q : PktIn} {l : Nat} (hc : q.crcOk l = true) (hr : q.reserved = false) : q.pkt.bytes = q.bytes := by
  obtain ⟨hlen, hcrc⟩ := Bool.and_eq_true_iff.1 hc
  have hlen : q.bytes.length = 20 + q.pkt.carried l := eq_of_beq hlen
  have hcrc : entLe q.bytes (q.bytes.length - 4) 4 = crc32c (q.bytes.take (q.bytes.length - 4)) := eq_of_beq hcrc
  obtain ⟨hr, r3⟩ := Bool.or_eq_false_iff.1 hr
  obtain ⟨r1, r2⟩ := Bool.or_eq_false_iff.1 hr
  have hl4 : ((q.bytes.drop (q.bytes.length - 4)).take 4).length = 4 := by simp; omega
  have htake : (q.bytes.drop (q.bytes.length - 4)).take 4 = q.bytes.drop (q.bytes.length - 4) :=
    List.take_of_length_le (by simp; omega)
  have hheader := ofBytes_header (b := q.bytes) (by omega) (bne_eq_false_iff_eq.1 r1) (bne_eq_false_iff_eq.1 r2)
    (bne_eq_false_iff_eq.1 r3)
  unfold PktIn.pkt Pkt.bytes
  dsimp only
  rw [hheader, ← hcrc]
  unfold entLe
  rw [leBytes_four hl4, htake]
  exact List.take_append_drop _ _

/-! ### What a packet for this device does (R254, R272) -/

section perform
variable {p : Pkt} {port : Nat}

section regWr
variable (hlen : regLenOk p.payload.length = true) (hmap : regsMapped p.addr p.payload.length = true)

theorem doRegWr_bad (h : regLenOk p.payload.length = false ∨ regsMapped p.addr p.payload.length = false) :
    s.doRegWr port p = s.pktFailed port := by
  by_cases h1 : regLenOk p.payload.length = false
  · exact if_pos h1
  · exact (if_neg h1).trans (if_pos (h.resolve_left h1))

include hlen hmap

theorem doRegWr_misaligned (h : p.addr % 4 ≠ 0) : s.doRegWr port p = (s.raise 6).pktFailed port :=
  (if_neg (by rw [hlen]; decide)).trans ((if_neg (by rw [hmap]; decide)).trans (if_pos h))

theorem doRegWr_done (h : p.addr % 4 = 0) : s.doRegWr port p = s.each (List.range (p.payload.length / 4)) (fun t i =>
    (t.regAccess true (p.addr - regBase + 4 * i) 4 true (BitVec.ofNat 32 (entLe p.payload (4 * i) 4))).1) :=
  (if_neg (by rw [hlen]; decide)).trans ((if_neg (by rw [hmap]; decide)).trans (if_neg (not_not_intro h)))

end regWr

section regRd

theorem doRegRd_length (h : regLenOk p.len = false) : s.doRegRd true p = s.sendHost 3 p.tag 3 [] := if_pos h

variable (hlen : regLenOk p.len = true)
include hlen

theorem doRegRd_unmapped (h : regsMapped p.addr p.len = false) : s.doRegRd true p = s.sendHost 3 p.tag 1 [] :=
  (if_neg (by rw [hlen]; decide)).trans (if_pos h)

variable (hmap : regsMapped p.addr p.len = true)
include hmap

theorem doRegRd_misaligned (h : p.addr % 4 ≠ 0) : s.doRegRd true p = (s.raise 6).sendHost 3 p.tag 3 [] :=
  (if_neg (by rw [hlen]; decide)).trans ((if_neg (by rw [hmap]; decide)).trans (if_pos h))

theorem doRegRd_done (h : p.addr % 4 = 0) : s.doRegRd true p
    = (s.readRegs (p.addr - regBase) (p.len / 4)).1.sendHost 3 p.tag 0 (s.readRegs (p.addr - regBase) (p.len / 4)).2 :=
  (if_neg (by rw [hlen]; decide)).trans ((if_neg (by rw [hmap]; decide)).trans (if_neg (not_not_intro h)))

end regRd

/-- A write to memory that is refused. -/
def BadWrite (s : State) (p : Pkt) : Prop :=
  p.payload.length % 4 ≠ 0 ∨ 4096 < p.payload.length ∨ s.inDram p.addr p.payload.length = false

theorem doMemWr_bad (h : BadWrite s p) : s.doMemWr port p = s.pktFailed port := if_pos h

theorem doMemWr_done (h : ¬BadWrite s p) : s.doMemWr port p
    = if (s.memWriteWords reqTalosh p.addr p.payload).2 = true then
        (s.memWriteWords reqTalosh p.addr p.payload).1.pktFailed port
      else (s.memWriteWords reqTalosh p.addr p.payload).1 := by
  refine (if_neg h).trans ?_
  generalize s.memWriteWords reqTalosh p.addr p.payload = r
  obtain ⟨t, b⟩ := r
  cases b <;> rfl

/-- A read of memory that is refused for its range. -/
def BadRead (p : Pkt) : Prop :=
  p.len % 4 ≠ 0 ∨ p.addr % 4 ≠ 0 ∨ p.len < 4 ∨ 4096 < p.len ∨ 4096 < p.addr % 4096 + p.len

theorem badRead_iff (p : Pkt) : BadRead p
    ↔ (p.len % 4 ≠ 0 ∨ p.addr % 4 ≠ 0 ∨ inRange 4 4096 p.len = false ∨ 4096 < p.addr % 4096 + p.len) := by
  have h : inRange 4 4096 p.len = false ↔ p.len < 4 ∨ 4096 < p.len := by
    unfold inRange
    rw [Bool.and_eq_false_iff, decide_eq_false_iff_not, decide_eq_false_iff_not, Nat.not_le, Nat.not_le]
  unfold BadRead
  rw [h, or_assoc]

theorem doMemRd_bad (h : BadRead p) : s.doMemRd true p = s.sendHost 6 p.tag 3 [] := if_pos ((badRead_iff p).1 h)

theorem doMemRd_nowhere (h : ¬BadRead p) (hr : ¬(s.region p.addr = .dram ∨ s.region p.addr = .mram)) :
    s.doMemRd true p = s.sendHost 6 p.tag 1 [] :=
  (if_neg (mt (badRead_iff p).2 h)).trans (if_pos (not_or.1 hr))

/-- The answer to a read of memory. -/
def memAnswer (tag : Nat) : State × MemRead → State
  | (t, .data l) => t.sendHost 6 tag 0 l
  | (t, .unmapped) => t.sendHost 6 tag 1 []
  | (t, .ecc _) => t.sendHost 6 tag 2 []

theorem doMemRd_done (h : ¬BadRead p) (hr : s.region p.addr = .dram ∨ s.region p.addr = .mram) :
    s.doMemRd true p = memAnswer p.tag (s.memRead reqTalosh p.addr p.len) := by
  refine (if_neg (mt (badRead_iff p).2 h)).trans ((if_neg fun c => hr.elim c.1 c.2).trans ?_)
  generalize s.memRead reqTalosh p.addr p.len = r
  obtain ⟨t, a⟩ := r
  cases a <;> rfl

/-- The command of the storage queue that DATA of a tag belongs to. -/
def dataCmd (s : State) (tag : Nat) : Option StqCmd :=
  s.stq.cmds.find? (fun x => x.accepted && x.opc == 1 && !x.local_ && x.ended == none && x.xtag == tag)

section data
variable {tag off : Nat} {l : List Byte} {c : StqCmd}

theorem stqData_none (h : dataCmd s tag = none) :
    s.stqData tag off l = if s.stq.deadTags.contains tag then s else s.raise 229 := by
  unfold State.stqData
  rw [show List.find? _ s.stq.cmds = none from h]

/-- DATA of a command: outside its offers or over bytes received before, it ends the command. -/
def dataTaken (s : State) (c : StqCmd) (off : Nat) (l : List Byte) : State :=
  if l.isEmpty then s
  else if 4096 * c.offered < off + l.length
      ∨ c.got.any (fun r => decide (r.1 < off + l.length) && decide (off < r.1 + r.2)) = true then s.xferEnd c
  else ((((s.dataToSlots c off l).modCmd c.aseq (fun k => { k with
    got := k.got ++ [(off, l.length)], offers := k.offers.map (Offer.receive off l.length) })).stageArrived
      c.aseq).stqOffer c.aseq).checkWrite c.aseq

theorem stqData_some (h : dataCmd s tag = some c) : s.stqData tag off l = dataTaken s c off l := by
  unfold State.stqData
  rw [show List.find? _ s.stq.cmds = some c from h]
  rfl

end data

theorem perform_regWr {b : Bool} (h : p.type = 1) : s.perform port b p = s.doRegWr port p := by
  unfold State.perform
  rw [h]
  rfl

theorem perform_regRd {b : Bool} (h : p.type = 2) : s.perform port b p = s.doRegRd b p := by
  unfold State.perform
  rw [h]
  rfl

theorem perform_memWr {b : Bool} (h : p.type = 4) : s.perform port b p = s.doMemWr port p := by
  unfold State.perform
  rw [h]
  rfl

theorem perform_memRd {b : Bool} (h : p.type = 5) : s.perform port b p = s.doMemRd b p := by
  unfold State.perform
  rw [h]
  rfl

theorem perform_data {b : Bool} (h : p.type = 9) : s.perform port b p = s.stqData p.tag p.addr p.payload := by
  unfold State.perform
  rw [h]
  rfl

theorem perform_other {b : Bool} (h1 : p.type ≠ 1) (h2 : p.type ≠ 2) (h4 : p.type ≠ 4) (h5 : p.type ≠ 5) (h9 : p.type ≠ 9) :
    s.perform port b p = s := by
  unfold State.perform
  split
  · exact absurd ‹_› h1
  · exact absurd ‹_› h2
  · exact absurd ‹_› h4
  · exact absurd ‹_› h5
  · exact absurd ‹_› h9
  · rfl

end perform

/-! ### Where a packet on TU goes (R259, R448) -/

section route
variable {p : Pkt}

/-- The active of a joined pair copies a request to the shadow before it performs it. -/
def copied (s : State) (l : List Byte) : State := if s.isActive = true then s.sendAcd 0x03 0 l else s

/-- A copy sent changes the links alone. -/
theorem copied_links (s : State) (l : List Byte) : ∃ ls, copied s l = { s with links := ls } := by
  unfold copied State.sendAcd State.sendPkt
  split
  · split
    · exact ⟨_, rfl⟩
    · exact ⟨_, rfl⟩
  · exact ⟨_, rfl⟩

theorem routeTu_away (hd : p.dev ≠ s.devNum) (h : s.linkUp 1 = true) : s.routeTu p = s.forward 0 1 p :=
  (if_neg hd).trans (if_pos h)

theorem routeTu_unreachable (hd : p.dev ≠ s.devNum) (h : s.linkUp 1 = false) :
    s.routeTu p = (s.unreach p).giveCredit 0 p :=
  (if_neg hd).trans (if_neg (by rw [h]; decide))

theorem routeTu_shadow (hd : p.dev = s.devNum) (h : s.isShadow = true) : s.routeTu p = s.giveCredit 0 p :=
  (if_pos hd).trans (congrArg (State.giveCredit · 0 p) (if_pos h))

theorem routeTu_own (hd : p.dev = s.devNum) (h : s.isShadow = false) :
    s.routeTu p = ((copied s p.bytes).perform 0 true p).giveCredit 0 p := by
  refine (if_pos hd).trans (congrArg (State.giveCredit · 0 p) ((if_neg (by rw [h]; decide)).trans ?_))
  unfold copied
  split <;> rfl

theorem unreach_regRd (h : p.type = 2) : s.unreach p = (s.sendPkt 0 ⟨3, p.dev, 0, p.tag, 0, 4, []⟩).raise 220 := if_pos h

theorem unreach_memRd (h : p.type = 5) : s.unreach p = (s.sendPkt 0 ⟨6, p.dev, 0, p.tag, 0, 4, []⟩).raise 220 :=
  (if_neg (by rw [h]; decide)).trans (if_pos h)

theorem unreach_posted (h2 : p.type ≠ 2) (h5 : p.type ≠ 5) :
    s.unreach p = (s.addSat (F.TAL_PORT_DROP_UNREACH 0) 1).raise 220 :=
  (if_neg h2).trans (if_neg h5)

end route

/-! ### Events and the lock (R258, R261) -/

theorem effEvtTx_refused {v : Word} (h : bits v.toNat 0 16 < 0x8000) : effEvtTx v s = s.setFlag F.TAL_STATUS_CMD_REJ :=
  if_pos h

theorem effEvtTx_sent {v : Word} (h : 0x8000 ≤ bits v.toNat 0 16) : effEvtTx v s = if s.isShadow = true then s
    else s.sendPkt 0 ⟨0x0A, s.devNum, 8, 0, 0, 0, leBytes 4 (bits v.toNat 0 16) ++ leBytes 4 (s.reg R.TAL_EVT_ARG).toNat⟩ := by
  refine (if_neg (Nat.not_lt.2 h)).trans ?_
  have hm : bits v.toNat 0 16 % 2 ^ 16 = bits v.toNat 0 16 := Nat.mod_eq_of_lt (bits_lt _ _ _)
  show (if s.isShadow = true then s else s.sendPkt 0 ⟨0x0A, s.devNum, (leBytes 4 (bits v.toNat 0 16 % 2 ^ 16)
    ++ leBytes 4 (s.reg R.TAL_EVT_ARG).toNat).length, 0, 0, 0, leBytes 4 (bits v.toNat 0 16 % 2 ^ 16)
    ++ leBytes 4 (s.reg R.TAL_EVT_ARG).toNat⟩) = _
  rw [hm, List.length_append, leBytes_length, leBytes_length]

theorem wrTal_lock (v : Word) : wrTal 0xFC v s = s.plainWrite R.TAL_LOCK v := rfl

/-- Settles O52: the steps of a port's training, of a late step with its limit, of reception and of a request by its
type, each by its own lemma; a request of a pair is copied as it came, since its bytes are those that its fields spell.
That the late step times out first, when a second rate is tried, and what a packet of an unknown type does are the
model's reading (log entries 57, 58, 119, 121 and 144). -/
theorem taloshLink : Obligations.TaloshLink := by
  unfold Obligations.TaloshLink
  intro s p l q v gen width lanes ns c n k st next en due late
  have hnx : ∀ {a b : State}, a = b → next a = next b := congrArg next
  have hp3 : n < 3 := by omega
  have hport : (if n = 0 then LinkId.tu else LinkId.td).idx = n := by
    rcases Nat.le_one_iff_eq_zero_or_eq_one.1 (Nat.le_of_lt_succ p.isLt) with h | h
    · rw [if_pos h]; exact h.symm
    · rw [if_neg (by omega)]; exact h.symm
  have hcaps : exec (.caps (if n = 0 then .tu else .td) q gen width c) s = next (effCaps n q gen.toNat width.toNat c s) :=
    congrArg (fun i => next (effCaps i q gen.toNat width.toNat c s)) hport
  refine ⟨fun h => hnx (effTalRetry_waits h), fun ⟨h0, he⟩ hf => ⟨_, hnx (effTalRetry_starts h0 he hf), start n s⟩,
    fun ⟨h1, hl⟩ => ⟨fun hm => hnx (effTalStep_dark h1 (decide_eq_false hl) hm),
      fun hm => ⟨_, hnx (effTalStep_locked h1 (decide_eq_false hl) lanes.isLt hm), locked_facts hp3 _⟩⟩,
    fun ⟨h2, hl⟩ => ⟨_, hnx (effTalStep_deskew h2 (decide_eq_false hl)), deskewed_facts hp3⟩,
    fun ⟨h1, h2⟩ => hnx (effTalStep_still h1 h2), fun ⟨h, hl⟩ => hnx (effTalStep_late h (decide_eq_true hl)),
    fun h => hnx (effTalTimeout_early (h.imp_left decide_eq_false)),
    fun ⟨hd, h⟩ => hnx (effTalTimeout_second (decide_eq_true hd) h),
    fun ⟨hd, h1, h3, hn⟩ => ⟨_, hnx (effTalTimeout_fails (decide_eq_true hd) h1 h3 hn), talFail_facts p s⟩,
    fun ⟨h4, hn⟩ => ⟨_, hnx (effTalLaneLoss_lost h4 hn), talLose_facts p s⟩,
    fun h => hnx (effTalLaneLoss_still h), fun ⟨h1, h3⟩ => ⟨_, hnx (effTalLaneLoss_training h1 h3), ?training⟩,
    fun h => hnx (effTalCtrl_refused h), fun ⟨hg, hm⟩ => ?control, fun ⟨hc, hres⟩ => ?caps, ?capsBad,
    fun ⟨hc, hres⟩ => hnx (effCaps_accord.trans ?accord), fun h => ?deaf, fun h => ?hears, replayAll_none,
    fun ⟨h, h4⟩ => replayAll_again (lidx l) h h4, fun ⟨h, h4⟩ => replayAll_lost h h4, ?packets,
    fun h => hnx (effEvtTx_refused h), fun h => hnx (effEvtTx_sent h), _, hnx (wrTal_lock v), plainWrite_w1s s F.TAL_LOCK_LOCK v (by decide),
    State.plainWrite_other s _ _ v (by decide)⟩
  case training =>
    obtain ⟨h1, h2, -, h4⟩ := talFail_facts p s
    exact ⟨h1, h2, h4⟩
  case control =>
    intro w
    refine ⟨fun ⟨h1, h⟩ => ?begins, fun ⟨h1, h5, h⟩ => hnx ((effTalCtrl_on hg hm h1).trans ((if_neg (by omega)).trans
        (if_neg fun c => h.elim (· c.1) (· c.2)))),
      fun ⟨h0, h⟩ => hnx ((effTalCtrl_off hg hm h0).trans (if_pos h)),
      fun ⟨h0, h⟩ => ⟨_, hnx ((effTalCtrl_off hg hm h0).trans (if_neg h)), (down p w _).1⟩⟩
    by_cases h5 : bits v.toNat 5 1 = 1
    · exact ⟨_, hnx ((effTalCtrl_on hg hm h1).trans (if_pos h5)), (start n _).1⟩
    · exact ⟨_, hnx ((effTalCtrl_on hg hm h1).trans ((if_neg h5).trans (if_pos (h.resolve_left h5)))), (start n _).1⟩
  case caps =>
    intro caps g
    refine ⟨fun h3 => ⟨_, hcaps.trans (hnx ((effCaps_port p.isLt).trans ((if_pos (.inl h3)).trans
      ((hr s q n _ hc hres).trans (if_pos h3))))), talUp_facts p.isLt width.isLt⟩, fun h3 => hcaps.trans (hnx ((effCaps_port p.isLt).trans ?_))⟩
    split
    · exact (hr s q n _ hc hres).trans (if_neg h3)
    · rfl
  case capsBad =>
    intro caps
    refine ⟨fun ⟨h3, hu⟩ => hcaps.trans (hnx ((effCaps_port p.isLt).trans (if_neg ?_))),
      fun h => ⟨fun hc => hcaps.trans (hnx ((effCaps_port p.isLt).trans ((if_pos h).trans (recvLink_bad hc)))),
        fun ⟨hc, hres⟩ => hcaps.trans (hnx ((effCaps_port p.isLt).trans ((if_pos h).trans (recvLink_reserved hc hres))))⟩⟩
    rintro (c | c)
    · exact h3 c
    · exact absurd (hu.symm.trans c) (by decide)
  case accord =>
    rw [hr s q 2 _ hc hres]
  case deaf =>
    have hrow : ∀ x ∈ linkRows l q c, exec x.1 s = next s := fun x hx => (exec_linkRow hx).trans (hnx (if_pos h))
    exact ⟨hrow _ (.head _), hrow _ (.tail _ (.head _)), hrow _ (.tail _ (.tail _ (.head _))), hnx (effReplayTimeout_deaf h)⟩
  case hears =>
    have hrow : ∀ x ∈ linkRows l q c, exec x.1 s = next (s.recvLink l.idx q x.2) := fun x hx =>
      (exec_linkRow hx).trans (hnx (if_neg (by rw [h]; decide)))
    refine ⟨fun hc => ?_, fun ⟨hc, hres⟩ => ?_, fun ⟨hc, hres⟩ => ?_, fun hd => hnx (if_pos ⟨h, hd⟩),
      fun hd => hnx (if_neg fun c => absurd hd (Nat.not_lt.2 c.2))⟩
    · have hx : ∀ x ∈ linkRows l q c, exec x.1 s = next (s.discardPkt l.idx) := fun x hx =>
        (hrow x hx).trans (hnx (recvLink_bad hc))
      exact ⟨hx _ (.head _), hx _ (.tail _ (.head _)), hx _ (.tail _ (.tail _ (.head _)))⟩
    · have hx : ∀ x ∈ linkRows l q c, exec x.1 s = next (s.protoError l.idx) := fun x hx =>
        (hrow x hx).trans (hnx (recvLink_reserved hc hres))
      exact ⟨hx _ (.head _), hx _ (.tail _ (.head _)), hx _ (.tail _ (.tail _ (.head _)))⟩
    · have hx : ∀ x ∈ linkRows l q c, exec x.1 s = next (x.2 s) := fun x hx =>
        (hrow x hx).trans (hnx (hr s q l.idx x.2 hc hres))
      exact ⟨hx _ (.head _), hx _ (.tail _ (.head _)), hx _ (.tail _ (.tail _ (.head _)))⟩
  case packets =>
    intro rows' seqOk legal
    have hrow : ∀ x ∈ rows q, exec x.2 s = next (effTuPacket x.1 q s) := fun x hx => exec_row hx
    have hown : ∀ x ∈ rows q, tuRow x.1 q.pkt = true → exec x.2 s = next (s.recvPkt 0 q (fun t => t.routeTu q.pkt)) :=
      fun x hx ht => (hrow x hx).trans (hnx (effTuPacket_row ht))
    refine ⟨fun x hx h => (hrow x hx).trans (hnx ?_), fun x hx h ht => ⟨fun hs => (hown x hx ht).trans
        (hnx (recvPkt_discarded h hs)), fun ⟨hs, hl⟩ => (hown x hx ht).trans (hnx (recvPkt_broken h hs hl))⟩,
      fun h => hnx (recvPkt_deaf h), fun h => ⟨fun hs => hnx (recvPkt_discarded h hs),
        fun ⟨hs, hl⟩ => hnx (recvPkt_broken h hs hl)⟩, fun ⟨h, hs, hl⟩ => hnx (recvPkt_taken h hs hl),
      fun ⟨h, hs, hl⟩ => ?taken⟩
    · by_cases ht : tuRow x.1 q.pkt = true
      · exact (effTuPacket_row ht).trans (recvPkt_deaf (h.resolve_right (by rw [ht]; decide)))
      · exact effTuPacket_other (Bool.eq_false_of_not_eq_true ht)
    intro r done
    have htaken : ∀ x ∈ rows q, tuRow x.1 q.pkt = true → exec x.2 s
        = next ((s.modLink 0 (rxf 0 q)).routeTu q.pkt) :=
      fun x hx ht => (hown x hx ht).trans (hnx (recvPkt_taken h hs hl))
    have htype : ∀ {type : Nat} {i : Instr}, (type, i) ∈ rows q → q.pkt.type = type → tuRow type q.pkt = true :=
      fun _ he => he ▸ tuRow_own q.pkt
    have mem1 : ((1 : Nat), Instr.regWr q) ∈ rows q := .head _
    have mem2 : ((2 : Nat), Instr.regRd q) ∈ rows q := .tail _ (.head _)
    have mem4 : ((4 : Nat), Instr.memWr q) ∈ rows q := .tail _ (.tail _ (.head _))
    have mem5 : ((5 : Nat), Instr.memRd q) ∈ rows q := .tail _ (.tail _ (.tail _ (.head _)))
    have mem9 : ((9 : Nat), Instr.dataPkt q) ∈ rows q := .tail _ (.tail _ (.tail _ (.tail _ (.head _))))
    refine ⟨fun hd => ⟨fun hu x hx ht => (htaken x hx ht).trans (hnx (routeTu_away hd hu)), fun hu => ?unreached⟩,
      fun ⟨hd, hsh⟩ x hx ht => (htaken x hx ht).trans (hnx (routeTu_shadow hd hsh)), fun ⟨hd, hsh⟩ => ?performed⟩
    case unreached =>
      have hun : ∀ x ∈ rows q, tuRow x.1 q.pkt = true → exec x.2 s = done ((s.modLink 0 (rxf 0 q)).unreach q.pkt) :=
        fun x hx ht => (htaken x hx ht).trans (hnx (routeTu_unreachable hd hu))
      exact ⟨fun h2 => (hun _ mem2 (htype mem2 h2)).trans (congrArg done (unreach_regRd h2)),
        fun h5 => (hun _ mem5 (htype mem5 h5)).trans (congrArg done (unreach_memRd h5)),
        fun x hx ht h2 h5 => (hun x hx ht).trans (congrArg done (unreach_posted h2 h5))⟩
    have hr : r = copied (s.modLink 0 (rxf 0 q)) q.pkt.bytes := by
      rw [pkt_bytes hs.1 hl.1]
      rfl
    obtain ⟨ls, hlinks⟩ : ∃ ls, r = { s with links := ls } := by
      obtain ⟨ls, e⟩ := copied_links (s.modLink 0 (rxf 0 q)) q.pkt.bytes
      exact ⟨ls, hr.trans e⟩
    have hperf : ∀ {type : Nat} {i : Instr} {t : State}, (type, i) ∈ rows q → tuRow type q.pkt = true →
        r.perform 0 true q.pkt = t → exec i s = done t := by
      intro type i t hx ht hp
      refine (htaken _ hx ht).trans (hnx ((routeTu_own (s := s.modLink 0 (rxf 0 q)) hd hsh).trans ?_))
      rw [← hr, hp]
    have hclean : r.upsets = s.upsets := by rw [hlinks]
    have hregion : ∀ a, r.region a = s.region a := fun a => by rw [hlinks]; rfl
    have hdram : ∀ a n, r.inDram a n = s.inDram a n := fun a n => by rw [hlinks]; rfl
    clear_value r done
    refine ⟨fun h1 => ?regWr, fun h2 => ?regRd, fun h4 => ?memWr, fun h5 => ?memRd, fun h9 => ?data, fun ⟨ht, hn⟩ => ?other⟩
    case regWr =>
      intro len mapped
      have hd : ∀ {t}, r.doRegWr 0 q.pkt = t → exec (.regWr q) s = done t := fun h =>
        hperf mem1 (htype mem1 h1) ((perform_regWr h1).trans h)
      exact ⟨fun h => hd (doRegWr_bad h), fun ⟨hl, hm, ha⟩ => hd (doRegWr_misaligned hl hm ha),
        fun ⟨hl, hm, ha⟩ => hd (doRegWr_done hl hm ha)⟩
    case regRd =>
      intro mapped
      have hd : ∀ {t}, r.doRegRd true q.pkt = t → exec (.regRd q) s = done t := fun h =>
        hperf mem2 (htype mem2 h2) ((perform_regRd h2).trans h)
      exact ⟨fun hl => hd (doRegRd_length hl), fun ⟨hl, hm⟩ => hd (doRegRd_unmapped hl hm),
        fun ⟨hl, hm, ha⟩ => hd (doRegRd_misaligned hl hm ha), fun ⟨hl, hm, ha⟩ => hd (doRegRd_done hl hm ha)⟩
    case memWr =>
      intro l bad
      have hd : ∀ {t}, r.doMemWr 0 q.pkt = t → exec (.memWr q) s = done t := fun h =>
        hperf mem4 (htype mem4 h4) ((perform_memWr h4).trans h)
      have hbad : BadWrite r q.pkt ↔ bad := by
        unfold BadWrite
        rw [hdram]
      refine ⟨fun h => hd (doMemWr_bad (hbad.2 h)), fun h => hd (doMemWr_done (mt hbad.1 h)), fun ⟨h, hl, hc⟩ =>
        hd ((doMemWr_done (mt hbad.1 h)).trans ?_)⟩
      rw [State.memWriteWords_clean r _ _ _ (hclean.trans hc.upsets) (by rw [hlinks]; exact hc.arm)]
      exact if_neg Bool.false_ne_true
    case memRd =>
      intro bad there
      have hd : ∀ {t}, r.doMemRd true q.pkt = t → exec (.memRd q) s = done t := fun h =>
        hperf mem5 (htype mem5 h5) ((perform_memRd h5).trans h)
      have hthere : (r.region q.pkt.addr = .dram ∨ r.region q.pkt.addr = .mram) ↔ there := by
        rw [hregion]
      refine ⟨fun h => hd (doMemRd_bad h), fun ⟨h, ht⟩ => hd (doMemRd_nowhere h (mt hthere.1 ht)), fun ⟨h, ht⟩ => ?_⟩
      have hans : ∀ {a}, r.memRead reqTalosh q.pkt.addr q.pkt.len = a → exec (.memRd q) s = done (memAnswer q.pkt.tag a) :=
        fun ha => hd ((doMemRd_done h (hthere.2 ht)).trans (congrArg (memAnswer q.pkt.tag) ha))
      refine ⟨fun t b ht => hans ht, fun t ht => hans ht, fun t a ht => hans ht, fun ⟨hi, ha, hu⟩ => ?_⟩
      have hin : r.inMemory q.pkt.addr q.pkt.len = true := State.inMemory_dram r _ _
        (Nat.pos_of_ne_zero fun h0 => h (.inr (.inr (.inl (by omega)))))
        (by have := (hdram q.pkt.addr q.pkt.len).trans hi; exact of_decide_eq_true this) ha
      have hm := State.memRead_clean r reqTalosh q.pkt.addr q.pkt.len (hclean.trans hu) hin
      rw [show r.rdBytes q.pkt.addr q.pkt.len = s.rdBytes q.pkt.addr q.pkt.len by rw [hlinks]; rfl] at hm
      exact hans hm
    case data =>
      intro cmd off len
      have hcmd : dataCmd r q.pkt.tag = cmd := by
        rw [hlinks]
        rfl
      have hd : ∀ {t}, r.stqData q.pkt.tag q.pkt.addr q.pkt.payload = t → exec (.dataPkt q) s = done t := fun h =>
        hperf mem9 (htype mem9 h9) ((perform_data h9).trans h)
      refine ⟨fun h => hd ((stqData_none (hcmd.trans h)).trans ?_), fun x hx => ?_⟩
      · rw [show r.stq = s.stq by rw [hlinks]]
      · intro bad
        have hx' := hcmd.trans hx
        have hempty : q.pkt.payload.isEmpty = true ↔ len = 0 := List.isEmpty_iff_length_eq_zero
        exact ⟨fun h => hd ((stqData_some hx').trans (if_pos (hempty.2 h))),
          fun ⟨h, hb⟩ => hd ((stqData_some hx').trans ((if_neg (mt hempty.1 h)).trans (if_pos hb))),
          fun ⟨h, hb⟩ => hd ((stqData_some hx').trans ((if_neg (mt hempty.1 h)).trans (if_neg hb)))⟩
    case other =>
      have hknown : tuRows.contains q.pkt.type = false := by
        rcases Bool.or_eq_true_iff.1 ht with e | e
        · exact absurd (eq_of_beq e) hn
        · exact Bool.not_eq_true' _ ▸ (Bool.and_eq_true_iff.1 e).2
      have hne : ∀ a ∈ tuRows, q.pkt.type ≠ a := fun a ha e => by
        rw [e, List.contains_iff_mem.2 ha] at hknown
        cases hknown
      exact hperf mem9 ht (perform_other (hne 1 (by decide)) (hne 2 (by decide)) (hne 4 (by decide)) (hne 5 (by decide))
        (hne 9 (by decide)))

end Sys2Proof.Proofs.TalLink
end

