-- ==== Sys2Proof/Proofs/StorageQ.lean ====
section
/-!
PROOFS. The Talosh 1 port, volumes, and the storage queue from fetch to completion (R262 to R275).
-/
namespace Sys2Proof.Proofs.StorageQ

open Sys2Proof.Machine
open Sys2Proof.Laws.Writes
open Sys2Proof.Laws.Storage

variable {s : State}

/-! ### What traffic to memory changes -/

/-- The states differ in memory, its errors and what is recorded of them. -/
def Traffic (s t : State) : Prop :=
  ∃ m u r f q, t = { s with mem := m, upsets := u, regs := r, flt := f, memst := q }

theorem Traffic.refl (s : State) : Traffic s s := ⟨_, _, _, _, _, rfl⟩

theorem Traffic.trans {s t u : State} (h : Traffic s t) (h' : Traffic t u) : Traffic s u := by
  obtain ⟨_, _, _, _, _, rfl⟩ := h
  obtain ⟨_, _, _, _, _, rfl⟩ := h'
  exact ⟨_, _, _, _, _, rfl⟩

theorem traffic_setFld (s : State) (f : Fld) (n : Nat) : Traffic s (s.setFld f n) := ⟨_, _, _, _, _, rfl⟩

theorem traffic_raise (s : State) (n : Nat) : Traffic s (s.raise n) := ⟨_, _, _, _, _, rfl⟩

theorem traffic_raiseIf (s : State) (b : Bool) (n : Nat) : Traffic s (s.raiseIf b n) := by
  cases b
  · exact .refl s
  · exact traffic_raise s n

theorem traffic_wrBytes (s : State) (a : Nat) (l : List Byte) : Traffic s (s.wrBytes a l) := by
  rw [State.wrBytes_eq]
  exact ⟨_, _, _, _, _, rfl⟩

theorem traffic_setReg40 (s : State) (a b n : Nat) : Traffic s (s.setReg40 a b n) := ⟨_, _, _, _, _, rfl⟩

theorem traffic_memst (s : State) (m : MemSt) : Traffic s { s with memst := m } := ⟨_, _, _, _, _, rfl⟩

theorem Traffic.setFld {s t : State} (h : Traffic s t) (f : Fld) (n : Nat) : Traffic s (t.setFld f n) :=
  h.trans (traffic_setFld t f n)

theorem Traffic.raise {s t : State} (h : Traffic s t) (n : Nat) : Traffic s (t.raise n) := h.trans (traffic_raise t n)

theorem traffic_dramUe (s : State) (req a : Nat) : Traffic s (s.dramUe req a) := by
  have h1 : Traffic s (s.addSat F.MEM_UE_INFO_COUNT 1) := traffic_setFld s _ _
  unfold State.dramUe
  dsimp only
  generalize s.addSat F.MEM_UE_INFO_COUNT 1 = u at h1
  refine .trans (.raise ?_ _) (traffic_raiseIf _ _ _)
  split
  · exact h1
  · exact (((h1.trans (traffic_setReg40 _ _ _ _)).setFld _ _).setFld _ _).setFld _ _

theorem traffic_rateCheck (s : State) : Traffic s s.rateCheck := by
  unfold State.rateCheck
  split
  · exact .refl s
  · split
    · exact ((traffic_memst s _).setFld _ _).raise _
    · exact .refl s

theorem traffic_dramCe (s : State) (a k : Nat) : Traffic s (s.dramCe a k) := by
  have h1 : Traffic s ((s.addSat (if k = 1 then F.MEM_CE_CNT_ONE (bits a 8 2) else F.MEM_CE_CNT_TWO (bits a 8 2)) 1).raise 200) :=
    (traffic_setFld s _ _).raise 200
  unfold State.dramCe
  dsimp only
  generalize State.raise _ 200 = u at h1
  exact (h1.trans (traffic_memst u _)).trans (traffic_rateCheck _)

theorem traffic_localUe (s : State) (n off : Nat) (d : Bool) : Traffic s (s.localUe n off d) := by
  unfold State.localUe
  dsimp only
  refine .raise ?_ _
  split
  · exact .refl s
  · exact ((traffic_setFld s _ _).setFld _ _).setFld _ _

/-- A word met by a read is corrected, changed or recorded. -/
theorem traffic_eccMeet (s : State) (req a p : Nat) : Traffic s (s.eccMeet req a p).1 := by
  have clean : ∀ u, Traffic s { s with upsets := u } := fun u => ⟨_, _, _, _, _, rfl⟩
  have miss : ∀ u a n v, Traffic s (({ s with upsets := u } : State).wrLe a n v) := fun u a n v =>
    (clean u).trans (traffic_wrBytes _ _ _)
  unfold State.eccMeet
  cases s.region a with
  | dram =>
    dsimp only
    cases eccDram (s.rdLe a 8) p with
    | good => exact clean _
    | corrected k => exact (clean _).trans (traffic_dramCe _ _ _)
    | wrong f seen =>
      cases seen
      · exact miss _ _ _ _
      · exact (miss _ _ _ _).trans (traffic_dramCe _ _ _)
    | uncorrectable => exact traffic_dramUe _ _ _
  | mram =>
    dsimp only
    cases eccDram (s.rdLe a 8) p with
    | good => exact clean _
    | corrected k => exact clean _
    | wrong f seen => exact miss _ _ _ _
    | uncorrectable => exact traffic_raise _ _
  | iram n =>
    dsimp only
    cases eccLocal p with
    | good => exact clean _
    | corrected k => exact (clean _).trans (traffic_setFld _ _ _)
    | wrong f seen => exact miss _ _ _ _
    | uncorrectable => exact traffic_localUe _ _ _ _
  | dataRam n =>
    dsimp only
    cases eccLocal p with
    | good => exact clean _
    | corrected k => exact (clean _).trans (traffic_setFld _ _ _)
    | wrong f seen => exact miss _ _ _ _
    | uncorrectable => exact traffic_localUe _ _ _ _
  | regs => exact .refl s
  | unmapped => exact .refl s

theorem traffic_wordWritten (s : State) (a : Nat) : Traffic s (s.wordWritten a) := by
  unfold State.wordWritten
  dsimp only
  split
  · exact ⟨_, _, _, _, _, rfl⟩
  · exact ⟨_, _, _, _, _, rfl⟩

theorem traffic_writeWord (s : State) (req a : Nat) (l : List Byte) : Traffic s (s.writeWord req a l).1 := by
  unfold State.writeWord
  dsimp only
  split
  · exact (traffic_wrBytes _ _ _).trans (traffic_wordWritten _ _)
  · split
    · exact traffic_wrBytes _ _ _
    · have hm := traffic_eccMeet s req (a / eccWordBytes a * eccWordBytes a) ‹Nat›
      generalize s.eccMeet _ _ _ = x at hm ⊢
      obtain ⟨t, b⟩ := x
      cases b
      · exact hm.trans (traffic_wrBytes _ _ _)
      · exact hm

theorem traffic_memWriteWords (s : State) (req a : Nat) (l : List Byte) : Traffic s (s.memWriteWords req a l).1 := by
  unfold State.memWriteWords
  suffices H : ∀ (q : List (Nat × List Byte)) (r : State × Bool), Traffic s r.1 → Traffic s (q.foldl
      (fun r e => match r.1.writeWord req e.1 e.2 with | (t, bad) => (t, r.2 || bad)) r).1 from H _ _ (.refl s)
  intro q
  induction q with
  | nil => exact fun r h => h
  | cons e q ih => exact fun r h => ih _ (h.trans (traffic_writeWord _ _ _ _))

theorem traffic_memWrite (s : State) (req a : Nat) (l : List Byte) : Traffic s (s.memWrite req a l).1 := by
  have hw := traffic_memWriteWords s req a l
  unfold State.memWrite
  split
  · exact .refl s
  split
  · exact traffic_raise _ _
  generalize s.memWriteWords req a l = x at hw ⊢
  obtain ⟨t, b⟩ := x
  split
  · split
    · exact traffic_raise _ _
    · split
      · exact traffic_setFld _ _ _
      · exact hw
  · split
    · exact traffic_raise _ _
    · exact hw
  · exact hw

theorem Traffic.t1 {t : State} (h : Traffic s t) : t.t1 = s.t1 := by
  obtain ⟨_, _, _, _, _, rfl⟩ := h
  rfl

/-! ### The Talosh 1 port (R262 to R264) -/

/-- A record pushed by hardware does not change the capture. -/
theorem hwPush_t1 (s : State) (who : Producer) (b : Bool) (h role : Nat) (e : List Byte) : (s.hwPush who b h role e).1.t1 = s.t1 := by
  unfold State.hwPush
  split
  · rfl
  · split
    · unfold State.ringAppend
      simp only [State.notify_frame]
      exact (traffic_memWriteWords s _ _ _).t1
    · split
      · simp only [State.ringDrop, State.raise_frame, State.setFlag_frame, State.addSat_frame]
      · rfl

theorem t1Finish_facts (s : State) (words : List (BitVec 16)) :
    (s.t1Finish words).t1.lineOpen = false ∧ (s.t1Finish words).t1.lines = (s.t1.lines + 1) % 2 ^ 32 := by
  have hm := (traffic_memWrite s reqTalosh (s.addr40 R.TAL_T1_BUF_LO R.TAL_T1_BUF_HI + 2 * s.t1Words * s.t1.slot)
    (t1Line s.t1Words words)).t1
  unfold State.t1Finish
  refine ⟨rfl, ?_⟩
  dsimp only
  rw [hwPush_t1]
  generalize (s.memWrite _ _ _).1 = u at hm ⊢
  split
  · simp only [State.raise_frame, State.setFlag_frame, hm]
  · rw [hm]

theorem hwPush_unusable {h role : Nat} (hr : s.usableRing h role = none) (who : Producer) (b : Bool) (e : List Byte) :
    s.hwPush who b h role e = (s, .unusable) := by
  unfold State.hwPush
  rw [hr]

/-- A whole line of a stopped record ring: its bytes stand in its slot. -/
theorem t1Finish_whole {words : List (BitVec 16)} (hl : words.length = s.t1Words) (h0 : 0 < s.t1Words) (hc : s.Clean)
    (hd : s.addr40 R.TAL_T1_BUF_LO R.TAL_T1_BUF_HI + 2 * s.t1Words * s.t1.slot + 2 * s.t1Words ≤ s.dramTop)
    (hm : s.addr40 R.TAL_T1_BUF_LO R.TAL_T1_BUF_HI + 2 * s.t1Words * s.t1.slot + 2 * s.t1Words ≤ 0x1000000000)
    (hr : s.usableRing (s.reg R.TAL_T1_RING).toNat 2 = none) : s.t1Finish words
    = { s.wrBytes (s.addr40 R.TAL_T1_BUF_LO R.TAL_T1_BUF_HI + 2 * s.t1Words * s.t1.slot)
          ((words.map (fun w => leBytes 2 w.toNat)).flatten) with
        t1 := { s.t1 with lineOpen := false, lines := (s.t1.lines + 1) % 2 ^ 32 } } := by
  have hline : t1Line s.t1Words words = (words.map (fun w => leBytes 2 w.toNat)).flatten := by
    rw [← hl]
    exact t1line words
  have hlen : (t1Line s.t1Words words).length = 2 * s.t1Words := by
    rw [hline, List.length_flatten, List.map_map, ← hl]
    rw [show List.length ∘ (fun w : BitVec 16 => leBytes 2 w.toNat) = fun _ => 2 from funext fun w => leBytes_length 2 _,
      List.map_const', List.sum_replicate, smul_eq_mul, Nat.mul_comm]
  have hw := Sys2Proof.Laws.Storage.memWrite_dram s reqTalosh
    (s.addr40 R.TAL_T1_BUF_LO R.TAL_T1_BUF_HI + 2 * s.t1Words * s.t1.slot) (t1Line s.t1Words words) hc (by omega)
    (by omega) (by omega)
  rw [hline] at hw
  obtain ⟨m, hm⟩ : ∃ m, s.wrBytes (s.addr40 R.TAL_T1_BUF_LO R.TAL_T1_BUF_HI + 2 * s.t1Words * s.t1.slot)
      ((words.map (fun w => leBytes 2 w.toNat)).flatten) = { s with mem := m } := ⟨_, State.wrBytes_eq _ _ _⟩
  have hp : ∀ e, State.hwPush { s with mem := m } .t1 false (State.reg { s with mem := m } R.TAL_T1_RING).toNat 2 e
      = ({ s with mem := m }, .unusable) := fun e => hwPush_unusable (s := { s with mem := m }) hr _ _ _
  unfold State.t1Finish
  dsimp only
  rw [hline, hw, if_neg (by rw [hl]; simp), hm, hp]

section line
variable {psync : Bool} {words got : List (BitVec 16)}

theorem effT1LineStart_off (h : s.flag F.TAL_T1_CFG_EN = false) : effT1LineStart psync got s = s := if_pos h

/-- The state in which a new line finds the capture: a short line before it has ended. -/
def lineEnded (s : State) (got : List (BitVec 16)) : State :=
  if s.t1.lineOpen = true then s.t1Finish (got.take (s.fld F.TAL_T1_CFG_WORDS - 1)) else s

theorem effT1LineStart_full (h : s.flag F.TAL_T1_CFG_EN = true)
    (hf : (lineEnded s got).fld F.TAL_T1_SLOTS_SLOTS ≤ (lineEnded s got).t1.used) : effT1LineStart psync got s
    = (State.setFlag { lineEnded s got with t1 := { (lineEnded s got).t1 with
        drops := min 65535 ((lineEnded s got).t1.drops + 1) } } F.TAL_T1_STATUS_OVR).raise 221 := by
  have hcap : capNat 0xFFFF ((lineEnded s got).t1.drops + 1) = min 65535 ((lineEnded s got).t1.drops + 1) := by
    unfold capNat
    split <;> omega
  rw [← hcap]
  exact (if_neg (by rw [h]; decide)).trans (if_pos (Nat.sub_eq_zero_of_le hf))

theorem effT1LineStart_opens (h : s.flag F.TAL_T1_CFG_EN = true)
    (hf : (lineEnded s got).t1.used < (lineEnded s got).fld F.TAL_T1_SLOTS_SLOTS) : effT1LineStart psync got s
    = { lineEnded s got with t1 := { (lineEnded s got).t1 with
        lineOpen := true, page := psync, tLsync := (lineEnded s got).now, slot := (lineEnded s got).t1.nextSlot
        nextSlot := ((lineEnded s got).t1.nextSlot + 1) % (lineEnded s got).fld F.TAL_T1_SLOTS_SLOTS
        used := (lineEnded s got).t1.used + 1 } } :=
  (if_neg (by rw [h]; decide)).trans (if_neg (Nat.sub_ne_zero_of_lt hf))

end line

/-! ### Volumes (R266) -/

section volume
variable {v : Word} {u : Nat}

theorem effVolcmd_none (h : bits v.toNat 4 1 = bits v.toNat 5 1) : effVolcmd v s = s := by
  by_cases h1 : bits v.toNat 4 1 = 1
  · exact if_pos ⟨h1, h.symm.trans h1⟩
  · exact (if_neg fun c => h1 c.1).trans ((if_neg h1).trans (if_neg fun c => h1 (h.trans c)))

theorem effVolcmd_load (h : bits v.toNat 4 1 = 1) (h' : bits v.toNat 5 1 = 0) :
    effVolcmd v s = s.volLoad (bits v.toNat 0 3) :=
  (if_neg fun c => absurd (h'.symm.trans c.2) (by decide)).trans (if_pos h)

theorem effVolcmd_unload (h : bits v.toNat 4 1 = 0) (h' : bits v.toNat 5 1 = 1) :
    effVolcmd v s = s.volUnload (bits v.toNat 0 3) :=
  have h4 : ¬bits v.toNat 4 1 = 1 := fun c => absurd (h.symm.trans c) (by decide)
  (if_neg fun c => h4 c.1).trans ((if_neg h4).trans (if_pos h'))

theorem loadReason_lt (s : State) (u : Nat) : s.loadReason u < 8 := by
  unfold State.loadReason
  dsimp only
  repeat' split
  all_goals decide

theorem loadReason_small (h : s.variant.hdas = 0) : s.loadReason u = 1 := if_pos (.inl h)

/-- A volume without channels is refused for that, whatever else is loaded. -/
theorem loadReason_empty (h : s.variant.hdas ≠ 0) (h0 : s.fld (F.STQ_VOL_CFG_DCH u) = 0) : s.loadReason u = 3 := by
  have hc : s.volChans u = [] := by
    unfold State.volChans
    rw [h0]
    rfl
  unfold State.loadReason
  dsimp only
  rw [hc, if_neg (by simp [h]), if_neg (by simp), if_pos rfl]

theorem volLoad_refused (h : s.loadReason u ≠ 0) : s.volLoad u = s.volRefuse (s.loadReason u) := if_pos h

theorem volCfg_ne (u : Nat) (hu : u < 8) : R.STQ_VOL_CFG u ≠ R.STQ_VOLSTAT ∧ R.STQ_VOL_CFG u ≠ R.STQ_STATUS
    ∧ R.STQ_VOL_CFG u ≠ R.STQ_VOL_CAP_LO u ∧ R.STQ_VOL_CFG u ≠ R.STQ_VOL_CAP_HI u := by
  unfold R.STQ_VOL_CFG R.STQ_VOLSTAT R.STQ_STATUS R.STQ_VOL_CAP_LO R.STQ_VOL_CAP_HI
  omega

theorem volDone_loaded (hu : u < 8) : s.volDone.volLoaded u = s.volLoaded u := by
  obtain ⟨h1, h2, -⟩ := volCfg_ne u hu
  exact flag_of_fld _ _ _ rfl (done s (F.STQ_VOL_CFG_LOADED u) h1 h2)

/-- LOAD without a reason to refuse it loads the volume. -/
theorem volLoad_loaded (hu : u < 8) (h : s.loadReason u = 0) : (s.volLoad u).volLoaded u = true
    ∧ (s.volLoad u).flag F.STQ_VOLSTAT_DONE = true ∧ (s.volLoad u).flag F.STQ_VOLSTAT_REFUSED = false := by
  obtain ⟨-, -, h3, h4⟩ := volCfg_ne u hu
  have e : s.volLoad u = _ := if_neg (not_not_intro h)
  rw [e]
  generalize hw : State.volRefresh _ = w
  refine ⟨(volDone_loaded hu).trans ?_, done2 w⟩
  rw [← hw, refresh_loaded]
  unfold State.volLoaded
  rw [setFld_flag_apart _ _ _ _ (Nat.le_of_ble_eq_true rfl) rfl (.inl h4.symm)]
  have hr : ∀ (t : State) (k : Nat) (x : Word), k ≠ (F.STQ_VOL_CFG_LOADED u).key →
      (t.setReg k x).flag (F.STQ_VOL_CFG_LOADED u) = t.flag (F.STQ_VOL_CFG_LOADED u) := fun t k x hk => by
    unfold State.flag
    rw [State.reg_setReg_ne _ _ hk.symm]
  rw [hr _ _ _ h3.symm]
  exact State.flag_setFlag s _ (Nat.le_of_ble_eq_true rfl) rfl

theorem volUnload_none (h : s.volLoaded u = false) : s.volUnload u = s := if_pos h

theorem volUnload_busy (h : s.volLoaded u = true) (hb : s.volBusy u = true) : s.volUnload u = s.volRefuse 6 :=
  (if_neg (by rw [h]; decide)).trans (if_pos hb)

theorem volUnload_done (hu : u < 8) (h : s.volLoaded u = true) (hb : s.volBusy u = false) :
    (s.volUnload u).volLoaded u = false ∧ (s.volUnload u).flag F.STQ_VOLSTAT_DONE = true := by
  obtain ⟨-, -, h3, h4⟩ := volCfg_ne u hu
  have e : s.volUnload u = _ := (if_neg (by rw [h]; decide)).trans (if_neg (by rw [hb]; decide))
  rw [e]
  refine ⟨(volDone_loaded hu).trans ?_, (done2 _).1⟩
  unfold State.setReg40 State.volLoaded
  have hr : ∀ (t : State) (k : Nat) (x : Word), k ≠ (F.STQ_VOL_CFG_LOADED u).key →
      (t.setReg k x).flag (F.STQ_VOL_CFG_LOADED u) = t.flag (F.STQ_VOL_CFG_LOADED u) := fun t k x hk => by
    unfold State.flag
    rw [State.reg_setReg_ne _ _ hk.symm]
  rw [hr _ _ _ h4.symm, hr _ _ _ h3.symm]
  unfold State.clrFlag
  rw [setFld_flag_apart _ _ _ _ (Nat.le_of_ble_eq_true rfl) rfl (.inr (.inr (Nat.le_of_ble_eq_true rfl)))]
  exact State.flag_clrFlag s _ (Nat.le_of_ble_eq_true rfl) rfl

/-- A refusal leaves every volume loaded or not as it was. -/
theorem volRefuse_loaded (hu : u < 8) (r : Nat) (hr : r < 8) : (s.volRefuse r).volLoaded u = s.volLoaded u := by
  obtain ⟨-, -, -, -, hk⟩ := refuse s r hr
  unfold State.volLoaded State.flag
  exact congrArg (fun x : Word => bit x.toNat 12) (hk _ (volCfg_ne u hu).1)

end volume

/-! ### Commands (R271) -/

section fetch
variable {i n : Nat} {t : Stream} {r : Ring} {c : StqCmd} {l : List Byte}

theorem stqFetch_waits (h : 1024 ≤ s.cmdsUsed ∨ 256 ≤ s.locksUsed ∨ s.aborting = true ∨ s.stqNext = none) : s.stqFetch = s := by
  unfold State.stqFetch
  split
  · rfl
  · rename_i hn
    have hn : s.stqNext = none := by tauto
    rw [hn]

section entry
variable (hc : s.cmdsUsed < 1024) (hk : s.locksUsed < 256) (ha : s.aborting = false) (hn : s.stqNext = some (i, t, n, r))
include hc hk ha hn

theorem stqFetch_next : s.stqFetch
    = State.stqPopped i t r ((s.modStq (fun q => { q with nextStream := (i + 1) % 256 })).ringPop n r) := by
  refine (if_neg ?_).trans ?_
  · rintro (x | x | x)
    · omega
    · omega
    · exact absurd (ha.symm.trans x) (by decide)
  · rw [hn]

end entry

/-- The entry that a stream's submission ring gives, with where its ring then stands. -/
def fetched (i : Nat) (r : Ring) (l : List Byte) : StqCmd := { parseCmd i l with sqCons := (r.cons + 1) % 2 ^ 32 }

theorem stqTake_none (s : State) (c : StqCmd) : s.stqTake c none = s.modStq (accF c) := rfl

/-! The status of a READ or WRITE, by the first check that fails. -/

theorem cmdStatus_malformed (h : s.cmdMalformed t c l = true) : s.cmdStatus t c l = some 3 := if_pos h

section checks
variable (ho : c.opc = 1 ∨ c.opc = 2) (hm : s.cmdMalformed t c l = false)

/-- The checks of a READ or WRITE that is well formed, in order. -/
def rwStatus (s : State) (t : Stream) (c : StqCmd) : Option Nat :=
  if s.volLoaded c.vol = false then some 1
  else if c.nblk = 0 then some 0
  else if s.volCap c.vol < c.lba + c.nblk then some 2
  else if s.volRefuses c.vol t.firm = true then some 8
  else if c.opc = 1 ∧ s.volInWindow c.vol = false then some 7
  else none

include ho hm

theorem cmdStatus_rw : s.cmdStatus t c l = rwStatus s t c := by
  have h3 : (c.opc == 3) = false := beq_eq_false_iff_ne.2 (by omega)
  have h4 : (c.opc != 4) = true := bne_iff_ne.2 (by omega)
  have hrw : (c.opc == 1 || c.opc == 2) = true := by
    rcases ho with e | e <;> rw [e] <;> rfl
  unfold State.cmdStatus rwStatus
  rw [if_neg (by rw [hm]; decide), h3, h4, hrw]
  simp

end checks

end fetch

/-! ### From acceptance to completion (R272 to R275) -/

section command
variable {a : Nat} {c : StqCmd} {pd : Bool}

theorem no_command (h : s.stqCmd a = none) : effStqWrite a s = s ∧ effStqRead a s = s ∧ effFlush a s = s
    ∧ effIdentify a s = s ∧ effCommandBegin a s = s ∧ effXferTimeout a s = s ∧ effStqReadDone a s = s
    ∧ effFlushDone a pd s = s := by
  unfold effStqWrite effStqRead effFlush effIdentify effCommandBegin effXferTimeout effStqReadDone effFlushDone
  rw [h]
  exact ⟨rfl, rfl, rfl, rfl, rfl, rfl, rfl, rfl⟩

variable (h : s.stqCmd a = some c)
include h

theorem effCommandBegin_of : effCommandBegin a s = if c.locked = true ∧ c.begun = false ∧ s.rangeClear c = true then
    (s.modCmd a (fun k => { k with begun := true })).stqOffer a else s := by
  unfold effCommandBegin
  rw [h]

theorem effStqWrite_of : effStqWrite a s = if c.opc = 1 ∧ c.begun = true then
    (if c.local_ then (s.localWrite a).checkWrite a else (s.stqOffer a).checkWrite a) else s := by
  unfold effStqWrite
  rw [h]

/-- A WRITE that has offered all its blocks offers no more. -/
theorem stqOffer_all (ho : c.nblk ≤ c.offered) : s.stqOffer a = s := by
  unfold State.stqOffer
  rw [h]
  exact if_neg fun k => absurd ho (Nat.not_le.2 k.2.2.2.1)

theorem checkWrite_of : s.checkWrite a
    = if c.opc = 1 ∧ c.begun = true ∧ s.writeStaged c = true then s.endCmd a 0 noBad else s := by
  unfold State.checkWrite
  rw [h]

omit h in
theorem writeStaged_iff : s.writeStaged c = true ↔ c.done = c.nblk ∧ (s.isActive = true → c.unheld = []) := by
  unfold State.writeStaged
  rw [Bool.and_eq_true_iff, beq_iff_eq, Bool.or_eq_true_iff, List.isEmpty_iff]
  cases s.isActive <;> simp

/-- The blocks of a READ that stand in the staging area are served from it, the rest queued. -/
theorem effStqRead_of : effStqRead a s = if c.opc = 2 ∧ c.begun = true ∧ c.queued = false then
    ((s.each (c.todo.filter (fun i => (s.stagedOf c.vol (c.lba + i)).isSome)) (fun t i =>
        match t.stagedOf c.vol (c.lba + i) with | some e => t.serveStaged a i e | none => t)).queueReads c
      (c.todo.filter (fun i => !(s.stagedOf c.vol (c.lba + i)).isSome))).modCmd a (fun k => { k with queued := true })
    else s := by
  unfold effStqRead
  rw [h] <;> rfl

omit h in
theorem stagedOf_empty (he : s.stq.staged = []) (v b : Nat) : s.stagedOf v b = none := by
  unfold State.stagedOf
  rw [he]
  rfl

theorem effStqReadDone_of : effStqReadDone a s = if c.opc = 2 ∧ c.queued = true ∧ c.todo = [] then
    s.endCmd a c.readStatus.1 c.readStatus.2 else s := by
  unfold effStqReadDone
  rw [h]

omit h in
theorem readStatus_media (hm : c.media ≠ []) : c.readStatus = (5, listMin c.media) := if_pos hm

section readStatus
omit h
variable (hm : c.media = [])
include hm

theorem readStatus_ecc (he : c.ecc ≠ []) : c.readStatus = (10, listMin c.ecc) :=
  (if_neg (not_not_intro hm)).trans (if_pos he)

variable (he : c.ecc = [])
include he

theorem readStatus_unwritten (hu : c.unwritten ≠ []) : c.readStatus = (4, listMin c.unwritten) :=
  (if_neg (not_not_intro hm)).trans ((if_neg (not_not_intro he)).trans (if_pos hu))

theorem readStatus_whole (hu : c.unwritten = []) : c.readStatus = (0, noBad) :=
  (if_neg (not_not_intro hm)).trans ((if_neg (not_not_intro he)).trans (if_neg (not_not_intro hu)))

end readStatus

theorem effFlush_of : effFlush a s = if c.opc = 3 then s.modCmd a (fun k => { k with begun := true }) else s := by
  unfold effFlush
  rw [h]

/-- A FLUSH waits for what its state, the partner and the windows of its blocks' ports say. -/
def FlushWaiting (s : State) (c : StqCmd) (pd : Bool) : Prop :=
  s.flushWaits c = true ∨ (s.isActive = true ∧ pd = false) ∨ ∃ e ∈ s.flushLeft c, s.inWindow (s.volMap e.vol e.vblk).1 = true

/-- A block of a FLUSH was lost while it was staged. -/
def BlockLost (s : State) (c : StqCmd) : Prop :=
  ∃ e ∈ s.stq.lostBlocks, c.covers e.2.1 = true ∧ aseqBefore e.1 c.aseq = true

omit h in
theorem flush_ready_iff : (s.flushWaits c = false ∧ (s.isActive = true → pd = true)
    ∧ (s.flushLeft c).all (fun e => !s.inWindow (s.volMap e.vol e.vblk).1) = true) ↔ ¬FlushWaiting s c pd := by
  unfold FlushWaiting
  rw [List.all_eq_true, not_or, not_or, Bool.not_eq_true, not_and, not_exists]
  refine and_congr_right fun _ => and_congr (imp_congr_right fun _ => (Bool.not_eq_false _).symm.to_iff) ?_
  exact forall_congr' fun e => by
    rw [not_and]
    exact imp_congr_right fun _ => by rw [Bool.not_eq_true, Bool.not_eq_true']

theorem effFlushDone_waits (hw : c.opc ≠ 3 ∨ c.begun = false ∨ FlushWaiting s c pd) : effFlushDone a pd s = s := by
  unfold effFlushDone
  rw [h]
  refine if_neg ?_
  rintro ⟨h3, hb, hr⟩
  rcases hw with hw | hw | hw
  · exact hw h3
  · exact absurd (hw.symm.trans hb) (by decide)
  · exact flush_ready_iff.1 hr hw

omit h in
theorem lost_iff : s.stq.lostBlocks.any (fun e => c.covers e.2.1 && aseqBefore e.1 c.aseq) = true ↔ BlockLost s c := by
  unfold BlockLost
  rw [List.any_eq_true]
  exact exists_congr fun e => and_congr_right fun _ => Bool.and_eq_true_iff

theorem effFlushDone_ends (h3 : c.opc = 3) (hb : c.begun = true) (hw : ¬FlushWaiting s c pd) : effFlushDone a pd s
    = s.endCmd a (if s.flushLeft c ≠ [] then 7
        else if s.stq.lostBlocks.any (fun e => c.covers e.2.1 && aseqBefore e.1 c.aseq) then 10 else 0) noBad := by
  unfold effFlushDone
  rw [h]
  exact if_pos ⟨h3, hb, flush_ready_iff.2 hw⟩

theorem effIdentify_of : effIdentify a s = if c.opc = 4 then (s.toDest c 0 s.identifyData).endCmd a 0 noBad else s := by
  unfold effIdentify
  rw [h]

theorem effXferTimeout_of : effXferTimeout a s
    = if c.offers.any (fun o => decide (0 < o.missing) && decide (o.tOffer + s.trTmo ≤ s.now)) then s.xferEnd c else s := by
  unfold effXferTimeout
  rw [h]

omit h in
theorem offer_late_iff : c.offers.any (fun o => decide (0 < o.missing) && decide (o.tOffer + s.trTmo ≤ s.now)) = true
    ↔ ∃ o ∈ c.offers, 0 < o.missing ∧ o.tOffer + s.trTmo ≤ s.now := by
  rw [List.any_eq_true]
  exact exists_congr fun o => and_congr_right fun _ => by
    rw [Bool.and_eq_true_iff, decide_eq_true_iff, decide_eq_true_iff]

end command

/-- Settles O53: the Talosh 1 port, volumes and each command of the queue, by its own lemma; what traffic to memory
leaves of the capture says what a line leaves of it. A line that a new one finds open ends short; the lowest reason
refuses a LOAD, an UNLOAD of an unloaded volume does nothing; a FLUSH waits for the window and reports TEMP before ECC:
these are the model's reading (log entries 28, 63 and 64). -/
theorem storageQueue : Obligations.StorageQueue := by
  unfold Obligations.StorageQueue
  intro s v aseq psync partnerDone words got next t1 en a
  have hnx : ∀ {a b : State}, a = b → next a = next b := congrArg next
  refine ⟨fun h => hnx (effT1LineStart_off h), fun h => ⟨fun hf => hnx (effT1LineStart_full h hf),
      fun hf => hnx (effT1LineStart_opens h hf)⟩, fun h => hnx (if_neg (by rw [show s.t1.lineOpen = false from h]; decide)),
    fun h => ⟨_, hnx (if_pos h), t1Finish_facts s _⟩, ?line, rfl, fun u b h => inverse s u b h, ?volumes,
    ⟨_, rfl, plainWrite_w1s s F.STQ_LOCK_LOCK v (by decide)⟩, fun h => hnx (stqFetch_waits h), ?fetch, ?unread, ?status,
    ?nothing, fun c hc => ?command⟩
  case line =>
    intro n base ⟨ho, hl, h0, hc, hd, hm, hr⟩
    refine hnx ((if_pos ho).trans ?_)
    rw [show words.take s.t1Words = words from List.take_of_length_le (Nat.le_of_eq hl)]
    exact t1Finish_whole hl h0 hc hd hm hr
  case volumes =>
    intro u reason
    have hu : u < 8 := bits_lt _ _ 3
    have hr : reason < 8 := loadReason_lt s u
    refine ⟨fun h => ⟨hnx (effVolcmd_none h), hnx (effVolcmd_none h)⟩,
      fun ⟨h4, h5⟩ => ⟨fun h => ?refused, fun h => ⟨_, hnx (effVolcmd_load h4 h5), volLoad_loaded hu h⟩⟩,
      fun ⟨h4, h5⟩ => ⟨fun h => hnx ((effVolcmd_unload h4 h5).trans (volUnload_none h)), fun ⟨h, hb⟩ => ?busy,
        fun ⟨h, hb⟩ => ⟨_, hnx (effVolcmd_unload h4 h5), volUnload_done hu h hb⟩⟩, loadReason_small, loadReason_empty⟩
    case refused =>
      obtain ⟨h1, h2, h3, h6, h7⟩ := refuse s reason hr
      exact ⟨_, hnx ((effVolcmd_load h4 h5).trans (volLoad_refused h)), h1, h2, h3, h6, h7 _ (volCfg_ne u hu).1⟩
    case busy =>
      obtain ⟨h1, -, h3, -⟩ := refuse s 6 (by decide)
      exact ⟨_, hnx ((effVolcmd_unload h4 h5).trans (volUnload_busy h hb)), h1, h3,
        (volRefuse_loaded hu 6 (by decide)).trans h⟩
  case fetch =>
    intro i t n r s1 l hc hk ha hn hp c
    have hf : s.stqFetch = s1.stqTake c (s1.cmdStatus t c l) :=
      (stqFetch_next hc hk ha hn).trans (congrArg (State.stqPopped i t r) hp)
    refine ⟨fun x hx => hnx (hf.trans ?_), fun hx => ?_⟩
    · rw [hx]
      rfl
    · rw [hx] at hf
      exact ⟨_, hnx (hf.trans (stqTake_none s1 c)), accF_spec c s1.stq⟩
  case unread =>
    intro i t n r s1 x hc hk ha hn hp hx
    refine hnx ((stqFetch_next hc hk ha hn).trans ((congrArg (State.stqPopped i t r) hp).trans ?_))
    cases x with
    | entry l => exact absurd rfl (hx l)
    | empty => rfl
    | lost => rfl
  case status =>
    intro t c l ho
    refine ⟨cmdStatus_malformed, fun hm => ?_⟩
    rw [cmdStatus_rw ho hm]
    unfold rwStatus
    refine ⟨fun h => if_pos h, fun h => ?_⟩
    rw [if_neg (by rw [h]; decide)]
    refine ⟨fun h0 => if_pos h0, fun ⟨h0, hcap⟩ => (if_neg h0).trans (if_pos hcap), fun ⟨h0, hcap⟩ => ?_⟩
    rw [if_neg h0, if_neg (Nat.not_lt.2 hcap)]
    refine ⟨fun hr => if_pos hr, fun hr => ?_⟩
    rw [if_neg (by rw [hr]; decide)]
    refine ⟨fun hw => if_pos hw, fun hw => if_neg ?_⟩
    rintro ⟨h1, hno⟩
    rcases hw with hw | hw
    · omega
    · exact absurd (hno.symm.trans hw) (by decide)
  case nothing =>
    intro h
    obtain ⟨h1, h2, h3, h4, h5, h6, h7, h8⟩ := no_command (pd := partnerDone) h
    exact ⟨hnx h1, hnx h2, hnx h3, hnx h4, hnx h5, hnx h6, hnx h7, hnx h8⟩
  case command =>
    refine ⟨fun h => hnx ((effCommandBegin_of hc).trans (if_neg ?idle)), fun h => hnx ((effCommandBegin_of hc).trans (if_pos h)),
      fun h => hnx ((effStqWrite_of hc).trans (if_neg ?noWrite)), fun ⟨h1, hb, hl⟩ => ?offers,
      fun ⟨h1, hb, hl⟩ => hnx ((effStqWrite_of hc).trans ((if_pos ⟨h1, hb⟩).trans (if_pos hl))),
      fun h => hnx ((effStqRead_of hc).trans (if_neg ?noRead)), fun h => ⟨fun he => ?unstaged, fun i e hi he => ?staged⟩,
      fun h => hnx ((effStqReadDone_of hc).trans (if_neg ?notDone)), fun h => ?readDone,
      fun h => hnx ((effFlush_of hc).trans (if_pos h)), fun h => hnx ((effFlush_of hc).trans (if_neg h)), ?flushDone,
      fun h => hnx ((effIdentify_of hc).trans (if_pos h)), fun h => hnx ((effIdentify_of hc).trans (if_neg h)),
      fun h => hnx ((effXferTimeout_of hc).trans (if_neg (mt offer_late_iff.1 ?notLate))),
      fun h => hnx ((effXferTimeout_of hc).trans (if_pos (offer_late_iff.2 h)))⟩
    case idle =>
      rintro ⟨h1, h2, h3⟩
      rw [h1, h2, h3] at h
      simp at h
    case noWrite =>
      rintro ⟨h1, h2⟩
      rw [h2] at h
      exact h.elim (· h1) (by decide)
    case offers =>
      have hw : effStqWrite a s = (s.stqOffer a).checkWrite a :=
        (effStqWrite_of hc).trans ((if_pos ⟨h1, hb⟩).trans (if_neg (by rw [hl]; decide)))
      refine ⟨fun ho => ?_, fun _ => hnx hw⟩
      rw [stqOffer_all hc ho, checkWrite_of hc] at hw
      refine ⟨fun hd => hnx (hw.trans (if_pos ⟨h1, hb, writeStaged_iff.2 hd⟩)), fun hn => hnx (hw.trans (if_neg ?_))⟩
      rintro ⟨-, -, hd⟩
      obtain ⟨hd, hu⟩ := writeStaged_iff.1 hd
      rcases hn with hn | ⟨ha, hn⟩
      · exact hn hd
      · exact hn (hu ha)
    case noRead =>
      rintro ⟨h1, h2, h3⟩
      rw [h2, h3] at h
      simp [h1] at h
    case unstaged =>
      refine hnx ((effStqRead_of hc).trans ((if_pos h).trans ?_))
      simp only [stagedOf_empty he, Option.isSome_none, Bool.not_false, List.filter_true, List.filter_false]
      rfl
    case staged =>
      refine hnx ((effStqRead_of hc).trans ((if_pos h).trans ?_))
      rw [hi, List.filter_cons_of_pos (by rw [he]; rfl), List.filter_cons_of_neg (by rw [he]; exact Bool.false_ne_true), List.filter_nil,
        List.filter_nil]
      show ((match s.stagedOf c.vol (c.lba + i) with
        | some e => s.serveStaged a i e
        | none => s).queueReads c []).modCmd a _ = _
      rw [he]
    case notDone =>
      rintro ⟨h1, h2, h3⟩
      rw [h2] at h
      simp [h1, h3] at h
    case readDone =>
      have hd : exec (.stqReadDone aseq) s = next (s.endCmd a c.readStatus.1 c.readStatus.2) :=
        hnx ((effStqReadDone_of hc).trans (if_pos h))
      have hs : ∀ {x y}, c.readStatus = (x, y) → exec (.stqReadDone aseq) s = next (s.endCmd a x y) := fun e => by
        rw [hd, e]
      exact ⟨fun hm => hs (readStatus_media hm), fun ⟨hm, he⟩ => hs (readStatus_ecc hm he),
        fun ⟨hm, he, hu⟩ => hs (readStatus_unwritten hm he hu), fun ⟨hm, he, hu⟩ => hs (readStatus_whole hm he hu)⟩
    case flushDone =>
      intro left waits lost
      refine ⟨fun h => hnx (effFlushDone_waits hc h), fun ⟨h3, hb, hw⟩ => ?_⟩
      have hd := effFlushDone_ends hc h3 hb hw
      refine ⟨fun hl => hnx (hd.trans ?_), fun ⟨hl, hk⟩ => hnx (hd.trans ?_), fun ⟨hl, hk⟩ => hnx (hd.trans ?_)⟩
      · rw [if_pos hl]
        rfl
      · rw [if_neg (not_not_intro hl), if_pos (lost_iff.2 hk)]
        rfl
      · rw [if_neg (not_not_intro hl), if_neg (mt lost_iff.1 hk)]
        rfl
    case notLate =>
      rintro ⟨o, ho, h0, hl⟩
      rcases h o ho with hm | hm
      · omega
      · exact absurd hl (Nat.not_le.2 hm)

end Sys2Proof.Proofs.StorageQ
end

