-- ==== Sys2Proof/Proofs/DiskChannels.lean ====
section
/-!
PROOFS. The disk channels: requests, revolutions, geometry and the recovery sweep (R289 to R307).
-/
namespace Sys2Proof.Proofs.DiskChannels

open Sys2Proof.Machine
open Sys2Proof.Laws.Writes
open Sys2Proof.Laws.Servo
open Sys2Proof.Proofs.LinkTraining (setFld_unread fld_of_reg)
open Sys2Proof.Proofs.Lace (flag_of_reg)

variable {s : State} {n : Nat}

/-! ### Requests (R299, R300) -/

section pop
variable {fits : Nat → Bool}

theorem dskPop_closed (h : s.flag (F.DSK_CTRL_EN n) = false ∨ s.reg (R.DSK_SQ n) = 0 ∨ 1024 ≤ s.dskHeld n ∨ s.drying = true) :
    s.dskPop n fits = s := by
  refine if_pos ?_
  rcases h with h | h | h | h
  · exact .inr (.inl h)
  · exact .inr (.inr (.inl (by rw [h]; rfl)))
  · exact .inr (.inr (.inr (.inl h)))
  · exact .inr (.inr (.inr (.inr h)))

theorem dskPop_takes {k : Nat} {r : Ring} {t : State} {l : List Byte} (hd : s.hasDch n = true)
    (he : s.flag (F.DSK_CTRL_EN n) = true) (hq : s.reg (R.DSK_SQ n) ≠ 0) (hh : s.dskHeld n < 1024) (hdry : s.drying = false)
    (hr : s.usableRing (s.reg (R.DSK_SQ n)).toNat 2 = some (k, r)) (h0 : r.count ≠ 0)
    (hf : fits (s.rdLe (r.entryAddr r.cons) 4 % 16) = true) (hp : s.ringPop k r = (t, .entry l)) :
    s.dskPop n fits = State.dskTake n (t, .entry l) := by
  have hopen : ¬(s.hasDch n = false ∨ s.flag (F.DSK_CTRL_EN n) = false ∨ (s.reg (R.DSK_SQ n)).toNat = 0 ∨ 1024 ≤ s.dskHeld n
      ∨ s.drying = true) := by
    rintro (c | c | c | c | c)
    · exact absurd (hd.symm.trans c) (by decide)
    · exact absurd (he.symm.trans c) (by decide)
    · exact hq (BitVec.eq_of_toNat_eq c)
    · exact absurd c (Nat.not_le.2 hh)
    · exact absurd (hdry.symm.trans c) (by decide)
  unfold State.dskPop
  dsimp only
  rw [if_neg hopen, hr]
  refine (if_neg ?_).trans (congrArg (State.dskTake n) hp)
  rintro (c | c)
  · exact h0 c
  · exact absurd (hf.symm.trans c) (by decide)

/-- A request read from its ring joins the channel's. -/
def joined (t : State) (n : Nat) (l : List Byte) : State := t.modDsk n (fun x => { x with reqs := x.reqs ++ [parseReq l] })

theorem dskTake_kept {t : State} {l : List Byte} (h : t.reqStatus n (parseReq l) l = none) :
    State.dskTake n (t, .entry l) = joined t n l := by
  unfold State.dskTake
  dsimp only
  rw [h]
  rfl

theorem dskTake_ended {t : State} {l : List Byte} {st : Nat} (h : t.reqStatus n (parseReq l) l = some st) :
    State.dskTake n (t, .entry l) = ((joined t n l).dskComplete n (vget t.dsk n).reqs.length st).dropDone n := by
  unfold State.dskTake
  dsimp only
  rw [h]
  rfl

end pop

section status
variable {q : DskReq} {l : List Byte} (hm : s.reqMalformed q l = false) (ho : s.chanOffline n = false)

theorem reqStatus_malformed (h : s.reqMalformed q l = true) : s.reqStatus n q l = some 5 := if_pos h

/-- The checks of a request that its form and the channel's service state pass. -/
def placeStatus (s : State) (n : Nat) (q : DskReq) : Option Nat :=
  if (!q.rsv && (!s.flag (F.DSK_STATUS_READY n) || decide (s.chanCap n < lget q.blks 0 + q.count))) = true then some 8
  else if q.op = 0 ∧ (s.rlock (n / 2) = false ∨ s.slotStart (n / 2) q.slot < 20000) then some 3
  else if q.op = 0 ∧ (s.oneTrack n q = false ∨ (vget s.dsk n).reqs.any (fun r =>
      r.booked && !r.started && r.slot == q.slot && s.reqTrack n r 0 != s.reqTrack n q 0) = true) then some 4
  else none

include hm in
theorem reqStatus_offline (h : s.chanOffline n = true) : s.reqStatus n q l = some 7 :=
  (if_neg (by rw [hm]; decide)).trans (if_pos h)

include hm ho in
theorem reqStatus_place : s.reqStatus n q l = placeStatus s n q :=
  (if_neg (by rw [hm]; decide)).trans (if_neg (by rw [ho]; decide))

/-- Blocks that the channel does not hold. -/
theorem missing_iff (cap last : Nat) (ready : Bool) :
    (!q.rsv && (!ready || decide (cap < last))) = true ↔ q.rsv = false ∧ (ready = false ∨ cap < last) := by
  simp

theorem held_iff (cap last : Nat) (ready : Bool) :
    (!q.rsv && (!ready || decide (cap < last))) = false ↔ q.rsv = true ∨ ready = true ∧ last ≤ cap := by
  simp only [Bool.and_eq_false_iff, Bool.not_eq_false', Bool.or_eq_false_iff, decide_eq_false_iff_not, Nat.not_lt]

section held
variable (hh : q.rsv = true ∨ s.flag (F.DSK_STATUS_READY n) = true ∧ lget q.blks 0 + q.count ≤ s.chanCap n)
include hh

theorem placeStatus_held : placeStatus s n q
    = if q.op = 0 ∧ (s.rlock (n / 2) = false ∨ s.slotStart (n / 2) q.slot < 20000) then some 3
      else if q.op = 0 ∧ (s.oneTrack n q = false ∨ (vget s.dsk n).reqs.any (fun r =>
        r.booked && !r.started && r.slot == q.slot && s.reqTrack n r 0 != s.reqTrack n q 0) = true) then some 4
      else none :=
  if_neg (by rw [(held_iff _ _ _).2 hh]; decide)

theorem placeStatus_read (h : q.op ≠ 0) : placeStatus s n q = none :=
  (placeStatus_held hh).trans ((if_neg fun c => h c.1).trans (if_neg fun c => h c.1))

variable (h0 : q.op = 0)
include h0

theorem placeStatus_late (h : s.rlock (n / 2) = false ∨ s.slotStart (n / 2) q.slot < 20000) : placeStatus s n q = some 3 :=
  (placeStatus_held hh).trans (if_pos ⟨h0, h⟩)

theorem placeStatus_stage (hr : s.rlock (n / 2) = true) (ht : 20000 ≤ s.slotStart (n / 2) q.slot) : placeStatus s n q
    = if s.oneTrack n q = false ∨ (vget s.dsk n).reqs.any (fun r =>
        r.booked && !r.started && r.slot == q.slot && s.reqTrack n r 0 != s.reqTrack n q 0) = true then some 4 else none := by
  refine (placeStatus_held hh).trans ((if_neg ?_).trans (if_congr (and_iff_right h0) rfl rfl))
  rintro ⟨-, c | c⟩
  · exact absurd (hr.symm.trans c) (by decide)
  · exact absurd ht (Int.not_le.2 c)

end held

end status

theorem reaim_stays (h : (vget s.dsk n).pass ≠ none ∨ s.nextBooking n ((s.slotNow (n / 2) + 1) % 2 ^ 32) = none) :
    s.reaim n = s := by
  by_cases hp : (vget s.dsk n).pass = none
  · refine (if_neg (not_not_intro hp)).trans ?_
    rw [h.resolve_left (not_not_intro hp)]
  · exact if_pos hp

theorem reaim_aims {b : Nat} (hp : (vget s.dsk n).pass = none)
    (h : s.nextBooking n ((s.slotNow (n / 2) + 1) % 2 ^ 32) = some b) : s.reaim n = s.aimAt n b := by
  refine (if_neg (not_not_intro hp)).trans ?_
  rw [h]

/-! ### Revolutions (R295, R296) -/

theorem revolution_free {reads : List SectorRead} (h : (vget s.dsk n).pass = none) :
    s.revolution n reads = s.planPass n ((s.slotNow (n / 2) + 1) % 2 ^ 32) := by
  unfold State.revolution
  rw [h]

theorem revolution_pass {reads : List SectorRead} {g : DskPass} (h : (vget s.dsk n).pass = some g) :
    s.revolution n reads
      = if s.passOver n g then (s.endPass n g reads).planPass n ((s.slotNow (n / 2) + 1) % 2 ^ 32) else s := by
  unfold State.revolution
  rw [h]

theorem modDsk_id {f : DskSt → DskSt} (h : f (vget s.dsk n) = vget s.dsk n) : s.modDsk n f = s := by
  have hv : vmod s.dsk n f = s.dsk := by
    unfold vmod vget at *
    split
    · rename_i hn
      rw [dif_pos hn] at h
      rw [h]
      exact Vector.set_getElem_self hn
    · rfl
  unfold State.modDsk
  rw [hv]

/-- A channel without requests and staged data plans nothing. -/
theorem planPass_idle (hr : (vget s.dsk n).reqs = []) (hs : s.stq.staged = []) (k : Nat) : s.planPass n k = s := by
  have hw : ∀ f, s.reqsWhere n f = [] := fun f => by
    unfold State.reqsWhere
    rw [hr]
    rfl
  have hstaged : s.stagedFor n = [] := by
    unfold State.stagedFor
    rw [hs]
    rfl
  have hwrite : s.writeWork n = .idle := by
    unfold State.writeWork
    rw [hstaged, hw]
    split <;> rfl
  have hwork : s.revWork n k = .idle := by
    unfold State.revWork
    rw [hw, hw, hw, hwrite]
    cases s.rlock (n / 2) <;> rfl
  have hnext : s.nextBooking n k = none := by
    unfold State.nextBooking
    rw [hw]
  have hdrop : s.dropDone n = s := modDsk_id (by
    rw [hr, List.filter_nil, ← hr])
  have hall : s.each (List.range (vget s.dsk n).reqs.length) (fun t j => t.advanceReq n k j) = s := by
    rw [hr]
    rfl
  have hall' : s.each (List.range (vget s.dsk n).reqs.length) (fun t j => (t.endSpent n k j).formTemp n j) = s := by
    rw [hr]
    rfl
  unfold State.planPass
  dsimp only
  rw [hall, hall', hdrop]
  unfold State.choose
  rw [hwork, hnext]

/-- With no step skipped the ladder's steps follow one another. -/
theorem nextStep_all (h : s.fld (F.DSK_LADDER_SKIP n) = 0) : ∀ k < 9, s.nextStep n k = if k < 8 then some (k + 1) else none := by
  unfold State.nextStep
  rw [h]
  decide

/-! ### The geometry (R287, R289) -/

section geometry
variable {v : Word}

theorem effDskCtrl_plain (h1 : bits v.toNat 1 1 = 0) (h2 : bits v.toNat 2 1 = 0) :
    effDskCtrl n v s = s.plainWrite (R.DSK_CTRL n) v := by
  show (((s.plainWrite (R.DSK_CTRL n) v).when (bits v.toNat 1 1 == 1) _).when (bits v.toNat 2 1 == 1) _) = _
  rw [h1, h2]
  rfl

theorem effDskCtrl_apply (h1 : bits v.toNat 1 1 = 1) (h2 : bits v.toNat 2 1 = 0) :
    effDskCtrl n v s = effDskApply n (s.plainWrite (R.DSK_CTRL n) v) := by
  show (((s.plainWrite (R.DSK_CTRL n) v).when (bits v.toNat 1 1 == 1) _).when (bits v.toNat 2 1 == 1) _) = _
  rw [h1, h2]
  rfl

theorem effDskCtrl_release (h1 : bits v.toNat 1 1 = 0) (h2 : bits v.toNat 2 1 = 1) :
    effDskCtrl n v s = effDskRelease n (s.plainWrite (R.DSK_CTRL n) v) := by
  show (((s.plainWrite (R.DSK_CTRL n) v).when (bits v.toNat 1 1 == 1) _).when (bits v.toNat 2 1 == 1) _) = _
  rw [h1, h2]
  rfl

theorem effDskApply_busy (h : s.flag (F.DSK_STATUS_READY n) = true ∨ (vget s.dsk n).sweeping = true) : effDskApply n s = s :=
  if_pos h

theorem not_busy (hr : s.flag (F.DSK_STATUS_READY n) = false) (hs : (vget s.dsk n).sweeping = false) :
    ¬(s.flag (F.DSK_STATUS_READY n) = true ∨ (vget s.dsk n).sweeping = true) := by
  rw [hr, hs]
  decide

theorem effDskApply_bad (hr : s.flag (F.DSK_STATUS_READY n) = false) (hs : (vget s.dsk n).sweeping = false)
    (hg : s.geomOk n = false) : effDskApply n s = s.setFlag (F.DSK_STATUS_CFG_ERR n) :=
  (if_neg (not_busy hr hs)).trans (if_neg (by rw [hg]; decide))

/-- The speeds of a geometry fit their fields. -/
theorem geomRpm_lt (s : State) (n : Nat) : (s.geomRpm n).1 < 2 ^ 16 ∧ (s.geomRpm n).2 < 2 ^ 16 := by
  unfold State.geomRpm
  dsimp only
  omega

/-- A geometry accepted: its capacity and speeds, and the sweep begins. -/
theorem effDskApply_good (hn : n < 8) (hr : s.flag (F.DSK_STATUS_READY n) = false) (hs : (vget s.dsk n).sweeping = false)
    (hg : s.geomOk n = true) : (vget (effDskApply n s).dsk n).cap = s.geomCap n
      ∧ (vget (effDskApply n s).dsk n).sweeping = true
      ∧ (effDskApply n s).fld (F.DSK_RPM_RPM_MAX n) = (s.geomRpm n).1
      ∧ (effDskApply n s).fld (F.DSK_RPM_RPM_MIN n) = (s.geomRpm n).2
      ∧ (effDskApply n s).flag (F.DSK_STATUS_READY n) = false := by
  have e : effDskApply n s = ((s.setFld (F.DSK_RPM_RPM_MAX n) (s.geomRpm n).1).setFld (F.DSK_RPM_RPM_MIN n)
      (s.geomRpm n).2).modDsk n (fun c => { c with sweeping := true, cap := s.geomCap n }) :=
    (if_neg (not_busy hr hs)).trans (if_pos hg)
  obtain ⟨h1, h2⟩ := geomRpm_lt s n
  have okm : (F.DSK_RPM_RPM_MAX n).ok := Nat.le_of_ble_eq_true rfl
  have oki : (F.DSK_RPM_RPM_MIN n).ok := Nat.le_of_ble_eq_true rfl
  have hne : R.DSK_RPM n ≠ R.DSK_STATUS n := by
    unfold R.DSK_RPM R.DSK_STATUS
    omega
  have hmod : ∀ t : State, vget (t.modDsk n (fun c => { c with sweeping := true, cap := s.geomCap n })).dsk n
      = { vget t.dsk n with sweeping := true, cap := s.geomCap n } := fun t => vget_vmod_same _ _ hn
  have hfld : ∀ (t : State) f g, (t.modDsk n f).fld g = t.fld g := fun _ _ _ => rfl
  have hflag : ∀ (t : State) f g, (t.modDsk n f).flag g = t.flag g := fun _ _ _ => rfl
  rw [e, hmod, hfld, hfld, hflag]
  refine ⟨rfl, rfl, ?_, ?_, ?_⟩
  · rw [State.fld_setFld_apart _ _ _ _ oki (.inr (.inr (Nat.le_of_ble_eq_true rfl))), State.fld_setFld_same _ _ _ okm]
    exact Nat.mod_eq_of_lt h1
  · rw [State.fld_setFld_same _ _ _ oki]
    exact Nat.mod_eq_of_lt h2
  · exact (flag_of_reg ((setFld_unread _ _ _ hne.symm).trans (setFld_unread _ _ _ hne.symm))).trans hr

theorem effDskRelease_kept (h : (s.volOfChan n).isSome = true ∨ s.dskPending n ≠ 0) : effDskRelease n s = s := if_pos h

theorem effDskRelease_done (hv : s.volOfChan n = none) (hp : s.dskPending n = 0) : effDskRelease n s = s.dskUnready n := by
  refine if_neg ?_
  rintro (c | c)
  · rw [hv] at c
    cases c
  · exact c hp

theorem dskUnready_facts (hn : n < 8) : (s.dskUnready n).flag (F.DSK_STATUS_READY n) = false ∧ (s.dskUnready n).chanCap n = 0
    ∧ (vget (s.dskUnready n).dsk n).sweeping = false := by
  have hk1 : R.DSK_CAP_LO n ≠ R.DSK_CAP_HI n := by
    unfold R.DSK_CAP_LO R.DSK_CAP_HI
    omega
  have hk2 : R.DSK_STATUS n ≠ R.DSK_CAP_HI n := by
    unfold R.DSK_STATUS R.DSK_CAP_HI
    omega
  have hk3 : R.DSK_STATUS n ≠ R.DSK_CAP_LO n := by
    unfold R.DSK_STATUS R.DSK_CAP_LO
    omega
  have hflag : ∀ (t : State) f g, (t.modDsk n f).flag g = t.flag g := fun _ _ _ => rfl
  unfold State.dskUnready
  refine ⟨?_, ?_, congrArg DskSt.sweeping (vget_vmod_same _ _ hn)⟩
  · rw [hflag]
    exact (flag_of_reg ((setFld_unread _ _ _ hk2).trans (State.reg_setReg_ne _ _ hk3))).trans
      (State.flag_clrFlag s (F.DSK_STATUS_READY n) (Nat.le_of_ble_eq_true rfl) rfl)
  · have hcap : ∀ (t : State) f, (t.modDsk n f).chanCap n = t.chanCap n := fun _ _ => rfl
    rw [hcap]
    unfold State.chanCap
    rw [State.fld_setFld_same _ _ _ (Nat.le_of_ble_eq_true rfl), setFld_unread _ (F.DSK_CAP_HI_CAP n) _ hk1,
      State.reg_setReg_same, Nat.zero_mod]
    rfl

end geometry

/-! ### The recovery sweep (R306) -/

section sweep
variable {reads : List SectorRead}

theorem effRecoverySweepDone_waits (h : (vget s.dsk n).sweeping = false ∨ s.sweepWaits n reads = true) :
    effRecoverySweepDone n reads s = s :=
  if_pos h

/-- The state after a sweep whose sectors have been judged: no intent is left and the channel is READY. -/
def swept (t : State) (n cap : Nat) : State :=
  (((((t.modDsk n (fun c => { c with intents := [], sweeping := false })).tornRefresh n).setReg (R.DSK_CAP_LO n)
    (BitVec.ofNat 32 cap)).setFld (F.DSK_CAP_HI_CAP n) (cap / 2 ^ 32)).setFlag (F.DSK_STATUS_READY n))

theorem effRecoverySweepDone_done (hs : (vget s.dsk n).sweeping = true) (hw : s.sweepWaits n reads = false) :
    ∃ t, effRecoverySweepDone n reads s = swept t n (vget s.dsk n).cap :=
  ⟨_, if_neg (by rw [hs, hw]; decide)⟩

/-- The list of intents counted, and FULL as its length says. -/
theorem tornRefresh_eq (t : State) : ∃ u : State, t.tornRefresh n = u ∧ u.dsk = t.dsk
    ∧ u.fld (F.DSK_TORN_ENTRIES n) = (vget t.dsk n).intents.length % 2 ^ 6 := by
  refine ⟨_, rfl, ?_, ?_⟩
  · unfold State.tornRefresh
    simp only [State.raiseIf_frame, State.putFlag_frame, State.setFld_frame]
  · have hne : R.DSK_STATUS n ≠ R.DSK_TORN n := by
      unfold R.DSK_STATUS R.DSK_TORN
      omega
    have hraise : ∀ (u : State) b k f, (u.raiseIf b k).fld f = u.fld f := fun u b k f => by
      cases b <;> rfl
    unfold State.tornRefresh State.putFlag
    dsimp only
    rw [hraise, State.fld_setFld_apart _ _ _ _ (Nat.le_of_ble_eq_true rfl) (.inl hne),
      State.fld_setFld_same _ _ _ (Nat.le_of_ble_eq_true rfl)]
    rfl

theorem swept_facts (hn : n < 8) (t : State) (cap : Nat) : (swept t n cap).flag (F.DSK_STATUS_READY n) = true
    ∧ (vget (swept t n cap).dsk n).sweeping = false ∧ (vget (swept t n cap).dsk n).intents = []
    ∧ (swept t n cap).fld (F.DSK_TORN_ENTRIES n) = 0 ∧ (cap < 2 ^ 48 → (swept t n cap).chanCap n = cap) := by
  have hmod : vget (t.modDsk n (fun c => { c with intents := [], sweeping := false })).dsk n
      = { vget t.dsk n with intents := [], sweeping := false } := vget_vmod_same _ _ hn
  have hk1 : R.DSK_STATUS n ≠ R.DSK_TORN n ∧ R.DSK_CAP_HI n ≠ R.DSK_TORN n ∧ R.DSK_CAP_LO n ≠ R.DSK_TORN n
      ∧ R.DSK_CAP_LO n ≠ R.DSK_CAP_HI n ∧ R.DSK_STATUS n ≠ R.DSK_CAP_HI n ∧ R.DSK_STATUS n ≠ R.DSK_CAP_LO n := by
    unfold R.DSK_STATUS R.DSK_TORN R.DSK_CAP_LO R.DSK_CAP_HI
    omega
  obtain ⟨ht1, ht2, ht3, hk, ht4, ht5⟩ := hk1
  obtain ⟨u, hu, hd, ht⟩ := tornRefresh_eq (n := n) (t.modDsk n (fun c => { c with intents := [], sweeping := false }))
  rw [hmod] at ht
  have hdsk : (swept t n cap).dsk = u.dsk := by
    unfold swept
    rw [hu]
    simp only [State.setFlag_frame, State.setFld_frame, State.setReg_frame]
  have hv : vget (swept t n cap).dsk n = { vget t.dsk n with intents := [], sweeping := false } := by
    rw [hdsk, hd, hmod]
  refine ⟨State.flag_setFlag _ _ (Nat.le_of_ble_eq_true rfl) rfl, congrArg DskSt.sweeping hv, congrArg DskSt.intents hv, ?_,
    fun hc => ?_⟩
  · refine (fld_of_reg ((setFld_unread _ _ _ ht1.symm).trans ((setFld_unread _ _ _ ht2.symm).trans
      (State.reg_setReg_ne _ _ ht3.symm)))).trans ?_
    rw [hu]
    exact ht
  · refine cap48 _ _ _ hc ?_ ((setFld_unread _ _ _ ht5.symm).trans ((setFld_unread _ _ _ hk).trans (State.reg_setReg_same _ _ _)))
    refine (fld_of_reg (setFld_unread _ _ _ ht4.symm)).trans ((State.fld_setFld_same _ _ _ (Nat.le_of_ble_eq_true rfl)).trans ?_)
    exact Nat.mod_eq_of_lt (by show cap / 2 ^ 32 < 2 ^ 16; omega)

end sweep

end Sys2Proof.Proofs.DiskChannels
end

