-- ==== Sys2Proof/Proofs/Servos.lean ====
section
/-!
PROOFS. The servos: selvage frames, the write guard, parking and removal (R312 to R320).
-/
namespace Sys2Proof.Proofs.Servos

open Sys2Proof.Machine
open Sys2Proof.Laws.Writes
open Sys2Proof.Laws.Servo
open Sys2Proof.Proofs.LinkTraining (setFld_unread)
open Sys2Proof.Proofs.Lace (flag_of_reg)
open Sys2Proof.Proofs.DiskChannels

variable {s : State} {d : Fin 8}

/-! ### The write guard (R317) -/

/-- What closes the gate. -/
theorem guardCond_of (h : s.fld (F.SRV_SHK_SHK_THR (d.val / 2)) < (s.act d.val).shkA.natAbs
      ∨ s.fld (F.SRV_SHK_SHK_THR (d.val / 2)) < (s.act d.val).shkB.natAbs
      ∨ s.fld (F.SRV_ACFG_WLIM (d.val / 2) (d.val % 2)) < (s.act d.val).pes.natAbs
      ∨ s.settled d.val = false ∨ s.flag (F.SRV_ASTAT_PARKED (d.val / 2) (d.val % 2)) = true
      ∨ s.flag (F.SRV_ASTAT_SEL_LOST (d.val / 2) (d.val % 2)) = true ∨ s.dskLock d.val = false) :
    s.guardCond d.val = true := by
  unfold State.guardCond
  simp only [Bool.or_eq_true, decide_eq_true_eq, Bool.not_eq_true', Int.ofNat_lt]
  tauto

theorem guardCond_unsettled (h : s.settled d.val = false) : s.guardCond d.val = true :=
  guardCond_of (.inr (.inr (.inr (.inl h))))

theorem guardJudge_closes (h : s.guardCond d.val = true) : s.guardJudge d.val = s.guardClose d.val := if_pos h

theorem guardFrame_closes (h : s.guardCond d.val = true) : s.guardFrame d.val = s.guardClose d.val := if_pos h

theorem guardJudge_open (h : s.guardCond d.val = false) : s.guardJudge d.val = s.noteDisk d.val :=
  if_neg (by rw [h]; decide)

/-- The gate closes and the run of good frames starts again. -/
theorem guardClose_act (s : State) (d : Fin 8) :
    (s.guardClose d.val).act d.val = { s.act d.val with okRun := 0, guardSeen := true } := by
  have h1 := act_mod s d (fun a => { a with okRun := 0, guardSeen := true })
  have hports : ∀ (t : State) (f g : Fld) k, (((t.setFlag f).addSat g 1).raise k).act d.val = t.act d.val := fun t f g k => by
    unfold State.act
    simp only [State.raise_frame, State.addSat_frame, State.setFlag_frame]
  unfold State.guardClose
  dsimp only
  generalize s.modAct d.val _ = u at h1 ⊢
  split
  · exact h1
  · rw [note_act, hports, cut_act _ _ d.isLt]
    exact h1

/-- A good frame lengthens the run, and the gate opens with its eighth. -/
theorem guardFrame_open (h : s.guardCond d.val = false) : ((s.guardFrame d.val).act d.val).okRun = (s.act d.val).okRun + 1
    ∧ (s.guardFrame d.val).flag (F.SRV_ASTAT_GUARD (d.val / 2) (d.val % 2))
      = if 7 ≤ (s.act d.val).okRun then false else s.flag (F.SRV_ASTAT_GUARD (d.val / 2) (d.val % 2)) := by
  have h1 := act_mod s d (fun a => { a with okRun := (s.act d.val).okRun + 1 })
  have hf : ∀ g, (s.modAct d.val (fun a => { a with okRun := (s.act d.val).okRun + 1 })).flag g = s.flag g := fun _ => rfl
  unfold State.guardFrame
  rw [if_neg (by rw [h]; decide)]
  dsimp only
  rw [note_act, note_flag]
  generalize s.modAct d.val _ = u at h1 hf ⊢
  have hact : ∀ f, (u.clrFlag f).act d.val = u.act d.val := fun f => by
    unfold State.act
    simp only [State.clrFlag_frame]
  by_cases h7 : 7 ≤ (s.act d.val).okRun
  · rw [if_pos (by omega), if_pos h7]
    exact ⟨congrArg ActSt.okRun ((hact _).trans h1), State.flag_clrFlag u _ (Nat.le_of_ble_eq_true rfl) rfl⟩
  · rw [if_neg (by omega), if_neg h7]
    exact ⟨congrArg ActSt.okRun h1, hf _⟩

/-- Judging the conditions leaves what moves the actuator. -/
theorem guardJudge_act (s : State) (d : Fin 8) :
    ∃ o b, (s.guardJudge d.val).act d.val = { s.act d.val with okRun := o, guardSeen := b } := by
  unfold State.guardJudge
  split
  · exact guard_mod s d
  · exact ⟨_, _, rfl⟩

/-- Judging the conditions leaves the actuator's flags but GUARD. -/
theorem guardJudge_flag {g : Fld} (hg : g.width = 1) (h1 : (F.SRV_ASTAT_GUARD (d.val / 2) (d.val % 2)).apart g)
    (h2 : g.key = R.SRV_ASTAT (d.val / 2) (d.val % 2)) : (s.guardJudge d.val).flag g = s.flag g := by
  unfold State.guardJudge
  split
  · exact guard_act s d.val d.isLt g hg h1 h2
  · rfl

/-- An actuator that no longer counts as settled closes its gate. -/
theorem unsettle_facts (s : State) (d : Fin 8) : (s.unsettle d.val).settled d.val = false
    ∧ (s.unsettle d.val).flag (F.SRV_ASTAT_GUARD (d.val / 2) (d.val % 2)) = true
    ∧ (∀ g : Fld, g.width = 1 → (F.SRV_ASTAT_GUARD (d.val / 2) (d.val % 2)).apart g →
        (F.SRV_ASTAT_SETTLED (d.val / 2) (d.val % 2)).apart g → g.key = R.SRV_ASTAT (d.val / 2) (d.val % 2) →
        (s.unsettle d.val).flag g = s.flag g)
    ∧ ∃ o b, (s.unsettle d.val).act d.val = { s.act d.val with okRun := o, guardSeen := b } := by
  have hs : (s.clrFlag (F.SRV_ASTAT_SETTLED (d.val / 2) (d.val % 2))).settled d.val = false :=
    State.flag_clrFlag s (F.SRV_ASTAT_SETTLED (d.val / 2) (d.val % 2)) (Nat.le_of_ble_eq_true rfl) rfl
  have hact : (s.clrFlag (F.SRV_ASTAT_SETTLED (d.val / 2) (d.val % 2))).act d.val = s.act d.val := by
    unfold State.act
    simp only [State.clrFlag_frame]
  have hclr : ∀ g : Fld, g.width = 1 → (F.SRV_ASTAT_SETTLED (d.val / 2) (d.val % 2)).apart g →
      (s.clrFlag (F.SRV_ASTAT_SETTLED (d.val / 2) (d.val % 2))).flag g = s.flag g := fun g hg ha =>
    setFld_flag_apart _ _ _ _ (Nat.le_of_ble_eq_true rfl) hg ha
  unfold State.unsettle
  generalize s.clrFlag _ = u at hs hact hclr ⊢
  refine ⟨(guardJudge_flag rfl (.inr (.inr (Nat.le_of_ble_eq_true rfl))) rfl).trans hs, ?_,
    fun g hg h1 h2 h3 => (guardJudge_flag hg h1 h3).trans (hclr g hg h2), hact ▸ guardJudge_act u d⟩
  rw [guardJudge_closes (guardCond_unsettled hs)]
  exact guard_true u d.val d.isLt

/-! ### Selvage frames (R312, R313) -/

/-- A bad frame counted. -/
def counted (s : State) (d : Nat) : State :=
  (s.addSat (F.SRV_ACNT_BADFR (d / 2) (d % 2)) 1).modAct d (fun k => { k with badRun := k.badRun + 1, okRun := 0 })

theorem counted_act (s : State) (d : Fin 8) :
    (counted s d.val).act d.val = { s.act d.val with badRun := (s.act d.val).badRun + 1, okRun := 0 } := by
  have h : (s.addSat (F.SRV_ACNT_BADFR (d.val / 2) (d.val % 2)) 1).act d.val = s.act d.val := by
    unfold State.act
    simp only [State.addSat_frame]
  unfold counted
  rw [act_mod, h]

theorem counted_flag {g : Fld} (h : g.key = R.SRV_ASTAT (d.val / 2) (d.val % 2)) : (counted s d.val).flag g = s.flag g := by
  have hne : g.key ≠ (F.SRV_ACNT_BADFR (d.val / 2) (d.val % 2)).key := by
    rw [h]
    show 0x480118 + 0x10000 * (d.val / 2) + 0x40 * (d.val % 2) ≠ 0x48011c + 0x10000 * (d.val / 2) + 0x40 * (d.val % 2)
    omega
  exact (modAct_flag _ _ _ _).trans (flag_of_reg (setFld_unread s _ _ hne))

/-- A run of bad frames after which the selvage is lost. -/
def deselected (s : State) (d : Nat) : State :=
  (((counted s d).setFlag (F.SRV_ASTAT_SEL_LOST (d / 2) (d % 2))).modAct d (fun k => { k with
    selLostAt := if s.flag (F.SRV_ASTAT_PARKED (d / 2) (d % 2)) then none else some s.now })).unsettle d

theorem badFrame_eq (s : State) (d : Fin 8) : s.badFrame d.val
    = if 7 ≤ (s.act d.val).badRun ∧ s.flag (F.SRV_ASTAT_SEL_LOST (d.val / 2) (d.val % 2)) = false then deselected s d.val
      else counted s d.val := by
  have hb : ((counted s d.val).act d.val).badRun = (s.act d.val).badRun + 1 := congrArg ActSt.badRun (counted_act s d)
  have hf : (counted s d.val).flag (F.SRV_ASTAT_SEL_LOST (d.val / 2) (d.val % 2)) = s.flag _ := counted_flag rfl
  unfold State.badFrame
  show (if 8 ≤ ((counted s d.val).act d.val).badRun
    ∧ (counted s d.val).flag (F.SRV_ASTAT_SEL_LOST (d.val / 2) (d.val % 2)) = false then deselected s d.val else counted s d.val) = _
  rw [hb, hf]
  exact if_congr (and_congr_left' (by omega)) rfl rfl

theorem badFrame_counted (h : (s.act d.val).badRun < 7) : s.badFrame d.val = counted s d.val :=
  (badFrame_eq s d).trans (if_neg fun c => absurd c.1 (Nat.not_le.2 h))

theorem badFrame_again (h : s.flag (F.SRV_ASTAT_SEL_LOST (d.val / 2) (d.val % 2)) = true) :
    s.badFrame d.val = counted s d.val :=
  (badFrame_eq s d).trans (if_neg fun c => absurd (c.2.symm.trans h) (by decide))

theorem badFrame_lost (h : 7 ≤ (s.act d.val).badRun)
    (hf : s.flag (F.SRV_ASTAT_SEL_LOST (d.val / 2) (d.val % 2)) = false) : s.badFrame d.val = deselected s d.val :=
  (badFrame_eq s d).trans (if_pos ⟨h, hf⟩)

theorem effServoFrame_bad {fr : ServoFrame} {t : State} (hd : s.hasDch d.val = true) (h : fr.decode = none)
    (ht : s.badFrame d.val = t) : effServoFrame d.val fr s = t := by
  unfold effServoFrame
  rw [if_neg (by rw [hd]; decide), h]
  exact ht

theorem deselected_facts (s : State) (d : Fin 8) :
    (deselected s d.val).flag (F.SRV_ASTAT_SEL_LOST (d.val / 2) (d.val % 2)) = true
    ∧ (deselected s d.val).settled d.val = false
    ∧ (deselected s d.val).flag (F.SRV_ASTAT_GUARD (d.val / 2) (d.val % 2)) = true
    ∧ ((deselected s d.val).act d.val).selLostAt
      = if s.flag (F.SRV_ASTAT_PARKED (d.val / 2) (d.val % 2)) = true then none else some s.now := by
  have hflag : (((counted s d.val).setFlag (F.SRV_ASTAT_SEL_LOST (d.val / 2) (d.val % 2))).modAct d.val (fun k => { k with
      selLostAt := if s.flag (F.SRV_ASTAT_PARKED (d.val / 2) (d.val % 2)) then none else some s.now })).flag
      (F.SRV_ASTAT_SEL_LOST (d.val / 2) (d.val % 2)) = true :=
    (modAct_flag _ _ _ _).trans (State.flag_setFlag _ _ (Nat.le_of_ble_eq_true rfl) rfl)
  have hact := act_mod ((counted s d.val).setFlag (F.SRV_ASTAT_SEL_LOST (d.val / 2) (d.val % 2))) d (fun k => { k with
      selLostAt := if s.flag (F.SRV_ASTAT_PARKED (d.val / 2) (d.val % 2)) then none else some s.now })
  unfold deselected
  generalize State.modAct _ _ _ = u at hflag hact ⊢
  obtain ⟨h1, h2, h3, o, b, h4⟩ := unsettle_facts u d
  refine ⟨(h3 _ rfl (.inr (.inr (Nat.le_of_ble_eq_true rfl))) (.inr (.inl (Nat.le_of_ble_eq_true rfl))) rfl).trans hflag, h1, h2, ?_⟩
  rw [h4, hact]

/-- The position error of a frame: what its bursts measure against the target. -/
def frameX (s : State) (fr : ServoFrame) : Int :=
  if fr.a.toNat + fr.b.toNat = 0 then sx 8 s.freeWord.toNat
  else clampInt (-128) 127 (divRound (128 * ((fr.a.toNat : Int) - fr.b.toNat)) (fr.a.toNat + fr.b.toNat))

def framePes (s : State) (d cyl : Nat) (x : Int) : Int :=
  clampInt (-32767) 32767 (256 * cyl + x - s.sfld (F.SRV_RDOFF_RDOFF (d / 2) (16 * (d % 2) + (s.tgtOf d).2.1))
    - (256 * (s.tgtOf d).1 + sx 8 (s.tgtOf d).2.2))

/-- What a valid frame says of the actuator, before its conditions are judged. -/
def framed (s s0 : State) (d frame cyl : Nat) (x : Int) : State :=
  (s0.clrFlag (F.SRV_ASTAT_SEL_LOST (d / 2) (d % 2))).modAct d (fun k => { k with
    badRun := 0, selLostAt := none, pes := framePes s d cyl x, cyl := cyl, frame := frame, tFrame := s.now, fresh := true })

/-- A frame off the target's cylinder ends the settling. -/
def judged (t : State) (d cyl : Nat) (target : Nat) : State :=
  if t.settled d ∧ cyl ≠ target then
    (t.setFlag (F.SRV_ASTAT_OFFCYL (d / 2) (d % 2))).clrFlag (F.SRV_ASTAT_SETTLED (d / 2) (d % 2)) else t

theorem effServoFrame_good {fr : ServoFrame} {frame cyl : Nat} (hd : s.hasDch d.val = true)
    (h : fr.decode = some (frame, cyl)) : ∃ c, effServoFrame d.val fr s
      = (judged (framed s { s with freeCtr := c } d.val frame cyl (frameX s fr)) d.val cyl (s.tgtOf d.val).1).guardFrame d.val := by
  have hz : ((fr.a.toNat : Int) + fr.b.toNat = 0) ↔ fr.a.toNat + fr.b.toNat = 0 := by omega
  have hx : (if ((fr.a.toNat : Int) + fr.b.toNat = 0) then sx 8 s.freeWord.toNat
      else clampInt (-128) 127 (divRound (128 * ((fr.a.toNat : Int) - fr.b.toNat)) (fr.a.toNat + fr.b.toNat))) = frameX s fr :=
    if_congr hz rfl rfl
  obtain ⟨c, hc⟩ : ∃ c, (if ((fr.a.toNat : Int) + fr.b.toNat = 0) then s.tookFree else s) = { s with freeCtr := c } := by
    split
    · exact ⟨_, rfl⟩
    · exact ⟨_, rfl⟩
  refine ⟨c, ?_⟩
  unfold effServoFrame
  rw [if_neg (by rw [hd]; decide), h]
  dsimp only
  rw [hx, hc]
  rfl

theorem framed_act (s s0 : State) (d : Fin 8) (frame cyl : Nat) (x : Int) (h : s0.ports = s.ports) :
    (framed s s0 d.val frame cyl x).act d.val = { s.act d.val with
      badRun := 0, selLostAt := none, pes := framePes s d.val cyl x, cyl := cyl, frame := frame, tFrame := s.now, fresh := true } := by
  have ha : (s0.clrFlag (F.SRV_ASTAT_SEL_LOST (d.val / 2) (d.val % 2))).act d.val = s.act d.val := by
    unfold State.act
    simp only [State.clrFlag_frame, h]
  unfold framed
  rw [act_mod, ha]

theorem framed_flag {s0 : State} {frame cyl : Nat} {x : Int} {g : Fld} (hg : g.width = 1)
    (ha : (F.SRV_ASTAT_SEL_LOST (d.val / 2) (d.val % 2)).apart g) : (framed s s0 d.val frame cyl x).flag g = s0.flag g :=
  (modAct_flag _ _ _ _).trans (setFld_flag_apart _ _ _ _ (Nat.le_of_ble_eq_true rfl) hg ha)

theorem framed_selected (s s0 : State) (d : Fin 8) (frame cyl : Nat) (x : Int) :
    (framed s s0 d.val frame cyl x).flag (F.SRV_ASTAT_SEL_LOST (d.val / 2) (d.val % 2)) = false :=
  (modAct_flag _ _ _ _).trans (State.flag_clrFlag _ _ (Nat.le_of_ble_eq_true rfl) rfl)

theorem judged_act (t : State) (d : Fin 8) (cyl target : Nat) : (judged t d.val cyl target).act d.val = t.act d.val := by
  unfold judged
  split
  · unfold State.act
    simp only [State.clrFlag_frame, State.setFlag_frame]
  · rfl

theorem judged_selLost (t : State) (d : Fin 8) (cyl target : Nat) : (judged t d.val cyl target).flag
    (F.SRV_ASTAT_SEL_LOST (d.val / 2) (d.val % 2)) = t.flag (F.SRV_ASTAT_SEL_LOST (d.val / 2) (d.val % 2)) := by
  unfold judged
  split
  · exact (setFld_flag_apart _ _ _ _ (Nat.le_of_ble_eq_true rfl) rfl (.inr (.inl (Nat.le_of_ble_eq_true rfl)))).trans
      (setFld_flag_apart _ _ _ _ (Nat.le_of_ble_eq_true rfl) rfl (.inr (.inr (Nat.le_of_ble_eq_true rfl))))
  · rfl

theorem judged_off {t : State} {cyl target : Nat} (hs : t.settled d.val = true) (hc : cyl ≠ target) :
    (judged t d.val cyl target).settled d.val = false
    ∧ (judged t d.val cyl target).flag (F.SRV_ASTAT_OFFCYL (d.val / 2) (d.val % 2)) = true := by
  unfold judged
  rw [if_pos ⟨hs, hc⟩]
  exact ⟨State.flag_clrFlag _ _ (Nat.le_of_ble_eq_true rfl) rfl,
    (setFld_flag_apart _ _ _ _ (Nat.le_of_ble_eq_true rfl) rfl (.inr (.inl (Nat.le_of_ble_eq_true rfl)))).trans
      (State.flag_setFlag _ _ (Nat.le_of_ble_eq_true rfl) rfl)⟩

/-! ### Samples, the VCM and the target (R314 to R316) -/

section target
variable {v : Word}

theorem effServoSample_idle (h : s.now % 5000 ≠ 0 ∨ (s.act d.val).sampleAt = some s.now) : effServoSample d.val s = s :=
  if_pos (.inr h)

theorem effServoSample_due (hd : s.hasDch d.val = true) (h0 : s.now % 5000 = 0) (h : (s.act d.val).sampleAt ≠ some s.now) :
    effServoSample d.val s
      = ((s.memWriteWords reqCore (dramBaseOf (16 + d.val) + bits (s.reg (R.SRV_SMPL (d.val / 2) (d.val % 2))).toNat 0 16
          + 32 * ((s.act d.val).samples % 16)) (s.sampleRecord d.val)).1.modAct d.val (fun x => { x with
        samples := x.samples + 1, sampleAt := some s.now, fresh := false
        guardSeen := false, sinceVcm := x.sinceVcm + 1 })).srvEvent d.val 0 := by
  refine if_neg ?_
  rintro (c | c | c)
  · exact absurd (hd.symm.trans c) (by decide)
  · exact c h0
  · exact h c

theorem effVcmWatchdog_idle (h : s.flag (F.SRV_ASTAT_PARKED (d.val / 2) (d.val % 2)) = true
    ∨ (s.act d.val).sinceVcm < max 1 (s.fld (F.SRV_ACFG_VCM_WD (d.val / 2) (d.val % 2)))) : effVcmWatchdog d.val s = s :=
  if_pos (.inr h)

theorem effVcmWatchdog_due (hd : s.hasDch d.val = true) (hp : s.flag (F.SRV_ASTAT_PARKED (d.val / 2) (d.val % 2)) = false)
    (h : max 1 (s.fld (F.SRV_ACFG_VCM_WD (d.val / 2) (d.val % 2))) ≤ (s.act d.val).sinceVcm) : effVcmWatchdog d.val s
      = ((s.setFlag (F.SRV_ASTAT_WD (d.val / 2) (d.val % 2))).modAct d.val (fun k => { k with sinceVcm := 0 })).emergencyPark
          d.val := by
  refine if_neg ?_
  rintro (c | c | c)
  · exact absurd (hd.symm.trans c) (by decide)
  · exact absurd (hp.symm.trans c) (by decide)
  · exact absurd h (Nat.not_le.2 c)

theorem settleOn_settled (s : State) (d : Fin 8) : (s.settleOn d.val).settled d.val = true :=
  (note_flag _ _ _).trans (State.flag_setFlag s (F.SRV_ASTAT_SETTLED (d.val / 2) (d.val % 2)) (Nat.le_of_ble_eq_true rfl) rfl)

end target

/-! ### Parking and removal (R318 to R320) -/

section parking
variable {v : Word}

theorem actuator (d : Fin 8) : 2 * (d.val / 2) + d.val % 2 = d.val := Nat.div_add_mod d.val 2

theorem effSrvCtrl_park (h : bits v.toNat 0 2 = 2 ^ (d.val % 2)) (h' : bits v.toNat 2 2 = 0) :
    effSrvCtrl (d.val / 2) v s = s.park d.val := by
  have hu : setBitsOf 2 ((F.SRV_CTRL_UNPARK (d.val / 2)).of v) = [] := by
    rw [show (F.SRV_CTRL_UNPARK (d.val / 2)).of v = 0 from h']
    rfl
  have hp := two_set d (F.SRV_CTRL_PARK (d.val / 2)) v rfl h
  unfold effSrvCtrl
  rw [hu, hp]
  exact congrArg (s.park ·) (actuator d)

theorem effSrvCtrl_unpark (h : bits v.toNat 0 2 = 0) (h' : bits v.toNat 2 2 = 2 ^ (d.val % 2)) :
    effSrvCtrl (d.val / 2) v s = s.unpark d.val := by
  have hp : setBitsOf 2 ((F.SRV_CTRL_PARK (d.val / 2)).of v) = [] := by
    rw [show (F.SRV_CTRL_PARK (d.val / 2)).of v = 0 from h]
    rfl
  have hu := two_set d (F.SRV_CTRL_UNPARK (d.val / 2)) v rfl h'
  unfold effSrvCtrl
  rw [hu, hp]
  exact congrArg (s.unpark ·) (actuator d)

/-- A release while the spindle runs: the actuator may move. -/
theorem unpark_running (h : (vget s.mots (4 + d.val / 2)).state = .run) :
    (s.unpark d.val).flag (F.SRV_ASTAT_PARKED (d.val / 2) (d.val % 2)) = false
    ∧ ((s.unpark d.val).act d.val).sinceVcm = 0 ∧ (vget (s.unpark d.val).ports (d.val / 2)).retract = false := by
  have hd := d.isLt
  obtain ⟨f, hf, e⟩ : ∃ f : ActSt → ActSt, (∀ a, (f a).sinceVcm = 0) ∧ s.unpark d.val
      = ((s.clrFlag (F.SRV_ASTAT_PARKED (d.val / 2) (d.val % 2))).modAct d.val f).modPort (d.val / 2)
        (fun p => { p with retract := false }) :=
    ⟨_, fun _ => rfl, if_neg (not_not_intro h)⟩
  rw [e]
  have ha := act_mod (s.clrFlag (F.SRV_ASTAT_PARKED (d.val / 2) (d.val % 2))) d f
  have hp : ∀ t : State, vget (t.modPort (d.val / 2) (fun p => { p with retract := false })).ports (d.val / 2)
      = { vget t.ports (d.val / 2) with retract := false } := fun t => vget_vmod_same _ _ (by omega)
  refine ⟨State.flag_clrFlag s (F.SRV_ASTAT_PARKED (d.val / 2) (d.val % 2)) (Nat.le_of_ble_eq_true rfl) rfl, ?_,
    congrArg PortSt.retract (hp _)⟩
  generalize State.modAct _ _ _ = u at ha ⊢
  have hact : (u.modPort (d.val / 2) (fun p => { p with retract := false })).act d.val = u.act d.val :=
    (congrArg (fun p : PortSt => vget p.act (d.val % 2)) (hp u) :)
  rw [hact, ha]
  exact hf _

theorem effParkComplete_none (h : (s.act d.val).parkAt = none) : effParkComplete d.val s = s := by
  unfold effParkComplete
  rw [h]

theorem effParkComplete_early {t0 : Nat} (h : (s.act d.val).parkAt = some t0)
    (ht : s.now < t0 + 1000000 * s.fld (F.SRV_PARKCFG_PARK_MS (d.val / 2))) : effParkComplete d.val s = s := by
  unfold effParkComplete
  rw [h]
  exact if_neg (Nat.not_le.2 ht)

/-- The actuator has reached its park position. -/
def parkedNow (s : State) (d : Nat) : State :=
  ((s.setFlag (F.SRV_ASTAT_PARKED (d / 2) (d % 2))).modAct d (fun a => { a with
    parkAt := none, vcm := 0, selLostAt := none })).unsettle d

theorem effParkComplete_done {t0 : Nat} (h : (s.act d.val).parkAt = some t0)
    (ht : t0 + 1000000 * s.fld (F.SRV_PARKCFG_PARK_MS (d.val / 2)) ≤ s.now) : effParkComplete d.val s = parkedNow s d.val := by
  unfold effParkComplete
  rw [h]
  exact if_pos ht

theorem parkedNow_facts (s : State) (d : Fin 8) :
    (parkedNow s d.val).flag (F.SRV_ASTAT_PARKED (d.val / 2) (d.val % 2)) = true ∧ (parkedNow s d.val).settled d.val = false
    ∧ ((parkedNow s d.val).act d.val).vcm = 0 ∧ ((parkedNow s d.val).act d.val).parkAt = none := by
  have hflag : ((s.setFlag (F.SRV_ASTAT_PARKED (d.val / 2) (d.val % 2))).modAct d.val (fun a => { a with
      parkAt := none, vcm := 0, selLostAt := none })).flag (F.SRV_ASTAT_PARKED (d.val / 2) (d.val % 2)) = true :=
    (modAct_flag _ _ _ _).trans (State.flag_setFlag _ _ (Nat.le_of_ble_eq_true rfl) rfl)
  have hact := act_mod (s.setFlag (F.SRV_ASTAT_PARKED (d.val / 2) (d.val % 2))) d (fun a => { a with
      parkAt := none, vcm := 0, selLostAt := none })
  unfold parkedNow
  generalize State.modAct _ _ _ = u at hflag hact ⊢
  obtain ⟨h1, -, h3, o, b, h4⟩ := unsettle_facts u d
  refine ⟨(h3 _ rfl (.inr (.inr (Nat.le_of_ble_eq_true rfl))) (.inr (.inl (Nat.le_of_ble_eq_true rfl))) rfl).trans hflag, h1, ?_, ?_⟩
  · rw [h4, hact]
  · rw [h4, hact]

theorem effSelLostTimeout_idle (h : (s.act d.val).selLostAt = none
    ∨ s.flag (F.SRV_ASTAT_PARKED (d.val / 2) (d.val % 2)) = true) : effSelLostTimeout d.val s = s := by
  unfold effSelLostTimeout
  cases hl : (s.act d.val).selLostAt with
  | none => rfl
  | some t =>
    have hp := h.resolve_left (by rw [hl]; exact nofun)
    exact if_neg fun c => absurd (hp.symm.trans c.2) (by decide)

theorem effSelLostTimeout_of {t0 : Nat} (h : (s.act d.val).selLostAt = some t0) : effSelLostTimeout d.val s
    = if t0 + 1000000 ≤ s.now ∧ s.flag (F.SRV_ASTAT_PARKED (d.val / 2) (d.val % 2)) = false then
      (s.modAct d.val (fun a => { a with selLostAt := none })).emergencyPark d.val else s := by
  unfold effSelLostTimeout
  rw [h]

section presence
variable {h : Fin 4} {present : Bool} {held : Nat}

theorem effHdaPresChange_short (hc : s.flag (F.SRV_SPSTAT_PRES h.val) = present ∨ held < 500000000) :
    effHdaPresChange h.val present held s = s :=
  if_pos (.inr hc)

variable (hh : s.hasHda h.val = true) (hl : 500000000 ≤ held)
include hh hl

theorem presence_changes (hp : s.flag (F.SRV_SPSTAT_PRES h.val) = !present) :
    ¬(s.hasHda h.val = false ∨ s.flag (F.SRV_SPSTAT_PRES h.val) = present ∨ held < 500000000) := by
  rintro (c | c | c)
  · exact absurd (hh.symm.trans c) (by decide)
  · cases present
    · exact absurd (hp.symm.trans c) (by decide)
    · exact absurd (hp.symm.trans c) (by decide)
  · omega

theorem effHdaPresChange_in (hp : s.flag (F.SRV_SPSTAT_PRES h.val) = false) : effHdaPresChange h.val true held s
    = ((s.putFlag (F.SRV_SPSTAT_PRES h.val) true).each [2 * h.val, 2 * h.val + 1]
        (fun t d => if t.dcsvc d = 0 then t.clrFlag (F.DSK_STATUS_OFFLINE d) else t)).volRefresh :=
  (if_neg (presence_changes (present := true) hh hl hp)).trans (if_pos rfl)

/-- What a removal leaves of the port's channels. -/
def removed (s : State) (h : Nat) : State :=
  ((s.putFlag (F.SRV_SPSTAT_PRES h) false).setFlag (F.SRV_SPSTAT_REMOVED h)).each [2 * h, 2 * h + 1]
    (fun t d => (((t.stopPass d).dskUnready d).setFlag (F.DSK_STATUS_OFFLINE d)).dskDropAll d 3)

theorem effHdaPresChange_out (hp : s.flag (F.SRV_SPSTAT_PRES h.val) = true) : effHdaPresChange h.val false held s
    = if s.portParked h.val then (removed s h.val).volRefresh
      else ((((removed s h.val).volRefresh.motOff (4 + h.val)).emergencyPark (2 * h.val)).emergencyPark
        (2 * h.val + 1)).raise (280 + h.val) :=
  (if_neg (presence_changes (present := false) hh hl hp)).trans (if_neg Bool.false_ne_true)

end presence

end parking

/-- Settles O55: the requests, revolutions and geometry of a channel, then the servo; each by its own lemma. An actuator
that is not settled closes its write gate, whence what a lost selvage, a frame off the cylinder and a park say of the
guard. What the model chose stands in log entries 65, 68, 133 and 134: UNPARK before PARK and both rejections of it, and a
VCM write that a park ignores. -/
theorem disksAndServos : Obligations.DisksAndServos := by
  unfold Obligations.DisksAndServos
  intro s d h v reads fr sa sb present held hd hh n p a c next ready parked
  have hn : n < 8 := d.isLt
  have hnx : ∀ {a b : State}, a = b → next a = next b := congrArg next
  obtain ⟨hw40, hw48⟩ := dsk_win s d hd
  have hu : ∀ {g : State → State} {t}, g s = t → next (s.onUnit (s.hasDch d.val) g) = next t := fun hg =>
    congrArg next ((onUnit_present s _ _ hd).trans hg)
  have hctl : ∀ {g : State → State} {t}, g s = t → next (s.onWindow (0x40 + d.val) g) = next t := fun hg =>
    congrArg next ((onWindow_present s _ _ hw40).trans hg)
  have hsrv : ∀ {g : State → State} {t}, g s = t → next (s.onWindow (0x48 + d.val / 2) g) = next t := fun hg =>
    congrArg next ((onWindow_present s _ _ hw48).trans hg)
  refine ⟨hu rfl, hu rfl, hu rfl, fun fits hc => dskPop_closed hc, ?pop, ?status,
    ⟨reaim_stays, fun b hb => reaim_aims hb.1 hb.2⟩, hu (if_pos hd), revolution_free, fun g hg => revolution_pass hg,
    fun hi k => planPass_idle hi.1 hi.2 k, nextStep_all, ?geometry, fun hs => hu (effRecoverySweepDone_waits hs),
    fun hs => ?swept, fun hf => hu ?badFrame, fun hf => ?lost, fun frame cyl hf => ?frame,
    fun hs => hu (effServoSample_idle hs), fun hs => hu (effServoSample_due hd hs.1 hs.2), fun hp => hsrv (if_pos hp),
    fun hp => hsrv (if_neg ?moving), fun hw => hu (effVcmWatchdog_idle hw), fun hw => hu (effVcmWatchdog_due hd hw.1 hw.2),
    fun hv => ⟨hsrv (if_pos hv), settleOn_settled _ d⟩, fun hv => hsrv (if_neg hv), ?shock, ?guard, fun hg => ?opens,
    hsrv rfl, hsrv rfl, rfl, fun hp => effSrvCtrl_park hp.1 hp.2, fun hp => effSrvCtrl_unpark hp.1 hp.2, fun hp => if_pos hp,
    fun hp => if_neg (not_not_intro hp), unpark_running, fun hm => if_pos hm, fun hp => hu (effParkComplete_none hp),
    fun t0 ht => ⟨fun hl => hu (effParkComplete_early ht hl), fun hl => ⟨_, hu (effParkComplete_done ht hl), parkedNow_facts s d⟩⟩,
    fun hs => hu (effSelLostTimeout_idle hs), fun t0 ht hp => ⟨fun hl => hu ((effSelLostTimeout_of ht).trans (if_neg ?waiting)),
      fun hl => hu ((effSelLostTimeout_of ht).trans (if_pos ⟨hl, hp⟩))⟩,
    fun hc => hnx (effHdaPresChange_short hc), fun hc => hnx (effHdaPresChange_in hh hc.2 hc.1),
    fun hc => hnx (effHdaPresChange_out hh hc.2 hc.1)⟩
  case pop =>
    intro fits k r t l he hq hheld hdry hr h0 hf hp q u
    have ht : s.dskPop n fits = State.dskTake n (t, .entry l) := dskPop_takes hd he hq hheld hdry hr h0 hf hp
    exact ⟨fun hs => ht.trans (dskTake_kept hs), fun st hs => ht.trans (dskTake_ended hs)⟩
  case status =>
    intro q l last
    refine ⟨reqStatus_malformed, fun hm ho => reqStatus_offline hm ho, fun hm ho => ?_⟩
    have hst := reqStatus_place hm ho
    exact ⟨fun hmiss => hst.trans (if_pos ((missing_iff _ _ _).2 hmiss)), fun hr => hst.trans (placeStatus_read hr.2 hr.1),
      fun h0 => ⟨fun hl => hst.trans (placeStatus_late h0.2 h0.1 hl), fun hl => hst.trans (placeStatus_stage h0.2 h0.1 hl.1 hl.2)⟩⟩
  case geometry =>
    exact ⟨fun hb => ⟨hctl (effDskCtrl_plain hb.1 hb.2), hctl (effDskCtrl_plain hb.1 hb.2)⟩,
      fun hb => ⟨hctl (effDskCtrl_apply hb.1 hb.2), effDskApply_busy, fun hi hg => effDskApply_bad hi.1 hi.2 hg,
        fun hi hg => effDskApply_good hn hi.1 hi.2 hg⟩,
      fun hb => ⟨hctl (effDskCtrl_release hb.1 hb.2), effDskRelease_kept,
        fun hi => effDskRelease_done hi.1 hi.2 ▸ dskUnready_facts hn⟩⟩
  case swept =>
    obtain ⟨t, ht⟩ := effRecoverySweepDone_done hs.1 hs.2
    exact ⟨_, hu ht, swept_facts hn t _⟩
  case badFrame =>
    obtain ⟨h0, hb⟩ := hf
    exact effServoFrame_bad hd h0 (badFrame_counted hb)
  case lost =>
    obtain ⟨h0, hb⟩ := hf
    cases hl : s.flag (F.SRV_ASTAT_SEL_LOST p a) with
    | true => exact ⟨_, hu (effServoFrame_bad hd h0 (badFrame_again hl)), (counted_flag rfl).trans hl, nofun⟩
    | false =>
      obtain ⟨h1, h2, h3, h4⟩ := deselected_facts s d
      exact ⟨_, hu (effServoFrame_bad hd h0 (badFrame_lost hb hl)), h1, fun _ => ⟨h2, h3, h4⟩⟩
  case frame =>
    obtain ⟨c, e⟩ := effServoFrame_good hd hf
    have hact := framed_act s { s with freeCtr := c } d frame cyl (frameX s fr) rfl
    have hsel := framed_selected s { s with freeCtr := c } d frame cyl (frameX s fr)
    have hset : (framed s { s with freeCtr := c } d.val frame cyl (frameX s fr)).settled d.val = s.settled d.val :=
      framed_flag rfl (.inr (.inr (Nat.le_of_ble_eq_true rfl)))
    refine ⟨_, hu e, ?_⟩
    generalize framed s _ d.val frame cyl _ = u at hact hsel hset ⊢
    obtain ⟨o, b, hg⟩ := frame_act (judged u d.val cyl (s.tgtOf d.val).1) d
    rw [hg, judged_act, hact]
    refine ⟨rfl, rfl, rfl, rfl, rfl, ?_, rfl, fun ⟨hs, hc⟩ => ?_⟩
    · exact ((frame_flag _ d.val hn _ rfl (.inr (.inr (Nat.le_of_ble_eq_true rfl))) rfl).trans (judged_selLost _ d _ _)).trans hsel
    · obtain ⟨h1, h2⟩ := judged_off (hset.trans hs) hc
      refine ⟨(frame_flag _ d.val hn _ rfl (.inr (.inr (Nat.le_of_ble_eq_true rfl))) rfl).trans h1,
        (frame_flag _ d.val hn _ rfl (.inr (.inl (Nat.le_of_ble_eq_true rfl))) rfl).trans h2, ?_⟩
      rw [guardFrame_closes (guardCond_unsettled h1)]
      exact guard_true _ d.val hn
  case moving =>
    intro c
    exact absurd (hp.symm.trans c) (by decide)
  case shock =>
    exact hnx ((onUnit_present s _ _ hh).trans (if_neg (by rw [hh]; decide)))
  case guard =>
    intro thr hc
    rw [guardJudge_closes (guardCond_of hc)]
    exact ⟨guard_true s d.val hn, congrArg ActSt.okRun (guardClose_act s d)⟩
  case opens =>
    rw [guardJudge_open hg]
    exact ⟨note_flag _ _ _, guardFrame_open hg⟩
  case waiting => exact fun c => absurd c.1 (Nat.not_le.2 hl)

end Sys2Proof.Proofs.Servos
end

