-- ==== Sys2Proof/Proofs/Motors.lean ====
section
/-!
PROOFS. Motors and spindles: commutation, starting, the speed loop, the motor commands and the index (R321 to R332).
-/
namespace Sys2Proof.Proofs.Motors

open Sys2Proof.Machine
open Sys2Proof.Laws.Writes
open Sys2Proof.Laws.Drive

variable {s : State} {n : Nat}

/-! ### Zero-crosses and commutation (R323, R324) -/

theorem zcQualified_iff (cmp : BitVec 4) : s.zcQualified n cmp = true ↔
    cmp = (if ((vget s.mots n).step % 2 == 0) != (vget s.mots n).dir then 0b0111#4 else 0b1000#4)
      ∧ (vget s.mots n).stepAt + s.fld (F.MOT_CFG_ZBLANK n) * (vget s.mots n).periods.headD 0 / 64 + 200 ≤ s.now := by
  unfold State.zcQualified zcRising
  simp only [Bool.and_eq_true, beq_iff_eq, decide_eq_true_eq]

theorem effBemfZeroCross_unfit {cmp : BitVec 4} (h : (vget s.mots n).hallSense = true ∨ s.zcQualified n cmp = false
    ∨ (vget s.mots n).state ≠ .run ∧ (vget s.mots n).state ≠ .ramp) : effBemfZeroCross n cmp s = s := by
  unfold effBemfZeroCross
  by_cases hq : (vget s.mots n).hallSense = true ∨ s.zcQualified n cmp = false
  · exact if_pos hq
  · dsimp only
    rw [if_neg hq]
    cases hst : (vget s.mots n).state with
    | run => exact absurd hst (by tauto)
    | ramp => exact absurd hst (by tauto)
    | off | align | brake | fault => rfl

section
variable {cmp : BitVec 4} (hh : (vget s.mots n).hallSense = false) (hq : s.zcQualified n cmp = true)
include hh hq

theorem effBemfZeroCross_run (hr : (vget s.mots n).state = .run) : effBemfZeroCross n cmp s = s.modMot n (fun _ =>
    { (vget s.mots n).event s.now with
      zcAt := some (s.now + s.fld (F.MOT_CFG_ADV n) * ((vget s.mots n).event s.now).periods.headD 0 / 64) }) := by
  unfold effBemfZeroCross
  dsimp only
  rw [if_neg (by simp [hh, hq]), hr]

/-- A zero-cross of RAMP counts towards the hand-over, which its last one makes (R325). -/
theorem effBemfZeroCross_ramp (hr : (vget s.mots n).state = .ramp) : effBemfZeroCross n cmp s
    = (let hand := if 16 * s.fld (F.MOT_RAMP_HAND_RPM n) ≤ ((vget s.mots n).event s.now).speed
        then (vget s.mots n).hand + 1 else 0
      let s1 := s.modMot n (fun _ => { (vget s.mots n).event s.now with hand := hand })
      if max 1 (s.fld (F.MOT_RAMPT_HANDN n)) ≤ hand then
        s1.motState n .run (fun k => { k with
          target := 1000000 * k.speed, integ := (k.duty * 1048576 : Nat), zcAt := none })
      else s1) := by
  unfold effBemfZeroCross
  dsimp only
  rw [if_neg (by simp [hh, hq]), hr]
  rfl

theorem effBemfZeroCross_handed (hn : n < 16) (hr : (vget s.mots n).state = .ramp)
    (hs : 16 * s.fld (F.MOT_RAMP_HAND_RPM n) ≤ ((vget s.mots n).event s.now).speed)
    (hc : max 1 (s.fld (F.MOT_RAMPT_HANDN n)) ≤ (vget s.mots n).hand + 1) :
    (vget (effBemfZeroCross n cmp s).mots n).state = .run := by
  rw [effBemfZeroCross_ramp hh hq hr]
  dsimp only
  rw [if_pos hs, if_pos hc]
  obtain ⟨o, e⟩ := motState_mots (s.modMot n (fun _ => { (vget s.mots n).event s.now with hand := (vget s.mots n).hand + 1 })) n .run
    (fun k => { k with target := 1000000 * k.speed, integ := (k.duty * 1048576 : Nat), zcAt := none }) hn (.inr (.inr (.inr rfl)))
  rw [e]

theorem effBemfZeroCross_fast (hr : (vget s.mots n).state = .ramp)
    (hs : 16 * s.fld (F.MOT_RAMP_HAND_RPM n) ≤ ((vget s.mots n).event s.now).speed)
    (hc : (vget s.mots n).hand + 1 < max 1 (s.fld (F.MOT_RAMPT_HANDN n))) :
    effBemfZeroCross n cmp s = s.modMot n (fun _ => { (vget s.mots n).event s.now with hand := (vget s.mots n).hand + 1 }) := by
  rw [effBemfZeroCross_ramp hh hq hr]
  dsimp only
  rw [if_pos hs, if_neg (Nat.not_le.2 hc)]

theorem effBemfZeroCross_slow (hr : (vget s.mots n).state = .ramp)
    (hs : ((vget s.mots n).event s.now).speed < 16 * s.fld (F.MOT_RAMP_HAND_RPM n)) :
    effBemfZeroCross n cmp s = s.modMot n (fun _ => { (vget s.mots n).event s.now with hand := 0 }) := by
  rw [effBemfZeroCross_ramp hh hq hr]
  dsimp only
  rw [if_neg (Nat.not_le.2 hs), if_neg (by omega)]

end

theorem effCommutation_idle (h : (vget s.mots n).zcAt = none ∨ (vget s.mots n).state ≠ .run) : effCommutation n s = s := by
  unfold effCommutation
  dsimp only
  cases hz : (vget s.mots n).zcAt with
  | none => rfl
  | some t => exact if_neg fun c => h.elim (fun e => nomatch hz.symm.trans e) (absurd c.1)

theorem effCommutation_of {t : Nat} (hz : (vget s.mots n).zcAt = some t) : effCommutation n s
    = if (vget s.mots n).state = .run ∧ t ≤ s.now then s.commutate n (nextMotStep (vget s.mots n).dir (vget s.mots n).step)
      else s := by
  unfold effCommutation
  dsimp only
  rw [hz]

theorem effHallChange_kept {c0 c1 c2 : Nat} (h : c0 ≠ c1 ∨ c1 ≠ c2 ∨ c2 = (vget s.mots n).hall) :
    effHallChange n c0 c1 c2 s = s := if_pos h

section
variable {c : Nat} (hc : c ≠ (vget s.mots n).hall)
include hc

theorem effHallChange_of : effHallChange n c c c s = (let s1 := s.modMot n (fun m => { m with hall := c })
    if (vget s.mots n).hallSense = false then s1
    else if s.hallStep n c = 0 then s1.hallErr n
    else if (vget s.mots n).state = .run then (s1.modMot n (fun k => k.event s.now)).commutate n (s.hallStep n c)
    else s1) :=
  if_neg (by rintro (h | h | h) <;> contradiction)

theorem effHallChange_unused (hs : (vget s.mots n).hallSense = false) :
    effHallChange n c c c s = s.modMot n (fun m => { m with hall := c }) :=
  (effHallChange_of hc).trans (if_pos hs)

theorem effHallChange_wrong (hs : (vget s.mots n).hallSense = true) (h0 : s.hallStep n c = 0) :
    effHallChange n c c c s = (s.modMot n (fun m => { m with hall := c })).hallErr n :=
  (effHallChange_of hc).trans ((if_neg (by simp [hs])).trans (if_pos h0))

theorem effHallChange_step (hs : (vget s.mots n).hallSense = true) (h0 : s.hallStep n c ≠ 0) :
    effHallChange n c c c s = if (vget s.mots n).state = .run then
        ((s.modMot n (fun m => { m with hall := c })).modMot n (fun k => k.event s.now)).commutate n (s.hallStep n c)
      else s.modMot n (fun m => { m with hall := c }) :=
  (effHallChange_of hc).trans ((if_neg (by simp [hs])).trans (if_neg h0))

end

/-! ### Starting (R325) -/

theorem effAlignDone_waits (h : (vget s.mots n).state ≠ .align
      ∨ s.now < (vget s.mots n).startAt + 1000000 * s.fld (F.MOT_ALIGN_ALIGN_MS n)) : effAlignDone n s = s :=
  if_neg fun c => h.elim (absurd c.1) (Nat.not_lt.2 c.2)

theorem effAlignDone_ramps (hn : n < 16) (hs : (vget s.mots n).state = .align)
    (h : (vget s.mots n).startAt + 1000000 * s.fld (F.MOT_ALIGN_ALIGN_MS n) ≤ s.now) :
    (vget (effAlignDone n s).mots n).state = .ramp
      ∧ (vget (effAlignDone n s).mots n).duty = s.fld (F.MOT_RAMPT_RAMP_DUTY n)
      ∧ (vget (effAlignDone n s).mots n).startAt = s.now := by
  obtain ⟨o, e⟩ := motState_mots s n .ramp (fun k => { k with
    startAt := s.now, hand := 0, duty := s.fld (F.MOT_RAMPT_RAMP_DUTY n) }) hn (.inr (.inr (.inl (by rw [hs]; decide))))
  unfold effAlignDone
  dsimp only
  rw [if_pos ⟨hs, h⟩, e]
  exact ⟨rfl, rfl, rfl⟩

theorem forcedDue_iff : s.forcedDue n = true ↔
    60000000000 * (1000000 * s.fld (F.MOT_RAMPT_RAMP_MS n)) ≤ (s.now - (vget s.mots n).stepAt)
      * (s.fld (F.MOT_RAMP_START_RPM n) * (1000000 * s.fld (F.MOT_RAMPT_RAMP_MS n))
        + (s.fld (F.MOT_RAMP_HAND_RPM n) - s.fld (F.MOT_RAMP_START_RPM n)) * (s.now - (vget s.mots n).startAt))
      * 6 * (vget s.mots n).poles :=
  decide_eq_true_iff

theorem effRampForcedStep_waits (h : (vget s.mots n).state ≠ .ramp ∨ s.forcedDue n = false) : effRampForcedStep n s = s :=
  if_neg fun c => h.elim (absurd c.1) (fun e => Bool.false_ne_true (e.symm.trans c.2))

theorem effRampForcedStep_due (hs : (vget s.mots n).state = .ramp) (h : s.forcedDue n = true) :
    effRampForcedStep n s = s.commutate n (nextMotStep (vget s.mots n).dir (vget s.mots n).step) := if_pos ⟨hs, h⟩

theorem effRampTimeout_waits (h : (vget s.mots n).state ≠ .ramp
      ∨ s.now < (vget s.mots n).startAt + 1000000 * s.fld (F.MOT_RAMPT_RAMP_MS n)) : effRampTimeout n s = s :=
  if_neg fun c => h.elim (absurd c.1) (Nat.not_lt.2 c.2)

theorem effRampTimeout_late (hs : (vget s.mots n).state = .ramp)
    (h : (vget s.mots n).startAt + 1000000 * s.fld (F.MOT_RAMPT_RAMP_MS n) ≤ s.now) :
    effRampTimeout n s = ((s.motFault n).setFlag (F.MOT_STATUS_STARTFAIL n)).raise (288 + 2 * n) := if_pos ⟨hs, h⟩

/-! ### The locked rotor and the speed loop (R326 to R328) -/

theorem lockedDue_iff : s.lockedDue n = true ↔ (vget s.mots n).state = .run ∧ 0 < s.cmdSpeed n
    ∧ ∃ t0, (vget s.mots n).cmdSince = some t0
      ∧ max t0 (max (vget s.mots n).lastComm (vget s.mots n).startAt)
        + max 100000000 (4 * 960000000000 / (s.cmdSpeed n * 6 * max 1 (vget s.mots n).poles)) ≤ s.now := by
  unfold State.lockedDue lockedTimeout
  dsimp only
  cases hc : (vget s.mots n).cmdSince with
  | none => simp
  | some t => simp

theorem effLockedRotor_not (h : s.lockedDue n = false) : effLockedRotor n s = s := if_neg (by simp [h])

theorem effLockedRotor_due (h : s.lockedDue n = true) : effLockedRotor n s = (((s.motFault n).setFlag
    (F.MOT_STATUS_LOCKED n)).modMot n (fun m => { m with lockedAt := some s.now })).raise (288 + 2 * n) := if_pos h

theorem effMotorSpeedZero_turning (h : s.now < (vget s.mots n).lastComm + 100000000) : effMotorSpeedZero n s = s :=
  if_neg (Nat.not_le.2 h)

theorem effMotorSpeedZero_still (h : (vget s.mots n).lastComm + 100000000 ≤ s.now) :
    effMotorSpeedZero n s = s.modMot n (fun m => { m with speed := 0, periods := [] }) := if_pos h

theorem motPwm_stopped (h : (vget s.mots n).state ≠ .run) : s.motPwm n = s := if_pos h

/-! ### The motor commands (R328, R329) -/

theorem cmdBits (v : Word) : bits v.toNat 0 4 = v.toNat % 16 := congrArg (· % 16) (Nat.div_one v.toNat)

/-- One command bit of four is set where it is one of four values. -/
theorem oneCmd_iff {c : Nat} (hc : c < 16) (h0 : c ≠ 0) :
    (!(c == 1 || c == 2 || c == 4 || c == 8)) = true ↔ 1 < popc 4 c := by
  revert c
  decide

theorem effMotCmd_ignored {v : Word} (h : v.toNat % 16 = 0 ∨ (vget s.mots n).lockedAt = some s.now) : effMotCmd n v s = s := by
  unfold effMotCmd
  dsimp only
  rw [cmdBits]
  exact if_pos h

section
variable {v : Word} (h0 : v.toNat % 16 ≠ 0 ∧ (vget s.mots n).lockedAt ≠ some s.now)
include h0

theorem effMotCmd_locked (hl : s.lockedDue n = true) : effMotCmd n v s = effLockedRotor n s := by
  unfold effMotCmd
  dsimp only
  rw [cmdBits, if_neg (not_or.2 h0), if_pos hl]

theorem effMotCmd_refused (hl : s.lockedDue n = false) (h : s.motOpen n = false ∨ 1 < popc 4 (v.toNat % 16)) :
    effMotCmd n v s = s.setFlag (F.MOT_STATUS_CMD_REJ n) := by
  unfold effMotCmd
  dsimp only
  rw [cmdBits, if_neg (not_or.2 h0), if_neg (by simp [hl]),
    if_pos (h.imp_right (oneCmd_iff (Nat.mod_lt _ (by decide)) h0.1).2)]
  rfl

/-- One command of a motor that is open and whose rotor turns. -/
theorem effMotCmd_taken (hl : s.lockedDue n = false) (ho : s.motOpen n = true) {c : Nat} (hc : v.toNat % 16 = c)
    (h1 : c = 1 ∨ c = 2 ∨ c = 4 ∨ c = 8) : effMotCmd n v s
      = (if c = 8 then (if (vget s.mots n).state = .fault then s.motOff n else s.motRej n)
        else if c = 4 then s.motBrake n
        else if (vget s.mots n).state = .fault then s.motRej n
        else if c = 2 then s.motOff n
        else s.motStart n) := by
  have hb : (!(c == 1 || c == 2 || c == 4 || c == 8)) = false := by
    rcases h1 with rfl | rfl | rfl | rfl <;> rfl
  unfold effMotCmd
  dsimp only
  rw [cmdBits, if_neg (not_or.2 h0), if_neg (by simp [hl]), hc, if_neg (by simp [ho, hb])]

theorem effMotCmd_brake (hl : s.lockedDue n = false) (ho : s.motOpen n = true) (hc : v.toNat % 16 = 4) :
    effMotCmd n v s = s.motBrake n := effMotCmd_taken h0 hl ho hc (by decide)

theorem effMotCmd_clr (hl : s.lockedDue n = false) (ho : s.motOpen n = true) (hc : v.toNat % 16 = 8) :
    effMotCmd n v s = if (vget s.mots n).state = .fault then s.motOff n else s.motRej n :=
  effMotCmd_taken h0 hl ho hc (by decide)

theorem effMotCmd_stop (hl : s.lockedDue n = false) (ho : s.motOpen n = true) (hc : v.toNat % 16 = 2) :
    effMotCmd n v s = if (vget s.mots n).state = .fault then s.motRej n else s.motOff n :=
  effMotCmd_taken h0 hl ho hc (by decide)

theorem effMotCmd_start (hl : s.lockedDue n = false) (ho : s.motOpen n = true) (hc : v.toNat % 16 = 1) :
    effMotCmd n v s = if (vget s.mots n).state = .fault then s.motRej n else s.motStart n :=
  effMotCmd_taken h0 hl ho hc (by decide)

/-- CLR of a motor that is not in FAULT, STOP of one in FAULT, START of one not OFF. -/
theorem effMotCmd_wrongState (hl : s.lockedDue n = false) (ho : s.motOpen n = true)
    (h : v.toNat % 16 = 8 ∧ (vget s.mots n).state ≠ .fault ∨ v.toNat % 16 = 2 ∧ (vget s.mots n).state = .fault
      ∨ v.toNat % 16 = 1 ∧ (vget s.mots n).state ≠ .off) :
    effMotCmd n v s = s.setFlag (F.MOT_STATUS_CMD_REJ n) := by
  rcases h with ⟨hc, hs⟩ | ⟨hc, hs⟩ | ⟨hc, hs⟩
  · exact (effMotCmd_clr h0 hl ho hc).trans (if_neg hs)
  · exact (effMotCmd_stop h0 hl ho hc).trans (if_pos hs)
  · rw [effMotCmd_start h0 hl ho hc]
    split
    · rfl
    · exact if_pos (.inl hs)

/-- START of a motor that is OFF. -/
theorem effMotCmd_startOff (hl : s.lockedDue n = false) (ho : s.motOpen n = true) (hc : v.toNat % 16 = 1)
    (hs : (vget s.mots n).state = .off) : effMotCmd n v s = s.motStart n :=
  (effMotCmd_start h0 hl ho hc).trans (if_neg (by rw [hs]; decide))

end

/-! ### START of a motor that is OFF -/

theorem motStart_refused (h : (4 ≤ n ∧ n < 8 ∧ s.flag (F.SRV_SPSTAT_PRES (n - 4)) = false) ∨ (motHbs n).any s.hbFault = true) :
    s.motStart n = s.setFlag (F.MOT_STATUS_CMD_REJ n) := if_pos (.inr h)

section
variable (hs : (vget s.mots n).state = .off) (h1 : ¬(4 ≤ n ∧ n < 8 ∧ s.flag (F.SRV_SPSTAT_PRES (n - 4)) = false))
  (h2 : (motHbs n).any s.hbFault = false)
include hs h1 h2

theorem startable : ¬((vget s.mots n).state ≠ .off ∨ (4 ≤ n ∧ n < 8 ∧ s.flag (F.SRV_SPSTAT_PRES (n - 4)) = false)
    ∨ s.motHbFault n = true) := by
  rintro (h | h | h)
  · exact h hs
  · exact h1 h
  · exact Bool.false_ne_true (h2.symm.trans h)

theorem motStart_aligns (hn : n < 16) (hh : (vget s.mots n).hallSense = false) :
    (vget (s.motStart n).mots n).state = .align ∧ (vget (s.motStart n).mots n).step = 1
      ∧ (vget (s.motStart n).mots n).duty = s.fld (F.MOT_ALIGN_ALIGN_DUTY n) := by
  obtain ⟨o, e⟩ := motState_mots s n .align (fun x => { x with
    step := 1, startAt := s.now, stepAt := s.now, lastComm := 0, periods := [], duty := s.fld (F.MOT_ALIGN_ALIGN_DUTY n)
    hand := 0, integ := 0 }) hn (.inr (.inr (.inl (by rw [hs]; decide))))
  unfold State.motStart
  dsimp only
  rw [if_neg (startable hs h1 h2), if_neg (by simp [hh]), e]
  exact ⟨rfl, rfl, rfl⟩

theorem motStart_runs (hn : n < 16) (hh : (vget s.mots n).hallSense = true) :
    (vget (s.motStart n).mots n).state = .run
      ∧ (s.hallStep n (vget s.mots n).hall ≠ 0 → (vget (s.motStart n).mots n).step = s.hallStep n (vget s.mots n).hall)
      ∧ (s.hallStep n (vget s.mots n).hall = 0 → (s.motStart n).flag (F.MOT_STATUS_HALLERR n) = true) := by
  obtain ⟨o, e⟩ := motState_mots s n .run (fun x => { x with
    step := if s.hallStep n (vget s.mots n).hall = 0 then x.step else s.hallStep n (vget s.mots n).hall
    startAt := s.now, stepAt := s.now, lastComm := 0, periods := [], integ := 0, target := 0, duty := 0 })
    hn (.inr (.inr (.inr rfl)))
  unfold State.motStart
  dsimp only
  rw [if_neg (startable hs h1 h2), if_pos hh]
  generalize s.motState n .run _ = t at e ⊢
  by_cases hk : s.hallStep n (vget s.mots n).hall = 0
  · rw [if_pos hk]
    have hm : (t.hallErr n).mots = t.mots := by
      unfold State.hallErr
      simp only [State.raise_frame, State.setFlag_frame]
    rw [hm, e]
    refine ⟨rfl, fun c => absurd hk c, fun _ => ?_⟩
    unfold State.hallErr
    rw [raise_flag]
    exact State.flag_setFlag _ (F.MOT_STATUS_HALLERR n) (Nat.le_of_ble_eq_true rfl) rfl
  · rw [if_neg hk, e]
    exact ⟨rfl, fun _ => if_neg hk, fun c => absurd c hk⟩

end

/-! ### The outputs of a motor that does not turn (R321) -/

theorem motOff_phaseCmd (hn : n < 16) (h : n < 4 ∨ 8 ≤ n ∨ (vget s.mots n).state ≠ .run) (phase : Nat) :
    (vget (s.motOff n).mots n).phaseCmd phase = (false, false) := by
  obtain ⟨o, e⟩ := motState_mots s n .off (fun m => { m with step := 0, duty := 0, zcAt := none }) hn (by tauto)
  unfold State.motOff
  rw [e]
  rfl

theorem motFault_phaseCmd (hn : n < 16) (h : n < 4 ∨ 8 ≤ n ∨ (vget s.mots n).state ≠ .run) (phase : Nat) :
    (vget (s.motFault n).mots n).phaseCmd phase = (false, false) := by
  obtain ⟨o, e⟩ := motState_mots s n .fault (fun m => { m with step := 0, duty := 0, zcAt := none }) hn (by tauto)
  unfold State.motFault
  rw [gn, e]
  rfl

theorem motBrake_phaseCmd (hn : n < 16) (h : n < 4 ∨ 8 ≤ n ∨ (vget s.mots n).state ≠ .run) (phase : Nat) :
    (vget (s.motBrake n).mots n).phaseCmd phase = (false, true) := by
  obtain ⟨o, e⟩ := motState_mots s n .brake (fun m => { m with step := 0, duty := 0, zcAt := none }) hn (by tauto)
  unfold State.motBrake
  rw [e]
  rfl

/-- A spindle that leaves RUN lets its rotation lock fall and parks its two disks (R319, R332). -/
theorem motState_spindle (h : 4 ≤ n ∧ n < 8 ∧ (vget s.mots n).state = .run) (st : MotState) (f : MotSt → MotSt)
    (hst : st ≠ .run) : s.motState n st f
      = ((((((s.modMot n (fun y => f { y with state := st, cmdSince := none })).motSync n).clrFlag
        (F.MOT_STATUS_VLIMIT n)).clrFlag (F.MOT_STATUS_ATSPEED n)).rlockFall (n - 4)).emergencyPark
          (2 * (n - 4))).emergencyPark (2 * (n - 4) + 1) := by
  obtain ⟨h4, h8, hr⟩ := h
  unfold State.motState
  dsimp only
  rw [if_pos ⟨hr, hst, h4, h8⟩, if_neg hst]

/-! ### The spindle index (R331, R332) -/

theorem effSpindleIndex_absent {h : Nat} (hh : s.hasHda h = false) : effSpindleIndex h s = s := if_pos hh

theorem effSpindleIndex_present {h : Nat} (hh : s.hasHda h = true) : effSpindleIndex h s
    = ((s.spindleIndex h).indexPass (2 * h) (s.slotNow h)).indexPass (2 * h + 1) (s.slotNow h) :=
  if_neg (by simp [hh])

theorem dropPlan_started {d : Nat} {g : DskPass} (hg : (vget s.dsk d).pass = some g) (hs : g.startAt.isSome = true) :
    s.dropPlan d = s := by
  unfold State.dropPlan
  rw [hg]
  exact if_neg fun c => by rw [c.1] at hs; exact Bool.false_ne_true hs

/-- A pass under way stops at the index that follows it. -/
theorem indexPass_stops {d : Nat} {g : DskPass} (hd : d < 8) (hg : (vget s.dsk d).pass = some g)
    (hs : g.startAt.isSome = true) (c0 : Nat) :
    (vget (s.indexPass d c0).dsk d).pass = some { g with stopAt := some (g.stopAt.getD s.now) } := by
  have hm : ∀ (t : State) (f : DskSt → DskSt), vget (t.modDsk d f).dsk d = f (vget t.dsk d) := fun t f =>
    vget_vmod_same _ _ hd
  have hp : ∀ f : List _ → List _, (vget (s.modDsk d (fun c => { c with reqs := f c.reqs })).dsk d).pass = some g := fun f => by
    rw [hm]
    exact hg
  unfold State.indexPass
  dsimp only
  rw [dropPlan_started (hp _) hs, if_neg (by rw [hp]; exact nofun), hp]
  dsimp only
  rw [if_pos hs, hm]

/-! ### The rotation lock at the index (R332) -/

/-- The port after it has noted the index. -/
def noted (u : State) (h : Nat) : State := u.modPort h (fun p => { p with lastIndex := u.now })

/-- The slot that the index begins. -/
def indexSlot (u : State) (h : Nat) : Nat :=
  let lpr := u.fld (F.SRV_SPIN_LPR h)
  let d := (u.lambda16 (u.lstn h) u.now + 2 ^ 44 - 16 * u.anchor h % 2 ^ 44) % 2 ^ 44
  if 2 ^ 44 - 8 * lpr ≤ d then 0 else (d + 8 * lpr) / max 1 (16 * lpr)

def indexErr (u : State) (h : Nat) : Int := -(u.slotStart h (indexSlot u h % 2 ^ 32))

def indexOk (u : State) (h : Nat) : Bool := decide ((indexErr u h).natAbs ≤ 1000 * max 1 (u.fld (F.SRV_SPIN_PH_TOL h)))

/-- The port after it has judged the index of a rate-locked spindle. -/
def measured (u : State) (h : Nat) : State :=
  (((noted u h).setFld (F.SRV_PHERR_PHERR h) (ux 16 (clampInt (-32768) 32767 (indexErr u h / 100)))).setFld
    (F.SRV_SLOT_SLOT h) (indexSlot u h)).modPort h (fun p => { p with
      inTol := if indexOk u h then p.inTol + 1 else 0, outTol := if indexOk u h then 0 else p.outTol + 1, slotOn := true })

theorem spindleIndex_unlocked {h : Nat} (hu : (s.rangeRefresh h).rateLocked (4 + h) = false
    ∨ (vget (s.rangeRefresh h).mots (4 + h)).state ≠ .run) : s.spindleIndex h = noted (s.rangeRefresh h) h := if_pos hu

theorem within_iff (e : Int) (t : Nat) : (decide (-(1000 * max 1 t : Int) ≤ e) && decide (e ≤ 1000 * max 1 t))
    = decide (e.natAbs ≤ 1000 * max 1 t) := by
  rw [← Bool.decide_and, decide_eq_decide]
  omega

theorem spindleIndex_locked {h : Nat} (hu : (s.rangeRefresh h).rateLocked (4 + h) = true
    ∧ (vget (s.rangeRefresh h).mots (4 + h)).state = .run) :
    s.spindleIndex h = (let u := s.rangeRefresh h
      let t := measured u h
      if t.rlock h then (if 4 ≤ (vget t.ports h).outTol then t.rlockFall h else t)
      else if 16 ≤ (vget t.ports h).inTol ∧ t.flag (F.EXP_STATUS_BD_LOCK (u.lstn h)) = true
          ∧ t.flag (F.SRV_SPSTAT_RANGE_ERR h) = false then
        (t.setFlag (F.SRV_SPSTAT_RLOCK h)).notify 0x08 (4 + h) 8
      else t) := by
  unfold State.spindleIndex measured indexOk
  dsimp only
  generalize s.rangeRefresh h = u at hu ⊢
  rw [if_neg (by simp [hu.1, hu.2]), ← within_iff]
  rfl

section
variable {h : Nat} (hu : (s.rangeRefresh h).rateLocked (4 + h) = true
  ∧ (vget (s.rangeRefresh h).mots (4 + h)).state = .run)
include hu

theorem spindleIndex_steady (ht : (measured (s.rangeRefresh h) h).rlock h = true ∧ (vget (measured (s.rangeRefresh h) h).ports h).outTol < 4
    ∨ (measured (s.rangeRefresh h) h).rlock h = false ∧ (vget (measured (s.rangeRefresh h) h).ports h).inTol < 16) :
    s.spindleIndex h = measured (s.rangeRefresh h) h := by
  rw [spindleIndex_locked hu]
  dsimp only
  rcases ht with ⟨hl, ho⟩ | ⟨hl, hi⟩
  · rw [if_pos hl, if_neg (Nat.not_le.2 ho)]
  · rw [if_neg (by simp [hl]), if_neg fun c => absurd c.1 (Nat.not_le.2 hi)]

theorem spindleIndex_falls (hl : (measured (s.rangeRefresh h) h).rlock h = true)
    (ho : 4 ≤ (vget (measured (s.rangeRefresh h) h).ports h).outTol) :
    s.spindleIndex h = (measured (s.rangeRefresh h) h).rlockFall h := by
  rw [spindleIndex_locked hu]
  dsimp only
  rw [if_pos hl, if_pos ho]

theorem spindleIndex_locks (hl : (measured (s.rangeRefresh h) h).rlock h = false)
    (hi : 16 ≤ (vget (measured (s.rangeRefresh h) h).ports h).inTol) :
    s.spindleIndex h = (let t := measured (s.rangeRefresh h) h
      if t.flag (F.EXP_STATUS_BD_LOCK ((s.rangeRefresh h).lstn h)) = true ∧ t.flag (F.SRV_SPSTAT_RANGE_ERR h) = false then
        (t.setFlag (F.SRV_SPSTAT_RLOCK h)).notify 0x08 (4 + h) 8 else t) := by
  rw [spindleIndex_locked hu]
  dsimp only
  rw [if_neg (by simp [hl])]
  exact if_congr ⟨fun c => c.2, fun c => ⟨hi, c⟩⟩ rfl rfl

end

end Sys2Proof.Proofs.Motors
end

