-- ==== Sys2Proof/Proofs/HalfBridges.lean ====
section
/-!
PROOFS. Half-bridges and the inverters: switching, protection, clearing (R337 to R350).
-/
namespace Sys2Proof.Proofs.HalfBridges

open Sys2Proof.Machine
open Sys2Proof.Laws.Writes
open Sys2Proof.Laws.Drive

variable {s : State} {k : Nat}

/-! ### Turning on (R340) -/

/-- A half-bridge's command to the switch that is to turn on. -/
def HbCmd (b : HbSt) (high : Bool) : Bool := if high then b.cmdHi && !b.cmdLo else b.cmdLo && !b.cmdHi

/-- Every condition for a switch to turn on. -/
def HbReady (s : State) (k : Nat) (high : Bool) (pins : HbPins) : Prop :=
  HbCmd (vget s.hbs k) high = true ∧ s.hbEn k = true ∧ s.hbFault k = false ∧ s.holdsToken = true
    ∧ ((if high then pins.goffL else pins.goffH) == 3#2) = true
    ∧ (if high then (vget s.hbs k).offLo else (vget s.hbs k).offHi) + 10 * max 2 (s.fld (F.GDR_HB_CFG_DT k)) ≤ s.now
    ∧ (high = true → pins.hsg = true)

theorem hbSample_hbs (pins : HbPins) (hk : k < 32) : ∃ d l o,
    vget (s.hbSample k pins).hbs k = { vget s.hbs k with dsatH := d, dsatL := l, hsOver := o } := by
  refine ⟨pins.dsatH, pins.dsatL, decide (s.fld F.GDR_HS_HS_THR < pins.hs.toNat), ?_⟩
  unfold State.hbSample
  refine (vget_vmod_same _ _ hk).trans ?_
  simp only [State.putFlag_frame]

theorem hbSample_en (pins : HbPins) : (s.hbSample k pins).hbEn k = s.hbEn k := by
  have h : R.GDR_HB_STATUS k ≠ R.GDR_HB_CFG k := by unfold R.GDR_HB_STATUS R.GDR_HB_CFG; omega
  exact smp_flag s k pins (F.GDR_HB_CFG_EN k) rfl (.inl h) (.inl h) (.inl h)

theorem hbSample_dt (pins : HbPins) : (s.hbSample k pins).fld (F.GDR_HB_CFG_DT k) = s.fld (F.GDR_HB_CFG_DT k) := by
  have h : R.GDR_HB_STATUS k ≠ R.GDR_HB_CFG k := by unfold R.GDR_HB_STATUS R.GDR_HB_CFG; omega
  exact smp_fld s k pins (F.GDR_HB_CFG_DT k) (.inl h) (.inl h) (.inl h)

theorem hbSample_fault (pins : HbPins) : (s.hbSample k pins).hbFault k = s.hbFault k :=
  smp_flag s k pins (F.GDR_HB_STATUS_FAULT k) rfl (.inr (.inl (Nat.le_of_ble_eq_true rfl)))
    (.inr (.inl (Nat.le_of_ble_eq_true rfl))) (.inr (.inl (Nat.le_of_ble_eq_true rfl)))

theorem hbSample_token (pins : HbPins) : (s.hbSample k pins).holdsToken = s.holdsToken := by
  have hk : R.GDR_HB_STATUS k ≠ (F.ACD_STATUS_TOKEN).key := by
    unfold R.GDR_HB_STATUS
    show _ + _ * k ≠ R.ACD_STATUS
    unfold R.ACD_STATUS
    omega
  have h := smp_flag s k pins F.ACD_STATUS_TOKEN rfl (.inl hk) (.inl hk) (.inl hk)
  unfold State.holdsToken State.hasAccord
  rw [h]
  rfl

theorem hbSample_now (pins : HbPins) : (s.hbSample k pins).now = s.now := rfl

/-- The guard of the model's turn-on is HbReady of the state before the pins are sampled. -/
theorem effGateTurnOn_ready (hk : k < 32) (high : Bool) (pins : HbPins) (h : HbReady s k high pins) :
    effGateTurnOn k high pins s = (let u := s.hbSample k pins
      if high then (u.setFlag (F.GDR_HB_STATUS_HION k)).modHb k (fun x => { x with onHi := u.now, watchHi := false })
      else (u.setFlag (F.GDR_HB_STATUS_LOON k)).modHb k (fun x => { x with onLo := u.now, watchLo := false })) := by
  obtain ⟨hc, he, hf, ht, hg, ho, hs⟩ := h
  obtain ⟨d, l, o, hb⟩ := hbSample_hbs (s := s) pins hk
  unfold effGateTurnOn State.hbDt
  dsimp only
  rw [hb, hbSample_en, hbSample_fault, hbSample_token, hbSample_dt, hbSample_now]
  refine if_pos ?_
  simp only [Bool.and_eq_true, Bool.or_eq_true, Bool.not_eq_true', decide_eq_true_eq]
  refine ⟨⟨⟨⟨⟨⟨hc, he⟩, hf⟩, ht⟩, hg⟩, ho⟩, ?_⟩
  cases high with
  | false => exact .inl rfl
  | true => exact .inr (hs rfl)

theorem effGateTurnOn_unready (hk : k < 32) (high : Bool) (pins : HbPins) (h : ¬HbReady s k high pins) :
    effGateTurnOn k high pins s = s.hbSample k pins := by
  obtain ⟨d, l, o, hb⟩ := hbSample_hbs (s := s) pins hk
  unfold effGateTurnOn State.hbDt
  dsimp only
  rw [hb, hbSample_en, hbSample_fault, hbSample_token, hbSample_dt, hbSample_now]
  refine if_neg fun c => h ?_
  simp only [Bool.and_eq_true, Bool.or_eq_true, Bool.not_eq_true', decide_eq_true_eq] at c
  obtain ⟨⟨⟨⟨⟨⟨hc, he⟩, hf⟩, ht⟩, hg⟩, ho⟩, hs⟩ := c
  refine ⟨hc, he, hf, ht, hg, ho, fun hh => hs.elim (fun e => ?_) id⟩
  rw [hh] at e
  exact absurd e (by decide)

theorem effGateTurnOn_flag (hk : k < 32) (high : Bool) (pins : HbPins) (h : HbReady s k high pins) :
    (effGateTurnOn k high pins s).flag (if high then F.GDR_HB_STATUS_HION k else F.GDR_HB_STATUS_LOON k) = true := by
  rw [effGateTurnOn_ready hk high pins h]
  dsimp only
  generalize s.hbSample k pins = u
  cases high with
  | false => exact (modHb_flag _ _ _ _).trans (State.flag_setFlag u (F.GDR_HB_STATUS_LOON k) (Nat.le_of_ble_eq_true rfl) rfl)
  | true => exact (modHb_flag _ _ _ _).trans (State.flag_setFlag u (F.GDR_HB_STATUS_HION k) (Nat.le_of_ble_eq_true rfl) rfl)

/-! ### Latched causes (R342 to R348) -/

theorem hbLatch1_off (h : s.hbEn k = false ∨ s.holdsToken = false) (c : HbCause) : s.hbLatch1 k c = s := if_pos h

theorem hbLatch1_again (he : s.hbEn k = true) (ht : s.holdsToken = true) (hf : s.hbFault k = true) (c : HbCause) :
    s.hbLatch1 k c = (s.setFlag (c.fld k)).modHb k (fun y => { y with latchAt := some s.now }) :=
  (if_neg (by simp [he, ht])).trans (if_pos hf)

theorem hbLatch1_first (he : s.hbEn k = true) (ht : s.holdsToken = true) (hf : s.hbFault k = false) (c : HbCause) :
    s.hbLatch1 k c = (((((s.modHb k (fun y => { y with latchAt := some s.now })).setFlag (c.fld k)).setFlag
      (F.GDR_HB_STATUS_FAULT k)).hbOff k).srcFault k).each (hbSources k c) State.raise :=
  (if_neg (by simp [he, ht])).trans (if_neg (by simp [hf]))

/-- A manual command changes no half-bridge's source. -/
theorem man_keeps_src (v : Word) : (s.plainWrite (R.GDR_HB_MAN k) v).hbSrc k = s.hbSrc k := by
  unfold State.hbSrc State.fld
  rw [State.plainWrite_other]
  show R.GDR_HB_CFG k ≠ R.GDR_HB_MAN k
  unfold R.GDR_HB_MAN R.GDR_HB_CFG
  omega

theorem effGdrManWrite_other (v : Word) (h : s.hbSrc k ≠ 3) : effGdrManWrite k v s = s.plainWrite (R.GDR_HB_MAN k) v :=
  if_neg ((man_keeps_src v).symm ▸ h)

theorem effGdrManWrite_manual (v : Word) (h : s.hbSrc k = 3) :
    effGdrManWrite k v s = (s.plainWrite (R.GDR_HB_MAN k) v).hbSync k :=
  if_pos ((man_keeps_src v).trans h)

/-- Both switches commanded on by hand is a crossing (R341). -/
theorem hbSync_cross (h3 : s.hbSrc k = 3) (hh : s.fld (F.GDR_HB_MAN_HI k) = 1) (hl : s.fld (F.GDR_HB_MAN_LO k) = 1)
    (he : s.hbEn k = true) (ht : s.holdsToken = true) : s.hbSync k = s.hbLatch1 k .cross := by
  have h1 : ∀ f : Fld, f.width = 1 → s.fld f = 1 → s.flag f = true := fun f hw hf => by
    unfold State.flag
    unfold State.fld at hf
    rw [hw] at hf
    rw [bit_eq_bits, hf]
    rfl
  have hc : s.srcCmd k = (true, true) := by
    unfold State.srcCmd
    rw [h3]
    exact Prod.ext (h1 _ rfl hh) (h1 _ rfl hl)
  unfold State.hbSync
  dsimp only
  rw [hc]
  exact if_pos (And.intro he ht)

section
variable {high goffIn : Bool}

theorem effGoffTimeout_waits (h : (let u := s.putFlag (if high then F.GDR_HB_STATUS_GOFFH k else F.GDR_HB_STATUS_GOFFL k) goffIn
    (if high then u.flag (F.GDR_HB_STATUS_HION k) else u.flag (F.GDR_HB_STATUS_LOON k)) = true ∨ goffIn = true
      ∨ s.now < (if high then (vget s.hbs k).offHi else (vget s.hbs k).offLo)
        + 100 * max 1 (u.fld (F.GDR_HB_CFG_GOFF_TMO k)))) :
    effGoffTimeout k high goffIn s
      = s.putFlag (if high then F.GDR_HB_STATUS_GOFFH k else F.GDR_HB_STATUS_GOFFL k) goffIn := by
  refine if_neg fun c => ?_
  rcases h with h | h | h
  · exact Bool.false_ne_true (c.1.symm.trans h)
  · exact Bool.false_ne_true (c.2.1.symm.trans h)
  · exact Nat.not_lt.2 c.2.2 h

theorem effGoffTimeout_stuck (h : (let u := s.putFlag (if high then F.GDR_HB_STATUS_GOFFH k else F.GDR_HB_STATUS_GOFFL k) goffIn
    (if high then u.flag (F.GDR_HB_STATUS_HION k) else u.flag (F.GDR_HB_STATUS_LOON k)) = false ∧ goffIn = false
      ∧ (if high then (vget s.hbs k).offHi else (vget s.hbs k).offLo)
        + 100 * max 1 (u.fld (F.GDR_HB_CFG_GOFF_TMO k)) ≤ s.now)) :
    effGoffTimeout k high goffIn s
      = (s.putFlag (if high then F.GDR_HB_STATUS_GOFFH k else F.GDR_HB_STATUS_GOFFL k) goffIn).hbLatch1 k .stuck :=
  if_pos h

theorem effDsatBlankEnd_waits (h : (if high then s.flag (F.GDR_HB_STATUS_HION k) else s.flag (F.GDR_HB_STATUS_LOON k)) = false
      ∨ s.now < (if high then (vget s.hbs k).onHi else (vget s.hbs k).onLo) + 100 * s.fld (F.GDR_HB_CFG_BLANK k)) :
    effDsatBlankEnd k high s = s := by
  cases high <;>
    exact if_neg fun c => h.elim (fun e => Bool.false_ne_true (e.symm.trans c.1)) (Nat.not_lt.2 c.2)

theorem effDsatBlankEnd_watches
    (h : (if high then s.flag (F.GDR_HB_STATUS_HION k) else s.flag (F.GDR_HB_STATUS_LOON k)) = true)
    (ht : (if high then (vget s.hbs k).onHi else (vget s.hbs k).onLo) + 100 * s.fld (F.GDR_HB_CFG_BLANK k) ≤ s.now) :
    effDsatBlankEnd k high s
      = s.modHb k (fun y => if high then { y with watchHi := true } else { y with watchLo := true }) := by
  cases high <;> exact if_pos ⟨h, ht⟩

theorem effDesatDetect_not {dsatN : BitVec 10} (h : (if high then (vget s.hbs k).watchHi else (vget s.hbs k).watchLo) = false
      ∨ dsatN ≠ 0 ∨ s.now < (if high then (vget s.hbs k).onHi else (vget s.hbs k).onLo)
        + 100 * s.fld (F.GDR_HB_CFG_BLANK k) + 100) : effDesatDetect k high dsatN s = s := by
  by_cases hn : dsatN ≠ 0#10 ∨ s.now < (if high then (vget s.hbs k).onHi else (vget s.hbs k).onLo)
      + 100 * s.fld (F.GDR_HB_CFG_BLANK k) + 100
  · exact if_pos hn
  · have hw := h.resolve_right hn
    refine (if_neg hn).trans ?_
    cases high with
    | false => exact if_neg fun c => Bool.false_ne_true (hw.symm.trans c)
    | true => exact if_neg fun c => Bool.false_ne_true (hw.symm.trans c)

theorem effDesatDetect_latches (h : (if high then (vget s.hbs k).watchHi else (vget s.hbs k).watchLo) = true)
    (ht : (if high then (vget s.hbs k).onHi else (vget s.hbs k).onLo) + 100 * s.fld (F.GDR_HB_CFG_BLANK k) + 100 ≤ s.now) :
    effDesatDetect k high 0 s
      = (s.modHb k (fun y => if high then { y with dsatH := true } else { y with dsatL := true })).hbShort k
        (if high then .desatH else .desatL) := by
  refine (if_neg (not_or.2 ⟨not_not_intro rfl, Nat.not_lt.2 ht⟩)).trans ?_
  cases high with
  | false => exact if_pos h
  | true => exact if_pos h

end

theorem effHsgLoss_back {hsg : BitVec 100} (h : hsg ≠ 0) :
    effHsgLoss k hsg s = s.putFlag (F.GDR_HB_STATUS_HSG k) (hsg.getLsbD 0) := if_neg h

section
variable {hs : List (BitVec 10)}

theorem allOver_iff : hs.all (fun x => decide (s.fld F.GDR_HS_HS_THR < x.toNat)) = true
    ↔ ∀ y ∈ hs, s.fld F.GDR_HS_HS_THR < y.toNat := by
  simp only [List.all_eq_true, decide_eq_true_eq]

theorem effHardShort_latches (h : 5 ≤ hs.length ∧ ∀ y ∈ hs, s.fld F.GDR_HS_HS_THR < y.toNat) :
    effHardShort k hs s = (s.modHb k (fun y => { y with hsOver := true })).hbShort k .hshort :=
  if_pos (h.imp_right allOver_iff.2)

theorem effHardShort_not (h : ¬(5 ≤ hs.length ∧ ∀ y ∈ hs, s.fld F.GDR_HS_HS_THR < y.toNat)) :
    effHardShort k hs s = s := if_neg fun c => h (c.imp_right allOver_iff.1)

end

/-! ### Shorts that coincide on a bus (R347) -/

theorem only_now {s t : State} (h : OnlyBridges s t) : t.now = s.now := (congrArg State.now h.1 :)

/-- A motor of half-bridges faults in no time. -/
theorem motFault_now {n : Nat} (hn : 8 ≤ n) : (s.motFault n).now = s.now := by
  have h1 : ∀ (t : State) o i b, (t.notify o i b).now = t.now := fun t o i b => by
    unfold State.now
    simp only [State.notify_frame]
  unfold State.motFault State.motState
  dsimp only
  rw [h1, if_neg fun c => absurd c.2.2.2 (Nat.not_lt.2 hn), if_neg (by decide)]
  have h2 := only_now (motSync_only (s.modMot n (fun m => { m with
    state := .fault, cmdSince := none, step := 0, duty := 0, zcAt := none })) n)
  exact h2

theorem applyDriven_now (t : State) (x : Nat) : (if t.hbSrc x = 2 then t.hbApply x else t : State).now = t.now := by
  split
  · exact only_now (hbApply_only t x)
  · rfl

theorem invStop_now (j : Nat) : (s.invStop j).now = s.now :=
  each_keeps (fun t => t.now) _ _ _ applyDriven_now

theorem srcFault_now : (s.srcFault k).now = s.now := by
  unfold State.srcFault
  split
  · split
    · split
      · rfl
      · exact motFault_now (by omega)
    · rfl
  · exact invStop_now _
  · rfl

theorem hbLatch1_now (c : HbCause) : (s.hbLatch1 k c).now = s.now := by
  unfold State.hbLatch1
  split
  · rfl
  · split
    · rfl
    · have h : ∀ t : State, (t.each (hbSources k c) State.raise).now = t.now := fun t =>
        each_keeps (fun u => u.now) t (hbSources k c) State.raise (fun _ _ => rfl)
      have hoff : ∀ t : State, (t.hbOff k).now = t.now := fun _ => rfl
      rw [h, srcFault_now, hoff]
      rfl

/-- The half-bridge after it has latched a short and noted when. -/
def shorted (s : State) (k : Nat) (c : HbCause) : State :=
  (s.hbLatch1 k c).modHb k (fun y => { y with shortAt := some (s.hbLatch1 k c).now })

/-- The enabled half-bridges of a bus. -/
def busMates (u : State) (bus : Nat) : List Nat :=
  (List.range 32).filter (fun l => u.hbEn l && u.fld (F.GDR_HB_CFG_BUS l) == bus)

/-- Another half-bridge of the bus shorted no longer ago than the coincidence time. -/
def Coincides (u : State) (k bus : Nat) : Prop := ∃ l ∈ busMates u bus, l ≠ k ∧ u.hbFault l = true
  ∧ ∃ t0, (vget u.hbs l).shortAt = some t0 ∧ u.now ≤ t0 + u.coinc

theorem hbShort_stale (h : s.hbEn k = false ∨ s.holdsToken = false ∨ s.hbFault k = true) (c : HbCause) :
    s.hbShort k c = s.hbLatch1 k c := by
  refine if_pos ?_
  rcases h with h | h | h <;> simp [h]

section
variable {c : HbCause} (h : s.hbEn k = true ∧ s.holdsToken = true ∧ s.hbFault k = false)
include h

theorem hbShort_of : s.hbShort k c = (let u := shorted s k c
    let bus := s.fld (F.GDR_HB_CFG_BUS k)
    if (busMates u bus).any (fun j => j != k && u.hbFault j && (match (vget u.hbs j).shortAt with
      | some t => decide (u.now ≤ t + u.coinc)
      | none => false)) && !bit (u.fld F.GDR_STATUS_BUSF) bus then
      ((u.setFld F.GDR_STATUS_BUSF (setBit (u.fld F.GDR_STATUS_BUSF) bus)).raise 324).each (busMates u bus)
        (fun t j => t.hbLatch1 j .bus)
    else u) := by
  obtain ⟨he, ht, hf⟩ := h
  unfold State.hbShort
  dsimp only
  rw [if_neg (by simp [he, ht, hf])]
  unfold shorted
  rw [hbLatch1_now]
  rfl

omit h in
theorem any_coincides {u : State} {bus : Nat} : (busMates u bus).any (fun j => j != k && u.hbFault j
    && (match (vget u.hbs j).shortAt with | some t => decide (u.now ≤ t + u.coinc) | none => false)) = true
      ↔ Coincides u k bus := by
  unfold Coincides
  rw [List.any_eq_true]
  refine exists_congr fun l => and_congr_right fun _ => ?_
  rw [Bool.and_eq_true, Bool.and_eq_true, bne_iff_ne, and_assoc]
  refine and_congr_right fun _ => and_congr_right fun _ => ?_
  cases (vget u.hbs l).shortAt with
  | none => simp
  | some t => simp

theorem hbShort_bus (hm : Coincides (shorted s k c) k (s.fld (F.GDR_HB_CFG_BUS k)))
    (hb : bit ((shorted s k c).fld F.GDR_STATUS_BUSF) (s.fld (F.GDR_HB_CFG_BUS k)) = false) :
    s.hbShort k c = (((shorted s k c).setFld F.GDR_STATUS_BUSF (setBit ((shorted s k c).fld F.GDR_STATUS_BUSF)
      (s.fld (F.GDR_HB_CFG_BUS k)))).raise 324).each (busMates (shorted s k c) (s.fld (F.GDR_HB_CFG_BUS k)))
        (fun t l => t.hbLatch1 l .bus) := by
  rw [hbShort_of h]
  exact if_pos (by rw [any_coincides.2 hm, hb]; rfl)

theorem hbShort_alone (hm : ¬Coincides (shorted s k c) k (s.fld (F.GDR_HB_CFG_BUS k))
      ∨ bit ((shorted s k c).fld F.GDR_STATUS_BUSF) (s.fld (F.GDR_HB_CFG_BUS k)) = true) :
    s.hbShort k c = shorted s k c := by
  rw [hbShort_of h]
  refine if_neg fun e => ?_
  obtain ⟨e1, e2⟩ := Bool.and_eq_true_iff.1 e
  rcases hm with hm | hm
  · exact hm (any_coincides.1 e1)
  · rw [hm] at e2
    exact Bool.false_ne_true e2

end

/-! ### Clearing (R349) -/

theorem hbClear_refused (h : s.clrRefused k = true) : s.hbClear k = (s.setFlag F.GDR_STATUS_CLR_REJ).raise 325 := if_pos h

/-- What stands in the way of a clear. -/
theorem clrRefused_of (h : ((vget s.hbs k).dsatH || (vget s.hbs k).dsatL || (vget s.hbs k).hsOver) = true
      ∨ (vget s.hbs k).latchAt = some s.now ∨ s.flag (F.GDR_HB_STATUS_HSG k) = false
      ∨ s.flag (F.GDR_HB_STATUS_GOFFH k) = false ∨ s.flag (F.GDR_HB_STATUS_GOFFL k) = false ∨ s.hbSourceActive k = true) :
    s.clrRefused k = true := by
  unfold State.clrRefused
  dsimp only
  rcases h with h | h | h | h | h | h
  · simp only [Bool.or_eq_true] at h ⊢
    tauto
  · simp [h]
  · simp [h]
  · simp [h]
  · simp [h]
  · simp [h]

/-- Of the register of a half-bridge that clears, its state bits alone stay. -/
theorem hbClear_fault (h : s.clrRefused k = false) : (s.hbClear k).hbFault k = false := by
  have h1 : ∀ (st : Nat) (f : HbSt → HbSt), ((s.setReg (R.GDR_HB_STATUS k) (BitVec.ofNat 32 (st % 2 ^ 5))).modHb k f).hbFault k
      = false := fun st f => by
    refine (modHb_flag _ _ _ _).trans ?_
    show bit ((s.setReg (R.GDR_HB_STATUS k) _).reg (R.GDR_HB_STATUS k)).toNat _ = false
    rw [State.reg_setReg_same, bit_eq_testBit, BitVec.toNat_ofNat, Nat.testBit_mod_two_pow, Nat.testBit_mod_two_pow]
    rfl
  have h2 : (F.GDR_STATUS_BUSF).apart (F.GDR_HB_STATUS_FAULT k) := .inl (by
    show R.GDR_STATUS ≠ R.GDR_HB_STATUS k
    unfold R.GDR_STATUS R.GDR_HB_STATUS
    omega)
  unfold State.hbClear
  rw [if_neg (by simp [h])]
  dsimp only
  split
  · exact h1 _ _
  · exact (setFld_flag_apart _ _ _ _ (Nat.le_of_ble_eq_true rfl) rfl h2).trans (h1 _ _)

/-- A field of one bit that reads 1 is a set bit. -/
theorem bit0_iff (v : Word) : bits v.toNat 0 1 = 1 ↔ v.getLsbD 0 = true := by
  rw [getLsbD_bits, beq_iff_eq]

theorem effGdrClr_none {v : Word} (h : v.getLsbD 0 = false) : effGdrClr k v s = s :=
  if_neg fun c => Bool.false_ne_true (h.symm.trans ((bit0_iff v).1 c))

theorem effGdrClr_clear {v : Word} (h : v.getLsbD 0 = true) : effGdrClr k v s = s.hbClear k := if_pos ((bit0_iff v).2 h)

/-! ### The inverters (R350) -/

section
variable {j : Nat} {v : Word}

theorem effInvRun_bad (h : bits v.toNat 8 7 < 20 ∨ 100 < bits v.toNat 8 7 ∨ 256 < bits v.toNat 16 9) :
    effInvRun j v s = s.setFlag F.GDR_STATUS_CFG_ERR := by
  refine if_pos ?_
  show (!(decide (20 ≤ bits v.toNat 8 7) && decide (bits v.toNat 8 7 ≤ 100)) || decide (256 < bits v.toNat 16 9)) = true
  rcases h with h | h | h
  · simp [Nat.not_le.2 h]
  · simp [Nat.not_le.2 h]
  · simp [h]

section
variable (h : 20 ≤ bits v.toNat 8 7 ∧ bits v.toNat 8 7 ≤ 100 ∧ bits v.toNat 16 9 ≤ 256)
include h

theorem effInvRun_of : effInvRun j v s = (let was := s.flag (F.GDR_INV_CTRL_RUN j)
    let s1 := s.plainWrite (R.GDR_INV_CTRL j) v
    if v.getLsbD 0 = true ∧ was = false ∧ s.flag F.THM_TSD_TSD_LOCK = true then s1.clrFlag (F.GDR_INV_CTRL_RUN j)
    else if v.getLsbD 0 = true ∧ was = false then effInvPeriod j (s1.modInv j (fun x => { x with running := true }))
    else if v.getLsbD 0 = true then s1
    else s1.invStop j) := by
  obtain ⟨h1, h2, h3⟩ := h
  have hr : (F.GDR_INV_CTRL_RUN j).of v = 1 ↔ v.getLsbD 0 = true := bit0_iff v
  refine (if_neg ?_).trans ?_
  · show ¬(!(decide (20 ≤ bits v.toNat 8 7) && decide (bits v.toNat 8 7 ≤ 100)) || decide (256 < bits v.toNat 16 9)) = true
    simp [h1, h2, h3]
  · exact if_congr (and_congr_left' hr) rfl (if_congr (and_congr_left' hr) rfl (if_congr hr rfl rfl))

theorem effInvRun_stop (h0 : v.getLsbD 0 = false) :
    effInvRun j v s = (s.plainWrite (R.GDR_INV_CTRL j) v).invStop j := by
  have h1 : ¬v.getLsbD 0 = true := by rw [h0]; exact Bool.false_ne_true
  rw [effInvRun_of h]
  dsimp only
  rw [if_neg (fun c => h1 c.1), if_neg (fun c => h1 c.1), if_neg h1]

theorem effInvRun_runs (h0 : v.getLsbD 0 = true) (hr : s.flag (F.GDR_INV_CTRL_RUN j) = true) :
    effInvRun j v s = s.plainWrite (R.GDR_INV_CTRL j) v := by
  have h1 : ¬s.flag (F.GDR_INV_CTRL_RUN j) = false := by rw [hr]; decide
  rw [effInvRun_of h]
  dsimp only
  rw [if_neg (fun c => h1 c.2.1), if_neg (fun c => h1 c.2), if_pos h0]

theorem effInvRun_hot (h0 : v.getLsbD 0 = true) (hr : s.flag (F.GDR_INV_CTRL_RUN j) = false)
    (hl : s.flag F.THM_TSD_TSD_LOCK = true) :
    effInvRun j v s = (s.plainWrite (R.GDR_INV_CTRL j) v).clrFlag (F.GDR_INV_CTRL_RUN j) := by
  rw [effInvRun_of h]
  exact if_pos ⟨h0, hr, hl⟩

theorem effInvRun_starts (h0 : v.getLsbD 0 = true) (hr : s.flag (F.GDR_INV_CTRL_RUN j) = false)
    (hl : s.flag F.THM_TSD_TSD_LOCK = false) :
    effInvRun j v s = effInvPeriod j ((s.plainWrite (R.GDR_INV_CTRL j) v).modInv j (fun y => { y with running := true })) := by
  rw [effInvRun_of h]
  dsimp only
  rw [if_neg (by simp [hl]), if_pos ⟨h0, hr⟩]

end

theorem effInvPeriod_off (h : s.flag (F.GDR_INV_CTRL_RUN j) = false ∨ (vget s.invs j).running = false) :
    effInvPeriod j s = s := if_pos h

theorem effInvPeriod_on (h : s.flag (F.GDR_INV_CTRL_RUN j) = true ∧ (vget s.invs j).running = true) :
    effInvPeriod j s = (s.modInv j (fun y => { y with
      since := s.now
      khz := s.fld (F.GDR_INV_CTRL_INV_KHZ j)
      phase := min (s.fld (F.GDR_INV_CTRL_PHASE j)) (s.fld F.THM_FUSER_PHASE_CAP) })).each
        [24 + 2 * j, 25 + 2 * j] (fun t l => if t.hbSrc l = 2 then t.hbApply l else t) :=
  if_neg (by simp [h.1, h.2])

end

end Sys2Proof.Proofs.HalfBridges
end

