-- ==== Sys2Proof/Proofs/AxisMotion.lean ====
section
/-!
PROOFS. The axes: one step of 10 µs, their commands and the loading of a profile (R353 to R362).
-/
namespace Sys2Proof.Proofs.AxisMotion

open Sys2Proof.Machine
open Sys2Proof.Laws.Writes
open Sys2Proof.Laws.Axes

variable {s : State} {n : Nat}

/-! ### One step (R353 to R359) -/

/-- An axis at the start of a step, after its inputs have been sampled. -/
def sampled (s : State) (n : Nat) (ix st : Bool) : State := s.modAxis n (fun y => { y with
  idxWas := ix, stallRun := if st then y.stallRun + 1 else 0, blocked := false
  holdTicks := if y.state.busy then y.holdTicks else y.holdTicks - 1 })

/-- What a step shows of an axis is what its motion left there. -/
structure Shows (x y : Axis) : Prop where
  state : x.state = y.state
  pFrac : x.pFrac = y.pFrac
  vMilli : x.vMilli = y.vMilli
  rem : x.rem = y.rem

theorem sampled_at (ix st : Bool) (h : n < 16) : (sampled s n ix st).axis n = { s.axis n with
    idxWas := ix, stallRun := if st then (s.axis n).stallRun + 1 else 0, blocked := false
    holdTicks := if (s.axis n).state.busy then (s.axis n).holdTicks else (s.axis n).holdTicks - 1 } := modAxis_at _ _ _ h

/-- The stall filter has been satisfied. -/
def Stalls (s : State) (n : Nat) (st : Bool) : Bool :=
  decide (max 1 (s.fld (F.STP_HBACK_STALL_FILT n)) ≤ if st then (s.axis n).stallRun + 1 else 0)

theorem not_stalls : Stalls s n false = false := decide_eq_false (by simp)

section
variable {hm ix st : Bool} (h : n < 16)
include h

/-- A step of a moving axis. -/
theorem axisStep_moving (hs : (s.axis n).state = .moving) : Shows ((s.axisStep n hm ix st).axis n)
    ((if Stalls s n st then (sampled s n ix st).axStall n else if (s.axis n).halt then (sampled s n ix st).axDrop n 2
      else (sampled s n ix st).axMove n).axis n) := by
  have e := step_at s n hm ix st h
  dsimp only at e
  rw [hs, step1_at s n ix st h] at e
  obtain ⟨e1, e2, e3, e4⟩ := e
  exact ⟨e1, e2, e3, e4⟩

theorem axisStep_stopping (hs : (s.axis n).state = .stopping) : Shows ((s.axisStep n hm ix false).axis n)
    (((sampled s n ix false).axSlow n).axis n) := by
  have e := step_at s n hm ix false h
  dsimp only at e
  rw [hs, step1_at s n ix false h] at e
  dsimp only at e
  rw [if_neg (by simp)] at e
  obtain ⟨e1, e2, e3, e4⟩ := e
  exact ⟨e1, e2, e3, e4⟩

theorem axisStep_idle (hs : (s.axis n).state = .off ∨ (s.axis n).state = .hold ∨ (s.axis n).state = .fault) :
    Shows ((s.axisStep n hm ix st).axis n) ((sampled s n ix st).axis n) := by
  have e := step_at s n hm ix st h
  dsimp only at e
  rcases hs with hs | hs | hs <;>
  · rw [hs] at e
    obtain ⟨e1, e2, e3, e4⟩ := e
    exact ⟨e1, e2, e3, e4⟩

theorem axStall_at : ((s.axStall n).axis n).state = .fault ∧ ((s.axStall n).axis n).vMilli = 0 := by
  unfold State.axStall
  rw [axn, modAxis_at _ _ _ h]
  exact ⟨rfl, rfl⟩

theorem axDrop_at (b : Nat) : ((s.axDrop n b).axis n).state = (if (s.axis n).drydown then .off else .hold)
    ∧ ((s.axDrop n b).axis n).rem = 0 ∧ ((s.axDrop n b).axis n).pFrac = (s.axis n).pFrac := by
  have hax : ∀ c : Bool, (if c then (s.setFlag (F.STP_STATUS_POS_UNSURE n)).raise 330 else s : State).axis n = s.axis n := by
    intro c
    cases c with
    | false => rfl
    | true => exact axis_axes _ _ _ (by simp only [if_true, State.raise_frame, State.setFlag_frame])
  unfold State.axDrop
  dsimp only
  rw [axRest_at _ _ _ _ h, hax]
  exact ⟨rfl, rfl, rfl⟩

theorem axMove_segment (hr : (s.axis n).resume = none) {t tt : Nat} {p0 v0 p1 v1 : Int}
    (hg : segmentAt ((s.axis n).table.getD []) ((s.axis n).tMove + 10) 0 0 = some (t, tt, p0, v0, p1, v1)) :
    (s.axMove n).axis n = { s.axis n with
      tMove := (s.axis n).tMove + 10
      pFrac := ((s.axis n).p0 + hermiteP t tt p0 v0 p1 v1) * microUnit
      vMilli := hermiteV t tt p0 v0 p1 v1
      rem := (s.axis n).final - ((s.axis n).p0 + hermiteP t tt p0 v0 p1 v1) } := by
  unfold State.axMove
  dsimp only
  rw [hr]
  dsimp only
  rw [hg]
  dsimp only
  rw [modAxis_at _ _ _ h, hr]

theorem axMove_end (hr : (s.axis n).resume = none)
    (hg : segmentAt ((s.axis n).table.getD []) ((s.axis n).tMove + 10) 0 0 = none) :
    ((s.axMove n).axis n).state = (if (s.axis n).drydown then .off else .hold)
      ∧ ((s.axMove n).axis n).pFrac = (s.axis n).final * microUnit ∧ ((s.axMove n).axis n).vMilli = 0
      ∧ ((s.axMove n).axis n).rem = 0 := by
  unfold State.axMove
  dsimp only
  rw [hr]
  dsimp only
  rw [hg]
  dsimp only
  rw [axRest_at _ _ _ _ h, modAxis_at _ _ _ h]
  exact ⟨rfl, rfl, rfl, rfl⟩

theorem axSlow_at (w : Int) (hw : w = slewTo (s.axis n).vMilli 0 (accStep (s.fld (F.STP_STOP_ACC n)))) :
    ((s.axSlow n).axis n).pFrac = (s.axis n).pFrac + w ∧ ((s.axSlow n).axis n).vMilli = w := by
  unfold State.axSlow
  dsimp only
  rw [← hw, modAxis_at _ _ _ h]
  split
  · next h0 =>
    rw [axRest_at _ _ _ _ h, modAxis_at _ _ _ h]
    exact ⟨rfl, h0.symm⟩
  · rw [modAxis_at _ _ _ h, modAxis_at _ _ _ h]
    exact ⟨rfl, rfl⟩

/-- A stalled axis faults. -/
theorem step_stalls (hq : max 1 (s.fld (F.STP_HBACK_STALL_FILT n)) ≤ (s.axis n).stallRun + 1) (hs : (s.axis n).state = .moving) :
    ((s.axisStep n hm ix true).axis n).state = .fault ∧ ((s.axisStep n hm ix true).axis n).vMilli = 0 := by
  have e := axisStep_moving (hm := hm) (ix := ix) (st := true) h hs
  rw [show Stalls s n true = true from decide_eq_true hq, if_pos rfl] at e
  obtain ⟨h1, h2⟩ := axStall_at (s := sampled s n ix true) h
  exact ⟨e.state.trans h1, e.vMilli.trans h2⟩

/-- An axis told to stop at once drops its motion. -/
theorem step_drops (hs : (s.axis n).state = .moving) (hh : (s.axis n).halt = true) :
    ((s.axisStep n hm ix false).axis n).state = (if (s.axis n).drydown then .off else .hold)
      ∧ ((s.axisStep n hm ix false).axis n).rem = 0
      ∧ ((s.axisStep n hm ix false).axis n).pFrac = (s.axis n).pFrac := by
  have e := axisStep_moving (hm := hm) (ix := ix) (st := false) h hs
  rw [not_stalls, if_neg Bool.false_ne_true, if_pos hh] at e
  obtain ⟨h1, h2, h3⟩ := axDrop_at (s := sampled s n ix false) h 2
  rw [sampled_at ix false h] at h1 h3
  exact ⟨e.state.trans h1, e.rem.trans h2, e.pFrac.trans h3⟩

section
variable (hs : (s.axis n).state = .moving) (hh : (s.axis n).halt = false)
include hs hh

/-- A step along the profile. -/
theorem step_moves : Shows ((s.axisStep n hm ix false).axis n) (((sampled s n ix false).axMove n).axis n) := by
  have e := axisStep_moving (hm := hm) (ix := ix) (st := false) h hs
  rwa [not_stalls, if_neg Bool.false_ne_true, if_neg (by simp [hh])] at e

variable (hr : (s.axis n).resume = none)
include hr

theorem step_segment {t tt : Nat} {p0 v0 p1 v1 : Int}
    (hg : segmentAt ((s.axis n).table.getD []) ((s.axis n).tMove + 10) 0 0 = some (t, tt, p0, v0, p1, v1)) :
    ((s.axisStep n hm ix false).axis n).state = .moving
      ∧ ((s.axisStep n hm ix false).axis n).pFrac = ((s.axis n).p0 + hermiteP t tt p0 v0 p1 v1) * microUnit
      ∧ ((s.axisStep n hm ix false).axis n).vMilli = hermiteV t tt p0 v0 p1 v1
      ∧ ((s.axisStep n hm ix false).axis n).rem = (s.axis n).final - ((s.axis n).p0 + hermiteP t tt p0 v0 p1 v1) := by
  have e := step_moves (hm := hm) (ix := ix) h hs hh
  have e1 := sampled_at (s := s) ix false h
  rw [axMove_segment h (by rw [e1]; exact hr) (by rw [e1]; exact hg), e1] at e
  exact ⟨e.state.trans hs, e.pFrac, e.vMilli, e.rem⟩

theorem step_arrives (hg : segmentAt ((s.axis n).table.getD []) ((s.axis n).tMove + 10) 0 0 = none) :
    ((s.axisStep n hm ix false).axis n).state = (if (s.axis n).drydown then .off else .hold)
      ∧ ((s.axisStep n hm ix false).axis n).pFrac = (s.axis n).final * microUnit
      ∧ ((s.axisStep n hm ix false).axis n).vMilli = 0 ∧ ((s.axisStep n hm ix false).axis n).rem = 0 := by
  have e := step_moves (hm := hm) (ix := ix) h hs hh
  have e1 := sampled_at (s := s) ix false h
  obtain ⟨h1, h2, h3, h4⟩ := axMove_end (s := sampled s n ix false) h (by rw [e1]; exact hr) (by rw [e1]; exact hg)
  rw [e1] at h1 h2
  exact ⟨e.state.trans h1, e.pFrac.trans h2, e.vMilli.trans h3, e.rem.trans h4⟩

end

theorem step_slows (hs : (s.axis n).state = .stopping) :
    ((s.axisStep n hm ix false).axis n).pFrac
        = (s.axis n).pFrac + slewTo (s.axis n).vMilli 0 (accStep (s.fld (F.STP_STOP_ACC n)))
      ∧ ((s.axisStep n hm ix false).axis n).vMilli = slewTo (s.axis n).vMilli 0 (accStep (s.fld (F.STP_STOP_ACC n))) := by
  have e := axisStep_stopping (hm := hm) (ix := ix) h hs
  have e1 := sampled_at (s := s) ix false h
  obtain ⟨h1, h2⟩ := axSlow_at (s := sampled s n ix false) h _ rfl
  rw [e1] at h1 h2
  exact ⟨e.pFrac.trans h1, e.vMilli.trans h2⟩

theorem step_idle (hs : (s.axis n).state = .off ∨ (s.axis n).state = .hold ∨ (s.axis n).state = .fault) :
    ((s.axisStep n hm ix st).axis n).state = (s.axis n).state ∧ ((s.axisStep n hm ix st).axis n).pFrac = (s.axis n).pFrac := by
  have e := axisStep_idle (hm := hm) (ix := ix) (st := st) h hs
  rw [sampled_at ix st h] at e
  exact ⟨e.state, e.pFrac⟩

end

/-! ### The commands (R357 to R362) -/

theorem cmdByte (v : Word) : (F.STP_CMD_CMD n).of v = v.toNat % 256 := congrArg (· % 256) (Nat.div_one v.toNat)

/-- What the lowest bit of a command byte asks for. -/
def axCommand (s : State) (n : Nat) : Option Nat → State
  | some 0 => s.axLoad n
  | some 1 => s.axMoveCmd n
  | some 2 => if (s.axis n).state = .fault then s.axReject n else s.axStop n false
  | some 3 => s.axResume n
  | some 4 => s.axHomeCmd n
  | some 5 => s.axGo n .off .hold
  | some 6 => s.axGo n .hold .off
  | some 7 => s.axGo n .fault .off
  | _ => s

theorem effStpCmd_of (v : Word) : effStpCmd n v s = (let c := v.toNat % 256
    if c = 0 then s
    else if 1 < popc 8 c ∨ s.isOpen 0x07 n = false then s.axReject n
    else if (s.axis n).blocked then s
    else axCommand s n (lowestBit 8 c)) := by
  rw [← cmdByte (n := n) v]
  rfl

theorem effStpCmd_none {v : Word} (h : v.toNat % 256 = 0) : effStpCmd n v s = s :=
  (effStpCmd_of v).trans (if_pos h)

theorem effStpCmd_refused {v : Word} (h : 1 < popc 8 (v.toNat % 256) ∨ v.toNat % 256 ≠ 0 ∧ s.isOpen 0x07 n = false) :
    effStpCmd n v s = s.setFlag (F.STP_STATUS_CMD_REJ n) := by
  have h0 : v.toNat % 256 ≠ 0 := by
    rcases h with h | h
    · intro c
      rw [c] at h
      exact absurd h (by decide)
    · exact h.1
  exact (effStpCmd_of v).trans ((if_neg h0).trans (if_pos (h.imp_right And.right)))

theorem effStpCmd_blocked {v : Word} (ho : s.isOpen 0x07 n = true) (h1 : popc 8 (v.toNat % 256) = 1)
    (hb : (s.axis n).blocked = true) : effStpCmd n v s = s := by
  rw [effStpCmd_of]
  dsimp only
  by_cases h0 : v.toNat % 256 = 0
  · rw [if_pos h0]
  · rw [if_neg h0, if_neg (by simp [h1, ho]), if_pos hb]

section
variable {v : Word} (ho : s.isOpen 0x07 n = true) (hb : (s.axis n).blocked = false)
include ho hb

/-- The command of one bit of an open axis. -/
theorem effStpCmd_taken {c i : Nat} (hv : v.toNat % 256 = c) (hc : c ≠ 0 ∧ popc 8 c = 1 ∧ lowestBit 8 c = some i) :
    effStpCmd n v s = axCommand s n (some i) := by
  obtain ⟨h0, h1, h2⟩ := hc
  rw [effStpCmd_of]
  dsimp only
  rw [hv, if_neg h0, if_neg (by simp [h1, ho]), if_neg (by simp [hb]), h2]

theorem effStpCmd_load (hv : v.toNat % 256 = 1) : effStpCmd n v s = s.axLoad n := effStpCmd_taken (i := 0) ho hb hv (by decide)

theorem effStpCmd_move (hv : v.toNat % 256 = 2) : effStpCmd n v s = s.axMoveCmd n := effStpCmd_taken (i := 1) ho hb hv (by decide)

theorem effStpCmd_stop (hv : v.toNat % 256 = 4) :
    effStpCmd n v s = if (s.axis n).state = .fault then s.axReject n else s.axStop n false :=
  effStpCmd_taken (i := 2) ho hb hv (by decide)

theorem effStpCmd_resume (hv : v.toNat % 256 = 8) : effStpCmd n v s = s.axResume n := effStpCmd_taken (i := 3) ho hb hv (by decide)

theorem effStpCmd_home (hv : v.toNat % 256 = 16) : effStpCmd n v s = s.axHomeCmd n := effStpCmd_taken (i := 4) ho hb hv (by decide)

theorem effStpCmd_energise (hv : v.toNat % 256 = 32) : effStpCmd n v s = s.axGo n .off .hold :=
  effStpCmd_taken (i := 5) ho hb hv (by decide)

theorem effStpCmd_release (hv : v.toNat % 256 = 64) : effStpCmd n v s = s.axGo n .hold .off :=
  effStpCmd_taken (i := 6) ho hb hv (by decide)

theorem effStpCmd_clr (hv : v.toNat % 256 = 128) : effStpCmd n v s = s.axGo n .fault .off :=
  effStpCmd_taken (i := 7) ho hb hv (by decide)

/-- ENERGISE of an axis that is not OFF, RELEASE of one not in HOLD, CLR of one not in FAULT. -/
theorem effStpCmd_wrongState (h : v.toNat % 256 = 32 ∧ (s.axis n).state ≠ .off ∨ v.toNat % 256 = 64 ∧ (s.axis n).state ≠ .hold
      ∨ v.toNat % 256 = 128 ∧ (s.axis n).state ≠ .fault) : effStpCmd n v s = s.setFlag (F.STP_STATUS_CMD_REJ n) := by
  rcases h with ⟨hv, hs⟩ | ⟨hv, hs⟩ | ⟨hv, hs⟩
  · exact (effStpCmd_energise ho hb hv).trans (if_neg hs)
  · exact (effStpCmd_release ho hb hv).trans (if_neg hs)
  · exact (effStpCmd_clr ho hb hv).trans (if_neg hs)

/-- STOP of an axis that is not in FAULT. -/
theorem effStpCmd_stops (hv : v.toNat % 256 = 4) (hs : (s.axis n).state ≠ .fault) : effStpCmd n v s = s.axStop n false :=
  (effStpCmd_stop ho hb hv).trans (if_neg hs)

end

/-- A stop of an axis that does not move, or already slows down, leaves it as it is. -/
theorem axStop_still (h : n < 16) (hs : (s.axis n).state = .off ∨ (s.axis n).state = .hold ∨ (s.axis n).state = .stopping) :
    (s.axStop n false).axis n = s.axis n := by
  unfold State.axStop
  dsimp only
  rcases hs with hs | hs | hs <;> rw [hs]
  · rfl
  · rw [modAxis_at _ _ _ h, Bool.or_false]

theorem axStop_decelerates (hs : (s.axis n).state = .moving) (hm : s.flag (F.STP_CFG_STOPMODE n) = true) :
    s.axStop n false = s.modAxis n (fun y => { y with state := .stopping, drydown := y.drydown || false }) := by
  unfold State.axStop
  dsimp only
  rw [hs]
  exact if_pos hm

theorem axStop_halts (hs : (s.axis n).state = .homing ∨ (s.axis n).state = .moving ∧ s.flag (F.STP_CFG_STOPMODE n) = false) :
    s.axStop n false = s.modAxis n (fun y => { y with halt := true, drydown := y.drydown || false }) := by
  unfold State.axStop
  dsimp only
  rcases hs with hs | ⟨hs, hm⟩ <;> rw [hs]
  exact if_neg (by simp [hm])

/-! ### Loading a profile (R356, R357) -/

theorem axLoad_busy (h : (s.axis n).state.busy = true) : s.axLoad n = s.setFlag (F.STP_STATUS_CMD_REJ n) := if_pos h

theorem axLoad_count (h : (s.axis n).state.busy = false)
    (hc : s.fld (F.STP_TBLN_TBLN n) = 0 ∨ 256 < s.fld (F.STP_TBLN_TBLN n)) : s.axLoad n = s.loadRefused n 5 0 :=
  (if_neg (by simp [h])).trans (if_pos hc)

theorem modAxis_flag (s : State) (f : Axis → Axis) (g : Fld) : (s.modAxis n f).flag g = s.flag g := rfl

theorem modAxis_fld (s : State) (f : Axis → Axis) (g : Fld) : (s.modAxis n f).fld g = s.fld g := rfl

theorem loadRefused_facts (h : n < 16) : ((s.loadRefused n 5 0).axis n).table = none
    ∧ (s.loadRefused n 5 0).fld (F.STP_STATUS_LERR n) = 5 ∧ (s.loadRefused n 5 0).flag (F.STP_STATUS_LOAD_ERR n) = true
    ∧ 331 ∈ (s.loadRefused n 5 0).flt.raised := by
  have h1 : (F.STP_STATUS_ERRIDX n).apart (F.STP_STATUS_LERR n) := .inr (.inr (Nat.le_of_ble_eq_true rfl))
  have h2 : (F.STP_STATUS_ERRIDX n).apart (F.STP_STATUS_LOAD_ERR n) := .inr (.inr (Nat.le_of_ble_eq_true rfl))
  have h3 : (F.STP_STATUS_LERR n).apart (F.STP_STATUS_LOAD_ERR n) := .inr (.inr (Nat.le_of_ble_eq_true rfl))
  unfold State.loadRefused
  refine ⟨congrArg Axis.table (modAxis_at _ _ _ h), ?_, ?_, raise_mem _ _⟩
  · rw [modAxis_fld, raise_fld, State.fld_setFld_apart _ (F.STP_STATUS_ERRIDX n) _ _ (Nat.le_of_ble_eq_true rfl) h1]
    exact State.fld_setFld_same _ (F.STP_STATUS_LERR n) 5 (Nat.le_of_ble_eq_true rfl)
  · rw [modAxis_flag, raise_flag, setFld_flag_apart _ (F.STP_STATUS_ERRIDX n) _ _ (Nat.le_of_ble_eq_true rfl) rfl h2,
      setFld_flag_apart _ (F.STP_STATUS_LERR n) _ _ (Nat.le_of_ble_eq_true rfl) rfl h3]
    exact State.flag_setFlag s (F.STP_STATUS_LOAD_ERR n) (Nat.le_of_ble_eq_true rfl) rfl

section
variable (hc : (s.axis n).state.busy = false ∧ 0 < s.fld (F.STP_TBLN_TBLN n) ∧ s.fld (F.STP_TBLN_TBLN n) ≤ 256)
include hc

theorem axLoad_reads : s.axLoad n = (match s.loadTable (s.addr40 (R.STP_TBL_LO n) (R.STP_TBL_HI n) / 16 * 16)
      (s.fld (F.STP_TBLN_TBLN n)) (s.fld (F.STP_TBLN_TBLN n)) [] with
    | (t, .ok l) => (t.modAxis n (fun x => { x with table := some l })).setFlag (F.STP_STATUS_LOAD_OK n)
    | (t, .error e) => t.loadRefused n e.1 e.2) := by
  obtain ⟨hb, h0, h1⟩ := hc
  unfold State.axLoad
  dsimp only
  rw [if_neg (by simp [hb]), if_neg (by omega)] <;> rfl

variable {t : State}

theorem axLoad_ok {l} (ht : s.loadTable (s.addr40 (R.STP_TBL_LO n) (R.STP_TBL_HI n) / 16 * 16)
      (s.fld (F.STP_TBLN_TBLN n)) (s.fld (F.STP_TBLN_TBLN n)) [] = (t, .ok l)) :
    s.axLoad n = (t.modAxis n (fun y => { y with table := some l })).setFlag (F.STP_STATUS_LOAD_OK n) := by
  rw [axLoad_reads hc, ht]

theorem axLoad_error {e i} (ht : s.loadTable (s.addr40 (R.STP_TBL_LO n) (R.STP_TBL_HI n) / 16 * 16)
      (s.fld (F.STP_TBLN_TBLN n)) (s.fld (F.STP_TBLN_TBLN n)) [] = (t, .error (e, i))) :
    s.axLoad n = t.loadRefused n e i := by
  rw [axLoad_reads hc, ht]

end

end Sys2Proof.Proofs.AxisMotion
end

