-- ==== Sys2Proof/Proofs/Drives.lean ====
section
/-!
PROOFS. Motors, gate drive and steppers (R322 to R362).
-/
namespace Sys2Proof.Proofs.Drives

open Sys2Proof.Machine
open Sys2Proof.Laws.Writes
open Sys2Proof.Laws.Drive
open Sys2Proof.Laws.Axes
open Sys2Proof.Proofs.Motors
open Sys2Proof.Proofs.HalfBridges
open Sys2Proof.Proofs.AxisMotion

/-- Settles O56: each row has its effect, and each effect its branches; a motor that enters a state shows it because the
outputs that follow are all that changes with them. What a refused command, a zero-cross, a forced step, a locked rotor, a
sample of a half-bridge and an axis's step do is the model's reading (log entries 71, 72, 73, 91, 131, 132 and 135). -/
theorem drives : Obligations.Drives := by
  unfold Obligations.Drives
  intro s m h kb j x v cmp code0 code1 code high goffIn pins hsg dsatN hs home index stall n k a mt b ax next
  have hn : n < 16 := m.isLt
  have hk : k < 32 := kb.isLt
  have ha : a < 16 := x.isLt
  have hnx : ∀ {a b : State}, a = b → next a = next b := congrArg next
  refine ⟨fun hm => ?motor, fun hw => ?command, fun phase hp => ⟨motOff_phaseCmd hn hp phase, motFault_phaseCmd hn hp phase,
      motBrake_phaseCmd hn hp phase⟩, fun hp st f hst => motState_spindle hp st f hst,
    fun hh => hnx (effSpindleIndex_absent hh), fun hh => hnx (effSpindleIndex_present hh),
    fun g hg h8 hst c0 => indexPass_stops h8 hg hst c0, ⟨spindleIndex_unlocked, fun hu => ⟨spindleIndex_steady hu,
      fun hl => spindleIndex_falls hu hl.1 hl.2, fun hl => spindleIndex_locks hu hl.1 hl.2⟩⟩,
    ?turnOn, fun c => ⟨fun ho => hbLatch1_off ho c, fun he => ⟨fun hf => hbLatch1_again he.1 he.2 hf c,
      fun hf => hbLatch1_first he.1 he.2 hf c⟩⟩, hbOff_flags s k,
    fun h3 => hnx (effGdrManWrite_other v h3), fun h3 => hnx (effGdrManWrite_manual v h3), hbSync_cross,
    ⟨fun ho => hnx (effGoffTimeout_waits ho), fun ho => hnx (effGoffTimeout_stuck ho)⟩, rfl,
    fun hg => hnx (effHsgLoss_back hg),
    ⟨fun ho => hnx (effDsatBlankEnd_waits ho), fun ho => hnx (effDsatBlankEnd_watches ho.1 ho.2),
      fun ho => hnx (effDesatDetect_not ho), fun ho => hnx (effDesatDetect_latches ho.1 ho.2)⟩,
    ⟨fun h5 => hnx (effHardShort_latches h5), fun h5 => hnx (effHardShort_not h5)⟩,
    fun c he => ⟨fun ho => hbShort_bus he ho.1 ho.2, fun ho => hbShort_alone he ho⟩, fun c ho => hbShort_stale ho c,
    ⟨fun h0 => hnx (effGdrClr_none h0), fun h0 => hnx (effGdrClr_clear h0), hbClear_refused, hbClear_fault, clrRefused_of⟩,
    ⟨fun hb => hnx (effInvRun_bad hb), fun hr => ⟨fun h0 => hnx (effInvRun_stop hr h0),
      fun h0 => ⟨fun hrun => hnx (effInvRun_runs hr h0 hrun), fun hrun => ⟨fun hl => hnx (effInvRun_hot hr h0 hrun hl),
        fun hl => hnx (effInvRun_starts hr h0 hrun hl)⟩⟩⟩⟩,
    fun hi => hnx (effInvPeriod_off hi), fun hi => hnx (effInvPeriod_on hi), rfl,
    fun hm ix => ⟨fun hq hs' => step_stalls ha hq hs', step_drops ha, fun hs' hh hr => ⟨fun _ _ _ _ _ _ hg =>
        step_segment ha hs' hh hr hg, step_arrives ha hs' hh hr⟩, step_slows ha, fun st hs' => step_idle ha hs'⟩,
    fun tt p0 v0 p1 v1 ht => herm tt p0 v0 p1 v1 ht, ?stpRows, ?stepper, axLoad_busy,
    fun hb hc => ?badCount, fun hc => ⟨fun l hr => axLoad_ok hc (Prod.ext rfl hr), fun e i hr => axLoad_error hc (Prod.ext rfl hr)⟩⟩
  case motor =>
    have hu : ∀ {g : State → State} {t}, g s = t → next (s.onUnit (s.hasMot m.val) g) = next t := fun hg =>
      congrArg next ((onUnit_present s _ _ hm).trans hg)
    refine ⟨zcQualified_iff cmp, fun hc => hu (effBemfZeroCross_unfit hc), ?zero, fun hc => hu (effCommutation_idle hc),
      fun t0 ht => ⟨fun hl => hu ((effCommutation_of ht.1).trans (if_neg fun c => Nat.not_lt.2 c.2 hl)),
        fun hl => hu ((effCommutation_of ht.1).trans (if_pos ⟨ht.2, hl⟩))⟩, ?hallKept, ?hall,
      fun hc => hu (effAlignDone_waits hc), fun hc => ⟨_, hu rfl, effAlignDone_ramps hn hc.1 hc.2⟩, forcedDue_iff,
      fun hc => hu (effRampForcedStep_waits hc), fun hc => hu (effRampForcedStep_due hc.1 hc.2),
      fun hc => hu (effRampTimeout_waits hc), fun hc => hu (effRampTimeout_late hc.1 hc.2), lockedDue_iff,
      fun hl => hu (effLockedRotor_not hl), fun hl => hu (effLockedRotor_due hl),
      fun hl => hu (effMotorSpeedZero_turning hl), fun hl => hu (effMotorSpeedZero_still hl),
      hu rfl, fun hy => motPwm_stopped hy, fun hy => motPwm_run _ n hn hy⟩
    case zero =>
      intro hq e
      obtain ⟨hh, hq⟩ := hq
      exact ⟨fun hr => hu (effBemfZeroCross_run hh hq hr), fun hr =>
        ⟨fun hc => ⟨_, hu rfl, effBemfZeroCross_handed hh hq hn hr hc.1 hc.2⟩,
          fun hc => hu (effBemfZeroCross_fast hh hq hr hc.1 hc.2), fun hc => hu (effBemfZeroCross_slow hh hq hr hc)⟩⟩
    case hallKept =>
      exact fun hc => hu (effHallChange_kept (hc.imp (fun h c => h (BitVec.eq_of_toNat_eq c))
        (Or.imp_left fun h c => h (BitVec.eq_of_toNat_eq c))))
    case hall =>
      intro hc s1
      exact ⟨fun h0 => hu (effHallChange_unused hc h0), fun h0 => ⟨fun h1 => hu (effHallChange_wrong hc h0 h1),
        fun h1 => hu (effHallChange_step hc h0 h1)⟩⟩
  case command =>
    have hu : ∀ {t}, effMotCmd n v s = t → next (s.onWindow (0x50 + m.val) (fun u => effMotCmd n v u)) = next t := fun hg =>
      congrArg next ((onWindow_present s _ _ hw).trans hg)
    intro c rej
    refine ⟨?rows, effMotCmd_ignored, fun h0 => ⟨effMotCmd_locked h0, fun hl => ⟨effMotCmd_refused h0 hl, fun ho =>
      ⟨fun hc => hu (effMotCmd_brake h0 hl ho hc), fun hc => hu ((effMotCmd_clr h0 hl ho hc.1).trans (if_pos hc.2)),
        fun hc => hu ((effMotCmd_stop h0 hl ho hc.1).trans (if_neg hc.2)), effMotCmd_wrongState h0 hl ho, ?start⟩⟩⟩⟩
    case rows =>
      intro i hi
      simp only [List.mem_cons, List.not_mem_nil, or_false] at hi
      rcases hi with rfl | rfl | rfl | rfl <;> exact hu rfl
    case start =>
      intro hc away
      have e := effMotCmd_startOff h0 hl ho hc.1 hc.2
      exact ⟨fun hr => e.trans (motStart_refused hr), fun hr => ⟨fun hh => ⟨_, hu e, motStart_aligns hc.2 hr.1 hr.2 hn hh⟩,
        fun hh => ⟨_, hu e, motStart_runs hc.2 hr.1 hr.2 hn hh⟩⟩⟩
  case turnOn =>
    intro u cmd goff off out
    refine ⟨fun ho => hnx (effGateTurnOn_unready hk high pins ?_), fun ho => ⟨_, hnx rfl, effGateTurnOn_flag hk high pins ho⟩⟩
    rintro ⟨hc, he, hf, ht, hg, hd, hs⟩
    rcases ho with ho | ho | ho | ho | ho | ho | ho
    · exact Bool.false_ne_true (ho.symm.trans hc)
    · exact Bool.false_ne_true (ho.symm.trans he)
    · exact Bool.false_ne_true (hf.symm.trans ho)
    · exact Bool.false_ne_true (ho.symm.trans ht)
    · exact Bool.false_ne_true (ho.symm.trans hg)
    · exact Nat.not_lt.2 hd ho
    · exact Bool.false_ne_true (ho.2.symm.trans (hs ho.1))
  case stpRows =>
    intro c hc
    simp only [List.mem_cons, List.not_mem_nil, or_false] at hc
    rcases hc with rfl | rfl | rfl | rfl | rfl | rfl | rfl | rfl <;> rfl
  case stepper =>
    refine ⟨effStpCmd_none, effStpCmd_refused, fun ho => ⟨fun hc => effStpCmd_blocked ho hc.1 hc.2, fun hb => ?_⟩⟩
    intro rej
    refine ⟨fun hc => hnx (effStpCmd_load ho hb hc),
      fun hc => hnx ((effStpCmd_move ho hb hc.1).trans (if_pos hc.2)),
      fun hc => (effStpCmd_move ho hb hc.1).trans (if_neg ?unmovable),
      fun hc => ⟨hnx (effStpCmd_stops ho hb hc.1 ?moves), axStop_still ha hc.2⟩,
      fun hc => hnx ((effStpCmd_stops ho hb hc.1 ?decelerates).trans (axStop_decelerates hc.2.1 hc.2.2)),
      fun hc => hnx ((effStpCmd_stops ho hb hc.1 ?halts).trans (axStop_halts hc.2)),
      fun hc => (effStpCmd_stop ho hb hc.1).trans (if_pos hc.2),
      fun hc => hnx ((effStpCmd_resume ho hb hc.1).trans (if_pos hc.2)),
      fun hc => (effStpCmd_resume ho hb hc.1).trans (if_neg fun c => hc.2.elim (absurd c.1) c.2),
      fun hc => hnx ((effStpCmd_home ho hb hc.1).trans (if_pos hc.2)),
      fun hc => (effStpCmd_home ho hb hc.1).trans (if_neg hc.2),
      fun hc => hnx ((effStpCmd_energise ho hb hc.1).trans (if_pos hc.2)),
      fun hc => hnx ((effStpCmd_release ho hb hc.1).trans (if_pos hc.2)),
      fun hc => hnx ((effStpCmd_clr ho hb hc.1).trans (if_pos hc.2)), effStpCmd_wrongState ho hb⟩
    case unmovable =>
      rintro ⟨c1, c2⟩
      rcases hc.2 with h | h
      · exact h c1
      · rw [show (s.axis a).table = none from h] at c2
        exact Bool.false_ne_true c2
    case moves =>
      intro c
      rcases hc.2 with h | h | h <;> cases c.symm.trans h
    case decelerates => exact fun c => nomatch c.symm.trans hc.2.1
    case halts =>
      intro c
      rcases hc.2 with h | h
      · cases c.symm.trans h
      · cases c.symm.trans h.1
  case badCount =>
    rw [axLoad_count hb hc]
    exact loadRefused_facts ha

end Sys2Proof.Proofs.Drives
end

