-- ==== Sys2Proof/Proofs/LoopSlots.lean ====
section
/-!
PROOFS. The loop engine: conversions, one evaluation of a slot, its commands, and the web encoder (R368 to R381, R398).
-/
namespace Sys2Proof.Proofs.LoopSlots

open Sys2Proof.Machine
open Sys2Proof.Laws.Writes
open Sys2Proof.Laws.Loops

variable {s : State} {n : Nat}

/-! ### Inputs and outputs (R368, R369) -/

theorem effAdcConversion_not (inputs : List Int) (h : s.now % 5000 ≠ 0 ∨ s.adcAt = some s.now) :
    effAdcConversion inputs s = s := if_pos h

/-- The inputs after a conversion. -/
def converted (s : State) (inputs : List Int) : State := { s with
  adcAt := some s.now
  ain := (List.range 16).map (fun i => (adcCode 2500000 (inputs.getD i 0) :: s.ain.getD i []).take 128) }

theorem effAdcConversion_due (inputs : List Int) (h : s.now % 5000 = 0 ∧ s.adcAt ≠ some s.now) :
    effAdcConversion inputs s = converted s inputs := if_neg (by rintro (c | c); exacts [c h.1, h.2 c])

theorem converted_ain (inputs : List Int) {i : Nat} (hi : i < 16) : (converted s inputs).ain.getD i []
    = (adcCode 2500000 (inputs.getD i 0) :: s.ain.getD i []).take 128 := by
  unfold converted
  simp [List.getD_eq_getElem?_getD, hi]

theorem effLpwmPeriod_running (h : decide (1000000 ≤ (s.now - lget s.lpwmAt n) * s.lpwmKhz) = false) :
    effLpwmPeriod n s = s := if_pos (Nat.lt_of_not_le (of_decide_eq_false h))

theorem effLpwmPeriod_over (h : decide (1000000 ≤ (s.now - lget s.lpwmAt n) * s.lpwmKhz) = true) : effLpwmPeriod n s = { s with
    lpwm := (List.range 8).map (fun i => if i = n then s.fld (F.LOP_PWM_DUTY n) else lget s.lpwm i)
    lpwmAt := (List.range 8).map (fun i => if i = n then s.now else lget s.lpwmAt i) } :=
  if_neg (Nat.not_lt.2 (of_decide_eq_true h))

/-! ### Ticks (R371, R372, R375) -/

theorem effLoopTick_not (h : s.now % 20000 ≠ 0 ∨ s.tickAt = some s.now) : effLoopTick s = s := if_pos h

theorem effLoopTick_due (h : s.now % 20000 = 0 ∧ s.tickAt ≠ some s.now) :
    effLoopTick s = (List.range 64).foldl State.loopSlot { s with tickAt := some s.now } :=
  if_neg (by rintro (c | c); exacts [c h.1, h.2 c])

/-- A slot that need not be opened is evaluated when it is due. -/
theorem loopSlot_of {l : Loop} (hl : Tab.get s.loops n = some l) (ho : (l.state == .running && s.loopStale l) = false) :
    s.loopSlot n = if l.state ≠ .running ∧ l.state ≠ .openloop then s
      else if (if l.event then l.fresh else decide (s.now / 20000 % max 1 l.per = 0)) then s.loopEval n l else s := by
  unfold State.loopSlot
  rw [hl]
  dsimp only
  rw [ho, if_neg Bool.false_ne_true, hl]
  rfl

theorem loopSlot_idle (h : ∀ l, Tab.get s.loops n = some l → l.state = .stopped ∨ l.state = .frozen) : s.loopSlot n = s := by
  cases hl : Tab.get s.loops n with
  | none =>
    unfold State.loopSlot
    rw [hl]
  | some l =>
    rcases h l hl with hs | hs
    · rw [loopSlot_of hl (by rw [hs]; rfl), if_pos ⟨by rw [hs]; decide, by rw [hs]; decide⟩]
    · rw [loopSlot_of hl (by rw [hs]; rfl), if_pos ⟨by rw [hs]; decide, by rw [hs]; decide⟩]

theorem loopSlot_turn {l : Loop} (hl : Tab.get s.loops n = some l)
    (h : l.state = .openloop ∨ l.state = .running ∧ s.loopStale l = false) :
    s.loopSlot n = if (if l.event then l.fresh else decide (s.now / 20000 % max 1 l.per = 0)) = true
      then s.loopEval n l else s := by
  rcases h with hs | ⟨hs, hf⟩
  · exact (loopSlot_of hl (by rw [hs]; rfl)).trans (if_neg (by rw [hs]; exact fun c => c.2 rfl))
  · exact (loopSlot_of hl (by rw [hs, hf]; rfl)).trans (if_neg (by rw [hs]; exact fun c => c.1 rfl))

/-! ### One evaluation (R373, R374, R376) -/

/-- What an evaluation of a slot computes. -/
def evaluation (s : State) (n : Nat) (l : Loop) : Loop × Int :=
  l.evaluate (sx 32 (s.reg (R.LOP_SP n)).toNat) (s.loopInput l) (if l.taddr = 0 then 0 else (s.loopReg l.toff).2)

/-- The state after the table's register has been read. -/
def tableRead (s : State) (l : Loop) : State := if l.taddr = 0 then s else (s.loopReg l.toff).1

theorem loopEval_trips {l : Loop} (h : ((evaluation s n l).1.detect (evaluation s n l).2).2 = true) :
    (s.loopEval n l).flag (F.LOP_ST_TRIP n) = true ∧ 336 ∈ (s.loopEval n l).flt.raised
      ∧ Tab.get (s.loopEval n l).loops n
        = some { ((evaluation s n l).1.detect (evaluation s n l).2).1 with state := .frozen } := by
  have e : ∃ u : State, s.loopEval n l = (((u.setFlag (F.LOP_ST_TRIP n)).raise 336).notify 0x06 n 2)
      ∧ Tab.get u.loops n = some { ((evaluation s n l).1.detect (evaluation s n l).2).1 with state := .frozen } :=
    ⟨_, if_pos h, Tab.get_put_same _ _ _⟩
  obtain ⟨u, hu, hl⟩ := e
  rw [hu]
  obtain ⟨e, k, hn⟩ := State.notify_eq ((u.setFlag (F.LOP_ST_TRIP n)).raise 336) 0x06 n 2
  rw [hn]
  exact ⟨State.flag_setFlag u (F.LOP_ST_TRIP n) (Nat.le_of_ble_eq_true rfl) rfl, raise_mem _ _, hl⟩

theorem loopEval_outputs {l : Loop} (h : ((evaluation s n l).1.detect (evaluation s n l).2).2 = false) :
    s.loopEval n l = (let d := (evaluation s n l).1.detect (evaluation s n l).2
      let u : State := { tableRead s l with loops := Tab.put (tableRead s l).loops n d.1 }
      if l.doff = 0 then u else u.regWrite false l.doff (BitVec.ofNat 32 d.1.outWord)) :=
  if_neg (fun c => Bool.false_ne_true (h.symm.trans c))

theorem clamp_pos {w : Nat} (hw : 2 ≤ w) {v : Int} (h : 0 < v) : 0 < satW w v := by
  have h2 : (1 : Int) < 2 ^ (w - 1) := by
    have : (2 : Int) ^ (w - 1) = ((2 ^ (w - 1) : Nat) : Int) := by norm_cast
    rw [this]
    exact_mod_cast Nat.one_lt_two_pow (by omega)
  unfold satW clampInt
  split
  · omega
  · split <;> omega

section
variable (l : Loop) (sp y : Int) (pos : Nat)

theorem evaluate_limits (h : l.omin ≤ l.omax) (h0 : l.oslew = 0) :
    l.omin ≤ (l.evaluate sp y pos).1.uPrev ∧ (l.evaluate sp y pos).1.uPrev ≤ l.omax := by
  unfold Loop.evaluate
  dsimp only
  rw [if_pos (.inl h0)]
  exact clampInt_bounds _ _ _ h

theorem evaluate_slew (h : l.first = false) (h0 : l.oslew ≠ 0) :
    l.uPrev - l.oslew ≤ (l.evaluate sp y pos).1.uPrev ∧ (l.evaluate sp y pos).1.uPrev ≤ l.uPrev + l.oslew := by
  unfold Loop.evaluate
  dsimp only
  rw [if_neg (by simp [h, h0])]
  exact clampInt_bounds _ _ _ (by omega)

theorem evaluate_integral_held (h : l.state ≠ .running) : (l.evaluate sp y pos).1.i = l.i :=
  if_neg fun c => h c.1

theorem ramp_free (hr : l.restart = false) (hs : l.slew = 0) : l.ramp sp y = sp := by
  unfold Loop.ramp
  rw [if_neg (by simp [hr]), if_pos hs]

/-- The integral of a slot at its upper limit does not grow. -/
theorem evaluate_windup (hf : l.first = false) (hu : l.uPrev = l.omax) (hs : l.slew = 0) (hr : l.restart = false) (hy : y < sp) :
    (l.evaluate sp y pos).1.i = l.i := by
  refine if_neg fun c => ?_
  have hp : 0 < satW 32 (l.ramp sp y - y) := clamp_pos (by decide) (by rw [ramp_free l sp y hr hs]; omega)
  rcases c.2 with c | c
  · exact Bool.false_ne_true (hf.symm.trans c)
  · simp [hu, hp] at c

theorem evaluate_restart (h : l.restart = true) : (l.evaluate sp y pos).1.spr = y ∧ (l.evaluate sp y pos).2 = 0 := by
  have e : l.ramp sp y = y := if_pos h
  refine ⟨e, ?_⟩
  show satW 32 (l.ramp sp y - y) = 0
  rw [e, Int.sub_self]
  rfl

theorem evaluate_setpoint (hr : l.restart = false) (hs : l.slew = 0) : (l.evaluate sp y pos).1.spr = sp := ramp_free l sp y hr hs

theorem evaluate_ramp (hr : l.restart = false) (hs : l.slew ≠ 0) :
    l.spr - l.slew ≤ (l.evaluate sp y pos).1.spr ∧ (l.evaluate sp y pos).1.spr ≤ l.spr + l.slew := by
  have e : (l.evaluate sp y pos).1.spr = clampInt (l.spr - l.slew) (l.spr + l.slew) sp :=
    (if_neg (by simp [hr])).trans (if_neg hs)
  rw [e]
  exact clampInt_bounds _ _ _ (by omega)

end

section
variable (l : Loop) (e : Int)

theorem detect_quiet (h : l.oscWin = 0 ∨ l.sign = none ∨ e.natAbs ≤ l.oscAmp) : (l.detect e).2 = false := by
  unfold Loop.detect
  by_cases h0 : l.oscWin = 0
  · rw [if_pos h0]
  · rw [if_neg h0]
    dsimp only
    rw [if_neg]
    rintro ⟨c1, c2⟩
    rcases h with h | h | h
    · exact h0 h
    · exact c1 h
    · exact c2 (by rw [if_neg (by omega), if_neg (by omega)])

/-- A crossing to the other side: it is counted, and enough of them in the window trip. -/
theorem detect_crosses (h0 : l.oscWin ≠ 0) (hs : l.sign = some true) (he : e < -(l.oscAmp : Int)) :
    l.detect e = ({ l with sign := some false, crossings := (l.evals :: l.crossings).take 15 },
      match ((l.evals :: l.crossings).take 15)[l.oscN - 1]? with
      | some old => decide ((l.evals + 2 ^ 32 - old) % 2 ^ 32 < l.oscWin)
      | none => false) := by
  have hside : (if (l.oscAmp : Int) < e then some true else if e < -(l.oscAmp : Int) then some false else l.sign) = some false :=
    (if_neg (by omega)).trans (if_pos he)
  unfold Loop.detect
  rw [if_neg h0]
  dsimp only
  rw [hside, hs, if_pos (by decide), List.head?_drop] <;> rfl

theorem detect_trips (h0 : l.oscWin ≠ 0) (hs : l.sign = some true) (he : e < -(l.oscAmp : Int)) {old : Nat}
    (ho : ((l.evals :: l.crossings).take 15)[l.oscN - 1]? = some old) (hle : old ≤ l.evals) (hlt : l.evals < 2 ^ 32) :
    (l.detect e).2 = decide (l.evals - old < l.oscWin) := by
  rw [detect_crosses l e h0 hs he, ho]
  dsimp only
  rw [show (l.evals + 2 ^ 32 - old) % 2 ^ 32 = l.evals - old by omega]

end

/-! ### Commands of the slots (R374, R377, R379) -/

section
variable {v : Word}

theorem slot_of : F.LOP_CMD_SLOT.of v = v.toNat % 64 := congrArg (· % 64) (Nat.div_one v.toNat)

theorem copyTable_eq (l : Loop) : s.copyTable n l
    = (s.readTable l.taddr).1.modLoop n (fun x => { x with loading := some (s.readTable l.taddr).2 }) := rfl

theorem effLopCmd_refused (h : Tab.get s.loops (v.toNat % 64) = none ∨ 1 < popc 3 (bits v.toNat 8 3)) :
    effLopCmd v s = s.setFlag F.LOP_STATUS_CMD_REJ := by
  unfold effLopCmd
  dsimp only
  rw [slot_of]
  cases hl : Tab.get s.loops (v.toNat % 64) with
  | none => rfl
  | some l => exact if_pos (h.resolve_left (by rw [hl]; exact nofun))

section
variable {l : Loop} (hl : Tab.get s.loops (v.toNat % 64) = some l)
include hl

/-- The three command bits, lowest first. -/
theorem effLopCmd_of {c : Nat} (hc : bits v.toNat 8 3 = c) (h1 : popc 3 c ≤ 1) : effLopCmd v s
    = if bits c 0 1 = 1 then s.loopStart (v.toNat % 64) l
      else if bits c 1 1 = 1 then s.loopStop (v.toNat % 64)
      else if bits c 2 1 = 1 then (if l.taddr = 0 then s else s.copyTable (v.toNat % 64) l)
      else s := by
  have hb : ∀ i, i < 3 → bits v.toNat (8 + i) 1 = bits c i 1 := fun i hi => by
    rw [← hc]
    unfold bits
    interval_cases i <;> omega
  unfold effLopCmd
  dsimp only
  rw [slot_of, hl]
  dsimp only
  rw [hc, if_neg (Nat.not_lt.2 h1)]
  have h0 : F.LOP_CMD_START.of v = bits c 0 1 := hb 0 (by decide)
  have h2 : F.LOP_CMD_STOP.of v = bits c 1 1 := hb 1 (by decide)
  have h3 : F.LOP_CMD_TLOAD.of v = bits c 2 1 := hb 2 (by decide)
  rw [h0, h2, h3]

theorem effLopCmd_none (hc : bits v.toNat 8 3 = 0) : effLopCmd v s = s := effLopCmd_of hl hc (by decide)

theorem effLopCmd_start (hc : bits v.toNat 8 3 = 1) : effLopCmd v s = s.loopStart (v.toNat % 64) l :=
  effLopCmd_of hl hc (by decide)

theorem effLopCmd_stop (hc : bits v.toNat 8 3 = 2) : effLopCmd v s = s.loopStop (v.toNat % 64) :=
  effLopCmd_of hl hc (by decide)

theorem effLopCmd_tload (hc : bits v.toNat 8 3 = 4) :
    effLopCmd v s = if l.taddr = 0 then s else s.copyTable (v.toNat % 64) l := effLopCmd_of hl hc (by decide)

end

theorem loopStart_running {l : Loop} (h : l.state = .running ∨ l.state = .openloop) :
    s.loopStart n l = s.setFlag F.LOP_STATUS_CMD_REJ := if_pos h

theorem loopStart_of {l : Loop} (h : l.state = .stopped ∨ l.state = .frozen) : s.loopStart n l
    = if l.taddr = 0 then s.modLoop n (fun k => k.begin s.tick)
      else (s.copyTable n l).modLoop n (fun k => { k with startAfter := true }) :=
  if_neg (by rcases h with h | h <;> rw [h] <;> decide)

end

/-! ### The table's end, the set-point (R374, R379) -/

theorem effLoopTableLoaded_none (h : ∀ l, Tab.get s.loops n = some l → l.loading = none) : effLoopTableLoaded n s = s := by
  unfold effLoopTableLoaded
  cases hl : Tab.get s.loops n with
  | none => rfl
  | some l =>
    dsimp only
    rw [h l hl]

section
variable {l : Loop} {r : Option (List Int)} (hl : Tab.get s.loops n = some l) (hr : l.loading = some r)
include hl hr

theorem effLoopTableLoaded_of : effLoopTableLoaded n s
    = (if r.isNone then s.setFlag F.LOP_STATUS_TLOAD_ERR else s).modLoop n (fun k =>
        if k.startAfter then { k with table := r.getD k.table, loading := none }.begin s.tick
        else { k with table := r.getD k.table, loading := none }) := by
  unfold effLoopTableLoaded
  rw [hl]
  dsimp only
  rw [hr]

theorem tableLoaded_loop : Tab.get (effLoopTableLoaded n s).loops n = some (if l.startAfter then
      { l with table := r.getD l.table, loading := none }.begin (s.now / 20000)
    else { l with table := r.getD l.table, loading := none }) := by
  have hloops : (if r.isNone then s.setFlag F.LOP_STATUS_TLOAD_ERR else s : State).loops = s.loops := by
    split
    · simp only [State.setFlag_frame]
    · rfl
  have hupd : ∀ (u : State) f, Tab.get (u.modLoop n f).loops n = (Tab.get u.loops n).map f := fun u f => Tab.get_upd_same _ _ _
  rw [effLoopTableLoaded_of hl hr, hupd, hloops, hl]
  rfl

theorem tableLoaded_flag : (effLoopTableLoaded n s).flag F.LOP_STATUS_TLOAD_ERR
    = (r.isNone || s.flag F.LOP_STATUS_TLOAD_ERR) := by
  rw [effLoopTableLoaded_of hl hr]
  show (if r.isNone then s.setFlag F.LOP_STATUS_TLOAD_ERR else s : State).flag F.LOP_STATUS_TLOAD_ERR = _
  cases r with
  | none => exact State.flag_setFlag s F.LOP_STATUS_TLOAD_ERR (Nat.le_of_ble_eq_true rfl) rfl
  | some l => rfl

end

theorem effLoopSpWrite_closed {v : Word} (h : s.isOpen 0x06 n = false) : effLoopSpWrite n v s = s :=
  if_neg fun c => Bool.false_ne_true (h.symm.trans c)

theorem effLoopSpWrite_open {v : Word} (h : s.isOpen 0x06 n = true) :
    effLoopSpWrite n v s = (s.setReg (R.LOP_SP n) v).modLoop n (fun l => { l with restart := true }) := if_pos h

/-! ### The web encoder (R380, R381, R398) -/

section
variable {a b : Bool} {held : Nat}

theorem effEncoderTransition_short (h : held < s.fld F.WEB_CFG_FILT) : effEncoderTransition a b held s = s := if_pos h

/-- The encoder after it has noted its two lines. -/
def phased (s : State) (a b : Bool) : State := s.modWeb (fun x => { x with lastA := a, lastB := b })

/-- What a quarter step, or none, or two of them do. -/
def quarter (s : State) (a b : Bool) : Nat → State
  | 0 => phased s a b
  | 2 => ((phased s a b).setFlag F.WEB_STATUS_ILLEGAL).raise 341
  | 1 => (phased s a b).webCount (!s.flag F.WEB_CFG_DIRINV)
  | _ => (phased s a b).webCount (s.flag F.WEB_CFG_DIRINV)

theorem effEncoderTransition_of (h : s.fld F.WEB_CFG_FILT ≤ held) {d : Nat}
    (hd : (quadPos a b + 4 - quadPos s.web.lastA s.web.lastB) % 4 = d) : effEncoderTransition a b held s = quarter s a b d := by
  rw [← hd]
  exact if_neg (Nat.not_lt.2 h)

end

section
variable {up : Bool} (hr : s.web.raw.natAbs < 2 ^ 46)
include hr

theorem raw_kept : sx 48 (ux 48 (s.web.raw + (if up then 1 else -1))) = s.web.raw + (if up then 1 else -1) :=
  sxux _ (by cases up <;> simp only [Bool.false_eq_true, if_true, if_false] <;> omega)

/-- A count past the highest one reached. -/
theorem webCount_new (h : s.web.hw < s.web.raw + (if up then 1 else -1)) : s.webCount up = s.modWeb (fun x => { x with
    raw := s.web.raw + (if up then 1 else -1), hw := s.web.raw + (if up then 1 else -1), rev := false
    rises := s.now :: x.rises.filter (fun t => decide (s.now < t + 1000000)) }) := by
  unfold State.webCount
  dsimp only
  rw [raw_kept hr, if_pos h]

/-- A count at or below it: a reversal once it is further back than the allowance. -/
theorem webCount_back (h : s.web.raw + (if up then 1 else -1) ≤ s.web.hw) : s.webCount up
    = (let u := s.modWeb (fun x => { x with raw := s.web.raw + (if up then 1 else -1) })
      if (s.webJ : Int) < s.web.hw - (s.web.raw + (if up then 1 else -1)) ∧ s.web.rev = false then
        (((u.modWeb (fun x => { x with rev := true })).setFlag F.WEB_STATUS_REV).raise 340).each (s.pagesIn .printing)
          (fun t i => t.spoilWhole i 9)
      else u) := by
  unfold State.webCount
  dsimp only
  rw [raw_kept hr, if_neg (Int.not_lt.2 h)]

end

theorem zero_of (v : Word) : F.WEB_CLR_ZERO.of v = 0 ↔ v.getLsbD 0 = false := by
  have h : F.WEB_CLR_ZERO.of v < 2 := bits_lt _ _ _
  rw [getLsbD_bits, beq_eq_false_iff_ne]
  show _ ↔ F.WEB_CLR_ZERO.of v ≠ 1
  omega

theorem effWebZero_none {v : Word} (h : v.getLsbD 0 = false) : effWebZero v s = s := if_pos ((zero_of v).2 h)

section
variable {v : Word} (h : v.getLsbD 0 = true)
include h

theorem effWebZero_of : effWebZero v s = if (s.pagesIn .printing).isEmpty
    then s.modWeb (fun k => { k with raw := 0, hw := 0, rev := false }) else s.setFlag F.WEB_CMDST_CMD_REJ :=
  if_neg fun c => Bool.false_ne_true (((zero_of v).1 c).symm.trans h)

theorem effWebZero_zeroes (hp : s.pagesIn .printing = []) :
    effWebZero v s = s.modWeb (fun x => { x with raw := 0, hw := 0, rev := false }) :=
  (effWebZero_of h).trans (if_pos (by rw [hp]; rfl))

theorem effWebZero_refused (hp : s.pagesIn .printing ≠ []) : effWebZero v s = s.setFlag F.WEB_CMDST_CMD_REJ :=
  (effWebZero_of h).trans (if_neg (by rwa [List.isEmpty_iff]))

end

end Sys2Proof.Proofs.LoopSlots
end

