-- ==== Sys2Proof/Proofs/Cameras.lean ====
section
/-!
PROOFS. The camera ports: frames, lines, errors, configuration and bypass (R384 to R395).
-/
namespace Sys2Proof.Proofs.Cameras

open Sys2Proof.Machine
open Sys2Proof.Laws.Writes
open Sys2Proof.Laws.Loops
open Sys2Proof.Proofs.StorageQ
open Sys2Proof.Proofs.LinkTraining (setFld_unread)
open Sys2Proof.Proofs.Lace (flag_of_reg)
open Sys2Proof.Proofs.LoopSlots

variable {s : State} {c : Nat}

/-! ### A frame closes in no time -/

theorem traffic_ptime {t : State} (h : Traffic s t) : t.ptime = s.ptime := by
  obtain ⟨_, _, _, _, _, rfl⟩ := h
  rfl

theorem traffic_memRead (s : State) (req a n : Nat) : Traffic s (s.memRead req a n).1 := by
  have H : ∀ (l : List (Nat × Nat)) (r : State × Option Nat), Traffic s r.1 → Traffic s (l.foldl
      (fun r e => match r.1.eccMeet req e.1 e.2 with
        | (t, bad) => (t, if bad then (match r.2 with | none => some e.1 | some x => some x) else r.2)) r).1 := by
    intro l
    induction l with
    | nil => exact fun r h => h
    | cons e l ih => exact fun r h => ih _ (h.trans (traffic_eccMeet _ _ _ _))
  have he : Traffic s (s.eccRange req a n).1 := H _ _ (.refl s)
  unfold State.memRead
  split
  · exact .refl s
  · generalize s.eccRange req a n = x at he ⊢
    obtain ⟨t, b⟩ := x
    cases b with
    | none => exact he
    | some _ => exact he

theorem hwPush_ptime (s : State) (who : Producer) (b : Bool) (h role : Nat) (e : List Byte) :
    (s.hwPush who b h role e).1.ptime = s.ptime := by
  unfold State.hwPush
  split
  · rfl
  · split
    · unfold State.ringAppend
      simp only [State.notify_frame]
      exact traffic_ptime (traffic_memWriteWords s _ _ _)
    · split
      · simp only [State.ringDrop, State.raise_frame, State.setFlag_frame, State.addSat_frame]
      · rfl

theorem sendHost_ptime (s : State) (type tag addr : Nat) (l : List Byte) : (s.sendHost type tag addr l).ptime = s.ptime := by
  unfold State.sendHost State.sendPkt
  split
  · rfl
  · split
    · simp only [State.modLink_frame]
    · rfl

theorem camOut_ptime (s : State) (c kind off : Nat) (l : List Byte) : (s.camOut c kind off l).ptime = s.ptime := by
  unfold State.camOut
  dsimp only
  split
  · split
    · simp only [State.modCam_frame]
    · split
      · rw [each_keeps (fun t => t.ptime) _ _ _ fun t x => sendHost_ptime t _ _ _ _]
        simp only [State.modCam_frame]
      · rw [traffic_ptime (traffic_memWrite _ _ _ _)]
        simp only [State.modCam_frame]
  · rfl

theorem camDeliver_ptime (s : State) (c : Nat) (b : Bool) (m : List MarkRes) : (s.camDeliver c b m).ptime = s.ptime := by
  unfold State.camDeliver
  refine each_keeps (fun t => t.ptime) _ _ _ fun t x => ?_
  dsimp only
  split
  · rfl
  · split
    · unfold State.measured
      simp only [State.modLoop_frame]
    · rfl

theorem camClose_ptime (s : State) (c : Nat) (w : CamClose) : (s.camClose c w).ptime = s.ptime := by
  unfold State.camClose
  split
  · extract_lets incomplete k s1 s2 marks s3 blk s4 first valid rec_ s5 f1 s6 pairs s7
    have h1 : s1.ptime = s.ptime := by
      subst s1
      split
      · exact camOut_ptime _ _ _ _ _
      · rfl
    clear_value s1
    have h2 : s2.ptime = s.ptime := (camOut_ptime _ _ _ _ _).trans h1
    clear_value s2 marks
    have h4 : s4.ptime = s.ptime := (traffic_ptime (traffic_memWrite s3 _ _ _)).trans h2
    clear_value s4 rec_ valid
    have h5 : s5.ptime = s.ptime := (hwPush_ptime _ _ _ _ _ _).trans h4
    clear_value s5 f1
    have h6 : s6.ptime = s.ptime := (each_keeps (fun t => t.ptime) _ _ _ fun t x => by
      simp only [State.notify_frame]
      exact hwPush_ptime _ _ _ _ _ _).trans h5
    clear_value s6 pairs
    have h7 : s7.ptime = s.ptime := by
      subst s7
      simp only [State.modCam_frame, State.clrFlag_frame, h6]
    clear_value s7
    exact (camDeliver_ptime _ _ _ _).trans h7
  · rfl

theorem camTimeout_ptime (s : State) (c : Nat) : (s.camTimeout c).ptime = s.ptime := by
  unfold State.camTimeout
  simp only [State.raise_frame, State.setFlag_frame]
  exact camClose_ptime s c _

/-- What holds of every state of the same time holds after a configuration has been taken. (Unfolded as a function and
under a predicate, not under the projection to press time: the kernel would check that by evaluating the read of 4096 bytes
that the definition begins with.) -/
theorem takeCfg_timeless (s : State) (c : Nat) (P : State → Prop) (hP : ∀ t : State, t.ptime = s.ptime → P t) : P (s.takeCfg c) := by
  have h0 : (s.clrFlag (F.CAM_STATUS_LOAD_PEND c)).ptime = s.ptime := by simp only [State.clrFlag_frame]
  have hr : ∀ (u : State) a n t r, u.memRead reqCamera a n = (t, r) → t.ptime = u.ptime := fun u a n t r e => by
    have h := traffic_ptime (traffic_memRead u reqCamera a n)
    rwa [e] at h
  have H : ∀ f, f = State.takeCfg → P (f s c) := by
    intro f hf
    delta State.takeCfg at hf
    subst hf
    beta_reduce
    extract_lets u
    split
    · next t b e =>
      have h1 : t.ptime = s.ptime := (hr _ _ _ _ _ e).trans h0
      split
      · exact hP _ (by simp only [State.setFlag_frame, h1])
      · split
        · next v l e' => exact hP _ (by simp only [State.modCam_frame, State.setFlag_frame, hr _ _ _ _ _ e', h1])
        · next v r _ e' => exact hP _ (by simp only [State.setFlag_frame, hr _ _ _ _ _ e', h1])
    · next t r _ e =>
      have h1 : t.ptime = s.ptime := (hr _ _ _ _ _ e).trans h0
      exact hP _ (by simp only [State.setFlag_frame, h1])
  exact H _ rfl

theorem takeCfg_ptime (s : State) (c : Nat) : (s.takeCfg c).ptime = s.ptime :=
  takeCfg_timeless s c (fun t => t.ptime = s.ptime) (fun _ h => h)

/-! ### Packets (R385, log entries 137 and 138) -/

section
variable {hdr : BitVec 32} {f : Nat → Nat → Nat → State → State}

theorem csiHeader_good (h : csiEcc (hdr.toNat % 2 ^ 24) ^^^ bits hdr.toNat 24 6 = 0
      ∨ popc 6 (csiEcc (hdr.toNat % 2 ^ 24) ^^^ bits hdr.toNat 24 6) = 1) :
    csiHeader hdr = some (bits (hdr.toNat % 2 ^ 24) 6 2, bits (hdr.toNat % 2 ^ 24) 0 6, bits (hdr.toNat % 2 ^ 24) 8 16) := by
  have e : bits hdr.toNat 0 24 = hdr.toNat % 2 ^ 24 := by
    unfold bits
    rw [Nat.pow_zero, Nat.div_one]
  unfold csiHeader
  dsimp only
  rw [e]
  exact if_pos h

theorem camOn_eq (h : s.hasCam c = true) : s.camOn c = (s.flag (F.CAM_CTRL_EN c) && !(vget s.plls 15).gated) := by
  unfold State.camOn
  rw [h, Bool.true_and]

theorem csiTake_off (h : s.camOn c = false) : s.csiTake c hdr f = s := if_pos h

section
variable (h : s.camOn c = true)
include h

theorem csiTake_on : s.csiTake c hdr f = (match csiHeader hdr with
    | none => s.modCam c (fun k => { k with hdrErr := (k.hdrErr + 1) % 256 })
    | some p =>
      if p.1 = 3 then s.modCam c (fun k => { k with vc3 := (k.vc3 + 1) % 65536 }) else f p.1 p.2.1 p.2.2 s) :=
  if_neg fun e => Bool.false_ne_true (e.symm.trans h)

theorem csiTake_bad (hh : csiHeader hdr = none) :
    s.csiTake c hdr f = s.modCam c (fun k => { k with hdrErr := (k.hdrErr + 1) % 256 }) := by
  rw [csiTake_on h, hh]

variable {vc dt wc : Nat} (hh : csiHeader hdr = some (vc, dt, wc))
include hh

theorem csiTake_vc3 (h3 : vc = 3) : s.csiTake c hdr f = s.modCam c (fun k => { k with vc3 := (k.vc3 + 1) % 65536 }) := by
  rw [csiTake_on h, hh]
  exact if_pos h3

theorem csiTake_packet (h3 : vc ≠ 3) : s.csiTake c hdr f = f vc dt wc s := by
  rw [csiTake_on h, hh]
  exact if_neg h3

end

section
variable {cam : Fin 4} (hc : s.hasCam cam.val = true)
include hc

theorem exec_frameStart : exec (.csiFrameStart cam hdr) s = .next (s.csiTake cam.val hdr
    (fun vc dt _ t => if vc = 0 ∧ dt = 0x00 then t.camOpen cam.val else t)).finish :=
  congrArg (fun t : State => Host.Outcome.next t.finish) (onUnit_present s _ (fun t => effCsiFrameStart cam.val hdr t) hc)

theorem exec_lineStart : exec (.csiLineStart cam hdr) s = .next (s.csiTake cam.val hdr
    (fun vc dt _ t => if vc = 0 ∧ dt = 0x02 then t.camLineStart cam.val else t)).finish :=
  congrArg (fun t : State => Host.Outcome.next t.finish) (onUnit_present s _ (fun t => effCsiLineStart cam.val hdr t) hc)

theorem exec_frameEnd : exec (.csiFrameEnd cam hdr) s = .next (s.csiTake cam.val hdr
    (fun vc dt _ t => if vc = 0 ∧ dt = 0x01 then t.camEnd cam.val else t)).finish :=
  congrArg (fun t : State => Host.Outcome.next t.finish) (onUnit_present s _ (fun t => effCsiFrameEnd cam.val hdr t) hc)

theorem exec_longPacket (body : List Byte) : exec (.csiLongPacket cam hdr body) s = .next (s.csiTake cam.val hdr
    (fun vc dt wc => State.camLong cam.val vc dt
      (decide (wc + 2 ≤ body.length) && entLe body wc 2 == csiCrc (body.take wc)) (body.take wc))).finish :=
  congrArg (fun t : State => Host.Outcome.next t.finish) (onUnit_present s _ (fun t => effCsiLongPacket cam.val hdr body t) hc)

/-- Every packet of a camera port is taken through its header. -/
theorem exec_packet {body : List Byte} : ∀ cmd ∈ [Instr.csiFrameStart cam hdr, .csiLineStart cam hdr,
    .csiLongPacket cam hdr body, .csiFrameEnd cam hdr], ∃ f, exec cmd s = .next (s.csiTake cam.val hdr f).finish := by
  intro cmd hm
  simp only [List.mem_cons, List.not_mem_nil, or_false] at hm
  rcases hm with rfl | rfl | rfl | rfl
  · exact ⟨_, exec_frameStart hc⟩
  · exact ⟨_, exec_lineStart hc⟩
  · exact ⟨_, exec_longPacket hc body⟩
  · exact ⟨_, exec_frameEnd hc⟩

end

end

/-! ### Frames (R385 to R388) -/

theorem camOpen_bypassed (h : s.flag (F.CAM_CTRL_BYPASS c) = true) : s.camOpen c = s.camDiscard c := if_pos h

/-- The port when a frame opens: an open frame has timed out, a waiting configuration has been taken. -/
def settled (s : State) (c : Nat) : State :=
  let s1 := if (vget s.cams c).frame.isSome then s.camTimeout c else s
  if s1.flag (F.CAM_STATUS_LOAD_PEND c) then s1.takeCfg c else s1

theorem settled_now : (settled s c).now = s.now := by
  have h1 : (if (vget s.cams c).frame.isSome then s.camTimeout c else s : State).ptime = s.ptime := by
    split
    · exact camTimeout_ptime s c
    · rfl
  unfold settled State.now
  dsimp only
  generalize (if (vget s.cams c).frame.isSome then s.camTimeout c else s : State) = u at h1 ⊢
  split
  · rw [takeCfg_ptime, h1]
  · rw [h1]

section
variable (h : s.flag (F.CAM_CTRL_BYPASS c) = false)
include h

theorem camOpen_of : s.camOpen c = if (vget (settled s c).cams c).cfg.isNone then (settled s c).camDiscard c
    else ((settled s c).setFlag (F.CAM_STATUS_FRAME_OPEN c)).modCam c (fun k => { k with
      frames := (k.frames + 1) % 2 ^ 32
      frame := some { (default : CamFrame) with
        number := (k.frames + 1) % 2 ^ 32, tFs := s.now, counts := [0, 0, 0] } }) :=
  if_neg fun e => Bool.false_ne_true (h.symm.trans e)

theorem camOpen_unconfigured (hk : (vget (settled s c).cams c).cfg = none) : s.camOpen c
    = (settled s c).modCam c (fun x => { x with noFrame := (x.noFrame + 1) % 65536 }) :=
  (camOpen_of h).trans (if_pos (by rw [hk]; rfl))

theorem camOpen_opens (hc : c < 4) (hk : (vget (settled s c).cams c).cfg.isSome = true) :
    (s.camOpen c).flag (F.CAM_STATUS_FRAME_OPEN c) = true
      ∧ (vget (s.camOpen c).cams c).frames = ((vget (settled s c).cams c).frames + 1) % 2 ^ 32
      ∧ (vget (s.camOpen c).cams c).frame.map (fun f => (f.number, f.tFs, f.lines, f.counts))
        = some (((vget (settled s c).cams c).frames + 1) % 2 ^ 32, (settled s c).now, [], [0, 0, 0]) := by
  have hcams : ((settled s c).setFlag (F.CAM_STATUS_FRAME_OPEN c)).cams = (settled s c).cams := by
    simp only [State.setFlag_frame]
  rw [camOpen_of h, if_neg (by rw [Option.isNone_iff_eq_none]; intro e; rw [e] at hk; exact Bool.false_ne_true hk),
    modCam_at _ _ _ hc, hcams, settled_now]
  exact ⟨State.flag_setFlag (settled s c) (F.CAM_STATUS_FRAME_OPEN c) (Nat.le_of_ble_eq_true rfl) rfl, rfl, rfl⟩

end

/-- Without an open frame, or a configuration, a packet is discarded. -/
theorem noFrame_discards (h : (vget s.cams c).frame = none ∨ (vget s.cams c).cfg = none) : s.camLineStart c = s.camDiscard c
    ∧ s.camEnd c = s.camDiscard c ∧ ∀ vc dt crcOk payload, s.camLong c vc dt crcOk payload = s.camDiscard c := by
  unfold State.camLineStart State.camEnd State.camLong
  cases hf : (vget s.cams c).frame with
  | none => exact ⟨rfl, rfl, fun _ _ _ _ => rfl⟩
  | some f =>
    rw [h.resolve_left (by rw [hf]; exact nofun)]
    exact ⟨rfl, rfl, fun _ _ _ _ => rfl⟩

section
variable {f : CamFrame} {g : CamCfg} (hf : (vget s.cams c).frame = some f) (hg : (vget s.cams c).cfg = some g)
include hf hg

theorem camLineStart_of : s.camLineStart c = if f.dropped then s else s.modCam c (fun k => { k with frame := some { f with
    tags := (lget f.counts 0, s.camTag g) :: f.tags.filter (fun e => e.1 != lget f.counts 0) } }) := by
  unfold State.camLineStart
  rw [hf, hg]

theorem camEnd_of : s.camEnd c = (s.each ((List.range (f.counts.foldl max 0)).filter
    (fun l => decide (f.lines.length ≤ l) && !f.dropped)) (fun t l => t.camComplete c g l)).camClose c ⟨false, false⟩ := by
  unfold State.camEnd
  rw [hf, hg]

variable {vc dt : Nat} {crcOk : Bool} {payload : List Byte}

theorem camLong_dropped (hd : f.dropped = true) : s.camLong c vc dt crcOk payload = s := by
  unfold State.camLong
  rw [hf, hg]
  exact if_pos hd

/-- The payload has the length and the type of a line. -/
def LineFits (g : CamCfg) (dt : Nat) (payload : List Byte) : Bool :=
  payload.length * 8 == g.width * g.spp * g.depth && dt == 0x2B + g.fmt

/-- The frame with one more long packet. -/
def lengthened (s : State) (f : CamFrame) (g : CamCfg) (vc : Nat) (ok : Bool) (payload : List Byte) : CamFrame := { f with
  counts := (List.range 3).map (fun v => if v = vc then lget f.counts vc + 1 else lget f.counts v)
  tags := if vc = 0 ∧ f.tags.all (fun e => e.1 != lget f.counts vc) = true
    then (lget f.counts vc, s.camTag g) :: f.tags else f.tags
  waiting := f.waiting ++ [(lget f.counts vc, vc, ok, if ok then g.samples payload else [])] }

omit hf hg in
theorem lengthened_count (hv : vc < 3) (ok : Bool) : lget (lengthened s f g vc ok payload).counts vc = lget f.counts vc + 1 := by
  unfold lengthened lget
  simp [List.getD_eq_getElem?_getD, hv]

/-- The port after a long packet. -/
def received (s : State) (c : Nat) (f : CamFrame) (g : CamCfg) (vc dt : Nat) (crcOk : Bool) (payload : List Byte) : State :=
  s.modCam c (fun k => { k with
    frame := some (lengthened s f g vc (crcOk && LineFits g dt payload) payload)
    crcErr := (k.crcErr + b2n (!crcOk)) % 256, lenErr := (k.lenErr + b2n (!LineFits g dt payload)) % 256 })

variable (hd : f.dropped = false)
include hd

theorem camLong_of : s.camLong c vc dt crcOk payload
    = if inRange 0x2B 0x2D dt = false then s.modCam c (fun k => { k with dtErr := (k.dtErr + 1) % 256 })
      else if g.nexp ≤ vc then s
      else if 4096 ≤ lget f.counts vc then s.modCam c (fun k => { k with frame := some { f with trunc := true } })
      else if ((lengthened s f g vc (crcOk && LineFits g dt payload) payload).exposures (lget f.counts vc)).length < g.nexp
      then received s c f g vc dt crcOk payload
      else (received s c f g vc dt crcOk payload).camComplete c g (lget f.counts vc) := by
  unfold State.camLong
  rw [hf, hg]
  exact if_neg fun e => Bool.false_ne_true (hd.symm.trans e)

theorem camLong_type (h : dt < 0x2B ∨ 0x2D < dt) :
    s.camLong c vc dt crcOk payload = s.modCam c (fun x => { x with dtErr := (x.dtErr + 1) % 256 }) := by
  rw [camLong_of hf hg hd]
  refine if_pos ?_
  unfold inRange
  rcases h with h | h
  · rw [decide_eq_false (Nat.not_le.2 h), Bool.false_and]
  · rw [decide_eq_false (Nat.not_le.2 h), Bool.and_false]

variable (ht : 0x2B ≤ dt ∧ dt ≤ 0x2D)
include ht

omit hf hg hd in
theorem known_type : ¬inRange 0x2B 0x2D dt = false := by
  unfold inRange
  rw [decide_eq_true ht.1, decide_eq_true ht.2]
  decide

theorem camLong_exposure (h : g.nexp ≤ vc) : s.camLong c vc dt crcOk payload = s := by
  rw [camLong_of hf hg hd, if_neg (known_type ht), if_pos h]

theorem camLong_truncated (h : vc < g.nexp) (hl : 4096 ≤ lget f.counts vc) :
    s.camLong c vc dt crcOk payload = s.modCam c (fun x => { x with frame := some { f with trunc := true } }) := by
  rw [camLong_of hf hg hd, if_neg (known_type ht), if_neg (Nat.not_le.2 h), if_pos hl]

theorem camLong_line (h : vc < g.nexp) (hl : lget f.counts vc < 4096) : s.camLong c vc dt crcOk payload
    = if ((lengthened s f g vc (crcOk && LineFits g dt payload) payload).exposures (lget f.counts vc)).length < g.nexp
      then received s c f g vc dt crcOk payload
      else (received s c f g vc dt crcOk payload).camComplete c g (lget f.counts vc) := by
  rw [camLong_of hf hg hd, if_neg (known_type ht), if_neg (Nat.not_le.2 h), if_neg (Nat.not_le.2 hl)]

end

theorem effCameraFrameTimeout_none (h : (vget s.cams c).frame = none) : effCameraFrameTimeout c s = s := by
  unfold effCameraFrameTimeout
  rw [h]

theorem effCameraFrameTimeout_of {f : CamFrame} (h : (vget s.cams c).frame = some f) : effCameraFrameTimeout c s
    = if f.tFs + max 1 (s.fld (F.CAM_FTMO_FTMO c)) * 1000000 ≤ s.now then s.camTimeout c else s := by
  unfold effCameraFrameTimeout
  rw [h]

/-! ### The control register (R384, R389, R395) -/

/-- The port after LANES, EN, BYPASS and LOAD of a write. -/
def controlled (s : State) (c : Nat) (v : Word) : State :=
  let lanes := bits v.toNat 3 2
  let s1 := if s.flag (F.CAM_CTRL_EN c) = true ∨ lanes = 3 then s else s.setFld (F.CAM_CTRL_LANES c) lanes
  let s2 := (s1.setFld (F.CAM_CTRL_EN c) (v.toNat % 2)).setFld (F.CAM_CTRL_BYPASS c) (bits v.toNat 1 1)
  if v.getLsbD 2 then s2.setFlag (F.CAM_STATUS_LOAD_PEND c) else s2

theorem bit_iff (v : Word) (i : Nat) : bits v.toNat i 1 = 1 ↔ v.getLsbD i = true := by
  rw [getLsbD_bits, beq_iff_eq]

theorem effCamCtrl_eq (v : Word) : effCamCtrl c v s = if v.getLsbD 1 = true
    then ((controlled s c v).camClose c ⟨false, true⟩).each (controlled s c v).loops
      (fun t e => if e.2.camera = some c then t.openLoop e.1 else t)
    else controlled s c v := by
  have h0 : bits v.toNat 0 1 = v.toNat % 2 := congrArg (· % 2) (Nat.div_one v.toNat)
  have e : (let lanes := bits v.toNat 3 2
      let s1 := if s.flag (F.CAM_CTRL_EN c) || lanes == 3 then s else s.setFld (F.CAM_CTRL_LANES c) lanes
      let s2 := (s1.setFld (F.CAM_CTRL_EN c) (bits v.toNat 0 1)).setFld (F.CAM_CTRL_BYPASS c) (bits v.toNat 1 1)
      if bits v.toNat 2 1 = 1 then s2.setFlag (F.CAM_STATUS_LOAD_PEND c) else s2) = controlled s c v := by
    unfold controlled
    dsimp only
    rw [h0]
    refine if_congr (bit_iff v 2) ?_ ?_ <;>
    · simp only [Bool.or_eq_true, beq_iff_eq]
  refine Eq.trans ?_ (if_congr (bit_iff v 1) rfl rfl)
  rw [← e]
  rfl

section
variable {v : Word}

theorem controlled_cams : (controlled s c v).cams = s.cams := by
  unfold controlled
  dsimp only
  split <;> split <;> simp only [State.setFlag_frame, State.setFld_frame]

theorem controlled_pend (h : v.getLsbD 2 = true) : (controlled s c v).flag (F.CAM_STATUS_LOAD_PEND c) = true := by
  unfold controlled
  dsimp only
  rw [if_pos h]
  exact State.flag_setFlag _ (F.CAM_STATUS_LOAD_PEND c) (Nat.le_of_ble_eq_true rfl) rfl

/-- A field of one bit written reads back. -/
theorem flag_setFld_bit (u : State) (f : Fld) (x : Nat) (ok : f.ok) (hw : f.width = 1) (hx : x < 2) :
    (u.setFld f x).flag f = (x == 1) := by
  have h := State.fld_setFld_same u f x ok
  rw [hw, Nat.pow_one, Nat.mod_eq_of_lt hx] at h
  unfold State.fld at h
  rw [hw] at h
  rw [State.flag_eq, h]

theorem controlled_ctrl (f : Fld) (hf : f.key = R.CAM_CTRL c) : (controlled s c v).flag f
    = (((if s.flag (F.CAM_CTRL_EN c) = true ∨ bits v.toNat 3 2 = 3 then s
        else s.setFld (F.CAM_CTRL_LANES c) (bits v.toNat 3 2)).setFld (F.CAM_CTRL_EN c) (v.toNat % 2)).setFld
      (F.CAM_CTRL_BYPASS c) (bits v.toNat 1 1)).flag f := by
  have hk : R.CAM_CTRL c ≠ R.CAM_STATUS c := by unfold R.CAM_CTRL R.CAM_STATUS; omega
  unfold controlled
  dsimp only
  split
  · exact flag_of_reg (setFld_unread _ (F.CAM_STATUS_LOAD_PEND c) 1 (by rw [hf]; exact hk))
  · rfl

theorem controlled_bypass : (controlled s c v).flag (F.CAM_CTRL_BYPASS c) = v.getLsbD 1 := by
  rw [controlled_ctrl _ rfl, flag_setFld_bit _ (F.CAM_CTRL_BYPASS c) _ (Nat.le_of_ble_eq_true rfl) rfl (bits_lt _ _ _),
    getLsbD_bits]

theorem controlled_en : (controlled s c v).flag (F.CAM_CTRL_EN c) = v.getLsbD 0 := by
  rw [controlled_ctrl _ rfl, setFld_flag_apart _ (F.CAM_CTRL_BYPASS c) (F.CAM_CTRL_EN c) _ (Nat.le_of_ble_eq_true rfl) rfl
      (.inr (.inr (Nat.le_of_ble_eq_true rfl))),
    flag_setFld_bit _ (F.CAM_CTRL_EN c) _ (Nat.le_of_ble_eq_true rfl) rfl (Nat.mod_lt _ (by decide)), getLsbD_bits]
  unfold bits
  rw [Nat.pow_zero, Nat.div_one, Nat.pow_one]

end

end Sys2Proof.Proofs.Cameras
end

