-- ==== Sys2Proof/Proofs/LoopsCameras.lean ====
section
/-!
PROOFS. The loop engine, the web encoder and the cameras (R368 to R396).
-/
namespace Sys2Proof.Proofs.LoopsCameras

open Sys2Proof.Machine
open Sys2Proof.Laws.Writes
open Sys2Proof.Laws.Loops
open Sys2Proof.Proofs.LoopSlots
open Sys2Proof.Proofs.Cameras

/-- The window of a camera port is present with the port. -/
theorem windowPresent_cam {s : State} (cam : Fin 4) (h : s.hasCam cam.val = true) : s.windowPresent (0x64 + cam.val) = true := by
  have hc := cam.isLt
  unfold State.windowPresent
  rw [if_neg (by omega), if_neg (by omega), if_neg (by omega), if_neg (by omega), if_neg (by omega), if_neg (by omega),
    if_pos (by omega), show 0x64 + cam.val - 0x64 = cam.val by omega]
  exact h

/-- Settles O57: each row has its effect, and each effect its branches. A loop's evaluation and detector are the model's
arithmetic (log entries 74 and 76); which way a quarter step counts is presumed (log entry 93), as are the code of a packet's
header and the checksum of its payload (log entries 137 and 138). -/
theorem loopsAndCameras : Obligations.LoopsAndCameras := by
  unfold Obligations.LoopsAndCameras
  intro s inputs k8 n v a b held cam hdr body next c cs w
  have hc : c < 4 := cam.isLt
  have hnx : ∀ {a b : State}, a = b → next a = next b := congrArg next
  refine ⟨fun h => hnx (effAdcConversion_not inputs h),
    fun h => ⟨_, hnx (effAdcConversion_due inputs h), rfl, rfl, fun i hi => converted_ain inputs hi⟩,
    ⟨fun h => hnx (effLpwmPeriod_running h), fun h => hnx (effLpwmPeriod_over h)⟩,
    fun h => hnx (effLoopTick_not h), fun h => hnx (effLoopTick_due h), loopSlot_idle, fun l hl h => loopSlot_turn hl h,
    fun l => ⟨loopEval_trips, loopEval_outputs⟩, ?evaluate, ?detect, ?loopRows, ?loopCmd,
    fun l => ⟨rfl, rfl, rfl, rfl, rfl⟩, fun h => hnx (effLoopTableLoaded_none h),
    fun l r hl hr => ⟨_, hnx rfl, tableLoaded_loop hl hr, tableLoaded_flag hl hr⟩,
    fun h => hnx (effLoopSpWrite_closed h), fun h => hnx (effLoopSpWrite_open h), ?encoder,
    fun hr up => ⟨fun h => webCount_new hr h, fun h => webCount_back hr h⟩,
    fun h => hnx (effWebZero_none h), fun h => ⟨fun hp => hnx (effWebZero_zeroes h hp), fun hp => hnx (effWebZero_refused h hp)⟩,
    fun hcam => ?camera⟩
  case evaluate =>
    intro l sp y pos
    exact ⟨evaluate_limits l sp y pos, evaluate_slew l sp y pos, evaluate_integral_held l sp y pos,
      evaluate_windup l sp y pos, evaluate_restart l sp y pos, evaluate_setpoint l sp y pos, evaluate_ramp l sp y pos, rfl⟩
  case detect =>
    intro l e
    refine ⟨detect_quiet l e, fun h0 hs he => ?_⟩
    have hx := detect_crosses l e h0 hs he
    exact ⟨congrArg (fun r => r.1.sign) hx, congrArg (fun r => r.1.crossings) hx, fun old => detect_trips l e h0 hs he⟩
  case loopRows =>
    intro cmd hm
    simp only [List.mem_cons, List.not_mem_nil, or_false] at hm
    rcases hm with rfl | rfl | rfl <;> rfl
  case loopCmd =>
    intro slot rej cmd
    refine ⟨effLopCmd_refused, fun l hl => ⟨effLopCmd_none hl, fun h => (effLopCmd_start hl h.1).trans (loopStart_running h.2),
      fun h => ?start, fun h => hnx (effLopCmd_stop hl h), fun h => hnx ((effLopCmd_tload hl h.1).trans (if_neg h.2)),
      fun h => (effLopCmd_tload hl h.1).trans (if_pos h.2), copyTable_eq l⟩⟩
    case start =>
      have e := (effLopCmd_start hl h.1).trans (loopStart_of h.2)
      exact ⟨fun ht => hnx (e.trans (if_pos ht)), fun ht => hnx (e.trans (if_neg ht))⟩
  case encoder =>
    intro s1 d run
    exact ⟨fun h => hnx (effEncoderTransition_short h), fun h => ⟨fun hd => hnx (effEncoderTransition_of h hd),
      fun hd => hnx (effEncoderTransition_of h hd), fun hd => hnx (effEncoderTransition_of h hd),
      fun hd => hnx (effEncoderTransition_of h hd)⟩⟩
  case camera =>
    have hu : ∀ {g : State → State} {t}, g s = t → next (s.onUnit (s.hasCam cam.val) g) = next t := fun hg =>
      congrArg next ((onUnit_present s _ _ hcam).trans hg)
    have hwin : ∀ {g : State → State} {t}, g s = t → next (s.onWindow (0x64 + cam.val) g) = next t := fun hg =>
      congrArg next ((onWindow_present s _ _ (windowPresent_cam cam hcam)).trans hg)
    intro none_ packets d syn
    have hall : ∀ {t : State}, (∀ f, s.csiTake c hdr f = t) → ∀ cmd ∈ packets, exec cmd s = next t := fun ht cmd hm => by
      obtain ⟨f, hf⟩ := exec_packet hcam cmd hm
      exact hf.trans (hnx (ht f))
    refine ⟨csiHeader_good, camOn_eq hcam, fun hoff => hall fun f => csiTake_off hoff, fun hon => ⟨fun hh => hall fun f => csiTake_bad hon hh,
        fun vc dt wc hh => ⟨fun h3 => hall fun f => csiTake_vc3 hon hh h3, fun h3 =>
          ⟨(exec_frameStart hcam).trans (hnx (csiTake_packet hon hh h3)), (exec_lineStart hcam).trans (hnx (csiTake_packet hon hh h3)),
            (exec_frameEnd hcam).trans (hnx (csiTake_packet hon hh h3)),
            (exec_longPacket hcam body).trans (hnx (csiTake_packet hon hh h3))⟩⟩⟩,
      camOpen_bypassed, fun hb => ⟨camOpen_unconfigured hb, camOpen_opens hb hc⟩, noFrame_discards, ?framed,
      fun hf => hu (effCameraFrameTimeout_none hf), fun f hf => ⟨fun hl => hu ((effCameraFrameTimeout_of hf).trans (if_neg (Nat.not_le.2 hl))),
        fun hl => hu ((effCameraFrameTimeout_of hf).trans (if_pos hl))⟩,
      fun hb => ⟨hwin ?plain, hwin ?plain'⟩, fun hb => ⟨hwin ?bypass, hwin ?bypass'⟩,
      controlled_pend, controlled_en, controlled_bypass, controlled_cams⟩
    case framed =>
      intro f g hf hg
      refine ⟨fun hd => ⟨(camLineStart_of hf hg).trans (if_pos hd), fun vc dt crcOk payload => camLong_dropped hf hg hd⟩,
        fun hd => (camLineStart_of hf hg).trans (if_neg (by simp [hd])), camEnd_of hf hg, fun hd vc dt crcOk payload => ?_⟩
      intro l lenOk
      refine ⟨camLong_type hf hg hd, fun ht => ⟨camLong_exposure hf hg hd ht, camLong_truncated hf hg hd ht, fun hv h3 hl => ?_⟩⟩
      have hcam' : vget (received s c f g vc dt crcOk payload).cams c = _ := modCam_at s c _ hc
      refine ⟨received s c f g vc dt crcOk payload, lengthened s f g vc (crcOk && LineFits g dt payload) payload,
        camLong_line hf hg hd ht hv hl, ?_⟩
      rw [hcam']
      exact ⟨rfl, lengthened_count h3 _, rfl, rfl, rfl, rfl⟩
    case plain | plain' => exact (effCamCtrl_eq v).trans (if_neg fun e => Bool.false_ne_true (hb.symm.trans e))
    case bypass | bypass' => exact (effCamCtrl_eq v).trans (if_pos hb)

end Sys2Proof.Proofs.LoopsCameras
end

