-- ==== Sys2Proof/Proofs/PowerSequence.lean ====
section
/-!
PROOFS. Power: the rail sequence, the judgement of rails and VIN, the boot image and drydown (R403 to R413).
-/
namespace Sys2Proof.Proofs.PowerSequence

open Sys2Proof.Machine
open Sys2Proof.Laws.Writes
open Sys2Proof.Laws.Power

variable {s : State}

/-! ### The rail sequence (R404, R407) -/

theorem effVinQualified_not (h : s.pwr.phase ≠ .off ∨ s.pwr.waitPress = true ∨ s.vinGood = false) : effVinQualified s = s := by
  refine if_neg ?_
  rintro ⟨c1, c2, c3⟩
  rcases h with h | h | h
  · exact h c1
  · exact Bool.false_ne_true (c2.symm.trans h)
  · exact Bool.false_ne_true (h.symm.trans c3)

theorem effVinQualified_up (h : s.pwr.phase = .off ∧ s.pwr.waitPress = false ∧ s.vinGood = true) :
    effVinQualified s = s.powerUp := if_pos h

theorem vinGood_iff : s.vinGood = true
    ↔ ∃ t0, s.pwr.vinOkSince = some t0 ∧ t0 + s.pickTable.1.vinFilt * 1000 ≤ s.now := by
  unfold State.vinGood heldFor
  cases s.pwr.vinOkSince with
  | none => simp
  | some t => simp

theorem step_none (h : ∀ k, s.pwr.phase ≠ .seq k) : s.step? = none := by
  unfold State.step?
  split
  · next k hk => exact absurd hk (h k)
  · rfl

theorem noStep_qualified (h : ∀ k, s.pwr.phase ≠ .seq k) (mv high : Nat) : effSeqStepQualified mv high s = s := by
  unfold effSeqStepQualified
  rw [step_none h]

theorem noStep_abort (h : ∀ k, s.pwr.phase ≠ .seq k) (mv high : Nat) : effSeqStepAbort mv high s = s := by
  unfold effSeqStepAbort
  rw [step_none h]

theorem noStep_bounce (h : ∀ k, s.pwr.phase ≠ .seq k) (low : Nat) : effSequenceBounce low s = s := by
  unfold effSequenceBounce
  rw [step_none h]

section
variable {k : Nat} {x : SeqStep} (hk : s.pwr.phase = .seq k) (hx : s.pwr.table.steps[k]? = some x) (mv high low : Nat)
include hk hx

theorem step_some : s.step? = some (k, x) := by
  unfold State.step?
  rw [hk]
  dsimp only
  rw [hx]
  rfl

/-- The window of a step has passed with its power-good high. -/
def Qualified (s : State) (x : SeqStep) (high : Nat) : Prop :=
  x.qual * 1000000 ≤ high ∧ s.pwr.window + x.qual * 1000000 ≤ s.now

/-- The step's time is over. -/
def TimedOut (s : State) (x : SeqStep) : Prop := s.pwr.since + x.tmo * 1000000 ≤ s.now

/-- The rail's value is in its fault band. -/
def InBand (s : State) (x : SeqStep) (mv : Nat) : Prop :=
  (s.pwr.table.rail x.rail).within (s.pwr.table.rail x.rail).flo (s.pwr.table.rail x.rail).fhi mv = true

omit hk hx in
theorem windowOver_iff : s.windowOver x high = true ↔ Qualified s x high := by
  unfold State.windowOver
  rw [Bool.and_eq_true, decide_eq_true_iff, decide_eq_true_iff]
  rfl

omit hk hx in
theorem stepOver_iff : s.stepOver x = true ↔ TimedOut s x := decide_eq_true_iff

/-- The rail's value as measured. -/
def metered (s : State) (x : SeqStep) (mv : Nat) : State := s.modPwr (fun q => { q with rails := Tab.put q.rails x.rail mv })

theorem delay_done (hd : x.op = .delay) (hl : TimedOut s x) : effSeqStepQualified mv high s = s.stepDone k := by
  unfold effSeqStepQualified
  rw [step_some hk hx]
  dsimp only
  rw [if_pos hd, if_pos (stepOver_iff.2 hl)]

theorem delay_runs (hd : x.op = .delay) (hl : ¬TimedOut s x) : effSeqStepQualified mv high s = s := by
  unfold effSeqStepQualified
  rw [step_some hk hx]
  dsimp only
  rw [if_pos hd, if_neg (fun c => hl (stepOver_iff.1 c))]

theorem delay_abort (hd : x.op = .delay) : effSeqStepAbort mv high s = s := by
  unfold effSeqStepAbort
  rw [step_some hk hx]
  exact if_pos hd

theorem delay_bounce (hd : x.op = .delay) : effSequenceBounce low s = s := by
  unfold effSequenceBounce
  rw [step_some hk hx]
  exact if_pos (.inl hd)

section
variable (hd : x.op ≠ .delay)
include hd

theorem rail_waits (h : ¬Qualified s x high ∧ ¬TimedOut s x) : effSeqStepQualified mv high s = s := by
  unfold effSeqStepQualified
  rw [step_some hk hx]
  dsimp only
  rw [if_neg hd]
  refine if_pos ⟨?_, ?_⟩
  · exact Bool.eq_false_iff.2 fun c => h.1 ((windowOver_iff high).1 c)
  · exact Bool.eq_false_iff.2 fun c => h.2 (stepOver_iff.1 c)

omit hk hx hd in
theorem metered_table (f : Fld) : ((metered s x mv).setFlag f).pwr.table = s.pwr.table := by
  simp only [State.setFlag_frame]
  rfl

/-- A step whose window or time is over is judged. -/
theorem rail_judged (h : Qualified s x high ∨ TimedOut s x) : effSeqStepQualified mv high s
    = if (s.windowOver x high && s.pwr.table.inBand x.rail mv) = true then
        (((metered s x mv).setFlag (F.PWR_RAIL_GOOD x.rail)).setFlag (F.PWR_RAIL_ON x.rail)).stepDone k
      else ((metered s x mv).setFlag (F.PWR_RAIL_GOOD x.rail)).seqAbort x := by
  rw [← metered_table (s := s) (x := x) mv (F.PWR_RAIL_GOOD x.rail)]
  unfold effSeqStepQualified
  rw [step_some hk hx]
  dsimp only
  rw [if_neg hd]
  refine if_neg fun c => ?_
  rcases h with h | h
  · exact Bool.false_ne_true (c.1.symm.trans ((windowOver_iff high).2 h))
  · exact Bool.false_ne_true (c.2.symm.trans (stepOver_iff.2 h))

theorem rail_done (hq : Qualified s x high) (hb : InBand s x mv) : effSeqStepQualified mv high s
    = (((metered s x mv).setFlag (F.PWR_RAIL_GOOD x.rail)).setFlag (F.PWR_RAIL_ON x.rail)).stepDone k :=
  (rail_judged hk hx mv high hd (.inl hq)).trans (if_pos (Bool.and_eq_true_iff.2 ⟨(windowOver_iff high).2 hq, hb⟩))

theorem rail_failed (h : Qualified s x high ∧ ¬InBand s x mv ∨ ¬Qualified s x high ∧ TimedOut s x) :
    effSeqStepQualified mv high s = ((metered s x mv).setFlag (F.PWR_RAIL_GOOD x.rail)).seqAbort x := by
  rw [rail_judged hk hx mv high hd (h.imp And.left And.right)]
  refine if_neg fun c => ?_
  obtain ⟨c1, c2⟩ := Bool.and_eq_true_iff.1 c
  rcases h with h | h
  · exact h.2 c2
  · exact h.1 ((windowOver_iff high).1 c1)

theorem abort_of : effSeqStepAbort mv high s
    = if s.stepOver x || (s.windowOver x high && !s.pwr.table.inBand x.rail mv) then (metered s x mv).seqAbort x else s := by
  unfold effSeqStepAbort
  rw [step_some hk hx]
  exact if_neg hd

theorem abort_due (h : TimedOut s x ∨ Qualified s x high ∧ ¬InBand s x mv) :
    effSeqStepAbort mv high s = (metered s x mv).seqAbort x := by
  rw [abort_of hk hx mv high hd]
  refine if_pos ?_
  rw [Bool.or_eq_true, Bool.and_eq_true, Bool.not_eq_true', ← Bool.not_eq_true]
  exact h.imp stepOver_iff.2 fun c => ⟨(windowOver_iff high).2 c.1, c.2⟩

theorem abort_not (h : ¬TimedOut s x ∧ (Qualified s x high → InBand s x mv)) : effSeqStepAbort mv high s = s := by
  rw [abort_of hk hx mv high hd]
  refine if_neg ?_
  rw [Bool.or_eq_true, Bool.and_eq_true, Bool.not_eq_true', ← Bool.not_eq_true]
  rintro (c | c)
  · exact h.1 (stepOver_iff.1 c)
  · exact c.2 (h.2 ((windowOver_iff high).1 c.1))

omit hd in
theorem bounce_short (h : low < 1000) : effSequenceBounce low s = s := by
  unfold effSequenceBounce
  rw [step_some hk hx]
  exact if_pos (.inr h)

theorem bounce_counts (h : 1000 ≤ low) : effSequenceBounce low s
    = (let u := s.modPwr (fun q => { q with bounces := q.bounces + 1, window := s.now })
      if s.pwr.bounces < 3 then u else u.seqAbort x) := by
  unfold effSequenceBounce
  rw [step_some hk hx]
  refine (if_neg (not_or.2 ⟨hd, Nat.not_lt.2 h⟩)).trans ?_
  dsimp only
  by_cases h3 : s.pwr.bounces < 3
  · rw [if_pos h3]
    exact if_neg (by show ¬4 ≤ s.pwr.bounces + 1; omega)
  · rw [if_neg h3]
    exact if_pos (by show 4 ≤ s.pwr.bounces + 1; omega)

end

end

theorem drydown_again {cause rail b : Nat} (h : s.pwr.phase.dryRuns = true) :
    s.drydown cause rail b = s.setFld F.PWR_CAUSE_MASK (s.fld F.PWR_CAUSE_MASK ||| 2 ^ (cause - 1)) := if_pos h

theorem drydown_off {cause rail b : Nat} (h : s.pwr.phase = .off ∨ s.pwr.phase = .holdoff) : s.drydown cause rail b = s := by
  have h1 : s.pwr.phase.dryRuns = false ∧ s.pwr.phase.canDry = false := by
    rcases h with h | h <;> rw [h] <;> exact ⟨rfl, rfl⟩
  exact (if_neg (by simp [h1.1])).trans (if_pos h1.2)

/-! ### Judgement (R405, R406) -/

theorem due_iff (j : Judge) (now : Nat) : j.due now = true ↔ ∀ t0, j.last = some t0 → t0 + 10000 ≤ now := by
  unfold Judge.due
  cases j.last with
  | none => simp
  | some t => simp

theorem next_warned (j : Judge) (w f l : Bool) (wf ff now : Nat) : (j.next w f l wf ff now).warned = true
    ↔ w = true ∧ j.warnSince.getD now + wf * 1000 ≤ now := heldFor_iff _ _ _ _

theorem next_faulted (j : Judge) (w f l : Bool) (wf ff now : Nat) : (j.next w f l wf ff now).faulted = true
    ↔ (f = true ∧ j.faultSince.getD now + ff * 1000 ≤ now) ∨ (l = true ∧ j.lowSince.getD now + ff * 1000 ≤ now) := by
  show (heldFor _ _ _ || heldFor _ _ _) = true ↔ _
  rw [Bool.or_eq_true, heldFor_iff, heldFor_iff]

theorem when_iff (u : State) (a b : Bool) (f : State → State) : u.when (a && !b) f = if a = true ∧ b = false then f u else u := by
  unfold State.when
  cases a <;> cases b <;> rfl

/-- A rail that enters its warning band. -/
def railWarns (u : State) (r : Nat) (j k : Judge) : State :=
  if k.warned = true ∧ j.warned = false then
    ((u.setFlag (F.PWR_RAIL_WARN r)).raise (if r < 8 then 352 else 354)).raiseEv (u.fld F.PWR_EVGRP_HANDLE) 2
  else u

theorem railReact_of (u : State) (r : Nat) (j k : Judge) : u.railReact r j k
    = if k.faulted = true ∧ j.faulted = false then
        (if r < 8 then (((railWarns u r j k).setFlag (F.PWR_RAIL_FAULT r)).raise 353).drydown 2 r
          else ((railWarns u r j k).setFlag (F.PWR_RAIL_FAULT r)).raise 355)
      else railWarns u r j k := by
  unfold State.railReact
  dsimp only
  rw [when_iff, when_iff]
  rfl

theorem railReact_calm {u : State} {r : Nat} {j k : Judge} (h : k.faulted = false ∨ j.faulted = true) :
    u.railReact r j k = railWarns u r j k := by
  rw [railReact_of]
  refine if_neg fun c => ?_
  rcases h with h | h
  · exact Bool.false_ne_true (h.symm.trans c.1)
  · exact Bool.false_ne_true (c.2.symm.trans h)

theorem railReact_faults {u : State} {r : Nat} {j k : Judge} (h : k.faulted = true ∧ j.faulted = false) :
    u.railReact r j k = if r < 8 then (((railWarns u r j k).setFlag (F.PWR_RAIL_FAULT r)).raise 353).drydown 2 r
      else ((railWarns u r j k).setFlag (F.PWR_RAIL_FAULT r)).raise 355 :=
  (railReact_of u r j k).trans (if_pos h)

theorem vinReact_of (u : State) (j k : Judge) : u.vinReact j k
    = (let w := if k.warned = true ∧ j.warned = false then (u.raise 356).raiseEv (u.fld F.PWR_EVGRP_HANDLE) 4 else u
      if k.faulted = true ∧ j.faulted = false then (w.raise 357).drydown 1 else w) := by
  unfold State.vinReact
  dsimp only
  rw [when_iff, when_iff]

section
variable {r mv : Nat} {good : Bool}

theorem effRailJudgement_not (h : s.pwr.phase.judged = false ∨ (s.pwr.table.rail r).use = false
    ∨ (Tab.getD s.pwr.judges r default).due s.now = false) : effRailJudgement r mv good s = s := if_pos h

theorem effRailJudgement_due (h : s.pwr.phase.judged = true ∧ (s.pwr.table.rail r).use = true
    ∧ (Tab.getD s.pwr.judges r default).due s.now = true) : effRailJudgement r mv good s
    = (let l := s.pwr.table.rail r
      let j := Tab.getD s.pwr.judges r default
      let k := j.next (!l.within l.wlo l.whi mv) (!l.within l.flo l.fhi mv) (!good) l.wfilt l.ffilt s.now
      ((s.modPwr (fun q => { q with rails := Tab.put q.rails r mv, judges := Tab.put q.judges r k })).putFlag
        (F.PWR_RAIL_GOOD r) good).railReact r j k) :=
  if_neg (by simp [h.1, h.2.1, h.2.2])

theorem effVinJudgement_early (h : s.pwr.vinJudge.due s.now = false) : effVinJudgement mv s = s := if_pos h

/-- VIN as measured. -/
def vinNoted (s : State) (mv : Nat) : State := s.modPwr (fun q => { q with
  vin := mv, vinOkSince := if s.pickTable.1.vinOn ≤ mv then some (q.vinOkSince.getD s.now) else none
  vinJudge := { q.vinJudge with last := some s.now }
  waitPress := q.waitPress && !(q.phase == .off && decide (mv < s.pickTable.1.vinOn)) })

theorem effVinJudgement_of (h : s.pwr.vinJudge.due s.now = true) : effVinJudgement mv s
    = if s.pwr.phase.judged = false then vinNoted s mv
      else (let t := s.pwr.table
        let k := s.pwr.vinJudge.next (decide (mv < t.vinWarn)) (decide (mv < t.vinFault)) false t.vinFilt t.vinFilt s.now
        (((vinNoted s mv).modPwr (fun q => { q with vinJudge := k })).putFlag F.PWR_STATUS_VINWARN k.warned).vinReact
          s.pwr.vinJudge k) := by
  have e : ∀ o, sinceWhen (decide (s.pickTable.1.vinOn ≤ mv)) o s.now
      = if s.pickTable.1.vinOn ≤ mv then some (o.getD s.now) else none := fun o => by
    unfold sinceWhen
    simp only [decide_eq_true_eq]
  refine (if_neg (by simp [h])).trans ?_
  dsimp only
  simp only [e]
  rfl

end

/-! ### The boot image (R409, R410) -/

section
variable {answered flashOk : Bool} {image : List Byte}

theorem effBootImageCheck_idle (h : s.pwr.phase ≠ .training ∧ s.pwr.phase ≠ .booting) :
    effBootImageCheck answered flashOk image s = s :=
  (if_neg fun c => h.1 c.1).trans (if_neg h.2)

/-- An image whose checks are done fails its slot or is released. -/
def bootEnd (image : List Byte) : State × Option Nat → State
  | (t, some k) => t.slotFail k
  | (t, none) => (t.raiseIf t.pwr.slotB 358).release image (b2n t.pwr.slotB)

theorem bootEnd_some (image : List Byte) (t : State) (k : Nat) : bootEnd image (t, some k) = t.slotFail k := rfl

theorem bootEnd_none (image : List Byte) (t : State) :
    bootEnd image (t, none) = (t.raiseIf t.pwr.slotB 358).release image (b2n t.pwr.slotB) := rfl

section
variable (h : s.pwr.phase = .training ∧ s.flag F.MEM_LOCK_LOCK = false ∨ s.pwr.phase = .booting)
include h

/-- The first checks of an image are those of both phases. -/
theorem effBootImageCheck_of : effBootImageCheck answered flashOk image s = if answered = false then s.slotFail 1
    else if hdrOk image = false then s.slotFail 2
    else if s.memCfgOk image = false then s.slotFail 3
    else if s.pwr.phase = .training then ((s.setMemCfg (imgMem image)).setFlag F.MEM_LOCK_LOCK).bootPl1 (bits (imgMem image) 0 2)
    else bootEnd image (s.bootChecks image flashOk none) := by
  rcases h with h | h
  · refine (if_pos h).trans ?_
    rw [if_pos h.1]
  · have ht : s.pwr.phase ≠ .training := by rw [h]; decide
    refine (if_neg fun c => ht c.1).trans ((if_pos h).trans ?_)
    rw [if_neg ht]
    rfl

theorem boot_unanswered (ha : answered = false) : effBootImageCheck answered flashOk image s = s.slotFail 1 :=
  (effBootImageCheck_of h).trans (if_pos ha)

theorem boot_badHeader (ha : answered = true) (hh : hdrOk image = false) :
    effBootImageCheck answered flashOk image s = s.slotFail 2 :=
  (effBootImageCheck_of h).trans ((if_neg (by simp [ha])).trans (if_pos hh))

theorem boot_badMemory (ha : answered = true) (hh : hdrOk image = true) (hm : s.memCfgOk image = false) :
    effBootImageCheck answered flashOk image s = s.slotFail 3 :=
  (effBootImageCheck_of h).trans ((if_neg (by simp [ha])).trans ((if_neg (by simp [hh])).trans (if_pos hm)))

end

section
variable (ha : answered = true ∧ hdrOk image = true ∧ s.memCfgOk image = true)
include ha

theorem boot_configures (h : s.pwr.phase = .training ∧ s.flag F.MEM_LOCK_LOCK = false) :
    effBootImageCheck answered flashOk image s
      = ((s.setMemCfg (imgMem image)).setFlag F.MEM_LOCK_LOCK).bootPl1 (bits (imgMem image) 0 2) := by
  obtain ⟨h1, h2, h3⟩ := ha
  rw [effBootImageCheck_of (.inl h), if_neg (by simp [h1]), if_neg (by simp [h2]), if_neg (by simp [h3]), if_pos h.1]

theorem boot_checks (h : s.pwr.phase = .booting) : effBootImageCheck answered flashOk image s
    = bootEnd image (s.bootChecks image flashOk none) := by
  obtain ⟨h1, h2, h3⟩ := ha
  rw [effBootImageCheck_of (.inr h), if_neg (by simp [h1]), if_neg (by simp [h2]), if_neg (by simp [h3]),
    if_neg (by rw [h]; decide)]

theorem boot_fails {t : State} {k : Nat} (h : s.pwr.phase = .booting) (hc : s.bootChecks image flashOk none = (t, some k)) :
    effBootImageCheck answered flashOk image s = t.slotFail k := by
  rw [boot_checks ha h, hc, bootEnd_some]

theorem boot_releases {t : State} (h : s.pwr.phase = .booting) (hc : s.bootChecks image flashOk none = (t, none)) :
    effBootImageCheck answered flashOk image s = (t.raiseIf t.pwr.slotB 358).release image (b2n t.pwr.slotB) := by
  rw [boot_checks ha h, hc, bootEnd_none]

end

theorem bootChecks_sections (h : s.secsOk image none = false) : s.bootChecks image flashOk none = (s, some 4) := if_pos h

section
variable (h : s.secsOk image none = true)
include h

theorem bootChecks_reads (hf : flashOk = false) : s.bootChecks image flashOk none = (s, some 5) :=
  (if_neg (by simp [h])).trans (if_pos hf)

variable (hf : flashOk = true)
include hf

theorem bootChecks_of : s.bootChecks image flashOk none = (let t := s.loadSecs image
    if t.keyOk image = false then (t, some 6)
    else if sigOk image = false then (t, some 7)
    else if imgSvn image < t.fuses.svnMin then (t, some 8)
    else (t, none)) :=
  (if_neg (by simp [h])).trans (if_neg (by simp [hf]))

theorem bootChecks_key (hk : (s.loadSecs image).keyOk image = false) :
    s.bootChecks image flashOk none = (s.loadSecs image, some 6) :=
  (bootChecks_of h hf).trans (if_pos hk)

theorem bootChecks_signature (hk : (s.loadSecs image).keyOk image = true) (hs : sigOk image = false) :
    s.bootChecks image flashOk none = (s.loadSecs image, some 7) :=
  (bootChecks_of h hf).trans ((if_neg (by simp [hk])).trans (if_pos hs))

theorem bootChecks_version (hk : (s.loadSecs image).keyOk image = true) (hs : sigOk image = true) :
    s.bootChecks image flashOk none
      = (s.loadSecs image, if imgSvn image < (s.loadSecs image).fuses.svnMin then some 8 else none) := by
  refine (bootChecks_of h hf).trans ((if_neg (by simp [hk])).trans ((if_neg (by simp [hs])).trans ?_))
  split <;> rfl

end

theorem slotFail_a (k : Nat) (h : s.pwr.slotB = false) :
    s.slotFail k = (s.setFld F.PWR_STATUS_FAILSTEP k).modPwr (fun q => { q with slotB := true }) := if_neg (by simp [h])

theorem slotFail_b (k : Nat) (h : s.pwr.slotB = true) : s.slotFail k = (s.setFld F.PWR_STATUS_FAILSTEP k).bootFail := if_pos h

end

section
variable {ft : Bool} {v : Word}

theorem effBootGo_not (h : ft = false ∨ v.getLsbD 0 = false ∨ s.pwr.phase ≠ .bootfail
    ∨ s.flag F.MEM_STATUS_INIT_DONE = false) : effBootGo ft v s = s := by
  refine if_pos ?_
  rwa [← Sys2Proof.Laws.Faults.bit_lsb]

/-- The three ends of a read of memory. -/
def onRead (x : State × MemRead) (F : State → List Byte → State) (E : State → Nat → State) (U : State → State) : State :=
  match x with
  | (t, .data l) => F t l
  | (t, .ecc e) => E t e
  | (t, .unmapped) => U t

section
variable (t : State) (F : State → List Byte → State) (E : State → Nat → State) (U : State → State)

theorem onRead_data (l : List Byte) : onRead (t, .data l) F E U = F t l := rfl

theorem onRead_ecc (e : Nat) : onRead (t, .ecc e) F E U = E t e := rfl

theorem onRead_unmapped : onRead (t, .unmapped) F E U = U t := rfl

end

/-- The image at `a` is read and judged. The read of memory and the judgement are parameters, so that nothing checks a
proof by evaluating one. -/
def bootFrom (read : State → Nat → Nat → Nat → State × MemRead)
    (judge : State → List Byte → Bool → Option Nat → State × Option Nat) (s : State) (a : Nat) : State :=
  onRead (read s reqTalosh a 256)
    (fun t hd => onRead (read t reqTalosh a (min (imgLen hd) 0x800000))
      (fun u l => match judge u l true (some a) with
        | (w, some k) => w.setFld F.PWR_STATUS_FAILSTEP k
        | (w, none) => w.release l 2)
      (fun u _ => u.setFld F.PWR_STATUS_FAILSTEP (if u.secsOk hd (some a) then 5 else 4))
      (fun u => u.setFld F.PWR_STATUS_FAILSTEP 4))
    (fun t _ => t.setFld F.PWR_STATUS_FAILSTEP 5) (fun t => t.setFld F.PWR_STATUS_FAILSTEP 4)

section
variable {read : State → Nat → Nat → Nat → State × MemRead} {judge : State → List Byte → Bool → Option Nat → State × Option Nat}
  {a : Nat} {t u w : State} {hd l : List Byte}

theorem bootFrom_headerUnmapped (e : read s reqTalosh a 256 = (t, .unmapped)) :
    bootFrom read judge s a = t.setFld F.PWR_STATUS_FAILSTEP 4 := by
  unfold bootFrom
  rw [e, onRead_unmapped]

theorem bootFrom_headerEcc {x : Nat} (e : read s reqTalosh a 256 = (t, .ecc x)) :
    bootFrom read judge s a = t.setFld F.PWR_STATUS_FAILSTEP 5 := by
  unfold bootFrom
  rw [e, onRead_ecc]

section
variable (e : read s reqTalosh a 256 = (t, .data hd))
include e

theorem bootFrom_bodyUnmapped (e' : read t reqTalosh a (min (imgLen hd) 0x800000) = (u, .unmapped)) :
    bootFrom read judge s a = u.setFld F.PWR_STATUS_FAILSTEP 4 := by
  unfold bootFrom
  rw [e, onRead_data, e', onRead_unmapped]

theorem bootFrom_bodyEcc {x : Nat} (e' : read t reqTalosh a (min (imgLen hd) 0x800000) = (u, .ecc x)) :
    bootFrom read judge s a = u.setFld F.PWR_STATUS_FAILSTEP (if u.secsOk hd (some a) then 5 else 4) := by
  unfold bootFrom
  rw [e, onRead_data, e', onRead_ecc]

variable (e' : read t reqTalosh a (min (imgLen hd) 0x800000) = (u, .data l))
include e'

theorem bootFrom_fails {k : Nat} (e'' : judge u l true (some a) = (w, some k)) :
    bootFrom read judge s a = w.setFld F.PWR_STATUS_FAILSTEP k := by
  unfold bootFrom
  rw [e, onRead_data, e', onRead_data, e'']

theorem bootFrom_releases (e'' : judge u l true (some a) = (w, none)) : bootFrom read judge s a = w.release l 2 := by
  unfold bootFrom
  rw [e, onRead_data, e', onRead_data, e'']

end

end

section
variable (h : ft = true ∧ v.getLsbD 0 = true ∧ s.pwr.phase = .bootfail ∧ s.flag F.MEM_STATUS_INIT_DONE = true)
include h

theorem bootGo_goes : ¬(ft = false ∨ bit v.toNat 0 = false ∨ s.pwr.phase ≠ .bootfail ∨ s.flag F.MEM_STATUS_INIT_DONE = false) := by
  obtain ⟨h1, h2, h3, h4⟩ := h
  rw [← Sys2Proof.Laws.Faults.bit_lsb]
  rintro (c | c | c | c)
  · exact Bool.false_ne_true (c.symm.trans h1)
  · exact Bool.false_ne_true (c.symm.trans h2)
  · exact c h3
  · exact Bool.false_ne_true (c.symm.trans h4)

theorem effBootGo_from {a : Nat} (ha : s.addr40 R.PWR_BOOT_ADDR_LO R.PWR_BOOT_ADDR_HI / 256 * 256 = a) :
    effBootGo ft v s = bootFrom State.memRead State.bootChecks s a := by
  unfold effBootGo
  rw [if_neg (bootGo_goes h), ha]
  generalize State.memRead = read
  generalize State.bootChecks = judge
  rfl

end

end

/-! ### Drydown (R412, R413) -/

section
variable {v : Word}

theorem effPwrCmd_not (h : bits v.toNat 8 8 ≠ 0x5A ∨ v.getLsbD 0 = false) : effPwrCmd v s = s := by
  refine if_pos (h.imp_right fun h0 => ?_)
  have hlt : bits v.toNat 0 1 < 2 := bits_lt _ _ _
  rw [getLsbD_bits, beq_eq_false_iff_ne] at h0
  show bits v.toNat 0 1 = 0
  omega

section
variable (h : bits v.toNat 8 8 = 0x5A ∧ v.getLsbD 0 = true)
include h

theorem effPwrCmd_of : effPwrCmd v s = if s.pwr.phase.canDry || s.pwr.phase.dryRuns then
      (s.drydown 7).modPwr (fun p => { p with stayOff := p.stayOff || v.getLsbD 1 })
    else s.drydown 7 := by
  have h0 : ¬(F.PWR_CMD_KEY.of v ≠ 0x5A ∨ F.PWR_CMD_DRYDOWN.of v = 0) := by
    rintro (c | c)
    · exact c h.1
    · have h1 := h.2
      rw [getLsbD_bits, beq_iff_eq] at h1
      exact absurd (h1.symm.trans c) (by decide)
  refine (if_neg h0).trans ?_
  rw [getLsbD_bits]
  rfl

theorem effPwrCmd_off (hp : s.pwr.phase = .off ∨ s.pwr.phase = .holdoff) : effPwrCmd v s = s := by
  rw [effPwrCmd_of h, if_neg (by rcases hp with hp | hp <;> rw [hp] <;> decide)]
  exact drydown_off hp

theorem effPwrCmd_dries (hp : s.pwr.phase ≠ .off ∧ s.pwr.phase ≠ .holdoff) : effPwrCmd v s
    = (s.drydown 7).modPwr (fun q => { q with stayOff := q.stayOff || v.getLsbD 1 }) := by
  rw [effPwrCmd_of h]
  refine if_pos ?_
  cases hs : s.pwr.phase with
  | off => exact absurd hs hp.1
  | holdoff => exact absurd hs hp.2
  | seq _ | training | filling | booting | running | bootfail | drydown | withdraw _ => rfl

end

end

theorem effDrydownParkDone_early (h : s.pwr.phase ≠ .drydown ∨ s.now < s.pwr.since + s.parkMs * 1000000) :
    effDrydownParkDone s = s := if_neg fun c => h.elim (fun e => e c.1) fun e => Nat.not_lt.2 c.2 e

theorem effDrydownParkDone_done (h : s.pwr.phase = .drydown ∧ s.pwr.since + s.parkMs * 1000000 ≤ s.now) :
    effDrydownParkDone s = s.withdrawBelow s.pwr.table.steps.length := if_pos h

section
variable {good : Bool}

theorem effDrydownRailOff_not (h : ∀ k, s.pwr.phase ≠ .withdraw (k + 1)) : effDrydownRailOff good s = s := by
  unfold effDrydownRailOff
  split
  · next i hi => exact absurd hi (h i)
  · rfl

theorem effDrydownRailOff_of {k : Nat} (h : s.pwr.phase = .withdraw (k + 1)) : effDrydownRailOff good s
    = if good = true ∧ s.now < s.pwr.since + 10000000 then s
      else (s.putFlag (F.PWR_RAIL_GOOD ((s.pwr.table.steps.getD k default).rail)) good).withdrawBelow k := by
  unfold effDrydownRailOff
  rw [h]

end

/-- A step of the sequence whose rail is on. -/
def Lit (s : State) (j : Nat) : Prop := ∃ x, s.pwr.table.steps[j]? = some x ∧ x.op = .on ∧ s.flag (F.PWR_RAIL_ON x.rail) = true

theorem lit_iff (s : State) (j : Nat) : (match s.pwr.table.steps[j]? with
    | some x => x.op == .on && s.flag (F.PWR_RAIL_ON x.rail)
    | none => false) = true ↔ Lit s j := by
  unfold Lit
  cases s.pwr.table.steps[j]? with
  | none => simp
  | some x => simp

theorem withdrawBelow_none {k : Nat} (h : ∀ j < k, ¬Lit s j) :
    s.withdrawBelow k = s.modPwr (fun q => { q with phase := .withdraw 0 }) := by
  unfold State.withdrawBelow
  rw [List.find?_eq_none.2]
  intro j hj hl
  rw [List.mem_reverse, List.mem_range] at hj
  exact h j hj ((lit_iff s j).1 hl)

/-- A search downwards finds the last that satisfies its predicate. -/
theorem find_reverse_range {p : Nat → Bool} {k j : Nat} (hj : j < k) (hp : p j = true) (hn : ∀ l < k, j < l → p l = false) :
    (List.range k).reverse.find? p = some j := by
  induction k with
  | zero => exact absurd hj (Nat.not_lt_zero _)
  | succ k ih =>
    rw [List.range_succ, List.reverse_append, List.reverse_singleton, List.singleton_append, List.find?_cons]
    rcases Nat.lt_succ_iff_lt_or_eq.1 hj with h | rfl
    · rw [hn k (Nat.lt_succ_self k) h]
      exact ih h fun l hl => hn l (Nat.lt_succ_of_lt hl)
    · rw [hp]

theorem withdrawBelow_last {k j : Nat} (hj : j < k) (hl : Lit s j) (hn : ∀ l < k, j < l → ¬Lit s l) : s.withdrawBelow k
    = (s.withdrawRail (s.pwr.table.steps.getD j default).rail).modPwr (fun q => { q with phase := .withdraw (j + 1), since := s.now }) := by
  unfold State.withdrawBelow
  rw [find_reverse_range hj ?lit ?dark]
  case lit => exact (lit_iff s j).2 hl
  case dark => exact fun l hl' hjl => Bool.eq_false_iff.2 fun c => hn l hl' hjl ((lit_iff s l).1 c)

theorem effDrydownEnd_not (h : s.pwr.phase ≠ .withdraw 0) : effDrydownEnd s = s := if_neg h

theorem effDrydownEnd_done (h : s.pwr.phase = .withdraw 0) : effDrydownEnd s
    = (s.each (List.range 8) State.stopPass).closeAll.modPwr (fun q => { q with phase := .holdoff, since := s.now }) := if_pos h

theorem effHoldoffEnd_early (h : s.pwr.phase ≠ .holdoff ∨ s.now < s.pwr.since + 250000000) : effHoldoffEnd s = s := if_pos h

section
variable (h : s.pwr.phase = .holdoff ∧ s.pwr.since + 250000000 ≤ s.now)
include h

theorem effHoldoffEnd_of : effHoldoffEnd s = if s.staysOff = true ∧ s.pwr.pressKept = false then
      s.modPwr (fun q => { q with phase := .off, stayOff := false, waitPress := true })
    else if s.vinGood then s.powerUp else s.modPwr (fun q => { q with phase := .off, stayOff := false }) :=
  if_neg (not_or.2 ⟨not_not_intro h.1, Nat.not_lt.2 h.2⟩)

theorem effHoldoffEnd_stays (hs : s.pwr.pressKept = false ∧ s.staysOff = true) :
    effHoldoffEnd s = s.modPwr (fun q => { q with phase := .off, stayOff := false, waitPress := true }) :=
  (effHoldoffEnd_of h).trans (if_pos hs.symm)

theorem effHoldoffEnd_goes (hs : s.pwr.pressKept = true ∨ s.staysOff = false) : effHoldoffEnd s
    = if s.vinGood then s.powerUp else s.modPwr (fun q => { q with phase := .off, stayOff := false }) := by
  refine (effHoldoffEnd_of h).trans (if_neg fun c => ?_)
  rcases hs with e | e
  · exact Bool.false_ne_true (c.2.symm.trans e)
  · exact Bool.false_ne_true (e.symm.trans c.1)

end

end Sys2Proof.Proofs.PowerSequence
end

