-- ==== Sys2Proof/Proofs/Clocks.lean ====
section
/-!
PROOFS. The thermal round and its acknowledgement, and the synthesizers and their reference (R415 to R432).
-/
namespace Sys2Proof.Proofs.Clocks

open Sys2Proof.Machine
open Sys2Proof.Laws.Writes

variable {s : State}

/-! ### The thermal round (R415 to R423) -/

section
variable {raw : List (Option Int)} {bus : List I2cReply}

theorem effThermalRound_not (h : s.now % 10000000 ≠ 0 ∨ s.thm.roundAt = some s.now) : effThermalRound raw bus s = s := if_pos h

/-- What the 64 channels make of a round's conversions. -/
def sampled (s : State) (raw : List (Option Int)) (bus : List I2cReply) : State :=
  (s.modThm (fun t => { t with roundAt := some s.now })).each (List.range 64) (fun t c => t.thmChannel c
    (if c < 56 then (raw.getD c none).map (thmCode c) else (bus.getD (c - 56) default).value))

/-- The cap on the fusers' phases is set next. -/
def capped (t : State) : State := t.setFld F.THM_FUSER_PHASE_CAP (256 - t.thmExcess [2] * t.fld F.THM_FUSER_FRATE / 16)

/-- The end of a round: the request of speed, the peak, the heads' windows and the corrections in holdover. -/
def roundEnd (t : State) : State :=
  (((t.setFld F.THM_SPD_CH_REQ t.chReq).peakRound).each (List.range 4) State.hdaWindow).each (List.range 16) State.holdCorr

theorem effThermalRound_due (h : s.now % 10000000 = 0 ∧ s.thm.roundAt ≠ some s.now) :
    effThermalRound raw bus s = roundEnd (capped (sampled s raw bus)) :=
  if_neg fun c => c.elim (fun c => c h.1) h.2

end

theorem levelFlag_iff {lim eng : Int} {was : Bool} (h : lim ≠ 0x7FFF) :
    levelFlag lim eng was = true ↔ lim ≤ eng ∨ was = true ∧ lim - 16 < eng := by
  unfold levelFlag
  rw [bne_iff_ne.2 h, Bool.true_and, Bool.or_eq_true, Bool.and_eq_true, decide_eq_true_iff, decide_eq_true_iff]

theorem peakRound_job (h : s.peakJob = true) : s.peakRound = (let mx := s.fld F.THM_PEAKCFG_PEAK_MAX
    let acc := if s.thm.acc < mx then s.thm.acc + 1 else s.thm.acc
    let u := s.modThm (fun t => { t with acc := acc, recov := 0 })
    if mx ≤ acc ∧ s.flag F.THM_PEAK_OVER = false then (u.setFlag F.THM_PEAK_OVER).raise 364 else u) := if_pos h

theorem peakRound_waits (h : s.peakJob = false) (hr : s.thm.recov + 1 < max 1 (s.fld F.THM_PEAKCFG_RECOV)) :
    s.peakRound = s.modThm (fun t => { t with recov := t.recov + 1 }) :=
  (if_neg (by simp [h])).trans (if_pos hr)

theorem peakRound_recovers (h : s.peakJob = false) (hr : max 1 (s.fld F.THM_PEAKCFG_RECOV) ≤ s.thm.recov + 1) :
    s.peakRound = (let u := s.modThm (fun t => { t with acc := s.thm.acc - 1, recov := 0 })
      if s.thm.acc ≤ 1 then (u.clrFlag F.THM_PEAK_OVER).setFld F.THM_PEAK_PEAK_REQ 0 else u) := by
  refine (if_neg (by simp [h])).trans ((if_neg (Nat.not_lt.2 hr)).trans ?_)
  dsimp only
  by_cases ha : s.thm.acc ≤ 1
  · rw [if_pos ha]
    exact if_pos (Nat.sub_eq_zero_of_le ha)
  · rw [if_neg ha]
    exact if_neg fun c => ha (Nat.le_of_sub_eq_zero c)

section
variable {ft : Bool} {v : Word}

theorem effTsdAck_not (h : ft = false ∨ bits v.toNat 16 8 ≠ 0xA5 ∨ s.flag F.THM_TSD_TSD_LOCK = false
    ∨ bits v.toNat 0 16 ≠ s.fld F.THM_TSD_SEQ) : effTsdAck ft v s = s := by
  refine if_neg ?_
  rintro ⟨c1, c2, c3, c4⟩
  rcases h with h | h | h | h
  · exact Bool.false_ne_true (h.symm.trans c1)
  · exact h c2
  · exact Bool.false_ne_true (h.symm.trans c3)
  · exact h c4

theorem effTsdAck_of (h : ft = true ∧ bits v.toNat 16 8 = 0xA5 ∧ s.flag F.THM_TSD_TSD_LOCK = true
    ∧ bits v.toNat 0 16 = s.fld F.THM_TSD_SEQ) :
    effTsdAck ft v s = (s.clrFlag F.THM_TSD_TSD_LOCK).modThm (fun t => { t with tsd := false }) := if_pos h

end

/-! ### The synthesizers (R424 to R428, R432) -/

/-- The window of a synthesizer is present with it. -/
theorem windowPresent_pll (i : Fin 16) (h : s.hasPll i.val = true) : s.windowPresent (0x70 + i.val) = true := by
  have hi := i.isLt
  unfold State.windowPresent
  rw [if_neg (by omega), if_neg (by omega), if_neg (by omega), if_neg (by omega), if_neg (by omega), if_neg (by omega),
    if_neg (by omega), if_pos (by omega), show 0x70 + i.val - 0x70 = i.val by omega]
  exact h

theorem isPixel_iff (n : Nat) : isPixel n = true ↔ 3 ≤ n ∧ n ≤ 6 := by
  unfold isPixel
  rw [Bool.and_eq_true, decide_eq_true_iff, decide_eq_true_iff]

theorem isPixel_not {n : Nat} (h : n < 3 ∨ 6 < n) : isPixel n = false :=
  Bool.eq_false_iff.2 fun c => by have := (isPixel_iff n).1 c; omega

section
variable {n : Nat} {v : Word}

theorem effClkApply_other (h : n < 3 ∨ 6 < n) : effClkApply n v s = s.setFlag (F.CLK_STATUS_CFG_BUSY n) := if_pos (isPixel_not h)

section
variable (h : 3 ≤ n ∧ n ≤ 6)
include h

theorem pixel_not_false : ¬isPixel n = false := by
  rw [(isPixel_iff n).2 h]
  decide

theorem effClkApply_refmul (hr : bits v.toNat 1 2 = 3) : effClkApply n v s = s.setFlag (F.CLK_STATUS_CFG_ERR n) :=
  (if_neg (pixel_not_false h)).trans (if_pos hr)

/-- The control word of a pixel synthesizer as it is written; EN falling loses its lock. -/
def controlled (s : State) (n : Nat) (v : Word) : State :=
  let w0 := (s.plainWrite (R.CLK_CTRL n) v).pendRefresh n
  if s.flag (F.CLK_CTRL_EN n) = true ∧ v.getLsbD 0 = false then
    ((w0.pixelLost (n - 3)).clrFlag (F.CLK_STATUS_LOCK n)).modPll n (fun q => { q with gated := true, lossGated := false })
  else w0

omit h in
theorem en_falls (s : State) (n : Nat) (v : Word) : (s.flag (F.CLK_CTRL_EN n) && (F.CLK_CTRL_EN n).of v == 0) = true
    ↔ s.flag (F.CLK_CTRL_EN n) = true ∧ v.getLsbD 0 = false := by
  have hlt : bits v.toNat 0 1 < 2 := bits_lt _ _ _
  rw [Bool.and_eq_true, getLsbD_bits, beq_iff_eq, beq_eq_false_iff_ne]
  refine and_congr_right fun _ => ?_
  show bits v.toNat 0 1 = 0 ↔ _
  omega

theorem effClkApply_of (hr : bits v.toNat 1 2 ≠ 3) : effClkApply n v s = (let w := controlled s n v
    if (F.CLK_CTRL_APPLY n).of v = 0 then w
    else if (w.jobOn (n - 3)).isSome then w.clkBusy n
    else if pllLimits n (w.staged n) = false then w.setFlag (F.CLK_STATUS_CFG_ERR n)
    else w.applyPll n) := by
  have e : controlled s n v = if (s.flag (F.CLK_CTRL_EN n) && (F.CLK_CTRL_EN n).of v == 0) = true then
      ((((s.plainWrite (R.CLK_CTRL n) v).pendRefresh n).pixelLost (n - 3)).clrFlag (F.CLK_STATUS_LOCK n)).modPll n
        (fun q => { q with gated := true, lossGated := false })
      else (s.plainWrite (R.CLK_CTRL n) v).pendRefresh n := (if_congr (en_falls s n v) rfl rfl).symm
  refine (if_neg (pixel_not_false h)).trans ((if_neg hr).trans ?_)
  rw [e]

section
variable (hr : bits v.toNat 1 2 ≠ 3)
include hr

theorem effClkApply_control (ha : v.getLsbD 7 = false) : effClkApply n v s = controlled s n v := by
  refine (effClkApply_of h hr).trans (if_pos ?_)
  have hlt : bits v.toNat 7 1 < 2 := bits_lt _ _ _
  rw [getLsbD_bits, beq_eq_false_iff_ne] at ha
  show bits v.toNat 7 1 = 0
  omega

variable (ha : v.getLsbD 7 = true)
include ha

theorem effClkApply_staged : effClkApply n v s = (let w := controlled s n v
    if (w.jobOn (n - 3)).isSome then w.clkBusy n
    else if pllLimits n (w.staged n) = false then w.setFlag (F.CLK_STATUS_CFG_ERR n)
    else w.applyPll n) := by
  refine (effClkApply_of h hr).trans (if_neg fun c => ?_)
  rw [getLsbD_bits, beq_iff_eq] at ha
  exact absurd (ha.symm.trans c) (by decide)

theorem effClkApply_busy (hj : ((controlled s n v).jobOn (n - 3)).isSome = true) :
    effClkApply n v s = (controlled s n v).setFlag (F.CLK_STATUS_CFG_BUSY n) := (effClkApply_staged h hr ha).trans (if_pos hj)

theorem effClkApply_limits (hj : (controlled s n v).jobOn (n - 3) = none) (hl : pllLimits n ((controlled s n v).staged n) = false) :
    effClkApply n v s = (controlled s n v).setFlag (F.CLK_STATUS_CFG_ERR n) :=
  (effClkApply_staged h hr ha).trans ((if_neg (by simp [hj])).trans (if_pos hl))

theorem effClkApply_applies (hj : (controlled s n v).jobOn (n - 3) = none) (hl : pllLimits n ((controlled s n v).staged n) = true) :
    effClkApply n v s = (controlled s n v).applyPll n :=
  (effClkApply_staged h hr ha).trans ((if_neg (by simp [hj])).trans (if_neg (by simp [hl])))

end

end

theorem effClkLockAcquired_not (h : s.pllRuns n = false ∨ s.flag (F.CLK_STATUS_LOCK n) = true) : effClkLockAcquired n s = s :=
  if_pos h

theorem effClkLockAcquired_locks (h : s.pllRuns n = true ∧ s.flag (F.CLK_STATUS_LOCK n) = false) : effClkLockAcquired n s
    = (let s2 := (s.setFlag (F.CLK_STATUS_LOCK n)).modPll n (fun q => if (s.pll n).lossGated then
          { q with relockAt := some s.now, fromApply := false } else { q with gated := false, fromApply := false })
      let s3 := if 7 ≤ n ∧ n ≤ 14 then s2.noteDisk (n - 7) else s2
      if (s.pll n).fromApply = true ∧ 3 ≤ n ∧ n ≤ 6 then s3.setUnit (n - 3) else s3) := by
  refine (if_neg (by simp [h.1, h.2])).trans ?_
  dsimp only
  refine (if_congr (by rw [Bool.and_eq_true, isPixel_iff]) rfl rfl).trans ?_
  cases (s.pll n).lossGated <;> rfl

/-- A lock is lost by a phase error of an eighth of a period that lasts 1000 ns. -/
def Far (s : State) (n : Nat) (err : Int) (held : Nat) : Prop :=
  1000000000000000 * (pllDco n (s.pll n).force).2 < err.natAbs * 8 * (pllDco n (s.pll n).force).1 ∧ 1000 ≤ held

section
variable {err : Int} {held : Nat}

theorem effClkLossOfLock_not (h : s.flag (F.CLK_STATUS_LOCK n) = false ∨ ¬Far s n err held) : effClkLossOfLock n err held s = s := by
  refine if_neg ?_
  rintro ⟨c1, c2, c3⟩
  rcases h with h | h
  · exact Bool.false_ne_true (h.symm.trans c1)
  · exact h ⟨of_decide_eq_true c2, c3⟩

/-- An unlocked synthesizer before what it clocks takes notice. -/
def unlocked (s : State) (n : Nat) : State :=
  ((s.clrFlag (F.CLK_STATUS_LOCK n)).setFlag (F.CLK_STATUS_LOL n)).modPll n (fun q => { q with
    gated := true, lossGated := true, relockAt := none, fromApply := false, refGated := false })

theorem effClkLossOfLock_far (h : s.flag (F.CLK_STATUS_LOCK n) = true ∧ Far s n err held) :
    effClkLossOfLock n err held s = (unlocked s n).lockEffects n :=
  if_pos ⟨h.1, decide_eq_true h.2.1, h.2.2⟩

end

theorem lockEffects_core (h : n < 2) : s.lockEffects n = s.raise 368 := if_pos h

theorem lockEffects_links : s.lockEffects 2 = ((s.raise 369).each (List.range 4) State.elkLose).acdDown (some s.now) := rfl

theorem lockEffects_pixel (h : 3 ≤ n ∧ n ≤ 6) : s.lockEffects n = ((s.raise 370).pixelPages (n - 3)).pixelStop (n - 3) :=
  (if_neg (by omega)).trans ((if_neg (by omega)).trans (if_pos h.2))

theorem lockEffects_disk (h : 7 ≤ n ∧ n ≤ 14) : s.lockEffects n
    = ((s.raise 371).raiseIf (s.sectorBusy (n - 7)) (235 + 4 * (n - 7))).guardClose (n - 7) :=
  (if_neg (by omega)).trans ((if_neg (by omega)).trans ((if_neg (by omega)).trans (if_pos h.2)))

theorem lockEffects_last : s.lockEffects 15 = s.raise 372 := rfl

theorem effClkOutputRestart_not (h : (s.pll n).relockAt = none ∨ s.flag (F.CLK_STATUS_LOCK n) = false) :
    effClkOutputRestart n s = s := by
  unfold effClkOutputRestart
  split
  · next t ht =>
    refine if_neg fun c => ?_
    rcases h with h | h
    · exact Option.some_ne_none t (ht.symm.trans h)
    · exact Bool.false_ne_true (h.symm.trans c.1)
  · rfl

theorem effClkOutputRestart_of {t0 : Nat} (h : (s.pll n).relockAt = some t0) : effClkOutputRestart n s
    = if s.flag (F.CLK_STATUS_LOCK n) = true ∧ t0 + 100000 ≤ s.now then
        s.modPll n (fun p => { p with gated := false, lossGated := false, relockAt := none })
      else s := by
  unfold effClkOutputRestart
  rw [h]

theorem lock_writeOnce (s : State) (i : Fin 16) (v : Word) : (s.plainWrite (F.CLK_LOCK_LOCK i.val).key v).flag (F.CLK_LOCK_LOCK i.val)
    = (s.flag (F.CLK_LOCK_LOCK i.val) || v.getLsbD 0) := by
  have hw : ∀ i : Fin 16, (findReg ((F.CLK_LOCK_LOCK i.val).key / 0x10000) ((F.CLK_LOCK_LOCK i.val).key % 0x10000)).any
      (fun r => r.fields.contains ⟨(F.CLK_LOCK_LOCK i.val).lo, 1, .w1s, false, 0⟩) = true := by decide +kernel
  exact plainWrite_w1s s (F.CLK_LOCK_LOCK i.val) v (hw i)

end

/-! ### The reference (R429) -/

/-- The reference is gone: 100 cycles' time quiet, or its count outside 500 ppm. -/
def Gone (quiet cycles : Nat) : Prop := 100 ≤ quiet ∨ cycles < 99950 ∨ 100050 < cycles

section
variable {quiet cycles : Nat}

theorem refclkGone_iff : refclkGone quiet cycles = true ↔ Gone quiet cycles := by
  unfold refclkGone Gone
  rw [Bool.or_eq_true, Bool.or_eq_true, decide_eq_true_iff, decide_eq_true_iff, decide_eq_true_iff, or_assoc]

theorem effRefclkLoss_not (h : s.ref.lost = true ∨ ¬Gone quiet cycles) : effRefclkLoss quiet cycles s = s :=
  if_pos (h.imp_right fun c => Bool.eq_false_iff.2 fun e => c (refclkGone_iff.1 e))

/-- The lost reference as it is noted. -/
def refNoted (s : State) : State := (s.setFlag F.CLK_REF_REFLOST).raise 373

theorem refNoted_ref (s : State) : (refNoted s).ref = s.ref := by
  unfold refNoted
  simp only [State.raise_frame, State.setFlag_frame]

section
variable (h : s.ref.lost = false ∧ Gone quiet cycles)
include h

theorem effRefclkLoss_of : effRefclkLoss quiet cycles s = if s.flag F.CLK_REF_SRC then
      { refNoted s with ref := { (refNoted s).ref with lost := true } }
    else ({ refNoted s with ref := ⟨true, some s.now⟩ } : State).each (List.range 7) (fun t k =>
      if t.pllRuns k = false ∨ t.flag (F.CLK_STATUS_LOCK k) = false then t
      else if t.flag (F.CLK_CTRL_HOLD_EN k) = true then (t.setFlag (F.CLK_STATUS_HOLD k)).modPll k
        (fun q => { q with holdSince := some s.now, holdLong := false, switchWait := false })
      else t.unlock k true) :=
  if_neg (by simp [h.1, refclkGone_iff.2 h.2])

theorem effRefclkLoss_spare (hs : s.flag F.CLK_REF_SRC = true) : effRefclkLoss quiet cycles s
    = { refNoted s with ref := { s.ref with lost := true } } := by
  rw [effRefclkLoss_of h, if_pos hs, refNoted_ref]

end

end

theorem effRefSwitch_none (h : s.ref.switchDue = none) : effRefSwitch s = s := by
  unfold effRefSwitch
  rw [h]

theorem effRefSwitch_of {t0 : Nat} (h : s.ref.switchDue = some t0) : effRefSwitch s
    = if t0 + max 1 (s.fld F.CLK_REF_REF_SW) * 1000000 ≤ s.now then
        { s.refChange true with ref := { s.ref with switchDue := none } }
      else s := by
  unfold effRefSwitch
  rw [h]
  rfl

theorem holdOver_iff (k : Nat) : s.holdOver k = true ↔ ∃ t0, (s.pll k).holdSince = some t0 ∧ (s.pll k).holdLong = false
    ∧ t0 + max 1 (s.fld F.CLK_REF_HO_MAX) * 1000000000 < s.now := by
  unfold State.holdOver
  cases (s.pll k).holdSince with
  | none => simp
  | some t =>
    dsimp only
    rw [Bool.and_eq_true, decide_eq_true_iff, Bool.not_eq_true']
    exact ⟨fun ⟨h1, h2⟩ => ⟨t, rfl, h2, h1⟩, fun ⟨_, e, h2, h1⟩ => by cases e; exact ⟨h1, h2⟩⟩

end Sys2Proof.Proofs.Clocks
end

