-- ==== Sys2Proof/Proofs/PowerClocks.lean ====
section
/-!
PROOFS. Power, thermal management and clocks (R403 to R429).
-/
namespace Sys2Proof.Proofs.PowerClocks

open Sys2Proof.Machine
open Sys2Proof.Laws.Writes
open Sys2Proof.Proofs.PowerSequence
open Sys2Proof.Proofs.Clocks

/-- Settles O58: each row has its effect, and each effect its branches. Power-up and its checks, the checks of a boot image,
when rails and VIN are judged, the pages of a stopped pixel clock and what a synthesizer's event reports are the model's
reading (log entries 46, 82, 83, 140 and 143); that the end of a drydown closes all objects is its choice (log entry 117). -/
theorem powerAndClocks : Obligations.PowerAndClocks := by
  unfold Obligations.PowerAndClocks
  intro s mv high low valid r good answered flashOk ft image v i raw bus err held quiet cycles next p tab n
  have hnx : ∀ {a b : State}, a = b → next a = next b := congrArg next
  refine ⟨fun h => hnx (effVinQualified_not h), fun h => hnx (effVinQualified_up h), vinGood_iff,
    fun h => ⟨hnx (noStep_qualified h _ _), hnx (noStep_abort h _ _), hnx (noStep_bounce h _)⟩, fun u k => rfl, ?step,
    fun x => rfl, fun cause rail b _ => ⟨drydown_again, drydown_off⟩,
    ⟨fun h => hnx (effRailJudgement_not h), fun h => hnx (effRailJudgement_due h)⟩,
    fun u j k => ⟨railReact_calm, railReact_faults⟩, due_iff,
    fun j w f l wf ff now => ⟨next_warned j w f l wf ff now, next_faulted j w f l wf ff now⟩,
    fun h => hnx (effVinJudgement_early h), ?vin, vinReact_of, ?_⟩
  case step =>
    intro k x hk hx
    refine ⟨fun hd => ⟨hnx (delay_abort hk hx _ _ hd), hnx (delay_bounce hk hx _ hd), fun hl => hnx (delay_done hk hx _ _ hd hl),
        fun hl => hnx (delay_runs hk hx _ _ hd hl)⟩,
      fun hd => ⟨fun h => hnx (rail_waits hk hx _ _ hd h), fun h => hnx (rail_done hk hx _ _ hd h.1 h.2),
        fun h => hnx (rail_failed hk hx _ _ hd h), fun h => hnx (abort_due hk hx _ _ hd h), fun h => hnx (abort_not hk hx _ _ hd h),
        fun h => hnx (bounce_short hk hx _ h), fun h => hnx (bounce_counts hk hx _ hd h)⟩⟩
  case vin =>
    intro h
    exact ⟨fun hj => hnx ((effVinJudgement_of h).trans (if_pos hj)),
      fun hj => hnx ((effVinJudgement_of h).trans (if_neg fun e => Bool.false_ne_true (e.symm.trans hj)))⟩
  refine ⟨fun h => hnx (effBootImageCheck_idle h), fun h => ⟨fun ha => hnx (boot_unanswered h ha),
      fun ha => hnx (boot_badHeader h ha.1 ha.2), fun ha => hnx (boot_badMemory h ha.1 ha.2.1 ha.2.2)⟩,
    fun ha => ⟨fun h => hnx (boot_configures ha h), fun h t => ⟨fun k hc => hnx (boot_fails ha h hc), fun hc => hnx (boot_releases ha h hc)⟩⟩,
    ⟨bootChecks_sections, fun h => ⟨bootChecks_reads h, fun hf => ⟨bootChecks_key h hf, bootChecks_signature h hf,
      bootChecks_version h hf⟩⟩⟩,
    fun k => ⟨slotFail_a k, slotFail_b k⟩, fun h => hnx (effBootGo_not h), ?image, ?unread, ?_⟩
  case image =>
    intro h a t hd u l ha e e' w
    exact ⟨fun k e'' => hnx ((effBootGo_from h ha.symm).trans (bootFrom_fails e e' e'')),
      fun e'' => hnx ((effBootGo_from h ha.symm).trans (bootFrom_releases e e' e''))⟩
  case unread =>
    intro h a fail
    exact ⟨fun t e => hnx ((effBootGo_from h rfl).trans (bootFrom_headerUnmapped e)),
      fun t x e => hnx ((effBootGo_from h rfl).trans (bootFrom_headerEcc e)),
      fun t hd e => ⟨fun u e' => hnx ((effBootGo_from h rfl).trans (bootFrom_bodyUnmapped e e')),
        fun u x e' => hnx ((effBootGo_from h rfl).trans (bootFrom_bodyEcc e e'))⟩⟩
  refine ⟨fun h => hnx (effPwrCmd_not h), fun h => ⟨fun hp => hnx (effPwrCmd_off h hp), fun hp => hnx (effPwrCmd_dries h hp)⟩,
    fun h => hnx (effDrydownParkDone_early h), fun h => hnx (effDrydownParkDone_done h), fun h => hnx (effDrydownRailOff_not h),
    ?railOff, fun k => ⟨withdrawBelow_none, fun j => withdrawBelow_last⟩, fun h => hnx (effDrydownEnd_not h),
    fun h => hnx (effDrydownEnd_done h), ⟨rfl, rfl, rfl, rfl, rfl⟩, fun h => hnx (effHoldoffEnd_early h),
    fun h => ⟨fun hs => hnx (effHoldoffEnd_stays h hs), fun hs => hnx (effHoldoffEnd_goes h hs)⟩, ?_⟩
  case railOff =>
    intro k h
    refine ⟨fun hg => hnx ((effDrydownRailOff_of h).trans (if_pos hg)),
      fun hg => hnx ((effDrydownRailOff_of h).trans (if_neg fun c => ?_))⟩
    exact hg.elim (fun e => Bool.false_ne_true (e.symm.trans c.1)) fun e => Nat.not_lt.2 e c.2
  refine ⟨fun h => hnx (effThermalRound_not h), fun h => hnx (effThermalRound_due h), fun q => rfl,
    fun lim eng was => levelFlag_iff, fun eng was => rfl,
    ⟨peakRound_job, fun h => ⟨peakRound_waits h, peakRound_recovers h⟩⟩, fun h => hnx (effTsdAck_not h),
    fun h => hnx (effTsdAck_of h), fun hpll => ?pll, ⟨fun h => hnx (effRefclkLoss_not h), fun h =>
      ⟨fun hs => hnx (effRefclkLoss_spare h hs), fun hs => hnx ((effRefclkLoss_of h).trans (if_neg fun e => Bool.false_ne_true (hs.symm.trans e)))⟩⟩,
    fun h => hnx (effRefSwitch_none h), fun t0 h => ⟨fun hl => hnx ((effRefSwitch_of h).trans (if_neg (Nat.not_le.2 hl))),
      fun hl => hnx ((effRefSwitch_of h).trans (if_pos hl))⟩, fun h => hnx (if_pos h), fun h => hnx (if_neg (Nat.not_lt.2 h)),
    holdOver_iff, rfl⟩
  case pll =>
    have hu : ∀ {g : State → State} {t}, g s = t → next (s.onUnit (s.hasPll n) g) = next t := fun hg =>
      congrArg next ((onUnit_present s _ _ hpll).trans hg)
    have hwin : ∀ {g : State → State} {t}, g s = t → next (s.onWindow (0x70 + n) g) = next t := fun hg =>
      congrArg next ((onWindow_present s _ _ (windowPresent_pll i hpll)).trans hg)
    refine ⟨fun h => hwin (effClkApply_other h), fun h => hwin (effClkApply_refmul ⟨h.1, h.2.1⟩ h.2.2), ?apply,
      fun h => hu (effClkLockAcquired_not h), fun h => hu (effClkLockAcquired_locks h),
      ⟨fun h => hu (effClkLossOfLock_not h), fun h => ?loss⟩, fun h => hu (effClkOutputRestart_not h),
      fun t0 h hl => ⟨fun hn => hu ((effClkOutputRestart_of h).trans (if_neg fun c => Nat.not_lt.2 c.2 hn)),
        fun hn => hu ((effClkOutputRestart_of h).trans (if_pos ⟨hl, hn⟩))⟩, hwin rfl, lock_writeOnce s i v⟩
    case apply =>
      intro ⟨h3, h6, hr⟩
      have h : 3 ≤ n ∧ n ≤ 6 := ⟨h3, h6⟩
      exact ⟨fun ha => hwin (effClkApply_control h hr ha), fun ha => ⟨fun hj => hwin (effClkApply_busy h hr ha hj),
        fun hj => hwin (effClkApply_limits h hr ha hj.1 hj.2), fun hj => hwin (effClkApply_applies h hr ha hj.1 hj.2)⟩⟩
    case loss =>
      have e := effClkLossOfLock_far h
      refine ⟨fun hn => hu (e.trans (lockEffects_core hn)), fun hn => ?_, fun hn => hu (e.trans (lockEffects_pixel hn)),
        fun hn => ?_, fun hn => hu (e.trans (lockEffects_disk hn))⟩
      · exact hu (e.trans ((congrArg _ hn).trans lockEffects_links))
      · exact hu (e.trans ((congrArg _ hn).trans lockEffects_last))

end Sys2Proof.Proofs.PowerClocks
end

