-- ==== Sys2Proof/Proofs/FaultCollector.lean ====
section
/-!
PROOFS. The fault collector and its reaction sets (R435 to R441).
-/
namespace Sys2Proof.Proofs.FaultCollector

open Sys2Proof.Machine
open Sys2Proof.Laws.Faults

variable {s : State} {src : Nat}

/-! ### An event by its severity -/

/-- What an event of severity 1 or more leaves before anything else. -/
def collected (s : State) (src : Nat) : State := (s.captureFirst src).stick src

theorem takeEvent_masked (h : s.sev src = 0) : s.takeEvent src = s := by
  unfold State.takeEvent
  rw [h]
  rfl

theorem takeEvent_note (h : s.sev src = 1) : s.takeEvent src = collected s src := by
  unfold State.takeEvent
  rw [h]
  rfl

theorem takeEvent_base (h : s.sev src = 3) : s.takeEvent src = (collected s src).baseEvent src := by
  unfold State.takeEvent
  rw [h]
  rfl

section
variable (h : s.sev src = 2)
include h

theorem takeEvent_incident : s.takeEvent src
    = if (collected s src).flag F.FLT_INC_OPEN = true then (collected s src).mergeIncident src
      else if (s.reg (R.FLT_STICKY (src / 32))).getLsbD (src % 32) = true then collected s src
      else (collected s src).openIncident src := by
  unfold State.takeEvent
  rw [h, bit_lsb]
  rfl

theorem takeEvent_merges (ho : (collected s src).flag F.FLT_INC_OPEN = true) :
    s.takeEvent src = (collected s src).mergeIncident src := (takeEvent_incident h).trans (if_pos ho)

theorem takeEvent_stands (ho : (collected s src).flag F.FLT_INC_OPEN = false)
    (hb : (s.reg (R.FLT_STICKY (src / 32))).getLsbD (src % 32) = true) : s.takeEvent src = collected s src := by
  rw [takeEvent_incident h, if_neg fun c => Bool.false_ne_true (ho.symm.trans c), if_pos hb]

theorem takeEvent_opens (ho : (collected s src).flag F.FLT_INC_OPEN = false)
    (hb : (s.reg (R.FLT_STICKY (src / 32))).getLsbD (src % 32) = false) : s.takeEvent src = (collected s src).openIncident src := by
  rw [takeEvent_incident h, if_neg fun c => Bool.false_ne_true (ho.symm.trans c),
    if_neg fun c => Bool.false_ne_true (hb.symm.trans c)]

end

theorem stick_sets (s : State) (src : Nat) :
    ((s.stick src).reg (R.FLT_STICKY (src / 32))).getLsbD (src % 32) = true := by
  unfold State.stick
  rw [State.reg_setReg_same, BitVec.getLsbD_or, BitVec.getLsbD_ofNat, Nat.testBit_two_pow_self,
    decide_eq_true (Nat.mod_lt src (by decide)), Bool.and_true, Bool.or_true]

theorem captureFirst_taken (h : s.flag F.FLT_FIRST_VALID = true) : s.captureFirst src = s := if_pos h

section
variable (h : s.flag F.FLT_FIRST_VALID = false)
include h

theorem captureFirst_of : s.captureFirst src
    = ((s.setFld F.FLT_FIRST_SRC src).setFlag F.FLT_FIRST_VALID).setReg64 R.FLT_FIRST_T_LO R.FLT_FIRST_T_HI s.now :=
  if_neg fun c => Bool.false_ne_true (h.symm.trans c)

theorem captureFirst_valid : (s.captureFirst src).flag F.FLT_FIRST_VALID = true := by
  rw [captureFirst_of h, flag_setReg64 _ _ _ _ _ (by decide) (by decide)]
  exact State.flag_setFlag _ _ (Nat.le_of_ble_eq_true rfl) rfl

theorem captureFirst_src (hs : src < 384) : (s.captureFirst src).fld F.FLT_FIRST_SRC = src := by
  rw [captureFirst_of h, fld_setReg64 _ _ _ _ _ (by decide) (by decide)]
  refine (State.fld_setFld_apart _ _ _ _ (Nat.le_of_ble_eq_true rfl) (.inr (.inr (Nat.le_of_ble_eq_true rfl)))).trans ?_
  refine (State.fld_setFld_same s F.FLT_FIRST_SRC src (Nat.le_of_ble_eq_true rfl)).trans ?_
  exact Nat.mod_eq_of_lt (by show src < 2 ^ 9; omega)

theorem captureFirst_time : (s.captureFirst src).reg R.FLT_FIRST_T_LO = BitVec.ofNat 32 s.now := by
  rw [captureFirst_of h]
  unfold State.setReg64
  rw [State.reg_setReg_ne _ _ (by decide), State.reg_setReg_same]

end

theorem escNs_bounds (s : State) (src : Nat) : 1000 ≤ s.escNs src ∧ s.escNs src ≤ 1000000000 := by
  unfold State.escNs
  omega

theorem notice_unheard (h : s.usableRing (s.reg R.FLT_NRING).toNat 2 = none) (a b c d : Nat) : s.notice a b c d = s :=
  if_pos (by rw [h]; rfl)

/-! ### Reaction sets -/

theorem react_none (s : State) : s.react 0 = s := (react0 s 0 rfl).trans rfl

theorem react_blank (s : State) : s.react 1 = (s.setFlag F.FLT_PINS_BLANKED).reactSpoil true := (react0 s 1 rfl).trans rfl

theorem react_spoil (s : State) : s.react 2 = s.reactSpoil false := (react0 s 2 rfl).trans rfl

theorem react_stop (s : State) : s.react 4 = s.safeStop := (react0 s 4 rfl).trans rfl

theorem react_drydown (s : State) : s.react 8 = s.drydown 6 0 0 false := (react0 s 8 rfl).trans rfl

end Sys2Proof.Proofs.FaultCollector
end

