-- ==== Sys2Proof/Proofs/AccordLoss.lean ====
section
/-!
PROOFS. What completes a storage command leaves the accord's registers as they are, and so a lost accord link stays noted
(R455).
-/
namespace Sys2Proof.Proofs.AccordLoss

open Sys2Proof.Machine
open Sys2Proof.Laws.Writes
open Sys2Proof.Laws.Accord
open Sys2Proof.Laws.Gate

/-- No register past the cores' windows changes, and no event raised is lost. -/
structure Steady (s t : State) : Prop where
  reg : ∀ k, 0x200000 ≤ k → t.reg k = s.reg k
  raised : ∀ n ∈ s.flt.raised, n ∈ t.flt.raised

theorem Steady.refl (s : State) : Steady s s := ⟨fun _ _ => rfl, fun _ h => h⟩

theorem Steady.trans {s t u : State} (a : Steady s t) (b : Steady t u) : Steady s u :=
  ⟨fun k h => (b.reg k h).trans (a.reg k h), fun n h => b.raised n (a.raised n h)⟩

theorem steady_of {s t : State} (hr : t.regs = s.regs) (hu : t.fuses = s.fuses) (hf : t.flt = s.flt) : Steady s t :=
  ⟨fun k _ => by unfold State.reg; rw [hr, hu], fun n h => by rw [hf]; exact h⟩

theorem steady_setReg (s : State) {j : Nat} (v : Word) (h : j < 0x200000) : Steady s (s.setReg j v) :=
  ⟨fun k hk => State.reg_setReg_ne s v (by omega), fun _ h => h⟩

theorem steady_setFld (s : State) {f : Fld} (v : Nat) (h : f.key < 0x200000) : Steady s (s.setFld f v) := steady_setReg s _ h

theorem steady_setFlag (s : State) {f : Fld} (h : f.key < 0x200000) : Steady s (s.setFlag f) := steady_setReg s _ h

theorem steady_addSat (s : State) {f : Fld} (n : Nat) (h : f.key < 0x200000) : Steady s (s.addSat f n) := steady_setReg s _ h

theorem steady_raise (s : State) (n : Nat) : Steady s (s.raise n) := ⟨fun _ _ => rfl, fun _ h => List.mem_append_left _ h⟩

theorem steady_raiseIf (s : State) (b : Bool) (n : Nat) : Steady s (s.raiseIf b n) := by
  cases b
  · exact .refl s
  · exact steady_raise s n

theorem steady_ite {c : Prop} [Decidable c] {s t u : State} (h : Steady s t) (h' : Steady s u) : Steady s (if c then t else u) := by
  split
  · exact h
  · exact h'

theorem steady_each {β : Type} {f : State → β → State} (h : ∀ t x, Steady t (f t x)) (s : State) (l : List β) :
    Steady s (s.each l f) := by
  unfold State.each
  induction l generalizing s with
  | nil => exact .refl s
  | cons x r ih => exact (h s x).trans (ih _)

/-! ### Writes to memory -/

theorem steady_wrBytes (s : State) (a : Nat) (l : List Byte) : Steady s (s.wrBytes a l) := by
  rw [State.wrBytes_eq]
  exact steady_of rfl rfl rfl

theorem steady_dramUe (s : State) (req a : Nat) : Steady s (s.dramUe req a) := by
  have h1 : Steady s (s.addSat F.MEM_UE_INFO_COUNT 1) := steady_addSat _ _ (Nat.le_of_ble_eq_true rfl)
  unfold State.dramUe
  refine (Steady.trans ?_ (steady_raise _ _)).trans (steady_raiseIf _ _ _)
  split
  · exact h1
  · refine h1.trans (((Steady.trans ?_ (steady_setFld _ _ ?_)).trans (steady_setFld _ _ ?_)).trans (steady_setFld _ _ ?_))
    · exact (steady_setReg _ _ (Nat.le_of_ble_eq_true rfl)).trans (steady_setReg _ _ (Nat.le_of_ble_eq_true rfl))
    all_goals exact Nat.le_of_ble_eq_true rfl

theorem steady_memst (s : State) (m : MemSt) : Steady s { s with memst := m } := steady_of rfl rfl rfl

theorem steady_rateCheck (s : State) : Steady s s.rateCheck := by
  unfold State.rateCheck
  split
  · exact .refl s
  · split
    · exact ((steady_memst s _).trans (steady_setFlag _ (Nat.le_of_ble_eq_true rfl))).trans (steady_raise _ _)
    · exact .refl s

theorem steady_dramCe (s : State) (a k : Nat) : Steady s (s.dramCe a k) := by
  have hb : bits a 8 2 < 4 := bits_lt _ _ _
  have hk : (if k = 1 then F.MEM_CE_CNT_ONE (bits a 8 2) else F.MEM_CE_CNT_TWO (bits a 8 2)).key < 0x200000 := by
    split <;> (show R.MEM_CE_CNT _ < _; unfold R.MEM_CE_CNT; omega)
  have h1 := (steady_addSat s 1 hk).trans (steady_raise _ 200)
  unfold State.dramCe
  dsimp only
  generalize State.raise _ 200 = u at h1
  exact (h1.trans (steady_memst u _)).trans (steady_rateCheck _)

theorem steady_localUe (s : State) {n : Nat} (off : Nat) (d : Bool) (h : n < 24) : Steady s (s.localUe n off d) := by
  have hk : R.CRS_ECC_ADDR n < 0x200000 := by unfold R.CRS_ECC_ADDR; omega
  unfold State.localUe
  refine Steady.trans ?_ (steady_raise _ _)
  split
  · exact .refl s
  · exact ((steady_setFld _ _ hk).trans (steady_setFld _ _ hk)).trans (steady_setFld _ _ hk)

/-- A word met by a read is corrected, changed or recorded. -/
theorem steady_eccMeet (s : State) (req a p : Nat) : Steady s (s.eccMeet req a p).1 := by
  have clean : ∀ u, Steady s { s with upsets := u } := fun u => steady_of rfl rfl rfl
  have miss : ∀ u a n v, Steady s (({ s with upsets := u } : State).wrLe a n v) := fun u a n v =>
    (clean u).trans (steady_wrBytes _ _ _)
  have count : ∀ {n}, n < 24 → R.CRS_ECC_CNT n < 0x200000 := fun h => by unfold R.CRS_ECC_CNT; omega
  unfold State.eccMeet
  cases hr : s.region a with
  | dram =>
    dsimp only
    cases eccDram (s.rdLe a 8) p with
    | good => exact clean _
    | corrected k => exact (clean _).trans (steady_dramCe _ _ _)
    | wrong f seen =>
      cases seen
      · exact miss _ _ _ _
      · exact (miss _ _ _ _).trans (steady_dramCe _ _ _)
    | uncorrectable => exact steady_dramUe _ _ _
  | mram =>
    dsimp only
    cases eccDram (s.rdLe a 8) p with
    | good => exact clean _
    | corrected k => exact clean _
    | wrong f seen => exact miss _ _ _ _
    | uncorrectable => exact steady_raise _ _
  | iram n =>
    have hn := region_lt s a n (.inl hr)
    dsimp only
    cases eccLocal p with
    | good => exact clean _
    | corrected k => exact (clean _).trans (steady_addSat _ _ (count hn))
    | wrong f seen => exact miss _ _ _ _
    | uncorrectable => exact steady_localUe _ _ _ hn
  | dataRam n =>
    have hn := region_lt s a n (.inr hr)
    dsimp only
    cases eccLocal p with
    | good => exact clean _
    | corrected k => exact (clean _).trans (steady_addSat _ _ (count hn))
    | wrong f seen => exact miss _ _ _ _
    | uncorrectable => exact steady_localUe _ _ _ hn
  | regs => exact .refl s
  | unmapped => exact .refl s

theorem steady_wordWritten (s : State) (a : Nat) : Steady s (s.wordWritten a) := by
  have upset : ∀ (s : State) u, Steady s { s with upsets := u } := fun s u => steady_of rfl rfl rfl
  unfold State.wordWritten
  dsimp only
  split
  · exact ((upset s _).trans (upset _ _)).trans (steady_setFld _ 0 (Nat.le_of_ble_eq_true rfl))
  · exact upset s _

theorem steady_writeWord (s : State) (req a : Nat) (l : List Byte) : Steady s (s.writeWord req a l).1 := by
  unfold State.writeWord
  dsimp only
  split
  · exact (steady_wrBytes _ _ _).trans (steady_wordWritten _ _)
  · split
    · exact steady_wrBytes _ _ _
    · have hm := steady_eccMeet s req (a / eccWordBytes a * eccWordBytes a) ‹Nat›
      generalize s.eccMeet _ _ _ = x at hm ⊢
      obtain ⟨t, b⟩ := x
      cases b
      · exact hm.trans (steady_wrBytes _ _ _)
      · exact hm

theorem steady_memWriteWords (s : State) (req a : Nat) (l : List Byte) : Steady s (s.memWriteWords req a l).1 := by
  unfold State.memWriteWords
  suffices H : ∀ (q : List (Nat × List Byte)) (r : State × Bool), Steady s r.1 → Steady s (q.foldl
      (fun r e => match r.1.writeWord req e.1 e.2 with | (t, bad) => (t, r.2 || bad)) r).1 from H _ _ (.refl s)
  intro q
  induction q with
  | nil => exact fun r h => h
  | cons e q ih => exact fun r h => ih _ (h.trans (steady_writeWord _ _ _ _))

/-! ### Completions -/

theorem steady_ringAppend (s : State) (n : Nat) (r : Ring) (e : List Byte) : Steady s (s.ringAppend n r e) := by
  have h := steady_memWriteWords s reqRing (r.entryAddr r.prod) e
  unfold State.ringAppend
  dsimp only
  generalize (s.memWriteWords reqRing (r.entryAddr r.prod) e).1 = u at h
  exact h.trans (steady_of (by simp only [State.notify_frame]) (by simp only [State.notify_frame]) (by simp only [State.notify_frame]))

theorem steady_sendHost (s : State) (type tag addr : Nat) (l : List Byte) : Steady s (s.sendHost type tag addr l) := by
  unfold State.sendHost State.sendPkt
  split
  · exact .refl s
  · split
    · exact steady_of rfl rfl rfl
    · exact .refl s

/-- A fault raised for a completion's status. -/
def faulted (s : State) : Option Nat → State
  | some f => s.raise f
  | none => s

theorem steady_faulted (s : State) (o : Option Nat) : Steady s (faulted s o) := by
  cases o with
  | none => exact .refl s
  | some f => exact steady_raise s f

theorem steady_pushCpl (s : State) (c : StqCmd) : Steady s (s.pushCpl c) := by
  unfold State.pushCpl
  split
  · next status bad t _ _ =>
    split
    · exact .refl s
    · next n r _ =>
      split
      · refine Steady.trans (t := faulted _ (cplFault status)) (Steady.trans ?_ (steady_faulted _ _)) (steady_of rfl rfl rfl)
        have h1 := steady_ringAppend s n r (cplEntry c status bad s.now)
        generalize s.ringAppend n r (cplEntry c status bad s.now) = u at h1 ⊢
        have h2 : Steady s (if t.hcopy = 0 then u else
            u.sendHost 0x04 0 (t.hcopy + 64 * (r.prod % r.size)) (cplEntry c status bad s.now)) :=
          steady_ite h1 (h1.trans (steady_sendHost _ _ _ _ _))
        exact steady_ite (h2.trans (steady_sendHost _ _ _ _ _)) h2
      · exact .refl s
  · exact .refl s

theorem steady_checkWrites (s : State) : Steady s s.checkWrites := by
  refine steady_each (fun t a => ?_) s _
  unfold State.checkWrite
  split
  · split
    · exact (steady_of (s := t) (t := t.modCmd a (fun c => { c with ended := some (0, noBad), slots := [] })) rfl rfl rfl).trans
        (steady_each (fun u c => steady_pushCpl u c) _ _)
    · exact .refl t
  · exact .refl t

/-! ### A lost link -/

/-- A field below the mirror's own is kept when it is set. -/
theorem setMirror_fld (s : State) (m : Nat) {f : Fld} (h : F.ACD_STATUS_MIRROR_OK.apart f) : (s.setMirror m).fld f = s.fld f :=
  (raiseIf_fld _ _ _ _).trans (State.fld_setFld_apart s _ _ _ (Nat.le_of_ble_eq_true rfl) h)

theorem setMirror_flag (s : State) (m : Nat) {f : Fld} (hw : f.width = 1) (h : F.ACD_STATUS_MIRROR_OK.apart f) :
    (s.setMirror m).flag f = s.flag f :=
  (raiseIf_flag _ _ _ _).trans (setFld_flag_apart s _ _ _ (Nat.le_of_ble_eq_true rfl) hw h)

theorem setMirror_mirror (s : State) (m : Nat) : (s.setMirror m).fld F.ACD_STATUS_MIRROR_OK = m % 2 ^ 4 :=
  (raiseIf_fld _ _ _ _).trans (State.fld_setFld_same s F.ACD_STATUS_MIRROR_OK m (Nat.le_of_ble_eq_true rfl))

/-- A link that was lost as the registers note it. -/
structure Lost (t : State) : Prop where
  lost : t.flag F.ACD_STATUS_LOST = true
  joined : t.flag F.ACD_STATUS_JOINED = false
  mirror : t.fld F.ACD_STATUS_MIRROR_OK = 0
  state : t.acdState = 0
  raised : 376 ∈ t.flt.raised

/-- What the loss of a link writes. -/
def noted (s : State) : State := (((s.setFlag F.ACD_STATUS_LOST).raise 376).clrFlag F.ACD_STATUS_JOINED).setMirror 0

theorem noted_lost {s : State} (h : s.acdState = 0) : Lost (noted s) := by
  have l1 : (s.setFlag F.ACD_STATUS_LOST).flag F.ACD_STATUS_LOST = true := State.flag_setFlag _ _ (Nat.le_of_ble_eq_true rfl) rfl
  have s1 : (s.setFlag F.ACD_STATUS_LOST).fld F.ACD_STATUS_STATE = 0 := (State.fld_setFld_apart _ _ _ _
    (Nat.le_of_ble_eq_true rfl) (.inr (.inr (Nat.le_of_ble_eq_true rfl)))).trans h
  unfold noted
  generalize s.setFlag F.ACD_STATUS_LOST = u at l1 s1 ⊢
  have l2 := (raise_flag u 376 F.ACD_STATUS_LOST).trans l1
  have s2 := (raise_fld u 376 F.ACD_STATUS_STATE).trans s1
  have r2 := raise_mem u 376
  generalize u.raise 376 = w at l2 s2 r2 ⊢
  have l3 : (w.clrFlag F.ACD_STATUS_JOINED).flag F.ACD_STATUS_LOST = true := (setFld_flag_apart _ _ _ _
    (Nat.le_of_ble_eq_true rfl) rfl (.inr (.inl (Nat.le_of_ble_eq_true rfl)))).trans l2
  have s3 : (w.clrFlag F.ACD_STATUS_JOINED).fld F.ACD_STATUS_STATE = 0 := (State.fld_setFld_apart _ _ _ _
    (Nat.le_of_ble_eq_true rfl) (.inr (.inr (Nat.le_of_ble_eq_true rfl)))).trans s2
  have j3 : (w.clrFlag F.ACD_STATUS_JOINED).flag F.ACD_STATUS_JOINED = false := State.flag_clrFlag _ _ (Nat.le_of_ble_eq_true rfl) rfl
  have r3 : 376 ∈ (w.clrFlag F.ACD_STATUS_JOINED).flt.raised := r2
  generalize w.clrFlag F.ACD_STATUS_JOINED = x at l3 s3 j3 r3 ⊢
  exact ⟨(setMirror_flag x 0 rfl (.inr (.inl (Nat.le_of_ble_eq_true rfl)))).trans l3,
    (setMirror_flag x 0 rfl (.inr (.inr (Nat.le_of_ble_eq_true rfl)))).trans j3, setMirror_mirror x 0,
    (setMirror_fld x 0 (.inr (.inr (Nat.le_of_ble_eq_true rfl)))).trans s3, raiseIf_mem _ _ _ _ r3⟩

theorem Lost.steady {s t : State} (h : Lost s) (k : Steady s t) : Lost t := by
  have e : t.reg R.ACD_STATUS = s.reg R.ACD_STATUS := k.reg _ (by decide)
  obtain ⟨h1, h2, h3, h4, h5⟩ := h
  have hfld : ∀ f : Fld, f.key = R.ACD_STATUS → t.fld f = s.fld f := fun f hf => by
    unfold State.fld
    rw [hf, e]
  have hflag : ∀ f : Fld, f.key = R.ACD_STATUS → t.flag f = s.flag f := fun f hf => by
    unfold State.flag
    rw [hf, e]
  exact ⟨(hflag _ rfl).trans h1, (hflag _ rfl).trans h2, (hfld _ rfl).trans h3, (hfld _ rfl).trans h4, k.raised _ h5⟩

section
variable {s : State} {down : Nat}

theorem effAccordLinkLost_idle (h4 : s.acdState ≠ 4) (hd : s.acd.downSince = none) : effAccordLinkLost down s = s :=
  if_pos (.inr ⟨h4, hd⟩)

section
variable (ha : s.hasAccord = true) (h : s.acdState = 4 ∨ s.acd.downSince ≠ none)
include ha h

/-- The link as it goes down, with the time it has been down since. -/
def wentDown (s : State) (down : Nat) : State :=
  (s.acdDown (some s.now)).modAcd (fun a => { a with downSince := some (s.acd.downSince.getD (s.now - down)) })

omit h in
theorem wentDown_state : (wentDown s down).acdState = 0 := by
  have e : (s.acdDown (some s.now)).acdState = 0 := by
    by_cases h0 : s.acdState = 0
    · have e0 : s.acdDown (some s.now) = s := if_pos (.inr h0)
      rw [e0, h0]
    · exact (acdDown_facts s _ ha h0).1
  unfold wentDown
  generalize s.acdDown (some s.now) = u at e ⊢
  exact e

theorem effAccordLinkLost_of : effAccordLinkLost down s
    = if s.now ≤ s.acd.downSince.getD (s.now - down) + 1000000 then wentDown s down
      else ((noted (wentDown s down)).modStq (fun q => { q with cmds := q.cmds.map (fun c => { c with unheld := [] }) })).checkWrites.modAcd
        (fun a => { a with
          downSince := none, joining := false, stepped := false, handover := false, handoverDue := false, asked := none }) := by
  refine if_neg ?_
  rintro (c | ⟨c1, c2⟩)
  · exact Bool.false_ne_true (c.symm.trans ha)
  · exact h.elim c1 fun e => e c2

theorem effAccordLinkLost_lost (hl : s.acd.downSince.getD (s.now - down) + 1000000 < s.now) : Lost (effAccordLinkLost down s) := by
  have hn := noted_lost (wentDown_state (down := down) ha)
  rw [effAccordLinkLost_of ha h, if_neg (Nat.not_le.2 hl)]
  generalize noted (wentDown s down) = u at hn ⊢
  have h2 : Steady u (u.modStq (fun q => { q with cmds := q.cmds.map (fun c => { c with unheld := [] }) })) := steady_of rfl rfl rfl
  refine hn.steady ((h2.trans (steady_checkWrites _)).trans ?_)
  generalize State.checkWrites _ = w
  exact steady_of rfl rfl rfl

end

end

end Sys2Proof.Proofs.AccordLoss
end

