-- ==== Sys2Proof/Proofs/AccordLink.lean ====
section
/-!
PROOFS. The accord link, its packets and the ownership token (R445, R446, R451, R452, R456).
-/
namespace Sys2Proof.Proofs.AccordLink

open Sys2Proof.Machine
open Sys2Proof.Laws.Writes
open Sys2Proof.Laws.Accord
open Sys2Proof.Proofs.TalLink

variable {s : State}

/-! ### Training (R445) -/

section
variable {v : Word}

/-- What the enable makes of the link. -/
def enabled (s : State) (v : Word) : State :=
  if bits v.toNat 0 1 = 0 then (s.putFlag F.ACD_CTRL_EN (bits v.toNat 0 1 == 1)).acdDown none
  else if s.acdState = 0 ∧ s.acd.failedAt = none then (s.putFlag F.ACD_CTRL_EN (bits v.toNat 0 1 == 1)).acdStart
  else s.putFlag F.ACD_CTRL_EN (bits v.toNat 0 1 == 1)

/-- A handover is asked for and may be made. -/
def HandsOver (s : State) (v : Word) : Prop :=
  bits v.toNat 1 1 = 1 ∧ bits v.toNat 8 8 = 0x5A ∧ (enabled s v).isActive = true ∧ (enabled s v).fld F.ACD_STATUS_MIRROR_OK = 15

theorem effAcdCtrl_of : effAcdCtrl v s = (let on := enabled s v
    if bits v.toNat 1 1 = 1 ∧ bits v.toNat 8 8 = 0x5A ∧ on.isActive = true ∧ on.fld F.ACD_STATUS_MIRROR_OK = 15 then
      (if on.lowestLocked.isNone then on.giveUp else on.modAcd (fun a => { a with handover := true }))
    else on) := by
  have e : enabled s v = (let en := s.putFlag F.ACD_CTRL_EN (bits v.toNat 0 1 == 1)
      if bits v.toNat 0 1 = 0 then en.acdDown none
      else if en.acdState = 0 ∧ en.acd.failedAt = none then en.acdStart else en) := by
    dsimp only
    rw [acdState_en, acd_en]
    rfl
  rw [e]
  exact ctrl_eq s v

theorem effAcdCtrl_keeps (h : ¬HandsOver s v) : effAcdCtrl v s = enabled s v := effAcdCtrl_of.trans (if_neg h)

theorem effAcdCtrl_hands (h : HandsOver s v) : effAcdCtrl v s = if (enabled s v).lowestLocked = none then (enabled s v).giveUp
    else (enabled s v).modAcd (fun a => { a with handover := true }) :=
  (effAcdCtrl_of.trans (if_pos h)).trans (if_congr Option.isNone_iff_eq_none rfl rfl)

end

section
variable (ha : s.hasAccord = true)
include ha

theorem has_not_false : ¬s.hasAccord = false := fun c => Bool.false_ne_true (c.symm.trans ha)

/-- A step of training comes too late. -/
def Late (s : State) : Prop := (s.pl 2).stepAt + stepLimit s.acdState < s.now

/-- The time of a step of training is over. -/
def Due (s : State) : Prop := (s.pl 2).stepAt + stepLimit s.acdState ≤ s.now

theorem effAccordTrainStep_late (h : s.acdState = 1 ∨ s.acdState = 2) (hl : Late s) :
    effAccordTrainStep s = s.acdDown (some s.now) :=
  (if_neg (has_not_false ha)).trans (if_pos ⟨h, decide_eq_true hl⟩)

theorem effAccordTrainStep_timely (h : s.acdState = 1 ∨ s.acdState = 2 → ¬Late s) : effAccordTrainStep s
    = if s.acdState = 1 then (s.setFld F.ACD_STATUS_STATE 2).modLink 2 (fun k => { k with stepAt := s.now })
      else if s.acdState = 2 then s.acdHello else s :=
  (if_neg (has_not_false ha)).trans (if_neg fun c => h c.1 (of_decide_eq_true (p := (s.pl 2).stepAt + stepLimit s.acdState < s.now) c.2))

theorem effAccordTrainStep_locks (h : s.acdState = 1) (hl : ¬Late s) : effAccordTrainStep s
    = (s.setFld F.ACD_STATUS_STATE 2).modLink 2 (fun k => { k with stepAt := s.now }) :=
  (effAccordTrainStep_timely ha fun _ => hl).trans (if_pos h)

theorem effAccordTrainStep_greets (h : s.acdState = 2) (hl : ¬Late s) : effAccordTrainStep s = s.acdHello :=
  (effAccordTrainStep_timely ha fun _ => hl).trans ((if_neg (by omega)).trans (if_pos h))

theorem effAccordTrainStep_still (h1 : s.acdState ≠ 1) (h2 : s.acdState ≠ 2) : effAccordTrainStep s = s :=
  (effAccordTrainStep_timely ha fun c => c.elim (absurd · h1) (absurd · h2)).trans ((if_neg h1).trans (if_neg h2))

omit ha in
theorem effAccordTrainTimeout_due (h1 : 1 ≤ s.acdState) (h3 : s.acdState ≤ 3) (hd : Due s) :
    effAccordTrainTimeout s = s.acdDown (some s.now) := if_pos ⟨h1, h3, decide_eq_true hd⟩

omit ha in
theorem effAccordTrainTimeout_not (h : s.acdState = 0 ∨ 3 < s.acdState ∨ ¬Due s) : effAccordTrainTimeout s = s := by
  refine if_neg ?_
  rintro ⟨c1, c2, c3⟩
  rcases h with h | h | h
  · omega
  · omega
  · exact h (of_decide_eq_true (p := (s.pl 2).stepAt + stepLimit s.acdState ≤ s.now) c3)

theorem acdDown_step (f : Option Nat) (h : s.acdState ≠ 0) : (s.acdDown f).acd.failStep = s.acdState := by
  have e : s.acdDown f = ((s.setFld F.ACD_STATUS_STATE 0).modLink 2 (fun k => { k.cleared with failedAt := f })).modAcd (fun a => { a with
      failedAt := f, failStep := s.acdState, helloSent := false
      downSince := if s.acdState = 4 then some s.now else a.downSince }) := if_neg (not_or.2 ⟨has_not_false ha, h⟩)
  rw [e]
  rfl

omit ha in
theorem retry_over : (match s.acd.failedAt with | none => true | some t => decide (t + 10000000 ≤ s.now)) = true
    ↔ ∀ t0, s.acd.failedAt = some t0 → t0 + 10000000 ≤ s.now := by
  cases s.acd.failedAt with
  | none => simp
  | some t => simp

theorem effAccordTrainRetry_starts (h : s.acdState = 0 ∧ s.flag F.ACD_CTRL_EN = true
    ∧ (∀ t0, s.acd.failedAt = some t0 → t0 + 10000000 ≤ s.now)) : effAccordTrainRetry s = s.acdStart :=
  if_pos ⟨ha, h.1, h.2.1, retry_over.2 h.2.2⟩

omit ha in
theorem effAccordTrainRetry_not (h : s.acdState ≠ 0 ∨ s.flag F.ACD_CTRL_EN = false
    ∨ (∃ t0, s.acd.failedAt = some t0 ∧ s.now < t0 + 10000000)) : effAccordTrainRetry s = s := by
  refine if_neg ?_
  rintro ⟨_, c1, c2, c3⟩
  rcases h with h | h | ⟨t0, h, hl⟩
  · exact h c1
  · exact Bool.false_ne_true (h.symm.trans c2)
  · exact Nat.not_lt.2 (retry_over.1 c3 t0 h) hl

/-! ### Packets (R446 to R450, R457) -/

section
variable {q : PktIn} {type : Nat} {f : State → State}

omit ha in
theorem accordRow_other (h : q.pkt.type ≠ type) : s.accordRow type q f = s := if_neg h

theorem accordRow_own (h : q.pkt.type = type) : s.accordRow type q f = s.recvPkt 2 q (fun t => (f t).giveCredit 2 q.pkt) :=
  (if_pos h).trans (if_neg (has_not_false ha))

theorem accordRow_deaf (hh : s.linkHears 2 = false) : s.accordRow type q f = s := by
  by_cases h : q.pkt.type = type
  · exact (accordRow_own ha h).trans (recvPkt_deaf hh)
  · exact accordRow_other h

section
variable (h : q.pkt.type = type) (hh : s.linkHears 2 = true)
include h hh

theorem accordRow_discarded (hs : ¬SeqOk s 2 q) : s.accordRow type q f = s.discardPkt 2 :=
  (accordRow_own ha h).trans (recvPkt_discarded hh hs)

variable (hs : SeqOk s 2 q)
include hs

theorem accordRow_broken (hl : ¬Legal s 2 q) : s.accordRow type q f = s.protoError 2 :=
  (accordRow_own ha h).trans (recvPkt_broken hh hs hl)

theorem accordRow_taken (hl : Legal s 2 q) :
    s.accordRow type q f = (f (s.modLink 2 (Sys2Proof.Laws.Packets.rxf 2 q))).giveCredit 2 q.pkt :=
  (accordRow_own ha h).trans (recvPkt_taken hh hs hl)

end

omit ha in
theorem legal_iff (h1 : 1 ≤ q.pkt.type) (h12 : q.pkt.type ≤ 12) : Legal s 2 q ↔ q.reserved = false
    ∧ (s.pl 2).granted.covers (pktClass 2 q.pkt.type) (pktCost q.pkt) = true :=
  ⟨fun ⟨a, _, c⟩ => ⟨a, c⟩, fun ⟨a, c⟩ => ⟨a, decide_eq_true ⟨h1, h12⟩, c⟩⟩

end

/-! ### The active's state (R449) -/

omit ha in
theorem effStateTimer_of : effStateTimer s = if s.lowestLocked = none ∧ s.acd.stateAt + 1000000 ≤ s.now then s.sendState else s := by
  unfold effStateTimer
  refine if_congr ?_ rfl rfl
  rw [Bool.and_eq_true, Option.isNone_iff_eq_none, decide_eq_true_iff]

omit ha in
theorem effStateTimer_not (h : s.lowestLocked.isSome = true ∨ s.isActive = false ∨ s.now < s.acd.stateAt + 1000000) :
    effStateTimer s = s := by
  rw [effStateTimer_of]
  split
  · next c =>
    rcases h with h | h | h
    · exact absurd (c.1 ▸ h : (none : Option Nat).isSome = true) (by decide)
    · exact if_neg fun e => Bool.false_ne_true (h.symm.trans e)
    · exact absurd c.2 (Nat.not_le.2 h)
  · rfl

omit ha in
theorem effStateTimer_sends (h : s.lowestLocked = none ∧ s.isActive = true ∧ s.acd.stateAt + 1000000 ≤ s.now) :
    effStateTimer s = (s.sendAcd 8 0 s.stateBody).modAcd (fun a => { a with stateAt := s.now }) :=
  (effStateTimer_of.trans (if_pos ⟨h.1, h.2.2⟩)).trans (if_pos h.2.1)

/-! ### The token and takeover (R451, R452, R456) -/

theorem mayTake_of : s.mayTake = (!s.flag F.ACD_STATUS_TOKEN && !s.flag F.ACD_STATUS_OWN_IN && (s.isShadow || !s.joined)
    && !s.pwr.phase.dryRuns) := by
  unfold State.mayTake
  rw [ha, Bool.true_and]

theorem ownIn_of (low : Nat) : s.ownIn low = s.putFlag F.ACD_STATUS_OWN_IN (low == 0) := if_pos ha

theorem effOwnInLow_of (low : Nat) : effOwnInLow low s = (let u := s.putFlag F.ACD_STATUS_OWN_IN (low == 0)
    if u.isShadow = true ∧ u.mayTake = true ∧ 200 ≤ low then u.takeOver else u) := by
  unfold effOwnInLow
  rw [ownIn_of ha]
  refine if_congr ?_ rfl rfl
  rw [Bool.and_eq_true, Bool.and_eq_true, decide_eq_true_iff, and_assoc]

theorem effTokenPowerupTake_of (low : Nat) : effTokenPowerupTake low s = (let u := s.putFlag F.ACD_STATUS_OWN_IN (low == 0)
    if u.mayTake = true ∧ u.joined = false ∧ 10000000 ≤ low then u.takeToken else u) := by
  unfold effTokenPowerupTake
  rw [ownIn_of ha]
  refine if_congr ?_ rfl rfl
  rw [Bool.and_eq_true, Bool.and_eq_true, decide_eq_true_iff, Bool.not_eq_true', and_assoc]

omit ha in
theorem effTokenBackoffEnd_none (h : s.acd.backoffUntil = none) (low : Nat) : effTokenBackoffEnd low s = s := by
  unfold effTokenBackoffEnd
  rw [h]

omit ha in
theorem effTokenBackoffEnd_early {t0 : Nat} (h : s.acd.backoffUntil = some t0) (hl : s.now < t0) (low : Nat) :
    effTokenBackoffEnd low s = s := by
  unfold effTokenBackoffEnd
  rw [h]
  exact if_pos hl

theorem effTokenBackoffEnd_ends {t0 : Nat} (h : s.acd.backoffUntil = some t0) (hl : t0 ≤ s.now) (low : Nat) :
    effTokenBackoffEnd low s
      = (let w := (s.putFlag F.ACD_STATUS_OWN_IN (low == 0)).modAcd (fun a => { a with backoffUntil := none })
        if w.mayTake = true ∧ 200 ≤ low then w.takeToken else w) := by
  unfold effTokenBackoffEnd
  rw [h, ownIn_of ha]
  refine (if_neg (Nat.not_lt.2 hl)).trans (if_congr ?_ rfl rfl)
  rw [Bool.and_eq_true, decide_eq_true_iff]

theorem rxTko_of : s.rxTko = (let u := s.putFlag F.ACD_STATUS_OWN_IN false
    if u.isShadow = true ∧ u.mayTake = true then u.takeOver else s) := by
  unfold State.rxTko
  rw [ownIn_of ha]
  exact if_congr Bool.and_eq_true_iff rfl rfl

omit ha in
theorem effTokenConflict_not {both : Nat} (h : s.flag F.ACD_STATUS_TOKEN = false ∨ both < 1000) : effTokenConflict both s = s :=
  if_pos (.inr h)

/-- A conflict as it is noted. -/
def conflicting (s : State) : State := ((s.setFlag F.ACD_STATUS_CONFLICT).setFlag F.ACD_STATUS_OWN_IN).raise 380

theorem effTokenConflict_of {both : Nat} (h : s.flag F.ACD_STATUS_TOKEN = true ∧ 1000 ≤ both) : effTokenConflict both s
    = if s.now ≤ s.acd.tokenAt + 1000000 then ((conflicting s).dropToken.modAcd (fun a => { a with
        backoffUntil := some (s.now + 50000 * (s.freeWord.toNat % 64 + 1)) })).tookFree
      else conflicting s := by
  refine if_neg ?_
  rintro (c | c | c)
  · exact has_not_false ha c
  · exact Bool.false_ne_true (c.symm.trans h.1)
  · exact Nat.not_lt.2 h.2 c

end

end Sys2Proof.Proofs.AccordLink
end

