-- ==== Sys2Proof/Proofs/AccordPackets.lean ====
section
/-!
PROOFS. What the packets of the accord link do (R447 to R449).
-/
namespace Sys2Proof.Proofs.AccordPackets

open Sys2Proof.Machine
open Sys2Proof.Laws.Accord

variable {s : State} {l : List Byte}

theorem rxHello_idle (h : s.acdState ≠ 3) : s.rxHello l = s := if_pos h

/-! ### Why a join is refused (R447) -/

/-- Whether the side that would become the shadow has work. -/
def shadowBusy (s : State) (l : List Byte) : Bool :=
  if s.flag F.ACD_STATUS_TOKEN then entLe l 28 4 == 1 else !s.jobs.isEmpty || !s.pages.isEmpty || !s.timers.isEmpty

/-- The configurations agree. -/
def SameConfig (s : State) (l : List Byte) : Prop := entLe l 12 4 = (s.reg R.ACD_CFGSUM).toNat

/-- The units present that both need agree. -/
def SamePresence (s : State) (l : List Byte) : Prop := (entLe l 8 4 &&& 0xFF0FF) = ((s.reg R.SYS_PRESENCE).toNat &&& 0xFF0FF)

theorem joinReason_token (h : s.flag F.ACD_STATUS_TOKEN = (entLe l 20 4 == 1)) : s.joinReason l = some 1 :=
  if_pos (beq_iff_eq.2 h)

section
variable (h : s.flag F.ACD_STATUS_TOKEN ≠ (entLe l 20 4 == 1))
include h

theorem joinReason_config (hc : ¬SameConfig s l) : s.joinReason l = some 2 :=
  (if_neg fun c => h (beq_iff_eq.1 c)).trans (if_pos hc)

variable (hc : SameConfig s l)
include hc

theorem joinReason_presence (hp : ¬SamePresence s l) : s.joinReason l = some 3 :=
  (if_neg fun c => h (beq_iff_eq.1 c)).trans ((if_neg (not_not_intro hc)).trans (if_pos hp))

variable (hp : SamePresence s l)
include hp

theorem joinReason_matched : s.joinReason l
    = if shadowBusy s l then some 4 else if entLe l 24 4 ≠ s.devNum then some 5 else none :=
  (if_neg fun c => h (beq_iff_eq.1 c)).trans ((if_neg (not_not_intro hc)).trans (if_neg (not_not_intro hp)))

theorem joinReason_busy (hb : shadowBusy s l = true) : s.joinReason l = some 4 := (joinReason_matched h hc hp).trans (if_pos hb)

variable (hb : shadowBusy s l = false)
include hb

theorem joinReason_device (hd : entLe l 24 4 ≠ s.devNum) : s.joinReason l = some 5 := by
  rw [joinReason_matched h hc hp, if_neg fun c => Bool.false_ne_true (hb.symm.trans c), if_pos hd]

theorem joinReason_none (hd : entLe l 24 4 = s.devNum) : s.joinReason l = none := by
  rw [joinReason_matched h hc hp, if_neg fun c => Bool.false_ne_true (hb.symm.trans c), if_neg (not_not_intro hd)]

end

/-! ### TIME (R447) -/

theorem not_active (h : s.isActive = false) : ¬s.isActive = true := fun c => Bool.false_ne_true (h.symm.trans c)

/-- The time of the last TIME packet is noted. -/
def timed (s : State) (l : List Byte) : State := s.modAcd (fun a => { a with lastTimeRx := entLe l 0 8 })

theorem rxTime_active (h : s.isActive = true) : s.rxTime l = (timed s l).sendTime := if_pos h

section
variable (h : s.isActive = false)
include h

theorem rxTime_noEcho (he : entLe l 8 8 = 0) : s.rxTime l = timed s l := (if_neg (not_active h)).trans (if_pos he)

variable (he : entLe l 8 8 ≠ 0)
include he

theorem rxTime_steps (hj : s.acd.joining = true ∧ s.acd.stepped = false) : s.rxTime l
    = { (timed s l).modAcd (fun a => { a with stepped := true }) with
        ptime := BitVec.ofNat 64 (entLe l 0 8 + (s.now - entLe l 8 8) / 2) } :=
  (if_neg (not_active h)).trans ((if_neg he).trans (if_pos hj))

theorem rxTime_trims (hj : s.acd.joining = false ∨ s.acd.stepped = true) : s.rxTime l
    = ((timed s l).modAcd (fun a => { a with trim := clampInt (-100) 100 (-((s.now : Int)
        - ((entLe l 0 8 + (s.now - entLe l 8 8) / 2 : Nat) : Int))) })).setFld F.ACD_PTOFF_OFF
          (ux 16 ((s.now : Int) - ((entLe l 0 8 + (s.now - entLe l 8 8) / 2 : Nat) : Int))) := by
  refine (if_neg (not_active h)).trans ((if_neg he).trans (if_neg ?_))
  rintro ⟨c1, c2⟩
  rcases hj with e | e
  · exact Bool.false_ne_true (e.symm.trans c1)
  · exact Bool.false_ne_true (c2.symm.trans e)

end

/-! ### PAGEQ, GRANT and ACD_STAGE (R448, R449) -/

theorem notShadow_idle (h : s.isShadow = false) : s.rxPageq l = s ∧ s.rxGrant l = s ∧ (∀ a, s.rxStage a l = s) :=
  ⟨if_pos h, if_pos h, fun _ => if_pos h⟩

section
variable (h : s.isShadow = true)
include h

theorem not_notShadow : ¬s.isShadow = false := fun c => Bool.false_ne_true (c.symm.trans h)

theorem rxPageq_unknown (hm : s.matching .queued (l.take 12) = none) :
    s.rxPageq l = s.sendAcd 6 0 (leBytes 4 0 ++ l.take 12) := by
  unfold State.rxPageq
  rw [if_neg (not_notShadow h), hm]

theorem rxPageq_known {i : Nat} {q : Page} {j : Job} (hm : s.matching .queued (l.take 12) = some (i, q))
    (hj : s.jobOf q = some j) : s.rxPageq l = (s.rasterOk j q i (s.startLine j)).1.sendAcd 6 0
      (leBytes 4 (b2n (s.rasterOk j q i (s.startLine j)).2) ++ l.take 12) := by
  unfold State.rxPageq
  rw [if_neg (not_notShadow h), hm]
  dsimp only
  rw [hj]

theorem rxGrant_known {i : Nat} {q : Page} {j : Job} (hm : s.matching .queued ((l.drop 8).take 12) = some (i, q))
    (hj : s.jobOf q = some j) : s.rxGrant l
      = { s with admitQ := s.admitQ.filter (· != i) }.grantPage i q j (entLe l 0 8 % 2 ^ 40) false := by
  unfold State.rxGrant
  rw [if_neg (not_notShadow h), hm]
  dsimp only
  rw [hj]

theorem rxStage_held {a : Nat} {e : Staged} (hm : s.stagedOf (a / 2 ^ 48 % 8) (a % 2 ^ 48) = some e) :
    s.rxStage a l = (s.memWriteWords reqStorage (s.slotAddr e.slot) l).1 := by
  unfold State.rxStage
  dsimp only
  rw [if_neg (not_notShadow h), hm]

theorem rxStage_new {a k : Nat} {rest : List Nat} (hm : s.stagedOf (a / 2 ^ 48 % 8) (a % 2 ^ 48) = none)
    (hf : s.wbufFree 1 = k :: rest) : s.rxStage a l
      = ((s.memWriteWords reqStorage (s.slotAddr k) l).1).stageBlock (a / 2 ^ 48 % 8) (a % 2 ^ 48) k 0 := by
  unfold State.rxStage
  dsimp only
  rw [if_neg (not_notShadow h), hm]
  dsimp only
  rw [hf]

end

/-! ### STATE (R449) -/

theorem rxState_active (h : s.isActive = true) : s.rxState l = s.setMirror (entLe l 0 4) := if_pos h

theorem rxState_apart (h : s.isShadow = false ∧ s.acd.joining = false ∧ s.isActive = false) : s.rxState l = s :=
  (if_neg (not_active h.2.2)).trans (if_pos ⟨h.1, h.2.1⟩)

section
variable (ha : s.isActive = false) (h : s.isShadow = true ∨ s.acd.joining = true)
include ha h

theorem rxState_web : (s.rxState l).web.raw = sx 64 (entLe l 1632 8) ∧ (s.rxState l).web.hw = sx 64 (entLe l 1640 8) := by
  have e : (s.rxState l).web = _ := congrArg (fun x => x.1) (kept_rx s l ha h)
  rw [e]
  exact ⟨rfl, rfl⟩

theorem rxState_motor {n : Nat} (hn : n < 16) : (vget (s.rxState l).mots n).integ = sx 64 (entLe l (1120 + 16 * n) 8)
    ∧ (vget (s.rxState l).mots n).target = entLe l (1128 + 16 * n) 8 := by
  have e : (s.rxState l).mots = (trk s l).mots := congrArg (fun x => x.2.1) (kept_rx s l ha h)
  rw [e]
  unfold vget trk
  simp only [hn, dif_pos, Vector.getElem_ofFn, true_and]
  exact congrArg (fun k => entLe l k 8) (by omega)

theorem rxState_axis {n : Nat} (hn : n < 16) : ((s.rxState l).axis n).pFrac = sx 64 (entLe l (1376 + 16 * n) 8)
    ∧ ((s.rxState l).axis n).vMilli = sx 64 (entLe l (1384 + 16 * n) 8) := by
  have e : (s.rxState l).axes = (trk s l).axes := congrArg (fun x => x.2.2) (kept_rx s l ha h)
  unfold State.axis
  rw [e]
  unfold vget trk
  simp only [hn, dif_pos, Vector.getElem_ofFn, true_and]
  exact congrArg (fun k => sx 64 (entLe l k 8)) (by omega)

end

end Sys2Proof.Proofs.AccordPackets
end

