-- ==== Sys2Proof/Proofs/Service.lean ====
section
/-!
PROOFS. Service: the core test, the disks' service states, the sillage log and boundary scan (R459 to R466, R485, R486).
-/
namespace Sys2Proof.Proofs.Service

open Sys2Proof.Machine
open Sys2Proof.Laws.Writes
open Sys2Proof.Laws.Sillage

variable {s : State}

/-! ### The core test (R459) -/

section
variable {v : Word}

theorem effCoreTest_idle (h : bits v.toNat 5 1 = 0) : effCoreTest v s = s := if_pos h

section
variable (hg : bits v.toNat 5 1 = 1)
include hg

theorem effCoreTest_absent (h : s.hasCore (bits v.toNat 0 5) = false) : effCoreTest v s = s.raise 5 :=
  (if_neg (show ¬bits v.toNat 5 1 = 0 by omega)).trans (if_pos h)

variable (h : s.hasCore (bits v.toNat 0 5) = true)
include h

theorem effCoreTest_of : effCoreTest v s
    = if s.flag (F.CRS_CTRL_RUN (bits v.toNat 0 5)) = true ∨ s.svc.testing ≠ none
        ∨ (∃ e ∈ s.objs, e.2.owner = bits v.toNat 0 5) then s.setFlag F.SYS_CTSTAT_CT_REFUSED
      else { s with svc := { s.svc with testing := some (bits v.toNat 0 5) } }.setFlag F.SYS_CTSTAT_CT_BUSY := by
  refine (if_neg (show ¬bits v.toNat 5 1 = 0 by omega)).trans ((if_neg fun c => Bool.false_ne_true (c.symm.trans h)).trans ?_)
  refine if_congr ?_ rfl rfl
  rw [Bool.or_eq_true, Bool.or_eq_true, List.any_eq_true, Option.isSome_iff_ne_none, or_assoc]
  exact or_congr_right (or_congr_right (exists_congr fun e => and_congr_right fun _ => beq_iff_eq))

theorem effCoreTest_refused (hr : s.flag (F.CRS_CTRL_RUN (bits v.toNat 0 5)) = true ∨ s.svc.testing ≠ none
    ∨ (∃ e ∈ s.objs, e.2.owner = bits v.toNat 0 5)) : effCoreTest v s = s.setFlag F.SYS_CTSTAT_CT_REFUSED :=
  (effCoreTest_of hg h).trans (if_pos hr)

theorem effCoreTest_starts (hr : s.flag (F.CRS_CTRL_RUN (bits v.toNat 0 5)) = false
    ∧ (∀ e ∈ s.objs, e.2.owner ≠ bits v.toNat 0 5) ∧ s.svc.testing = none) : effCoreTest v s
    = { s with svc := { s.svc with testing := some (bits v.toNat 0 5) } }.setFlag F.SYS_CTSTAT_CT_BUSY := by
  obtain ⟨h1, h2, h3⟩ := hr
  refine (effCoreTest_of hg h).trans (if_neg ?_)
  rintro (c | c | ⟨e, he, c⟩)
  · exact Bool.false_ne_true (h1.symm.trans c)
  · exact c h3
  · exact h2 e he c

end

end

theorem effCoreTestDone_none {pass : Bool} (h : s.svc.testing = none) : effCoreTestDone pass s = s := by
  unfold effCoreTestDone
  rw [h]

/-- The core's local memories are cleared when its test is done. -/
def tested (s : State) (n : Nat) : State := { s with svc := { s.svc with testing := none } }.zeroRange (iramBase n) 0x20000

theorem effCoreTestDone_of {pass : Bool} {n : Nat} (h : s.svc.testing = some n) : effCoreTestDone pass s
    = (let s1 := ((tested s n).clrFlag F.SYS_CTSTAT_CT_BUSY).setFlag F.SYS_CTSTAT_CT_DONE
      let failed := s1.fld F.SYS_CTSTAT_CORE_FAIL
      if pass then s1.setFld F.SYS_CTSTAT_CORE_FAIL (clrBit failed n)
      else ((s1.setFld F.SYS_CTSTAT_CORE_FAIL (setBit failed n)).setFlag F.SYS_CTSTAT_CT_FAIL).raise 8) := by
  unfold effCoreTestDone
  rw [h]
  rfl

theorem rd8_of_mem {s t : State} (h : t.mem = s.mem) (a : Nat) : t.rd8 a = s.rd8 a := by
  unfold State.rd8
  rw [h]

theorem coreTestDone_facts {pass : Bool} {n : Nat} (h : s.svc.testing = some n) (hn : n < 24) :
    (effCoreTestDone pass s).svc.testing = none
      ∧ (∀ a, iramBase n ≤ a → a < iramBase n + 0x20000 → (effCoreTestDone pass s).rd8 a = 0)
      ∧ (∀ a, a < iramBase n ∨ iramBase n + 0x20000 ≤ a → (effCoreTestDone pass s).rd8 a = s.rd8 a)
      ∧ (effCoreTestDone pass s).flag F.SYS_CTSTAT_CT_BUSY = false
      ∧ (effCoreTestDone pass s).flag F.SYS_CTSTAT_CT_DONE = true
      ∧ bit ((effCoreTestDone pass s).fld F.SYS_CTSTAT_CORE_FAIL) n = !pass
      ∧ (pass = false → (effCoreTestDone pass s).flag F.SYS_CTSTAT_CT_FAIL = true
        ∧ (effCoreTestDone pass s).flt.raised = s.flt.raised ++ [8]) := by
  obtain ⟨hm, hsvc, hb, hd, hf, hp⟩ := ct_facts (tested s n) n pass hn
  rw [← effCoreTestDone_of h] at hm hsvc hb hd hf hp
  refine ⟨?_, fun a h1 h2 => (rd8_of_mem hm a).trans (zr_in _ _ _ _ h1 h2), fun a ha => (rd8_of_mem hm a).trans (zr_out _ _ _ _ ha),
    hb, hd, hf, hp⟩
  rw [hsvc]
  rfl

/-! ### The disks' service states (R460) -/

section
variable {d x : Nat}

theorem setSvc_absent (h : s.hasDch d = false) : s.setSvc d x = s.raiseIf (x != 0) 5 := if_pos h

section
variable (h : s.hasDch d = true)
include h

theorem setSvc_same (hx : x = 3 ∨ x = s.dcsvc d) : s.setSvc d x = s :=
  (if_neg fun c => Bool.false_ne_true (c.symm.trans h)).trans (if_pos hx)

theorem setSvc_of (h3 : x ≠ 3) (ho : x ≠ s.dcsvc d) : s.setSvc d x = (let s1 := s.setFld ⟨R.SYS_DCSVC, 2 * d, 2⟩ x
    if x = 0 then (s1.clrFlag (F.DSK_STATUS_OFFLINE d)).volRefresh
    else if s.dcsvc d = 0 then ((((s1.setFlag (F.DSK_STATUS_OFFLINE d)).volRefresh).stopPass d).dskDropAll d 7).park d
    else s1) :=
  (if_neg fun c => Bool.false_ne_true (c.symm.trans h)).trans (if_neg (not_or.2 ⟨h3, ho⟩))

theorem setSvc_returns (hx : x = 0) (ho : s.dcsvc d ≠ 0) : s.setSvc d x
    = ((s.setFld ⟨R.SYS_DCSVC, 2 * d, 2⟩ 0).clrFlag (F.DSK_STATUS_OFFLINE d)).volRefresh := by
  subst hx
  exact (setSvc_of h (by decide) (Ne.symm ho)).trans (if_pos rfl)

theorem setSvc_leaves (hx : x = 1 ∨ x = 2) (ho : s.dcsvc d = 0) : s.setSvc d x
    = (((((s.setFld ⟨R.SYS_DCSVC, 2 * d, 2⟩ x).setFlag (F.DSK_STATUS_OFFLINE d)).volRefresh).stopPass d).dskDropAll d 7).park d :=
  (setSvc_of h (by omega) (by omega)).trans ((if_neg (by omega)).trans (if_pos ho))

theorem setSvc_changes (hx : (x = 1 ∨ x = 2) ∧ s.dcsvc d ≠ 0 ∧ x ≠ s.dcsvc d) : s.setSvc d x
    = s.setFld ⟨R.SYS_DCSVC, 2 * d, 2⟩ x :=
  (setSvc_of h (by omega) hx.2.2).trans ((if_neg (by omega)).trans (if_neg hx.2.1))

end

end

/-! ### The sillage log (R463 to R466) -/

theorem effSillageCommit_none (h : s.nvm.queue = []) : effSillageCommit s = s := by
  unfold effSillageCommit
  rw [h]

theorem sillageCommit_record {r : NvmRec} {rest : List NvmRec} (h : s.nvm.queue = r :: rest) (hr : r.payload.length ≤ 92) :
    (effSillageCommit s).rdBytes (mramBase + 128 * (s.nvm.index % 2048)) 128
        = s.recordBody r ++ leBytes 4 (crc32c (s.recordBody r))
      ∧ (∀ x, x < mramBase + 128 * (s.nvm.index % 2048) ∨ mramBase + 128 * (s.nvm.index % 2048) + 128 ≤ x →
        (effSillageCommit s).rd8 x = s.rd8 x) := by
  have hlen : (s.recordBody r ++ leBytes 4 (crc32c (s.recordBody r))).length = 128 := by
    rw [List.length_append, body_len s r hr, leBytes_length]
  rw [commit_eq s r rest h]
  dsimp only
  generalize mramBase + 128 * (s.nvm.index % 2048) = a
  generalize s.recordBody r ++ leBytes 4 (crc32c (s.recordBody r)) = body at hlen ⊢
  refine ⟨(modNvm_rdBytes _ _ _ _).trans (rdB_split _ _ _ _ hlen), fun x hx => ?_⟩
  rw [modNvm_rd8, State.rd8_wrBytes_out _ _ _ _ (by rw [hlen]; exact hx)]
  exact zr_out _ _ _ _ hx

theorem sillageCommit_nvm {r : NvmRec} {rest : List NvmRec} (h : s.nvm.queue = r :: rest) :
    (effSillageCommit s).nvm.queue = rest ∧ (effSillageCommit s).nvm.seq = (s.nvm.seq + 1) % 2 ^ 32
      ∧ (effSillageCommit s).nvm.index = (s.nvm.index + 1) % 2048 := by
  rw [commit_eq s r rest h]
  dsimp only
  rw [modNvm_nvm, State.wrBytes_eq]
  exact ⟨rfl, rfl, rfl⟩

section
variable {v : Word}

theorem effNvmAppCmd_refused (h : bits v.toNat 0 8 < 0x80 ∨ 92 < bits v.toNat 8 8 ∨ s.nvm.append = true) :
    effNvmAppCmd v s = s.setFlag F.NVM_STATUS_CMD_REJ := if_pos h

/-- The payload of a record and the state after its read; what unreadable memory gives is free (log entry 19). -/
def payload (r : State × MemRead) (len : Nat) : State × List Byte :=
  match r.2 with
  | .data l => (r.1, l)
  | _ => (r.1.tookFree, (List.range len).map (Config.freeByte r.1.freeCtr))

theorem payload_data {r : State × MemRead} {b : List Byte} (h : r.2 = .data b) (len : Nat) : payload r len = (r.1, b) := by
  unfold payload
  rw [h]

theorem payload_free {r : State × MemRead} (h : ∀ b, r.2 ≠ .data b) (len : Nat) :
    payload r len = (r.1.tookFree, (List.range len).map (Config.freeByte r.1.freeCtr)) := by
  unfold payload
  split
  · next l hl => exact absurd hl (h l)
  · rfl

/-- A record of the application appended. -/
def appended (p : State × List Byte) (kind : Nat) : State :=
  (p.1.sillage kind p.2).modNvm (fun n => { n with append := n.queue.any (fun q => decide (0x80 ≤ q.kind)) })

theorem effNvmAppCmd_of (h : 0x80 ≤ bits v.toNat 0 8 ∧ bits v.toNat 8 8 ≤ 92 ∧ s.nvm.append = false) : effNvmAppCmd v s
    = appended (payload (s.memRead reqStorage (s.addr40 R.NVM_APP_LO R.NVM_APP_HI) (bits v.toNat 8 8)) (bits v.toNat 8 8))
      (bits v.toNat 0 8) := by
  obtain ⟨h1, h2, h3⟩ := h
  have hn : ¬(F.NVM_APP_CMD_KIND.of v < 0x80 ∨ 92 < F.NVM_APP_CMD_LEN.of v ∨ s.nvm.append = true) := by
    rintro (c | c | c)
    · exact Nat.not_lt.2 h1 c
    · exact Nat.not_lt.2 h2 c
    · exact Bool.false_ne_true (h3.symm.trans c)
  have hkind : F.NVM_APP_CMD_KIND.of v = bits v.toNat 0 8 := rfl
  have hlen : F.NVM_APP_CMD_LEN.of v = bits v.toNat 8 8 := rfl
  unfold effNvmAppCmd
  dsimp only
  rw [if_neg hn, hkind, hlen]
  generalize s.memRead reqStorage (s.addr40 R.NVM_APP_LO R.NVM_APP_HI) (bits v.toNat 8 8) = r
  obtain ⟨t, m⟩ := r
  cases m <;> rfl

section
variable {t : State} {l : List Byte} {kind : Nat} (hk : 0x80 ≤ kind)
include hk

theorem appended_room (h : t.nvm.queue.length < 8) : (appended (t, l) kind).nvm.queue = t.nvm.queue ++ [⟨kind, t.now, t.accBits, l⟩]
    ∧ (appended (t, l) kind).nvm.append = true := by
  have e : t.sillage kind l = t.modNvm (fun n => { n with queue := n.queue ++ [⟨kind, t.now, t.accBits, l⟩] }) :=
    if_pos (by simp [h])
  unfold appended
  dsimp only
  rw [e]
  refine ⟨rfl, ?_⟩
  show List.any (t.nvm.queue ++ [⟨kind, t.now, t.accBits, l⟩]) _ = true
  rw [List.any_append]
  simp [hk]

theorem appended_full (h : 8 ≤ t.nvm.queue.length) : (appended (t, l) kind).nvm.queue = t.nvm.queue
    ∧ 26 ∈ (appended (t, l) kind).flt.raised := by
  have e : t.sillage kind l = (t.addSat F.NVM_STATUS_LOST 1).raise 26 := if_neg (by simp; omega)
  have hn : (t.addSat F.NVM_STATUS_LOST 1).nvm = t.nvm := by simp only [State.addSat_frame]
  unfold appended
  dsimp only
  rw [e, modNvm_nvm]
  generalize t.addSat F.NVM_STATUS_LOST 1 = u at hn
  exact ⟨by rw [← hn]; rfl, raise_mem u 26⟩

/-- What becomes of a record, whatever the read of its payload gave. -/
theorem appended_outcome (r : State × MemRead) (len : Nat) : ∃ (t : State) (l : List Byte), (∀ b, r.2 = .data b → t = r.1 ∧ l = b)
    ∧ ((∀ b, r.2 ≠ .data b) → t = r.1.tookFree ∧ l = (List.range len).map (Config.freeByte r.1.freeCtr))
    ∧ (t.nvm.queue.length < 8 → (appended (payload r len) kind).nvm.queue = t.nvm.queue ++ [⟨kind, t.now, t.accBits, l⟩]
      ∧ (appended (payload r len) kind).nvm.append = true)
    ∧ (8 ≤ t.nvm.queue.length → (appended (payload r len) kind).nvm.queue = t.nvm.queue
      ∧ 26 ∈ (appended (payload r len) kind).flt.raised) := by
  have hd : ∀ b, r.2 = .data b → payload r len = (r.1, b) := fun b hb => payload_data hb len
  have hf : (∀ b, r.2 ≠ .data b) → payload r len = (r.1.tookFree, (List.range len).map (Config.freeByte r.1.freeCtr)) :=
    fun hb => payload_free hb len
  generalize payload r len = x at hd hf ⊢
  obtain ⟨t, l⟩ := x
  exact ⟨t, l, fun b hb => Prod.mk.inj (hd b hb), fun hb => Prod.mk.inj (hf hb), appended_room hk, appended_full hk⟩

end

end

/-! ### Boundary scan (R485, R486) -/

theorem idcode_parts (h : s.fuses.step < 256) : s.idcode < 2 ^ 32 ∧ bits s.idcode 0 1 = 1 ∧ bits s.idcode 1 11 = 0x1D3
    ∧ bits s.idcode 12 16 = 0x5058 ∧ bits s.idcode 28 4 = s.fuses.step / 16 := by
  unfold State.idcode bits
  omega

theorem jtagTake_taken {f : State → State} (h : s.scanTakesPins = true) : s.jtagTake f = f s := if_pos h

theorem jtagTake_bypassed {f : State → State} (h : s.scanTakesPins = false) : s.jtagTake f = s.jtagBypass :=
  if_neg fun c => Bool.false_ne_true (h.symm.trans c)

/-- Where the pins may not be taken every such instruction is BYPASS. -/
theorem exec_bypassed {scan : List Bool} (h : s.scanTakesPins = false) :
    ∀ c ∈ [Instr.jtagExtest scan, .jtagExtestPulse scan, .jtagExtestTrain scan, .jtagClamp, .jtagHighz],
      exec c s = .next s.jtagBypass.finish := by
  intro c hc
  simp only [List.mem_cons, List.not_mem_nil, or_false] at hc
  rcases hc with rfl | rfl | rfl | rfl | rfl <;> exact congrArg (fun t => Host.Outcome.next (State.finish t)) (jtagTake_bypassed h)

end Sys2Proof.Proofs.Service
end

