-- ==== Sys2Proof/Proofs/FaultsAccord.lean ====
section
/-!
PROOFS. Faults, the accord pair and service (R435 to R466, R485, R486).
-/
namespace Sys2Proof.Proofs.FaultsAccord

open Sys2Proof.Machine
open Sys2Proof.Laws.Writes
open Sys2Proof.Laws.Accord
open Sys2Proof.Proofs.FaultCollector
open Sys2Proof.Proofs.AccordLoss
open Sys2Proof.Proofs.AccordLink
open Sys2Proof.Proofs.AccordPackets
open Sys2Proof.Proofs.Service

/-- The instructions that bring an accord packet, with their types and what they do. -/
noncomputable def rows (p : PktIn) : List (Nat × Instr × (State → State)) :=
  [(1, .hello p, fun u => u.rxHello p.pkt.payload), (2, .timePkt p, fun u => u.rxTime p.pkt.payload),
   (3, .hostPkt p, fun u => u.rxHost p.pkt.payload), (4, .acdStage p, fun u => u.rxStage p.pkt.addr p.pkt.payload),
   (5, .pageq p, fun u => u.rxPageq p.pkt.payload), (6, .pagea p, fun u => u.rxPagea p.pkt.payload),
   (7, .grant p, fun u => u.rxGrant p.pkt.payload), (8, .statePkt p, fun u => u.rxState p.pkt.payload),
   (9, .mread p, fun u => u.rxMread p.pkt.payload), (10, .mdata p, fun u => u.rxMdata p.pkt.addr p.pkt.payload),
   (11, .tko p, State.rxTko), (12, .fwmsg p, fun u => u.rxFwmsg p.pkt.payload)]

theorem exec_row {s : State} {p : PktIn} {e : Nat × Instr × (State → State)} (h : e ∈ rows p) :
    exec e.2.1 s = .next (s.accordRow e.1 p e.2.2).finish ∧ 1 ≤ e.1 ∧ e.1 ≤ 12 := by
  simp only [rows, List.mem_cons, List.not_mem_nil, or_false] at h
  rcases h with rfl | rfl | rfl | rfl | rfl | rfl | rfl | rfl | rfl | rfl | rfl | rfl <;> exact ⟨rfl, Nat.le_of_ble_eq_true rfl, Nat.le_of_ble_eq_true rfl⟩

/-- Settles O60: each row has its effect, and each effect its branches. The layout of the accord's payloads is the model's
(log entries 60 to 62), as are when a core test is refused and the disks' service states (log entry 18), the late step of
training (log entry 144) and what a record holds of unreadable memory (log entry 19). -/
theorem faultsAndAccord : Obligations.FaultsAndAccord := by
  unfold Obligations.FaultsAndAccord
  intro s v p src pass scan down low both next
  have hnx : ∀ {a b : State}, a = b → next a = next b := congrArg next
  refine ⟨takeEvent_masked, ⟨takeEvent_note, fun h => ⟨takeEvent_merges h, takeEvent_stands h, takeEvent_opens h⟩, takeEvent_base⟩,
    fun _ => stick_sets s src, captureFirst_taken,
    fun h hs => ⟨captureFirst_valid h, captureFirst_src h hs, captureFirst_time h⟩, (escNs_bounds s src).1, (escNs_bounds s src).2,
    notice_unheard, react_none s, react_blank s, react_spoil s, react_stop s, react_drydown s,
    Sys2Proof.Laws.Faults.react16n s, fun ha => ⟨Sys2Proof.Laws.Faults.react16 s 16 rfl rfl rfl rfl ha,
      Sys2Proof.Laws.Faults.react16 s 18 rfl rfl rfl rfl ha⟩, fun ha => ?absent, fun ha => ?accord, fun l => ?packets, ?_⟩
  case absent =>
    have hw : ∀ g : State → State, next (s.onWindow 0x3A g) = next (s.raise 5) := fun g => hnx (win_neg s _ g (acdWin s ha))
    have hu : ∀ g : State → State, next (s.onUnit s.hasAccord g) = next s := fun g => hnx (unit_neg s _ g ha)
    exact ⟨hw _, hw _, hu _, hu _, hu _, hu _, hu _, hu _, hu _, hu _⟩
  case accord =>
    have hw : ∀ {g : State → State} {t}, g s = t → next (s.onWindow 0x3A g) = next t := fun hg =>
      congrArg next ((onWindow_present s _ _ (acdWin s ha)).trans hg)
    have hu : ∀ {g : State → State} {t}, g s = t → next (s.onUnit s.hasAccord g) = next t := fun hg =>
      congrArg next ((onUnit_present s _ _ ha).trans hg)
    intro st en on hand
    refine ⟨fun h => ⟨hw (effAcdCtrl_keeps h), hw (effAcdCtrl_keeps h)⟩, fun h => ⟨hw (effAcdCtrl_hands h), hw (effAcdCtrl_hands h)⟩,
      ⟨fun h => hu (effAccordTrainStep_late ha h.1 h.2), fun h => hu (effAccordTrainStep_locks ha h.1 h.2),
        fun h => hu (effAccordTrainStep_greets ha h.1 h.2), fun h => hu (effAccordTrainStep_still ha h.1 h.2), fun h => ?timeout,
        fun h => hu (effAccordTrainTimeout_not h)⟩,
      fun h => hu (effAccordTrainRetry_starts ha h), fun h => hu (effAccordTrainRetry_not h), ?rows,
      fun h => hu (effStateTimer_not h), fun h => hu (effStateTimer_sends h), fun h => hu (effAccordLinkLost_idle h.1 h.2),
      fun h => ⟨fun hl => hu ((effAccordLinkLost_of ha h).trans (if_pos hl)), fun hl => ?lost⟩, mayTake_of ha,
      ⟨hu (effOwnInLow_of ha _), hu (effTokenPowerupTake_of ha _), fun h => hu (effTokenBackoffEnd_none h _),
        fun t0 h => ⟨fun hl => hu (effTokenBackoffEnd_early h hl _), fun hl => hu (effTokenBackoffEnd_ends ha h hl _)⟩⟩,
      rxTko_of ha, fun h => hu (effTokenConflict_not h), fun h => ⟨fun hl => ?keeps, fun hl => ?backs⟩⟩
    case timeout =>
      have h0 : s.acdState ≠ 0 := Nat.one_le_iff_ne_zero.1 h.1
      obtain ⟨hs, hf⟩ := acdDown_facts s (some s.now) ha h0
      exact ⟨_, hu (effAccordTrainTimeout_due h.1 h.2.1 h.2.2), hs, hf, acdDown_step ha _ h0⟩
    case rows =>
      intro k y seqOk legal rows' taken e he
      obtain ⟨hx, h1, h12⟩ := exec_row (s := s) he
      have hr : ∀ {t}, s.accordRow e.1 p e.2.2 = t → exec e.2.1 s = next t := fun ht => hx.trans (hnx ht)
      have hleg : y = e.1 → (TalLink.Legal s 2 p ↔ legal) := fun hy => legal_iff (h1.trans_eq hy.symm) (hy.trans_le h12)
      refine ⟨fun h => hr (h.elim accordRow_other (accordRow_deaf ha)), fun h => ⟨fun hs => hr (accordRow_discarded ha h.1 h.2 hs),
        fun hs => hr (accordRow_broken ha h.1 h.2 hs.1 fun c => hs.2 ((hleg h.1).1 c)),
        fun hs => hr (accordRow_taken ha h.1 h.2 hs.1 ((hleg h.1).2 hs.2))⟩⟩
    case lost =>
      obtain ⟨h1, h2, h3, h4, h5⟩ := effAccordLinkLost_lost (down := down.toNat) ha h hl
      exact ⟨_, hu rfl, h1, h2, h3, h4, h5⟩
    case keeps => exact hu ((effTokenConflict_of ha h).trans (if_neg (Nat.not_le.2 hl)))
    case backs => exact ⟨s.freeWord.toNat % 64 + 1, by omega, by omega, hu ((effTokenConflict_of ha h).trans (if_pos hl))⟩
  case packets =>
    refine ⟨rxHello_idle, ⟨joinReason_token, joinReason_config, joinReason_presence, joinReason_busy, joinReason_device,
        joinReason_none⟩, ⟨rxTime_active, fun h => rxTime_noEcho h.1 h.2, ?steps, ?trims⟩, notShadow_idle,
      fun h => ⟨rxPageq_unknown h, fun i q j => rxPageq_known h, fun i q j => rxGrant_known h, fun a e => rxStage_held h,
        fun a k rest => rxStage_new h⟩, rxState_active, rxState_apart, fun h => ?state⟩
    case steps =>
      intro ⟨h, he, hj⟩
      rw [rxTime_steps h he hj]
      exact ⟨rfl, rfl⟩
    case trims =>
      intro ⟨h, he, hj⟩
      rw [rxTime_trims h he hj]
      exact ⟨rfl, rfl⟩
    case state =>
      obtain ⟨h1, h2⟩ := rxState_web (l := l) h.1 h.2
      refine ⟨h1, h2, fun n hn => ?_⟩
      obtain ⟨m1, m2⟩ := rxState_motor (l := l) h.1 h.2 hn
      obtain ⟨a1, a2⟩ := rxState_axis (l := l) h.1 h.2 hn
      exact ⟨m1, m2, a1, a2⟩
  refine ⟨fun h => hnx (effCoreTest_idle h), fun hg => ⟨fun h => hnx (effCoreTest_absent hg h), fun h =>
      ⟨fun hr => hnx (effCoreTest_refused hg h hr), fun hr => hnx (effCoreTest_starts hg h hr)⟩⟩,
    fun h => hnx (effCoreTestDone_none h), fun n h hn => ⟨_, hnx rfl, coreTestDone_facts h hn⟩, hnx rfl,
    fun d x => ⟨setSvc_absent, fun h => ⟨setSvc_same h, setSvc_returns h, setSvc_leaves h, setSvc_changes h⟩⟩,
    fun h => hnx (effSillageCommit_none h), ?commit, fun h => hnx (effNvmAppCmd_refused h), ?append, rfl, rfl, idcode_parts, rfl,
    fun h => ⟨hnx (jtagTake_taken h), hnx (jtagTake_taken h), hnx (jtagTake_taken h), hnx (jtagTake_taken h), hnx (jtagTake_taken h)⟩,
    exec_bypassed⟩
  case commit =>
    intro r rest h hr
    obtain ⟨hb, hout⟩ := sillageCommit_record h hr
    exact ⟨_, hnx rfl, ⟨Sys2Proof.Laws.Sillage.body_len s r hr, hb, hout⟩, sillageCommit_nvm h⟩
  case append =>
    intro h r
    obtain ⟨h1, h2, h3⟩ := h
    obtain ⟨t, l, hd, hf, hroom, hfull⟩ := appended_outcome h1 r (bits v.toNat 8 8)
    exact ⟨t, l, hd, hf, _, hnx (effNvmAppCmd_of ⟨h1, h2, h3⟩), hroom, hfull⟩

end Sys2Proof.Proofs.FaultsAccord
end
